-- ==== Sys2Proof/Word.lean ====
section
/-! DEFINITION. The machine's word types and the one shape of keyed collection (R2, R37). -/

namespace Sys2Proof

/-- One byte; memory is little-endian throughout (R2). -/
abbrev Byte := BitVec 8

/-- A 32-bit vector register's value (R37). -/
abbrev Word := BitVec 32

/-- A 64-bit value: a register pair, a uniform register, an instruction word, a clause header. -/
abbrev DWord := BitVec 64

/-- A keyed collection as plain data: key and value pairs, keys strictly rising. -/
abbrev Store (α : Type) := List (Nat × α)

end Sys2Proof
end

