-- ==== Sys2Proof/Syntax.lean ====
section
/-! DEFINITION. The instruction syntax: one constructor of `Instr` per row of the opcode table, with typed operand fields.
The first part holds the words of R45 (instruction words), the second the packets of R320 and the device events that the
table lists as steps; an event carries what the step acts on. -/

namespace Sys2Proof

/-! ## Operand fields (R35, R37, R45) -/

/-- A vector register field, v0 to v255; numbers 248 to 255 name h0 to h7 in handler mode (R38). -/
abbrev VReg := BitVec 8
/-- A predicate register p0 to p7. -/
abbrev PReg := BitVec 3
/-- A uniform register g0 to g63. -/
abbrev GReg := BitVec 6
/-- A tile predicate q0 to q15. -/
abbrev QReg := BitVec 4
/-- A semaphore sem0 to sem31. -/
abbrev SemN := BitVec 5
/-- A declared buffer buf0 to buf63. -/
abbrev BufN := BitVec 6
/-- A format slot fs0 to fs7. -/
abbrev FSlot := BitVec 3
/-- An accumulator bank acc0 to acc3. -/
abbrev BankN := BitVec 2
/-- A copy batch 0 to 3. -/
abbrev BatchN := BitVec 2

/-- PRED of R35: `neg` is bit [53], `p` bits [52:50]. -/
structure Guard where
  neg : Bool
  p   : PReg
  deriving DecidableEq, Repr, Inhabited

/-- A source predicate field of R94: negate bit [3], number [2:0]. -/
structure PSrc where
  neg : Bool
  p   : PReg
  deriving DecidableEq, Repr, Inhabited

/-- The common fields of formats R, I, M, G and S: PRED, DSM, LA, DC. -/
structure Head where
  guard : Guard
  dsm   : BitVec 4
  la    : BitVec 4
  dc    : BitVec 3
  deriving DecidableEq, Repr, Inhabited

/-- The common fields of format K: PRED and DSM. -/
structure HeadK where
  guard : Guard
  dsm   : BitVec 4
  deriving DecidableEq, Repr, Inhabited

/-- The common fields of format B: PRED and the uniformity bit U. -/
structure HeadB where
  guard : Guard
  u     : Bool
  deriving DecidableEq, Repr, Inhabited

/-- The common fields of formats X and XK: TN, TQ and XDC; their PRED is always 0b0111 (R253). -/
structure HeadX where
  tn  : Bool
  tq  : QReg
  xdc : BitVec 3
  deriving DecidableEq, Repr, Inhabited

/-! ## Modifiers -/

/-- The six integer comparisons of R104, in code order. -/
inductive Cmp | eq | ne | lt | le | gt | ge
  deriving DecidableEq, Repr, Inhabited

/-- The eight floating comparisons of R123, in code order. -/
inductive FCmp | eq | ne | lt | le | gt | ge | ord | uno
  deriving DecidableEq, Repr, Inhabited

/-- COMB of R104, without its `none` value. -/
inductive CombOp | and | or | xor
  deriving DecidableEq, Repr, Inhabited

/-- The four lane rounding modes of R79. -/
inductive Rm | rn | rz | rm | rp
  deriving DecidableEq, Repr, Inhabited

/-- MOD of IADD and ISUB (R93): CC with its carry predicate, SAT, SGN. -/
structure AddMod where
  cc  : Option PReg
  sat : Bool
  sgn : Bool
  deriving DecidableEq, Repr, Inhabited

/-- MOVI forms of R106. -/
inductive MoviForm | w32 | sx | zx
  deriving DecidableEq, Repr, Inhabited

/-- Half selection of MOVG (R107) and SREAD (R362). -/
inductive Half | lo | hi | pair
  deriving DecidableEq, Repr, Inhabited

/-- Integer kinds of R130. -/
inductive IKind | s32 | u32 | s64 | u64
  deriving DecidableEq, Repr, Inhabited

/-- Float kinds of R130. -/
inductive FKind | f32 | f16 | bf16
  deriving DecidableEq, Repr, Inhabited

/-- SHFL modes of R112. -/
inductive ShflMode | idx | back | fwd | xor
  deriving DecidableEq, Repr, Inhabited

/-- VOTE modes of R113. -/
inductive VoteMode | all | any | same | mask | count | most
  deriving DecidableEq, Repr, Inhabited

/-- MATCH modes of R114. -/
inductive MatchMode | mask | lead | uniq
  deriving DecidableEq, Repr, Inhabited

/-- REDUX operations of R115. -/
inductive ReduxOp | add | min | max | and | or | xor | fadd
  deriving DecidableEq, Repr, Inhabited

/-- PMOV forms of R110. -/
inductive PmovForm
  | toV (d : VReg)
  | fromV (mask : BitVec 7) (a : VReg)
  deriving DecidableEq, Repr, Inhabited

/-- Access widths W of R185. -/
inductive Width | b8 | b16 | b32 | b64 | b128
  deriving DecidableEq, Repr, Inhabited

/-- Element and index widths EW and IW of format G (R45). -/
inductive EWidth | b8 | b16 | b32 | b64
  deriving DecidableEq, Repr, Inhabited

/-- Index fields of format G: width, signedness, scale shift (0 to 4). -/
structure Index where
  iw : EWidth
  is : Bool
  sc : BitVec 3
  deriving DecidableEq, Repr, Inhabited

/-- CINV levels of R194. -/
inductive CinvLvl | l1 | rdc | all
  deriving DecidableEq, Repr, Inhabited

/-- PREF levels of R194. -/
inductive PrefLvl | l1 | l2 | msc
  deriving DecidableEq, Repr, Inhabited

/-- OS of R214 (0xF is illegal): space, ordering and scope together. -/
abbrev AtomOS := BitVec 4

/-- OP of R214. -/
inductive AtomOp | add | minS | maxS | minU | maxU | and | or | exch
  deriving DecidableEq, Repr, Inhabited

/-- SCOPE of R198 (codes 0 to 5). -/
inductive Scope | grp | team | clus | die | dev | sys
  deriving DecidableEq, Repr, Inhabited

/-- KIND of FENCE (R216). -/
inductive FenceKind | ar | acq | rel | sc
  deriving DecidableEq, Repr, Inhabited

/-- Buffer states of R176. -/
inductive BufState | empty | filling | full | draining
  deriving DecidableEq, Repr, Inhabited

/-- DIR of CPY (R239). -/
inductive CpyDir | g2s | s2g | g2g | s2s
  deriving DecidableEq, Repr, Inhabited

/-- SZ of CPY (R239). -/
inductive CpySz | b4 | b8 | b16
  deriving DecidableEq, Repr, Inhabited

/-- Stale-read policies of R308. -/
inductive ViewPol | wait | stale | fault
  deriving DecidableEq, Repr, Inhabited

/-- MOD of PMCTL (R362). -/
inductive PmOp | off | on | clr | clron
  deriving DecidableEq, Repr, Inhabited

/-- MOD of TRCTL (R362). -/
inductive TrMode | off | trace | sample | both
  deriving DecidableEq, Repr, Inhabited

/-- GMOVI forms of R270. -/
inductive GmoviForm | sx | zx | hi
  deriving DecidableEq, Repr, Inhabited

/-- GSHL operations of R270. -/
inductive GshOp | l | r | ra
  deriving DecidableEq, Repr, Inhabited

/-- The second source of GADD and GMUL: a g register or a 9-bit immediate (R270). -/
inductive GSrc9 | reg (g : GReg) | imm (v : BitVec 9)
  deriving DecidableEq, Repr, Inhabited

/-- The second source of GSHL and GCMP: a g register or a 6-bit immediate (R270, R271). -/
inductive GSrc6 | reg (g : GReg) | imm (v : BitVec 6)
  deriving DecidableEq, Repr, Inhabited

/-- The source of QSET (R272). -/
inductive QSetSrc | const (v : Bool) | bit (g : GReg) (n : BitVec 6)
  deriving DecidableEq, Repr, Inhabited

/-- ORD of ACCDR (R294). -/
inductive DrOrd | ord | slot | dense
  deriving DecidableEq, Repr, Inhabited

/-- Thread roles of R20. -/
inductive Role | matrix | copy | vector
  deriving DecidableEq, Repr, Inhabited

/-- Who issues a word, or whose packet is processed: a group in a team slot, a team's sequencer, a command queue. -/
inductive Issuer
  | group (team slot : Nat)
  | seq (team : Nat)
  | packet (queue : Nat)
  deriving DecidableEq, Repr, Inhabited

/-! ## Arguments of the events -/

/-- COP of a LAUNCH packet (R320). -/
inductive Cop | none | write (addr val : DWord) | add (addr val : DWord)
  deriving DecidableEq, Repr, Inhabited

/-- CMP of a FENCE packet entry (R320), in code order: equal, not equal, V at most the counter, the counter below V, both
unsigned, then the same two signed. -/
inductive PCmp | eq | ne | geU | ltU | geS | ltS
  deriving DecidableEq, Repr, Inhabited

/-- OP of a SIGNAL packet (R320). -/
inductive SigOp | write | add | umax
  deriving DecidableEq, Repr, Inhabited

/-- One entry of a FENCE packet (R320). -/
structure PEntry where
  addr : DWord
  cmp  : PCmp
  val  : DWord
  deriving DecidableEq, Repr, Inhabited

/-- What a PARTITION_CONFIG request asks (R330). -/
inductive PartReq
  | create (part : Nat) (clusters : List Nat) (quota spillBase spillSlots prefill pcap : Nat)
  | resize (part : Nat) (clusters : List Nat)
  | delete (part : Nat)
  | ceilings (part prefill pcap : Nat)
  deriving DecidableEq, Repr, Inhabited

/-- What a debugger writes (R278, R357). -/
inductive DebugTarget
  | vreg (team tid reg : Nat) (v : Word)
  | pred (team tid p : Nat) (v : Bool)
  | greg (team g : Nat) (v : DWord)
  | qreg (team q : Nat) (v : Bool)
  | stage (team part st : Nat) (quarter : Option (List (List Word) × List Byte))
  | bankEntry (team bank slot : Nat) (e : BitVec 256)
  | bankStatus (team bank : Nat) (w : DWord)
  deriving DecidableEq, Repr, Inhabited

/-- A host-channel or fabric access (R376, R377). -/
inductive ExtAccess
  | read (va : DWord) (len : Nat)
  | write (va : DWord) (bytes : List Byte)
  deriving DecidableEq, Repr, Inhabited

/-- A request to a home directory (R372): a read by a die's cluster, or ownership by a die. -/
inductive DirReq
  | read (die cluster : Nat)
  | own (die : Nat)
  deriving DecidableEq, Repr, Inhabited

/-- Kinds of corrected error counted apart (R375). -/
inductive CeKind | sram | dram | link
  deriving DecidableEq, Repr, Inhabited

/-- Where an uncorrectable error strikes, or that a group, the sequencer or a host channel of a partition reads poisoned data
(R379). -/
inductive UeWhere
  | line (pa : Nat)
  | dieState (die : Nat)
  | read (part : Nat)
  deriving DecidableEq, Repr, Inhabited

/-- Units with spares, each with its number (R380). -/
inductive SpareUnit
  | core (n : Nat)
  | cluster (n : Nat)
  | pseudoChannel (n : Nat)
  | linkLane (n : Nat)
  | cacheWay (n : Nat)
  | walker (n : Nat)
  deriving DecidableEq, Repr, Inhabited

/-- A corrected error: its kind, and the unit that it counts for. -/
structure CeReport where
  kind : CeKind
  unit : SpareUnit
  deriving DecidableEq, Repr, Inhabited

/-! ## The instructions and events -/

/-- One constructor per row of the opcode table. -/
inductive Instr
  -- integer and logic, 0x000 to 0x07F (R92 to R108)
  | iadd (h : Head) (d a b : VReg) (m : AddMod)
  | iaddImm (h : Head) (d a : VReg) (imm : BitVec 16) (m : AddMod)
  | isub (h : Head) (d a b : VReg) (m : AddMod)
  | isubImm (h : Head) (d a : VReg) (imm : BitVec 16) (m : AddMod)
  | iaddx (h : Head) (d a b : VReg) (c : PSrc) (cc : Option PReg)
  | ineg (h : Head) (d a : VReg) (sat : Bool)
  | iabs (h : Head) (d a : VReg) (sat : Bool)
  | imin (h : Head) (d a b : VReg) (sgn : Bool)
  | iminImm (h : Head) (d a : VReg) (imm : BitVec 16) (sgn : Bool)
  | imax (h : Head) (d a b : VReg) (sgn : Bool)
  | imaxImm (h : Head) (d a : VReg) (imm : BitVec 16) (sgn : Bool)
  | imul (h : Head) (d a b : VReg)
  | imulImm (h : Head) (d a : VReg) (imm : BitVec 16)
  | imulh (h : Head) (d a b : VReg) (sgn : Bool)
  | imulhImm (h : Head) (d a : VReg) (imm : BitVec 16) (sgn : Bool)
  | imulw (h : Head) (d a b : VReg) (sgn : Bool)
  | imad (h : Head) (d a b c : VReg)
  | imadw (h : Head) (d a b c : VReg) (sgn : Bool)
  | idiv (h : Head) (d a b : VReg) (sgn : Bool)
  | imod (h : Head) (d a b : VReg) (sgn : Bool)
  | and (h : Head) (d a b : VReg)
  | andImm (h : Head) (d a : VReg) (imm : BitVec 16)
  | or (h : Head) (d a b : VReg)
  | orImm (h : Head) (d a : VReg) (imm : BitVec 16)
  | xor (h : Head) (d a b : VReg)
  | xorImm (h : Head) (d a : VReg) (imm : BitVec 16)
  | andn (h : Head) (d a b : VReg)
  | andnImm (h : Head) (d a : VReg) (imm : BitVec 16)
  | not (h : Head) (d a : VReg)
  | lop3 (h : Head) (d a b c : VReg) (tt : BitVec 7)
  | lop3Hi (h : Head) (d a b c : VReg) (tt : BitVec 7)
  | shl (h : Head) (d a b : VReg) (wrap : Bool)
  | shlImm (h : Head) (d a : VReg) (imm : BitVec 16) (wrap : Bool)
  | shr (h : Head) (d a b : VReg) (sgn wrap : Bool)
  | shrImm (h : Head) (d a : VReg) (imm : BitVec 16) (sgn wrap : Bool)
  | shf (h : Head) (d a b c : VReg) (right wrap : Bool)
  | rot (h : Head) (d a b : VReg) (right : Bool)
  | rotImm (h : Head) (d a : VReg) (imm : BitVec 16) (right : Bool)
  | bfx (h : Head) (d a b : VReg) (sgn : Bool)
  | bfi (h : Head) (d a b c : VReg)
  | popc (h : Head) (d a : VReg)
  | clz (h : Head) (d a : VReg)
  | ffs (h : Head) (d a : VReg)
  | brev (h : Head) (d a : VReg)
  | icmp (h : Head) (pd : PReg) (a b : VReg) (cmp : Cmp) (sgn : Bool) (comb : Option (CombOp × PSrc))
  | icmpImm (h : Head) (pd : PReg) (a : VReg) (imm : BitVec 16) (cmp : Cmp) (sgn : Bool)
  | isel (h : Head) (d a b : VReg) (c : PSrc)
  | mov (h : Head) (d a : VReg)
  | movi (h : HeadK) (d : VReg) (imm : BitVec 32) (m : MoviForm)
  | movg (h : Head) (d : VReg) (n : GReg) (m : Half)
  | lea (h : Head) (d a b : VReg) (sgn : Bool) (sh : BitVec 3)
  | leaImm (h : Head) (d a : VReg) (imm : BitVec 16) (sgn : Bool) (sh : BitVec 3)
  | add64 (h : Head) (d a b : VReg)
  | add64Imm (h : Head) (d a : VReg) (imm : BitVec 16)
  | sub64 (h : Head) (d a b : VReg)
  | shl64 (h : Head) (d a b : VReg) (wrap : Bool)
  | shl64Imm (h : Head) (d a : VReg) (imm : BitVec 16) (wrap : Bool)
  | shr64 (h : Head) (d a b : VReg) (sgn wrap : Bool)
  | shr64Imm (h : Head) (d a : VReg) (imm : BitVec 16) (sgn wrap : Bool)
  | icmp64 (h : Head) (pd : PReg) (a b : VReg) (cmp : Cmp) (sgn : Bool) (comb : Option (CombOp × PSrc))
  -- floating point and conversion, 0x080 to 0x0FF (R118 to R136)
  | fadd (h : Head) (d a b : VReg) (na nb : Bool) (rnd : Rm)
  | fsub (h : Head) (d a b : VReg) (na nb : Bool) (rnd : Rm)
  | fmul (h : Head) (d a b : VReg) (na nb : Bool) (rnd : Rm)
  | ffma (h : Head) (d a b c : VReg) (na nb nc : Bool) (rnd : Rm)
  | fmin (h : Head) (d a b : VReg) (na nb : Bool)
  | fmax (h : Head) (d a b : VReg) (na nb : Bool)
  | fcmp (h : Head) (pd : PReg) (a b : VReg) (cmp : FCmp) (comb : Option (CombOp × PSrc))
  | frnd (h : Head) (d a : VReg) (na : Bool) (rnd : Rm)
  | fclass (h : Head) (d a : VReg)
  | frcp (h : Head) (d a : VReg) (na : Bool) (rnd : Rm)
  | frsq (h : Head) (d a : VReg) (na : Bool)
  | fsqrt (h : Head) (d a : VReg) (na : Bool) (rnd : Rm)
  | fex2 (h : Head) (d a : VReg) (na : Bool)
  | flg2 (h : Head) (d a : VReg) (na : Bool)
  | fsin (h : Head) (d a : VReg) (na : Bool)
  | fcos (h : Head) (d a : VReg) (na : Bool)
  | hadd2 (h : Head) (d a b : VReg) (na nb bf : Bool) (rnd : Rm)
  | hmul2 (h : Head) (d a b : VReg) (na nb bf : Bool) (rnd : Rm)
  | hfma2 (h : Head) (d a b c : VReg) (na nb nc bf : Bool) (rnd : Rm)
  | hmin2 (h : Head) (d a b : VReg) (na nb bf : Bool)
  | hmax2 (h : Head) (d a b : VReg) (na nb bf : Bool)
  | hcmp2 (h : Head) (pd : PReg) (a b : VReg) (cmp : FCmp) (bf : Bool) (comb : Option (CombOp × PSrc))
  | cvtfi (h : Head) (d a : VReg) (ik : IKind) (fk : FKind) (hi : Bool) (rnd : Rm)
  | cvtif (h : Head) (d a : VReg) (ik : IKind) (fk : FKind) (rnd : Rm)
  | cvtff (h : Head) (d a : VReg) (dk ak : FKind) (hi : Bool) (rnd : Rm)
  | bpq (h : Head) (d a b : VReg) (fs : FSlot) (xs : Bool)
  | bpdq (h : Head) (d a : VReg) (fs : FSlot)
  | bppk (h : Head) (d a : VReg)
  | bpupk (h : Head) (d a : VReg) (fs : FSlot)
  -- exchange and predicate, 0x100 to 0x13F (R109 to R115)
  | plop (h : Head) (pd : PReg) (a b : PSrc) (tt : BitVec 4)
  | pmov (h : Head) (f : PmovForm)
  | shfl (h : Head) (d a b : VReg) (mode : ShflMode) (own : Bool)
  | shflImm (h : Head) (d a : VReg) (imm : BitVec 5) (mode : ShflMode) (own : Bool)
  | vote (h : Head) (d : VReg) (mode : VoteMode) (a : PSrc)
  | matchV (h : Head) (d a : VReg) (mode : MatchMode) (b64 : Bool)
  | redux (h : Head) (d a : VReg) (op : ReduxOp) (sgn scan : Bool)
  -- memory, 0x140 to 0x1BF (R188 to R195)
  | ld (h : Head) (d a : VReg) (imm : BitVec 16) (w : Width) (sx na sp : Bool)
  | st (h : Head) (d a : VReg) (imm : BitVec 16) (w : Width) (sp : Bool)
  | ldk (h : Head) (d a : VReg) (imm : BitVec 16) (w : Width) (sx : Bool)
  | ldx (h : Head) (d a : VReg) (imm : BitVec 16) (w : Width) (sx : Bool)
  | stx (h : Head) (d a : VReg) (imm : BitVec 16) (w : Width)
  | gath (h : Head) (d a b : VReg) (ix : Index) (ew : EWidth) (sx sp : Bool)
  | scat (h : Head) (d a b : VReg) (ix : Index) (ew : EWidth) (sp : Bool)
  | ldl (h : Head) (d a : VReg) (imm : BitVec 16)
  | stl (h : Head) (d a : VReg) (imm : BitVec 16)
  | lyld (h : Head) (d a : VReg) (imm : BitVec 16)
  | lydrop (h : Head) (a : VReg)
  | cinv (h : Head) (a : VReg) (imm : BitVec 16) (lvl : CinvLvl)
  | pref (h : Head) (a : VReg) (imm : BitVec 16) (lvl : PrefLvl)
  | twalk (h : Head) (d a b : VReg) (n : BitVec 4)
  -- atomics and synchronisation, 0x1C0 to 0x1FF (R213 to R227)
  | atom (h : Head) (d a : VReg) (imm : BitVec 16) (os : AtomOS) (op : AtomOp)
  | acas (h : Head) (d a b c : VReg) (os : AtomOS) (w64 : Bool)
  | ared (h : Head) (d a : VReg) (imm : BitVec 16) (os : AtomOS) (op : AtomOp)
  | fence (h : Head) (kind : FenceKind) (uo : Bool) (scope : Scope)
  | pfence (h : Head) (mask : BitVec 6)
  | semp (h : Head) (sem : SemN) (n : BitVec 16) (scope : Scope)
  | semw (h : Head) (sem : SemN) (n : BitVec 16) (scope : Scope)
  | semx (h : Head) (sem : SemN) (n : BitVec 16)
  | arrive (h : Head) (d : VReg) (sem : SemN) (n : BitVec 16) (scope : Scope) (rp : Bool)
  | waitph (h : Head) (d : VReg) (sem : SemN) (phi : Bool) (scope : Scope) (src : Bool)
  | bufs (h : Head) (buf : BufN) (st : BufState) (scope : Scope)
  | bufw (h : Head) (buf : BufN) (st : BufState) (ph : Option Bool) (scope : Scope)
  -- copy and near-memory, 0x200 to 0x23F (R229 to R247)
  | cpy (h : Head) (a b : VReg) (dir : CpyDir) (bid : BatchN) (sz : CpySz) (rel : Bool)
  | cpyl (h : Head) (a b c : VReg) (bid : BatchN) (full rel : Bool)
  | cpyd (h : Head) (fs : FSlot) (a b c : VReg) (bid : BatchN) (full rel : Bool) (tab : BitVec 2)
  | cbld (h : Head) (a : VReg) (tab : BitVec 2)
  | cpyc (h : Head) (d a : VReg) (bid : BatchN) (sem : Option SemN)
  | crwait (h : Head) (d a : VReg)
  | crpop (h : Head) (a : VReg) (n : BitVec 16)
  | gathn (h : Head) (d a b : VReg) (ix : Index) (ew : EWidth) (bid : BatchN) (full rel : Bool)
  -- views, 0x240 to 0x24F (R308 to R314)
  | vreg (h : Head) (d a b : VReg) (pol : ViewPol)
  | vdrop (h : Head) (a : VReg)
  | vsync (h : Head) (d a : VReg) (cur : Bool)
  | vgen (h : Head) (d a : VReg) (view : Bool)
  | vpol (h : Head) (a : VReg) (pol : ViewPol)
  | vstat (h : Head) (d a : VReg) (clr : Bool)
  -- work, 0x250 to 0x27F (R333 to R336)
  | spawn (h : Head) (a b : VReg) (prio : Option (BitVec 4))
  | spawnc (h : Head) (d a b c : VReg) (prio : Option (BitVec 4))
  | done (h : Head) (a : VReg) (n : BitVec 16)
  | enq (h : Head) (a b : VReg) (try_ : Option PReg)
  | deq (h : Head) (d a : VReg) (try_ : Option PReg)
  | klaunch (h : Head) (a b : VReg) (cnt : Bool)
  -- control, 0x280 to 0x2BF (R155 to R162)
  | bra (h : HeadB) (off : BitVec 32)
  | brx (h : HeadB) (a : VReg) (off : BitVec 32) (sh : BitVec 3)
  | call (h : HeadB) (a : VReg) (off : BitVec 32)
  | callx (h : HeadB) (a : VReg)
  | ret (h : HeadB) (a : VReg)
  | join
  | exit (g : Guard)
  | nop (g : Guard)
  | waitdc (g : Guard) (mask : BitVec 6) (n : BitVec 6)
  -- system, 0x2C0 to 0x2FF (R362 to R368)
  | trap (g : Guard) (code : BitVec 16)
  | tfence (g : Guard)
  | yield (n : BitVec 9)
  | rth
  | sread (h : Head) (d : VReg) (sel : BitVec 16) (m : Half)
  | bkpt (g : Guard) (code : BitVec 16)
  | swrite (g : Guard) (a : VReg) (sel : BitVec 16) (pair : Bool)
  | ebset (h : Head) (a : VReg)
  | pmctl (h : Head) (a : VReg) (n : BitVec 3) (op : PmOp)
  | trctl (h : Head) (a : VReg) (mode : TrMode) (k : BitVec 5)
  | ctxsave (h : Head) (a : VReg)
  | halt (code : BitVec 16)
  -- matrix stream, 0x300 to 0x3FF (R257 to R295)
  | qbind (h : Head) (a b : VReg) (st sc : Bool) (n : BitVec 4)
  | qrel (h : Head) (st : Bool)
  | mma (x : HeadX) (ga : GReg) (fsa fsb : FSlot) (ec : BitVec 2) (acc : BankN) (st : Bool)
  | smma (x : HeadX) (ga : GReg) (fsa fsb : FSlot) (ec : BitVec 2) (acc : BankN)
  | gmov (x : HeadX) (gd ga : GReg)
  | gmovi (x : HeadX) (gd : GReg) (imm : BitVec 32) (m : GmoviForm)
  | gadd (x : HeadX) (gd ga : GReg) (src : GSrc9) (sub : Bool)
  | gmul (x : HeadX) (gd ga : GReg) (src : GSrc9)
  | gshl (x : HeadX) (gd ga : GReg) (src : GSrc6) (op : GshOp)
  | gcmp (x : HeadX) (qd : QReg) (ga : GReg) (src : GSrc6) (cmp : Cmp) (sgn : Bool)
  | gld (x : HeadX) (gd ga : GReg) (imm : BitVec 10) (sp : Bool)
  | gbra (x : HeadX) (off : BitVec 32)
  | gloop (x : HeadX) (gd : GReg) (off : BitVec 32)
  | qset (x : HeadX) (qd : QReg) (src : QSetSrc)
  | qlop (x : HeadX) (qd qa qb : QReg) (na nb : Bool) (tt : BitVec 4)
  | mend
  | accz (x : HeadX) (acc : BankN) (hash : Option (BitVec 9))
  | jmac (x : HeadX) (gd ga gb : GReg) (fsa fsb : FSlot) (ec : BitVec 2) (acc : BankN) (stop : Bool)
  | jins (x : HeadX) (gd ga : GReg) (fsa : FSlot) (acc : BankN) (stop : Bool)
  | accsp (x : HeadX) (acc : BankN) (buf : BufN)
  | accdr (x : HeadX) (gd ga : GReg) (fsa : FSlot) (acc : BankN) (od : DrOrd) (clr full : Bool)
  | acccnt (x : HeadX) (gd : GReg) (acc : BankN)
  -- packets of a command queue (R319, R320)
  | packetNop (q : Nat) (len : BitVec 2) (bar : Bool)
  | launch (q : Nat) (bar : Bool) (rec : DWord) (cop : Cop)
  | packetFence (q : Nat) (bar : Bool) (es : List PEntry)
  | signal (q : Nat) (bar : Bool) (op : SigOp) (addr val : DWord)
  | edge (q : Nat) (bar consumer : Bool) (k : Nat) (desc : DWord)
  | inval (q : Nat) (bar : Bool) (len : BitVec 2) (ranges : List (DWord × DWord))
  | timestamp (q : Nat) (bar : Bool) (addr : DWord)
  -- command processor and management controller
  | errClear (q : Nat)
  | readAhead (q : Nat)
  | queueParse (q : Nat)
  | contextRegister (part : Nat) (debug : Bool) (desc : BitVec 512)
  | queueRegister (q ctx : Nat) (va : DWord)
  | partitionConfig (r : PartReq)
  | clusterMove (c src dst deadline : Nat)
  | translationInvalidate (ctx : Nat) (base len : DWord)
  | rdcResize (die : Nat) (code : BitVec 4)
  | savePoolRegister (part : Nat) (slots : List Nat)
  | coreImageAreaRegister (ctx addr : Nat)
  | hostChannelBind (ch ctx : Nat)
  | cinchIdAssign (id : BitVec 12) (routes : List (Nat × Nat))
  | contextEnd (ctx : Nat)
  | checkpoint (parts : List Nat)
  | attestationReport (nonce : BitVec 256)
  | debugStop (core part : Nat)
  | debugResume (core part : Nat)
  | debugRegisterWrite (t : DebugTarget)
  -- cores, teams and engines
  | teamPlace (core : Nat)
  | issueSelect (core slot : Nat)
  | clauseFetch (i : Issuer)
  | transferResolve (team slot : Nat)
  | formation (core : Nat)
  | joinRelease (team : Nat) (role : Role)
  | teamComplete (team : Nat)
  | gridComplete (grid : Nat)
  | longLatencyComplete (op : Nat)
  | storeDrain (core n : Nat)
  | bufferTransition (team buf : Nat)
  | semaphoreWaitRelease (i : Issuer)
  | bufferWaitRelease (i : Issuer)
  | classWWaitRelease (i : Issuer)
  | edgeRetry (i : Issuer)
  | batchComplete (batch : Nat)
  | ringFullRetry (batch : Nat)
  | chunkPost (batch : Nat)
  | copyRequestComplete (op : Nat)
  | awlBurst (op : Nat)
  | uncorrectableError (w : UeWhere)
  | skiverRefresh (ctx slot block : Nat)
  | matrixComplete (op : Nat)
  | energyDebitWaitEnd (team : Nat)
  | budgetRefill (ctx : Nat)
  | qbindLatch (team stage : Nat)
  | sequencerTrapDelivery (team : Nat)
  | cooperativeSave (team : Nat)
  | preemptDeadline (team : Nat)
  | savePoolWaitEnd (team : Nat)
  | nearArrayRebalance (core : Nat)
  | packetPoll (q : Nat)
  | traceSync (core : Nat)
  | directoryRequest (pa : Nat) (r : DirReq)
  | directoryMerge (quad base size : Nat)
  -- links, errors, maintenance
  | fabricInboundRequest (pkg ctx : Nat) (a : ExtAccess)
  | flitCrcRetry (port : Nat)
  | linkPortFail (port : Nat)
  | hostChannelAccess (ch : Nat) (a : ExtAccess)
  | correctedError (r : CeReport)
  | spareActivation (u : SpareUnit)
  | dieFaultReplay (die : Nat)
  | journalFull
  | firmwareVerify (image sig : List Byte)
  | thermalThrottle (part prefill : Nat)
  | sample (core part : Nat)
  | coreReset (core : Nat)
  | preemptRequest (team : Nat) (deadline : Option Nat)
  | debuggerAttach (ctx : Nat) (attach : Bool)
  | fabricAccessOpen (ctx : Nat)
  | criticalTemperature (save : Bool)
  deriving DecidableEq, Repr, Inhabited

end Sys2Proof
end

