-- ==== Sys2Proof/Machine/State.lean ====
section
/-! DEFINITION. The machine's state as plain data: everything the manual gives the package, and its value right after reset.
Keyed collections are `Store`s (keys rising); an absent key reads as the default its docstring names. -/

namespace Sys2Proof.Machine

/-- Why the machine stops. -/
inductive Fault
  /-- Raised by `step` alone, in a package that CRITICAL_TEMPERATURE has stopped (R384's chapter, bring-up); safe: the
  manual gives a stopped package no further step. -/
  | packageStopped
  deriving DecidableEq, Repr, Inhabited

/-- Why an instruction has no meaning. -/
inductive Refusal
  /-- Raised by the refused arms of `exec`: an instruction not reached yet, by its mnemonic; safe. -/
  | notModelled (mnemonic : String)
  deriving DecidableEq, Repr, Inhabited

/-! ## Threads and groups -/

/-- One scoreboard entry of a thread (R43, R352): the register (256 to 263 for h0 to h7), the slices it will write, the
window left, whether it has arrived, its value, the operation it comes from, and whether handler mode opened it. -/
structure PendingWrite where
  reg   : Nat
  dsm   : BitVec 4
  win   : Nat
  arr   : Bool
  value : Word
  op    : Nat
  hnd   : Bool
  deriving DecidableEq, Repr, Inhabited

/-- The flags of a class F word, the cycle at which its result becomes available (R119), and what it writes: registers (256 to
263 for h0 to h7) and predicates, on which later words interlock (R91, R118). -/
structure LateFlag where
  due   : Nat
  flags : Word
  regs  : List Nat
  preds : List PReg
  deriving DecidableEq, Repr, Inhabited

/-- A thread (R138, R39). Registers absent from `regs` read 0, tags absent from `tags` read 0b1111, counters absent from
`dc` read 0. `late` holds the flags of class F words (R119). -/
structure Thread where
  role    : Role
  live    : Bool
  regBase : Nat
  regs    : Store Word
  tags    : Store (BitVec 4)
  preds   : BitVec 7
  dc      : Store Nat
  fflags  : Word
  late    : List LateFlag
  pend    : List PendingWrite
  saveN   : Option Nat
  mark    : Bool
  deriving DecidableEq, Repr, Inhabited

/-- Clause classes (R31). -/
inductive Cls | gen | lane | mtx | sys
  deriving DecidableEq, Repr, Inhabited

/-- A fetched clause (R30, R31): it runs as fetched (R33). -/
structure Clause where
  addr  : Nat
  cls   : Cls
  waitz : BitVec 6
  prio  : Nat
  yp    : Bool
  words : List DWord
  deriving DecidableEq, Repr, Inhabited

/-- The transfer instructions of R155. -/
inductive TransferKind | bra | brx | call | callx | ret | join | exit
  deriving DecidableEq, Repr, Inhabited

/-- An issued transfer that has not resolved (R144): next addresses per lane, active lanes, and the link pair of the
calls. -/
structure Transfer where
  kind   : TransferKind
  u      : Bool
  nexts  : List (Nat × DWord)
  active : List Nat
  link   : Option VReg
  deriving DecidableEq, Repr, Inhabited

/-- What holds a group: nothing, a class W instruction or a blocked edge operation, or a YIELD (R347). -/
inductive GStatus | ready | waiting | yielded
  deriving DecidableEq, Repr, Inhabited

/-- A group in a team slot (R138, R338). `members` maps lanes to thread ids; `seen` tells that the condition its wait needs
has held since the wait began (R221, R227); `cons` is what each lane of a waiting CRWAIT has read, and whether it is done
(R244), or, for a waiting LDL, 1 plus the view whose SR the lane's data sets (0: none), and whether the lane's outcome stands
(R305); `lays` is the record that each lane of a waiting LDL has read from its binding (R193); `counted` tells that a waiting
word of a deterministic team has counted already (R399); `left` is the priority of the clause that the group has left while no
word of the next one has retired (log 39). -/
structure Group where
  members    : Store Nat
  pc         : Nat
  wix        : Nat
  clause     : Option Clause
  waitzDone  : Bool
  handler    : Bool
  seqTrap    : Bool
  hregs      : Store Word
  hmaskOld   : Word
  hmaskFault : Word
  hpc        : DWord
  hcause     : Word
  haddr      : DWord
  hinfo      : Word
  kept       : Nat × Nat
  keptLanes  : List Nat
  status     : GStatus
  seen       : Bool
  counted    : Bool
  cons       : Store (Nat × Bool)
  lays       : Store (BitVec 512)
  left       : Option Nat
  transfer   : Option Transfer
  doneLanes  : List Nat
  gArg       : DWord
  lastIssue  : Nat
  deriving DecidableEq, Repr, Inhabited

/-- A frontier entry (R141): role, priority, clause address, held flag, and waiting threads with their stamps. -/
structure FrontEntry where
  role    : Role
  prio    : Nat
  addr    : Nat
  held    : Bool
  threads : List (Nat × Nat)
  deriving DecidableEq, Repr, Inhabited

/-- Who waits on a semaphore: a group slot, or the sequencer (`none`). -/
abbrev Waiter := Option Nat

/-- A semaphore (R218), with the SEMW waiters in arrival order (R221). -/
structure Sem where
  reload  : Nat
  count   : Nat
  phase   : Bool
  ovf     : Bool
  unf     : Bool
  waiters : List Waiter
  deriving DecidableEq, Repr, Inhabited

/-- A requested buffer transition (R179, R226) and the operations it waits for; `op` is the requesting operation, `scope` its
scope, and `tids` the threads that request it (none: the sequencer). -/
structure BufReq where
  target : BufState
  waits  : List Nat
  op     : Nat
  scope  : Scope
  tids   : Option (List Nat)
  deriving DecidableEq, Repr, Inhabited

/-- A declared buffer (R176); size 0 means undeclared. -/
structure Buf where
  off   : Nat
  size  : Nat
  state : BufState
  phase : Bool
  reqs  : List BufReq
  deriving DecidableEq, Repr, Inhabited

/-- An entry of the binding table (R182). -/
structure Binding where
  bound : Bool
  gen   : Nat
  word  : BitVec 512
  deriving DecidableEq, Repr, Inhabited

/-! ## The sequencer -/

/-- A latched B quarter (R257, R258): plane words from plane 7 down, each 32 lanes; one scale byte per lane. -/
structure Quarter where
  planes : List (List Word)
  scales : List Byte
  deriving DecidableEq, Repr, Inhabited

/-- An accepted QBIND (`some`) or QREL (`none`) that has not taken effect, with its operation (R259 to R261). -/
structure StageReq where
  op      : Nat
  quarter : Option Quarter
  deriving DecidableEq, Repr, Inhabited

/-- A B stage of one partition (R258). -/
structure BStage where
  cur  : Option Quarter
  reqs : List StageReq
  deriving DecidableEq, Repr, Inhabited

/-- An occupied accumulator entry (R280): 48-bit key I ‖ J and the X176 value. -/
structure AccEntry where
  key   : BitVec 48
  value : BitVec 176
  deriving DecidableEq, Repr, Inhabited

/-- An accumulator bank (R279 to R281): absent slots are FREE; `flags` is status bits [54:48] (XV XI XO NV OF UF NX). -/
structure Bank where
  hash   : Bool
  nbm1   : Nat
  ents   : Store AccEntry
  res    : Nat
  spilln : Nat
  spill  : Option Nat
  flags  : BitVec 7
  deriving DecidableEq, Repr, Inhabited

/-- A raised sequencer trap (R255), and the slot it was delivered to. -/
structure SeqTrap where
  cause : Nat
  hpc   : DWord
  haddr : DWord
  hinfo : Word
  slot  : Option Nat
  deriving DecidableEq, Repr, Inhabited

/-- What holds the sequencer. -/
inductive SStatus | ready | waiting | energy | ended
  deriving DecidableEq, Repr, Inhabited

/-- The team sequencer (R251). Absent g registers and counters read 0. -/
structure Seq where
  pc        : Nat
  wix       : Nat
  clause    : Option Clause
  waitzDone : Bool
  status    : SStatus
  seen      : Bool
  g         : Store DWord
  q         : BitVec 15
  dc        : Store Nat
  trap      : Option SeqTrap
  mark      : Bool
  deriving DecidableEq, Repr, Inhabited

/-! ## Engine operations -/

/-- A translated place: virtual and physical address, path code, whether its page is tracked, its ordering kind (0 RC, 1 SO,
2 UO), and whether it is a master's (MV). A run of places in one 64 KiB range is named by the range's first. -/
structure Place where
  va      : Nat
  pa      : Nat
  path    : Nat
  tracked : Bool
  ord     : Nat
  mv      : Bool
  deriving DecidableEq, Repr, Inhabited

/-- Where one copied byte comes from: a place, a scratchpad byte of the team, a constant, bits `keep` of a place's byte
with bits `put` set, or a byte of another package. -/
inductive ByteSrc
  | home (p : Place)
  | sp (off : Nat)
  | const (b : Byte)
  | mix (p : Place) (keep put : Byte)
  | fab (a : DWord)
  | fabMix (a : DWord) (keep put : Byte)
  deriving DecidableEq, Repr, Inhabited

/-- Where one copied byte goes: a place, a scratchpad byte of the team, or a byte of another package. -/
inductive ByteDst
  | home (p : Place)
  | sp (off : Nat)
  | fab (a : DWord)
  deriving DecidableEq, Repr, Inhabited

/-- One move of an engine thread (R233, R238). -/
structure Move where
  dst : ByteDst
  src : ByteSrc
  deriving DecidableEq, Repr, Inhabited

/-- One element of a copy: its number and address, the view block it is read through (VID, element address, block, whether
the read has been waiting, R240, R305), the source bytes it counts, and its moves. -/
structure CopyElem where
  idx    : Nat
  addr   : DWord
  view   : Option (Nat × Nat × Nat)
  waited : Bool
  bytes  : Nat
  moves  : List Move
  deriving DecidableEq, Repr, Inhabited

/-- A GATHN in progress (R246 to R248): `list` is the translated index list, which starts at `listAt`; `idx` holds the indices
read, `vals` the elements read, none for those that give no bytes, and the bursts from element `next` on are not written. -/
structure Awl where
  dst    : Nat
  n      : Nat
  base   : DWord
  listAt : Nat
  list   : List Place
  ix     : Index
  ew     : EWidth
  idx    : Store Nat
  vals   : Store (Option (List Byte))
  next   : Nat
  deriving DecidableEq, Repr, Inhabited

/-- Where a load's bytes lie: a place, a scratchpad offset of a team, or another package. -/
inductive LoadSrc
  | mem (p : Place)
  | sp (team off : Nat)
  | fab (a : DWord)
  deriving DecidableEq, Repr, Inhabited

/-- What the values read become: the bytes of a load from register d, extended or not; or the value of a layout element
under a format slot, with its position in its block (R185, R191); or a register of the sequencer (R273). -/
inductive LoadFmt
  | bytes (d n : Nat) (sx : Bool)
  | elem (d : Nat) (slot : DWord) (pos : Nat)
  | greg (g : Nat)
  deriving DecidableEq, Repr, Inhabited

/-- What one lane of a load has still to read (R205, R208): its thread (none: the sequencer), whether handler mode issued it,
its NA bit, and the sources with their lengths, each read in one event. -/
structure LoadElem where
  tid  : Option Nat
  hnd  : Bool
  na   : Bool
  srcs : List (LoadSrc × Nat)
  fmt  : LoadFmt
  deriving DecidableEq, Repr, Inhabited

/-- The engines that a protection violation may freeze (R378): a core's copy unit, the gathers of a core's threads, and a
context's refreshes by the Skiver. -/
inductive EngineUnit | copy | gather | skiver
  deriving DecidableEq, Repr, Inhabited

/-- What an issued operation still has to do before it can complete. -/
inductive OpKind
  /-- Only the arrival of its results. -/
  | plain
  /-- A load: the elements not read yet (R205, R208). -/
  | load (elems : List LoadElem)
  /-- Floating-point flags to set at completion, per thread (R119). -/
  | flags (fl : List (Nat × Word))
  /-- A copy or tile copy of a batch (R239, R240): the elements not read, and the bytes to write. -/
  | copy (batch order : Nat) (elems : List CopyElem) (out : List (ByteDst × Byte))
  /-- CPYD: n indices of 4, 6 or 8 bits from the stream at an address are expanded through a table (R242). -/
  | expand (batch order dst n width table at_ : Nat) (stream : List Place)
  /-- A near-memory gather (R247). -/
  | awl (batch order : Nat) (a : Awl)
  /-- A codebook load of a table from a place, and the operations it follows (R241). -/
  | cbld (table : Nat) (image : Place) (after : List Nat)
  /-- A closed batch whose record is not written (R236). -/
  | batch (id : Nat)
  /-- A requested buffer transition (R226). -/
  | bufs (buf : Nat)
  /-- A QBIND or QREL waiting to take effect (R259, R260); the key is 2·partition + stage. -/
  | stage (key : Nat)
  /-- An issued MMA or SMMA: the bank, the stage keys it reads, the buffer of A, its sums as integer multiples of 2^-72
  (R264), and the cycle at which its occupancy ends (R265). -/
  | matrix (bank : Nat) (keys : List Nat) (buf : Nat) (sums : List (BitVec 176)) (ends : Nat)
  /-- A drain: the bytes to write at scratchpad offsets, in order, and whether it clears its bank (R294). -/
  | drain (bank buf : Nat) (bytes : List (Nat × Byte)) (clr : Bool)
  /-- A load of the sequencer: the g register and the value (R273). -/
  | gload (g : Nat) (v : DWord)
  /-- A VPOL whose policy is not in force yet (R313): view slot and tag. -/
  | vpol (slot tag : Nat) (pol : ViewPol)
  /-- A SPAWN waiting for room in the ready queue (R328, R334): code and frame of each lane's task, and its priority. -/
  | spawn (tasks : List (DWord × DWord)) (prio : Nat)
  /-- A KLAUNCH whose grid still has TEAM records to write (R336). -/
  | klaunch (grid : Nat)
  /-- A CRPOP waiting for its threads' earlier reads (R245): the descriptor, the ring's BASE and LOGN, and the ring's places, as
  they were translated at the issue (R232). -/
  | crpop (desc : Place) (base logn n : Nat) (after : List Nat) (ring : List Place)
  /-- Bank work done at its issue that has not completed: additions of JMAC and JINS, or an ACCZ or ACCSP (R265, R286). -/
  | bank (bank : Nat) (adds : Bool)
  /-- A CTXSAVE whose image goes to a virtual address (R367). -/
  | ctxsave (addr : Nat)
  deriving DecidableEq, Repr, Inhabited

/-- An issued operation (R44): the threads it counts on (or the sequencer), those that issued it, the counter, whether it
reads for them, whether it is an atomic (R353), and what is left of it. -/
structure Op where
  team : Nat
  tids : List Nat
  iss  : List Nat
  seq  : Bool
  dc   : Nat
  read : Bool
  atom : Bool
  kind : OpKind
  deriving DecidableEq, Repr, Inhabited

/-- The close of a batch (R243): the descriptor, the ring read at issue and its translation, the tag, and the CPYC's
operation. -/
structure BatchClose where
  desc : Place
  base : Nat
  logn : Nat
  ring : List Place
  tag  : Word
  op   : Nat
  deriving DecidableEq, Repr, Inhabited

/-- A copy batch (R229, R235 to R237): its requests, byte counts, posts, flags and first failing element (request order,
element, cause, address); `mark` tells a write to a master's page (R300), `lines` the source lines it has read, keyed by
8·line + path, and `fabs` the step at which it has read a line of another package (R239). -/
structure Batch where
  team   : Nat
  core   : Nat
  bid    : Nat
  nreq   : Nat
  live   : List Nat
  bytes  : Nat
  dst    : Nat
  posted : Nat
  flags  : BitVec 4
  err    : Bool
  fault  : Option (Nat × Nat × Nat × DWord)
  sem    : Option Nat
  close  : Option BatchClose
  full   : Bool
  mark   : Bool
  lines  : Store (List Byte)
  fabs   : Store Nat
  deriving DecidableEq, Repr, Inhabited

/-! ## Teams, grids, queues -/

/-- A store accepted by its core's coalescing buffers and not yet drained (R173, R212): `inst` is the operation of its
instruction; `keep` names the bits of each byte that it leaves as they are (absent bytes: none, R191); `vis` is 0 until a
release at less than `.dev` has performed it for an instance, then 1 plus the scope's code (R198, R216). -/
structure HeldStore where
  core  : Nat
  inst  : Nat
  team  : Nat
  tid   : Nat
  lane  : Nat
  va    : Nat
  pa    : Nat
  bytes : List Byte
  keep  : List Byte
  path  : Nat
  ord   : Nat
  mv    : Bool
  track : Bool
  vis   : Nat
  held  : Bool
  deriving DecidableEq, Repr, Inhabited

/-- The 256-byte launch record, checked (R325), with its buffer table (number, offset, size in bytes). -/
structure LaunchRec where
  addr    : Nat
  entry   : Nat
  stream  : Nat
  karg    : DWord
  htvec   : Nat
  threads : Nat
  gridX   : Nat
  gridY   : Nat
  gridZ   : Nat
  determ  : Bool
  priv    : Bool
  prio    : Nat
  tcl     : Nat
  xslots  : Nat
  copyg   : Nat
  budV    : Nat
  budC    : Nat
  budM    : Nat
  smin    : Nat
  smax    : Nat
  fs      : List DWord
  sems    : List Nat
  bufs    : List (Nat × Nat × Nat)
  deriving DecidableEq, Repr, Inhabited

/-- A launch of a context (R322): TEAM records written and teams completed, TASK records not completed, pooled continuations,
its completion operation, the ranges that its boundary lists, if it is a listed one (R323), and the core, code and time of a HALT whose core image is not written yet (R368); `code` holds the
lines of its first clauses that were staged, until its first team is placed (R26). -/
structure Grid where
  ctx      : Nat
  part     : Nat
  num      : Nat
  lrec     : LaunchRec
  queue    : Option Nat
  cop      : Cop
  listed   : Option (List (DWord × DWord))
  written  : Nat
  done     : Nat
  tasks    : Nat
  pool     : Nat
  halted   : Bool
  halting  : Option (Nat × Nat × Nat)
  code     : Store (List Byte)
  deriving DecidableEq, Repr, Inhabited

/-- A runnable record's kind (R327). -/
inductive RecKind | team | task | saved
  deriving DecidableEq, Repr, Inhabited

/-- A continuation record (R327); `slot` is a continuation's own slot of the spill area, `spill` the one that a record beyond
the head 4,096 lies in (R328); a saved team's names its image by `code`, with bit 0 set (R348), and `task` tells that it is a
task's. -/
structure ContRec where
  grid   : Nat
  kind   : RecKind
  task   : Bool
  prio   : Nat
  code   : DWord
  frame  : DWord
  tidx   : Nat
  join   : Nat
  time   : Nat
  seqno  : Nat
  slot   : Option Nat
  spill  : Option Nat
  deriving DecidableEq, Repr, Inhabited

/-- The kinds of saved image (R350). -/
inductive ImageKind | yield | forced | ctxsave
  deriving DecidableEq, Repr, Inhabited

/-- A resident team (R18 to R22, R138 to R147, R345, R346). `reqNext` is a change of REQ that a deterministic team takes at its
next sweep (R399), `reqAt` the cycle at which REQ was set, `reqNoted` tells that its deadline's notice has been sent (R355).
`rot` and `turn` are the
rotation positions, as team slots, and the partition whose turn is next; `saving` is the save in progress; `mates` are the
teams of its cluster, itself included, and `mateSp` the scratchpad size of each; `prio` is its record's priority, `staged` the
code lines that its first fetches take from the staging store (R26). -/
structure Team where
  grid      : Nat
  ctx       : Nat
  core      : Nat
  task      : Bool
  prio      : Nat
  tidx      : Nat
  karg      : DWord
  code      : Nat
  staged    : Store (List Byte)
  nthr      : Nat
  home      : Nat
  extra     : Nat
  mgroups   : Nat
  cgroups   : Nat
  budM      : Nat
  budC      : Nat
  budV      : Nat
  slotPart  : List Nat
  slotPhys  : List Nat
  freeAt    : List Nat
  groups    : Store Group
  threads   : Store Thread
  front     : List FrontEntry
  nstamp    : Nat
  nform     : Nat
  placedAt  : Nat
  spsize    : Nat
  scratch   : Store Byte
  sems      : Store Sem
  bufs      : Store Buf
  binds     : Store Binding
  batch     : Store Nat
  stages    : Store BStage
  seq       : Option Seq
  banks     : Store Bank
  icount    : Nat
  htvec     : DWord
  preq      : Bool
  pdeadline : Nat
  reqNext   : Option Bool
  reqAt     : Nat
  reqNoted  : Bool
  rot       : List Nat
  turn      : Nat
  member    : Nat
  mates     : List Nat
  mateSp    : List Nat
  frozen    : Bool
  saving    : Option ImageKind
  deriving DecidableEq, Repr, Inhabited

/-- A saved-team image (R350, R351): the team and its number, its launch record's address, its batches not recorded, the
operations that stand as pending requests, its held stores. -/
structure Image where
  kind    : ImageKind
  time    : Nat
  num     : Nat
  lrec    : Nat
  team    : Team
  batches : Store Batch
  ops     : Store Op
  held    : List HeldStore
  deriving DecidableEq, Repr, Inhabited

/-- View states (R298). -/
inductive ViewState | active | suspended
  deriving DecidableEq, Repr, Inhabited

/-- A registered view (R298): records, slot, tag, policy, block generations (absent blocks read 0), the queued refreshes,
the running one, and the flags SR NV OF UF NX of R314. `times` stamps each block's generation with the timebase (R28). -/
structure View where
  tag     : Nat
  live    : Bool
  master  : BitVec 512
  view    : BitVec 512
  slot    : DWord
  mslot   : DWord
  policy  : ViewPol
  state   : ViewState
  gens    : Store Nat
  times   : Store Nat
  queued  : Store Nat
  sr      : Bool
  flags   : BitVec 4
  deriving DecidableEq, Repr, Inhabited

/-- A master (R300): its generation with its stamp of the timebase (R28), dirty blocks, and write generations of its blocks
(absent blocks read `base`). -/
structure Master where
  mg    : Nat
  time  : Nat
  dirty : List Nat
  wg    : Store Nat
  base  : Nat
  deriving DecidableEq, Repr, Inhabited

/-- A context (R316, R268, R298, R343, R344, R356, R376). Masters are keyed by BASE, views by table slot; `fault` is the core,
`%hpc`, cause and time of a fatal fault whose core image is not written yet. -/
structure Context where
  part     : Nat
  ptroot   : Nat
  htvec    : DWord
  tqbase   : Nat
  tqlogn   : Nat
  tqcount  : Nat
  launches : Nat
  budget   : Nat
  refill   : Nat
  cap      : Nat
  ebset    : Bool
  refills  : Nat
  views    : Store View
  masters  : Store Master
  coreArea : Option Nat
  cpMark   : Bool
  debug    : Bool
  debugger : Bool
  fabric   : Bool
  stopped  : Bool
  fault    : Option (Nat × DWord × Nat × Nat)
  eq       : List Nat
  deriving DecidableEq, Repr, Inhabited

/-- A hard partition (R27, R328, R330, R348). -/
structure Partition where
  clusters  : List Nat
  quota     : Nat
  spillBase : Nat
  spillN    : Nat
  prefill   : Nat
  pcap      : Nat
  dPrefill  : Bool
  dPcap     : Bool
  ready     : List ContRec
  pool      : Store ContRec
  slotGens  : Store Nat
  savePool  : List Nat
  usedSlots : List Nat
  moves     : List (Nat × Nat)
  paused    : Bool
  deriving DecidableEq, Repr, Inhabited

/-- What holds the packet at RPTR (R318): nothing, a barrier or counters. -/
inductive QStatus | idle | waiting
  deriving DecidableEq, Repr, Inhabited

/-- A command queue (R317 to R324). `desc` is its descriptor's virtual address. `staged` is what read-aheads brought, by count of RPTR: the packet, the launch record
and the buffer table, `code` the lines of a LAUNCH's first clauses (R26); `grids` are those whose completion BAR waits for. -/
structure Queue where
  ctx     : Nat
  part    : Nat
  priv    : Bool
  desc    : Nat
  base    : Nat
  logn    : Nat
  status  : QStatus
  inval   : List (DWord × DWord)
  listed  : Bool
  staged  : List (Nat × List Byte × List Byte × List Byte)
  code    : List (Nat × Nat × List Byte)
  grids   : List Nat
  deriving DecidableEq, Repr, Inhabited

/-! ## Cores, dies, the Saddle -/

/-- A performance counter (R366). -/
structure Pmc where
  on    : Bool
  event : Nat
  value : DWord
  deriving DecidableEq, Repr, Inhabited

/-- Trace and sampling of a core (R361, R366). -/
structure Trace where
  on      : Bool
  sample  : Bool
  k       : Nat
  desc    : Nat
  ctx     : Nat
  base    : Nat
  logsz   : Nat
  count   : Nat
  since   : Nat
  synced  : Bool
  lost    : Nat
  deriving DecidableEq, Repr, Inhabited

/-- A line held by a cache that may be stale: bytes from the line's base, and the die generation at its fill (R371). -/
structure CLine where
  gen   : Nat
  bytes : List Byte
  deriving DecidableEq, Repr, Inhabited

/-- One issue partition's selection state (R152, R356, R360). -/
structure Sel where
  contested : Nat
  last      : Nat
  stopped   : Bool
  sample    : Nat
  deriving DecidableEq, Repr, Inhabited

/-- A core (R14). `cycBase` is the cycle of its last reset, `l1` its L1 in KiB (absent cores: 512), `codebooks` maps table
numbers to tag and entries, `paths` holds path-cache lines keyed by 8·line + path. -/
structure Core where
  cycBase   : Nat
  l1        : Nat
  sel       : Store Sel
  codebooks : Store (Nat × List (BitVec 256))
  pmc       : Store Pmc
  trace     : Trace
  paths     : Store CLine
  lastExit  : Store Nat
  rebal     : Nat
  deriving DecidableEq, Repr, Inhabited

/-- A compute die: its generation, remote-data-cache lines of untracked pages, size code, and whether it is fenced. -/
structure Die where
  gen    : Nat
  rdc    : Store CLine
  rdcCfg : BitVec 4
  fenced : Bool
  deriving DecidableEq, Repr, Inhabited

/-- A directory entry (R372): region base and size, owner, sharers, cluster L1s, and the cycle of its last request. -/
structure DirEntry where
  base    : Nat
  size    : Nat
  owner   : Option Nat
  sharers : List Nat
  l1s     : List Nat
  used    : Nat
  deriving DecidableEq, Repr, Inhabited

/-- A cached translation (R169): the leaf entry and its page size, as it stood when it was walked. -/
structure Xlat where
  ctx  : Nat
  vpn  : Nat
  size : Nat
  pte  : DWord
  deriving DecidableEq, Repr, Inhabited

/-- The Saddle counters of R375. -/
structure Counters where
  sfBackinv  : DWord
  mixedTrack : DWord
  trapqLost  : DWord
  queueStale : DWord
  ceSram     : DWord
  ceDram     : DWord
  ceLink     : DWord
  ue         : DWord
  remoteFail : DWord
  deriving DecidableEq, Repr, Inhabited

/-- A host channel (R377, R378). -/
structure Channel where
  ctx    : Nat
  frozen : Bool
  deriving DecidableEq, Repr, Inhabited

/-- The device identity record's fields (R384). -/
structure Identity where
  pkhash : BitVec 256
  serial : DWord
  clmask : BitVec 36
  rdccfg : BitVec 16
  pkgid  : BitVec 12
  fwbase : BitVec 16
  step   : BitVec 8
  magic  : Word
  deriving DecidableEq, Repr, Inhabited

/-- An attestation report (R383): the identity record, the measurement log and the nonce, and the device's signature. -/
structure Report where
  identity : BitVec 512
  log      : List (BitVec 256)
  nonce    : BitVec 256
  sig      : List Byte
  deriving DecidableEq, Repr, Inhabited

/-- One journalled input since the last checkpoint (R382). -/
inductive Journal
  | packet (queue slots : Nat)
  | host (ch ctx : Nat) (a : ExtAccess)
  | fabric (pkg ctx : Nat) (a : ExtAccess)
  deriving DecidableEq, Repr, Inhabited

/-- A complete checkpoint of some partitions in the keeping store (R381); `teams` are those that a fenced die keeps from
being saved, with their operations, batches and stores. -/
structure Checkpoint where
  time     : Nat
  covers   : List Nat
  mem      : List Host.Cell
  contexts : Store Context
  parts    : Store Partition
  queues   : Store Queue
  grids    : Store Grid
  images   : Store Image
  teams    : Store Team
  ops      : Store Op
  batches  : Store Batch
  held     : List HeldStore
  deriving DecidableEq, Repr, Inhabited

/-- A resident group as a SYNC packet records it (R361). -/
structure TraceGroup where
  slot    : Nat
  team    : Nat
  pc      : Nat
  hmask   : Word
  members : List (Nat × Nat)
  deriving DecidableEq, Repr, Inhabited

/-- What a trace packet records (R360, R361); frontiers come with their team. -/
inductive TraceBody
  | sync (time : Nat) (groups : List TraceGroup) (fronts : List (Nat × List FrontEntry))
  | clause (slot addr : Nat) (mask : Word)
  | form (slot : Nat) (entry : FrontEntry) (members : List (Nat × Nat))
  | dissolve (slot : Nat) (entries : List FrontEntry) (members : List (Nat × Nat))
  | trap (slot cause : Nat) (hpc : DWord)
  | sample (time slot team pc leaf : Nat) (fetchWait exited : Bool)
  | lost (n : Nat)
  deriving DecidableEq, Repr, Inhabited

/-- The package. -/
structure State where
  /-- Device memory by physical address (R17): the HBM behind every cache, in canonical form. -/
  mem       : List Host.Cell
  /-- Physical bytes poisoned by an uncorrectable error, by line (R379). -/
  poison    : List Nat
  /-- Core cycles since reset; the timebase is four fifths of it (R5, R28). -/
  cycle     : Nat
  /-- Whose word `step` runs next, if any. -/
  issuer    : Option Issuer
  /-- Device events `step` runs before it asks for a free one. -/
  agenda    : List Instr
  /-- The model's own: the index of the next free value. -/
  freeCtr   : Nat
  /-- The model's own (R154, log 4): the index of the device event whose turn is next, and the steps without a due event until
  it comes. -/
  fairIdx   : Nat
  fairGap   : Nat
  /-- Resident teams by number; numbers rise and are never used twice. -/
  teams     : Store Team
  nextTeam  : Nat
  /-- Issued operations by number. -/
  ops       : Store Op
  nextOp    : Nat
  /-- Copy batches by number. -/
  batches   : Store Batch
  /-- Frozen engines, each with the context whose end releases it (R378); the key is `engineKey`. -/
  frozen    : Store Nat
  nextBatch : Nat
  /-- Grids by number. -/
  grids     : Store Grid
  nextGrid  : Nat
  /-- Contexts by CTXID. -/
  contexts  : Store Context
  /-- Hard partitions 0 to 7. -/
  parts     : Store Partition
  /-- Command queues. -/
  queues    : Store Queue
  /-- Ready-queue order of entry. -/
  nextRec   : Nat
  /-- Queues that have had a packet processed in the command processor's present round (R318). -/
  served    : List Nat
  /-- Cores 0 to 143; an absent core is as after its reset. -/
  cores     : Store Core
  /-- The cores' coalescing buffers, in the order of acceptance (R173). -/
  coal      : List HeldStore
  /-- L1 slices: lines of untracked pages homed on other dies, keyed by 256·line + the core whose slice holds them (R15). -/
  l1        : Store CLine
  /-- Clusters' copies of tracked lines that untracked writes have left older than the home, keyed by 64·line + cluster
  (R374). -/
  mixed     : Store CLine
  /-- Dies 0 to 3. -/
  dies      : Store Die
  /-- Home directories of the four quadrants, keyed by 4·region base + quadrant. -/
  dir       : Store DirEntry
  /-- The translation caches (R169): a core's at its number, a cluster's at 256 plus its number, a quadrant's at 512 plus its
  number; newest first. -/
  tlb       : Store (List Xlat)
  counters  : Counters
  /-- `%eccost` (R267). -/
  eccost    : Word
  /-- Saved-team images by physical address (R348). -/
  images    : Store Image
  /-- Host channels 0 to 63 (R377). -/
  channels  : Store Channel
  /-- Interrupt messages sent to the host: the context of each (R377). -/
  irqs      : List Nat
  /-- Bytes returned by the last host-channel and fabric reads (R376, R377). -/
  replies   : List (List Byte)
  /-- Cinch routes: package id and port (R376); ports out of service (R379). -/
  routes    : List (Nat × Nat)
  deadPorts : List Nat
  /-- Identity record, whether bring-up is still going on, measurement log and last report (R383, R384). -/
  identity  : Identity
  bringUp   : Bool
  measures  : List (BitVec 256)
  report    : Option Report
  /-- Corrected errors counted per unit, and spares brought in (R380). -/
  ceUnits   : List (SpareUnit × Nat)
  spares    : List SpareUnit
  /-- The keeping store: the last two complete checkpoints, newest first, and the journal since (R381, R382). -/
  keeping   : List Checkpoint
  journal   : List Journal
  /-- The journalled inputs that a replay has not reached yet, oldest first (R382). -/
  replay    : List Journal
  /-- Pairs of partitions that have shared a physical page since a checkpoint that covers the first (R382). -/
  shared    : List (Nat × Nat)
  /-- The package has been stopped. -/
  stopped   : Bool
  deriving DecidableEq, Repr, Inhabited

/-! ## Reset -/

/-- No Saddle counter has counted. -/
def Counters.zero : Counters :=
  { sfBackinv := 0, mixedTrack := 0, trapqLost := 0, queueStale := 0, ceSram := 0, ceDram := 0, ceLink := 0, ue := 0,
    remoteFail := 0 }

/-- The identity record before bring-up has written it (R384's chapter): PKGID is 0 until assigned, the rest is the
firmware's to write. -/
def Identity.reset : Identity :=
  { pkhash := 0, serial := 0, clmask := 0, rdccfg := 0, pkgid := 0, fwbase := 0, step := 0, magic := 0 }

/-- The machine right after reset: nothing registered, nothing placed, memory with nothing listed, the firmware still to
be verified (R383). -/
def State.reset : State :=
  { mem := [], poison := [], cycle := 0, issuer := none, agenda := [], freeCtr := 0, fairIdx := 0, fairGap := 0,
    teams := [], nextTeam := 1, ops := [],
    nextOp := 1, batches := [], frozen := [], nextBatch := 1, grids := [], nextGrid := 1, contexts := [], parts := [], queues := [],
    nextRec := 1, served := [], cores := [], coal := [], l1 := [], mixed := [], dies := [], dir := [], tlb := [],
    counters := Counters.zero, eccost := 0, images := [], channels := [], irqs := [], replies := [], routes := [],
    deadPorts := [], identity := Identity.reset, bringUp := true, measures := [], report := none, ceUnits := [],
    spares := [], keeping := [], journal := [], replay := [], shared := [], stopped := false }

end Sys2Proof.Machine
end

