-- ==== Sys2Proof/Machine/Store.lean ====
section
/-! DEFINITION. Operations on keyed collections, and the canonical form of memory. -/

namespace Sys2Proof.Machine

/-- The value at a key. -/
def sget {α : Type} : Store α → Nat → Option α
  | [], _ => none
  | (k, v) :: t, n => if k = n then some v else sget t n

/-- The value at a key, or a default. -/
def sgetD {α : Type} (s : Store α) (n : Nat) (d : α) : α := (sget s n).getD d

/-- Sets the value at a key, keeping keys rising. -/
def sset {α : Type} : Store α → Nat → α → Store α
  | [], n, v => [(n, v)]
  | (k, w) :: t, n, v =>
    if n < k then (n, v) :: (k, w) :: t
    else if n = k then (n, v) :: t
    else (k, w) :: sset t n v

/-- Removes a key. -/
def serase {α : Type} : Store α → Nat → Store α
  | [], _ => []
  | (k, w) :: t, n => if k = n then serase t n else (k, w) :: serase t n

/-- Applies a function to the value at a key, if there is one. -/
def smod {α : Type} : Store α → Nat → (α → α) → Store α
  | [], _, _ => []
  | (k, w) :: t, n, f => if k = n then (k, f w) :: t else (k, w) :: smod t n f

/-- Sets a key where an absent key reads as `d`: the default is never listed. -/
def ssetD {α : Type} [DecidableEq α] (s : Store α) (n : Nat) (v d : α) : Store α :=
  if v = d then serase s n else sset s n v

/-- Keys rise strictly. -/
def srising {α : Type} : Store α → Bool
  | [] => true
  | [_] => true
  | (k, _) :: (k', w) :: t => k < k' && srising ((k', w) :: t)

/-- No entry equals what an unlisted key reads as. -/
def snodef {α : Type} [DecidableEq α] (s : Store α) (d : α) : Bool := s.all fun e => e.2 ≠ d

/-! ## Memory (R17) -/

/-- What a byte that nothing has written reads as (log 1). -/
def unlisted : Byte := 0

/-- The canonical form of memory: addresses strictly rising, no entry equal to what an unlisted address reads as. -/
def Memory.wf (m : List Host.Cell) : Bool := srising m && snodef m unlisted

/-- The home's byte at a physical address. -/
def memByte (m : List Host.Cell) (a : Nat) : Byte := sgetD m a unlisted

/-- Writes the home's byte at a physical address. -/
def memSet (m : List Host.Cell) (a : Nat) (b : Byte) : List Host.Cell := ssetD m a b unlisted

/-- The home's bytes from an address. -/
def memBytes (m : List Host.Cell) (a n : Nat) : List Byte := (List.range n).map fun i => memByte m (a + i)

/-- Writes bytes from an address. -/
def memSets : List Host.Cell → Nat → List Byte → List Host.Cell
  | m, _, [] => m
  | m, a, b :: t => memSets (memSet m a b) (a + 1) t

/-! ## Bytes and numbers -/

/-- Little-endian value of bytes (R2). -/
def leNat : List Byte → Nat
  | [] => 0
  | b :: t => b.toNat + 256 * leNat t

/-- The `n` low bytes of a number, least significant first (R2). -/
def natLe : Nat → Nat → List Byte
  | 0, _ => []
  | n + 1, v => BitVec.ofNat 8 v :: natLe n (v / 256)

/-- A little-endian number in memory. -/
def memNat (m : List Host.Cell) (a n : Nat) : Nat := leNat (memBytes m a n)

/-- Bits [hi:lo] of a number. -/
def nbits (v lo w : Nat) : Nat := v / 2 ^ lo % 2 ^ w

/-- Bit n of a number. -/
def nbit (v n : Nat) : Bool := v / 2 ^ n % 2 = 1

/-- The mask with the listed lanes set (R338). -/
def laneMask : List Nat → Word
  | [] => 0
  | l :: t => (1#32 <<< l) ||| laneMask t

/-- Lanes 0 to 31 whose bit is set. -/
def maskLanes (m : Word) : List Nat := (List.range 32).filter fun l => m.getLsbD l

end Sys2Proof.Machine
end

