-- ==== Sys2Proof/Machine/Numbers.lean ====
section
/-! DEFINITION. Exact numbers, rounding, the floating-point formats, format slots, bit-plane integers, block scales and the
X176 accumulator (R65 to R87). -/

namespace Sys2Proof.Machine

/-! ## Exact rationals -/

/-- The exact number n/d; d is never 0. -/
structure Q where
  n : Int
  d : Nat
  deriving DecidableEq, Repr

def Q.ofInt (n : Int) : Q := ⟨n, 1⟩
def Q.mul (a b : Q) : Q := ⟨a.n * b.n, a.d * b.d⟩
def Q.add (a b : Q) : Q := ⟨a.n * b.d + b.n * a.d, a.d * b.d⟩
def Q.neg (a : Q) : Q := ⟨-a.n, a.d⟩
def Q.abs (a : Q) : Q := ⟨a.n.natAbs, a.d⟩
/-- a / b for b other than 0. -/
def Q.div (a b : Q) : Q := ⟨a.n * b.d * b.n.sign, a.d * b.n.natAbs⟩
def Q.lt (a b : Q) : Bool := a.n * b.d < b.n * a.d
def Q.le (a b : Q) : Bool := a.n * b.d ≤ b.n * a.d
def Q.eq (a b : Q) : Bool := a.n * b.d = b.n * a.d
/-- 2^e. -/
def Q.pow2 (e : Int) : Q := if e < 0 then ⟨1, 2 ^ e.natAbs⟩ else ⟨2 ^ e.natAbs, 1⟩

/-- The integer a number rounds to under a mode (R79). -/
def Q.round (m : Rm) (x : Q) : Int :=
  let f := x.n.fdiv x.d
  let r := x.n.fmod x.d
  if r = 0 then f else
    match m with
    | .rn => if 2 * r < x.d then f else if 2 * r = x.d then (if f % 2 = 0 then f else f + 1) else f + 1
    | .rz => if x.n < 0 then f + 1 else f
    | .rm => f
    | .rp => f + 1

/-- The k with 2^k ≤ n/d < 2^(k+1), for n/d above 0. -/
def ilog2 (n d : Nat) : Int :=
  let k : Int := (n.log2 : Int) - d.log2
  if (Q.pow2 k).le ⟨n, d⟩ then k else k - 1

/-- Integer square root by bits: the largest s below 2^b with s·s ≤ n. -/
def isqrt (n : Nat) : Nat → Nat → Nat
  | 0, acc => acc
  | b + 1, acc => let t := acc + 2 ^ b; if t * t ≤ n then isqrt n b t else isqrt n b acc

/-! ## Floating point (R77 to R80) -/

/-- A binary format: bits of precision and of exponent. -/
structure Fmt where
  prec : Nat
  eb   : Nat
  deriving DecidableEq, Repr

def Fmt.f32 : Fmt := ⟨24, 8⟩
def Fmt.f16 : Fmt := ⟨11, 5⟩
def Fmt.bf16 : Fmt := ⟨8, 8⟩
def Fmt.emax (f : Fmt) : Int := 2 ^ (f.eb - 1) - 1
def Fmt.emin (f : Fmt) : Int := 1 - f.emax
/-- Weight of the sign bit. -/
def Fmt.sbit (f : Fmt) : Nat := 2 ^ (f.prec + f.eb - 1)
/-- Encoding of +infinity. -/
def Fmt.inf (f : Fmt) : Nat := (2 ^ f.eb - 1) * 2 ^ (f.prec - 1)
/-- The canonical NaN (R77). -/
def Fmt.nan (f : Fmt) : Nat := f.inf + 2 ^ (f.prec - 2)
def fmtOf : FKind → Fmt | .f32 => .f32 | .f16 => .f16 | .bf16 => .bf16

/-- A decoded value: NaN (signalling or not), infinity, or sign and magnitude mant·2^exp. -/
inductive FVal
  | nan (sig : Bool)
  | inf (neg : Bool)
  | fin (neg : Bool) (mant : Nat) (exp : Int)
  deriving DecidableEq, Repr

def fdec (f : Fmt) (x : Nat) : FVal :=
  let neg := nbit x (f.prec + f.eb - 1)
  let e := nbits x (f.prec - 1) f.eb
  let m := nbits x 0 (f.prec - 1)
  if e = 2 ^ f.eb - 1 then (if m = 0 then .inf neg else .nan (m < 2 ^ (f.prec - 2)))
  else if e = 0 then .fin neg m (f.emin - (f.prec - 1))
  else .fin neg (m + 2 ^ (f.prec - 1)) (f.emin - (f.prec - 1) + (e - 1))

/-- The exact value of a finite number. -/
def FVal.q : FVal → Q
  | .fin neg m e => (Q.ofInt (if neg then -(m : Int) else m)).mul (Q.pow2 e)
  | .nan _ => ⟨0, 1⟩
  | .inf _ => ⟨0, 1⟩
def FVal.isNan : FVal → Bool | .nan _ => true | .inf _ => false | .fin _ _ _ => false
def FVal.isSnan : FVal → Bool | .nan s => s | .inf _ => false | .fin _ _ _ => false
def FVal.isInf : FVal → Bool | .inf _ => true | .nan _ => false | .fin _ _ _ => false
def FVal.isZero : FVal → Bool | .fin _ m _ => m = 0 | .nan _ => false | .inf _ => false
def FVal.isNeg : FVal → Bool | .fin n _ _ => n | .inf n => n | .nan _ => false

/-- The flag bits of `%fflags`[4:0] (R80). -/
abbrev Flags := BitVec 5
def Flags.nv : Flags := 16
def Flags.dz : Flags := 8
def Flags.ovf : Flags := 4
def Flags.unf : Flags := 2
def Flags.nx : Flags := 1
def Flags.none : Flags := 0

/-- A floating-point result: encoding and flags. -/
structure FRes where
  v  : Nat
  fl : Flags
  deriving DecidableEq, Repr

def fzero (f : Fmt) (neg : Bool) : Nat := if neg then f.sbit else 0
def finf (f : Fmt) (neg : Bool) : Nat := fzero f neg + f.inf
def fmaxfin (f : Fmt) (neg : Bool) : Nat := fzero f neg + f.inf - 1
/-- The invalid result (R78). -/
def finvalid (f : Fmt) : FRes := ⟨f.nan, Flags.nv⟩

/-- Whether overflow gives infinity under a mode and sign (R79). -/
def ovfInf (m : Rm) (neg : Bool) : Bool :=
  match m with | .rn => true | .rz => false | .rm => neg | .rp => !neg

/-- Rounds a non-zero exact number to a format, tininess after rounding (R78). -/
def fround (f : Fmt) (m : Rm) (x : Q) : FRes :=
  let neg : Bool := x.n < 0
  let k := ilog2 x.n.natAbs x.d
  let p : Int := f.prec - 1
  let e := max (k - p) (f.emin - p)
  let r := (x.div (Q.pow2 e)).round m
  let y := (Q.ofInt r).mul (Q.pow2 e)
  let full := ((Q.ofInt ((x.div (Q.pow2 (k - p))).round m)).mul (Q.pow2 (k - p))).abs
  let inexact := !y.eq x
  let a := r.natAbs
  let s := fzero f neg
  if (Q.pow2 (f.emax + 1)).le y.abs then
    ⟨if ovfInf m neg then finf f neg else fmaxfin f neg, Flags.ovf ||| Flags.nx⟩
  else
    ⟨s + a + (e - (f.emin - p)).toNat * 2 ^ (f.prec - 1),
      (if inexact then Flags.nx else 0) ||| (if inexact && full.lt (Q.pow2 f.emin) then Flags.unf else 0)⟩

/-- Rounds an exact number, zero included, with the sign that zero takes. -/
def froundZ (f : Fmt) (m : Rm) (x : Q) (zneg : Bool) : FRes := if x.n = 0 then ⟨fzero f zneg, 0⟩ else fround f m x

/-- NV for signalling NaN operands. -/
def snv (l : List FVal) : Flags := if l.any FVal.isSnan then Flags.nv else 0

/-- A + B (R121). -/
def fadd (f : Fmt) (m : Rm) (a b : Nat) : FRes :=
  let x := fdec f a
  let y := fdec f b
  if x.isNan || y.isNan then ⟨f.nan, snv [x, y]⟩
  else if x.isInf then (if y.isInf && x.isNeg ≠ y.isNeg then finvalid f else ⟨finf f x.isNeg, 0⟩)
  else if y.isInf then ⟨finf f y.isNeg, 0⟩
  else froundZ f m (x.q.add y.q) (if x.isNeg = y.isNeg then x.isNeg else m = .rm)

/-- A · B (R121). -/
def fmul (f : Fmt) (m : Rm) (a b : Nat) : FRes :=
  let x := fdec f a
  let y := fdec f b
  let neg := x.isNeg != y.isNeg
  if x.isNan || y.isNan then ⟨f.nan, snv [x, y]⟩
  else if (x.isInf && y.isZero) || (x.isZero && y.isInf) then finvalid f
  else if x.isInf || y.isInf then ⟨finf f neg, 0⟩
  else froundZ f m (x.q.mul y.q) neg

/-- A · B + C with one rounding (R121). -/
def ffma (f : Fmt) (m : Rm) (a b c : Nat) : FRes :=
  let x := fdec f a
  let y := fdec f b
  let z := fdec f c
  let neg := x.isNeg != y.isNeg
  if (x.isInf && y.isZero) || (x.isZero && y.isInf) then finvalid f
  else if x.isNan || y.isNan || z.isNan then ⟨f.nan, snv [x, y, z]⟩
  else if x.isInf || y.isInf then (if z.isInf && z.isNeg ≠ neg then finvalid f else ⟨finf f neg, 0⟩)
  else if z.isInf then ⟨finf f z.isNeg, 0⟩
  else froundZ f m ((x.q.mul y.q).add z.q) (if neg = z.isNeg then neg else m = .rm)

/-- Flips the sign bit (R120). -/
def fnegate (f : Fmt) (b : Bool) (x : Nat) : Nat := if b then (if nbit x (f.prec + f.eb - 1) then x - f.sbit else x + f.sbit) else x

/-- Order of two numbers with −0 below +0. -/
def fltTotal (x y : FVal) : Bool :=
  match x, y with
  | .inf n, .inf k => n && !k
  | .inf n, _ => n
  | _, .inf k => !k
  | _, _ => x.q.lt y.q || (x.q.eq y.q && x.isNeg && !y.isNeg)

/-- FMIN and FMAX (R122). -/
def fminmax (f : Fmt) (mx : Bool) (a b : Nat) : FRes :=
  let x := fdec f a
  let y := fdec f b
  let fl := snv [x, y]
  if x.isNan && y.isNan then ⟨f.nan, fl⟩
  else if x.isNan then ⟨b, fl⟩
  else if y.isNan then ⟨a, fl⟩
  else if fltTotal x y then ⟨if mx then b else a, fl⟩ else ⟨if mx then a else b, fl⟩

/-- Numeric order, −0 equal to +0. -/
def fltNum (x y : FVal) : Bool := fltTotal x y && !(x.isZero && y.isZero)
def feqNum (x y : FVal) : Bool := !fltNum x y && !fltNum y x

/-- The comparison of R123. -/
def fcompare (f : Fmt) (c : FCmp) (a b : Nat) : Bool × Flags :=
  let x := fdec f a
  let y := fdec f b
  let nan := x.isNan || y.isNan
  let quiet := snv [x, y]
  let loud : Flags := if nan then Flags.nv else 0
  match c with
  | .eq => (!nan && feqNum x y, quiet)
  | .ne => (nan || !feqNum x y, quiet)
  | .lt => (!nan && fltNum x y, loud)
  | .le => (!nan && !fltNum y x, loud)
  | .gt => (!nan && fltNum y x, loud)
  | .ge => (!nan && !fltNum x y, loud)
  | .ord => (!nan, quiet)
  | .uno => (nan, quiet)

/-- FRND (R124). -/
def frndInt (f : Fmt) (m : Rm) (a : Nat) : FRes :=
  let x := fdec f a
  match x with
  | .nan s => ⟨f.nan, if s then Flags.nv else 0⟩
  | .inf _ => ⟨a, 0⟩
  | .fin neg _ e => if 0 ≤ e then ⟨a, 0⟩ else ⟨(froundZ f .rn (Q.ofInt (x.q.round m)) neg).v, 0⟩

/-- FCLASS (R125): the bit number. -/
def fclassBit (f : Fmt) (a : Nat) : Nat :=
  match fdec f a with
  | .nan s => if s then 8 else 9
  | .inf neg => if neg then 0 else 7
  | .fin neg m _ =>
    if m = 0 then (if neg then 3 else 4)
    else if m < 2 ^ (f.prec - 1) then (if neg then 2 else 5)
    else (if neg then 1 else 6)

/-- Conversion of one format to another (R132). -/
def fconv (d s : Fmt) (m : Rm) (a : Nat) : FRes :=
  let x := fdec s a
  match x with
  | .nan g => ⟨d.nan, if g then Flags.nv else 0⟩
  | .inf neg => ⟨finf d neg, 0⟩
  | .fin neg _ _ => froundZ d m x.q neg

/-- FRCP (R126, R127). -/
def frecip (m : Rm) (a : Nat) : FRes :=
  let f := Fmt.f32
  let x := fdec f a
  match x with
  | .nan s => ⟨f.nan, if s then Flags.nv else 0⟩
  | .inf neg => ⟨fzero f neg, 0⟩
  | .fin neg mt _ => if mt = 0 then ⟨finf f neg, Flags.dz⟩ else fround f m ((Q.ofInt 1).div x.q)

/-- A number next to the square root of n/d, off by less than 2^-60 of it, on the same side of every coarser grid: the
root truncated to 64 bits, and half a last bit more when it is not exact. -/
def qsqrt (x : Q) : Q :=
  let k := ilog2 x.n.natAbs x.d
  let h := k.fdiv 2
  -- scale so that the root has 64 integer bits
  let y := x.div (Q.pow2 (2 * (h - 63)))
  let t := (y.n.fdiv y.d).natAbs
  let s := isqrt t 66 0
  let exact := Q.eq ⟨(s * s : Nat), 1⟩ y
  (Q.ofInt (2 * (s : Int) + (if exact then 0 else 1))).mul (Q.pow2 (h - 64))

/-- FSQRT (R126, R127). -/
def fsqrt (m : Rm) (a : Nat) : FRes :=
  let f := Fmt.f32
  let x := fdec f a
  match x with
  | .nan s => ⟨f.nan, if s then Flags.nv else 0⟩
  | .inf neg => if neg then finvalid f else ⟨a, 0⟩
  | .fin neg mt _ => if mt = 0 then ⟨a, 0⟩ else if neg then finvalid f else fround f m (qsqrt x.q)

/-! ## The approximated functions (R126, R127)

Each is a fixed function of its operand inside the manual's bound: the exact result is enclosed to far more than FP32's
precision, and an opaque choice picks among the values the bound admits (log 16). -/

/-- Clamps a free integer to [lo, hi]. -/
def clampInt (lo hi x : Int) : Int := max lo (min hi x)

/-- Truncates a number to FP32 and adds `k`, from -1 to 2, spacings of FP32 there, but no second one beyond a power of two, where
the spacing doubles: at most 2 ulp; NX, and UF or OF, as R126 states for the instructions that are not correctly rounded. -/
def fstep (x : Q) (k : Int) : FRes :=
  let t := (fround Fmt.f32 .rz x).v % Fmt.f32.sbit
  let k := if (t + 1) % 2 ^ 23 = 0 && 2 ^ 24 ≤ t + 1 then min k 1 else k
  let r := ((t : Nat) + k).toNat
  let v := (if x.n < 0 then Fmt.f32.sbit else 0) + min r Fmt.f32.inf
  ⟨v, Flags.nx ||| (if r < 2 ^ 23 then Flags.unf else 0) ||| (if Fmt.f32.inf ≤ r then Flags.ovf else 0)⟩

/-- An exact value as FP32, with no flag. -/
def fexact (x : Q) (zneg : Bool) : FRes := ⟨(froundZ Fmt.f32 .rn x zneg).v, 0⟩

/-- An FRSQ (R126): at most 1 ulp. -/
def frsqrt (free : Int) (a : Nat) : FRes :=
  let f := Fmt.f32
  let x := fdec f a
  match x with
  | .nan s => ⟨f.nan, if s then Flags.nv else 0⟩
  | .inf neg => if neg then finvalid f else ⟨0, 0⟩
  | .fin neg mt _ =>
    if mt = 0 then ⟨finf f neg, Flags.dz⟩
    else if neg then finvalid f
    else
      let k := ilog2 x.q.n.natAbs x.q.d
      if k % 2 = 0 && x.q.eq (Q.pow2 k) then fexact (Q.pow2 (-(k / 2))) false
      else fstep ((Q.ofInt 1).div (qsqrt x.q)) (clampInt 0 1 free)

/-- The fixed-point scale of the enclosures. -/
def fpBits : Nat := 100

/-- 2^(f/2^64) in units of 2^-100, from the root of 2 taken i times: bits of f from the top. -/
def exp2Frac (f : Nat) : Nat → Nat → Nat → Nat
  | 0, _, acc => acc
  | i + 1, root, acc =>
    let r := isqrt (root * 2 ^ fpBits) (fpBits + 2) 0
    exp2Frac f i r (if nbit f i then acc * r / 2 ^ fpBits else acc)

/-- 2^x for a finite x, to about 2^-90 of it. -/
def qexp2 (x : Q) : Q :=
  let i := x.n.fdiv x.d
  let fr := ((x.add (Q.ofInt (-i))).mul (Q.pow2 64)).round .rm
  (Q.ofInt (exp2Frac fr.toNat 64 (2 ^ (fpBits + 1)) (2 ^ fpBits))).mul (Q.pow2 (i - fpBits))

/-- FEX2 (R126, R127): at most 2 ulp. -/
def fexp2 (free : Int) (a : Nat) : FRes :=
  let f := Fmt.f32
  let x := fdec f a
  match x with
  | .nan s => ⟨f.nan, if s then Flags.nv else 0⟩
  | .inf neg => if neg then ⟨0, 0⟩ else ⟨f.inf, 0⟩
  | .fin _ mt _ =>
    let q := x.q
    let i := q.n.fdiv q.d
    if mt = 0 then ⟨0x3F800000, 0⟩
    else if (Q.ofInt 128).le q then ⟨f.inf, Flags.ovf ||| Flags.nx⟩
    else if q.lt (Q.ofInt (-150)) then ⟨0, Flags.unf ||| Flags.nx⟩
    else if q.eq (Q.ofInt i) && -149 ≤ i then fexact (Q.pow2 i) false
    else fstep (qexp2 q) (clampInt (-1) 2 free)

/-- The fraction bits of log2 of m/2^100, m/2^100 in [1, 2), most significant first. -/
def log2Frac : Nat → Nat → Nat → Nat
  | 0, _, acc => acc
  | i + 1, m, acc =>
    let s := m * m / 2 ^ fpBits
    if 2 ^ (fpBits + 1) ≤ s then log2Frac i (s / 2) (2 * acc + 1) else log2Frac i s (2 * acc)

/-- log2 of a number above 0, to about 2^-80. -/
def qlog2 (x : Q) : Q :=
  let k := ilog2 x.n.natAbs x.d
  let m := ((x.div (Q.pow2 k)).mul (Q.pow2 fpBits)).round .rm
  (Q.ofInt k).add ((Q.ofInt (log2Frac 84 m.toNat 0)).mul (Q.pow2 (-84)))

/-- A result within 2^-22 of x in absolute terms: x plus a free multiple of 2^-60, rounded. -/
def fabsErr (x : Q) (free : Int) : FRes :=
  let y := x.add ((Q.ofInt (clampInt (-(2 ^ 38 - 2 ^ 35)) (2 ^ 38 - 2 ^ 35) free)).mul (Q.pow2 (-60)))
  let r := froundZ Fmt.f32 .rn y (x.n < 0)
  ⟨r.v, Flags.nx ||| (if r.v % Fmt.f32.sbit < 2 ^ 23 then Flags.unf else 0)⟩

/-- FLG2 (R126, R127): at most 2 ulp, and at most 2^-22 for A in [0.5, 2]. -/
def flog2 (free : Int) (a : Nat) : FRes :=
  let f := Fmt.f32
  let x := fdec f a
  match x with
  | .nan s => ⟨f.nan, if s then Flags.nv else 0⟩
  | .inf neg => if neg then finvalid f else ⟨f.inf, 0⟩
  | .fin neg mt _ =>
    if mt = 0 then ⟨finf f true, Flags.dz⟩
    else if neg then finvalid f
    else
      let k := ilog2 x.q.n.natAbs x.q.d
      if x.q.eq (Q.pow2 k) then fexact (Q.ofInt k) false
      else if (Q.pow2 (-1)).le x.q && x.q.le (Q.ofInt 2) then fabsErr (qlog2 x.q) free
      else fstep (qlog2 x.q) (clampInt (-1) 2 free)

/-- Pi in units of 2^-400. -/
def piFix : Nat := 0x3243f6a8885a308d313198a2e03707344a4093822299f31d0082efa98ec4e6c89452821e638d01377be5466cf34e90c6cc0ac

/-- The Taylor terms of sine or cosine from term t/2^100 (term index n): t, then t·x²/((n+1)(n+2)) with alternating sign. -/
def trigSeries (x2 : Nat) : Nat → Nat → Int → Int
  | 0, _, _ => 0
  | i + 1, n, t => t + trigSeries x2 i (n + 2) (-(t * x2 / 2 ^ fpBits / ((n + 1) * (n + 2))))

/-- Sine (or cosine) of a finite number, to about 2^-90, by exact reduction to a quarter turn. -/
def qtrig (cos : Bool) (x : Q) : Q :=
  -- x·2^400 / (pi·2^400 / 2): quarter turns
  let num := x.n * 2 ^ 401
  let den := (x.d : Int) * piFix
  let k := num.fdiv den
  let r := num - k * den
  -- the rest in units of 2^-100: (r / den) · (pi/2)
  let y : Nat := ((r * piFix).fdiv (den * 2 ^ 301)).toNat
  let y2 := y * y / 2 ^ fpBits
  let c := trigSeries y2 26 0 (2 ^ fpBits)
  let s := trigSeries y2 26 1 y
  let q := (k + (if cos then 1 else 0)) % 4
  let v : Int := if q = 0 then s else if q = 1 then c else if q = 2 then -s else -c
  (Q.ofInt v).mul (Q.pow2 (-(fpBits : Int)))

/-- Clamps an FP32 encoding to [-1, 1]. -/
def clampOne (r : FRes) : FRes :=
  if 0x3F800000 < r.v % Fmt.f32.sbit then ⟨(r.v / Fmt.f32.sbit) * Fmt.f32.sbit + 0x3F800000, r.fl⟩ else r

/-- FSIN and FCOS (R126, R127): absolute error at most 2^-22, result in [-1, 1]. -/
def ftrig (cos : Bool) (free : Int) (a : Nat) : FRes :=
  let f := Fmt.f32
  let x := fdec f a
  match x with
  | .nan s => ⟨f.nan, if s then Flags.nv else 0⟩
  | .inf _ => finvalid f
  | .fin neg mt _ =>
    if mt = 0 then (if cos then ⟨0x3F800000, 0⟩ else ⟨fzero f neg, 0⟩)
    else clampOne (fabsErr (qtrig cos x.q) free)

/-! ## Integer conversions (R130, R131) -/

def ikRange : IKind → Int × Int
  | .s32 => (-(2 ^ 31), 2 ^ 31 - 1)
  | .u32 => (0, 2 ^ 32 - 1)
  | .s64 => (-(2 ^ 63), 2 ^ 63 - 1)
  | .u64 => (0, 2 ^ 64 - 1)

/-- CVTFI: the integer and its flags. -/
def fToInt (f : Fmt) (ik : IKind) (m : Rm) (a : Nat) : Int × Flags :=
  let x := fdec f a
  let (lo, hi) := ikRange ik
  match x with
  | .nan _ => (0, Flags.nv)
  | .inf neg => (if neg then lo else hi, Flags.nv)
  | .fin _ _ _ =>
    let n := x.q.round m
    if n < lo then (lo, Flags.nv)
    else if hi < n then (hi, Flags.nv)
    else (n, if x.q.eq (Q.ofInt n) then 0 else Flags.nx)

/-- CVTIF. -/
def intToF (f : Fmt) (m : Rm) (n : Int) : FRes := froundZ f m (Q.ofInt n) false

/-! ## Format slots (R83 to R87) -/

/-- KIND of a slot. -/
inductive Kind | none | bpi | fp32 | bf16 | fp16 | int8 | cb4 | cb6 | cb8 | bad
  deriving DecidableEq, Repr

def kindOf (n : Nat) : Kind :=
  match n with
  | 0 => .none | 1 => .bpi | 2 => .fp32 | 3 => .bf16 | 4 => .fp16 | 5 => .int8 | 6 => .cb4 | 7 => .cb6 | 8 => .cb8 | _ => .bad

/-- A decoded slot. -/
structure Slot where
  kind   : Kind
  planes : Nat
  sgn    : Bool
  mid    : Bool
  scaled : Bool
  nz     : Nat
  rz     : Bool
  sat    : Bool
  deriving DecidableEq, Repr

def slotOf (w : DWord) : Slot :=
  { kind := kindOf (w.extractLsb' 0 4).toNat, planes := (w.extractLsb' 4 4).toNat, sgn := w.getLsbD 8, mid := w.getLsbD 9,
    scaled := w.getLsbD 10, nz := (w.extractLsb' 12 4).toNat, rz := w.getLsbD 16, sat := w.getLsbD 17 }

/-- The checks of R84. -/
def slotOk (w : DWord) : Bool :=
  let s := slotOf w
  let nzOk := s.nz = 2 || s.nz = 3 || s.nz = 4 || s.nz = 6 || s.nz = 12
  let plain := s.planes = 0 && !s.mid && w.extractLsb' 10 2 = 0 && s.nz = 12
  w.extractLsb' 18 46 = 0 &&
  match s.kind with
  | .none => w = 0
  | .bpi => 2 ≤ s.planes && s.planes ≤ 8 && !w.getLsbD 11 && nzOk
  | .int8 => plain
  | .fp32 => plain && !s.sgn | .bf16 => plain && !s.sgn | .fp16 => plain && !s.sgn
  | .cb4 => plain && !s.sgn && w.extractLsb' 16 2 = 0 | .cb6 => plain && !s.sgn && w.extractLsb' 16 2 = 0
  | .cb8 => plain && !s.sgn && w.extractLsb' 16 2 = 0
  | .bad => false

def Kind.isFloat : Kind → Bool
  | .fp32 => true | .bf16 => true | .fp16 => true
  | .none => false | .bpi => false | .int8 => false | .cb4 => false | .cb6 => false | .cb8 => false | .bad => false
def Kind.isInt : Kind → Bool
  | .bpi => true | .int8 => true
  | .none => false | .fp32 => false | .bf16 => false | .fp16 => false | .cb4 => false | .cb6 => false | .cb8 => false
  | .bad => false
def Kind.isCode : Kind → Bool
  | .cb4 => true | .cb6 => true | .cb8 => true
  | .none => false | .fp32 => false | .bf16 => false | .fp16 => false | .bpi => false | .int8 => false | .bad => false
def Kind.fmt : Kind → Fmt
  | .bf16 => .bf16 | .fp16 => .f16
  | .fp32 => .f32 | .none => .f32 | .bpi => .f32 | .int8 => .f32 | .cb4 => .f32 | .cb6 => .f32 | .cb8 => .f32 | .bad => .f32
/-- Bytes of an element (R181). -/
def Kind.esize : Kind → Nat
  | .fp32 => 4 | .bf16 => 2 | .fp16 => 2
  | .none => 1 | .bpi => 1 | .int8 => 1 | .cb4 => 1 | .cb6 => 1 | .cb8 => 1 | .bad => 1
/-- Planes of a BPI or INT8 element (R66, R67). -/
def Slot.k (s : Slot) : Nat := if s.kind = .bpi then s.planes else 8
def Slot.rm (s : Slot) : Rm := if s.rz then .rz else .rn

/-! ## Bit-plane integers and scales (R65 to R69) -/

/-- The value of a stored element read with k planes (R66). -/
def planeValue (e : Byte) (k : Nat) (sgn mid : Bool) : Int :=
  let v : Int := if sgn then e.toInt else e.toNat
  let step : Int := 2 ^ (8 - k)
  let t := v.fdiv step * step
  if mid && k < 8 then t + step / 2 else t

/-- The value of an E6M2 scale byte (R68). -/
def scaleVal (b : Byte) : Q := (Q.mk (4 + (b.extractLsb' 0 2).toNat) 4).mul (Q.pow2 ((b.extractLsb' 2 6).toNat - 32))

/-- The least byte from b on whose scale s has m ≤ l·s (R69). -/
def leastScale (m : Q) (l : Int) : Nat → Nat → Byte
  | 0, _ => 0xFF
  | n + 1, b => if m.le ((Q.ofInt l).mul (scaleVal (BitVec.ofNat 8 b))) then BitVec.ofNat 8 b else leastScale m l n (b + 1)

/-- The larger of two numbers. -/
def Q.max (a b : Q) : Q := if a.lt b then b else a

/-- The scale of a block (R69). -/
def blockScale (s : Slot) (xs : List Q) : Byte :=
  let step : Int := 2 ^ (8 - s.planes)
  let l := if s.sgn then 128 - step else 256 - step
  let m := xs.foldl (fun a x => a.max (if s.sgn then x.abs else x)) (Q.ofInt 0)
  if m.n = 0 then 0x80 else leastScale m l 256 0

/-- Range of the codes of a BPI or INT8 slot (R70). -/
def codeRange (s : Slot) : Int × Int :=
  let step : Int := 2 ^ (8 - s.k)
  if s.sgn then (-128, 128 - step) else (0, 256 - step)

/-- `round_to` (R70) of an exact number under block scale `sc`. -/
def roundTo (s : Slot) (x sc : Q) : FRes :=
  if s.kind.isFloat then
    if x.n = 0 then ⟨0, 0⟩
    else
      let f := s.kind.fmt
      let r := fround f s.rm x
      if s.sat && r.fl &&& Flags.ovf ≠ 0 then ⟨fmaxfin f (x.n < 0), r.fl⟩ else r
  else
    let step : Int := 2 ^ (8 - s.k)
    let q := (x.div (sc.mul (Q.ofInt step))).round s.rm * step
    let nx : Flags := if ((Q.ofInt q).mul sc).eq x then 0 else Flags.nx
    let (lo, hi) := codeRange s
    if q < lo || hi < q then ⟨((if s.sat then min (max q lo) hi else q) % 256).toNat, nx ||| Flags.nv⟩
    else ⟨(q % 256).toNat, nx⟩

/-! ## X176 (R72 to R76) -/

/-- `x176_add` (R73). -/
def x176Add (a b : BitVec 176) : BitVec 176 := a + b

/-- The exact value an X176 stands for. -/
def x176Q (a : BitVec 176) : Q := ⟨a.toInt, 2 ^ 72⟩

/-- Flags XV, XI, XO as bits 2, 1, 0 (R75). -/
abbrev XFlags := BitVec 3

/-- An exact integer-valued or dyadic number that is a multiple of 2^-72, as X176 (R74). -/
def x176OfQ (x : Q) : BitVec 176 := BitVec.ofInt 176 ((x.mul (Q.pow2 72)).round .rn)

/-- `to_x176` of a finite exact number (R75). -/
def toX176 (x : Q) : BitVec 176 × XFlags :=
  let y := (x.mul (Q.pow2 72)).round .rn
  let xi : XFlags := if ((Q.ofInt y).mul (Q.pow2 (-72))).eq x then 0 else 2
  if 2 ^ 175 - 1 < y then (BitVec.ofInt 176 (2 ^ 175 - 1), xi ||| 1)
  else if y < -(2 ^ 175) then (BitVec.ofInt 176 (-(2 ^ 175)), xi ||| 1)
  else (BitVec.ofInt 176 y, xi)

/-- A value word's meaning under a slot (R287): `none` is a NaN or an infinity. -/
def valueWord (s : Slot) (w : Word) : Option Q :=
  if s.kind.isFloat then
    let x := fdec s.kind.fmt (if s.kind = .fp32 then w.toNat else (w.extractLsb' 0 16).toNat)
    match x with
    | .fin _ _ _ => some x.q
    | .nan _ => none
    | .inf _ => none
  else
    let t := Q.ofInt (planeValue (w.extractLsb' 0 8) s.k s.sgn (s.kind = .bpi && s.mid))
    some (if s.kind = .bpi && s.scaled then t.mul (scaleVal (w.extractLsb' 8 8)) else t)

/-- The 24-byte form of an X176 value, and a check of it (R72). -/
def x176Bytes (a : BitVec 176) : List Byte := natLe 24 (a.signExtend 192).toNat

end Sys2Proof.Machine
end

