-- ==== Sys2Proof/Machine/Layout.lean ====
section
/-! DEFINITION. Layout records, element addresses and storage extents (R180 to R184, R65). -/

namespace Sys2Proof.Machine

/-- Bits [lo + w - 1 : lo] of a 64-byte record (R180). -/
def recF (r : BitVec 512) (lo w : Nat) : Nat := (r.extractLsb' lo w).toNat

def recPad (r : BitVec 512) : Nat := recF r 480 32
def recSp (r : BitVec 512) : Bool := r.getLsbD 463
def recVid (r : BitVec 512) : Nat := recF r 459 4
def recSwz (r : BitVec 512) : Nat := recF r 456 3
def recOob (r : BitVec 512) : Nat := recF r 454 2
def recFs (r : BitVec 512) : Nat := recF r 451 3
def recRank (r : BitVec 512) : Nat := recF r 448 3
/-- STRIDEk for k from 1 to 4. -/
def recStride (r : BitVec 512) (k : Nat) : Nat := recF r (288 + 40 * (k - 1)) 40
/-- DIMk for k from 0 to 4. -/
def recDim (r : BitVec 512) (k : Nat) : Nat := recF r (128 + 32 * k) 32
def recSbase (r : BitVec 512) : Nat := recF r 64 64
def recBase (r : BitVec 512) : Nat := recF r 0 64

/-- The malformed records of R181, under the slot that FS names; SWZ codes 4 to 7 count among them (log 81). -/
def recBad (r : BitVec 512) (w : DWord) : Bool :=
  let s := slotOf w
  let rank := recRank r
  let es := s.kind.esize
  let ks := [1, 2, 3, 4]
  recF r 464 16 ≠ 0
  || rank = 0 || 5 < rank
  || ([0, 1, 2, 3, 4].any fun k => k < rank && recDim r k = 0)
  || ([0, 1, 2, 3, 4].any fun k => rank ≤ k && recDim r k ≠ 0)
  || (ks.any fun k => rank ≤ k && recStride r k ≠ 0)
  || recOob r = 3 || 8 < recVid r
  || s.kind = .none || s.kind.isCode || s.kind = .bad
  || recBase r % es ≠ 0
  || (ks.any fun k => recStride r k % es ≠ 0)
  || (recSwz r ≠ 0 && recBase r % 128 ≠ 0)
  || 3 < recSwz r
  || (recSbase r ≠ 0 && !(s.kind = .bpi && s.scaled))
  || (recSp r && recVid r ≠ 0)
  || (recSp r && (2 ^ 20 ≤ recBase r || 2 ^ 20 ≤ recSbase r))
  || (s.kind = .bpi && (recBase r % 128 ≠ 0 || (ks.any fun k => recStride r k ≠ 0) || recSwz r ≠ 0
      || (s.scaled && recSbase r = 0)))

/-- Coordinate k of a list, 0 beyond its end. -/
def coord (i : List Int) (k : Nat) : Int := i.getD k 0

/-- Whether the first RANK coordinates lie within bounds (R184). -/
def inBounds (r : BitVec 512) (i : List Int) : Bool :=
  (List.range (recRank r)).all fun k => 0 ≤ coord i k && coord i k < recDim r k

/-- The swizzle of R183: bits [3+n:4] of an offset are changed by bits [6+n:7]. -/
def swizzle (n off : Nat) : Nat :=
  if n = 0 then off else off ^^^ (nbits off 7 n * 16)

/-- Block and position of a BPI element (R183). -/
def bpiPlace (r : BitVec 512) (i : List Int) : Nat × Nat :=
  let c := fun k => if k < recRank r then (coord i k).toNat else 0
  let d := recDim r
  let nb0 := (d 0 + 31) / 32
  (c 0 / 32 + nb0 * (c 1 + d 1 * (c 2 + d 2 * (c 3 + d 3 * c 4))), c 0 % 32)

/-- A record's base plus an offset (R183): a fabric base keeps its package id, a local one is added in 64 bits. -/
def addrAdd (b off : Nat) : Nat := if 2 ^ 52 ≤ b then b / 2 ^ 52 * 2 ^ 52 + (b + off) % 2 ^ 52 else (b + off) % 2 ^ 64

/-- The address of an element of any other kind (R183), as a 64-bit value. -/
def elemAddr (r : BitVec 512) (es : Nat) (i : List Int) : Nat :=
  let c := fun k => if k < recRank r then coord i k else 0
  let off := (c 0 * es + c 1 * recStride r 1 + c 2 * recStride r 2 + c 3 * recStride r 3 + c 4 * recStride r 4) % 2 ^ 64
  addrAdd (recBase r) (swizzle (recSwz r) off.toNat)

/-- Offset of the plane word of plane b of block j from the tensor base (R65). -/
def planeOff (j b : Nat) : Nat := j / 32 * 1024 + (7 - b) * 128 + 4 * (j % 32)

/-- The addresses of the plane word of plane b of block j, and of the block's scale byte (R65, R68). -/
def planeAddr (r : BitVec 512) (j b : Nat) : Nat := addrAdd (recBase r) (planeOff j b)
def scaleAddr (r : BitVec 512) (j : Nat) : Nat := addrAdd (recSbase r) j

/-- Number of blocks of a tensor: 32 elements along dimension 0 (R65, R299). -/
def recBlocks (r : BitVec 512) : Nat :=
  let d := fun k => if k < recRank r then recDim r k else 1
  (d 0 + 31) / 32 * d 1 * d 2 * d 3 * d 4

/-- Coordinates of position l of block j, blocks enumerated along dimension 0 first (R65, R299). -/
def blockCoord (r : BitVec 512) (j l : Nat) : List Int :=
  let d := fun k => if k < recRank r then recDim r k else 1
  let nb0 := (d 0 + 31) / 32
  let q := j / nb0
  [(j % nb0 * 32 + l : Nat), (q % d 1 : Nat), (q / d 1 % d 2 : Nat), (q / d 1 / d 2 % d 3 : Nat), (q / d 1 / d 2 / d 3 : Nat)]

/-- The block an element lies in, for any kind (R299). -/
def blockOf (r : BitVec 512) (i : List Int) : Nat := (bpiPlace r i).1

/-- Bytes of storage from BASE on (R297): whole panels for BPI, else up to the last element, whole lines when swizzled. -/
def recBytes (r : BitVec 512) (k : Kind) : Nat :=
  if k = .bpi then (recBlocks r + 31) / 32 * 1024
  else
    let d := fun n => if n < recRank r then recDim r n else 1
    let e := d 0 * k.esize + (d 1 - 1) * recStride r 1 + (d 2 - 1) * recStride r 2 + (d 3 - 1) * recStride r 3
      + (d 4 - 1) * recStride r 4
    if recSwz r = 0 then e else (e + 127) / 128 * 128

/-- Bytes of the scale array (R68). -/
def recScaleBytes (r : BitVec 512) (s : Slot) : Nat := if s.kind = .bpi && s.scaled then recBlocks r else 0

end Sys2Proof.Machine
end

