-- ==== Sys2Proof/Config.lean ====
section
/-! DEFINITION. What the manual leaves open: free values, opaque so that no proof can see them. A free value is applied to
the step's index `State.freeCtr` and to what it depends on. Firmware's constants stand here too. -/

namespace Sys2Proof.Config

/-- The event that happens when nothing else is due (log 4). -/
opaque freeEvent : Nat → Instr
/-- A free 32-bit value: step index, then a key (R9, R39). -/
opaque freeWord : Nat → Nat → Word
/-- A free choice: step index, then a key. -/
opaque freeBit : Nat → Nat → Bool
/-- A free number. -/
opaque freeNat : Nat → Nat → Nat
/-- Steps without a due event until the device event whose turn it is (R154, log 4), and the longest hold of a group's word by
collector cycles and interlocks, in cycles (log 7). -/
opaque fairGap : Nat → Nat
opaque holdMax : Nat
/-- Core cycles, beyond one, that a step takes (log 6). -/
opaque freeCycles : Nat → Nat
/-- Bytes answered by another package: step index and fabric address; `none` is a failure there (R172, R376). -/
opaque fabricRead : Nat → DWord → Option Byte
/-- Whether another package takes a write (R376). -/
opaque fabricWrite : Nat → DWord → Bool
/-- The results of FRSQ, FEX2, FLG2, FSIN and FCOS before they are bounded (R126): a fixed function of the operand. -/
opaque approx : Nat → Word → Int
/-- `%eccost` as firmware sets it (R267). -/
opaque eccost : Word
/-- The identity record's PKHASH, SERIAL, CLMASK and FWBASE as firmware writes them (R384). -/
opaque pkhash : BitVec 256
opaque serial : DWord
opaque clmask : BitVec 36
opaque fwbase : BitVec 16
/-- The firmware's per-cluster defaults of PREFILL and PCAP (R330). -/
opaque defPrefill : Nat
opaque defPcap : Nat
/-- The generation of a spill slot's first handle (R334). -/
opaque firstGen : Nat → Nat
/-- How a trace packet's body is laid out, which the manual does not give: its length and its words (R361, log 24). -/
opaque traceLen : Machine.TraceBody → Nat
opaque traceWord : Machine.TraceBody → Nat → DWord
/-- How the sections of an image that have no bit layout in the manual are laid out: a section's length where it is "as used",
and its bytes (R351, log 13). -/
opaque sectionLen : Machine.Image → Nat → Nat
opaque sectionByte : Machine.Image → Nat → Nat → Byte
/-- Whether a unit's count of corrected errors shows wear (R380). -/
opaque worn : SpareUnit → Nat → Bool
/-- Bytes that a journal entry takes beside its data (R382). -/
opaque entryBytes : Nat
/-- How many firmware images bring-up loads (R383). -/
opaque fwImages : Nat
/-- SLH-DSA-SHA2-256s, as FIPS 205 defines it: verification of an image's signature under the vendor key, and the bytes of
the device's signature of a report (R383). -/
opaque slhVerify : List Byte → List Byte → Bool
opaque slhSign : BitVec 512 → List (BitVec 256) → BitVec 256 → Nat → Byte

end Sys2Proof.Config
end

