-- ==== Sys2Proof/Machine/Operands.lean ====
section
/-! DEFINITION. Operands: vector registers, handler scratch, predicates, uniform registers, guards and lanes (R8, R35 to
R41), the writes an instruction makes, and pending lookahead writes (R43). -/

namespace Sys2Proof.Machine

/-! ## One thread -/

/-- A predicate: p7 reads 1 (R37). -/
def predRead (th : Thread) (p : PReg) : Bool := if p = 7 then true else th.preds.getLsbD p.toNat

/-- The guarding predicate (R35). -/
def guardOn (th : Thread) (g : Guard) : Bool := predRead th g.p != g.neg

/-- A source predicate (R94). -/
def psrcOn (th : Thread) (p : PSrc) : Bool := predRead th p.p != p.neg

/-- Writes a predicate: a write to p7 is discarded (R38). -/
def predWrite (th : Thread) (p : PReg) (b : Bool) : Thread :=
  if p = 7 then th
  else { th with preds := (th.preds &&& ~~~(1#7 <<< p.toNat)) ||| ((BitVec.ofBool b).zeroExtend 7 <<< p.toNat) }

/-- Writes a vector register: its tag becomes the DSM (R41), and a pending write to it is discarded (R43). -/
def regWrite (th : Thread) (n : Nat) (v : Word) (dsm : BitVec 4) : Thread :=
  { th with regs := ssetD th.regs n v 0, tags := ssetD th.tags n dsm 0xF, pend := th.pend.filter fun p => p.reg ≠ n }

/-- Flags that become set when a result is available (R80, R119). -/
def flagSet (th : Thread) (f : LateFlag) : Thread := if f.flags = 0 then th else { th with late := th.late ++ [f] }

/-! ## A group's lanes -/

/-- The key of h register n (248 to 255) of a lane. -/
def hKey (lane n : Nat) : Nat := 8 * lane + (n - 248)

/-- What an instruction of a group sees: the team, its launch record, the group, the active lanes, and the step's free
index. -/
structure LView where
  ctr  : Nat
  tm   : Team
  lr   : LaunchRec
  g    : Group
  act  : List Nat

/-- The thread in a lane. -/
def LView.thr (v : LView) (l : Nat) : Thread := sgetD v.tm.threads (sgetD v.g.members l 0) default

/-- vn of the thread in a lane; 248 to 255 name h0 to h7 in handler mode (R38), free until written there (R39). -/
def LView.reg (v : LView) (l n : Nat) : Word :=
  if v.g.handler && 248 ≤ n then (sget v.g.hregs (hKey l n)).getD (Config.freeWord v.ctr (256 * l + n))
  else sgetD (v.thr l).regs n 0

/-- A vector register operand. -/
def LView.r (v : LView) (l : Nat) (x : VReg) : Word := v.reg l x.toNat

/-- A pair operand: low half in vn (R37). -/
def LView.r64 (v : LView) (l : Nat) (x : VReg) : DWord := v.reg l (x.toNat + 1) ++ v.reg l x.toNat

/-- A source predicate operand. -/
def LView.p (v : LView) (l : Nat) (x : PSrc) : Bool := psrcOn (v.thr l) x

/-- A uniform register: 0 without a matrix stream (R39, R107). -/
def gRead (tm : Team) (n : Nat) : DWord :=
  match tm.seq with
  | some q => sgetD q.g n 0
  | none => 0

/-- A tile predicate: q15 reads 1 (R37). -/
def qRead (q : Seq) (n : QReg) : Bool := if n = 15 then true else q.q.getLsbD n.toNat

/-- A format slot of the team's grid (R83). -/
def fsRead (lr : LaunchRec) (n : FSlot) : DWord := lr.fs.getD n.toNat 0

/-- Member lanes, ascending. -/
def memberLanes (g : Group) : List Nat := g.members.map Prod.fst

/-- Member thread ids. -/
def memberTids (g : Group) : List Nat := g.members.map Prod.snd

/-- Lanes whose guarding predicate is true (R8). -/
def activeLanes (tm : Team) (g : Group) (gd : Guard) : List Nat :=
  (memberLanes g).filter fun l => guardOn (sgetD tm.threads (sgetD g.members l 0) default) gd

/-- Role and budget of a group's threads (R22). -/
def groupRole (tm : Team) (g : Group) : Role :=
  match g.members with
  | [] => .vector
  | (_, t) :: _ => (sgetD tm.threads t default).role
def roleBudget (tm : Team) : Role → Nat
  | .matrix => tm.budM
  | .copy => tm.budC
  | .vector => tm.budV

/-- Register n may be named (R38): below the budget, or 248 to 255 in handler mode. -/
def regOk (handler : Bool) (budget n : Nat) : Bool := n < budget || (handler && 248 ≤ n && n ≤ 255)

/-- Every register of the runs (first, count) may be named. -/
def regsOk (handler : Bool) (budget : Nat) (l : List (Nat × Nat)) : Bool :=
  l.all fun r => (List.range r.2).all fun i => regOk handler budget (r.1 + i)

/-! ## What an instruction writes -/

/-- The writes of one lane: vector registers, predicates, and flags with the cycle at which they are set (R119). -/
structure LaneOut where
  lane : Nat
  vs   : List (Nat × Word) := []
  ps   : List (PReg × Bool) := []
  fl   : Flags := 0
  due  : Nat := 0

/-- A register write, and a pair write (R38). -/
def out1 (l : Nat) (d : VReg) (v : Word) : LaneOut := { lane := l, vs := [(d.toNat, v)] }
def out2 (l : Nat) (d : VReg) (v : DWord) : LaneOut :=
  { lane := l, vs := [(d.toNat, v.extractLsb' 0 32), (d.toNat + 1, v.extractLsb' 32 32)] }
def outP (l : Nat) (p : PReg) (b : Bool) : LaneOut := { lane := l, ps := [(p, b)] }
def outF (l : Nat) (d : VReg) (v : Word) (f : Flags) : LaneOut := { lane := l, vs := [(d.toNat, v)], fl := f }

def modThread (tm : Team) (tid : Nat) (f : Thread → Thread) : Team := { tm with threads := smod tm.threads tid f }
def modGroup (tm : Team) (k : Nat) (f : Group → Group) : Team := { tm with groups := smod tm.groups k f }

/-- The pending-write number of register n: h registers of handler mode count from 256. -/
def pendReg (handler : Bool) (n : Nat) : Nat := if handler && 248 ≤ n then 8 + n else n

/-- Writes register n of the thread in a lane of slot k. -/
def laneWrite (tm : Team) (k l n : Nat) (v : Word) (dsm : BitVec 4) : Team :=
  match sget tm.groups k with
  | none => tm
  | some g =>
    let tid := sgetD g.members l 0
    if g.handler && 248 ≤ n then
      modThread (modGroup tm k fun g => { g with hregs := sset g.hregs (hKey l n) v }) tid
        fun th => { th with pend := th.pend.filter fun p => p.reg ≠ 8 + n }
    else modThread tm tid fun th => regWrite th n v dsm

/-- Applies the register writes of a list. -/
def laneWrites (tm : Team) (k l : Nat) (dsm : BitVec 4) : List (Nat × Word) → Team
  | [] => tm
  | (n, v) :: t => laneWrites (laneWrite tm k l n v dsm) k l dsm t

/-- The flags of a lane's output, with what the output writes. -/
def LaneOut.late (handler : Bool) (o : LaneOut) : LateFlag :=
  { due := o.due, flags := o.fl.zeroExtend 32, regs := o.vs.map fun w => pendReg handler w.1, preds := (o.ps.map Prod.fst).filter (· ≠ 7) }

/-- Applies predicates and flags of a lane's writes. -/
def lanePreds (tm : Team) (k : Nat) (o : LaneOut) : Team :=
  match sget tm.groups k with
  | none => tm
  | some g =>
    modThread tm (sgetD g.members o.lane 0) fun th => flagSet (o.ps.foldl (fun th p => predWrite th p.1 p.2) th) (o.late g.handler)

/-- Applies one lane's writes at once. -/
def applyOut (tm : Team) (k : Nat) (dsm : BitVec 4) (o : LaneOut) : Team :=
  lanePreds (laneWrites tm k o.lane dsm o.vs) k o

/-- Applies the writes of all lanes. -/
def applyOuts (tm : Team) (k : Nat) (dsm : BitVec 4) : List LaneOut → Team
  | [] => tm
  | o :: t => applyOuts (applyOut tm k dsm o) k dsm t

/-- Opens the pending writes of one lane (R43): predicates are written at once, flags at completion. The window counts the
opening instruction too, whose own issue closes it by one. -/
def pendOut (tm : Team) (k : Nat) (h : Head) (op : Nat) (o : LaneOut) : Team :=
  match sget tm.groups k with
  | none => tm
  | some g =>
    modThread tm (sgetD g.members o.lane 0) fun th =>
      let th := o.ps.foldl (fun th p => predWrite th p.1 p.2) th
      { th with pend := th.pend ++ o.vs.map fun (n, v) =>
          { reg := pendReg g.handler n, dsm := h.dsm, win := h.la.toNat + 1, arr := false, value := v, op := op,
            hnd := g.handler } }

def pendOuts (tm : Team) (k : Nat) (h : Head) (op : Nat) : List LaneOut → Team
  | [] => tm
  | o :: t => pendOuts (pendOut tm k h op o) k h op t

/-! ## Lookahead windows (R43) -/

/-- The pending writes that count in the group's present mode: handler mode counts those it opened (log 25). -/
def pendCounts (handler : Bool) (p : PendingWrite) : Bool := !handler || p.hnd

/-- Some pending write's window has closed and its value has not arrived. -/
def pendBlocked (handler : Bool) (th : Thread) : Bool :=
  th.pend.any fun p => pendCounts handler p && p.win = 0 && !p.arr

/-- The arrived writes whose window has closed become visible, in the order of their opening. Such an arrival is a write: it
discards another result of the register whose window is open (log 75). -/
def pendInstall (tm : Team) (k l : Nat) : Team :=
  match sget tm.groups k with
  | none => tm
  | some g =>
    let th := sgetD tm.threads (sgetD g.members l 0) default
    (th.pend.filter fun p => pendCounts g.handler p && p.win = 0 && p.arr).foldl (fun tm p =>
      let tm := modThread tm (sgetD g.members l 0) fun th =>
        { th with pend := th.pend.filter fun q => !(q.reg = p.reg && (256 ≤ p.reg || q.op = p.op)) }
      if p.reg < 256 then modThread tm (sgetD g.members l 0) fun th => regWrite th p.reg p.value p.dsm
      else if g.handler then modGroup tm k fun g => { g with hregs := sset g.hregs (8 * l + (p.reg - 256)) p.value }
      else tm) tm

def pendInstalls (tm : Team) (k : Nat) : List Nat → Team
  | [] => tm
  | l :: t => pendInstalls (pendInstall tm k l) k t

/-- A word that names a register or a predicate which a word in flight writes issues once that one's result is available, and
its flags with it (R91, R118, R119). -/
def lateDue (cyc : Nat) (regs : List Nat) (preds : List PReg) (th : Thread) : Thread :=
  { th with late := th.late.map fun f =>
      if (f.regs.any regs.contains) || (f.preds.any preds.contains) then { f with due := min f.due cyc } else f }

def lateDues (cyc : Nat) (regs : List Nat) (preds : List PReg) (tm : Team) : List Nat → Team
  | [] => tm
  | i :: t => lateDues cyc regs preds (modThread tm i (lateDue cyc regs preds)) t

/-- One more instruction has issued: every open window of the thread closes by one. -/
def pendTick (handler : Bool) (th : Thread) : Thread :=
  { th with pend := th.pend.map fun p => if pendCounts handler p then { p with win := p.win - 1 } else p }

def pendTicks (tm : Team) (handler : Bool) : List Nat → Team
  | [] => tm
  | tid :: t => pendTicks (modThread tm tid (pendTick handler)) handler t

/-! ## Dependency counters (R44) -/

/-- Adds one to a counter of each thread; 6 names none. -/
def dcInc (tm : Team) (k : Nat) (tids : List Nat) : Team :=
  if 6 ≤ k then tm else tids.foldl (fun tm t => modThread tm t fun th => { th with dc := ssetD th.dc k (sgetD th.dc k 0 + 1) 0 }) tm

/-- Takes one from a counter of each thread. -/
def dcDec (tm : Team) (k : Nat) (tids : List Nat) : Team :=
  if 6 ≤ k then tm else tids.foldl (fun tm t => modThread tm t fun th => { th with dc := ssetD th.dc k (sgetD th.dc k 0 - 1) 0 }) tm

end Sys2Proof.Machine
end

