-- ==== Sys2Proof/Machine/Access.lean ====
section
/-! DEFINITION. Memory: page tables and translation (R166 to R169), and the checks of an access (R171, R172). -/

namespace Sys2Proof.Machine

/-! ## Paths and places -/

/-- Paths, in the code order of `%hinfo` PATH (R172). -/
inductive Path | ls | k | ly | cp | nm | vw | spTeam | spClus
  deriving DecidableEq, Repr

def Path.code : Path → Nat
  | .ls => 0 | .k => 1 | .ly => 2 | .cp => 3 | .nm => 4 | .vw => 5 | .spTeam => 6 | .spClus => 7

/-- The PATHS bit of a leaf (R167). -/
def Path.pteBit : Path → Nat
  | .ls => 58 | .k => 59 | .ly => 60 | .cp => 61 | .nm => 62 | .vw => 63 | .spTeam => 58 | .spClus => 58

/-- Home die of a physical address (R17), die and cluster of a core (R13). -/
def dieOf (pa : Nat) : Nat := nbits pa 37 2
def coreDie (c : Nat) : Nat := c / 36
def coreCluster (c : Nat) : Nat := c / 4
def clusterDie (c : Nat) : Nat := c / 9
def lineOf (pa : Nat) : Nat := pa / 128

/-- A core as it is after its reset (R174). -/
def coreDef : Core :=
  { cycBase := 0, l1 := 512, sel := [], codebooks := [], pmc := [],
    trace := { on := false, sample := false, k := 0, desc := 0, ctx := 0, base := 0, logsz := 0, count := 0, since := 0,
               synced := false, lost := 0 },
    paths := [], lastExit := [], rebal := 0 }
def getCore (s : State) (c : Nat) : Core := sgetD s.cores c coreDef
def modCore (s : State) (c : Nat) (f : Core → Core) : State := { s with cores := sset s.cores c (f (getCore s c)) }

/-- A die as it is after reset: a 4 GiB remote-data cache (R370). -/
def dieDef : Die := { gen := 0, rdc := [], rdcCfg := 2, fenced := false }
def getDie (s : State) (d : Nat) : Die := sgetD s.dies d dieDef
def modDie (s : State) (d : Nat) (f : Die → Die) : State := { s with dies := sset s.dies d (f (getDie s d)) }

/-- The key of an engine among the frozen ones: of a core, or of a context for the Skiver (log 40). -/
def engineKey (n : Nat) : EngineUnit → Nat
  | .copy => 3 * n | .gather => 3 * n + 1 | .skiver => 3 * n + 2

/-- A Saddle counter counts one more, and saturates (R375). -/
def countUp (n : DWord) : DWord := if n = BitVec.allOnes 64 then n else n + 1

def modTeam (s : State) (t : Nat) (f : Team → Team) : State := { s with teams := smod s.teams t f }
def modCtx (s : State) (c : Nat) (f : Context → Context) : State := { s with contexts := smod s.contexts c f }
def modPart (s : State) (p : Nat) (f : Partition → Partition) : State := { s with parts := smod s.parts p f }

/-- The timebase in nanoseconds: 0.8 ns a cycle (R5, R28). Every die reads the same: a skew of 0 (log 71). -/
def timeOf (s : State) : Nat := s.cycle * 4 / 5

/-- Size of a remote-data cache by its code (R384). -/
def rdcSize (code : BitVec 4) : Nat := if code = 0 then 0 else 2 ^ 30 * 2 ^ code.toNat

/-! ## Page tables (R166 to R168) -/

/-- Index shift and width of each level. -/
def lvlShift : Nat → Nat | 0 => 39 | 1 => 30 | 2 => 21 | _ => 16
def lvlBits : Nat → Nat | 0 => 13 | 1 => 9 | 2 => 9 | _ => 5

/-- A valid entry that is malformed at its level (R168). -/
def pteBad (lvl : Nat) (e : DWord) : Bool :=
  let leaf := e.getLsbD 3
  e.extractLsb' 39 15 ≠ 0 || e.extractLsb' 4 4 ≠ 0
  || e.extractLsb' 56 2 = 3
  || (leaf && lvl = 0) || (!leaf && lvl = 3)
  || (leaf && lvl = 1 && e.extractLsb' 8 22 ≠ 0)
  || (leaf && lvl = 2 && e.extractLsb' 8 13 ≠ 0)
  || (leaf && lvl = 3 && e.extractLsb' 8 8 ≠ 0)
  || (!leaf && (lvl = 0 || lvl = 1) && e.extractLsb' 8 4 ≠ 0)
  || (!leaf && (e.extractLsb' 54 10 ≠ 0 || e.extractLsb' 1 2 ≠ 0))

/-- Physical address in an entry. -/
def pteAddr (e : DWord) : Nat := (e.extractLsb' 8 31).toNat * 256

/-- A failed walk: SUB 0x01 or 0x02 of R172, and the level. -/
structure WalkFail where
  sub : Nat
  lvl : Nat
  deriving DecidableEq, Repr

/-- Physical ranges that no page-table entry may reach (R378): base and size. -/
abbrev Ranges := List (Nat × Nat)

/-- A range of `n` bytes at `a` meets one of the forbidden ranges. -/
def rangesHit (v : Ranges) (a n : Nat) : Bool := v.any fun r => a < r.1 + r.2 && r.1 < a + n

/-- Walks from a table at a level; `n` is levels left. A leaf comes with the log of its page size. SUB 0x100 marks a
protection violation. -/
def walkFrom (m : List Host.Cell) (v : Ranges) (va : Nat) : Nat → Nat → Nat → Except WalkFail (DWord × Nat)
  | 0, lvl, _ => .error ⟨2, lvl⟩
  | n + 1, lvl, table =>
    let e : DWord := BitVec.ofNat 64 (memNat m (table + 8 * nbits va (lvlShift lvl) (lvlBits lvl)) 8)
    if !e.getLsbD 0 then .error ⟨1, lvl⟩
    else if pteBad lvl e then .error ⟨2, lvl⟩
    else if rangesHit v (pteAddr e) (if e.getLsbD 3 then 2 ^ lvlShift lvl else 8 * 2 ^ lvlBits (lvl + 1)) then .error ⟨0x100, lvl⟩
    else if e.getLsbD 3 then .ok (e, lvlShift lvl)
    else walkFrom m v va n (lvl + 1) (pteAddr e)

/-- A page walk (R166). -/
def walk (m : List Host.Cell) (v : Ranges) (root va : Nat) : Except WalkFail (DWord × Nat) := walkFrom m v va 4 0 root

/-- The remote-data-cache carve-outs (R17, R370) and the save-pool slots of other partitions than the context's (R348). -/
def forbidden (s : State) (part : Nat) : Ranges :=
  (List.range 4).map (fun d =>
    let n := rdcSize (getDie s d).rdcCfg
    ((d + 1) * 2 ^ 37 - n, n))
  ++ s.parts.flatMap fun p => if p.1 = part then [] else p.2.savePool.map fun a => (a, 2 ^ 22)

/-- Bytes of device memory that a context of a partition may be given: outside the carve-outs and other partitions' pools. -/
def physOk (s : State) (part a n : Nat) : Bool := a + n ≤ 2 ^ 39 && !rangesHit (forbidden s part) a n

/-- Where a translated access lands: physical address, leaf, page size. -/
structure Loc where
  pa  : Nat
  pte : DWord
  sz  : Nat
  deriving DecidableEq, Repr

/-- ORD of a leaf: 0 RC, 1 SO, 2 UO. -/
def Loc.ord (l : Loc) : Nat := (l.pte.extractLsb' 56 2).toNat
def Loc.tracked (l : Loc) : Bool := l.pte.getLsbD 55
def Loc.mv (l : Loc) : Bool := l.pte.getLsbD 54

def locOf (pte : DWord) (sz va : Nat) : Loc := ⟨pteAddr pte + va % 2 ^ sz, pte, sz⟩

/-- The translations of a page that some cache of the package holds (R169, log 10). -/
def heldXlats (s : State) (ctx va : Nat) : List Xlat :=
  s.tlb.flatMap fun e => e.2.filter fun x => x.ctx = ctx && x.vpn = va / 2 ^ x.size

/-- Translates a global address: through the tables as they stand, or through any other translation that a cache still holds. -/
def translate (s : State) (ctx va : Nat) : Except WalkFail Loc :=
  match sget s.contexts ctx with
  | none => .error ⟨1, 0⟩
  | some c =>
    let now := (walk s.mem (forbidden s c.part) c.ptroot va).map fun r => locOf r.1 r.2 va
    let old := (heldXlats s ctx va).filter fun x => match now with
      | .ok l => l ≠ locOf x.pte x.size va
      | .error _ => true
    match old[Config.freeNat s.freeCtr (va / 65536) % (old.length + 1)]? with
    | some x => .ok (locOf x.pte x.size va)
    | none => now

/-- Lines of a translation cache of n entries after one more (R169). -/
def xlatPut (n : Nat) (x : Xlat) (l : List Xlat) : List Xlat := (x :: l.filter (· ≠ x)).take n

/-- A core's use of a translation fills its own cache, its cluster's and its quadrant's (R15, R169). -/
def xlatFill (s : State) (core ctx va : Nat) (l : Loc) : State :=
  let x : Xlat := { ctx := ctx, vpn := va / 2 ^ l.sz, size := l.sz, pte := l.pte }
  let put := fun (m : Store (List Xlat)) k n => sset m k (xlatPut n x (sgetD m k []))
  { s with tlb := put (put (put s.tlb core 64) (256 + coreCluster core) 1024) (512 + coreDie core) 32768 }

/-! ## Checks (R171, R172) -/

/-- A failed check: cause, SUB, LVL, PATH, and the address it names. Cause 0x100 marks a protection violation (R378). -/
structure AFault where
  cause : Nat
  sub   : Nat
  lvl   : Nat
  path  : Nat
  addr  : DWord
  deriving DecidableEq, Repr

/-- `%hinfo` of a failed check of a lane (R172). -/
def infoOf (f : AFault) (lane : Nat) : Word :=
  BitVec.ofNat 32 (f.sub * 2 ^ 24 + f.path * 2 ^ 20 + f.lvl * 2 ^ 18 + lane * 2 ^ 13)

/-- The place of each check in the order of R171 and R232. -/
def faultRank (f : AFault) : Nat :=
  if f.cause = 0x02 then 0
  else if f.cause = 0x15 then 1
  else if f.cause = 0x14 then 3
  else if f.cause = 0x18 then 4
  else if f.cause = 0x10 && (f.sub = 3 || f.sub = 4) then 5
  else if f.cause = 0x17 then 6
  else if f.cause = 0x16 then 7
  else if f.cause = 0x1D then 8
  else if f.cause = 0x10 || f.cause = 0x100 then 9
  else if f.cause = 0x12 then 10
  else if f.cause = 0x11 then 11
  else if f.cause = 0x1E then 12
  else 13

/-- The failure that comes first in that order, the earlier in the list on a tie. -/
def pickFault : List (Option AFault) → Option AFault
  | [] => none
  | none :: t => pickFault t
  | some f :: t => match pickFault t with
    | none => some f
    | some g => if faultRank g < faultRank f then some g else some f

/-- Who accesses memory: context, core, team and thread. -/
structure Who where
  ctx  : Nat
  core : Nat
  team : Nat
  tid  : Option Nat
  deriving DecidableEq, Repr

/-- Checks 8 to 10 of R171 at one address. -/
def checkPage (s : State) (ctx : Nat) (va : Nat) (p : Path) (write exec : Bool) : Except AFault Loc :=
  match translate s ctx va with
  | .error w => .error ⟨if w.sub = 0x100 then 0x100 else 0x10, w.sub, w.lvl, p.code, BitVec.ofNat 64 va⟩
  | .ok l =>
    if !l.pte.getLsbD p.pteBit || (exec && !l.pte.getLsbD 2) then .error ⟨0x12, 0, 0, p.code, BitVec.ofNat 64 va⟩
    else if write && !l.pte.getLsbD 1 then .error ⟨0x11, 0, 0, p.code, BitVec.ofNat 64 va⟩
    else .ok l

/-- Checks 3, 4 and 8 to 10 of R171 for a global access of a size. -/
def checkGlobal (s : State) (ctx : Nat) (ea : DWord) (size : Nat) (p : Path) (write : Bool) : Except AFault Loc :=
  if ea.toNat % size ≠ 0 then .error ⟨0x14, 0, 0, p.code, ea⟩
  else if ea.extractLsb' 52 12 ≠ 0 then .error ⟨0x18, 0, 0, p.code, ea⟩
  else checkPage s ctx ea.toNat p write false

/-- The buffer that holds a scratchpad byte (R176). -/
def bufAt (tm : Team) (off : Nat) : Option (Nat × Buf) :=
  tm.bufs.find? fun e => e.2.size ≠ 0 && e.2.off ≤ off && off < e.2.off + e.2.size

/-- Kinds of scratchpad access of R177. -/
inductive SpUse | load | store | engW | engR
  deriving DecidableEq, Repr

/-- The table of R177. -/
def bufLegal : SpUse → BufState → Bool
  | .load, .empty => false | .load, .filling => true | .load, .full => true | .load, .draining => true
  | .store, .empty => false | .store, .filling => true | .store, .full => false | .store, .draining => false
  | .engW, .empty => false | .engW, .filling => true | .engW, .full => false | .engW, .draining => false
  | .engR, .empty => false | .engR, .filling => false | .engR, .full => true | .engR, .draining => true

/-- Check 7 at one offset. -/
def bufAllows (tm : Team) (u : SpUse) (off : Nat) : Bool :=
  match bufAt tm off with
  | none => true
  | some (_, b) => bufLegal u b.state

/-- Checks 3, 5 and 7 of R171 for a team-scratchpad access. -/
def checkSp (tm : Team) (off size : Nat) (u : SpUse) (p : Path) : Option AFault :=
  let a : DWord := BitVec.ofNat 64 off
  if off % size ≠ 0 then some ⟨0x14, 0, 0, p.code, a⟩
  else if tm.spsize < off + size then some ⟨0x10, 3, 0, p.code, a⟩
  else if !bufAllows tm u off then some ⟨0x16, 0, 0, p.code, a⟩
  else none

end Sys2Proof.Machine
end

