-- ==== Sys2Proof/Machine/Caches.lean ====
section
/-! DEFINITION. The caches, which may hold older contents (R15, R173, R207, R210, R371), the home directories (R370, R372 to
R374), reads and writes at the home, scratchpad bytes, and notices (R344). -/

namespace Sys2Proof.Machine

/-! ## Caches (R173, R207, R210, R371) -/

/-- The home's line. -/
def homeLine (s : State) (line : Nat) : List Byte := memBytes s.mem (line * 128) 128

/-- A held line serves a read: it has the right generation and, where it is not the present line, a free choice falls on
it (log 9). -/
def heldHit (s : State) (held : Option CLine) (gen key : Nat) (now : List Byte) : Bool :=
  match held with
  | none => false
  | some c => c.gen = gen && (c.bytes = now || Config.freeBit s.freeCtr key)

/-- The held line or the present one. -/
def heldOr (s : State) (held : Option CLine) (gen key : Nat) (now : List Byte) : List Byte :=
  if heldHit s held gen key now then (held.map (·.bytes)).getD now else now

/-- The key of a line in the L1 of a cluster: it lies in the slice of the core whose number in the cluster is the address's
bits [8:7] (R15). -/
def l1Key (line cluster : Nat) : Nat := 256 * line + (4 * cluster + line % 4)
/-- The line and the cluster of a key. -/
def l1Line (key : Nat) : Nat := key / 256
def l1Cluster (key : Nat) : Nat := coreCluster (key % 256)

/-- The line as the remote-data cache of a core's die gives it. -/
def rdcLine (s : State) (core line : Nat) : List Byte :=
  let die := getDie s (coreDie core)
  heldOr s (sget die.rdc line) die.gen (2 * line + 1) (homeLine s line)

/-- The cluster L1 of a core serves a read of a line homed on another die. -/
def l1Hit (s : State) (core line : Nat) : Bool :=
  heldHit s (sget s.l1 (l1Key line (coreCluster core))) (getDie s (coreDie core)).gen (2 * line) (homeLine s line)

/-- The line as a party of a core sees it below its path caches: the home's, but for an untracked line of another die,
which the cluster L1 or the die's remote-data cache may hold in an older state (log 9), and for a tracked line that an
untracked write has left older in the cluster (R374). -/
def nearLine (s : State) (core : Nat) (l : Loc) (line : Nat) : List Byte :=
  let d := coreDie core
  if l.ord = 1 then homeLine s line
  else if l.tracked then heldOr s (sget s.mixed (64 * line + coreCluster core)) (getDie s d).gen (2 * line) (homeLine s line)
  else if dieOf l.pa = d then homeLine s line
  else if l1Hit s core line then ((sget s.l1 (l1Key line (coreCluster core))).map (·.bytes)).getD []
  else rdcLine s core line

/-- The line below a path's cache: view storage is read at its home (R304, log 33). -/
def belowLine (s : State) (core : Nat) (p : Path) (l : Loc) (line : Nat) : List Byte :=
  if p = .vw then homeLine s line else nearLine s core l line

/-- The line a read on a path returns. -/
def pathLine (s : State) (core : Nat) (p : Path) (l : Loc) (line : Nat) : List Byte :=
  let near := belowLine s core p l line
  if p = .ls || l.ord = 1 then near
  else heldOr s (sget (getCore s core).paths (8 * line + p.code)) 0 (8 * line + p.code) near

/-- An older copy is gone once the line has been read in another state (R201). -/
def dropOlder (m : Store CLine) (key : Nat) (seen : List Byte) : Store CLine :=
  match sget m key with
  | none => m
  | some c => if c.bytes = seen then m else serase m key

/-! ## The home directory (R370, R372, R373) -/

/-- The directory entry that covers a line (R372). -/
def dirAt (s : State) (pa : Nat) : Option (Nat × DirEntry) :=
  s.dir.find? fun e => e.2.base ≤ pa && pa < e.2.base + e.2.size

/-- The entry of a region that nothing outside the home holds. -/
def dirEmpty (e : DirEntry) : Bool := e.owner.isNone && e.sharers = [] && e.l1s = []

def dirKey (base quad : Nat) : Nat := 4 * base + quad

/-- Entries of a quadrant, and its least recently used one. -/
def dirOf (s : State) (quad : Nat) : List (Nat × DirEntry) := s.dir.filter fun e => e.1 % 4 = quad
def dirOldest : List (Nat × DirEntry) → Option (Nat × DirEntry)
  | [] => none
  | e :: es => some (es.foldl (fun a b => if b.2.used < a.2.used then b else a) e)

/-- Makes room for one more entry in a full snoop filter: the copies of the evicted region go with its entry (R373). -/
def dirRoom (s : State) (quad : Nat) : State :=
  if (dirOf s quad).length < 262144 then s
  else match dirOldest (dirOf s quad) with
    | none => s
    | some e =>
      { s with
        dir := serase s.dir e.1,
        mixed := s.mixed.filter fun c => !(e.2.base ≤ c.1 / 64 * 128 && c.1 / 64 * 128 < e.2.base + e.2.size),
        counters := { s.counters with sfBackinv := countUp s.counters.sfBackinv } }

def dirPut (s : State) (quad : Nat) (e : DirEntry) : State :=
  let s := if (sget s.dir (dirKey e.base quad)).isSome then s else dirRoom s quad
  { s with dir := sset s.dir (dirKey e.base quad) e }

/-- A request to a home directory: a read by a die, which fills a cluster's L1 or none, ownership, by a die or by a party
outside the dies, or the recall of a line from its owner (R374). -/
inductive DirAsk
  | read (die : Nat) (cluster : Option Nat)
  | own (die : Option Nat)
  | recall

/-- The state a request gives a line (R372): a read adds a sharer, ownership removes every other copy. The home die's own
remote-data cache holds no line of it, and none of size 0 holds any (R370). -/
def dirGrant (s : State) (home : Nat) (r : DirAsk) (e : DirEntry) : DirEntry :=
  let caches := fun d => d ≠ home && (getDie s d).rdcCfg ≠ 0
  match r with
  | .read d c =>
    { e with
      sharers := if caches d && e.owner ≠ some d && !e.sharers.contains d then e.sharers ++ [d] else e.sharers,
      l1s := match c with | some c => if e.l1s.contains c then e.l1s else e.l1s ++ [c] | none => e.l1s }
  | .own d =>
    { e with owner := d.filter caches, sharers := [], l1s := e.l1s.filter fun c => some (clusterDie c) = d }
  | .recall => { e with owner := none, l1s := e.l1s.filter fun c => some (clusterDie c) ≠ e.owner }

/-- Splits an entry into halves down to the line of an address; each half inherits the whole. -/
def dirSplit (quad pa : Nat) : Nat → DirEntry → State → State
  | 0, _, s => s
  | n + 1, e, s =>
    if e.size ≤ 128 then s
    else
      let h := e.size / 2
      let lo := { e with size := h }
      let hi := { e with base := e.base + h, size := h }
      let s := dirPut (dirPut s quad lo) quad hi
      dirSplit quad pa n (if pa < hi.base then lo else hi) s

/-- The size of the largest region around an address that no entry meets. -/
def freshSize (s : State) (pa : Nat) : Nat :=
  let free := fun n => s.dir.all fun e => e.2.base + e.2.size ≤ pa / n * n || pa / n * n + n ≤ e.2.base
  (((List.range 9).map fun i => 2 ^ (16 - i)).find? free).getD 128

/-- A request for a line. A region that nobody holds is granted whole; else a line whose state would differ is split off. -/
def dirRequest (pa : Nat) (r : DirAsk) (s : State) : State :=
  let quad := dieOf pa
  let s := match dirAt s pa with
    | some _ => s
    | none =>
      let n := freshSize s pa
      dirPut s quad { base := pa / n * n, size := n, owner := none, sharers := [], l1s := [], used := s.cycle }
  match dirAt s pa with
  | none => s
  | some (_, e) =>
    let e' := { dirGrant s quad r e with used := s.cycle }
    if dirGrant s quad r e = e || dirEmpty e || e.size = 128 then dirPut s quad e'
    else
      let s := dirSplit quad pa 9 { e with used := s.cycle } s
      match dirAt s pa with
      | none => s
      | some (_, l) => dirPut s quad { dirGrant s quad r l with used := s.cycle }

/-- Fills the caches a read of a line goes through; `na` fills no L1 line (R173). A read of a tracked line asks the home
directory (R372). -/
def fillLine (s : State) (core : Nat) (p : Path) (l : Loc) (line : Nat) (na : Bool) : State :=
  if l.ord = 1 then s
  else
    let d := coreDie core
    let cl := coreCluster core
    let s1 :=
      if p = .vw then s
      else if l.tracked then
        dirRequest (128 * line) (.read d (if na then none else some cl))
          { s with mixed := dropOlder s.mixed (64 * line + cl) (nearLine s core l line) }
      else if dieOf l.pa = d || l1Hit s core line then s
      else
        let die := getDie s d
        let c : CLine := ⟨die.gen, rdcLine s core line⟩
        let s := if die.rdcCfg = 0 then s else modDie s d fun x => { x with rdc := sset x.rdc line c }
        { s with l1 := if na then serase s.l1 (l1Key line cl) else sset s.l1 (l1Key line cl) c }
    if p = .ls then s1
    else modCore s1 core fun c => { c with paths := sset c.paths (8 * line + p.code) ⟨0, pathLine s core p l line⟩ }

/-- The code of a path, back. -/
def pathOf : Nat → Path
  | 0 => .ls | 1 => .k | 2 => .ly | 3 => .cp | 4 => .nm | 5 => .vw | 6 => .spTeam | _ => .spClus

def placeOf (va : Nat) (p : Path) (l : Loc) : Place :=
  { va := va, pa := l.pa, path := p.code, tracked := l.tracked, ord := l.ord, mv := l.mv }

/-- What a place's page-table entry says that an access depends on. -/
def placeLoc (p : Place) : Loc :=
  ⟨p.pa, BitVec.ofNat 64 (p.ord * 2 ^ 56 + (if p.tracked then 2 ^ 55 else 0) + (if p.mv then 2 ^ 54 else 0)), 0⟩

/-- An uncorrectable error is counted (R375, R379). -/
def countUe (s : State) : State := { s with counters := { s.counters with ue := countUp s.counters.ue } }

/-- A group or sequencer that reads poisoned data starts the recovery of its partition (R379). -/
def poisonHit (s : State) (ctx pa : Nat) : State :=
  if s.poison.contains (lineOf pa) then
    { s with agenda := s.agenda ++ [.uncorrectableError (.read (((sget s.contexts ctx).map (·.part)).getD 0))] }
  else s

/-- Two byte ranges meet. -/
def overlaps (a n b m : Nat) : Bool := a < b + m && b < a + n

/-- A store's bytes meet a range. -/
def HeldStore.meets (h : HeldStore) (pa n : Nat) : Bool := overlaps h.pa h.bytes.length pa n

/-- A store of the thread itself. -/
def HeldStore.own (h : HeldStore) (w : Who) : Bool := h.team = w.team && some h.tid = w.tid

/-- A release has performed a store for an instance that holds the party (R198, R216). -/
def HeldStore.inScope (h : HeldStore) (w : Who) : Bool :=
  match h.vis with
  | 0 => false
  | 1 => h.team = w.team && (w.tid.any fun t => t / 32 = h.tid / 32)
  | 2 => h.team = w.team
  | 3 => coreCluster h.core = coreCluster w.core
  | _ => coreDie h.core = coreDie w.core

/-- A read of a party on a path finds a store of the buffers performed: the thread's own through that path (R186), or one
that a release has performed for the party (R210 for the other paths). -/
def HeldStore.seen (h : HeldStore) (w : Who) (p : Nat) : Bool := (h.own w && h.path = p) || (p = 0 && h.inScope w)

/-- A store's bytes over those that stand at its place (R191). -/
def HeldStore.merge (h : HeldStore) (old : List Byte) : List Byte :=
  if h.keep = [] then h.bytes else h.bytes.zipIdx.map fun e => (old.getD e.2 0 &&& h.keep.getD e.2 0) ||| e.1

/-- A byte with the stores that the buffers hold for a party's read over it (R186, R212). -/
def ownByte (s : State) (w : Who) (p pa : Nat) (b : Byte) : Byte :=
  s.coal.foldl (fun b h =>
    if h.seen w p && h.meets pa 1 then (b &&& h.keep.getD (pa - h.pa) 0) ||| h.bytes.getD (pa - h.pa) 0 else b) b

/-- Bytes a party reads at a translated place (within one line unless the access is an engine's). -/
def readLoc (s : State) (w : Who) (p : Path) (l : Loc) (n : Nat) : List Byte :=
  (List.range n).map fun i =>
    let pa := l.pa + i
    ownByte s w p.code pa ((pathLine s w.core p l (lineOf pa)).getD (pa % 128) 0)

/-- The value read, little-endian. -/
def readNat (s : State) (w : Who) (p : Path) (l : Loc) (n : Nat) : Nat := leNat (readLoc s w p l n)

/-! ## Writes at the home -/

/-- Replaces bytes of a held line from offset `o`. -/
def lineSet (c : CLine) (o : Nat) (bs : List Byte) : CLine :=
  { c with bytes := c.bytes.take o ++ bs ++ c.bytes.drop (o + bs.length) }

/-- Updates the copies of one byte's line that a die holds (R173, R370): every cluster L1 of the die and its remote-data
cache. -/
def copiesSet (s : State) (die pa : Nat) (b : Byte) : State :=
  let line := lineOf pa
  let o := pa % 128
  let s := { s with l1 := s.l1.map fun e => if l1Line e.1 = line && clusterDie (l1Cluster e.1) = die then (e.1, lineSet e.2 o [b]) else e }
  match sget s.dies die with
  | none => s
  | some _ => modDie s die fun x => { x with rdc := smod x.rdc line fun c => lineSet c o [b] }

/-- The masters whose storage meets the master block of a virtual address (R299, R300). -/
def masterHit (c : Context) (va : Nat) : List Nat :=
  (c.views.filterMap fun e =>
    let b := recBase e.2.master
    if e.2.live && b / 4096 ≤ va / 4096 && va / 4096 ≤ (b + recBytes e.2.master (slotOf e.2.mslot).kind - 1) / 4096
    then some b else none)

/-- Sets the dirty bits a write to an MV page sets (R300). -/
def dirtyMark (c : Context) (va : Nat) : Context :=
  (masterHit c va).foldl (fun c b =>
    { c with masters := smod c.masters b fun m =>
        if va / 4096 ∈ m.dirty then m else { m with dirty := va / 4096 :: m.dirty } }) c

/-- The aligned units of some size that a range of n bytes meets, by their first addresses. -/
def unitsOf (size a n : Nat) : List Nat :=
  if n = 0 then [] else (List.range ((a + n - 1) / size - a / size + 1)).map fun k => (a / size + k) * size

/-- Counts an untracked write to a line that is held tracked outside the home, which recalls the line from a remote owner
(R374, R375, log 44). -/
def countMixed (s : State) (pa : Nat) : State :=
  match dirAt s pa with
  | some (_, e) =>
    if dirEmpty e then s
    else
      let s := { s with counters := { s.counters with mixedTrack := countUp s.counters.mixedTrack } }
      if e.owner.isSome then dirRequest pa .recall s else s
  | none => s

/-- A cluster's tracked copies of a line stay as they are at an untracked write (R374), but for those of the writing die. -/
def keepMixed (die : Option Nat) (line : Nat) (s : State) (cluster : Nat) : State :=
  let key := 64 * line + cluster
  let gen := (getDie s (clusterDie cluster)).gen
  if die = some (clusterDie cluster) then { s with mixed := serase s.mixed key }
  else match sget s.mixed key with
    | some c => if c.gen = gen then s else { s with mixed := sset s.mixed key ⟨gen, homeLine s line⟩ }
    | none => { s with mixed := sset s.mixed key ⟨gen, homeLine s line⟩ }

/-- The clusters that may hold a tracked line, by its directory entry (R372). -/
def holders (e : DirEntry) : List Nat :=
  (List.range 36).filter fun c => e.l1s.contains c || e.owner = some (clusterDie c) || e.sharers.contains (clusterDie c)

/-- What a write does to the clusters' older copies of the lines it meets: a tracked one ends them, an untracked one leaves
those that the directory names (R372, R374). -/
def mixedWrite (s : State) (die : Option Nat) (pa n : Nat) (track : Bool) : State :=
  if track then
    if s.mixed = [] then s else { s with mixed := s.mixed.filter fun e => !((unitsOf 128 pa n).any fun a => lineOf a = e.1 / 64) }
  else (unitsOf 128 pa n).foldl (fun s a => match dirAt s a with
    | none => s
    | some (_, e) => (holders e).foldl (keepMixed die (lineOf a)) s) s

/-- A write performed at the home (R201, R300, R374): memory, the writing die's copies, the master's dirty bits, and the
count of untracked writes to lines held tracked elsewhere. A tracked write takes ownership of its lines (R370, R372). `die` is
none for the host and other packages. -/
def homeWrite (s : State) (ctx : Nat) (die : Option Nat) (va pa : Nat) (mv track : Bool) (bs : List Byte) : State :=
  let s := mixedWrite s die pa bs.length track
  let s := { s with mem := memSets s.mem pa bs }
  let s := match die with
    | none => s
    | some d => (List.range bs.length).foldl (fun s i => copiesSet s d (pa + i) (bs.getD i 0)) s
  let s := if mv then modCtx s ctx fun c => (unitsOf 4096 va bs.length).foldl dirtyMark c else s
  (unitsOf 128 pa bs.length).foldl (fun s a => if track then dirRequest a (.own die) s else countMixed s a) s

/-- A write by a party at a translated place. -/
def writeLoc (s : State) (w : Who) (va : Nat) (l : Loc) (bs : List Byte) : State :=
  homeWrite s w.ctx (some (coreDie w.core)) va l.pa l.mv l.tracked bs

/-! ## Scratchpad -/

def spByte (tm : Team) (off : Nat) : Byte := sgetD tm.scratch off 0
def spBytes (tm : Team) (off n : Nat) : List Byte := (List.range n).map fun i => spByte tm (off + i)
def spNat (tm : Team) (off n : Nat) : Nat := leNat (spBytes tm off n)

/-- Writes scratchpad bytes from an offset. -/
def spSets : Store Byte → Nat → List Byte → Store Byte
  | m, _, [] => m
  | m, a, b :: t => spSets (ssetD m a b 0) (a + 1) t
def spWrite (tm : Team) (off : Nat) (bs : List Byte) : Team := { tm with scratch := spSets tm.scratch off bs }

/-! ## Generations and path caches -/

/-- A generation bump of a die (R371): every untracked line of another home is dropped from it. -/
def genBump (s : State) (die : Nat) : State := modDie s die fun d => { d with gen := d.gen + 1 }

/-- Drops a core's lines of the named non-LS paths, of the whole cluster for LY (R217). -/
def pathDrop (s : State) (core : Nat) (codes : List Nat) : State :=
  let s := modCore s core fun c => { c with paths := c.paths.filter fun e => !(codes.contains (e.1 % 8)) }
  if codes.contains 2 then
    { s with cores := s.cores.map fun e =>
        if coreCluster e.1 = coreCluster core then (e.1, { e.2 with paths := e.2.paths.filter fun x => x.1 % 8 ≠ 2 }) else e }
  else s

/-! ## Host interrupts and notices (R344, R377) -/

/-- Appends a notice of an event at a time to a context's trap queue, or counts it as lost; a written notice sends an interrupt
(R344, R377). -/
def noticeAt (time : Nat) (s : State) (ctx kind cause unit arg : Nat) (addr : DWord) : State :=
  let lost := { s with counters := { s.counters with trapqLost := countUp s.counters.trapqLost } }
  match sget s.contexts ctx with
  | none => s
  | some c =>
    let va := c.tqbase + 32 * (c.tqcount % 2 ^ c.tqlogn)
    match checkPage s ctx va .ls true false with
    | .error _ => lost
    | .ok l =>
      if memByte s.mem l.pa ≠ 0 then lost
      else
        let v := kind + cause * 2 ^ 8 + unit * 2 ^ 32 + arg * 2 ^ 64 + addr.toNat * 2 ^ 128 + time % 2 ^ 64 * 2 ^ 192
        let s := homeWrite s ctx none va l.pa l.mv l.tracked (natLe 32 v)
        { modCtx s ctx fun c => { c with tqcount := c.tqcount + 1 } with irqs := s.irqs ++ [ctx] }

/-- A notice of an event of this moment. -/
def notice (s : State) (ctx kind cause unit arg : Nat) (addr : DWord) : State := noticeAt (timeOf s) s ctx kind cause unit arg addr

end Sys2Proof.Machine
end

