-- ==== Sys2Proof/Machine/Flags.lean ====
section
/-! DEFINITION. Flag and predicate computations: extension, saturation, carry and borrow (R93, R95, R96), comparisons and
their combination (R104, R123), and the floating-point condition of TFENCE (R80, R364). -/

namespace Sys2Proof.Machine

/-- A register read under SGN. -/
def extS (sgn : Bool) (a : Word) : Int := if sgn then a.toInt else a.toNat
def extS64 (sgn : Bool) (a : DWord) : Int := if sgn then a.toInt else a.toNat

/-- IMM16 extended under SGN (R95). -/
def imm32 (sgn : Bool) (i : BitVec 16) : Word := if sgn then i.signExtend 32 else i.zeroExtend 32

/-- The low 32 bits of an exact result, and its low 64. -/
def low32 (e : Int) : Word := BitVec.ofInt 32 e
def low64 (e : Int) : DWord := BitVec.ofInt 64 e

/-- Saturation to 32 bits under SGN (R96). -/
def sat32 (sgn : Bool) (e : Int) : Word :=
  let lo : Int := if sgn then -2 ^ 31 else 0
  let hi : Int := if sgn then 2 ^ 31 - 1 else 2 ^ 32 - 1
  low32 (min (max e lo) hi)

/-- Carry out of an unsigned sum, and borrow of an unsigned difference (R96). -/
def carryOut (a b : Word) (c : Bool) : Bool := 2 ^ 32 ≤ a.toNat + b.toNat + c.toNat
def borrowOut (a b : Word) : Bool := a.toNat < b.toNat

/-- The comparisons of R104 on exact values. -/
def cmpInt : Cmp → Int → Int → Bool
  | .eq, x, y => x = y
  | .ne, x, y => x ≠ y
  | .lt, x, y => x < y
  | .le, x, y => x ≤ y
  | .gt, x, y => x > y
  | .ge, x, y => x ≥ y

/-- COMB of R104: the comparison's result combined with a predicate. -/
def combOp : CombOp → Bool → Bool → Bool
  | .and, t, p => t && p
  | .or, t, p => t || p
  | .xor, t, p => t != p

/-- Flags of `%fflags` that are set and enabled: enables stand 8 bits above their flags (R80). -/
def enabledFlags (f : Word) : BitVec 5 := f.extractLsb' 0 5 &&& f.extractLsb' 8 5

end Sys2Proof.Machine
end

