-- ==== Sys2Proof/Machine/Ops.lean ====
section
/-! DEFINITION. The shared operations around every word: trap entry and return (R338 to R342), fatal faults (R343), frozen
masters (R378), trace packets (R361), and issuing, checking and retiring a word of a group or of the sequencer (R36, R43,
R44, R152, R253, R255). -/

namespace Sys2Proof.Machine

/-! ## Positions (R30, R339) -/

/-- `%hpc` naming word `w` of the clause at `pc`. -/
def hpcWord (pc w : Nat) : DWord := BitVec.ofNat 64 (pc + 8 * (w + 1) + (w + 1) * 2 ^ 52)
/-- `%hpc` naming a clause address. -/
def hpcClause (pc : Nat) : DWord := BitVec.ofNat 64 pc
/-- The WIX and ADDR fields of `%hpc`. -/
def hpcWix (h : DWord) : Nat := (h.extractLsb' 52 5).toNat
def hpcAddr (h : DWord) : Nat := (h.extractLsb' 0 52).toNat
/-- The fall-through address of a clause. -/
def fallAddr (c : Clause) : Nat := c.addr + 8 * (c.words.length + 1)
/-- Where a group stands: the word, or the clause before it is fetched at word 0. -/
def groupPos (g : Group) : DWord := if g.clause.isNone && g.wix = 0 then hpcClause g.pc else hpcWord g.pc g.wix
def maskOf (lanes : List Nat) : Word := lanes.foldl (fun m l => m ||| (1#32 <<< l)) 0

/-- The launch record of a team's grid. -/
def lrecOf (s : State) (tm : Team) : LaunchRec := ((sget s.grids tm.grid).map (·.lrec)).getD default

/-! ## Trace packets (R361) -/

/-- Writes the words of a packet into a ring, each at the ring's next place. -/
def ringPut (s : State) (ctx base size : Nat) : Nat → List DWord → State
  | _, [] => s
  | n, w :: ws =>
    let va := base + n % size
    let s := match checkPage s ctx va .ls true false with
      | .error _ => s
      | .ok l => homeWrite s ctx none va l.pa l.mv l.tracked (natLe 8 w.toNat)
    ringPut s ctx base size (n + 8) ws

/-- The type of a packet. -/
def TraceBody.type : TraceBody → Nat
  | .sync .. => 1 | .clause .. => 2 | .form .. => 3 | .dissolve .. => 3 | .trap .. => 4 | .sample .. => 5 | .lost _ => 6

/-- The words of a packet's record: the header byte of each packet of at most 16 words is given, the rest is laid out as
`Config.traceWord` says (log 24). A SYNC may take several packets. -/
def packetWords (b : TraceBody) : Nat → Nat → List DWord
  | _, 0 => []
  | i, n + 1 =>
    let total := i + n + 1
    let w := Config.traceWord b i
    (if i % 16 = 0 then w.extractLsb' 8 56 ++ BitVec.ofNat 8 (b.type * 16 + (min 16 (total - i) - 1)) else w) :: packetWords b (i + 1) n

/-- Words of a record: 1 to 16, or any number for a SYNC. -/
def traceLength (b : TraceBody) : Nat := 1 + if b.type = 1 then Config.traceLen b else Config.traceLen b % 16

/-- Appends a record's packets to a core's trace ring, and the device's write count to its descriptor. -/
def traceAppend (s : State) (core : Nat) (b : TraceBody) : State :=
  let tr := (getCore s core).trace
  let n := traceLength b
  let s := ringPut s tr.ctx tr.base (2 ^ tr.logsz) tr.count (packetWords b 0 n)
  let count := tr.count + 8 * n
  let s := match checkPage s tr.ctx (tr.desc + 16) .ls true false with
    | .error _ => s
    | .ok l => homeWrite s tr.ctx none (tr.desc + 16) l.pa l.mv l.tracked (natLe 4 count)
  modCore s core fun c => { c with trace := { tr with count := count, since := if b.type = 1 then 0 else tr.since + 1, synced := true } }

/-- A packet that finds the ring full is dropped; the first one after dropped ones is preceded by a LOST packet, unless it is the
first SYNC, before which nothing is written. When the ring is full is free: no read count is given (log 24). -/
def traceOrDrop (s : State) (core : Nat) (b : TraceBody) : State :=
  if Config.freeBit s.freeCtr (2 ^ 37 + core) then modCore s core fun c => { c with trace := { c.trace with lost := c.trace.lost + 1 } }
  else
    let lost := (getCore s core).trace.lost
    let s := if lost = 0 || !(getCore s core).trace.synced then s
      else modCore (traceAppend s core (.lost lost)) core fun c => { c with trace := { c.trace with lost := 0 } }
    traceAppend s core b

/-- Writes a trace packet. Nothing is written before the first SYNC; after 4,096 packets another SYNC is due. -/
def tracePut (s : State) (core : Nat) (b : TraceBody) : State :=
  let tr := (getCore s core).trace
  if !(if b.type = 5 then tr.sample else tr.on || (b.type = 1 && tr.sample)) || (!tr.synced && b.type ≠ 1) then s
  else
    let s := traceOrDrop s core b
    if b.type ≠ 1 && 4096 ≤ (getCore s core).trace.since then { s with agenda := s.agenda ++ [.traceSync core] } else s

/-- The slot of a core that a team slot takes, as records name it: 16 times the partition plus the physical slot. -/
def slotId (tm : Team) (k : Nat) : Nat := 16 * tm.slotPart.getD k 0 + tm.slotPhys.getD k 0

/-! ## Fatal faults and frozen masters -/

/-- A fatal fault of a context (R343): its resident work stops. Its core image and its notice follow once the operations issued
have completed. -/
def fatalFault (s : State) (ctx core : Nat) (hpc : DWord) (cause : Nat) : State :=
  modCtx s ctx fun c => { c with stopped := true, fault := if c.stopped then c.fault else some (core, hpc, cause, timeOf s) }

/-- Freezes a team as a master (R378). -/
def freezeTeam (s : State) (t : Nat) (addr : DWord) (cause : Nat) : State :=
  match sget s.teams t with
  | none => s
  | some tm => notice (modTeam s t fun tm => { tm with frozen := true }) tm.ctx 5 cause tm.core (2 ^ 56) addr

/-- The engine that carries an operation on (R211, R246). -/
def OpKind.unit : OpKind → Option EngineUnit
  | .copy .. | .expand .. | .cbld .. | .batch .. => some .copy
  | .awl .. => some .gather
  | .plain | .load .. | .flags .. | .bufs .. | .stage .. | .matrix .. | .drain .. | .gload .. | .vpol .. | .spawn .. | .klaunch ..
  | .crpop .. | .bank .. | .ctxsave .. => none

/-- Freezes an engine as a master: it carries nothing on until its context ends (R378). The notice names a core. -/
def freezeEngine (s : State) (u : EngineUnit) (n ctx core : Nat) (addr : DWord) (cause : Nat) : State :=
  notice { s with frozen := sset s.frozen (engineKey n u) ctx } ctx 5 cause core (2 * 2 ^ 56) addr

/-- An engine is frozen, and the engine of an operation. -/
def unitFrozen (s : State) (u : EngineUnit) (n : Nat) : Bool := (sget s.frozen (engineKey n u)).isSome
def opFrozen (s : State) (o : Op) : Bool :=
  match sget s.teams o.team with
  | none => false
  | some tm => o.kind.unit.any fun u => unitFrozen s u tm.core

/-! ## Traps of a group -/

/-- A raised trap: cause, the lanes of `%hmask_fault`, `%haddr` and `%hinfo`. Cause 0x100 is a protection violation. -/
structure Trap where
  cause : Nat
  lanes : List Nat
  addr  : DWord := 0
  info  : Word := 0

/-- The cause code of a protection violation's notice: one of R171's, which one the manual does not state for a page-table entry
(log 40). -/
def violationCause (s : State) : Nat :=
  [0x10, 0x11, 0x12, 0x14, 0x15, 0x16, 0x17, 0x18].getD (Config.freeNat s.freeCtr 0x378 % 8) 0x10

/-- The group as handler entry leaves it (R338): `hpc` and the former active lanes are given. -/
def handlerGroup (g : Group) (htvec hpc : DWord) (old : List Nat) (tr : Trap) : Group :=
  { g with
    pc := htvec.toNat, wix := 0, clause := none, waitzDone := false, handler := true, seqTrap := false, hregs := [],
    hmaskOld := maskOf old, hmaskFault := maskOf tr.lanes, hpc := hpc, hcause := BitVec.ofNat 32 tr.cause,
    haddr := tr.addr, hinfo := tr.info, status := .ready, seen := false, cons := [], lays := [],
    left := none, doneLanes := [], keptLanes := g.doneLanes, transfer := none }

/-- A waiting word that does not retire is recorded as not issued (R222, R348). -/
def abandonWait (k : Nat) (tm : Team) : Team :=
  match sget tm.groups k with
  | none => tm
  | some g =>
    let tm := modGroup tm k fun g => { g with status := .ready, seen := false, counted := false, cons := [], lays := [] }
    let tm := { tm with sems := tm.sems.map fun e => (e.1, { e.2 with waiters := e.2.waiters.filter (· ≠ some k) }) }
    if g.counted then { tm with icount := tm.icount - 1 } else tm

/-- A group takes a trap: it enters its handler, or the context faults fatally (R341, R343), or the team freezes (R378). -/
def trapGroup (s : State) (t k : Nat) (tr : Trap) (old : List Nat) (hpc : DWord) : State :=
  match sget s.teams t with
  | none => s
  | some tm =>
    match sget tm.groups k with
    | none => s
    | some g =>
      if tr.cause = 0x100 then freezeTeam s t tr.addr (violationCause s)
      else if g.handler || tm.htvec = 0 then fatalFault s tm.ctx tm.core hpc tr.cause
      else tracePut (modTeam s t fun tm => modGroup (abandonWait k tm) k fun g => handlerGroup g tm.htvec hpc old tr) tm.core (.trap (slotId tm k) tr.cause hpc)

/-- The group as RTH leaves it (R342): it stands at `%hpc`, in handler mode no more. A word position is resumed without
its clause's WAITZ (R40). -/
def rthGroup (g : Group) : Group :=
  let w := hpcWix g.hpc
  { g with
    pc := if w = 0 then hpcAddr g.hpc else (hpcAddr g.hpc + 2 ^ 52 - 8 * w) % 2 ^ 52, wix := w - 1, clause := none,
    waitzDone := w ≠ 0, handler := false, hregs := [], status := .ready, seen := false, cons := [], lays := [],
    doneLanes := g.keptLanes, keptLanes := [], transfer := none }

/-! ## Issuing a word of a group -/

/-- Engines of R21. -/
inductive Engine | alu | sync | order | layout | loads | stores | atomics | copy | views | work | bquarter
  deriving DecidableEq, Repr

/-- The roles that may use an engine (R21). -/
def engineRole : Engine → Role → Bool
  | .alu, _ | .sync, _ | .order, _ | .layout, _ => true
  | .loads, r => r ≠ .copy
  | .stores, r | .atomics, r | .views, r | .work, r => r = .vector
  | .copy, r => r ≠ .matrix
  | .bquarter, r => r = .matrix

/-- Where a word issues: team, slot, and what the word sees. -/
structure Site where
  t   : Nat
  k   : Nat
  tm  : Team
  g   : Group
  lr  : LaunchRec
  act : List Nat

/-- What a word asks before it may issue: guard, clauses (R48), engine (R21), registers named (R38) and predicates beside the
guard's, counter (R44), checks of fields that depend on state, the further group conditions of QBIND and QREL, and what else
holds it like a counter (R229, R353). -/
structure Req where
  guard  : Guard
  lane   : Bool := false
  priv   : Bool := false
  rth    : Bool := false
  engine : Engine := .alu
  regs   : List (Nat × Nat) := []
  preds  : List PReg := []
  dc     : Nat := 6
  ok     : Site → Bool := fun _ => true
  roleOk : Site → Bool := fun _ => true
  held   : State → Site → Bool := fun _ _ => false

/-- How a body ends: retired, retired and then trapped, trapped without effect, trapped after its reads (R379), waiting
(class W), issued and unresolved (a transfer), or not able to issue. -/
inductive Res
  | retire (s : State)
  | retireTrap (s : State) (tr : Trap)
  | trap (tr : Trap)
  | trapIn (s : State) (tr : Trap)
  | wait (s : State)
  | hold (s : State)
  | stall

def siteOf (s : State) (t k : Nat) (gd : Guard) : Option Site :=
  match sget s.teams t with
  | none => none
  | some tm =>
    match sget tm.groups k with
    | none => none
    | some g => some { t := t, k := k, tm := tm, g := g, lr := lrecOf s tm, act := activeLanes tm g gd }

/-- What the lanes of a site see. -/
def Site.view (x : Site) (s : State) : LView := { ctr := s.freeCtr, tm := x.tm, lr := x.lr, g := x.g, act := x.act }
/-- The active threads. -/
def Site.tids (x : Site) : List Nat := x.act.map fun l => sgetD x.g.members l 0
def Site.who (x : Site) (l : Nat) : Who := { ctx := x.tm.ctx, core := x.tm.core, team := x.t, tid := some (sgetD x.g.members l 0) }

/-- A team may issue: nothing has stopped it (R154). -/
def teamRuns (s : State) (tm : Team) : Bool :=
  !tm.frozen && tm.saving.isNone
  && (match sget s.contexts tm.ctx with | some c => !c.stopped | none => false)
  && (match sget s.grids tm.grid with | some g => !g.halted | none => false)
  && !(getDie s (coreDie tm.core)).fenced

/-- Counters named by a WAITZ mask are 0. -/
def waitzMet (mask : BitVec 6) (dc : Store Nat) : Bool :=
  (List.range 6).all fun i => !mask.getLsbD i || sgetD dc i 0 = 0

/-- The partition of a team slot, and whether a debugger has stopped it (R356). -/
def slotPartOf (tm : Team) (k : Nat) : Nat := tm.slotPart.getD k 0
def debugStopped (s : State) (core part : Nat) : Bool :=
  match sget (getCore s core).sel part with
  | some x => x.stopped
  | none => false

/-- The group's next word may issue, checks and stalls apart (R152). -/
def canIssue (s : State) (x : Site) : Bool :=
  teamRuns s x.tm && x.g.status = .ready && x.g.transfer.isNone
  && (match x.g.clause with
      | none => false
      | some c => x.g.wix < c.words.length && (x.g.wix ≠ 0 || x.g.waitzDone
          || (memberTids x.g).all fun t => waitzMet c.waitz (sgetD x.tm.threads t default).dc))
  && !debugStopped s x.tm.core (slotPartOf x.tm x.k)

/-- Check 2 of R36. -/
def classOk (r : Req) (x : Site) : Bool :=
  (match x.g.clause with
   | some c => (match c.cls with | .gen => !r.priv | .lane => r.lane | .sys => true | .mtx => false)
   | none => false)
  && (!r.rth || x.g.handler)

/-- The first failing check of R36 after decoding (2 to 4). -/
def checkWord (r : Req) (x : Site) : Option Nat :=
  let role := groupRole x.tm x.g
  if !classOk r x then some 4
  else if !(regsOk x.g.handler (roleBudget x.tm role) r.regs && r.ok x) then some 2
  else if !(engineRole r.engine role && r.roleOk x) then some 5
  else none

/-- R43 rule 3, R44 or what else holds it holds the word. -/
def stalled (r : Req) (s : State) (x : Site) : Bool :=
  ((memberTids x.g).any fun t =>
    let th := sgetD x.tm.threads t default
    pendBlocked x.g.handler th || (r.dc < 6 && sgetD th.dc r.dc 0 = 63)) || r.held s x

/-- Past the issued word: the next word, or the fall-through clause. Outside handler mode a group between clauses still counts
at the one it has left (log 39). -/
def advance (cyc : Nat) (g : Group) : Group :=
  match g.clause with
  | none => { g with lastIssue := cyc }
  | some c =>
    if g.wix + 1 < c.words.length then { g with wix := g.wix + 1, left := none, lastIssue := cyc }
    else
      { g with
        pc := fallAddr c, wix := 0, clause := none, waitzDone := false, left := if g.handler then none else some c.prio,
        lastIssue := cyc }

/-- A word of slot k retires: windows close by one, the group moves on, `%icount` counts words outside handler mode
(R43, R345). -/
def retireTeam (cyc k : Nat) (tm : Team) : Team :=
  match sget tm.groups k with
  | none => tm
  | some g =>
    let tm := pendTicks tm g.handler (memberTids g)
    let tm := modGroup tm k fun g => { advance cyc g with counted := false }
    if g.handler || g.counted then tm else { tm with icount := tm.icount + 1 }

def retireGroup (s : State) (t k : Nat) : State := modTeam s t (retireTeam s.cycle k)

/-- The CLAUSE packet of a clause whose last word has retired (R361). -/
def clauseTrace (s : State) (x : Site) : State :=
  match x.g.clause with
  | some c => if x.g.wix + 1 = c.words.length then tracePut s x.tm.core (.clause (slotId x.tm x.k) c.addr (maskOf x.act)) else s
  | none => s

/-- A word of slot k issues and waits; in deterministic mode it counts at its turn (R152, R399). -/
def waitTeam (lr : LaunchRec) (cyc k : Nat) (tm : Team) : Team :=
  match sget tm.groups k with
  | none => tm
  | some g =>
    let now := lr.determ && !g.handler && !g.counted
    let tm := modGroup tm k fun g => { g with status := .waiting, waitzDone := true, counted := g.counted || now, lastIssue := cyc }
    if now then { tm with icount := tm.icount + 1 } else tm

/-- Ends the issue of a word at a site, by its body's result. -/
def finish (s : State) (x : Site) : Res → State
  | .retire s' => clauseTrace (retireGroup s' x.t x.k) x
  | .retireTrap s' tr =>
    let s2 := clauseTrace (retireGroup s' x.t x.k) x
    trapGroup s2 x.t x.k tr x.act (groupPos (advance s.cycle x.g))
  | .trap tr => trapGroup s x.t x.k tr x.act (hpcWord x.g.pc x.g.wix)
  | .trapIn s' tr => trapGroup s' x.t x.k tr x.act (hpcWord x.g.pc x.g.wix)
  | .wait s' => modTeam s' x.t (waitTeam x.lr s.cycle x.k)
  | .hold s' => s'
  | .stall => s

/-- The registers that a word names, numbered as pending writes are. -/
def Req.named (r : Req) (handler : Bool) : List Nat :=
  r.regs.flatMap fun e => (List.range e.2).map fun i => pendReg handler (e.1 + i)

/-- As the group issues, arrived lookahead results become visible (R43), and words in flight that it depends on have their
results available (R91, R118). -/
def installed (r : Req) (s : State) (x : Site) : State :=
  modTeam s x.t fun tm => lateDues s.cycle (r.named x.g.handler) (r.guard.p :: r.preds) (pendInstalls tm x.k (memberLanes x.g))
    (memberTids x.g)

/-- Issues a word of the group whose turn it is (R36, R43, R44): encoding checks, stalls, then the body. -/
def issue (r : Req) (body : Site → State → Res) (s : State) : State :=
  match s.issuer with
  | some (.group t k) =>
    match siteOf s t k r.guard with
    | none => s
    | some x =>
      if !canIssue s x then s
      else
        match checkWord r x with
        | some c => trapGroup s t k { cause := c, lanes := memberLanes x.g } (memberLanes x.g) (hpcWord x.g.pc x.g.wix)
        | none =>
          if stalled r s x then s
          else
            let s := installed r s x
            match siteOf s t k r.guard with
            | none => s
            | some x => finish s x (body x s)
  | _ => s

/-! ## Results of lanes -/

/-- What a meaning answers. -/
abbrev Out := Host.Outcome State Fault Refusal

/-- Registers that a word names, one or a pair each. -/
def one (l : List VReg) : List (Nat × Nat) := l.map fun x => (x.toNat, 1)
def two (l : List VReg) : List (Nat × Nat) := l.map fun x => (x.toNat, 2)

/-- What a word of the lane ALU asks (R32: allowed in LANE clauses). -/
def aluReq (h : Head) (regs : List (Nat × Nat)) (preds : List PReg := []) : Req :=
  { guard := h.guard, lane := true, regs := regs, preds := preds, dc := h.dc.toNat }

/-- The cycle at which a class F word that issues now has its result: 6 cycles on, plus the extra latency of R41 and R90, which
is free (R118, R119, log 7). -/
def flagTime (s : State) : Nat := s.cycle + 6 + Config.freeNat s.freeCtr (2 ^ 46)

/-- A class A or F word: the outputs of the active lanes are written at once, and flags are set when the result is available. -/
def laneA (r : Req) (dsm : BitVec 4) (f : LView → Nat → LaneOut) (s : State) : State :=
  issue r (fun x s =>
    .retire (modTeam s x.t fun tm => applyOuts tm x.k dsm (x.act.map fun l => { f (x.view s) l with due := flagTime s }))) s

/-- The flags of a thread at a cycle. -/
def flagsNow (cyc : Nat) (th : Thread) : Word := (th.late.filter fun e => e.due ≤ cyc).foldl (fun w e => w ||| e.flags) th.fflags

/-- Opens an operation. -/
def openOp (s : State) (o : Op) : State := { s with ops := sset s.ops s.nextOp o, nextOp := s.nextOp + 1 }

/-- The operation of a class L word of a group (R44). -/
def groupOp (x : Site) (dc : BitVec 3) (kind : OpKind) : Op :=
  { team := x.t, tids := memberTids x.g, iss := x.tids, seq := false, dc := dc.toNat, read := false, atom := false, kind := kind }

/-- Opens a class L operation with its pending writes (R43, R44). -/
def openLong (s : State) (x : Site) (h : Head) (o : Op) (outs : List LaneOut) : State :=
  let id := s.nextOp
  modTeam (openOp s o) x.t fun tm => pendOuts (dcInc tm h.dc.toNat (memberTids x.g)) x.k h id outs

/-- The flags of lane outputs, per thread. -/
def outFlags (g : Group) (outs : List LaneOut) : List (Nat × Word) :=
  outs.filterMap fun o => if o.fl = 0 then none else some (sgetD g.members o.lane 0, o.fl.zeroExtend 32)

/-- A class L word of the lanes: results pending, flags set at completion (R119). -/
def laneL (r : Req) (h : Head) (f : LView → Nat → LaneOut) (s : State) : State :=
  issue r (fun x s =>
    let outs := x.act.map (f (x.view s))
    .retire (openLong s x h (groupOp x h.dc (.flags (outFlags x.g outs))) outs)) s

/-- The lowest failing lane's cause decides, and every lane that fails with that cause is named (R171). -/
def laneTrap (fs : List (Nat × AFault)) : Option Trap :=
  match fs with
  | [] => none
  | (l, f) :: _ =>
    some { cause := f.cause, lanes := (fs.filter fun e => e.2.cause = f.cause).map Prod.fst, addr := f.addr, info := infoOf f l }

/-! ## Issuing a word of the sequencer -/

/-- Where a sequencer word issues. -/
structure SSite where
  t   : Nat
  tm  : Team
  q   : Seq
  lr  : LaunchRec

/-- What a sequencer word asks: its tile guard, its counter, the g registers it names, checks on state, and what else holds
it. -/
structure SReq where
  guard : Option HeadX := none
  dc    : Nat := 6
  gs    : List Nat := []
  ok    : SSite → Bool := fun _ => true
  held  : State → SSite → Bool := fun _ _ => false

/-- How a sequencer body ends. `hold` has issued and moved the sequencer itself. -/
inductive SRes
  | retire (s : State)
  | trap (cause : Nat) (addr : DWord) (info : Word)
  | wait (s : State)
  | hold (s : State)
  | stall

def ssiteOf (s : State) (t : Nat) : Option SSite :=
  match sget s.teams t with
  | none => none
  | some tm =>
    match tm.seq with
    | none => none
    | some q => some { t := t, tm := tm, q := q, lr := lrecOf s tm }

def SSite.who (x : SSite) : Who := { ctx := x.tm.ctx, core := x.tm.core, team := x.t, tid := none }
def modSeq (s : State) (t : Nat) (f : Seq → Seq) : State := modTeam s t fun tm => { tm with seq := tm.seq.map f }

/-- The sequencer's next word may issue, checks and stalls apart. -/
def canIssueSeq (s : State) (x : SSite) : Bool :=
  teamRuns s x.tm && x.q.status = .ready && x.q.trap.isNone
  && (match x.q.clause with
      | none => false
      | some c => x.q.wix < c.words.length && (x.q.wix ≠ 0 || x.q.waitzDone || waitzMet c.waitz x.q.dc))
  && !debugStopped s x.tm.core 4

/-- A load of the sequencer still owes one of the registers (R254). -/
def gPending (s : State) (t : Nat) (gs : List Nat) : Bool :=
  s.ops.any fun e => e.2.seq && e.2.team = t && (match e.2.kind with
    | .gload g _ => gs.contains g
    | .load l => l.any fun x => match x.fmt with | .greg g => gs.contains g | .bytes .. => false | .elem .. => false
    | _ => false)

/-- The tile guard of a word (R253). -/
def tileOn (q : Seq) (x : HeadX) : Bool := qRead q x.tq != x.tn

def advanceSeq (q : Seq) : Seq :=
  match q.clause with
  | none => q
  | some c =>
    if q.wix + 1 < c.words.length then { q with wix := q.wix + 1 }
    else { q with pc := fallAddr c, wix := 0, clause := none, waitzDone := false }

/-- The sequencer stops at a trap; its delivery is due at once (R255). -/
def trapSeq (s : State) (t cause : Nat) (hpc addr : DWord) (info : Word) : State :=
  if cause = 0x100 then freezeTeam s t addr (violationCause s)
  else
    { modSeq s t fun q =>
        { q with trap := some { cause := cause, hpc := hpc, haddr := addr, hinfo := info &&& 0xFFF00000, slot := none } } with
      agenda := s.agenda ++ [.sequencerTrapDelivery t] }

def finishSeq (s : State) (x : SSite) : SRes → State
  | .retire s' => modSeq s' x.t advanceSeq
  | .trap c a i => trapSeq s x.t c (hpcWord x.q.pc x.q.wix) a i
  | .wait s' => modSeq s' x.t fun q => { q with status := .waiting, waitzDone := true }
  | .hold s' => s'
  | .stall => s

/-- A g register that is owed, a full counter or what else holds it holds a word of the sequencer. -/
def stalledSeq (r : SReq) (s : State) (x : SSite) : Bool :=
  gPending s x.t r.gs || (r.dc < 6 && sgetD x.q.dc r.dc 0 = 63) || r.held s x

/-- Issues a word of the sequencer whose turn it is. -/
def issueSeq (r : SReq) (body : SSite → State → SRes) (s : State) : State :=
  match s.issuer with
  | some (.seq t) =>
    match ssiteOf s t with
    | none => s
    | some x =>
      if !canIssueSeq s x then s
      else if !r.ok x then trapSeq s t 2 (hpcWord x.q.pc x.q.wix) 0 0
      else if stalledSeq r s x then s
      else if (match r.guard with | some h => !tileOn x.q h | none => false) then modSeq s t advanceSeq
      else finishSeq s x (body x s)
  | _ => s

def sdcInc (q : Seq) (k : Nat) : Seq := if 6 ≤ k then q else { q with dc := ssetD q.dc k (sgetD q.dc k 0 + 1) 0 }
def sdcDec (q : Seq) (k : Nat) : Seq := if 6 ≤ k then q else { q with dc := ssetD q.dc k (sgetD q.dc k 0 - 1) 0 }

/-- Opens an SL operation of the sequencer. -/
def openSeq (s : State) (t dc : Nat) (kind : OpKind) : State :=
  modSeq (openOp s { team := t, tids := [], iss := [], seq := true, dc := dc, read := false, atom := false,
                     kind := kind }) t fun q => sdcInc q dc

/-- Writes a g register; a write of 0 keeps no entry. -/
def gWrite (s : State) (t n : Nat) (v : DWord) : State := modSeq s t fun q => { q with g := ssetD q.g n v 0 }

/-- A class S word that writes one g register. -/
def seqG (x : HeadX) (gs : List Nat) (gd : GReg) (f : SSite → DWord) (s : State) : State :=
  issueSeq { guard := some x, gs := gd.toNat :: gs } (fun y s => .retire (gWrite s y.t gd.toNat (f y))) s

end Sys2Proof.Machine
end

