-- ==== Sys2Proof/Machine/Int.lean ====
section
/-! DEFINITION. Integer and logic instructions, 0x000 to 0x07F (R92 to R108). -/

namespace Sys2Proof.Machine

/-! ## Shapes -/

/-- One source, one result. -/
def alu1 (h : Head) (d a : VReg) (f : Word → Word) (s : State) : Out :=
  .next (laneA (aluReq h (one [d, a])) h.dsm (fun v l => out1 l d (f (v.r l a))) s)

/-- Two sources, one result. -/
def alu2 (h : Head) (d a b : VReg) (f : Word → Word → Word) (s : State) : Out :=
  .next (laneA (aluReq h (one [d, a, b])) h.dsm (fun v l => out1 l d (f (v.r l a) (v.r l b))) s)

/-- Three sources, one result. -/
def alu3 (h : Head) (d a b c : VReg) (f : Word → Word → Word → Word) (s : State) : Out :=
  .next (laneA (aluReq h (one [d, a, b, c])) h.dsm (fun v l => out1 l d (f (v.r l a) (v.r l b) (v.r l c))) s)

/-- A pair and a register to a pair. -/
def aluPair1 (h : Head) (d a b : VReg) (f : DWord → Word → DWord) (s : State) : Out :=
  .next (laneA (aluReq h (two [d, a] ++ one [b])) h.dsm (fun v l => out2 l d (f (v.r64 l a) (v.r l b))) s)

/-- A pair to a pair. -/
def aluPair (h : Head) (d a : VReg) (f : DWord → DWord) (s : State) : Out :=
  .next (laneA (aluReq h (two [d, a])) h.dsm (fun v l => out2 l d (f (v.r64 l a))) s)

/-- Two pairs to a pair. -/
def aluPair2 (h : Head) (d a b : VReg) (f : DWord → DWord → DWord) (s : State) : Out :=
  .next (laneA (aluReq h (two [d, a, b])) h.dsm (fun v l => out2 l d (f (v.r64 l a) (v.r64 l b))) s)

/-! ## Addition and subtraction (R96) -/

/-- The result and the carry of an addition or subtraction under MOD: `e` is the exact result read under SGN. -/
def addOut (l : Nat) (d : VReg) (m : AddMod) (e : Int) (c : Bool) : LaneOut :=
  { lane := l, vs := [(d.toNat, if m.sat then sat32 m.sgn e else low32 e)],
    ps := match m.cc with | some p => [(p, c)] | none => [] }

/-- IADD (R96). -/
def execIadd (h : Head) (d a b : VReg) (m : AddMod) (s : State) : Out :=
  .next (laneA (aluReq h (one [d, a, b]) m.cc.toList) h.dsm (fun v l =>
    addOut l d m (extS m.sgn (v.r l a) + extS m.sgn (v.r l b)) (carryOut (v.r l a) (v.r l b) false)) s)

/-- IADD, immediate (R47, R95). -/
def execIaddImm (h : Head) (d a : VReg) (imm : BitVec 16) (m : AddMod) (s : State) : Out :=
  .next (laneA (aluReq h (one [d, a]) m.cc.toList) h.dsm (fun v l =>
    addOut l d m (extS m.sgn (v.r l a) + extS m.sgn (imm32 m.sgn imm)) (carryOut (v.r l a) (imm32 m.sgn imm) false)) s)

/-- ISUB (R96). -/
def execIsub (h : Head) (d a b : VReg) (m : AddMod) (s : State) : Out :=
  .next (laneA (aluReq h (one [d, a, b]) m.cc.toList) h.dsm (fun v l =>
    addOut l d m (extS m.sgn (v.r l a) - extS m.sgn (v.r l b)) (borrowOut (v.r l a) (v.r l b))) s)

/-- ISUB, immediate (R47, R95). -/
def execIsubImm (h : Head) (d a : VReg) (imm : BitVec 16) (m : AddMod) (s : State) : Out :=
  .next (laneA (aluReq h (one [d, a]) m.cc.toList) h.dsm (fun v l =>
    addOut l d m (extS m.sgn (v.r l a) - extS m.sgn (imm32 m.sgn imm)) (borrowOut (v.r l a) (imm32 m.sgn imm))) s)

/-- IADDX: the carry-in is a source predicate, read before the carry is written (R96). -/
def execIaddx (h : Head) (d a b : VReg) (c : PSrc) (cc : Option PReg) (s : State) : Out :=
  .next (laneA (aluReq h (one [d, a, b]) (c.p :: cc.toList)) h.dsm (fun v l =>
    addOut l d ⟨cc, false, false⟩ (extS false (v.r l a) + extS false (v.r l b) + (v.p l c).toNat)
      (carryOut (v.r l a) (v.r l b) (v.p l c))) s)

/-- INEG (R96). -/
def execIneg (h : Head) (d a : VReg) (sat : Bool) (s : State) : Out :=
  alu1 h d a (fun x => if sat then sat32 true (-x.toInt) else low32 (-x.toInt)) s

/-- IABS (R96). -/
def execIabs (h : Head) (d a : VReg) (sat : Bool) (s : State) : Out :=
  alu1 h d a (fun x => if sat then sat32 true |x.toInt| else low32 |x.toInt|) s

/-- The smaller and the larger of two values under SGN (R96). -/
def minS (sgn : Bool) (x y : Word) : Word := low32 (min (extS sgn x) (extS sgn y))
def maxS (sgn : Bool) (x y : Word) : Word := low32 (max (extS sgn x) (extS sgn y))

/-- IMIN (R96). -/
def execImin (h : Head) (d a b : VReg) (sgn : Bool) (s : State) : Out := alu2 h d a b (minS sgn) s
/-- IMIN, immediate. -/
def execIminImm (h : Head) (d a : VReg) (imm : BitVec 16) (sgn : Bool) (s : State) : Out :=
  alu1 h d a (fun x => minS sgn x (imm32 sgn imm)) s
/-- IMAX (R96). -/
def execImax (h : Head) (d a b : VReg) (sgn : Bool) (s : State) : Out := alu2 h d a b (maxS sgn) s
/-- IMAX, immediate. -/
def execImaxImm (h : Head) (d a : VReg) (imm : BitVec 16) (sgn : Bool) (s : State) : Out :=
  alu1 h d a (fun x => maxS sgn x (imm32 sgn imm)) s

/-! ## Multiplication and division (R97, R98) -/

/-- The high half of the exact product under SGN. -/
def mulHigh (sgn : Bool) (x y : Word) : Word := (low64 (extS sgn x * extS sgn y)).extractLsb' 32 32

/-- IMUL (R97). -/
def execImul (h : Head) (d a b : VReg) (s : State) : Out := alu2 h d a b (· * ·) s
/-- IMUL, immediate: sign-extended (R95). -/
def execImulImm (h : Head) (d a : VReg) (imm : BitVec 16) (s : State) : Out := alu1 h d a (· * imm32 true imm) s
/-- IMULH (R97). -/
def execImulh (h : Head) (d a b : VReg) (sgn : Bool) (s : State) : Out := alu2 h d a b (mulHigh sgn) s
/-- IMULH, immediate. -/
def execImulhImm (h : Head) (d a : VReg) (imm : BitVec 16) (sgn : Bool) (s : State) : Out :=
  alu1 h d a (fun x => mulHigh sgn x (imm32 sgn imm)) s
/-- IMULW (R97). -/
def execImulw (h : Head) (d a b : VReg) (sgn : Bool) (s : State) : Out :=
  .next (laneA (aluReq h (two [d] ++ one [a, b])) h.dsm (fun v l =>
    out2 l d (low64 (extS sgn (v.r l a) * extS sgn (v.r l b)))) s)
/-- IMAD (R97). -/
def execImad (h : Head) (d a b c : VReg) (s : State) : Out := alu3 h d a b c (fun x y z => x * y + z) s
/-- IMADW (R97). -/
def execImadw (h : Head) (d a b c : VReg) (sgn : Bool) (s : State) : Out :=
  .next (laneA (aluReq h (two [d, c] ++ one [a, b])) h.dsm (fun v l =>
    out2 l d (low64 (extS sgn (v.r l a) * extS sgn (v.r l b)) + v.r64 l c)) s)

/-- Quotient and remainder of R98. -/
def divide (sgn : Bool) (a b : Word) : Word × Word :=
  if b = 0 then (0xFFFFFFFF, a)
  else if sgn && a = 0x80000000 && b = 0xFFFFFFFF then (0x80000000, 0)
  else
    let x := extS sgn a
    let y := extS sgn b
    (low32 (Int.tdiv x y), low32 (x - Int.tdiv x y * y))

/-- IDIV (R98). -/
def execIdiv (h : Head) (d a b : VReg) (sgn : Bool) (s : State) : Out :=
  .next (laneL (aluReq h (one [d, a, b])) h (fun v l => out1 l d (divide sgn (v.r l a) (v.r l b)).1) s)
/-- IMOD (R98). -/
def execImod (h : Head) (d a b : VReg) (sgn : Bool) (s : State) : Out :=
  .next (laneL (aluReq h (one [d, a, b])) h (fun v l => out1 l d (divide sgn (v.r l a) (v.r l b)).2) s)

/-! ## Logic (R99, R100); immediates are zero-extended -/

/-- AND. -/
def execAnd (h : Head) (d a b : VReg) (s : State) : Out := alu2 h d a b (· &&& ·) s
/-- AND, immediate. -/
def execAndImm (h : Head) (d a : VReg) (imm : BitVec 16) (s : State) : Out := alu1 h d a (· &&& imm32 false imm) s
/-- OR. -/
def execOr (h : Head) (d a b : VReg) (s : State) : Out := alu2 h d a b (· ||| ·) s
/-- OR, immediate. -/
def execOrImm (h : Head) (d a : VReg) (imm : BitVec 16) (s : State) : Out := alu1 h d a (· ||| imm32 false imm) s
/-- XOR. -/
def execXor (h : Head) (d a b : VReg) (s : State) : Out := alu2 h d a b (· ^^^ ·) s
/-- XOR, immediate. -/
def execXorImm (h : Head) (d a : VReg) (imm : BitVec 16) (s : State) : Out := alu1 h d a (· ^^^ imm32 false imm) s
/-- ANDN. -/
def execAndn (h : Head) (d a b : VReg) (s : State) : Out := alu2 h d a b (fun x y => x &&& ~~~y) s
/-- ANDN, immediate. -/
def execAndnImm (h : Head) (d a : VReg) (imm : BitVec 16) (s : State) : Out :=
  alu1 h d a (fun x => x &&& ~~~(imm32 false imm)) s
/-- NOT. -/
def execNot (h : Head) (d a : VReg) (s : State) : Out := alu1 h d a (~~~·) s

/-- LOP3's function: bit i is the table's bit A[i] + 2·B[i] + 4·C[i] (R100). -/
def lop3 (tt : BitVec 8) (a b c : Word) : Word :=
  BitVec.ofFnLE fun i : Fin 32 =>
    tt.getLsbD ((a.getLsbD i).toNat + 2 * (b.getLsbD i).toNat + 4 * (c.getLsbD i).toNat)

/-- LOP3 with truth-table bit 7 clear. -/
def execLop3 (h : Head) (d a b c : VReg) (tt : BitVec 7) (s : State) : Out := alu3 h d a b c (lop3 (0#1 ++ tt)) s
/-- LOP3 with truth-table bit 7 set. -/
def execLop3Hi (h : Head) (d a b c : VReg) (tt : BitVec 7) (s : State) : Out := alu3 h d a b c (lop3 (1#1 ++ tt)) s

/-! ## Shifts and rotations (R101) -/

/-- SHL's function on an amount. -/
def shlW (wrap : Bool) (x : Word) (n : Nat) : Word :=
  let k := if wrap then n % 32 else n
  if 32 ≤ k then 0 else x <<< k
/-- SHR's function on an amount. -/
def shrW (sgn wrap : Bool) (x : Word) (n : Nat) : Word :=
  let k := if wrap then n % 32 else n
  if sgn then x.sshiftRight k else x >>> k
/-- SHF's function: a funnel of A above B. -/
def shfW (right wrap : Bool) (x y : Word) (n : Nat) : Word :=
  let k := if wrap then n % 32 else min n 32
  let w : DWord := x ++ y
  if right then (w >>> k).extractLsb' 0 32 else (w <<< k).extractLsb' 32 32
/-- ROT's function. -/
def rotW (right : Bool) (x : Word) (n : Nat) : Word := if right then x.rotateRight (n % 32) else x.rotateLeft (n % 32)

/-- SHL. -/
def execShl (h : Head) (d a b : VReg) (wrap : Bool) (s : State) : Out := alu2 h d a b (fun x y => shlW wrap x y.toNat) s
/-- SHL, immediate. -/
def execShlImm (h : Head) (d a : VReg) (imm : BitVec 16) (wrap : Bool) (s : State) : Out :=
  alu1 h d a (fun x => shlW wrap x imm.toNat) s
/-- SHR. -/
def execShr (h : Head) (d a b : VReg) (sgn wrap : Bool) (s : State) : Out :=
  alu2 h d a b (fun x y => shrW sgn wrap x y.toNat) s
/-- SHR, immediate. -/
def execShrImm (h : Head) (d a : VReg) (imm : BitVec 16) (sgn wrap : Bool) (s : State) : Out :=
  alu1 h d a (fun x => shrW sgn wrap x imm.toNat) s
/-- SHF. -/
def execShf (h : Head) (d a b c : VReg) (right wrap : Bool) (s : State) : Out :=
  alu3 h d a b c (fun x y z => shfW right wrap x y z.toNat) s
/-- ROT. -/
def execRot (h : Head) (d a b : VReg) (right : Bool) (s : State) : Out := alu2 h d a b (fun x y => rotW right x y.toNat) s
/-- ROT, immediate. -/
def execRotImm (h : Head) (d a : VReg) (imm : BitVec 16) (right : Bool) (s : State) : Out :=
  alu1 h d a (fun x => rotW right x imm.toNat) s

/-! ## Bit fields and counts (R102, R103) -/

/-- BFX's function: position B[7:0], length B[15:8], each at most 32. -/
def bfxW (sgn : Bool) (x y : Word) : Word :=
  let p := min (y.toNat % 256) 32
  let w := min (y.toNat / 256 % 256) 32
  let src : DWord := if sgn then x.signExtend 64 else x.zeroExtend 64
  let f := (src >>> p).toNat % 2 ^ w
  if sgn && w ≠ 0 && nbit f (w - 1) then low32 ((f : Int) - 2 ^ w) else BitVec.ofNat 32 f

/-- BFI's function. -/
def bfiW (x y z : Word) : Word :=
  let p := min (y.toNat % 256) 32
  let w := min (y.toNat / 256 % 256) 32
  let m : Word := BitVec.ofNat 32 ((2 ^ w - 1) * 2 ^ p)
  (z &&& ~~~m) ||| ((x <<< p) &&& m)

def popcW (x : Word) : Nat := ((List.range 32).filter fun i => x.getLsbD i).length
def clzW (x : Word) : Nat := ((List.range 32).takeWhile fun i => !x.getLsbD (31 - i)).length
def ffsW (x : Word) : Word := if x = 0 then 0xFFFFFFFF else BitVec.ofNat 32 ((List.range 32).takeWhile fun i => !x.getLsbD i).length

/-- BFX. -/
def execBfx (h : Head) (d a b : VReg) (sgn : Bool) (s : State) : Out := alu2 h d a b (bfxW sgn) s
/-- BFI. -/
def execBfi (h : Head) (d a b c : VReg) (s : State) : Out := alu3 h d a b c bfiW s
/-- POPC. -/
def execPopc (h : Head) (d a : VReg) (s : State) : Out := alu1 h d a (fun x => BitVec.ofNat 32 (popcW x)) s
/-- CLZ. -/
def execClz (h : Head) (d a : VReg) (s : State) : Out := alu1 h d a (fun x => BitVec.ofNat 32 (clzW x)) s
/-- FFS. -/
def execFfs (h : Head) (d a : VReg) (s : State) : Out := alu1 h d a ffsW s
/-- BREV. -/
def execBrev (h : Head) (d a : VReg) (s : State) : Out := alu1 h d a BitVec.reverse s

/-! ## Comparisons, selection, moves (R104 to R107) -/

/-- A comparison's result combined under COMB. -/
def combined (v : LView) (l : Nat) (comb : Option (CombOp × PSrc)) (t : Bool) : Bool :=
  match comb with
  | none => t
  | some (o, p) => combOp o t (v.p l p)

/-- The predicate that COMB names. -/
def combPreds (comb : Option (CombOp × PSrc)) : List PReg := (comb.map fun c => c.2.p).toList

/-- ICMP. -/
def execIcmp (h : Head) (pd : PReg) (a b : VReg) (cmp : Cmp) (sgn : Bool) (comb : Option (CombOp × PSrc)) (s : State) : Out :=
  .next (laneA (aluReq h (one [a, b]) (pd :: combPreds comb)) h.dsm (fun v l =>
    outP l pd (combined v l comb (cmpInt cmp (extS sgn (v.r l a)) (extS sgn (v.r l b))))) s)
/-- ICMP, immediate. -/
def execIcmpImm (h : Head) (pd : PReg) (a : VReg) (imm : BitVec 16) (cmp : Cmp) (sgn : Bool) (s : State) : Out :=
  .next (laneA (aluReq h (one [a]) [pd]) h.dsm (fun v l =>
    outP l pd (cmpInt cmp (extS sgn (v.r l a)) (extS sgn (imm32 sgn imm)))) s)
/-- ISEL (R105). -/
def execIsel (h : Head) (d a b : VReg) (c : PSrc) (s : State) : Out :=
  .next (laneA (aluReq h (one [d, a, b]) [c.p]) h.dsm (fun v l => out1 l d (if v.p l c then v.r l a else v.r l b)) s)
/-- MOV (R105). -/
def execMov (h : Head) (d a : VReg) (s : State) : Out := alu1 h d a id s
/-- MOVI (R106). -/
def execMovi (h : HeadK) (d : VReg) (imm : BitVec 32) (m : MoviForm) (s : State) : Out :=
  .next (laneA { guard := h.guard, lane := true, regs := match m with | .w32 => one [d] | .sx | .zx => two [d] } h.dsm
    (fun _ l => match m with
      | .w32 => out1 l d imm
      | .sx => out2 l d (imm.signExtend 64)
      | .zx => out2 l d (imm.zeroExtend 64)) s)
/-- MOVG (R107): the value of the g register at the issue. -/
def execMovg (h : Head) (d : VReg) (n : GReg) (m : Half) (s : State) : Out :=
  .next (laneA (aluReq h (match m with | .lo | .hi => one [d] | .pair => two [d])) h.dsm (fun v l =>
    let g := gRead v.tm n.toNat
    match m with
    | .lo => out1 l d (g.extractLsb' 0 32)
    | .hi => out1 l d (g.extractLsb' 32 32)
    | .pair => out2 l d g) s)

/-! ## 64-bit address arithmetic (R108) -/

/-- LEA's function. -/
def leaW (sgn : Bool) (sh : BitVec 3) (x : DWord) (y : Word) : DWord :=
  x + ((if sgn then y.signExtend 64 else y.zeroExtend 64) <<< sh.toNat)
def shlD (wrap : Bool) (x : DWord) (n : Nat) : DWord :=
  let k := if wrap then n % 64 else n
  if 64 ≤ k then 0 else x <<< k
def shrD (sgn wrap : Bool) (x : DWord) (n : Nat) : DWord :=
  let k := if wrap then n % 64 else n
  if sgn then x.sshiftRight k else x >>> k

/-- LEA. -/
def execLea (h : Head) (d a b : VReg) (sgn : Bool) (sh : BitVec 3) (s : State) : Out := aluPair1 h d a b (leaW sgn sh) s
/-- LEA, immediate. -/
def execLeaImm (h : Head) (d a : VReg) (imm : BitVec 16) (sgn : Bool) (sh : BitVec 3) (s : State) : Out :=
  aluPair h d a (fun x => leaW sgn sh x (imm32 sgn imm)) s
/-- ADD64. -/
def execAdd64 (h : Head) (d a b : VReg) (s : State) : Out := aluPair2 h d a b (· + ·) s
/-- ADD64, immediate: sign-extended to 64 bits. -/
def execAdd64Imm (h : Head) (d a : VReg) (imm : BitVec 16) (s : State) : Out := aluPair h d a (· + imm.signExtend 64) s
/-- SUB64. -/
def execSub64 (h : Head) (d a b : VReg) (s : State) : Out := aluPair2 h d a b (· - ·) s
/-- SHL64. -/
def execShl64 (h : Head) (d a b : VReg) (wrap : Bool) (s : State) : Out :=
  aluPair1 h d a b (fun x y => shlD wrap x y.toNat) s
/-- SHL64, immediate. -/
def execShl64Imm (h : Head) (d a : VReg) (imm : BitVec 16) (wrap : Bool) (s : State) : Out :=
  aluPair h d a (fun x => shlD wrap x imm.toNat) s
/-- SHR64. -/
def execShr64 (h : Head) (d a b : VReg) (sgn wrap : Bool) (s : State) : Out :=
  aluPair1 h d a b (fun x y => shrD sgn wrap x y.toNat) s
/-- SHR64, immediate. -/
def execShr64Imm (h : Head) (d a : VReg) (imm : BitVec 16) (sgn wrap : Bool) (s : State) : Out :=
  aluPair h d a (fun x => shrD sgn wrap x imm.toNat) s
/-- ICMP64. -/
def execIcmp64 (h : Head) (pd : PReg) (a b : VReg) (cmp : Cmp) (sgn : Bool) (comb : Option (CombOp × PSrc)) (s : State) : Out :=
  .next (laneA (aluReq h (two [a, b]) (pd :: combPreds comb)) h.dsm (fun v l =>
    outP l pd (combined v l comb (cmpInt cmp (extS64 sgn (v.r64 l a)) (extS64 sgn (v.r64 l b))))) s)

end Sys2Proof.Machine
end

