-- ==== Sys2Proof/Machine/Order.lean ====
section
/-! DEFINITION. Ordering operations: view freshness and the fork (R299 to R302), coalescing buffers and their drains (R173,
R186, R212), loads not read yet (R205, R208), releases and acquires (R198 to R206), and the writes of threads. -/

namespace Sys2Proof.Machine

/-! ## Views and masters -/

/-- The slot of a view's master record, and of the view. -/
def View.mkind (v : View) : Kind := (slotOf v.mslot).kind
def View.vkind (v : View) : Kind := (slotOf v.slot).kind
def View.mbase (v : View) : Nat := recBase v.master

/-- The master blocks (4 KiB ranges) that a view block depends on (R299). -/
def blockDeps (v : View) (j : Nat) : List Nat :=
  ((List.range 32).flatMap fun l =>
    let i := blockCoord v.master j l
    if inBounds v.master i then
      let a := elemAddr v.master v.mkind.esize i
      [a / 4096, (a + v.mkind.esize - 1) / 4096]
    else []).eraseDups

/-- A block's write generation in a master. -/
def Master.wgOf (m : Master) (b : Nat) : Nat := sgetD m.wg b m.base

/-- A view block is fresh (R302). -/
def viewFresh (c : Context) (v : View) (j : Nat) : Bool :=
  match sget c.masters v.mbase with
  | none => true
  | some m => (blockDeps v j).all fun b => m.wgOf b ≤ sgetD v.gens j 0

/-- Queues a block for refresh at a generation, merging with a queued one (R304). -/
def queueBlock (v : View) (j g : Nat) : View := { v with queued := sset v.queued j (max g (sgetD v.queued j 0)) }

/-- A block takes a generation, with its stamp (R28). -/
def View.stamp (v : View) (j g now : Nat) : View := { v with gens := sset v.gens j g, times := sset v.times j now }

/-- A fork in one view: blocks that depend on a dirty master block are queued, and every other block that is not queued
takes the new generation (R301, R421). -/
def forkView (v : View) (dirty : List Nat) (mg now : Nat) : View :=
  (List.range (recBlocks v.view)).foldl (fun v j =>
    if (blockDeps v j).any dirty.contains then queueBlock v j mg
    else if (sget v.queued j).isSome then v
    else v.stamp j mg now) v

/-- The fork on one master (R301), at a moment of the timebase. -/
def forkMaster (now : Nat) (c : Context) (base : Nat) : Context :=
  match sget c.masters base with
  | none => c
  | some m =>
    if m.dirty = [] then c
    else
      let mg := m.mg + 1
      { c with
        masters := sset c.masters base { m with mg := mg, time := now, dirty := [], wg := m.dirty.foldl (fun w b => sset w b mg) m.wg },
        views := c.views.map fun e =>
          if e.2.live && e.2.mbase = base && e.2.state = .active then (e.1, forkView e.2 m.dirty mg now) else e }

/-- A fork acts on every master of the context with a dirty block (R301). -/
def forkAll (s : State) (ctx : Nat) : State :=
  modCtx s ctx fun c => (c.masters.map Prod.fst).foldl (forkMaster (timeOf s)) c

/-! ## Marks -/

def setMark (s : State) (t : Nat) (tid : Option Nat) (b : Bool) : State :=
  match tid with
  | some i => modTeam s t fun tm => modThread tm i fun th => { th with mark := b }
  | none => modSeq s t fun q => { q with mark := b }

def marked (tm : Team) (tids : List Nat) : Bool := tids.any fun i => (sgetD tm.threads i default).mark

/-- A release forks at `.die` or wider (R301). -/
def forkScope : Scope → Bool
  | .die => true | .dev => true | .sys => true | .grp => false | .team => false | .clus => false

/-- The fork of a release at a scope of `.die` or wider by threads that carry the mark. -/
def releaseFork (s : State) (t : Nat) (tids : List Nat) (sc : Scope) : State :=
  match sget s.teams t with
  | none => s
  | some tm =>
    if forkScope sc && marked tm tids then tids.foldl (fun s i => setMark s t (some i) false) (forkAll s tm.ctx) else s

/-- The fork of a release by the sequencer. -/
def releaseForkSeq (s : State) (t : Nat) (sc : Scope) : State :=
  match sget s.teams t with
  | none => s
  | some tm =>
    if forkScope sc && (tm.seq.map (·.mark)).getD false then setMark (forkAll s tm.ctx) t none false else s

/-! ## Coalescing buffers (R173, R186, R198, R212) -/

/-- A write performed at the home for a thread, which marks it if the page is a master's. -/
def threadWrite (s : State) (w : Who) (va : Nat) (l : Loc) (bs : List Byte) : State :=
  let s := writeLoc s w va l bs
  if l.mv then setMark s w.team w.tid true else s

/-- A store through another path leaves that path's caches of its core, and of the cluster for LY, without the line (R186). -/
def pathForget (s : State) (core path line : Nat) : State :=
  if path = 0 then s
  else
    let here := fun c => c = core || (path = 2 && coreCluster c = coreCluster core)
    { s with cores := s.cores.map fun e => if here e.1 then (e.1, { e.2 with paths := serase e.2.paths (8 * line + path) }) else e }

/-- Drains one accepted store through the translation it was accepted with. -/
def drainStore (s : State) (h : HeldStore) : State :=
  match sget s.teams h.team with
  | none => s
  | some tm =>
    let s := homeWrite s tm.ctx (some (coreDie h.core)) h.va h.pa h.mv h.track (h.merge (memBytes s.mem h.pa h.bytes.length))
    let s := pathForget s h.core h.path (lineOf h.pa)
    if h.mv then setMark s h.team (some h.tid) true else s

/-- A store's thread, as a party. -/
def HeldStore.who (h : HeldStore) : Who := { ctx := 0, core := h.core, team := h.team, tid := some h.tid }

/-- A store must be performed before a later one of the same bytes: one of the same thread through the same path, a lower
lane's of the same instruction (R186), or one that the later store's thread finds performed (R205). -/
def HeldStore.before (h e : HeldStore) : Bool :=
  h.meets e.pa e.bytes.length && ((h.own e.who && h.path = e.path) || (h.team = e.team && h.inst = e.inst) || h.inScope e.who)

/-- The stores that a drain of some takes along, oldest first; a held one stays (R212). -/
def pickStores (hit : HeldStore → Bool) : List HeldStore → List (HeldStore × Bool)
  | [] => []
  | h :: t =>
    let r := pickStores hit t
    (h, !h.held && (hit h || r.any fun e => e.2 && h.before e.1)) :: r

/-- Drains the stores that a test names, with those that must come before them. -/
def drainWhere (s : State) (hit : HeldStore → Bool) : State :=
  if s.coal.any fun h => !h.held && hit h then
    let l := pickStores hit s.coal
    (l.filter Prod.snd).foldl (fun s e => drainStore s e.1) { s with coal := (l.filter fun e => !e.2).map Prod.fst }
  else s

/-- The stores that a party's access to n bytes finds performed are performed. -/
def drainSeen (s : State) (w : Who) (p pa n : Nat) : State := drainWhere s fun h => h.seen w p && h.meets pa n

/-- Stores of some threads of a team in the buffers, oldest first. -/
def ownStores (s : State) (t : Nat) (tids : List Nat) : List HeldStore :=
  s.coal.filter fun h => h.team = t && tids.contains h.tid

/-- Whether a store's page still takes it: `none` if so. -/
def heldFails (s : State) (h : HeldStore) : Option AFault :=
  match sget s.teams h.team with
  | none => none
  | some tm =>
    match checkPage s tm.ctx h.va (pathOf h.path) true false with
    | .error f => some f
    | .ok _ => none

/-- A held store translated again; one that still fails stays held. -/
def retranslate (s : State) (h : HeldStore) : HeldStore :=
  match sget s.teams h.team with
  | none => h
  | some tm =>
    match checkPage s tm.ctx h.va (pathOf h.path) true false with
    | .error _ => h
    | .ok l => { h with pa := l.pa, mv := l.mv, track := l.tracked, ord := l.ord, held := false }

/-- A release, or a FENCE without `.uo`, does not reach an access to a UO page (R199, R204). -/
def inRelease (uo : Bool) (ord : Nat) : Bool := uo || ord ≠ 2

/-- The held stores of threads that still fail (R212). -/
def stuckStores (s : State) (t : Nat) (tids : List Nat) (uo : Bool) : List (HeldStore × AFault) :=
  (ownStores s t tids).filterMap fun h =>
    if h.held && inRelease uo h.ord then (heldFails s h).map fun f => (h, f) else none

/-- `%hinfo` of REVOKED_WRITE: SUB 0x00 for lost permission, 0x01 or 0x02 with LVL when the walk fails. -/
def revokedInfo (f : AFault) : Word := BitVec.ofNat 32 (f.sub * 2 ^ 24 + f.lvl * 2 ^ 18)

/-- The current lane of a thread of a group. -/
def laneOf (g : Group) (tid : Nat) : Nat := ((g.members.find? fun e => e.2 = tid).map Prod.fst).getD 0

/-- REVOKED_WRITE (0x19) for stuck stores: the lowest lane's, the oldest of it. -/
def revokedTrap (g : Group) (l : List (HeldStore × AFault)) : Option Trap :=
  let lanes := (memberLanes g).filter fun k => l.any fun e => laneOf g e.1.tid = k
  match lanes with
  | [] => none
  | k :: _ =>
    match l.find? fun e => laneOf g e.1.tid = k with
    | none => none
    | some (h, f) => some { cause := 0x19, lanes := lanes, addr := BitVec.ofNat 64 h.va, info := revokedInfo f }

/-! ## Reads that loads still owe (R205, R208) -/

/-- The elements that an operation has not read yet. -/
def OpKind.unread : OpKind → List LoadElem
  | .load l => l
  | .plain | .flags .. | .copy .. | .expand .. | .awl .. | .cbld .. | .batch .. | .bufs .. | .stage .. | .matrix .. | .drain ..
  | .gload .. | .vpol .. | .spawn .. | .klaunch .. | .crpop .. | .bank .. | .ctxsave .. => []

/-- Two sources share a byte of one path or of one scratchpad. -/
def srcMeets : LoadSrc × Nat → LoadSrc × Nat → Bool
  | (.mem p, n), (.mem q, m) => p.path = q.path && overlaps p.pa n q.pa m
  | (.sp t a, n), (.sp u b, m) => t = u && overlaps a n b m
  | (.fab a, n), (.fab b, m) => overlaps a.toNat n b.toNat m
  | _, _ => false

/-- An element reads bytes of a source. -/
def LoadElem.meets (e : LoadElem) (x : LoadSrc × Nat) : Bool := e.srcs.any fun y => srcMeets y x

/-- Ordering kind of a source; scratchpad counts as RC (R199). -/
def LoadSrc.ord : LoadSrc → Nat | .mem p => p.ord | .sp .. => 0 | .fab _ => 0

/-- An element of a UO page. -/
def LoadElem.uo (e : LoadElem) : Bool := e.srcs.any fun x => x.1.ord = 2

/-- An element whose read stands in the order M of R206: on the LS path, of a tracked page or of the home die. -/
def LoadElem.ordered (core : Nat) (e : LoadElem) : Bool :=
  e.srcs.any fun x => match x.1 with
    | .mem p => p.path = 0 && p.ord ≠ 2 && (p.tracked || dieOf p.pa = coreDie core)
    | .sp .. => false
    | .fab _ => false

/-- The elements that a team has not read yet, with their operations, in order of issue. -/
def unreadOf (s : State) (t : Nat) : List (Nat × LoadElem) :=
  s.ops.flatMap fun e => if e.2.team = t then e.2.kind.unread.map fun x => (e.1, x) else []

/-- The value of a layout element from the values of its sources: plane words from plane 7 down, then the scale byte (R66,
R191). -/
def elemWord (sl : Slot) (pos : Nat) (vals : List Nat) : Word :=
  match sl.kind with
  | .bpi =>
    let code := (List.range sl.k).foldl (fun c q => c + (if nbit (vals.getD q 0) pos then 2 ^ (7 - q) else 0)) 0
    BitVec.ofNat 32 (code + (if sl.scaled then vals.getD sl.k 0 else 0) * 256)
  | .int8 =>
    let b : Byte := BitVec.ofNat 8 (vals.headD 0)
    if sl.sgn then b.signExtend 32 else b.zeroExtend 32
  | .fp32 | .fp16 | .bf16 | .none | .cb4 | .cb6 | .cb8 | .bad => BitVec.ofNat 32 (vals.headD 0)

/-- The registers a loaded value of n bytes goes to (R185). -/
def loadRegs (n : Nat) (sx : Bool) (d v : Nat) : List (Nat × Word) :=
  if n = 1 then [(d, let b : Byte := BitVec.ofNat 8 v; if sx then b.signExtend 32 else b.zeroExtend 32)]
  else if n = 2 then [(d, let b : BitVec 16 := BitVec.ofNat 16 v; if sx then b.signExtend 32 else b.zeroExtend 32)]
  else (List.range (n / 4)).map fun i => (d + i, BitVec.ofNat 32 (v / 2 ^ (32 * i)))

/-- The registers that an element's values give, from the values of its sources. -/
def LoadFmt.regs (f : LoadFmt) (vals : List Nat) : List (Nat × Word) :=
  match f with
  | .bytes d n sx => loadRegs n sx d (vals.headD 0)
  | .elem d slot pos => [(d, elemWord (slotOf slot) pos vals)]
  | .greg _ => []

/-- A free byte for what another package answers late. -/
def fabricByte (s : State) (a : DWord) : Byte :=
  (Config.fabricRead s.freeCtr a).getD (BitVec.ofNat 8 (Config.freeNat s.freeCtr (2 ^ 43 + a.toNat)))

/-- Reads one source for a party: the value, and the machine with the caches that the read fills (R173, R201). Scratchpad whose
team has ended since gives a free value (R189, log 96). -/
def readSrc (w : Who) (na : Bool) (x : LoadSrc × Nat) (s : State) : Nat × State :=
  match x.1 with
  | .mem p =>
    let s := poisonHit (drainSeen s w p.path p.pa x.2) w.ctx p.pa
    let path := pathOf p.path
    let l := placeLoc p
    (leNat (readLoc s w path l x.2), fillLine s w.core path l (lineOf p.pa) na)
  | .sp t off =>
    (match sget s.teams t with
     | some tm => spNat tm off x.2
     | none => Config.freeNat s.freeCtr (2 ^ 43 + off) % 256 ^ x.2, s)
  | .fab a => (leNat ((List.range x.2).map fun i => fabricByte s (a + BitVec.ofNat 64 i)), s)

/-- Reads sources in order. -/
def readSrcs (w : Who) (na : Bool) : List (LoadSrc × Nat) → State → List Nat × State
  | [], s => ([], s)
  | x :: t, s =>
    let (v, s) := readSrc w na x s
    let (vs, s) := readSrcs w na t s
    (v :: vs, s)

/-- Puts values read into the pending writes of an operation of a thread. -/
def pendValue (op : Nat) (hnd : Bool) (rs : List (Nat × Word)) (th : Thread) : Thread :=
  { th with pend := th.pend.map fun p =>
      match rs.find? fun r => p.op = op && p.reg = pendReg hnd r.1 with
      | some r => { p with value := r.2 }
      | none => p }

/-- Changes what is left of an operation. -/
def setKind (s : State) (id : Nat) (k : OpKind) : State := { s with ops := smod s.ops id fun o => { o with kind := k } }

/-- One element is read: its values stand in the pending writes, or in the sequencer's load. -/
def performRead (s : State) (id : Nat) (e : LoadElem) : State :=
  match sget s.ops id with
  | none => s
  | some o => match sget s.teams o.team with
    | none => s
    | some tm =>
      let (vals, s) := readSrcs { ctx := tm.ctx, core := tm.core, team := o.team, tid := e.tid } e.na e.srcs s
      match e.fmt with
      | .greg g => setKind s id (.gload g (BitVec.ofNat 64 (vals.headD 0)))
      | .bytes .. | .elem .. =>
        let s := setKind s id (.load ((sgetD s.ops id o).kind.unread.erase e))
        match e.tid with
        | none => s
        | some t => modTeam s o.team fun tm => modThread tm t (pendValue id e.hnd (e.fmt.regs vals))

/-- The unread elements that a read of some takes along, oldest first: those of the same thread and bytes come before (R186,
R201). -/
def pickReads (hit : Nat → LoadElem → Bool) : List (Nat × LoadElem) → List ((Nat × LoadElem) × Bool)
  | [] => []
  | e :: t =>
    let r := pickReads hit t
    (e, hit e.1 e.2 || r.any fun x => x.2 && x.1.2.tid = e.2.tid && x.1.2.srcs.any e.2.meets) :: r

/-- Two elements read one address. -/
def LoadElem.shares (e d : LoadElem) : Bool := e.srcs.any d.srcs.contains

/-- The unread elements that a read of some takes along: also the other lanes of a load that read one address, which get their
values from one read (R186). -/
def pickLanes (l : List (Nat × LoadElem)) : Nat → (Nat → LoadElem → Bool) → List (Nat × LoadElem)
  | 0, hit => ((pickReads hit l).filter Prod.snd).map Prod.fst
  | n + 1, hit =>
    let r := ((pickReads hit l).filter Prod.snd).map Prod.fst
    pickLanes l n fun i e => hit i e || r.any fun x => x.1 = i && x.2.shares e

/-- The stores that an element's reader finds performed in its sources are performed. -/
def drainFor (s : State) (id : Nat) (e : LoadElem) : State :=
  match (sget s.ops id).bind fun o => (sget s.teams o.team).map fun tm => ({ ctx := tm.ctx, core := tm.core, team := o.team, tid := e.tid } : Who) with
  | none => s
  | some w => e.srcs.foldl (fun s x => match x.1 with
    | .mem p => drainSeen s w p.path p.pa x.2
    | .sp .. => s
    | .fab _ => s) s

/-- Reads the unread elements of a team that a test names, with those that must come before them or with them: what their
readers find performed is performed before the first is read. -/
def settleOf (s : State) (t : Nat) (hit : Nat → LoadElem → Bool) : State :=
  let l := unreadOf s t
  if l.any fun e => hit e.1 e.2 then
    let r := pickLanes l l.length hit
    r.foldl (fun s e => performRead s e.1 e.2) (r.foldl (fun s e => drainFor s e.1 e.2) s)
  else s

def settleReads (s : State) (t : Nat) (hit : LoadElem → Bool) : State := settleOf s t fun _ e => hit e

/-- The reads of a thread that meet bytes it now accesses through a path are done first (R186, R201). -/
def settleAt (s : State) (w : Who) (x : LoadSrc × Nat) : State := settleReads s w.team fun e => e.tid = w.tid && e.meets x

/-- A source of a path's bytes. -/
def memSrc (path : Nat) (l : Loc) (n : Nat) : LoadSrc × Nat :=
  (.mem { va := 0, pa := l.pa, path := path, tracked := l.tracked, ord := l.ord, mv := l.mv }, n)

/-- The address that names a source's event: lanes of a load that read one address share it (R186). -/
def LoadSrc.addr : LoadSrc → Nat | .mem p => p.pa | .sp _ off => off | .fab a => a.toNat
def LoadElem.key (e : LoadElem) : Nat := (e.srcs.head?.map fun x => x.1.addr).getD 0

/-- A free choice to leave something for a later step. A fair event leaves nothing (R154, log 4). -/
def delays (s : State) (key : Nat) : Bool := s.fairGap ≠ 0 && Config.freeBit s.freeCtr key

/-- An element that a step leaves for a later one, at a free choice (log 8); one of an SO page or of a view never is. -/
def LoadElem.later (s : State) (e : LoadElem) : Bool :=
  delays s (2 ^ 45 + e.key) && !(e.srcs.any fun x => match x.1 with
    | .mem p => p.ord = 1 || p.path = 5
    | .sp .. => false
    | .fab _ => false)

/-- The elements of an operation that are read in this step. -/
def readSome (s : State) (t id : Nat) : State := settleOf s t fun i e => i = id && !e.later s

/-- Opens the operation of a load (R43, R44): `known` holds results that no access gives, `elems` what each lane reads. -/
def openLoad (s : State) (x : Site) (h : Head) (known : List LaneOut) (elems : List (Nat × LoadElem)) : State :=
  let outs := known ++ elems.map fun e => { lane := e.1, vs := e.2.fmt.regs [] }
  readSome (openLong s x h { groupOp x h.dc (.load (elems.map Prod.snd)) with read := true } outs) x.t s.nextOp

/-- A read at once by a party: what the same thread still owes of the bytes is read first. -/
def readNow (s : State) (w : Who) (p : Path) (l : Loc) (n : Nat) : Nat × State :=
  readSrc w false (memSrc p.code l n) (settleAt s w (memSrc p.code l n))

/-- The tids of a group's site and of the sequencer, as a load's element names them. -/
def tidsOf (tids : List Nat) : List (Option Nat) := tids.map some

/-! ## Releases and acquires (R199, R202, R204, R206, R216) -/

/-- A release at `.dev` or `.sys` performs stores for the whole package. -/
def wideScope : Scope → Bool
  | .dev => true | .sys => true | .grp => false | .team => false | .clus => false | .die => false

/-- `vis` of a store that a release at a scope has performed for its instance. -/
def visOf : Scope → Nat | .grp => 1 | .team => 2 | .clus => 3 | .die => 4 | .dev => 5 | .sys => 6

/-- What a release by some parties of a team does before it takes effect: what they still owe to read is read, and every
earlier store, of theirs or performed for them, is performed for the scope's instance. At less than `.dev` a free choice
leaves a store in its buffer, where the instance finds it (log 82), but a store to a master's page at a scope that forks: the fork
comes after every write that the release covers (R301, R307). -/
def performFor (s : State) (t : Nat) (ws : List Who) (sc : Scope) (uo : Bool) : State :=
  let s := settleReads s t fun e => (ws.any fun w => w.tid = e.tid) && (uo || !e.uo)
  let s := { s with coal := s.coal.map fun h => if h.held && (ws.any fun w => h.own w) && inRelease uo h.ord then retranslate s h else h }
  let part := fun (h : HeldStore) => (ws.any fun w => h.own w || h.inScope w) && inRelease uo h.ord
  if wideScope sc then drainWhere s part
  else
    let stays := fun (h : HeldStore) => part h && !(forkScope sc && h.mv) && Config.freeBit s.freeCtr (2 ^ 44 + h.pa)
    let s := drainWhere s fun h => part h && !stays h
    { s with coal := s.coal.map fun h => if part h && !h.held then { h with vis := max h.vis (visOf sc) } else h }

/-- The active threads of a site, as parties. -/
def Site.parties (x : Site) : List Who := x.act.map x.who

/-- A release by the active threads of a site: REVOKED_WRITE, or every earlier access performed (R212, R215, R216). -/
def releaseBy (s : State) (x : Site) (sc : Scope) (uo : Bool := false) : Except Trap State :=
  match revokedTrap x.g (stuckStores s x.t x.tids uo) with
  | some tr => .error tr
  | none => .ok (performFor s x.t x.parties sc uo)

/-- A release by the sequencer. -/
def releaseSeq (s : State) (x : SSite) (sc : Scope) : State := performFor s x.t [x.who] sc false

/-- An acquire at `.dev` or `.sys` drops the die's untracked remote lines (R207, R371). -/
def acquireAt (s : State) (core : Nat) (sc : Scope) : State :=
  if wideScope sc then genBump s (coreDie core) else s

/-- An acquire by some parties of a team: reads of theirs that stand in the order M come before it (R206). -/
def acquireFor (s : State) (t core : Nat) (tids : List (Option Nat)) (sc : Scope) : State :=
  acquireAt (settleReads s t fun e => tids.contains e.tid && e.ordered core) core sc

def acquireBy (s : State) (x : Site) (sc : Scope) : State := acquireFor s x.t x.tm.core (tidsOf x.tids) sc
def acquireSeq (s : State) (x : SSite) (sc : Scope) : State := acquireFor s x.t x.tm.core [none] sc

/-- A BUFS of some of the active threads has not taken effect: their later accesses come after it, and with it after the accesses
of the engines that it joins (R204, R211, log 98). -/
def bufHeld (_ : State) (x : Site) : Bool :=
  x.tm.bufs.any fun e => e.2.reqs.any fun r => r.tids.any fun l => x.tids.any l.contains
/-- The same for the sequencer. -/
def bufHeldSeq (_ : State) (x : SSite) : Bool := x.tm.bufs.any fun e => e.2.reqs.any fun r => r.tids.isNone

/-! ## Writes of threads -/

/-- Lines of a core in its buffers. -/
def coalLines (s : State) (core : Nat) : List Nat := ((s.coal.filter fun h => h.core = core).map fun h => lineOf h.pa).eraseDups

/-- Makes room for a store in the 32 entries of a core's buffers, one a line (R173): the oldest line that may go is drained.
Whether there is room then. -/
def coalRoom (s : State) (core line : Nat) : Bool × State :=
  let fits := fun s => (coalLines s core).contains line || (coalLines s core).length < 32
  if fits s then (true, s)
  else match s.coal.find? fun h => h.core = core && !h.held with
    | none => (false, s)
    | some o =>
      let s := drainWhere s fun h => h.core = core && lineOf h.pa = lineOf o.pa
      (fits s, s)

/-- A plain store of a lane to bytes of one line, of which `keep` names bits that stay: the thread's reads of the bytes are
done first. An SO page's store, and one that finds no room, is performed at once; any other passes into the core's buffers. -/
def laneStore (s : State) (w : Who) (p : Path) (lane va : Nat) (l : Loc) (bs keep : List Byte) : State :=
  let s := settleAt s w (memSrc p.code l bs.length)
  let h : HeldStore :=
    { core := w.core, inst := s.nextOp, team := w.team, tid := w.tid.getD 0, lane := lane, va := va, pa := l.pa, bytes := bs,
      keep := keep, path := p.code, ord := l.ord, mv := l.mv, track := l.tracked, vis := 0, held := false }
  let now := fun s => drainStore (drainWhere s fun e => e.before h) h
  if l.ord = 1 then now s
  else
    let (room, s) := coalRoom s w.core (lineOf l.pa)
    if room then { s with coal := s.coal ++ [h] } else now s

/-- A store of up to 16 bytes; 16 bytes are two stores of 8 (R186). -/
def laneStores (s : State) (w : Who) (p : Path) (lane va : Nat) (l : Loc) (bs : List Byte) : State :=
  if bs.length ≤ 8 then laneStore s w p lane va l bs []
  else laneStore (laneStore s w p lane va l (bs.take 8) []) w p lane (va + 8) { l with pa := l.pa + 8 } (bs.drop 8) []

/-- The copies that a core's party may read later hold what it has read at the home (R201). -/
def seenAt (s : State) (core pa n : Nat) : State :=
  let s := (List.range n).foldl (fun s i => copiesSet s (coreDie core) (pa + i) (memByte s.mem (pa + i))) s
  if s.mixed = [] then s else { s with mixed := serase s.mixed (64 * lineOf pa + coreCluster core) }

/-- An atomic read-modify-write at the home (R215): the old value and the state after it. -/
def atomicAt (s : State) (w : Who) (va : Nat) (l : Loc) (n : Nat) (f : Nat → Option Nat) : Nat × State :=
  let s := settleAt s w (memSrc 0 l n)
  let s := poisonHit (drainWhere s fun h => (h.own w || h.inScope w) && h.meets l.pa n) w.ctx l.pa
  let old := memNat s.mem l.pa n
  match f old with
  | none => (old, seenAt s w.core l.pa n)
  | some v => (old, threadWrite s w va l (natLe n v))

/-! ## Completion (R43, R44) -/

/-- The results of an operation arrive in one thread. -/
def pendArrive (op : Nat) (th : Thread) : Thread :=
  { th with pend := th.pend.map fun p => if p.op = op then { p with arr := true } else p }

/-- The flags that an operation's completion sets in a thread (R119). -/
def lateFlags (k : OpKind) (tid : Nat) : Word :=
  match k with
  | .flags fl => sgetD fl tid 0
  | .plain | .load .. | .copy .. | .expand .. | .awl .. | .cbld .. | .batch .. | .bufs .. | .stage .. | .matrix .. | .drain ..
  | .gload .. | .vpol .. | .spawn .. | .klaunch .. | .crpop .. | .bank .. | .ctxsave .. => 0

/-- An operation of a group completes: results arrive, flags are set, then the counter falls by one. -/
def completeGroup (tm : Team) (id : Nat) (o : Op) : Team :=
  dcDec (o.tids.foldl (fun tm i => modThread tm i fun th =>
    let th := pendArrive id th
    { th with fflags := th.fflags ||| lateFlags o.kind i }) tm) o.dc o.tids

/-- An operation of the sequencer completes: a load writes its g register. -/
def completeSeq (q : Seq) (o : Op) : Seq :=
  let q := match o.kind with
    | .gload g v => { q with g := ssetD q.g g v 0 }
    | .plain | .load .. | .flags .. | .copy .. | .expand .. | .awl .. | .cbld .. | .batch .. | .bufs .. | .stage .. | .matrix ..
    | .drain .. | .vpol .. | .spawn .. | .klaunch .. | .crpop .. | .bank .. | .ctxsave .. => q
  sdcDec q o.dc

/-- Completes an operation. -/
def completeOp (s : State) (id : Nat) : State :=
  match sget s.ops id with
  | none => s
  | some o =>
    let s := { s with ops := serase s.ops id }
    if o.seq then modSeq s o.team fun q => completeSeq q o
    else modTeam s o.team fun tm => completeGroup tm id o

end Sys2Proof.Machine
end

