-- ==== Sys2Proof/Machine/Memory.lean ====
section
/-! DEFINITION. Memory instructions, 0x140 to 0x1BF (R164 to R196). -/

namespace Sys2Proof.Machine

/-! ## Widths and extension (R185) -/

def widthBytes : Width → Nat | .b8 => 1 | .b16 => 2 | .b32 => 4 | .b64 => 8 | .b128 => 16
def ewBytes : EWidth → Nat | .b8 => 1 | .b16 => 2 | .b32 => 4 | .b64 => 8
/-- Registers an access of some bytes names. -/
def regsFor (n : Nat) : Nat := if n ≤ 4 then 1 else n / 4

/-- The bytes a store of n bytes takes from its data registers. -/
def storeData (v : LView) (l n : Nat) (d : VReg) : List Byte :=
  natLe n ((List.range (regsFor n)).foldl (fun acc i => acc + (v.reg l (d.toNat + i)).toNat * 2 ^ (32 * i)) 0)

/-! ## Addresses -/

/-- A global address: a pair and a signed offset, with 64-bit wrap. -/
def gaddr (v : LView) (l : Nat) (a : VReg) (imm : BitVec 16) : DWord := v.r64 l a + imm.signExtend 64
/-- A scratchpad value: a register and a signed offset, with 32-bit wrap. -/
def saddr (v : LView) (l : Nat) (a : VReg) (imm : BitVec 16) : Word := v.r l a + imm.signExtend 32

/-- Failed checks of the active lanes. -/
def laneFaults (act : List Nat) (f : Nat → Option AFault) : List (Nat × AFault) :=
  act.filterMap fun l => (f l).map fun e => (l, e)

/-- The failure of a checked place. -/
def failOf {α : Type} : Except AFault α → Option AFault
  | .error e => some e
  | .ok _ => none

/-- What a word that accesses memory asks. -/
def memReq (h : Head) (e : Engine) (regs : List (Nat × Nat)) : Req :=
  { guard := h.guard, engine := e, regs := regs, dc := h.dc.toNat, held := bufHeld }

/-- Opens the operation of a read done at once: its lanes' results pending. -/
def openRead (s : State) (x : Site) (h : Head) (outs : List LaneOut) : State :=
  openLong s x h { groupOp x h.dc .plain with read := true } outs

/-- The elements of a lane's load of n bytes: 16 bytes are two of 8 (R186). -/
def lanePieces (x : Site) (l n d : Nat) (sx na : Bool) (src : Nat → LoadSrc) : List (Nat × LoadElem) :=
  let piece := fun off m d =>
    (l, ({ tid := some (sgetD x.g.members l 0), hnd := x.g.handler, na := na, srcs := [(src off, m)], fmt := .bytes d m sx } : LoadElem))
  if n ≤ 8 then [piece 0 n d] else [piece 0 8 d, piece 8 8 (d + 2)]

/-- The place of a global address, `off` bytes on. -/
def memAt (p : Path) (ea : Nat) (loc : Loc) (off : Nat) : LoadSrc := .mem { placeOf (ea + off) p loc with pa := loc.pa + off }

/-- A load of global addresses through a path: every lane's check, then its elements. -/
def loadGlobal (s : State) (x : Site) (h : Head) (p : Path) (na sx : Bool) (n d : Nat) (lanes : List Nat) (ea : Nat → DWord) : Res :=
  let chk := fun l => checkGlobal s x.tm.ctx (ea l) n p false
  match laneTrap (laneFaults lanes fun l => failOf (chk l)) with
  | some t => .trap t
  | none =>
    let elems := lanes.flatMap fun l => match chk l with
      | .ok loc => lanePieces x l n d sx na (memAt p (ea l).toNat loc)
      | .error _ => []
    let s := lanes.foldl (fun s l => match chk l with
      | .ok loc => xlatFill s x.tm.core x.tm.ctx (ea l).toNat loc
      | .error _ => s) s
    .retire (openLoad s x h [] elems)

/-- A load of team-scratchpad offsets. -/
def loadSp (s : State) (x : Site) (h : Head) (sx : Bool) (n d : Nat) (lanes : List Nat) (off : Nat → Nat) : Res :=
  match laneTrap (laneFaults lanes fun l => checkSp x.tm (off l) n .load .spTeam) with
  | some t => .trap t
  | none => .retire (openLoad s x h [] (lanes.flatMap fun l => lanePieces x l n d sx false fun i => .sp x.t (off l + i)))

/-- A store to global addresses: every lane's check, then the lanes' stores in ascending lane, so that the highest lane
wins a byte (R186). -/
def storeGlobal (s : State) (x : Site) (h : Head) (n : Nat) (lanes : List Nat) (ea : Nat → DWord) (data : Nat → List Byte) :
    Res :=
  let chk := fun l => checkGlobal s x.tm.ctx (ea l) n .ls true
  match laneTrap (laneFaults lanes fun l => failOf (chk l)) with
  | some t => .trap t
  | none =>
    let s := lanes.foldl (fun s l => match chk l with
      | .ok loc => laneStores (xlatFill s x.tm.core x.tm.ctx (ea l).toNat loc) (x.who l) .ls l (ea l).toNat loc (data l)
      | .error _ => s) s
    .retire (openLong s x h (groupOp x h.dc .plain) [])

/-- A lane's store to scratchpad bytes of a team: the thread's reads of them are done first (R186). Scratchpad has no buffers
(R199, log 83). -/
def spStore (w : Who) (t off : Nat) (bs : List Byte) (s : State) : State :=
  modTeam (settleAt s w (.sp t off, bs.length)) t fun tm => spWrite tm off bs

/-- A store to team-scratchpad offsets. -/
def storeSp (s : State) (x : Site) (h : Head) (n : Nat) (lanes : List Nat) (off : Nat → Nat) (data : Nat → List Byte) : Res :=
  match laneTrap (laneFaults lanes fun l => checkSp x.tm (off l) n .store .spTeam) with
  | some t => .trap t
  | none =>
    let s := lanes.foldl (fun s l => spStore (x.who l) x.t (off l) (data l) s) s
    .retire (openLong s x h (groupOp x h.dc .plain) [])

/-! ## LD, ST, LDK (R188) -/

/-- LD. -/
def execLd (h : Head) (d a : VReg) (imm : BitVec 16) (w : Width) (sx na sp : Bool) (s : State) : Out :=
  let n := widthBytes w
  .next (issue (memReq h .loads ((d.toNat, regsFor n) :: (if sp then one [a] else two [a]))) (fun x s =>
    let v := x.view s
    if sp then loadSp s x h sx n d.toNat x.act (fun l => (saddr v l a imm).toNat)
    else loadGlobal s x h .ls na sx n d.toNat x.act (fun l => gaddr v l a imm)) s)

/-- ST. -/
def execSt (h : Head) (d a : VReg) (imm : BitVec 16) (w : Width) (sp : Bool) (s : State) : Out :=
  let n := widthBytes w
  .next (issue (memReq h .stores ((d.toNat, regsFor n) :: (if sp then one [a] else two [a]))) (fun x s =>
    let v := x.view s
    if sp then storeSp s x h n x.act (fun l => (saddr v l a imm).toNat) (fun l => storeData v l n d)
    else storeGlobal s x h n x.act (fun l => gaddr v l a imm) (fun l => storeData v l n d)) s)

/-- LDK: a load on the K path. -/
def execLdk (h : Head) (d a : VReg) (imm : BitVec 16) (w : Width) (sx : Bool) (s : State) : Out :=
  let n := widthBytes w
  .next (issue (memReq h .loads ((d.toNat, regsFor n) :: two [a])) (fun x s =>
    let v := x.view s
    loadGlobal s x h .k false sx n d.toNat x.act (fun l => gaddr v l a imm)) s)

/-! ## LDX, STX (R189) -/

/-- A member of a team cluster has executed its last EXIT. -/
def memberGone (s : State) (t : Nat) : Bool :=
  match sget s.teams t with
  | none => true
  | some tm => tm.threads.all fun e => !e.2.live

/-- The member a cluster-scratchpad value names, and its team. -/
def mateOf (x : Site) (a : Nat) : Nat := x.tm.mates.getD (a / 2 ^ 30) x.t

/-- The checks of a cluster-scratchpad access (R171, R189), in order. -/
def checkCluster (s : State) (x : Site) (a n : Nat) (u : SpUse) : Option AFault :=
  let p := Path.spClus.code
  let ad : DWord := BitVec.ofNat 64 a
  let off := a % 2 ^ 20
  let m := a / 2 ^ 30
  let size := max 1 x.tm.mates.length
  let t := mateOf x a
  if a % n ≠ 0 then some ⟨0x14, 0, 0, p, ad⟩
  else if nbits a 20 10 ≠ 0 then some ⟨0x10, 3, 0, p, ad⟩
  else if size ≤ m then some ⟨0x10, 4, 0, p, ad⟩
  else
    if x.tm.mateSp.getD m x.tm.spsize < off + n then some ⟨0x10, 3, 0, p, ad⟩
    else if memberGone s t then some ⟨0x17, 0, 0, p, ad⟩
    else match sget s.teams t with
      | none => some ⟨0x17, 0, 0, p, ad⟩
      | some tm => if !bufAllows tm u off then some ⟨0x16, 0, 0, p, ad⟩ else none

/-- LDX. -/
def execLdx (h : Head) (d a : VReg) (imm : BitVec 16) (w : Width) (sx : Bool) (s : State) : Out :=
  let n := widthBytes w
  .next (issue (memReq h .loads ((d.toNat, regsFor n) :: one [a])) (fun x s =>
    let v := x.view s
    let ea := fun l => (saddr v l a imm).toNat
    match laneTrap (laneFaults x.act fun l => checkCluster s x (ea l) n .load) with
    | some t => .trap t
    | none =>
      .retire (openLoad s x h [] (x.act.flatMap fun l =>
        lanePieces x l n d.toNat sx false fun i => .sp (mateOf x (ea l)) (ea l % 2 ^ 20 + i)))) s)

/-- STX. -/
def execStx (h : Head) (d a : VReg) (imm : BitVec 16) (w : Width) (s : State) : Out :=
  let n := widthBytes w
  .next (issue (memReq h .stores ((d.toNat, regsFor n) :: one [a])) (fun x s =>
    let v := x.view s
    let ea := fun l => (saddr v l a imm).toNat
    match laneTrap (laneFaults x.act fun l => checkCluster s x (ea l) n .store) with
    | some t => .trap t
    | none =>
      let s := x.act.foldl (fun s l => spStore (x.who l) (mateOf x (ea l)) (ea l % 2 ^ 20) (storeData v l n d) s) s
      .retire (openLong s x h (groupOp x h.dc .plain) [])) s)

/-! ## GATH, SCAT (R190) -/

def idxBits (w : EWidth) : Nat := 8 * ewBytes w

/-- The index of a lane, on its own bits. -/
def idxVal (v : LView) (l : Nat) (b : VReg) (ix : Index) : Nat :=
  match ix.iw with
  | .b64 => (v.r64 l b).toNat
  | .b8 => (v.r l b).toNat % 2 ^ 8
  | .b16 => (v.r l b).toNat % 2 ^ 16
  | .b32 => (v.r l b).toNat

/-- The sentinel: all ones of the index's bits. -/
def isSentinel (ix : Index) (x : Nat) : Bool := x = 2 ^ idxBits ix.iw - 1

/-- An index extended under IS, from a number of bits. -/
def idxExt (is : Bool) (bits x : Nat) : Int := if is && nbit x (bits - 1) then (x : Int) - 2 ^ bits else x

/-- The address of a gather or scatter element. -/
def idxAddr (base : DWord) (ix : Index) (x : Nat) : DWord :=
  if ix.iw = .b64 && x / 2 ^ 52 ≠ 0 then
    let off := idxExt ix.is 52 (x % 2 ^ 52)
    BitVec.ofNat 64 (x / 2 ^ 52 * 2 ^ 52 + ((base.toNat % 2 ^ 52 + off * 2 ^ ix.sc.toNat) % 2 ^ 52).toNat)
  else base + BitVec.ofInt 64 (idxExt ix.is (idxBits ix.iw) x * 2 ^ ix.sc.toNat)

/-- The scratchpad value of an element: the 32-bit sum of R190, also where a 64-bit index carries a package id (log 84). -/
def idxSp (base : Word) (ix : Index) (x : Nat) : Nat :=
  (base + BitVec.ofInt 32 (idxExt ix.is (idxBits ix.iw) x * 2 ^ ix.sc.toNat)).toNat

/-- The package's own fabric addresses are the global addresses of their low bits (R165). -/
def localize (s : State) (ea : DWord) : DWord :=
  if s.identity.pkgid ≠ 0 && ea.extractLsb' 52 12 = s.identity.pkgid then ea &&& BitVec.ofNat 64 (2 ^ 52 - 1) else ea

/-- A package reached over Cinch: the local package has an id and a route to it whose port is in service (R165, R376). -/
def fabricRoute (s : State) (ea : DWord) : Bool :=
  s.identity.pkgid ≠ 0 && s.routes.any fun r => r.1 = ea.toNat / 2 ^ 52 && !s.deadPorts.contains r.2

/-- n bytes of another package; none is a failure there. -/
def fabricBytes (s : State) (ea : DWord) (n : Nat) : Option (List Byte) :=
  ((List.range n).map fun i => Config.fabricRead s.freeCtr (ea + BitVec.ofNat 64 i)).allSome

/-- One gathered element: where it lies, or its failure. A fabric element is checked at the remote package (R170) and read by
an engine thread (R211). -/
def gathSrc (s : State) (x : Site) (n : Nat) (ea : DWord) : Except AFault (Nat → LoadSrc) :=
  let a := localize s ea
  if a.extractLsb' 52 12 = 0 then
    match checkGlobal s x.tm.ctx a n .ls false with
    | .error e => .error e
    | .ok loc => .ok (memAt .ls a.toNat loc)
  else if a.toNat % n ≠ 0 then .error ⟨0x14, 0, 0, 0, a⟩
  else if !fabricRoute s a then .error ⟨0x18, 8, 0, 0, a⟩
  else match fabricBytes s a n with
    | none => .error ⟨0x18, 8, 0, 0, a⟩
    | some _ => .ok fun i => .fab (a + BitVec.ofNat 64 i)

/-- GATH. -/
def execGath (h : Head) (d a b : VReg) (ix : Index) (ew : EWidth) (sx sp : Bool) (s : State) : Out :=
  let n := ewBytes ew
  .next (issue (memReq h .loads ((d.toNat, regsFor n) :: (if sp then one [a] else two [a])
      ++ (if ix.iw = .b64 then two [b] else one [b]))) (fun x s =>
    let v := x.view s
    let lanes := x.act.filter fun l => !isSentinel ix (idxVal v l b ix)
    if sp then loadSp s x h sx n d.toNat lanes (fun l => idxSp (v.r l a) ix (idxVal v l b ix))
    else
      let ea := fun l => idxAddr (v.r64 l a) ix (idxVal v l b ix)
      match laneTrap (laneFaults lanes fun l => failOf (gathSrc s x n (ea l))) with
      | some t => .trap t
      | none =>
        let elems := lanes.flatMap fun l => match gathSrc s x n (ea l) with
          | .ok src => lanePieces x l n d.toNat sx false src
          | .error _ => []
        let s := lanes.foldl (fun s l =>
          match checkGlobal s x.tm.ctx (localize s (ea l)) n .ls false with
          | .ok loc => xlatFill s x.tm.core x.tm.ctx (localize s (ea l)).toNat loc
          | .error _ => s) s
        .retire (openLoad s x h [] elems)) s)

/-- SCAT. -/
def execScat (h : Head) (d a b : VReg) (ix : Index) (ew : EWidth) (sp : Bool) (s : State) : Out :=
  let n := ewBytes ew
  .next (issue (memReq h .stores ((d.toNat, regsFor n) :: (if sp then one [a] else two [a])
      ++ (if ix.iw = .b64 then two [b] else one [b]))) (fun x s =>
    let v := x.view s
    let lanes := x.act.filter fun l => !isSentinel ix (idxVal v l b ix)
    if sp then storeSp s x h n lanes (fun l => idxSp (v.r l a) ix (idxVal v l b ix)) (fun l => storeData v l n d)
    else storeGlobal s x h n lanes (fun l => idxAddr (v.r64 l a) ix (idxVal v l b ix)) (fun l => storeData v l n d)) s)

/-! ## Layout handles (R182 to R184, R191 to R193) -/

/-- The record a handle names, if the handle is valid (R182). -/
def handleRec (tm : Team) (hd : Nat) : Option (BitVec 512) :=
  match sget tm.binds (hd % 16) with
  | none => none
  | some b => if b.bound && b.gen = hd / 16 % 4096 && hd % 65536 / 16 ≠ 0 then some b.word else none

/-- The registration whose storage range holds an address, by VID (R305). -/
def viewAt (c : Context) (vid va : Nat) : Option (Nat × View) :=
  c.views.find? fun e => e.2.live && recVid e.2.view = vid && recBase e.2.view ≤ va
    && va < recBase e.2.view + recBytes e.2.view e.2.vkind

/-- The first byte of an element of a record under a kind (R65, R183). -/
def firstByte (r : BitVec 512) (k : Kind) (i : List Int) : Nat :=
  if k = .bpi then planeAddr r (bpiPlace r i).1 7 else elemAddr r k.esize i

/-- The registration that an element of a view handle's record is read through: its address is formed under the copied view
slot (R298, R305). -/
def viewOf (c : Context) (r : BitVec 512) (i : List Int) : Option (Nat × View) :=
  c.views.find? fun e => e.2.live && recVid e.2.view = recVid r &&
    let a := firstByte r e.2.vkind i
    recBase e.2.view ≤ a && a < recBase e.2.view + recBytes e.2.view e.2.vkind

/-- The block of a view that holds the element at an address (R299, R305). -/
def blockAt (vw : View) (a : Nat) : Nat :=
  ((List.range (recBlocks vw.view)).find? fun j => (List.range 32).any fun l =>
    let i := blockCoord vw.view j l
    inBounds vw.view i && firstByte vw.view vw.vkind i = a).getD 0

/-- The block of a view that an element of a handle's record is read from. -/
def viewBlock (vw : View) (r : BitVec 512) (i : List Int) : Nat :=
  if r = vw.view then blockOf r i else blockAt vw (firstByte r vw.vkind i)

/-- Where an element's bytes lie: an offset of team scratchpad, or global bytes: plane words from plane 7 down and, if
there is one, the scale byte. `slot` is the format slot it is read under, `view` the view it is read through. -/
structure ElemPlace where
  lay   : BitVec 512
  slot  : DWord
  view  : Option (Nat × View)
  path  : Path
  coord : List Int
  words : List (Nat × Nat)
  scale : Option Nat

/-- The element a lane names: invalid handle, out of bounds under an OOB policy, or a place. -/
inductive ElemSel
  | fault (f : AFault)
  | pad (v : Word)
  | skip
  | place (p : ElemPlace)

/-- A padding value, extended to 32 bits: INT8's by the slot's SGN (R180, R184, log 80). -/
def padWord (r : BitVec 512) (sl : Slot) : Word :=
  let p := recPad r % 2 ^ (if sl.kind = .bpi then 16 else 8 * sl.kind.esize)
  if sl.kind = .int8 && sl.sgn then (BitVec.ofNat 8 p).signExtend 32 else BitVec.ofNat 32 p

/-- The record that a lane's access uses: of a waiting LDL, the one its issue has read (R193). -/
def laneRec (x : Site) (v : LView) (l : Nat) (a : VReg) : Option (BitVec 512) :=
  match sget x.g.lays l with
  | some r => some r
  | none => handleRec x.tm ((v.r l a).toNat % 65536)

/-- The element an LDL or STL of lane l names (R183, R184, R191). An invalid handle names no path; its fault says LY (log 92). -/
def elemSel (s : State) (x : Site) (v : LView) (l : Nat) (a : VReg) (imm : BitVec 16) : ElemSel :=
  match laneRec x v l a with
  | none => .fault ⟨0x15, 5, 0, 2, 0⟩
  | some r =>
    let i := (List.range 5).map fun k => (v.reg l (a.toNat + 1 + k)).toInt + (if k = 0 then imm.toInt else 0)
    let vid := recVid r
    let path := if recSp r then Path.spTeam else if vid = 0 then .ly else .vw
    let ctx := sget s.contexts x.tm.ctx
    let view := if vid = 0 then none else if inBounds r i then ctx.bind fun c => viewOf c r i else ctx.bind fun c => viewAt c vid (recBase r)
    let slot := match view with | some e => e.2.slot | none => fsRead x.lr (BitVec.ofNat 3 (recFs r))
    let sl := slotOf slot
    if !inBounds r i then
      match recOob r with
      | 0 => .pad (padWord r sl)
      | 1 => .skip
      | _ => .fault ⟨0x15, 0, 0, path.code, 0⟩
    else
      let j := (bpiPlace r i).1
      .place
        { lay := r, slot := slot, view := view, path := path, coord := i,
          words := if sl.kind = .bpi then (List.range sl.k).map fun q => (planeAddr r j (7 - q), 4)
            else [(elemAddr r sl.kind.esize i, sl.kind.esize)],
          scale := if sl.kind = .bpi && sl.scaled then some (scaleAddr r j) else none }

/-- The address that an element's trap names. -/
def ElemPlace.addr (p : ElemPlace) : DWord := BitVec.ofNat 64 ((p.words.headD (0, 0)).1)

/-- The bytes a read of an element takes. -/
def ElemPlace.reads (p : ElemPlace) : List (Nat × Nat) := p.words ++ (p.scale.map fun a => (a, 1)).toList

/-- The checks of an element's bytes: the first in R171's order that some access of the element fails, which names that access's
address (log 94). -/
def elemCheck (s : State) (x : Site) (p : ElemPlace) (write : Bool) : Option AFault :=
  pickFault ((if write then p.words else p.reads).map fun (a, n) =>
    if recSp p.lay then checkSp x.tm a n (if write then .store else .load) .spTeam
    else failOf (checkGlobal s x.tm.ctx (BitVec.ofNat 64 a) n p.path write))

/-- What a view read meets (R305): data (with SR to set), a wait, or a trap. -/
inductive ViewRead
  | data (sr : Option Nat)
  | wait
  | fault (f : AFault)

/-- The outcome for a block of a view; `waited` tells a read that was already waiting for it. -/
def viewRead (s : State) (ctx : Nat) (view : Option (Nat × View)) (addr : DWord) (blk : View → Nat) (waited : Bool) : ViewRead :=
  match sget s.contexts ctx, view with
  | some c, some (k, vw) =>
    match vw.state with
    | .suspended => if waited then .data (some k) else .fault ⟨0x1C, 0, 0, 5, addr⟩
    | .active =>
      if viewFresh c vw (blk vw) then .data none
      else match (if waited then ViewPol.wait else vw.policy) with
        | .wait => .wait
        | .stale => .data (some k)
        | .fault => .fault ⟨0x1B, 0, 0, 5, addr⟩
  | _, _ => .fault ⟨0x1C, 0x1A, 0, 5, addr⟩

/-- The places of an element's global accesses, in order: address, length, and where it lies. -/
def elemLocs (s : State) (x : Site) (p : ElemPlace) (write : Bool) : List (Nat × Nat × Loc) :=
  if recSp p.lay then []
  else (if write then p.words else p.reads).filterMap fun (a, n) =>
    match checkGlobal s x.tm.ctx (BitVec.ofNat 64 a) n p.path write with
    | .error _ => none
    | .ok loc => some (a, n, loc)

/-- The sources of an element's read. -/
def elemSrcs (s : State) (x : Site) (p : ElemPlace) : List (LoadSrc × Nat) :=
  if recSp p.lay then p.reads.map fun (a, n) => (.sp x.t a, n)
  else (elemLocs s x p false).map fun (a, n, loc) => (memAt p.path a loc 0, n)

/-- Records the translations an element's accesses use. -/
def elemFill (s : State) (x : Site) (ls : List (Nat × Nat × Loc)) : State :=
  ls.foldl (fun s e => xlatFill s x.tm.core x.tm.ctx e.1 e.2.2) s

/-- Sets SR of views (R305). -/
def setSr (s : State) (ctx : Nat) (ks : List Nat) : State :=
  if ks = [] then s
  else modCtx s ctx fun c => { c with views := ks.foldl (fun vs k => smod vs k fun v => { v with sr := true }) c.views }

def setCons (s : State) (x : Site) (c : Store (Nat × Bool)) : State := modTeam s x.t fun tm => modGroup tm x.k fun g => { g with cons := c }

/-- What each lane of a waiting LDL has read from its binding (R193). -/
def setLays (s : State) (x : Site) (r : Store (BitVec 512)) : State := modTeam s x.t fun tm => modGroup tm x.k fun g => { g with lays := r }

/-- What lane l's element meets at its view. The outcome of the read's check stands, but for a lane that waits (R305). -/
def ldlView (s : State) (x : Site) (p : ElemPlace) (l : Nat) : ViewRead :=
  if recVid p.lay = 0 then .data none
  else match sget x.g.cons l with
    | some (k, true) => .data (if k = 0 then none else some (k - 1))
    | c => viewRead s x.tm.ctx p.view p.addr (fun vw => viewBlock vw p.lay p.coord) c.isSome

/-- LDL at a site. -/
def ldlBody (h : Head) (d a : VReg) (imm : BitVec 16) (x : Site) (s : State) : Res :=
  let v := x.view s
  let sel := fun l => elemSel s x v l a imm
  let vr := fun l => match sel l with
    | .place p => ldlView s x p l
    | .fault _ | .pad _ | .skip => ViewRead.data none
  let bad := fun l => match sel l with
    | .fault f => some f
    | .pad _ | .skip => none
    | .place p => match elemCheck s x p false with
      | some f => some f
      | none => match vr l with
        | .fault f => some f
        | .data _ | .wait => none
  match laneTrap (laneFaults x.act bad) with
  | some t => .trap t
  | none =>
    if x.act.any fun l => match vr l with | .wait => true | .data _ => false | .fault _ => false then
      .wait (setLays (setCons s x (x.act.map fun l => match vr l with
        | .data k => (l, (k.map (· + 1)).getD 0, true)
        | .wait => (l, 0, false)
        | .fault _ => (l, 0, false))) x (x.act.filterMap fun l => (laneRec x v l a).map fun r => (l, r)))
    else
      let known := x.act.filterMap fun l => match sel l with
        | .pad w => some (out1 l d w)
        | .skip => some { lane := l }
        | .place _ => none
        | .fault _ => none
      let elems := x.act.filterMap fun l => match sel l with
        | .place p => some (l,
            ({ tid := some (sgetD x.g.members l 0), hnd := x.g.handler, na := false, srcs := elemSrcs s x p,
               fmt := .elem d.toNat p.slot (bpiPlace p.lay p.coord).2 } : LoadElem))
        | .fault _ | .pad _ | .skip => none
      let s := setSr s x.tm.ctx (x.act.filterMap fun l => match vr l with | .data k => k | .wait => none | .fault _ => none)
      let s := x.act.foldl (fun s' l => match sel l with
        | .place p => elemFill s' x (elemLocs s x p false)
        | .fault _ | .pad _ | .skip => s') s
      .retire (openLoad (if x.g.cons = [] then s else setLays (setCons s x []) x []) x h known elems)

/-- What LDL asks. -/
def ldlReq (h : Head) (d a : VReg) : Req := memReq h .loads (one [d] ++ [(a.toNat, 6)])

/-- LDL. -/
def execLdl (h : Head) (d a : VReg) (imm : BitVec 16) (s : State) : Out :=
  .next (issue (ldlReq h d a) (ldlBody h d a imm) s)

/-- Stores bit `pos` of the plane word at `a` for a lane (R191): the byte that holds it, its other bits left as they are. The word
lies at a global place, or else in scratchpad. -/
def storeBit (s : State) (x : Site) (l : Nat) (p : ElemPlace) (loc : Option Loc) (a pos : Nat) (bit : Bool) : State :=
  let m : Byte := 1#8 <<< (pos % 8)
  let b : Byte := if bit then m else 0
  match loc with
  | none => spStore (x.who l) x.t (a + pos / 8) [(spByte (sgetD s.teams x.t x.tm) (a + pos / 8) &&& ~~~m) ||| b] s
  | some loc => laneStore s (x.who l) p.path l (a + pos / 8) { loc with pa := loc.pa + pos / 8 } [b] [~~~m]

/-- The words STL writes: all eight plane words of a BPI element. -/
def stlPlace (p : ElemPlace) : ElemPlace :=
  if (slotOf p.slot).kind = .bpi then
    { p with words := (List.range 8).map fun q => (planeAddr p.lay (bpiPlace p.lay p.coord).1 (7 - q), 4) }
  else p

/-- The effect of STL for one lane, through the places its checks have passed. -/
def stlLane (s : State) (x : Site) (l : Nat) (p : ElemPlace) (ls : List (Nat × Nat × Loc)) (w : Word) : State :=
  let sl := slotOf p.slot
  match sl.kind with
  | .bpi =>
    let pos := (bpiPlace p.lay p.coord).2
    (stlPlace p).words.zipIdx.foldl (fun s e =>
      storeBit s x l p (ls[e.2]?.map fun y => y.2.2) e.1.1 pos (e.2 < sl.k && w.getLsbD (7 - e.2))) s
  | .fp32 | .fp16 | .bf16 | .int8 | .none | .cb4 | .cb6 | .cb8 | .bad =>
    let (a, n) := p.words.headD (0, 1)
    match ls with
    | [] => spStore (x.who l) x.t a (natLe n w.toNat) s
    | e :: _ => laneStores s (x.who l) p.path l a e.2.2 (natLe n w.toNat)

/-- The checks of STL: those of R171, of which the ninth denies a view handle (R181). -/
def stlCheck (s : State) (x : Site) (p : ElemPlace) : Option AFault :=
  let f := elemCheck s x (stlPlace p) true
  if recVid p.lay = 0 then f
  else match f with
    | some e => if e.cause = 0x11 || e.cause = 0x12 then some ⟨0x12, 9, 0, 5, p.addr⟩ else f
    | none => some ⟨0x12, 9, 0, 5, p.addr⟩

/-- STL. A lane out of bounds under PAD or CLIP stores nothing, also through a view's handle (log 93). -/
def execStl (h : Head) (d a : VReg) (imm : BitVec 16) (s : State) : Out :=
  .next (issue (memReq h .stores (one [d] ++ [(a.toNat, 6)])) (fun x s =>
    let v := x.view s
    let sel := fun l => elemSel s x v l a imm
    let bad := fun l => match sel l with
      | .fault f => some f
      | .pad _ | .skip => none
      | .place p => stlCheck s x p
    match laneTrap (laneFaults x.act bad) with
    | some t => .trap t
    | none =>
      let s := x.act.foldl (fun s' l => match sel l with
        | .place p =>
          let ls := elemLocs s x (stlPlace p) true
          stlLane (elemFill s' x ls) x l p ls (v.r l d)
        | .fault _ | .pad _ | .skip => s') s
      .retire (openLong s x h (groupOp x h.dc .plain) [])) s)

/-- The record at a translated place, read at once. -/
def recordAt (s : State) (w : Who) (p : Path) (l : Loc) : BitVec 512 × State :=
  let (v, s) := readNow s w p l 64
  (BitVec.ofNat 512 v, s)

/-- Reads the records at addresses, in order. -/
def recordsAt (w : Nat → Who) (p : Path) : List (Nat × Nat × Loc) → State → List (Nat × BitVec 512) × State
  | [], s => ([], s)
  | (a, l, loc) :: t, s =>
    let (r, s) := recordAt s (w l) p loc
    let (rs, s) := recordsAt w p t s
    ((a, r) :: rs, s)

/-- A binding entry's next generation; the count skips 0 (R182). -/
def nextGen (g : Nat) : Nat := if 4095 ≤ g then 1 else g + 1

/-- Binds a record to the lowest free entry of a team: the handle and the team. -/
def bindRec (tm : Team) (r : BitVec 512) : Nat × Team :=
  let e := ((List.range 16).find? fun i => !(sgetD tm.binds i default).bound).getD 0
  let g := nextGen (sgetD tm.binds e default).gen
  (g * 16 + e, { tm with binds := sset tm.binds e { bound := true, gen := g, word := r } })

/-- Binds the records of distinct addresses in order: the handles, by address. -/
def bindAll (tm : Team) : List (Nat × BitVec 512) → List (Nat × Nat) × Team
  | [] => ([], tm)
  | (a, r) :: t =>
    let (hd, tm) := bindRec tm r
    let (hs, tm) := bindAll tm t
    ((a, hd) :: hs, tm)

/-- LYLD: one read for each distinct address, at once, since its checks rest on what it reads. A lane's failed check or malformed
record comes before a full binding table (log 91). -/
def execLyld (h : Head) (d a : VReg) (imm : BitVec 16) (s : State) : Out :=
  .next (issue (memReq h .layout (one [d] ++ two [a])) (fun x s =>
    let v := x.view s
    let ea := fun l => gaddr v l a imm
    let chk := fun l => checkGlobal s x.tm.ctx (ea l) 64 .ly false
    let addrs := (x.act.map fun l => (ea l).toNat).eraseDups
    let places := addrs.filterMap fun ad => match x.act.find? fun l => (ea l).toNat = ad with
      | none => none
      | some l => match chk l with
        | .ok loc => some (ad, l, loc)
        | .error _ => none
    let (recs, s1) := recordsAt x.who .ly places s
    let bad := fun l => match chk l with
      | .error f => some f
      | .ok _ => match recs.find? fun e => e.1 = (ea l).toNat with
        | some (_, r) => if recBad r (fsRead x.lr (BitVec.ofNat 3 (recFs r))) then some ⟨0x15, 7, 0, 2, ea l⟩ else none
        | none => none
    let free := ((List.range 16).filter fun i => !(sgetD x.tm.binds i default).bound).length
    match laneTrap (laneFaults x.act bad) with
    | some t => .trapIn s1 t
    | none =>
      if free < addrs.length then
        let l := x.act.headD 0
        .trapIn s1 { cause := 0x15, lanes := x.act, addr := ea l, info := infoOf ⟨0x15, 6, 0, 2, ea l⟩ l }
      else
        let (hs, _) := bindAll x.tm recs
        let s := places.foldl (fun s e => xlatFill s x.tm.core x.tm.ctx e.1 e.2.2) s1
        let s := modTeam s x.t fun tm => (bindAll tm recs).2
        .retire (openRead s x h (x.act.map fun l =>
          out1 l d (BitVec.ofNat 32 (((hs.find? fun e => e.1 = (ea l).toNat).map Prod.snd).getD 0))))) s)

/-- LYDROP: an invalid handle is ignored. -/
def execLydrop (h : Head) (a : VReg) (s : State) : Out :=
  .next (issue (memReq h .layout (one [a])) (fun x s =>
    let v := x.view s
    let s := modTeam s x.t fun tm => x.act.foldl (fun tm l =>
      let hd := (v.r l a).toNat % 65536
      match handleRec tm hd with
      | none => tm
      | some _ => { tm with binds := smod tm.binds (hd % 16) fun b => { b with bound := false, word := 0 } }) tm
    .retire (openLong s x h (groupOp x h.dc .plain) [])) s)

/-! ## CINV, PREF (R194) -/

/-- Drops the line of an untracked page from the named levels. -/
def dropLine (s : State) (core : Nat) (lvl : CinvLvl) (l : Loc) : State :=
  if l.tracked then s
  else
    let line := lineOf l.pa
    let l1 := match lvl with | .l1 => true | .rdc => false | .all => true
    let rdc := match lvl with | .l1 => false | .rdc => true | .all => true
    let s := if l1 then { s with l1 := serase s.l1 (l1Key line (coreCluster core)) } else s
    let s := if l1 && rdc then { s with mixed := serase s.mixed (64 * line + coreCluster core) } else s
    if rdc then modDie s (coreDie core) fun d => { d with rdc := serase d.rdc line } else s

/-- CINV: a lane whose address is not a local one that translates is ignored; path permission is not checked. -/
def execCinv (h : Head) (a : VReg) (imm : BitVec 16) (lvl : CinvLvl) (s : State) : Out :=
  .next (issue (memReq h .stores (two [a])) (fun x s =>
    let v := x.view s
    let s' := x.act.foldl (fun s l =>
      let ea := gaddr v l a imm
      if ea.extractLsb' 52 12 ≠ 0 then s
      else match translate s x.tm.ctx ea.toNat with
        | .error _ => s
        | .ok loc => dropLine s x.tm.core lvl loc) s
    .retire (openLong s' x h (groupOp x h.dc .plain) [])) s)

/-- PREF: fills toward a level; a lane whose address fails a check is ignored, and poisoned data is no matter. -/
def execPref (h : Head) (a : VReg) (imm : BitVec 16) (lvl : PrefLvl) (s : State) : Out :=
  .next (issue (memReq h .loads (two [a])) (fun x s =>
    let v := x.view s
    let s' := x.act.foldl (fun s l =>
      match checkGlobal s x.tm.ctx (gaddr v l a imm) 1 .ls false with
      | .error _ => s
      | .ok loc => match lvl with
        | .l1 => fillLine (xlatFill s x.tm.core x.tm.ctx (gaddr v l a imm).toNat loc) x.tm.core .ls loc (lineOf loc.pa) false
        | .l2 => xlatFill s x.tm.core x.tm.ctx (gaddr v l a imm).toNat loc
        | .msc => xlatFill s x.tm.core x.tm.ctx (gaddr v l a imm).toNat loc) s
    .retire (openLong s' x h (groupOp x h.dc .plain) [])) s)

/-! ## TWALK (R195) -/

/-- A checked LS read of a lane, at once: what it finds, and the machine after it. -/
def lsRead (s : State) (x : Site) (l : Nat) (ea : DWord) (n : Nat) : Except AFault Nat × State :=
  match checkGlobal s x.tm.ctx ea n .ls false with
  | .error e => (.error e, s)
  | .ok loc =>
    let (v, s) := readNow (xlatFill s x.tm.core x.tm.ctx ea.toNat loc) (x.who l) .ls loc n
    (.ok v, s)

/-- The comparison of one level: numeric, false for a NaN. -/
def walkRight (x t : Nat) : Bool := (fcompare .f32 .gt x t).1

/-- The walk from a node, `n` levels left of a tree of 2^depth leaves: the node reached, and the machine after the reads. -/
def walkTree (x : Site) (l : Nat) (tb sb : DWord) (leaves : Nat) : Nat → Nat → State → Except AFault Nat × State
  | 0, node, s => (.ok node, s)
  | n + 1, node, s =>
    match lsRead s x l (tb + BitVec.ofNat 64 (8 * leaves + 2 * node)) 2 with
    | (.error e, s) => (.error e, s)
    | (.ok f, s) =>
      match lsRead s x l (sb + BitVec.ofNat 64 (4 * f)) 4 with
      | (.error e, s) => (.error e, s)
      | (.ok xv, s) =>
        match lsRead s x l (tb + BitVec.ofNat 64 (4 * node)) 4 with
        | (.error e, s) => (.error e, s)
        | (.ok t, s) => walkTree x l tb sb leaves n (if walkRight xv t then 2 * node + 2 else 2 * node + 1) s

/-- The leaf index and value of a lane's walk. A tree's address that is not a multiple of 64 is itself the address of the fault
(log 90). -/
def twalkLane (s : State) (x : Site) (l : Nat) (tb sb : DWord) (n : Nat) : Except AFault (Nat × Nat) × State :=
  let leaves := 2 ^ n
  if tb.toNat % 64 ≠ 0 then (.error ⟨0x14, 0, 0, 0, tb⟩, s)
  else match walkTree x l tb sb leaves n 0 s with
    | (.error e, s) => (.error e, s)
    | (.ok node, s) =>
      let leaf := node - (leaves - 1)
      match lsRead s x l (tb + BitVec.ofNat 64 (4 * leaves + 4 * leaf)) 4 with
      | (.error e, s) => (.error e, s)
      | (.ok v, s) => (.ok (leaf, v), s)

/-- The walks of lanes in order: what each met, and the machine after their reads. -/
def twalkLanes (go : State → Nat → Except AFault (Nat × Nat) × State) :
    List Nat → State → List (Nat × Except AFault (Nat × Nat)) × State
  | [], s => ([], s)
  | l :: t, s =>
    let (r, s) := go s l
    let (rs, s) := twalkLanes go t s
    ((l, r) :: rs, s)

/-- The failed walks among those of lanes, and what the others found: the leaf's index and value. -/
def walkFaults (rs : List (Nat × Except AFault (Nat × Nat))) : List (Nat × AFault) :=
  rs.filterMap fun e => (failOf e.2).map fun f => (e.1, f)
def walkOut (d : VReg) (e : Nat × Except AFault (Nat × Nat)) : LaneOut :=
  match e.2 with
  | .ok r => { lane := e.1, vs := [(d.toNat, BitVec.ofNat 32 r.1), (d.toNat + 1, BitVec.ofNat 32 r.2)] }
  | .error _ => { lane := e.1 }

/-- TWALK: its reads are done at once, since each one's address rests on the one before. -/
def execTwalk (h : Head) (d a b : VReg) (n : BitVec 4) (s : State) : Out :=
  .next (issue (memReq h .stores (two [d, a, b])) (fun x s =>
    let v := x.view s
    let (rs, s') := twalkLanes (fun s l => twalkLane s x l (v.r64 l a) (v.r64 l b) n.toNat) x.act s
    match laneTrap (walkFaults rs) with
    | some t => .trapIn s' t
    | none => .retire (openRead s' x h (rs.map (walkOut d)))) s)

end Sys2Proof.Machine
end

