-- ==== Sys2Proof/Machine/Atomics.lean ====
section
/-! DEFINITION. Atomics and fences, 0x1C0 to 0x1C4 (R213 to R217). -/

namespace Sys2Proof.Machine

/-! ## OS and OP (R214) -/

def osSp (os : AtomOS) : Bool := os = 13 || os = 14
def osRel (os : AtomOS) : Bool := (5 ≤ os.toNat && os.toNat ≤ 12) || os = 14
def osAcq (os : AtomOS) : Bool := (1 ≤ os.toNat && os.toNat ≤ 4) || (9 ≤ os.toNat && os.toNat ≤ 12) || os = 14
def osScope (os : AtomOS) : Scope :=
  if os = 14 || os = 0 || os = 13 then .team
  else match (os.toNat - 1) % 4 with | 0 => .team | 1 => .die | 2 => .dev | _ => .sys

/-- The new value of an atomic. -/
def atomNew : AtomOp → Word → Word → Word
  | .add, o, v => o + v
  | .minS, o, v => minS true o v
  | .maxS, o, v => maxS true o v
  | .minU, o, v => minS false o v
  | .maxU, o, v => maxS false o v
  | .and, o, v => o &&& v
  | .or, o, v => o ||| v
  | .exch, _, v => v

/-! ## The three instructions (R215) -/

/-- Lanes in ascending order, each read-modify-write on what the preceding lane left: the old values and the state. -/
def atomLanes (one : State → Nat → Nat × State) : List Nat → State → List (Nat × Nat) × State
  | [], s => ([], s)
  | l :: t, s =>
    let (o, s) := one s l
    let (r, s) := atomLanes one t s
    ((l, o) :: r, s)

/-- One lane's read-modify-write on scratchpad. -/
def atomSp (s : State) (w : Who) (t off n : Nat) (f : Nat → Option Nat) : Nat × State :=
  let s := settleAt s w (.sp t off, n)
  match sget s.teams t with
  | none => (0, s)
  | some tm =>
    let o := spNat tm off n
    match f o with
    | none => (o, s)
    | some v => (o, modTeam s t fun tm => spWrite tm off (natLe n v))

/-- A core's previous atomic has not completed (R353). -/
def atomOpen (s : State) (core : Nat) : Bool :=
  s.ops.any fun e => e.2.atom && ((sget s.teams e.2.team).any fun tm => tm.core = core)

/-- Marks an operation as an atomic's. -/
def markAtom (s : State) (id : Nat) : State := { s with ops := smod s.ops id fun o => { o with atom := true } }

/-- What an atomic asks: in a deterministic team it waits for the core's previous atomic (R353). -/
def atomReq (h : Head) (regs : List (Nat × Nat)) : Req :=
  { memReq h .atomics regs with held := fun s x => bufHeld s x || (x.lr.determ && atomOpen s x.tm.core) }

/-- The body of an atomic: checks, the release's drain, the lanes' events, all in the step that issues it (log 95), the fork and
the acquire. -/
def atomBody (os : AtomOS) (n : Nat) (ea : LView → Nat → DWord) (f : LView → Nat → Nat → Option Nat)
    (done : Site → State → List (Nat × Nat) → State) (x : Site) (s : State) : Res :=
  let v := x.view s
  let chk := fun l => checkGlobal s x.tm.ctx (ea v l) n .ls true
  let bad := fun l => if osSp os then checkSp x.tm (ea v l).toNat n .store .spTeam else failOf (chk l)
  match laneTrap (laneFaults x.act bad) with
  | some t => .trap t
  | none =>
    match (if osRel os then releaseBy s x (osScope os) else .ok s) with
    | .error t => .trap t
    | .ok s =>
      let one := fun (s : State) l =>
        if osSp os then atomSp s (x.who l) x.t (ea v l).toNat n (f v l)
        else match chk l with
          | .error _ => (0, s)
          | .ok loc => atomicAt (xlatFill s x.tm.core x.tm.ctx (ea v l).toNat loc) (x.who l) (ea v l).toNat loc n (f v l)
      let (olds, s) := atomLanes one x.act s
      let s := if osRel os then releaseFork s x.t x.tids (osScope os) else s
      let s := if osAcq os && x.act ≠ [] then acquireBy s x (osScope os) else s
      .retire (markAtom (done x s olds) s.nextOp)

/-- The address of an atomic: a scratchpad value zero-extended, or a global address. -/
def atomAddr (os : AtomOS) (a : VReg) (imm : BitVec 16) (v : LView) (l : Nat) : DWord :=
  if osSp os then (saddr v l a imm).zeroExtend 64 else gaddr v l a imm

def atomRegs (os : AtomOS) (a : VReg) : List (Nat × Nat) := if osSp os then one [a] else two [a]

/-- ATOM. -/
def execAtom (h : Head) (d a : VReg) (imm : BitVec 16) (os : AtomOS) (op : AtomOp) (s : State) : Out :=
  .next (issue (atomReq h (one [d] ++ atomRegs os a))
    (atomBody os 4 (atomAddr os a imm)
      (fun v l o => some (atomNew op (BitVec.ofNat 32 o) (v.r l d)).toNat)
      (fun x s olds => openRead s x h (olds.map fun e => out1 e.1 d (BitVec.ofNat 32 e.2)))) s)

/-- ARED. -/
def execAred (h : Head) (d a : VReg) (imm : BitVec 16) (os : AtomOS) (op : AtomOp) (s : State) : Out :=
  .next (issue (atomReq h (one [d] ++ atomRegs os a))
    (atomBody os 4 (atomAddr os a imm)
      (fun v l o => some (atomNew op (BitVec.ofNat 32 o) (v.r l d)).toNat)
      (fun x s _ => openLong s x h (groupOp x h.dc .plain) [])) s)

/-- ACAS: a failing comparison writes nothing. -/
def execAcas (h : Head) (d a b c : VReg) (os : AtomOS) (w64 : Bool) (s : State) : Out :=
  let n := if w64 then 8 else 4
  let val := fun (v : LView) l (r : VReg) => if w64 then (v.r64 l r).toNat else (v.r l r).toNat
  .next (issue (atomReq h ((if w64 then two [d, b, c] else one [d, b, c]) ++ atomRegs os a))
    (atomBody os n (atomAddr os a 0)
      (fun v l o => if o = val v l b then some (val v l c) else none)
      (fun x s olds => openRead s x h (olds.map fun e =>
        if w64 then out2 e.1 d (BitVec.ofNat 64 e.2) else out1 e.1 d (BitVec.ofNat 32 e.2)))) s)

/-! ## Fences (R216, R217) -/

/-- A word of class W that is group-level or thread-level and names no register. -/
def waitReq (h : Head) (e : Engine) : Req := { guard := h.guard, engine := e, dc := h.dc.toNat }

/-- A read of some threads of a team has not returned: an operation that reads is open, other than one that only UO elements
are left of, which a fence without `.uo` does not wait for (R199, R216). -/
def readOpen (s : State) (t : Nat) (tids : List Nat) (uo : Bool) : Bool :=
  s.ops.any fun e => e.2.team = t && !e.2.seq && e.2.read && (e.2.iss.any tids.contains)
    && (uo || e.2.kind.unread = [] || e.2.kind.unread.any fun x => !x.uo)

def fenceRel : FenceKind → Bool | .ar => true | .acq => false | .rel => true | .sc => true
def fenceAcq : FenceKind → Bool | .ar => true | .acq => true | .rel => false | .sc => true

/-- FENCE at a site: it waits until every earlier read of the active threads has returned. -/
def fenceBody (kind : FenceKind) (uo : Bool) (scope : Scope) (x : Site) (s : State) : Res :=
  if x.act = [] then .retire s
  else
    match (if fenceRel kind then revokedTrap x.g (stuckStores s x.t x.tids uo) else none) with
    | some t => .trap t
    | none =>
      if readOpen s x.t x.tids uo then .wait s
      else
        let s := if fenceRel kind then releaseFork (performFor s x.t x.parties scope uo) x.t x.tids scope else s
        .retire (if fenceAcq kind then acquireBy s x scope else s)

/-- FENCE's issue, and its later tries. -/
def fenceIssue (h : Head) (kind : FenceKind) (uo : Bool) (scope : Scope) (s : State) : State :=
  issue (waitReq h .order) (fenceBody kind uo scope) s

/-- FENCE. -/
def execFence (h : Head) (kind : FenceKind) (uo : Bool) (scope : Scope) (s : State) : Out := .next (fenceIssue h kind uo scope s)

/-- The paths on which an operation still accesses memory, by their codes (R210, R217). -/
def kindPaths : OpKind → List Nat
  | .load l => l.flatMap fun e => e.srcs.flatMap fun x => match x.1 with | .mem p => [p.path] | .sp .. => [] | .fab _ => []
  | .copy _ _ elems _ => 3 :: elems.flatMap fun e => e.moves.flatMap fun m => match m.src with
      | .home p => [p.path]
      | .mix p .. => [p.path]
      | .sp _ => [] | .const _ => [] | .fab _ => [] | .fabMix .. => []
  | .expand .. => [3]
  | .cbld .. => [3]
  | .awl .. => [4]
  | .crpop .. => [0]
  | .plain | .flags .. | .batch .. | .bufs .. | .stage .. | .matrix .. | .drain .. | .gload .. | .vpol .. | .spawn .. | .klaunch ..
  | .bank .. | .ctxsave .. => []

/-- An access of some threads, or of an engine they issued, on one of some paths has not been performed. -/
def pathOpen (s : State) (t : Nat) (tids paths : List Nat) : Bool :=
  s.ops.any fun e => e.2.team = t && !e.2.seq && (e.2.iss.any tids.contains) && (kindPaths e.2.kind).any paths.contains

/-- The stores of the named paths that a PFENCE performs: those of its threads, and those that a release has performed for them
(R210, R217). -/
def pfenceStore (ws : List Who) (paths : List Nat) (h : HeldStore) : Bool :=
  (ws.any fun w => h.own w || h.inScope w) && paths.contains h.path

/-- PFENCE's issue, and its later tries: stores of the named paths are performed, the threads' reads and their engines' accesses
on them awaited, and the named path caches dropped. -/
def pfenceIssue (h : Head) (mask : BitVec 6) (s : State) : State :=
  issue (waitReq h .order) (fun x s =>
    let paths := (List.range 6).filter fun i => mask.getLsbD i
    if x.act = [] then .retire s
    else if pathOpen s x.t x.tids paths then .wait s
    else
      let s := drainWhere s (pfenceStore x.parties paths)
      .retire (pathDrop s x.tm.core (paths.filter fun i => i ≠ 0))) s

/-- PFENCE. -/
def execPfence (h : Head) (mask : BitVec 6) (s : State) : Out := .next (pfenceIssue h mask s)

end Sys2Proof.Machine
end

