-- ==== Sys2Proof/Decode.lean ====
section
/-! DEFINITION. Decoding of instruction words (R34 to R49 and each entry's encoding), the clause classes of R48, and the
encoder. Packets are decoded in Machine/Packets.lean, from the slots of their ring. -/

namespace Sys2Proof

/-! ## Formats

Formats R, I, M, G and S share the places of OPC, PRED, DSM, D, A, LA, DC and MOD; IMM16 and SEL occupy the places of B
and C, and format G splits C. Format B is format K with DSM split into U and three reserved bits. -/

/-- The fields of formats R, I, M, G and S. -/
structure RWord where
  opc : BitVec 10
  prd : BitVec 4
  dsm : BitVec 4
  d   : BitVec 8
  a   : BitVec 8
  b   : BitVec 8
  c   : BitVec 8
  la  : BitVec 4
  dc  : BitVec 3
  md  : BitVec 7
  deriving DecidableEq, Repr

/-- The fields of formats K and B. -/
structure KWord where
  opc : BitVec 10
  prd : BitVec 4
  dsm : BitVec 4
  d   : BitVec 8
  imm : BitVec 32
  md  : BitVec 6
  deriving DecidableEq, Repr

/-- The fields of format X. -/
structure XWord where
  opc : BitVec 10
  prd : BitVec 4
  tn  : BitVec 1
  tq  : BitVec 4
  gd  : BitVec 6
  ga  : BitVec 6
  gb  : BitVec 6
  fsa : BitVec 3
  fsb : BitVec 3
  fsc : BitVec 3
  ec  : BitVec 2
  acc : BitVec 2
  xdc : BitVec 3
  md  : BitVec 11
  deriving DecidableEq, Repr

/-- The fields of format XK. -/
structure XKWord where
  opc : BitVec 10
  prd : BitVec 4
  tn  : BitVec 1
  tq  : BitVec 4
  gd  : BitVec 6
  imm : BitVec 32
  xdc : BitVec 3
  md  : BitVec 4
  deriving DecidableEq, Repr

/-- OPC of any word: bits [63:54]. -/
def opcOf (w : DWord) : BitVec 10 := w.extractLsb' 54 10

def unpackR (w : DWord) : RWord :=
  { opc := w.extractLsb' 54 10, prd := w.extractLsb' 50 4, dsm := w.extractLsb' 46 4, d := w.extractLsb' 38 8,
    a := w.extractLsb' 30 8, b := w.extractLsb' 22 8, c := w.extractLsb' 14 8, la := w.extractLsb' 10 4,
    dc := w.extractLsb' 7 3, md := w.extractLsb' 0 7 }

def packR (f : RWord) : DWord :=
  f.opc ++ f.prd ++ f.dsm ++ f.d ++ f.a ++ f.b ++ f.c ++ f.la ++ f.dc ++ f.md

def unpackK (w : DWord) : KWord :=
  { opc := w.extractLsb' 54 10, prd := w.extractLsb' 50 4, dsm := w.extractLsb' 46 4, d := w.extractLsb' 38 8,
    imm := w.extractLsb' 6 32, md := w.extractLsb' 0 6 }

def packK (f : KWord) : DWord := f.opc ++ f.prd ++ f.dsm ++ f.d ++ f.imm ++ f.md

def unpackX (w : DWord) : XWord :=
  { opc := w.extractLsb' 54 10, prd := w.extractLsb' 50 4, tn := w.extractLsb' 49 1, tq := w.extractLsb' 45 4,
    gd := w.extractLsb' 39 6, ga := w.extractLsb' 33 6, gb := w.extractLsb' 27 6, fsa := w.extractLsb' 24 3,
    fsb := w.extractLsb' 21 3, fsc := w.extractLsb' 18 3, ec := w.extractLsb' 16 2, acc := w.extractLsb' 14 2,
    xdc := w.extractLsb' 11 3, md := w.extractLsb' 0 11 }

def packX (f : XWord) : DWord :=
  f.opc ++ f.prd ++ f.tn ++ f.tq ++ f.gd ++ f.ga ++ f.gb ++ f.fsa ++ f.fsb ++ f.fsc ++ f.ec ++ f.acc ++ f.xdc ++ f.md

def unpackXK (w : DWord) : XKWord :=
  { opc := w.extractLsb' 54 10, prd := w.extractLsb' 50 4, tn := w.extractLsb' 49 1, tq := w.extractLsb' 45 4,
    gd := w.extractLsb' 39 6, imm := w.extractLsb' 7 32, xdc := w.extractLsb' 4 3, md := w.extractLsb' 0 4 }

def packXK (f : XKWord) : DWord := f.opc ++ f.prd ++ f.tn ++ f.tq ++ f.gd ++ f.imm ++ f.xdc ++ f.md

/-! ## Field decoders and their inverses -/

/-- One bit as a Bool, and back. -/
def bitB (b : Bool) : BitVec 1 := BitVec.ofBool b

/-- PRED (R35). -/
def guardOf (x : BitVec 4) : Guard := ⟨x.getLsbD 3, x.extractLsb' 0 3⟩
def guardBits (g : Guard) : BitVec 4 := bitB g.neg ++ g.p

/-- A source predicate field (R94): bits [7:4] are 0. -/
def psrcOf (x : BitVec 8) : Option PSrc :=
  if x.extractLsb' 4 4 = 0 then some ⟨x.getLsbD 3, x.extractLsb' 0 3⟩ else none
def psrcBits (p : PSrc) : BitVec 8 := 0#4 ++ bitB p.neg ++ p.p

/-- A destination predicate field (R94): bits [7:3] are 0. -/
def pdstOf (x : BitVec 8) : Option PReg := if x.extractLsb' 3 5 = 0 then some (x.extractLsb' 0 3) else none
def pdstBits (p : PReg) : BitVec 8 := 0#5 ++ p

/-- A pair starts at an even register (R38), a quad at a multiple of 4 (R185). -/
def even (x : BitVec 8) : Bool := x.extractLsb' 0 1 = 0
def quad (x : BitVec 8) : Bool := x.extractLsb' 0 2 = 0

def cmpOf (x : BitVec 3) : Option Cmp :=
  match x.toNat with
  | 0 => some .eq | 1 => some .ne | 2 => some .lt | 3 => some .le | 4 => some .gt | 5 => some .ge | _ => none
def cmpBits : Cmp → BitVec 3
  | .eq => 0 | .ne => 1 | .lt => 2 | .le => 3 | .gt => 4 | .ge => 5

def fcmpOf (x : BitVec 3) : FCmp :=
  match x.toNat with
  | 0 => .eq | 1 => .ne | 2 => .lt | 3 => .le | 4 => .gt | 5 => .ge | 6 => .ord | _ => .uno
def fcmpBits : FCmp → BitVec 3
  | .eq => 0 | .ne => 1 | .lt => 2 | .le => 3 | .gt => 4 | .ge => 5 | .ord => 6 | .uno => 7

/-- COMB with the C field it reads (R104). -/
def combOf (x : BitVec 2) (c : BitVec 8) : Option (Option (CombOp × PSrc)) :=
  match x.toNat with
  | 0 => if c = 0 then some none else none
  | 1 => (psrcOf c).map fun p => some (.and, p)
  | 2 => (psrcOf c).map fun p => some (.or, p)
  | _ => (psrcOf c).map fun p => some (.xor, p)
def combBits : Option (CombOp × PSrc) → BitVec 2
  | none => 0 | some (.and, _) => 1 | some (.or, _) => 2 | some (.xor, _) => 3
def combC : Option (CombOp × PSrc) → BitVec 8
  | none => 0 | some (_, p) => psrcBits p

def rmOf (x : BitVec 2) : Rm := match x.toNat with | 0 => .rn | 1 => .rz | 2 => .rm | _ => .rp
def rmBits : Rm → BitVec 2 | .rn => 0 | .rz => 1 | .rm => 2 | .rp => 3

/-- MOD of IADD and ISUB (R93). -/
def addModOf (m : BitVec 7) : Option AddMod :=
  if m.getLsbD 3 = false ∧ ¬(m.getLsbD 6 ∧ m.getLsbD 5) ∧ (m.getLsbD 6 ∨ m.extractLsb' 0 3 = 0) then
    some ⟨if m.getLsbD 6 then some (m.extractLsb' 0 3) else none, m.getLsbD 5, m.getLsbD 4⟩
  else none
def addModBits (a : AddMod) : BitVec 7 :=
  bitB a.cc.isSome ++ bitB a.sat ++ bitB a.sgn ++ 0#1 ++ a.cc.getD 0

/-- The CC part of IADDX's MOD (R93, R96). -/
def ccOf (m : BitVec 7) : Option (Option PReg) :=
  if m.extractLsb' 3 3 = 0 ∧ (m.getLsbD 6 ∨ m.extractLsb' 0 3 = 0) then
    some (if m.getLsbD 6 then some (m.extractLsb' 0 3) else none)
  else none
def ccBits (c : Option PReg) : BitVec 7 := bitB c.isSome ++ 0#3 ++ c.getD 0

def halfOf (x : BitVec 2) : Option Half :=
  match x.toNat with | 0 => some .lo | 1 => some .hi | 2 => some .pair | _ => none
def halfBits : Half → BitVec 2 | .lo => 0 | .hi => 1 | .pair => 2

def ikOf (x : BitVec 2) : IKind := match x.toNat with | 0 => .s32 | 1 => .u32 | 2 => .s64 | _ => .u64
def ikBits : IKind → BitVec 2 | .s32 => 0 | .u32 => 1 | .s64 => 2 | .u64 => 3
def IKind.wide : IKind → Bool | .s32 => false | .u32 => false | .s64 => true | .u64 => true

def fkOf (x : BitVec 2) : Option FKind :=
  match x.toNat with | 0 => some .f32 | 1 => some .f16 | 2 => some .bf16 | _ => none
def fkBits : FKind → BitVec 2 | .f32 => 0 | .f16 => 1 | .bf16 => 2

def shflOf (x : BitVec 2) : ShflMode := match x.toNat with | 0 => .idx | 1 => .back | 2 => .fwd | _ => .xor
def shflBits : ShflMode → BitVec 2 | .idx => 0 | .back => 1 | .fwd => 2 | .xor => 3

def voteOf (x : BitVec 3) : Option VoteMode :=
  match x.toNat with
  | 0 => some .all | 1 => some .any | 2 => some .same | 3 => some .mask | 4 => some .count | 5 => some .most | _ => none
def voteBits : VoteMode → BitVec 3 | .all => 0 | .any => 1 | .same => 2 | .mask => 3 | .count => 4 | .most => 5
/-- The modes of VOTE that write a vector register (R113). -/
def VoteMode.vec : VoteMode → Bool
  | .mask => true | .count => true | .all => false | .any => false | .same => false | .most => false

def matchOf (x : BitVec 2) : Option MatchMode :=
  match x.toNat with | 0 => some .mask | 1 => some .lead | 2 => some .uniq | _ => none
def matchBits : MatchMode → BitVec 2 | .mask => 0 | .lead => 1 | .uniq => 2

def reduxOf (x : BitVec 3) : Option ReduxOp :=
  match x.toNat with
  | 0 => some .add | 1 => some .min | 2 => some .max | 3 => some .and | 4 => some .or | 5 => some .xor | 6 => some .fadd
  | _ => none
def reduxBits : ReduxOp → BitVec 3
  | .add => 0 | .min => 1 | .max => 2 | .and => 3 | .or => 4 | .xor => 5 | .fadd => 6

/-- SGN and SCAN of REDUX (R115): SGN with min and max only, SCAN with the integer operations only. -/
def reduxOk (o : ReduxOp) (sgn scan : Bool) : Bool :=
  match o with
  | .min => true
  | .max => true
  | .fadd => !sgn && !scan
  | .add => !sgn | .and => !sgn | .or => !sgn | .xor => !sgn

def widthOf (x : BitVec 3) : Option Width :=
  match x.toNat with | 0 => some .b8 | 1 => some .b16 | 2 => some .b32 | 3 => some .b64 | 4 => some .b128 | _ => none
def widthBits : Width → BitVec 3 | .b8 => 0 | .b16 => 1 | .b32 => 2 | .b64 => 3 | .b128 => 4
/-- The alignment of a register of width W (R185). -/
def Width.regOk : Width → BitVec 8 → Bool
  | .b8, _ => true | .b16, _ => true | .b32, _ => true | .b64, d => even d | .b128, d => quad d
/-- SX is 0 for widths of 4 bytes or more (R185). -/
def Width.sxOk : Width → Bool → Bool
  | .b8, _ => true | .b16, _ => true | .b32, s => !s | .b64, s => !s | .b128, s => !s

def ewOf (x : BitVec 2) : EWidth := match x.toNat with | 0 => .b8 | 1 => .b16 | 2 => .b32 | _ => .b64
def ewBits : EWidth → BitVec 2 | .b8 => 0 | .b16 => 1 | .b32 => 2 | .b64 => 3
def EWidth.regOk : EWidth → BitVec 8 → Bool
  | .b8, _ => true | .b16, _ => true | .b32, _ => true | .b64, d => even d
def EWidth.sxOk : EWidth → Bool → Bool
  | .b8, _ => true | .b16, _ => true | .b32, s => !s | .b64, s => !s

/-- IW, IS, SC and EW of format G, in the places of C (R45). -/
def indexOf (c : BitVec 8) : Option (Index × EWidth) :=
  if (c.extractLsb' 2 3).toNat ≤ 4 then
    some (⟨ewOf (c.extractLsb' 6 2), c.getLsbD 5, c.extractLsb' 2 3⟩, ewOf (c.extractLsb' 0 2))
  else none
def indexBits (i : Index) (e : EWidth) : BitVec 8 := ewBits i.iw ++ bitB i.is ++ i.sc ++ ewBits e

def scopeOf (x : BitVec 3) : Option Scope :=
  match x.toNat with
  | 0 => some .grp | 1 => some .team | 2 => some .clus | 3 => some .die | 4 => some .dev | 5 => some .sys | _ => none
def scopeBits : Scope → BitVec 3 | .grp => 0 | .team => 1 | .clus => 2 | .die => 3 | .dev => 4 | .sys => 5

def fkindOf (x : BitVec 2) : FenceKind := match x.toNat with | 0 => .ar | 1 => .acq | 2 => .rel | _ => .sc
def fkindBits : FenceKind → BitVec 2 | .ar => 0 | .acq => 1 | .rel => 2 | .sc => 3

def aopOf (x : BitVec 3) : AtomOp :=
  match x.toNat with
  | 0 => .add | 1 => .minS | 2 => .maxS | 3 => .minU | 4 => .maxU | 5 => .and | 6 => .or | _ => .exch
def aopBits : AtomOp → BitVec 3
  | .add => 0 | .minS => 1 | .maxS => 2 | .minU => 3 | .maxU => 4 | .and => 5 | .or => 6 | .exch => 7
/-- OS of R214 names a global space below 0xD. -/
def osGlobal (os : AtomOS) : Bool := os.toNat < 13

def bstOf (x : BitVec 2) : BufState := match x.toNat with | 0 => .empty | 1 => .filling | 2 => .full | _ => .draining
def bstBits : BufState → BitVec 2 | .empty => 0 | .filling => 1 | .full => 2 | .draining => 3

def cdirOf (x : BitVec 2) : CpyDir := match x.toNat with | 0 => .g2s | 1 => .s2g | 2 => .g2g | _ => .s2s
def cdirBits : CpyDir → BitVec 2 | .g2s => 0 | .s2g => 1 | .g2g => 2 | .s2s => 3
/-- Whether the source, and the destination, of a CPY is a global pair (R239). -/
def CpyDir.srcG : CpyDir → Bool | .g2s => true | .s2g => false | .g2g => true | .s2s => false
def CpyDir.dstG : CpyDir → Bool | .g2s => false | .s2g => true | .g2g => true | .s2s => false
def cszOf (x : BitVec 2) : Option CpySz := match x.toNat with | 0 => some .b4 | 1 => some .b8 | 2 => some .b16 | _ => none
def cszBits : CpySz → BitVec 2 | .b4 => 0 | .b8 => 1 | .b16 => 2

def polOf (x : BitVec 2) : Option ViewPol := match x.toNat with | 0 => some .wait | 1 => some .stale | 2 => some .fault | _ => none
def polBits : ViewPol → BitVec 2 | .wait => 0 | .stale => 1 | .fault => 2

def pmOf (x : BitVec 2) : PmOp := match x.toNat with | 0 => .off | 1 => .on | 2 => .clr | _ => .clron
def pmBits : PmOp → BitVec 2 | .off => 0 | .on => 1 | .clr => 2 | .clron => 3
def trOf (x : BitVec 2) : TrMode := match x.toNat with | 0 => .off | 1 => .trace | 2 => .sample | _ => .both
def trBits : TrMode → BitVec 2 | .off => 0 | .trace => 1 | .sample => 2 | .both => 3
/-- k of TRCTL (R362): 10 to 24 when sampling, else 0; A is 0 with `.off`. -/
def trctlOk (m : TrMode) (a : BitVec 8) (k : BitVec 5) : Bool :=
  match m with
  | .off => a = 0 && k = 0
  | .trace => even a && k = 0
  | .sample => even a && 10 ≤ k.toNat && k.toNat ≤ 24
  | .both => even a && 10 ≤ k.toNat && k.toNat ≤ 24

def cinvOf (x : BitVec 2) : Option CinvLvl := match x.toNat with | 1 => some .l1 | 2 => some .rdc | 3 => some .all | _ => none
def cinvBits : CinvLvl → BitVec 2 | .l1 => 1 | .rdc => 2 | .all => 3
def prefOf (x : BitVec 2) : Option PrefLvl := match x.toNat with | 0 => some .l1 | 1 => some .l2 | 2 => some .msc | _ => none
def prefBits : PrefLvl → BitVec 2 | .l1 => 0 | .l2 => 1 | .msc => 2

def gmoviOf (x : BitVec 2) : Option GmoviForm := match x.toNat with | 0 => some .sx | 1 => some .zx | 2 => some .hi | _ => none
def gmoviBits : GmoviForm → BitVec 2 | .sx => 0 | .zx => 1 | .hi => 2
def gshOf (x : BitVec 2) : Option GshOp := match x.toNat with | 0 => some .l | 1 => some .r | 2 => some .ra | _ => none
def gshBits : GshOp → BitVec 2 | .l => 0 | .r => 1 | .ra => 2
def ordOf (x : BitVec 2) : Option DrOrd := match x.toNat with | 0 => some .ord | 1 => some .slot | 2 => some .dense | _ => none
def ordBits : DrOrd → BitVec 2 | .ord => 0 | .slot => 1 | .dense => 2

/-- IM, the immediate and GB of GADD and GMUL (R270). -/
def gsrc9Of (im : Bool) (v : BitVec 9) (gb : GReg) : Option GSrc9 :=
  if im then (if gb = 0 then some (.imm v) else none) else (if v = 0 then some (.reg gb) else none)
def GSrc9.im : GSrc9 → Bool | .reg _ => false | .imm _ => true
def GSrc9.v : GSrc9 → BitVec 9 | .reg _ => 0 | .imm v => v
def GSrc9.gb : GSrc9 → GReg | .reg g => g | .imm _ => 0
/-- IM, the immediate and GB of GSHL and GCMP (R270, R271). -/
def gsrc6Of (im : Bool) (v : BitVec 6) (gb : GReg) : Option GSrc6 :=
  if im then (if gb = 0 then some (.imm v) else none) else (if v = 0 then some (.reg gb) else none)
def GSrc6.im : GSrc6 → Bool | .reg _ => false | .imm _ => true
def GSrc6.v : GSrc6 → BitVec 6 | .reg _ => 0 | .imm v => v
def GSrc6.gb : GSrc6 → GReg | .reg g => g | .imm _ => 0

/-! ## Field classes -/

/-- PRED, DSM, LA and DC of a word. -/
def RWord.head (f : RWord) : Head := ⟨guardOf f.prd, f.dsm, f.la, f.dc⟩
def RWord.imm (f : RWord) : BitVec 16 := f.b ++ f.c
/-- Class A or F, writing a vector register (R41, R43, R44). -/
def RWord.isA (f : RWord) : Bool := f.dsm ≠ 0 && f.la = 0 && f.dc = 6
/-- Not of class L, writing no vector register. -/
def RWord.isP (f : RWord) : Bool := f.dsm = 0 && f.la = 0 && f.dc = 6
/-- Class L, writing a vector register. -/
def RWord.isL (f : RWord) : Bool := f.dsm ≠ 0 && f.dc ≠ 7
/-- Class L, writing no vector register. -/
def RWord.isN (f : RWord) : Bool := f.dsm = 0 && f.la = 0 && f.dc ≠ 7

/-- `some i` when the fields are legal. -/
def req (c : Bool) (i : Instr) : Option Instr := if c then some i else none

/-! ## Families -/

/-- Integer and logic, 0x000 to 0x07F (R92 to R108). The outer `none` is an unassigned code. -/
def decodeInt (f : RWord) (k : KWord) : Option (Option Instr) :=
  let h := f.head
  let sgn := f.md.getLsbD 4
  let wrap := f.md.getLsbD 5
  let mS : Bool := f.md &&& 0x6F = 0
  let mW : Bool := f.md &&& 0x5F = 0
  let mSW : Bool := f.md &&& 0x4F = 0
  let m0 : Bool := f.md = 0
  let mR : Bool := f.md &&& 0x7E = 0
  let c0 : Bool := f.c = 0
  let bc0 : Bool := f.b = 0 && f.c = 0
  match f.opc.toNat with
  | 0x000 => some ((addModOf f.md).bind fun m => req (f.isA && c0) (.iadd h f.d f.a f.b m))
  | 0x040 => some ((addModOf f.md).bind fun m => req f.isA (.iaddImm h f.d f.a f.imm m))
  | 0x001 => some ((addModOf f.md).bind fun m => req (f.isA && c0) (.isub h f.d f.a f.b m))
  | 0x041 => some ((addModOf f.md).bind fun m => req f.isA (.isubImm h f.d f.a f.imm m))
  | 0x002 => some ((ccOf f.md).bind fun m => (psrcOf f.c).bind fun c => req f.isA (.iaddx h f.d f.a f.b c m))
  | 0x003 => some (req (f.isA && bc0 && f.md &&& 0x5F = 0x10) (.ineg h f.d f.a wrap))
  | 0x004 => some (req (f.isA && bc0 && f.md &&& 0x5F = 0x10) (.iabs h f.d f.a wrap))
  | 0x005 => some (req (f.isA && c0 && mS) (.imin h f.d f.a f.b sgn))
  | 0x045 => some (req (f.isA && mS) (.iminImm h f.d f.a f.imm sgn))
  | 0x006 => some (req (f.isA && c0 && mS) (.imax h f.d f.a f.b sgn))
  | 0x046 => some (req (f.isA && mS) (.imaxImm h f.d f.a f.imm sgn))
  | 0x007 => some (req (f.isA && c0 && m0) (.imul h f.d f.a f.b))
  | 0x047 => some (req (f.isA && m0) (.imulImm h f.d f.a f.imm))
  | 0x008 => some (req (f.isA && c0 && mS) (.imulh h f.d f.a f.b sgn))
  | 0x048 => some (req (f.isA && mS) (.imulhImm h f.d f.a f.imm sgn))
  | 0x009 => some (req (f.isA && c0 && mS && even f.d) (.imulw h f.d f.a f.b sgn))
  | 0x00A => some (req (f.isA && m0) (.imad h f.d f.a f.b f.c))
  | 0x00B => some (req (f.isA && mS && even f.d && even f.c) (.imadw h f.d f.a f.b f.c sgn))
  | 0x00C => some (req (f.isL && c0 && mS) (.idiv h f.d f.a f.b sgn))
  | 0x00D => some (req (f.isL && c0 && mS) (.imod h f.d f.a f.b sgn))
  | 0x00E => some (req (f.isA && c0 && m0) (.and h f.d f.a f.b))
  | 0x04E => some (req (f.isA && m0) (.andImm h f.d f.a f.imm))
  | 0x00F => some (req (f.isA && c0 && m0) (.or h f.d f.a f.b))
  | 0x04F => some (req (f.isA && m0) (.orImm h f.d f.a f.imm))
  | 0x010 => some (req (f.isA && c0 && m0) (.xor h f.d f.a f.b))
  | 0x050 => some (req (f.isA && m0) (.xorImm h f.d f.a f.imm))
  | 0x011 => some (req (f.isA && c0 && m0) (.andn h f.d f.a f.b))
  | 0x051 => some (req (f.isA && m0) (.andnImm h f.d f.a f.imm))
  | 0x012 => some (req (f.isA && bc0 && m0) (.not h f.d f.a))
  | 0x013 => some (req f.isA (.lop3 h f.d f.a f.b f.c f.md))
  | 0x014 => some (req f.isA (.lop3Hi h f.d f.a f.b f.c f.md))
  | 0x015 => some (req (f.isA && c0 && mW) (.shl h f.d f.a f.b wrap))
  | 0x055 => some (req (f.isA && mW) (.shlImm h f.d f.a f.imm wrap))
  | 0x016 => some (req (f.isA && c0 && mSW) (.shr h f.d f.a f.b sgn wrap))
  | 0x056 => some (req (f.isA && mSW) (.shrImm h f.d f.a f.imm sgn wrap))
  | 0x017 => some (req (f.isA && f.md &&& 0x5E = 0) (.shf h f.d f.a f.b f.c (f.md.getLsbD 0) wrap))
  | 0x018 => some (req (f.isA && c0 && mR) (.rot h f.d f.a f.b (f.md.getLsbD 0)))
  | 0x058 => some (req (f.isA && mR) (.rotImm h f.d f.a f.imm (f.md.getLsbD 0)))
  | 0x019 => some (req (f.isA && c0 && mS) (.bfx h f.d f.a f.b sgn))
  | 0x01A => some (req (f.isA && m0) (.bfi h f.d f.a f.b f.c))
  | 0x01B => some (req (f.isA && bc0 && m0) (.popc h f.d f.a))
  | 0x01C => some (req (f.isA && bc0 && m0) (.clz h f.d f.a))
  | 0x01D => some (req (f.isA && bc0 && m0) (.ffs h f.d f.a))
  | 0x01E => some (req (f.isA && bc0 && m0) (.brev h f.d f.a))
  | 0x01F => some ((pdstOf f.d).bind fun pd => (cmpOf (f.md.extractLsb' 0 3)).bind fun cm =>
      (combOf (f.md.extractLsb' 5 2) f.c).bind fun cb => req (f.isP && f.md.getLsbD 3 = false) (.icmp h pd f.a f.b cm sgn cb))
  | 0x05F => some ((pdstOf f.d).bind fun pd => (cmpOf (f.md.extractLsb' 0 3)).bind fun cm =>
      req (f.isP && f.md &&& 0x68 = 0) (.icmpImm h pd f.a f.imm cm sgn))
  | 0x020 => some ((psrcOf f.c).bind fun c => req (f.isA && m0) (.isel h f.d f.a f.b c))
  | 0x021 => some (req (f.isA && bc0 && m0) (.mov h f.d f.a))
  | 0x022 =>
      let hk : HeadK := ⟨guardOf k.prd, k.dsm⟩
      some (match k.md.toNat with
        | 0 => req (k.dsm ≠ 0) (.movi hk k.d k.imm .w32)
        | 1 => req (k.dsm ≠ 0 && even k.d) (.movi hk k.d k.imm .sx)
        | 2 => req (k.dsm ≠ 0 && even k.d) (.movi hk k.d k.imm .zx)
        | _ => none)
  | 0x023 => some ((halfOf (f.md.extractLsb' 0 2)).bind fun m =>
      req (f.isA && bc0 && f.md.extractLsb' 2 5 = 0 && f.a.extractLsb' 6 2 = 0 && (m ≠ .pair || even f.d))
        (.movg h f.d (f.a.extractLsb' 0 6) m))
  | 0x024 => some (req (f.isA && c0 && f.md &&& 0x68 = 0 && (f.md.extractLsb' 0 3).toNat ≤ 4 && even f.d && even f.a)
      (.lea h f.d f.a f.b sgn (f.md.extractLsb' 0 3)))
  | 0x064 => some (req (f.isA && f.md &&& 0x68 = 0 && (f.md.extractLsb' 0 3).toNat ≤ 4 && even f.d && even f.a)
      (.leaImm h f.d f.a f.imm sgn (f.md.extractLsb' 0 3)))
  | 0x025 => some (req (f.isA && c0 && m0 && even f.d && even f.a && even f.b) (.add64 h f.d f.a f.b))
  | 0x065 => some (req (f.isA && m0 && even f.d && even f.a) (.add64Imm h f.d f.a f.imm))
  | 0x026 => some (req (f.isA && c0 && m0 && even f.d && even f.a && even f.b) (.sub64 h f.d f.a f.b))
  | 0x027 => some (req (f.isA && c0 && mW && even f.d && even f.a) (.shl64 h f.d f.a f.b wrap))
  | 0x067 => some (req (f.isA && mW && even f.d && even f.a) (.shl64Imm h f.d f.a f.imm wrap))
  | 0x028 => some (req (f.isA && c0 && mSW && even f.d && even f.a) (.shr64 h f.d f.a f.b sgn wrap))
  | 0x068 => some (req (f.isA && mSW && even f.d && even f.a) (.shr64Imm h f.d f.a f.imm sgn wrap))
  | 0x029 => some ((pdstOf f.d).bind fun pd => (cmpOf (f.md.extractLsb' 0 3)).bind fun cm =>
      (combOf (f.md.extractLsb' 5 2) f.c).bind fun cb =>
        req (f.isP && f.md.getLsbD 3 = false && even f.a && even f.b) (.icmp64 h pd f.a f.b cm sgn cb))
  | _ => none

/-- Floating point and conversion, 0x080 to 0x0FF (R118 to R136). -/
def decodeFloat (f : RWord) : Option (Option Instr) :=
  let h := f.head
  let na := f.md.getLsbD 4
  let nb := f.md.getLsbD 5
  let nc := f.md.getLsbD 6
  let bf := f.md.getLsbD 3
  let rnd := rmOf (f.md.extractLsb' 0 2)
  let c0 : Bool := f.c = 0
  let bc0 : Bool := f.b = 0 && f.c = 0
  let mAB : Bool := f.md &&& 0x4C = 0
  let mC : Bool := f.md &&& 0x0C = 0
  let mMin : Bool := f.md &&& 0x4F = 0
  let mT : Bool := f.md &&& 0x6C = 0
  let mN : Bool := f.md &&& 0x6F = 0
  let mH : Bool := f.md &&& 0x44 = 0
  let mHc : Bool := f.md &&& 0x04 = 0
  let mHm : Bool := f.md &&& 0x47 = 0
  let s8 : Bool := f.c.extractLsb' 3 5 = 0
  let fs : FSlot := f.c.extractLsb' 0 3
  match f.opc.toNat with
  | 0x080 => some (req (f.isA && c0 && mAB) (.fadd h f.d f.a f.b na nb rnd))
  | 0x081 => some (req (f.isA && c0 && mAB) (.fsub h f.d f.a f.b na nb rnd))
  | 0x082 => some (req (f.isA && c0 && mAB) (.fmul h f.d f.a f.b na nb rnd))
  | 0x083 => some (req (f.isA && mC) (.ffma h f.d f.a f.b f.c na nb nc rnd))
  | 0x084 => some (req (f.isA && c0 && mMin) (.fmin h f.d f.a f.b na nb))
  | 0x085 => some (req (f.isA && c0 && mMin) (.fmax h f.d f.a f.b na nb))
  | 0x086 => some ((pdstOf f.d).bind fun pd => (combOf (f.md.extractLsb' 5 2) f.c).bind fun cb =>
      req (f.isP && f.md &&& 0x18 = 0) (.fcmp h pd f.a f.b (fcmpOf (f.md.extractLsb' 0 3)) cb))
  | 0x087 => some (req (f.isA && bc0 && mT) (.frnd h f.d f.a na rnd))
  | 0x088 => some (req (f.isA && bc0 && f.md = 0) (.fclass h f.d f.a))
  | 0x089 => some (req (f.isL && bc0 && mT) (.frcp h f.d f.a na rnd))
  | 0x08A => some (req (f.isL && bc0 && mN) (.frsq h f.d f.a na))
  | 0x08B => some (req (f.isL && bc0 && mT) (.fsqrt h f.d f.a na rnd))
  | 0x08C => some (req (f.isL && bc0 && mN) (.fex2 h f.d f.a na))
  | 0x08D => some (req (f.isL && bc0 && mN) (.flg2 h f.d f.a na))
  | 0x08E => some (req (f.isL && bc0 && mN) (.fsin h f.d f.a na))
  | 0x08F => some (req (f.isL && bc0 && mN) (.fcos h f.d f.a na))
  | 0x090 => some (req (f.isA && c0 && mH) (.hadd2 h f.d f.a f.b na nb bf rnd))
  | 0x091 => some (req (f.isA && c0 && mH) (.hmul2 h f.d f.a f.b na nb bf rnd))
  | 0x092 => some (req (f.isA && mHc) (.hfma2 h f.d f.a f.b f.c na nb nc bf rnd))
  | 0x093 => some (req (f.isA && c0 && mHm) (.hmin2 h f.d f.a f.b na nb bf))
  | 0x094 => some (req (f.isA && c0 && mHm) (.hmax2 h f.d f.a f.b na nb bf))
  | 0x095 => some ((pdstOf f.d).bind fun pd => (combOf (f.md.extractLsb' 5 2) f.c).bind fun cb =>
      req (f.isP && f.md.getLsbD 4 = false && pd.extractLsb' 0 1 = 0)
        (.hcmp2 h pd f.a f.b (fcmpOf (f.md.extractLsb' 0 3)) bf cb))
  | 0x096 => some ((fkOf (f.md.extractLsb' 3 2)).bind fun fk =>
      let ik := ikOf (f.md.extractLsb' 5 2)
      let hi := f.md.getLsbD 2
      req (f.isA && bc0 && (!ik.wide || even f.d) && (!hi || fk ≠ .f32)) (.cvtfi h f.d f.a ik fk hi rnd))
  | 0x097 => some ((fkOf (f.md.extractLsb' 3 2)).bind fun fk =>
      let ik := ikOf (f.md.extractLsb' 5 2)
      req (f.isA && bc0 && (!ik.wide || even f.a) && f.md.getLsbD 2 = false) (.cvtif h f.d f.a ik fk rnd))
  | 0x098 => some ((fkOf (f.md.extractLsb' 5 2)).bind fun dk => (fkOf (f.md.extractLsb' 3 2)).bind fun ak =>
      let hi := f.md.getLsbD 2
      req (f.isA && bc0 && (!hi || ak ≠ .f32)) (.cvtff h f.d f.a dk ak hi rnd))
  | 0x099 => some (req (f.isA && s8 && f.md.extractLsb' 1 6 = 0 && (f.md.getLsbD 0 || f.b = 0))
      (.bpq h f.d f.a f.b fs (f.md.getLsbD 0)))
  | 0x09A => some (req (f.isA && s8 && f.b = 0 && f.md = 0) (.bpdq h f.d f.a fs))
  | 0x09B => some (req (f.isA && bc0 && f.md = 0) (.bppk h f.d f.a))
  | 0x09C => some (req (f.isA && s8 && f.b = 0 && f.md = 0) (.bpupk h f.d f.a fs))
  | _ => none

/-- Exchange and predicate, 0x100 to 0x13F (R109 to R115). -/
def decodeExch (f : RWord) : Option (Option Instr) :=
  let h := f.head
  let bc0 : Bool := f.b = 0 && f.c = 0
  match f.opc.toNat with
  | 0x100 => some ((pdstOf f.d).bind fun pd => (psrcOf f.a).bind fun a => (psrcOf f.b).bind fun b =>
      req (f.isP && f.c = 0 && f.md.extractLsb' 4 3 = 0) (.plop h pd a b (f.md.extractLsb' 0 4)))
  | 0x101 => some (
      if f.md = 0 then req (f.isA && f.a = 0 && bc0) (.pmov h (.toV f.d))
      else if f.md = 1 then
        req (f.isP && f.d = 0 && f.b = 0 && f.c.getLsbD 7 = false) (.pmov h (.fromV (f.c.extractLsb' 0 7) f.a))
      else none)
  | 0x102 => some (req (f.isA && f.c = 0 && f.md.extractLsb' 3 4 = 0)
      (.shfl h f.d f.a f.b (shflOf (f.md.extractLsb' 0 2)) (f.md.getLsbD 2)))
  | 0x103 => some (req (f.isA && f.md.extractLsb' 3 4 = 0 && f.imm.extractLsb' 5 11 = 0)
      (.shflImm h f.d f.a (f.imm.extractLsb' 0 5) (shflOf (f.md.extractLsb' 0 2)) (f.md.getLsbD 2)))
  | 0x104 => some ((voteOf (f.md.extractLsb' 0 3)).bind fun m => (psrcOf f.a).bind fun a =>
      req (bc0 && f.md.extractLsb' 3 4 = 0 && (if m.vec then f.isA else f.isP && f.d.extractLsb' 3 5 = 0)) (.vote h f.d m a))
  | 0x105 => some ((matchOf (f.md.extractLsb' 0 2)).bind fun m =>
      req (f.isL && bc0 && f.md.extractLsb' 3 4 = 0 && (!f.md.getLsbD 2 || even f.a)) (.matchV h f.d f.a m (f.md.getLsbD 2)))
  | 0x106 => some ((reduxOf (f.md.extractLsb' 0 3)).bind fun o =>
      req (f.isL && bc0 && f.md &&& 0x48 = 0 && reduxOk o (f.md.getLsbD 4) (f.md.getLsbD 5))
        (.redux h f.d f.a o (f.md.getLsbD 4) (f.md.getLsbD 5)))
  | _ => none

/-- Memory, 0x140 to 0x1BF (R188 to R195). -/
def decodeMem (f : RWord) : Option (Option Instr) :=
  let h := f.head
  let sx := f.md.getLsbD 3
  let sp := f.md.getLsbD 4
  match f.opc.toNat with
  | 0x140 => some ((widthOf (f.md.extractLsb' 0 3)).bind fun w =>
      req (f.isL && f.md.getLsbD 5 = false && (sp || even f.a) && w.regOk f.d && w.sxOk sx)
        (.ld h f.d f.a f.imm w sx (f.md.getLsbD 6) sp))
  | 0x141 => some ((widthOf (f.md.extractLsb' 0 3)).bind fun w =>
      req (f.isN && f.md &&& 0x68 = 0 && (sp || even f.a) && w.regOk f.d) (.st h f.d f.a f.imm w sp))
  | 0x142 => some ((widthOf (f.md.extractLsb' 0 3)).bind fun w =>
      req (f.isL && f.md &&& 0x70 = 0 && even f.a && w.regOk f.d && w.sxOk sx) (.ldk h f.d f.a f.imm w sx))
  | 0x143 => some (req (f.isL && f.md = 0) (.ldl h f.d f.a f.imm))
  | 0x144 => some (req (f.isN && f.md = 0) (.stl h f.d f.a f.imm))
  | 0x145 => some ((indexOf f.c).bind fun (ix, ew) =>
      req (f.isL && f.md &&& 0x7C = 0 && (f.md.getLsbD 1 || even f.a) && ew.regOk f.d && ix.iw.regOk f.b
          && ew.sxOk (f.md.getLsbD 0))
        (.gath h f.d f.a f.b ix ew (f.md.getLsbD 0) (f.md.getLsbD 1)))
  | 0x146 => some ((indexOf f.c).bind fun (ix, ew) =>
      req (f.isN && f.md &&& 0x7D = 0 && (f.md.getLsbD 1 || even f.a) && ew.regOk f.d && ix.iw.regOk f.b)
        (.scat h f.d f.a f.b ix ew (f.md.getLsbD 1)))
  | 0x147 => some ((widthOf (f.md.extractLsb' 0 3)).bind fun w =>
      req (f.isL && f.md &&& 0x70 = 0 && w.regOk f.d && w.sxOk sx) (.ldx h f.d f.a f.imm w sx))
  | 0x148 => some ((widthOf (f.md.extractLsb' 0 3)).bind fun w =>
      req (f.isN && f.md &&& 0x78 = 0 && w.regOk f.d) (.stx h f.d f.a f.imm w))
  | 0x149 => some (req (f.isL && f.md = 0 && even f.a) (.lyld h f.d f.a f.imm))
  | 0x14A => some (req (f.isN && f.md = 0 && f.d = 0 && f.b = 0 && f.c = 0) (.lydrop h f.a))
  | 0x14B => some ((cinvOf (f.md.extractLsb' 0 2)).bind fun l =>
      req (f.isN && f.md.extractLsb' 2 5 = 0 && f.d = 0 && even f.a) (.cinv h f.a f.imm l))
  | 0x14C => some ((prefOf (f.md.extractLsb' 0 2)).bind fun l =>
      req (f.isN && f.md.extractLsb' 2 5 = 0 && f.d = 0 && even f.a) (.pref h f.a f.imm l))
  | 0x14D =>
      let n : BitVec 4 := f.md.extractLsb' 0 4
      some (req (f.isL && f.md.extractLsb' 4 3 = 0 && f.c = 0 && even f.d && even f.a && even f.b
          && 1 ≤ n.toNat && n.toNat ≤ 12) (.twalk h f.d f.a f.b n))
  | _ => none

/-- Atomics and synchronisation, 0x1C0 to 0x1FF (R213 to R227). DSM and LA of ARRIVE `.rp` depend on who issues it, so
they are checked at issue (R219). -/
def decodeSync (f : RWord) : Option (Option Instr) :=
  let h := f.head
  let sem : SemN := f.a.extractLsb' 0 5
  let semOk : Bool := f.a.extractLsb' 5 3 = 0
  let buf : BufN := f.a.extractLsb' 0 6
  let bufOk : Bool := f.a.extractLsb' 6 2 = 0
  let m3 : Bool := f.md.getLsbD 3 = false
  let scope := scopeOf (f.md.extractLsb' 4 3)
  match f.opc.toNat with
  | 0x1C0 =>
      let os : AtomOS := f.md.extractLsb' 3 4
      some (req (f.isL && os ≠ 0xF && (!osGlobal os || even f.a)) (.atom h f.d f.a f.imm os (aopOf (f.md.extractLsb' 0 3))))
  | 0x1C1 =>
      let os : AtomOS := f.md.extractLsb' 2 4
      let w64 := f.md.getLsbD 6
      some (req (f.isL && os ≠ 0xF && (!osGlobal os || even f.a) && f.md.extractLsb' 0 2 = 0
          && (!w64 || (even f.d && even f.b && even f.c))) (.acas h f.d f.a f.b f.c os w64))
  | 0x1C2 =>
      let os : AtomOS := f.md.extractLsb' 3 4
      some (req (f.isN && os ≠ 0xF && (!osGlobal os || even f.a)) (.ared h f.d f.a f.imm os (aopOf (f.md.extractLsb' 0 3))))
  | 0x1C3 => some (scope.bind fun sc =>
      req (f.isP && f.d = 0 && f.a = 0 && f.imm = 0 && f.md.getLsbD 0 = false)
        (.fence h (fkindOf (f.md.extractLsb' 2 2)) (f.md.getLsbD 1) sc))
  | 0x1C4 => some (req (f.isP && f.d = 0 && f.a = 0 && f.md = 0 && f.imm.extractLsb' 6 10 = 0 && f.imm ≠ 0)
      (.pfence h (f.imm.extractLsb' 0 6)))
  | 0x1C5 => some (scope.bind fun sc =>
      req (f.isN && f.d = 0 && semOk && f.md.extractLsb' 0 4 = 0 && sc ≠ .grp) (.semp h sem f.imm sc))
  | 0x1C6 => some (scope.bind fun sc =>
      req (f.isP && f.d = 0 && semOk && f.md.extractLsb' 0 4 = 0 && sc ≠ .grp) (.semw h sem f.imm sc))
  | 0x1C7 => some (req (f.isN && f.d = 0 && semOk && f.md = 0) (.semx h sem f.imm))
  | 0x1C8 => some (scope.bind fun sc =>
      let rp := f.md.getLsbD 3
      req (semOk && f.md.extractLsb' 0 3 = 0 && sc ≠ .grp && f.imm ≠ 0 && f.dc ≠ 7
          && (rp || (f.d = 0 && f.dsm = 0 && f.la = 0))) (.arrive h f.d sem f.imm sc rp))
  | 0x1C9 => some (scope.bind fun sc =>
      let src := f.md.getLsbD 0
      req (f.isP && semOk && f.md.extractLsb' 1 3 = 0 && sc ≠ .grp && f.imm.extractLsb' 1 15 = 0
          && (if src then f.imm = 0 else f.d = 0)) (.waitph h f.d sem (f.imm.getLsbD 0) sc src))
  | 0x1CA => some (scope.bind fun sc =>
      req (f.isN && f.d = 0 && bufOk && m3 && f.md.getLsbD 2 = false && f.imm = 0 && sc ≠ .grp)
        (.bufs h buf (bstOf (f.md.extractLsb' 0 2)) sc))
  | 0x1CB => some (scope.bind fun sc =>
      let ph := f.md.getLsbD 2
      req (f.isP && f.d = 0 && bufOk && m3 && f.imm.extractLsb' 1 15 = 0 && (ph || f.imm = 0) && sc ≠ .grp)
        (.bufw h buf (bstOf (f.md.extractLsb' 0 2)) (if ph then some (f.imm.getLsbD 0) else none) sc))
  | _ => none

/-- Copy, views and work, 0x200 to 0x27F (R239 to R247, R308, R333). -/
def decodeCopy (f : RWord) : Option (Option Instr) :=
  let h := f.head
  let bid : BatchN := f.md.extractLsb' 2 2
  let rel := f.md.getLsbD 6
  let full := f.md.getLsbD 5
  let m4 : Bool := f.md.getLsbD 4 = false
  let m01 : Bool := f.md.extractLsb' 0 2 = 0
  let prio : Option (Option (BitVec 4)) :=
    if f.md.getLsbD 4 then (if f.md = 0x10 then some none else none)
    else if f.md.extractLsb' 5 2 = 0 then some (some (f.md.extractLsb' 0 4)) else none
  match f.opc.toNat with
  | 0x200 =>
      let dir := cdirOf (f.md.extractLsb' 4 2)
      some ((cszOf (f.md.extractLsb' 0 2)).bind fun sz =>
        req (f.isN && f.d = 0 && f.c = 0 && (!dir.srcG || even f.a) && (!dir.dstG || even f.b)) (.cpy h f.a f.b dir bid sz rel))
  | 0x201 => some (req (f.isN && f.d = 0 && m4 && m01) (.cpyl h f.a f.b f.c bid full rel))
  | 0x202 => some (req (f.isN && f.d.extractLsb' 3 5 = 0 && m4 && even f.a)
      (.cpyd h (f.d.extractLsb' 0 3) f.a f.b f.c bid full rel (f.md.extractLsb' 0 2)))
  | 0x203 => some (req (f.isN && f.d = 0 && f.b = 0 && f.c = 0 && f.md.extractLsb' 2 5 = 0 && even f.a)
      (.cbld h f.a (f.md.extractLsb' 0 2)))
  | 0x204 =>
      let cw := f.imm.getLsbD 5
      some (req (f.isN && f.md &&& 0x73 = 0 && even f.a && f.imm.extractLsb' 6 10 = 0 && (cw || f.imm = 0))
        (.cpyc h f.d f.a bid (if cw then some (f.imm.extractLsb' 0 5) else none)))
  | 0x205 => some (req (f.dsm ≠ 0 && f.la = 0 && f.dc = 6 && even f.d && even f.a && f.imm = 0 && f.md = 0) (.crwait h f.d f.a))
  | 0x206 => some (req (f.isN && f.d = 0 && f.md = 0 && f.imm ≠ 0 && even f.a) (.crpop h f.a f.imm))
  | 0x207 => some ((indexOf f.c).bind fun (ix, ew) =>
      req (f.isN && m4 && m01 && even f.a && even f.b && even f.d) (.gathn h f.d f.a f.b ix ew bid full rel))
  | 0x240 => some ((polOf (f.md.extractLsb' 0 2)).bind fun p =>
      req (f.isL && f.md.extractLsb' 2 5 = 0 && f.c = 0 && even f.a && even f.b) (.vreg h f.d f.a f.b p))
  | 0x241 => some (req (f.isN && f.d = 0 && f.imm = 0 && f.md = 0) (.vdrop h f.a))
  | 0x242 =>
      let cur := f.md.getLsbD 0
      some (req (f.isP && f.imm = 0 && f.md.extractLsb' 1 6 = 0 && (if cur then f.d = 0 else even f.d)) (.vsync h f.d f.a cur))
  | 0x243 => some (req (f.isL && f.imm = 0 && f.md.extractLsb' 1 6 = 0 && even f.d) (.vgen h f.d f.a (f.md.getLsbD 0)))
  | 0x244 => some ((polOf (f.md.extractLsb' 0 2)).bind fun p =>
      req (f.isN && f.d = 0 && f.imm = 0 && f.md.extractLsb' 2 5 = 0) (.vpol h f.a p))
  | 0x245 => some (req (f.isL && f.imm = 0 && f.md.extractLsb' 1 6 = 0 && even f.d) (.vstat h f.d f.a (f.md.getLsbD 0)))
  | 0x250 => some (prio.bind fun p => req (f.isN && f.d = 0 && f.c = 0 && even f.a && even f.b) (.spawn h f.a f.b p))
  | 0x251 => some (prio.bind fun p => req (f.isL && even f.d && even f.a && even f.b) (.spawnc h f.d f.a f.b f.c p))
  | 0x252 => some (req (f.isN && f.d = 0 && f.md = 0 && f.imm ≠ 0 && even f.a) (.done h f.a f.imm))
  | 0x253 =>
      let t := f.md.getLsbD 0
      some (req (f.isN && f.md.extractLsb' 1 6 = 0 && f.c = 0 && even f.a && quad f.b && f.d.extractLsb' 3 5 = 0
          && (t || f.d = 0)) (.enq h f.a f.b (if t then some (f.d.extractLsb' 0 3) else none)))
  | 0x254 =>
      let t := f.md.getLsbD 0
      some (req (f.isL && f.md.extractLsb' 1 6 = 0 && f.b = 0 && even f.a && quad f.d && f.c.extractLsb' 3 5 = 0
          && (t || f.c = 0)) (.deq h f.d f.a (if t then some (f.c.extractLsb' 0 3) else none)))
  | 0x255 =>
      let c := f.md.getLsbD 0
      some (req (f.isN && f.md.extractLsb' 1 6 = 0 && f.d = 0 && f.c = 0 && even f.a && (if c then even f.b else f.b = 0))
        (.klaunch h f.a f.b c))
  | _ => none

/-- Control and system, 0x280 to 0x2FF (R155 to R162, R362). -/
def decodeCtl (f : RWord) (k : KWord) : Option (Option Instr) :=
  let h := f.head
  let g := guardOf f.prd
  let hb : HeadB := ⟨guardOf k.prd, k.dsm.getLsbD 3⟩
  let z3 : Bool := k.dsm.extractLsb' 0 3 = 0
  let always : Bool := f.prd = 7
  let selP : Bool := f.isP && f.d = 0 && f.md = 0
  match f.opc.toNat with
  | 0x280 => some (req (z3 && k.d = 0 && k.md = 0) (.bra hb k.imm))
  | 0x281 => some (req (z3 && k.md.extractLsb' 3 3 = 0 && (k.md.extractLsb' 0 3).toNat ≤ 4) (.brx hb k.d k.imm (k.md.extractLsb' 0 3)))
  | 0x282 => some (req (z3 && k.md = 0 && even k.d) (.call hb k.d k.imm))
  | 0x283 => some (req (z3 && k.md = 0 && k.imm = 0 && even k.d) (.callx hb k.d))
  | 0x284 => some (req (z3 && k.md = 0 && k.imm = 0 && even k.d) (.ret hb k.d))
  | 0x285 => some (req (k.dsm = 0 && k.d = 0 && k.imm = 0 && k.md = 0 && always) .join)
  | 0x286 => some (req (k.dsm = 0 && k.d = 0 && k.imm = 0 && k.md = 0) (.exit g))
  | 0x287 => some (req (f.isP && f.d = 0 && f.a = 0 && f.imm = 0 && f.md = 0) (.nop g))
  | 0x288 => some (req (selP && f.a = 0 && f.imm.extractLsb' 12 4 = 0 && f.imm.extractLsb' 0 6 ≠ 0)
      (.waitdc g (f.imm.extractLsb' 0 6) (f.imm.extractLsb' 6 6)))
  | 0x2C0 => some (req (selP && f.a = 0) (.trap g f.imm))
  | 0x2C1 => some (req (selP && f.a = 0 && f.imm = 0) (.tfence g))
  | 0x2C2 => some (req (selP && f.a = 0 && always && f.imm.extractLsb' 9 7 = 0 && f.imm.toNat ≤ 256) (.yield (f.imm.extractLsb' 0 9)))
  | 0x2C3 => some (req (selP && f.a = 0 && f.imm = 0 && always) .rth)
  | 0x2C4 => some ((halfOf (f.md.extractLsb' 0 2)).bind fun m =>
      req (f.isA && f.a = 0 && f.md.extractLsb' 2 5 = 0 && (m ≠ .pair || even f.d)) (.sread h f.d f.imm m))
  | 0x2C5 => some (req (selP && f.a = 0) (.bkpt g f.imm))
  | 0x2E0 =>
      let pair := f.md.getLsbD 1
      some (req (f.isP && f.d = 0 && f.md &&& 0x7D = 0 && (!pair || even f.a)) (.swrite g f.a f.imm pair))
  | 0x2E1 => some (req (f.isN && f.d = 0 && f.imm = 0 && f.md = 0 && even f.a) (.ebset h f.a))
  | 0x2E2 => some (req (f.isN && f.d = 0 && f.imm.extractLsb' 3 13 = 0 && f.md.extractLsb' 2 5 = 0)
      (.pmctl h f.a (f.imm.extractLsb' 0 3) (pmOf (f.md.extractLsb' 0 2))))
  | 0x2E3 =>
      let m := trOf (f.md.extractLsb' 0 2)
      let n : BitVec 5 := f.imm.extractLsb' 0 5
      some (req (f.isN && f.d = 0 && f.imm.extractLsb' 5 11 = 0 && f.md.extractLsb' 2 5 = 0 && trctlOk m f.a n) (.trctl h f.a m n))
  | 0x2E4 => some (req (f.isN && f.d = 0 && f.imm = 0 && f.md = 0 && even f.a) (.ctxsave h f.a))
  | 0x2E5 => some (req (selP && f.a = 0 && always) (.halt f.imm))
  | _ => none

/-- Matrix stream, 0x300 to 0x3FF (R259 to R275, R290 to R295). -/
def decodeMtx (f : RWord) (x : XWord) (k : XKWord) : Option (Option Instr) :=
  let hx : HeadX := ⟨x.tn = 1, x.tq, x.xdc⟩
  let p7 : Bool := x.prd = 7
  let s6 : Bool := p7 && x.xdc = 6
  let sl : Bool := p7 && x.xdc ≠ 7
  let fs0 : Bool := x.fsa = 0 && x.fsb = 0 && x.fsc = 0
  let ea0 : Bool := x.ec = 0 && x.acc = 0
  let u0 : Bool := fs0 && ea0
  let qd : QReg := x.gd.extractLsb' 0 4
  let qdOk : Bool := x.gd.extractLsb' 4 2 = 0 && qd ≠ 15
  let im := x.md.getLsbD 10
  let hk : HeadX := ⟨k.tn = 1, k.tq, k.xdc⟩
  let k6 : Bool := k.prd = 7 && k.xdc = 6
  match f.opc.toNat with
  | 0x300 =>
      let n : BitVec 4 := f.md.extractLsb' 0 4
      let sc := f.md.getLsbD 5
      some (req (f.isN && f.d = 0 && f.c = 0 && f.md.getLsbD 4 = false && 2 ≤ n.toNat && n.toNat ≤ 8 && (sc || f.b = 0))
        (.qbind f.head f.a f.b (f.md.getLsbD 6) sc n))
  | 0x301 => some (req (f.isN && f.d = 0 && f.a = 0 && f.imm = 0 && f.md.extractLsb' 0 6 = 0) (.qrel f.head (f.md.getLsbD 6)))
  | 0x310 => some (req (sl && x.gd = 0 && x.gb = 0 && x.fsc = 0 && x.md.extractLsb' 1 10 = 0)
      (.mma hx x.ga x.fsa x.fsb x.ec x.acc (x.md.getLsbD 0)))
  | 0x311 => some (req (sl && x.gd = 0 && x.gb = 0 && x.fsc = 0 && x.md = 0) (.smma hx x.ga x.fsa x.fsb x.ec x.acc))
  | 0x320 => some (req (s6 && u0 && x.gb = 0 && x.md = 0) (.gmov hx x.gd x.ga))
  | 0x321 => some ((gmoviOf (k.md.extractLsb' 0 2)).bind fun m => req (k6 && k.md.extractLsb' 2 2 = 0) (.gmovi hk k.gd k.imm m))
  | 0x322 => some ((gsrc9Of im (x.md.extractLsb' 0 9) x.gb).bind fun s => req (s6 && u0) (.gadd hx x.gd x.ga s (x.md.getLsbD 9)))
  | 0x323 => some ((gsrc9Of im (x.md.extractLsb' 0 9) x.gb).bind fun s =>
      req (s6 && u0 && x.md.getLsbD 9 = false) (.gmul hx x.gd x.ga s))
  | 0x324 => some ((gsrc6Of im (x.md.extractLsb' 0 6) x.gb).bind fun s => (gshOf (x.md.extractLsb' 8 2)).bind fun o =>
      req (s6 && u0 && x.md.extractLsb' 6 2 = 0) (.gshl hx x.gd x.ga s o))
  | 0x325 => some ((gsrc6Of im (x.md.extractLsb' 0 6) x.gb).bind fun s => (cmpOf (x.md.extractLsb' 6 3)).bind fun c =>
      req (s6 && u0 && qdOk) (.gcmp hx qd x.ga s c (x.md.getLsbD 9)))
  | 0x326 => some (req (sl && u0 && x.gb = 0) (.gld hx x.gd x.ga (x.md.extractLsb' 0 10) im))
  | 0x327 => some (req (k6 && k.gd = 0 && k.md = 0) (.gbra hk k.imm))
  | 0x328 => some (req (k6 && k.md = 0) (.gloop hk k.gd k.imm))
  | 0x329 => some (
      if im then req (s6 && u0 && qdOk && x.gb = 0 && x.md.extractLsb' 6 4 = 0) (.qset hx qd (.bit x.ga (x.md.extractLsb' 0 6)))
      else req (s6 && u0 && qdOk && x.gb = 0 && x.ga = 0 && x.md.extractLsb' 1 9 = 0) (.qset hx qd (.const (x.md.getLsbD 0))))
  | 0x32A => some (req (s6 && u0 && qdOk && x.ga.extractLsb' 4 2 = 0 && x.gb.extractLsb' 4 2 = 0 && x.md.extractLsb' 6 5 = 0)
      (.qlop hx qd (x.ga.extractLsb' 0 4) (x.gb.extractLsb' 0 4) (x.md.getLsbD 5) (x.md.getLsbD 4) (x.md.extractLsb' 0 4)))
  | 0x32B => some (req (s6 && u0 && x.tn = 0 && x.tq = 15 && x.gd = 0 && x.ga = 0 && x.gb = 0 && x.md = 0) .mend)
  | 0x340 => some (
      if im then req (sl && fs0 && x.ec = 0 && x.gd = 0 && x.ga = 0 && x.gb = 0 && x.md.getLsbD 9 = false)
        (.accz hx x.acc (some (x.md.extractLsb' 0 9)))
      else req (sl && fs0 && x.ec = 0 && x.gd = 0 && x.ga = 0 && x.gb = 0 && x.md = 0) (.accz hx x.acc none))
  | 0x341 => some (req (sl && x.fsc = 0 && x.md.extractLsb' 1 10 = 0 && x.gd ≠ x.ga && x.gd ≠ x.gb)
      (.jmac hx x.gd x.ga x.gb x.fsa x.fsb x.ec x.acc (x.md.getLsbD 0)))
  | 0x342 => some (req (sl && x.fsc = 0 && x.fsb = 0 && x.ec = 0 && x.gb = 0 && x.md.extractLsb' 1 10 = 0 && x.gd ≠ x.ga)
      (.jins hx x.gd x.ga x.fsa x.acc (x.md.getLsbD 0)))
  | 0x343 => some (req (sl && fs0 && x.ec = 0 && x.gd = 0 && x.ga = 0 && x.gb = 0 && x.md.extractLsb' 6 5 = 0)
      (.accsp hx x.acc (x.md.extractLsb' 0 6)))
  | 0x344 => some ((ordOf (x.md.extractLsb' 0 2)).bind fun o =>
      req (sl && x.fsb = 0 && x.fsc = 0 && x.ec = 0 && x.gb = 0 && x.md.extractLsb' 4 7 = 0)
        (.accdr hx x.gd x.ga x.fsa x.acc o (x.md.getLsbD 2) (x.md.getLsbD 3)))
  | 0x345 => some (req (s6 && fs0 && x.ec = 0 && x.ga = 0 && x.gb = 0 && x.md = 0) (.acccnt hx x.gd x.acc))
  | _ => none

/-! ## The decoder -/

/-- What a 64-bit word is (R49): an instruction, an assigned code with illegal fields, or an unassigned code. -/
inductive Decoded
  | ok (i : Instr)
  | illegalField
  | illegalOpcode
  deriving DecidableEq, Repr

def Decoded.of : Option (Option Instr) → Decoded
  | some (some i) => .ok i
  | some none => .illegalField
  | none => .illegalOpcode

/-- Decodes an instruction word: checks 1 and the state-independent part of check 3 of R36. -/
def decode (w : DWord) : Decoded :=
  let f := unpackR w
  let o := f.opc.toNat
  if o < 0x080 then .of (decodeInt f (unpackK w))
  else if o < 0x100 then .of (decodeFloat f)
  else if o < 0x140 then .of (decodeExch f)
  else if o < 0x1C0 then .of (decodeMem f)
  else if o < 0x200 then .of (decodeSync f)
  else if o < 0x280 then .of (decodeCopy f)
  else if o < 0x300 then .of (decodeCtl f (unpackK w))
  else .of (decodeMtx f (unpackX w) (unpackXK w))

/-- The Clauses column of R48 for an assigned code: allowed in GEN, LANE, MTX, SYS. -/
def allowedIn (o : Nat) : Bool × Bool × Bool × Bool :=
  if o < 0x140 then (true, true, false, true)
  else if o < 0x1C5 then (true, false, false, true)
  else if o < 0x200 then (true, false, true, true)
  else if o = 0x287 then (true, true, true, true)
  else if o < 0x2E0 then (true, false, false, true)
  else if o < 0x300 then (false, false, false, true)
  else if o < 0x310 then (true, false, false, true)
  else (false, false, true, false)

/-! ## The encoder -/

/-- A word of formats R, I, M, G and S from its head and fields. -/
def encR (o : BitVec 10) (h : Head) (d a b c : BitVec 8) (m : BitVec 7) : DWord :=
  packR ⟨o, guardBits h.guard, h.dsm, d, a, b, c, h.la, h.dc, m⟩
def encI (o : BitVec 10) (h : Head) (d a : BitVec 8) (i : BitVec 16) (m : BitVec 7) : DWord :=
  encR o h d a (i.extractLsb' 8 8) (i.extractLsb' 0 8) m
/-- A word with PRED alone: DSM 0, LA 0, DC 6. -/
def encP (o : BitVec 10) (g : Guard) (a : BitVec 8) (i : BitVec 16) (m : BitVec 7) : DWord :=
  encI o ⟨g, 0, 0, 6⟩ 0 a i m
def encB (o : BitVec 10) (h : HeadB) (ra : BitVec 8) (off : BitVec 32) (m : BitVec 6) : DWord :=
  packK ⟨o, guardBits h.guard, bitB h.u ++ 0#3, ra, off, m⟩
def encX (o : BitVec 10) (x : HeadX) (gd ga gb : GReg) (fsa fsb : FSlot) (ec acc : BitVec 2) (m : BitVec 11) : DWord :=
  packX ⟨o, 7, bitB x.tn, x.tq, gd, ga, gb, fsa, fsb, 0, ec, acc, x.xdc, m⟩
def encXK (o : BitVec 10) (x : HeadX) (gd : GReg) (i : BitVec 32) (m : BitVec 4) : DWord :=
  packXK ⟨o, 7, bitB x.tn, x.tq, gd, i, x.xdc, m⟩

/-- SGN alone, and WRAP with SGN, in their places of MOD (R93). -/
def mSgn (s : Bool) : BitVec 7 := 0#2 ++ bitB s ++ 0#4
def mWrap (w s : Bool) : BitVec 7 := 0#1 ++ bitB w ++ bitB s ++ 0#4
/-- NC, NB, NA, H and RM in their places of MOD (R120). -/
def mF (nc nb na h : Bool) (rnd : Rm) : BitVec 7 := bitB nc ++ bitB nb ++ bitB na ++ bitB h ++ 0#1 ++ rmBits rnd
/-- COMB, SGN and CMP of R104. -/
def mCmp (cb : Option (CombOp × PSrc)) (s : Bool) (c : Cmp) : BitVec 7 := combBits cb ++ bitB s ++ 0#1 ++ cmpBits c
def mLow1 (b : Bool) : BitVec 7 := 0#6 ++ bitB b
/-- REL, FULL, BID and the low two bits of the copy instructions' MOD (R239 to R247). -/
def mCopy (rel full : Bool) (bid : BatchN) (lo : BitVec 2) : BitVec 7 := bitB rel ++ bitB full ++ 0#1 ++ bid ++ lo
/-- INH and N of SPAWN (R333). -/
def mPrio : Option (BitVec 4) → BitVec 7
  | none => 0x10
  | some n => 0#3 ++ n

/-- The word of an instruction; packets and events have none. -/
def encode : Instr → Option DWord
  | .iadd h d a b m => some (encR 0x000 h d a b 0 (addModBits m))
  | .iaddImm h d a i m => some (encI 0x040 h d a i (addModBits m))
  | .isub h d a b m => some (encR 0x001 h d a b 0 (addModBits m))
  | .isubImm h d a i m => some (encI 0x041 h d a i (addModBits m))
  | .iaddx h d a b c m => some (encR 0x002 h d a b (psrcBits c) (ccBits m))
  | .ineg h d a s => some (encR 0x003 h d a 0 0 (mWrap s true))
  | .iabs h d a s => some (encR 0x004 h d a 0 0 (mWrap s true))
  | .imin h d a b s => some (encR 0x005 h d a b 0 (mSgn s))
  | .iminImm h d a i s => some (encI 0x045 h d a i (mSgn s))
  | .imax h d a b s => some (encR 0x006 h d a b 0 (mSgn s))
  | .imaxImm h d a i s => some (encI 0x046 h d a i (mSgn s))
  | .imul h d a b => some (encR 0x007 h d a b 0 0)
  | .imulImm h d a i => some (encI 0x047 h d a i 0)
  | .imulh h d a b s => some (encR 0x008 h d a b 0 (mSgn s))
  | .imulhImm h d a i s => some (encI 0x048 h d a i (mSgn s))
  | .imulw h d a b s => some (encR 0x009 h d a b 0 (mSgn s))
  | .imad h d a b c => some (encR 0x00A h d a b c 0)
  | .imadw h d a b c s => some (encR 0x00B h d a b c (mSgn s))
  | .idiv h d a b s => some (encR 0x00C h d a b 0 (mSgn s))
  | .imod h d a b s => some (encR 0x00D h d a b 0 (mSgn s))
  | .and h d a b => some (encR 0x00E h d a b 0 0)
  | .andImm h d a i => some (encI 0x04E h d a i 0)
  | .or h d a b => some (encR 0x00F h d a b 0 0)
  | .orImm h d a i => some (encI 0x04F h d a i 0)
  | .xor h d a b => some (encR 0x010 h d a b 0 0)
  | .xorImm h d a i => some (encI 0x050 h d a i 0)
  | .andn h d a b => some (encR 0x011 h d a b 0 0)
  | .andnImm h d a i => some (encI 0x051 h d a i 0)
  | .not h d a => some (encR 0x012 h d a 0 0 0)
  | .lop3 h d a b c t => some (encR 0x013 h d a b c t)
  | .lop3Hi h d a b c t => some (encR 0x014 h d a b c t)
  | .shl h d a b w => some (encR 0x015 h d a b 0 (mWrap w false))
  | .shlImm h d a i w => some (encI 0x055 h d a i (mWrap w false))
  | .shr h d a b s w => some (encR 0x016 h d a b 0 (mWrap w s))
  | .shrImm h d a i s w => some (encI 0x056 h d a i (mWrap w s))
  | .shf h d a b c r w => some (encR 0x017 h d a b c (mWrap w false ||| mLow1 r))
  | .rot h d a b r => some (encR 0x018 h d a b 0 (mLow1 r))
  | .rotImm h d a i r => some (encI 0x058 h d a i (mLow1 r))
  | .bfx h d a b s => some (encR 0x019 h d a b 0 (mSgn s))
  | .bfi h d a b c => some (encR 0x01A h d a b c 0)
  | .popc h d a => some (encR 0x01B h d a 0 0 0)
  | .clz h d a => some (encR 0x01C h d a 0 0 0)
  | .ffs h d a => some (encR 0x01D h d a 0 0 0)
  | .brev h d a => some (encR 0x01E h d a 0 0 0)
  | .icmp h p a b c s cb => some (encR 0x01F h (pdstBits p) a b (combC cb) (mCmp cb s c))
  | .icmpImm h p a i c s => some (encI 0x05F h (pdstBits p) a i (mCmp none s c))
  | .isel h d a b c => some (encR 0x020 h d a b (psrcBits c) 0)
  | .mov h d a => some (encR 0x021 h d a 0 0 0)
  | .movi h d i m => some (packK ⟨0x022, guardBits h.guard, h.dsm, d, i, match m with | .w32 => 0 | .sx => 1 | .zx => 2⟩)
  | .movg h d n m => some (encR 0x023 h d (0#2 ++ n) 0 0 (0#5 ++ halfBits m))
  | .lea h d a b s sh => some (encR 0x024 h d a b 0 (0#2 ++ bitB s ++ 0#1 ++ sh))
  | .leaImm h d a i s sh => some (encI 0x064 h d a i (0#2 ++ bitB s ++ 0#1 ++ sh))
  | .add64 h d a b => some (encR 0x025 h d a b 0 0)
  | .add64Imm h d a i => some (encI 0x065 h d a i 0)
  | .sub64 h d a b => some (encR 0x026 h d a b 0 0)
  | .shl64 h d a b w => some (encR 0x027 h d a b 0 (mWrap w false))
  | .shl64Imm h d a i w => some (encI 0x067 h d a i (mWrap w false))
  | .shr64 h d a b s w => some (encR 0x028 h d a b 0 (mWrap w s))
  | .shr64Imm h d a i s w => some (encI 0x068 h d a i (mWrap w s))
  | .icmp64 h p a b c s cb => some (encR 0x029 h (pdstBits p) a b (combC cb) (mCmp cb s c))
  | .fadd h d a b na nb rnd => some (encR 0x080 h d a b 0 (mF false nb na false rnd))
  | .fsub h d a b na nb rnd => some (encR 0x081 h d a b 0 (mF false nb na false rnd))
  | .fmul h d a b na nb rnd => some (encR 0x082 h d a b 0 (mF false nb na false rnd))
  | .ffma h d a b c na nb nc rnd => some (encR 0x083 h d a b c (mF nc nb na false rnd))
  | .fmin h d a b na nb => some (encR 0x084 h d a b 0 (mF false nb na false .rn))
  | .fmax h d a b na nb => some (encR 0x085 h d a b 0 (mF false nb na false .rn))
  | .fcmp h p a b c cb => some (encR 0x086 h (pdstBits p) a b (combC cb) (combBits cb ++ 0#2 ++ fcmpBits c))
  | .frnd h d a na rnd => some (encR 0x087 h d a 0 0 (mF false false na false rnd))
  | .fclass h d a => some (encR 0x088 h d a 0 0 0)
  | .frcp h d a na rnd => some (encR 0x089 h d a 0 0 (mF false false na false rnd))
  | .frsq h d a na => some (encR 0x08A h d a 0 0 (mF false false na false .rn))
  | .fsqrt h d a na rnd => some (encR 0x08B h d a 0 0 (mF false false na false rnd))
  | .fex2 h d a na => some (encR 0x08C h d a 0 0 (mF false false na false .rn))
  | .flg2 h d a na => some (encR 0x08D h d a 0 0 (mF false false na false .rn))
  | .fsin h d a na => some (encR 0x08E h d a 0 0 (mF false false na false .rn))
  | .fcos h d a na => some (encR 0x08F h d a 0 0 (mF false false na false .rn))
  | .hadd2 h d a b na nb bf rnd => some (encR 0x090 h d a b 0 (mF false nb na bf rnd))
  | .hmul2 h d a b na nb bf rnd => some (encR 0x091 h d a b 0 (mF false nb na bf rnd))
  | .hfma2 h d a b c na nb nc bf rnd => some (encR 0x092 h d a b c (mF nc nb na bf rnd))
  | .hmin2 h d a b na nb bf => some (encR 0x093 h d a b 0 (mF false nb na bf .rn))
  | .hmax2 h d a b na nb bf => some (encR 0x094 h d a b 0 (mF false nb na bf .rn))
  | .hcmp2 h p a b c bf cb =>
      some (encR 0x095 h (pdstBits p) a b (combC cb) (combBits cb ++ 0#1 ++ bitB bf ++ fcmpBits c))
  | .cvtfi h d a ik fk hi rnd => some (encR 0x096 h d a 0 0 (ikBits ik ++ fkBits fk ++ bitB hi ++ rmBits rnd))
  | .cvtif h d a ik fk rnd => some (encR 0x097 h d a 0 0 (ikBits ik ++ fkBits fk ++ 0#1 ++ rmBits rnd))
  | .cvtff h d a dk ak hi rnd => some (encR 0x098 h d a 0 0 (fkBits dk ++ fkBits ak ++ bitB hi ++ rmBits rnd))
  | .bpq h d a b fs xs => some (encR 0x099 h d a b (0#5 ++ fs) (mLow1 xs))
  | .bpdq h d a fs => some (encR 0x09A h d a 0 (0#5 ++ fs) 0)
  | .bppk h d a => some (encR 0x09B h d a 0 0 0)
  | .bpupk h d a fs => some (encR 0x09C h d a 0 (0#5 ++ fs) 0)
  | .plop h p a b t => some (encR 0x100 h (pdstBits p) (psrcBits a) (psrcBits b) 0 (0#3 ++ t))
  | .pmov h (.toV d) => some (encR 0x101 h d 0 0 0 0)
  | .pmov h (.fromV m a) => some (encR 0x101 h 0 a 0 (0#1 ++ m) 1)
  | .shfl h d a b m o => some (encR 0x102 h d a b 0 (0#4 ++ bitB o ++ shflBits m))
  | .shflImm h d a i m o => some (encI 0x103 h d a (0#11 ++ i) (0#4 ++ bitB o ++ shflBits m))
  | .vote h d m a => some (encR 0x104 h d (psrcBits a) 0 0 (0#4 ++ voteBits m))
  | .matchV h d a m b => some (encR 0x105 h d a 0 0 (0#4 ++ bitB b ++ matchBits m))
  | .redux h d a o s c => some (encR 0x106 h d a 0 0 (0#1 ++ bitB c ++ bitB s ++ 0#1 ++ reduxBits o))
  | .ld h d a i w sx na sp => some (encI 0x140 h d a i (bitB na ++ 0#1 ++ bitB sp ++ bitB sx ++ widthBits w))
  | .st h d a i w sp => some (encI 0x141 h d a i (0#2 ++ bitB sp ++ 0#1 ++ widthBits w))
  | .ldk h d a i w sx => some (encI 0x142 h d a i (0#3 ++ bitB sx ++ widthBits w))
  | .ldl h d a i => some (encI 0x143 h d a i 0)
  | .stl h d a i => some (encI 0x144 h d a i 0)
  | .gath h d a b ix ew sx sp => some (encR 0x145 h d a b (indexBits ix ew) (0#5 ++ bitB sp ++ bitB sx))
  | .scat h d a b ix ew sp => some (encR 0x146 h d a b (indexBits ix ew) (0#5 ++ bitB sp ++ 0#1))
  | .ldx h d a i w sx => some (encI 0x147 h d a i (0#3 ++ bitB sx ++ widthBits w))
  | .stx h d a i w => some (encI 0x148 h d a i (0#4 ++ widthBits w))
  | .lyld h d a i => some (encI 0x149 h d a i 0)
  | .lydrop h a => some (encR 0x14A h 0 a 0 0 0)
  | .cinv h a i l => some (encI 0x14B h 0 a i (0#5 ++ cinvBits l))
  | .pref h a i l => some (encI 0x14C h 0 a i (0#5 ++ prefBits l))
  | .twalk h d a b n => some (encR 0x14D h d a b 0 (0#3 ++ n))
  | .atom h d a i os op => some (encI 0x1C0 h d a i (os ++ aopBits op))
  | .acas h d a b c os w => some (encR 0x1C1 h d a b c (bitB w ++ os ++ 0#2))
  | .ared h d a i os op => some (encI 0x1C2 h d a i (os ++ aopBits op))
  | .fence h k u s => some (encI 0x1C3 h 0 0 0 (scopeBits s ++ fkindBits k ++ bitB u ++ 0#1))
  | .pfence h m => some (encI 0x1C4 h 0 0 (0#10 ++ m) 0)
  | .semp h s n sc => some (encI 0x1C5 h 0 (0#3 ++ s) n (scopeBits sc ++ 0#4))
  | .semw h s n sc => some (encI 0x1C6 h 0 (0#3 ++ s) n (scopeBits sc ++ 0#4))
  | .semx h s n => some (encI 0x1C7 h 0 (0#3 ++ s) n 0)
  | .arrive h d s n sc rp => some (encI 0x1C8 h d (0#3 ++ s) n (scopeBits sc ++ bitB rp ++ 0#3))
  | .waitph h d s f sc src => some (encI 0x1C9 h d (0#3 ++ s) (0#15 ++ bitB f) (scopeBits sc ++ 0#3 ++ bitB src))
  | .bufs h b st sc => some (encI 0x1CA h 0 (0#2 ++ b) 0 (scopeBits sc ++ 0#2 ++ bstBits st))
  | .bufw h b st ph sc =>
      some (encI 0x1CB h 0 (0#2 ++ b) (0#15 ++ bitB (ph.getD false)) (scopeBits sc ++ 0#1 ++ bitB ph.isSome ++ bstBits st))
  | .cpy h a b dir bid sz rel => some (encR 0x200 h 0 a b 0 (bitB rel ++ cdirBits dir ++ bid ++ cszBits sz))
  | .cpyl h a b c bid full rel => some (encR 0x201 h 0 a b c (mCopy rel full bid 0))
  | .cpyd h fs a b c bid full rel t => some (encR 0x202 h (0#5 ++ fs) a b c (mCopy rel full bid t))
  | .cbld h a t => some (encR 0x203 h 0 a 0 0 (0#5 ++ t))
  | .cpyc h d a bid sem => some (encI 0x204 h d a (0#10 ++ bitB sem.isSome ++ sem.getD 0) (0#3 ++ bid ++ 0#2))
  | .crwait h d a => some (encI 0x205 h d a 0 0)
  | .crpop h a n => some (encI 0x206 h 0 a n 0)
  | .gathn h d a b ix ew bid full rel => some (encR 0x207 h d a b (indexBits ix ew) (mCopy rel full bid 0))
  | .vreg h d a b p => some (encR 0x240 h d a b 0 (0#5 ++ polBits p))
  | .vdrop h a => some (encI 0x241 h 0 a 0 0)
  | .vsync h d a c => some (encI 0x242 h d a 0 (mLow1 c))
  | .vgen h d a v => some (encI 0x243 h d a 0 (mLow1 v))
  | .vpol h a p => some (encI 0x244 h 0 a 0 (0#5 ++ polBits p))
  | .vstat h d a c => some (encI 0x245 h d a 0 (mLow1 c))
  | .spawn h a b p => some (encR 0x250 h 0 a b 0 (mPrio p))
  | .spawnc h d a b c p => some (encR 0x251 h d a b c (mPrio p))
  | .done h a n => some (encI 0x252 h 0 a n 0)
  | .enq h a b t => some (encR 0x253 h (pdstBits (t.getD 0)) a b 0 (mLow1 t.isSome))
  | .deq h d a t => some (encR 0x254 h d a 0 (pdstBits (t.getD 0)) (mLow1 t.isSome))
  | .klaunch h a b c => some (encR 0x255 h 0 a b 0 (mLow1 c))
  | .bra h o => some (encB 0x280 h 0 o 0)
  | .brx h a o sh => some (encB 0x281 h a o (0#3 ++ sh))
  | .call h a o => some (encB 0x282 h a o 0)
  | .callx h a => some (encB 0x283 h a 0 0)
  | .ret h a => some (encB 0x284 h a 0 0)
  | .join => some (encB 0x285 ⟨⟨false, 7⟩, false⟩ 0 0 0)
  | .exit g => some (encB 0x286 ⟨g, false⟩ 0 0 0)
  | .nop g => some (encP 0x287 g 0 0 0)
  | .waitdc g m n => some (encP 0x288 g 0 (0#4 ++ n ++ m) 0)
  | .trap g c => some (encP 0x2C0 g 0 c 0)
  | .tfence g => some (encP 0x2C1 g 0 0 0)
  | .yield n => some (encP 0x2C2 ⟨false, 7⟩ 0 (0#7 ++ n) 0)
  | .rth => some (encP 0x2C3 ⟨false, 7⟩ 0 0 0)
  | .sread h d s m => some (encI 0x2C4 h d 0 s (0#5 ++ halfBits m))
  | .bkpt g c => some (encP 0x2C5 g 0 c 0)
  | .swrite g a s p => some (encP 0x2E0 g a s (0#5 ++ bitB p ++ 0#1))
  | .ebset h a => some (encI 0x2E1 h 0 a 0 0)
  | .pmctl h a n o => some (encI 0x2E2 h 0 a (0#13 ++ n) (0#5 ++ pmBits o))
  | .trctl h a m k => some (encI 0x2E3 h 0 a (0#11 ++ k) (0#5 ++ trBits m))
  | .ctxsave h a => some (encI 0x2E4 h 0 a 0 0)
  | .halt c => some (encP 0x2E5 ⟨false, 7⟩ 0 c 0)
  | .qbind h a b st sc n => some (encR 0x300 h 0 a b 0 (bitB st ++ bitB sc ++ 0#1 ++ n))
  | .qrel h st => some (encR 0x301 h 0 0 0 0 (bitB st ++ 0#6))
  | .mma x ga fa fb ec acc st => some (encX 0x310 x 0 ga 0 fa fb ec acc (0#10 ++ bitB st))
  | .smma x ga fa fb ec acc => some (encX 0x311 x 0 ga 0 fa fb ec acc 0)
  | .gmov x gd ga => some (encX 0x320 x gd ga 0 0 0 0 0 0)
  | .gmovi x gd i m => some (encXK 0x321 x gd i (0#2 ++ gmoviBits m))
  | .gadd x gd ga s sub => some (encX 0x322 x gd ga s.gb 0 0 0 0 (bitB s.im ++ bitB sub ++ s.v))
  | .gmul x gd ga s => some (encX 0x323 x gd ga s.gb 0 0 0 0 (bitB s.im ++ 0#1 ++ s.v))
  | .gshl x gd ga s o => some (encX 0x324 x gd ga s.gb 0 0 0 0 (bitB s.im ++ gshBits o ++ 0#2 ++ s.v))
  | .gcmp x qd ga s c sg => some (encX 0x325 x (0#2 ++ qd) ga s.gb 0 0 0 0 (bitB s.im ++ bitB sg ++ cmpBits c ++ s.v))
  | .gld x gd ga i sp => some (encX 0x326 x gd ga 0 0 0 0 0 (bitB sp ++ i))
  | .gbra x o => some (encXK 0x327 x 0 o 0)
  | .gloop x gd o => some (encXK 0x328 x gd o 0)
  | .qset x qd (.const v) => some (encX 0x329 x (0#2 ++ qd) 0 0 0 0 0 0 (0#10 ++ bitB v))
  | .qset x qd (.bit g n) => some (encX 0x329 x (0#2 ++ qd) g 0 0 0 0 0 (1#1 ++ 0#4 ++ n))
  | .qlop x qd qa qb na nb t =>
      some (encX 0x32A x (0#2 ++ qd) (0#2 ++ qa) (0#2 ++ qb) 0 0 0 0 (0#5 ++ bitB na ++ bitB nb ++ t))
  | .mend => some (encX 0x32B ⟨false, 15, 6⟩ 0 0 0 0 0 0 0 0)
  | .accz x acc none => some (encX 0x340 x 0 0 0 0 0 0 acc 0)
  | .accz x acc (some n) => some (encX 0x340 x 0 0 0 0 0 0 acc (1#1 ++ 0#1 ++ n))
  | .jmac x gd ga gb fa fb ec acc s => some (encX 0x341 x gd ga gb fa fb ec acc (0#10 ++ bitB s))
  | .jins x gd ga fa acc s => some (encX 0x342 x gd ga 0 fa 0 0 acc (0#10 ++ bitB s))
  | .accsp x acc b => some (encX 0x343 x 0 0 0 0 0 0 acc (0#5 ++ b))
  | .accdr x gd ga fa acc o c f => some (encX 0x344 x gd ga 0 fa 0 0 acc (0#7 ++ bitB f ++ bitB c ++ ordBits o))
  | .acccnt x gd acc => some (encX 0x345 x gd 0 0 0 0 0 acc 0)
  | _ => none

/-! ## Words laid out in memory -/

/-- The eight bytes of a word, least significant first (R2). -/
def wordBytes (w : DWord) : List Byte := (List.range 8).map fun i => w.extractLsb' (8 * i) 8

/-- The word of eight bytes. -/
def bytesWord (l : List Byte) : DWord := l.foldr (fun b acc => (acc <<< 8) ||| b.zeroExtend 64) 0

/-- The instruction a table row's bits decode to: one 64-bit word, the bits above `nbits` zero. -/
def decodeTableWord (nbits w : Nat) : Option Instr :=
  match decode (bytesWord (wordBytes (BitVec.ofNat 64 (w % 2 ^ min nbits 64)))) with
  | .ok i => some i
  | .illegalField => none
  | .illegalOpcode => none

end Sys2Proof
end

