-- ==== Sys2Proof/Machine/Fetch.lean ====
section
/-! DEFINITION. The word an issuer issues next, decoded and checked as R36 orders it, and the placing of a word for the next
step. -/

namespace Sys2Proof.Machine

/-- What the next word of an issuer is: an instruction to run, or a state the machine is already in (a trap, or nothing). -/
inductive Fetched
  | word (i : Instr)
  | state (s : State)

/-- The current word of a fetched clause. -/
def wordOf (c : Option Clause) (wix : Nat) : Option DWord := c.bind fun c => c.words[wix]?

/-- Check 2 of R36 on the opcode itself, for a group. -/
def opcodeClass (g : Group) (w : DWord) : Bool :=
  let o := (w.extractLsb' 54 10).toNat
  let a := allowedIn o
  (match g.clause with
   | none => false
   | some c => match c.cls with
     | .gen => a.1
     | .lane => a.2.1
     | .mtx => false
     | .sys => a.2.2.2)
  && (o ≠ 0x2C3 || g.handler)

/-- A group's next word (R36). -/
def fetchGroup (s : State) (t k : Nat) : Fetched :=
  match siteOf s t k ⟨false, 7⟩ with
  | none => .state s
  | some x =>
    if !canIssue s x then .state s
    else match wordOf x.g.clause x.g.wix with
      | none => .state s
      | some w =>
        let trap := fun c =>
          Fetched.state (trapGroup s t k { cause := c, lanes := memberLanes x.g } (memberLanes x.g) (hpcWord x.g.pc x.g.wix))
        match decode w with
        | .illegalOpcode => trap 1
        | .illegalField => if opcodeClass x.g w then trap 2 else trap 4
        | .ok i => if opcodeClass x.g w then .word i else trap 4

/-- The sequencer's next word: the same checks, as sequencer traps (R255). -/
def fetchSeq (s : State) (t : Nat) : Fetched :=
  match ssiteOf s t with
  | none => .state s
  | some x =>
    if !canIssueSeq s x then .state s
    else match wordOf x.q.clause x.q.wix with
      | none => .state s
      | some w =>
        let trap := fun c => Fetched.state (trapSeq s t c (hpcWord x.q.pc x.q.wix) 0 0)
        let cls := (allowedIn (w.extractLsb' 54 10).toNat).2.2.1
        match decode w with
        | .illegalOpcode => trap 1
        | .illegalField => if cls then trap 2 else trap 4
        | .ok i => if cls then .word i else trap 4

/-! ## Placing a word for the next step (log 3) -/

/-- A leaf entry that permits everything, and an entry that points to a table. -/
def leafPte (pa : Nat) : DWord := BitVec.ofNat 64 (0xF + pa + 0x3F * 2 ^ 58)
def tablePte (pa : Nat) : DWord := BitVec.ofNat 64 (1 + pa)

/-- The placed program's page tables: addresses 0 to 0xFFFF lie at physical 0x10000. -/
def placedTables (m : List Host.Cell) : List Host.Cell :=
  let put := fun m a (e : DWord) => memSets m a (natLe 8 e.toNat)
  put (put (put (put m 0x20000 (tablePte 0x30000)) 0x30000 (tablePte 0x31000)) 0x31000 (tablePte 0x32000)) 0x32000
    (leafPte 0x10000)

/-- The placed word's clause: one word, at address 0x8000. -/
def placedClause (cls : Cls) (w : DWord) : Clause :=
  { addr := 0x8000, cls := cls, waitz := 0, prio := 0, yp := false, words := [w] }

def clsCode : Cls → Nat | .gen => 0 | .lane => 1 | .mtx => 2 | .sys => 3

def placedThread : Thread :=
  { role := .vector, live := true, regBase := 0, regs := [], tags := [], preds := 0, dc := [], fflags := 0, late := [], pend := [],
    saveN := none, mark := false }

def placedLrec : LaunchRec :=
  { (default : LaunchRec) with
      entry := 0x8000, htvec := 0x9000, threads := 32, gridX := 1, gridY := 1, gridZ := 1,
      priv := true, tcl := 1, budV := 256, budC := 256, budM := 256, smin := 65536, smax := 65536 }

/-- The context, partition, grid and team that a placed word runs in. -/
def placedCtx : Context :=
  { (default : Context) with ptroot := 0x20000, htvec := 0x9000 }
def placedGroup (cls : Cls) (w : DWord) (handler : Bool) : Group :=
  { (default : Group) with
    members := (List.range 32).map fun l => (l, l), pc := 0x8000, clause := some (placedClause cls w), handler := handler,
    hpc := hpcClause 0x8000 }
def placedSeq (w : DWord) : Seq :=
  { (default : Seq) with pc := 0x8000, clause := some (placedClause .mtx w) }
def placedTeam (core : Nat) (role : Role) (seq : Bool) (cls : Cls) (w : DWord) (handler : Bool) : Team :=
  { (default : Team) with
    grid := 1, ctx := 0, core := core, nthr := 32, home := 1, budM := 256, budC := 256, budV := 256,
    slotPart := [0], slotPhys := [0], freeAt := [0],
    groups := if seq then [] else [(0, placedGroup cls w handler)],
    threads := (List.range 32).map fun i => (i, { placedThread with role := role }),
    spsize := 65536, htvec := 0x9000, seq := if seq then some (placedSeq w) else none }

/-- Builds around a word what its issue needs: its clause, a team on core 0, its grid and context, and its turn. -/
def placeWord (s : State) (w : DWord) : State :=
  let o := (w.extractLsb' 54 10).toNat
  let a := allowedIn o
  let seq := a.2.2.1 && !a.1
  let role := if o = 0x300 || o = 0x301 then Role.matrix else Role.vector
  let cls := if seq then Cls.mtx else if a.1 then Cls.gen else Cls.sys
  let hdr := clsCode cls * 2 ^ 61
  { s with
    mem := memSets (placedTables s.mem) 0x18000 (natLe 8 hdr ++ natLe 8 w.toNat),
    contexts := sset s.contexts 0 placedCtx,
    parts := sset s.parts 0 { (default : Partition) with clusters := [0] },
    grids := sset s.grids 1 { (default : Grid) with ctx := 0, lrec := placedLrec, written := 1 },
    teams := sset s.teams s.nextTeam (placedTeam 0 role seq cls w (o = 0x2C3)),
    nextTeam := s.nextTeam + 1,
    issuer := some (if seq then .seq s.nextTeam else .group s.nextTeam 0) }

end Sys2Proof.Machine
end

