-- ==== Sys2Proof/Machine/Sync.lean ====
section
/-! DEFINITION. Semaphores and buffer states, 0x1C5 to 0x1CB (R218 to R228), for groups and for the sequencer, and the ends
of their waits. -/

namespace Sys2Proof.Machine

/-! ## Waiting words -/

/-- The instruction a group or the sequencer stands at. -/
def curInstr (c : Option Clause) (wix : Nat) : Option Instr :=
  match wordOf c wix with
  | none => none
  | some w => match decode w with
    | .ok i => some i
    | .illegalField => none
    | .illegalOpcode => none

/-- The lowest active lane, which gives a group-level word its operands (R231). -/
def Site.lead (x : Site) : Nat := x.act.headD 0

/-- A group's site for the word it waits at. -/
def waitSite (s : State) (t k : Nat) (gd : Guard) : Option Site := siteOf s t k gd

/-- Notes that a condition has held for the waiting groups and the waiting sequencer that it serves. -/
def noteSeen (s : State) (t : Nat) (serves : Option Nat → Instr → Bool) : State :=
  modTeam s t fun tm =>
    { tm with
      groups := tm.groups.map fun e =>
        if e.2.status = .waiting && ((curInstr e.2.clause e.2.wix).map (serves (some e.1))).getD false then
          (e.1, { e.2 with seen := true })
        else e,
      seq := tm.seq.map fun q =>
        if q.status = .waiting && ((curInstr q.clause q.wix).map (serves none)).getD false then { q with seen := true } else q }

def clearSeen (s : State) (t k : Nat) : State := modTeam s t fun tm => modGroup tm k fun g => { g with seen := false }
def clearSeenSeq (s : State) (t : Nat) : State := modSeq s t fun q => { q with seen := false }

/-- The condition of a group's wait has held since it began; a deterministic team's group looks at its turns only (R354). -/
def heldSeen (x : Site) : Bool := x.g.seen && !x.lr.determ

/-- A later try of a word is no issue of it: the group keeps the cycle of its last one (R152). -/
def keepIssue (t k cyc : Nat) (s : State) : State := modTeam s t fun tm => modGroup tm k fun g => { g with lastIssue := cyc }

/-- Tries a waiting word again; what does not hold yet waits on. -/
def reissue (i : Issuer) (f : State → State) (s : State) : State :=
  match i with
  | .group t k =>
    match sget s.teams t with
    | none => s
    | some tm =>
      match sget tm.groups k with
      | none => s
      | some g =>
        let s1 := modTeam s t fun tm => modGroup tm k fun g => { g with status := .ready }
        let ok := match siteOf s1 t k ⟨false, 7⟩ with | some x => canIssue s1 x | none => false
        if g.status = .waiting && ok then keepIssue t k g.lastIssue { f { s1 with issuer := some i } with issuer := s.issuer } else s
  | .seq t =>
    match ssiteOf s t with
    | none => s
    | some x =>
      let s1 := modSeq s t fun q => { q with status := .ready }
      let ok := match ssiteOf s1 t with | some y => canIssueSeq s1 y | none => false
      if x.q.status = .waiting && ok then { f { s1 with issuer := some i } with issuer := s.issuer } else s
  | .packet _ => s

/-! ## Semaphores (R218 to R224) -/

def semOf (tm : Team) (n : SemN) : Sem := sgetD tm.sems n.toNat default
def setSem (s : State) (t : Nat) (n : SemN) (f : Sem → Sem) : State :=
  modTeam s t fun tm => { tm with sems := sset tm.sems n.toNat (f (semOf tm n)) }

/-- SEMP's and SEMX's event. -/
def semPost (n : Nat) (m : Sem) : Sem :=
  { m with count := min (m.count + n) 65535, ovf := m.ovf || 65535 < m.count + n }

/-- ARRIVE's event. -/
def semArrive (n : Nat) (m : Sem) : Sem :=
  if n < m.count then { m with count := m.count - n }
  else { m with unf := m.unf || m.count < n, phase := !m.phase, count := m.reload }

/-- SEMW may take n now: it is first in the semaphore's order, and the count reaches (R221). -/
def semwReady (m : Sem) (me : Waiter) (n : Nat) : Bool :=
  n ≤ m.count && (match m.waiters with | [] => true | w :: _ => w = me)

def semTake (me : Waiter) (n : Nat) (m : Sem) : Sem := { m with count := m.count - n, waiters := m.waiters.filter (· ≠ me) }
def semQueue (me : Waiter) (m : Sem) : Sem := if m.waiters.contains me then m else { m with waiters := m.waiters ++ [me] }

/-- The φ a group's WAITPH waits against. -/
def phiOf (s : State) (x : Site) (d : VReg) (phi src : Bool) : Bool :=
  if src then ((x.view s).r x.lead d).getLsbD 0 else phi
def phiSeq (x : SSite) (d : VReg) (phi src : Bool) : Bool := if src then (gRead x.tm d.toNat).getLsbD 0 else phi

/-- Notes the WAITPH waiters that a semaphore's present phase satisfies. -/
def notePhase (s : State) (t : Nat) (n : SemN) : State :=
  match sget s.teams t with
  | none => s
  | some tm =>
    let phase := (semOf tm n).phase
    noteSeen s t fun k i => match i with
      | .waitph h d m phi _ src =>
        m = n && phase ≠ (match k with
          | some k => match waitSite s t k h.guard with
            | some x => phiOf s x d phi src
            | none => phase
          | none => match ssiteOf s t with
            | some x => phiSeq x d phi src
            | none => phase)
      | _ => false

/-- What a synchronising word of a group asks. -/
def syncReq (h : Head) (regs : List (Nat × Nat)) (dsm : Bool) : Req :=
  { guard := h.guard, engine := .sync, regs := regs, dc := h.dc.toNat, ok := fun _ => !dsm || h.dsm ≠ 0 }

/-- What one of the sequencer asks: PRED, DSM and LA as the sequencer must carry them (R35, R219), the g register named. -/
def syncSReq (h : Head) (d : VReg) : SReq :=
  { dc := h.dc.toNat, gs := [d.toNat], ok := fun _ => h.guard = ⟨false, 7⟩ && h.dsm = 0 && h.la = 0 && d.toNat < 64 }

/-- A group-level word that posts an event of class L: nothing is performed without an active member (R231). `rel` is the
scope it releases at. -/
def postGroup (h : Head) (rel : Option Scope) (event : Site → State → State) (outs : Site → List LaneOut) (x : Site)
    (s : State) : Res :=
  if x.act = [] then .retire (openLong s x h (groupOp x h.dc .plain) [])
  else match (match rel with | some sc => releaseBy s x sc | none => .ok s) with
    | .error t => .trap t
    | .ok s =>
      let s := event x s
      let s := match rel with | some sc => releaseFork s x.t x.tids sc | none => s
      .retire (openLong s x h (groupOp x h.dc .plain) (outs x))

/-- A word that the sequencer posts. -/
def postSeq (h : Head) (rel : Option Scope) (event : SSite → State → State) (x : SSite) (s : State) : SRes :=
  let s := event x (match rel with | some sc => releaseSeq s x sc | none => s)
  let s := match rel with | some sc => releaseForkSeq s x.t sc | none => s
  .retire (openSeq s x.t h.dc.toNat .plain)

/-- Issues a word that groups and the sequencer share. -/
def issueBoth (r : Req) (g : Site → State → Res) (q : SReq) (f : SSite → State → SRes) (s : State) : State :=
  match s.issuer with
  | some (.seq _) => issueSeq q f s
  | _ => issue r g s

/-- SEMP. -/
def execSemp (h : Head) (sem : SemN) (n : BitVec 16) (scope : Scope) (s : State) : Out :=
  .next (issueBoth (syncReq h [] false)
    (postGroup h (some scope) (fun x s => setSem s x.t sem (semPost n.toNat)) (fun _ => []))
    (syncSReq h 0) (postSeq h (some scope) fun x s => setSem s x.t sem (semPost n.toNat)) s)

/-- SEMX: no release; every step has a cycle of its own, so its count joins after the cycle's other events (log 6). -/
def execSemx (h : Head) (sem : SemN) (n : BitVec 16) (s : State) : Out :=
  .next (issueBoth (syncReq h [] false)
    (postGroup h none (fun x s => setSem s x.t sem (semPost n.toNat)) (fun _ => []))
    (syncSReq h 0) (postSeq h none fun x s => setSem s x.t sem (semPost n.toNat)) s)

/-- ARRIVE: with `.rp` the old phase goes to every active thread, or to gD. -/
def execArrive (h : Head) (d : VReg) (sem : SemN) (n : BitVec 16) (scope : Scope) (rp : Bool) (s : State) : Out :=
  let event := fun t (s : State) => notePhase (setSem s t sem (semArrive n.toNat)) t sem
  let old := fun (tm : Team) => (semOf tm sem).phase
  .next (issueBoth (syncReq h (if rp then one [d] else []) rp)
    (postGroup h (some scope) (fun x s => event x.t s)
      (fun x => if rp then x.act.map fun l => out1 l d (BitVec.ofNat 32 (old x.tm).toNat) else []))
    (syncSReq h d) (postSeq h (some scope) fun x s =>
      let s := event x.t s
      if rp then gWrite s x.t d.toNat (BitVec.ofNat 64 (old x.tm).toNat) else s) s)

/-- SEMW's issue, and its later tries. -/
def semwIssue (h : Head) (sem : SemN) (n : BitVec 16) (scope : Scope) (s : State) : State :=
  issueBoth (syncReq h [] false)
    (fun x s =>
      if x.act = [] then .retire s
      else if semwReady (semOf x.tm sem) (some x.k) n.toNat then
        .retire (acquireBy (setSem s x.t sem (semTake (some x.k) n.toNat)) x scope)
      else .wait (setSem s x.t sem (semQueue (some x.k))))
    (syncSReq h 0)
    (fun x s =>
      if semwReady (semOf x.tm sem) none n.toNat then
        .retire (acquireSeq (setSem s x.t sem (semTake none n.toNat)) x scope)
      else .wait (setSem s x.t sem (semQueue none))) s

/-- SEMW. -/
def execSemw (h : Head) (sem : SemN) (n : BitVec 16) (scope : Scope) (s : State) : Out := .next (semwIssue h sem n scope s)

/-- WAITPH's issue, and its later tries. -/
def waitphIssue (h : Head) (d : VReg) (sem : SemN) (phi : Bool) (scope : Scope) (src : Bool) (s : State) : State :=
  issueBoth (syncReq h (if src then one [d] else []) false)
    (fun x s =>
      if x.act = [] then .retire s
      else if heldSeen x || (semOf x.tm sem).phase ≠ phiOf s x d phi src then
        .retire (acquireBy (clearSeen s x.t x.k) x scope)
      else .wait s)
    (syncSReq h d)
    (fun x s =>
      if x.q.seen || (semOf x.tm sem).phase ≠ phiSeq x d phi src then
        .retire (acquireSeq (clearSeenSeq s x.t) x scope)
      else .wait s) s

/-- WAITPH. -/
def execWaitph (h : Head) (d : VReg) (sem : SemN) (phi : Bool) (scope : Scope) (src : Bool) (s : State) : Out :=
  .next (waitphIssue h d sem phi scope src s)

/-! ## Buffer states (R178, R179, R225 to R228) -/

/-- The transitions BUFS performs (R178). -/
def bufStep : BufState → BufState → Bool
  | .empty, .filling => true
  | .filling, .full => true
  | .full, .draining => true
  | .draining, .empty => true
  | .empty, .empty => false | .empty, .full => false | .empty, .draining => false
  | .filling, .empty => false | .filling, .filling => false | .filling, .draining => false
  | .full, .empty => false | .full, .filling => false | .full, .full => false
  | .draining, .filling => false | .draining, .full => false | .draining, .draining => false

/-- A buffer; an undeclared one covers no bytes, and is EMPTY with phase 0 at placement like any other (R176). -/
def bufOf (tm : Team) (n : Nat) : Buf := sgetD tm.bufs n default
def modBuf (tm : Team) (n : Nat) (f : Buf → Buf) : Team := { tm with bufs := sset tm.bufs n (f (bufOf tm n)) }

/-- The last requested state (R226). -/
def bufLast (b : Buf) : BufState := (b.reqs.getLast?.map (·.target)).getD b.state

/-- A scratchpad offset of a destination or a source of a move lies in a range. -/
def dstIn (lo n : Nat) : ByteDst → Bool | .sp o => lo ≤ o && o < lo + n | .home _ => false | .fab _ => false
def srcIn (lo n : Nat) : ByteSrc → Bool
  | .sp o => lo ≤ o && o < lo + n
  | .home _ => false | .const _ => false | .mix .. => false | .fab _ => false | .fabMix .. => false

/-- An operation still has engine writes to do into a scratchpad range. -/
def kindWrites (lo n : Nat) : OpKind → Bool
  | .copy _ _ elems out => (elems.any fun e => e.moves.any fun m => dstIn lo n m.dst) || out.any fun o => dstIn lo n o.1
  | .expand _ _ dst k _ _ _ _ => dst < lo + n && lo < dst + 32 * k
  | .awl _ _ a => a.dst < lo + n && lo < a.dst + (a.n * ewBytes a.ew + 63) / 64 * 64
  | .drain _ _ bytes _ => bytes.any fun b => lo ≤ b.1 && b.1 < lo + n
  | .plain | .load .. | .flags .. | .cbld .. | .batch .. | .bufs .. | .stage .. | .matrix .. | .gload .. | .vpol .. | .spawn .. | .klaunch ..
  | .crpop .. | .bank .. | .ctxsave .. => false

/-- An operation still has engine reads to do of a buffer. -/
def kindReads (buf lo n : Nat) : OpKind → Bool
  | .copy _ _ elems _ => elems.any fun e => e.moves.any fun m => srcIn lo n m.src
  | .matrix _ _ b _ _ => b = buf
  | .plain | .load .. | .flags .. | .expand .. | .awl .. | .cbld .. | .drain .. | .batch .. | .bufs .. | .stage .. | .gload .. | .vpol ..
  | .spawn .. | .klaunch .. | .crpop .. | .bank .. | .ctxsave .. => false

/-- The operations of a team that a transition out of a state waits for (R179). -/
def bufWaits (s : State) (t n : Nat) (b : Buf) (from_ : BufState) : List Nat :=
  (s.ops.filter fun e => e.2.team = t && (match from_ with
    | .filling => kindWrites b.off b.size e.2.kind
    | .draining => kindReads n b.off b.size e.2.kind
    | .empty => false
    | .full => false)).map Prod.fst

/-- Notes the BUFW waiters that a buffer's present state satisfies (R227). -/
def noteBuf (s : State) (t n : Nat) : State :=
  match sget s.teams t with
  | none => s
  | some tm =>
    let b := bufOf tm n
    noteSeen s t fun _ i => match i with
      | .bufw _ m st ph _ => m.toNat = n && st = b.state && (match ph with | none => true | some p => p = b.phase)
      | _ => false

/-- A buffer takes a state; the phase toggles at each return to EMPTY (R178). -/
def bufTo (s : State) (t n : Nat) (st : BufState) : State :=
  noteBuf (modTeam s t fun tm => modBuf tm n fun b =>
    { b with state := st, phase := if b.state = .draining && st = .empty then !b.phase else b.phase }) t n

/-- Accepts a request: the buffer's order of requests, and the operation that completes with it. -/
def bufRequest (s : State) (t n : Nat) (target : BufState) (scope : Scope) (tids : Option (List Nat)) : State :=
  modTeam s t fun tm => modBuf tm n fun b =>
    { b with reqs := b.reqs ++
      [{ target := target, waits := bufWaits s t n b (bufLast b), op := s.nextOp, scope := scope, tids := tids }] }

/-- A request takes effect: the transition, the operation's end, the fork and the acquire of BUFS (R202, R226, R301). -/
def bufEffect (team buf core : Nat) (r : BufReq) (s : State) : State :=
  let s := completeOp (bufTo s team buf r.target) r.op
  let s := match r.tids with
    | some tids => releaseFork s team tids r.scope
    | none => releaseForkSeq s team r.scope
  acquireFor s team core ((r.tids.map tidsOf).getD [none]) r.scope

/-- What a request waits for has ended: the operation has completed, or it is a matrix instruction whose reads of A have ended,
at some moment before its completion (R265). -/
def waitOver (s : State) (n : Nat) : Bool :=
  match sget s.ops n with
  | none => true
  | some o => match o.kind with
    | .matrix .. => Config.freeBit s.freeCtr (2 ^ 50 + n)
    | .plain | .load .. | .flags .. | .copy .. | .expand .. | .awl .. | .cbld .. | .batch .. | .bufs .. | .stage .. | .drain ..
    | .gload .. | .vpol .. | .spawn .. | .klaunch .. | .crpop .. | .bank .. | .ctxsave .. => false

/-- The oldest request of a buffer takes effect, if all that it waits for has ended (R179, R226). -/
def bufAdvance (s : State) (team buf : Nat) : Option State :=
  match sget s.teams team with
  | none => none
  | some tm =>
    match (bufOf tm buf).reqs with
    | [] => none
    | r :: rest =>
      if r.waits.any fun n => !waitOver s n then none
      else some (bufEffect team buf tm.core r (modTeam s team fun tm => modBuf tm buf fun b => { b with reqs := rest }))

/-- Up to n requests of a buffer take effect, in order. -/
def bufSteps (team buf : Nat) : Nat → State → State
  | 0, s => s
  | n + 1, s => match bufAdvance s team buf with
    | none => s
    | some s => bufSteps team buf n s

/-- The requests of a buffer that wait for nothing take effect (R226, log 43). -/
def bufRun (team buf : Nat) (s : State) : State :=
  bufSteps team buf (((sget s.teams team).map fun tm => (bufOf tm buf).reqs.length).getD 0) s

/-- R178 lists the transition that a BUFS requests. -/
def bufsOk (tm : Team) (n : Nat) (target : BufState) : Bool := bufStep (bufLast (bufOf tm n)) target

def bufsInfo : Word := BitVec.ofNat 32 (6 * 2 ^ 20)

/-- BUFS. -/
def execBufs (h : Head) (buf : BufN) (st : BufState) (scope : Scope) (s : State) : Out :=
  .next (issueBoth (syncReq h [] false)
    (fun x s =>
      if x.act = [] then .retire (openLong s x h (groupOp x h.dc .plain) [])
      else if !bufsOk x.tm buf.toNat st then
        .trap { cause := 0x16, lanes := x.act, addr := buf.zeroExtend 64, info := bufsInfo }
      else match releaseBy s x scope with
        | .error t => .trap t
        | .ok s =>
          let s := bufRequest s x.t buf.toNat st scope (some x.tids)
          .retire (bufRun x.t buf.toNat (openLong s x h (groupOp x h.dc (.bufs buf.toNat)) [])))
    (syncSReq h 0)
    (fun x s =>
      if !bufsOk x.tm buf.toNat st then .trap 0x16 (buf.zeroExtend 64) bufsInfo
      else
        let s := bufRequest (releaseSeq s x scope) x.t buf.toNat st scope none
        .retire (bufRun x.t buf.toNat (openSeq s x.t h.dc.toNat (.bufs buf.toNat)))) s)

/-- BUFW's condition (R227). -/
def bufwMet (tm : Team) (buf : BufN) (st : BufState) (ph : Option Bool) : Bool :=
  let b := bufOf tm buf.toNat
  b.state = st && (match ph with | none => true | some p => p = b.phase)

/-- BUFW's issue, and its later tries. -/
def bufwIssue (h : Head) (buf : BufN) (st : BufState) (ph : Option Bool) (scope : Scope) (s : State) : State :=
  issueBoth (syncReq h [] false)
    (fun x s =>
      if x.act = [] then .retire s
      else if heldSeen x || bufwMet x.tm buf st ph then .retire (acquireBy (clearSeen s x.t x.k) x scope)
      else .wait s)
    (syncSReq h 0)
    (fun x s =>
      if x.q.seen || bufwMet x.tm buf st ph then .retire (acquireSeq (clearSeenSeq s x.t) x scope)
      else .wait s) s

/-- BUFW. -/
def execBufw (h : Head) (buf : BufN) (st : BufState) (ph : Option Bool) (scope : Scope) (s : State) : Out :=
  .next (bufwIssue h buf st ph scope s)

/-! ## Events -/

/-- The current instruction of an issuer. -/
def issuerInstr (s : State) : Issuer → Option Instr
  | .group t k => ((sget s.teams t).bind fun tm => sget tm.groups k).bind fun g => curInstr g.clause g.wix
  | .seq t => ((sget s.teams t).bind (·.seq)).bind fun q => curInstr q.clause q.wix
  | .packet _ => none

/-- A group of a deterministic team tests its wait at its turns only (R399). -/
def turnsOnly (s : State) : Issuer → Bool
  | .group t _ => match sget s.teams t with
    | none => false
    | some tm => (lrecOf s tm).determ
  | .seq _ => false
  | .packet _ => false

/-- BUFFER_TRANSITION: the requests of a buffer that no longer wait take effect, in order. -/
def execBufferTransition (team buf : Nat) (s : State) : Out := .next (bufRun team buf s)

/-- Tries a waiting SEMW or WAITPH again. -/
def semRetry (i : Issuer) (s : State) : State :=
  match issuerInstr s i with
  | some (.semw h sem n sc) => reissue i (semwIssue h sem n sc) s
  | some (.waitph h d sem phi sc src) => reissue i (waitphIssue h d sem phi sc src) s
  | _ => s

/-- A SEMW or WAITPH whose condition holds completes (R220, R221). -/
def execSemaphoreWaitRelease (i : Issuer) (s : State) : Out := .next (if turnsOnly s i then s else semRetry i s)

/-- Tries a waiting BUFW again. -/
def bufwRetry (i : Issuer) (s : State) : State :=
  match issuerInstr s i with
  | some (.bufw h buf st ph sc) => reissue i (bufwIssue h buf st ph sc) s
  | _ => s

/-- A BUFW whose condition has been seen completes (R227). -/
def execBufferWaitRelease (i : Issuer) (s : State) : Out := .next (if turnsOnly s i then s else bufwRetry i s)

end Sys2Proof.Machine
end

