-- ==== Sys2Proof/Machine/Copy.lean ====
section
/-! DEFINITION. Asynchronous copy and near-memory gather, 0x200 to 0x207 (R229 to R250), and the events that carry the
copies, bursts, chunk posts and completion records out. -/

namespace Sys2Proof.Machine

/-! ## Checks (R232) -/

/-- The addresses at which a range of n bytes enters a 64 KiB range. -/
def rangeStarts (va n : Nat) : List Nat :=
  if n = 0 then []
  else (List.range ((va + n - 1) / 65536 - va / 65536 + 1)).map fun k => max va ((va / 65536 + k) * 65536)

/-- Checks 4 and 8 to 10 at each of some addresses: the start of each one's 64 KiB range, translated. -/
def checkStarts (s : State) (ctx : Nat) (p : Path) (write : Bool) : List Nat → Except AFault (List Place)
  | [] => .ok []
  | a :: t =>
    if 2 ^ 52 ≤ a then .error ⟨0x18, 0, 0, p.code, BitVec.ofNat 64 a⟩
    else match checkPage s ctx a p write false with
      | .error f => .error f
      | .ok l => match checkStarts s ctx p write t with
        | .error f => .error f
        | .ok ps => .ok ({ placeOf a p l with va := a / 65536 * 65536, pa := l.pa - a % 65536 } :: ps)

/-- The first address of a range whose page's kind is not the first's (R200). -/
def orderMix (p : Path) (starts : List Nat) (ps : List Place) : Option AFault :=
  match ps with
  | [] => none
  | q :: _ => ((starts.zip ps).find? fun e => e.2.ord ≠ q.ord).map fun e => ⟨0x13, 0, 0, p.code, BitVec.ofNat 64 e.1⟩

/-- Every check of a contiguous byte range of global memory. -/
def checkRange (s : State) (ctx : Nat) (va n : Nat) (p : Path) (write : Bool) : Except AFault (List Place) :=
  match checkStarts s ctx p write (rangeStarts va n) with
  | .error f => .error f
  | .ok ps => match orderMix p (rangeStarts va n) ps with
    | some f => .error f
    | none => .ok ps

/-- The place of an address in a translated range. -/
def placeAt (ps : List Place) (va : Nat) : Place :=
  match ps.find? fun p => p.va = va / 65536 * 65536 with
  | some p => { p with va := va, pa := p.pa + va % 65536 }
  | none => default

/-- A destination range lies wholly inside one buffer or wholly outside all of them (R240). -/
def oneBuffer (tm : Team) (off n : Nat) : Bool :=
  match bufAt tm off with
  | some (_, b) => off + n ≤ b.off + b.size
  | none => tm.bufs.all fun e => e.2.size = 0 || off + n ≤ e.2.off || e.2.off + e.2.size ≤ off

/-- The checks of a scratchpad destination of an engine (R232, R238, R240): alignment, range, buffers, and `.full`. -/
def checkDst (tm : Team) (off n align : Nat) (full : Bool) : List (Option AFault) :=
  let a : DWord := BitVec.ofNat 64 off
  let no := fun (b : Bool) (f : AFault) => if b then none else some f
  [ no (off % align = 0) ⟨0x14, 0, 0, 6, a⟩,
    no (off + n ≤ tm.spsize) ⟨0x10, 3, 0, 6, a⟩,
    no (oneBuffer tm off n) ⟨0x16, 0x0C, 0, 6, a⟩,
    no (bufAllows tm .engW off) ⟨0x16, 0, 0, 6, a⟩,
    if !full then none
    else match bufAt tm off with
      | none => some ⟨0x16, 0x1D, 0, 6, a⟩
      | some (k, b) => no (bufLast b = .filling) ⟨0x16, 0, 0, 6, BitVec.ofNat 64 k⟩ ]

/-- A failed check of a group-level word names the lane that gave the operands. -/
def leadTrap (x : Site) (f : AFault) : Trap :=
  { cause := f.cause, lanes := [x.lead], addr := f.addr, info := infoOf f x.lead }

/-! ## Batches (R229, R230) -/

def modBatch (s : State) (b : Nat) (f : Batch → Batch) : State := { s with batches := smod s.batches b f }

def newBatch (team core bid : Nat) : Batch :=
  { team := team, core := core, bid := bid, nreq := 0, live := [], bytes := 0, dst := 0, posted := 0, flags := 0, err := false,
    fault := none, sem := none, close := none, full := false, mark := false, lines := [], fabs := [] }

/-- The batch open under a number, opened if need be. -/
def openBatch (s : State) (x : Site) (bid : BatchN) : Nat × State :=
  match sget x.tm.batch bid.toNat with
  | some b => (b, s)
  | none =>
    (s.nextBatch, modTeam { s with
        batches := sset s.batches s.nextBatch (newBatch x.t x.tm.core bid.toNat)
        nextBatch := s.nextBatch + 1 } x.t
      fun tm => { tm with batch := sset tm.batch bid.toNat s.nextBatch })

/-- A request joins its batch, with its flags. Its operation is given its batch and its place in it; `.full` adds a
transition, which is what then counts on the dependency counter. -/
def joinBatch (s : State) (x : Site) (h : Head) (bid : BatchN) (flags : BitVec 4) (full : Option Nat) (kind : Nat → Nat → OpKind) :
    State :=
  let (b, s) := openBatch s x bid
  let order := ((sget s.batches b).map (·.nreq)).getD 0
  let id := s.nextOp
  let join := fun (op : Nat) (s : State) => modBatch s b fun q =>
    { q with nreq := q.nreq + 1, live := op :: q.live, flags := q.flags ||| flags }
  match full with
  | none => openLong (join id s) x h (groupOp x h.dc (kind b order)) []
  | some n =>
    let s := openOp s { team := x.t, tids := [], iss := x.tids, seq := false, dc := 6, read := false, atom := false, kind := kind b order }
    let s := bufRequest s x.t n .full .team (some [])
    let s := modTeam s x.t fun tm => modBuf tm n fun bf =>
      { bf with reqs := bf.reqs.map fun r => if r.op = s.nextOp then { r with waits := id :: r.waits } else r }
    openLong (join s.nextOp s) x h (groupOp x h.dc (.bufs n)) []

/-- Every path of a PFENCE. -/
def allPaths : List Nat := [0, 1, 2, 3, 4, 5]

/-- The fork of an engine thread (R233): with `.rel` a release at `.dev` after a PFENCE of every path, for which the word has
waited (`copyReq`). -/
def engineFork (rel : Bool) (x : Site) (s : State) : Except Trap State :=
  if rel then
    match releaseBy s x .dev with
    | .error t => .error t
    | .ok s => .ok (releaseFork (pathDrop (drainWhere s (pfenceStore x.parties allPaths)) x.tm.core [1, 2, 3, 4, 5]) x.t x.tids .dev)
  else .ok s

/-- Notes a failing element: the first in batch order stands. -/
def batchFault (s : State) (b order idx cause : Nat) (addr : DWord) : State :=
  modBatch s b fun q =>
    match q.fault with
    | some (o, i, _, _) => if order < o || (order = o && idx < i) then { q with fault := some (order, idx, cause, addr) } else q
    | none => { q with fault := some (order, idx, cause, addr) }

/-- What a word of the copy unit asks; with `.rel` it waits as the PFENCE of every path would (R217, R233). -/
def copyReq (h : Head) (regs : List (Nat × Nat)) (rel : Bool := false) : Req :=
  { memReq h .copy regs with held := fun s x => bufHeld s x || (rel && pathOpen s x.t x.tids allPaths) }

/-- An issue with no active member performs nothing but counts on its counter (R231). -/
def idleIssue (s : State) (x : Site) (h : Head) : Res := .retire (openLong s x h (groupOp x h.dc .plain) [])

/-! ## CPY (R239) -/

def cpyBytes : CpySz → Nat | .b4 => 4 | .b8 => 8 | .b16 => 16
def cpySrcSp : CpyDir → Bool | .g2s => false | .s2g => true | .g2g => false | .s2s => true
def cpyDstSp : CpyDir → Bool | .g2s => true | .s2g => false | .g2g => false | .s2s => true

/-- One side of a lane's copy. -/
inductive Side
  | sp (off : Nat)
  | home (p : Place)
  | fab (a : DWord)

def checkSide (s : State) (x : Site) (v : LView) (l n : Nat) (r : VReg) (sp write : Bool) : Except AFault Side :=
  if sp then
    match checkSp x.tm (v.r l r).toNat n (if write then .engW else .engR) .spTeam with
    | some f => .error f
    | none => .ok (.sp (v.r l r).toNat)
  else
    let a := localize s (v.r64 l r)
    if a.extractLsb' 52 12 = 0 then
      match checkGlobal s x.tm.ctx a n .cp write with
      | .error f => .error f
      | .ok loc => .ok (.home (placeOf a.toNat .cp loc))
    else if a.toNat % n ≠ 0 then .error ⟨0x14, 0, 0, 3, a⟩
    else .ok (.fab a)

/-- The i-th byte of a side, as a source. -/
def sideSrc (i : Nat) : Side → ByteSrc
  | .sp o => .sp (o + i)
  | .home p => .home { p with va := p.va + i, pa := p.pa + i }
  | .fab a => .fab (a + BitVec.ofNat 64 i)
def sideDst (i : Nat) : Side → ByteDst
  | .sp o => .sp (o + i)
  | .home p => .home { p with va := p.va + i, pa := p.pa + i }
  | .fab a => .fab (a + BitVec.ofNat 64 i)
def sideFab : Side → Option DWord | .fab a => some a | .sp _ => none | .home _ => none

/-- The element of a lane. -/
def cpyElem (n idx : Nat) (src dst : Side) : CopyElem :=
  { idx := idx, addr := (sideFab src).getD ((sideFab dst).getD 0), view := none, waited := false, bytes := n,
    moves := (List.range n).map fun i => { dst := sideDst i dst, src := sideSrc i src } }

/-- CPY. -/
def execCpy (h : Head) (a b : VReg) (dir : CpyDir) (bid : BatchN) (sz : CpySz) (rel : Bool) (s : State) : Out :=
  let n := cpyBytes sz
  .next (issue (copyReq h ((if cpySrcSp dir then one [a] else two [a]) ++ (if cpyDstSp dir then one [b] else two [b])) rel)
    (fun x s =>
      let v := x.view s
      let src := fun l => checkSide s x v l n a (cpySrcSp dir) false
      let dst := fun l => checkSide s x v l n b (cpyDstSp dir) true
      match laneTrap (laneFaults x.act fun l => pickFault [failOf (src l), failOf (dst l)]) with
      | some t => .trap t
      | none =>
        if x.act = [] then idleIssue s x h
        else match engineFork rel x s with
          | .error t => .trap t
          | .ok s =>
            let elems := x.act.zipIdx.filterMap fun (l, i) => match src l, dst l with
              | .ok p, .ok q => some (cpyElem n i p q)
              | _, _ => none
            let remote := x.act.any fun l => match src l, dst l with
              | .ok p, .ok q => (sideFab p).isSome || (sideFab q).isSome
              | _, _ => false
            .retire (joinBatch s x h bid (if remote then 8 else 0) none fun b o => .copy b o elems [])) s)

/-! ## CPYL (R240) -/

/-- A tile: record, slot, path, origin, extents, destination. -/
structure Tile where
  lay  : BitVec 512
  slot : Slot
  path : Path
  org  : List Int
  ext  : List Nat
  dst  : Nat

/-- Extents E0 to E4. -/
def tileExt (w : Word) : List Nat := (List.range 4).map (fun k => nbits w.toNat (8 * k) 8 + 1) ++ [1]

def tileE (t : Tile) (k : Nat) : Nat := t.ext.getD k 1
def tileCount (t : Tile) : Nat := tileE t 0 * tileE t 1 * tileE t 2 * tileE t 3

/-- Offsets t0 to t4 of the e-th element, dimension 0 first. -/
def tileOff (t : Tile) (e : Nat) : List Nat :=
  [e % tileE t 0, e / tileE t 0 % tileE t 1, e / tileE t 0 / tileE t 1 % tileE t 2, e / tileE t 0 / tileE t 1 / tileE t 2, 0]

/-- Tensor coordinates of the e-th element. -/
def tileCoord (t : Tile) (e : Nat) : List Int := (t.org.zip (tileOff t e)).map fun p => p.1 + p.2

/-- Some element lies out of bounds. -/
def tileOob (t : Tile) : Bool := (List.range (tileCount t)).any fun e => !inBounds t.lay (tileCoord t e)

/-- Blocks of a BPI tile, its panels, and the bytes a tile fills. -/
def tileBlocks (t : Tile) : Nat := tileCount t / 32
def tilePanels (t : Tile) : Nat := (tileBlocks t + 31) / 32
def tileBytes (t : Tile) : Nat :=
  if t.slot.kind = .bpi then tilePanels t * 1024 + (if t.slot.scaled then (tileBlocks t + 127) / 128 * 128 else 0)
  else t.slot.kind.esize * tileCount t

/-- A range that a tile reads: address, bytes, and whether its base is a fabric address (R183). -/
structure TileRead where
  addr : Nat
  n    : Nat
  fab  : Bool

/-- The ranges that a tile reads, in order. -/
def tileReads (t : Tile) : List TileRead :=
  let fab := 2 ^ 52 ≤ recBase t.lay
  if t.slot.kind = .bpi then
    (List.range (tileBlocks t)).flatMap fun j =>
      match (List.range 32).find? fun l => inBounds t.lay (tileCoord t (32 * j + l)) with
      | none => []
      | some l =>
        let sj := blockOf t.lay (tileCoord t (32 * j + l))
        (List.range t.slot.k).map (fun q => ⟨planeAddr t.lay sj (7 - q), 4, fab⟩)
          ++ (if t.slot.scaled then [⟨scaleAddr t.lay sj, 1, 2 ^ 52 ≤ recSbase t.lay⟩] else [])
  else
    (List.range (tileCount t)).filterMap fun e =>
      let c := tileCoord t e
      if inBounds t.lay c then some ⟨elemAddr t.lay t.slot.kind.esize c, t.slot.kind.esize, fab⟩ else none

/-- Adjoining ranges joined. -/
def joinRanges : List TileRead → List TileRead
  | [] => []
  | x :: t => match joinRanges t with
    | [] => [x]
    | y :: r => if x.addr + x.n = y.addr && x.fab = y.fab then { x with n := x.n + y.n } :: r else x :: y :: r

/-- The address that a range's base leads to: a fabric one's with the package's own id is local (R165). -/
def tileAddr (s : State) (fab : Bool) (a : Nat) : DWord := if fab then localize s (BitVec.ofNat 64 a) else BitVec.ofNat 64 a

/-- A byte of another package: a local base's sum that reaches bit 52 is none, and fails as NONLOCAL (R183). -/
def tileFar (s : State) (fab : Bool) (a : Nat) : Bool := fab && (tileAddr s fab a).extractLsb' 52 12 ≠ 0

/-- The first failing range of a list; other packages' addresses are checked there. -/
def checkReads (s : State) (f : Nat → Nat → Option AFault) : List TileRead → Option AFault
  | [] => none
  | x :: t =>
    match (if tileFar s x.fab x.addr then none else f (tileAddr s x.fab x.addr).toNat x.n) with
    | some e => some e
    | none => checkReads s f t

/-- The checks of a tile's source: translation and permission of every byte, then the kinds of every range. -/
def checkTile (s : State) (ctx : Nat) (t : Tile) : List (Option AFault) :=
  [ checkReads s (fun a n => failOf (checkStarts s ctx t.path false (rangeStarts a n))) (tileReads t),
    checkReads s (fun a n => failOf (checkRange s ctx a n t.path false)) (joinRanges (tileReads t)) ]

/-- A byte of a tile's source. -/
def tileSrc (s : State) (ctx : Nat) (t : Tile) (fab : Bool) (a : Nat) : ByteSrc :=
  let la := tileAddr s fab a
  if tileFar s fab a then .fab la
  else match checkPage s ctx la.toNat t.path false false with
    | .error _ => .const 0
    | .ok l => .home (placeOf la.toNat t.path l)

/-- Such a byte, some bits of which are kept and others set. -/
def mixSrc (keep put : Byte) : ByteSrc → ByteSrc
  | .home p => if keep = 0xFF then .home p else .mix p keep put
  | .fab a => if keep = 0xFF then .fab a else .fabMix a keep put
  | .sp o => .sp o | .const b => .const b | .mix p k q => .mix p k q | .fabMix a k q => .fabMix a k q

/-- The view block that an element at an address is read through, as its VID, address and block (R305). -/
def tileView (s : State) (ctx : Nat) (t : Tile) (c : List Int) (a : Nat) : Option (Nat × Nat × Nat) :=
  if recVid t.lay = 0 then none
  else
    let blk := match (sget s.contexts ctx).bind fun x => viewAt x (recVid t.lay) a with
      | some (_, vw) => viewBlock vw t.lay c
      | none => blockOf t.lay c
    some (recVid t.lay, a, blk)

/-- The e-th element of a tile of another kind than BPI. -/
def tileElem (s : State) (ctx : Nat) (t : Tile) (e : Nat) : CopyElem :=
  let es := t.slot.kind.esize
  let c := tileCoord t e
  let base := { idx := e, addr := 0, view := none, waited := false, bytes := 0, moves := [] : CopyElem }
  let dst := fun i => ByteDst.sp (t.dst + es * e + i)
  if !inBounds t.lay c then
    { base with moves := (List.range es).map fun i => { dst := dst i, src := .const (BitVec.ofNat 8 (recPad t.lay / 256 ^ i)) } }
  else
    let a := elemAddr t.lay es c
    { base with
      addr := tileAddr s (2 ^ 52 ≤ recBase t.lay) a, bytes := es
      view := tileView s ctx t c a
      moves := (List.range es).map fun i => { dst := dst i, src := tileSrc s ctx t (2 ^ 52 ≤ recBase t.lay) (a + i) } }

/-- Bits of byte i of a plane word that come from the source, and those that padding sets, for the lanes in bounds. -/
def laneByte (oks : List Bool) (i : Nat) (want : Bool) : Byte :=
  (List.range 8).foldl (fun b n => if oks.getD (8 * i + n) false = want then b ||| (1#8 <<< n) else b) 0

/-- Block j of a BPI tile. -/
def tileBlock (s : State) (ctx : Nat) (t : Tile) (j : Nat) : CopyElem :=
  let oks := (List.range 32).map fun l => inBounds t.lay (tileCoord t (32 * j + l))
  let pad := BitVec.ofNat 8 (recPad t.lay)
  let dst := fun q i => ByteDst.sp (t.dst + planeOff j (7 - q) + i)
  let sdst := ByteDst.sp (t.dst + tilePanels t * 1024 + j)
  let padBit := fun q => q < t.slot.k && pad.getLsbD (7 - q)
  match (List.range 32).find? fun l => oks.getD l false with
  | none =>
    { idx := j, addr := 0, view := none, waited := false, bytes := 0,
      moves := ((List.range 8).flatMap fun q => (List.range 4).map fun i =>
          { dst := dst q i, src := .const (if padBit q then 0xFF else 0) : Move })
        ++ (if t.slot.scaled then [{ dst := sdst, src := .const (BitVec.ofNat 8 (recPad t.lay / 256)) }] else []) }
  | some l =>
    let sj := blockOf t.lay (tileCoord t (32 * j + l))
    let first := planeAddr t.lay sj 7
    let fab : Bool := 2 ^ 52 ≤ recBase t.lay
    { idx := j, addr := tileAddr s fab first, waited := false
      view := tileView s ctx t (tileCoord t (32 * j + l)) first
      bytes := 4 * t.slot.k + (if t.slot.scaled then 1 else 0)
      moves := ((List.range 8).flatMap fun q => (List.range 4).map fun i =>
          { dst := dst q i,
            src := if q < t.slot.k then
                mixSrc (laneByte oks i true) (if padBit q then laneByte oks i false else 0)
                  (tileSrc s ctx t fab (planeAddr t.lay sj (7 - q) + i))
              else .const 0 : Move })
        ++ (if t.slot.scaled then [{ dst := sdst, src := tileSrc s ctx t (2 ^ 52 ≤ recSbase t.lay) (scaleAddr t.lay sj) }] else []) }

/-- What fills a BPI tile's last panel and scale line. -/
def tileFill (t : Tile) : CopyElem :=
  let nb := tileBlocks t
  { idx := nb, addr := 0, view := none, waited := false, bytes := 0,
    moves := ((List.range (tilePanels t * 32 - nb)).flatMap fun k => (List.range 8).flatMap fun q => (List.range 4).map fun i =>
        { dst := .sp (t.dst + planeOff (nb + k) (7 - q) + i), src := .const 0 : Move })
      ++ (if t.slot.scaled then (List.range ((nb + 127) / 128 * 128 - nb)).map fun i =>
          { dst := .sp (t.dst + tilePanels t * 1024 + nb + i), src := .const 0x80 } else []) }

def tileElems (s : State) (ctx : Nat) (t : Tile) : List CopyElem :=
  if t.slot.kind = .bpi then (List.range (tileBlocks t)).map (tileBlock s ctx t) ++ [tileFill t]
  else (List.range (tileCount t)).map (tileElem s ctx t)

/-- Some element comes from another package. -/
def tileRemote (s : State) (t : Tile) : Bool :=
  (tileReads t).any fun r => tileFar s r.fab r.addr

/-- The slot that gives a tile's kind: the one FS names, or that of the view which holds the tile's first element in bounds
(R298, log 99). -/
def tileSlot (s : State) (x : Site) (t : Tile) : Slot :=
  let sl := slotOf (fsRead x.lr (BitVec.ofNat 3 (recFs t.lay)))
  let first := (List.range (tileCount t)).find? fun e => inBounds t.lay (tileCoord t e)
  if recVid t.lay = 0 then sl
  else match (sget s.contexts x.tm.ctx).bind fun c => match first with
      | some e => viewOf c t.lay (tileCoord t e)
      | none => viewAt c (recVid t.lay) (recBase t.lay) with
    | some (_, vw) => slotOf vw.slot
    | none => sl

/-- The tile a CPYL names, or the failure that comes before an address. -/
def tileOf (s : State) (x : Site) (v : LView) (a b c : VReg) : Except AFault Tile :=
  let l := x.lead
  let w := v.r l c
  match handleRec x.tm ((v.r l a).toNat % 65536) with
  | none => .error ⟨0x15, 5, 0, 2, 0⟩
  | some r =>
    let t : Tile :=
      { lay := r, slot := slotOf 0, path := if recVid r = 0 then .ly else .vw,
        org := (List.range 5).map fun k => (v.reg l (a.toNat + 1 + k)).toInt, ext := tileExt w, dst := (v.r l b).toNat }
    let slot := tileSlot s x t
    let t := { t with slot := slot }
    if ([0, 1, 2, 3].any fun k => recRank r ≤ k && tileE t k ≠ 1) then .error ⟨0x02, 0x1C, 0, 3, w.zeroExtend 64⟩
    else if recSp r || (slot.kind = .bpi && ((v.reg l (a.toNat + 1)).toNat % 32 ≠ 0 || tileE t 0 % 32 ≠ 0)) then
      .error ⟨0x15, 7, 0, t.path.code, 0⟩
    else if recOob r = 2 && tileOob t then .error ⟨0x15, 0, 0, t.path.code, 0⟩
    else .ok t

/-- The buffer a `.full` request fills. -/
def fullBuf (tm : Team) (full : Bool) (dst : Nat) : Option Nat := if full then (bufAt tm dst).map Prod.fst else none

/-- CPYL. -/
def execCpyl (h : Head) (a b c : VReg) (bid : BatchN) (full rel : Bool) (s : State) : Out :=
  .next (issue (copyReq h ([(a.toNat, 6)] ++ one [b, c]) rel) (fun x s =>
    if x.act = [] then idleIssue s x h
    else match tileOf s x (x.view s) a b c with
      | .error f => .trap (leadTrap x f)
      | .ok t =>
        match pickFault (checkDst x.tm t.dst (tileBytes t) 16 full ++ checkTile s x.tm.ctx t) with
        | some f => .trap (leadTrap x f)
        | none =>
          match engineFork rel x s with
          | .error tr => .trap tr
          | .ok s =>
            let flags : BitVec 4 := (if tileRemote s t then 8 else 0) ||| (if tileOob t then 1 else 0)
            .retire (joinBatch s x h bid flags (fullBuf x.tm full t.dst) fun b o => .copy b o (tileElems s x.tm.ctx t) [])) s)

/-! ## Codebooks (R241, R242) -/

/-- Bits of an index. -/
def codeBits : Kind → Nat
  | .cb4 => 4 | .cb6 => 6 | .cb8 => 8
  | .none => 8 | .bpi => 8 | .fp32 => 8 | .fp16 => 8 | .bf16 => 8 | .int8 => 8 | .bad => 8

/-- Bytes of a stream of n indices. -/
def streamBytes (w n : Nat) : Nat := if w = 6 then 3 * ((n + 3) / 4) else (w * n + 7) / 8

/-- Operations on a core that a table's later loads wait for, or its later expansions. -/
def opOnCore (s : State) (core : Nat) (o : Op) : Bool := (sget s.teams o.team).any fun tm => tm.core = core
def tableLoads (s : State) (core tab : Nat) : List (Nat × Op) :=
  s.ops.filter fun e => opOnCore s core e.2 && (match e.2.kind with | .cbld n _ _ => n = tab | _ => false)
def tableUses (s : State) (core tab : Nat) : List (Nat × Op) :=
  s.ops.filter fun e => opOnCore s core e.2 && (match e.2.kind with
    | .cbld n _ _ => n = tab
    | .expand _ _ _ _ _ n _ _ => n = tab
    | _ => false)

/-- The team that the last load accepted gives a table to (R241). -/
def tableTag (s : State) (core tab : Nat) : Nat :=
  match (tableLoads s core tab).getLast? with
  | some e => e.2.team
  | none => ((sget (getCore s core).codebooks tab).map Prod.fst).getD 0

/-- CBLD. -/
def execCbld (h : Head) (a : VReg) (tab : BitVec 2) (s : State) : Out :=
  .next (issue (copyReq h (two [a])) (fun x s =>
    if x.act = [] then idleIssue s x h
    else
      let ea := (x.view s).r64 x.lead a
      match checkGlobal s x.tm.ctx ea 8192 .cp false with
      | .error f => .trap (leadTrap x f)
      | .ok loc =>
        .retire (openLong s x h (groupOp x h.dc
          (.cbld tab.toNat (placeOf ea.toNat .cp loc) ((tableUses s x.tm.core tab.toNat).map Prod.fst))) [])) s)

/-- CPYD. -/
def execCpyd (h : Head) (fs : FSlot) (a b c : VReg) (bid : BatchN) (full rel : Bool) (tab : BitVec 2) (s : State) : Out :=
  .next (issue { copyReq h (two [a] ++ one [b, c]) rel with ok := fun x => (slotOf (fsRead x.lr fs)).kind.isCode } (fun x s =>
    if x.act = [] then idleIssue s x h
    else
      let v := x.view s
      let n := (v.r x.lead c).toNat
      let w := codeBits (slotOf (fsRead x.lr fs)).kind
      let ea := v.r64 x.lead a
      let dst := (v.r x.lead b).toNat
      if n = 0 || 32768 < n then .trap (leadTrap x ⟨0x02, 0x1C, 0, 3, BitVec.ofNat 64 n⟩)
      else
        let src := if ea.extractLsb' 52 12 ≠ 0 then .error ⟨0x18, 0, 0, 3, ea⟩
          else checkRange s x.tm.ctx ea.toNat (streamBytes w n) .cp false
        let tag := if tableTag s x.tm.core tab.toNat = x.t then none else some ⟨0x1D, 0x0B, 0, 3, 0⟩
        match pickFault ([failOf src] ++ checkDst x.tm dst (32 * n) 32 full ++ [tag]), src with
        | some f, _ => .trap (leadTrap x f)
        | none, .error f => .trap (leadTrap x f)
        | none, .ok ps =>
          match engineFork rel x s with
          | .error t => .trap t
          | .ok s =>
            .retire (joinBatch s x h bid 0 (fullBuf x.tm full dst)
              fun b o => .expand b o dst n w tab.toNat ea.toNat ps)) s)

/-! ## Completion rings (R234) -/

/-- A ring descriptor: its place, BASE and LOGN, PROD and CONS. -/
structure Ring where
  desc : Place
  base : Nat
  logn : Nat
  cons : Nat

/-- Reads and checks a descriptor at a lane's pair (R234, R243): the ring, and the machine after the read. -/
def ringOf (s : State) (w : Who) (ea : DWord) (write : Bool) : Except AFault Ring × State :=
  match checkGlobal s w.ctx ea 64 .ls write with
  | .error f => (.error f, s)
  | .ok loc =>
    let (d, s) := recordAt (xlatFill s w.core w.ctx ea.toNat loc) w .ls loc
    let logn := recF d 64 5
    let base := recF d 0 64
    if recF d 160 352 ≠ 0 || recF d 70 26 ≠ 0 || logn = 0 || 16 < logn || base % 32 ≠ 0 || 2 ^ 52 ≤ base || loc.ord = 2 then
      (.error ⟨0x1E, 0x0A, 0, 0, ea⟩, s)
    else (.ok { desc := placeOf ea.toNat .ls loc, base := base, logn := logn, cons := recF d 128 32 }, s)

/-- PROD and CONS of a descriptor at its home. -/
def ringProd (s : State) (desc : Place) : Nat := memNat s.mem (desc.pa + 12) 4
def ringCons (s : State) (desc : Place) : Nat := memNat s.mem (desc.pa + 16) 4
def recordOff (base logn c : Nat) : Nat := base + 32 * (c % 2 ^ logn)

/-- Posts a chunk semaphore of a batch. -/
def postChunks (s : State) (b n : Nat) : State :=
  match sget s.batches b with
  | none => s
  | some q => match q.sem with
    | none => s
    | some k => modBatch (setSem s q.team (BitVec.ofNat 5 k) (semPost n)) b fun q => { q with posted := q.posted + n }

/-- Closed batches of a core whose records are not written. -/
def pendingBatches (s : State) (core : Nat) : Nat :=
  (s.batches.filter fun e => e.2.core = core && e.2.close.isSome).length

/-- What CPYC asks: the 17th pending batch of a core does not issue (R229). -/
def cpycHeld (s : State) (x : Site) : Bool := x.act ≠ [] && 16 ≤ pendingBatches s x.tm.core
def cpycReq (h : Head) (d a : VReg) : Req :=
  { memReq h .copy (one [d] ++ two [a]) with held := fun s x => bufHeld s x || cpycHeld s x }

/-- CPYC. -/
def execCpyc (h : Head) (d a : VReg) (bid : BatchN) (sem : Option SemN) (s : State) : Out :=
  .next (issue (cpycReq h d a) (fun x s =>
    if x.act = [] then idleIssue s x h
    else
      let v := x.view s
      match ringOf s (x.who x.lead) (v.r64 x.lead a) true with
      | (.error f, s) => .trapIn s (leadTrap x f)
      | (.ok r, s) =>
        match checkRange s x.tm.ctx r.base (32 * 2 ^ r.logn) .ls true with
        | .error f => .trapIn s (leadTrap x f)
        | .ok ps =>
          let (b, s) := openBatch s x bid
          let close : BatchClose :=
            { desc := r.desc, base := r.base, logn := r.logn, ring := ps, tag := v.r x.lead d, op := s.nextOp }
          let s := modTeam s x.t fun tm => { tm with batch := serase tm.batch bid.toNat }
          let s := modBatch s b fun q => { q with close := some close, sem := sem.map (·.toNat) }
          let s := postChunks s b (((sget s.batches b).map (·.dst)).getD 0 / 4096)
          .retire (openLong s x h (groupOp x h.dc (.batch b)) [])) s)

/-! ## CRWAIT and CRPOP (R244, R245) -/

/-- The SEQ field of a record, read on the LS path. -/
def recordSeq (s : State) (w : Who) (ea : Nat) : Except AFault Nat × State :=
  match checkGlobal s w.ctx (BitVec.ofNat 64 ea) 32 .ls false with
  | .error f => (.error f, s)
  | .ok loc =>
    let (n, s) := readNow (xlatFill s w.core w.ctx ea loc) w .ls { loc with pa := loc.pa + 4 } 4
    (.ok n, s)

/-- What a lane of CRWAIT sees: the count it waits for, whether its record has come, and the record's address. -/
structure CrSeen where
  cons : Nat
  done : Bool
  addr : Nat

/-- One lane's reads of CRWAIT: its ring's CONS, once, and the SEQ of the record of that count. -/
def crwaitLane (x : Site) (ea : DWord) (l : Nat) (s : State) : Except AFault CrSeen × State :=
  match ringOf s (x.who l) ea false with
  | (.error f, s) => (.error f, s)
  | (.ok r, s) =>
    let c := sgetD x.g.cons l (r.cons, false)
    let at_ := recordOff r.base r.logn c.1
    match recordSeq s (x.who l) at_ with
    | (.error f, s) => (.error f, s)
    | (.ok q, s) => (.ok ⟨c.1, c.2 || q = c.1, at_⟩, s)

/-- The lanes' reads, in order. -/
def crwaitLanes (x : Site) (ea : Nat → DWord) : List Nat → State → List (Nat × Except AFault CrSeen) × State
  | [], s => ([], s)
  | l :: t, s =>
    let (c, s) := crwaitLane x (ea l) l s
    let (cs, s) := crwaitLanes x ea t s
    ((l, c) :: cs, s)

/-- The lanes whose reads fail, and what the others have seen. -/
def crwaitFaults (rs : List (Nat × Except AFault CrSeen)) : List (Nat × AFault) :=
  rs.filterMap fun e => (failOf e.2).map fun f => (e.1, f)
def crwaitSeen (rs : List (Nat × Except AFault CrSeen)) : List (Nat × CrSeen) :=
  rs.filterMap fun e => match e.2 with
    | .ok c => some (e.1, c)
    | .error _ => none

/-- CRWAIT's issue, and its later tries: its acquires, then its reads, of which one that fails traps. -/
def crwaitIssue (h : Head) (d a : VReg) (s : State) : State :=
  issue (copyReq h (two [d, a])) (fun x s =>
    if x.act = [] then .retire s
    else
      let (rs, s) := crwaitLanes x (fun l => (x.view s).r64 l a) x.act (acquireBy s x .dev)
      let now := crwaitSeen rs
      match laneTrap (crwaitFaults rs) with
      | some t => .trapIn s t
      | none =>
        if now.all fun e => e.2.done then
          .retire (modTeam (setCons s x []) x.t fun tm =>
            applyOuts tm x.k h.dsm (now.map fun e => out2 e.1 d (BitVec.ofNat 64 e.2.addr)))
        else .wait (setCons s x (now.map fun e => (e.1, e.2.cons, e.2.done)))) s

/-- CRWAIT. -/
def execCrwait (h : Head) (d a : VReg) (s : State) : Out := .next (crwaitIssue h d a s)

/-- CRPOP. The ring's records are checked as LS-path reads at the issue, which fixes their translations (R232). -/
def execCrpop (h : Head) (a : VReg) (n : BitVec 16) (s : State) : Out :=
  .next (issue (copyReq h (two [a])) (fun x s =>
    if x.act = [] then idleIssue s x h
    else match ringOf s (x.who x.lead) ((x.view s).r64 x.lead a) true with
      | (.error f, s) => .trapIn s (leadTrap x f)
      | (.ok r, s) => match checkRange s x.tm.ctx r.base (32 * 2 ^ r.logn) .ls false with
        | .error f => .trapIn s (leadTrap x f)
        | .ok ps =>
          let tids := x.tids
          let after := (s.ops.filter fun e => e.2.read && e.2.team = x.t && e.2.iss.any tids.contains).map Prod.fst
          .retire (openLong s x h (groupOp x h.dc (.crpop r.desc r.base r.logn n.toNat after ps)) [])) s)

/-- Consecutive records present from a count on, of at most k. -/
def recordsFrom (s : State) (ring : List Place) (base logn c : Nat) : Nat → Nat
  | 0 => 0
  | k + 1 =>
    if memNat s.mem ((placeAt ring (recordOff base logn c)).pa + 4) 4 = c % 2 ^ 32 then
      1 + recordsFrom s ring base logn ((c + 1) % 2 ^ 32) k
    else 0

/-- CRPOP's atomic update. What it reads may be poisoned (R379). -/
def popRecords (s : State) (o : Op) (desc : Place) (base logn n : Nat) (ring : List Place) : State :=
  match sget s.teams o.team with
  | none => s
  | some tm =>
    let cons := ringCons s desc
    let k := min n ((ringProd s desc + 2 ^ 32 - cons) % 2 ^ 32)
    let m := recordsFrom s ring base logn cons k
    let s := (List.range (min k (m + 1))).foldl (fun s i => poisonHit s tm.ctx (placeAt ring (recordOff base logn (cons + i))).pa)
      (poisonHit s tm.ctx desc.pa)
    let put := fun (s : State) off bs =>
      homeWrite s tm.ctx (some (coreDie tm.core)) (desc.va + off) (desc.pa + off) desc.mv desc.tracked bs
    let s := put s 16 (natLe 4 (cons + min n m))
    let s := if m < n then put s 8 [memByte s.mem (desc.pa + 8) ||| 0x20] else s
    if desc.mv then o.iss.foldl (fun s t => setMark s o.team (some t) true) s else s

/-! ## GATHN (R247) -/

/-- GATHN. -/
def execGathn (h : Head) (d a b : VReg) (ix : Index) (ew : EWidth) (bid : BatchN) (full rel : Bool) (s : State) : Out :=
  .next (issue (copyReq h (two [d, a, b]) rel) (fun x s =>
    if x.act = [] then idleIssue s x h
    else
      let v := x.view s
      let l := x.lead
      let dst := (v.r l d).toNat
      let n := (v.reg l (d.toNat + 1)).toNat
      let base := v.r64 l a
      let la := v.r64 l b
      let iw := ewBytes ix.iw
      if n = 0 || 65536 < n then .trap (leadTrap x ⟨0x02, 0x1C, 0, 4, BitVec.ofNat 64 n⟩)
      else
        let low := [if la.toNat % iw ≠ 0 then some ⟨0x14, 0, 0, 4, la⟩ else none,
          if base.extractLsb' 52 12 ≠ 0 then some ⟨0x18, 0, 0, 4, base⟩ else none,
          if la.extractLsb' 52 12 ≠ 0 then some (⟨0x18, 0, 0, 4, la⟩ : AFault) else none]
        let src := if la.extractLsb' 52 12 ≠ 0 then .error ⟨0x18, 0, 0, 4, la⟩
          else checkRange s x.tm.ctx la.toNat (n * iw) .nm false
        let dstF := checkDst x.tm dst ((n * ewBytes ew + 63) / 64 * 64) 64 full
        match pickFault (low ++ [failOf src] ++ dstF), src with
        | some f, _ => .trap (leadTrap x f)
        | none, .error f => .trap (leadTrap x f)
        | none, .ok ps =>
          match engineFork rel x s with
          | .error t => .trap t
          | .ok s =>
            .retire (joinBatch s x h bid 0 (fullBuf x.tm full dst) fun b o =>
              .awl b o { dst := dst, n := n, base := base, listAt := la.toNat, list := ps, ix := ix, ew := ew, idx := [], vals := [], next := 0 })) s)

/-! ## Reads and writes of engine threads -/

/-- Poisoned data that an engine reads is counted, and sets DATA_ERROR in the batch (R235, R379). -/
def noteError (s : State) (b pa : Nat) : State :=
  if s.poison.contains (lineOf pa) then modBatch (countUe s) b fun q => { q with err := true } else s

/-- The line a batch reads: what it has read of it on the path (R239, log 97), else what the path returns (R210). -/
def engLine (s : State) (core b : Nat) (p : Place) : List Byte × State :=
  let line := lineOf p.pa
  let key := 8 * line + p.path
  match (sget s.batches b).bind fun q => sget q.lines key with
  | some bs => (bs, s)
  | none =>
    let bs := pathLine s core (pathOf p.path) (placeLoc p) line
    let s := noteError (fillLine s core (pathOf p.path) (placeLoc p) line false) b p.pa
    (bs, modBatch s b fun q => { q with lines := sset q.lines key bs })

/-- One byte read at a place. -/
def engByte (s : State) (core b : Nat) (p : Place) : Byte × State :=
  let (bs, s) := engLine s core b p
  (bs.getD (p.pa % 128) 0, s)

/-- A byte of another package: none where no route leads there or it fails there. A batch reads a line once (R239). -/
def fabByte (s : State) (b : Nat) (a : DWord) : Option Byte × State :=
  if fabricRoute s a then
    let line := a.toNat / 128
    let at_ := ((sget s.batches b).bind fun q => sget q.fabs line).getD s.freeCtr
    (Config.fabricRead at_ a, modBatch s b fun q => { q with fabs := sset q.fabs line at_ })
  else (none, s)

/-- A source byte; none if it fails at another package. -/
def moveSrc (s : State) (t core b : Nat) : ByteSrc → Option Byte × State
  | .home p => let (v, s) := engByte s core b p; (some v, s)
  | .mix p keep put => let (v, s) := engByte s core b p; (some (v &&& keep ||| put), s)
  | .sp o => (some (((sget s.teams t).map fun tm => spByte tm o).getD 0), s)
  | .const v => (some v, s)
  | .fab a => fabByte s b a
  | .fabMix a keep put => let (v, s) := fabByte s b a; (v.map fun v => v &&& keep ||| put, s)

/-- Another package takes a write to a destination byte. -/
def dstTaken (s : State) : ByteDst → Bool
  | .fab a => fabricRoute s a && Config.fabricWrite s.freeCtr a
  | .home _ => true | .sp _ => true

/-- The bytes that moves bring; none if one fails. -/
def readMoves (t core b : Nat) : List Move → State → Option (List (ByteDst × Byte)) × State
  | [], s => (some [], s)
  | m :: ms, s =>
    let (v, s) := moveSrc s t core b m.src
    let (r, s) := readMoves t core b ms s
    match v, r with
    | some v, some r => (if dstTaken s m.dst then some ((m.dst, v) :: r) else none, s)
    | _, _ => (none, s)

/-- Reads an element: its bytes join those to write, or it is reported and left unwritten (R232). -/
def readElem (s : State) (t core b order : Nat) (e : CopyElem) : List (ByteDst × Byte) × State :=
  match readMoves t core b e.moves s with
  | (some out, s) => (out, modBatch s b fun q => { q with bytes := q.bytes + e.bytes })
  | (none, s) => ([], batchFault s b order e.idx 0x18 e.addr)

/-- An element that has waited for its view block is read anew (R240). -/
def freshLines (s : State) (b : Nat) (e : CopyElem) : State :=
  if e.waited then modBatch s b fun q => { q with lines := q.lines.filter fun x => x.1 % 8 ≠ 5 } else s

/-- Reads those elements that a view does not hold back (R240): what waits, what was read, and the state. -/
def readElems (t ctx core b order : Nat) : List CopyElem → State → List CopyElem × List (ByteDst × Byte) × State
  | [], s => ([], [], s)
  | e :: es, s =>
    let (w, o, s) := match e.view with
      | none => let (o, s) := readElem s t core b order e; ([], o, s)
      | some (vid, first, blk) =>
        let view := (sget s.contexts ctx).bind fun c => viewAt c vid first
        match viewRead s ctx view (BitVec.ofNat 64 first) (fun _ => blk) e.waited with
        | .wait => ([{ e with waited := true }], [], s)
        | .fault f => ([], [], batchFault s b order e.idx f.cause e.addr)
        | .data none => let (o, s) := readElem (freshLines s b e) t core b order e; ([], o, s)
        | .data (some k) =>
          let s := modBatch (setSr (freshLines s b e) ctx [k]) b fun q => { q with flags := q.flags ||| 4 }
          let (o, s) := readElem s t core b order e
          ([], o, s)
    let (ws, os, s) := readElems t ctx core b order es s
    (w ++ ws, o ++ os, s)

/-- Runs of destination bytes that one write covers: consecutive bytes of one place's run or of scratchpad. -/
def nextDst : ByteDst → ByteDst → Bool
  | .home p, .home q => q.pa = p.pa + 1 && q.va = p.va + 1
  | .sp o, .sp q => q = o + 1
  | .home _, .sp _ => false | .home _, .fab _ => false | .sp _, .home _ => false | .sp _, .fab _ => false
  | .fab _, .home _ => false | .fab _, .sp _ => false | .fab _, .fab _ => false

def joinDst : List (ByteDst × Byte) → List (ByteDst × List Byte)
  | [] => []
  | (d, v) :: t => match joinDst t with
    | [] => [(d, [v])]
    | (e, bs) :: r => if nextDst d e then (d, v :: bs) :: r else (d, [v]) :: (e, bs) :: r

/-- Writes destination bytes; a write to a master's page marks the engine thread (R300). -/
def writeDst (s : State) (t ctx core b : Nat) (d : ByteDst) (bs : List Byte) : State :=
  match d with
  | .sp o => modTeam s t fun tm => spWrite tm o bs
  | .home p =>
    let s := homeWrite s ctx (some (coreDie core)) p.va p.pa p.mv p.tracked bs
    if p.mv then modBatch s b fun q => { q with mark := true } else s
  | .fab _ => s

def writeDsts (t ctx core b : Nat) : List (ByteDst × List Byte) → State → State
  | [], s => s
  | (d, bs) :: r, s => writeDsts t ctx core b r (writeDst s t ctx core b d bs)

/-- Counts written destination bytes. -/
def countDst (s : State) (b n : Nat) : State := modBatch s b fun q => { q with dst := q.dst + n }

/-! ## Events -/

/-- The index at a place of a stream. -/
def streamIndex (s : State) (core b w at_ : Nat) (ps : List Place) (i : Nat) : Nat × State :=
  let (lo, s) := engByte s core b (placeAt ps (at_ + w * i / 8))
  let (hi, s) := engByte s core b (placeAt ps (at_ + (w * i + w - 1) / 8))
  (nbits (lo.toNat + 256 * hi.toNat) (w * i % 8) w, s)

/-- CPYD's indices from i on, expanded. -/
def expandFrom (t core b dst w tab at_ : Nat) (ps : List Place) : Nat → Nat → State → State
  | 0, _, s => s
  | n + 1, i, s =>
    let (ix, s) := streamIndex s core b w at_ ps i
    let entry := (((sget (getCore s core).codebooks tab).map Prod.snd).getD []).getD ix 0
    expandFrom t core b dst w tab at_ ps n (i + 1) (modTeam s t fun tm => spWrite tm (dst + 32 * i) (natLe 32 entry.toNat))

/-- An engine's operation is counted as complete before its writes are seen, at a free choice: the counter joins nothing (R211,
R419, log 26). -/
def countEarly (s : State) (op : Nat) : Option State :=
  match sget s.ops op with
  | none => none
  | some o =>
    if o.dc < 6 && Config.freeBit s.freeCtr (2 ^ 46 + op) then
      let s := { s with ops := sset s.ops op { o with dc := 6, tids := [] } }
      some (if o.seq then modSeq s o.team fun q => sdcDec q o.dc else modTeam s o.team fun tm => dcDec tm o.dc o.tids)
    else none

/-- An engine's operation does what is left of it and completes, or is only counted. -/
def endEngine (s : State) (op : Nat) (f : State → State) : State :=
  match countEarly s op with
  | some s => s
  | none => completeOp (f s) op

/-- A request reads what it can; once it has read everything, it writes its destination and completes. Both happen in one
event (log 26). -/
def execCopyRequestComplete (op : Nat) (s : State) : Out :=
  .next (match sget s.ops op with
    | none => s
    | some o => match sget s.teams o.team with
      | none => s
      | some tm => if opFrozen s o then s else match o.kind with
        | .copy b order elems out =>
          let (wait, more, s) := readElems o.team tm.ctx tm.core b order elems s
          let out := out ++ more
          if wait ≠ [] then setKind s op (.copy b order wait out)
          else endEngine (setKind s op (.copy b order [] out)) op fun s =>
            countDst (writeDsts o.team tm.ctx tm.core b (joinDst out) s) b out.length
        | .expand b _ dst n w tab at_ ps =>
          if (tableLoads s tm.core tab).any fun e => e.1 < op then s
          else
            endEngine s op fun s =>
              let s := expandFrom o.team tm.core b dst w tab at_ ps n 0 s
              countDst (modBatch s b fun q => { q with bytes := q.bytes + streamBytes w n }) b (32 * n)
        | .plain | .load .. | .flags .. | .awl .. | .cbld .. | .batch .. | .bufs .. | .stage .. | .matrix .. | .drain .. | .gload ..
        | .vpol .. | .spawn .. | .klaunch .. | .crpop .. | .bank .. | .ctxsave .. => s)

/-- A gathered element (R247): its bytes, or its cause. A line of the package is read at its home, as coherence asks (R246);
`far` tells that the index carries a package id, and any other address beyond the package's fails. -/
def awlRead (s : State) (ctx core b n : Nat) (far : Bool) (ea : DWord) : Except Nat (List Byte × State) :=
  let a := if far then localize s ea else ea
  if a.extractLsb' 52 12 = 0 || !far then
    match checkGlobal s ctx a n .nm false with
    | .error f => .error f.cause
    | .ok loc => .ok (memBytes s.mem loc.pa n, noteError (xlatFill s core ctx a.toNat loc) b loc.pa)
  else if a.toNat % n ≠ 0 then .error 0x14
  else match (if fabricRoute s a then fabricBytes s a n else none) with
    | none => .error 0x18
    | some bs => .ok (bs, modBatch s b fun q => { q with flags := q.flags ||| 8 })

/-- An index carries a package id (R190). -/
def farIndex (ix : Index) (x : Nat) : Bool := ix.iw = .b64 && x / 2 ^ 52 ≠ 0

/-- The gather of an operation. -/
def OpKind.gather : OpKind → Option Awl
  | .awl _ _ a => some a
  | _ => none
def gatherOf (s : State) (op : Nat) : Option Awl := (sget s.ops op).bind fun o => if opFrozen s o then none else o.kind.gather

/-- Changes a gather. -/
def OpKind.modGather (f : Awl → Awl) : OpKind → OpKind
  | .awl b o a => .awl b o (f a)
  | k => k
def modAwl (s : State) (op : Nat) (f : Awl → Awl) : State :=
  { s with ops := smod s.ops op fun o => { o with kind := o.kind.modGather f } }

/-- Reads index i of the list, by a read of its own (R248). -/
def awlIndex (s : State) (core b op : Nat) (a : Awl) (i : Nat) : State :=
  let iw := ewBytes a.ix.iw
  let p := placeAt a.list (a.listAt + i * iw)
  let bs := pathLine s core .nm (placeLoc p) (lineOf p.pa)
  modAwl (noteError (fillLine s core .nm (placeLoc p) (lineOf p.pa) false) b p.pa) op fun a => { a with idx := sset a.idx i (leNat ((bs.drop (p.pa % 128)).take iw)) }

/-- Reads the element that index i names; a protection violation freezes the engine (R378). -/
def awlElem (s : State) (ctx core b order op : Nat) (a : Awl) (i ix : Nat) : State :=
  let n := ewBytes a.ew
  let put := fun s v => modAwl s op fun a => { a with vals := sset a.vals i v }
  if isSentinel a.ix ix then put (modBatch s b fun q => { q with flags := q.flags ||| 2 }) none
  else
    let ea := idxAddr a.base a.ix ix
    let far := farIndex a.ix ix
    let la := if far then localize s ea else ea
    match awlRead s ctx core b n far ea with
    | .error c =>
      if c = 0x100 then freezeEngine s .gather core ctx core la (violationCause s)
      else put (batchFault s b order i c la) none
    | .ok (bs, s) => put (modBatch s b fun q => { q with bytes := q.bytes + n }) (some bs)

/-- An element of a gather gets on in this step, at free choices: its index is read, and what it names (R246, R248). -/
def awlStep (ctx core b order op : Nat) (s : State) (i : Nat) : State :=
  let go := fun k => !delays s (2 ^ 47 + 2 * i + k)
  let s := match gatherOf s op with
    | some a => if (sget a.idx i).isNone && go 0 then awlIndex s core b op a i else s
    | none => s
  match gatherOf s op with
  | some a => match sget a.idx i with
    | some ix => if (sget a.vals i).isNone && go 1 then awlElem s ctx core b order op a i ix else s
    | none => s
  | none => s

/-- Writes the burst of elements from `next` to `last`, and 0 after the last element of all (R247). -/
def awlWrite (s : State) (t b : Nat) (a : Awl) (last : Nat) : State :=
  let ew := ewBytes a.ew
  let s := modTeam s t fun tm => (List.range (last - a.next)).foldl (fun tm k =>
    match sget a.vals (a.next + k) with
    | some (some bs) => spWrite tm (a.dst + ew * (a.next + k)) bs
    | some none => tm
    | none => tm) tm
  let fill := (64 - last * ew % 64) % 64
  countDst (if last = a.n then modTeam s t fun tm => spWrite tm (a.dst + last * ew) (List.replicate fill 0) else s) b 64

/-- An Awl returns one 64-byte burst, once the elements it packs have been read (R246, R247). -/
def awlBurst (s : State) (op : Nat) (o : Op) (b order : Nat) (a : Awl) : State :=
  let last := min a.n (a.next + 64 / ewBytes a.ew)
  if (List.range (last - a.next)).any fun k => (sget a.vals (a.next + k)).isNone then s
  else if last = a.n then endEngine s op fun s => awlWrite s o.team b a last
  else setKind (awlWrite s o.team b a last) op (.awl b order { a with next := last })

/-- AWL_BURST: elements are read, and a burst is returned. -/
def execAwlBurst (op : Nat) (s : State) : Out :=
  .next (match sget s.ops op with
    | none => s
    | some o => match sget s.teams o.team, o.kind with
      | some tm, .awl b order a =>
        let s := (List.range a.n).foldl (awlStep tm.ctx tm.core b order op) s
        match gatherOf s op with
        | some a => awlBurst s op o b order a
        | none => s
      | _, _ => s)

/-- Every request of a batch has completed. -/
def requestsDone (s : State) (q : Batch) : Bool := q.live.all fun n => (sget s.ops n).isNone

/-- Posts that a batch owes: whole chunks, and the last partial one when every request has completed (R237). -/
def chunksDue (s : State) (q : Batch) : Nat := if requestsDone s q then (q.dst + 4095) / 4096 else q.dst / 4096

/-- One chunk post. -/
def execChunkPost (batch : Nat) (s : State) : Out :=
  .next (match sget s.batches batch with
    | none => s
    | some q => if !unitFrozen s .copy q.core && q.close.isSome && q.sem.isSome && q.posted < chunksDue s q then postChunks s batch 1 else s)

/-- The record of a batch (R235). -/
def recordWord (s : State) (q : Batch) (tag : Word) (c : Nat) : Nat :=
  let status := if q.err then 3 else if q.fault.isSome then 2 else 1
  let cause := (q.fault.map fun f => f.2.2.1).getD 0
  let addr := (q.fault.map fun f => f.2.2.2.toNat).getD 0
  status + cause * 2 ^ 8 + q.flags.toNat * 2 ^ 20 + c * 2 ^ 32 + tag.toNat * 2 ^ 64
    + min q.bytes 0xFFFFFFFF * 2 ^ 96 + addr * 2 ^ 128 + timeOf s % 2 ^ 64 * 2 ^ 192

/-- An earlier batch of the team that names the ring has not taken its count (R236). -/
def ringBefore (s : State) (q : Batch) (c : BatchClose) : Bool :=
  s.batches.any fun e => e.2.team = q.team && (match e.2.close with
    | some d => d.desc.pa = c.desc.pa && d.op < c.op
    | none => false)

/-- Steps 3 and 4 of R236: takes a count of the ring and writes the record, or finds the ring full. -/
def writeRecord (s : State) (b : Nat) : State :=
  match sget s.batches b with
  | none => s
  | some q => match q.close, (sget s.teams q.team) with
    | some c, some tm =>
      if unitFrozen s .copy q.core || !requestsDone s q || (q.sem.isSome && q.posted ≠ chunksDue s q) || ringBefore s q c then s
      else
        let s := noteError s b c.desc.pa
        let q := sgetD s.batches b q
        let n := ringProd s c.desc
        if 2 ^ c.logn ≤ (n + 2 ^ 32 - ringCons s c.desc) % 2 ^ 32 then modBatch s b fun q => { q with full := true }
        else
          let die := some (coreDie q.core)
          let s := homeWrite s tm.ctx die (c.desc.va + 12) (c.desc.pa + 12) c.desc.mv c.desc.tracked (natLe 4 (n + 1))
          let p := placeAt c.ring (recordOff c.base c.logn n)
          let s := homeWrite s tm.ctx die p.va p.pa p.mv p.tracked (natLe 32 (recordWord s q c.tag n))
          let s := if q.mark || p.mv || c.desc.mv then forkAll s tm.ctx else s
          completeOp { s with batches := serase s.batches b } c.op
    | _, _ => s

/-- A closed batch completes. -/
def execBatchComplete (batch : Nat) (s : State) : Out := .next (writeRecord s batch)

/-- A batch that found its ring full tries again. -/
def execRingFullRetry (batch : Nat) (s : State) : Out :=
  .next (match sget s.batches batch with
    | some q => if q.full then writeRecord s batch else s
    | none => s)

/-- A codebook load takes effect (R241). -/
def loadTable (s : State) (op tab : Nat) (img : Place) : State :=
  match (sget s.ops op).bind fun o => (sget s.teams o.team).map fun tm => (o.team, tm) with
  | none => s
  | some (t, tm) =>
    let bytes := (List.range 64).flatMap fun k =>
      pathLine s tm.core .cp (placeLoc img) (lineOf img.pa + k)
    let s := (List.range 64).foldl (fun s k =>
      let s := if s.poison.contains (lineOf img.pa + k) then countUe s else s
      fillLine s tm.core .cp (placeLoc img) (lineOf img.pa + k) false) s
    let entries := (List.range 256).map fun i => BitVec.ofNat 256 (leNat ((bytes.drop (32 * i)).take 32))
    modCore s tm.core fun c => { c with codebooks := sset c.codebooks tab (t, entries) }

end Sys2Proof.Machine
end

