-- ==== Sys2Proof/Machine/Sources.lean ====
section
/-! DEFINITION. Source operands of the instructions of groups, and what their collection costs: inter-slice reads (R41) and the
collector cycles of moved threads (R90, R146). A pair is two operands. -/

namespace Sys2Proof.Machine

/-- A register, a pair, and a run of registers. -/
def r1 (a : VReg) : List Nat := [a.toNat]
def r2 (a : VReg) : List Nat := [a.toNat, a.toNat + 1]
def rn (a : VReg) (n : Nat) : List Nat := (List.range n).map fun i => a.toNat + i

/-- Registers of data of a width, and of an element or an index of a width. -/
def widthRegs : Width → Nat | .b8 => 1 | .b16 => 1 | .b32 => 1 | .b64 => 2 | .b128 => 4
def ewRegs : EWidth → Nat | .b8 => 1 | .b16 => 1 | .b32 => 1 | .b64 => 2
/-- The address of an access: a register for scratchpad, else a pair. -/
def addrRegs (sp : Bool) (a : VReg) : List Nat := if sp then r1 a else r2 a

/-- The vector registers that an instruction of a group reads as operands. -/
def srcRegs : Instr → List Nat
  | .iadd _ _ a b _ | .isub _ _ a b _ | .iaddx _ _ a b _ _ | .imin _ _ a b _ | .imax _ _ a b _ | .imul _ _ a b | .imulh _ _ a b _
  | .imulw _ _ a b _ | .idiv _ _ a b _ | .imod _ _ a b _ | .and _ _ a b | .or _ _ a b | .xor _ _ a b | .andn _ _ a b | .shl _ _ a b _
  | .shr _ _ a b _ _ | .rot _ _ a b _ | .bfx _ _ a b _ | .icmp _ _ a b _ _ _ | .isel _ _ a b _ | .fadd _ _ a b _ _ _
  | .fsub _ _ a b _ _ _ | .fmul _ _ a b _ _ _ | .fmin _ _ a b _ _ | .fmax _ _ a b _ _ | .fcmp _ _ a b _ _ | .hadd2 _ _ a b _ _ _ _
  | .hmul2 _ _ a b _ _ _ _ | .hmin2 _ _ a b _ _ _ | .hmax2 _ _ a b _ _ _ | .hcmp2 _ _ a b _ _ _ | .shfl _ _ a b _ _ => r1 a ++ r1 b
  | .iaddImm _ _ a _ _ | .isubImm _ _ a _ _ | .ineg _ _ a _ | .iabs _ _ a _ | .iminImm _ _ a _ _ | .imaxImm _ _ a _ _ | .imulImm _ _ a _
  | .imulhImm _ _ a _ _ | .andImm _ _ a _ | .orImm _ _ a _ | .xorImm _ _ a _ | .andnImm _ _ a _ | .not _ _ a | .shlImm _ _ a _ _
  | .shrImm _ _ a _ _ _ | .rotImm _ _ a _ _ | .popc _ _ a | .clz _ _ a | .ffs _ _ a | .brev _ _ a | .icmpImm _ _ a _ _ _ | .mov _ _ a
  | .frnd _ _ a _ _ | .fclass _ _ a | .frcp _ _ a _ _ | .frsq _ _ a _ | .fsqrt _ _ a _ _ | .fex2 _ _ a _ | .flg2 _ _ a _ | .fsin _ _ a _
  | .fcos _ _ a _ | .cvtfi _ _ a _ _ _ _ | .cvtff _ _ a _ _ _ _ | .bpdq _ _ a _ | .bppk _ _ a | .bpupk _ _ a _ | .shflImm _ _ a _ _ _
  | .redux _ _ a _ _ _ | .lydrop _ a | .vdrop _ a | .vgen _ _ a _ | .vpol _ a _ | .vstat _ _ a _ | .brx _ a _ _
  | .pmctl _ a _ _ => r1 a
  | .imad _ _ a b c | .lop3 _ _ a b c _ | .lop3Hi _ _ a b c _ | .shf _ _ a b c _ _ | .bfi _ _ a b c | .ffma _ _ a b c _ _ _ _
  | .hfma2 _ _ a b c _ _ _ _ _ => r1 a ++ r1 b ++ r1 c
  | .imadw _ _ a b c _ => r1 a ++ r1 b ++ r2 c
  | .lea _ _ a b _ _ | .shl64 _ _ a b _ | .shr64 _ _ a b _ _ => r2 a ++ r1 b
  | .leaImm _ _ a _ _ _ | .add64Imm _ _ a _ | .shl64Imm _ _ a _ _ | .shr64Imm _ _ a _ _ _ | .ldk _ _ a _ _ _ | .lyld _ _ a _
  | .cinv _ a _ _ | .pref _ a _ _ | .cbld _ a _ | .crwait _ _ a | .crpop _ a _ | .done _ a _ | .deq _ _ a _
  | .callx _ a | .ret _ a | .ebset _ a | .ctxsave _ a => r2 a
  | .add64 _ _ a b | .sub64 _ _ a b | .icmp64 _ _ a b _ _ _ | .twalk _ _ a b _ | .vreg _ _ a b _ | .spawn _ a b _ => r2 a ++ r2 b
  | .cvtif _ _ a ik _ _ => match ik with | .s32 => r1 a | .u32 => r1 a | .s64 => r2 a | .u64 => r2 a
  | .bpq _ _ a b _ xs => if xs then r1 a ++ r1 b else r1 a
  | .pmov _ f => match f with | .toV _ => [] | .fromV _ a => r1 a
  | .matchV _ _ a _ b64 => addrRegs (!b64) a
  | .ld _ _ a _ _ _ _ sp => addrRegs sp a
  | .st _ d a _ w sp => rn d (widthRegs w) ++ addrRegs sp a
  | .ldx _ _ a _ _ _ => r1 a
  | .stx _ d a _ w => rn d (widthRegs w) ++ r1 a
  | .gath _ _ a b ix _ _ sp => addrRegs sp a ++ rn b (ewRegs ix.iw)
  | .scat _ d a b ix ew sp => rn d (ewRegs ew) ++ addrRegs sp a ++ rn b (ewRegs ix.iw)
  | .ldl _ _ a _ => rn a 6
  | .vsync _ d a cur => if cur then r1 a else r1 a ++ r2 d
  | .cpyc _ d a _ _ => r1 d ++ r2 a
  | .stl _ d a _ => r1 d ++ rn a 6
  | .atom _ d a _ os _ | .ared _ d a _ os _ => r1 d ++ addrRegs (osSp os) a
  | .acas _ _ a b c os w64 => addrRegs (osSp os) a ++ addrRegs (!w64) b ++ addrRegs (!w64) c
  | .waitph _ d _ _ _ src => if src then r1 d else []
  | .cpy _ a b dir _ _ _ => addrRegs (cpySrcSp dir) a ++ addrRegs (cpyDstSp dir) b
  | .cpyl _ a b c _ _ _ => rn a 6 ++ r1 b ++ r1 c
  | .cpyd _ _ a b c _ _ _ _ => r2 a ++ r1 b ++ r1 c
  | .gathn _ d a b _ _ _ _ _ => r2 d ++ r2 a ++ r2 b
  | .spawnc _ _ a b c _ => r2 a ++ r2 b ++ r1 c
  | .enq _ a b _ => r2 a ++ rn b 4
  | .klaunch _ a b cnt => if cnt then r2 a ++ r2 b else r2 a
  | .swrite _ a _ pair => addrRegs (!pair) a
  | .trctl _ a mode _ => match mode with | .off => [] | .trace => r2 a | .sample => r2 a | .both => r2 a
  | .qbind _ a b _ sc n => rn a n.toNat ++ (if sc then r1 b else [])
  | .movi .. | .movg .. | .plop .. | .vote .. | .fence .. | .pfence .. | .semp .. | .semw .. | .semx .. | .arrive .. | .bufs ..
  | .bufw .. | .bra .. | .call .. | .join | .exit _ | .nop _ | .waitdc .. | .trap .. | .tfence _ | .yield _ | .rth | .sread ..
  | .bkpt .. | .halt _ | .qrel .. | .mma .. | .smma .. | .gmov .. | .gmovi .. | .gadd .. | .gmul .. | .gshl .. | .gcmp .. | .gld ..
  | .gbra .. | .gloop .. | .qset .. | .qlop .. | .mend | .accz .. | .jmac .. | .jins .. | .accsp .. | .accdr .. | .acccnt ..
  | .packetNop .. | .launch .. | .packetFence .. | .signal .. | .edge .. | .inval .. | .timestamp .. | .errClear _ | .readAhead _
  | .queueParse _ | .contextRegister .. | .queueRegister .. | .partitionConfig _ | .clusterMove .. | .translationInvalidate ..
  | .rdcResize .. | .savePoolRegister .. | .coreImageAreaRegister .. | .hostChannelBind .. | .cinchIdAssign .. | .contextEnd _
  | .checkpoint _ | .attestationReport _ | .debugStop .. | .debugResume .. | .debugRegisterWrite _ | .teamPlace _ | .clauseFetch _
  | .transferResolve .. | .formation _ | .joinRelease .. | .teamComplete _ | .gridComplete _ | .longLatencyComplete _ | .storeDrain ..
  | .bufferTransition .. | .semaphoreWaitRelease _ | .bufferWaitRelease _ | .classWWaitRelease _ | .edgeRetry _ | .batchComplete _
  | .ringFullRetry _ | .chunkPost _ | .copyRequestComplete _ | .awlBurst _ | .uncorrectableError _ | .skiverRefresh .. | .matrixComplete _
  | .energyDebitWaitEnd _ | .budgetRefill _ | .qbindLatch .. | .sequencerTrapDelivery _ | .cooperativeSave _ | .preemptDeadline _
  | .savePoolWaitEnd _ | .nearArrayRebalance _ | .packetPoll _ | .traceSync _ | .directoryRequest .. | .directoryMerge ..
  | .fabricInboundRequest .. | .flitCrcRetry _ | .linkPortFail _ | .hostChannelAccess .. | .correctedError .. | .spareActivation _
  | .dieFaultReplay _ | .journalFull | .firmwareVerify .. | .thermalThrottle .. | .sample .. | .issueSelect .. | .coreReset _
  | .preemptRequest .. | .debuggerAttach .. | .fabricAccessOpen _ | .criticalTemperature _ => []

/-- The tag bit of the slice that a word reads from, by the blocks of the opcode map (R48): I, F, M and X are bits 3 to 0. -/
def unitBit (opc : Nat) : Nat :=
  if opc < 0x80 then 3 else if opc < 0x100 then 2 else if opc < 0x102 then 3 else if opc < 0x140 then 0 else if opc < 0x280 then 1
  else if opc < 0x300 then 3 else 0

/-- Source operands that some member's register lacks the unit's slice for. In handler mode h0 to h7 carry no slice tags: numbers
248 to 255 count no event there (log 88). -/
def interSlice (tm : Team) (g : Group) (opc : Nat) (i : Instr) : Nat :=
  ((srcRegs i).filter fun r => !(g.handler && 248 ≤ r) && (memberTids g).any fun t =>
    !(sgetD (sgetD tm.threads t default).tags r 0xF).getLsbD (unitBit opc)).length

/-- Collector cycles of one source operand: by the moved threads of the group, m of them. -/
def collectorCost (tm : Team) (k : Nat) (g : Group) : Nat :=
  let part := slotPartOf tm k
  let m := g.members.filter fun e => e.1 ≠ e.2 % 32 || part ≠ e.2 / 32 % 4
  (if m.any fun e => part ≠ e.2 / 32 % 4 then 2 else 1) * ((m.length + 7) / 8)

/-- Cycles that the collection of a word's operands adds to the collector leaf of its slot. -/
def collectCycles (tm : Team) (k : Nat) (g : Group) (w : DWord) (i : Instr) : Nat :=
  interSlice tm g (w.extractLsb' 54 10).toNat i + (srcRegs i).length * collectorCost tm k g

/-- The same for the word a group stands at. -/
def collectAt (tm : Team) (k : Nat) (g : Group) : Nat :=
  match wordOf g.clause g.wix with
  | none => 0
  | some w => match curInstr g.clause g.wix with
    | some i => collectCycles tm k g w i
    | none => 0

end Sys2Proof.Machine
end

