-- ==== Sys2Proof/Machine/Views.lean ====
section
/-! DEFINITION. View instructions, 0x240 to 0x245, and the Skiver's refresh (R297 to R315, R421). -/

namespace Sys2Proof.Machine

/-! ## Tokens (R298, R308) -/

/-- The registration that a token names. -/
def tokenView (s : State) (ctx tok : Nat) : Option View :=
  match (sget s.contexts ctx).bind fun c => sget c.views (tok % 64) with
  | none => none
  | some v => if v.live && v.tag = tok / 64 then some v else none

def modView (s : State) (ctx k : Nat) (f : View → View) : State :=
  modCtx s ctx fun c => { c with views := smod c.views k f }

/-- The token a word names. -/
def tokenOf (x : Site) (v : LView) (a : VReg) : Nat := (v.r x.lead a).toNat % 65536

def badToken (x : Site) (tok : Nat) : Trap := leadTrap x ⟨0x15, 5, 0, 0, BitVec.ofNat 64 tok⟩

/-- The master of a view. -/
def masterOf (s : State) (ctx : Nat) (v : View) : Master := (((sget s.contexts ctx).bind fun c => sget c.masters v.mbase)).getD default

/-- A word that acts on a valid token and writes a pair to every active thread. -/
def viewWord (h : Head) (d a : VReg) (f : State → Nat → Nat → View → DWord × State) (s : State) : Out :=
  .next (issue (memReq h .views (two [d] ++ one [a])) (fun x s =>
    if x.act = [] then idleIssue s x h
    else
      let tok := tokenOf x (x.view s) a
      match tokenView s x.tm.ctx tok with
      | none => .trap (badToken x tok)
      | some v =>
        let (w, s) := f s x.tm.ctx (tok % 64) v
        .retire (openLong s x h (groupOp x h.dc .plain) (x.act.map fun l => out2 l d w))) s)

/-! ## VREG (R297, R309) -/

/-- The element ranges of a record, elements out of bounds left out. -/
def recRanges (r : BitVec 512) (k : Kind) : List (Nat × Nat) :=
  if k = .bpi then [(recBase r, recBytes r k)]
  else (List.range (recBlocks r)).flatMap fun j => (List.range 32).filterMap fun l =>
    let i := blockCoord r j l
    if inBounds r i then some (elemAddr r k.esize i, k.esize) else none

/-- The first byte of some ranges in each 64 KiB page, pages rising. -/
def pageFirsts (rs : List (Nat × Nat)) : List Nat :=
  ((rs.flatMap fun r => rangeStarts r.1 r.2).foldl (fun (m : Store Nat) a =>
    sset m (a / 65536) (min a (sgetD m (a / 65536) a))) []).map Prod.snd

/-- A page of storage serves as a master's, or as a view's (R297): it is a local one. -/
def storageOk (s : State) (ctx va : Nat) (master : Bool) : Bool :=
  if 2 ^ 52 ≤ va then false
  else match translate s ctx va with
  | .error _ => false
  | .ok l => if master then l.mv && l.pte.getLsbD 58 else !l.mv && l.pte.getLsbD 63 && l.pte.getLsbD 1

/-- The first byte of storage on a page that does not serve. -/
def badStorage (s : State) (ctx : Nat) (rs : List (Nat × Nat)) (master : Bool) : Option Nat :=
  (pageFirsts rs).find? fun a => !storageOk s ctx a master

/-- Two ranges share a byte. -/
def rangesMeet (a n b m : Nat) : Bool := a < b + m && b < a + n

/-- The records' shapes are one. -/
def sameShape (r t : BitVec 512) : Bool := recRank r = recRank t && (List.range 5).all fun k => recDim r k = recDim t k

/-- Registers of R309: two records with their addresses and slots. -/
structure ViewReg where
  maddr : DWord
  vaddr : DWord
  mrec  : BitVec 512
  vrec  : BitVec 512
  mslot : DWord
  vslot : DWord

/-- A kind a master may have, and a view. -/
def masterKind (k : Kind) : Bool := k.isFloat || k = .int8
def viewKind (k : Kind) : Bool := k.isFloat || k = .int8 || k = .bpi

/-- The lowest slot of the view table that is free. -/
def freeView (c : Context) : Option Nat := (List.range 64).find? fun k => !((sget c.views k).map (·.live)).getD false

/-- Live views of a master. -/
def viewsOf (c : Context) (base : Nat) : List View := (c.views.filter fun e => e.2.live && e.2.mbase = base).map Prod.snd

/-- The checks of R309 that follow R171's, in order. -/
def vregBad (s : State) (ctx : Nat) (c : Context) (g : ViewReg) : Option AFault :=
  let f := fun sub (a : DWord) => (⟨0x15, sub, 0, 2, a⟩ : AFault)
  let mk := (slotOf g.mslot).kind
  let vk := (slotOf g.vslot).kind
  let mb := recBytes g.mrec mk
  let vb := recBytes g.vrec vk
  let sb := recScaleBytes g.vrec (slotOf g.vslot)
  let at18 := fun (a : Nat) => f 0x18 (BitVec.ofNat 64 a)
  if recBad g.mrec g.mslot || recSp g.mrec || recVid g.mrec ≠ 0 || !masterKind mk then some (f 7 g.maddr)
  else if recBad g.vrec g.vslot || recVid g.vrec = 0 || !viewKind vk then some (f 7 g.vaddr)
  else if 2 ^ 52 ≤ recBase g.vrec then some ⟨0x18, 0, 0, 2, g.vaddr⟩
  else if (freeView c).isNone || (viewsOf c (recBase g.mrec)).any fun v => recVid v.view = recVid g.vrec then some (f 0x17 g.vaddr)
  else match badStorage s ctx (recRanges g.mrec mk) true with
    | some a => some (at18 a)
    | none => match badStorage s ctx (recRanges g.vrec vk) false with
      | some a => some (at18 a)
      | none => match badStorage s ctx [(recSbase g.vrec, sb)] false with
        | some a => some (at18 a)
        | none =>
          if !sameShape g.mrec g.vrec || (viewsOf c (recBase g.mrec)).any (fun v => !sameShape v.master g.mrec)
              || rangesMeet (recBase g.mrec) mb (recBase g.vrec) vb || rangesMeet (recBase g.mrec) mb (recSbase g.vrec) sb then
            some (f 0x19 g.vaddr)
          else none

/-- Registers a view at a moment of the timebase: the token, and the context. -/
def register (now : Nat) (c : Context) (g : ViewReg) (pol : ViewPol) : Nat × Context :=
  let k := (freeView c).getD 0
  let old := (sgetD c.views k default).tag
  let tag := if 1023 ≤ old then 1 else old + 1
  let base := recBase g.mrec
  let m := sgetD c.masters base { mg := 1, time := now, dirty := [], wg := [], base := 1 }
  let v : View :=
    { tag := tag, live := true, master := g.mrec, view := g.vrec, slot := g.vslot, mslot := g.mslot, policy := pol, state := .active,
      gens := [], times := [], queued := (List.range (recBlocks g.vrec)).map fun j => (j, m.mg), sr := false, flags := 0 }
  (tag * 64 + k, { c with views := sset c.views k v, masters := sset c.masters base m })

/-- VREG's two records with the slots their FS fields name, and the machine after their reads; `lm` and `lv` are their places. -/
def vregRead (s : State) (x : Site) (ma va : DWord) (lm lv : Loc) : ViewReg × State :=
  let w := x.who x.lead
  let m := recordAt (xlatFill (xlatFill s x.tm.core x.tm.ctx ma.toNat lm) x.tm.core x.tm.ctx va.toNat lv) w .ly lm
  let v := recordAt m.2 w .ly lv
  ({ maddr := ma, vaddr := va, mrec := m.1, vrec := v.1, mslot := fsRead x.lr (BitVec.ofNat 3 (recFs m.1)),
     vslot := fsRead x.lr (BitVec.ofNat 3 (recFs v.1)) }, v.2)

/-- VREG of the records read: a failing check of R309, or the registration. -/
def vregEnd (h : Head) (d : VReg) (pol : ViewPol) (x : Site) (g : ViewReg × State) : Res :=
  match sget g.2.contexts x.tm.ctx with
  | none => .stall
  | some c => match vregBad g.2 x.tm.ctx c g.1 with
    | some f => .trapIn g.2 (leadTrap x f)
    | none =>
      let r := register (timeOf g.2) c g.1 pol
      .retire (openLong (modCtx g.2 x.tm.ctx fun _ => r.2) x h (groupOp x h.dc .plain)
        (x.act.map fun l => out1 l d (BitVec.ofNat 32 r.1)))

/-- VREG. -/
def execVreg (h : Head) (d a b : VReg) (pol : ViewPol) (s : State) : Out :=
  .next (issue (memReq h .views (one [d] ++ two [a, b])) (fun x s =>
    if x.act = [] then idleIssue s x h
    else
      let v := x.view s
      let ma := v.r64 x.lead a
      let va := v.r64 x.lead b
      match checkGlobal s x.tm.ctx ma 64 .ly false, checkGlobal s x.tm.ctx va 64 .ly false with
      | .ok lm, .ok lv => vregEnd h d pol x (vregRead s x ma va lm lv)
      | rm, rv => match pickFault [failOf rm, failOf rv] with
        | some f => .trap (leadTrap x f)
        | none => .stall) s)

/-! ## VDROP, VSYNC, VGEN, VPOL, VSTAT -/

/-- A view leaves the table; a master without views is removed (R310). -/
def dropView (s : State) (ctx k : Nat) (v : View) : State :=
  modCtx s ctx fun c =>
    let c := { c with views := smod c.views k fun v => { v with live := false, queued := [] } }
    if viewsOf c v.mbase = [] then { c with masters := serase c.masters v.mbase } else c

/-- VDROP: an invalid token is ignored. A refresh runs in one step, so none is running. -/
def execVdrop (h : Head) (a : VReg) (s : State) : Out :=
  .next (issue (memReq h .views (one [a])) (fun x s =>
    if x.act = [] then idleIssue s x h
    else
      let tok := tokenOf x (x.view s) a
      let s := match tokenView s x.tm.ctx tok with
        | none => s
        | some v => dropView s x.tm.ctx (tok % 64) v
      .retire (openLong s x h (groupOp x h.dc .plain) [])) s)

/-- The least generation among a view's blocks. -/
def leastGen (v : View) : Nat :=
  match (List.range (recBlocks v.view)).map fun j => sgetD v.gens j 0 with
  | [] => 0
  | g :: gs => gs.foldl min g

/-- VSYNC's issue, and its later tries: the generation it waits for is fixed at its issue. -/
def vsyncIssue (h : Head) (d a : VReg) (cur waited : Bool) (s : State) : State :=
  issue (memReq h .views ((if cur then [] else two [d]) ++ one [a])) (fun x s =>
    if x.act = [] then .retire s
    else
      let v := x.view s
      let tok := tokenOf x v a
      match tokenView s x.tm.ctx tok with
      | none => .trap (badToken x tok)
      | some vw =>
        let goal := if waited then x.g.gArg.toNat else if cur then (masterOf s x.tm.ctx vw).mg else (v.r64 x.lead d).toNat
        if vw.state = .suspended then .trap (leadTrap x ⟨0x1C, 0, 0, 0, BitVec.ofNat 64 tok⟩)
        else if goal ≤ leastGen vw then .retire (acquireBy s x .dev)
        else .wait (modTeam s x.t fun tm => modGroup tm x.k fun g => { g with gArg := BitVec.ofNat 64 goal })) s

/-- VSYNC. -/
def execVsync (h : Head) (d a : VReg) (cur : Bool) (s : State) : Out := .next (vsyncIssue h d a cur false s)

/-- VGEN. -/
def execVgen (h : Head) (d a : VReg) (view : Bool) (s : State) : Out :=
  viewWord h d a (fun s ctx _ v =>
    (BitVec.ofNat 64 (if view then leastGen v else (masterOf s ctx v).mg), s)) s

/-- VPOL: the policy is in force from its completion. -/
def execVpol (h : Head) (a : VReg) (pol : ViewPol) (s : State) : Out :=
  .next (issue (memReq h .views (one [a])) (fun x s =>
    if x.act = [] then idleIssue s x h
    else
      let tok := tokenOf x (x.view s) a
      match tokenView s x.tm.ctx tok with
      | none => .trap (badToken x tok)
      | some _ => .retire (openLong s x h (groupOp x h.dc (.vpol (tok % 64) (tok / 64) pol)) [])) s)

def polCode : ViewPol → Nat | .wait => 0 | .stale => 1 | .fault => 2

/-- The status word (R314). -/
def viewStatus (c : Context) (v : View) : DWord :=
  let stale := ((List.range (recBlocks v.view)).filter fun j => !viewFresh c v j).length
  BitVec.ofNat 64 (min stale 65535 * 2 ^ 48 + recVid v.view * 2 ^ 20 + v.sr.toNat * 2 ^ 11 + v.flags.toNat * 2 ^ 7
    + polCode v.policy * 2 + (match v.state with | .active => 0 | .suspended => 1))

/-- VSTAT. -/
def execVstat (h : Head) (d a : VReg) (clr : Bool) (s : State) : Out :=
  viewWord h d a (fun s ctx k v =>
    (viewStatus ((sget s.contexts ctx).getD default) v,
      if clr then modView s ctx k fun v => { v with sr := false, flags := 0 } else s)) s

/-! ## Refresh (R303, R304, R306, R421) -/

/-- One master element of a block: position and address. -/
def blockElems (v : View) (j : Nat) : List (Nat × Nat) :=
  (List.range 32).filterMap fun l =>
    let i := blockCoord v.master j l
    if inBounds v.master i then some (l, elemAddr v.master v.mkind.esize i) else none

/-- A master element's value. -/
def masterVal (v : View) (n : Nat) : FVal :=
  let sl := slotOf v.mslot
  if sl.kind.isFloat then fdec sl.kind.fmt n
  else
    let t := planeValue (BitVec.ofNat 8 n) 8 sl.sgn false
    fdec .f32 (froundZ .f32 .rn (Q.ofInt t) false).v

/-- What a value becomes in a view (R303); a signalling NaN raises NV (R78). -/
def viewCode (sl : Slot) (byte : Byte) (x : FVal) : FRes :=
  match x with
  | .fin _ _ _ => roundTo sl x.q (if sl.scaled then scaleVal byte else Q.ofInt 1)
  | .nan sig => if sl.kind.isFloat then ⟨sl.kind.fmt.nan, if sig then Flags.nv else 0⟩ else ⟨0, Flags.nv⟩
  | .inf neg =>
    if sl.kind.isFloat then ⟨finf sl.kind.fmt neg, 0⟩
    else ⟨if sl.sat then ((if neg then (codeRange sl).1 else (codeRange sl).2) % 256).toNat else 0, Flags.nv⟩

/-- NV, OF, UF and NX of a refresh, as the view's status holds them (R314). -/
def viewFlags (f : Flags) : BitVec 4 := f.extractLsb' 4 1 ++ f.extractLsb' 0 3

/-- Places of some accesses at their pages, or the first failure: cause and address; kinds may not differ (R200, R306). -/
def skiverPlaces (s : State) (ctx : Nat) (p : Path) (write : Bool) : Option Nat → List (Nat × Nat) → Except (Nat × Nat) (List (Nat × Loc))
  | _, [] => .ok []
  | ord, (va, n) :: t =>
    match checkGlobal s ctx (BitVec.ofNat 64 va) n p write with
    | .error f => .error (f.cause, va)
    | .ok l =>
      if (match ord with | none => false | some o => o ≠ l.ord) then .error (0x13, va)
      else if s.poison.contains (lineOf l.pa) && !write then .error (0, va)
      else match skiverPlaces s ctx p write (some l.ord) t with
        | .error e => .error e
        | .ok r => .ok ((va, l) :: r)

/-- The writes of a refreshed block: address and bytes. -/
def blockWrites (v : View) (j : Nat) (byte : Byte) (codes : List (Nat × Nat)) : List (Nat × List Byte) :=
  let code := fun l => ((codes.find? fun e => e.1 = l).map Prod.snd).getD 0
  if v.vkind = .bpi then
    (if (slotOf v.slot).scaled then [(scaleAddr v.view j, [byte])] else [])
    ++ (List.range 8).map fun q =>
        (planeAddr v.view j (7 - q),
          natLe 4 ((List.range 32).foldl (fun w l => w + (if nbit (code l) (7 - q) then 2 ^ l else 0)) 0))
  else
    codes.map fun (l, c) => (elemAddr v.view v.vkind.esize (blockCoord v.view j l), natLe v.vkind.esize c)

/-- Every VW path cache of the package drops a line, and so does what a batch keeps of it (R304). -/
def vwDrop (s : State) (line : Nat) : State :=
  { s with
    cores := s.cores.map fun e => (e.1, { e.2 with paths := serase e.2.paths (8 * line + 5) }),
    batches := s.batches.map fun e => (e.1, { e.2 with lines := serase e.2.lines (8 * line + 5) }) }

/-- The Skiver's writes. -/
def skiverWrites (ctx : Nat) : List ((Nat × List Byte) × (Nat × Loc)) → State → State
  | [], s => s
  | ((_, bs), (va, l)) :: t, s =>
    skiverWrites ctx t (homeWrite (vwDrop s (lineOf l.pa)) ctx none va l.pa l.mv l.tracked bs)

/-- A view is suspended (R306), with a notice of kind 1. A protection violation also freezes the Skiver's threads of the context,
with a notice of a core that the manual does not name (R378, log 40); poisoned data counts in UE (R379). -/
def suspendView (s : State) (ctx k g cause va : Nat) (v : View) : State :=
  let bad := cause = 0x100
  let cause := if bad then violationCause s else cause
  let s := if bad then freezeEngine s .skiver ctx ctx (Config.freeNat s.freeCtr 0x379 % 144) (BitVec.ofNat 64 va) cause
    else if cause = 0 then countUe s else s
  notice (modView s ctx k fun v => { v with state := .suspended, queued := [] }) ctx 1 cause (v.tag * 64 + k) g
    (BitVec.ofNat 64 va)

/-- The bytes of a block whose refresh failed are unspecified: those that can be written take free values. -/
def scrambled (s : State) (ctx k j : Nat) (ws : List (Nat × List Byte)) : State :=
  ws.foldl (fun st w =>
    match checkPage s ctx w.1 .vw true false with
    | .error _ => st
    | .ok l => homeWrite (vwDrop st (lineOf l.pa)) ctx none w.1 l.pa l.mv l.tracked
        (natLe w.2.length (Config.freeWord s.freeCtr (64 * (w.1 + j) + k)).toNat)) s

/-- One refresh of a queued block, in one step. -/
def execSkiverRefresh (ctx slot block : Nat) (s : State) : Out :=
  .next (match (sget s.contexts ctx).bind fun c => sget c.views slot with
    | none => s
    | some v =>
      match sget v.queued block with
      | none => s
      | some g =>
        if !v.live || v.state = .suspended || unitFrozen s .skiver ctx then s
        else
          let es := blockElems v block
          let dummy := blockWrites v block 0 (es.map fun e => (e.1, 0))
          match skiverPlaces s ctx .ls false none (es.map fun e => (e.2, v.mkind.esize)) with
          | .error (c, va) => suspendView (scrambled s ctx slot block dummy) ctx slot g c va v
          | .ok ps =>
            let vals := es.zip ps |>.map fun (e, p) => (e.1, masterVal v (memNat s.mem p.2.pa v.mkind.esize))
            let sl := slotOf v.slot
            let fin := vals.filterMap fun e => match e.2 with | .fin _ _ _ => some e.2.q | .nan _ => none | .inf _ => none
            let byte := if sl.kind.isInt && sl.scaled then blockScale sl fin else 0x80
            let codes := vals.map fun e => (e.1, viewCode sl byte e.2)
            let ws := blockWrites v block byte (codes.map fun e => (e.1, e.2.v))
            match skiverPlaces s ctx .vw true none (ws.map fun w => (w.1, w.2.length)) with
            | .error (c, va) => suspendView (scrambled s ctx slot block dummy) ctx slot g c va v
            | .ok qs =>
              let fl := codes.foldl (fun f e => f ||| e.2.fl) 0
              let mg := (masterOf s ctx v).mg
              modView (skiverWrites ctx (ws.zip qs) s) ctx slot fun v =>
                { v.stamp block (max (sgetD v.gens block 0) (max g mg)) (timeOf s) with
                  queued := serase v.queued block, flags := v.flags ||| viewFlags fl })

end Sys2Proof.Machine
end

