-- ==== Sys2Proof/Machine/Launch.lean ====
section
/-! DEFINITION. Launches: launch records and buffer tables (R324 to R326), role sets and placement needs (R18, R20, R24),
ready queues and continuation records (R327, R328), kernel boundaries (R323) and new grids (R322). -/

namespace Sys2Proof.Machine

/-! ## The command processor's memory accesses (R320) -/

/-- Home bytes of a range on the LS path of a context, or the cause of the first failure. -/
def cpPlaces (s : State) (ctx : Nat) (write : Bool) (va n : Nat) : Except Nat (List Place) :=
  match checkStarts s ctx .ls write (rangeStarts va n) with
  | .error f => .error f.cause
  | .ok ps => .ok ps

def cpRead (s : State) (ctx va n : Nat) : Except Nat (List Byte) :=
  match cpPlaces s ctx false va n with
  | .error c => .error c
  | .ok ps => .ok ((List.range n).map fun i => memByte s.mem (placeAt ps (va + i)).pa)

/-- The bytes of a write that lie in one 64 KiB range each, with their addresses. -/
def cpPieces (va : Nat) (bs : List Byte) : List (Nat × List Byte) :=
  (rangeStarts va bs.length).map fun a => (a, (bs.drop (a - va)).take (65536 - a % 65536))

/-- A write on the LS path of a context by a party outside the dies: whether it met a master's page, and the state. -/
def extPut (s : State) (ctx va : Nat) (bs : List Byte) : Except Nat (Bool × State) :=
  match cpPlaces s ctx true va bs.length with
  | .error c => .error c
  | .ok ps =>
    .ok (ps.any (·.mv), (cpPieces va bs).foldl (fun s e =>
      let p := placeAt ps e.1
      homeWrite s ctx none e.1 p.pa p.mv p.tracked e.2) s)

/-- The command processor carries the mark of R300. -/
def cpMarked (s : State) (ctx : Nat) (b : Bool) : State := if b then modCtx s ctx fun c => { c with cpMark := true } else s

/-- A write of the command processor. -/
def cpWrite (s : State) (ctx va : Nat) (bs : List Byte) : Except Nat State :=
  (extPut s ctx va bs).map fun r => cpMarked r.2 ctx r.1

/-- A release at `.sys` by the command processor (R301). -/
def cpRelease (s : State) (ctx : Nat) : State :=
  if ((sget s.contexts ctx).map (·.cpMark)).getD false then modCtx (forkAll s ctx) ctx fun c => { c with cpMark := false } else s

/-- The atomic of a SIGNAL and of a completion (R320, R322), a release at `.sys`. -/
def cpSignal (s : State) (ctx : Nat) (op : SigOp) (addr val : DWord) : Except Nat State :=
  match cpRead s ctx addr.toNat 8 with
  | .error c => .error c
  | .ok bs =>
    let old := leNat bs
    let new := match op with | .write => val.toNat | .add => (old + val.toNat) % 2 ^ 64 | .umax => max old val.toNat
    match cpWrite s ctx addr.toNat (natLe 8 new) with
    | .error c => .error c
    | .ok s => .ok (cpRelease s ctx)

/-! ## Launch records (R325, R326) -/

/-- The buffers of a table, or `none` if the table is malformed. -/
def parseBufs (smin : Nat) : List Nat → Option (List (Nat × Nat × Nat))
  | [] => some []
  | e :: t =>
    let n := nbits e 34 6
    let size := nbits e 20 14 * 128
    let off := nbits e 0 13 * 128
    if e / 2 ^ 40 ≠ 0 || nbits e 13 7 ≠ 0 || size = 0 || 8192 * 128 < size || smin * 65536 < off + size then none
    else match parseBufs smin t with
      | none => none
      | some bs =>
        if bs.any fun b => b.1 = n || (off < b.2.1 + b.2.2 && b.2.1 < off + size) then none
        else some ((n, off, size) :: bs)

/-- A launch record at an address with its buffer table's entries; `none` if it is malformed. -/
def parseLaunch (addr r : Nat) (table : List Nat) : Option LaunchRec :=
  let f := fun lo w => nbits r lo w
  let threads := f 320 11
  let h := (threads + 31) / 32
  let m := if f 64 64 = 0 then 0 else 4
  let fs := (List.range 8).map fun i => BitVec.ofNat 64 (f (512 + 64 * i) 64)
  let tcl := f 405 2
  if f 1536 512 ≠ 0 || f 458 54 ≠ 0 || f 432 16 ≠ 0 || f 396 2 ≠ 0 || f 387 5 ≠ 0 || f 384 1 ≠ 0 || f 331 5 ≠ 0 then none
  else if threads = 0 || 1024 < threads || tcl = 3 then none
  else if f 368 16 = 0 || f 352 16 = 0 || f 336 16 = 0 || f 368 16 % 2 ^ tcl ≠ 0 then none
  else if f 453 5 < f 448 5 || 16 < f 453 5 || 64 < f 398 7 || 8 < f 407 4 || h - m < f 411 6 then none
  else if f 256 64 % 8 ≠ 0 || (f 398 7 = 0 && f 256 64 ≠ 0) || f 0 64 % 8 ≠ 0 || f 64 64 % 8 ≠ 0 || f 192 64 % 8 ≠ 0 then none
  else if !fs.all slotOk then none
  else match parseBufs (f 448 5) table with
    | none => none
    | some bufs => some
      { addr := addr, entry := f 0 64, stream := f 64 64, karg := BitVec.ofNat 64 (f 128 64), htvec := f 192 64,
        threads := threads, gridX := f 368 16, gridY := f 352 16, gridZ := f 336 16, determ := nbit r 385, priv := nbit r 386,
        prio := f 392 4, tcl := 2 ^ tcl, xslots := f 407 4, copyg := f 411 6, budV := 8 * (f 417 5 + 1), budC := 8 * (f 422 5 + 1),
        budM := 8 * (f 427 5 + 1), smin := f 448 5 * 65536, smax := f 453 5 * 65536, fs := fs,
        sems := (List.range 32).map fun i => f (1024 + 16 * i) 16, bufs := bufs }

/-- Entries of a buffer table, from its bytes. -/
def tableWords : Nat → List Byte → List Nat
  | 0, _ => []
  | n + 1, bs => leNat (bs.take 8) :: tableWords n (bs.drop 8)

/-! ## Role sets and needs (R18, R20, R24) -/

/-- Home groups of a team, those of the matrix role, and the role of home group h. -/
def homesOf (lr : LaunchRec) : Nat := (lr.threads + 31) / 32
def mgroupsOf (lr : LaunchRec) : Nat := if lr.stream = 0 then 0 else 4
def homeRole (mg cg h : Nat) : Role := if h < mg then .matrix else if h < mg + cg then .copy else .vector

/-- Registers that home groups need in a partition. -/
def regsNeed (homes mg cg budM budC budV part : Nat) : Nat :=
  ((List.range homes).filter fun h => h % 4 = part).foldl (fun n h =>
    n + 32 * (match homeRole mg cg h with | .matrix => budM | .copy => budC | .vector => budV)) 0

/-- The status that rejects a record that is well-formed: STREAM_GROUPS or UNPLACEABLE (R324), else 0. -/
def launchReject (lr : LaunchRec) : Nat :=
  if lr.stream ≠ 0 && homesOf lr < 4 then 3
  else if 64 < homesOf lr + lr.xslots
      || (List.range 4).any (fun p => 16384 < regsNeed (homesOf lr) (mgroupsOf lr) lr.copyg lr.budM lr.budC lr.budV p) then 4
  else 0

/-! ## Ready queues (R327, R328) -/

/-- Records stand by priority, saved teams first within one, then by entry. -/
def recBefore (a b : ContRec) : Bool :=
  b.prio < a.prio || (a.prio = b.prio && ((a.kind = .saved && b.kind ≠ .saved)
    || ((a.kind = .saved ↔ b.kind = .saved) && a.seqno < b.seqno)))

def recInsert (r : ContRec) : List ContRec → List ContRec
  | [] => [r]
  | q :: t => if recBefore r q then r :: q :: t else q :: recInsert r t

/-- Spill slots that continuations hold, and those that records beyond the head 4,096 hold. -/
def ownSlots (p : Partition) : List Nat := p.pool.map Prod.fst ++ p.ready.filterMap (·.slot)
def usedSpill (p : Partition) : List Nat := ownSlots p ++ p.ready.filterMap (·.spill)
def freeSpill (p : Partition) : Nat := p.spillN - (usedSpill p).length

/-- A record may enter now: those that then lie beyond the head 4,096 have slots. -/
def readyFits (p : Partition) (r : ContRec) : Bool :=
  let l := recInsert r p.ready
  l.length ≤ 4096 || ((l.drop 4096).filter fun r => r.slot.isNone).length + (ownSlots { p with ready := l }).length ≤ p.spillN

/-- The lowest free spill slot. -/
def lowSlot (p : Partition) : Nat :=
  let used := usedSpill p
  p.spillBase + 64 * (((List.range (used.length + 1)).find? fun i => !used.contains (p.spillBase + 64 * i)).getD 0)

/-- TCL as launch records and continuation records code it (R325). -/
def tclCode (n : Nat) : Nat := if n = 2 then 1 else if n = 4 then 2 else 0

/-- The 48 bytes of a record (R327). A pre-empted team's is laid out as its team's or task's. -/
def recBytesAt (s : State) (part : Nat) (r : ContRec) : List Byte :=
  let lr := (sgetD s.grids r.grid default).lrec
  let task := r.kind = .task || r.task
  let x := r.tidx % max 1 lr.gridX
  let y := r.tidx / max 1 lr.gridX % max 1 lr.gridY
  let z := r.tidx / max 1 lr.gridX / max 1 lr.gridY
  natLe 48 (r.code.toNat + r.frame.toNat * 2 ^ 64 + (x + y * 2 ^ 16 + z * 2 ^ 32) * 2 ^ 128
    + (if task then 2 ^ 200 else tclCode lr.tcl * 2 ^ 198) + part * 2 ^ 205
    + r.prio * 2 ^ 208 + r.join * 2 ^ 224 + r.time % 2 ^ 64 * 2 ^ 256 + lr.addr * 2 ^ 320)

/-- The slot that a record lies in. -/
def ContRec.place (r : ContRec) : Option Nat := match r.slot with | some a => some a | none => r.spill

/-- A record as its slot's bytes give it; none where a reserved field is not 0, or KIND or PART is not the record's (R3). -/
def recNow (s : State) (part : Nat) (r : ContRec) : Option ContRec :=
  match r.place with
  | none => some r
  | some a =>
    let lr := (sgetD s.grids r.grid default).lrec
    let n := memNat s.mem a 48
    let kind := if r.kind = .task || r.task then 1 else 0
    if nbits n 212 12 ≠ 0 || nbits n 202 3 ≠ 0 || nbits n 176 22 ≠ 0 || nbits n 200 2 ≠ kind || nbits n 205 3 ≠ part then none
    else some { r with
      code := BitVec.ofNat 64 n, frame := BitVec.ofNat 64 (n / 2 ^ 64), join := nbits n 224 32,
      tidx := nbits n 128 16 + max 1 lr.gridX * (nbits n 144 16 + max 1 lr.gridY * nbits n 160 16) }

/-- A record of a ready queue takes the lowest free slot. -/
def spillOne (part : Nat) (s : State) (r : ContRec) : State :=
  let r' := { r with spill := some (lowSlot (sgetD s.parts part default)) }
  { modPart s part fun p => { p with ready := p.ready.map fun q => if q.seqno = r.seqno then r' else q } with
    mem := memSets s.mem (lowSlot (sgetD s.parts part default)) (recBytesAt s part r') }

/-- The head 4,096 records lie in the Saddle's SRAM, the others in the spill area (R328). A record comes into the SRAM as its slot
holds it; one that breaks the rules of R327 there stays, and its pop finds it so. -/
def respill (s : State) (part : Nat) : State :=
  let s := modPart s part fun p =>
    { p with ready := p.ready.zipIdx.map fun e =>
      if e.2 < 4096 && e.1.spill.isSome then ((recNow s part e.1).map fun r => { r with spill := none }).getD e.1 else e.1 }
  (((sgetD s.parts part default).ready.drop 4096).filter fun r => r.place.isNone).foldl (spillOne part) s

/-- A record enters a ready queue. -/
def pushReady (s : State) (part : Nat) (r : ContRec) : State :=
  let r := { r with seqno := s.nextRec }
  respill { modPart s part fun p => { p with ready := recInsert r p.ready } with nextRec := s.nextRec + 1 } part

def modGrid (s : State) (n : Nat) (f : Grid → Grid) : State := { s with grids := smod s.grids n f }

/-- A continuation whose count has reached 0 leaves the pool for the ready queue, in its own slot (R334). -/
def moveReady (s : State) (part : Nat) (r : ContRec) : State :=
  match r.slot with
  | none => s
  | some a =>
    let p := sgetD s.parts part default
    let q := { p with pool := serase p.pool a }
    if !readyFits q r then s
    else pushReady (modGrid (modPart s part fun _ => q) r.grid fun g => { g with pool := g.pool - 1, tasks := g.tasks + 1 }) part r

/-- Slots have become free: records move up, and continuations that waited for room enter, by their slots (log 100). -/
def refill (s : State) (part : Nat) : State :=
  let s := respill s part
  (((sgetD s.parts part default).pool.map Prod.snd).filter fun r => r.join = 0).foldl (fun s r => moveReady s part r) s

/-- The record of a team or team cluster of a grid, by its place among them. -/
def teamRec (s : State) (n : Nat) (g : Grid) (i : Nat) : ContRec :=
  { grid := n, kind := .team, task := false, prio := g.lrec.prio, code := BitVec.ofNat 64 g.lrec.entry, frame := g.lrec.karg,
    tidx := i * g.lrec.tcl, join := 0, time := timeOf s, seqno := s.nextRec, slot := none, spill := none }

/-- Teams, and records of teams, of a grid. -/
def gridTeams (lr : LaunchRec) : Nat := lr.gridX * lr.gridY * lr.gridZ
def gridRecs (lr : LaunchRec) : Nat := gridTeams lr / max 1 lr.tcl

/-- Writes up to k TEAM records of a grid, in ascending team index. -/
def writeTeams (n : Nat) : Nat → State → State
  | 0, s => s
  | k + 1, s => match sget s.grids n with
    | none => s
    | some g =>
      if gridRecs g.lrec ≤ g.written || !readyFits (sgetD s.parts g.part default) (teamRec s n g g.written) then s
      else
        let s := pushReady s g.part (teamRec s n g g.written)
        writeTeams n k { s with grids := smod s.grids n fun g => { g with written := g.written + 1 } }

def allWritten (s : State) (n : Nat) : Bool :=
  match sget s.grids n with
  | none => true
  | some g => gridRecs g.lrec ≤ g.written

/-- A task's record. -/
def taskRec (s : State) (grid tidx prio : Nat) (code frame : DWord) : ContRec :=
  { grid := grid, kind := .task, task := false, prio := prio, code := code, frame := frame, tidx := tidx, join := 0, time := timeOf s,
    seqno := s.nextRec, slot := none, spill := none }

/-! ## Kernel boundaries (R323) -/

/-- The dies that hold a cluster of a partition. -/
def partDies (p : Partition) : List Nat := (p.clusters.map clusterDie).eraseDups

/-- Physical lines of listed ranges that translate. -/
def rangeLines (s : State) (ctx : Nat) (rs : List (DWord × DWord)) : List Nat :=
  rs.flatMap fun r => (List.range (r.2.toNat / 128)).filterMap fun k =>
    match translate s ctx (r.1.toNat + 128 * k) with
    | .error _ => none
    | .ok l => if (r.1.toNat + 128 * k) < 2 ^ 52 then some (lineOf l.pa) else none

/-- Drops some lines of a die's remote-data cache and L1s. -/
def dropLines (s : State) (die : Nat) (lines : List Nat) : State :=
  let s := { s with
    l1 := s.l1.filter fun e => !(clusterDie (l1Cluster e.1) = die && lines.contains (l1Line e.1)),
    mixed := s.mixed.filter fun e => !(clusterDie (e.1 % 64) = die && lines.contains (e.1 / 64)) }
  match sget s.dies die with
  | none => s
  | some _ => modDie s die fun d => { d with rdc := d.rdc.filter fun e => !lines.contains e.1 }

/-- The path caches of a partition's cores and clusters. -/
def partPathDrop (s : State) (p : Partition) : State :=
  { s with cores := s.cores.map fun e => if p.clusters.contains (coreCluster e.1) then (e.1, { e.2 with paths := [] }) else e }

/-- The kernel boundary of a launch; `none` for a bulk one. It forks for writes made by any party (R301). -/
def boundary (s : State) (ctx part : Nat) (listed : Option (List (DWord × DWord))) : State :=
  match sget s.parts part with
  | none => s
  | some p =>
    let s := match listed with
      | none => (partDies p).foldl genBump s
      | some rs =>
        let lines := rangeLines s ctx rs
        (partDies p).foldl (fun s d => dropLines s d lines) s
    modCtx (forkAll (partPathDrop s p) ctx) ctx fun c => { c with cpMark := false }

/-! ## The staging store's code (R26) -/

/-- The lines of the clause at an address, as they stand at the home; none where it cannot be read. -/
def clauseLines (s : State) (ctx a : Nat) : List (Nat × List Byte) :=
  let line := fun a => match checkPage s ctx a .k false true with
    | .error _ => []
    | .ok l => [(lineOf l.pa, homeLine s (lineOf l.pa))]
  if a % 8 ≠ 0 || 2 ^ 52 ≤ a then []
  else match checkPage s ctx a .k false true with
    | .error _ => []
    | .ok l =>
      let n := 8 * (nbits (memNat s.mem l.pa 8) 57 4 + 2)
      line a ++ (if 128 < a % 128 + n then line (a / 128 * 128 + 128) else [])

/-- What a read-ahead of a LAUNCH brings of the code at ENTRY and STREAM. -/
def stagedCode (s : State) (ctx : Nat) (lr : LaunchRec) : List (Nat × List Byte) :=
  clauseLines s ctx lr.entry ++ (if lr.stream = 0 then [] else clauseLines s ctx lr.stream)

/-! ## Grids (R322) -/

/-- A LAUNCH of the partition that was processed earlier still writes its records (R318). -/
def launchBefore (s : State) (n : Nat) (g : Grid) : Bool :=
  g.queue.isSome && s.grids.any fun e => e.1 < n && e.2.part = g.part && e.2.queue.isSome && e.2.written < gridRecs e.2.lrec

/-- The next record of a grid may be written. -/
def mayWrite (s : State) (n : Nat) (g : Grid) : Bool :=
  !launchBefore s n g && readyFits (sgetD s.parts g.part default) (teamRec s n g g.written)

/-- Writes the records of a grid for which there is room; its kernel boundary comes before the first (R323). -/
def writeAllTeams (s : State) (n : Nat) : State :=
  match sget s.grids n with
  | none => s
  | some g =>
    if gridRecs g.lrec ≤ g.written || !mayWrite s n g then s
    else writeTeams n (gridRecs g.lrec - g.written) (if g.written = 0 then boundary s g.ctx g.part g.listed else s)

/-- A new grid of a context, its records not written yet; `listed` are the ranges that its boundary lists. -/
def newGrid (s : State) (ctx part : Nat) (lr : LaunchRec) (queue : Option Nat) (cop : Cop)
    (listed : Option (List (DWord × DWord))) : Nat × State :=
  let num := ((sget s.contexts ctx).map (·.launches)).getD 0
  let g : Grid :=
    { ctx := ctx, part := part, num := num, lrec := lr, queue := queue, cop := cop, listed := listed,
      written := 0, done := 0, tasks := 0, pool := 0,
      halted := false, halting := none, code := [] }
  (s.nextGrid, modCtx { s with grids := sset s.grids s.nextGrid g, nextGrid := s.nextGrid + 1 } ctx
    fun c => { c with launches := c.launches + 1 })

end Sys2Proof.Machine
end

