-- ==== Sys2Proof/Machine/Work.lean ====
section
/-! DEFINITION. Work instructions, 0x250 to 0x255 (R333 to R336), and the retry of a blocked edge operation. -/

namespace Sys2Proof.Machine

/-- A QUEUE trap's failure (R333). -/
def queueFault (sub : Nat) (a : DWord) : AFault := ⟨0x1E, sub, 0, 0, a⟩

/-- The grid of a site, and its partition. -/
def gridOf (s : State) (x : Site) : Grid := sgetD s.grids x.tm.grid default

/-- What a work word asks. -/
def workReq (h : Head) (regs : List (Nat × Nat)) : Req := memReq h .work regs
def edgeReq (h : Head) (regs : List (Nat × Nat)) (try_ : Option PReg) : Req := { workReq h regs with preds := try_.toList }

/-- The priority of a spawned task. -/
def taskPrio (x : Site) (prio : Option (BitVec 4)) : Nat := match prio with | some p => p.toNat | none => x.lr.prio

/-- A code address is a multiple of 8 (R334). -/
def codeFault (a : DWord) : Option AFault := if a.toNat % 8 ≠ 0 then some ⟨0x14, 0, 0, 0, a⟩ else none

/-! ## SPAWN, SPAWNC, DONE (R334) -/

/-- SPAWN. -/
def execSpawn (h : Head) (a b : VReg) (prio : Option (BitVec 4)) (s : State) : Out :=
  .next (issue (workReq h (two [a, b])) (fun x s =>
    let v := x.view s
    match laneTrap (laneFaults x.act fun l => codeFault (v.r64 l a)) with
    | some t => .trap t
    | none =>
      let s := modGrid s x.tm.grid fun g => { g with tasks := g.tasks + x.act.length }
      .retire (openLong s x h (groupOp x h.dc (.spawn (x.act.map fun l => (v.r64 l a, v.r64 l b)) (taskPrio x prio))) [])) s)

/-- TASK records enter the ready queue while there is room: those that do not yet, and the state. -/
def enterTasks (grid tidx part prio : Nat) : List (DWord × DWord) → State → List (DWord × DWord) × State
  | [], s => ([], s)
  | (c, f) :: t, s =>
    let r := taskRec s grid tidx prio c f
    if readyFits (sgetD s.parts part default) r then enterTasks grid tidx part prio t (pushReady s part r) else ((c, f) :: t, s)

/-- A handle (R334): a slot's generation and address. -/
def slotGen (p : Partition) (slot : Nat) : Nat := (Config.firstGen slot + sgetD p.slotGens slot 0) % 2 ^ 16
def handleOf (p : Partition) (slot : Nat) : DWord := BitVec.ofNat 64 (slot % 2 ^ 48 + slotGen p slot * 2 ^ 48)

/-- A continuation with a count enters the pool: its handle and the state. -/
def poolTask (s : State) (part : Nat) (r : ContRec) : DWord × State :=
  let p := sgetD s.parts part default
  let slot := lowSlot p
  let r := { r with slot := some slot }
  let s := modPart s part fun p => { p with pool := sset p.pool slot r }
  let s := modGrid s r.grid fun g => { g with pool := g.pool + 1 }
  (handleOf p slot, { s with mem := memSets s.mem slot (recBytesAt s part r) })

/-- A continuation whose count is 0 enters the ready queue, in a slot of its own if one is free and no other record then needs one:
its handle, the state, and the task if it found no room. Without a slot the handle is free but for its low six bits, which are 0
(log 37). -/
def readyTask (s : State) (part lane : Nat) (r : ContRec) : DWord × State × List (DWord × DWord) :=
  let p := sgetD s.parts part default
  let s1 := modGrid s r.grid fun g => { g with tasks := g.tasks + 1 }
  let own := { r with slot := some (lowSlot p) }
  if freeSpill p ≠ 0 && ((recInsert own p.ready).drop 4096).all (·.place.isSome) then
    (handleOf p (lowSlot p), pushReady { s1 with mem := memSets s.mem (lowSlot p) (recBytesAt s part own) } part own, [])
  else
    let hd := (Config.freeWord s.freeCtr (2 * lane) ++ Config.freeWord s.freeCtr (2 * lane + 1)) &&& ~~~63#64
    if readyFits p r then (hd, pushReady s1 part r, []) else (hd, s1, [(r.code, r.frame)])

/-- SPAWNC over the lanes, ascending: handles, tasks without room, state. -/
def spawncLanes (x : Site) (v : LView) (part prio : Nat) (a b c : VReg) : List Nat → State →
    List (Nat × DWord) × List (DWord × DWord) × State
  | [], s => ([], [], s)
  | l :: t, s =>
    let r := { taskRec s x.tm.grid x.tm.tidx prio (v.r64 l a) (v.r64 l b) with join := (v.r l c).toNat }
    let (hd, s, wait) := if r.join = 0 then readyTask s part l r
      else let (hd, s) := poolTask s part r; (hd, s, [])
    let (hs, ws, s) := spawncLanes x v part prio a b c t s
    ((l, hd) :: hs, wait ++ ws, s)

/-- SPAWNC: the pool must take every count but 0, after the slots that the lower lanes take (R328, R334). -/
def execSpawnc (h : Head) (d a b c : VReg) (prio : Option (BitVec 4)) (s : State) : Out :=
  .next (issue (workReq h (two [d, a, b] ++ one [c])) (fun x s =>
    let v := x.view s
    let g := gridOf s x
    let p := sgetD s.parts g.part default
    let pooled := x.act.filter fun l => v.r l c ≠ 0
    let full := fun l => decide ((pooled.filter (· < l)).length + g.pool ≥ 65536)
      || decide ((x.act.filter (· < l)).length ≥ freeSpill p)
    let bad := fun l => match codeFault (v.r64 l a) with
      | some f => some f
      | none => if pooled.contains l && full l then some (queueFault 0x0D 0) else none
    match laneTrap (laneFaults x.act bad) with
    | some t => .trap t
    | none =>
      let (hs, ws, s) := spawncLanes x v g.part (taskPrio x prio) a b c x.act s
      .retire (openLong s x h (groupOp x h.dc (if ws = [] then .plain else .spawn ws (taskPrio x prio)))
        (hs.map fun e => out2 e.1 d e.2))) s)

/-- A handle lies in the partition's spill area, and the continuation it names breaks no rule of R327 in memory (R3, log 85). -/
def handleFault (s : State) (part : Nat) (hd : DWord) : Option AFault :=
  let p := sgetD s.parts part default
  let a := hd.toNat % 2 ^ 48
  let bad := match sget p.pool a with
    | none => false
    | some r => slotGen p a = hd.toNat / 2 ^ 48 && (recNow s part r).isNone
  if a % 64 ≠ 0 || a < p.spillBase || p.spillBase + 64 * p.spillN ≤ a || bad then some (queueFault 0x0E hd) else none

/-- DONE's event on one handle. A continuation that would displace a record without room stays in the pool until there is room
(log 100). -/
def doneOne (s : State) (part n : Nat) (hd : DWord) : State :=
  let p := sgetD s.parts part default
  let slot := hd.toNat % 2 ^ 48
  let stale := { s with counters := { s.counters with queueStale := countUp s.counters.queueStale } }
  if slotGen p slot ≠ hd.toNat / 2 ^ 48 then stale
  else match sget p.pool slot with
    | none => if p.ready.any fun r => r.slot = some slot then s else stale
    | some r =>
      let r := { r with join := memNat s.mem (slot + 28) 4 - n }
      let s := { s with mem := memSets s.mem (slot + 28) (natLe 4 r.join) }
      let s := modPart s part fun p => { p with pool := sset p.pool slot r }
      if r.join = 0 then moveReady s part r else s

/-- DONE: a release at `.dev`. -/
def execDone (h : Head) (a : VReg) (n : BitVec 16) (s : State) : Out :=
  .next (issue (workReq h (two [a])) (fun x s =>
    let v := x.view s
    let part := (gridOf s x).part
    match laneTrap (laneFaults x.act fun l => handleFault s part (v.r64 l a)) with
    | some t => .trap t
    | none =>
      match releaseBy s x .dev with
      | .error t => .trap t
      | .ok s =>
        let s := x.act.foldl (fun s l => doneOne s part n.toNat (v.r64 l a)) s
        .retire (openLong (releaseFork s x.t x.tids .dev) x h (groupOp x h.dc .plain) [])) s)

/-! ## ENQ and DEQ (R335) -/

/-- An edge descriptor: its place, BASE and LOGN, PROD and CONS. -/
structure EdgeDesc where
  desc : Place
  base : Nat
  logn : Nat
  prod : Nat
  cons : Nat

/-- An edge descriptor's fields, if it keeps the rules of R335. -/
def edgeFields (d : Nat) (p : Place) : Option EdgeDesc :=
  let logn := nbits d 64 5
  let base := nbits d 0 64
  if nbits d 192 320 ≠ 0 || nbits d 69 59 ≠ 0 || logn = 0 || 16 < logn || base % 32 ≠ 0 || 2 ^ 52 ≤ base || p.ord = 2 then none
  else some { desc := p, base := base, logn := logn, prod := nbits d 128 32, cons := nbits d 160 32 }

def edgeOf (s : State) (ctx : Nat) (ea : DWord) : Except AFault EdgeDesc :=
  match checkGlobal s ctx ea 64 .ls true with
  | .error f => .error f
  | .ok loc => match edgeFields (memNat s.mem loc.pa 64) (placeOf ea.toNat .ls loc) with
    | none => .error (queueFault 0x0F ea)
    | some e => .ok e

/-- Entries present, and the address of entry p. -/
def edgeOcc (e : EdgeDesc) : Nat := (e.prod + 2 ^ 32 - e.cons) % 2 ^ 32
def edgeEntry (e : EdgeDesc) (p : Nat) : Nat := e.base + 32 * (p % 2 ^ 32 % 2 ^ e.logn)

/-- What an edge's event on a thread's place waits for: the thread's earlier accesses of the bytes. Poison starts the recovery. -/
def edgeReach (s : State) (w : Who) (l : Loc) (n : Nat) : State :=
  poisonHit (drainSeen (settleAt s w (memSrc 0 l n)) w 0 l.pa n) w.ctx l.pa

/-- The thread's earlier accesses of an edge's descriptor come before its reading (R201, R205). -/
def edgeSeen (s : State) (w : Who) (ea : DWord) : State :=
  match checkGlobal s w.ctx ea 64 .ls true with
  | .error _ => s
  | .ok loc => edgeReach s w loc 64

/-- The checks of a lane: its descriptor, and the entry it would act on after the lanes before it on the same edge. -/
def edgeFault (s : State) (x : Site) (ea : Nat → DWord) (todo : List Nat) (enq : Bool) (l : Nat) : Option AFault :=
  match edgeOf s x.tm.ctx (ea l) with
  | .error f => some f
  | .ok e =>
    let k := (todo.filter fun m => m < l && ea m = ea l).length
    failOf (checkGlobal s x.tm.ctx (BitVec.ofNat 64 (edgeEntry e ((if enq then e.prod else e.cons) + k))) 32 .ls enq)

/-- ENQ's event of one lane; `none` on a full edge. -/
def enqOne (s : State) (x : Site) (l : Nat) (ea : DWord) (payload : Nat) : Option (Nat × State) :=
  let s := edgeSeen s (x.who l) ea
  match edgeOf s x.tm.ctx ea with
  | .error _ => none
  | .ok e =>
    if 2 ^ e.logn ≤ edgeOcc e then none
    else match checkGlobal s x.tm.ctx (BitVec.ofNat 64 (edgeEntry e e.prod)) 32 .ls true with
      | .error _ => none
      | .ok loc =>
        let w := x.who l
        let entry := payload + e.prod * 2 ^ 160 + timeOf s % 2 ^ 64 * 2 ^ 192
        let d := placeLoc e.desc
        let s := edgeReach s w loc 32
        let s := threadWrite s w (edgeEntry e e.prod) loc (natLe 32 entry)
        some (0, threadWrite s w (e.desc.va + 16) { d with pa := d.pa + 16 } (natLe 4 (e.prod + 1)))

/-- DEQ's event of one lane; `none` on an empty edge. -/
def deqOne (s : State) (x : Site) (l : Nat) (ea : DWord) : Option (Nat × State) :=
  let s := edgeSeen s (x.who l) ea
  match edgeOf s x.tm.ctx ea with
  | .error _ => none
  | .ok e =>
    if edgeOcc e = 0 then none
    else match checkGlobal s x.tm.ctx (BitVec.ofNat 64 (edgeEntry e e.cons)) 32 .ls false with
      | .error _ => none
      | .ok loc =>
        let d := placeLoc e.desc
        let s := edgeReach s (x.who l) loc 32
        some (memNat s.mem loc.pa 16, threadWrite s (x.who l) (e.desc.va + 20) { d with pa := d.pa + 20 } (natLe 4 (e.cons + 1)))

/-- Lanes in ascending order; a lane that cannot proceed blocks the later ones unless it only tries. -/
def edgeLanes (one : State → Nat → Option (Nat × State)) (try_ : Bool) : List Nat → State → List (Nat × Option Nat) × State
  | [], s => ([], s)
  | l :: t, s => match one s l with
    | some (v, s) => let (r, s) := edgeLanes one try_ t s; ((l, some v) :: r, s)
    | none => if try_ then let (r, s) := edgeLanes one try_ t s; ((l, none) :: r, s) else ([], s)

/-- Sets the lanes that a blocked edge operation has performed. -/
def setDoneLanes (s : State) (x : Site) (ls : List Nat) : State :=
  modTeam s x.t fun tm => modGroup tm x.k fun g => { g with doneLanes := ls }

/-- The body of an edge operation: the lanes not yet performed; those performed open an operation of their own with their
results, and the group waits for the others. -/
def edgeBody (h : Head) (a : VReg) (enq try_ : Bool) (one : Site → LView → State → Nat → Option (Nat × State))
    (out : Nat → Option Nat → LaneOut) (x : Site) (s : State) : Res :=
  let v := x.view s
  let todo := x.act.filter fun l => !x.g.doneLanes.contains l
  let ea := fun l => v.r64 l a
  let s := todo.foldl (fun s l => edgeSeen s (x.who l) (ea l)) s
  match laneTrap (laneFaults todo (edgeFault s x ea todo enq)) with
  | some t => .trapIn s t
  | none =>
    match (if enq then releaseBy s x .dev else .ok s) with
    | .error t => .trapIn s t
    | .ok s =>
      let (r, s) := edgeLanes (one x v) try_ todo s
      let s := if enq then releaseFork s x.t x.tids .dev else if r.any (fun e => e.2.isSome) then acquireBy s x .dev else s
      let outs := r.map fun e => out e.1 e.2
      if r.length = todo.length then .retire (openLong (setDoneLanes s x []) x h (groupOp x h.dc .plain) outs)
      else if r = [] then .wait s
      else .wait (openLong (setDoneLanes s x (x.g.doneLanes ++ r.map Prod.fst)) x h (groupOp x h.dc .plain) outs)

/-- ENQ's issue, and its later tries. -/
def enqIssue (h : Head) (a b : VReg) (try_ : Option PReg) (s : State) : State :=
  issue (edgeReq h (two [a] ++ [(b.toNat, 4)]) try_)
    (edgeBody h a true try_.isSome
      (fun x v s l => enqOne s x l (v.r64 l a) (leNat (storeData v l 16 b)))
      (fun l ok => match try_ with | some p => outP l p ok.isSome | none => { lane := l })) s

/-- DEQ's issue, and its later tries. -/
def deqIssue (h : Head) (d a : VReg) (try_ : Option PReg) (s : State) : State :=
  issue (edgeReq h (two [a] ++ [(d.toNat, 4)]) try_)
    (edgeBody h a false try_.isSome
      (fun x v s l => deqOne s x l (v.r64 l a))
      (fun l r =>
        let ps := match try_ with | some p => [(p, r.isSome)] | none => []
        match r with
        | some n => { lane := l, vs := loadRegs 16 false d.toNat n, ps := ps }
        | none => { lane := l, ps := ps })) s

/-- ENQ. -/
def execEnq (h : Head) (a b : VReg) (try_ : Option PReg) (s : State) : Out := .next (enqIssue h a b try_ s)

/-- DEQ. -/
def execDeq (h : Head) (d a : VReg) (try_ : Option PReg) (s : State) : Out := .next (deqIssue h d a try_ s)

/-- Tries a blocked ENQ or DEQ again. -/
def edgeRetry (i : Issuer) (s : State) : State :=
  match issuerInstr s i with
  | some (.enq h a b t) => reissue i (enqIssue h a b t) s
  | some (.deq h d a t) => reissue i (deqIssue h d a t) s
  | _ => s

/-- A blocked ENQ or DEQ is tried again. -/
def execEdgeRetry (i : Issuer) (s : State) : Out := .next (if turnsOnly s i then s else edgeRetry i s)

/-! ## KLAUNCH (R336) -/

/-- Bytes of a checked range on the LS path of a lane, n times 8. -/
def lsBytes (w : Who) (ps : List Place) : Nat → Nat → State → List Byte × State
  | _, 0, s => ([], s)
  | va, n + 1, s =>
    let (v, s) := readNow s w .ls (placeLoc (placeAt ps va)) 8
    let (bs, s) := lsBytes w ps (va + 8) n s
    (natLe 8 v ++ bs, s)

/-- A readable range of global memory at an alignment. -/
def readRange (s : State) (ctx : Nat) (ea : DWord) (n align : Nat) : Except AFault (List Place) :=
  if ea.toNat % align ≠ 0 then .error ⟨0x14, 0, 0, 0, ea⟩
  else if ea.extractLsb' 52 12 ≠ 0 then .error ⟨0x18, 0, 0, 0, ea⟩
  else checkStarts s ctx .ls false (rangeStarts ea.toNat n)

/-- The launch record that a KLAUNCH names, checked under R325 and R326, and the machine that has read it. -/
def klaunchRec (s : State) (x : Site) (ea : DWord) : Except AFault LaunchRec × State :=
  match readRange s x.tm.ctx ea 256 64 with
  | .error f => (.error f, s)
  | .ok ps =>
    let w := x.who x.lead
    let (bs, s) := lsBytes w ps ea.toNat 32 s
    let r := leNat bs
    let nbuf := nbits r 398 7
    let tab : DWord := BitVec.ofNat 64 (nbits r 256 64)
    let entries : Except AFault (List Byte × State) := if nbuf = 0 || 64 < nbuf || tab.toNat % 8 ≠ 0 then .ok ([], s)
      else match readRange s x.tm.ctx tab (8 * nbuf) 8 with
        | .error f => .error f
        | .ok qs => .ok (lsBytes w qs tab.toNat nbuf s)
    match entries with
    | .error f => (.error f, s)
    | .ok (es, s) => match parseLaunch ea.toNat r (tableWords nbuf es) with
      | none => (.error (queueFault 0x1B ea), s)
      | some lr => (if launchReject lr ≠ 0 || (lr.priv && !x.lr.priv) then .error (queueFault 0x1B ea) else .ok lr, s)

/-- KLAUNCH's operation, once its grid is made. -/
def klaunched (h : Head) (x : Site) (r : Nat × State) : State := openLong r.2 x h (groupOp x h.dc (.klaunch r.1)) []

/-- KLAUNCH: a release at `.dev`; the grid's records are written by its completion. -/
def execKlaunch (h : Head) (a b : VReg) (cnt : Bool) (s : State) : Out :=
  .next (issue (workReq h (if cnt then two [a, b] else two [a])) (fun x s =>
    if x.act = [] then idleIssue s x h
    else
      let v := x.view s
      let ctr := v.r64 x.lead b
      let cf := if cnt then failOf (checkGlobal s x.tm.ctx ctr 8 .ls true) else none
      match klaunchRec s x (v.r64 x.lead a), cf with
      | (.error f, s), _ => .trapIn s (leadTrap x ((pickFault [some f, cf]).getD f))
      | (.ok _, s), some f => .trapIn s (leadTrap x f)
      | (.ok lr, s), none =>
        match releaseBy s x .dev with
        | .error t => .trapIn s t
        | .ok s =>
          let s := releaseFork s x.t x.tids .dev
          .retire (klaunched h x
            (newGrid s x.tm.ctx (gridOf s x).part lr none (if cnt then .add ctr 1 else .none) none))) s)

end Sys2Proof.Machine
end

