-- ==== Sys2Proof/Machine/Frontier.lean ====
section
/-! DEFINITION. Clause headers and fetch (R30 to R34, R40), the frontier (R141, R142), dissolution (R143), JOIN (R148, R149,
R396) and formation (R140, R145 to R147, R153). -/

namespace Sys2Proof.Machine

/-! ## Headers and fetch -/

def hdrCls (w : DWord) : Option Cls :=
  match (w.extractLsb' 61 3).toNat with | 0 => some .gen | 1 => some .lane | 2 => some .mtx | 3 => some .sys | _ => none
def hdrCount (w : DWord) : Nat := (w.extractLsb' 57 4).toNat
def hdrPrio (w : DWord) : Nat := (w.extractLsb' 43 8).toNat
def hdrYp (w : DWord) : Bool := w.getLsbD 42
/-- The header's own rules (R34). -/
def hdrOk (w : DWord) : Bool := (hdrCls w).isSome && w.extractLsb' 0 42 = 0

/-- A line of code on the K path: a team's first fetches of staged code take the staged line (R26). -/
def codeLine (s : State) (core : Nat) (staged : Store (List Byte)) (l : Loc) : List Byte :=
  (sget staged (lineOf l.pa)).getD (pathLine s core .k l (lineOf l.pa))

/-- An 8-byte read of code on the K path (R33): the page must be executable. An address that is not a multiple of 8, which a
write of `%hpc` or `%htvec` can give, fails as MISALIGNED on path K (log 73). -/
def codeRead (s : State) (ctx core : Nat) (staged : Store (List Byte)) (a : Nat) : Except AFault (DWord × Loc) :=
  let ad : DWord := BitVec.ofNat 64 a
  if a % 8 ≠ 0 then .error ⟨0x14, 0, 0, 1, ad⟩
  else if 2 ^ 52 ≤ a then .error ⟨0x18, 0, 0, 1, ad⟩
  else match checkPage s ctx a .k false true with
    | .error f => .error f
    | .ok l => .ok (BitVec.ofNat 64 (leNat (((codeLine s core staged l).drop (l.pa % 128)).take 8)), l)

/-- `n` words of code from an address. -/
def codeWords (s : State) (ctx core : Nat) (staged : Store (List Byte)) : Nat → Nat → Except AFault (List (DWord × Loc))
  | _, 0 => .ok []
  | a, n + 1 =>
    match codeRead s ctx core staged a with
    | .error f => .error f
    | .ok w => match codeWords s ctx core staged (a + 8) n with
      | .error f => .error f
      | .ok ws => .ok (w :: ws)

/-- Opcodes that only a clause's last word may hold (R34). -/
def lastOnly (w : DWord) : Bool :=
  let o := (w.extractLsb' 54 10).toNat
  (0x280 ≤ o && o ≤ 0x286) || o = 0x2C2 || o = 0x2C3 || o = 0x2E5 || o = 0x327 || o = 0x328 || o = 0x32B
def isJoin (w : DWord) : Bool := (w.extractLsb' 54 10).toNat = 0x285

/-- ILLEGAL_CLAUSE at an address that `%haddr` does not name. -/
def illegalClause : AFault := ⟨3, 0, 0, 0, 0⟩

/-- The rules of R34 for a fetched clause; `seq` for the sequencer, `sysOk` where SYS clauses are allowed. -/
def clauseOk (h : DWord) (words : List DWord) (seq sysOk : Bool) : Bool :=
  (match hdrCls h with
   | some .mtx => seq
   | some .sys => !seq && sysOk
   | some .gen => !seq
   | some .lane => !seq
   | none => false)
  && !(words.dropLast.any lastOnly) && !(hdrCount h ≠ 0 && words.any isJoin)

/-- Fetches a clause: the clause and the places read, or the fault. A header that breaks its own rules is the fault before the
words are read; a word that cannot be read is, before the other rules of R34 are tested (log 72). -/
def fetchClause (s : State) (ctx core : Nat) (staged : Store (List Byte)) (a : Nat) (seq sysOk : Bool) :
    Except AFault (Clause × List Loc) :=
  match codeRead s ctx core staged a with
  | .error f => .error f
  | .ok (h, l) =>
    if !hdrOk h then .error illegalClause
    else match codeWords s ctx core staged (a + 8) (hdrCount h + 1) with
      | .error f => .error f
      | .ok ws =>
        let words := ws.map Prod.fst
        if !clauseOk h words seq sysOk then .error illegalClause
        else .ok ({ addr := a, cls := (hdrCls h).getD .gen, waitz := h.extractLsb' 51 6, prio := hdrPrio h, yp := hdrYp h, words := words },
          l :: ws.map Prod.snd)

/-- The priority of the clause at an address: 0 where its header cannot be read or breaks R34 (R141). -/
def headPrio (s : State) (tm : Team) (a : Nat) : Nat :=
  match codeRead s tm.ctx tm.core tm.staged a with
  | .error _ => 0
  | .ok (h, _) => if hdrOk h && clauseOk h [] false (lrecOf s tm).priv then hdrPrio h else 0

/-! ## The frontier -/

def homeGroup (tid : Nat) : Nat := tid / 32
def homeLane (tid : Nat) : Nat := tid % 32
def homePart (tid : Nat) : Nat := tid / 32 % 4

def insertTid (e : Nat × Nat) : List (Nat × Nat) → List (Nat × Nat)
  | [] => [e]
  | x :: t => if e.1 < x.1 then e :: x :: t else x :: insertTid e t

/-- A thread enters an entry, with the next stamp (R142). -/
def frontEnter (role : Role) (prio addr : Nat) (held : Bool) (tm : Team) (tid : Nat) : Team :=
  let same := fun (e : FrontEntry) => e.role = role && e.prio = prio && e.addr = addr && e.held = held
  let stamp := tm.nstamp + 1
  let tm := { tm with nstamp := stamp }
  if tm.front.any same then
    { tm with front := tm.front.map fun e => if same e then { e with threads := insertTid (tid, stamp) e.threads } else e }
  else { tm with front := tm.front ++ [{ role := role, prio := prio, addr := addr, held := held, threads := [(tid, stamp)] }] }

def sortNat (l : List Nat) : List Nat := l.foldl (fun (m : Store Unit) n => sset m n ()) [] |>.map Prod.fst

/-- Threads with their next addresses enter the frontier in ascending thread id. -/
def enterAll (s : State) (t : Nat) (role : Role) (nexts : List (Nat × Nat)) : State :=
  match sget s.teams t with
  | none => s
  | some tm =>
    let ids := sortNat (nexts.map Prod.fst)
    modTeam s t fun _ => ids.foldl (fun tm i =>
      let a := sgetD nexts i 0
      frontEnter role (headPrio s tm a) a false tm i) tm

/-- What the last group of a physical slot ended at is forgotten, until an EXIT ends another (R360). -/
def forgetExit (s : State) (tm : Team) (k : Nat) : State :=
  modCore s tm.core fun c => { c with lastExit := serase c.lastExit (16 * slotPartOf tm k + tm.slotPhys.getD k 0) }

/-- A group's slot becomes free. -/
def freeSlot (s : State) (t k : Nat) : State :=
  match sget s.teams t with
  | none => s
  | some tm => modTeam (forgetExit s tm k) t fun tm => { tm with groups := serase tm.groups k, freeAt := tm.freeAt.set k s.cycle }

/-- Live threads of a role. -/
def liveOf (tm : Team) (role : Role) : List Nat := (tm.threads.filter fun e => e.2.live && e.2.role = role).map Prod.fst

/-! ## JOIN (R148, R149) -/

/-- The clause address that `%hpc` names. -/
def hpcClauseAddr (h : DWord) : Nat :=
  if hpcWix h = 0 then hpcAddr h else (hpcAddr h + 2 ^ 52 - 8 * hpcWix h) % 2 ^ 52

/-- The clause a group counts at: its own, or in handler mode the one it was taken from. -/
def countClause (g : Group) : Nat :=
  if !g.handler then g.pc else if g.seqTrap then g.kept.1 else hpcClauseAddr g.hpc
/-- The priority a group counts at. Between clauses it counts at the clause it has left too, until a word of the next one has
retired (R396, log 39). -/
def groupPrio (s : State) (tm : Team) (g : Group) : Nat :=
  max (g.left.getD 0) (match (if g.handler then none else g.clause) with
    | some c => c.prio
    | none => headPrio s tm (countClause g))

/-- A thread of the role still keeps a JOIN waiting: it stands above the JOIN's priority (R148). -/
def joinBlocked (s : State) (tm : Team) (role : Role) (prio : Nat) : Bool :=
  (tm.front.any fun e => e.role = role && e.threads ≠ [] && prio < e.prio)
  || tm.groups.any fun e => groupRole tm e.2 = role && e.2.members ≠ [] && prio < groupPrio s tm e.2

/-- The held entries of a role that may be released. -/
def releasable (s : State) (tm : Team) (role : Role) : List FrontEntry :=
  tm.front.filter fun e => e.held && e.role = role && e.threads ≠ [] && !joinBlocked s tm role e.prio

/-- A group as a formation or a home return makes it. -/
def newGroup (members : Store Nat) (pc cyc : Nat) : Group := { (default : Group) with members := members, pc := pc, lastIssue := cyc }

/-- Threads of a held entry return home: each home group in its own slot, its threads in their home lanes. -/
def homeReturn (cyc pc : Nat) (tids : List Nat) (tm : Team) : Team :=
  (sortNat (tids.map homeGroup)).foldl (fun tm h =>
    let mem := (tids.filter fun i => homeGroup i = h).foldl (fun m i => sset m (homeLane i) i) ([] : Store Nat)
    { tm with groups := sset tm.groups h (newGroup mem pc cyc) }) tm

/-- The threads of an entry, and their next addresses at its release. -/
def FrontEntry.tids (e : FrontEntry) : List Nat := e.threads.map Prod.fst
def FrontEntry.nexts (e : FrontEntry) : List (Nat × Nat) := e.tids.map fun i => (i, e.addr + 16)

/-- An entry holds every live thread of its role: its threads return home. -/
def goesHome (tm : Team) (e : FrontEntry) : Bool := e.threads.length = (liveOf tm e.role).length

/-- Releases held entries of a role at one moment: all their threads enter the frontier in ascending thread id (R142). -/
def joinRelease (t : Nat) (role : Role) (es : List FrontEntry) (s : State) : State :=
  match sget s.teams t with
  | none => s
  | some tm =>
    let s := modTeam s t fun tm =>
      (es.filter (goesHome tm)).foldl (fun tm e => homeReturn s.cycle (e.addr + 16) e.tids tm) { tm with front := tm.front.filter (!es.contains ·) }
    enterAll s t role ((es.filter fun e => !goesHome tm e).flatMap FrontEntry.nexts)

/-! ## Formation (R145) -/

def slotHomes (tm : Team) (k : Nat) (role : Role) : Bool := tm.home ≤ k || homeRole tm.mgroups tm.cgroups k = role
def slotFree (tm : Team) (k : Nat) : Bool := (sget tm.groups k).isNone
/-- The free slots that a group of a role may take. -/
def eligible (tm : Team) (role : Role) : List Nat :=
  (List.range (tm.home + tm.extra)).filter fun k => slotFree tm k && slotHomes tm k role

/-- The thread to whose group a raised trap of the sequencer is still to be delivered (R255). -/
def trapTarget (tm : Team) : Option Nat :=
  match tm.seq.bind (·.trap) with
  | some q => if q.slot.isSome then none else (liveOf tm .matrix).head?
  | none => none

/-- Unheld entries that could use a free slot; the formation that a sequencer trap waits for comes before them (R255). -/
def formable (tm : Team) : List FrontEntry :=
  if (trapTarget tm).any fun i => tm.front.any fun e => e.threads.any fun x => x.1 = i then []
  else tm.front.filter fun e => !e.held && e.threads ≠ [] && eligible tm e.role ≠ []

def entryAge (e : FrontEntry) : Nat := e.threads.foldl (fun a x => min a x.2) (2 ^ 64)

/-- The better of two entries; of two that differ in their role alone, the one created first (log 76). -/
def entryPick (oldest : Bool) (a b : FrontEntry) : FrontEntry :=
  if oldest then (if entryAge b < entryAge a then b else a)
  else if a.prio < b.prio || (a.prio = b.prio && b.addr < a.addr) then b else a

def chooseEntry (n : Nat) : List FrontEntry → Option FrontEntry
  | [] => none
  | e :: es => some (es.foldl (entryPick (n % 4 = 0)) e)

/-- Lanes of a new group: home lanes first, then the lowest free ones, each in ascending thread id. -/
def assignLanes (tids : List Nat) : Store Nat :=
  let m := tids.foldl (fun (m : Store Nat) i => if (sget m (homeLane i)).isSome then m else sset m (homeLane i) i) []
  let rest := tids.filter fun i => sget m (homeLane i) ≠ some i
  rest.foldl (fun m i => match (List.range 32).find? fun l => (sget m l).isNone with
    | some l => sset m l i
    | none => m) m

/-- Partitions by descending count of members homed there, ties to the lower. -/
def partOrder (tids : List Nat) : List Nat :=
  let cnt := fun p => (tids.filter fun i => homePart i = p).length
  (List.range 4).foldl (fun l p => l.takeWhile (fun q => cnt p ≤ cnt q) ++ p :: l.dropWhile (fun q => cnt p ≤ cnt q)) []

/-- The slot a formation takes. -/
def chooseSlot (tm : Team) (role : Role) (tids : List Nat) : Option Nat :=
  let free := eligible tm role
  match (partOrder tids).findSome? fun p => free.find? fun k => slotPartOf tm k = p with
  | some k => some k
  | none => free.head?

/-- Forms a group from an entry. -/
def formEntry (cyc : Nat) (tm : Team) (e : FrontEntry) : Team :=
  let mem := (e.threads.take 32).map Prod.fst
  match chooseSlot tm e.role mem with
  | none => tm
  | some k =>
    let rest := { e with threads := e.threads.drop 32 }
    let front := if rest.threads = [] then tm.front.filter (· ≠ e) else tm.front.map fun x => if x = e then rest else x
    { tm with front := front, groups := sset tm.groups k (newGroup (assignLanes mem) e.addr cyc), nform := tm.nform + 1 }

/-- A formation of a team from an entry, with its packet. -/
def formAt (s : State) (t : Nat) (tm : Team) (e : FrontEntry) : State :=
  let mem := (e.threads.take 32).map Prod.fst
  tracePut (modTeam s t fun tm => formEntry s.cycle tm e) tm.core
    (.form (((chooseSlot tm e.role mem).map (slotId tm)).getD 0) e (assignLanes mem))

/-- One formation of a team, if one can start. -/
def formTeam (s : State) (t : Nat) : State :=
  match sget s.teams t with
  | none => s
  | some tm =>
    if !teamRuns s tm then s
    else match chooseEntry (tm.nform + 1) (formable tm) with
      | none => s
      | some e => formAt s t tm e

/-- The team that the Restitcher serves first: its free slot became free first, then the team placed earlier. All free slots of a
team count, those of roles that no entry has too (log 77). -/
def servedFirst (a b : Nat × Team) : Nat × Team :=
  let at_ := fun (tm : Team) => (((List.range (tm.home + tm.extra)).filter (slotFree tm)).map fun k => tm.freeAt.getD k 0).foldl min (2 ^ 64)
  if at_ b.2 < at_ a.2 || (at_ b.2 = at_ a.2 && b.2.placedAt < a.2.placedAt) then b else a

/-- The slot of the group that holds a thread. -/
def slotWith (tm : Team) (tid : Nat) : Option Nat := (tm.groups.find? fun e => e.2.members.any fun m => m.2 = tid).map Prod.fst

/-- A raised trap of the sequencer can be delivered now (R255). -/
def trapDue (tm : Team) : Bool :=
  (tm.seq.bind (·.trap)).any (fun q => q.slot.isNone) && match trapTarget tm with
    | none => true
    | some i => match (slotWith tm i).bind (sget tm.groups) with
      | some g => !g.handler && g.transfer.isNone
      | none => tm.front.any fun e => e.threads.any (fun x => x.1 = i) && (chooseSlot tm e.role ((e.threads.take 32).map Prod.fst)).isSome

/-- A deterministic team of a core can form a group. -/
def formsDue (s : State) (core : Nat) : Bool :=
  s.teams.any fun e => e.2.core = core && (lrecOf s e.2).determ && teamRuns s e.2 && formable e.2 ≠ []

/-- The releases of JOINs that are due in a team. -/
def joinsDue (s : State) (t : Nat) (tm : Team) : List Instr :=
  if !teamRuns s tm then []
  else [Role.matrix, .copy, .vector].filterMap fun r => if releasable s tm r = [] then none else some (Instr.joinRelease t r)

/-- The events that a team's last change makes due at once: the delivery of its sequencer's trap, releases of JOINs, and the
formations of deterministic teams of its core, which follow on one another (R153). -/
def promptTeam (s : State) (t : Nat) : State :=
  match sget s.teams t with
  | none => s
  | some tm =>
    let trap := if trapDue tm then [Instr.sequencerTrapDelivery t] else []
    let joins := joinsDue s t tm
    let forms := if formsDue s tm.core then [Instr.formation tm.core] else []
    { s with agenda := s.agenda ++ trap ++ joins ++ forms }

/-- One formation of a core. -/
def execFormation (core : Nat) (s : State) : Out :=
  .next (match s.teams.filter fun e => e.2.core = core && teamRuns s e.2 && formable e.2 ≠ [] with
    | [] => s
    | e :: es => promptTeam (formTeam s (es.foldl servedFirst e).1) (es.foldl servedFirst e).1)

/-- The held JOIN entries of a role whose condition holds are released, all at one moment (R149). -/
def execJoinRelease (team : Nat) (role : Role) (s : State) : Out :=
  .next (match sget s.teams team with
    | none => s
    | some tm => if teamRuns s tm then promptTeam (joinRelease team role (releasable s tm role) s) team else s)

/-! ## Dissolution (R143) -/

/-- The packet of a group that gave up its slot: the entries that its threads stand in (R361). -/
def dissolveTrace (s : State) (x : Site) : State :=
  match sget s.teams x.t with
  | none => s
  | some tm => tracePut s x.tm.core (.dissolve (slotId x.tm x.k)
      (tm.front.filter fun e => e.threads.any fun y => (memberTids x.g).contains y.1) x.g.members)

/-- A group gives up its slot, and its threads enter the frontier at their next addresses. -/
def dissolve (s : State) (x : Site) (role : Role) (nexts : List (Nat × Nat)) : State :=
  dissolveTrace (enterAll (freeSlot s x.t x.k) x.t role nexts) x

/-! ## Fetch of a group or the sequencer -/

/-- Cache fills of a fetch: a staged line comes into the core's K path. -/
def fetchFill (ctx core : Nat) (staged : Store (List Byte)) (ls : List Loc) (s : State) : State :=
  ls.foldl (fun s l => match sget staged (lineOf l.pa) with
    | some bs => modCore s core fun c => { c with paths := sset c.paths (8 * lineOf l.pa + Path.k.code) ⟨0, bs⟩ }
    | none => fillLine (poisonHit s ctx l.pa) core .k l (lineOf l.pa) false) s

/-- A clause has been fetched: its staged lines have served (R26). -/
def fetched (s : State) (t : Nat) (tm : Team) (ls : List Loc) : State :=
  modTeam (fetchFill tm.ctx tm.core tm.staged ls s) t fun m =>
    { m with staged := m.staged.filter fun e => !(ls.any fun l => lineOf l.pa = e.1) }

/-- A fetch fault of a group (R33): `%hpc` holds the clause address. -/
def fetchTrap (s : State) (t k : Nat) (g : Group) (f : AFault) : State :=
  let lanes := memberLanes g
  let info := if f.cause = 3 then 0 else infoOf f (lanes.headD 0)
  trapGroup s t k { cause := f.cause, lanes := lanes, addr := f.addr, info := info } lanes (hpcClause (g.pc % 2 ^ 52))

/-- A clause is fetched. A resumption beyond the clause's last word is illegal (R342). -/
def execClauseFetch (i : Issuer) (s : State) : Out :=
  .next (match i with
    | .group t k => match siteOf s t k ⟨false, 7⟩ with
      | none => s
      | some x =>
        if x.g.clause.isSome || !teamRuns s x.tm || x.g.status = .yielded then s
        else match fetchClause s x.tm.ctx x.tm.core x.tm.staged x.g.pc false (x.g.handler || x.lr.priv) with
          | .error f => promptTeam (fetchTrap s t k x.g f) t
          | .ok (c, ls) =>
            if c.words.length ≤ x.g.wix then promptTeam (fetchTrap s t k x.g illegalClause) t
            else promptTeam (modTeam (fetched s t x.tm ls) t fun tm => modGroup tm k fun g => { g with clause := some c }) t
    | .seq t => match ssiteOf s t with
      | none => s
      | some x =>
        if x.q.clause.isSome || x.q.trap.isSome || !teamRuns s x.tm || x.q.status = .ended then s
        else match fetchClause s x.tm.ctx x.tm.core x.tm.staged x.q.pc true false with
          | .error f => trapSeq s t f.cause (hpcClause (x.q.pc % 2 ^ 52)) f.addr (if f.cause = 3 then 0 else infoOf f 0)
          | .ok (c, ls) =>
            if c.words.length ≤ x.q.wix then trapSeq s t 3 (hpcClause (x.q.pc % 2 ^ 52)) 0 0
            else modSeq (fetched s t x.tm ls) t fun q => { q with clause := some c }
    | .packet _ => s)

end Sys2Proof.Machine
end

