-- ==== Sys2Proof/Machine/Control.lean ====
section
/-! DEFINITION. Control instructions, 0x280 to 0x288 (R155 to R162), and the resolution of transfers (R143, R144). -/

namespace Sys2Proof.Machine

/-! ## Issue of a transfer -/

/-- The fall-through address of a site's clause. -/
def fallOf (x : Site) : Nat := match x.g.clause with | some c => fallAddr c | none => x.g.pc

/-- P + 8·OFF32 (R155). -/
def branchTarget (x : Site) (off : BitVec 32) : DWord := BitVec.ofNat 64 x.g.pc + (off.signExtend 64 <<< 3)

/-- What a transfer asks. -/
def transferReq (h : HeadB) (regs : List (Nat × Nat)) : Req := { guard := h.guard, regs := regs }

/-- Each member's next address: active threads take the computed one, the others fall through. -/
def nextsOf (x : Site) (f : Nat → DWord) : List (Nat × DWord) :=
  (memberLanes x.g).map fun l => (l, if x.act.contains l then f l else BitVec.ofNat 64 (fallOf x))

/-- The lanes whose next address differs from the lowest lane's (R151). -/
def apart : List (Nat × DWord) → List Nat
  | [] => []
  | (_, a) :: t => (t.filter fun e => e.2 ≠ a).map Prod.fst

/-- A transfer issues: MISALIGNED, then UNIFORMITY, then it waits for its resolution, which a deterministic team's next turn
follows (R153). -/
def transferBody (kind : TransferKind) (u : Bool) (checked : Bool) (link : Option VReg) (f : LView → Nat → DWord) (x : Site)
    (s : State) : Res :=
  let v := x.view s
  let nexts := nextsOf x (f v)
  let bad := if checked then x.act.filter fun l => (f v l).extractLsb' 0 3 ≠ 0 else []
  match bad with
  | l :: _ => .trap { cause := 0x14, lanes := bad, addr := f v l, info := BitVec.ofNat 32 (l * 2 ^ 13) }
  | [] =>
    if u && apart nexts ≠ [] then .trap { cause := 6, lanes := apart nexts }
    else
      let tr : Transfer := { kind := kind, u := u, nexts := nexts, active := x.act, link := link }
      let s := if x.lr.determ then { s with agenda := s.agenda ++ [.transferResolve x.t x.k] } else s
      .hold (modTeam s x.t fun tm => modGroup tm x.k fun g => { g with transfer := some tr, waitzDone := true, lastIssue := s.cycle })

/-- BRA. -/
def execBra (h : HeadB) (off : BitVec 32) (s : State) : Out :=
  .next (issue (transferReq h []) (fun x => transferBody .bra h.u false none (fun _ _ => branchTarget x off) x) s)

/-- BRX. -/
def execBrx (h : HeadB) (a : VReg) (off : BitVec 32) (sh : BitVec 3) (s : State) : Out :=
  .next (issue (transferReq h (one [a])) (fun x =>
    transferBody .brx h.u false none (fun v l => branchTarget x off + ((v.r l a).signExtend 64 <<< (3 + sh.toNat))) x) s)

/-- CALL. -/
def execCall (h : HeadB) (a : VReg) (off : BitVec 32) (s : State) : Out :=
  .next (issue (transferReq h (two [a])) (fun x => transferBody .call h.u false (some a) (fun _ _ => branchTarget x off) x) s)

/-- CALLX. -/
def execCallx (h : HeadB) (a : VReg) (s : State) : Out :=
  .next (issue (transferReq h (two [a])) (transferBody .callx h.u true (some a) fun v l => v.r64 l a) s)

/-- RET. -/
def execRet (h : HeadB) (a : VReg) (s : State) : Out :=
  .next (issue (transferReq h (two [a])) (transferBody .ret h.u true none fun v l => v.r64 l a) s)

/-- JOIN. -/
def execJoin (s : State) : Out :=
  .next (issue { guard := ⟨false, 7⟩ } (fun x => transferBody .join false false none (fun _ _ => BitVec.ofNat 64 (fallOf x)) x) s)

/-- EXIT. -/
def execExit (g : Guard) (s : State) : Out :=
  .next (issue { guard := g } (fun x => transferBody .exit false false none (fun _ _ => BitVec.ofNat 64 (fallOf x)) x) s)

/-! ## Resolution -/

/-- The link pair of a call (R158). -/
def writeLinks (k : Nat) (tr : Transfer) (fall : DWord) (tm : Team) : Team :=
  match tr.link with
  | none => tm
  | some a => applyOuts tm k 0xF (tr.active.map fun l => out2 l a fall)

/-- A thread ends (R160). -/
def endThread (th : Thread) : Thread := { th with live := false, pend := [] }

/-- Records what a slot's last group ended at (R360). -/
def noteExit (s : State) (x : Site) : State :=
  let phys := 16 * slotPartOf x.tm x.k + x.tm.slotPhys.getD x.k 0
  modCore s x.tm.core fun c => { c with lastExit := sset c.lastExit phys (x.g.pc + 8 * (x.g.wix + 1)) }

/-- The group goes on at a common next address; its last issue is the transfer's. -/
def continueAt (x : Site) (a : DWord) (g : Group) : Group :=
  { g with pc := a.toNat, wix := 0, clause := none, waitzDone := false, transfer := none, lastIssue := x.g.lastIssue }

/-- What a resolved transfer does to its group (R143): the survivors' next addresses decide. -/
def resolveMoves (s : State) (x : Site) (tr : Transfer) : State :=
  let role := groupRole x.tm x.g
  let tid := fun l => sgetD x.g.members l 0
  let go := tr.nexts.map fun e => (tid e.1, e.2.toNat)
  match tr.kind with
  | .join => 
    let prio := match x.g.clause with | some c => c.prio | none => 0
    let s := freeSlot s x.t x.k
    dissolveTrace (modTeam s x.t fun tm => (sortNat (memberTids x.g)).foldl (frontEnter role prio x.g.pc true) tm) x
  | .exit =>
    if tr.active = [] then modTeam s x.t fun tm => modGroup tm x.k (continueAt x (BitVec.ofNat 64 (fallOf x)))
    else
      let s := modTeam s x.t fun tm => tr.active.foldl (fun tm l => modThread tm (tid l) endThread) tm
      let rest := go.filter fun e => !(tr.active.any fun l => tid l = e.1)
      if rest = [] then noteExit (freeSlot s x.t x.k) x else dissolve s x role rest
  | .bra | .brx | .call | .callx | .ret =>
    match tr.nexts with
    | [] => s
    | (_, a) :: _ =>
      if apart tr.nexts = [] then modTeam s x.t fun tm => modGroup tm x.k (continueAt x a) else dissolve s x role go

/-- In handler mode the group may not dissolve, join or exit (R163). -/
def fatalTransfer (tr : Transfer) : Bool :=
  match tr.kind with
  | .join => true
  | .exit => tr.active ≠ []
  | .bra | .brx | .call | .callx | .ret => apart tr.nexts ≠ []

/-- An issued transfer resolves: links, retirement, then the group's way. -/
def execTransferResolve (team slot : Nat) (s : State) : Out :=
  .next (match siteOf s team slot ⟨false, 7⟩ with
    | none => s
    | some x => match x.g.transfer with
      | none => s
      | some tr =>
        if x.g.handler && fatalTransfer tr then
          fatalFault (modTeam s team fun tm => modGroup tm slot fun g => { g with transfer := none }) x.tm.ctx x.tm.core x.g.hpc 0
        else
          let s := clauseTrace (retireGroup s team slot) { x with act := tr.active }
          let s := modTeam s team fun tm => writeLinks slot tr (BitVec.ofNat 64 (fallOf x)) tm
          promptTeam (resolveMoves s x tr) team)

/-! ## NOP and WAITDC -/

/-- NOP, for groups and the sequencer (R161). -/
def execNop (g : Guard) (s : State) : Out :=
  .next (issueBoth { guard := g, lane := true } (fun _ s => .retire s) { ok := fun _ => g = ⟨false, 7⟩ } (fun _ s => .retire s) s)

/-- Every counter in the mask is at most n for the active members. -/
def waitdcMet (x : Site) (mask n : BitVec 6) : Bool :=
  x.act.all fun l => (List.range 6).all fun i =>
    !mask.getLsbD i || sgetD (sgetD x.tm.threads (sgetD x.g.members l 0) default).dc i 0 ≤ n.toNat

/-- WAITDC's issue, and its later tries. -/
def waitdcIssue (g : Guard) (mask n : BitVec 6) (s : State) : State :=
  issue { guard := g } (fun x s => if waitdcMet x mask n then .retire s else .wait s) s

/-- WAITDC. -/
def execWaitdc (g : Guard) (mask n : BitVec 6) (s : State) : Out := .next (waitdcIssue g mask n s)

end Sys2Proof.Machine
end

