-- ==== Sys2Proof/Machine/System.lean ====
section
/-! DEFINITION. System instructions, 0x2C0 to 0x2E5 (R345, R362 to R368), and the ends of class W waits. -/

namespace Sys2Proof.Machine

/-! ## TRAP, BKPT, TFENCE (R363, R364) -/

/-- What a word of format S without registers asks. -/
def plainReq (g : Guard) : Req := { guard := g }

/-- TRAP. -/
def execTrap (g : Guard) (code : BitVec 16) (s : State) : Out :=
  .next (issue (plainReq g) (fun x s =>
    if x.act = [] then .retire s
    else .retireTrap s { cause := 7, lanes := x.act, info := code.zeroExtend 32 }) s)

/-- A debug stop of a partition of a core; 4 is the sequencer's (R356). -/
def debugHalt (s : State) (core part : Nat) (b : Bool) : State :=
  modCore s core fun c => { c with sel := sset c.sel part { sgetD c.sel part default with stopped := b } }

/-- BKPT: a debug stop of the issuing partition where a debugger is attached (R357). -/
def execBkpt (g : Guard) (code : BitVec 16) (s : State) : Out :=
  .next (issue (plainReq g) (fun x s =>
    if x.act = [] then .retire s
    else if ((sget s.contexts x.tm.ctx).map (·.debugger)).getD false then
      .retire (debugHalt s x.tm.core (slotPartOf x.tm x.k) true)
    else .retireTrap s { cause := 9, lanes := x.act, info := code.zeroExtend 32 }) s)

/-- Flags are still to be set in one of some threads: a class F word's result is not available, or an operation has not completed
(R119). -/
def flagsOwed (s : State) (t : Nat) (tids : List Nat) : Bool :=
  ((sget s.teams t).any fun tm => tids.any fun i => (sgetD tm.threads i default).late.any fun e => s.cycle < e.due)
  || s.ops.any fun e => e.2.team = t && !e.2.seq && (match e.2.kind with
    | .flags fl => fl.any fun f => tids.contains f.1
    | _ => false)

/-- The flags, set and enabled, of a lane's thread. -/
def laneArith (s : State) (x : Site) (l : Nat) : BitVec 5 :=
  enabledFlags (flagsNow s.cycle (sgetD x.tm.threads (sgetD x.g.members l 0) default))

/-- TFENCE's issue, and its later tries. -/
def tfenceIssue (g : Guard) (s : State) : State :=
  issue (plainReq g) (fun x s =>
    if flagsOwed s x.t x.tids then .wait s
    else
      let bad := x.act.filter fun l => laneArith s x l ≠ 0
      if bad = [] then .retire s
      else .trap { cause := 8, lanes := bad, info := (bad.foldl (fun w l => w ||| laneArith s x l) 0).zeroExtend 32 }) s

/-- TFENCE. -/
def execTfence (g : Guard) (s : State) : Out := .next (tfenceIssue g s)

/-! ## YIELD, RTH (R342, R347, R365) -/

/-- A YIELD stands last in its clause before a clause with YP = 0 (R34). Where the next header cannot be read, the fault comes at
its fetch (log 74). -/
def yieldUnsafe (s : State) (x : Site) : Bool :=
  match x.g.clause with
  | none => false
  | some c => x.g.wix + 1 = c.words.length && (match codeRead s x.tm.ctx x.tm.core x.tm.staged (fallAddr c) with
    | .error _ => false
    | .ok (h, _) => !hdrYp h)

/-- The members of a group have yielded, with a count of registers to save. -/
def yieldMark (k n : Nat) (tm : Team) : Team :=
  match sget tm.groups k with
  | none => tm
  | some g =>
    let tm := (memberTids g).foldl (fun tm i => modThread tm i fun th => { th with saveN := some n }) tm
    modGroup tm k fun g => { g with status := .yielded }

/-- YIELD. -/
def execYield (n : BitVec 9) (s : State) : Out :=
  .next (issue (plainReq ⟨false, 7⟩) (fun x s =>
    if yieldUnsafe s x then
      .trap { cause := 3, lanes := memberLanes x.g, addr := BitVec.ofNat 64 (fallOf x) }
    else if x.g.handler || !x.tm.preq then .retire s
    else .hold (modTeam (clauseTrace (retireGroup s x.t x.k) x) x.t (yieldMark x.k n.toNat))) s)

/-- Yielded groups go on at the clause they stand at, when REQ is withdrawn (R347). -/
def unyield (tm : Team) : Team :=
  { tm with
    groups := tm.groups.map fun e => if e.2.status = .yielded then (e.1, { e.2 with status := .ready }) else e,
    threads := tm.threads.map fun e => (e.1, { e.2 with saveN := none }) }

/-- The sequencer at a position that `%hpc` names (R255). -/
def seqResume (h : DWord) (q : Seq) : Seq :=
  { q with pc := hpcClauseAddr h, wix := hpcWix h - 1, clause := none, waitzDone := hpcWix h ≠ 0, status := .ready, trap := none }

/-- The group after RTH from a sequencer trap stands at its kept position: 0 names word 0 with its WAITZ, n + 1 word n. -/
def keptGroup (g : Group) : Group :=
  { rthGroup g with pc := g.kept.1, wix := g.kept.2 - 1, waitzDone := g.kept.2 ≠ 0, seqTrap := false }

/-- Pending writes to h registers are not kept after RTH (R341). -/
def dropH (th : Thread) : Thread := { th with pend := th.pend.filter fun p => p.reg < 256 }

/-- RTH's effect on a team. -/
def rthTeam (cyc k : Nat) (tm : Team) : Team :=
  match sget tm.groups k with
  | none => tm
  | some g =>
    let tm := pendTicks tm true (memberTids g)
    let tm := (memberTids g).foldl (fun tm i => modThread tm i dropH) tm
    let tm := if g.seqTrap then { tm with seq := tm.seq.map (seqResume g.hpc) } else tm
    modGroup tm k fun g => { (if g.seqTrap then keptGroup g else rthGroup g) with lastIssue := cyc }

/-- RTH. -/
def execRth (s : State) : Out :=
  .next (issue { plainReq ⟨false, 7⟩ with rth := true } (fun x s =>
    .hold (promptTeam (modTeam (clauseTrace s x) x.t (rthTeam s.cycle x.k)) x.t)) s)

/-! ## Special registers (R345) -/

/-- Whether a SEL names a 64-bit register; none if it names no register. -/
def spWide (sel : Nat) : Option Bool :=
  if sel ≤ 0x09 then some (sel = 0x04 || sel = 0x07)
  else if 0x10 ≤ sel && sel ≤ 0x12 then some true
  else if 0x20 ≤ sel && sel ≤ 0x24 then some false
  else if sel = 0x30 then some true
  else if 0x31 ≤ sel && sel ≤ 0x36 then some (sel = 0x33 || sel = 0x35)
  else if 0x40 ≤ sel && sel ≤ 0x47 then some true
  else none

/-- The group may read a register (R345): handler registers in handler mode, "priv" ones there or in a privileged grid. -/
def spReadable (x : Site) (sel : Nat) : Bool :=
  if 0x31 ≤ sel && sel ≤ 0x36 then x.g.handler
  else if sel = 0x30 || 0x40 ≤ sel then x.g.handler || x.lr.priv
  else true

/-- The group may write a register. -/
def spWritable (x : Site) (sel : Nat) : Bool :=
  if sel = 0x33 then x.g.handler
  else if sel = 0x20 || sel = 0x30 then x.g.handler || x.lr.priv
  else false

/-- The value of a register for the thread in a lane. -/
def spRead (s : State) (x : Site) (l sel : Nat) : DWord :=
  let n := fun (v : Nat) => BitVec.ofNat 64 v
  let tid := sgetD x.g.members l 0
  let ctx := sgetD s.contexts x.tm.ctx default
  match sel with
  | 0x00 => n tid
  | 0x01 => n l
  | 0x02 => n (homeLane tid)
  | 0x03 => n (slotPartOf x.tm x.k)
  | 0x04 => n x.tm.tidx
  | 0x05 => n ((sgetD s.grids x.tm.grid default).num % 2 ^ 32)
  | 0x06 => n x.tm.spsize
  | 0x07 => x.tm.karg
  | 0x08 => n x.tm.core
  | 0x09 => n x.tm.ctx
  | 0x10 => if x.lr.determ then n x.tm.icount else n (s.cycle - (getCore s x.tm.core).cycBase)
  | 0x11 => n x.tm.icount
  | 0x12 => n (timeOf s)
  | 0x20 => (flagsNow s.cycle (sgetD x.tm.threads tid default)).zeroExtend 64
  | 0x21 => if x.g.handler then 0 else n x.tm.preq.toNat
  | 0x22 => n x.tm.pdeadline
  | 0x23 => n ctx.budget
  | 0x24 => s.eccost.zeroExtend 64
  | 0x30 => x.tm.htvec
  | 0x31 => x.g.hmaskOld.zeroExtend 64
  | 0x32 => x.g.hmaskFault.zeroExtend 64
  | 0x33 => x.g.hpc
  | 0x34 => x.g.hcause.zeroExtend 64
  | 0x35 => x.g.haddr
  | 0x36 => x.g.hinfo.zeroExtend 64
  | k => ((sget (getCore s x.tm.core).pmc (k - 0x40)).map (·.value)).getD 0

/-- What SREAD writes in a lane. -/
def sreadOut (s : State) (x : Site) (d : VReg) (sel : Nat) (m : Half) (l : Nat) : LaneOut :=
  let v := spRead s x l sel
  match m with
  | .lo => out1 l d (v.extractLsb' 0 32)
  | .hi => out1 l d (v.extractLsb' 32 32)
  | .pair => out2 l d v

/-- SREAD. -/
def execSread (h : Head) (d : VReg) (sel : BitVec 16) (m : Half) (s : State) : Out :=
  .next (issue
    { guard := h.guard, regs := (match m with | .pair => two [d] | .lo => one [d] | .hi => one [d]),
      ok := fun x => (match spWide sel.toNat with
        | none => false
        | some wide => wide || m = .lo) && spReadable x sel.toNat }
    (fun x s => .retire (modTeam s x.t fun tm => applyOuts tm x.k h.dsm (x.act.map (sreadOut s x d sel.toNat m)))) s)

/-- `%fflags` as a write leaves it: flags and enables, the other bits reserved (R3, R80). -/
def fflagsOf (v : Word) : Word := v &&& 0x1F1F

/-- A write of `%fflags` at a cycle: flags already set are overwritten, those set in the same cycle ORed in, later ones set later
(R119). -/
def fflagsWrite (cyc : Nat) (v : Word) (th : Thread) : Thread :=
  { th with
    fflags := (th.late.filter fun e => e.due = cyc).foldl (fun w e => w ||| e.flags) (fflagsOf v),
    late := th.late.filter fun e => cyc < e.due }

/-- SWRITE's effect on a team, from the values of the active lanes. -/
def spWrite1 (cyc : Nat) (x : Site) (sel : Nat) (r64 : Nat → DWord) (tm : Team) : Team :=
  if sel = 0x20 then
    x.act.foldl (fun tm l => modThread tm (sgetD x.g.members l 0) (fflagsWrite cyc ((r64 l).extractLsb' 0 32))) tm
  else match x.act with
    | [] => tm
    | l :: _ =>
      if sel = 0x33 then modGroup tm x.k fun g => { g with hpc := r64 l &&& BitVec.ofNat 64 (2 ^ 57 - 1) }
      else { tm with htvec := r64 l }

/-- SWRITE. -/
def execSwrite (g : Guard) (a : VReg) (sel : BitVec 16) (pair : Bool) (s : State) : Out :=
  .next (issue
    { guard := g, priv := true, regs := if pair then two [a] else one [a],
      ok := fun x => spWide sel.toNat = some pair && spWritable x sel.toNat }
    (fun x s =>
      let v := x.view s
      .retire (modTeam s x.t (spWrite1 s.cycle x sel.toNat fun l => if pair then v.r64 l a else (v.r l a).zeroExtend 64))) s)

/-! ## EBSET, PMCTL, TRCTL (R366) -/

/-- What a group-level word of SYS clauses asks. -/
def sysReq (h : Head) (regs : List (Nat × Nat)) : Req := { guard := h.guard, priv := true, regs := regs, dc := h.dc.toNat }

/-- EBSET on a context. -/
def ebsetCtx (refill cap : Nat) (c : Context) : Context :=
  { c with refill := refill, cap := cap, budget := min c.budget cap, ebset := true }

/-- EBSET. -/
def execEbset (h : Head) (a : VReg) (s : State) : Out :=
  .next (issue (sysReq h (two [a])) (fun x s =>
    if x.act = [] then idleIssue s x h
    else
      let v := x.view s
      let p := sgetD s.parts (gridOf s x).part default
      let s := modCtx s x.tm.ctx (ebsetCtx (min (v.reg x.lead a.toNat).toNat p.prefill) (min (v.reg x.lead (a.toNat + 1)).toNat p.pcap))
      .retire (openLong s x h (groupOp x h.dc .plain) [])) s)

/-- PMCTL on a counter. -/
def pmcSet (op : PmOp) (ev : Nat) (p : Pmc) : Pmc :=
  match op with
  | .off => { p with on := false, event := ev }
  | .on => { p with on := true, event := ev }
  | .clr => { p with event := ev, value := 0 }
  | .clron => { on := true, event := ev, value := 0 }

/-- PMCTL: an event that is none of R359's raises ILLEGAL_FIELD. -/
def execPmctl (h : Head) (a : VReg) (n : BitVec 3) (op : PmOp) (s : State) : Out :=
  .next (issue (sysReq h (one [a])) (fun x s =>
    if x.act = [] then idleIssue s x h
    else
      let ev := ((x.view s).r x.lead a).toNat % 256
      if 0x0A < ev then .trap { cause := 2, lanes := [x.lead] }
      else
        let s := modCore s x.tm.core fun c => { c with pmc := sset c.pmc n.toNat (pmcSet op ev (sgetD c.pmc n.toNat default)) }
        .retire (openLong s x h (groupOp x h.dc .plain) [])) s)

/-- A trace ring's BASE, LOGSZ and write count, if the descriptor is well-formed (R361). -/
def traceRing (d : Nat) : Option (Nat × Nat × Nat) :=
  let base := nbits d 0 64
  let logsz := nbits d 64 5
  if base % 64 ≠ 0 || logsz < 12 || 30 < logsz || nbits d 69 59 ≠ 0 || nbits d 160 352 ≠ 0 then none
  else some (base, logsz, nbits d 128 32)

/-- The trace state that TRCTL sets; nothing is written before the first SYNC. -/
def traceOn (mode : TrMode) (k ctx desc : Nat) (r : Nat × Nat × Nat) : Trace :=
  { on := (match mode with | .trace => true | .both => true | .off => false | .sample => false),
    sample := (match mode with | .sample => true | .both => true | .off => false | .trace => false),
    k := k, desc := desc, ctx := ctx, base := r.1, logsz := r.2.1, count := r.2.2, since := 0, synced := false, lost := 0 }

/-- TRCTL. -/
def execTrctl (h : Head) (a : VReg) (mode : TrMode) (k : BitVec 5) (s : State) : Out :=
  .next (issue (sysReq h (if mode = .off then [] else two [a])) (fun x s =>
    if x.act = [] then idleIssue s x h
    else if mode = .off then
      let s := modCore s x.tm.core fun c => { c with trace := { c.trace with on := false, sample := false, synced := false } }
      .retire (openLong s x h (groupOp x h.dc .plain) [])
    else
      let ea := (x.view s).r64 x.lead a
      if ea.toNat % 64 ≠ 0 then .trap (leadTrap x (queueFault 0x0A ea))
      else match checkGlobal s x.tm.ctx ea 64 .ls true with
        | .error f => .trap (leadTrap x f)
        | .ok loc =>
          let s := poisonHit s x.tm.ctx loc.pa
          match traceRing (memNat s.mem loc.pa 64) with
          | none => .trapIn s (leadTrap x (queueFault 0x0A ea))
          | some r =>
            let s := modCore s x.tm.core fun c => { c with trace := traceOn mode k.toNat x.tm.ctx ea.toNat r }
            let s := { s with agenda := s.agenda ++ [.traceSync x.tm.core] }
            .retire (openLong s x h (groupOp x h.dc .plain) [])) s)

/-! ## CTXSAVE, HALT (R367, R368) -/

/-- A team stops issuing for a save (R348); a sequencer that waits to debit has debited nothing (R268). -/
def stopFor (kind : ImageKind) (s : State) (t : Nat) : State :=
  let s := modTeam s t fun tm =>
    { tm with saving := some kind, seq := tm.seq.map fun q => if q.status = .energy then { q with status := .ready } else q }
  match sget s.teams t with
  | none => s
  | some tm => modCtx s tm.ctx fun c => { c with eq := c.eq.filter (· ≠ t) }

/-- CTXSAVE: the team stops issuing, as for a forced save; its image is written when the operation completes. -/
def execCtxsave (h : Head) (a : VReg) (s : State) : Out :=
  .next (issue (sysReq h (two [a])) (fun x s =>
    if x.act = [] then idleIssue s x h
    else
      let ea := (x.view s).r64 x.lead a
      match checkGlobal s x.tm.ctx ea 4096 .ls true with
      | .error f => .trap (leadTrap x f)
      | .ok _ =>
        let s := openLong s x h (groupOp x h.dc (.ctxsave ea.toNat)) []
        .retire (stopFor .ctxsave s x.t)) s)

/-- HALT: the grid's work stops. Its core image and its notice follow once the operations issued have completed. -/
def execHalt (code : BitVec 16) (s : State) : Out :=
  .next (issue { plainReq ⟨false, 7⟩ with priv := true } (fun x s =>
    let s := clauseTrace (retireGroup s x.t x.k) x
    .hold (modGrid s x.tm.grid fun g => { g with halted := true, halting := some (x.tm.core, code.toNat, timeOf s) })) s)

/-! ## The ends of class W waits -/

/-- Tries a word again that waits for counters, flags, completion records, or a view. -/
def classWRetry (i : Issuer) (s : State) : State :=
  match issuerInstr s i with
  | some (.waitdc g m n) => reissue i (waitdcIssue g m n) s
  | some (.tfence g) => reissue i (tfenceIssue g) s
  | some (.crwait h d a) => reissue i (crwaitIssue h d a) s
  | some (.vsync h d a c) => reissue i (vsyncIssue h d a c true) s
  | some (.ldl h d a imm) => reissue i (issue (ldlReq h d a) (ldlBody h d a imm)) s
  | some (.fence h k sc uo) => reissue i (fenceIssue h k sc uo) s
  | some (.pfence h paths) => reissue i (pfenceIssue h paths) s
  | _ => s

/-- A wait that holds its group's turn is a stall in a deterministic team (R399). -/
def stallWait (s : State) (i : Issuer) : Bool :=
  match issuerInstr s i with
  | some (.waitdc ..) => true
  | some (.ldl ..) => true
  | _ => false

/-- A class W word whose condition holds completes. -/
def execClassWWaitRelease (i : Issuer) (s : State) : Out :=
  .next (if turnsOnly s i then s else classWRetry i s)

/-- Tries whatever word a group waits at, as its turn does (R354, R399). -/
def retryWait (i : Issuer) (s : State) : State := edgeRetry i (bufwRetry i (semRetry i (classWRetry i s)))

end Sys2Proof.Machine
end

