-- ==== Sys2Proof/Machine/Matrix.lean ====
section
/-! DEFINITION. The matrix stream, 0x300 to 0x32B (R251 to R278): B quarters, MMA and SMMA, energy debits, uniform and
tile-predicate instructions, and the delivery of sequencer traps. -/

namespace Sys2Proof.Machine

/-! ## B quarters (R257 to R261) -/

def stageKey (part : Nat) (st : Bool) : Nat := 2 * part + st.toNat
def stageOf (tm : Team) (key : Nat) : BStage := sgetD tm.stages key default
def modStage (tm : Team) (key : Nat) (f : BStage → BStage) : Team := { tm with stages := sset tm.stages key (f (stageOf tm key)) }

/-- The contents that the last accepted operation on a stage gives it. -/
def stageLast (b : BStage) : Option Quarter :=
  match b.reqs.getLast? with
  | some r => r.quarter
  | none => b.cur

/-- The group is a whole matrix-role home group, at home, and every member is active (R259). -/
def quarterHome (x : Site) : Bool :=
  x.k < x.tm.mgroups && x.act = memberLanes x.g
  && (x.g.members.all fun e => e.2 = 32 * x.k + e.1)
  && (x.tm.threads.all fun e => !(e.2.live && homeGroup e.1 = x.k) || x.g.members.any fun m => m.2 = e.1)

/-- What QBIND and QREL ask. -/
def quarterReq (h : Head) (regs : List (Nat × Nat)) : Req :=
  { guard := h.guard, engine := .bquarter, regs := regs, dc := h.dc.toNat, roleOk := fun x => x.act = [] || quarterHome x }

/-- Accepts an operation on the group's stage. -/
def quarterIssue (h : Head) (st : Bool) (f : Site → LView → Option Quarter) (x : Site) (s : State) : Res :=
  if x.act = [] then idleIssue s x h
  else
    let key := stageKey x.k st
    let req : StageReq := { op := s.nextOp, quarter := f x (x.view s) }
    let s := modTeam s x.t fun tm => modStage tm key fun b => { b with reqs := b.reqs ++ [req] }
    .retire (openLong s x h (groupOp x h.dc (.stage key)) [])

/-- The quarter in the group's registers; a lane without a thread supplies 0. -/
def latchQuarter (a b : VReg) (sc : Bool) (n : Nat) (x : Site) (v : LView) : Quarter :=
  let word := fun (r l : Nat) => if (sget x.g.members l).isSome then v.reg l r else 0
  { planes := (List.range n).map fun i => (List.range 32).map (word (a.toNat + i)),
    scales := (List.range 32).map fun l => if sc then (word b.toNat l).extractLsb' 0 8 else 0x80 }

/-- QBIND. -/
def execQbind (h : Head) (a b : VReg) (st sc : Bool) (n : BitVec 4) (s : State) : Out :=
  .next (issue { quarterReq h ((a.toNat, n.toNat) :: (if sc then one [b] else [])) with ok := fun _ => 2 ≤ n.toNat && n.toNat ≤ 8 }
    (quarterIssue h st fun x v => some (latchQuarter a b sc n.toNat x v)) s)

/-- QREL. -/
def execQrel (h : Head) (st : Bool) (s : State) : Out := .next (issue (quarterReq h []) (quarterIssue h st fun _ _ => none) s)

/-- Every QBIND that the instruction reads has completed. -/
def stagesLatched (tm : Team) (op : Nat) (keys : List Nat) : Bool :=
  keys.all fun k => (stageOf tm k).reqs.all fun r => op < r.op

/-- An MMA or SMMA still reads B: its occupancy has not ended, or a QBIND that it reads has not completed (R261, R265). -/
def readsB (s : State) (tm : Team) (op : Nat) (k : OpKind) : Bool :=
  match k with
  | .matrix _ keys _ _ ends => s.cycle < ends || !stagesLatched tm op keys
  | .plain | .load .. | .flags .. | .copy .. | .expand .. | .awl .. | .cbld .. | .batch .. | .bufs .. | .stage .. | .drain ..
  | .gload .. | .vpol .. | .spawn .. | .klaunch .. | .crpop .. | .bank .. | .ctxsave .. => false

/-- The arrays of a team's core are occupied (R265). -/
def arraysBusy (s : State) (t : Nat) (tm : Team) : Bool := s.ops.any fun e => e.2.team = t && readsB s tm e.1 e.2.kind

/-- An earlier MMA or SMMA still reads a stage. -/
def stageRead (s : State) (t : Nat) (tm : Team) (key op : Nat) : Bool :=
  s.ops.any fun e => e.1 < op && e.2.team = t && readsB s tm e.1 e.2.kind
    && (match e.2.kind with | .matrix _ keys _ _ _ => keys.contains key | _ => false)

/-- The oldest operation accepted on a stage takes effect (R259, R260). -/
def execQbindLatch (team stage : Nat) (s : State) : Out :=
  .next (match sget s.teams team with
    | none => s
    | some tm => match (stageOf tm stage).reqs with
      | [] => s
      | r :: rest =>
        if stageRead s team tm stage r.op then s
        else completeOp (modTeam s team fun tm => modStage tm stage fun _ => { cur := r.quarter, reqs := rest }) r.op)

/-! ## Energy (R267, R268) -/

/-- A class's cost, from `%eccost`. -/
def ecCost (s : State) (ec : BitVec 2) : Nat := (s.eccost.extractLsb' (8 * ec.toNat) 8).toNat

/-- Makes a debit for a team's sequencer, or sets it waiting in its context's order. -/
def debit (s : State) (x : SSite) (d : Nat) (go : State → SRes) : SRes :=
  match sget s.contexts x.tm.ctx with
  | none => .stall
  | some c =>
    if d = 0 then go s
    else if (c.eq = [] || c.eq.head? = some x.t) && min d c.cap ≤ c.budget then
      go (modCtx s x.tm.ctx fun c => { c with budget := c.budget - min d c.cap, eq := c.eq.filter (· ≠ x.t) })
    else .hold (modSeq (modCtx s x.tm.ctx fun c => { c with eq := if c.eq.contains x.t then c.eq else c.eq ++ [x.t] }) x.t
      fun q => { q with status := .energy, waitzDone := true })

/-! ## A tiles (R262) -/

/-- The buffer that a range lies wholly in. -/
def wholeBuf (tm : Team) (off n : Nat) : Option (Nat × Buf) :=
  tm.bufs.find? fun e => e.2.size ≠ 0 && e.2.off ≤ off && off + n ≤ e.2.off + e.2.size

/-- The checks of a range in a declared buffer (R262, R289). -/
def checkDecl (tm : Team) (off n : Nat) (u : SpUse) : List (Option AFault) :=
  let a : DWord := BitVec.ofNat 64 off
  [ if tm.spsize < off + n then some ⟨0x10, 3, 0, 6, a⟩ else none,
    match wholeBuf tm off n with
    | none => some ⟨0x16, 0x0C, 0, 6, a⟩
    | some (k, b) => if bufLegal u b.state then none else some ⟨0x16, 0, 0, 6, BitVec.ofNat 64 k⟩ ]

/-- A tile's offset and the bytes it occupies. -/
def tileZ (sl : Slot) : Nat := if sl.scaled then 128 else 0
def tileSize (smma : Bool) (sl : Slot) : Nat := (if smma then 6144 else 4096) + tileZ sl

/-- The first failure of a tile named by a g register. -/
def tileFault (tm : Team) (g : DWord) (n : Nat) : Option AFault :=
  let t := g.toNat % 2 ^ 20
  if t % 128 ≠ 0 then some ⟨0x14, 0, 0, 6, BitVec.ofNat 64 t⟩
  else if g.toNat / 2 ^ 20 ≠ 0 then some ⟨0x10, 3, 0, 6, g⟩
  else (checkDecl tm t n .engR).findSome? id

/-- A scale byte in units of 2^-34. -/
def scaleUnits (b : Byte) : Int := (4 + (b.extractLsb' 0 2).toNat : Nat) * 2 ^ (b.extractLsb' 2 6).toNat

/-- The code of element l of some plane words. -/
def planeCode (ws : List Word) (l : Nat) : Byte :=
  BitVec.ofNat 8 ((List.range ws.length).foldl (fun c i => c + (if (ws.getD i 0).getLsbD l then 2 ^ (7 - i) else 0)) 0)

/-- Row m of A as 64 values in units of 2^-34. -/
def aRow (tm : Team) (t : Nat) (sl : Slot) (m : Nat) : List Int :=
  [2 * m, 2 * m + 1].flatMap fun j =>
    let ws := (List.range sl.planes).map fun i => BitVec.ofNat 32 (spNat tm (t + planeOff j (7 - i)) 4)
    let sc := if sl.scaled then scaleUnits (spByte tm (t + 4096 + j)) else 2 ^ 34
    (List.range 32).map fun l => planeValue (planeCode ws l) sl.planes sl.sgn sl.mid * sc

/-- A k-row of B in one column. -/
def bVal (q : Quarter) (sl : Slot) (lane bit : Nat) : Int :=
  let ws := (q.planes.take sl.planes).map fun p => p.getD lane 0
  planeValue (planeCode ws bit) sl.planes sl.sgn sl.mid * (if sl.scaled then scaleUnits (q.scales.getD lane 0) else 2 ^ 34)

/-- Column n of B: the 64 k-rows of a stage, and for SMMA 32 more from stage 1. -/
def bCol (tm : Team) (st : Bool) (smma : Bool) (sl : Slot) (n : Nat) : List Int :=
  let q := fun st => (stageLast (stageOf tm (stageKey (n / 16) st))).getD default
  ((List.range 64).map fun k => bVal (q st) sl (16 * (k / 32) + n % 16) (k % 32))
  ++ (if smma then (List.range 32).map fun k => bVal (q true) sl (n % 16) k else [])

/-- The terms of row m: k-row and position of A. -/
def idxNibble (tm : Team) (base m p : Nat) : Nat := nbits (spByte tm (base + 32 * m + p / 2)).toNat (4 * (p % 2)) 4
def termsOf (tm : Team) (base : Nat) (smma : Bool) (nz m : Nat) : List (Nat × Nat) :=
  if smma then (List.range (8 * nz)).map fun p => (12 * (p / nz) + idxNibble tm base m p, p)
  else (List.range 64).map fun k => (k, k)

/-- The 4,096 sums, as integer multiples of 2^-72. -/
def matrixSums (tm : Team) (t : Nat) (st smma : Bool) (sa sb : Slot) : List (BitVec 176) :=
  let cols := (List.range 64).map (bCol tm st smma sb)
  (List.range 64).flatMap fun m =>
    let row := aRow tm t sa m
    let terms := termsOf tm (t + 4096 + tileZ sa) smma sa.nz m
    cols.map fun c =>
      BitVec.ofInt 176 (16 * terms.foldl (fun (acc : Int) e => acc + row.getD e.2 0 * c.getD e.1 0) 0)

/-- The first SMMA index of 12 or more: the offset of its byte. -/
def badIndex (tm : Team) (base nz : Nat) : Option Nat :=
  (List.range 64).findSome? fun m => ((List.range (8 * nz)).find? fun p => 12 ≤ idxNibble tm base m p).map fun p => base + 32 * m + p / 2

/-! ## MMA and SMMA (R256, R261 to R266) -/

/-- Slots that MMA and SMMA take (R263). -/
def matrixSlots (lr : LaunchRec) (smma : Bool) (fsa fsb : FSlot) : Bool :=
  let sa := slotOf (fsRead lr fsa)
  let sb := slotOf (fsRead lr fsb)
  sa.kind = .bpi && sb.kind = .bpi && sb.nz = 12 && (if smma then sa.nz ≠ 12 else sa.nz = 12)

/-- Stages that the instruction reads. -/
def stageKeys (st smma : Bool) : List Nat :=
  if smma then (List.range 8) else (List.range 4).map fun q => stageKey q st

/-- The lowest failing stage, as 4·stage + quarter. -/
def badStage (tm : Team) (st smma : Bool) (planes : Nat) : Option Nat :=
  let fails := fun s q => match stageLast (stageOf tm (stageKey q s)) with | none => true | some b => b.planes.length < planes
  (if smma then [false, true] else [st]).findSome? fun s => ((List.range 4).find? (fails s)).map fun q => 4 * s.toNat + q

def bankOf (tm : Team) (n : Nat) : Bank :=
  (sget tm.banks n).getD { hash := false, nbm1 := 511, ents := [], res := 0, spilln := 0, spill := none, flags := 0 }
def modBank (tm : Team) (n : Nat) (f : Bank → Bank) : Team := { tm with banks := sset tm.banks n (f (bankOf tm n)) }

/-- An addition into a bank, or an ACCZ or ACCSP of it, has not completed (R265, R286). -/
def bankBusy (s : State) (t bank : Nat) : Bool :=
  s.ops.any fun e => e.2.team = t && (match e.2.kind with | .matrix b .. => b = bank | .bank b _ => b = bank | _ => false)

/-- An ACCZ or ACCSP of a bank has not completed: no addition into it begins (R265, R286). -/
def bankShut (s : State) (t bank : Nat) : Bool :=
  s.ops.any fun e => e.2.team = t && (match e.2.kind with | .bank b adds => b = bank && !adds | _ => false)

/-- The issue of MMA or SMMA. -/
def matrixIssue (h : HeadX) (ga : GReg) (fsa fsb : FSlot) (ec : BitVec 2) (acc : BankN) (st smma : Bool) (s : State) : State :=
  issueSeq { guard := some h, dc := h.xdc.toNat, gs := [ga.toNat], ok := fun x => matrixSlots x.lr smma fsa fsb, held := bufHeldSeq } (fun x s =>
    let sa := slotOf (fsRead x.lr fsa)
    let sb := slotOf (fsRead x.lr fsb)
    let g := gRead x.tm ga.toNat
    let t := g.toNat % 2 ^ 20
    if bankShut s x.t acc.toNat || arraysBusy s x.t x.tm then .stall
    else match tileFault x.tm g (tileSize smma sa) with
    | some f => .trap f.cause f.addr (infoOf f 0)
    | none =>
      if (bankOf x.tm acc.toNat).hash then .trap 2 (acc.zeroExtend 64) 0x10000000
      else match badStage x.tm st smma sb.planes with
        | some k => .trap 2 (BitVec.ofNat 64 k) 0x11000000
        | none => match (if smma then badIndex x.tm (t + 4096 + tileZ sa) sa.nz else none) with
          | some o => .trap 2 (BitVec.ofNat 64 o) 0x12000000
          | none =>
            let occ := if smma then (sa.planes * sb.planes * sa.nz + 31) / 32 else (sa.planes * sb.planes + 3) / 4
            debit s x (ecCost s ec * occ) fun s =>
              .retire (openSeq s x.t h.xdc.toNat
                (.matrix acc.toNat (stageKeys st smma) (((wholeBuf x.tm t (tileSize smma sa)).map Prod.fst).getD 64)
                  (matrixSums x.tm t st smma sa sb) (s.cycle + occ)))) s

/-- MMA. -/
def execMma (x : HeadX) (ga : GReg) (fsa fsb : FSlot) (ec : BitVec 2) (acc : BankN) (st : Bool) (s : State) : Out :=
  .next (matrixIssue x ga fsa fsb ec acc st false s)

/-- SMMA. -/
def execSmma (x : HeadX) (ga : GReg) (fsa fsb : FSlot) (ec : BitVec 2) (acc : BankN) (s : State) : Out :=
  .next (matrixIssue x ga fsa fsb ec acc false true s)

/-- Adds a sum under key (i, j) of a direct-mode bank (R282). -/
def directAdd (b : Bank) (i j : Nat) (v : BitVec 176) : Bank :=
  let slot := 64 * i + j
  match sget b.ents slot with
  | some e => { b with ents := sset b.ents slot { e with value := x176Add e.value v } }
  | none => { b with ents := sset b.ents slot { key := BitVec.ofNat 48 (i * 2 ^ 24 + j), value := v }, res := b.res + 1 }

/-- Adds sums to the entries of a direct-mode bank from a slot on. -/
def addSums (n : Nat) : List (BitVec 176) → Bank → Bank
  | [], b => b
  | v :: t, b => addSums (n + 1) t (directAdd b (n / 64) (n % 64) v)

/-- An MMA or SMMA finishes adding into its bank. -/
def execMatrixComplete (op : Nat) (s : State) : Out :=
  .next (match sget s.ops op with
    | none => s
    | some o => match sget s.teams o.team, o.kind with
      | some tm, .matrix bank _ _ sums _ =>
        if !readsB s tm op o.kind then completeOp (modTeam s o.team fun tm => modBank tm bank (addSums 0 sums)) op else s
      | _, _ => s)

/-- A sequencer that waits for its debit tries again. -/
def energyRetry (s : State) (t : Nat) : State :=
  match issuerInstr s (.seq t) with
  | some (.mma h ga fsa fsb ec acc st) => matrixIssue h ga fsa fsb ec acc st false s
  | some (.smma h ga fsa fsb ec acc) => matrixIssue h ga fsa fsb ec acc false true s
  | _ => s

/-! ## Uniform and tile-predicate instructions (R270 to R272) -/

/-- Source registers and values. -/
def src9Regs : GSrc9 → List Nat | .reg g => [g.toNat] | .imm _ => []
def src9 (tm : Team) : GSrc9 → DWord | .reg g => gRead tm g.toNat | .imm v => v.signExtend 64
def src6Regs : GSrc6 → List Nat | .reg g => [g.toNat] | .imm _ => []
def src6 (tm : Team) (sgn : Bool) : GSrc6 → DWord
  | .reg g => gRead tm g.toNat
  | .imm v => if sgn then v.signExtend 64 else v.zeroExtend 64

/-- GMOV. -/
def execGmov (x : HeadX) (gd ga : GReg) (s : State) : Out := .next (seqG x [ga.toNat] gd (fun y => gRead y.tm ga.toNat) s)

/-- GMOVI. -/
def execGmovi (x : HeadX) (gd : GReg) (imm : BitVec 32) (m : GmoviForm) (s : State) : Out :=
  .next (seqG x [] gd (fun y => match m with
    | .sx => imm.signExtend 64
    | .zx => imm.zeroExtend 64
    | .hi => imm ++ (gRead y.tm gd.toNat).extractLsb' 0 32) s)

/-- GADD. -/
def execGadd (x : HeadX) (gd ga : GReg) (src : GSrc9) (sub : Bool) (s : State) : Out :=
  .next (seqG x (ga.toNat :: src9Regs src) gd (fun y =>
    if sub then gRead y.tm ga.toNat - src9 y.tm src else gRead y.tm ga.toNat + src9 y.tm src) s)

/-- GMUL. -/
def execGmul (x : HeadX) (gd ga : GReg) (src : GSrc9) (s : State) : Out :=
  .next (seqG x (ga.toNat :: src9Regs src) gd (fun y => gRead y.tm ga.toNat * src9 y.tm src) s)

/-- GSHL. -/
def execGshl (x : HeadX) (gd ga : GReg) (src : GSrc6) (op : GshOp) (s : State) : Out :=
  .next (seqG x (ga.toNat :: src6Regs src) gd (fun y =>
    let a := gRead y.tm ga.toNat
    let n := (src6 y.tm false src).toNat % 64
    match op with
    | .l => a <<< n
    | .r => a >>> n
    | .ra => a.sshiftRight n) s)

/-- Writes a tile predicate; q15 is never written (R38). -/
def qWrite (s : State) (t : Nat) (n : QReg) (b : Bool) : State :=
  modSeq s t fun q =>
    if n = 15 then q
    else { q with q := (q.q &&& ~~~(1#15 <<< n.toNat)) ||| ((BitVec.ofBool b).zeroExtend 15 <<< n.toNat) }

/-- A class S word that writes a tile predicate. -/
def seqQ (x : HeadX) (gs : List Nat) (qd : QReg) (f : SSite → Bool) (s : State) : State :=
  issueSeq { guard := some x, gs := gs, ok := fun _ => qd ≠ 15 } (fun y s => .retire (qWrite s y.t qd (f y))) s

/-- GCMP. -/
def execGcmp (x : HeadX) (qd : QReg) (ga : GReg) (src : GSrc6) (cmp : Cmp) (sgn : Bool) (s : State) : Out :=
  .next (seqQ x (ga.toNat :: src6Regs src) qd (fun y =>
    cmpInt cmp (extS64 sgn (gRead y.tm ga.toNat)) (extS64 sgn (src6 y.tm sgn src))) s)

/-- QSET. -/
def execQset (x : HeadX) (qd : QReg) (src : QSetSrc) (s : State) : Out :=
  .next (seqQ x (match src with | .const _ => [] | .bit g _ => [g.toNat]) qd (fun y => match src with
    | .const v => v
    | .bit g n => (gRead y.tm g.toNat).getLsbD n.toNat) s)

/-- QLOP. -/
def execQlop (x : HeadX) (qd qa qb : QReg) (na nb : Bool) (tt : BitVec 4) (s : State) : Out :=
  .next (seqQ x [] qd (fun y => tt.getLsbD (2 * (qRead y.q qa != na).toNat + (qRead y.q qb != nb).toNat)) s)

/-! ## GLD, GBRA, GLOOP, MEND (R273 to R275) -/

/-- Opens a load of the sequencer from a source (R273). -/
def openGld (s : State) (x : SSite) (h : HeadX) (gd : GReg) (src : LoadSrc × Nat) : State :=
  readSome (openSeq s x.t h.xdc.toNat (.load [{ tid := none, hnd := false, na := false, srcs := [src], fmt := .greg gd.toNat }]))
    x.t s.nextOp

/-- GLD. -/
def execGld (x : HeadX) (gd ga : GReg) (imm : BitVec 10) (sp : Bool) (s : State) : Out :=
  .next (issueSeq { guard := some x, dc := x.xdc.toNat, gs := [gd.toNat, ga.toNat], held := bufHeldSeq } (fun y s =>
    let g := gRead y.tm ga.toNat
    if sp then
      let off := ((g.extractLsb' 0 32) + imm.signExtend 32).toNat
      match checkSp y.tm off 8 .load .spTeam with
      | some f => .trap f.cause f.addr (infoOf f 0)
      | none => .retire (openGld s y x gd (.sp y.t off, 8))
    else
      let ea := g + imm.signExtend 64
      match checkGlobal s y.tm.ctx ea 8 .ls false with
      | .error f => .trap f.cause f.addr (infoOf f 0)
      | .ok loc => .retire (openGld (xlatFill s y.tm.core y.tm.ctx ea.toNat loc) y x gd (.mem (placeOf ea.toNat .ls loc), 8))) s)

/-- The sequencer goes to a clause. -/
def seqTo (a : DWord) (q : Seq) : Seq := { q with pc := a.toNat, wix := 0, clause := none, waitzDone := false }

/-- The target of a transfer of the sequencer. -/
def seqTarget (q : Seq) (off : BitVec 32) : DWord := BitVec.ofNat 64 q.pc + (off.signExtend 64 <<< 3)

/-- GBRA. -/
def execGbra (x : HeadX) (off : BitVec 32) (s : State) : Out :=
  .next (issueSeq { guard := some x } (fun y s => .hold (modSeq s y.t (seqTo (seqTarget y.q off)))) s)

/-- GLOOP. -/
def execGloop (x : HeadX) (gd : GReg) (off : BitVec 32) (s : State) : Out :=
  .next (issueSeq { guard := some x, gs := [gd.toNat] } (fun y s =>
    let v := gRead y.tm gd.toNat - 1
    let s := gWrite s y.t gd.toNat v
    if v = 0 then .retire s else .hold (modSeq s y.t (seqTo (seqTarget y.q off)))) s)

/-- MEND. -/
def execMend (s : State) : Out :=
  .next (issueSeq {} (fun y s => .hold (modSeq s y.t fun q => { advanceSeq q with status := .ended })) s)

/-! ## Delivery of sequencer traps (R255) -/

/-- The group's position, as `Group.kept` holds it. -/
def keepPos (g : Group) : Nat × Nat := (g.pc, if g.wix = 0 && !g.waitzDone then 0 else g.wix + 1)

/-- The group as the delivery leaves it. -/
def deliverGroup (g : Group) (htvec : DWord) (q : SeqTrap) : Group :=
  { handlerGroup g htvec q.hpc (memberLanes g) { cause := q.cause, lanes := [], addr := q.haddr, info := q.hinfo } with
    seqTrap := true, kept := keepPos g }

/-- Delivers a trap to slot k. -/
def deliverTo (s : State) (t k : Nat) (q : SeqTrap) : State :=
  match sget s.teams t with
  | none => s
  | some tm => match sget tm.groups k with
    | none => s
    | some g =>
      if g.handler || g.transfer.isSome then s
      else if tm.htvec = 0 then fatalFault s tm.ctx tm.core q.hpc q.cause
      else
        let s := modTeam s t fun tm => modGroup (abandonWait k tm) k fun g => deliverGroup g tm.htvec q
        tracePut (modSeq s t fun sq => { sq with trap := some { q with slot := some k } }) tm.core
          (.trap (slotId tm k) q.cause q.hpc)

/-- A stopped sequencer's trap is delivered to the group of the live matrix-role thread with the lowest thread id, which is
formed if it stands in the frontier; without one, the context faults fatally. -/
def execSequencerTrapDelivery (team : Nat) (s : State) : Out :=
  .next (match sget s.teams team with
    | none => s
    | some tm => match tm.seq.bind (·.trap) with
      | none => s
      | some q =>
        if q.slot.isSome || !teamRuns s tm then s
        else match liveOf tm .matrix with
          | [] => fatalFault s tm.ctx tm.core q.hpc q.cause
          | i :: _ => match slotWith tm i with
            | some k => deliverTo s team k q
            | none => match tm.front.find? fun e => e.threads.any fun x => x.1 = i with
              | none => s
              | some e =>
                let s := formAt s team tm e
                match (sget s.teams team).bind fun tm => slotWith tm i with
                | none => s
                | some k => deliverTo s team k q)

end Sys2Proof.Machine
end

