-- ==== Sys2Proof/Machine/Join.lean ====
section
/-! DEFINITION. Accumulator banks and join instructions, 0x340 to 0x345 (R279 to R296). -/

namespace Sys2Proof.Machine

/-! ## Entries and places (R280 to R284) -/

/-- `fold` of a key. -/
def foldKey (k : BitVec 48) : Nat :=
  (k.extractLsb' 0 9 ^^^ k.extractLsb' 9 9 ^^^ k.extractLsb' 18 9 ^^^ k.extractLsb' 27 9 ^^^ k.extractLsb' 36 9
    ^^^ (k.extractLsb' 45 3).zeroExtend 9).toNat

/-- `probe`: positions 8·bucket + slot, in order. -/
def probe (k : BitVec 48) (nb : Nat) : List Nat :=
  let h := foldKey k % nb
  (List.range 4).flatMap fun r => (List.range 8).map fun s => 8 * ((h + r) % nb) + s

/-- The loop of `add` over a bank's positions; none without a place. -/
def bankAdd (k : BitVec 48) (v : BitVec 176) : List Nat → Bank → Option Bank
  | [], _ => none
  | p :: t, b => match sget b.ents p with
    | none => some { b with ents := sset b.ents p { key := k, value := v }, res := b.res + 1 }
    | some e => if e.key = k then some { b with ents := sset b.ents p { e with value := x176Add e.value v } } else bankAdd k v t b

/-- An entry in memory (R280). -/
def entryWord (e : AccEntry) : BitVec 256 := (1 : BitVec 8) ++ e.key ++ (0 : BitVec 8) ++ e.value.signExtend 192

/-- The entry that 32 bytes hold. -/
def entryFrom (w : BitVec 256) : Option AccEntry :=
  if w.extractLsb' 248 2 = 0 then none else some { key := w.extractLsb' 200 48, value := w.extractLsb' 0 176 }

/-- A spill-table entry at an offset. -/
def spillAt (m : Store Byte) (off : Nat) : Option AccEntry :=
  entryFrom (BitVec.ofNat 256 (leNat ((List.range 32).map fun i => sgetD m (off + i) 0)))

/-- The same loop over a spill table: whether an entry was taken, and the scratchpad. -/
def spillAdd (off : Nat) (k : BitVec 48) (v : BitVec 176) : List Nat → Store Byte → Option (Bool × Store Byte)
  | [], _ => none
  | p :: t, m =>
    let put := fun (e : AccEntry) => spSets m (off + 32 * p) (natLe 32 (entryWord e).toNat)
    match spillAt m (off + 32 * p) with
    | none => some (true, put { key := k, value := v })
    | some e => if e.key = k then some (false, put { e with value := x176Add e.value v }) else spillAdd off k v t m

/-- A bound spill table's buffer. -/
def spillBuf (tm : Team) (b : Bank) : Option Buf := b.spill.map (bufOf tm)

/-- What becomes of an addition: done, a key out of range, or no place. -/
inductive Added
  | ok (tm : Team) (b : Bank)
  | range
  | full

/-- Adds a value under key (i, j) (R282 to R284). -/
def accAdd (tm : Team) (b : Bank) (i j : Nat) (v : BitVec 176) : Added :=
  let k : BitVec 48 := BitVec.ofNat 48 (i * 2 ^ 24 + j)
  if !b.hash then (if 64 ≤ i || 64 ≤ j then .range else .ok tm (directAdd b i j v))
  else match bankAdd k v (probe k (b.nbm1 + 1)) b with
    | some b => .ok tm b
    | none => match spillBuf tm b with
      | none => .full
      | some t => match spillAdd t.off k v (probe k (t.size / 256)) tm.scratch with
        | none => .full
        | some (new, m) => .ok { tm with scratch := m } { b with spilln := if new then b.spilln + 1 else b.spilln }

/-- Occupied entries of a bound table, in ascending offset. -/
def spillEntries (tm : Team) (b : Bank) : List AccEntry :=
  match spillBuf tm b with
  | none => []
  | some t => (List.range (t.size / 32)).filterMap fun i => spillAt tm.scratch (t.off + 32 * i)

/-- The status word (R281). -/
def bankStatus (b : Bank) : DWord :=
  BitVec.ofNat 64 (b.flags.toNat * 2 ^ 48 + b.spill.isSome.toNat * 2 ^ 47 + b.hash.toNat * 2 ^ 46 + b.nbm1 * 2 ^ 37 + b.spilln * 2 ^ 13
    + b.res)

/-- The bank that a status word gives, with the number of its spill buffer. -/
def bankFrom (w buf : Nat) (b : Bank) : Bank :=
  { b with
    flags := BitVec.ofNat 7 (nbits w 48 7), hash := nbit w 46, nbm1 := nbits w 37 9, spilln := nbits w 13 13, res := nbits w 0 13,
    spill := if nbit w 47 then some buf else none }

/-- Clears a bank's entries. -/
def bankClear (b : Bank) : Bank := { b with ents := [], res := 0, spilln := 0 }

/-! ## Descriptors, tuples, checks (R287 to R289) -/

/-- A failed check of a join instruction. -/
def fieldFault (sub : Nat) (a : Nat) : AFault := ⟨2, sub, 0, 0, BitVec.ofNat 64 a⟩
def spillFault (sub : Nat) (a : Nat) : AFault := ⟨0x1A, sub, 0, 0, BitVec.ofNat 64 a⟩

/-- N and OFF of a descriptor, and its checks. -/
def descN (g : DWord) : Nat := nbits g.toNat 20 17
def descOff (g : DWord) : Nat := g.toNat % 2 ^ 20
def descFaults (tm : Team) (n : GReg) : List (Option AFault) :=
  let g := gRead tm n.toNat
  [ if g.toNat / 2 ^ 37 ≠ 0 || 65536 < descN g then some (fieldFault 0x13 n.toNat) else none,
    if descOff g % 16 ≠ 0 then some ⟨0x14, 0, 0, 6, BitVec.ofNat 64 (descOff g)⟩ else none ]

/-- The checks of a stream. -/
def streamFaults (tm : Team) (n : GReg) : List (Option AFault) :=
  let g := gRead tm n.toNat
  if descN g = 0 then [] else checkDecl tm (descOff g) (16 * descN g) .engR

/-- The checks of a bank's spill traffic. -/
def spillFaults (tm : Team) (b : Bank) : List (Option AFault) :=
  match spillBuf tm b with
  | none => []
  | some t => checkDecl tm t.off t.size .engW

/-- A tuple: its first two numbers and its value word. -/
def tupleAt (tm : Team) (off p : Nat) : Nat × Nat × Word :=
  let a := off + 16 * p
  (spNat tm a 4 % 2 ^ 24, spNat tm (a + 4) 4 % 2 ^ 24, BitVec.ofNat 32 (spNat tm (a + 8) 4))

/-- Slots that tuples may have. -/
def tupleSlot (lr : LaunchRec) (fs : FSlot) : Bool :=
  let k := (slotOf (fsRead lr fs)).kind
  k.isFloat || k.isInt

/-- A value as it enters X176; a NaN or an infinity contributes 0 and sets XV (R75). -/
def enterVal : Option Q → BitVec 176 × XFlags
  | none => (0, 4)
  | some q => toX176 q

def bankFlags (b : Bank) (x : XFlags) : Bank := { b with flags := b.flags ||| (x ++ (0 : BitVec 4)) }

/-! ## JMAC (R292) -/

/-- A JMAC cursor. -/
structure Cursor where
  pa  : Nat
  pb0 : Nat
  pb  : Nat

def cursorOf (g : DWord) : Cursor := { pa := g.toNat % 2 ^ 17, pb0 := nbits g.toNat 17 17, pb := nbits g.toNat 34 17 }
def Cursor.word (c : Cursor) : DWord := BitVec.ofNat 64 (c.pa + c.pb0 * 2 ^ 17 + c.pb * 2 ^ 34)

/-- How a join ends: done, at a fault, or without a place; the cursor stands at the end or at the failing product. -/
inductive JoinEnd
  | done (c : DWord)
  | fault (c : DWord) (f : AFault)
  | full (c : DWord) (key : Nat)

/-- What a join reads: stream offsets, counts, slots. -/
structure JStreams where
  oa : Nat
  na : Nat
  ob : Nat
  nb : Nat
  sa : Slot
  sb : Slot

/-- The search for the run of k in B: the run's start, or the tuple that falls. -/
def findRun (tm : Team) (j : JStreams) (k : Nat) : Nat → Nat → Except Nat Nat
  | 0, p => .ok p
  | n + 1, p =>
    if p < j.nb && (tupleAt tm j.ob p).1 < k then
      if p + 1 < j.nb && (tupleAt tm j.ob (p + 1)).1 < (tupleAt tm j.ob p).1 then .error (p + 1) else findRun tm j k n (p + 1)
    else .ok p

/-- The products of an A tuple with B from PB on. -/
def products (j : JStreams) (i k : Nat) (wa : Word) (pa pb0 : Nat) : Nat → Nat → Team → Bank → Team × Bank × Except JoinEnd Nat
  | 0, pb, tm, b => (tm, b, .ok pb)
  | n + 1, pb, tm, b =>
    let t := tupleAt tm j.ob pb
    if pb < j.nb && t.1 = k then
      let prod := match valueWord j.sa wa, valueWord j.sb t.2.2 with
        | some x, some y => some (x.mul y)
        | _, _ => none
      let (v, xf) := enterVal prod
      let key := i * 2 ^ 24 + t.2.1
      let cur := (Cursor.mk pa pb0 pb).word
      match accAdd tm b i t.2.1 v with
      | .range => (tm, b, .error (.fault cur (fieldFault 0x14 key)))
      | .full => (tm, b, .error (.full cur key))
      | .ok tm b => products j i k wa pa pb0 n (pb + 1) tm (bankFlags b xf)
    else (tm, b, .ok pb)

/-- The loop of JMAC. -/
def jmacLoop (j : JStreams) : Nat → Cursor → Team → Bank → Team × Bank × JoinEnd
  | 0, c, tm, b => (tm, b, .done c.word)
  | n + 1, c, tm, b =>
    if j.na ≤ c.pa then (tm, b, .done c.word)
    else
      let (k, i, wa) := tupleAt tm j.oa c.pa
      if 0 < c.pa && k < (tupleAt tm j.oa (c.pa - 1)).1 then (tm, b, .fault c.word (fieldFault 0x16 (j.oa + 16 * c.pa)))
      else match (if c.pb = c.pb0 then findRun tm j k (j.nb - c.pb0) c.pb0 else .ok c.pb0) with
        | .error p => (tm, b, .fault c.word (fieldFault 0x16 (j.ob + 16 * p)))
        | .ok pb0 =>
          let pb := if c.pb = c.pb0 then pb0 else c.pb
          match products j i k wa c.pa pb0 (j.nb - pb) pb tm b with
          | (tm, b, .error e) => (tm, b, e)
          | (tm, b, .ok pb) =>
            let more := c.pa + 1 < j.na && (tupleAt tm j.oa (c.pa + 1)).1 = k
            jmacLoop j n { pa := c.pa + 1, pb0 := if more then pb0 else pb, pb := if more then pb0 else pb } tm b

/-- Ends a join: its cursor, then completion, a stop (R293) or a trap. -/
def joinDone (x : HeadX) (gd : GReg) (acc : BankN) (stop : Bool) (y : SSite) (s : State) (r : Team × Bank × JoinEnd) : SRes :=
  let (tm, b, e) := r
  let s := modTeam s y.t fun _ => modBank tm acc.toNat fun _ => b
  let hpc := hpcWord y.q.pc y.q.wix
  match e with
  | .done c => .retire (openSeq (gWrite s y.t gd.toNat c) y.t x.xdc.toNat (.bank acc.toNat true))
  | .fault c f => .hold (trapSeq (gWrite s y.t gd.toNat c) y.t f.cause hpc f.addr (infoOf f 0))
  | .full c key =>
    if stop then .retire (openSeq (gWrite s y.t gd.toNat (c ||| BitVec.ofNat 64 (2 ^ 63))) y.t x.xdc.toNat (.bank acc.toNat true))
    else
      let f := spillFault (if b.spill.isNone then 1 else 0) key
      .hold (trapSeq (gWrite s y.t gd.toNat c) y.t f.cause hpc f.addr (infoOf f 0))

/-- JMAC's issue. -/
def jmacIssue (x : HeadX) (gd ga gb : GReg) (fsa fsb : FSlot) (ec : BitVec 2) (acc : BankN) (stop : Bool) (s : State) : State :=
  issueSeq
    { guard := some x, dc := x.xdc.toNat, gs := [gd.toNat, ga.toNat, gb.toNat],
      ok := fun y => gd ≠ ga && gd ≠ gb && tupleSlot y.lr fsa && tupleSlot y.lr fsb, held := bufHeldSeq }
    (fun y s =>
      let b := bankOf y.tm acc.toNat
      let a := gRead y.tm ga.toNat
      let d := gRead y.tm gb.toNat
      let g := gRead y.tm gd.toNat
      let c := cursorOf g
      let bad := nbits g.toNat 51 12 ≠ 0 || descN a < c.pa || c.pb < c.pb0 || descN d < c.pb
      if bankShut s y.t acc.toNat then .stall
      else match pickFault (descFaults y.tm ga ++ descFaults y.tm gb ++ [if bad then some (fieldFault 0x13 gd.toNat) else none]
          ++ streamFaults y.tm ga ++ streamFaults y.tm gb ++ spillFaults y.tm b) with
      | some f => .trap f.cause f.addr (infoOf f 0)
      | none =>
        let occ := max 1 ((descN a - c.pa + (descN d - c.pb0) + 15) / 16)
        debit s y (ecCost s ec * occ) fun s =>
          let j : JStreams :=
            { oa := descOff a, na := descN a, ob := descOff d, nb := descN d, sa := slotOf (fsRead y.lr fsa), sb := slotOf (fsRead y.lr fsb) }
          match sget s.teams y.t with
          | none => .stall
          | some tm => joinDone x gd acc stop y s (jmacLoop j (j.na - c.pa) c tm b)) s

/-- JMAC. -/
def execJmac (x : HeadX) (gd ga gb : GReg) (fsa fsb : FSlot) (ec : BitVec 2) (acc : BankN) (stop : Bool) (s : State) : Out :=
  .next (jmacIssue x gd ga gb fsa fsb ec acc stop s)

/-- A sequencer whose debit waits tries again (R268). -/
def execEnergyDebitWaitEnd (team : Nat) (s : State) : Out :=
  .next (match ssiteOf s team with
    | none => s
    | some x =>
      let s1 := modSeq s team fun q => { q with status := .ready }
      if x.q.status ≠ .energy || !(match ssiteOf s1 team with | some y => canIssueSeq s1 y | none => false) then s
      else
        let s1 := { s1 with issuer := some (.seq team) }
        let s2 := match issuerInstr s (.seq team) with
          | some (.jmac h gd ga gb fsa fsb ec acc stop) => jmacIssue h gd ga gb fsa fsb ec acc stop s1
          | _ => energyRetry s1 team
        let left : Bool := match ssiteOf s2 team with | some y => y.q.status ≠ .energy | none => true
        let s2 := { s2 with issuer := s.issuer }
        if left then modCtx s2 x.tm.ctx fun c => { c with eq := c.eq.filter (· ≠ team) } else s2)

/-! ## JINS (R293) -/

/-- The loop of JINS over a stream. -/
def jinsLoop (off n : Nat) (sl : Slot) : Nat → Nat → Team → Bank → Team × Bank × JoinEnd
  | 0, p, tm, b => (tm, b, .done (BitVec.ofNat 64 p))
  | m + 1, p, tm, b =>
    if n ≤ p then (tm, b, .done (BitVec.ofNat 64 p))
    else
      let (i, j, w) := tupleAt tm off p
      let (v, xf) := enterVal (valueWord sl w)
      match accAdd tm b i j v with
      | .range => (tm, b, .fault (BitVec.ofNat 64 p) (fieldFault 0x14 (i * 2 ^ 24 + j)))
      | .full => (tm, b, .full (BitVec.ofNat 64 p) (i * 2 ^ 24 + j))
      | .ok tm b => jinsLoop off n sl m (p + 1) tm (bankFlags b xf)

/-- JINS. -/
def execJins (x : HeadX) (gd ga : GReg) (fsa : FSlot) (acc : BankN) (stop : Bool) (s : State) : Out :=
  .next (issueSeq
    { guard := some x, dc := x.xdc.toNat, gs := [gd.toNat, ga.toNat], ok := fun y => gd ≠ ga && tupleSlot y.lr fsa,
      held := bufHeldSeq }
    (fun y s =>
      let b := bankOf y.tm acc.toNat
      let a := gRead y.tm ga.toNat
      let g := gRead y.tm gd.toNat
      let p := g.toNat % 2 ^ 17
      let bad := nbits g.toNat 17 46 ≠ 0 || descN a < p
      if bankShut s y.t acc.toNat then .stall
      else match pickFault (descFaults y.tm ga ++ [if bad then some (fieldFault 0x13 gd.toNat) else none]
          ++ streamFaults y.tm ga ++ spillFaults y.tm b) with
      | some f => .trap f.cause f.addr (infoOf f 0)
      | none => joinDone x gd acc stop y s (jinsLoop (descOff a) (descN a) (slotOf (fsRead y.lr fsa)) (descN a - p) p y.tm b)) s)

/-! ## ACCZ, ACCSP, ACCCNT (R290, R291, R295) -/

/-- ACCZ. -/
def execAccz (x : HeadX) (acc : BankN) (hash : Option (BitVec 9)) (s : State) : Out :=
  .next (issueSeq { guard := some x, dc := x.xdc.toNat } (fun y s =>
    if bankBusy s y.t acc.toNat then .stall
    else
      let s := modTeam s y.t fun tm => modBank tm acc.toNat fun _ =>
        { hash := hash.isSome, nbm1 := (hash.map BitVec.toNat).getD 511, ents := [], res := 0, spilln := 0, spill := none, flags := 0 }
      .retire (openSeq s y.t x.xdc.toNat (.bank acc.toNat false))) s)

/-- Moves entries into a table: the scratchpad, or the key without a place. -/
def moveEntries (off sb : Nat) : List AccEntry → Store Byte → Except (BitVec 48) (Store Byte)
  | [], m => .ok m
  | e :: t, m => match spillAdd off e.key e.value (probe e.key sb) m with
    | none => .error e.key
    | some (_, m) => moveEntries off sb t m

/-- ACCSP. On SPILL_FULL the new buffer's bytes are unspecified: free values, of which 0 stands for none kept (log 42). -/
def execAccsp (x : HeadX) (acc : BankN) (buf : BufN) (s : State) : Out :=
  .next (issueSeq { guard := some x, dc := x.xdc.toNat, held := bufHeldSeq } (fun y s =>
    if bankBusy s y.t acc.toNat then .stall
    else
      let b := bankOf y.tm acc.toNat
      let t := bufOf y.tm buf.toNat
      let bad := t.size = 0 || t.size % 256 ≠ 0 || 131072 < t.size || b.spill = some buf.toNat
      let fs := [ if !b.hash then some (fieldFault 0x10 acc.toNat) else none,
        if bad then some (fieldFault 0x15 buf.toNat) else none ] ++ checkDecl y.tm t.off t.size .engW ++ spillFaults y.tm b
      match pickFault fs with
      | some f => .trap f.cause f.addr (infoOf f 0)
      | none =>
        let zero := spSets y.tm.scratch t.off (List.replicate t.size 0)
        let old := spillEntries y.tm b
        match moveEntries t.off (t.size / 256) old zero with
        | .error k =>
          let junk := (List.range t.size).map fun i => (Config.freeWord s.freeCtr i).extractLsb' 0 8
          .hold (trapSeq (modTeam s y.t fun tm => { tm with scratch := spSets tm.scratch t.off junk }) y.t 0x1A
            (hpcWord y.q.pc y.q.wix) (k.zeroExtend 64) 0)
        | .ok m =>
          let s := modTeam s y.t fun tm => modBank { tm with scratch := m } acc.toNat fun b =>
            { b with spill := some buf.toNat, spilln := old.length }
          .retire (openSeq s y.t x.xdc.toNat (.bank acc.toNat false))) s)

/-- A drain that clears a bank has not completed (R295). -/
def drainOpen (s : State) (t bank : Nat) : Bool :=
  s.ops.any fun e => e.2.team = t && (match e.2.kind with | .drain b _ _ clr => b = bank && clr | _ => false)

/-- ACCCNT. -/
def execAcccnt (x : HeadX) (gd : GReg) (acc : BankN) (s : State) : Out :=
  .next (issueSeq { guard := some x, gs := [gd.toNat] } (fun y s =>
    if bankBusy s y.t acc.toNat || drainOpen s y.t acc.toNat then .stall
    else .retire (gWrite s y.t gd.toNat (bankStatus (bankOf y.tm acc.toNat)))) s)

/-! ## ACCDR (R294) -/

/-- Entries in ascending key. -/
def sortEntries (l : List AccEntry) : List AccEntry := (l.foldl (fun (m : Store AccEntry) e => sset m e.key.toNat e) []).map Prod.snd

/-- A converted value: its word, and the bank's flags NV OF UF NX. -/
def drainVal (sl : Slot) (byte : Option Byte) (v : BitVec 176) : Nat × BitVec 4 :=
  let r := roundTo sl (x176Q v) (match byte with | some b => scaleVal b | none => Q.ofInt 1)
  (r.v + (match byte with | some b => b.toNat * 256 | none => 0), viewFlags r.fl)

def slotScaled (sl : Slot) : Bool := sl.kind = .bpi && sl.scaled

/-- Tuples of a drain from an offset: bytes and flags. -/
def drainTuples (sl : Slot) : Nat → List AccEntry → List (Nat × Byte) × BitVec 4
  | _, [] => ([], 0)
  | off, e :: t =>
    let byte := if slotScaled sl then some (blockScale sl [x176Q e.value]) else none
    let (w, f) := drainVal sl byte e.value
    let bytes := natLe 16 (e.key.toNat / 2 ^ 24 + e.key.toNat % 2 ^ 24 * 2 ^ 32 + w * 2 ^ 64)
    let (bs, fs) := drainTuples sl (off + 16) t
    (bytes.zipIdx.map (fun p => (off + p.2, p.1)) ++ bs, f ||| fs)

/-- The value of row m, column n of a bank. -/
def denseVal (b : Bank) (n : Nat) : BitVec 176 := ((sget b.ents n).map (·.value)).getD 0

/-- Block j of a dense BPI drain. -/
def denseBlock (sl : Slot) (b : Bank) (off j : Nat) : List (Nat × Byte) × BitVec 4 :=
  let vals := (List.range 32).map fun l => denseVal b (32 * j + l)
  let byte := if sl.scaled then some (blockScale sl (vals.map x176Q)) else none
  let rs := vals.map (drainVal sl byte)
  let word := fun q => (List.range 32).foldl (fun w l => w + (if nbit (rs.getD l (0, 0)).1 q then 2 ^ l else 0)) 0
  let planes := (List.range 8).flatMap fun q => (natLe 4 (word q)).zipIdx.map fun p => (off + planeOff j q + p.2, p.1)
  (planes ++ (match byte with | some c => [(off + 4096 + j, c)] | none => []), rs.foldl (fun f r => f ||| r.2) 0)

/-- A dense drain. -/
def drainDense (sl : Slot) (b : Bank) (off : Nat) : List (Nat × Byte) × BitVec 4 :=
  if sl.kind = .bpi then
    let bs := (List.range 128).map (denseBlock sl b off)
    (bs.flatMap Prod.fst, bs.foldl (fun f r => f ||| r.2) 0)
  else
    let es := sl.kind.esize
    let rs := (List.range 4096).map fun n => drainVal sl none (denseVal b n)
    ((rs.zipIdx.flatMap fun r => (natLe es r.1.1).zipIdx.map fun p => (off + es * r.2 + p.2, p.1)), rs.foldl (fun f r => f ||| r.2) 0)

/-- Bytes a drain covers. -/
def drainSize (sl : Slot) (od : DrOrd) (n : Nat) : Nat :=
  match od with
  | .dense => if sl.kind = .bpi then (if sl.scaled then 4224 else 4096) else 4096 * sl.kind.esize
  | .ord => 16 * n
  | .slot => 16 * n

/-- What a drain writes, its flags, and the number it answers. -/
def drainOut (tm : Team) (b : Bank) (sl : Slot) (od : DrOrd) (off n : Nat) : (List (Nat × Byte) × BitVec 4) × Nat :=
  let all := b.ents.map Prod.snd ++ spillEntries tm b
  match od with
  | .dense => (drainDense sl b off, 4096)
  | .ord => (drainTuples sl off ((sortEntries all).take n), b.res + b.spilln)
  | .slot => (drainTuples sl off (all.take n), b.res + b.spilln)

/-- A buffer is the spill table of some bank of the team (R289). -/
def tableBound (tm : Team) (k : Nat) : Bool := tm.banks.any fun e => e.2.spill = some k

/-- The checks of a drain's destination, with `.full` (R238). The buffer that a drain of no bytes names is the one at its
offset. -/
def drainDst (tm : Team) (off n : Nat) (full : Bool) : List (Option AFault) :=
  let named := (if n = 0 then (if full then bufAt tm off else none) else wholeBuf tm off n).map Prod.fst
  (if n = 0 then [] else checkDecl tm off n .engW)
  ++ [match named with
      | some k => if tableBound tm k then some (fieldFault 0x15 k) else none
      | none => none]
  ++ (if !full then [] else [match bufAt tm off with
      | none => some ⟨0x16, 0x1D, 0, 6, BitVec.ofNat 64 off⟩
      | some (k, bf) => if bufLast bf = .filling then none else some ⟨0x16, 0, 0, 6, BitVec.ofNat 64 k⟩])

/-- Opens a drain's operation and, with `.full`, the transition that follows its writes. -/
def openDrain (s : State) (t dc : Nat) (full : Option Nat) (kind : OpKind) : State :=
  let id := s.nextOp
  let s := openSeq s t dc kind
  match full with
  | none => s
  | some n =>
    let s := bufRequest s t n .full .team (some [])
    let s := modTeam s t fun tm => modBuf tm n fun bf =>
      { bf with reqs := bf.reqs.map fun r => if r.op = s.nextOp then { r with waits := id :: r.waits } else r }
    openOp s { team := t, tids := [], iss := [], seq := true, dc := 6, read := false, atom := false, kind := .bufs n }

/-- Clears a drained bank; its spill table is zero-filled. -/
def drainClear (tm : Team) (acc : Nat) : Team :=
  let tm := match spillBuf tm (bankOf tm acc) with
    | none => tm
    | some t => { tm with scratch := spSets tm.scratch t.off (List.replicate t.size 0) }
  modBank tm acc bankClear

/-- ACCDR: the bank is read at issue, the buffer is written by the operation. -/
def execAccdr (x : HeadX) (gd ga : GReg) (fsa : FSlot) (acc : BankN) (od : DrOrd) (clr full : Bool) (s : State) : Out :=
  .next (issueSeq { guard := some x, dc := x.xdc.toNat, gs := [gd.toNat, ga.toNat], ok := fun y => tupleSlot y.lr fsa, held := bufHeldSeq } (fun y s =>
    if bankBusy s y.t acc.toNat then .stall
    else
      let b := bankOf y.tm acc.toNat
      let sl := slotOf (fsRead y.lr fsa)
      let g := gRead y.tm ga.toNat
      let off := descOff g
      let size := drainSize sl od (descN g)
      match pickFault ([if od = .dense && b.hash then some (fieldFault 0x10 acc.toNat) else none]
          ++ descFaults y.tm ga ++ [if od = .dense && descN g ≠ 0 then some (fieldFault 0x13 ga.toNat) else none]
          ++ drainDst y.tm off size full ++ spillFaults y.tm b) with
      | some f => .trap f.cause f.addr (infoOf f 0)
      | none =>
        let ((bytes, fl), n) := drainOut y.tm b sl od off (descN g)
        let s := modTeam s y.t fun tm => modBank tm acc.toNat fun b => { b with flags := b.flags ||| ((0 : BitVec 3) ++ fl) }
        let s := if clr then modTeam s y.t fun tm => drainClear tm acc.toNat else s
        let buf := (bufAt y.tm off).map Prod.fst
        let s := gWrite s y.t gd.toNat (BitVec.ofNat 64 n)
        .retire (openDrain s y.t x.xdc.toNat (if full then buf else none) (.drain acc.toNat (buf.getD 64) bytes clr))) s)

end Sys2Proof.Machine
end

