-- ==== Sys2Proof/Machine/Packets.lean ====
section
/-! DEFINITION. Command packets (R317 to R324), the command processor's turns, and the accesses of the host and of other
packages (R376, R377), which a replay performs again between packets (R382). -/

namespace Sys2Proof.Machine

/-! ## Queues -/

def modQueue (s : State) (q : Nat) (f : Queue → Queue) : State := { s with queues := smod s.queues q f }

/-- Where a queue's descriptor lies, as its context translates it now (R169). -/
def descPlace (s : State) (u : Queue) : Option Place :=
  match cpPlaces s u.ctx false u.desc 64 with
  | .error _ => none
  | .ok ps => some (placeAt ps u.desc)
def descNat (s : State) (u : Queue) (off n : Nat) : Nat := ((descPlace s u).map fun p => memNat s.mem (p.pa + off) n).getD 0

/-- WPTR, RPTR and ERR of a queue's descriptor (R317). A queue whose descriptor does not translate is not served (log 101). -/
def queueWptr (s : State) (u : Queue) : Nat := descNat s u 12 4
def queueRptr (s : State) (u : Queue) : Nat := descNat s u 16 4
def queueErr (s : State) (u : Queue) : Nat := descNat s u 20 1
def queueStopped (s : State) (u : Queue) : Bool := (descPlace s u).isNone || queueErr s u ≠ 0

/-- A write of a party outside the dies to a queue's descriptor. -/
def descPut (s : State) (u : Queue) (off : Nat) (bs : List Byte) : State :=
  match descPlace s u with
  | none => s
  | some p => homeWrite s u.ctx none (p.va + off) (p.pa + off) p.mv p.tracked bs

/-- The command processor's write (R300). -/
def descWrite (s : State) (u : Queue) (off : Nat) (bs : List Byte) : State :=
  cpMarked (descPut s u off bs) u.ctx ((descPlace s u).any (·.mv))

/-- WPTR covers `n` slots from a count on, which RPTR has not passed. -/
def covers (s : State) (u : Queue) (c n : Nat) : Bool :=
  (c + 2 ^ 32 - queueRptr s u) % 2 ^ 32 + n ≤ (queueWptr s u + 2 ^ 32 - queueRptr s u) % 2 ^ 32

/-- Bytes of `n` slots from a count on; a packet may wrap to slot 0. -/
def slotBytes (s : State) (u : Queue) : Nat → Nat → Except Nat (List Byte)
  | _, 0 => .ok []
  | c, n + 1 =>
    match cpRead s u.ctx (u.base + 64 * (c % 2 ^ u.logn)) 64 with
    | .error e => .error e
    | .ok bs => match slotBytes s u (c + 1) n with
      | .error e => .error e
      | .ok cs => .ok (bs ++ cs)

/-- Slots that the packet whose first slot is given occupies. -/
def packetSlots (bs : List Byte) : Nat := (bs.getD 1 0).toNat % 4 + 1

/-- The packet at a count; `none` while WPTR does not cover it. -/
def packetAt (s : State) (u : Queue) (c : Nat) : Except Nat (Option (List Byte)) :=
  match u.staged.find? fun e => e.1 = c with
  | some e => .ok (some e.2.1)
  | none =>
    if !covers s u c 1 then .ok none
    else match slotBytes s u c 1 with
      | .error e => .error e
      | .ok bs =>
        if !covers s u c (packetSlots bs) then .ok none
        else (slotBytes s u c (packetSlots bs)).map some

/-! ## Reading a packet (R319, R320) -/

/-- Word k of a packet. -/
def pktWord (bs : List Byte) (k : Nat) : DWord := BitVec.ofNat 64 (leNat ((bs.drop (8 * k)).take 8))

/-- Bytes beyond those that the type uses are 0. -/
def restZero (bs : List Byte) (n : Nat) : Bool := (bs.drop n).all (· = 0)

def pktCmp : Nat → Option PCmp
  | 0 => some .eq | 1 => some .ne | 2 => some .geU | 3 => some .ltU | 4 => some .geS | 5 => some .ltS | _ => none

def pktSig : Nat → Option SigOp
  | 0 => some .write | 1 => some .add | 2 => some .umax | _ => none

/-- Entry e of a FENCE. -/
def pktEntry (bs : List Byte) (e : Nat) : Option PEntry :=
  let a := pktWord bs (2 + 2 * e)
  (pktCmp (a.toNat % 8)).map fun c => { addr := a &&& ~~~7#64, cmp := c, val := pktWord bs (3 + 2 * e) }

/-- The instruction of a packet of queue q; `none` is a malformed packet. -/
def packetInstr (q : Nat) (bs : List Byte) : Option Instr :=
  let h := (pktWord bs 0).toNat
  let len := nbits h 8 2
  let bar := nbit h 10
  let arg := h / 2 ^ 12
  let w1 := pktWord bs 1
  if nbit h 11 then none
  else match h % 256 with
  | 0 => if arg ≠ 0 || !restZero bs 8 then none else some (.packetNop q (BitVec.ofNat 2 len) bar)
  | 1 =>
    let c := pktWord bs 2
    if len ≠ 0 || 8 ≤ arg || w1.toNat % 64 ≠ 0 then none
    else match arg with
    | 0 => if restZero bs 16 then some (.launch q bar w1 .none) else none
    | 1 => if restZero bs 32 && c.toNat % 8 = 0 then some (.launch q bar w1 (.write c (pktWord bs 3))) else none
    | 2 => if restZero bs 32 && c.toNat % 8 = 0 then some (.launch q bar w1 (.add c (pktWord bs 3))) else none
    | _ => none
  | 2 =>
    if arg = 0 || 12 < arg || len ≠ (16 + 16 * arg + 63) / 64 - 1 || w1 ≠ 0 || !restZero bs (16 + 16 * arg) then none
    else ((List.range arg).mapM (pktEntry bs)).map fun es => .packetFence q bar es
  | 3 =>
    if len ≠ 0 || 8 ≤ arg || w1.toNat % 8 ≠ 0 || !restZero bs 24 then none
    else (pktSig arg).map fun op => .signal q bar op w1 (pktWord bs 2)
  | 4 =>
    if len ≠ 0 || 2 ^ 17 ≤ arg || w1.toNat % 64 ≠ 0 || !restZero bs 16 then none
    else some (.edge q bar (nbit h 12) (arg / 2 + 1) w1)
  | 5 =>
    let rs := (List.range (min arg 15)).map fun e => (pktWord bs (2 + 2 * e), pktWord bs (3 + 2 * e))
    if arg = 0 || 15 < arg || 64 * (len + 1) < 16 + 16 * arg || w1 ≠ 0 || !restZero bs (16 + 16 * arg)
      || rs.any fun r => r.1.toNat % 128 ≠ 0 || r.2.toNat % 128 ≠ 0 then none
    else some (.inval q bar (BitVec.ofNat 2 len) rs)
  | 6 => if len ≠ 0 || arg ≠ 0 || w1.toNat % 8 ≠ 0 || !restZero bs 16 then none else some (.timestamp q bar w1)
  | _ => none

/-! ## The end of a packet -/

/-- A packet is rejected (R324): ERR takes the status, and RPTR stays. -/
def packetReject (s : State) (q code : Nat) : State :=
  match sget s.queues q with
  | none => s
  | some u =>
    modQueue (descWrite s u 20 [BitVec.ofNat 8 code]) q fun u => { u with status := .idle, staged := [], code := [] }

/-! ## The journal and its replay (R382) -/

/-- Bytes of data in a journal entry: a packet's slots, or a write's bytes. -/
def journalBytes : Journal → Nat
  | .packet _ n => 64 * n
  | .host _ _ (.write _ bs) => bs.length
  | .fabric _ _ (.write _ bs) => bs.length
  | .host _ _ (.read ..) => 0
  | .fabric _ _ (.read ..) => 0

/-- The journal has reached 64 GiB. -/
def journalFull (s : State) : Bool := 2 ^ 36 ≤ s.journal.foldl (fun n j => n + journalBytes j + Config.entryBytes) 0

/-- Appends an input to the journal, which runs from the first checkpoint on. -/
def journalPut (s : State) (j : Journal) : State :=
  if s.keeping = [] then s
  else
    let s := { s with journal := s.journal ++ [j] }
    if journalFull s then { s with agenda := s.agenda ++ [.journalFull] } else s

/-- A journal entry belongs to one of some partitions. -/
def journalOf (s : State) (ps : List Nat) : Journal → Bool
  | .packet q _ => (sget s.queues q).any fun u => ps.contains u.part
  | .host _ ctx _ => (sget s.contexts ctx).any fun x => ps.contains x.part
  | .fabric _ ctx _ => (sget s.contexts ctx).any fun x => ps.contains x.part

/-- A replay into the partition of a context goes on. -/
def replaying (s : State) (ctx : Nat) : Bool := (sget s.contexts ctx).any fun x => s.replay.any (journalOf s [x.part])

/-- A channel's access breaks a rule: the channel is frozen (R378). -/
def freezeChannel (s : State) (ch : Nat) (c : Channel) (cause : Nat) (va : DWord) : State :=
  notice { s with channels := sset s.channels ch { c with frozen := true } } c.ctx 5 (if cause = 0x100 then violationCause s else cause) ch
    (3 * 2 ^ 56) va

/-- A request of another package fails here: the requester is told, and REMOTE_FAIL counts it (R376). -/
def remoteFail (s : State) : State := { s with counters := { s.counters with remoteFail := countUp s.counters.remoteFail } }

/-- A request that breaks a rule after its acceptance: a violation of no master of this package, whose notice's ARG and UNIT
are free. -/
def remoteViolation (s : State) (ctx cause : Nat) (va : DWord) : State :=
  let f := fun k => Config.freeNat s.freeCtr (2 ^ 42 + k)
  notice (remoteFail s) ctx 5 (if cause = 0x100 then violationCause s else cause) (f 0 % 2 ^ 16) (f 1 % 256 * 2 ^ 56) va

/-- A write of the host or of another package at the home, or the cause of its failure. -/
def extWrite (s : State) (ctx : Nat) (va : DWord) (bs : List Byte) : Except Nat State := (extPut s ctx va.toNat bs).map Prod.snd

/-- A write of a host channel, journalled; one that fails translation or permission freezes the channel (R377). -/
def hostWrite (s : State) (ch : Nat) (c : Channel) (va : DWord) (bs : List Byte) : State :=
  match extWrite s c.ctx va bs with
  | .error e => freezeChannel s ch c e va
  | .ok s => journalPut s (.host ch c.ctx (.write va bs))

/-- A write of another package, journalled (R376). -/
def fabricWrite (s : State) (pkg ctx : Nat) (va : DWord) (bs : List Byte) : State :=
  match extWrite s ctx va bs with
  | .error e => remoteViolation s ctx e va
  | .ok s => journalPut s (.fabric pkg ctx (.write va bs))

/-- An input that waits in a replay is made: a channel's write by the context that it was made in, whatever the channel is bound to
now or has come to since (R382). -/
def replayOne (s : State) : Journal → State
  | .packet .. => s
  | .host ch ctx (.write va bs) => match extWrite s ctx va bs with
    | .error e => freezeChannel s ch ((sget s.channels ch).getD { ctx := ctx, frozen := false }) e va
    | .ok s => journalPut s (.host ch ctx (.write va bs))
  | .fabric pkg ctx (.write va bs) => fabricWrite s pkg ctx va bs
  | .host _ _ (.read ..) => s
  | .fabric _ _ (.read ..) => s

/-- A journal entry is a packet, of a queue. -/
def isPacket : Journal → Bool | .packet .. => true | .host .. => false | .fabric .. => false
def packetOf (q : Nat) : Journal → Bool | .packet p _ => p = q | .host .. => false | .fabric .. => false

/-- The writes of a replay that stand before its next packet are made. -/
def replayWrites (s : State) : State :=
  let now := s.replay.takeWhile fun j => !isPacket j
  (now.foldl replayOne { s with replay := s.replay.dropWhile fun j => !isPacket j })

/-- Passing a packet in a replay. -/
def replayPacket (s : State) (q : Nat) : State := replayWrites { s with replay := s.replay.eraseP (packetOf q) }

/-! ## Processed packets -/

/-- RPTR passes a processed packet (R317). -/
def packetDone (s : State) (q slots : Nat) : State :=
  match sget s.queues q with
  | none => s
  | some u =>
    let c := queueRptr s u
    let s := descWrite { s with served := if s.served.contains q then s.served else q :: s.served } u 16 (natLe 4 (c + slots))
    let s := modQueue s q fun u =>
      { u with status := .idle, staged := u.staged.filter fun e => e.1 ≠ c, code := u.code.filter fun e => e.1 ≠ c }
    replayPacket (journalPut s (.packet q slots)) q

/-- Runs the packet whose queue has its turn, once its BAR condition holds (R319). -/
def packetRun (q : Nat) (bar : Bool) (s : State) (f : Queue → State) : State :=
  match sget s.queues q with
  | none => s
  | some u => if s.issuer ≠ some (.packet q) || (bar && u.grids ≠ []) then s else f u

/-- A packet that waits on its counters (R321). -/
def packetHold (s : State) (q : Nat) : State := modQueue s q fun u => { u with status := .waiting }

/-! ## The packets -/

/-- NOP. -/
def execPacketNop (q : Nat) (len : BitVec 2) (bar : Bool) (s : State) : Out :=
  .next (packetRun q bar s fun _ => packetDone s q (len.toNat + 1))

/-- The launch record and buffer table that a LAUNCH names, as staged or as they stand, checked (R324, R325). -/
def launchBytes (s : State) (u : Queue) (rec : DWord) : Except Nat (List Byte × List Byte) :=
  match u.staged.find? fun e => e.1 = queueRptr s u && e.2.2.1 ≠ [] with
  | some e => .ok e.2.2
  | none =>
    match cpRead s u.ctx rec.toNat 256 with
    | .error _ => .error 5
    | .ok bs =>
      let nbuf := nbits (leNat bs) 398 7
      let tab := nbits (leNat bs) 256 64
      if nbuf = 0 || 64 < nbuf || tab % 8 ≠ 0 then .ok (bs, [])
      else match cpRead s u.ctx tab (8 * nbuf) with
        | .error _ => .error 5
        | .ok ts => .ok (bs, ts)

/-- The counter of a COP may be written (R322). -/
def copOk (s : State) (ctx : Nat) : Cop → Bool
  | .none => true
  | .write a _ => (cpPlaces s ctx true a.toNat 8).toBool
  | .add a _ => (cpPlaces s ctx true a.toNat 8).toBool

def launchCheck (s : State) (u : Queue) (rec : DWord) (cop : Cop) : Except Nat LaunchRec :=
  match launchBytes s u rec with
  | .error e => .error e
  | .ok (bs, ts) =>
    match parseLaunch rec.toNat (leNat bs) (tableWords (ts.length / 8) ts) with
    | none => .error 2
    | some lr =>
      if launchReject lr ≠ 0 then .error (launchReject lr)
      else if lr.priv && !u.priv then .error 6
      else if !copOk s u.ctx cop then .error 5
      else .ok lr

/-- The records of a launch's grid are written while there is room; RPTR passes the packet with the last one. -/
def launchWrite (s : State) (q n : Nat) : State :=
  let s := writeAllTeams s n
  if allWritten s n then packetDone s q 1 else s

/-- A LAUNCH's first clauses, as staged or as they stand (R26). -/
def launchCode (s : State) (u : Queue) (lr : LaunchRec) : List (Nat × List Byte) :=
  let c := queueRptr s u
  if u.staged.any fun e => e.1 = c && e.2.2.1 ≠ [] then (u.code.filter fun e => e.1 = c).map Prod.snd
  else stagedCode s u.ctx lr

/-- The grid of a queue's LAUNCH. -/
def launchGrid (s : State) (q : Nat) (u : Queue) (lr : LaunchRec) (cop : Cop) : Nat × State :=
  let code := (launchCode s u lr).foldl (fun (m : Store (List Byte)) e => sset m e.1 e.2) []
  let (n, s) := newGrid s u.ctx u.part lr (some q) cop (if u.listed then some u.inval else none)
  (n, modGrid s n fun g => { g with code := code })

/-- LAUNCH. -/
def execLaunch (q : Nat) (bar : Bool) (rec : DWord) (cop : Cop) (s : State) : Out :=
  .next (match (sget s.queues q).bind fun u => u.grids.find? fun n => !allWritten s n with
    | some n => packetRun q false s fun _ => launchWrite s q n
    | none => packetRun q bar s fun u =>
      if (sgetD s.parts u.part default).clusters = [] then s
      else match launchCheck s u rec cop with
        | .error e => packetReject s q e
        | .ok lr =>
          let (n, s) := launchGrid s q u lr cop
          launchWrite (modQueue s q fun u => { u with inval := [], listed := false, grids := u.grids ++ [n] }) q n)

/-- A counter satisfies a comparison (R320). -/
def pktHolds (e : PEntry) (x : DWord) : Bool :=
  match e.cmp with
  | .eq => x = e.val
  | .ne => x ≠ e.val
  | .geU => e.val.ule x
  | .ltU => x.ult e.val
  | .geS => e.val.sle x
  | .ltS => x.slt e.val

/-- Whether every counter of a FENCE holds at one reading, or a read failed. -/
def fenceHolds (s : State) (ctx : Nat) : List PEntry → Except Nat Bool
  | [] => .ok true
  | e :: es =>
    match cpRead s ctx e.addr.toNat 8 with
    | .error c => .error c
    | .ok bs => match fenceHolds s ctx es with
      | .error c => .error c
      | .ok b => .ok (pktHolds e (BitVec.ofNat 64 (leNat bs)) && b)

/-- FENCE. -/
def execPacketFence (q : Nat) (bar : Bool) (es : List PEntry) (s : State) : Out :=
  .next (packetRun q bar s fun u =>
    match fenceHolds s u.ctx es with
    | .error _ => packetReject s q 5
    | .ok true => packetDone s q ((16 + 16 * es.length + 63) / 64)
    | .ok false => packetHold s q)

/-- SIGNAL. -/
def execSignal (q : Nat) (bar : Bool) (op : SigOp) (addr val : DWord) (s : State) : Out :=
  .next (packetRun q bar s fun u =>
    match cpSignal s u.ctx op addr val with
    | .error _ => packetReject s q 5
    | .ok s => packetDone s q 1)

/-- The edge descriptor of an EDGE packet, or the status. -/
def packetEdge (s : State) (ctx : Nat) (desc : DWord) : Except Nat EdgeDesc :=
  match cpPlaces s ctx false desc.toNat 64 with
  | .error _ => .error 5
  | .ok ps =>
    let p := placeAt ps desc.toNat
    match edgeFields (memNat s.mem p.pa 64) p, cpPlaces s ctx true desc.toNat 64 with
    | some e, .ok _ => .ok e
    | some _, .error _ => .error 7
    | none, _ => .error 7

/-- EDGE. -/
def execEdge (q : Nat) (bar consumer : Bool) (k : Nat) (desc : DWord) (s : State) : Out :=
  .next (packetRun q bar s fun u =>
    match packetEdge s u.ctx desc with
    | .error e => packetReject s q e
    | .ok e =>
      if (if consumer then decide (k ≤ edgeOcc e) else decide (k + edgeOcc e ≤ 2 ^ e.logn)) then packetDone s q 1
      else packetHold s q)

/-- INVAL: ranges for the next LAUNCH's boundary. -/
def execInval (q : Nat) (bar : Bool) (len : BitVec 2) (ranges : List (DWord × DWord)) (s : State) : Out :=
  .next (packetRun q bar s fun _ =>
    packetDone (modQueue s q fun u => { u with inval := u.inval ++ ranges, listed := true }) q (len.toNat + 1))

/-- TIMESTAMP: a release at `.sys`. -/
def execTimestamp (q : Nat) (bar : Bool) (addr : DWord) (s : State) : Out :=
  .next (packetRun q bar s fun u =>
    match cpWrite s u.ctx addr.toNat (natLe 8 (timeOf s % 2 ^ 64)) with
    | .error _ => packetReject s q 5
    | .ok s => packetDone (cpRelease s u.ctx) q 1)

/-! ## Turns of the command processor (R318) -/

/-- The packet whose turn it is, or the rejection of what stands at RPTR. -/
def fetchPacket (s : State) (q : Nat) : Fetched :=
  match sget s.queues q with
  | none => .state s
  | some u =>
    if queueStopped s u || (sgetD s.parts u.part default).paused then .state s
    else match packetAt s u (queueRptr s u) with
      | .error _ => .state (packetReject s q 5)
      | .ok none => .state s
      | .ok (some bs) => match packetInstr q bs with
        | none => .state (packetReject s q 1)
        | some i => .word i

/-- A queue's next packet is ready: whole, its queue not stopped, and what a BAR or a LAUNCH waits for there. -/
def packetReady (s : State) (q : Nat) : Bool :=
  match sget s.queues q with
  | none => false
  | some u =>
    let p := sgetD s.parts u.part default
    u.status = .idle && !queueStopped s u && !p.paused && (match packetAt s u (queueRptr s u) with
      | .error _ => true
      | .ok none => false
      | .ok (some bs) => match u.grids.find? fun n => !allWritten s n with
        | some n => (sget s.grids n).any (mayWrite s n)
        | none => !(nbit (leNat (bs.take 2)) 10 && u.grids ≠ []) && !((bs.getD 0 0).toNat = 1 && p.clusters = []))

/-- A queue's packet gets its turn: a queue that has had one in this round only when no other queue is ready that has not; a new
round then begins (R318). -/
def packetTurn (s : State) (q : Nat) (st : QStatus) : State :=
  let again := s.served.contains q
  match sget s.queues q with
  | none => s
  | some u =>
    if u.status ≠ st || (again && s.queues.any fun e => !s.served.contains e.1 && packetReady s e.1) then s
    else { s with issuer := some (.packet q), served := if again then [] else s.served }

/-- QUEUE_PARSE. -/
def execQueueParse (q : Nat) (s : State) : Out := .next (packetTurn s q .idle)

/-- PACKET_POLL: a waiting FENCE or EDGE reads its counters again (R321). -/
def execPacketPoll (q : Nat) (s : State) : Out := .next (packetTurn s q .waiting)

/-- System software writes 0 to ERR (R324). -/
def execErrClear (q : Nat) (s : State) : Out :=
  .next (match sget s.queues q with
    | none => s
    | some u => descPut s u 20 [0])

/-! ## Read-ahead (R26) -/

/-- The count of the first packet not staged, from RPTR on. -/
def stageFrom : List (Nat × List Byte × List Byte × List Byte) → Nat → Nat
  | [], c => c
  | e :: es, c => if e.1 = c then stageFrom es ((c + packetSlots e.2.1) % 2 ^ 32) else stageFrom es c

/-- A packet may be staged behind an earlier one: that one is no FENCE, EDGE or, with BAR, LAUNCH. -/
def passable (bar : Bool) (e : Nat × List Byte × List Byte × List Byte) : Bool :=
  let ty := (e.2.1.getD 0 0).toNat
  ty ≠ 2 && ty ≠ 4 && !(bar && ty = 1)

/-- READ_AHEAD: the first packet not staged, with the record and table of a LAUNCH. -/
def execReadAhead (q : Nat) (s : State) : Out :=
  .next (match sget s.queues q with
    | none => s
    | some u =>
      let c := stageFrom u.staged (queueRptr s u)
      match packetAt s u c with
      | .error _ => s
      | .ok none => s
      | .ok (some bs) =>
        let bar := nbit (leNat (bs.take 2)) 10 && (bs.getD 0 0).toNat = 1
        if queueStopped s u || u.status = .waiting || !(u.staged.all (passable bar)) || (bar && u.grids ≠ []) then s
        else
          let put := fun r t => modQueue s q fun u => { u with staged := u.staged ++ [(c, bs, r, t)] }
          match packetInstr q bs with
          | some (.launch _ _ rec _) => match launchBytes s { u with staged := [] } rec with
            | .error _ => s
            | .ok (r, t) =>
              let code := match parseLaunch rec.toNat (leNat r) (tableWords (t.length / 8) t) with
                | none => []
                | some lr => stagedCode s u.ctx lr
              modQueue (put r t) q fun u => { u with code := u.code ++ code.map fun e => (c, e) }
          | _ => put [] [])

end Sys2Proof.Machine
end

