-- ==== Sys2Proof/Machine/Images.lean ====
section
/-! DEFINITION. Saved-team images and core images: what they hold (R350 to R352, R277, R296) and their bytes, back and forth.
Sections whose bits the manual does not lay out stand as `Config.sectionByte` lays them out (log 13). -/

namespace Sys2Proof.Machine

/-! ## What an image holds -/

/-- Operations that a save records instead of waiting for: pending buffer transitions, closed batches, requests on B stages,
and the CTXSAVE itself (R250, R351, R367). -/
def recorded : OpKind → Bool
  | .bufs .. => true | .batch .. => true | .stage .. => true | .ctxsave .. => true
  | .plain | .load .. | .flags .. | .copy .. | .expand .. | .awl .. | .cbld .. | .matrix .. | .drain .. | .gload .. | .vpol ..
  | .spawn .. | .klaunch .. | .crpop .. | .bank .. => false

/-- A thread as its image holds it: after a cooperative save, the registers that a YIELD does not count read 0; flags of results
still on their way are set. -/
def savedThread (kind : ImageKind) (th : Thread) : Thread :=
  let th := { th with fflags := th.late.foldl (fun w (f : LateFlag) => w ||| f.flags) th.fflags, late := [] }
  match kind, th.saveN with
  | .yield, some n => { th with regs := th.regs.filter fun e => e.1 < n, pend := th.pend.filter fun p => p.reg < n || 256 ≤ p.reg }
  | _, _ => { th with saveN := none }

/-- A group as its image holds it: it fetches its clause again (R40), and applies its WAITZ unless it stands beyond word 0 or
its wait is kept. -/
def savedGroup (g : Group) : Group :=
  { g with
    clause := none, waitzDone := g.wix ≠ 0 || g.status = .waiting,
    status := if g.status = .yielded then .ready else g.status }

/-- The sequencer as its image holds it (R277): a wait is recorded as not issued. -/
def savedSeq (q : Seq) : Seq :=
  { q with clause := none, waitzDone := q.wix ≠ 0, seen := false, status := if q.status = .ended then .ended else .ready }

/-- Waits of the groups are recorded as not issued (R348), but for those that a checkpoint of a deterministic team keeps (R355). -/
def dropWaits (tm : Team) : Team :=
  let tm := tm.groups.foldl (fun tm e => if e.2.status = .waiting then abandonWait e.1 tm else tm) tm
  { tm with sems := tm.sems.map fun e => (e.1, { e.2 with waiters := [] }) }

/-- A team as its image holds it; `keep` keeps the waits. -/
def savedTeam (kind : ImageKind) (keep : Bool) (tm : Team) : Team :=
  let tm := if keep then { tm with sems := tm.sems.map fun e => (e.1, { e.2 with waiters := e.2.waiters.filter (· ≠ none) }) }
    else dropWaits tm
  { tm with
    groups := tm.groups.map fun e => (e.1, savedGroup e.2),
    threads := tm.threads.map fun e => (e.1, savedThread kind e.2),
    seq := tm.seq.map savedSeq, saving := none, preq := kind = .ctxsave && tm.preq, reqNext := none, reqNoted := false }

/-- The image of a team; a frozen engine's operation stays in it (R378). -/
def imageOf (s : State) (kind : ImageKind) (keep : Bool) (t : Nat) (tm : Team) : Image :=
  { kind := kind, time := timeOf s, num := t, lrec := (lrecOf s tm).addr, team := savedTeam kind keep tm,
    batches := s.batches.filter fun e => e.2.team = t, ops := s.ops.filter fun e => e.2.team = t && (recorded e.2.kind || opFrozen s e.2),
    held := s.coal.filter fun h => h.team = t && h.held }

/-! ## Bytes of the sections (R351) -/

/-- Sections begin at multiples of 64 bytes. -/
def padded (bs : List Byte) : List Byte := bs ++ List.replicate ((64 - bs.length % 64) % 64) 0

/-- n bytes of a section that the manual does not lay out. -/
def unlaid (b : Image) (k n : Nat) : List Byte := (List.range n).map (Config.sectionByte b k)

/-- The registers of a thread that an image holds. -/
def savedRegs (tm : Team) (th : Thread) : Nat := th.saveN.getD (roleBudget tm th.role)
def regBytes (tm : Team) : List Byte :=
  tm.threads.flatMap fun e => (List.range (savedRegs tm e.2)).flatMap fun r => natLe 4 (sgetD e.2.regs r 0).toNat

/-- The pending writes of a team's threads, and their 16-byte entries (R352); h0 to h7 have the numbers 248 to 255. -/
def allPend (tm : Team) : List (Nat × PendingWrite) := tm.threads.flatMap fun e => e.2.pend.map fun p => (e.1, p)
def pendWord (im : Image) (e : Nat × PendingWrite) : Nat :=
  e.1 + (if e.2.reg < 256 then e.2.reg else e.2.reg - 8) * 2 ^ 16 + (if e.2.arr then e.2.value.toNat else 0) * 2 ^ 32
    + (if e.2.arr then 6 else ((sget im.ops e.2.op).map (·.dc)).getD 6) * 2 ^ 64 + e.2.win * 2 ^ 67 + e.2.arr.toNat * 2 ^ 71
def pendBytes (im : Image) : List Byte := (allPend im.team).flatMap fun e => natLe 16 (pendWord im e)

/-- A semaphore's word (R218). -/
def semWord (m : Sem) : Nat := m.count + m.phase.toNat * 2 ^ 16 + m.unf.toNat * 2 ^ 17 + m.ovf.toNat * 2 ^ 18 + m.reload * 2 ^ 32
def semBytes (tm : Team) : List Byte := (List.range 32).flatMap fun n => natLe 8 (semWord (sgetD tm.sems n default))

/-- A bank: its status word, the number of its spill buffer, and its 4,096 entries (R280, R281, R296). -/
def bankBytes (b : Bank) : List Byte :=
  natLe 8 (bankStatus b).toNat ++ natLe 8 (b.spill.getD 0)
    ++ (List.range 4096).flatMap fun p => match sget b.ents p with
      | some e => natLe 32 (entryWord e).toNat
      | none => List.replicate 32 0

/-- The sections after the header, in order; those without a layout are laid out for the image `b`. -/
def imageSections (b im : Image) : List (List Byte) :=
  let tm := im.team
  [ unlaid b 1 256,
    unlaid b 2 (192 * (tm.home + tm.extra)),
    unlaid b 3 (8 * (tm.front.flatMap (·.threads)).length),
    unlaid b 4 (32 * tm.threads.length),
    regBytes tm,
    pendBytes im,
    semBytes tm ++ unlaid b 7 (8 * 64 + 16 * im.held.length),
    unlaid b 8 (Config.sectionLen b 8 % 2 ^ 20),
    if tm.seq.isNone then [] else unlaid b 9 (Config.sectionLen b 9 % 2 ^ 20) ++ (List.range 4).flatMap fun n => bankBytes (bankOf tm n),
    spBytes tm 0 tm.spsize ]

def kindCode : ImageKind → Nat | .yield => 0 | .forced => 1 | .ctxsave => 2
def kindFrom (n : Nat) : ImageKind := if n = 0 then .yield else if n = 1 then .forced else .ctxsave

/-- The header of an image of n bytes (R350). -/
def imageHeader (im : Image) (n : Nat) : List Byte :=
  natLe 64 (0x49584434 + 2 ^ 32 + kindCode im.kind * 2 ^ 36 + (n + 4095) / 4096 * 2 ^ 44 + im.team.ctx % 2 ^ 16 * 2 ^ 64
    + im.team.tidx % 2 ^ 48 * 2 ^ 80 + im.lrec % 2 ^ 64 * 2 ^ 128 + im.time % 2 ^ 64 * 2 ^ 192)

/-- The sections in their places. -/
def imageBody (b im : Image) : List Byte := (imageSections b im).flatMap padded

/-- The bytes of an image. -/
def imageBytes (b im : Image) : List Byte :=
  let body := imageBody b im
  imageHeader im (64 + body.length) ++ body

/-! ## Reading an image back (R349) -/

/-- n bytes of a list from an offset. -/
def sliceOf (bs : List Byte) (o n : Nat) : List Byte := (bs.drop o).take n

/-- Where section k of an image starts. -/
def sectionAt (b : Image) (k : Nat) : Nat := 64 + (((imageSections b b).take (k - 1)).flatMap padded).length

/-- Registers 0 to n - 1 from their bytes. -/
def regsFrom (n : Nat) (bs : List Byte) : Store Word :=
  (List.range n).filterMap fun r =>
    let v : Word := BitVec.ofNat 32 (leNat (sliceOf bs (4 * r) 4))
    if v = 0 then none else some (r, v)

/-- Threads with their registers from the bytes of the section. -/
def threadsFrom (tm : Team) : List (Nat × Thread) → List Byte → List (Nat × Thread)
  | [], _ => []
  | e :: t, bs =>
    let n := savedRegs tm e.2
    (e.1, { e.2 with regs := regsFrom n bs }) :: threadsFrom tm t (bs.drop (4 * n))

/-- A pending write from its entry. -/
def pendFrom (p : PendingWrite) (w : Nat) : Nat × PendingWrite :=
  let r := nbits w 16 8
  (nbits w 0 16, { p with win := nbits w 67 4, arr := nbit w 71, value := BitVec.ofNat 32 (nbits w 32 32),
                          reg := if p.hnd && 248 ≤ r then r + 8 else r })

/-- A semaphore from its word. -/
def semFrom (m : Sem) (w : Nat) : Sem :=
  { m with count := nbits w 0 16, phase := nbit w 16, unf := nbit w 17, ovf := nbit w 18, reload := nbits w 32 16 }

/-- A bank from its bytes. -/
def bankAt (bs : List Byte) (b : Bank) : Bank :=
  let w := leNat (sliceOf bs 0 8)
  { bankFrom w (leNat (sliceOf bs 8 8)) b with
    ents := (List.range 4096).filterMap fun p =>
      (entryFrom (BitVec.ofNat 256 (leNat (sliceOf bs (16 + 32 * p) 32)))).map fun e => (p, e) }

/-- The image that bytes give beside the parts of `b` that have no layout. -/
def imageFrom (b : Image) (bs : List Byte) : Image :=
  let tm := b.team
  let at_ := fun k => bs.drop (sectionAt b k)
  let pend := (allPend tm).zipIdx.map fun e => pendFrom e.1.2 (leNat (sliceOf (at_ 6) (16 * e.2) 16))
  let threads := (threadsFrom tm tm.threads (at_ 5)).map fun e =>
    (e.1, { e.2 with pend := (pend.filter fun p => p.1 = e.1).map Prod.snd })
  let sems := (List.range 32).filterMap fun n =>
    let m := semFrom (sgetD tm.sems n default) (leNat (sliceOf (at_ 7) (8 * n) 8))
    if m = default then none else some (n, m)
  let banks := if tm.seq.isNone then tm.banks
    else (List.range 4).map fun n => (n, bankAt ((at_ 9).drop (Config.sectionLen b 9 % 2 ^ 20 + n * (16 + 32 * 4096))) (bankOf tm n))
  { b with
    kind := kindFrom (nbits (leNat (sliceOf bs 0 64)) 36 2), time := nbits (leNat (sliceOf bs 0 64)) 192 64,
    team := { tm with threads := threads, sems := sems, banks := banks, scratch := spSets [] 0 (sliceOf (at_ 10) 0 tm.spsize) } }

/-- The image in a save-pool slot; none where it fails its checks: a reserved bit that is not 0, a malformed field, or bytes of a
section without a layout that are not those the save wrote. -/
def imageAt (s : State) (a : Nat) (b : Image) : Option Image :=
  let bs := memBytes s.mem a (imageBytes b b).length
  let im := imageFrom b bs
  if imageBytes b im = bs then some im else none

/-! ## Core images (R358) -/

/-- A note record named "IXD4". -/
def elfNote (type : Nat) (desc : List Byte) : List Byte :=
  natLe 4 5 ++ natLe 4 desc.length ++ natLe 4 type ++ [0x49, 0x58, 0x44, 0x34, 0, 0, 0, 0]
    ++ desc ++ List.replicate ((4 - desc.length % 4) % 4) 0

/-- The segment map's entry of a team. -/
def segmentEntry (core grid : Nat) (tm : Team) : List Byte :=
  natLe 32 (tm.tidx % 2 ^ 64 * 2 ^ 192 + grid % 2 ^ 32 * 2 ^ 160 + tm.ctx % 2 ^ 16 * 2 ^ 144 + core * 2 ^ 128 + tm.spsize * 2 ^ 96)

/-- The notes of a core image's teams, each with its core and `%grid`. -/
def coreNotes (l : List (Nat × Nat × Image)) : List Byte :=
  let part := fun (ks : List Nat) (im : Image) => ks.flatMap fun k => padded ((imageSections im im).getD (k - 1) [])
  let note := fun t (f : Image → List Byte) => elfNote t (l.flatMap fun e => f e.2.2)
  note 1 (fun im => imageHeader im (64 + (imageBody im im).length) ++ part [1] im) ++ note 2 (part [2]) ++ note 3 (part [4, 5])
    ++ note 4 (part [3]) ++ note 5 (part [6]) ++ note 6 (part [7, 8]) ++ note 7 (part [9])
    ++ elfNote 8 (l.flatMap fun e => segmentEntry e.1 e.2.1 e.2.2.team)

/-- A program header of an ELF64 file. -/
def elfSegment (type flags off va size : Nat) : List Byte :=
  natLe 4 type ++ natLe 4 flags ++ natLe 8 off ++ natLe 8 va ++ natLe 8 0 ++ natLe 8 size ++ natLe 8 size ++ natLe 8 1

/-- The PT_LOAD headers of some teams from segment n on, their bytes from an offset of the file on. -/
def elfLoads (n off : Nat) : List (Nat × Nat × Image) → List Byte
  | [] => []
  | e :: t => elfSegment 1 6 off (n * 2 ^ 20) e.2.2.team.spsize ++ elfLoads (n + 1) (off + e.2.2.team.spsize) t

/-- The bytes of a core image: an ELF64 little-endian core file for machine 0x5043 (log 14). -/
def coreBytes (l : List (Nat × Nat × Image)) : List Byte :=
  let notes := coreNotes l
  let start := 64 + 56 * (l.length + 1)
  [0x7F, 0x45, 0x4C, 0x46, 2, 1, 1] ++ List.replicate 9 0 ++ natLe 2 4 ++ natLe 2 0x5043 ++ natLe 4 1 ++ natLe 8 0 ++ natLe 8 64
    ++ natLe 8 0 ++ natLe 4 0 ++ natLe 2 64 ++ natLe 2 56 ++ natLe 2 (l.length + 1) ++ natLe 2 0 ++ natLe 2 0 ++ natLe 2 0
    ++ elfSegment 4 4 start 0 notes.length ++ elfLoads 0 (start + notes.length) l ++ notes
    ++ l.flatMap fun e => spBytes e.2.2.team 0 e.2.2.team.spsize

end Sys2Proof.Machine
end

