-- ==== Sys2Proof/Machine/Saves.lean ====
section
/-! DEFINITION. Saving and restoring teams: safe points (R347), quiescing and records (R348, R349), the ends of stops (R343, R368), and where a
team fits on a core (R24, R140). -/

namespace Sys2Proof.Machine

/-! ## Safe points (R347) -/

/-- The waits of R347. -/
def safeWait (i : Instr) : Bool :=
  match i with
  | .semw .. => true
  | .waitph .. => true
  | .bufw .. => true
  | .crwait .. => true
  | .vsync .. => true
  | .enq .. => true
  | .deq .. => true
  | _ => false

/-- A group stands at a safe point. -/
def safeGroup (g : Group) : Bool :=
  !g.handler && g.transfer.isNone
  && (match g.status with
      | .yielded => true
      | .waiting => (curInstr g.clause g.wix).any safeWait
      | .ready => false)

/-- The clause at an address has YP = 1. -/
def safeClause (s : State) (tm : Team) (a : Nat) : Bool :=
  match codeRead s tm.ctx tm.core tm.staged a with
  | .error _ => false
  | .ok (h, _) => hdrOk h && hdrYp h

/-- A team is at a safe point; a deterministic one is saved only where a group has yielded (R355). -/
def safeTeam (s : State) (tm : Team) : Bool :=
  tm.groups.all (fun e => safeGroup e.2)
  && tm.front.all (fun e => e.held || e.threads = [] || safeClause s tm e.addr)
  && (!(lrecOf s tm).determ || tm.groups.any fun e => e.2.status = .yielded)

/-! ## Quiescing (R348) -/

/-- Every issued operation and transfer of a team has come to its end. -/
def quiesced (s : State) (t : Nat) (tm : Team) : Bool :=
  tm.groups.all (fun e => e.2.transfer.isNone) && s.ops.all fun e => e.2.team ≠ t || recorded e.2.kind || opFrozen s e.2

/-- Nothing has stopped a team for good. -/
def teamLives (s : State) (tm : Team) : Bool :=
  !tm.frozen && (match sget s.contexts tm.ctx with | some c => !c.stopped | none => false)
  && (match sget s.grids tm.grid with | some g => !g.halted | none => false)
  && !(getDie s (coreDie tm.core)).fenced

/-- A save of a team may go on: nothing has stopped it for good, or it is a checkpoint's, which takes frozen and stopped teams too,
once their core images are written (R381). -/
def saveable (s : State) (tm : Team) : Bool :=
  let g := sgetD s.grids tm.grid default
  teamLives s tm || ((sgetD s.parts g.part default).paused && g.halting.isNone && !(getDie s (coreDie tm.core)).fenced
    && (sget s.contexts tm.ctx).all (·.fault.isNone))

/-- The resident teams of a cluster. -/
def residents (s : State) (ts : List Nat) : List (Nat × Team) := ts.filterMap fun t => (sget s.teams t).map fun tm => (t, tm)

/-- A save of a team and its cluster begins. -/
def startSave (kind : ImageKind) (s : State) (t : Nat) : State :=
  match sget s.teams t with
  | none => s
  | some tm => tm.mates.foldl (stopFor kind) s

/-! ## Leaving a core -/

/-- The stores of a team that its core may still drain are performed. -/
def drainTeam (s : State) (t : Nat) : State := drainWhere s fun h => h.team = t

/-- A team leaves its core with all that belongs to it. -/
def dropTeam (s : State) (t : Nat) (tm : Team) : State :=
  let s := modCtx s tm.ctx fun c => { c with eq := c.eq.filter (· ≠ t) }
  let s := tm.groups.foldl (fun s e => forgetExit s tm e.1) s
  { s with
    coal := s.coal.filter (fun h => h.team ≠ t), teams := serase s.teams t, batches := s.batches.filter (fun e => e.2.team ≠ t),
    ops := s.ops.filter fun e => e.2.team ≠ t }

/-- The first slot of a run of free slots of a partition's save pool. -/
def poolRun (p : Partition) (n : Nat) : Option Nat :=
  p.savePool.find? fun a => (List.range n).all fun i => p.savePool.contains (a + i * 2 ^ 22) && !p.usedSlots.contains (a + i * 2 ^ 22)

/-- Writes a team's image and takes the team off its core. A forced save of a deterministic team is a checkpoint's (R355). -/
def saveOne (kind : ImageKind) (slot : Nat) (s : State) (e : Nat × Team) : State :=
  let a := slot + e.2.member * 2 ^ 22
  let s := drainTeam s e.1
  match sget s.teams e.1 with
  | none => s
  | some tm =>
    let im := imageOf s kind (kind = .forced && (lrecOf s tm).determ) e.1 tm
    dropTeam { s with mem := memSets s.mem a (imageBytes im im), images := sset s.images a im } e.1 tm

/-- Slots that a team's save takes: one for every member of its cluster. -/
def slotsOf (s : State) (tm : Team) : Nat := if tm.task then 1 else max 1 (lrecOf s tm).tcl

/-- Goes on with the save of a team and its cluster, once quiesced and while the pool and the ready queue have room (R328,
R348, log 100). -/
def saveStep (s : State) (t : Nat) : State :=
  match sget s.teams t with
  | none => s
  | some tm =>
    let ms := residents s tm.mates
    let go := fun kind =>
      if !(ms.all fun e => quiesced s e.1 e.2 && saveable s e.2) then s
      else
        let g := sgetD s.grids tm.grid default
        let n := slotsOf s tm
        let r := fun a =>
          { grid := tm.grid, kind := .saved, task := tm.task, prio := tm.prio, code := BitVec.ofNat 64 (a + 1), frame := tm.karg,
            tidx := tm.tidx - tm.member, join := 0, time := timeOf s, seqno := s.nextRec, slot := none, spill := none }
        match poolRun (sgetD s.parts g.part default) n with
        | none => s
        | some a => if !readyFits (sgetD s.parts g.part default) (r a) then s else
          let s := modPart s g.part fun p => { p with usedSlots := p.usedSlots ++ (List.range n).map fun i => a + i * 2 ^ 22 }
          let s := ms.foldl (saveOne kind a) s
          pushReady s g.part (r a)
    match tm.saving with
    | some .yield => go .yield
    | some .forced => go .forced
    | some .ctxsave => s
    | none => s

/-! ## The ends of stops (R343, R368) -/

/-- Every team of a stop has quiesced. -/
def stopQuiet (s : State) (l : List (Nat × Team)) : Bool := l.all fun e => quiesced s e.1 e.2

/-- The core image of some teams of a context goes into its area, if one is registered and the image lies in device memory there:
the image's address or 0 (log 14). -/
def putCoreImage (s : State) (ctx : Nat) (l : List (Nat × Team)) : State × DWord :=
  match (sget s.contexts ctx).bind (·.coreArea) with
  | none => (s, 0)
  | some a =>
    let bs := coreBytes (l.map fun e => (e.2.core, (sgetD s.grids e.2.grid default).num, imageOf s .forced false e.1 e.2))
    if physOk s (((sget s.contexts ctx).map (·.part)).getD 0) a bs.length then ({ s with mem := memSets s.mem a bs }, BitVec.ofNat 64 a)
    else (s, 0)

/-- The end of a fatal fault's stop, once the operations of the context's teams have ended: the core image, then the notice. -/
def endFault (s : State) (ctx : Nat) : State :=
  match (sget s.contexts ctx).bind (·.fault) with
  | none => s
  | some (core, hpc, cause, time) =>
    let l := s.teams.filter fun e => e.2.ctx = ctx
    if !stopQuiet s l then s
    else
      let (s, a) := putCoreImage (modCtx s ctx fun c => { c with fault := none }) ctx l
      noticeAt time s ctx 2 cause core hpc.toNat a

/-- The end of a HALT's stop. -/
def endHalt (s : State) (n : Nat) : State :=
  match sget s.grids n with
  | none => s
  | some g => match g.halting with
    | none => s
    | some (core, code, time) =>
      let l := s.teams.filter fun e => e.2.grid = n
      if !stopQuiet s l then s
      else
        let (s, a) := putCoreImage (modGrid s n fun g => { g with halting := none }) g.ctx l
        noticeAt time s g.ctx 3 0 core code a

/-- The stops whose operations have ended. -/
def endStops (s : State) : State :=
  let s := (s.contexts.map Prod.fst).foldl endFault s
  (s.grids.map Prod.fst).foldl endHalt s

/-! ## Fitting on a core (R24, R140) -/

/-- A team's shape, as its launch record declares it; a task's as R329 gives it. -/
def shapeOf (lr : LaunchRec) (task : Bool) : Team :=
  { (default : Team) with
    task := task, nthr := if task then 32 else lr.threads, home := if task then 1 else homesOf lr, extra := lr.xslots,
    mgroups := if task then 0 else mgroupsOf lr, cgroups := if task then 0 else lr.copyg, budM := lr.budM, budC := lr.budC,
    budV := lr.budV }

def teamsOn (s : State) (core : Nat) : List (Nat × Team) := s.teams.filter fun e => e.2.core = core

/-- The physical slots that the teams of a core own, as partition and slot. -/
def slotsUsed (s : State) (core : Nat) : List (Nat × Nat) := (teamsOn s core).flatMap fun e => e.2.slotPart.zip e.2.slotPhys

/-- The lowest free physical slot of a partition (log 78), or of the lowest partition that has one. -/
def lowPhys (used : List (Nat × Nat)) (p : Nat) : Option (Nat × Nat) :=
  ((List.range 16).find? fun i => !used.contains (p, i)).map fun i => (p, i)
def takePhys (used : List (Nat × Nat)) (p : Nat) : Option (Nat × Nat) :=
  match lowPhys used p with
  | some x => some x
  | none => (List.range 4).findSome? (lowPhys used)

/-- Slots for n more team slots from slot k on: home slots in their own partition, then extra slots. -/
def assignSlots (home : Nat) : Nat → Nat → List (Nat × Nat) → Option (List (Nat × Nat))
  | 0, _, _ => some []
  | n + 1, k, used =>
    match (if k < home then lowPhys used (k % 4) else takePhys used (k % 4)) with
    | none => none
    | some x => (assignSlots home n (k + 1) (x :: used)).map fun l => x :: l

def regsUsed (s : State) (core part : Nat) : Nat :=
  (teamsOn s core).foldl (fun n e => n + regsNeed e.2.home e.2.mgroups e.2.cgroups e.2.budM e.2.budC e.2.budV part) 0

/-- Unallocated scratchpad of a core, in bytes. -/
def freeScratch (s : State) (core : Nat) : Nat :=
  1536 * 1024 - (getCore s core).l1 * 1024 - (teamsOn s core).foldl (fun n e => n + e.2.spsize) 0

/-- What a core offers besides scratchpad for a shape, with or without a sequencer: its slots. -/
def coreSlots (s : State) (core : Nat) (sh : Team) (seq : Bool) : Option (List (Nat × Nat)) :=
  if 2048 < (teamsOn s core).foldl (fun n e => n + e.2.nthr) sh.nthr then none
  else if (List.range 4).any fun p => 16384 < regsUsed s core p + regsNeed sh.home sh.mgroups sh.cgroups sh.budM sh.budC sh.budV p then none
  else if seq && (teamsOn s core).any fun e => e.2.seq.isSome then none
  else assignSlots sh.home (sh.home + sh.extra) 0 (slotsUsed s core)

/-- The core can place the shape with so much scratchpad. -/
def coreFits (s : State) (sh : Team) (seq : Bool) (sp core : Nat) : Bool :=
  (coreSlots s core sh seq).isSome && sp ≤ freeScratch s core

/-! ## Placement and restore -/

/-- Register bases of a team's threads, which no program observes: free (R88). -/
def baseOf (s : State) (t tid : Nat) : Nat := Config.freeNat s.freeCtr (2 ^ 33 + 2048 * t + tid) % 512

/-- A team's home groups and threads at placement (R23, R39). -/
def newThread (s : State) (t : Nat) (sh : Team) (tid : Nat) : Thread :=
  { (default : Thread) with role := homeRole sh.mgroups sh.cgroups (tid / 32), live := true, regBase := baseOf s t tid }

def homeMembers (n h : Nat) : Store Nat := (List.range 32).filterMap fun l => if 32 * h + l < n then some (l, 32 * h + l) else none

/-- A new team of a record on a core: its number, member and mates with their scratchpad sizes, and its slots. -/
def newTeam (s : State) (r : ContRec) (g : Grid) (t core member : Nat) (mates sps : List Nat) (slots : List (Nat × Nat)) : Team :=
  let lr := g.lrec
  let task := r.kind = .task
  let sh := shapeOf lr task
  { sh with
    grid := r.grid, ctx := g.ctx, core := core, prio := r.prio, tidx := r.tidx + member, karg := r.frame, code := r.code.toNat,
    staged := if task then [] else g.code,
    slotPart := slots.map Prod.fst, slotPhys := slots.map Prod.snd, freeAt := List.replicate slots.length s.cycle,
    groups := (List.range sh.home).map fun h => (h, newGroup (homeMembers sh.nthr h) r.code.toNat s.cycle),
    threads := (List.range sh.nthr).map fun i => (i, newThread s t sh i),
    placedAt := s.cycle, spsize := sps.getD member 0,
    sems := (List.range 32).filterMap fun n =>
      let c := lr.sems.getD n 0
      if c = 0 then none else some (n, { (default : Sem) with reload := c, count := c }),
    bufs := lr.bufs.foldl (fun m b => sset m b.1 { (default : Buf) with off := b.2.1, size := b.2.2, state := .empty }) [],
    seq := if lr.stream = 0 || task then none else some { (default : Seq) with pc := lr.stream },
    htvec := if lr.htvec ≠ 0 then BitVec.ofNat 64 lr.htvec
      else ((sget s.contexts g.ctx).map (·.htvec)).getD 0,
    pdeadline := 20000, rot := [0, 0, 0, 0], member := member, mates := mates, mateSp := sps }

/-- Scratchpad granted: the smaller of the maximum and what is free, in 64 KiB steps; a task's is the minimum (R24, R329). -/
def grantOf (s : State) (core : Nat) (lr : LaunchRec) (task : Bool) : Nat :=
  if task then lr.smin else min lr.smax (freeScratch s core / 65536 * 65536)

/-- A restored team on a core: new slots and register bases, full tags (R349). -/
def restoredTeam (s : State) (im : Image) (core : Nat) (slots : List (Nat × Nat)) : Team :=
  let tm := im.team
  { tm with
    core := core, slotPart := slots.map Prod.fst, slotPhys := slots.map Prod.snd, freeAt := List.replicate slots.length s.cycle,
    threads := tm.threads.map fun e => (e.1, { e.2 with tags := [], saveN := none, regBase := baseOf s im.num e.1 }),
    placedAt := s.cycle }

/-- L1 lines of a core's slice that a grant of scratchpad takes: which lines lie there is free, and no data is lost (R24, R174). -/
def dropSlice (s : State) (core : Nat) : State :=
  { s with l1 := s.l1.filter fun e => !(e.1 % 256 = core && Config.freeBit s.freeCtr (2 ^ 47 + e.1)) }

/-- Puts a restored team and what its image holds beside it back: its held stores are issued again (R212), and it reads nothing
older on its new core than it has read before (R201). -/
def putRestored (s : State) (im : Image) (tm : Team) : State :=
  let s := { s with
    teams := sset s.teams im.num tm,
    batches := im.batches.foldl (fun m (e : Nat × Batch) => sset m e.1 { e.2 with core := tm.core }) s.batches,
    ops := im.ops.foldl (fun m (e : Nat × Op) => sset m e.1 e.2) s.ops }
  let s := { s with coal := s.coal ++ im.held.map fun h => retranslate s { h with core := tm.core } }
  dropSlice (pathDrop (genBump s (coreDie tm.core)) tm.core [1, 2, 3, 4, 5]) tm.core

end Sys2Proof.Machine
end

