-- ==== Sys2Proof/Machine/Teams.lean ====
section
/-! DEFINITION. Teams on cores: placement and restore (R24, R25, R329, R349), saves (R346 to R348), issue selection and turns
(R152, R153, R399), completion of teams and grids (R160, R322). -/

namespace Sys2Proof.Machine

/-! ## TEAM_PLACE -/

/-- The partition that owns a cluster. -/
def partOfCluster (s : State) (c : Nat) : Option (Nat × Partition) := s.parts.find? fun e => e.2.clusters.contains c

/-- Records of stopped contexts and halted grids are never placed (R343, R368). -/
def recLive (s : State) (r : ContRec) : Bool :=
  match sget s.grids r.grid with
  | none => false
  | some g => !g.halted && (match sget s.contexts g.ctx with | some c => !c.stopped | none => false)

def headRec (s : State) (p : Partition) : Option ContRec := p.ready.find? (recLive s)

/-- A record is popped; its spill slot, if it holds one, takes its next generation (R334), and the records behind it move up
(R328). -/
def popRec (s : State) (part : Nat) (r : ContRec) : State :=
  refill (modPart s part fun p =>
    { p with
      ready := p.ready.filter fun q => q.seqno ≠ r.seqno,
      slotGens := match r.slot with
        | some a => sset p.slotGens a (sgetD p.slotGens a 0 + 1)
        | none => p.slotGens }) part

/-- The ways to give members i, i + 1, … of a record different cores that fit them. -/
def placings (fits : Nat → Nat → Bool) : Nat → Nat → List Nat → List (List Nat)
  | 0, _, _ => [[]]
  | n + 1, i, cores => (cores.filter (fits i)).flatMap fun c => (placings fits n (i + 1) (cores.filter (· ≠ c))).map (c :: ·)

/-- The cores that take the n teams of a record: the popping core, or cores of its cluster, freely chosen. -/
def placeCores (s : State) (core n : Nat) (fits : Nat → Nat → Bool) : Option (List Nat) :=
  if n = 1 then (if fits 0 core then some [core] else none)
  else
    let ways := placings fits n 0 ((List.range 4).map fun i => core / 4 * 4 + i)
    ways[Config.freeNat s.freeCtr (2 ^ 34) % max 1 ways.length]?

/-- A new team of a record on a core that offers it slots. -/
def placeOne (r : ContRec) (g : Grid) (sh : Team) (seq : Bool) (mates sps : List Nat) (s : State) (e : Nat × Nat) : State :=
  match coreSlots s e.1 sh seq with
  | none => s
  | some sl =>
    let t := mates.getD e.2 0
    dropSlice { s with teams := sset s.teams t (newTeam s r g t e.1 e.2 mates sps sl) } e.1

/-- A new team or team cluster of a record takes its cores (R23, R24); a task's start is an acquire at `.dev` (R334). -/
def placeNew (s : State) (part core : Nat) (r : ContRec) (g : Grid) : State :=
  let lr := g.lrec
  let task := r.kind = .task
  let sh := shapeOf lr task
  let seq := lr.stream ≠ 0 && !task
  match placeCores s core (if task then 1 else max 1 lr.tcl) (fun _ => coreFits s sh seq lr.smin) with
  | none => s
  | some cs =>
    let mates := (List.range cs.length).map fun i => s.nextTeam + i
    let sps := cs.map fun c => grantOf s c lr task
    let s := cs.zipIdx.foldl (placeOne r g sh seq mates sps) (popRec s part r)
    let s := { s with nextTeam := s.nextTeam + cs.length }
    if task then acquireAt s core .dev else modGrid s r.grid fun g => { g with code := [] }

/-- The images of a saved record's members that are present, as they were saved, by their slots. -/
def recImages (s : State) (n : Nat) (r : ContRec) : List (Nat × Image) :=
  ((List.range n).map fun i => r.code.toNat - 1 + i * 2 ^ 22).filterMap fun a => (sget s.images a).map fun im => (a, im)

/-- A saved team returns to a core that offers it slots. -/
def restoreOne (s : State) (e : (Nat × Image) × Nat) : State :=
  match coreSlots s e.2 e.1.2.team e.1.2.team.seq.isSome with
  | none => s
  | some sl => putRestored { s with images := serase s.images e.1.1 } e.1.2 (restoredTeam s e.1.2 e.2 sl)

/-- A saved record is restored from its images in memory; one that fails its checks is a fatal fault (R343, R349). -/
def placeSaved (s : State) (part core : Nat) (r : ContRec) (g : Grid) : State :=
  let n := if r.task then 1 else max 1 g.lrec.tcl
  let saved := recImages s n r
  let shape := fun i => (saved.getD i default).2.team
  if saved = [] then fatalFault s g.ctx core 0 0
  else match placeCores s core saved.length (fun i => coreFits s (shape i) (shape i).seq.isSome (shape i).spsize) with
    | none => s
    | some cs => match saved.mapM fun e => (imageAt s e.1 e.2).map fun im => (e.1, im) with
      | none => fatalFault s g.ctx core 0 0
      | some ims =>
        let s := (ims.zip cs).foldl restoreOne (popRec s part r)
        let gone := (List.range n).map fun i => r.code.toNat - 1 + i * 2 ^ 22
        modPart s part fun p => { p with usedSlots := p.usedSlots.filter fun a => !gone.contains a }

/-- A record that breaks the rules of R327 in memory is a fatal fault of its context (R3, log 85). -/
def placeRec (s : State) (part core : Nat) (r : ContRec) : State :=
  match sget s.grids r.grid with
  | none => s
  | some g => match recNow s part r with
    | none => fatalFault s g.ctx core 0 0
    | some r => if r.kind = .saved then placeSaved s part core r g else placeNew s part core r g

/-- TEAM_PLACE: a core pops the head record of its partition when it can place it. -/
def execTeamPlace (core : Nat) (s : State) : Out :=
  .next (match partOfCluster s (coreCluster core) with
    | none => s
    | some (part, p) =>
      if p.paused || (p.moves.any fun m => m.1 = coreCluster core) || (getDie s (coreDie core)).fenced then s
      else match headRec s p with
        | none => s
        | some r => placeRec s part core r)

/-! ## Requests and saves (R346 to R348, R355) -/

/-- REQ as it takes effect for a team: withdrawn, yielded groups go on (R347). -/
def setReq (b : Bool) (tm : Team) : Team := if b then { tm with preq := true } else { unyield tm with preq := false }

/-- A request, with a deadline in DL's range (R346), or its withdrawal on one team; a deterministic team takes it at its next sweep (R399). -/
def askReq (dl : Option Nat) (s : State) (t : Nat) : State :=
  match sget s.teams t with
  | none => s
  | some tm =>
    if tm.saving.isSome || dl.any (fun d => d < 1000 || 1000000 < d) then s
    else
      let det := (lrecOf s tm).determ
      modTeam s t fun tm =>
        let tm := match dl with
          | some d => { tm with pdeadline := d, reqAt := s.cycle, reqNoted := false }
          | none => tm
        if det then { tm with reqNext := some dl.isSome } else setReq dl.isSome tm

/-- PREEMPT_REQUEST: it applies to every member of a team cluster (R348). -/
def execPreemptRequest (team : Nat) (deadline : Option Nat) (s : State) : Out :=
  .next (match sget s.teams team with
    | none => s
    | some tm => tm.mates.foldl (askReq deadline) s)

/-- Every member of a team's cluster is at a safe point. -/
def clusterSafe (s : State) (tm : Team) : Bool := (residents s tm.mates).all fun e => safeTeam s e.2

/-- COOPERATIVE_SAVE. -/
def execCooperativeSave (team : Nat) (s : State) : Out :=
  .next (match sget s.teams team with
    | none => s
    | some tm =>
      if tm.saving = some .yield then saveStep s team
      else if tm.preq && teamRuns s tm && clusterSafe s tm then saveStep (startSave .yield s team) team
      else s)

/-- PREEMPT_DEADLINE: a forced save, or a deterministic team's notice. -/
def execPreemptDeadline (team : Nat) (s : State) : Out :=
  .next (match sget s.teams team with
    | none => s
    | some tm =>
      if tm.saving = some .forced then saveStep s team
      else if !(tm.preq || tm.reqNext = some true) || s.cycle < tm.reqAt + tm.pdeadline || !teamRuns s tm then s
      else if (lrecOf s tm).determ then
        if tm.reqNoted then s
        else notice (modTeam s team fun tm => { tm with reqNoted := true }) tm.ctx 4 0 tm.core tm.tidx 0
      else if clusterSafe s tm then s
      else saveStep (startSave .forced s team) team)

/-- SAVE_POOL_WAIT_END. -/
def execSavePoolWaitEnd (team : Nat) (s : State) : Out := .next (saveStep s team)

/-! ## Turns of a deterministic team (R153, R399) -/

/-- The partition with the next turn; a change of REQ takes effect as a sweep starts. -/
def endTurn (tm : Team) : Team :=
  let n := (tm.turn + 1) % 4
  let tm := { tm with turn := n }
  match tm.reqNext with
  | some b => if n = 0 then { setReq b tm with reqNext := none } else tm
  | none => tm

/-- A group stands in the middle of a LANE clause (R32). -/
def midLane (g : Group) : Bool := g.wix ≠ 0 && (g.clause.any fun q => q.cls = .lane)

/-- The turn of team slot k ends. In the middle of a LANE clause the partition's rotation stays at the slot (R32, log 21). -/
def endSlotTurn (k : Nat) (tm : Team) : Team :=
  let stay := ((sget tm.groups k).map midLane).getD false
  endTurn { tm with rot := tm.rot.set (slotPartOf tm k) (if stay then k else k + 1) }

/-- The team's group at a partition's rotation position. -/
def rotSlot (tm : Team) (part : Nat) : Option Nat :=
  let ks := (tm.groups.map Prod.fst).filter fun k => slotPartOf tm k = part
  match ks.find? fun k => tm.rot.getD part 0 ≤ k with
  | some k => some k
  | none => ks.head?

/-- A group still waits at its word. -/
def stillWaits (s : State) (t k : Nat) : Bool :=
  ((sget s.teams t).bind fun tm => sget tm.groups k).any fun g => g.status = .waiting

/-- The physical slot that a partition's rotation has passed last. -/
def rotAt (s : State) (core part n : Nat) : State :=
  modCore s core fun c => { c with sel := sset c.sel part { sgetD c.sel part default with last := n } }

/-- The turn of a deterministic team's group ends, and the rotation of its partition passes its slot. -/
def passTurn (s : State) (t k : Nat) (tm : Team) : State :=
  modTeam (rotAt s tm.core (slotPartOf tm k) (tm.slotPhys.getD k 0)) t (endSlotTurn k)

/-- A deterministic team's turn at slot k: the group issues a word, tests its wait, or has yielded and passes. -/
def takeTurn (s : State) (t k : Nat) (tm : Team) : State :=
  let i : Issuer := .group t k
  match (sgetD tm.groups k default).status with
  | .yielded => passTurn s t k tm
  | .waiting =>
    let s' := retryWait i s
    if stallWait s i && stillWaits s' t k then s' else passTurn s' t k tm
  | .ready => match siteOf s t k ⟨false, 7⟩ with
    | none => s
    | some x => if canIssue s x then { s with issuer := some i } else s

/-- Whether a group's word issued: the group stands elsewhere than before. -/
def moved (s s' : State) (t k : Nat) : Bool :=
  let at_ := fun (s : State) => ((sget s.teams t).bind fun tm => sget tm.groups k).map fun g =>
    (g.pc, g.wix, g.clause.isSome, g.status, g.transfer.isSome, g.handler)
  at_ s ≠ at_ s'

/-- What the issue of a group's word adds: the slot last issued, and the end of a deterministic team's turn, unless the word
stalls (R152, R399). -/
def turnEnd (s s' : State) (t k : Nat) : State :=
  match sget s.teams t with
  | none => s'
  | some tm =>
    if !moved s s' t k then s'
    else if (lrecOf s tm).determ then
      if stallWait s' (.group t k) && stillWaits s' t k then s' else passTurn s' t k tm
    else rotAt s' tm.core (slotPartOf tm k) (tm.slotPhys.getD k 0)

/-- A step of a group with what its issue adds. -/
def groupStep (s : State) (t k : Nat) : Host.Outcome State Fault Refusal → Host.Outcome State Fault Refusal
  | .next s' => .next (turnEnd s s' t k)
  | .fault f => .fault f
  | .refused r => .refused r

/-! ## ISSUE_SELECT (R152) -/

/-- The priority of a group's current clause, fetched or not. -/
def clausePrio (s : State) (tm : Team) (g : Group) : Nat :=
  match g.clause with
  | some c => c.prio
  | none => headPrio s tm g.pc

/-- A group that may be selected: its team, slot, physical slot, group, and the priority of its clause. -/
structure Cand where
  t    : Nat
  k    : Nat
  phys : Nat
  g    : Group
  prio : Nat

/-- The counter that a word at a position names; 6 for words without one. -/
def wordDc (w : DWord) : Nat :=
  let o := (w.extractLsb' 54 10).toNat
  if o = 0x22 || (0x280 ≤ o && o ≤ 0x286) then 6 else (w.extractLsb' 7 3).toNat

/-- The guard of a word (R35). -/
def wordGuard (w : DWord) : Guard := ⟨w.getLsbD 53, w.extractLsb' 50 3⟩

/-- The site of the word that a group stands at, with its own active members. -/
def wordSite (s : State) (t k : Nat) : Option Site :=
  match siteOf s t k ⟨false, 7⟩ with
  | none => none
  | some x => siteOf s t k (((wordOf x.g.clause x.g.wix).map wordGuard).getD ⟨false, 7⟩)

/-- An open window, a counter at 63 or sixteen pending batches hold a group's next word (R43, R44, R229). -/
def heldBack (s : State) (x : Site) : Bool :=
  (wordOf x.g.clause x.g.wix).any fun w =>
    stalled { guard := ⟨false, 7⟩, dc := wordDc w, held := fun s x => match curInstr x.g.clause x.g.wix with
      | some (.cpyc ..) => cpycHeld s x
      | _ => false } s x

/-- The atomics, the engine words with `.rel`, and the words of a group that access memory, views or queues. -/
def atomWord : Instr → Bool
  | .atom .. | .ared .. | .acas .. => true
  | _ => false
def relWord : Instr → Bool
  | .cpy _ _ _ _ _ _ rel | .cpyl _ _ _ _ _ _ rel | .cpyd _ _ _ _ _ _ _ rel _ | .gathn _ _ _ _ _ _ _ _ rel => rel
  | _ => false
def memWord : Instr → Bool
  | .ld .. | .st .. | .ldk .. | .ldx .. | .stx .. | .gath .. | .scat .. | .ldl .. | .stl .. | .lyld .. | .lydrop .. | .cinv .. | .pref ..
  | .twalk .. | .atom .. | .ared .. | .acas .. | .cpy .. | .cpyl .. | .cpyd .. | .cbld .. | .cpyc .. | .crwait .. | .crpop .. | .gathn ..
  | .vreg .. | .vdrop .. | .vsync .. | .vgen .. | .vpol .. | .vstat .. | .spawn .. | .spawnc .. | .done .. | .enq .. | .deq .. | .klaunch .. => true
  | _ => false

/-- The order of memory holds a group's next word: a BUFS, a deterministic team's earlier atomic, or the open engine accesses
before a `.rel` word (R204, R215, R233). -/
def orderHeld (s : State) (x : Site) : Bool :=
  (curInstr x.g.clause x.g.wix).any fun i =>
    (memWord i && bufHeld s x) || (atomWord i && x.lr.determ && atomOpen s x.tm.core) || (relWord i && pathOpen s x.t x.tids allPaths)

/-- A candidate is held for collector cycles or an operand interlock, whose length is free but bounded (R90, R91, log 7). -/
def collects (s : State) (g : Group) (key : Nat) : Bool := Config.freeBit s.freeCtr key && s.cycle < g.lastIssue + Config.holdMax

/-- The groups of a partition, of teams that are not deterministic, that are ready: collector cycles and operand interlocks are
free (log 7). -/
def candidates (s : State) (core part : Nat) : List Cand :=
  (teamsOn s core).flatMap fun e => if (lrecOf s e.2).determ then [] else e.2.groups.filterMap fun kg =>
    let phys := e.2.slotPhys.getD kg.1 0
    if slotPartOf e.2 kg.1 ≠ part || collects s kg.2 (2 ^ 34 + 16 * part + phys) then none
    else match wordSite s e.1 kg.1 with
      | none => none
      | some x => if canIssue s x && !heldBack s x && !orderHeld s x then
          some { t := e.1, k := kg.1, phys := phys, g := kg.2, prio := clausePrio s e.2 kg.2 } else none

/-- How far a physical slot lies after the one that the rotation has passed last. -/
def rotFar (last phys : Nat) : Nat := (phys + 16 - (last + 1) % 16) % 16

/-- The better of two candidates: furthest last issue, or priority and then the round after the slot that last issued; in
rotation the round alone. -/
def candPick (oldest rotate : Bool) (last : Nat) (a b : Cand) : Cand :=
  if oldest then (if b.g.lastIssue < a.g.lastIssue || (b.g.lastIssue = a.g.lastIssue && b.phys < a.phys) then b else a)
  else if rotate then (if rotFar last b.phys < rotFar last a.phys then b else a)
  else if a.prio < b.prio || (a.prio = b.prio && rotFar last b.phys < rotFar last a.phys) then b else a

/-- The choice among ready groups: a group in the middle of a LANE clause goes on (R32), the first of several by team and slot
(log 79). -/
def candChoice (sel : Sel) (rotate : Bool) (c : Cand) (cs : List Cand) : Cand :=
  match (c :: cs).find? fun c => midLane c.g with
  | some m => m
  | none => cs.foldl (candPick (!rotate && cs ≠ [] && (sel.contested + 1) % 4 = 0) rotate sel.last) c

/-- The selection of a partition among ready groups, which counts as contested if there are two or more. -/
def selectOrdinary (s : State) (core part : Nat) (rotate : Bool) (c : Cand) (cs : List Cand) : State :=
  let sel := sgetD (getCore s core).sel part default
  let m := candChoice sel rotate c cs
  let s := if midLane m.g || cs = [] then s
    else modCore s core fun q => { q with sel := sset q.sel part { sel with contested := sel.contested + 1 } }
  { s with issuer := some (.group m.t m.k) }

/-- Deterministic teams of a core whose turn is at a partition. One at the safe point where it is to be saved takes no turn
more (R347, R404); a paused partition's teams stop as a sweep starts (R355). -/
def dueTeams (s : State) (core part : Nat) : List (Nat × Team) :=
  (teamsOn s core).filter fun e =>
    (lrecOf s e.2).determ && e.2.turn = part && teamRuns s e.2 && !debugStopped s core part && !(e.2.preq && clusterSafe s e.2)
      && !(part = 0 && (sgetD s.parts (sgetD s.grids e.2.grid default).part default).paused)

/-- A deterministic team of a core stands in the middle of a LANE clause on a partition. -/
def laneHeld (s : State) (core part : Nat) : Option Nat :=
  ((teamsOn s core).find? fun e => (lrecOf s e.2).determ && teamRuns s e.2
    && e.2.groups.any fun g => slotPartOf e.2 g.1 = part && midLane g.2).map Prod.fst

/-- The due teams' groups at their rotation positions: team, team slot and physical slot, nearest after the slot last passed. -/
def dueNext (s : State) (core part : Nat) (due : List (Nat × Team)) : Option (Nat × Nat × Nat) :=
  let last := (sgetD (getCore s core).sel part default).last
  (due.filterMap fun e => (rotSlot e.2 part).map fun k => (e.1, k, e.2.slotPhys.getD k 0)).foldl (fun a b => match a with
    | none => some b
    | some a => if rotFar last b.2.2 < rotFar last a.2.2 then some b else some a) none

/-- A deterministic team's turn, which the rotation has reached: until it ends, the rotation stands there (R153). -/
def holdTurn (s : State) (core part : Nat) (d : Nat × Nat × Nat) : State :=
  match sget s.teams d.1 with
  | none => s
  | some tm => takeTurn (rotAt s core part ((d.2.2 + 15) % 16)) d.1 d.2.1 tm

/-- The selection of a partition on a core where a deterministic team is resident (R153, R399): the rotation's next slot among
the ready groups of other teams and the due teams' groups. A due team without a group there passes its turn. A deterministic
team whose turn stands at another partition is passed over here, and holds no rotation (R153, R399, log 21). -/
def selectRotation (s : State) (core part : Nat) : State :=
  let lane := laneHeld s core part
  let due := (dueTeams s core part).filter fun e => lane.isNone || lane = some e.1
  match due.find? fun e => (rotSlot e.2 part).isNone with
  | some e => modTeam s e.1 endTurn
  | none => match (if lane.isSome then [] else candidates s core part), dueNext s core part due with
    | [], none => s
    | [], some d => holdTurn s core part d
    | c :: cs, none => selectOrdinary s core part true c cs
    | c :: cs, some d =>
      let sel := sgetD (getCore s core).sel part default
      let m := candChoice sel true c cs
      if midLane m.g || rotFar sel.last m.phys < rotFar sel.last d.2.2 then selectOrdinary s core part true c cs
      else holdTurn s core part d

/-- ISSUE_SELECT of partition 0 to 3 of a core, or of its sequencer (4). -/
def execIssueSelect (core slot : Nat) (s : State) : Out :=
  .next (
    if slot = 4 then
      match (teamsOn s core).find? fun e => e.2.seq.isSome with
      | none => s
      | some e => match ssiteOf s e.1 with
        | none => s
        | some x => if canIssueSeq s x then { s with issuer := some (.seq e.1) } else s
    else if (teamsOn s core).any fun e => (lrecOf s e.2).determ then selectRotation s core slot
    else match candidates s core slot with
      | [] => s
      | c :: cs => selectOrdinary s core slot false c cs)

/-! ## Completion (R160, R322, R378) -/

/-- A team whose end has come leaves its core, and its grid counts it. -/
def retireTeamEnd (s : State) (t : Nat) (tm : Team) : State :=
  let s := dropTeam (drainTeam s t) t tm
  modGrid s tm.grid fun g => if tm.task then { g with tasks := g.tasks - 1 } else { g with done := g.done + 1 }

/-- TEAM_COMPLETE: every thread has exited, every operation has ended, the stream has executed MEND. With a held store the
team is frozen. -/
def execTeamComplete (team : Nat) (s : State) : Out :=
  .next (match sget s.teams team with
    | none => s
    | some tm =>
      if !teamRuns s tm || (tm.threads.any fun e => e.2.live) || (s.ops.any fun e => e.2.team = team)
        || (tm.seq.any fun q => q.status ≠ .ended) then s
      else match s.coal.find? fun h => h.team = team && h.held with
        | some h => freezeTeam s team (BitVec.ofNat 64 h.va) 0x19
        | none => retireTeamEnd s team tm)

/-- A grid's conditions of R322. -/
def gridDone (s : State) (g : Grid) : Bool :=
  !g.halted && gridRecs g.lrec ≤ g.written && gridTeams g.lrec ≤ g.done && g.tasks = 0 && g.pool = 0
  && (match sget s.contexts g.ctx with | some c => !c.stopped | none => false)

/-- The completion operation of a launch; a counter that cannot be written leaves a notice of kind 0x06. -/
def gridCop (s : State) (g : Grid) (op : SigOp) (addr val : DWord) : State :=
  match cpSignal s g.ctx op addr val with
  | .ok s => s
  | .error c => notice s g.ctx 6 (if c = 0x100 then violationCause s else c) g.part g.lrec.addr addr

/-- GRID_COMPLETE. -/
def execGridComplete (grid : Nat) (s : State) : Out :=
  .next (match sget s.grids grid with
    | none => s
    | some g =>
      if !gridDone s g then s
      else
        let s := forkAll s g.ctx
        let s := match g.cop with
          | .none => s
          | .write a v => gridCop s g .write a v
          | .add a v => gridCop s g .add a v
        let s := { s with grids := serase s.grids grid }
        match g.queue with
        | none => s
        | some q => modQueue s q fun u => { u with grids := u.grids.filter (· ≠ grid) })

end Sys2Proof.Machine
end

