-- ==== Sys2Proof/Machine/Leaves.lean ====
section
/-! DEFINITION. The top-down tree (R359): the leaf that an issue slot of a core counts in. -/

namespace Sys2Proof.Machine

/-- What may hold a candidate beside what the state shows, whose timing is free (log 23): collector cycles, an interlock, or the
memory port. -/
def timingLeaf (s : State) (core slot : Nat) : Nat := [4, 5, 8].getD (Config.freeNat s.freeCtr (2 ^ 48 + 8 * core + slot) % 3) 5

/-- A formation for a partition may be in progress. -/
def formingFor (s : State) (core part : Nat) : Bool :=
  Config.freeBit s.freeCtr (2 ^ 48 + 8 * core + part) && (teamsOn s core).any fun e => formable e.2 ≠ []

/-- The leaf of the word that a group or the sequencer waits at: a synchronising wait, FENCE or PFENCE, or counters and flags. -/
def waitLeaf (i : Option Instr) : Nat :=
  match i with
  | some (.fence ..) => 8
  | some (.pfence ..) => 8
  | some (.waitdc ..) => 5
  | some (.tfence _) => 5
  | _ => 6

/-- The first leaf, in event-code order, that names a reason that holds a group. -/
def groupLeaf (s : State) (t k : Nat) (g : Group) : Option Nat :=
  if g.status = .yielded then some 6
  else if g.clause.isNone || g.transfer.isSome then some 3
  else match g.status with
    | .yielded => some 6
    | .waiting => some (waitLeaf (curInstr g.clause g.wix))
    | .ready =>
      let late : Bool := match wordSite s t k with
        | none => false
        | some x => heldBack s x || (g.wix = 0 && !g.waitzDone && g.clause.any fun c =>
            (memberTids g).any fun i => !waitzMet c.waitz (sgetD x.tm.threads i default).dc)
      if late then some 5 else none

/-- Every group of a partition: all of ordinary teams, and of a deterministic team the one at its rotation position. -/
def slotCands (s : State) (core part : Nat) : List Cand :=
  (teamsOn s core).flatMap fun e =>
    let ks := if (lrecOf s e.2).determ then (rotSlot e.2 part).toList else (e.2.groups.map Prod.fst).filter fun k => slotPartOf e.2 k = part
    ks.map fun k =>
      let g := sgetD e.2.groups k default
      { t := e.1, k := k, phys := e.2.slotPhys.getD k 0, g := g, prio := clausePrio s e.2 g }

/-- The leaf of a partition's slot in a cycle in which it does not issue. -/
def partLeaf (s : State) (core part : Nat) : Nat :=
  if formingFor s core part then 3
  else match slotCands s core part with
    | [] => if (teamsOn s core).isEmpty then 0x0A else 9
    | c :: cs =>
      let rotate := (teamsOn s core).any fun e => (lrecOf s e.2).determ
      let m := candChoice (sgetD (getCore s core).sel part default) rotate c cs
      (groupLeaf s m.t m.k m.g).getD (timingLeaf s core part)

/-- The sequencer stands at an MMA or SMMA that earlier work holds. -/
def seqBusy (s : State) (x : SSite) : Bool :=
  match curInstr x.q.clause x.q.wix with
  | some (.mma ..) => arraysBusy s x.t x.tm
  | some (.smma ..) => arraysBusy s x.t x.tm
  | _ => false

/-- The counter and the g registers that a word of the sequencer names. -/
def seqReqOf : Instr → SReq
  | .gmov _ gd ga => { gs := [gd.toNat, ga.toNat] }
  | .gmovi _ gd .. | .gloop _ gd _ | .acccnt _ gd _ => { gs := [gd.toNat] }
  | .gadd _ gd ga src _ | .gmul _ gd ga src => { gs := gd.toNat :: ga.toNat :: src9Regs src }
  | .gshl _ gd ga src _ => { gs := gd.toNat :: ga.toNat :: src6Regs src }
  | .gcmp _ _ ga src .. => { gs := ga.toNat :: src6Regs src }
  | .qset _ _ (.bit g _) => { gs := [g.toNat] }
  | .gld x gd ga .. | .jins x gd ga .. | .accdr x gd ga .. => { dc := x.xdc.toNat, gs := [gd.toNat, ga.toNat] }
  | .jmac x gd ga gb .. => { dc := x.xdc.toNat, gs := [gd.toNat, ga.toNat, gb.toNat] }
  | .mma x ga .. | .smma x ga .. => { dc := x.xdc.toNat, gs := [ga.toNat] }
  | .accz x .. | .accsp x .. => { dc := x.xdc.toNat }
  | .semp h .. | .semx h .. | .bufs h .. => { dc := h.dc.toNat }
  | .arrive h d .. | .waitph h d .. => { dc := h.dc.toNat, gs := [d.toNat] }
  | _ => {}

/-- The leaf of the sequencer's slot in a cycle in which it does not issue. A stream that has ended is none (log 23). -/
def seqLeaf (s : State) (core : Nat) : Nat :=
  match ((teamsOn s core).find? fun e => e.2.seq.isSome).bind fun e => ssiteOf s e.1 with
  | none => 0x0A
  | some x => match x.q.status with
    | .ended => 0x0A
    | .energy => 7
    | .waiting => waitLeaf (curInstr x.q.clause x.q.wix)
    | .ready =>
      let late := x.q.wix = 0 && !x.q.waitzDone && x.q.clause.any fun c => !waitzMet c.waitz x.q.dc
      let held := (curInstr x.q.clause x.q.wix).any fun i => stalledSeq (seqReqOf i) s x
      if x.q.clause.isNone then 3 else if late || held || seqBusy s x then 5 else timingLeaf s core 4

/-- The leaf of issue slot 0 to 4 of a core in a cycle in which it does not issue. -/
def slotLeaf (s : State) (core slot : Nat) : Nat := if slot = 4 then seqLeaf s core else partLeaf s core slot

end Sys2Proof.Machine
end

