-- ==== Sys2Proof/Machine/Manage.lean ====
section
/-! DEFINITION. Requests to the management controller: contexts, queues, partitions, cluster moves, translation
invalidation, save pools, channels, fabric ids (R169, R316, R317, R330, R331, R348, R370, R376, R377), debugging (R356,
R357) and checkpoints (R381). -/

namespace Sys2Proof.Machine

/-! ## Contexts and queues -/

/-- The rules of a context descriptor (R316); the level-0 table lies in device memory (R17). -/
def contextOk (s : State) (part : Nat) (d : Nat) : Bool :=
  let id := nbits d 192 16
  !s.bringUp && (sget s.parts part).isSome && nbits d 213 299 = 0 && 4 ≤ nbits d 208 5 && nbits d 208 5 ≤ 16 && id ≠ 0
  && (sget s.contexts id).isNone && nbits d 128 64 % 32 = 0 && nbits d 64 64 % 8 = 0 && nbits d 0 64 % 65536 = 0
  && physOk s part (nbits d 0 64) 65536

/-- CONTEXT_REGISTER: REFILL and CAP are the partition's ceilings, BUDGET starts at CAP (R268). -/
def execContextRegister (part : Nat) (debug : Bool) (desc : BitVec 512) (s : State) : Out :=
  let d := desc.toNat
  let p := sgetD s.parts part default
  let c : Context := { (default : Context) with
    part := part, ptroot := nbits d 0 64, htvec := BitVec.ofNat 64 (nbits d 64 64), tqbase := nbits d 128 64, tqlogn := nbits d 208 5,
    budget := p.pcap, refill := p.prefill, cap := p.pcap, refills := timeOf s / 1000, debug := debug }
  .next (if !contextOk s part d then s else { s with contexts := sset s.contexts (nbits d 192 16) c })

/-- The rules of a queue descriptor (R317): its words, and the page of BASE. -/
def queueOk (s : State) (ctx : Nat) (d : Nat) : Bool :=
  nbits d 168 344 = 0 && nbits d 77 3 = 0 && nbits d 67 4 = 0 && nbits d 80 16 = ctx && 4 ≤ nbits d 72 5 && nbits d 72 5 ≤ 16
  && nbits d 0 64 % 64 = 0 && nbits d 0 64 < 2 ^ 52 && (sget s.parts (nbits d 64 3)).isSome
  && (match translate s ctx (nbits d 0 64) with | .ok l => l.ord ≠ 2 | .error _ => false)

/-- QUEUE_REGISTER. -/
def execQueueRegister (q ctx : Nat) (va : DWord) (s : State) : Out :=
  .next (if s.bringUp || (sget s.queues q).isSome || va.toNat % 64 ≠ 0 then s
    else match cpPlaces s ctx false va.toNat 64 with
      | .error _ => s
      | .ok ps =>
        let desc := placeAt ps va.toNat
        let d := memNat s.mem desc.pa 64
        let u : Queue := { (default : Queue) with
          ctx := ctx, part := nbits d 64 3, priv := nbit d 71, desc := va.toNat, base := nbits d 0 64, logn := nbits d 72 5 }
        if !queueOk s ctx d then s else { s with queues := sset s.queues q u })

/-! ## Partitions (R330, R331) -/

/-- A context takes its partition's ceilings (R268). -/
def ctxCeil (prefill pcap : Nat) (c : Context) : Context :=
  let cap := if c.ebset then min c.cap pcap else pcap
  { c with refill := if c.ebset then min c.refill prefill else prefill, cap := cap, budget := min c.budget cap }

/-- A partition's ceilings change, with those of its contexts. -/
def setCeilings (s : State) (part prefill pcap : Nat) : State :=
  let s := modPart s part fun p => { p with prefill := prefill, pcap := pcap }
  { s with contexts := s.contexts.map fun e => if e.2.part = part then (e.1, ctxCeil prefill pcap e.2) else e }

/-- The firmware's defaults are rescaled at every resize. -/
def rescale (s : State) (part : Nat) : State :=
  match sget s.parts part with
  | none => s
  | some p =>
    let n := p.clusters.length
    setCeilings s part (if p.dPrefill then Config.defPrefill * n else p.prefill) (if p.dPcap then Config.defPcap * n else p.pcap)

/-- Clusters that a partition may be given: present, and in no other partition. -/
def clustersOk (s : State) (part : Nat) (cs : List Nat) : Bool :=
  cs.Nodup && cs.all fun c => c < 36 && s.identity.clmask.getLsbD c
    && !(s.parts.any fun e => e.1 ≠ part && e.2.clusters.contains c)

/-- No team is resident on a cluster, on a die. -/
def clusterEmpty (s : State) (c : Nat) : Bool := s.teams.all fun e => coreCluster e.2.core ≠ c
def dieEmpty (s : State) (d : Nat) : Bool := s.teams.all fun e => coreDie e.2.core ≠ d

/-- PARTITION_CONFIG. While clusters move from a partition, it is neither resized nor deleted, and no target of a move is deleted
(R27, R331). -/
def execPartitionConfig (r : PartReq) (s : State) : Out :=
  .next (if s.bringUp then s else match r with
    | .create part cs quota base n prefill pcap =>
      if 8 ≤ part || (sget s.parts part).isSome || cs = [] || !clustersOk s part cs || n < 2 ^ 16 || 2 ^ 24 < n || base % 64 ≠ 0
          || !physOk s part base (64 * n) then s
      else
        let p : Partition := { (default : Partition) with
          clusters := cs, quota := quota, spillBase := base, spillN := n, prefill := prefill, pcap := pcap, dPrefill := prefill = 0,
          dPcap := pcap = 0 }
        rescale { s with parts := sset s.parts part p } part
    | .resize part cs => match sget s.parts part with
      | none => s
      | some p =>
        if cs = [] || p.moves ≠ [] || !clustersOk s part cs || (p.clusters.any fun c => !cs.contains c && !clusterEmpty s c) then s
        else rescale (modPart s part fun p => { p with clusters := cs }) part
    | .delete part => match sget s.parts part with
      | none => s
      | some p =>
        if (p.clusters.any fun c => !clusterEmpty s c) || p.ready ≠ [] || p.pool ≠ [] || (s.contexts.any fun e => e.2.part = part)
          || (s.queues.any fun e => e.2.part = part) || p.moves ≠ [] || (s.parts.any fun e => e.2.moves.any fun m => m.2 = part) then s
        else { s with parts := serase s.parts part }
    | .ceilings part prefill pcap =>
      setCeilings (modPart s part fun p => { p with dPrefill := false, dPcap := false }) part prefill pcap)

/-- A cluster joins its new partition once no team is resident on it; a move whose cluster or target is gone ends. -/
def finishMove (s : State) (c src : Nat) : State :=
  match sget s.parts src with
  | none => s
  | some p => match p.moves.find? fun m => m.1 = c with
    | none => s
    | some m =>
      let drop := modPart s src fun p => { p with moves := p.moves.filter fun m => m.1 ≠ c }
      if !p.clusters.contains c || (sget s.parts m.2).isNone then drop
      else if !clusterEmpty s c then s
      else
        let s := modPart drop src fun p => { p with clusters := p.clusters.filter (· ≠ c) }
        let s := modPart s m.2 fun p => { p with clusters := p.clusters ++ [c] }
        rescale (rescale s src) m.2

/-- CLUSTER_MOVE: the request, and its end. -/
def execClusterMove (c src dst deadline : Nat) (s : State) : Out :=
  .next (match sget s.parts src with
    | none => s
    | some p =>
      if p.moves.any fun m => m.1 = c then finishMove s c src
      else if src = dst || !p.clusters.contains c || (sget s.parts dst).isNone then s
      else
        let s := modPart s src fun p => { p with moves := p.moves ++ [(c, dst)] }
        let on := (s.teams.filter fun e => coreCluster e.2.core = c).map Prod.fst
        finishMove (if deadline = 0 then s else on.foldl (askReq (some deadline)) s) c src)

/-- THERMAL_THROTTLE: firmware lowers PREFILL. -/
def execThermalThrottle (part prefill : Nat) (s : State) : Out :=
  .next (match sget s.parts part with
    | none => s
    | some p => setCeilings s part (min prefill p.prefill) p.pcap)

/-- The refills due by a moment, one for each multiple of 1,000 ns (R268). -/
def refillTo (now : Nat) (c : Context) : Context :=
  if now / 1000 ≤ c.refills then c
  else { c with budget := min (c.budget + (now / 1000 - c.refills) * c.refill) c.cap, refills := now / 1000 }

/-- BUDGET_REFILL. -/
def execBudgetRefill (ctx : Nat) (s : State) : Out := .next (modCtx s ctx (refillTo (timeOf s)))

/-! ## Translations (R169, R212) -/

/-- The places that an operation still has to access. -/
def srcPlaces : ByteSrc → List Place
  | .home p => [p] | .mix p _ _ => [p] | .sp _ => [] | .const _ => [] | .fab _ => [] | .fabMix .. => []
def dstPlaces : ByteDst → List Place | .home p => [p] | .sp _ => [] | .fab _ => []
def kindPlaces : OpKind → List Place
  | .copy _ _ elems out =>
    (elems.flatMap fun e => e.moves.flatMap fun m => dstPlaces m.dst ++ srcPlaces m.src) ++ out.flatMap fun o => dstPlaces o.1
  | .expand _ _ _ _ _ _ _ ps => ps
  | .awl _ _ a => a.list
  | .cbld _ p _ => [p]
  | .crpop p _ _ _ _ ring => p :: ring
  | .load l => l.flatMap fun e => e.srcs.filterMap fun x => match x.1 with | .mem p => some p | .sp .. => none | .fab _ => none
  | .plain | .flags .. | .batch .. | .bufs .. | .stage .. | .matrix .. | .drain .. | .gload .. | .vpol .. | .spawn .. | .klaunch ..
  | .bank .. | .ctxsave .. => []
def batchPlaces (b : Batch) : List Place := match b.close with | some c => c.desc :: c.ring | none => []

/-- A place's 64 KiB range meets a range of addresses. -/
def placeIn (base len : Nat) (p : Place) : Bool := p.va / 65536 * 65536 < base + len && base < p.va / 65536 * 65536 + 65536

/-- Operations and batches still have to access a range of addresses. -/
def rangeOwed (base len : Nat) (ops : List Op) (batches : List Batch) : Bool :=
  (ops.any fun o => (kindPlaces o.kind).any (placeIn base len)) || batches.any fun b => (batchPlaces b).any (placeIn base len)

/-- An access of the context that used an old translation of the range has not ended: a resident team's, or one that an image
keeps. -/
def oldAccess (s : State) (ctx base len : Nat) : Bool :=
  let mine := fun t => (sget s.teams t).any fun tm => tm.ctx = ctx
  rangeOwed base len ((s.ops.map Prod.snd).filter fun o => mine o.team) ((s.batches.map Prod.snd).filter fun b => mine b.team)
  || s.images.any fun e => e.2.team.ctx = ctx && e.2.kind ≠ .ctxsave
    && rangeOwed base len (e.2.ops.map Prod.snd) (e.2.batches.map Prod.snd)

/-- A store of the range that its page no longer takes is held (R212). -/
def holdStore (s : State) (ctx base len : Nat) (h : HeldStore) : HeldStore :=
  if (sget s.teams h.team).any (fun tm => tm.ctx = ctx) && h.va < base + len && base < h.va + h.bytes.length && (heldFails s h).isSome
  then { h with held := true } else h

/-- A cached translation meets a range of a context. -/
def xlatIn (ctx base len : Nat) (x : Xlat) : Bool :=
  x.ctx = ctx && x.vpn * 2 ^ x.size < base + len && base < (x.vpn + 1) * 2 ^ x.size

/-- TRANSLATION_INVALIDATE: it completes when no cache holds a translation of the range and no access that used one is left. -/
def execTranslationInvalidate (ctx : Nat) (base len : DWord) (s : State) : Out :=
  .next (if oldAccess s ctx base.toNat len.toNat then s
    else
      let s : State := { s with tlb := s.tlb.map fun (e : Nat × List Xlat) => (e.1, e.2.filter fun x => !xlatIn ctx base.toNat len.toNat x) }
      { s with coal := s.coal.map (holdStore s ctx base.toNat len.toNat) })

/-! ## Pools, areas, channels, ids -/

/-- RDC_RESIZE, at a maintenance point with no team on the die (R370). It goes on over addresses that are already given to spill
areas, save pools, page tables or core images (log 87). -/
def execRdcResize (die : Nat) (code : BitVec 4) (s : State) : Out :=
  .next (if 4 < code.toNat || 4 ≤ die || !dieEmpty s die then s
    else
      let s := modDie s die fun d => { d with rdc := [], rdcCfg := code }
      let i := s.identity
      let cfg := (i.rdccfg.toNat - nbits i.rdccfg.toNat (4 * die) 4 * 16 ^ die) + code.toNat * 16 ^ die
      { s with
        identity := { i with rdccfg := BitVec.ofNat 16 cfg },
        dir := s.dir.map fun e => (e.1, { e.2 with owner := if e.2.owner = some die then none else e.2.owner,
                                                   sharers := e.2.sharers.filter (· ≠ die) }) })

/-- SAVE_POOL_REGISTER: saves that waited for slots go on (R348). -/
def execSavePoolRegister (part : Nat) (slots : List Nat) (s : State) : Out :=
  .next (match sget s.parts part with
    | none => s
    | some p =>
      if slots.length < 4 || !slots.Nodup || (slots.any fun a => a % 2 ^ 22 ≠ 0 || !physOk s part a (2 ^ 22)) || p.usedSlots.any (fun a => !slots.contains a) then s
      else
        let s := modPart s part fun p => { p with savePool := slots }
        (s.teams.map Prod.fst).foldl saveStep s)

/-- CORE_IMAGE_AREA_REGISTER. -/
def execCoreImageAreaRegister (ctx addr : Nat) (s : State) : Out :=
  .next (modCtx s ctx fun c => if physOk s c.part addr 1 then { c with coreArea := some addr } else c)

/-- HOST_CHANNEL_BIND. A frozen channel stays frozen (R378). -/
def execHostChannelBind (ch ctx : Nat) (s : State) : Out :=
  .next (if (sget s.contexts ctx).isNone || 64 ≤ ch || (sget s.channels ch).any (·.frozen) then s
    else { s with channels := sset s.channels ch { ctx := ctx, frozen := false } })

/-- CINCH_ID_ASSIGN. -/
def execCinchIdAssign (id : BitVec 12) (routes : List (Nat × Nat)) (s : State) : Out :=
  .next (if id = 0 then s else { s with identity := { s.identity with pkgid := id }, routes := routes })

/-- FABRIC_ACCESS_OPEN. -/
def execFabricAccessOpen (ctx : Nat) (s : State) : Out := .next (modCtx s ctx fun c => { c with fabric := true })

/-- The identity record's 64 bytes (R384). -/
def identityRecord (i : Identity) : BitVec 512 :=
  i.pkhash ++ i.serial ++ (0 : BitVec 32) ++ i.clmask ++ i.rdccfg ++ i.pkgid ++ i.fwbase ++ i.step ++ (0 : BitVec 40) ++ i.magic

/-- Bytes of an SLH-DSA-SHA2-256s signature (R383), and the device's signature of a report. -/
def sigBytes : Nat := 29792
def reportSig (id : BitVec 512) (measures : List (BitVec 256)) (nonce : BitVec 256) : List Byte :=
  (List.range sigBytes).map (Config.slhSign id measures nonce)

/-- ATTESTATION_REPORT: signed with the device's SLH-DSA key (R383). -/
def execAttestationReport (nonce : BitVec 256) (s : State) : Out :=
  let id := identityRecord s.identity
  .next { s with report := some { identity := id, log := s.measures, nonce := nonce, sig := reportSig id s.measures nonce } }

/-! ## CONTEXT_END (R343, R378) -/

/-- A record belongs to one of some grids. -/
def recOf (gs : List Nat) (r : ContRec) : Bool := gs.contains r.grid

/-- The records of some grids leave a partition, with their spill and pool slots. -/
def dropRecs (gs : List Nat) (p : Partition) : Partition :=
  let slots := (p.ready.filter fun r => recOf gs r && r.kind = .saved).map fun r => r.code.toNat - 1
  { p with
    ready := p.ready.filter fun r => !recOf gs r, pool := p.pool.filter fun e => !recOf gs e.2,
    usedSlots := p.usedSlots.filter fun a => !slots.contains a,
    slotGens := (p.pool.filter fun e => recOf gs e.2).foldl (fun m e => sset m e.1 (sgetD m e.1 0 + 1)) p.slotGens }

/-- CONTEXT_END: the context's grids end, with their teams, records and images, its views go (R298), and its frozen masters are
released. -/
def execContextEnd (ctx : Nat) (s : State) : Out :=
  let gs := (s.grids.filter fun e => e.2.ctx = ctx).map Prod.fst
  let s := (s.teams.filter fun e => e.2.ctx = ctx).foldl (fun s e => dropTeam (drainTeam s e.1) e.1 e.2) s
  let s : State := { modCtx s ctx (fun c => { c with stopped := false, fault := none, views := [], masters := [], cpMark := false }) with
    grids := s.grids.filter fun e => e.2.ctx ≠ ctx,
    parts := s.parts.map fun e => (e.1, dropRecs gs e.2),
    images := s.images.filter fun e => e.2.team.ctx ≠ ctx || e.2.kind = .ctxsave,
    queues := s.queues.map fun e => (e.1, { e.2 with grids := e.2.grids.filter fun n => !gs.contains n }),
    frozen := s.frozen.filter fun e => e.2 ≠ ctx,
    channels := s.channels.map fun e => if e.2.ctx = ctx then (e.1, { e.2 with frozen := false }) else e }
  .next ((s.parts.map Prod.fst).foldl refill s)

/-! ## Debugging (R356, R357, R278) -/

/-- DEBUG_STOP of a partition, or of the sequencer (4): refused unless every context on the core has debugging enabled. -/
def execDebugStop (core part : Nat) (s : State) : Out :=
  .next (if (teamsOn s core).all fun e => (sget s.contexts e.2.ctx).any (·.debug) then debugHalt s core part true else s)

/-- DEBUG_RESUME. -/
def execDebugResume (core part : Nat) (s : State) : Out := .next (debugHalt s core part false)

/-- DEBUGGER_ATTACH. -/
def execDebuggerAttach (ctx : Nat) (attach : Bool) (s : State) : Out :=
  .next (modCtx s ctx fun c => { c with debugger := attach && c.debug })

/-- A debugger's write of a register; a pending write to it is cancelled. The write names no slices: all four hold it (log 89). -/
def debugReg (reg : Nat) (v : Word) (th : Thread) : Thread :=
  { th with regs := ssetD th.regs reg v 0, tags := serase th.tags reg, pend := th.pend.filter fun p => p.reg ≠ reg }

/-- A thread stands in a stopped group. -/
def threadStopped (s : State) (tm : Team) (tid : Nat) : Bool :=
  match slotWith tm tid with
  | none => false
  | some k => debugStopped s tm.core (slotPartOf tm k)

/-- A load of the sequencer without its write to a g register. -/
def cancelKind (g : Nat) : OpKind → OpKind
  | .gload r v => if r = g then .plain else .gload r v
  | .load l => .load (l.filter fun e => match e.fmt with | .greg r => r ≠ g | .bytes .. => true | .elem .. => true)
  | k => k

/-- The write of a pending load of the sequencer to a g register is cancelled. -/
def cancelGload (s : State) (t g : Nat) : State :=
  { s with ops := s.ops.map fun e => if e.2.team = t && e.2.seq then (e.1, { e.2 with kind := cancelKind g e.2.kind }) else e }

/-- A quarter or nothing written into a B stage: words issued afterwards read it, whatever QBINDs and QRELs were accepted before
(R278). -/
def debugStage (q : Option Quarter) (b : BStage) : BStage := { cur := q, reqs := b.reqs.map fun r => { r with quarter := q } }

/-- A status word written into a bank (R281); which buffer a table bound by it lies in is free where none was bound. -/
def debugStatus (buf : Nat) (w : DWord) (b : Bank) : Bank := bankFrom w.toNat (b.spill.getD (buf % 64)) b

/-- An entry written into a bank (R280). -/
def debugEntry (slot : Nat) (e : BitVec 256) (b : Bank) : Bank :=
  { b with ents := match entryFrom e with
      | none => serase b.ents slot
      | some x => sset b.ents slot x }

/-- DEBUG_REGISTER_WRITE, where the group or the sequencer is stopped. -/
def execDebugRegisterWrite (d : DebugTarget) (s : State) : Out :=
  let thread := fun t tid (f : Thread → Thread) => match sget s.teams t with
    | none => s
    | some tm => if threadStopped s tm tid then modTeam s t fun tm => modThread tm tid f else s
  let seq := fun t (f : State → State) => match sget s.teams t with
    | none => s
    | some tm => if tm.seq.isSome && debugStopped s tm.core 4 then f s else s
  .next (match d with
    | .vreg t tid reg v => if 256 ≤ reg then s else thread t tid (debugReg reg v)
    | .pred t tid p v => if 7 ≤ p then s else thread t tid fun th =>
        { th with preds := if v then th.preds ||| (1#7 <<< p) else th.preds &&& ~~~(1#7 <<< p) }
    | .greg t g v => if 64 ≤ g then s else seq t fun s => gWrite (cancelGload s t g) t g v
    | .qreg t q v => if 15 ≤ q then s else seq t fun s => modSeq s t fun sq =>
        { sq with q := if v then sq.q ||| (1#15 <<< q) else sq.q &&& ~~~(1#15 <<< q) }
    | .stage t part st q => if 4 ≤ part || 2 ≤ st then s else seq t fun s => modTeam s t fun tm =>
        modStage tm (2 * part + st) (debugStage (q.map fun x => { planes := x.1, scales := x.2 }))
    | .bankEntry t bank slot e => if 4 ≤ bank || 4096 ≤ slot then s else seq t fun s => modTeam s t fun tm =>
        modBank tm bank (debugEntry slot e)
    | .bankStatus t bank w => if 4 ≤ bank then s else seq t fun s => modTeam s t fun tm =>
        modBank tm bank (debugStatus (Config.freeNat s.freeCtr (2 ^ 36)) w))

/-! ## Checkpoints (R381, R382) -/

/-- The teams of some partitions. -/
def teamsOf (s : State) (ps : List Nat) : List (Nat × Team) :=
  s.teams.filter fun e => ps.contains (sgetD s.grids e.2.grid default).part

/-- A checkpoint's saves go on: a deterministic team's at the start of a sweep (R355). -/
def checkpointSave (s : State) (e : Nat × Team) : State :=
  if !saveable s e.2 then s
  else if e.2.saving.isSome then saveStep s e.1
  else if (lrecOf s e.2).determ && e.2.turn ≠ 0 then s
  else saveStep (startSave .forced s e.1) e.1

/-- Nothing of some partitions runs any more: teams saved, but for those that a fenced die keeps, operations ended, refreshes
done. -/
def checkpointReady (s : State) (ps : List Nat) : Bool :=
  (teamsOf s ps).all (fun e => (getDie s (coreDie e.2.core)).fenced && quiesced s e.1 e.2)
  && s.contexts.all fun e => !ps.contains e.2.part || e.2.views.all fun v => v.2.queued = []

/-- What the keeping store takes (R381): the memory and the Saddle's state, and the teams that a fenced die keeps, with their
stores. -/
def checkpointOf (s : State) (ps : List Nat) : Checkpoint :=
  let ts := (teamsOf s ps).map Prod.fst
  { time := timeOf s, covers := ps, mem := s.mem, contexts := s.contexts, parts := s.parts, queues := s.queues, grids := s.grids,
    images := s.images, teams := teamsOf s ps, ops := s.ops.filter fun e => ts.contains e.2.team,
    batches := s.batches.filter fun e => ts.contains e.2.team, held := s.coal.filter fun h => ts.contains h.team }

/-- Goes on with a checkpoint of some partitions: parsing stops, the teams are saved, and once everything has ended the state
is kept, their journal starts anew and parsing resumes. -/
def checkpointStep (s : State) (ps : List Nat) : State :=
  let hold := fun b (s : State) => ps.foldl (fun s p => modPart s p fun q => { q with paused := b }) s
  let s := hold true s
  let s := (teamsOf s ps).foldl (fun s e => match sget s.teams e.1 with
    | some tm => checkpointSave s (e.1, tm)
    | none => s) s
  if !checkpointReady s ps then s
  else
    let s := hold false s
    { s with
      keeping := (checkpointOf s ps :: s.keeping).take 2, journal := s.journal.filter fun j => !journalOf s ps j,
      shared := s.shared.filter fun e => !ps.contains e.1 }

/-- CHECKPOINT. -/
def execCheckpoint (parts : List Nat) (s : State) : Out := .next (checkpointStep s parts)

/-- JOURNAL_FULL: a new checkpoint of every partition is taken. -/
def execJournalFull (s : State) : Out := .next (checkpointStep s (s.parts.map Prod.fst))

/-- CRITICAL_TEMPERATURE: a checkpoint if time allows, then the package stops. -/
def execCriticalTemperature (save : Bool) (s : State) : Out :=
  let t := checkpointStep s (s.parts.map Prod.fst)
  .next (if !save then { s with stopped := true }
    else if t.parts.any fun e => e.2.paused then t else { t with stopped := true })

end Sys2Proof.Machine
end

