-- ==== Sys2Proof/Machine/Engines.lean ====
section
/-! DEFINITION. Ends of operations (R44), store drains (R173), the near array (R174), trace and samples (R360, R361), and
the home directory (R372, R373). -/

namespace Sys2Proof.Machine

/-! ## LONG_LATENCY_COMPLETE -/

/-- The drained bytes reach the scratchpad. -/
def writeDrain (bytes : List (Nat × Byte)) (tm : Team) : Team := bytes.foldl (fun tm b => spWrite tm b.1 [b.2]) tm

/-- A VPOL's policy comes into force, if the view is still registered under its tag (R313). -/
def applyPol (s : State) (t slot tag : Nat) (pol : ViewPol) : State :=
  match sget s.teams t with
  | none => s
  | some tm => modView s tm.ctx slot fun v => if v.live && v.tag = tag then { v with policy := pol } else v

/-- Writes an image's bytes from a virtual address on, 4 KiB at a time; what does not translate is not written. A page of a master
marks the issuing threads (R300). -/
def writeImage (s : State) (t : Nat) (tm : Team) (iss : List Nat) (va : Nat) (bs : List Byte) : State :=
  (List.range ((bs.length + 4095) / 4096)).foldl (fun s i =>
    let a := va + 4096 * i
    match checkPage s tm.ctx a .ls true false with
    | .error _ => s
    | .ok l =>
      let s := homeWrite s tm.ctx (some (coreDie tm.core)) a l.pa l.mv l.tracked ((bs.drop (4096 * i)).take 4096)
      if l.mv then iss.foldl (fun s i => setMark s t (some i) true) s else s) s

/-- A team as it goes on after CTXSAVE: every clause is fetched again (R40). -/
def resumedTeam (tm : Team) : Team :=
  let v := savedTeam .ctxsave false tm
  { v with
    threads := tm.threads, reqNext := tm.reqNext, reqNoted := tm.reqNoted,
    groups := v.groups.map fun e =>
      if ((sget tm.groups e.1).map (·.status)) = some .yielded then (e.1, { e.2 with status := .yielded }) else e }

/-- CTXSAVE's image, once the team has quiesced (R367). -/
def finishCtxsave (s : State) (t : Nat) (iss : List Nat) (va : Nat) : Option State :=
  match sget s.teams t with
  | none => none
  | some tm =>
    if !quiesced s t tm || tm.saving ≠ some .ctxsave then none
    else
      let s := drainTeam s t
      let im := imageOf s .ctxsave false t tm
      let s := writeImage s t tm iss va (imageBytes im im)
      let s := match checkPage s tm.ctx va .ls true false with
        | .error _ => s
        | .ok l => { s with images := sset s.images l.pa im }
      some (modTeam s t resumedTeam)

/-- None of some operations is left. -/
def allGone (s : State) (l : List Nat) : Bool := l.all fun n => (sget s.ops n).isNone

/-- LONG_LATENCY_COMPLETE: what is left of an operation is done, its results arrive and its counter falls. Operations that
another event ends are left to it. -/
def execLongLatencyComplete (op : Nat) (s : State) : Out :=
  .next (match sget s.ops op with
    | none => s
    | some o => match o.kind with
      | .plain => completeOp s op
      | .flags _ => completeOp s op
      | .gload .. => completeOp s op
      | .bank .. => completeOp s op
      | .load _ =>
        let s := readSome s o.team op
        if ((sget s.ops op).map fun o => o.kind.unread) = some [] then completeOp s op else s
      | .cbld tab img after => if allGone s after && !opFrozen s o then completeOp (loadTable s op tab img) op else s
      | .crpop desc base logn n after ring => if allGone s after then completeOp (popRecords s o desc base logn n ring) op else s
      | .drain _ _ bytes _ => endEngine s op fun s => modTeam s o.team (writeDrain bytes)
      | .vpol slot tag pol => completeOp (applyPol s o.team slot tag pol) op
      | .spawn tasks prio => match sget s.teams o.team with
        | none => s
        | some tm =>
          let (left, s) := enterTasks tm.grid tm.tidx (sgetD s.grids tm.grid default).part prio tasks s
          if left = [] then completeOp s op else setKind s op (.spawn left prio)
      | .klaunch n =>
        let s := writeAllTeams s n
        if allWritten s n then completeOp s op else s
      | .ctxsave va => match finishCtxsave s o.team o.iss va with
        | none => s
        | some s => completeOp s op
      | .copy .. | .expand .. | .awl .. | .batch .. | .bufs .. | .stage .. | .matrix .. => s)

/-! ## STORE_DRAIN -/

/-- STORE_DRAIN of the n-th store of a core's buffers, unless it is held (R212), with the stores that come before it (R186). -/
def execStoreDrain (core n : Nat) (s : State) : Out :=
  .next (match (s.coal.filter fun h => h.core = core)[n]? with
    | none => s
    | some h => drainWhere s fun e => e = h)

/-! ## NEAR_ARRAY_REBALANCE (R174) -/

/-- The head record lacks only scratchpad on a core. -/
def lacksScratch (s : State) (core : Nat) : Bool :=
  match partOfCluster s (coreCluster core) with
  | none => false
  | some (_, p) => match headRec s p with
    | none => false
    | some r => match sget s.grids r.grid with
      | none => false
      | some g =>
        let im := (recImages s 1 r).head?.map Prod.snd
        let sh := match r.kind, im with
          | .saved, some im => im.team
          | _, _ => shapeOf g.lrec (r.kind = .task)
        let seq := if r.kind = .saved then sh.seq.isSome else g.lrec.stream ≠ 0 && r.kind ≠ .task
        let sp := if r.kind = .saved then sh.spsize else g.lrec.smin
        (coreSlots s core sh seq).isSome && freeScratch s core < sp

/-- The end of an interval of 65,536 cycles: the boundary moves by at most 64 KiB. Whether the sampling sets' misses favour a
larger L1 is free. -/
def execNearArrayRebalance (core : Nat) (s : State) : Out :=
  let c := getCore s core
  .next (if (s.cycle - c.cycBase) / 65536 ≤ c.rebal then s
    else
      let gives := lacksScratch s core && 512 < c.l1
      let l1 := if gives then c.l1 - 64
        else if 65536 ≤ freeScratch s core && Config.freeBit s.freeCtr (2 ^ 39 + core) then c.l1 + 64
        else c.l1
      modCore (if gives then dropSlice s core else s) core fun c => { c with l1 := l1, rebal := c.rebal + 1 })

/-! ## TRACE_SYNC, SAMPLE (R360, R361) -/

/-- The resident groups of a core, as a SYNC records them. -/
def syncGroups (s : State) (core : Nat) : List TraceGroup :=
  (teamsOn s core).flatMap fun e => e.2.groups.map fun g =>
    { slot := slotId e.2 g.1, team := e.2.tidx, pc := g.2.pc + 8 * (if g.2.clause.isNone then 0 else g.2.wix + 1), hmask := g.2.hmaskOld,
      members := g.2.members }

/-- TRACE_SYNC: the timebase, every resident group, and the frontier of each team. -/
def execTraceSync (core : Nat) (s : State) : Out :=
  let tr := (getCore s core).trace
  .next (if !(tr.on || tr.sample) || (tr.synced && tr.since < 4096) then s
    else tracePut s core (.sync (timeOf s) (syncGroups s core) ((teamsOn s core).map fun e => (e.2.tidx, e.2.front))))

/-- The team and group of a physical slot, and the team that owns the slot. -/
def physGroup (s : State) (core part phys : Nat) : Option (Team × Group) :=
  (teamsOn s core).findSome? fun e =>
    (e.2.groups.find? fun g => slotPartOf e.2 g.1 = part && e.2.slotPhys.getD g.1 0 = phys).map fun g => (e.2, g.2)
def physTeam (s : State) (core part phys : Nat) : Option Team :=
  ((teamsOn s core).find? fun e => (e.2.slotPart.zip e.2.slotPhys).contains (part, phys)).map Prod.snd

/-- A sample of a physical slot (R360). -/
def sampleOf (s : State) (core part phys : Nat) : Option TraceBody :=
  let leaf := slotLeaf s core part
  let slot := 16 * part + phys
  match physGroup s core part phys, sget (getCore s core).lastExit slot with
  | some (tm, g), _ =>
    if g.clause.isNone then some (.sample (timeOf s) slot tm.tidx g.pc leaf true false)
    else some (.sample (timeOf s) slot tm.tidx (g.pc + 8 * (g.wix + 1)) leaf false false)
  | none, some pc => some (.sample (timeOf s) slot (((physTeam s core part phys).map (·.tidx)).getD 0) pc leaf false true)
  | none, none => none

/-- SAMPLE of a partition: its next physical slot, once for every 2^k cycles. `Sel.sample` is 16 times the last interval,
plus the next slot. -/
def execSample (core part : Nat) (s : State) : Out :=
  let c := getCore s core
  let sel := sgetD c.sel part default
  let due := (s.cycle - c.cycBase) / 2 ^ c.trace.k
  let phys := sel.sample % 16
  .next (if !c.trace.sample || due ≤ sel.sample / 16 then s
    else
      let s := modCore s core fun c => { c with sel := sset c.sel part { sel with sample := 16 * due + (phys + 1) % 16 } }
      match sampleOf s core part phys with
      | none => s
      | some b => tracePut s core b)

/-! ## The home directory (R372, R373) -/

/-- DIRECTORY_REQUEST: a request that a party's access makes. -/
def execDirectoryRequest (pa : Nat) (r : DirReq) (s : State) : Out :=
  .next (dirRequest pa (match r with | .read d c => .read d (some c) | .own d => .own (some d)) s)

/-- Two lists hold the same members. -/
def sameSet (a b : List Nat) : Bool := (a.all b.contains) && b.all a.contains

/-- DIRECTORY_MERGE of two sibling halves: identical, and idle for 1,048,576 cycles. -/
def execDirectoryMerge (quad base size : Nat) (s : State) : Out :=
  .next (match sget s.dir (dirKey base quad), sget s.dir (dirKey (base + size) quad) with
    | some a, some b =>
      let same := a.size = size && b.size = size && a.owner = b.owner && sameSet a.sharers b.sharers && sameSet a.l1s b.l1s
      if !same || base % (2 * size) ≠ 0 || 65536 < 2 * size || s.cycle < max a.used b.used + 1048576 then s
      else
        let s := { s with dir := serase s.dir (dirKey (base + size) quad) }
        { s with dir := sset s.dir (dirKey base quad) { a with size := 2 * size, used := max a.used b.used } }
    | _, _ => s)

end Sys2Proof.Machine
end

