-- ==== Sys2Proof/Machine/Sha.lean ====
section
/-! DEFINITION. SHA-256, by which firmware images are measured (R383); the function is FIPS 180-4's (log 86). -/

namespace Sys2Proof.Machine

/-- The largest number whose n-th power is at most x, by bits from bit k - 1 down. -/
def shaRoot (n x : Nat) : Nat → Nat → Nat
  | 0, r => r
  | k + 1, r => shaRoot n x k (if (r + 2 ^ k) ^ n ≤ x then r + 2 ^ k else r)

/-- The first 64 primes: the least divisor beyond 1 of a number to 311, if not itself, is at most 17. -/
def shaPrimes : List Nat :=
  ((List.range 312).drop 2).filter fun p => [2, 3, 5, 7, 11, 13, 17].all fun d => p = d || p % d ≠ 0

/-- The first 32 bits of the fraction of a prime's n-th root. -/
def shaFrac (n p : Nat) : Word := BitVec.ofNat 32 (shaRoot n (p * 2 ^ (32 * n)) 37 0)

/-- The round constants come from cube roots, the initial hash value from the square roots of the first eight. -/
def shaK : List Word := shaPrimes.map (shaFrac 3)
def shaInit : List Word := (shaPrimes.take 8).map (shaFrac 2)

/-- The exclusive or of three rotations of a word. -/
def shaTurn (a b c : Nat) (x : Word) : Word := x.rotateRight a ^^^ x.rotateRight b ^^^ x.rotateRight c
/-- The same with a shift for the third. -/
def shaTurnShift (a b c : Nat) (x : Word) : Word := x.rotateRight a ^^^ x.rotateRight b ^^^ x >>> c

/-- A message with its padding and its length in bits. -/
def shaPad (m : List Byte) : List Byte :=
  m ++ 0x80 :: List.replicate ((119 - m.length % 64) % 64) 0 ++ (natLe 8 (8 * m.length)).reverse

/-- Word i of a block, high byte first. -/
def shaWord (b : List Byte) (i : Nat) : Word := BitVec.ofNat 32 (leNat ((b.drop (4 * i)).take 4).reverse)

/-- The next word of the message schedule, which stands newest first. -/
def shaNext (w : List Word) : Word :=
  let at_ := fun i => w.getD i 0
  at_ 15 + shaTurnShift 7 18 3 (at_ 14) + at_ 6 + shaTurnShift 17 19 10 (at_ 1)

/-- The 64 words of a block's schedule. -/
def shaSchedule (b : List Byte) : List Word :=
  ((List.range 48).foldl (fun w _ => shaNext w :: w) ((List.range 16).map (shaWord b)).reverse).reverse

/-- One round on the working variables a to h: the new a and e are built from what e, f, g, h and what a, b, c give. -/
def shaRound (v : List Word) (kw : Word × Word) : List Word :=
  match v with
  | [a, b, c, d, e, f, g, h] =>
    let low := h + kw.1 + kw.2 + shaTurn 6 11 25 e + (g ^^^ (e &&& (f ^^^ g)))
    let high := shaTurn 2 13 22 a + (a &&& b ||| (a ||| b) &&& c)
    [low + high, a, b, c, d + low, e, f, g]
  | _ => v

/-- The hash value after one block more. -/
def shaBlock (h : List Word) (b : List Byte) : List Word :=
  h.zipWith (· + ·) ((shaK.zip (shaSchedule b)).foldl shaRound h)

/-- The hash value after n blocks more. -/
def shaBlocks : Nat → List Byte → List Word → List Word
  | 0, _, h => h
  | n + 1, m, h => shaBlocks n (m.drop 64) (shaBlock h (m.take 64))

/-- SHA-256 of a message. -/
def sha256 (m : List Byte) : BitVec 256 :=
  let p := shaPad m
  BitVec.ofNat 256 ((shaBlocks (p.length / 64) p shaInit).foldl (fun n w => n * 2 ^ 32 + w.toNat) 0)

end Sys2Proof.Machine
end

