-- ==== Sys2Proof/Machine/Package.lean ====
section
/-! DEFINITION. The package: accesses of the host and of other packages (R376 to R378), errors and spares (R379, R380),
rollback and replay (R382), firmware and resets (R174, R383, R384). -/

namespace Sys2Proof.Machine

/-! ## Rollback and replay (R382) -/

/-- The pages and the tables that a page table reaches from a table at a level: base and size. -/
def tableRanges (m : List Host.Cell) : Nat → Nat → Nat → List (Nat × Nat)
  | 0, _, _ => []
  | n + 1, lvl, table =>
    (table, 8 * 2 ^ lvlBits lvl) :: (List.range (2 ^ lvlBits lvl)).flatMap fun i =>
      let e : DWord := BitVec.ofNat 64 (memNat m (table + 8 * i) 8)
      if !e.getLsbD 0 || pteBad lvl e then []
      else if e.getLsbD 3 then [(pteAddr e, 2 ^ lvlShift lvl)]
      else tableRanges m n (lvl + 1) (pteAddr e)

/-- The physical ranges of a partition's contexts. -/
def partRanges (s : State) (p : Nat) : List (Nat × Nat) :=
  (s.contexts.filter fun e => e.2.part = p).flatMap fun e => tableRanges s.mem 4 0 e.2.ptroot

/-- The ranges of a partition that its contexts need not map: its save pool and spill area. -/
def partOwn (p : Partition) : List (Nat × Nat) := (p.spillBase, 64 * p.spillN) :: p.savePool.map fun a => (a, 2 ^ 22)

/-- Two partitions share a physical page now; an edge they share lies on one. -/
def partsShare (s : State) (p q : Nat) : Bool :=
  (partRanges s p).any fun a => (partRanges s q).any fun b => a.1 < b.1 + b.2 && b.1 < a.1 + a.2

/-- The pairs of partitions that share a page now join those that have since a checkpoint. -/
def noteShares (s : State) : State :=
  if s.keeping = [] then s
  else
    let ps := s.parts.map Prod.fst
    let pairs := ps.flatMap fun p => (ps.filter fun q => p ≠ q && partsShare s p q).map fun q => (p, q)
    { s with shared := s.shared ++ pairs.filter fun e => !s.shared.contains e }

/-- The partitions that roll back with some: with those that have shared a page with one of them since its checkpoint, and so
on. -/
def rolledFrom (s : State) : Nat → List Nat → List Nat
  | 0, ps => ps
  | n + 1, ps => rolledFrom s n ((s.parts.map Prod.fst).filter fun q => ps.contains q || ps.any fun p => s.shared.contains (p, q))

/-- Memory after a rollback: the checkpoint's, but for what the other partitions hold. -/
def rolledMem (s : State) (cp : Checkpoint) (ps : List Nat) : List Host.Cell :=
  let rest := s.parts.filter fun e => !ps.contains e.1
  let keep := rest.flatMap fun e => partRanges s e.1 ++ partOwn e.2
  let kept := fun a => keep.any fun r => r.1 ≤ a && a < r.1 + r.2
  (s.mem.filter fun c => kept c.1).foldl (fun m c => memSet m c.1 c.2) (cp.mem.filter fun c => !kept c.1)

/-- A rolled partition keeps its present clusters. -/
def rolledPart (cp : Checkpoint) (now : Partition) (n : Nat) : Partition :=
  match sget cp.parts n with
  | none => now
  | some p => { p with clusters := now.clusters, moves := [], paused := false }

/-- Replaces the entries that belong to rolled partitions by the checkpoint's. -/
def rolledStore {α : Type} (now old : Store α) (mine : α → Bool) : Store α :=
  (old.filter fun e => mine e.2).foldl (fun m e => sset m e.1 e.2) (now.filter fun e => !mine e.2)

/-- The same, but entries made since the checkpoint stay, as new: what the management controller registered is no input that a
replay makes again (R382, log 102). -/
def rolledKeep {α : Type} (now old : Store α) (mine : α → Bool) (fresh : α → α) : Store α :=
  (old.filter fun e => mine e.2).foldl (fun m e => sset m e.1 e.2) (now.filterMap fun e =>
    if !mine e.2 then some e else if (sget old e.1).isSome then none else some (e.1, fresh e.2))

/-- A context and a queue as their registration leaves them. -/
def freshContext (c : Context) : Context :=
  { c with tqcount := 0, launches := 0, budget := c.cap, views := [], masters := [], cpMark := false, stopped := false, fault := none, eq := [] }
def freshQueue (u : Queue) : Queue :=
  { u with status := .idle, inval := [], listed := false, staged := [], code := [], grids := [] }

/-- The ranges that the other partitions hold keep their memory and poison at a rollback. -/
def keptRange (s : State) (ps : List Nat) (a : Nat) : Bool :=
  (s.parts.filter fun e => !ps.contains e.1).any fun e => (partRanges s e.1 ++ partOwn e.2).any fun r => r.1 ≤ a && a < r.1 + r.2

/-- The rollback of some partitions to a checkpoint that covers them, and the start of their replay. -/
def recoverTo (ps : List Nat) (cp : Checkpoint) (s : State) : State :=
  let mem := rolledMem s cp ps
  let inputs := s.journal.filter (journalOf s ps)
  let ctxs := (s.contexts.filter fun e => ps.contains e.2.part).map Prod.fst
  let s := (teamsOf s ps).foldl (fun s e => dropTeam s e.1 e.2) s
  let s := (s.parts.filter fun e => ps.contains e.1).foldl (fun s e => partPathDrop ((partDies e.2).foldl genBump s) e.2) s
  let rolledImage := fun (a : Nat) => s.parts.any fun e => ps.contains e.1 && e.2.savePool.contains a
  let teams := cp.teams.filter fun e => ps.contains (sgetD cp.grids e.2.grid default).part
  let mine := fun (t : Nat) => teams.any fun e => e.1 = t
  { s with
    mem := mem, poison := s.poison.filter fun l => keptRange s ps (128 * l),
    tlb := s.tlb.map fun (e : Nat × List Xlat) => (e.1, e.2.filter fun x => !ctxs.contains x.ctx),
    teams := teams.foldl (fun (m : Store Team) e => sset m e.1 e.2) s.teams,
    ops := (cp.ops.filter fun e => mine e.2.team).foldl (fun (m : Store Op) e => sset m e.1 e.2) s.ops,
    batches := (cp.batches.filter fun e => mine e.2.team).foldl (fun (m : Store Batch) e => sset m e.1 e.2) s.batches,
    coal := s.coal ++ cp.held.filter fun h => mine h.team,
    contexts := rolledKeep s.contexts cp.contexts (fun c => ps.contains c.part) freshContext,
    parts := s.parts.map fun e => if ps.contains e.1 then (e.1, rolledPart cp e.2 e.1) else e,
    queues := rolledKeep s.queues cp.queues (fun u => ps.contains u.part) freshQueue,
    grids := rolledStore s.grids cp.grids fun g => ps.contains g.part,
    images := (cp.images.filter fun e => rolledImage e.1).foldl (fun (m : Store Image) e => sset m e.1 e.2)
      (s.images.filter fun e => !rolledImage e.1),
    journal := s.journal.filter fun j => !journalOf s ps j, replay := s.replay ++ inputs,
    shared := s.shared.filter fun e => !ps.contains e.1 }

/-- The partitions of some that roll back to the n-th newest checkpoint: those that it covers and no newer one does. -/
def coveredBy (s : State) (ps : List Nat) (n : Nat) : List Nat :=
  ps.filter fun p => (s.keeping[n]?.any fun cp => cp.covers.contains p) && (s.keeping.take n).all fun cp => !cp.covers.contains p

/-- The rollback of some partitions, each to the newest checkpoint that covers it, and the start of their replay. Without one
there is nothing to roll back to. -/
def recover (s : State) (ps : List Nat) : State :=
  replayWrites (s.keeping.zipIdx.foldl (fun s e =>
    let now := coveredBy s ps e.2
    if now = [] then s else recoverTo now e.1 s) s)

/-- The recovery of some partitions with all that must roll back with them. -/
def recoverParts (s : State) (ps : List Nat) : State := recover s (rolledFrom s 8 ps)

/-- The partitions with a cluster on a die. -/
def partsOn (s : State) (die : Nat) : List Nat := (s.parts.filter fun e => e.2.clusters.any fun c => clusterDie c = die).map Prod.fst

/-- DIE_FAULT_REPLAY: the die is fenced, its clusters leave every partition, and the partitions that had one roll back. -/
def execDieFaultReplay (die : Nat) (s : State) : Out :=
  let ps := partsOn s die
  let s := modDie s die fun d => { d with fenced := true }
  let mask := ((List.range 36).filter fun c => clusterDie c = die).foldl (fun (m : BitVec 36) c => m &&& ~~~(1#36 <<< c)) s.identity.clmask
  let s := { s with
    parts := s.parts.map fun e => (e.1, { e.2 with clusters := e.2.clusters.filter fun c => clusterDie c ≠ die }),
    identity := { s.identity with clmask := mask } }
  .next (recoverParts s ps)

/-! ## Errors, spares (R379, R380) -/

/-- UNCORRECTABLE_ERROR: data is poisoned, or the partitions concerned recover. -/
def execUncorrectableError (w : UeWhere) (s : State) : Out :=
  let s := countUe s
  .next (match w with
    | .line pa => if s.poison.contains (lineOf pa) then s else { s with poison := lineOf pa :: s.poison }
    | .dieState die => recoverParts s (partsOn s die)
    | .read part => recoverParts s [part])

/-- Corrected errors counted for a unit (R380). -/
def ceCount (s : State) (u : SpareUnit) : Nat := ((s.ceUnits.find? fun e => e.1 = u).map Prod.snd).getD 0

/-- CORRECTED_ERROR: counted by kind and for its unit. -/
def execCorrectedError (r : CeReport) (s : State) : Out :=
  let c := s.counters
  .next { s with
    ceUnits := (r.unit, ceCount s r.unit + 1) :: s.ceUnits.filter fun e => e.1 ≠ r.unit,
    counters := match r.kind with
      | .sram => { c with ceSram := countUp c.ceSram }
      | .dram => { c with ceDram := countUp c.ceDram }
      | .link => { c with ceLink := countUp c.ceLink } }

/-- FLIT_CRC_RETRY: only CE_LINK sees it. -/
def execFlitCrcRetry (_port : Nat) (s : State) : Out :=
  .next { s with counters := { s.counters with ceLink := countUp s.counters.ceLink } }

/-- LINK_PORT_FAIL: the port goes out of service; where firmware sends its routes instead is free. -/
def execLinkPortFail (port : Nat) (s : State) : Out :=
  let dead := if s.deadPorts.contains port then s.deadPorts else port :: s.deadPorts
  .next { countUe s with
    deadPorts := dead,
    routes := s.routes.filterMap fun r =>
      let p := Config.freeNat s.freeCtr (2 ^ 41 + r.1) % 13
      if r.2 ≠ port then some r else if p = 12 || dead.contains p then none else some (r.1, p) }

/-- A unit may be taken out of use: no team is resident on a cluster or a core. -/
def unitIdle (s : State) : SpareUnit → Bool
  | .cluster c => clusterEmpty s c
  | .core n => (teamsOn s n).isEmpty
  | .pseudoChannel _ => true | .linkLane _ => true | .cacheWay _ => true | .walker _ => true

/-- SPARE_ACTIVATION, at a maintenance point, for a unit whose count shows wear: the spare takes its place under the same number,
and is counted from 0 (R380, log 70). -/
def execSpareActivation (u : SpareUnit) (s : State) : Out :=
  .next (if Config.worn u (ceCount s u) && unitIdle s u then
      { s with spares := s.spares ++ [u], ceUnits := s.ceUnits.filter fun e => e.1 ≠ u }
    else s)

/-! ## The host and other packages (R376 to R378) -/

/-- Lines of a range that are poisoned start the recovery of the context's partition. -/
def extPoison (s : State) (ctx : Nat) (va : DWord) (n : Nat) : State :=
  match cpPlaces s ctx false va.toNat n with
  | .error _ => s
  | .ok ps => match (List.range n).find? fun i => s.poison.contains (lineOf (placeAt ps (va.toNat + i)).pa) with
    | none => s
    | some i => poisonHit s ctx (placeAt ps (va.toNat + i)).pa

/-- HOST_CHANNEL_ACCESS. A failed read returns all ones. While a replay into the context's partition goes on, writes wait behind it
and reads wait (R382). -/
def execHostChannelAccess (ch : Nat) (a : ExtAccess) (s : State) : Out :=
  .next (match sget s.channels ch with
    | none => s
    | some c =>
      if c.frozen then s
      else match a with
        | .read va n =>
          if replaying s c.ctx then s
          else match cpRead s c.ctx va.toNat n with
            | .error e => freezeChannel { s with replies := s.replies ++ [List.replicate n 255] } ch c e va
            | .ok bs => extPoison { s with replies := s.replies ++ [bs] } c.ctx va n
        | .write va bs => if replaying s c.ctx then { s with replay := s.replay ++ [.host ch c.ctx a] } else hostWrite s ch c va bs)

/-- FABRIC_INBOUND_REQUEST. -/
def execFabricInboundRequest (pkg ctx : Nat) (a : ExtAccess) (s : State) : Out :=
  .next (if s.identity.pkgid = 0 || !((sget s.contexts ctx).any (·.fabric)) then remoteFail s
    else match a with
      | .read va n =>
        if replaying s ctx then s
        else match cpRead s ctx va.toNat n with
          | .error e => remoteViolation s ctx e va
          | .ok bs => { s with replies := s.replies ++ [bs] }
      | .write va bs => if replaying s ctx then { s with replay := s.replay ++ [.fabric pkg ctx a] } else fabricWrite s pkg ctx va bs)

/-! ## Firmware and resets -/

/-- Logical clusters present: the firmware's, but for those of fenced dies. -/
def presentMask (s : State) : BitVec 36 :=
  ((List.range 36).filter fun c => (getDie s (clusterDie c)).fenced).foldl (fun m c => m &&& ~~~(1#36 <<< c)) Config.clmask

/-- The identity record as bring-up writes it (R384): the baseline is 4.2 or later (R1), the remote-data caches as they are sized,
and the package id as it is assigned. -/
def bringUpIdentity (s : State) : Identity :=
  { pkhash := Config.pkhash, serial := Config.serial, clmask := presentMask s,
    rdccfg := (getDie s 3).rdcCfg ++ (getDie s 2).rdcCfg ++ (getDie s 1).rdcCfg ++ (getDie s 0).rdcCfg, pkgid := s.identity.pkgid,
    fwbase := if Config.fwbase.toNat < 0x0402 then 0x0402 else Config.fwbase, step := 0xB0, magic := 0x49584449 }

/-- FIRMWARE_VERIFY: an image whose signature, of 29,792 bytes, verifies is measured and run; another is not. Bring-up ends with the last of its
images (R383). -/
def execFirmwareVerify (image sig : List Byte) (s : State) : Out :=
  .next (if sig.length ≠ sigBytes || !Config.slhVerify image sig then s
    else
      let s := { s with measures := s.measures ++ [sha256 image] }
      if s.bringUp && max 1 Config.fwImages ≤ s.measures.length then
        { s with bringUp := false, identity := bringUpIdentity s, eccost := Config.eccost }
      else s)

/-- CORE_RESET, with no team resident on the core (R174). -/
def execCoreReset (core : Nat) (s : State) : Out :=
  .next (if (teamsOn s core).isEmpty then
      { s with
        cores := sset s.cores core { coreDef with cycBase := s.cycle }, l1 := s.l1.filter fun e => e.1 % 256 ≠ core,
        tlb := serase s.tlb core }
    else s)

end Sys2Proof.Machine
end

