-- ==== Sys2Proof/WellFormed.lean ====
section
/-! DEFINITION. Well-formed instructions: the legality of check 3 of R36 as far as the word alone decides it. A packet is
well-formed when R319 and R320 let it be written, an event when its arguments name things that can exist. -/

namespace Sys2Proof

/-- Class A or F, writing a vector register. -/
def Head.isA (h : Head) : Bool := h.dsm ≠ 0 && h.la = 0 && h.dc = 6
/-- Not of class L, writing no vector register. -/
def Head.isP (h : Head) : Bool := h.dsm = 0 && h.la = 0 && h.dc = 6
/-- Class L, writing a vector register. -/
def Head.isL (h : Head) : Bool := h.dsm ≠ 0 && h.dc ≠ 7
/-- Class L, writing no vector register. -/
def Head.isN (h : Head) : Bool := h.dsm = 0 && h.la = 0 && h.dc ≠ 7
/-- Classes S and SC. -/
def HeadX.isS (x : HeadX) : Bool := x.xdc = 6
/-- Class SL. -/
def HeadX.isSL (x : HeadX) : Bool := x.xdc ≠ 7
/-- CC and SAT are not both set (R93). -/
def AddMod.ok (m : AddMod) : Bool := !(m.cc.isSome && m.sat)
/-- A shift of a LEA, a BRX or an index is at most 4. -/
def le4 (x : BitVec 3) : Bool := x.toNat ≤ 4
/-- The launch arguments of R320. -/
def Cop.ok : Cop → Bool
  | .none => true
  | .write a _ => a.extractLsb' 0 3 = 0
  | .add a _ => a.extractLsb' 0 3 = 0

/-- Whether an instruction is well-formed. -/
def Instr.wf : Instr → Bool
  | .iadd h _ _ _ m => h.isA && m.ok
  | .iaddImm h _ _ _ m => h.isA && m.ok
  | .isub h _ _ _ m => h.isA && m.ok
  | .isubImm h _ _ _ m => h.isA && m.ok
  | .iaddx h _ _ _ _ _ => h.isA
  | .ineg h _ _ _ => h.isA
  | .iabs h _ _ _ => h.isA
  | .imin h _ _ _ _ => h.isA
  | .iminImm h _ _ _ _ => h.isA
  | .imax h _ _ _ _ => h.isA
  | .imaxImm h _ _ _ _ => h.isA
  | .imul h _ _ _ => h.isA
  | .imulImm h _ _ _ => h.isA
  | .imulh h _ _ _ _ => h.isA
  | .imulhImm h _ _ _ _ => h.isA
  | .imulw h d _ _ _ => h.isA && even d
  | .imad h _ _ _ _ => h.isA
  | .imadw h d _ _ c _ => h.isA && even d && even c
  | .idiv h _ _ _ _ => h.isL
  | .imod h _ _ _ _ => h.isL
  | .and h _ _ _ => h.isA
  | .andImm h _ _ _ => h.isA
  | .or h _ _ _ => h.isA
  | .orImm h _ _ _ => h.isA
  | .xor h _ _ _ => h.isA
  | .xorImm h _ _ _ => h.isA
  | .andn h _ _ _ => h.isA
  | .andnImm h _ _ _ => h.isA
  | .not h _ _ => h.isA
  | .lop3 h _ _ _ _ _ => h.isA
  | .lop3Hi h _ _ _ _ _ => h.isA
  | .shl h _ _ _ _ => h.isA
  | .shlImm h _ _ _ _ => h.isA
  | .shr h _ _ _ _ _ => h.isA
  | .shrImm h _ _ _ _ _ => h.isA
  | .shf h _ _ _ _ _ _ => h.isA
  | .rot h _ _ _ _ => h.isA
  | .rotImm h _ _ _ _ => h.isA
  | .bfx h _ _ _ _ => h.isA
  | .bfi h _ _ _ _ => h.isA
  | .popc h _ _ => h.isA
  | .clz h _ _ => h.isA
  | .ffs h _ _ => h.isA
  | .brev h _ _ => h.isA
  | .icmp h _ _ _ _ _ _ => h.isP
  | .icmpImm h _ _ _ _ _ => h.isP
  | .isel h _ _ _ _ => h.isA
  | .mov h _ _ => h.isA
  | .movi h d _ m => h.dsm ≠ 0 && (m = .w32 || even d)
  | .movg h d _ m => h.isA && (m ≠ .pair || even d)
  | .lea h d a _ _ sh => h.isA && even d && even a && le4 sh
  | .leaImm h d a _ _ sh => h.isA && even d && even a && le4 sh
  | .add64 h d a b => h.isA && even d && even a && even b
  | .add64Imm h d a _ => h.isA && even d && even a
  | .sub64 h d a b => h.isA && even d && even a && even b
  | .shl64 h d a _ _ => h.isA && even d && even a
  | .shl64Imm h d a _ _ => h.isA && even d && even a
  | .shr64 h d a _ _ _ => h.isA && even d && even a
  | .shr64Imm h d a _ _ _ => h.isA && even d && even a
  | .icmp64 h _ a b _ _ _ => h.isP && even a && even b
  | .fadd h _ _ _ _ _ _ => h.isA
  | .fsub h _ _ _ _ _ _ => h.isA
  | .fmul h _ _ _ _ _ _ => h.isA
  | .ffma h _ _ _ _ _ _ _ _ => h.isA
  | .fmin h _ _ _ _ _ => h.isA
  | .fmax h _ _ _ _ _ => h.isA
  | .fcmp h _ _ _ _ _ => h.isP
  | .frnd h _ _ _ _ => h.isA
  | .fclass h _ _ => h.isA
  | .frcp h _ _ _ _ => h.isL
  | .frsq h _ _ _ => h.isL
  | .fsqrt h _ _ _ _ => h.isL
  | .fex2 h _ _ _ => h.isL
  | .flg2 h _ _ _ => h.isL
  | .fsin h _ _ _ => h.isL
  | .fcos h _ _ _ => h.isL
  | .hadd2 h _ _ _ _ _ _ _ => h.isA
  | .hmul2 h _ _ _ _ _ _ _ => h.isA
  | .hfma2 h _ _ _ _ _ _ _ _ _ => h.isA
  | .hmin2 h _ _ _ _ _ _ => h.isA
  | .hmax2 h _ _ _ _ _ _ => h.isA
  | .hcmp2 h pd _ _ _ _ _ => h.isP && pd.extractLsb' 0 1 = 0
  | .cvtfi h d _ ik fk hi _ => h.isA && (!ik.wide || even d) && (!hi || fk ≠ .f32)
  | .cvtif h _ a ik _ _ => h.isA && (!ik.wide || even a)
  | .cvtff h _ _ _ ak hi _ => h.isA && (!hi || ak ≠ .f32)
  | .bpq h _ _ b _ xs => h.isA && (xs || b = 0)
  | .bpdq h _ _ _ => h.isA
  | .bppk h _ _ => h.isA
  | .bpupk h _ _ _ => h.isA
  | .plop h _ _ _ _ => h.isP
  | .pmov h (.toV _) => h.isA
  | .pmov h (.fromV _ _) => h.isP
  | .shfl h _ _ _ _ _ => h.isA
  | .shflImm h _ _ _ _ _ => h.isA
  | .vote h d m _ => if m.vec then h.isA else h.isP && d.extractLsb' 3 5 = 0
  | .matchV h _ a _ b64 => h.isL && (!b64 || even a)
  | .redux h _ _ o s c => h.isL && reduxOk o s c
  | .ld h d a _ w sx _ sp => h.isL && (sp || even a) && w.regOk d && w.sxOk sx
  | .st h d a _ w sp => h.isN && (sp || even a) && w.regOk d
  | .ldk h d a _ w sx => h.isL && even a && w.regOk d && w.sxOk sx
  | .ldx h d _ _ w sx => h.isL && w.regOk d && w.sxOk sx
  | .stx h d _ _ w => h.isN && w.regOk d
  | .gath h d a b ix ew sx sp => h.isL && (sp || even a) && ew.regOk d && ix.iw.regOk b && ew.sxOk sx && le4 ix.sc
  | .scat h d a b ix ew sp => h.isN && (sp || even a) && ew.regOk d && ix.iw.regOk b && le4 ix.sc
  | .ldl h _ _ _ => h.isL
  | .stl h _ _ _ => h.isN
  | .lyld h _ a _ => h.isL && even a
  | .lydrop h _ => h.isN
  | .cinv h a _ _ => h.isN && even a
  | .pref h a _ _ => h.isN && even a
  | .twalk h d a b n => h.isL && even d && even a && even b && 1 ≤ n.toNat && n.toNat ≤ 12
  | .atom h _ a _ os _ => h.isL && os ≠ 0xF && (!osGlobal os || even a)
  | .acas h d a b c os w64 => h.isL && os ≠ 0xF && (!osGlobal os || even a) && (!w64 || (even d && even b && even c))
  | .ared h _ a _ os _ => h.isN && os ≠ 0xF && (!osGlobal os || even a)
  | .fence h _ _ _ => h.isP
  | .pfence h m => h.isP && m ≠ 0
  | .semp h _ _ sc => h.isN && sc ≠ .grp
  | .semw h _ _ sc => h.isP && sc ≠ .grp
  | .semx h _ _ => h.isN
  | .arrive h d _ n sc rp => sc ≠ .grp && n ≠ 0 && h.dc ≠ 7 && (rp || (d = 0 && h.dsm = 0 && h.la = 0))
  | .waitph h d _ phi sc src => h.isP && sc ≠ .grp && (if src then !phi else d = 0)
  | .bufs h _ _ sc => h.isN && sc ≠ .grp
  | .bufw h _ _ _ sc => h.isP && sc ≠ .grp
  | .cpy h a b dir _ _ _ => h.isN && (!dir.srcG || even a) && (!dir.dstG || even b)
  | .cpyl h _ _ _ _ _ _ => h.isN
  | .cpyd h _ a _ _ _ _ _ _ => h.isN && even a
  | .cbld h a _ => h.isN && even a
  | .cpyc h _ a _ _ => h.isN && even a
  | .crwait h d a => h.dsm ≠ 0 && h.la = 0 && h.dc = 6 && even d && even a
  | .crpop h a n => h.isN && even a && n ≠ 0
  | .gathn h d a b ix _ _ _ _ => h.isN && even d && even a && even b && le4 ix.sc
  | .vreg h _ a b _ => h.isL && even a && even b
  | .vdrop h _ => h.isN
  | .vsync h d _ cur => h.isP && (if cur then d = 0 else even d)
  | .vgen h d _ _ => h.isL && even d
  | .vpol h _ _ => h.isN
  | .vstat h d _ _ => h.isL && even d
  | .spawn h a b _ => h.isN && even a && even b
  | .spawnc h d a b _ _ => h.isL && even d && even a && even b
  | .done h a n => h.isN && even a && n ≠ 0
  | .enq h a b _ => h.isN && even a && quad b
  | .deq h d a _ => h.isL && even a && quad d
  | .klaunch h a b cnt => h.isN && even a && (if cnt then even b else b = 0)
  | .bra _ _ => true
  | .brx _ _ _ sh => le4 sh
  | .call _ a _ => even a
  | .callx _ a => even a
  | .ret _ a => even a
  | .join => true
  | .exit _ => true
  | .nop _ => true
  | .waitdc _ mask _ => mask ≠ 0
  | .trap _ _ => true
  | .tfence _ => true
  | .yield n => n.toNat ≤ 256
  | .rth => true
  | .sread h d _ m => h.isA && (m ≠ .pair || even d)
  | .bkpt _ _ => true
  | .swrite _ a _ pair => !pair || even a
  | .ebset h a => h.isN && even a
  | .pmctl h _ _ _ => h.isN
  | .trctl h a m k => h.isN && trctlOk m a k
  | .ctxsave h a => h.isN && even a
  | .halt _ => true
  | .qbind h _ b _ sc n => h.isN && 2 ≤ n.toNat && n.toNat ≤ 8 && (sc || b = 0)
  | .qrel h _ => h.isN
  | .mma x _ _ _ _ _ _ => x.isSL
  | .smma x _ _ _ _ _ => x.isSL
  | .gmov x _ _ => x.isS
  | .gmovi x _ _ _ => x.isS
  | .gadd x _ _ _ _ => x.isS
  | .gmul x _ _ _ => x.isS
  | .gshl x _ _ _ _ => x.isS
  | .gcmp x qd _ _ _ _ => x.isS && qd ≠ 15
  | .gld x _ _ _ _ => x.isSL
  | .gbra x _ => x.isS
  | .gloop x _ _ => x.isS
  | .qset x qd _ => x.isS && qd ≠ 15
  | .qlop x qd _ _ _ _ _ => x.isS && qd ≠ 15
  | .mend => true
  | .accz x _ _ => x.isSL
  | .jmac x gd ga gb _ _ _ _ _ => x.isSL && gd ≠ ga && gd ≠ gb
  | .jins x gd ga _ _ _ => x.isSL && gd ≠ ga
  | .accsp x _ _ => x.isSL
  | .accdr x _ _ _ _ _ _ _ => x.isSL
  | .acccnt x _ _ => x.isS
  | .packetNop _ _ _ => true
  | .launch _ _ r c => r.extractLsb' 0 6 = 0 && c.ok
  | .packetFence _ _ es => 1 ≤ es.length && es.length ≤ 12 && es.all fun e => e.addr.extractLsb' 0 3 = 0
  | .signal _ _ _ a _ => a.extractLsb' 0 3 = 0
  | .edge _ _ _ k d => 1 ≤ k && k ≤ 65536 && d.extractLsb' 0 6 = 0
  | .inval _ _ len rs => 1 ≤ rs.length && rs.length ≤ 15 && 16 + 16 * rs.length ≤ 64 * (len.toNat + 1)
      && rs.all fun r => r.1.extractLsb' 0 7 = 0 && r.2.extractLsb' 0 7 = 0
  | .timestamp _ _ a => a.extractLsb' 0 3 = 0
  | .errClear _ => true
  | .readAhead _ => true
  | .queueParse _ => true
  | .contextRegister part _ _ => part < 8
  | .queueRegister _ _ _ => true
  | .partitionConfig _ => true
  | .clusterMove c s d dl => c < 36 && s < 8 && d < 8 && (dl = 0 || (1000 ≤ dl && dl ≤ 1000000))
  | .translationInvalidate _ _ _ => true
  | .rdcResize die code => die < 4 && code.toNat ≤ 4
  | .savePoolRegister part _ => part < 8
  | .coreImageAreaRegister _ _ => true
  | .hostChannelBind ch _ => ch < 64
  | .cinchIdAssign id _ => id ≠ 0
  | .contextEnd _ => true
  | .checkpoint _ => true
  | .attestationReport _ => true
  | .debugStop c p => c < 144 && p ≤ 4
  | .debugResume c p => c < 144 && p ≤ 4
  | .debugRegisterWrite _ => true
  | .teamPlace c => c < 144
  | .clauseFetch _ => true
  | .transferResolve _ _ => true
  | .formation c => c < 144
  | .joinRelease _ _ => true
  | .teamComplete _ => true
  | .gridComplete _ => true
  | .longLatencyComplete _ => true
  | .storeDrain c _ => c < 144
  | .bufferTransition _ b => b < 64
  | .semaphoreWaitRelease _ => true
  | .bufferWaitRelease _ => true
  | .classWWaitRelease _ => true
  | .edgeRetry _ => true
  | .batchComplete _ => true
  | .ringFullRetry _ => true
  | .chunkPost _ => true
  | .copyRequestComplete _ => true
  | .awlBurst _ => true
  | .skiverRefresh _ slot _ => slot < 64
  | .matrixComplete _ => true
  | .energyDebitWaitEnd _ => true
  | .budgetRefill _ => true
  | .qbindLatch _ key => key < 8
  | .sequencerTrapDelivery _ => true
  | .cooperativeSave _ => true
  | .preemptDeadline _ => true
  | .savePoolWaitEnd _ => true
  | .nearArrayRebalance c => c < 144
  | .packetPoll _ => true
  | .directoryRequest _ _ => true
  | .directoryMerge q _ _ => q < 4
  | .fabricInboundRequest _ _ _ => true
  | .flitCrcRetry p => p < 12
  | .linkPortFail p => p < 12
  | .hostChannelAccess ch _ => ch < 64
  | .correctedError _ => true
  | .uncorrectableError _ => true
  | .spareActivation _ => true
  | .dieFaultReplay die => die < 4
  | .journalFull => true
  | .firmwareVerify _ _ => true
  | .thermalThrottle part _ => part < 8
  | .sample c p => c < 144 && p < 4
  | .traceSync c => c < 144
  | .issueSelect c sl => c < 144 && sl ≤ 4
  | .coreReset c => c < 144
  | .preemptRequest _ dl => dl.all fun d => 1000 ≤ d && d ≤ 1000000
  | .debuggerAttach _ _ => true
  | .fabricAccessOpen _ => true
  | .criticalTemperature _ => true

end Sys2Proof
end

