-- ==== Sys2Proof/Machine/Clock.lean ====
section
/-! DEFINITION. What surrounds every step: the clocks, the performance counters (R359, R366), the budgets' refills (R268), and
what a moment brings about of itself: the ends of stops (R343, R368), saves at safe points (R347), the pages that partitions
share (R382). -/

namespace Sys2Proof.Machine

/-! ## The slot that issued -/

/-- The issue of a word: the slot of the core, whether 32 threads are active, and the cycles its operands' collection takes. -/
structure Issued where
  core    : Nat
  slot    : Nat
  full    : Bool
  collect : Nat

/-- The sequencer's word issued: it stands elsewhere than before, and not to wait for a debit. -/
def seqMoved (s s' : State) (t : Nat) : Bool :=
  let at_ := fun (s : State) => ((sget s.teams t).bind (·.seq)).map fun q => (q.pc, q.wix, q.clause.isSome, q.status, q.trap.isSome)
  at_ s ≠ at_ s' && !((sget s'.teams t).bind (·.seq)).any fun q => q.status = .energy

/-- The issue that a step was; results that have arrived are visible to it (R43). -/
def issuedIn (s s' : State) : Option Issued :=
  match s.issuer with
  | some (.group t k) => match siteOf s t k ⟨false, 7⟩ with
    | none => none
    | some x =>
      let gd := ((wordOf x.g.clause x.g.wix).map wordGuard).getD ⟨false, 7⟩
      if moved s s' t k then
        some { core := x.tm.core, slot := slotPartOf x.tm k, full := (activeLanes x.tm x.g gd).length = 32,
               collect := collectAt (pendInstalls x.tm k (memberLanes x.g)) k x.g }
      else none
  | some (.seq t) => match ssiteOf s t with
    | none => none
    | some x => if seqMoved s s' t then some { core := x.tm.core, slot := 4, full := false, collect := 0 } else none
  | some (.packet _) => none
  | none => none

/-! ## Performance counters -/

/-- Cycles of a step in which a slot counts for an event: the issuing slot issues for one and collects its operands; the others,
and its cycles left, count in the leaf that holds them. A stopped partition does not count (R356). -/
def slotCycles (s s' : State) (i : Option Issued) (n core slot event : Nat) : Nat :=
  let one := fun (b : Bool) (n : Nat) => if b then n else 0
  if debugStopped s core slot then 0
  else if event = 0 then n
  else match i.filter fun x => x.core = core && x.slot = slot with
    | some x => one (event = if x.full then 1 else 2) 1 + one (event = 4) x.collect + one (event = slotLeaf s' core slot) (n - 1 - x.collect)
    | none => one (event = slotLeaf s core slot) n

/-- The core's counters after a step of n cycles. -/
def pmcTick (s s' : State) (i : Option Issued) (n core : Nat) (c : Core) : Core :=
  let count := fun event => (List.range 5).foldl (fun m slot => m + slotCycles s s' i n core slot event) 0
  { c with pmc := c.pmc.map fun e => if e.2.on then (e.1, { e.2 with value := e.2.value + BitVec.ofNat 64 (count e.2.event) }) else e }

/-! ## The clocks -/

/-- Cycles that a step takes: one, those of the collection of its operands, and any number more (log 6). -/
def stepCycles (s : State) (i : Option Issued) : Nat := 1 + ((i.map (·.collect)).getD 0 + Config.freeCycles s.freeCtr)

/-- The clocks run on, and budgets are refilled as their moments pass. -/
def tick (s s' : State) : State :=
  let i := issuedIn s s'
  let n := stepCycles s' i
  { s' with
    cycle := s'.cycle + n, freeCtr := s'.freeCtr + 1, cores := s'.cores.map fun e => (e.1, pmcTick s s' i n e.1 e.2),
    contexts := s'.contexts.map fun e => (e.1, refillTo ((s'.cycle + n) * 4 / 5) e.2) }

/-! ## What a moment brings -/

/-- A team is to be saved now: a save is asked of it, and its cluster stands at safe points (R347). -/
def saveDue (s : State) (tm : Team) : Bool := tm.preq && teamRuns s tm && clusterSafe s tm

/-- The saves that are due are made at once. -/
def promptSaves (s : State) : State :=
  { s with agenda := s.agenda ++ s.teams.filterMap fun e =>
      if saveDue s e.2 && !s.agenda.contains (.cooperativeSave e.1) then some (.cooperativeSave e.1) else none }

/-- The releases of JOINs that are due, and the formations of deterministic teams' cores, are made at once (R153). -/
def promptMoves (s : State) : State :=
  let due := s.teams.flatMap fun e => joinsDue s e.1 e.2 ++ (if formsDue s e.2.core then [Instr.formation e.2.core] else [])
  { s with agenda := s.agenda ++ (due.filter fun i => !s.agenda.contains i).eraseDups }

/-- What holds after a step, of itself. -/
def afterStep (s : State) : State := noteShares (promptMoves (promptSaves (endStops s)))

/-! ## Fairness (R154) -/

/-- How often 2 divides a number; the first argument bounds the search. -/
def ruler : Nat → Nat → Nat
  | 0, _ => 0
  | n + 1, i => if i % 2 = 1 then 0 else 1 + ruler n (i / 2)

/-- The device's own events, in a list without end. -/
def deviceEvent (s : State) (k : Nat) : Instr :=
  let a := k / 31
  let i : Issuer := .group (a / 64) (a % 64)
  match k % 31 with
  | 0 => .issueSelect (a / 5) (a % 5)
  | 1 => .clauseFetch i
  | 2 => .clauseFetch (.seq a)
  | 3 => .transferResolve (a / 64) (a % 64)
  | 4 => .formation a
  | 5 => .joinRelease (a / 3) ([Role.matrix, .copy, .vector].getD (a % 3) .vector)
  | 6 => .teamComplete a
  | 7 => .gridComplete a
  | 8 => .longLatencyComplete a
  | 9 => .storeDrain (a / 64) (a % 64)
  | 10 => .bufferTransition (a / 64) (a % 64)
  | 11 => .semaphoreWaitRelease (if a % 2 = 0 then .seq (a / 2) else .group (a / 128) (a / 2 % 64))
  | 12 => .bufferWaitRelease (if a % 2 = 0 then .seq (a / 2) else .group (a / 128) (a / 2 % 64))
  | 13 => .classWWaitRelease i
  | 14 => .edgeRetry i
  | 15 => .batchComplete a
  | 16 => .ringFullRetry a
  | 17 => .chunkPost a
  | 18 => .copyRequestComplete a
  | 19 => .awlBurst a
  | 20 => .skiverRefresh (a / 1048576) (a / 4096 % 256) (a % 4096)
  | 21 => .matrixComplete a
  | 22 => .energyDebitWaitEnd a
  | 23 => .qbindLatch (a / 8) (a % 8)
  | 24 => .sequencerTrapDelivery a
  | 25 => if a % 2 = 0 then .preemptDeadline (a / 2) else .savePoolWaitEnd (a / 2)
  | 26 => .teamPlace a
  | 27 => if a % 2 = 0 then .queueParse (a / 2) else .packetPoll (a / 2)
  | 28 => .nearArrayRebalance a
  | 29 => .clusterMove (a / 8 % 36) (a % 8) (a % 8) 0
  | _ => match (s.parts.filter fun e => e.2.paused).map Prod.fst with
    | [] => .formation a
    | ps => .checkpoint ps

/-- The event whose turn is next: each of the list comes up again and again (log 4). -/
def fairEvent (s : State) : Instr := deviceEvent s (ruler (s.fairIdx + 1) (s.fairIdx + 1))

/-- The next turn, so many steps without a due event from now on. -/
def nextFair (s : State) : State := { s with fairIdx := s.fairIdx + 1, fairGap := Config.fairGap s.fairIdx }

/-- The state after a step without a due event. -/
def fairCount (s : State) : State := if s.fairGap = 0 then nextFair s else { s with fairGap := s.fairGap - 1 }

/-- The event of a step without a due one: the one whose turn it is, or a free one; nothing for what is no event of the table. -/
def openEvent (s : State) : Option Instr :=
  if s.fairGap = 0 then some (fairEvent s) else if (Config.freeEvent s.freeCtr).wf then some (Config.freeEvent s.freeCtr) else none

/-- A step's outcome with the turn counted. -/
def countFair : Host.Outcome State Fault Refusal → Host.Outcome State Fault Refusal
  | .next s => .next (fairCount s)
  | .fault f => .fault f
  | .refused r => .refused r

/-- A step's outcome with the clocks run on; the word's issuer, if it had one, has had its turn. -/
def settle (before : State) (turn : Bool) : Host.Outcome State Fault Refusal → Host.Outcome State Fault Refusal
  | .next s => .next (afterStep (tick before (if turn then { s with issuer := none } else s)))
  | .fault f => .fault f
  | .refused r => .refused r

end Sys2Proof.Machine
end

