-- ==== Sys2Proof/Machine/FloatOps.lean ====
section
/-! DEFINITION. Floating-point and conversion instructions, 0x080 to 0x0FF (R118 to R137). -/

namespace Sys2Proof.Machine

/-! ## Shapes -/

/-- A result of FP32 or of a 16-bit kind in the low half, with its flags. -/
def outFR (l : Nat) (d : VReg) (r : FRes) : LaneOut := outF l d (BitVec.ofNat 32 r.v) r.fl

/-- An FP32 operand after its negation (R120). -/
def fsrc (neg : Bool) (x : Word) : Nat := fnegate .f32 neg x.toNat

/-- One FP32 source, class F. -/
def fpu1 (h : Head) (d a : VReg) (na : Bool) (f : Nat → FRes) (s : State) : Out :=
  .next (laneA (aluReq h (one [d, a])) h.dsm (fun v l => outFR l d (f (fsrc na (v.r l a)))) s)

/-- Two FP32 sources, class F. -/
def fpu2 (h : Head) (d a b : VReg) (na nb : Bool) (f : Nat → Nat → FRes) (s : State) : Out :=
  .next (laneA (aluReq h (one [d, a, b])) h.dsm (fun v l => outFR l d (f (fsrc na (v.r l a)) (fsrc nb (v.r l b)))) s)

/-- One FP32 source, class L (R118): the flags are set at completion (R119). -/
def fpuL (h : Head) (d a : VReg) (na : Bool) (f : Nat → FRes) (s : State) : Out :=
  .next (laneL (aluReq h (one [d, a])) h (fun v l => outFR l d (f (fsrc na (v.r l a)))) s)

/-! ## FP32 arithmetic (R121 to R125) -/

/-- FADD. -/
def execFadd (h : Head) (d a b : VReg) (na nb : Bool) (rnd : Rm) (s : State) : Out :=
  fpu2 h d a b na nb (fadd .f32 rnd) s
/-- FSUB: B is subtracted, its sign inverted once more. -/
def execFsub (h : Head) (d a b : VReg) (na nb : Bool) (rnd : Rm) (s : State) : Out :=
  fpu2 h d a b na (!nb) (fadd .f32 rnd) s
/-- FMUL. -/
def execFmul (h : Head) (d a b : VReg) (na nb : Bool) (rnd : Rm) (s : State) : Out :=
  fpu2 h d a b na nb (fmul .f32 rnd) s
/-- FFMA. -/
def execFfma (h : Head) (d a b c : VReg) (na nb nc : Bool) (rnd : Rm) (s : State) : Out :=
  .next (laneA (aluReq h (one [d, a, b, c])) h.dsm (fun v l =>
    outFR l d (ffma .f32 rnd (fsrc na (v.r l a)) (fsrc nb (v.r l b)) (fsrc nc (v.r l c)))) s)
/-- FMIN. -/
def execFmin (h : Head) (d a b : VReg) (na nb : Bool) (s : State) : Out := fpu2 h d a b na nb (fminmax .f32 false) s
/-- FMAX. -/
def execFmax (h : Head) (d a b : VReg) (na nb : Bool) (s : State) : Out := fpu2 h d a b na nb (fminmax .f32 true) s
/-- FCMP. -/
def execFcmp (h : Head) (pd : PReg) (a b : VReg) (cmp : FCmp) (comb : Option (CombOp × PSrc)) (s : State) : Out :=
  .next (laneA (aluReq h (one [a, b]) (pd :: combPreds comb)) h.dsm (fun v l =>
    let r := fcompare .f32 cmp (v.r l a).toNat (v.r l b).toNat
    { lane := l, ps := [(pd, combined v l comb r.1)], fl := r.2 }) s)
/-- FRND. -/
def execFrnd (h : Head) (d a : VReg) (na : Bool) (rnd : Rm) (s : State) : Out := fpu1 h d a na (frndInt .f32 rnd) s
/-- FCLASS. -/
def execFclass (h : Head) (d a : VReg) (s : State) : Out :=
  alu1 h d a (fun x => BitVec.ofNat 32 (2 ^ fclassBit .f32 x.toNat)) s

/-! ## Transcendentals (R126, R127) -/

/-- The free choice of an approximated function: fixed by the function and the operand's bits (log 16). -/
def approxOf (op : Nat) (x : Nat) : Int := Config.approx op (BitVec.ofNat 32 x)

/-- FRCP. -/
def execFrcp (h : Head) (d a : VReg) (na : Bool) (rnd : Rm) (s : State) : Out := fpuL h d a na (frecip rnd) s
/-- FRSQ. -/
def execFrsq (h : Head) (d a : VReg) (na : Bool) (s : State) : Out := fpuL h d a na (fun x => frsqrt (approxOf 0 x) x) s
/-- FSQRT. -/
def execFsqrt (h : Head) (d a : VReg) (na : Bool) (rnd : Rm) (s : State) : Out := fpuL h d a na (fsqrt rnd) s
/-- FEX2. -/
def execFex2 (h : Head) (d a : VReg) (na : Bool) (s : State) : Out := fpuL h d a na (fun x => fexp2 (approxOf 1 x) x) s
/-- FLG2. -/
def execFlg2 (h : Head) (d a : VReg) (na : Bool) (s : State) : Out := fpuL h d a na (fun x => flog2 (approxOf 2 x) x) s
/-- FSIN. -/
def execFsin (h : Head) (d a : VReg) (na : Bool) (s : State) : Out :=
  fpuL h d a na (fun x => ftrig false (approxOf 3 x) x) s
/-- FCOS. -/
def execFcos (h : Head) (d a : VReg) (na : Bool) (s : State) : Out :=
  fpuL h d a na (fun x => ftrig true (approxOf 4 x) x) s

/-! ## Packed 16-bit arithmetic (R128, R129) -/

def halfFmt (bf : Bool) : Fmt := if bf then .bf16 else .f16
def loHalf (x : Word) : Nat := x.toNat % 65536
def hiHalf (x : Word) : Nat := x.toNat / 65536
/-- Half i of an operand after its negation. -/
def hsrc (bf neg : Bool) (hi : Bool) (x : Word) : Nat := fnegate (halfFmt bf) neg (if hi then hiHalf x else loHalf x)
/-- Two half results in one register; a flag of either half is set once (R80). -/
def packHalves (l : Nat) (d : VReg) (lo hi : FRes) : LaneOut := outF l d (BitVec.ofNat 32 (lo.v + hi.v * 65536)) (lo.fl ||| hi.fl)

/-- Two packed sources. -/
def packed2 (h : Head) (d a b : VReg) (na nb bf : Bool) (f : Nat → Nat → FRes) (s : State) : Out :=
  .next (laneA (aluReq h (one [d, a, b])) h.dsm (fun v l =>
    packHalves l d (f (hsrc bf na false (v.r l a)) (hsrc bf nb false (v.r l b)))
      (f (hsrc bf na true (v.r l a)) (hsrc bf nb true (v.r l b)))) s)

/-- HADD2. -/
def execHadd2 (h : Head) (d a b : VReg) (na nb bf : Bool) (rnd : Rm) (s : State) : Out :=
  packed2 h d a b na nb bf (fadd (halfFmt bf) rnd) s
/-- HMUL2. -/
def execHmul2 (h : Head) (d a b : VReg) (na nb bf : Bool) (rnd : Rm) (s : State) : Out :=
  packed2 h d a b na nb bf (fmul (halfFmt bf) rnd) s
/-- HFMA2. -/
def execHfma2 (h : Head) (d a b c : VReg) (na nb nc bf : Bool) (rnd : Rm) (s : State) : Out :=
  .next (laneA (aluReq h (one [d, a, b, c])) h.dsm (fun v l =>
    let half := fun hi => ffma (halfFmt bf) rnd (hsrc bf na hi (v.r l a)) (hsrc bf nb hi (v.r l b)) (hsrc bf nc hi (v.r l c))
    packHalves l d (half false) (half true)) s)
/-- HMIN2. -/
def execHmin2 (h : Head) (d a b : VReg) (na nb bf : Bool) (s : State) : Out :=
  packed2 h d a b na nb bf (fminmax (halfFmt bf) false) s
/-- HMAX2. -/
def execHmax2 (h : Head) (d a b : VReg) (na nb bf : Bool) (s : State) : Out :=
  packed2 h d a b na nb bf (fminmax (halfFmt bf) true) s
/-- HCMP2: the low half's result to pD, the high half's to p(D+1). -/
def execHcmp2 (h : Head) (pd : PReg) (a b : VReg) (cmp : FCmp) (bf : Bool) (comb : Option (CombOp × PSrc)) (s : State) : Out :=
  .next (laneA (aluReq h (one [a, b]) (pd :: (pd + 1) :: combPreds comb)) h.dsm (fun v l =>
    let half := fun hi => fcompare (halfFmt bf) cmp (hsrc bf false hi (v.r l a)) (hsrc bf false hi (v.r l b))
    { lane := l, ps := [(pd, combined v l comb (half false).1), (pd + 1, combined v l comb (half true).1)],
      fl := (half false).2 ||| (half true).2 }) s)

/-! ## Conversions (R130 to R132) -/

def ikWide : IKind → Bool | .s32 => false | .u32 => false | .s64 => true | .u64 => true
def ikSigned : IKind → Bool | .s32 => true | .u32 => false | .s64 => true | .u64 => false

/-- A floating-point source of a kind: a 16-bit kind reads the selected half. -/
def fkSrc (k : FKind) (hi : Bool) (x : Word) : Nat :=
  match k with
  | .f32 => x.toNat
  | .f16 => if hi then hiHalf x else loHalf x
  | .bf16 => if hi then hiHalf x else loHalf x

/-- CVTFI. -/
def execCvtfi (h : Head) (d a : VReg) (ik : IKind) (fk : FKind) (hi : Bool) (rnd : Rm) (s : State) : Out :=
  .next (laneA (aluReq h ((if ikWide ik then two [d] else one [d]) ++ one [a])) h.dsm (fun v l =>
    let r := fToInt (fmtOf fk) ik rnd (fkSrc fk hi (v.r l a))
    if ikWide ik then { out2 l d (low64 r.1) with fl := r.2 } else { out1 l d (low32 r.1) with fl := r.2 }) s)

/-- CVTIF. -/
def execCvtif (h : Head) (d a : VReg) (ik : IKind) (fk : FKind) (rnd : Rm) (s : State) : Out :=
  .next (laneA (aluReq h ((if ikWide ik then two [a] else one [a]) ++ one [d])) h.dsm (fun v l =>
    outFR l d (intToF (fmtOf fk) rnd (if ikWide ik then extS64 (ikSigned ik) (v.r64 l a) else extS (ikSigned ik) (v.r l a)))) s)

/-- CVTFF: a kind to itself leaves a number unchanged. -/
def execCvtff (h : Head) (d a : VReg) (dk ak : FKind) (hi : Bool) (rnd : Rm) (s : State) : Out :=
  .next (laneA (aluReq h (one [d, a])) h.dsm (fun v l =>
    outFR l d (fconv (fmtOf dk) (fmtOf ak) rnd (fkSrc ak hi (v.r l a)))) s)

/-! ## Bit planes (R133 to R136) -/

/-- The slot of a grid. -/
def slotAt (lr : LaunchRec) (n : FSlot) : Slot := slotOf (fsRead lr n)
/-- A slot of kind BPI or INT8 (R85). -/
def planeSlot (x : Site) (n : FSlot) : Bool := (slotAt x.lr n).kind.isInt

/-- BPQ's result for one value under a scale byte. -/
def bpqOne (sl : Slot) (byte : Byte) (x : Word) : FRes :=
  let v := fdec .f32 x.toNat
  match v with
  | .nan _ => ⟨0, Flags.nv⟩
  | .inf neg => ⟨if sl.sat then ((if neg then (codeRange sl).1 else (codeRange sl).2) % 256).toNat else 0, Flags.nv⟩
  | .fin _ _ _ => roundTo sl v.q (scaleVal byte)

/-- The finite values of the contributing lanes. -/
def finiteVals (v : LView) (a : VReg) : List Q :=
  v.act.filterMap fun l =>
    let x := fdec .f32 (v.r l a).toNat
    match x with
    | .fin _ _ _ => some x.q
    | .nan _ => none
    | .inf _ => none

/-- BPQ. -/
def execBpq (h : Head) (d a b : VReg) (fs : FSlot) (xs : Bool) (s : State) : Out :=
  .next (laneA { aluReq h (one (if xs then [d, a, b] else [d, a])) with
      ok := fun x => planeSlot x fs && (!xs || (slotAt x.lr fs).scaled) } h.dsm (fun v l =>
    let sl := slotAt v.lr fs
    let byte : Byte :=
      if xs then (v.r l b).extractLsb' 0 8
      else if sl.scaled then blockScale sl (finiteVals v a) else 0x80
    let r := bpqOne sl byte (v.r l a)
    outF l d (0#16 ++ byte ++ BitVec.ofNat 8 r.v) r.fl) s)

/-- BPDQ: exact, with +0 for a zero code. -/
def execBpdq (h : Head) (d a : VReg) (fs : FSlot) (s : State) : Out :=
  .next (laneA { aluReq h (one [d, a]) with ok := fun x => planeSlot x fs } h.dsm (fun v l =>
    let sl := slotAt v.lr fs
    let t := planeValue ((v.r l a).extractLsb' 0 8) sl.k sl.sgn sl.mid
    let sc := if sl.scaled then scaleVal ((v.r l a).extractLsb' 8 8) else Q.ofInt 1
    out1 l d (BitVec.ofNat 32 (froundZ .f32 .rn ((Q.ofInt t).mul sc) false).v)) s)

/-- BPPK: lane l receives the plane word of plane 7 − (l mod 8). -/
def execBppk (h : Head) (d a : VReg) (s : State) : Out :=
  .next (laneA (aluReq h (one [d, a])) h.dsm (fun v l =>
    let b := 7 - l % 8
    out1 l d (maskOf (v.act.filter fun m => (v.r m a).getLsbD b))) s)

/-- BPUPK: only lanes 0 to k − 1 are read. -/
def execBpupk (h : Head) (d a : VReg) (fs : FSlot) (s : State) : Out :=
  .next (laneA { aluReq h (one [d, a]) with ok := fun x => planeSlot x fs } h.dsm (fun v l =>
    let k := (slotAt v.lr fs).k
    out1 l d (maskOf ((List.range 8).filter fun b => 8 - k ≤ b && v.act.contains (7 - b) && (v.r (7 - b) a).getLsbD l))) s)

end Sys2Proof.Machine
end

