-- ==== Sys2Proof/Machine/Exchange.lean ====
section
/-! DEFINITION. Predicate and exchange instructions, 0x100 to 0x13F (R109 to R117). -/

namespace Sys2Proof.Machine

/-! ## Predicates (R109, R110) -/

/-- PLOP. -/
def execPlop (h : Head) (pd : PReg) (a b : PSrc) (tt : BitVec 4) (s : State) : Out :=
  .next (laneA (aluReq h [] [pd, a.p, b.p]) h.dsm (fun v l => outP l pd (tt.getLsbD (2 * (v.p l a).toNat + (v.p l b).toNat))) s)

/-- The predicates that PMOV moves. -/
def allPreds : List PReg := [0, 1, 2, 3, 4, 5, 6]

/-- PMOV. -/
def execPmov (h : Head) (f : PmovForm) (s : State) : Out :=
  match f with
  | .toV d => .next (laneA (aluReq h (one [d]) allPreds) h.dsm (fun v l => out1 l d (0#24 ++ 1#1 ++ (v.thr l).preds)) s)
  | .fromV mask a =>
    .next (laneA (aluReq h (one [a]) allPreds) h.dsm (fun v l =>
      { lane := l, ps := (List.range 7).filterMap fun i =>
          if mask.getLsbD i then some (BitVec.ofNat 3 i, (v.r l a).getLsbD i) else none }) s)

/-! ## Shuffles (R111, R112) -/

/-- The source lane of a shuffle; none is out of range. -/
def shflSrc (m : ShflMode) (l n : Nat) : Option Nat :=
  let k : Int := match m with
    | .idx => n
    | .back => (l : Int) - n
    | .fwd => l + n
    | .xor => ((l ^^^ n : Nat) : Int)
  if k < 0 || 31 < k then none else some k.toNat

/-- What lane l receives. -/
def shflVal (v : LView) (a : VReg) (m : ShflMode) (own : Bool) (l n : Nat) : Word :=
  match shflSrc m l n with
  | none => if own then v.r l a else 0
  | some k => if v.act.contains k then v.r k a else 0

/-- SHFL, lane operand in a register. -/
def execShfl (h : Head) (d a b : VReg) (mode : ShflMode) (own : Bool) (s : State) : Out :=
  .next (laneA (aluReq h (one [d, a, b])) h.dsm (fun v l => out1 l d (shflVal v a mode own l (v.r l b).toNat)) s)
/-- SHFL, lane operand immediate. -/
def execShflImm (h : Head) (d a : VReg) (imm : BitVec 5) (mode : ShflMode) (own : Bool) (s : State) : Out :=
  .next (laneA (aluReq h (one [d, a])) h.dsm (fun v l => out1 l d (shflVal v a mode own l imm.toNat)) s)

/-! ## Votes, matches, reductions (R113 to R115) -/

/-- What VOTE names. -/
def voteReq (h : Head) (d : VReg) (mode : VoteMode) (a : PSrc) : Req :=
  match mode with
  | .mask | .count => aluReq h (one [d]) [a.p]
  | .all | .any | .same | .most => aluReq h [] [d.extractLsb' 0 3, a.p]

/-- VOTE writes a vector register in the mask and count modes; D names a predicate otherwise. -/
def execVote (h : Head) (d : VReg) (mode : VoteMode) (a : PSrc) (s : State) : Out :=
  let yes := fun (v : LView) => v.act.filter fun l => v.p l a
  let p : PReg := d.extractLsb' 0 3
  .next (laneA (voteReq h d mode a) h.dsm (fun v l =>
    let n := (yes v).length
    match mode with
    | .all => outP l p (n = v.act.length)
    | .any => outP l p (n ≠ 0)
    | .same => outP l p (n = 0 || n = v.act.length)
    | .most => outP l p (v.act.length < 2 * n)
    | .mask => out1 l d (maskOf (yes v))
    | .count => out1 l d (BitVec.ofNat 32 n)) s)

/-- MATCH. -/
def execMatchV (h : Head) (d a : VReg) (mode : MatchMode) (b64 : Bool) (s : State) : Out :=
  let val := fun (v : LView) l => if b64 then v.r64 l a else (v.r l a).zeroExtend 64
  .next (laneL (aluReq h (one [d] ++ (if b64 then two [a] else one [a]))) h (fun v l =>
    let same := v.act.filter fun m => val v m = val v l
    match mode with
    | .mask => out1 l d (maskOf same)
    | .lead => out1 l d (BitVec.ofNat 32 (same.headD 0))
    | .uniq => out1 l d (BitVec.ofNat 32 (v.act.map (val v)).eraseDups.length)) s)

/-- One level of the fixed tree of R81: position i takes i + d where i is a multiple of 2d; flags accumulate. -/
def faddLevel (d : Nat) (x : List FRes) : List FRes :=
  (List.range x.length).map fun i =>
    let a := x.getD i ⟨0, 0⟩
    if i % (2 * d) = 0 then
      let b := x.getD (i + d) ⟨0, 0⟩
      let r := fadd .f32 .rn a.v b.v
      ⟨r.v, r.fl ||| a.fl ||| b.fl⟩
    else a

/-- The sum over 32 lane positions (R81). -/
def faddTree (x : List FRes) : FRes := ([1, 2, 4, 8, 16].foldl (fun y d => faddLevel d y) x).getD 0 ⟨0, 0⟩

/-- The combination of values by an integer operation. -/
def reduxInt (op : ReduxOp) (sgn : Bool) : List Word → Word
  | [] => 0
  | x :: xs => xs.foldl (fun a b => match op with
      | .add => a + b
      | .min => minS sgn a b
      | .max => maxS sgn a b
      | .and => a &&& b
      | .or => a ||| b
      | .xor => a ^^^ b
      | .fadd => a) x

/-- REDUX. -/
def execRedux (h : Head) (d a : VReg) (op : ReduxOp) (sgn scan : Bool) (s : State) : Out :=
  .next (laneL (aluReq h (one [d, a])) h (fun v l =>
    match op with
    | .fadd =>
      outFR l d (faddTree ((List.range 32).map fun m => ⟨if v.act.contains m then (v.r m a).toNat else 0, 0⟩))
    | .add | .min | .max | .and | .or | .xor =>
      out1 l d (reduxInt op sgn ((v.act.filter fun m => !scan || m ≤ l).map fun m => v.r m a))) s)

end Sys2Proof.Machine
end

