-- ==== Sys2Proof/Machine/Dispatch.lean ====
section
/-! DEFINITION. The one dispatch: each constructor of `Instr` to its meaning. -/

namespace Sys2Proof.Machine

open Sys2Proof

def exec (i : Instr) (s : State) : Host.Outcome State Fault Refusal :=
  match i with
  | .iadd h d a b m => Sys2Proof.Machine.execIadd h d a b m s
  | .iaddImm h d a imm m => Sys2Proof.Machine.execIaddImm h d a imm m s
  | .isub h d a b m => Sys2Proof.Machine.execIsub h d a b m s
  | .isubImm h d a imm m => Sys2Proof.Machine.execIsubImm h d a imm m s
  | .iaddx h d a b c cc => Sys2Proof.Machine.execIaddx h d a b c cc s
  | .ineg h d a sat => Sys2Proof.Machine.execIneg h d a sat s
  | .iabs h d a sat => Sys2Proof.Machine.execIabs h d a sat s
  | .imin h d a b sgn => Sys2Proof.Machine.execImin h d a b sgn s
  | .iminImm h d a imm sgn => Sys2Proof.Machine.execIminImm h d a imm sgn s
  | .imax h d a b sgn => Sys2Proof.Machine.execImax h d a b sgn s
  | .imaxImm h d a imm sgn => Sys2Proof.Machine.execImaxImm h d a imm sgn s
  | .imul h d a b => Sys2Proof.Machine.execImul h d a b s
  | .imulImm h d a imm => Sys2Proof.Machine.execImulImm h d a imm s
  | .imulh h d a b sgn => Sys2Proof.Machine.execImulh h d a b sgn s
  | .imulhImm h d a imm sgn => Sys2Proof.Machine.execImulhImm h d a imm sgn s
  | .imulw h d a b sgn => Sys2Proof.Machine.execImulw h d a b sgn s
  | .imad h d a b c => Sys2Proof.Machine.execImad h d a b c s
  | .imadw h d a b c sgn => Sys2Proof.Machine.execImadw h d a b c sgn s
  | .idiv h d a b sgn => Sys2Proof.Machine.execIdiv h d a b sgn s
  | .imod h d a b sgn => Sys2Proof.Machine.execImod h d a b sgn s
  | .and h d a b => Sys2Proof.Machine.execAnd h d a b s
  | .andImm h d a imm => Sys2Proof.Machine.execAndImm h d a imm s
  | .or h d a b => Sys2Proof.Machine.execOr h d a b s
  | .orImm h d a imm => Sys2Proof.Machine.execOrImm h d a imm s
  | .xor h d a b => Sys2Proof.Machine.execXor h d a b s
  | .xorImm h d a imm => Sys2Proof.Machine.execXorImm h d a imm s
  | .andn h d a b => Sys2Proof.Machine.execAndn h d a b s
  | .andnImm h d a imm => Sys2Proof.Machine.execAndnImm h d a imm s
  | .not h d a => Sys2Proof.Machine.execNot h d a s
  | .lop3 h d a b c tt => Sys2Proof.Machine.execLop3 h d a b c tt s
  | .lop3Hi h d a b c tt => Sys2Proof.Machine.execLop3Hi h d a b c tt s
  | .shl h d a b wrap => Sys2Proof.Machine.execShl h d a b wrap s
  | .shlImm h d a imm wrap => Sys2Proof.Machine.execShlImm h d a imm wrap s
  | .shr h d a b sgn wrap => Sys2Proof.Machine.execShr h d a b sgn wrap s
  | .shrImm h d a imm sgn wrap => Sys2Proof.Machine.execShrImm h d a imm sgn wrap s
  | .shf h d a b c right wrap => Sys2Proof.Machine.execShf h d a b c right wrap s
  | .rot h d a b right => Sys2Proof.Machine.execRot h d a b right s
  | .rotImm h d a imm right => Sys2Proof.Machine.execRotImm h d a imm right s
  | .bfx h d a b sgn => Sys2Proof.Machine.execBfx h d a b sgn s
  | .bfi h d a b c => Sys2Proof.Machine.execBfi h d a b c s
  | .popc h d a => Sys2Proof.Machine.execPopc h d a s
  | .clz h d a => Sys2Proof.Machine.execClz h d a s
  | .ffs h d a => Sys2Proof.Machine.execFfs h d a s
  | .brev h d a => Sys2Proof.Machine.execBrev h d a s
  | .icmp h pd a b cmp sgn comb => Sys2Proof.Machine.execIcmp h pd a b cmp sgn comb s
  | .icmpImm h pd a imm cmp sgn => Sys2Proof.Machine.execIcmpImm h pd a imm cmp sgn s
  | .isel h d a b c => Sys2Proof.Machine.execIsel h d a b c s
  | .mov h d a => Sys2Proof.Machine.execMov h d a s
  | .movi h d imm m => Sys2Proof.Machine.execMovi h d imm m s
  | .movg h d n m => Sys2Proof.Machine.execMovg h d n m s
  | .lea h d a b sgn sh => Sys2Proof.Machine.execLea h d a b sgn sh s
  | .leaImm h d a imm sgn sh => Sys2Proof.Machine.execLeaImm h d a imm sgn sh s
  | .add64 h d a b => Sys2Proof.Machine.execAdd64 h d a b s
  | .add64Imm h d a imm => Sys2Proof.Machine.execAdd64Imm h d a imm s
  | .sub64 h d a b => Sys2Proof.Machine.execSub64 h d a b s
  | .shl64 h d a b wrap => Sys2Proof.Machine.execShl64 h d a b wrap s
  | .shl64Imm h d a imm wrap => Sys2Proof.Machine.execShl64Imm h d a imm wrap s
  | .shr64 h d a b sgn wrap => Sys2Proof.Machine.execShr64 h d a b sgn wrap s
  | .shr64Imm h d a imm sgn wrap => Sys2Proof.Machine.execShr64Imm h d a imm sgn wrap s
  | .icmp64 h pd a b cmp sgn comb => Sys2Proof.Machine.execIcmp64 h pd a b cmp sgn comb s
  | .fadd h d a b na nb rnd => Sys2Proof.Machine.execFadd h d a b na nb rnd s
  | .fsub h d a b na nb rnd => Sys2Proof.Machine.execFsub h d a b na nb rnd s
  | .fmul h d a b na nb rnd => Sys2Proof.Machine.execFmul h d a b na nb rnd s
  | .ffma h d a b c na nb nc rnd => Sys2Proof.Machine.execFfma h d a b c na nb nc rnd s
  | .fmin h d a b na nb => Sys2Proof.Machine.execFmin h d a b na nb s
  | .fmax h d a b na nb => Sys2Proof.Machine.execFmax h d a b na nb s
  | .fcmp h pd a b cmp comb => Sys2Proof.Machine.execFcmp h pd a b cmp comb s
  | .frnd h d a na rnd => Sys2Proof.Machine.execFrnd h d a na rnd s
  | .fclass h d a => Sys2Proof.Machine.execFclass h d a s
  | .frcp h d a na rnd => Sys2Proof.Machine.execFrcp h d a na rnd s
  | .frsq h d a na => Sys2Proof.Machine.execFrsq h d a na s
  | .fsqrt h d a na rnd => Sys2Proof.Machine.execFsqrt h d a na rnd s
  | .fex2 h d a na => Sys2Proof.Machine.execFex2 h d a na s
  | .flg2 h d a na => Sys2Proof.Machine.execFlg2 h d a na s
  | .fsin h d a na => Sys2Proof.Machine.execFsin h d a na s
  | .fcos h d a na => Sys2Proof.Machine.execFcos h d a na s
  | .hadd2 h d a b na nb bf rnd => Sys2Proof.Machine.execHadd2 h d a b na nb bf rnd s
  | .hmul2 h d a b na nb bf rnd => Sys2Proof.Machine.execHmul2 h d a b na nb bf rnd s
  | .hfma2 h d a b c na nb nc bf rnd => Sys2Proof.Machine.execHfma2 h d a b c na nb nc bf rnd s
  | .hmin2 h d a b na nb bf => Sys2Proof.Machine.execHmin2 h d a b na nb bf s
  | .hmax2 h d a b na nb bf => Sys2Proof.Machine.execHmax2 h d a b na nb bf s
  | .hcmp2 h pd a b cmp bf comb => Sys2Proof.Machine.execHcmp2 h pd a b cmp bf comb s
  | .cvtfi h d a ik fk hi rnd => Sys2Proof.Machine.execCvtfi h d a ik fk hi rnd s
  | .cvtif h d a ik fk rnd => Sys2Proof.Machine.execCvtif h d a ik fk rnd s
  | .cvtff h d a dk ak hi rnd => Sys2Proof.Machine.execCvtff h d a dk ak hi rnd s
  | .bpq h d a b fs xs => Sys2Proof.Machine.execBpq h d a b fs xs s
  | .bpdq h d a fs => Sys2Proof.Machine.execBpdq h d a fs s
  | .bppk h d a => Sys2Proof.Machine.execBppk h d a s
  | .bpupk h d a fs => Sys2Proof.Machine.execBpupk h d a fs s
  | .plop h pd a b tt => Sys2Proof.Machine.execPlop h pd a b tt s
  | .pmov h f => Sys2Proof.Machine.execPmov h f s
  | .shfl h d a b mode own => Sys2Proof.Machine.execShfl h d a b mode own s
  | .shflImm h d a imm mode own => Sys2Proof.Machine.execShflImm h d a imm mode own s
  | .vote h d mode a => Sys2Proof.Machine.execVote h d mode a s
  | .matchV h d a mode b64 => Sys2Proof.Machine.execMatchV h d a mode b64 s
  | .redux h d a op sgn scan => Sys2Proof.Machine.execRedux h d a op sgn scan s
  | .ld h d a imm w sx na sp => Sys2Proof.Machine.execLd h d a imm w sx na sp s
  | .st h d a imm w sp => Sys2Proof.Machine.execSt h d a imm w sp s
  | .ldk h d a imm w sx => Sys2Proof.Machine.execLdk h d a imm w sx s
  | .ldx h d a imm w sx => Sys2Proof.Machine.execLdx h d a imm w sx s
  | .stx h d a imm w => Sys2Proof.Machine.execStx h d a imm w s
  | .gath h d a b ix ew sx sp => Sys2Proof.Machine.execGath h d a b ix ew sx sp s
  | .scat h d a b ix ew sp => Sys2Proof.Machine.execScat h d a b ix ew sp s
  | .ldl h d a imm => Sys2Proof.Machine.execLdl h d a imm s
  | .stl h d a imm => Sys2Proof.Machine.execStl h d a imm s
  | .lyld h d a imm => Sys2Proof.Machine.execLyld h d a imm s
  | .lydrop h a => Sys2Proof.Machine.execLydrop h a s
  | .cinv h a imm lvl => Sys2Proof.Machine.execCinv h a imm lvl s
  | .pref h a imm lvl => Sys2Proof.Machine.execPref h a imm lvl s
  | .twalk h d a b n => Sys2Proof.Machine.execTwalk h d a b n s
  | .atom h d a imm os op => Sys2Proof.Machine.execAtom h d a imm os op s
  | .acas h d a b c os w64 => Sys2Proof.Machine.execAcas h d a b c os w64 s
  | .ared h d a imm os op => Sys2Proof.Machine.execAred h d a imm os op s
  | .fence h kind uo scope => Sys2Proof.Machine.execFence h kind uo scope s
  | .pfence h mask => Sys2Proof.Machine.execPfence h mask s
  | .semp h sem n scope => Sys2Proof.Machine.execSemp h sem n scope s
  | .semw h sem n scope => Sys2Proof.Machine.execSemw h sem n scope s
  | .semx h sem n => Sys2Proof.Machine.execSemx h sem n s
  | .arrive h d sem n scope rp => Sys2Proof.Machine.execArrive h d sem n scope rp s
  | .waitph h d sem phi scope src => Sys2Proof.Machine.execWaitph h d sem phi scope src s
  | .bufs h buf st scope => Sys2Proof.Machine.execBufs h buf st scope s
  | .bufw h buf st ph scope => Sys2Proof.Machine.execBufw h buf st ph scope s
  | .cpy h a b dir bid sz rel => Sys2Proof.Machine.execCpy h a b dir bid sz rel s
  | .cpyl h a b c bid full rel => Sys2Proof.Machine.execCpyl h a b c bid full rel s
  | .cpyd h fs a b c bid full rel tab => Sys2Proof.Machine.execCpyd h fs a b c bid full rel tab s
  | .cbld h a tab => Sys2Proof.Machine.execCbld h a tab s
  | .cpyc h d a bid sem => Sys2Proof.Machine.execCpyc h d a bid sem s
  | .crwait h d a => Sys2Proof.Machine.execCrwait h d a s
  | .crpop h a n => Sys2Proof.Machine.execCrpop h a n s
  | .gathn h d a b ix ew bid full rel => Sys2Proof.Machine.execGathn h d a b ix ew bid full rel s
  | .vreg h d a b pol => Sys2Proof.Machine.execVreg h d a b pol s
  | .vdrop h a => Sys2Proof.Machine.execVdrop h a s
  | .vsync h d a cur => Sys2Proof.Machine.execVsync h d a cur s
  | .vgen h d a view => Sys2Proof.Machine.execVgen h d a view s
  | .vpol h a pol => Sys2Proof.Machine.execVpol h a pol s
  | .vstat h d a clr => Sys2Proof.Machine.execVstat h d a clr s
  | .spawn h a b prio => Sys2Proof.Machine.execSpawn h a b prio s
  | .spawnc h d a b c prio => Sys2Proof.Machine.execSpawnc h d a b c prio s
  | .done h a n => Sys2Proof.Machine.execDone h a n s
  | .enq h a b try_ => Sys2Proof.Machine.execEnq h a b try_ s
  | .deq h d a try_ => Sys2Proof.Machine.execDeq h d a try_ s
  | .klaunch h a b cnt => Sys2Proof.Machine.execKlaunch h a b cnt s
  | .bra h off => Sys2Proof.Machine.execBra h off s
  | .brx h a off sh => Sys2Proof.Machine.execBrx h a off sh s
  | .call h a off => Sys2Proof.Machine.execCall h a off s
  | .callx h a => Sys2Proof.Machine.execCallx h a s
  | .ret h a => Sys2Proof.Machine.execRet h a s
  | .join => Sys2Proof.Machine.execJoin s
  | .exit g => Sys2Proof.Machine.execExit g s
  | .nop g => Sys2Proof.Machine.execNop g s
  | .waitdc g mask n => Sys2Proof.Machine.execWaitdc g mask n s
  | .trap g code => Sys2Proof.Machine.execTrap g code s
  | .tfence g => Sys2Proof.Machine.execTfence g s
  | .yield n => Sys2Proof.Machine.execYield n s
  | .rth => Sys2Proof.Machine.execRth s
  | .sread h d sel m => Sys2Proof.Machine.execSread h d sel m s
  | .bkpt g code => Sys2Proof.Machine.execBkpt g code s
  | .swrite g a sel pair => Sys2Proof.Machine.execSwrite g a sel pair s
  | .ebset h a => Sys2Proof.Machine.execEbset h a s
  | .pmctl h a n op => Sys2Proof.Machine.execPmctl h a n op s
  | .trctl h a mode k => Sys2Proof.Machine.execTrctl h a mode k s
  | .ctxsave h a => Sys2Proof.Machine.execCtxsave h a s
  | .halt code => Sys2Proof.Machine.execHalt code s
  | .qbind h a b st sc n => Sys2Proof.Machine.execQbind h a b st sc n s
  | .qrel h st => Sys2Proof.Machine.execQrel h st s
  | .mma x ga fsa fsb ec acc st => Sys2Proof.Machine.execMma x ga fsa fsb ec acc st s
  | .smma x ga fsa fsb ec acc => Sys2Proof.Machine.execSmma x ga fsa fsb ec acc s
  | .gmov x gd ga => Sys2Proof.Machine.execGmov x gd ga s
  | .gmovi x gd imm m => Sys2Proof.Machine.execGmovi x gd imm m s
  | .gadd x gd ga src sub => Sys2Proof.Machine.execGadd x gd ga src sub s
  | .gmul x gd ga src => Sys2Proof.Machine.execGmul x gd ga src s
  | .gshl x gd ga src op => Sys2Proof.Machine.execGshl x gd ga src op s
  | .gcmp x qd ga src cmp sgn => Sys2Proof.Machine.execGcmp x qd ga src cmp sgn s
  | .gld x gd ga imm sp => Sys2Proof.Machine.execGld x gd ga imm sp s
  | .gbra x off => Sys2Proof.Machine.execGbra x off s
  | .gloop x gd off => Sys2Proof.Machine.execGloop x gd off s
  | .qset x qd src => Sys2Proof.Machine.execQset x qd src s
  | .qlop x qd qa qb na nb tt => Sys2Proof.Machine.execQlop x qd qa qb na nb tt s
  | .mend => Sys2Proof.Machine.execMend s
  | .accz x acc hash => Sys2Proof.Machine.execAccz x acc hash s
  | .jmac x gd ga gb fsa fsb ec acc stop => Sys2Proof.Machine.execJmac x gd ga gb fsa fsb ec acc stop s
  | .jins x gd ga fsa acc stop => Sys2Proof.Machine.execJins x gd ga fsa acc stop s
  | .accsp x acc buf => Sys2Proof.Machine.execAccsp x acc buf s
  | .accdr x gd ga fsa acc od clr full => Sys2Proof.Machine.execAccdr x gd ga fsa acc od clr full s
  | .acccnt x gd acc => Sys2Proof.Machine.execAcccnt x gd acc s
  | .packetNop q len bar => Sys2Proof.Machine.execPacketNop q len bar s
  | .launch q bar rec cop => Sys2Proof.Machine.execLaunch q bar rec cop s
  | .packetFence q bar es => Sys2Proof.Machine.execPacketFence q bar es s
  | .signal q bar op addr val => Sys2Proof.Machine.execSignal q bar op addr val s
  | .edge q bar consumer k desc => Sys2Proof.Machine.execEdge q bar consumer k desc s
  | .inval q bar len ranges => Sys2Proof.Machine.execInval q bar len ranges s
  | .timestamp q bar addr => Sys2Proof.Machine.execTimestamp q bar addr s
  | .errClear q => Sys2Proof.Machine.execErrClear q s
  | .readAhead q => Sys2Proof.Machine.execReadAhead q s
  | .queueParse q => Sys2Proof.Machine.execQueueParse q s
  | .contextRegister part debug desc => Sys2Proof.Machine.execContextRegister part debug desc s
  | .queueRegister q ctx va => Sys2Proof.Machine.execQueueRegister q ctx va s
  | .partitionConfig r => Sys2Proof.Machine.execPartitionConfig r s
  | .clusterMove c src dst deadline => Sys2Proof.Machine.execClusterMove c src dst deadline s
  | .translationInvalidate ctx base len => Sys2Proof.Machine.execTranslationInvalidate ctx base len s
  | .rdcResize die code => Sys2Proof.Machine.execRdcResize die code s
  | .savePoolRegister part slots => Sys2Proof.Machine.execSavePoolRegister part slots s
  | .coreImageAreaRegister ctx addr => Sys2Proof.Machine.execCoreImageAreaRegister ctx addr s
  | .hostChannelBind ch ctx => Sys2Proof.Machine.execHostChannelBind ch ctx s
  | .cinchIdAssign id routes => Sys2Proof.Machine.execCinchIdAssign id routes s
  | .contextEnd ctx => Sys2Proof.Machine.execContextEnd ctx s
  | .checkpoint parts => Sys2Proof.Machine.execCheckpoint parts s
  | .attestationReport nonce => Sys2Proof.Machine.execAttestationReport nonce s
  | .debugStop core part => Sys2Proof.Machine.execDebugStop core part s
  | .debugResume core part => Sys2Proof.Machine.execDebugResume core part s
  | .debugRegisterWrite t => Sys2Proof.Machine.execDebugRegisterWrite t s
  | .teamPlace core => Sys2Proof.Machine.execTeamPlace core s
  | .issueSelect core slot => Sys2Proof.Machine.execIssueSelect core slot s
  | .clauseFetch who => Sys2Proof.Machine.execClauseFetch who s
  | .transferResolve team slot => Sys2Proof.Machine.execTransferResolve team slot s
  | .formation core => Sys2Proof.Machine.execFormation core s
  | .joinRelease team role => Sys2Proof.Machine.execJoinRelease team role s
  | .teamComplete team => Sys2Proof.Machine.execTeamComplete team s
  | .gridComplete grid => Sys2Proof.Machine.execGridComplete grid s
  | .longLatencyComplete op => Sys2Proof.Machine.execLongLatencyComplete op s
  | .storeDrain core n => Sys2Proof.Machine.execStoreDrain core n s
  | .bufferTransition team buf => Sys2Proof.Machine.execBufferTransition team buf s
  | .semaphoreWaitRelease who => Sys2Proof.Machine.execSemaphoreWaitRelease who s
  | .bufferWaitRelease who => Sys2Proof.Machine.execBufferWaitRelease who s
  | .classWWaitRelease who => Sys2Proof.Machine.execClassWWaitRelease who s
  | .edgeRetry who => Sys2Proof.Machine.execEdgeRetry who s
  | .batchComplete batch => Sys2Proof.Machine.execBatchComplete batch s
  | .ringFullRetry batch => Sys2Proof.Machine.execRingFullRetry batch s
  | .chunkPost batch => Sys2Proof.Machine.execChunkPost batch s
  | .copyRequestComplete op => Sys2Proof.Machine.execCopyRequestComplete op s
  | .awlBurst op => Sys2Proof.Machine.execAwlBurst op s
  | .uncorrectableError w => Sys2Proof.Machine.execUncorrectableError w s
  | .skiverRefresh ctx slot block => Sys2Proof.Machine.execSkiverRefresh ctx slot block s
  | .matrixComplete op => Sys2Proof.Machine.execMatrixComplete op s
  | .energyDebitWaitEnd team => Sys2Proof.Machine.execEnergyDebitWaitEnd team s
  | .budgetRefill ctx => Sys2Proof.Machine.execBudgetRefill ctx s
  | .qbindLatch team stage => Sys2Proof.Machine.execQbindLatch team stage s
  | .sequencerTrapDelivery team => Sys2Proof.Machine.execSequencerTrapDelivery team s
  | .cooperativeSave team => Sys2Proof.Machine.execCooperativeSave team s
  | .preemptDeadline team => Sys2Proof.Machine.execPreemptDeadline team s
  | .savePoolWaitEnd team => Sys2Proof.Machine.execSavePoolWaitEnd team s
  | .nearArrayRebalance core => Sys2Proof.Machine.execNearArrayRebalance core s
  | .packetPoll q => Sys2Proof.Machine.execPacketPoll q s
  | .traceSync core => Sys2Proof.Machine.execTraceSync core s
  | .directoryRequest pa r => Sys2Proof.Machine.execDirectoryRequest pa r s
  | .directoryMerge quad base size => Sys2Proof.Machine.execDirectoryMerge quad base size s
  | .fabricInboundRequest pkg ctx a => Sys2Proof.Machine.execFabricInboundRequest pkg ctx a s
  | .flitCrcRetry port => Sys2Proof.Machine.execFlitCrcRetry port s
  | .linkPortFail port => Sys2Proof.Machine.execLinkPortFail port s
  | .hostChannelAccess ch a => Sys2Proof.Machine.execHostChannelAccess ch a s
  | .correctedError r => Sys2Proof.Machine.execCorrectedError r s
  | .spareActivation u => Sys2Proof.Machine.execSpareActivation u s
  | .dieFaultReplay die => Sys2Proof.Machine.execDieFaultReplay die s
  | .journalFull => Sys2Proof.Machine.execJournalFull s
  | .firmwareVerify image sig => Sys2Proof.Machine.execFirmwareVerify image sig s
  | .thermalThrottle part prefill => Sys2Proof.Machine.execThermalThrottle part prefill s
  | .sample core part => Sys2Proof.Machine.execSample core part s
  | .coreReset core => Sys2Proof.Machine.execCoreReset core s
  | .preemptRequest team deadline => Sys2Proof.Machine.execPreemptRequest team deadline s
  | .debuggerAttach ctx attach => Sys2Proof.Machine.execDebuggerAttach ctx attach s
  | .fabricAccessOpen ctx => Sys2Proof.Machine.execFabricAccessOpen ctx s
  | .criticalTemperature save => Sys2Proof.Machine.execCriticalTemperature save s

end Sys2Proof.Machine
end

