-- ==== Sys2Proof/Machine/Step.lean ====
section
/-! DEFINITION. One step of the machine: the word of the issuer whose turn it is, else the first event that is due, else the
event whose turn it is or a free one (R154, log 4). -/

namespace Sys2Proof.Machine

/-- Runs what an issuer's next word is. -/
def runFetched : Fetched → State → Host.Outcome State Fault Refusal
  | .word i, s => exec i s
  | .state s, _ => .next s

/-- One step. -/
def step (s : State) : Host.Outcome State Fault Refusal :=
  if s.stopped then .fault .packageStopped
  else match s.issuer with
    | some (.group t k) => settle s true (groupStep s t k (runFetched (fetchGroup s t k) s))
    | some (.seq t) => settle s true (runFetched (fetchSeq s t) s)
    | some (.packet q) => settle s true (runFetched (fetchPacket s q) s)
    | none =>
      match s.agenda with
      | e :: rest => settle s false (exec e { s with agenda := rest })
      | [] => settle s false (countFair (match openEvent s with
        | some e => exec e s
        | none => .next s))

/-- The state with a word placed as what the next step fetches and runs (log 3). -/
def State.withFetchWord (s : State) (nbits w : Nat) : State :=
  placeWord s (bytesWord (wordBytes (BitVec.ofNat 64 (w % 2 ^ min nbits 64))))

end Sys2Proof.Machine
end

