-- ==== Sys2Proof/Laws/Format.lean ====
section
/-! SUPPORT. Packing and unpacking of instruction words, and the inverses of the field decoders. -/

namespace Sys2Proof.Laws
theorem extract_append_low {m n : Nat} (x : BitVec m) (y : BitVec n) (s k : Nat) (h : s + k ≤ n) :
    BitVec.extractLsb' s k (no_index (x ++ y)) = y.extractLsb' s k := by
  ext i hi
  simp only [BitVec.getElem_extractLsb', BitVec.getLsbD_append]
  rw [if_pos (by omega)]

theorem extract_append_high {m n : Nat} (x : BitVec m) (y : BitVec n) (s k : Nat) (h : n ≤ s) :
    BitVec.extractLsb' s k (no_index (x ++ y)) = x.extractLsb' (s - n) k := by
  ext i hi
  simp only [BitVec.getElem_extractLsb', BitVec.getLsbD_append]
  rw [if_neg (by omega)]
  congr 1
  omega

theorem extract_all {n : Nat} (x : BitVec n) : x.extractLsb' 0 n = x := by
  ext i hi
  simp

theorem unpackR_packR (f : RWord) : unpackR (packR f) = f := by
  simp (disch := decide) only [unpackR, packR, extract_append_low, extract_append_high, extract_all, Nat.reduceSub]
theorem unpackK_packK (f : KWord) : unpackK (packK f) = f := by
  simp (disch := decide) only [unpackK, packK, extract_append_low, extract_append_high, extract_all, Nat.reduceSub]
theorem unpackX_packX (f : XWord) : unpackX (packX f) = f := by
  simp (disch := decide) only [unpackX, packX, extract_append_low, extract_append_high, extract_all, Nat.reduceSub]
theorem unpackXK_packXK (f : XKWord) : unpackXK (packXK f) = f := by
  simp (disch := decide) only [unpackXK, packXK, extract_append_low, extract_append_high, extract_all, Nat.reduceSub]

/-! ## Single bits of a concatenation -/

theorem bit_append_low {m n : Nat} (x : BitVec m) (y : BitVec n) (k : Nat) (h : k < n) :
    BitVec.getLsbD (no_index (x ++ y)) k = y.getLsbD k := by
  rw [BitVec.getLsbD_append, if_pos h]

theorem bit_append_high {m n : Nat} (x : BitVec m) (y : BitVec n) (k : Nat) (h : n ≤ k) :
    BitVec.getLsbD (no_index (x ++ y)) k = x.getLsbD (k - n) := by
  rw [BitVec.getLsbD_append, if_neg (by omega)]

theorem bit_bitB (b : Bool) : (bitB b).getLsbD 0 = b := by cases b <;> rfl
theorem bitB_one (b : Bool) : (bitB b = 1) = (b = true) := by cases b <;> decide
theorem extract_zero {n s k : Nat} : (0#n).extractLsb' s k = 0#k := by
  ext i hi
  simp

/-! ## Field decoders undo field encoders -/

theorem guardOf_bits (g : Guard) : guardOf (guardBits g) = g := by
  obtain ⟨n, p⟩ := g
  revert n p; decide
theorem psrcOf_bits (p : PSrc) : psrcOf (psrcBits p) = some p := by
  obtain ⟨n, p⟩ := p
  revert n p; decide
theorem pdstOf_bits (p : PReg) : pdstOf (pdstBits p) = some p := by revert p; decide
theorem addModOf_bits (m : AddMod) (h : m.ok = true) : addModOf (addModBits m) = some m := by
  obtain ⟨_ | p, s, g⟩ := m
  · revert s g h; decide
  · revert p s g h; decide
theorem ccOf_bits (c : Option PReg) : ccOf (ccBits c) = some c := by
  cases c with
  | none => decide
  | some p => revert p; decide
theorem combOf_bits (c : Option (CombOp × PSrc)) : combOf (combBits c) (combC c) = some c := by
  obtain _ | ⟨o, p⟩ := c
  · decide
  · cases o <;> simp [combOf, combBits, combC, psrcOf_bits]
theorem cmpOf_bits (c : Cmp) : cmpOf (cmpBits c) = some c := by cases c <;> rfl
theorem fcmpOf_bits (c : FCmp) : fcmpOf (fcmpBits c) = c := by cases c <;> rfl
theorem rmOf_bits (r : Rm) : rmOf (rmBits r) = r := by cases r <;> rfl
theorem halfOf_bits (x : Half) : halfOf (halfBits x) = some x := by cases x <;> rfl
theorem ikOf_bits (x : IKind) : ikOf (ikBits x) = x := by cases x <;> rfl
theorem fkOf_bits (x : FKind) : fkOf (fkBits x) = some x := by cases x <;> rfl
theorem shflOf_bits (x : ShflMode) : shflOf (shflBits x) = x := by cases x <;> rfl
theorem voteOf_bits (x : VoteMode) : voteOf (voteBits x) = some x := by cases x <;> rfl
theorem matchOf_bits (x : MatchMode) : matchOf (matchBits x) = some x := by cases x <;> rfl
theorem reduxOf_bits (x : ReduxOp) : reduxOf (reduxBits x) = some x := by cases x <;> rfl
theorem widthOf_bits (x : Width) : widthOf (widthBits x) = some x := by cases x <;> rfl
theorem ewOf_bits (x : EWidth) : ewOf (ewBits x) = x := by cases x <;> rfl
theorem scopeOf_bits (x : Scope) : scopeOf (scopeBits x) = some x := by cases x <;> rfl
theorem fkindOf_bits (x : FenceKind) : fkindOf (fkindBits x) = x := by cases x <;> rfl
theorem aopOf_bits (x : AtomOp) : aopOf (aopBits x) = x := by cases x <;> rfl
theorem bstOf_bits (x : BufState) : bstOf (bstBits x) = x := by cases x <;> rfl
theorem cdirOf_bits (x : CpyDir) : cdirOf (cdirBits x) = x := by cases x <;> rfl
theorem cszOf_bits (x : CpySz) : cszOf (cszBits x) = some x := by cases x <;> rfl
theorem polOf_bits (x : ViewPol) : polOf (polBits x) = some x := by cases x <;> rfl
theorem pmOf_bits (x : PmOp) : pmOf (pmBits x) = x := by cases x <;> rfl
theorem trOf_bits (x : TrMode) : trOf (trBits x) = x := by cases x <;> rfl
theorem cinvOf_bits (x : CinvLvl) : cinvOf (cinvBits x) = some x := by cases x <;> rfl
theorem prefOf_bits (x : PrefLvl) : prefOf (prefBits x) = some x := by cases x <;> rfl
theorem gmoviOf_bits (x : GmoviForm) : gmoviOf (gmoviBits x) = some x := by cases x <;> rfl
theorem gshOf_bits (x : GshOp) : gshOf (gshBits x) = some x := by cases x <;> rfl
theorem ordOf_bits (x : DrOrd) : ordOf (ordBits x) = some x := by cases x <;> rfl
theorem gsrc9Of_bits (x : GSrc9) : gsrc9Of x.im x.v x.gb = some x := by cases x <;> simp [gsrc9Of, GSrc9.im, GSrc9.v, GSrc9.gb]
theorem gsrc6Of_bits (x : GSrc6) : gsrc6Of x.im x.v x.gb = some x := by cases x <;> simp [gsrc6Of, GSrc6.im, GSrc6.v, GSrc6.gb]
theorem indexOf_bits (i : Index) (e : EWidth) (h : le4 i.sc = true) : indexOf (indexBits i e) = some (i, e) := by
  obtain ⟨iw, is, sc⟩ := i
  cases iw <;> cases is <;> cases e <;> (revert sc h; decide)

/-! ## MOD in its usual shapes -/

theorem mSgn_s (s : Bool) : (mSgn s).getLsbD 4 = s := by cases s <;> rfl
theorem mSgn_z (s : Bool) : mSgn s &&& 0x6F = 0 := by cases s <;> rfl
theorem mWrap_w (w s : Bool) : (mWrap w s).getLsbD 5 = w := by cases w <;> cases s <;> rfl
theorem mWrap_s (w s : Bool) : (mWrap w s).getLsbD 4 = s := by cases w <;> cases s <;> rfl
theorem mWrap_zw (w : Bool) : mWrap w false &&& 0x5F = 0 := by cases w <;> rfl
theorem mWrap_one (w : Bool) : mWrap w true &&& 0x5F = 0x10 := by cases w <;> rfl
theorem mWrap_z (w s : Bool) : mWrap w s &&& 0x4F = 0 := by cases w <;> cases s <;> rfl
theorem mShf_w (w r : Bool) : (mWrap w false ||| mLow1 r).getLsbD 5 = w := by cases w <;> cases r <;> rfl
theorem mShf_r (w r : Bool) : (mWrap w false ||| mLow1 r).getLsbD 0 = r := by cases w <;> cases r <;> rfl
theorem mShf_z (w r : Bool) : (mWrap w false ||| mLow1 r) &&& 0x5E = 0 := by cases w <;> cases r <;> rfl
theorem mLow1_b (b : Bool) : (mLow1 b).getLsbD 0 = b := by cases b <;> rfl
theorem mLow1_z (b : Bool) : mLow1 b &&& 0x7E = 0 := by cases b <;> rfl
theorem mLow1_h (b : Bool) : (mLow1 b).extractLsb' 1 6 = 0 := by cases b <;> rfl
theorem mF_nc (nc nb na h : Bool) (r : Rm) : (mF nc nb na h r).getLsbD 6 = nc := by revert nc nb na h; cases r <;> decide
theorem mF_nb (nc nb na h : Bool) (r : Rm) : (mF nc nb na h r).getLsbD 5 = nb := by revert nc nb na h; cases r <;> decide
theorem mF_na (nc nb na h : Bool) (r : Rm) : (mF nc nb na h r).getLsbD 4 = na := by revert nc nb na h; cases r <;> decide
theorem mF_h (nc nb na h : Bool) (r : Rm) : (mF nc nb na h r).getLsbD 3 = h := by revert nc nb na h; cases r <;> decide
theorem mF_r (nc nb na h : Bool) (r : Rm) : rmOf ((mF nc nb na h r).extractLsb' 0 2) = r := by
  revert nc nb na h; cases r <;> decide
theorem mF_z2 (nb na : Bool) (r : Rm) : mF false nb na false r &&& 0x4C = 0 := by revert nb na; cases r <;> decide
theorem mF_z3 (nc nb na : Bool) (r : Rm) : mF nc nb na false r &&& 0x0C = 0 := by revert nc nb na; cases r <;> decide
theorem mF_zm (nb na : Bool) : mF false nb na false .rn &&& 0x4F = 0 := by revert nb na; decide
theorem mF_zt (na : Bool) (r : Rm) : mF false false na false r &&& 0x6C = 0 := by revert na; cases r <;> decide
theorem mF_zn (na : Bool) : mF false false na false .rn &&& 0x6F = 0 := by revert na; decide
theorem mF_zh (nb na h : Bool) (r : Rm) : mF false nb na h r &&& 0x44 = 0 := by revert nb na h; cases r <;> decide
theorem mF_zc (nc nb na h : Bool) (r : Rm) : mF nc nb na h r &&& 0x04 = 0 := by revert nc nb na h; cases r <;> decide
theorem mF_zx (nb na h : Bool) : mF false nb na h .rn &&& 0x47 = 0 := by revert nb na h; decide
theorem mCmp_c (cb : Option (CombOp × PSrc)) (s : Bool) (c : Cmp) : (mCmp cb s c).extractLsb' 0 3 = cmpBits c := by
  simp (disch := decide) only [mCmp, extract_append_low, extract_all]
theorem mCmp_k (cb : Option (CombOp × PSrc)) (s : Bool) (c : Cmp) : (mCmp cb s c).extractLsb' 5 2 = combBits cb := by
  simp (disch := decide) only [mCmp, extract_append_high, Nat.reduceSub, extract_all]
theorem mCmp_s (cb : Option (CombOp × PSrc)) (s : Bool) (c : Cmp) : (mCmp cb s c).getLsbD 4 = s := by
  simp (disch := decide) only [mCmp, bit_append_low, bit_append_high, bit_bitB, Nat.reduceSub]
theorem mCmp_0 (cb : Option (CombOp × PSrc)) (s : Bool) (c : Cmp) : (mCmp cb s c).getLsbD 3 = false := by
  simp (disch := decide) only [mCmp, bit_append_low, bit_append_high, Nat.reduceSub]
  rfl
theorem mCmp_z (s : Bool) (c : Cmp) : mCmp none s c &&& 0x68 = 0 := by cases s <;> cases c <;> rfl
theorem mPrio_n (n : BitVec 4) : (mPrio (some n)).extractLsb' 0 4 = n := by revert n; decide
theorem mPrio_z (n : BitVec 4) : (mPrio (some n)).extractLsb' 5 2 = 0 := by revert n; decide
theorem mPrio_i (n : BitVec 4) : (mPrio (some n)).getLsbD 4 = false := by revert n; decide
theorem mask_lea (s : Bool) (sh : BitVec 3) : (0#2 ++ bitB s ++ 0#1 ++ sh : BitVec 7) &&& 0x68 = 0 := by revert s sh; decide
theorem mask_fcmp (b : BitVec 2) (c : BitVec 3) : (b ++ 0#2 ++ c : BitVec 7) &&& 0x18 = 0 := by revert b c; decide
theorem mask_redux (b s : Bool) (o : BitVec 3) : (0#1 ++ bitB b ++ bitB s ++ 0#1 ++ o : BitVec 7) &&& 0x48 = 0 := by
  revert b s o; decide
theorem mask_st (s : Bool) (o : BitVec 3) : (0#2 ++ bitB s ++ 0#1 ++ o : BitVec 7) &&& 0x68 = 0 := by revert s o; decide
theorem mask_ldk (s : Bool) (o : BitVec 3) : (0#3 ++ bitB s ++ o : BitVec 7) &&& 0x70 = 0 := by revert s o; decide
theorem mask_stx (o : BitVec 3) : (0#4 ++ o : BitVec 7) &&& 0x78 = 0 := by revert o; decide
theorem mask_gath (a b : Bool) : (0#5 ++ bitB a ++ bitB b : BitVec 7) &&& 0x7C = 0 := by revert a b; decide
theorem mask_scat (a : Bool) : (0#5 ++ bitB a ++ 0#1 : BitVec 7) &&& 0x7D = 0 := by revert a; decide
theorem mask_cpyc (b : BitVec 2) : (0#3 ++ b ++ 0#2 : BitVec 7) &&& 0x73 = 0 := by revert b; decide
theorem zext_mask (m : BitVec 6) : (0#10 ++ m : BitVec 16) = 0#16 ↔ m = 0#6 := by revert m; decide
theorem zext_yield (n : BitVec 9) : (0#7 ++ n : BitVec 16).toNat = n.toNat := by
  exact (BitVec.toNat_append (0#7) n).trans (by simp)
theorem headX_mk (x : HeadX) : HeadX.mk (decide (bitB x.tn = 1)) x.tq x.xdc = x := by
  obtain ⟨_ | _, _, _⟩ := x <;> rfl

/-! ## Words -/

theorem decode_of {w : DWord} {i : Instr} {x : Option Instr} (h : decode w = .of (some x)) (hx : x = some i) : decode w = .ok i := by
  rw [h, hx, Decoded.of]

theorem decode_int {f : RWord} {i : Instr} {x : Option Instr} (o : Nat) (ho : f.opc.toNat = o) (hlt : o < 0x080)
    (hd : ∀ k, decodeInt f k = some x) (hx : x = some i) : decode (packR f) = .ok i := by
  subst ho
  exact decode_of (by simp only [decode, unpackR_packR, hd, if_pos hlt]) hx
theorem decode_float {f : RWord} {i : Instr} {x : Option Instr} (o : Nat) (ho : f.opc.toNat = o) (hlt : ¬o < 0x080 ∧ o < 0x100)
    (hd : decodeFloat f = some x) (hx : x = some i) : decode (packR f) = .ok i := by
  subst ho
  exact decode_of (by simp only [decode, unpackR_packR, hd, if_neg hlt.1, if_pos hlt.2]) hx
theorem decode_exch {f : RWord} {i : Instr} {x : Option Instr} (o : Nat) (ho : f.opc.toNat = o)
    (hlt : ¬o < 0x080 ∧ ¬o < 0x100 ∧ o < 0x140)
    (hd : decodeExch f = some x) (hx : x = some i) : decode (packR f) = .ok i := by
  subst ho
  exact decode_of (by simp only [decode, unpackR_packR, hd, if_neg hlt.1, if_neg hlt.2.1, if_pos hlt.2.2]) hx
theorem decode_mem {f : RWord} {i : Instr} {x : Option Instr} (o : Nat) (ho : f.opc.toNat = o)
    (hlt : (¬o < 0x080 ∧ ¬o < 0x100 ∧ ¬o < 0x140) ∧ o < 0x1C0)
    (hd : decodeMem f = some x) (hx : x = some i) : decode (packR f) = .ok i := by
  subst ho
  obtain ⟨⟨h1, h2, h3⟩, h4⟩ := hlt
  exact decode_of (by simp only [decode, unpackR_packR, hd, if_neg h1, if_neg h2, if_neg h3, if_pos h4]) hx
theorem decode_sync {f : RWord} {i : Instr} {x : Option Instr} (o : Nat) (ho : f.opc.toNat = o)
    (hlt : (¬o < 0x080 ∧ ¬o < 0x100 ∧ ¬o < 0x140) ∧ ¬o < 0x1C0 ∧ o < 0x200)
    (hd : decodeSync f = some x) (hx : x = some i) : decode (packR f) = .ok i := by
  subst ho
  obtain ⟨⟨h1, h2, h3⟩, h4, h5⟩ := hlt
  exact decode_of (by simp only [decode, unpackR_packR, hd, if_neg h1, if_neg h2, if_neg h3, if_neg h4, if_pos h5]) hx
theorem decode_copy {f : RWord} {i : Instr} {x : Option Instr} (o : Nat) (ho : f.opc.toNat = o)
    (hlt : (¬o < 0x080 ∧ ¬o < 0x100 ∧ ¬o < 0x140) ∧ ¬o < 0x1C0 ∧ ¬o < 0x200 ∧ o < 0x280)
    (hd : decodeCopy f = some x) (hx : x = some i) : decode (packR f) = .ok i := by
  subst ho
  obtain ⟨⟨h1, h2, h3⟩, h4, h5, h6⟩ := hlt
  exact decode_of (by simp only [decode, unpackR_packR, hd, if_neg h1, if_neg h2, if_neg h3, if_neg h4, if_neg h5, if_pos h6]) hx
theorem decode_ctl {f : RWord} {i : Instr} {x : Option Instr} (o : Nat) (ho : f.opc.toNat = o)
    (hlt : (¬o < 0x080 ∧ ¬o < 0x100 ∧ ¬o < 0x140) ∧ ¬o < 0x1C0 ∧ ¬o < 0x200 ∧ ¬o < 0x280 ∧ o < 0x300)
    (hd : ∀ k, decodeCtl f k = some x) (hx : x = some i) : decode (packR f) = .ok i := by
  subst ho
  obtain ⟨⟨h1, h2, h3⟩, h4, h5, h6, h7⟩ := hlt
  exact decode_of (by
    simp only [decode, unpackR_packR, hd, if_neg h1, if_neg h2, if_neg h3, if_neg h4, if_neg h5, if_neg h6, if_pos h7]) hx
theorem decode_mtx {f : RWord} {i : Instr} {x : Option Instr} (o : Nat) (ho : f.opc.toNat = o)
    (hlt : (¬o < 0x080 ∧ ¬o < 0x100 ∧ ¬o < 0x140) ∧ ¬o < 0x1C0 ∧ ¬o < 0x200 ∧ ¬o < 0x280 ∧ ¬o < 0x300)
    (hd : ∀ y k, decodeMtx f y k = some x) (hx : x = some i) : decode (packR f) = .ok i := by
  subst ho
  obtain ⟨⟨h1, h2, h3⟩, h4, h5, h6, h7⟩ := hlt
  exact decode_of (by
    simp only [decode, unpackR_packR, hd, if_neg h1, if_neg h2, if_neg h3, if_neg h4, if_neg h5, if_neg h6, if_neg h7]) hx

/-- OPC lies in the same place in every format. -/
theorem opc_K (f : KWord) : (unpackR (packK f)).opc = f.opc := by
  simp (disch := decide) only [unpackR, packK, extract_append_low, extract_append_high, extract_all, Nat.reduceSub]
theorem prd_K (f : KWord) : (unpackR (packK f)).prd = f.prd := by
  simp (disch := decide) only [unpackR, packK, extract_append_low, extract_append_high, extract_all, Nat.reduceSub]
theorem opc_X (f : XWord) : (unpackR (packX f)).opc = f.opc := by
  simp (disch := decide) only [unpackR, packX, extract_append_low, extract_append_high, extract_all, Nat.reduceSub]
theorem opc_XK (f : XKWord) : (unpackR (packXK f)).opc = f.opc := by
  simp (disch := decide) only [unpackR, packXK, extract_append_low, extract_append_high, extract_all, Nat.reduceSub]

theorem eta_K (f : KWord) : unpackR (packK f) = { unpackR (packK f) with opc := f.opc, prd := f.prd } := by
  rw [← opc_K f, ← prd_K f]
theorem eta_X (f : XWord) : unpackR (packX f) = { unpackR (packX f) with opc := f.opc } := by rw [← opc_X f]
theorem eta_XK (f : XKWord) : unpackR (packXK f) = { unpackR (packXK f) with opc := f.opc } := by rw [← opc_XK f]

theorem decode_intK {f : KWord} {i : Instr} {x : Option Instr} (o : Nat) (ho : f.opc.toNat = o) (hlt : o < 0x080)
    (hd : ∀ s d a b c l e m, decodeInt ⟨f.opc, f.prd, s, d, a, b, c, l, e, m⟩ f = some x) (hx : x = some i) :
    decode (packK f) = .ok i := by
  subst ho
  exact decode_of (by rw [decode, unpackK_packK, eta_K, hd]; simp only [if_pos hlt]) hx
theorem decode_ctlK {f : KWord} {i : Instr} {x : Option Instr} (o : Nat) (ho : f.opc.toNat = o)
    (hlt : (¬o < 0x080 ∧ ¬o < 0x100 ∧ ¬o < 0x140) ∧ ¬o < 0x1C0 ∧ ¬o < 0x200 ∧ ¬o < 0x280 ∧ o < 0x300)
    (hd : ∀ s d a b c l e m, decodeCtl ⟨f.opc, f.prd, s, d, a, b, c, l, e, m⟩ f = some x) (hx : x = some i) :
    decode (packK f) = .ok i := by
  subst ho
  obtain ⟨⟨h1, h2, h3⟩, h4, h5, h6, h7⟩ := hlt
  exact decode_of (by
    rw [decode, unpackK_packK, eta_K, hd]
    simp only [if_neg h1, if_neg h2, if_neg h3, if_neg h4, if_neg h5, if_neg h6, if_pos h7]) hx
theorem decode_mtxX {f : XWord} {i : Instr} {x : Option Instr} (o : Nat) (ho : f.opc.toNat = o)
    (hlt : (¬o < 0x080 ∧ ¬o < 0x100 ∧ ¬o < 0x140) ∧ ¬o < 0x1C0 ∧ ¬o < 0x200 ∧ ¬o < 0x280 ∧ ¬o < 0x300)
    (hd : ∀ p s d a b c l e m k, decodeMtx ⟨f.opc, p, s, d, a, b, c, l, e, m⟩ f k = some x) (hx : x = some i) :
    decode (packX f) = .ok i := by
  subst ho
  obtain ⟨⟨h1, h2, h3⟩, h4, h5, h6, h7⟩ := hlt
  exact decode_of (by
    rw [decode, unpackX_packX, eta_X, hd]
    simp only [if_neg h1, if_neg h2, if_neg h3, if_neg h4, if_neg h5, if_neg h6, if_neg h7]) hx
theorem decode_mtxXK {f : XKWord} {i : Instr} {x : Option Instr} (o : Nat) (ho : f.opc.toNat = o)
    (hlt : (¬o < 0x080 ∧ ¬o < 0x100 ∧ ¬o < 0x140) ∧ ¬o < 0x1C0 ∧ ¬o < 0x200 ∧ ¬o < 0x280 ∧ ¬o < 0x300)
    (hd : ∀ p s d a b c l e m y, decodeMtx ⟨f.opc, p, s, d, a, b, c, l, e, m⟩ y f = some x) (hx : x = some i) :
    decode (packXK f) = .ok i := by
  subst ho
  obtain ⟨⟨h1, h2, h3⟩, h4, h5, h6, h7⟩ := hlt
  exact decode_of (by
    rw [decode, unpackXK_packXK, eta_XK, hd]
    simp only [if_neg h1, if_neg h2, if_neg h3, if_neg h4, if_neg h5, if_neg h6, if_neg h7]) hx

/-! ## Field classes of a packed word -/

theorem head_mk (o : BitVec 10) (h : Head) (d a b c : BitVec 8) (m : BitVec 7) :
    (RWord.mk o (guardBits h.guard) h.dsm d a b c h.la h.dc m).head = h := by
  simp only [RWord.head, guardOf_bits]
theorem isA_mk (o : BitVec 10) (p : BitVec 4) (h : Head) (d a b c : BitVec 8) (m : BitVec 7) :
    (RWord.mk o p h.dsm d a b c h.la h.dc m).isA = h.isA := rfl
theorem isP_mk (o : BitVec 10) (p : BitVec 4) (h : Head) (d a b c : BitVec 8) (m : BitVec 7) :
    (RWord.mk o p h.dsm d a b c h.la h.dc m).isP = h.isP := rfl
theorem isL_mk (o : BitVec 10) (p : BitVec 4) (h : Head) (d a b c : BitVec 8) (m : BitVec 7) :
    (RWord.mk o p h.dsm d a b c h.la h.dc m).isL = h.isL := rfl
theorem isN_mk (o : BitVec 10) (p : BitVec 4) (h : Head) (d a b c : BitVec 8) (m : BitVec 7) :
    (RWord.mk o p h.dsm d a b c h.la h.dc m).isN = h.isN := rfl
theorem imm_mk (o : BitVec 10) (p s : BitVec 4) (d a : BitVec 8) (i : BitVec 16) (l : BitVec 4) (c : BitVec 3) (m : BitVec 7) :
    (RWord.mk o p s d a (i.extractLsb' 8 8) (i.extractLsb' 0 8) l c m).imm = i := by
  have h : i.extractLsb' 8 8 ++ i.extractLsb' 0 8 = i := by
    ext j hj
    simp only [BitVec.getElem_append, BitVec.getElem_extractLsb']
    split
    · simp [BitVec.getLsbD_eq_getElem hj]
    · rw [Nat.add_sub_cancel' (by omega), BitVec.getLsbD_eq_getElem hj]
  exact h
theorem req_true (i : Instr) : req true i = some i := rfl

end Sys2Proof.Laws
end

