-- ==== Sys2Proof/Laws/PerInstr.lean ====
section
/-! SUPPORT. Decoding undoes encoding, instruction by instruction. -/

namespace Sys2Proof.Laws

/-- Decoding the word of a well-formed instruction gives the instruction. -/
def Encodes.Statement (i : Instr) : Prop := i.wf = true → ∀ w, encode i = some w → decode w = .ok i

theorem Encodes.of {i : Instr} {c : Bool} {w : DWord} (hc : i.wf = c) (he : encode i = some w)
    (h : c = true → decode w = .ok i) : Encodes.Statement i := by
  intro hw v hv
  rw [he] at hv
  cases hv
  exact h (hc ▸ hw)
theorem Encodes.none {i : Instr} (he : encode i = Option.none) : Encodes.Statement i := by
  intro _ w h
  rw [he] at h
  cases h
theorem Encodes.iadd (h : Head) (d : VReg) (a : VReg) (b : VReg) (m : AddMod) :
    Encodes.Statement (.iadd h d a b m) := by
  refine Encodes.of (c := h.isA && m.ok) rfl rfl fun hw => decode_int 0x000 rfl (by decide) (fun _ => rfl) ?_
  simp only [Bool.and_eq_true] at hw
  simp only [head_mk, isA_mk]
  simp (disch := decide) only [addModOf_bits _ hw.2]
  simp_all [req]
theorem Encodes.iaddImm (h : Head) (d : VReg) (a : VReg) (imm : BitVec 16) (m : AddMod) :
    Encodes.Statement (.iaddImm h d a imm m) := by
  refine Encodes.of (c := h.isA && m.ok) rfl rfl fun hw => decode_int 0x040 rfl (by decide) (fun _ => rfl) ?_
  simp only [Bool.and_eq_true] at hw
  simp only [head_mk, isA_mk, imm_mk]
  simp (disch := decide) only [addModOf_bits _ hw.2]
  simp_all [req]
theorem Encodes.isub (h : Head) (d : VReg) (a : VReg) (b : VReg) (m : AddMod) :
    Encodes.Statement (.isub h d a b m) := by
  refine Encodes.of (c := h.isA && m.ok) rfl rfl fun hw => decode_int 0x001 rfl (by decide) (fun _ => rfl) ?_
  simp only [Bool.and_eq_true] at hw
  simp only [head_mk, isA_mk]
  simp (disch := decide) only [addModOf_bits _ hw.2]
  simp_all [req]
theorem Encodes.isubImm (h : Head) (d : VReg) (a : VReg) (imm : BitVec 16) (m : AddMod) :
    Encodes.Statement (.isubImm h d a imm m) := by
  refine Encodes.of (c := h.isA && m.ok) rfl rfl fun hw => decode_int 0x041 rfl (by decide) (fun _ => rfl) ?_
  simp only [Bool.and_eq_true] at hw
  simp only [head_mk, isA_mk, imm_mk]
  simp (disch := decide) only [addModOf_bits _ hw.2]
  simp_all [req]
theorem Encodes.iaddx (h : Head) (d : VReg) (a : VReg) (b : VReg) (c : PSrc) (cc : Option PReg) :
    Encodes.Statement (.iaddx h d a b c cc) := by
  refine Encodes.of (c := h.isA) rfl rfl fun hw => decode_int 0x002 rfl (by decide) (fun _ => rfl) ?_
  simp only [head_mk, isA_mk]
  simp (disch := decide) only [psrcOf_bits, ccOf_bits]
  simp_all [req]
theorem Encodes.ineg (h : Head) (d : VReg) (a : VReg) (sat : Bool) : Encodes.Statement (.ineg h d a sat) := by
  refine Encodes.of (c := h.isA) rfl rfl fun hw => decode_int 0x003 rfl (by decide) (fun _ => rfl) ?_
  simp only [head_mk, isA_mk]
  simp (disch := decide) only [mWrap_w, mWrap_one]
  simp_all [req]
theorem Encodes.iabs (h : Head) (d : VReg) (a : VReg) (sat : Bool) : Encodes.Statement (.iabs h d a sat) := by
  refine Encodes.of (c := h.isA) rfl rfl fun hw => decode_int 0x004 rfl (by decide) (fun _ => rfl) ?_
  simp only [head_mk, isA_mk]
  simp (disch := decide) only [mWrap_w, mWrap_one]
  simp_all [req]
theorem Encodes.imin (h : Head) (d : VReg) (a : VReg) (b : VReg) (sgn : Bool) :
    Encodes.Statement (.imin h d a b sgn) := by
  refine Encodes.of (c := h.isA) rfl rfl fun hw => decode_int 0x005 rfl (by decide) (fun _ => rfl) ?_
  simp only [head_mk, isA_mk]
  simp (disch := decide) only [mSgn_s, mSgn_z]
  simp_all [req]
theorem Encodes.iminImm (h : Head) (d : VReg) (a : VReg) (imm : BitVec 16) (sgn : Bool) :
    Encodes.Statement (.iminImm h d a imm sgn) := by
  refine Encodes.of (c := h.isA) rfl rfl fun hw => decode_int 0x045 rfl (by decide) (fun _ => rfl) ?_
  simp only [head_mk, isA_mk, imm_mk]
  simp (disch := decide) only [mSgn_s, mSgn_z]
  simp_all [req]
theorem Encodes.imax (h : Head) (d : VReg) (a : VReg) (b : VReg) (sgn : Bool) :
    Encodes.Statement (.imax h d a b sgn) := by
  refine Encodes.of (c := h.isA) rfl rfl fun hw => decode_int 0x006 rfl (by decide) (fun _ => rfl) ?_
  simp only [head_mk, isA_mk]
  simp (disch := decide) only [mSgn_s, mSgn_z]
  simp_all [req]
theorem Encodes.imaxImm (h : Head) (d : VReg) (a : VReg) (imm : BitVec 16) (sgn : Bool) :
    Encodes.Statement (.imaxImm h d a imm sgn) := by
  refine Encodes.of (c := h.isA) rfl rfl fun hw => decode_int 0x046 rfl (by decide) (fun _ => rfl) ?_
  simp only [head_mk, isA_mk, imm_mk]
  simp (disch := decide) only [mSgn_s, mSgn_z]
  simp_all [req]
theorem Encodes.imul (h : Head) (d : VReg) (a : VReg) (b : VReg) : Encodes.Statement (.imul h d a b) := by
  refine Encodes.of (c := h.isA) rfl rfl fun hw => decode_int 0x007 rfl (by decide) (fun _ => rfl) ?_
  simp only [head_mk, isA_mk]
  simp_all [req]
theorem Encodes.imulImm (h : Head) (d : VReg) (a : VReg) (imm : BitVec 16) :
    Encodes.Statement (.imulImm h d a imm) := by
  refine Encodes.of (c := h.isA) rfl rfl fun hw => decode_int 0x047 rfl (by decide) (fun _ => rfl) ?_
  simp only [head_mk, isA_mk, imm_mk]
  simp_all [req]
theorem Encodes.imulh (h : Head) (d : VReg) (a : VReg) (b : VReg) (sgn : Bool) :
    Encodes.Statement (.imulh h d a b sgn) := by
  refine Encodes.of (c := h.isA) rfl rfl fun hw => decode_int 0x008 rfl (by decide) (fun _ => rfl) ?_
  simp only [head_mk, isA_mk]
  simp (disch := decide) only [mSgn_s, mSgn_z]
  simp_all [req]
theorem Encodes.imulhImm (h : Head) (d : VReg) (a : VReg) (imm : BitVec 16) (sgn : Bool) :
    Encodes.Statement (.imulhImm h d a imm sgn) := by
  refine Encodes.of (c := h.isA) rfl rfl fun hw => decode_int 0x048 rfl (by decide) (fun _ => rfl) ?_
  simp only [head_mk, isA_mk, imm_mk]
  simp (disch := decide) only [mSgn_s, mSgn_z]
  simp_all [req]
theorem Encodes.imulw (h : Head) (d : VReg) (a : VReg) (b : VReg) (sgn : Bool) :
    Encodes.Statement (.imulw h d a b sgn) := by
  refine Encodes.of (c := h.isA && even d) rfl rfl fun hw => decode_int 0x009 rfl (by decide) (fun _ => rfl) ?_
  simp only [Bool.and_eq_true] at hw
  simp only [head_mk, isA_mk]
  simp (disch := decide) only [mSgn_s, mSgn_z]
  simp_all [req]
theorem Encodes.imad (h : Head) (d : VReg) (a : VReg) (b : VReg) (c : VReg) :
    Encodes.Statement (.imad h d a b c) := by
  refine Encodes.of (c := h.isA) rfl rfl fun hw => decode_int 0x00A rfl (by decide) (fun _ => rfl) ?_
  simp only [head_mk, isA_mk]
  simp_all [req]
theorem Encodes.imadw (h : Head) (d : VReg) (a : VReg) (b : VReg) (c : VReg) (sgn : Bool) :
    Encodes.Statement (.imadw h d a b c sgn) := by
  refine Encodes.of (c := h.isA && even d && even c) rfl rfl fun hw => decode_int 0x00B rfl (by decide) (fun _ => rfl) ?_
  simp only [Bool.and_eq_true] at hw
  simp only [head_mk, isA_mk]
  simp (disch := decide) only [mSgn_s, mSgn_z]
  simp_all [req]
theorem Encodes.idiv (h : Head) (d : VReg) (a : VReg) (b : VReg) (sgn : Bool) :
    Encodes.Statement (.idiv h d a b sgn) := by
  refine Encodes.of (c := h.isL) rfl rfl fun hw => decode_int 0x00C rfl (by decide) (fun _ => rfl) ?_
  simp only [head_mk, isL_mk]
  simp (disch := decide) only [mSgn_s, mSgn_z]
  simp_all [req]
theorem Encodes.imod (h : Head) (d : VReg) (a : VReg) (b : VReg) (sgn : Bool) :
    Encodes.Statement (.imod h d a b sgn) := by
  refine Encodes.of (c := h.isL) rfl rfl fun hw => decode_int 0x00D rfl (by decide) (fun _ => rfl) ?_
  simp only [head_mk, isL_mk]
  simp (disch := decide) only [mSgn_s, mSgn_z]
  simp_all [req]
theorem Encodes.and (h : Head) (d : VReg) (a : VReg) (b : VReg) : Encodes.Statement (.and h d a b) := by
  refine Encodes.of (c := h.isA) rfl rfl fun hw => decode_int 0x00E rfl (by decide) (fun _ => rfl) ?_
  simp only [head_mk, isA_mk]
  simp_all [req]
theorem Encodes.andImm (h : Head) (d : VReg) (a : VReg) (imm : BitVec 16) :
    Encodes.Statement (.andImm h d a imm) := by
  refine Encodes.of (c := h.isA) rfl rfl fun hw => decode_int 0x04E rfl (by decide) (fun _ => rfl) ?_
  simp only [head_mk, isA_mk, imm_mk]
  simp_all [req]
theorem Encodes.or (h : Head) (d : VReg) (a : VReg) (b : VReg) : Encodes.Statement (.or h d a b) := by
  refine Encodes.of (c := h.isA) rfl rfl fun hw => decode_int 0x00F rfl (by decide) (fun _ => rfl) ?_
  simp only [head_mk, isA_mk]
  simp_all [req]
theorem Encodes.orImm (h : Head) (d : VReg) (a : VReg) (imm : BitVec 16) : Encodes.Statement (.orImm h d a imm) := by
  refine Encodes.of (c := h.isA) rfl rfl fun hw => decode_int 0x04F rfl (by decide) (fun _ => rfl) ?_
  simp only [head_mk, isA_mk, imm_mk]
  simp_all [req]
theorem Encodes.xor (h : Head) (d : VReg) (a : VReg) (b : VReg) : Encodes.Statement (.xor h d a b) := by
  refine Encodes.of (c := h.isA) rfl rfl fun hw => decode_int 0x010 rfl (by decide) (fun _ => rfl) ?_
  simp only [head_mk, isA_mk]
  simp_all [req]
theorem Encodes.xorImm (h : Head) (d : VReg) (a : VReg) (imm : BitVec 16) :
    Encodes.Statement (.xorImm h d a imm) := by
  refine Encodes.of (c := h.isA) rfl rfl fun hw => decode_int 0x050 rfl (by decide) (fun _ => rfl) ?_
  simp only [head_mk, isA_mk, imm_mk]
  simp_all [req]
theorem Encodes.andn (h : Head) (d : VReg) (a : VReg) (b : VReg) : Encodes.Statement (.andn h d a b) := by
  refine Encodes.of (c := h.isA) rfl rfl fun hw => decode_int 0x011 rfl (by decide) (fun _ => rfl) ?_
  simp only [head_mk, isA_mk]
  simp_all [req]
theorem Encodes.andnImm (h : Head) (d : VReg) (a : VReg) (imm : BitVec 16) :
    Encodes.Statement (.andnImm h d a imm) := by
  refine Encodes.of (c := h.isA) rfl rfl fun hw => decode_int 0x051 rfl (by decide) (fun _ => rfl) ?_
  simp only [head_mk, isA_mk, imm_mk]
  simp_all [req]
theorem Encodes.not (h : Head) (d : VReg) (a : VReg) : Encodes.Statement (.not h d a) := by
  refine Encodes.of (c := h.isA) rfl rfl fun hw => decode_int 0x012 rfl (by decide) (fun _ => rfl) ?_
  simp only [head_mk, isA_mk]
  simp_all [req]
theorem Encodes.lop3 (h : Head) (d : VReg) (a : VReg) (b : VReg) (c : VReg) (tt : BitVec 7) :
    Encodes.Statement (.lop3 h d a b c tt) := by
  refine Encodes.of (c := h.isA) rfl rfl fun hw => decode_int 0x013 rfl (by decide) (fun _ => rfl) ?_
  simp only [head_mk, isA_mk]
  simp_all [req]
theorem Encodes.lop3Hi (h : Head) (d : VReg) (a : VReg) (b : VReg) (c : VReg) (tt : BitVec 7) :
    Encodes.Statement (.lop3Hi h d a b c tt) := by
  refine Encodes.of (c := h.isA) rfl rfl fun hw => decode_int 0x014 rfl (by decide) (fun _ => rfl) ?_
  simp only [head_mk, isA_mk]
  simp_all [req]
theorem Encodes.shl (h : Head) (d : VReg) (a : VReg) (b : VReg) (wrap : Bool) :
    Encodes.Statement (.shl h d a b wrap) := by
  refine Encodes.of (c := h.isA) rfl rfl fun hw => decode_int 0x015 rfl (by decide) (fun _ => rfl) ?_
  simp only [head_mk, isA_mk]
  simp (disch := decide) only [mWrap_w, mWrap_zw]
  simp_all [req]
theorem Encodes.shlImm (h : Head) (d : VReg) (a : VReg) (imm : BitVec 16) (wrap : Bool) :
    Encodes.Statement (.shlImm h d a imm wrap) := by
  refine Encodes.of (c := h.isA) rfl rfl fun hw => decode_int 0x055 rfl (by decide) (fun _ => rfl) ?_
  simp only [head_mk, isA_mk, imm_mk]
  simp (disch := decide) only [mWrap_w, mWrap_zw]
  simp_all [req]
theorem Encodes.shr (h : Head) (d : VReg) (a : VReg) (b : VReg) (sgn : Bool) (wrap : Bool) :
    Encodes.Statement (.shr h d a b sgn wrap) := by
  refine Encodes.of (c := h.isA) rfl rfl fun hw => decode_int 0x016 rfl (by decide) (fun _ => rfl) ?_
  simp only [head_mk, isA_mk]
  simp (disch := decide) only [mWrap_w, mWrap_s, mWrap_z]
  simp_all [req]
theorem Encodes.shrImm (h : Head) (d : VReg) (a : VReg) (imm : BitVec 16) (sgn : Bool) (wrap : Bool) :
    Encodes.Statement (.shrImm h d a imm sgn wrap) := by
  refine Encodes.of (c := h.isA) rfl rfl fun hw => decode_int 0x056 rfl (by decide) (fun _ => rfl) ?_
  simp only [head_mk, isA_mk, imm_mk]
  simp (disch := decide) only [mWrap_w, mWrap_s, mWrap_z]
  simp_all [req]
theorem Encodes.shf (h : Head) (d : VReg) (a : VReg) (b : VReg) (c : VReg) (right : Bool) (wrap : Bool) :
    Encodes.Statement (.shf h d a b c right wrap) := by
  refine Encodes.of (c := h.isA) rfl rfl fun hw => decode_int 0x017 rfl (by decide) (fun _ => rfl) ?_
  simp only [head_mk, isA_mk]
  simp (disch := decide) only [mShf_w, mShf_r, mShf_z]
  simp_all [req]
theorem Encodes.rot (h : Head) (d : VReg) (a : VReg) (b : VReg) (right : Bool) :
    Encodes.Statement (.rot h d a b right) := by
  refine Encodes.of (c := h.isA) rfl rfl fun hw => decode_int 0x018 rfl (by decide) (fun _ => rfl) ?_
  simp only [head_mk, isA_mk]
  simp (disch := decide) only [mLow1_b, mLow1_z]
  simp_all [req]
theorem Encodes.rotImm (h : Head) (d : VReg) (a : VReg) (imm : BitVec 16) (right : Bool) :
    Encodes.Statement (.rotImm h d a imm right) := by
  refine Encodes.of (c := h.isA) rfl rfl fun hw => decode_int 0x058 rfl (by decide) (fun _ => rfl) ?_
  simp only [head_mk, isA_mk, imm_mk]
  simp (disch := decide) only [mLow1_b, mLow1_z]
  simp_all [req]
theorem Encodes.bfx (h : Head) (d : VReg) (a : VReg) (b : VReg) (sgn : Bool) :
    Encodes.Statement (.bfx h d a b sgn) := by
  refine Encodes.of (c := h.isA) rfl rfl fun hw => decode_int 0x019 rfl (by decide) (fun _ => rfl) ?_
  simp only [head_mk, isA_mk]
  simp (disch := decide) only [mSgn_s, mSgn_z]
  simp_all [req]
theorem Encodes.bfi (h : Head) (d : VReg) (a : VReg) (b : VReg) (c : VReg) : Encodes.Statement (.bfi h d a b c) := by
  refine Encodes.of (c := h.isA) rfl rfl fun hw => decode_int 0x01A rfl (by decide) (fun _ => rfl) ?_
  simp only [head_mk, isA_mk]
  simp_all [req]
theorem Encodes.popc (h : Head) (d : VReg) (a : VReg) : Encodes.Statement (.popc h d a) := by
  refine Encodes.of (c := h.isA) rfl rfl fun hw => decode_int 0x01B rfl (by decide) (fun _ => rfl) ?_
  simp only [head_mk, isA_mk]
  simp_all [req]
theorem Encodes.clz (h : Head) (d : VReg) (a : VReg) : Encodes.Statement (.clz h d a) := by
  refine Encodes.of (c := h.isA) rfl rfl fun hw => decode_int 0x01C rfl (by decide) (fun _ => rfl) ?_
  simp only [head_mk, isA_mk]
  simp_all [req]
theorem Encodes.ffs (h : Head) (d : VReg) (a : VReg) : Encodes.Statement (.ffs h d a) := by
  refine Encodes.of (c := h.isA) rfl rfl fun hw => decode_int 0x01D rfl (by decide) (fun _ => rfl) ?_
  simp only [head_mk, isA_mk]
  simp_all [req]
theorem Encodes.brev (h : Head) (d : VReg) (a : VReg) : Encodes.Statement (.brev h d a) := by
  refine Encodes.of (c := h.isA) rfl rfl fun hw => decode_int 0x01E rfl (by decide) (fun _ => rfl) ?_
  simp only [head_mk, isA_mk]
  simp_all [req]
theorem Encodes.icmp (h : Head) (pd : PReg) (a : VReg) (b : VReg) (cmp : Cmp) (sgn : Bool) (comb : Option (CombOp × PSrc)) :
    Encodes.Statement (.icmp h pd a b cmp sgn comb) := by
  refine Encodes.of (c := h.isP) rfl rfl fun hw => decode_int 0x01F rfl (by decide) (fun _ => rfl) ?_
  simp only [head_mk, isP_mk]
  simp (disch := decide) only [pdstOf_bits, combOf_bits, cmpOf_bits, mCmp_c, mCmp_k, mCmp_s, mCmp_0]
  simp_all [req]
theorem Encodes.icmpImm (h : Head) (pd : PReg) (a : VReg) (imm : BitVec 16) (cmp : Cmp) (sgn : Bool) :
    Encodes.Statement (.icmpImm h pd a imm cmp sgn) := by
  refine Encodes.of (c := h.isP) rfl rfl fun hw => decode_int 0x05F rfl (by decide) (fun _ => rfl) ?_
  simp only [head_mk, isP_mk, imm_mk]
  simp (disch := decide) only [pdstOf_bits, cmpOf_bits, mCmp_z, mCmp_c, mCmp_s]
  simp_all [req]
theorem Encodes.isel (h : Head) (d : VReg) (a : VReg) (b : VReg) (c : PSrc) :
    Encodes.Statement (.isel h d a b c) := by
  refine Encodes.of (c := h.isA) rfl rfl fun hw => decode_int 0x020 rfl (by decide) (fun _ => rfl) ?_
  simp only [head_mk, isA_mk]
  simp (disch := decide) only [psrcOf_bits]
  simp_all [req]
theorem Encodes.mov (h : Head) (d : VReg) (a : VReg) : Encodes.Statement (.mov h d a) := by
  refine Encodes.of (c := h.isA) rfl rfl fun hw => decode_int 0x021 rfl (by decide) (fun _ => rfl) ?_
  simp only [head_mk, isA_mk]
  simp_all [req]
theorem Encodes.movi (h : HeadK) (d : VReg) (imm : BitVec 32) (m : MoviForm) :
    Encodes.Statement (.movi h d imm m) := by
  refine Encodes.of (c := h.dsm ≠ 0 && (m = .w32 || even d)) rfl rfl fun hw => decode_intK 0x022 rfl (by decide) (fun _ _ _
    _ _ _ _ _ => rfl) ?_
  simp only [Bool.and_eq_true, Bool.or_eq_true, decide_eq_true_eq] at hw
  cases m <;> (simp (disch := decide) only [guardOf_bits]; simp_all [req])
theorem Encodes.movg (h : Head) (d : VReg) (n : GReg) (m : Half) : Encodes.Statement (.movg h d n m) := by
  refine Encodes.of (c := h.isA && (m ≠ .pair || even d)) rfl rfl fun hw => decode_int 0x023 rfl (by decide) (fun _ => rfl) ?_
  simp only [Bool.and_eq_true, Bool.or_eq_true, decide_eq_true_eq] at hw
  simp only [head_mk, isA_mk]
  simp (disch := decide) only [halfOf_bits, extract_append_low, extract_append_high, extract_all, extract_zero, Nat.reduceSub]
  simp_all [req]
theorem Encodes.lea (h : Head) (d : VReg) (a : VReg) (b : VReg) (sgn : Bool) (sh : BitVec 3) :
    Encodes.Statement (.lea h d a b sgn sh) := by
  refine Encodes.of (c := h.isA && even d && even a && le4 sh) rfl rfl fun hw => decode_int 0x024 rfl (by decide) (fun _ =>
    rfl) ?_
  simp only [Bool.and_eq_true] at hw
  simp only [head_mk, isA_mk]
  simp (disch := decide) only [mask_lea, extract_append_low, extract_all, bit_append_low, bit_append_high, bit_bitB,
    Nat.reduceSub]
  simp_all [req, le4]
theorem Encodes.leaImm (h : Head) (d : VReg) (a : VReg) (imm : BitVec 16) (sgn : Bool) (sh : BitVec 3) :
    Encodes.Statement (.leaImm h d a imm sgn sh) := by
  refine Encodes.of (c := h.isA && even d && even a && le4 sh) rfl rfl fun hw => decode_int 0x064 rfl (by decide) (fun _ =>
    rfl) ?_
  simp only [Bool.and_eq_true] at hw
  simp only [head_mk, isA_mk, imm_mk]
  simp (disch := decide) only [mask_lea, extract_append_low, extract_all, bit_append_low, bit_append_high, bit_bitB,
    Nat.reduceSub]
  simp_all [req, le4]
theorem Encodes.add64 (h : Head) (d : VReg) (a : VReg) (b : VReg) : Encodes.Statement (.add64 h d a b) := by
  refine Encodes.of (c := h.isA && even d && even a && even b) rfl rfl fun hw => decode_int 0x025 rfl (by decide) (fun _ =>
    rfl) ?_
  simp only [Bool.and_eq_true] at hw
  simp only [head_mk, isA_mk]
  simp_all [req]
theorem Encodes.add64Imm (h : Head) (d : VReg) (a : VReg) (imm : BitVec 16) :
    Encodes.Statement (.add64Imm h d a imm) := by
  refine Encodes.of (c := h.isA && even d && even a) rfl rfl fun hw => decode_int 0x065 rfl (by decide) (fun _ => rfl) ?_
  simp only [Bool.and_eq_true] at hw
  simp only [head_mk, isA_mk, imm_mk]
  simp_all [req]
theorem Encodes.sub64 (h : Head) (d : VReg) (a : VReg) (b : VReg) : Encodes.Statement (.sub64 h d a b) := by
  refine Encodes.of (c := h.isA && even d && even a && even b) rfl rfl fun hw => decode_int 0x026 rfl (by decide) (fun _ =>
    rfl) ?_
  simp only [Bool.and_eq_true] at hw
  simp only [head_mk, isA_mk]
  simp_all [req]
theorem Encodes.shl64 (h : Head) (d : VReg) (a : VReg) (b : VReg) (wrap : Bool) :
    Encodes.Statement (.shl64 h d a b wrap) := by
  refine Encodes.of (c := h.isA && even d && even a) rfl rfl fun hw => decode_int 0x027 rfl (by decide) (fun _ => rfl) ?_
  simp only [Bool.and_eq_true] at hw
  simp only [head_mk, isA_mk]
  simp (disch := decide) only [mWrap_w, mWrap_zw]
  simp_all [req]
theorem Encodes.shl64Imm (h : Head) (d : VReg) (a : VReg) (imm : BitVec 16) (wrap : Bool) :
    Encodes.Statement (.shl64Imm h d a imm wrap) := by
  refine Encodes.of (c := h.isA && even d && even a) rfl rfl fun hw => decode_int 0x067 rfl (by decide) (fun _ => rfl) ?_
  simp only [Bool.and_eq_true] at hw
  simp only [head_mk, isA_mk, imm_mk]
  simp (disch := decide) only [mWrap_w, mWrap_zw]
  simp_all [req]
theorem Encodes.shr64 (h : Head) (d : VReg) (a : VReg) (b : VReg) (sgn : Bool) (wrap : Bool) :
    Encodes.Statement (.shr64 h d a b sgn wrap) := by
  refine Encodes.of (c := h.isA && even d && even a) rfl rfl fun hw => decode_int 0x028 rfl (by decide) (fun _ => rfl) ?_
  simp only [Bool.and_eq_true] at hw
  simp only [head_mk, isA_mk]
  simp (disch := decide) only [mWrap_w, mWrap_s, mWrap_z]
  simp_all [req]
theorem Encodes.shr64Imm (h : Head) (d : VReg) (a : VReg) (imm : BitVec 16) (sgn : Bool) (wrap : Bool) :
    Encodes.Statement (.shr64Imm h d a imm sgn wrap) := by
  refine Encodes.of (c := h.isA && even d && even a) rfl rfl fun hw => decode_int 0x068 rfl (by decide) (fun _ => rfl) ?_
  simp only [Bool.and_eq_true] at hw
  simp only [head_mk, isA_mk, imm_mk]
  simp (disch := decide) only [mWrap_w, mWrap_s, mWrap_z]
  simp_all [req]
theorem Encodes.icmp64 (h : Head) (pd : PReg) (a : VReg) (b : VReg) (cmp : Cmp) (sgn : Bool) (comb : Option (CombOp × PSrc)) :
    Encodes.Statement (.icmp64 h pd a b cmp sgn comb) := by
  refine Encodes.of (c := h.isP && even a && even b) rfl rfl fun hw => decode_int 0x029 rfl (by decide) (fun _ => rfl) ?_
  simp only [Bool.and_eq_true] at hw
  simp only [head_mk, isP_mk]
  simp (disch := decide) only [pdstOf_bits, combOf_bits, cmpOf_bits, mCmp_c, mCmp_k, mCmp_s, mCmp_0]
  simp_all [req]
theorem Encodes.fadd (h : Head) (d : VReg) (a : VReg) (b : VReg) (na : Bool) (nb : Bool) (rnd : Rm) :
    Encodes.Statement (.fadd h d a b na nb rnd) := by
  refine Encodes.of (c := h.isA) rfl rfl fun hw => decode_float 0x080 rfl (by decide) rfl ?_
  simp only [head_mk, isA_mk]
  simp (disch := decide) only [mF_nb, mF_na, mF_r, mF_z2]
  simp_all [req]
theorem Encodes.fsub (h : Head) (d : VReg) (a : VReg) (b : VReg) (na : Bool) (nb : Bool) (rnd : Rm) :
    Encodes.Statement (.fsub h d a b na nb rnd) := by
  refine Encodes.of (c := h.isA) rfl rfl fun hw => decode_float 0x081 rfl (by decide) rfl ?_
  simp only [head_mk, isA_mk]
  simp (disch := decide) only [mF_nb, mF_na, mF_r, mF_z2]
  simp_all [req]
theorem Encodes.fmul (h : Head) (d : VReg) (a : VReg) (b : VReg) (na : Bool) (nb : Bool) (rnd : Rm) :
    Encodes.Statement (.fmul h d a b na nb rnd) := by
  refine Encodes.of (c := h.isA) rfl rfl fun hw => decode_float 0x082 rfl (by decide) rfl ?_
  simp only [head_mk, isA_mk]
  simp (disch := decide) only [mF_nb, mF_na, mF_r, mF_z2]
  simp_all [req]
theorem Encodes.ffma (h : Head) (d : VReg) (a : VReg) (b : VReg) (c : VReg) (na : Bool) (nb : Bool) (nc : Bool) (rnd : Rm) :
    Encodes.Statement (.ffma h d a b c na nb nc rnd) := by
  refine Encodes.of (c := h.isA) rfl rfl fun hw => decode_float 0x083 rfl (by decide) rfl ?_
  simp only [head_mk, isA_mk]
  simp (disch := decide) only [mF_nc, mF_nb, mF_na, mF_r, mF_z3]
  simp_all [req]
theorem Encodes.fmin (h : Head) (d : VReg) (a : VReg) (b : VReg) (na : Bool) (nb : Bool) :
    Encodes.Statement (.fmin h d a b na nb) := by
  refine Encodes.of (c := h.isA) rfl rfl fun hw => decode_float 0x084 rfl (by decide) rfl ?_
  simp only [head_mk, isA_mk]
  simp (disch := decide) only [mF_nb, mF_na, mF_zm]
  simp_all [req]
theorem Encodes.fmax (h : Head) (d : VReg) (a : VReg) (b : VReg) (na : Bool) (nb : Bool) :
    Encodes.Statement (.fmax h d a b na nb) := by
  refine Encodes.of (c := h.isA) rfl rfl fun hw => decode_float 0x085 rfl (by decide) rfl ?_
  simp only [head_mk, isA_mk]
  simp (disch := decide) only [mF_nb, mF_na, mF_zm]
  simp_all [req]
theorem Encodes.fcmp (h : Head) (pd : PReg) (a : VReg) (b : VReg) (cmp : FCmp) (comb : Option (CombOp × PSrc)) :
    Encodes.Statement (.fcmp h pd a b cmp comb) := by
  refine Encodes.of (c := h.isP) rfl rfl fun hw => decode_float 0x086 rfl (by decide) rfl ?_
  simp only [head_mk, isP_mk]
  simp (disch := decide) only [pdstOf_bits, combOf_bits, fcmpOf_bits, mask_fcmp, extract_append_low, extract_append_high,
    extract_all, Nat.reduceSub]
  simp_all [req]
theorem Encodes.frnd (h : Head) (d : VReg) (a : VReg) (na : Bool) (rnd : Rm) :
    Encodes.Statement (.frnd h d a na rnd) := by
  refine Encodes.of (c := h.isA) rfl rfl fun hw => decode_float 0x087 rfl (by decide) rfl ?_
  simp only [head_mk, isA_mk]
  simp (disch := decide) only [mF_na, mF_r, mF_zt]
  simp_all [req]
theorem Encodes.fclass (h : Head) (d : VReg) (a : VReg) : Encodes.Statement (.fclass h d a) := by
  refine Encodes.of (c := h.isA) rfl rfl fun hw => decode_float 0x088 rfl (by decide) rfl ?_
  simp only [head_mk, isA_mk]
  simp_all [req]
theorem Encodes.frcp (h : Head) (d : VReg) (a : VReg) (na : Bool) (rnd : Rm) :
    Encodes.Statement (.frcp h d a na rnd) := by
  refine Encodes.of (c := h.isL) rfl rfl fun hw => decode_float 0x089 rfl (by decide) rfl ?_
  simp only [head_mk, isL_mk]
  simp (disch := decide) only [mF_na, mF_r, mF_zt]
  simp_all [req]
theorem Encodes.frsq (h : Head) (d : VReg) (a : VReg) (na : Bool) : Encodes.Statement (.frsq h d a na) := by
  refine Encodes.of (c := h.isL) rfl rfl fun hw => decode_float 0x08A rfl (by decide) rfl ?_
  simp only [head_mk, isL_mk]
  simp (disch := decide) only [mF_na, mF_zn]
  simp_all [req]
theorem Encodes.fsqrt (h : Head) (d : VReg) (a : VReg) (na : Bool) (rnd : Rm) :
    Encodes.Statement (.fsqrt h d a na rnd) := by
  refine Encodes.of (c := h.isL) rfl rfl fun hw => decode_float 0x08B rfl (by decide) rfl ?_
  simp only [head_mk, isL_mk]
  simp (disch := decide) only [mF_na, mF_r, mF_zt]
  simp_all [req]
theorem Encodes.fex2 (h : Head) (d : VReg) (a : VReg) (na : Bool) : Encodes.Statement (.fex2 h d a na) := by
  refine Encodes.of (c := h.isL) rfl rfl fun hw => decode_float 0x08C rfl (by decide) rfl ?_
  simp only [head_mk, isL_mk]
  simp (disch := decide) only [mF_na, mF_zn]
  simp_all [req]
theorem Encodes.flg2 (h : Head) (d : VReg) (a : VReg) (na : Bool) : Encodes.Statement (.flg2 h d a na) := by
  refine Encodes.of (c := h.isL) rfl rfl fun hw => decode_float 0x08D rfl (by decide) rfl ?_
  simp only [head_mk, isL_mk]
  simp (disch := decide) only [mF_na, mF_zn]
  simp_all [req]
theorem Encodes.fsin (h : Head) (d : VReg) (a : VReg) (na : Bool) : Encodes.Statement (.fsin h d a na) := by
  refine Encodes.of (c := h.isL) rfl rfl fun hw => decode_float 0x08E rfl (by decide) rfl ?_
  simp only [head_mk, isL_mk]
  simp (disch := decide) only [mF_na, mF_zn]
  simp_all [req]
theorem Encodes.fcos (h : Head) (d : VReg) (a : VReg) (na : Bool) : Encodes.Statement (.fcos h d a na) := by
  refine Encodes.of (c := h.isL) rfl rfl fun hw => decode_float 0x08F rfl (by decide) rfl ?_
  simp only [head_mk, isL_mk]
  simp (disch := decide) only [mF_na, mF_zn]
  simp_all [req]
theorem Encodes.hadd2 (h : Head) (d : VReg) (a : VReg) (b : VReg) (na : Bool) (nb : Bool) (bf : Bool) (rnd : Rm) :
    Encodes.Statement (.hadd2 h d a b na nb bf rnd) := by
  refine Encodes.of (c := h.isA) rfl rfl fun hw => decode_float 0x090 rfl (by decide) rfl ?_
  simp only [head_mk, isA_mk]
  simp (disch := decide) only [mF_nb, mF_na, mF_h, mF_r, mF_zh]
  simp_all [req]
theorem Encodes.hmul2 (h : Head) (d : VReg) (a : VReg) (b : VReg) (na : Bool) (nb : Bool) (bf : Bool) (rnd : Rm) :
    Encodes.Statement (.hmul2 h d a b na nb bf rnd) := by
  refine Encodes.of (c := h.isA) rfl rfl fun hw => decode_float 0x091 rfl (by decide) rfl ?_
  simp only [head_mk, isA_mk]
  simp (disch := decide) only [mF_nb, mF_na, mF_h, mF_r, mF_zh]
  simp_all [req]
theorem Encodes.hfma2 (h : Head) (d : VReg) (a : VReg) (b : VReg) (c : VReg) (na : Bool) (nb : Bool) (nc : Bool) (bf :
  Bool) (rnd : Rm) :
    Encodes.Statement (.hfma2 h d a b c na nb nc bf rnd) := by
  refine Encodes.of (c := h.isA) rfl rfl fun hw => decode_float 0x092 rfl (by decide) rfl ?_
  simp only [head_mk, isA_mk]
  simp (disch := decide) only [mF_nc, mF_nb, mF_na, mF_h, mF_r, mF_zc]
  simp_all [req]
theorem Encodes.hmin2 (h : Head) (d : VReg) (a : VReg) (b : VReg) (na : Bool) (nb : Bool) (bf : Bool) :
    Encodes.Statement (.hmin2 h d a b na nb bf) := by
  refine Encodes.of (c := h.isA) rfl rfl fun hw => decode_float 0x093 rfl (by decide) rfl ?_
  simp only [head_mk, isA_mk]
  simp (disch := decide) only [mF_nb, mF_na, mF_h, mF_zx]
  simp_all [req]
theorem Encodes.hmax2 (h : Head) (d : VReg) (a : VReg) (b : VReg) (na : Bool) (nb : Bool) (bf : Bool) :
    Encodes.Statement (.hmax2 h d a b na nb bf) := by
  refine Encodes.of (c := h.isA) rfl rfl fun hw => decode_float 0x094 rfl (by decide) rfl ?_
  simp only [head_mk, isA_mk]
  simp (disch := decide) only [mF_nb, mF_na, mF_h, mF_zx]
  simp_all [req]
theorem Encodes.hcmp2 (h : Head) (pd : PReg) (a : VReg) (b : VReg) (cmp : FCmp) (bf : Bool) (comb : Option (CombOp × PSrc)) :
    Encodes.Statement (.hcmp2 h pd a b cmp bf comb) := by
  refine Encodes.of (c := h.isP && pd.extractLsb' 0 1 = 0) rfl rfl fun hw => decode_float 0x095 rfl (by decide) rfl ?_
  simp only [Bool.and_eq_true, decide_eq_true_eq] at hw
  simp only [head_mk, isP_mk]
  simp (disch := decide) only [pdstOf_bits, combOf_bits, fcmpOf_bits, extract_append_low, extract_append_high, extract_all,
    bit_append_low, bit_append_high, bit_bitB, Nat.reduceSub]
  simp_all [req]
theorem Encodes.cvtfi (h : Head) (d : VReg) (a : VReg) (ik : IKind) (fk : FKind) (hi : Bool) (rnd : Rm) :
    Encodes.Statement (.cvtfi h d a ik fk hi rnd) := by
  refine Encodes.of (c := h.isA && (!ik.wide || even d) && (!hi || fk ≠ .f32)) rfl rfl fun hw => decode_float 0x096 rfl (by
    decide) rfl ?_
  simp only [Bool.and_eq_true, Bool.or_eq_true, Bool.not_eq_true', decide_eq_true_eq] at hw
  simp only [head_mk, isA_mk]
  simp (disch := decide) only [fkOf_bits, ikOf_bits, rmOf_bits, extract_append_low, extract_append_high, extract_all,
    bit_append_low, bit_append_high, bit_bitB, Nat.reduceSub]
  simp_all [req]
theorem Encodes.cvtif (h : Head) (d : VReg) (a : VReg) (ik : IKind) (fk : FKind) (rnd : Rm) :
    Encodes.Statement (.cvtif h d a ik fk rnd) := by
  refine Encodes.of (c := h.isA && (!ik.wide || even a)) rfl rfl fun hw => decode_float 0x097 rfl (by decide) rfl ?_
  simp only [Bool.and_eq_true, Bool.or_eq_true, Bool.not_eq_true'] at hw
  simp only [head_mk, isA_mk]
  simp (disch := decide) only [fkOf_bits, ikOf_bits, rmOf_bits, extract_append_low, extract_append_high, extract_all,
    bit_append_low, bit_append_high, Nat.reduceSub]
  simp_all [req]
theorem Encodes.cvtff (h : Head) (d : VReg) (a : VReg) (dk : FKind) (ak : FKind) (hi : Bool) (rnd : Rm) :
    Encodes.Statement (.cvtff h d a dk ak hi rnd) := by
  refine Encodes.of (c := h.isA && (!hi || ak ≠ .f32)) rfl rfl fun hw => decode_float 0x098 rfl (by decide) rfl ?_
  simp only [Bool.and_eq_true, Bool.or_eq_true, Bool.not_eq_true', decide_eq_true_eq] at hw
  simp only [head_mk, isA_mk]
  simp (disch := decide) only [fkOf_bits, rmOf_bits, extract_append_low, extract_append_high, extract_all, bit_append_low,
    bit_append_high, bit_bitB, Nat.reduceSub]
  simp_all [req]
theorem Encodes.bpq (h : Head) (d : VReg) (a : VReg) (b : VReg) (fs : FSlot) (xs : Bool) :
    Encodes.Statement (.bpq h d a b fs xs) := by
  refine Encodes.of (c := h.isA && (xs || b = 0)) rfl rfl fun hw => decode_float 0x099 rfl (by decide) rfl ?_
  simp only [Bool.and_eq_true, Bool.or_eq_true, decide_eq_true_eq] at hw
  simp only [head_mk, isA_mk]
  simp (disch := decide) only [mLow1_b, mLow1_h, extract_append_low, extract_append_high, extract_all, extract_zero,
    Nat.reduceSub]
  simp_all [req]
theorem Encodes.bpdq (h : Head) (d : VReg) (a : VReg) (fs : FSlot) : Encodes.Statement (.bpdq h d a fs) := by
  refine Encodes.of (c := h.isA) rfl rfl fun hw => decode_float 0x09A rfl (by decide) rfl ?_
  simp only [head_mk, isA_mk]
  simp (disch := decide) only [extract_append_low, extract_append_high, extract_all, extract_zero, Nat.reduceSub]
  simp_all [req]
theorem Encodes.bppk (h : Head) (d : VReg) (a : VReg) : Encodes.Statement (.bppk h d a) := by
  refine Encodes.of (c := h.isA) rfl rfl fun hw => decode_float 0x09B rfl (by decide) rfl ?_
  simp only [head_mk, isA_mk]
  simp_all [req]
theorem Encodes.bpupk (h : Head) (d : VReg) (a : VReg) (fs : FSlot) : Encodes.Statement (.bpupk h d a fs) := by
  refine Encodes.of (c := h.isA) rfl rfl fun hw => decode_float 0x09C rfl (by decide) rfl ?_
  simp only [head_mk, isA_mk]
  simp (disch := decide) only [extract_append_low, extract_append_high, extract_all, extract_zero, Nat.reduceSub]
  simp_all [req]
theorem Encodes.plop (h : Head) (pd : PReg) (a : PSrc) (b : PSrc) (tt : BitVec 4) :
    Encodes.Statement (.plop h pd a b tt) := by
  refine Encodes.of (c := h.isP) rfl rfl fun hw => decode_exch 0x100 rfl (by decide) rfl ?_
  simp only [head_mk, isP_mk]
  simp (disch := decide) only [psrcOf_bits, pdstOf_bits, extract_append_low, extract_append_high, extract_all,
    extract_zero, Nat.reduceSub]
  simp_all [req]
theorem Encodes.pmov (h : Head) (f : PmovForm) : Encodes.Statement (.pmov h f) := by
  cases f with
  | toV d =>
    refine Encodes.of (c := h.isA) rfl rfl fun hw => decode_exch 0x101 rfl (by decide) rfl ?_
    simp only [head_mk, isA_mk, isP_mk]
    simp_all [req]
  | fromV mask a =>
    refine Encodes.of (c := h.isP) rfl rfl fun hw => decode_exch 0x101 rfl (by decide) rfl ?_
    simp only [head_mk, isA_mk, isP_mk]
    simp (disch := decide) only [extract_append_low, extract_all, bit_append_high, Nat.reduceSub]
    simp_all [req]
theorem Encodes.shfl (h : Head) (d : VReg) (a : VReg) (b : VReg) (mode : ShflMode) (own : Bool) :
    Encodes.Statement (.shfl h d a b mode own) := by
  refine Encodes.of (c := h.isA) rfl rfl fun hw => decode_exch 0x102 rfl (by decide) rfl ?_
  simp only [head_mk, isA_mk]
  simp (disch := decide) only [shflOf_bits, extract_append_low, extract_append_high, extract_all, extract_zero,
    bit_append_low, bit_append_high, bit_bitB, Nat.reduceSub]
  simp_all [req]
theorem Encodes.shflImm (h : Head) (d : VReg) (a : VReg) (imm : BitVec 5) (mode : ShflMode) (own : Bool) :
    Encodes.Statement (.shflImm h d a imm mode own) := by
  refine Encodes.of (c := h.isA) rfl rfl fun hw => decode_exch 0x103 rfl (by decide) rfl ?_
  simp only [head_mk, isA_mk, imm_mk]
  simp (disch := decide) only [shflOf_bits, extract_append_low, extract_append_high, extract_all, extract_zero,
    bit_append_low, bit_append_high, bit_bitB, Nat.reduceSub]
  simp_all [req]
theorem Encodes.vote (h : Head) (d : VReg) (mode : VoteMode) (a : PSrc) : Encodes.Statement (.vote h d mode a) := by
  refine Encodes.of (c := if mode.vec then h.isA else h.isP && d.extractLsb' 3 5 = 0) rfl rfl fun hw =>
    decode_exch 0x104 rfl (by decide) rfl ?_
  simp only [head_mk, isA_mk, isP_mk]
  simp (disch := decide) only [psrcOf_bits, voteOf_bits, extract_append_low, extract_append_high, extract_all, extract_zero,
    Nat.reduceSub]
  cases mode <;> simp_all [req]
theorem Encodes.matchV (h : Head) (d : VReg) (a : VReg) (mode : MatchMode) (b64 : Bool) :
    Encodes.Statement (.matchV h d a mode b64) := by
  refine Encodes.of (c := h.isL && (!b64 || even a)) rfl rfl fun hw => decode_exch 0x105 rfl (by decide) rfl ?_
  simp only [Bool.and_eq_true, Bool.or_eq_true, Bool.not_eq_true'] at hw
  simp only [head_mk, isL_mk]
  simp (disch := decide) only [matchOf_bits, extract_append_low, extract_append_high, extract_all, extract_zero,
    bit_append_low, bit_append_high, bit_bitB, Nat.reduceSub]
  simp_all [req]
theorem Encodes.redux (h : Head) (d : VReg) (a : VReg) (op : ReduxOp) (sgn : Bool) (scan : Bool) :
    Encodes.Statement (.redux h d a op sgn scan) := by
  refine Encodes.of (c := h.isL && reduxOk op sgn scan) rfl rfl fun hw => decode_exch 0x106 rfl (by decide) rfl ?_
  simp only [Bool.and_eq_true] at hw
  simp only [head_mk, isL_mk]
  simp (disch := decide) only [reduxOf_bits, mask_redux, extract_append_low, extract_all, bit_append_low, bit_append_high,
    bit_bitB, Nat.reduceSub]
  simp_all [req]
theorem Encodes.ld (h : Head) (d : VReg) (a : VReg) (imm : BitVec 16) (w : Width) (sx : Bool) (na : Bool) (sp : Bool) :
    Encodes.Statement (.ld h d a imm w sx na sp) := by
  refine Encodes.of (c := h.isL && (sp || even a) && w.regOk d && w.sxOk sx) rfl rfl fun hw => decode_mem 0x140 rfl (by
    decide) rfl ?_
  simp only [Bool.and_eq_true, Bool.or_eq_true] at hw
  simp only [head_mk, isL_mk, imm_mk]
  simp (disch := decide) only [widthOf_bits, extract_append_low, extract_all, bit_append_low, bit_append_high, bit_bitB,
    Nat.reduceSub]
  simp_all [req]
theorem Encodes.st (h : Head) (d : VReg) (a : VReg) (imm : BitVec 16) (w : Width) (sp : Bool) :
    Encodes.Statement (.st h d a imm w sp) := by
  refine Encodes.of (c := h.isN && (sp || even a) && w.regOk d) rfl rfl fun hw => decode_mem 0x141 rfl (by decide) rfl ?_
  simp only [Bool.and_eq_true, Bool.or_eq_true] at hw
  simp only [head_mk, isN_mk, imm_mk]
  simp (disch := decide) only [widthOf_bits, mask_st, extract_append_low, extract_all, bit_append_low, bit_append_high,
    bit_bitB, Nat.reduceSub]
  simp_all [req]
theorem Encodes.ldk (h : Head) (d : VReg) (a : VReg) (imm : BitVec 16) (w : Width) (sx : Bool) :
    Encodes.Statement (.ldk h d a imm w sx) := by
  refine Encodes.of (c := h.isL && even a && w.regOk d && w.sxOk sx) rfl rfl fun hw => decode_mem 0x142 rfl (by decide) rfl ?_
  simp only [Bool.and_eq_true] at hw
  simp only [head_mk, isL_mk, imm_mk]
  simp (disch := decide) only [widthOf_bits, mask_ldk, extract_append_low, extract_all, bit_append_low, bit_append_high,
    bit_bitB, Nat.reduceSub]
  simp_all [req]
theorem Encodes.ldx (h : Head) (d : VReg) (a : VReg) (imm : BitVec 16) (w : Width) (sx : Bool) :
    Encodes.Statement (.ldx h d a imm w sx) := by
  refine Encodes.of (c := h.isL && w.regOk d && w.sxOk sx) rfl rfl fun hw => decode_mem 0x147 rfl (by decide) rfl ?_
  simp only [Bool.and_eq_true] at hw
  simp only [head_mk, isL_mk, imm_mk]
  simp (disch := decide) only [widthOf_bits, mask_ldk, extract_append_low, extract_all, bit_append_low, bit_append_high,
    bit_bitB, Nat.reduceSub]
  simp_all [req]
theorem Encodes.stx (h : Head) (d : VReg) (a : VReg) (imm : BitVec 16) (w : Width) :
    Encodes.Statement (.stx h d a imm w) := by
  refine Encodes.of (c := h.isN && w.regOk d) rfl rfl fun hw => decode_mem 0x148 rfl (by decide) rfl ?_
  simp only [Bool.and_eq_true] at hw
  simp only [head_mk, isN_mk, imm_mk]
  simp (disch := decide) only [widthOf_bits, mask_stx, extract_append_low, extract_all]
  simp_all [req]
theorem Encodes.gath (h : Head) (d : VReg) (a : VReg) (b : VReg) (ix : Index) (ew : EWidth) (sx : Bool) (sp : Bool) :
    Encodes.Statement (.gath h d a b ix ew sx sp) := by
  refine Encodes.of (c := h.isL && (sp || even a) && ew.regOk d && ix.iw.regOk b && ew.sxOk sx && le4 ix.sc) rfl rfl fun hw
    => decode_mem 0x145 rfl (by decide) rfl ?_
  simp only [Bool.and_eq_true, Bool.or_eq_true] at hw
  simp only [head_mk, isL_mk]
  simp (disch := decide) only [mask_gath, bit_append_low, bit_append_high, bit_bitB, Nat.reduceSub, indexOf_bits _ _ hw.2]
  simp_all [req]
theorem Encodes.scat (h : Head) (d : VReg) (a : VReg) (b : VReg) (ix : Index) (ew : EWidth) (sp : Bool) :
    Encodes.Statement (.scat h d a b ix ew sp) := by
  refine Encodes.of (c := h.isN && (sp || even a) && ew.regOk d && ix.iw.regOk b && le4 ix.sc) rfl rfl fun hw => decode_mem
    0x146 rfl (by decide) rfl ?_
  simp only [Bool.and_eq_true, Bool.or_eq_true] at hw
  simp only [head_mk, isN_mk]
  simp (disch := decide) only [mask_scat, bit_append_low, bit_append_high, bit_bitB, Nat.reduceSub, indexOf_bits _ _ hw.2]
  simp_all [req]
theorem Encodes.ldl (h : Head) (d : VReg) (a : VReg) (imm : BitVec 16) : Encodes.Statement (.ldl h d a imm) := by
  refine Encodes.of (c := h.isL) rfl rfl fun hw => decode_mem 0x143 rfl (by decide) rfl ?_
  simp only [head_mk, isL_mk, imm_mk]
  simp_all [req]
theorem Encodes.stl (h : Head) (d : VReg) (a : VReg) (imm : BitVec 16) : Encodes.Statement (.stl h d a imm) := by
  refine Encodes.of (c := h.isN) rfl rfl fun hw => decode_mem 0x144 rfl (by decide) rfl ?_
  simp only [head_mk, isN_mk, imm_mk]
  simp_all [req]
theorem Encodes.lyld (h : Head) (d : VReg) (a : VReg) (imm : BitVec 16) : Encodes.Statement (.lyld h d a imm) := by
  refine Encodes.of (c := h.isL && even a) rfl rfl fun hw => decode_mem 0x149 rfl (by decide) rfl ?_
  simp only [Bool.and_eq_true] at hw
  simp only [head_mk, isL_mk, imm_mk]
  simp_all [req]
theorem Encodes.lydrop (h : Head) (a : VReg) : Encodes.Statement (.lydrop h a) := by
  refine Encodes.of (c := h.isN) rfl rfl fun hw => decode_mem 0x14A rfl (by decide) rfl ?_
  simp only [head_mk, isN_mk]
  simp_all [req]
theorem Encodes.cinv (h : Head) (a : VReg) (imm : BitVec 16) (lvl : CinvLvl) :
    Encodes.Statement (.cinv h a imm lvl) := by
  refine Encodes.of (c := h.isN && even a) rfl rfl fun hw => decode_mem 0x14B rfl (by decide) rfl ?_
  simp only [Bool.and_eq_true] at hw
  simp only [head_mk, isN_mk, imm_mk]
  simp (disch := decide) only [cinvOf_bits, extract_append_low, extract_append_high, extract_all, extract_zero, Nat.reduceSub]
  simp_all [req]
theorem Encodes.pref (h : Head) (a : VReg) (imm : BitVec 16) (lvl : PrefLvl) :
    Encodes.Statement (.pref h a imm lvl) := by
  refine Encodes.of (c := h.isN && even a) rfl rfl fun hw => decode_mem 0x14C rfl (by decide) rfl ?_
  simp only [Bool.and_eq_true] at hw
  simp only [head_mk, isN_mk, imm_mk]
  simp (disch := decide) only [prefOf_bits, extract_append_low, extract_append_high, extract_all, extract_zero, Nat.reduceSub]
  simp_all [req]
theorem Encodes.twalk (h : Head) (d : VReg) (a : VReg) (b : VReg) (n : BitVec 4) :
    Encodes.Statement (.twalk h d a b n) := by
  refine Encodes.of (c := h.isL && even d && even a && even b && 1 ≤ n.toNat && n.toNat ≤ 12) rfl rfl fun hw => decode_mem
    0x14D rfl (by decide) rfl ?_
  simp only [Bool.and_eq_true, decide_eq_true_eq] at hw
  simp only [head_mk, isL_mk]
  simp (disch := decide) only [extract_append_low, extract_append_high, extract_all, extract_zero, Nat.reduceSub]
  simp_all [req]
theorem Encodes.atom (h : Head) (d : VReg) (a : VReg) (imm : BitVec 16) (os : AtomOS) (op : AtomOp) :
    Encodes.Statement (.atom h d a imm os op) := by
  refine Encodes.of (c := h.isL && os ≠ 0xF && (!osGlobal os || even a)) rfl rfl fun hw => decode_sync 0x1C0 rfl (by
    decide) rfl ?_
  simp only [Bool.and_eq_true, Bool.or_eq_true, Bool.not_eq_true', decide_eq_true_eq] at hw
  simp only [head_mk, isL_mk, imm_mk]
  simp (disch := decide) only [aopOf_bits, extract_append_low, extract_append_high, extract_all, Nat.reduceSub]
  simp_all [req]
theorem Encodes.acas (h : Head) (d : VReg) (a : VReg) (b : VReg) (c : VReg) (os : AtomOS) (w64 : Bool) :
    Encodes.Statement (.acas h d a b c os w64) := by
  refine Encodes.of (c := h.isL && os ≠ 0xF && (!osGlobal os || even a) && (!w64 || (even d && even b && even c))) rfl rfl
    fun hw => decode_sync 0x1C1 rfl (by decide) rfl ?_
  simp only [Bool.and_eq_true, Bool.or_eq_true, Bool.not_eq_true', decide_eq_true_eq] at hw
  simp only [head_mk, isL_mk]
  simp (disch := decide) only [extract_append_low, extract_append_high, extract_all, extract_zero, bit_append_high,
    bit_bitB, Nat.reduceSub]
  simp_all [req]
theorem Encodes.ared (h : Head) (d : VReg) (a : VReg) (imm : BitVec 16) (os : AtomOS) (op : AtomOp) :
    Encodes.Statement (.ared h d a imm os op) := by
  refine Encodes.of (c := h.isN && os ≠ 0xF && (!osGlobal os || even a)) rfl rfl fun hw => decode_sync 0x1C2 rfl (by
    decide) rfl ?_
  simp only [Bool.and_eq_true, Bool.or_eq_true, Bool.not_eq_true', decide_eq_true_eq] at hw
  simp only [head_mk, isN_mk, imm_mk]
  simp (disch := decide) only [aopOf_bits, extract_append_low, extract_append_high, extract_all, Nat.reduceSub]
  simp_all [req]
theorem Encodes.fence (h : Head) (kind : FenceKind) (uo : Bool) (scope : Scope) :
    Encodes.Statement (.fence h kind uo scope) := by
  refine Encodes.of (c := h.isP) rfl rfl fun hw => decode_sync 0x1C3 rfl (by decide) rfl ?_
  simp only [head_mk, isP_mk, imm_mk]
  simp (disch := decide) only [scopeOf_bits, fkindOf_bits, extract_append_low, extract_append_high, extract_all,
    bit_append_low, bit_append_high, bit_bitB, Nat.reduceSub]
  simp_all [req]
theorem Encodes.pfence (h : Head) (mask : BitVec 6) : Encodes.Statement (.pfence h mask) := by
  refine Encodes.of (c := h.isP && mask ≠ 0) rfl rfl fun hw => decode_sync 0x1C4 rfl (by decide) rfl ?_
  simp only [Bool.and_eq_true, decide_eq_true_eq] at hw
  simp only [head_mk, isP_mk, imm_mk]
  simp (disch := decide) only [extract_append_low, extract_append_high, extract_all, extract_zero, Nat.reduceSub]
  simp_all [req, zext_mask]
theorem Encodes.semp (h : Head) (sem : SemN) (n : BitVec 16) (scope : Scope) :
    Encodes.Statement (.semp h sem n scope) := by
  refine Encodes.of (c := h.isN && scope ≠ .grp) rfl rfl fun hw => decode_sync 0x1C5 rfl (by decide) rfl ?_
  simp only [Bool.and_eq_true, decide_eq_true_eq] at hw
  simp only [head_mk, isN_mk, imm_mk]
  simp (disch := decide) only [scopeOf_bits, extract_append_low, extract_append_high, extract_all, extract_zero,
    Nat.reduceSub]
  simp_all [req]
theorem Encodes.semw (h : Head) (sem : SemN) (n : BitVec 16) (scope : Scope) :
    Encodes.Statement (.semw h sem n scope) := by
  refine Encodes.of (c := h.isP && scope ≠ .grp) rfl rfl fun hw => decode_sync 0x1C6 rfl (by decide) rfl ?_
  simp only [Bool.and_eq_true, decide_eq_true_eq] at hw
  simp only [head_mk, isP_mk, imm_mk]
  simp (disch := decide) only [scopeOf_bits, extract_append_low, extract_append_high, extract_all, extract_zero,
    Nat.reduceSub]
  simp_all [req]
theorem Encodes.semx (h : Head) (sem : SemN) (n : BitVec 16) : Encodes.Statement (.semx h sem n) := by
  refine Encodes.of (c := h.isN) rfl rfl fun hw => decode_sync 0x1C7 rfl (by decide) rfl ?_
  simp only [head_mk, isN_mk, imm_mk]
  simp (disch := decide) only [extract_append_low, extract_append_high, extract_all, extract_zero, Nat.reduceSub]
  simp_all [req]
theorem Encodes.arrive (h : Head) (d : VReg) (sem : SemN) (n : BitVec 16) (scope : Scope) (rp : Bool) :
    Encodes.Statement (.arrive h d sem n scope rp) := by
  refine Encodes.of (c := scope ≠ .grp && n ≠ 0 && h.dc ≠ 7 && (rp || (d = 0 && h.dsm = 0 && h.la = 0))) rfl rfl fun hw =>
    decode_sync 0x1C8 rfl (by decide) rfl ?_
  simp only [Bool.and_eq_true, Bool.or_eq_true, decide_eq_true_eq] at hw
  simp only [head_mk, imm_mk]
  simp (disch := decide) only [scopeOf_bits, extract_append_low, extract_append_high, extract_all, extract_zero,
    bit_append_low, bit_append_high, bit_bitB, Nat.reduceSub]
  simp_all [req]
theorem Encodes.waitph (h : Head) (d : VReg) (sem : SemN) (phi : Bool) (scope : Scope) (src : Bool) :
    Encodes.Statement (.waitph h d sem phi scope src) := by
  refine Encodes.of (c := h.isP && scope ≠ .grp && (if src then !phi else d = 0)) rfl rfl fun hw => decode_sync 0x1C9 rfl
    (by decide) rfl ?_
  simp only [Bool.and_eq_true, decide_eq_true_eq] at hw
  simp only [head_mk, isP_mk, imm_mk]
  cases phi <;> cases src <;> (simp (disch := decide) only [scopeOf_bits, extract_append_low, extract_append_high,
    extract_all, extract_zero, bit_append_low, bit_bitB, Nat.reduceSub]; simp_all [req, bitB])
theorem Encodes.bufs (h : Head) (buf : BufN) (st : BufState) (scope : Scope) :
    Encodes.Statement (.bufs h buf st scope) := by
  refine Encodes.of (c := h.isN && scope ≠ .grp) rfl rfl fun hw => decode_sync 0x1CA rfl (by decide) rfl ?_
  simp only [Bool.and_eq_true, decide_eq_true_eq] at hw
  simp only [head_mk, isN_mk, imm_mk]
  simp (disch := decide) only [scopeOf_bits, bstOf_bits, extract_append_low, extract_append_high, extract_all,
    extract_zero, bit_append_low, bit_append_high, Nat.reduceSub]
  simp_all [req]
theorem Encodes.bufw (h : Head) (buf : BufN) (st : BufState) (ph : Option Bool) (scope : Scope) :
    Encodes.Statement (.bufw h buf st ph scope) := by
  refine Encodes.of (c := h.isP && scope ≠ .grp) rfl rfl fun hw => decode_sync 0x1CB rfl (by decide) rfl ?_
  simp only [Bool.and_eq_true, decide_eq_true_eq] at hw
  simp only [head_mk, isP_mk, imm_mk]
  cases ph <;> (simp (disch := decide) only [scopeOf_bits, bstOf_bits, extract_append_low, extract_append_high,
    extract_all, extract_zero, bit_append_low, bit_append_high, bit_bitB, Nat.reduceSub]; simp_all [req, bitB])
theorem Encodes.cpy (h : Head) (a : VReg) (b : VReg) (dir : CpyDir) (bid : BatchN) (sz : CpySz) (rel : Bool) :
    Encodes.Statement (.cpy h a b dir bid sz rel) := by
  refine Encodes.of (c := h.isN && (!dir.srcG || even a) && (!dir.dstG || even b)) rfl rfl fun hw => decode_copy 0x200 rfl
    (by decide) rfl ?_
  simp only [Bool.and_eq_true, Bool.or_eq_true, Bool.not_eq_true'] at hw
  simp only [head_mk, isN_mk]
  simp (disch := decide) only [cdirOf_bits, cszOf_bits, extract_append_low, extract_append_high, extract_all,
    bit_append_high, bit_bitB, Nat.reduceSub]
  simp_all [req]
theorem Encodes.cpyl (h : Head) (a : VReg) (b : VReg) (c : VReg) (bid : BatchN) (full : Bool) (rel : Bool) :
    Encodes.Statement (.cpyl h a b c bid full rel) := by
  refine Encodes.of (c := h.isN) rfl rfl fun hw => decode_copy 0x201 rfl (by decide) rfl ?_
  simp only [head_mk, isN_mk]
  simp (disch := decide) only [mCopy, extract_append_low, extract_append_high, extract_all, bit_append_low,
    bit_append_high, bit_bitB, Nat.reduceSub]
  simp_all [req]
theorem Encodes.cpyd (h : Head) (fs : FSlot) (a : VReg) (b : VReg) (c : VReg) (bid : BatchN) (full : Bool) (rel : Bool)
  (tab : BitVec 2) :
    Encodes.Statement (.cpyd h fs a b c bid full rel tab) := by
  refine Encodes.of (c := h.isN && even a) rfl rfl fun hw => decode_copy 0x202 rfl (by decide) rfl ?_
  simp only [Bool.and_eq_true] at hw
  simp only [head_mk, isN_mk]
  simp (disch := decide) only [mCopy, extract_append_low, extract_append_high, extract_all, extract_zero, bit_append_low,
    bit_append_high, bit_bitB, Nat.reduceSub]
  simp_all [req]
theorem Encodes.cbld (h : Head) (a : VReg) (tab : BitVec 2) : Encodes.Statement (.cbld h a tab) := by
  refine Encodes.of (c := h.isN && even a) rfl rfl fun hw => decode_copy 0x203 rfl (by decide) rfl ?_
  simp only [Bool.and_eq_true] at hw
  simp only [head_mk, isN_mk]
  simp (disch := decide) only [extract_append_low, extract_append_high, extract_all, extract_zero, Nat.reduceSub]
  simp_all [req]
theorem Encodes.cpyc (h : Head) (d : VReg) (a : VReg) (bid : BatchN) (sem : Option SemN) :
    Encodes.Statement (.cpyc h d a bid sem) := by
  refine Encodes.of (c := h.isN && even a) rfl rfl fun hw => decode_copy 0x204 rfl (by decide) rfl ?_
  simp only [Bool.and_eq_true] at hw
  simp only [head_mk, isN_mk, imm_mk]
  cases sem <;> (simp (disch := decide) only [mask_cpyc, extract_append_low, extract_append_high, extract_all,
    extract_zero, bit_append_low, bit_append_high, bit_bitB, Nat.reduceSub]; simp_all [req, bitB])
theorem Encodes.crwait (h : Head) (d : VReg) (a : VReg) : Encodes.Statement (.crwait h d a) := by
  refine Encodes.of (c := h.dsm ≠ 0 && h.la = 0 && h.dc = 6 && even d && even a) rfl rfl fun hw => decode_copy 0x205 rfl
    (by decide) rfl ?_
  simp only [Bool.and_eq_true, decide_eq_true_eq] at hw
  simp only [head_mk, imm_mk]
  simp_all [req]
theorem Encodes.crpop (h : Head) (a : VReg) (n : BitVec 16) : Encodes.Statement (.crpop h a n) := by
  refine Encodes.of (c := h.isN && even a && n ≠ 0) rfl rfl fun hw => decode_copy 0x206 rfl (by decide) rfl ?_
  simp only [Bool.and_eq_true, decide_eq_true_eq] at hw
  simp only [head_mk, isN_mk, imm_mk]
  simp_all [req]
theorem Encodes.gathn (h : Head) (d : VReg) (a : VReg) (b : VReg) (ix : Index) (ew : EWidth) (bid : BatchN) (full : Bool)
  (rel : Bool) :
    Encodes.Statement (.gathn h d a b ix ew bid full rel) := by
  refine Encodes.of (c := h.isN && even d && even a && even b && le4 ix.sc) rfl rfl fun hw => decode_copy 0x207 rfl (by
    decide) rfl ?_
  simp only [Bool.and_eq_true] at hw
  simp only [head_mk, isN_mk]
  simp (disch := decide) only [mCopy, extract_append_low, extract_append_high, extract_all, bit_append_low,
    bit_append_high, bit_bitB, Nat.reduceSub, indexOf_bits _ _ hw.2]
  simp_all [req]
theorem Encodes.vreg (h : Head) (d : VReg) (a : VReg) (b : VReg) (pol : ViewPol) :
    Encodes.Statement (.vreg h d a b pol) := by
  refine Encodes.of (c := h.isL && even a && even b) rfl rfl fun hw => decode_copy 0x240 rfl (by decide) rfl ?_
  simp only [Bool.and_eq_true] at hw
  simp only [head_mk, isL_mk]
  simp (disch := decide) only [polOf_bits, extract_append_low, extract_append_high, extract_all, extract_zero, Nat.reduceSub]
  simp_all [req]
theorem Encodes.vdrop (h : Head) (a : VReg) : Encodes.Statement (.vdrop h a) := by
  refine Encodes.of (c := h.isN) rfl rfl fun hw => decode_copy 0x241 rfl (by decide) rfl ?_
  simp only [head_mk, isN_mk, imm_mk]
  simp_all [req]
theorem Encodes.vsync (h : Head) (d : VReg) (a : VReg) (cur : Bool) : Encodes.Statement (.vsync h d a cur) := by
  refine Encodes.of (c := h.isP && (if cur then d = 0 else even d)) rfl rfl fun hw => decode_copy 0x242 rfl (by decide) rfl ?_
  simp only [Bool.and_eq_true] at hw
  simp only [head_mk, isP_mk, imm_mk]
  simp (disch := decide) only [mLow1_b, mLow1_h]
  simp_all [req]
theorem Encodes.vgen (h : Head) (d : VReg) (a : VReg) (view : Bool) : Encodes.Statement (.vgen h d a view) := by
  refine Encodes.of (c := h.isL && even d) rfl rfl fun hw => decode_copy 0x243 rfl (by decide) rfl ?_
  simp only [Bool.and_eq_true] at hw
  simp only [head_mk, isL_mk, imm_mk]
  simp (disch := decide) only [mLow1_b, mLow1_h]
  simp_all [req]
theorem Encodes.vpol (h : Head) (a : VReg) (pol : ViewPol) : Encodes.Statement (.vpol h a pol) := by
  refine Encodes.of (c := h.isN) rfl rfl fun hw => decode_copy 0x244 rfl (by decide) rfl ?_
  simp only [head_mk, isN_mk, imm_mk]
  simp (disch := decide) only [polOf_bits, extract_append_low, extract_append_high, extract_all, extract_zero, Nat.reduceSub]
  simp_all [req]
theorem Encodes.vstat (h : Head) (d : VReg) (a : VReg) (clr : Bool) : Encodes.Statement (.vstat h d a clr) := by
  refine Encodes.of (c := h.isL && even d) rfl rfl fun hw => decode_copy 0x245 rfl (by decide) rfl ?_
  simp only [Bool.and_eq_true] at hw
  simp only [head_mk, isL_mk, imm_mk]
  simp (disch := decide) only [mLow1_b, mLow1_h]
  simp_all [req]
theorem Encodes.spawn (h : Head) (a : VReg) (b : VReg) (prio : Option (BitVec 4)) :
    Encodes.Statement (.spawn h a b prio) := by
  refine Encodes.of (c := h.isN && even a && even b) rfl rfl fun hw => decode_copy 0x250 rfl (by decide) rfl ?_
  simp only [Bool.and_eq_true] at hw
  cases prio <;> simp only [head_mk, isN_mk, mPrio_i, mPrio_n, mPrio_z] <;> simp_all [req, mPrio]
theorem Encodes.spawnc (h : Head) (d : VReg) (a : VReg) (b : VReg) (c : VReg) (prio : Option (BitVec 4)) :
    Encodes.Statement (.spawnc h d a b c prio) := by
  refine Encodes.of (c := h.isL && even d && even a && even b) rfl rfl fun hw => decode_copy 0x251 rfl (by decide) rfl ?_
  simp only [Bool.and_eq_true] at hw
  cases prio <;> simp only [head_mk, isL_mk, mPrio_i, mPrio_n, mPrio_z] <;> simp_all [req, mPrio]
theorem Encodes.done (h : Head) (a : VReg) (n : BitVec 16) : Encodes.Statement (.done h a n) := by
  refine Encodes.of (c := h.isN && even a && n ≠ 0) rfl rfl fun hw => decode_copy 0x252 rfl (by decide) rfl ?_
  simp only [Bool.and_eq_true, decide_eq_true_eq] at hw
  simp only [head_mk, isN_mk, imm_mk]
  simp_all [req]
theorem Encodes.enq (h : Head) (a : VReg) (b : VReg) (try_ : Option PReg) : Encodes.Statement (.enq h a b try_) := by
  refine Encodes.of (c := h.isN && even a && quad b) rfl rfl fun hw => decode_copy 0x253 rfl (by decide) rfl ?_
  simp only [Bool.and_eq_true] at hw
  simp only [head_mk, isN_mk]
  cases try_ <;> (simp (disch := decide) only [mLow1_b, mLow1_h, pdstBits, extract_append_low, extract_append_high,
    extract_all, extract_zero, Nat.reduceSub]; simp_all [req])
theorem Encodes.deq (h : Head) (d : VReg) (a : VReg) (try_ : Option PReg) : Encodes.Statement (.deq h d a try_) := by
  refine Encodes.of (c := h.isL && even a && quad d) rfl rfl fun hw => decode_copy 0x254 rfl (by decide) rfl ?_
  simp only [Bool.and_eq_true] at hw
  simp only [head_mk, isL_mk]
  cases try_ <;> (simp (disch := decide) only [mLow1_b, mLow1_h, pdstBits, extract_append_low, extract_append_high,
    extract_all, extract_zero, Nat.reduceSub]; simp_all [req])
theorem Encodes.klaunch (h : Head) (a : VReg) (b : VReg) (cnt : Bool) : Encodes.Statement (.klaunch h a b cnt) := by
  refine Encodes.of (c := h.isN && even a && (if cnt then even b else b = 0)) rfl rfl fun hw => decode_copy 0x255 rfl (by
    decide) rfl ?_
  simp only [Bool.and_eq_true] at hw
  simp only [head_mk, isN_mk]
  simp (disch := decide) only [mLow1_b, mLow1_h]
  simp_all [req]
theorem Encodes.bra (h : HeadB) (off : BitVec 32) : Encodes.Statement (.bra h off) := by
  refine Encodes.of (c := true) rfl rfl fun hw => decode_ctlK 0x280 rfl (by decide) (fun _ _ _ _ _ _ _ _ => rfl) ?_
  simp (disch := decide) only [guardOf_bits, extract_append_low, extract_zero, bit_append_high, bit_bitB, Nat.reduceSub]
  simp_all [req]
theorem Encodes.brx (h : HeadB) (a : VReg) (off : BitVec 32) (sh : BitVec 3) :
    Encodes.Statement (.brx h a off sh) := by
  refine Encodes.of (c := le4 sh) rfl rfl fun hw => decode_ctlK 0x281 rfl (by decide) (fun _ _ _ _ _ _ _ _ => rfl) ?_
  simp (disch := decide) only [guardOf_bits, extract_append_low, extract_append_high, extract_all, extract_zero,
    bit_append_high, bit_bitB, Nat.reduceSub]
  simp_all [req, le4]
theorem Encodes.call (h : HeadB) (a : VReg) (off : BitVec 32) : Encodes.Statement (.call h a off) := by
  refine Encodes.of (c := even a) rfl rfl fun hw => decode_ctlK 0x282 rfl (by decide) (fun _ _ _ _ _ _ _ _ => rfl) ?_
  simp (disch := decide) only [guardOf_bits, extract_append_low, extract_zero, bit_append_high, bit_bitB, Nat.reduceSub]
  simp_all [req]
theorem Encodes.callx (h : HeadB) (a : VReg) : Encodes.Statement (.callx h a) := by
  refine Encodes.of (c := even a) rfl rfl fun hw => decode_ctlK 0x283 rfl (by decide) (fun _ _ _ _ _ _ _ _ => rfl) ?_
  simp (disch := decide) only [guardOf_bits, extract_append_low, extract_zero, bit_append_high, bit_bitB, Nat.reduceSub]
  simp_all [req]
theorem Encodes.ret (h : HeadB) (a : VReg) : Encodes.Statement (.ret h a) := by
  refine Encodes.of (c := even a) rfl rfl fun hw => decode_ctlK 0x284 rfl (by decide) (fun _ _ _ _ _ _ _ _ => rfl) ?_
  simp (disch := decide) only [guardOf_bits, extract_append_low, extract_zero, bit_append_high, bit_bitB, Nat.reduceSub]
  simp_all [req]
theorem Encodes.join : Encodes.Statement (.join) := by
  exact Encodes.of (c := true) rfl rfl fun _ => decode_ctlK 0x285 rfl (by decide) (fun _ _ _ _ _ _ _ _ => rfl) rfl
theorem Encodes.exit (g : Guard) : Encodes.Statement (.exit g) := by
  refine Encodes.of (c := true) rfl rfl fun _ =>
    decode_ctlK
      (x := req (bitB false ++ 0#3 = 0 && (0 : BitVec 8) = 0 && (0 : BitVec 32) = 0 && (0 : BitVec 6) = 0)
        (.exit (guardOf (guardBits g))))
      0x286 rfl (by decide) (fun _ _ _ _ _ _ _ _ => rfl) ?_
  simp only [guardOf_bits]
  rfl
theorem Encodes.nop (g : Guard) : Encodes.Statement (.nop g) := by
  refine Encodes.of (c := true) rfl rfl fun hw => decode_ctl 0x287 rfl (by decide) (fun _ => rfl) ?_
  simp only [imm_mk]
  simp (disch := decide) only [guardOf_bits]
  simp_all [req, RWord.isP]
theorem Encodes.waitdc (g : Guard) (mask : BitVec 6) (n : BitVec 6) : Encodes.Statement (.waitdc g mask n) := by
  refine Encodes.of (c := mask ≠ 0) rfl rfl fun hw => decode_ctl 0x288 rfl (by decide) (fun _ => rfl) ?_
  simp only [decide_eq_true_eq] at hw
  simp only [imm_mk]
  simp (disch := decide) only [guardOf_bits, extract_append_low, extract_append_high, extract_all, extract_zero,
    Nat.reduceSub]
  simp_all [req, RWord.isP]
theorem Encodes.trap (g : Guard) (code : BitVec 16) : Encodes.Statement (.trap g code) := by
  refine Encodes.of (c := true) rfl rfl fun hw => decode_ctl 0x2C0 rfl (by decide) (fun _ => rfl) ?_
  simp only [imm_mk]
  simp (disch := decide) only [guardOf_bits]
  simp_all [req, RWord.isP]
theorem Encodes.tfence (g : Guard) : Encodes.Statement (.tfence g) := by
  refine Encodes.of (c := true) rfl rfl fun hw => decode_ctl 0x2C1 rfl (by decide) (fun _ => rfl) ?_
  simp only [imm_mk]
  simp (disch := decide) only [guardOf_bits]
  simp_all [req, RWord.isP]
theorem Encodes.yield (n : BitVec 9) : Encodes.Statement (.yield n) := by
  refine Encodes.of (c := n.toNat ≤ 256) rfl rfl fun hw => decode_ctl 0x2C2 rfl (by decide) (fun _ => rfl) ?_
  simp only [decide_eq_true_eq] at hw
  simp only [imm_mk]
  simp (disch := decide) only [zext_yield, extract_append_low, extract_append_high, extract_all, extract_zero, Nat.reduceSub]
  simp_all [req, RWord.isP, guardBits, bitB]
theorem Encodes.rth : Encodes.Statement (.rth) := by
  refine Encodes.of (c := true) rfl rfl fun hw => decode_ctl 0x2C3 rfl (by decide) (fun _ => rfl) ?_
  simp only [imm_mk]
  simp_all [req, RWord.isP, guardBits, bitB]
theorem Encodes.sread (h : Head) (d : VReg) (sel : BitVec 16) (m : Half) : Encodes.Statement (.sread h d sel m) := by
  refine Encodes.of (c := h.isA && (m ≠ .pair || even d)) rfl rfl fun hw => decode_ctl 0x2C4 rfl (by decide) (fun _ => rfl) ?_
  simp only [Bool.and_eq_true, Bool.or_eq_true, decide_eq_true_eq] at hw
  simp only [head_mk, isA_mk, imm_mk]
  simp (disch := decide) only [halfOf_bits, extract_append_low, extract_append_high, extract_all, extract_zero, Nat.reduceSub]
  simp_all [req]
theorem Encodes.bkpt (g : Guard) (code : BitVec 16) : Encodes.Statement (.bkpt g code) := by
  refine Encodes.of (c := true) rfl rfl fun hw => decode_ctl 0x2C5 rfl (by decide) (fun _ => rfl) ?_
  simp only [imm_mk]
  simp (disch := decide) only [guardOf_bits]
  simp_all [req, RWord.isP]
theorem Encodes.swrite (g : Guard) (a : VReg) (sel : BitVec 16) (pair : Bool) :
    Encodes.Statement (.swrite g a sel pair) := by
  refine Encodes.of (c := !pair || even a) rfl rfl fun hw => decode_ctl 0x2E0 rfl (by decide) (fun _ => rfl) ?_
  simp only [imm_mk]
  simp (disch := decide) only [guardOf_bits, mask_scat, bit_append_low, bit_append_high, bit_bitB, Nat.reduceSub]
  simp_all [req, RWord.isP]
theorem Encodes.ebset (h : Head) (a : VReg) : Encodes.Statement (.ebset h a) := by
  refine Encodes.of (c := h.isN && even a) rfl rfl fun hw => decode_ctl 0x2E1 rfl (by decide) (fun _ => rfl) ?_
  simp only [Bool.and_eq_true] at hw
  simp only [head_mk, isN_mk, imm_mk]
  simp_all [req]
theorem Encodes.pmctl (h : Head) (a : VReg) (n : BitVec 3) (op : PmOp) : Encodes.Statement (.pmctl h a n op) := by
  refine Encodes.of (c := h.isN) rfl rfl fun hw => decode_ctl 0x2E2 rfl (by decide) (fun _ => rfl) ?_
  simp only [head_mk, isN_mk, imm_mk]
  simp (disch := decide) only [pmOf_bits, extract_append_low, extract_append_high, extract_all, extract_zero, Nat.reduceSub]
  simp_all [req]
theorem Encodes.trctl (h : Head) (a : VReg) (mode : TrMode) (k : BitVec 5) :
    Encodes.Statement (.trctl h a mode k) := by
  refine Encodes.of (c := h.isN && trctlOk mode a k) rfl rfl fun hw => decode_ctl 0x2E3 rfl (by decide) (fun _ => rfl) ?_
  simp only [Bool.and_eq_true] at hw
  simp only [head_mk, isN_mk, imm_mk]
  simp (disch := decide) only [trOf_bits, extract_append_low, extract_append_high, extract_all, extract_zero, Nat.reduceSub]
  simp_all [req]
theorem Encodes.ctxsave (h : Head) (a : VReg) : Encodes.Statement (.ctxsave h a) := by
  refine Encodes.of (c := h.isN && even a) rfl rfl fun hw => decode_ctl 0x2E4 rfl (by decide) (fun _ => rfl) ?_
  simp only [Bool.and_eq_true] at hw
  simp only [head_mk, isN_mk, imm_mk]
  simp_all [req]
theorem Encodes.halt (code : BitVec 16) : Encodes.Statement (.halt code) := by
  refine Encodes.of (c := true) rfl rfl fun hw => decode_ctl 0x2E5 rfl (by decide) (fun _ => rfl) ?_
  simp only [imm_mk]
  simp_all [req, RWord.isP, guardBits, bitB]
theorem Encodes.qbind (h : Head) (a : VReg) (b : VReg) (st : Bool) (sc : Bool) (n : BitVec 4) :
    Encodes.Statement (.qbind h a b st sc n) := by
  refine Encodes.of (c := h.isN && 2 ≤ n.toNat && n.toNat ≤ 8 && (sc || b = 0)) rfl rfl fun hw => decode_mtx 0x300 rfl (by
    decide) (fun _ _ => rfl) ?_
  simp only [Bool.and_eq_true, Bool.or_eq_true, decide_eq_true_eq] at hw
  simp only [head_mk, isN_mk]
  simp (disch := decide) only [extract_append_low, extract_all, bit_append_low, bit_append_high, bit_bitB, Nat.reduceSub]
  simp_all [req]
theorem Encodes.qrel (h : Head) (st : Bool) : Encodes.Statement (.qrel h st) := by
  refine Encodes.of (c := h.isN) rfl rfl fun hw => decode_mtx 0x301 rfl (by decide) (fun _ _ => rfl) ?_
  simp only [head_mk, isN_mk]
  simp (disch := decide) only [extract_append_low, extract_zero, bit_append_high, bit_bitB, Nat.reduceSub]
  simp_all [req, RWord.imm]
theorem Encodes.mma (x : HeadX) (ga : GReg) (fsa : FSlot) (fsb : FSlot) (ec : BitVec 2) (acc : BankN) (st : Bool) :
    Encodes.Statement (.mma x ga fsa fsb ec acc st) := by
  refine Encodes.of (c := x.isSL) rfl rfl fun hw => decode_mtxX 0x310 rfl (by decide) (fun _ _ _ _ _ _ _ _ _ _ => rfl) ?_
  simp (disch := decide) only [headX_mk, extract_append_high, extract_zero, bit_append_low, bit_bitB, Nat.reduceSub]
  simp_all [req, HeadX.isSL]
theorem Encodes.smma (x : HeadX) (ga : GReg) (fsa : FSlot) (fsb : FSlot) (ec : BitVec 2) (acc : BankN) :
    Encodes.Statement (.smma x ga fsa fsb ec acc) := by
  refine Encodes.of (c := x.isSL) rfl rfl fun hw => decode_mtxX 0x311 rfl (by decide) (fun _ _ _ _ _ _ _ _ _ _ => rfl) ?_
  simp (disch := decide) only [headX_mk]
  simp_all [req, HeadX.isSL]
theorem Encodes.gmov (x : HeadX) (gd : GReg) (ga : GReg) : Encodes.Statement (.gmov x gd ga) := by
  refine Encodes.of (c := x.isS) rfl rfl fun hw => decode_mtxX 0x320 rfl (by decide) (fun _ _ _ _ _ _ _ _ _ _ => rfl) ?_
  simp (disch := decide) only [headX_mk]
  simp_all [req, HeadX.isS]
theorem Encodes.gmovi (x : HeadX) (gd : GReg) (imm : BitVec 32) (m : GmoviForm) :
    Encodes.Statement (.gmovi x gd imm m) := by
  refine Encodes.of (c := x.isS) rfl rfl fun hw => decode_mtxXK 0x321 rfl (by decide) (fun _ _ _ _ _ _ _ _ _ _ => rfl) ?_
  simp (disch := decide) only [gmoviOf_bits, headX_mk, extract_append_low, extract_append_high, extract_all, extract_zero,
    Nat.reduceSub]
  simp_all [req, HeadX.isS]
theorem Encodes.gadd (x : HeadX) (gd : GReg) (ga : GReg) (src : GSrc9) (sub : Bool) :
    Encodes.Statement (.gadd x gd ga src sub) := by
  refine Encodes.of (c := x.isS) rfl rfl fun hw => decode_mtxX 0x322 rfl (by decide) (fun _ _ _ _ _ _ _ _ _ _ => rfl) ?_
  simp (disch := decide) only [gsrc9Of_bits, headX_mk, extract_append_low, extract_all, bit_append_low, bit_append_high,
    bit_bitB, Nat.reduceSub]
  simp_all [req, HeadX.isS]
theorem Encodes.gmul (x : HeadX) (gd : GReg) (ga : GReg) (src : GSrc9) : Encodes.Statement (.gmul x gd ga src) := by
  refine Encodes.of (c := x.isS) rfl rfl fun hw => decode_mtxX 0x323 rfl (by decide) (fun _ _ _ _ _ _ _ _ _ _ => rfl) ?_
  simp (disch := decide) only [gsrc9Of_bits, headX_mk, extract_append_low, extract_all, bit_append_low, bit_append_high,
    bit_bitB, Nat.reduceSub]
  simp_all [req, HeadX.isS]
theorem Encodes.gshl (x : HeadX) (gd : GReg) (ga : GReg) (src : GSrc6) (op : GshOp) :
    Encodes.Statement (.gshl x gd ga src op) := by
  refine Encodes.of (c := x.isS) rfl rfl fun hw => decode_mtxX 0x324 rfl (by decide) (fun _ _ _ _ _ _ _ _ _ _ => rfl) ?_
  simp (disch := decide) only [gshOf_bits, gsrc6Of_bits, headX_mk, extract_append_low, extract_append_high, extract_all,
    extract_zero, bit_append_high, bit_bitB, Nat.reduceSub]
  simp_all [req, HeadX.isS]
theorem Encodes.gcmp (x : HeadX) (qd : QReg) (ga : GReg) (src : GSrc6) (cmp : Cmp) (sgn : Bool) :
    Encodes.Statement (.gcmp x qd ga src cmp sgn) := by
  refine Encodes.of (c := x.isS && qd ≠ 15) rfl rfl fun hw => decode_mtxX 0x325 rfl (by decide) (fun _ _ _ _ _ _ _ _ _ _ =>
    rfl) ?_
  simp only [Bool.and_eq_true, decide_eq_true_eq] at hw
  simp (disch := decide) only [cmpOf_bits, gsrc6Of_bits, headX_mk, extract_append_low, extract_append_high, extract_all,
    extract_zero, bit_append_low, bit_append_high, bit_bitB, Nat.reduceSub]
  simp_all [req, HeadX.isS]
theorem Encodes.gld (x : HeadX) (gd : GReg) (ga : GReg) (imm : BitVec 10) (sp : Bool) :
    Encodes.Statement (.gld x gd ga imm sp) := by
  refine Encodes.of (c := x.isSL) rfl rfl fun hw => decode_mtxX 0x326 rfl (by decide) (fun _ _ _ _ _ _ _ _ _ _ => rfl) ?_
  simp (disch := decide) only [headX_mk, extract_append_low, extract_all, bit_append_high, bit_bitB, Nat.reduceSub]
  simp_all [req, HeadX.isSL]
theorem Encodes.gbra (x : HeadX) (off : BitVec 32) : Encodes.Statement (.gbra x off) := by
  refine Encodes.of (c := x.isS) rfl rfl fun hw => decode_mtxXK 0x327 rfl (by decide) (fun _ _ _ _ _ _ _ _ _ _ => rfl) ?_
  simp (disch := decide) only [headX_mk]
  simp_all [req, HeadX.isS]
theorem Encodes.gloop (x : HeadX) (gd : GReg) (off : BitVec 32) : Encodes.Statement (.gloop x gd off) := by
  refine Encodes.of (c := x.isS) rfl rfl fun hw => decode_mtxXK 0x328 rfl (by decide) (fun _ _ _ _ _ _ _ _ _ _ => rfl) ?_
  simp (disch := decide) only [headX_mk]
  simp_all [req, HeadX.isS]
theorem Encodes.qset (x : HeadX) (qd : QReg) (src : QSetSrc) : Encodes.Statement (.qset x qd src) := by
  cases src with
  | const v =>
    refine Encodes.of (c := x.isS && qd ≠ 15) rfl rfl fun hw => decode_mtxX 0x329 rfl (by decide) (fun _ _ _ _ _ _ _ _ _ _
      => rfl) ?_
    simp only [Bool.and_eq_true, decide_eq_true_eq] at hw
    simp (disch := decide) only [headX_mk, extract_append_low, extract_append_high, extract_all, extract_zero, bit_append_low,
      bit_append_high, bit_bitB, Nat.reduceSub]
    simp_all [req, HeadX.isS]
  | bit g n =>
    refine Encodes.of (c := x.isS && qd ≠ 15) rfl rfl fun hw => decode_mtxX 0x329 rfl (by decide) (fun _ _ _ _ _ _ _ _ _ _
      => rfl) ?_
    simp only [Bool.and_eq_true, decide_eq_true_eq] at hw
    simp (disch := decide) only [headX_mk, extract_append_low, extract_append_high, extract_all, extract_zero, bit_append_low,
      bit_append_high, Nat.reduceSub]
    simp_all [req, HeadX.isS]
theorem Encodes.qlop (x : HeadX) (qd : QReg) (qa : QReg) (qb : QReg) (na : Bool) (nb : Bool) (tt : BitVec 4) :
    Encodes.Statement (.qlop x qd qa qb na nb tt) := by
  refine Encodes.of (c := x.isS && qd ≠ 15) rfl rfl fun hw => decode_mtxX 0x32A rfl (by decide) (fun _ _ _ _ _ _ _ _ _ _ =>
    rfl) ?_
  simp only [Bool.and_eq_true, decide_eq_true_eq] at hw
  simp (disch := decide) only [headX_mk, extract_append_low, extract_append_high, extract_all, extract_zero,
    bit_append_low, bit_append_high, bit_bitB, Nat.reduceSub]
  simp_all [req, HeadX.isS]
theorem Encodes.mend : Encodes.Statement (.mend) := by
  refine Encodes.of (c := true) rfl rfl fun hw => decode_mtxX 0x32B rfl (by decide) (fun _ _ _ _ _ _ _ _ _ _ => rfl) ?_
  simp (disch := decide) only []
  simp_all [req, bitB]
theorem Encodes.accz (x : HeadX) (acc : BankN) (hash : Option (BitVec 9)) : Encodes.Statement (.accz x acc hash) := by
  cases hash with
  | none =>
    refine Encodes.of (c := x.isSL) rfl rfl fun hw => decode_mtxX 0x340 rfl (by decide) (fun _ _ _ _ _ _ _ _ _ _ => rfl) ?_
    simp only [headX_mk]
    simp_all [req, HeadX.isSL]
  | some n =>
    refine Encodes.of (c := x.isSL) rfl rfl fun hw => decode_mtxX 0x340 rfl (by decide) (fun _ _ _ _ _ _ _ _ _ _ => rfl) ?_
    simp (disch := decide) only [headX_mk, extract_append_low, extract_all, bit_append_low,
      bit_append_high, Nat.reduceSub]
    simp_all [req, HeadX.isSL]
theorem Encodes.jmac (x : HeadX) (gd : GReg) (ga : GReg) (gb : GReg) (fsa : FSlot) (fsb : FSlot) (ec : BitVec 2) (acc :
  BankN) (stop : Bool) :
    Encodes.Statement (.jmac x gd ga gb fsa fsb ec acc stop) := by
  refine Encodes.of (c := x.isSL && gd ≠ ga && gd ≠ gb) rfl rfl fun hw => decode_mtxX 0x341 rfl (by decide) (fun _ _ _ _ _
    _ _ _ _ _ => rfl) ?_
  simp only [Bool.and_eq_true, decide_eq_true_eq] at hw
  simp (disch := decide) only [headX_mk, extract_append_high, extract_zero, bit_append_low, bit_bitB, Nat.reduceSub]
  simp_all [req, HeadX.isSL]
theorem Encodes.jins (x : HeadX) (gd : GReg) (ga : GReg) (fsa : FSlot) (acc : BankN) (stop : Bool) :
    Encodes.Statement (.jins x gd ga fsa acc stop) := by
  refine Encodes.of (c := x.isSL && gd ≠ ga) rfl rfl fun hw => decode_mtxX 0x342 rfl (by decide) (fun _ _ _ _ _ _ _ _ _ _
    => rfl) ?_
  simp only [Bool.and_eq_true, decide_eq_true_eq] at hw
  simp (disch := decide) only [headX_mk, extract_append_high, extract_zero, bit_append_low, bit_bitB, Nat.reduceSub]
  simp_all [req, HeadX.isSL]
theorem Encodes.accsp (x : HeadX) (acc : BankN) (buf : BufN) : Encodes.Statement (.accsp x acc buf) := by
  refine Encodes.of (c := x.isSL) rfl rfl fun hw => decode_mtxX 0x343 rfl (by decide) (fun _ _ _ _ _ _ _ _ _ _ => rfl) ?_
  simp (disch := decide) only [headX_mk, extract_append_low, extract_append_high, extract_all, extract_zero, Nat.reduceSub]
  simp_all [req, HeadX.isSL]
theorem Encodes.accdr (x : HeadX) (gd : GReg) (ga : GReg) (fsa : FSlot) (acc : BankN) (od : DrOrd) (clr : Bool) (full :
  Bool) :
    Encodes.Statement (.accdr x gd ga fsa acc od clr full) := by
  refine Encodes.of (c := x.isSL) rfl rfl fun hw => decode_mtxX 0x344 rfl (by decide) (fun _ _ _ _ _ _ _ _ _ _ => rfl) ?_
  simp (disch := decide) only [ordOf_bits, headX_mk, extract_append_low, extract_append_high, extract_all, extract_zero,
    bit_append_low, bit_append_high, bit_bitB, Nat.reduceSub]
  simp_all [req, HeadX.isSL]
theorem Encodes.acccnt (x : HeadX) (gd : GReg) (acc : BankN) : Encodes.Statement (.acccnt x gd acc) := by
  refine Encodes.of (c := x.isS) rfl rfl fun hw => decode_mtxX 0x345 rfl (by decide) (fun _ _ _ _ _ _ _ _ _ _ => rfl) ?_
  simp (disch := decide) only [headX_mk]
  simp_all [req, HeadX.isS]
theorem Encodes.packetNop (q : Nat) (len : BitVec 2) (bar : Bool) : Encodes.Statement (.packetNop q len bar) :=
  Encodes.none rfl
theorem Encodes.launch (q : Nat) (bar : Bool) (rec : DWord) (cop : Cop) :
    Encodes.Statement (.launch q bar rec cop) := Encodes.none rfl
theorem Encodes.packetFence (q : Nat) (bar : Bool) (es : List PEntry) :
    Encodes.Statement (.packetFence q bar es) := Encodes.none rfl
theorem Encodes.signal (q : Nat) (bar : Bool) (op : SigOp) (addr : DWord) (val : DWord) :
    Encodes.Statement (.signal q bar op addr val) := Encodes.none rfl
theorem Encodes.edge (q : Nat) (bar : Bool) (consumer : Bool) (k : Nat) (desc : DWord) :
    Encodes.Statement (.edge q bar consumer k desc) := Encodes.none rfl
theorem Encodes.inval (q : Nat) (bar : Bool) (len : BitVec 2) (ranges : List (DWord × DWord)) :
    Encodes.Statement (.inval q bar len ranges) := Encodes.none rfl
theorem Encodes.timestamp (q : Nat) (bar : Bool) (addr : DWord) : Encodes.Statement (.timestamp q bar addr) := Encodes.none
  rfl
theorem Encodes.errClear (q : Nat) : Encodes.Statement (.errClear q) := Encodes.none rfl
theorem Encodes.readAhead (q : Nat) : Encodes.Statement (.readAhead q) := Encodes.none rfl
theorem Encodes.queueParse (q : Nat) : Encodes.Statement (.queueParse q) := Encodes.none rfl
theorem Encodes.contextRegister (part : Nat) (debug : Bool) (desc : BitVec 512) :
    Encodes.Statement (.contextRegister part debug desc) := Encodes.none rfl
theorem Encodes.queueRegister (q : Nat) (ctx : Nat) (va : DWord) :
    Encodes.Statement (.queueRegister q ctx va) := Encodes.none rfl
theorem Encodes.partitionConfig (r : PartReq) : Encodes.Statement (.partitionConfig r) := Encodes.none rfl
theorem Encodes.clusterMove (c : Nat) (src : Nat) (dst : Nat) (deadline : Nat) :
    Encodes.Statement (.clusterMove c src dst deadline) := Encodes.none rfl
theorem Encodes.translationInvalidate (ctx : Nat) (base : DWord) (len : DWord) :
    Encodes.Statement (.translationInvalidate ctx base len) := Encodes.none rfl
theorem Encodes.rdcResize (die : Nat) (code : BitVec 4) : Encodes.Statement (.rdcResize die code) := Encodes.none rfl
theorem Encodes.savePoolRegister (part : Nat) (slots : List Nat) :
    Encodes.Statement (.savePoolRegister part slots) := Encodes.none rfl
theorem Encodes.coreImageAreaRegister (ctx : Nat) (addr : Nat) :
    Encodes.Statement (.coreImageAreaRegister ctx addr) := Encodes.none rfl
theorem Encodes.hostChannelBind (ch : Nat) (ctx : Nat) : Encodes.Statement (.hostChannelBind ch ctx) := Encodes.none rfl
theorem Encodes.cinchIdAssign (id : BitVec 12) (routes : List (Nat × Nat)) :
    Encodes.Statement (.cinchIdAssign id routes) := Encodes.none rfl
theorem Encodes.contextEnd (ctx : Nat) : Encodes.Statement (.contextEnd ctx) := Encodes.none rfl
theorem Encodes.checkpoint (parts : List Nat) : Encodes.Statement (.checkpoint parts) := Encodes.none rfl
theorem Encodes.attestationReport (nonce : BitVec 256) : Encodes.Statement (.attestationReport nonce) := Encodes.none rfl
theorem Encodes.debugStop (core : Nat) (part : Nat) : Encodes.Statement (.debugStop core part) := Encodes.none rfl
theorem Encodes.debugResume (core : Nat) (part : Nat) : Encodes.Statement (.debugResume core part) := Encodes.none rfl
theorem Encodes.debugRegisterWrite (t : DebugTarget) : Encodes.Statement (.debugRegisterWrite t) := Encodes.none rfl
theorem Encodes.teamPlace (core : Nat) : Encodes.Statement (.teamPlace core) := Encodes.none rfl
theorem Encodes.clauseFetch (i : Issuer) : Encodes.Statement (.clauseFetch i) := Encodes.none rfl
theorem Encodes.transferResolve (team : Nat) (slot : Nat) : Encodes.Statement (.transferResolve team slot) := Encodes.none rfl
theorem Encodes.formation (core : Nat) : Encodes.Statement (.formation core) := Encodes.none rfl
theorem Encodes.joinRelease (team : Nat) (role : Role) : Encodes.Statement (.joinRelease team role) := Encodes.none rfl
theorem Encodes.teamComplete (team : Nat) : Encodes.Statement (.teamComplete team) := Encodes.none rfl
theorem Encodes.gridComplete (grid : Nat) : Encodes.Statement (.gridComplete grid) := Encodes.none rfl
theorem Encodes.longLatencyComplete (op : Nat) : Encodes.Statement (.longLatencyComplete op) := Encodes.none rfl
theorem Encodes.storeDrain (core : Nat) (n : Nat) : Encodes.Statement (.storeDrain core n) := Encodes.none rfl
theorem Encodes.bufferTransition (team : Nat) (buf : Nat) : Encodes.Statement (.bufferTransition team buf) := Encodes.none rfl
theorem Encodes.semaphoreWaitRelease (i : Issuer) : Encodes.Statement (.semaphoreWaitRelease i) := Encodes.none rfl
theorem Encodes.bufferWaitRelease (i : Issuer) : Encodes.Statement (.bufferWaitRelease i) := Encodes.none rfl
theorem Encodes.classWWaitRelease (i : Issuer) : Encodes.Statement (.classWWaitRelease i) := Encodes.none rfl
theorem Encodes.edgeRetry (i : Issuer) : Encodes.Statement (.edgeRetry i) := Encodes.none rfl
theorem Encodes.batchComplete (batch : Nat) : Encodes.Statement (.batchComplete batch) := Encodes.none rfl
theorem Encodes.ringFullRetry (batch : Nat) : Encodes.Statement (.ringFullRetry batch) := Encodes.none rfl
theorem Encodes.chunkPost (batch : Nat) : Encodes.Statement (.chunkPost batch) := Encodes.none rfl
theorem Encodes.copyRequestComplete (op : Nat) : Encodes.Statement (.copyRequestComplete op) := Encodes.none rfl
theorem Encodes.awlBurst (op : Nat) : Encodes.Statement (.awlBurst op) := Encodes.none rfl
theorem Encodes.uncorrectableError (w : UeWhere) : Encodes.Statement (.uncorrectableError w) := Encodes.none rfl
theorem Encodes.skiverRefresh (ctx : Nat) (slot : Nat) (block : Nat) :
    Encodes.Statement (.skiverRefresh ctx slot block) := Encodes.none rfl
theorem Encodes.matrixComplete (op : Nat) : Encodes.Statement (.matrixComplete op) := Encodes.none rfl
theorem Encodes.energyDebitWaitEnd (team : Nat) : Encodes.Statement (.energyDebitWaitEnd team) := Encodes.none rfl
theorem Encodes.budgetRefill (ctx : Nat) : Encodes.Statement (.budgetRefill ctx) := Encodes.none rfl
theorem Encodes.qbindLatch (team : Nat) (stage : Nat) : Encodes.Statement (.qbindLatch team stage) := Encodes.none rfl
theorem Encodes.sequencerTrapDelivery (team : Nat) : Encodes.Statement (.sequencerTrapDelivery team) := Encodes.none rfl
theorem Encodes.cooperativeSave (team : Nat) : Encodes.Statement (.cooperativeSave team) := Encodes.none rfl
theorem Encodes.preemptDeadline (team : Nat) : Encodes.Statement (.preemptDeadline team) := Encodes.none rfl
theorem Encodes.savePoolWaitEnd (team : Nat) : Encodes.Statement (.savePoolWaitEnd team) := Encodes.none rfl
theorem Encodes.nearArrayRebalance (core : Nat) : Encodes.Statement (.nearArrayRebalance core) := Encodes.none rfl
theorem Encodes.packetPoll (q : Nat) : Encodes.Statement (.packetPoll q) := Encodes.none rfl
theorem Encodes.traceSync (core : Nat) : Encodes.Statement (.traceSync core) := Encodes.none rfl
theorem Encodes.directoryRequest (pa : Nat) (r : DirReq) : Encodes.Statement (.directoryRequest pa r) := Encodes.none rfl
theorem Encodes.directoryMerge (quad : Nat) (base : Nat) (size : Nat) :
    Encodes.Statement (.directoryMerge quad base size) := Encodes.none rfl
theorem Encodes.fabricInboundRequest (pkg : Nat) (ctx : Nat) (a : ExtAccess) :
    Encodes.Statement (.fabricInboundRequest pkg ctx a) := Encodes.none rfl
theorem Encodes.flitCrcRetry (port : Nat) : Encodes.Statement (.flitCrcRetry port) := Encodes.none rfl
theorem Encodes.linkPortFail (port : Nat) : Encodes.Statement (.linkPortFail port) := Encodes.none rfl
theorem Encodes.hostChannelAccess (ch : Nat) (a : ExtAccess) : Encodes.Statement (.hostChannelAccess ch a) := Encodes.none rfl
theorem Encodes.correctedError (r : CeReport) : Encodes.Statement (.correctedError r) := Encodes.none rfl
theorem Encodes.spareActivation (u : SpareUnit) : Encodes.Statement (.spareActivation u) := Encodes.none rfl
theorem Encodes.dieFaultReplay (die : Nat) : Encodes.Statement (.dieFaultReplay die) := Encodes.none rfl
theorem Encodes.journalFull : Encodes.Statement (.journalFull) := Encodes.none rfl
theorem Encodes.firmwareVerify (image : List Byte) (sig : List Byte) :
    Encodes.Statement (.firmwareVerify image sig) := Encodes.none rfl
theorem Encodes.thermalThrottle (part : Nat) (prefill : Nat) :
    Encodes.Statement (.thermalThrottle part prefill) := Encodes.none rfl
theorem Encodes.sample (core : Nat) (part : Nat) : Encodes.Statement (.sample core part) := Encodes.none rfl
theorem Encodes.issueSelect (core : Nat) (slot : Nat) : Encodes.Statement (.issueSelect core slot) := Encodes.none rfl
theorem Encodes.coreReset (core : Nat) : Encodes.Statement (.coreReset core) := Encodes.none rfl
theorem Encodes.preemptRequest (team : Nat) (deadline : Option Nat) :
    Encodes.Statement (.preemptRequest team deadline) := Encodes.none rfl
theorem Encodes.debuggerAttach (ctx : Nat) (attach : Bool) : Encodes.Statement (.debuggerAttach ctx attach) := Encodes.none
  rfl
theorem Encodes.fabricAccessOpen (ctx : Nat) : Encodes.Statement (.fabricAccessOpen ctx) := Encodes.none rfl
theorem Encodes.criticalTemperature (save : Bool) : Encodes.Statement (.criticalTemperature save) := Encodes.none rfl
end Sys2Proof.Laws
end

