-- ==== Sys2Proof/Safety.lean ====
section
/-! DEFINITION. What counts as a sound state, where a word issues, and what an observer of a group's lanes sees: the terms
that the statements use. -/

namespace Sys2Proof.Machine

/-! ## Sound states -/

/-- Device memory, and every memory a checkpoint keeps, is in canonical form. -/
def State.Sound (s : State) : Prop :=
  Memory.wf s.mem = true ∧ ∀ c ∈ s.keeping, Memory.wf c.mem = true

/-- No step of a state stops: the package has not been stopped (R381). -/
def State.Running (s : State) : Prop := s.stopped = false

/-! ## Where a word issues -/

/-- The site of a group's word and the state its body runs in, when the word issues: it is the group's turn, the group may
issue (R152), checks 2 to 4 of R36 hold, and neither R43, R44 nor what else the word asks for holds it.
Arrived lookahead results are visible, and the flags of words that it depends on are set (R119). -/
def issueSite (r : Req) (s : State) : Option (Site × State) :=
  match s.issuer with
  | some (.group t k) =>
    match siteOf s t k r.guard with
    | none => none
    | some y =>
      if canIssue s y && (checkWord r y).isNone && !stalled r s y then
        (siteOf (installed r s y) t k r.guard).map fun x => (x, installed r s y)
      else none
  | _ => none

/-- The state after a group's word has retired (R43, R345, R361). -/
def retired (s : State) (x : Site) : State := clauseTrace (retireGroup s x.t x.k) x

/-- The site of a sequencer's word, when the word issues and its tile guard lets it act (R253 to R255). -/
def seqSite (r : SReq) (s : State) : Option SSite :=
  match s.issuer with
  | some (.seq t) =>
    match ssiteOf s t with
    | none => none
    | some x =>
      if canIssueSeq s x && r.ok x && !stalledSeq r s x
          && !(match r.guard with | some h => !tileOn x.q h | none => false) then some x
      else none
  | _ => none

/-- The state after a sequencer's word has retired. -/
def seqRetired (s : State) (x : SSite) : State := modSeq s x.t advanceSeq

/-- The core of a site records no clause packets (R361). -/
def Untraced (s : State) (x : Site) : Prop := (getCore s x.tm.core).trace.on = false

/-- Each lane of the group has a thread of its own, and the team has it (R138). -/
def OwnLanes (x : Site) : Prop :=
  (memberLanes x.g).Nodup ∧ (memberTids x.g).Nodup ∧ ∀ t ∈ memberTids x.g, (sget x.tm.threads t).isSome

/-! ## What lanes show -/

/-- A lane's predicates after a list of writes; writes to p7 are discarded (R38). -/
def predsAfter (th : Thread) (ps : List (PReg × Bool)) (p : PReg) : Bool :=
  ps.foldl (fun b w => if w.1 = p && p ≠ 7 then w.2 else b) (predRead th p)

/-- The registers that a lane's writes name, with handler mode's own registers numbered from 256 as pending writes number them. -/
def wroteRegs (x : Site) (o : LaneOut) : List Nat := o.vs.map fun e => pendReg x.g.handler e.1

/-- The lanes show a word's writes, and nothing else of the machine has changed: `o` gives what each active lane writes, `dsm`
the word's DSM field. -/
structure LanesShow (s : State) (x : Site) (dsm : BitVec 4) (o : Nat → LaneOut) (t : State) (y : Site) : Prop where
  /-- The site is the same team's and group's. -/
  same : siteOf t x.t x.k ⟨false, 7⟩ = some y
  /-- A register that an active lane writes reads what it writes. -/
  written : ∀ l ∈ x.act, ∀ n v, (n, v) ∈ (o l).vs → (y.view t).reg l n = v
  /-- Every other register of every lane reads as before. -/
  kept : ∀ l ∈ memberLanes x.g, ∀ n < 256, ¬(l ∈ x.act ∧ n ∈ (o l).vs.map Prod.fst) →
    (y.view t).reg l n = (x.view s).reg l n
  /-- The tag of a v register written is the DSM (R41); every other tag is as before. -/
  tags : ∀ l ∈ memberLanes x.g, ∀ n < 256, sgetD ((y.view t).thr l).tags n 0xF =
    if l ∈ x.act ∧ n ∈ wroteRegs x (o l) then dsm else sgetD ((x.view s).thr l).tags n 0xF
  /-- Predicates. -/
  preds : ∀ l ∈ memberLanes x.g, ∀ p,
    predRead ((y.view t).thr l) p = if l ∈ x.act then predsAfter ((x.view s).thr l) (o l).ps p else predRead ((x.view s).thr l) p
  /-- The word's sticky flags are owed from the cycle of its result (R80, R119); those set stay. -/
  flags : ∀ l ∈ memberLanes x.g, ((y.view t).thr l).fflags = ((x.view s).thr l).fflags
    ∧ ((y.view t).thr l).late = ((x.view s).thr l).late ++
      (if l ∈ x.act ∧ (o l).fl ≠ 0 then [({ o l with due := flagTime s } : LaneOut).late x.g.handler] else [])
  /-- Pending results: those of the registers written are discarded, the windows of the others close by one (R43); in handler mode
  those that handler mode opened (log 25). -/
  pend : ∀ l ∈ memberLanes x.g, ((y.view t).thr l).pend =
    ((((x.view s).thr l).pend.filter fun p => decide ¬(l ∈ x.act ∧ p.reg ∈ wroteRegs x (o l))).map fun p =>
      if pendCounts x.g.handler p then { p with win := p.win - 1 } else p)
  /-- Everything else of the lanes' threads is as before. -/
  threads : ∀ l ∈ memberLanes x.g, ((y.view t).thr l).dc = ((x.view s).thr l).dc
    ∧ ((y.view t).thr l).role = ((x.view s).thr l).role ∧ ((y.view t).thr l).live = ((x.view s).thr l).live
    ∧ ((y.view t).thr l).regBase = ((x.view s).thr l).regBase ∧ ((y.view t).thr l).saveN = ((x.view s).thr l).saveN
    ∧ ((y.view t).thr l).mark = ((x.view s).thr l).mark
  /-- The group stands at the next word; but for handler registers it is the same otherwise. -/
  moved : y.g = { advance s.cycle x.g with counted := false, hregs := y.g.hregs }
  /-- Outside handler mode the handler registers are as before. -/
  hregs : x.g.handler = false → y.g.hregs = x.g.hregs
  /-- The team's other groups, and the threads outside the group, are as before. -/
  groups : ∀ k, k ≠ x.k → sget y.tm.groups k = sget x.tm.groups k
  outside : ∀ i, i ∉ memberTids x.g → sget y.tm.threads i = sget x.tm.threads i
  /-- `%icount` counts the word outside handler mode, once (R345). -/
  icount : y.tm.icount = x.tm.icount + (if x.g.handler || x.g.counted then 0 else 1)
  /-- The rest of the team. -/
  team : { y.tm with threads := x.tm.threads, groups := x.tm.groups, icount := x.tm.icount } = x.tm
  /-- The rest of the machine is as before. -/
  rest : { t with teams := s.teams } = s
  /-- Other teams are as before. -/
  others : ∀ n, n ≠ x.t → sget t.teams n = sget s.teams n

/-! ## Words of the lanes (R92 to R117, R118 to R136) -/

/-- A word of the lanes: its common fields, what it asks before it issues, and what each active lane writes. -/
structure LaneWord where
  head : Head
  req  : Req
  out  : LView → Nat → LaneOut

/-- One result from one, two or three source registers; a pair from pairs; a pair from a pair and a register. -/
def word1 (h : Head) (d a : VReg) (f : Word → Word) : LaneWord :=
  ⟨h, aluReq h (one [d, a]), fun v l => out1 l d (f (v.r l a))⟩
def word2 (h : Head) (d a b : VReg) (f : Word → Word → Word) : LaneWord :=
  ⟨h, aluReq h (one [d, a, b]), fun v l => out1 l d (f (v.r l a) (v.r l b))⟩
def word3 (h : Head) (d a b c : VReg) (f : Word → Word → Word → Word) : LaneWord :=
  ⟨h, aluReq h (one [d, a, b, c]), fun v l => out1 l d (f (v.r l a) (v.r l b) (v.r l c))⟩
def wordPair (h : Head) (d a : VReg) (f : DWord → DWord) : LaneWord :=
  ⟨h, aluReq h (two [d, a]), fun v l => out2 l d (f (v.r64 l a))⟩
def wordPair1 (h : Head) (d a b : VReg) (f : DWord → Word → DWord) : LaneWord :=
  ⟨h, aluReq h (two [d, a] ++ one [b]), fun v l => out2 l d (f (v.r64 l a) (v.r l b))⟩
def wordPair2 (h : Head) (d a b : VReg) (f : DWord → DWord → DWord) : LaneWord :=
  ⟨h, aluReq h (two [d, a, b]), fun v l => out2 l d (f (v.r64 l a) (v.r64 l b))⟩

/-- The integer and logic words of class A, as R96 to R108 give their results. -/
def intWord : Instr → Option LaneWord
  | .iadd h d a b m => some ⟨h, aluReq h (one [d, a, b]) m.cc.toList, fun v l =>
      addOut l d m (extS m.sgn (v.r l a) + extS m.sgn (v.r l b)) (2 ^ 32 ≤ (v.r l a).toNat + (v.r l b).toNat)⟩
  | .iaddImm h d a i m => some ⟨h, aluReq h (one [d, a]) m.cc.toList, fun v l =>
      addOut l d m (extS m.sgn (v.r l a) + extS m.sgn (imm32 m.sgn i)) (2 ^ 32 ≤ (v.r l a).toNat + (imm32 m.sgn i).toNat)⟩
  | .isub h d a b m => some ⟨h, aluReq h (one [d, a, b]) m.cc.toList, fun v l =>
      addOut l d m (extS m.sgn (v.r l a) - extS m.sgn (v.r l b)) ((v.r l a).toNat < (v.r l b).toNat)⟩
  | .isubImm h d a i m => some ⟨h, aluReq h (one [d, a]) m.cc.toList, fun v l =>
      addOut l d m (extS m.sgn (v.r l a) - extS m.sgn (imm32 m.sgn i)) ((v.r l a).toNat < (imm32 m.sgn i).toNat)⟩
  | .iaddx h d a b c cc => some ⟨h, aluReq h (one [d, a, b]) (c.p :: cc.toList), fun v l =>
      addOut l d ⟨cc, false, false⟩ ((v.r l a).toNat + (v.r l b).toNat + (v.p l c).toNat : Nat)
        (2 ^ 32 ≤ (v.r l a).toNat + (v.r l b).toNat + (v.p l c).toNat)⟩
  | .ineg h d a sat => some (word1 h d a fun x => if sat ∧ x = 0x80000000 then 0x7FFFFFFF else -x)
  | .iabs h d a sat => some (word1 h d a fun x =>
      if x.msb then (if sat ∧ x = 0x80000000 then 0x7FFFFFFF else -x) else x)
  | .imin h d a b sgn => some (word2 h d a b fun x y => if extS sgn x ≤ extS sgn y then x else y)
  | .iminImm h d a i sgn => some (word1 h d a fun x => if extS sgn x ≤ extS sgn (imm32 sgn i) then x else imm32 sgn i)
  | .imax h d a b sgn => some (word2 h d a b fun x y => if extS sgn x ≤ extS sgn y then y else x)
  | .imaxImm h d a i sgn => some (word1 h d a fun x => if extS sgn x ≤ extS sgn (imm32 sgn i) then imm32 sgn i else x)
  | .imul h d a b => some (word2 h d a b fun x y => x * y)
  | .imulImm h d a i => some (word1 h d a fun x => x * i.signExtend 32)
  | .imulh h d a b sgn => some (word2 h d a b fun x y => BitVec.ofInt 32 ((extS sgn x * extS sgn y) / 2 ^ 32))
  | .imulhImm h d a i sgn => some (word1 h d a fun x => BitVec.ofInt 32 ((extS sgn x * extS sgn (imm32 sgn i)) / 2 ^ 32))
  | .imulw h d a b sgn => some ⟨h, aluReq h (two [d] ++ one [a, b]), fun v l =>
      out2 l d (BitVec.ofInt 64 (extS sgn (v.r l a) * extS sgn (v.r l b)))⟩
  | .imad h d a b c => some (word3 h d a b c fun x y z => x * y + z)
  | .imadw h d a b c sgn => some ⟨h, aluReq h (two [d, c] ++ one [a, b]), fun v l =>
      out2 l d (BitVec.ofInt 64 (extS sgn (v.r l a) * extS sgn (v.r l b)) + v.r64 l c)⟩
  | .and h d a b => some (word2 h d a b fun x y => x &&& y)
  | .andImm h d a i => some (word1 h d a fun x => x &&& i.zeroExtend 32)
  | .or h d a b => some (word2 h d a b fun x y => x ||| y)
  | .orImm h d a i => some (word1 h d a fun x => x ||| i.zeroExtend 32)
  | .xor h d a b => some (word2 h d a b fun x y => x ^^^ y)
  | .xorImm h d a i => some (word1 h d a fun x => x ^^^ i.zeroExtend 32)
  | .andn h d a b => some (word2 h d a b fun x y => x &&& ~~~y)
  | .andnImm h d a i => some (word1 h d a fun x => x &&& ~~~(i.zeroExtend 32))
  | .not h d a => some (word1 h d a fun x => ~~~x)
  | .lop3 h d a b c tt => some (word3 h d a b c (lop3 (0#1 ++ tt)))
  | .lop3Hi h d a b c tt => some (word3 h d a b c (lop3 (1#1 ++ tt)))
  | .shl h d a b wrap => some (word2 h d a b fun x y => x <<< (if wrap then y.toNat % 32 else y.toNat))
  | .shlImm h d a i wrap => some (word1 h d a fun x => x <<< (if wrap then i.toNat % 32 else i.toNat))
  | .shr h d a b sgn wrap => some (word2 h d a b fun x y => shrW sgn wrap x y.toNat)
  | .shrImm h d a i sgn wrap => some (word1 h d a fun x => shrW sgn wrap x i.toNat)
  | .shf h d a b c right wrap => some (word3 h d a b c fun x y z => shfW right wrap x y z.toNat)
  | .rot h d a b right => some (word2 h d a b fun x y => if right then x.rotateRight (y.toNat % 32) else x.rotateLeft (y.toNat % 32))
  | .rotImm h d a i right => some (word1 h d a fun x =>
      if right then x.rotateRight (i.toNat % 32) else x.rotateLeft (i.toNat % 32))
  | .bfx h d a b sgn => some (word2 h d a b (bfxW sgn))
  | .bfi h d a b c => some (word3 h d a b c bfiW)
  | .popc h d a => some (word1 h d a fun x => BitVec.ofNat 32 (popcW x))
  | .clz h d a => some (word1 h d a fun x => BitVec.ofNat 32 (clzW x))
  | .ffs h d a => some (word1 h d a ffsW)
  | .brev h d a => some (word1 h d a BitVec.reverse)
  | .icmp h pd a b cmp sgn comb => some ⟨h, aluReq h (one [a, b]) (pd :: combPreds comb), fun v l =>
      outP l pd (combined v l comb (cmpInt cmp (extS sgn (v.r l a)) (extS sgn (v.r l b))))⟩
  | .icmpImm h pd a i cmp sgn => some ⟨h, aluReq h (one [a]) [pd], fun v l =>
      outP l pd (cmpInt cmp (extS sgn (v.r l a)) (extS sgn (imm32 sgn i)))⟩
  | .isel h d a b c => some ⟨h, aluReq h (one [d, a, b]) [c.p], fun v l => out1 l d (if v.p l c then v.r l a else v.r l b)⟩
  | .mov h d a => some (word1 h d a fun x => x)
  | .movi h d i m => some ⟨⟨h.guard, h.dsm, 0, 6⟩,
      { guard := h.guard, lane := true, regs := match m with | .w32 => one [d] | .sx | .zx => two [d] },
      fun _ l => match m with
        | .w32 => out1 l d i
        | .sx => out2 l d (i.signExtend 64)
        | .zx => out2 l d (i.zeroExtend 64)⟩
  | .movg h d n m => some ⟨h, aluReq h (match m with | .lo | .hi => one [d] | .pair => two [d]), fun v l =>
      match m with
      | .lo => out1 l d ((gRead v.tm n.toNat).extractLsb' 0 32)
      | .hi => out1 l d ((gRead v.tm n.toNat).extractLsb' 32 32)
      | .pair => out2 l d (gRead v.tm n.toNat)⟩
  | .lea h d a b sgn sh => some (wordPair1 h d a b fun x y => x + (if sgn then y.signExtend 64 else y.zeroExtend 64) <<< sh.toNat)
  | .leaImm h d a i sgn sh => some (wordPair h d a fun x => x + (if sgn then i.signExtend 64 else i.zeroExtend 64) <<< sh.toNat)
  | .add64 h d a b => some (wordPair2 h d a b fun x y => x + y)
  | .add64Imm h d a i => some (wordPair h d a fun x => x + i.signExtend 64)
  | .sub64 h d a b => some (wordPair2 h d a b fun x y => x - y)
  | .shl64 h d a b wrap => some (wordPair1 h d a b fun x y => x <<< (if wrap then y.toNat % 64 else y.toNat))
  | .shl64Imm h d a i wrap => some (wordPair h d a fun x => x <<< (if wrap then i.toNat % 64 else i.toNat))
  | .shr64 h d a b sgn wrap => some (wordPair1 h d a b fun x y => shrD sgn wrap x y.toNat)
  | .shr64Imm h d a i sgn wrap => some (wordPair h d a fun x => shrD sgn wrap x i.toNat)
  | .icmp64 h pd a b cmp sgn comb => some ⟨h, aluReq h (two [a, b]) (pd :: combPreds comb), fun v l =>
      outP l pd (combined v l comb (cmpInt cmp (extS64 sgn (v.r64 l a)) (extS64 sgn (v.r64 l b))))⟩
  | _ => none

/-- FP32 sources after their negations, with the flags of the result (R120). -/
def fword1 (h : Head) (d a : VReg) (na : Bool) (f : Nat → FRes) : LaneWord :=
  ⟨h, aluReq h (one [d, a]), fun v l => outFR l d (f (fsrc na (v.r l a)))⟩
def fword2 (h : Head) (d a b : VReg) (na nb : Bool) (f : Nat → Nat → FRes) : LaneWord :=
  ⟨h, aluReq h (one [d, a, b]), fun v l => outFR l d (f (fsrc na (v.r l a)) (fsrc nb (v.r l b)))⟩
/-- Both halves of packed sources (R128). -/
def hword2 (h : Head) (d a b : VReg) (na nb bf : Bool) (f : Nat → Nat → FRes) : LaneWord :=
  ⟨h, aluReq h (one [d, a, b]), fun v l =>
    packHalves l d (f (hsrc bf na false (v.r l a)) (hsrc bf nb false (v.r l b)))
      (f (hsrc bf na true (v.r l a)) (hsrc bf nb true (v.r l b)))⟩

/-- The floating-point, conversion and bit-plane words of classes A and F (R121 to R136). -/
def floatWord : Instr → Option LaneWord
  | .fadd h d a b na nb r => some (fword2 h d a b na nb (fadd .f32 r))
  | .fsub h d a b na nb r => some (fword2 h d a b na (!nb) (fadd .f32 r))
  | .fmul h d a b na nb r => some (fword2 h d a b na nb (fmul .f32 r))
  | .ffma h d a b c na nb nc r => some ⟨h, aluReq h (one [d, a, b, c]), fun v l =>
      outFR l d (ffma .f32 r (fsrc na (v.r l a)) (fsrc nb (v.r l b)) (fsrc nc (v.r l c)))⟩
  | .fmin h d a b na nb => some (fword2 h d a b na nb (fminmax .f32 false))
  | .fmax h d a b na nb => some (fword2 h d a b na nb (fminmax .f32 true))
  | .fcmp h pd a b cmp comb => some ⟨h, aluReq h (one [a, b]) (pd :: combPreds comb), fun v l =>
      { lane := l, ps := [(pd, combined v l comb (fcompare .f32 cmp (v.r l a).toNat (v.r l b).toNat).1)],
        fl := (fcompare .f32 cmp (v.r l a).toNat (v.r l b).toNat).2 }⟩
  | .frnd h d a na r => some (fword1 h d a na (frndInt .f32 r))
  | .fclass h d a => some (word1 h d a fun x => BitVec.ofNat 32 (2 ^ fclassBit .f32 x.toNat))
  | .hadd2 h d a b na nb bf r => some (hword2 h d a b na nb bf (fadd (halfFmt bf) r))
  | .hmul2 h d a b na nb bf r => some (hword2 h d a b na nb bf (fmul (halfFmt bf) r))
  | .hfma2 h d a b c na nb nc bf r => some ⟨h, aluReq h (one [d, a, b, c]), fun v l =>
      packHalves l d
        (ffma (halfFmt bf) r (hsrc bf na false (v.r l a)) (hsrc bf nb false (v.r l b)) (hsrc bf nc false (v.r l c)))
        (ffma (halfFmt bf) r (hsrc bf na true (v.r l a)) (hsrc bf nb true (v.r l b)) (hsrc bf nc true (v.r l c)))⟩
  | .hmin2 h d a b na nb bf => some (hword2 h d a b na nb bf (fminmax (halfFmt bf) false))
  | .hmax2 h d a b na nb bf => some (hword2 h d a b na nb bf (fminmax (halfFmt bf) true))
  | .hcmp2 h pd a b cmp bf comb => some ⟨h, aluReq h (one [a, b]) (pd :: (pd + 1) :: combPreds comb), fun v l =>
      let half := fun hi => fcompare (halfFmt bf) cmp (hsrc bf false hi (v.r l a)) (hsrc bf false hi (v.r l b))
      { lane := l, ps := [(pd, combined v l comb (half false).1), (pd + 1, combined v l comb (half true).1)],
        fl := (half false).2 ||| (half true).2 }⟩
  | .cvtfi h d a ik fk hi r => some ⟨h, aluReq h ((if ikWide ik then two [d] else one [d]) ++ one [a]), fun v l =>
      let x := fToInt (fmtOf fk) ik r (fkSrc fk hi (v.r l a))
      if ikWide ik then { out2 l d (BitVec.ofInt 64 x.1) with fl := x.2 } else { out1 l d (BitVec.ofInt 32 x.1) with fl := x.2 }⟩
  | .cvtif h d a ik fk r => some ⟨h, aluReq h ((if ikWide ik then two [a] else one [a]) ++ one [d]), fun v l =>
      outFR l d (intToF (fmtOf fk) r (if ikWide ik then extS64 (ikSigned ik) (v.r64 l a) else extS (ikSigned ik) (v.r l a)))⟩
  | .cvtff h d a dk ak hi r => some ⟨h, aluReq h (one [d, a]), fun v l =>
      outFR l d (fconv (fmtOf dk) (fmtOf ak) r (fkSrc ak hi (v.r l a)))⟩
  | .bpq h d a b fs xs => some ⟨h,
      { aluReq h (one (if xs then [d, a, b] else [d, a])) with
        ok := fun x => planeSlot x fs && (!xs || (slotAt x.lr fs).scaled) }, fun v l =>
      let sl := slotAt v.lr fs
      let byte : Byte :=
        if xs then (v.r l b).extractLsb' 0 8 else if sl.scaled then blockScale sl (finiteVals v a) else 0x80
      let r := bpqOne sl byte (v.r l a)
      outF l d (0#16 ++ byte ++ BitVec.ofNat 8 r.v) r.fl⟩
  | .bpdq h d a fs => some ⟨h, { aluReq h (one [d, a]) with ok := fun x => planeSlot x fs }, fun v l =>
      let sl := slotAt v.lr fs
      let t := planeValue ((v.r l a).extractLsb' 0 8) sl.k sl.sgn sl.mid
      let sc := if sl.scaled then scaleVal ((v.r l a).extractLsb' 8 8) else Q.ofInt 1
      out1 l d (BitVec.ofNat 32 (froundZ .f32 .rn ((Q.ofInt t).mul sc) false).v)⟩
  | .bppk h d a => some ⟨h, aluReq h (one [d, a]), fun v l =>
      out1 l d (maskOf (v.act.filter fun m => (v.r m a).getLsbD (7 - l % 8)))⟩
  | .bpupk h d a fs => some ⟨h, { aluReq h (one [d, a]) with ok := fun x => planeSlot x fs }, fun v l =>
      out1 l d (maskOf ((List.range 8).filter fun b =>
        8 - (slotAt v.lr fs).k ≤ b && v.act.contains (7 - b) && (v.r (7 - b) a).getLsbD l))⟩
  | _ => none

/-- The predicate and exchange words of class A (R109 to R113). -/
def exchangeWord : Instr → Option LaneWord
  | .plop h pd a b tt => some ⟨h, aluReq h [] [pd, a.p, b.p], fun v l => outP l pd (tt.getLsbD (2 * (v.p l a).toNat + (v.p l b).toNat))⟩
  | .pmov h (.toV d) => some ⟨h, aluReq h (one [d]) allPreds, fun v l => out1 l d (0#24 ++ 1#1 ++ (v.thr l).preds)⟩
  | .pmov h (.fromV mask a) => some ⟨h, aluReq h (one [a]) allPreds, fun v l =>
      { lane := l, ps := (List.range 7).filterMap fun i =>
          if mask.getLsbD i then some (BitVec.ofNat 3 i, (v.r l a).getLsbD i) else none }⟩
  | .shfl h d a b mode own => some ⟨h, aluReq h (one [d, a, b]), fun v l =>
      out1 l d (shflVal v a mode own l (v.r l b).toNat)⟩
  | .shflImm h d a i mode own => some ⟨h, aluReq h (one [d, a]), fun v l => out1 l d (shflVal v a mode own l i.toNat)⟩
  | .vote h d mode a => some ⟨h, voteReq h d mode a,
      fun v l =>
        let yes := v.act.filter fun l => v.p l a
        let p : PReg := d.extractLsb' 0 3
        match mode with
        | .all => outP l p (yes.length = v.act.length)
        | .any => outP l p (yes.length ≠ 0)
        | .same => outP l p (yes.length = 0 || yes.length = v.act.length)
        | .most => outP l p (v.act.length < 2 * yes.length)
        | .mask => out1 l d (maskOf yes)
        | .count => out1 l d (BitVec.ofNat 32 yes.length)⟩
  | _ => none

/-- The lane words of class L: division, the functions of R126 and R127, MATCH and REDUX. -/
def longWord : Instr → Option LaneWord
  | .idiv h d a b sgn => some (word2 h d a b fun x y => (divide sgn x y).1)
  | .imod h d a b sgn => some (word2 h d a b fun x y => (divide sgn x y).2)
  | .frcp h d a na r => some (fword1 h d a na (frecip r))
  | .frsq h d a na => some (fword1 h d a na fun x => frsqrt (approxOf 0 x) x)
  | .fsqrt h d a na r => some (fword1 h d a na (fsqrt r))
  | .fex2 h d a na => some (fword1 h d a na fun x => fexp2 (approxOf 1 x) x)
  | .flg2 h d a na => some (fword1 h d a na fun x => flog2 (approxOf 2 x) x)
  | .fsin h d a na => some (fword1 h d a na fun x => ftrig false (approxOf 3 x) x)
  | .fcos h d a na => some (fword1 h d a na fun x => ftrig true (approxOf 4 x) x)
  | .matchV h d a mode b64 => some ⟨h, aluReq h (one [d] ++ (if b64 then two [a] else one [a])), fun v l =>
      let val := fun l => if b64 then v.r64 l a else (v.r l a).zeroExtend 64
      let same := v.act.filter fun m => val m = val l
      match mode with
      | .mask => out1 l d (maskOf same)
      | .lead => out1 l d (BitVec.ofNat 32 (same.headD 0))
      | .uniq => out1 l d (BitVec.ofNat 32 (v.act.map val).eraseDups.length)⟩
  | .redux h d a op sgn scan => some ⟨h, aluReq h (one [d, a]), fun v l =>
      match op with
      | .fadd => outFR l d (faddTree ((List.range 32).map fun m => ⟨if v.act.contains m then (v.r m a).toNat else 0, 0⟩))
      | .add | .min | .max | .and | .or | .xor =>
        out1 l d (reduxInt op sgn ((v.act.filter fun m => !scan || m ≤ l).map fun m => v.r m a))⟩
  | _ => none
/-! ## Words of the lanes that show their writes -/

/-- What a word of class A or F of a table does: wherever it issues, the machine goes on, and the lanes show its writes: each
active lane's registers, predicates and flags take what the table gives, and every other register, predicate and flag, memory,
and the rest of the machine stay. -/
def ShowsItsWrites (i : Instr) (w : LaneWord) : Prop :=
  ∀ s x s1, i.wf = true → issueSite w.req s = some (x, s1) → OwnLanes x → Untraced s1 x →
    ∃ t y, exec i s = .next t ∧ LanesShow s1 x w.head.dsm (w.out (x.view s1)) t y


/-! ## Codes of the opcode map (R49) -/

/-- The codes that R49 lists as unassigned. -/
def unassignedCode (o : Nat) : Bool :=
  [(0x02A, 0x03F), (0x042, 0x044), (0x049, 0x04D), (0x052, 0x054), (0x057, 0x057), (0x059, 0x05E), (0x060, 0x063),
    (0x066, 0x066), (0x069, 0x07F), (0x09D, 0x0FF), (0x107, 0x13F), (0x14E, 0x1BF), (0x1CC, 0x1FF), (0x208, 0x23F),
    (0x246, 0x24F), (0x256, 0x27F), (0x289, 0x2BF), (0x2C6, 0x2DF), (0x2E6, 0x2FF), (0x302, 0x30F), (0x312, 0x31F),
    (0x32C, 0x33F), (0x346, 0x3FF)].any fun r => r.1 ≤ o && o ≤ r.2
/-! ## The home directories (R372) -/

/-- The entries of the home directories stand under their own keys, are aligned regions of 128 bytes to 64 KiB, and do not meet. -/
def DirSound (s : State) : Prop :=
  (s.dir.map Prod.fst).Pairwise (· < ·) ∧
  (∀ e ∈ s.dir, e.1 = dirKey e.2.base (dieOf e.2.base) ∧ (∃ k, 7 ≤ k ∧ k ≤ 16 ∧ e.2.size = 2 ^ k) ∧ e.2.base % e.2.size = 0) ∧
  ∀ e ∈ s.dir, ∀ f ∈ s.dir, e.1 ≠ f.1 → e.2.base + e.2.size ≤ f.2.base ∨ f.2.base + f.2.size ≤ e.2.base

/-! ## Words that complete -/

/-- Wherever a group's word issues and `ok` holds of its site, it retires with an effect. -/
def GroupCompletes (i : Instr) (r : Req) (ok : Site → State → Prop) (eff : Site → State → State) : Prop :=
  ∀ s x s1, issueSite r s = some (x, s1) → ok x s1 → exec i s = .next (retired (eff x s1) x)

/-- Wherever a sequencer's word issues and `ok` holds of its site, it retires with an effect. -/
def SeqCompletes (i : Instr) (r : SReq) (ok : SSite → State → Prop) (eff : SSite → State → State) : Prop :=
  ∀ s x, seqSite r s = some x → ok x s → exec i s = .next (seqRetired (eff x s) x)

/-- Wherever a group's word issues and `ok` holds of its site, it traps without effect. -/
def GroupTraps (i : Instr) (r : Req) (ok : Site → State → Prop) (tr : Site → State → Trap) : Prop :=
  ∀ s x s1, issueSite r s = some (x, s1) → ok x s1 →
    exec i s = .next (trapGroup s1 x.t x.k (tr x s1) x.act (hpcWord x.g.pc x.g.wix))

/-- Wherever a group's word issues and `ok` holds of its site, it waits there, with an effect. -/
def GroupWaits (i : Instr) (r : Req) (ok : Site → State → Prop) (eff : Site → State → State) : Prop :=
  ∀ s x s1, issueSite r s = some (x, s1) → ok x s1 → exec i s = .next (modTeam (eff x s1) x.t (waitTeam x.lr s1.cycle x.k))

/-- Wherever a sequencer's word issues and `ok` holds of its site, it waits there, with an effect. -/
def SeqWaits (i : Instr) (r : SReq) (ok : SSite → State → Prop) (eff : SSite → State → State) : Prop :=
  ∀ s x, seqSite r s = some x → ok x s →
    exec i s = .next (modSeq (eff x s) x.t fun q => { q with status := .waiting, waitzDone := true })

/-- The pending writes of a thread that become visible as its group issues: their windows have closed, and their values have
arrived (R43). -/
def dueNow (handler : Bool) (th : Thread) : List PendingWrite :=
  th.pend.filter fun p => pendCounts handler p && p.win = 0 && p.arr

/-- No condition. -/
def always (_ : Site) (_ : State) : Prop := True
def alwaysSeq (_ : SSite) (_ : State) : Prop := True

/-! ## Memory words -/

/-- An access of global memory passes its checks (R171), and the place it reaches. -/
def GlobalOk (s : State) (ctx : Nat) (ea : DWord) (n : Nat) (p : Path) (write : Bool) : Prop :=
  ∃ l, checkGlobal s ctx ea n p write = .ok l
def locAt (s : State) (ctx : Nat) (ea : DWord) (n : Nat) (p : Path) (write : Bool) : Loc :=
  match checkGlobal s ctx ea n p write with
  | .ok l => l
  | .error _ => placeLoc default

/-- What a global load leaves: the translations used are held, and one operation is open whose lanes' elements are read in this
step or in a later one (log 8). -/
def loaded (h : Head) (d : VReg) (p : Path) (na sx : Bool) (n : Nat) (ea : LView → Nat → DWord) (x : Site) (s : State) : State :=
  let loc := fun l => locAt s x.tm.ctx (ea (x.view s) l) n p false
  openLoad (x.act.foldl (fun s' l => xlatFill s' x.tm.core x.tm.ctx (ea (x.view s) l).toNat (loc l)) s) x h []
    (x.act.flatMap fun l => lanePieces x l n d.toNat sx na (memAt p (ea (x.view s) l).toNat (loc l)))

/-- What a load of scratchpad leaves; `off` gives a lane's team and offset. -/
def loadedSp (h : Head) (d : VReg) (sx : Bool) (n : Nat) (lanes : LView → List Nat) (off : LView → Nat → Nat × Nat) (x : Site)
    (s : State) : State :=
  openLoad s x h [] ((lanes (x.view s)).flatMap fun l =>
    lanePieces x l n d.toNat sx false fun i => .sp (off (x.view s) l).1 ((off (x.view s) l).2 + i))

/-- What a global store leaves: each lane's bytes passed to the core's buffers, lanes ascending, and one operation open. -/
def stored (h : Head) (d : VReg) (n : Nat) (lanes : LView → List Nat) (ea : LView → Nat → DWord) (x : Site) (s : State) : State :=
  openLong ((lanes (x.view s)).foldl (fun s' l =>
    let loc := locAt s x.tm.ctx (ea (x.view s) l) n .ls true
    laneStores (xlatFill s' x.tm.core x.tm.ctx (ea (x.view s) l).toNat loc) (x.who l) .ls l (ea (x.view s) l).toNat loc
      (storeData (x.view s) l n d)) s) x h (groupOp x h.dc .plain) []

/-- What a store to scratchpad leaves; `off` gives a lane's team and offset. -/
def storedSp (h : Head) (d : VReg) (n : Nat) (lanes : LView → List Nat) (off : LView → Nat → Nat × Nat) (x : Site) (s : State) :
    State :=
  openLong ((lanes (x.view s)).foldl (fun s' l =>
    spStore (x.who l) (off (x.view s) l).1 (off (x.view s) l).2 (storeData (x.view s) l n d) s') s) x h (groupOp x h.dc .plain) []

/-- A cluster-scratchpad value's team and offset (R189). -/
def clusterAt (x : Site) (ea : Nat) : Nat × Nat := (mateOf x ea, ea % 2 ^ 20)

/-- The lanes of a gather or scatter whose index is no sentinel. -/
def idxLanes (b : VReg) (ix : Index) (v : LView) : List Nat := v.act.filter fun l => !isSentinel ix (idxVal v l b ix)

/-- What a global gather leaves. -/
def gathered (h : Head) (d a b : VReg) (ix : Index) (n : Nat) (sx : Bool) (x : Site) (s : State) : State :=
  let lanes := idxLanes b ix (x.view s)
  let ea := fun l => idxAddr ((x.view s).r64 l a) ix (idxVal (x.view s) l b ix)
  openLoad (lanes.foldl (fun s' l =>
      match checkGlobal s' x.tm.ctx (localize s' (ea l)) n .ls false with
      | .ok loc => xlatFill s' x.tm.core x.tm.ctx (localize s' (ea l)).toNat loc
      | .error _ => s') s) x h []
    (lanes.flatMap fun l => match gathSrc s x n (ea l) with
      | .ok src => lanePieces x l n d.toNat sx false src
      | .error _ => [])

/-- The place of a lane's element, if it has one. -/
def elemPlace (s : State) (x : Site) (a : VReg) (imm : BitVec 16) (l : Nat) : Option ElemPlace :=
  match elemSel s x (x.view s) l a imm with
  | .place p => some p
  | .fault _ | .pad _ | .skip => none

/-- What a lane's element meets at its view: data at once where it is no view's (R305). -/
def elemView (s : State) (x : Site) (a : VReg) (imm : BitVec 16) (l : Nat) : ViewRead :=
  match elemPlace s x a imm l with
  | some p => ldlView s x p l
  | none => .data none

/-- A lane's element passes its checks, or is out of bounds under PAD or CLIP; its view does not stop it; and it gives data. -/
def elemPasses (s : State) (x : Site) (a : VReg) (imm : BitVec 16) (l : Nat) : Prop :=
  match elemSel s x (x.view s) l a imm with
  | .fault _ => False
  | .pad _ | .skip => True
  | .place p => elemCheck s x p false = none ∧ ∀ f, ldlView s x p l ≠ .fault f
def elemReads (s : State) (x : Site) (a : VReg) (imm : BitVec 16) (l : Nat) : Prop :=
  elemPasses s x a imm l ∧ elemView s x a imm l ≠ .wait
/-- What STL asks of a lane's element: no view's, and its checks pass. -/
def elemWrites (s : State) (x : Site) (a : VReg) (imm : BitVec 16) (l : Nat) : Prop :=
  match elemSel s x (x.view s) l a imm with
  | .fault _ => False
  | .pad _ | .skip => True
  | .place p => recVid p.lay = 0 ∧ elemCheck s x (stlPlace p) true = none

/-- What an LDL lane is owed without a read: padding, or nothing. -/
def elemKnown (s : State) (x : Site) (d a : VReg) (imm : BitVec 16) (l : Nat) : Option LaneOut :=
  match elemSel s x (x.view s) l a imm with
  | .pad w => some (out1 l d w)
  | .skip => some { lane := l }
  | .fault _ | .place _ => none

/-- What an LDL lane reads. -/
def elemLoad (s : State) (x : Site) (d : VReg) (l : Nat) (p : ElemPlace) : Nat × LoadElem :=
  (l, { tid := some (sgetD x.g.members l 0), hnd := x.g.handler, na := false, srcs := elemSrcs s x p,
        fmt := .elem d.toNat p.slot (bpiPlace p.lay p.coord).2 })

/-- What LDL leaves: SR of the views whose stale data it takes is set (R305), and one operation is open, which reads the lanes'
elements. -/
def elemsLoaded (h : Head) (d a : VReg) (imm : BitVec 16) (x : Site) (s : State) : State :=
  let s1 := setSr s x.tm.ctx (x.act.filterMap fun l => match elemView s x a imm l with | .data k => k | .wait => none | .fault _ => none)
  let s2 := x.act.foldl (fun s' l => match elemPlace s x a imm l with | some p => elemFill s' x (elemLocs s1 x p false) | none => s') s1
  openLoad (if x.g.cons = [] then s2 else setLays (setCons s2 x []) x []) x h
    (x.act.filterMap (elemKnown s x d a imm))
    (x.act.filterMap fun l => (elemPlace s x a imm l).map (elemLoad s x d l))

/-- What an LDL leaves that waits for a view's block: what each lane has met, and the record that its access uses (R193, R305). -/
def elemsHeld (a : VReg) (imm : BitVec 16) (x : Site) (s : State) : State :=
  setLays (setCons s x (x.act.map fun l => match elemView s x a imm l with
    | .data k => (l, (k.map (· + 1)).getD 0, true)
    | .wait => (l, 0, false)
    | .fault _ => (l, 0, false))) x (x.act.filterMap fun l => (laneRec x (x.view s) l a).map fun r => (l, r))

/-- What STL leaves. -/
def elemsStored (h : Head) (d a : VReg) (imm : BitVec 16) (x : Site) (s : State) : State :=
  openLong (x.act.foldl (fun s' l => match elemPlace s x a imm l with
      | some p => stlLane (elemFill s' x (elemLocs s x (stlPlace p) true)) x l p (elemLocs s x (stlPlace p) true) ((x.view s).r l d)
      | none => s') s) x h (groupOp x h.dc .plain) []

/-- The distinct addresses of LYLD's records, each with the lane that reads it and its place; the records read, in order, and the
machine after the reads. -/
def lyldPlaces (a : VReg) (imm : BitVec 16) (x : Site) (s : State) : List (Nat × Nat × Loc) :=
  (x.act.map fun l => (gaddr (x.view s) l a imm).toNat).eraseDups.map fun ad =>
    let l := (x.act.find? fun l => (gaddr (x.view s) l a imm).toNat = ad).getD 0
    (ad, l, locAt s x.tm.ctx (gaddr (x.view s) l a imm) 64 .ly false)
def lyldReads (a : VReg) (imm : BitVec 16) (x : Site) (s : State) : List (Nat × BitVec 512) × State :=
  recordsAt x.who .ly (lyldPlaces a imm x s) s

/-- The walks of TWALK's lanes, ascending, and the machine after their reads. -/
def walked (a b : VReg) (n : BitVec 4) (x : Site) (s : State) : List (Nat × Except AFault (Nat × Nat)) × State :=
  twalkLanes (fun s' l => twalkLane s' x l ((x.view s).r64 l a) ((x.view s).r64 l b) n.toNat) x.act s

/-! ## Atomics, ordering, synchronisation -/

/-- A release of the active threads finds no store that its page refuses. -/
def releaseOk (x : Site) (s : State) : Prop := stuckStores s x.t x.tids false = []

/-- Every active lane's atomic passes its checks, a release finds no store that its page refuses, and a deterministic team's core
has no atomic open (R353). -/
def atomOk (os : AtomOS) (n : Nat) (a : VReg) (imm : BitVec 16) (x : Site) (s : State) : Prop :=
  (∀ l ∈ x.act, if osSp os then checkSp x.tm (atomAddr os a imm (x.view s) l).toNat n .store .spTeam = none
    else GlobalOk s x.tm.ctx (atomAddr os a imm (x.view s) l) n .ls true)
  ∧ (osRel os = true → releaseOk x s)

/-- The lanes' read-modify-writes, ascending, after the release: old values by lane, and the state. -/
def atomRun (os : AtomOS) (n : Nat) (a : VReg) (imm : BitVec 16) (f : LView → Nat → Nat → Option Nat) (x : Site) (s : State) :
    List (Nat × Nat) × State :=
  let s0 := if osRel os then performFor s x.t x.parties (osScope os) false else s
  atomLanes (fun s' l =>
    let ea := atomAddr os a imm (x.view s) l
    let loc := locAt s x.tm.ctx ea n .ls true
    if osSp os then atomSp s' (x.who l) x.t ea.toNat n (f (x.view s) l)
    else atomicAt (xlatFill s' x.tm.core x.tm.ctx ea.toNat loc) (x.who l) ea.toNat loc n (f (x.view s) l)) x.act s0

/-- The fork of the release and the acquire that follow the lanes. -/
def atomOrder (os : AtomOS) (x : Site) (s : State) : State :=
  let s := if osRel os then releaseFork s x.t x.tids (osScope os) else s
  if osAcq os ∧ x.act ≠ [] then acquireBy s x (osScope os) else s

/-- What an atomic leaves that gives its old values, and one that gives none: its operation is marked as an atomic's (R353). -/
def atomDone (h : Head) (os : AtomOS) (out : Nat × Nat → LaneOut) (x : Site) (r : List (Nat × Nat) × State) : State :=
  let s := atomOrder os x r.2
  markAtom (openRead s x h (r.1.map out)) s.nextOp
def atomQuiet (h : Head) (os : AtomOS) (x : Site) (r : List (Nat × Nat) × State) : State :=
  let s := atomOrder os x r.2
  markAtom (openLong s x h (groupOp x h.dc .plain) []) s.nextOp

/-- A posting word's site: it has an active member, and its release finds no store that its page refuses. -/
def postOk (x : Site) (s : State) : Prop := x.act ≠ [] ∧ releaseOk x s

/-- What a posting word with a release leaves: the threads' accesses performed, the event, the fork, one operation open. -/
def posted (h : Head) (sc : Scope) (event : Site → State → State) (outs : Site → List LaneOut) (x : Site) (s : State) : State :=
  openLong (releaseFork (event x (performFor s x.t x.parties sc false)) x.t x.tids sc) x h (groupOp x h.dc .plain) (outs x)
def postedSeq (h : Head) (sc : Scope) (event : SSite → State → State) (x : SSite) (s : State) : State :=
  openSeq (releaseForkSeq (event x (releaseSeq s x sc)) x.t sc) x.t h.dc.toNat .plain

/-- A waiting issuer's state as a later try of its word begins. -/
def retryAt (s : State) : Issuer → State
  | .group t k => { modTeam s t (fun tm => modGroup tm k fun g => { g with status := .ready }) with issuer := some (.group t k) }
  | .seq t => { modSeq s t (fun q => { q with status := .ready }) with issuer := some (.seq t) }
  | .packet _ => s

/-- A group waits at a word, and does not wait for a turn of deterministic mode. -/
def WaitsAt (s : State) (t k : Nat) (i : Instr) : Prop :=
  issuerInstr s (.group t k) = some i ∧ turnsOnly s (.group t k) = false
    ∧ ∃ tm g, sget s.teams t = some tm ∧ sget tm.groups k = some g ∧ g.status = .waiting

/-- A sequencer waits at a word. -/
def SeqWaitsAt (s : State) (t : Nat) (i : Instr) : Prop :=
  issuerInstr s (.seq t) = some i ∧ ∃ x, ssiteOf s t = some x ∧ x.q.status = .waiting

/-- The cycle of a group's last issue. -/
def lastIssueOf (s : State) (t k : Nat) : Nat :=
  (((sget s.teams t).bind fun tm => sget tm.groups k).map (·.lastIssue)).getD 0

/-- A later try of a group's word ends in `r`: it is no issue of the group, and no turn (R152). -/
def retriedTo (s : State) (t k : Nat) (r : State) : State := keepIssue t k (lastIssueOf s t k) { r with issuer := s.issuer }

/-- Wherever a group waits at a word, the retry of that word would issue, and `ok` holds of its site, the event ends the wait with
an effect. -/
def WaitEnds (i e : Instr) (r : Req) (t k : Nat) (ok : Site → State → Prop) (eff : Site → State → State) : Prop :=
  ∀ s x s1, WaitsAt s t k i → issueSite r (retryAt s (.group t k)) = some (x, s1) → ok x s1 →
    exec e s = .next (retriedTo s t k (retired (eff x s1) x))

/-- The same for the sequencer. -/
def SeqWaitEnds (i e : Instr) (r : SReq) (t : Nat) (ok : SSite → State → Prop) (eff : SSite → State → State) : Prop :=
  ∀ s x, SeqWaitsAt s t i → seqSite r (retryAt s (.seq t)) = some x → ok x (retryAt s (.seq t)) →
    exec e s = .next { seqRetired (eff x (retryAt s (.seq t))) x with issuer := s.issuer }

/-! ## Transfers and system words -/

/-- Wherever a group's word issues and `ok` holds of its site, it issues with an effect and does not retire of itself. -/
def GroupHolds (i : Instr) (r : Req) (ok : Site → State → Prop) (eff : Site → State → State) : Prop :=
  ∀ s x s1, issueSite r s = some (x, s1) → ok x s1 → exec i s = .next (eff x s1)

/-- The lanes' next addresses agree where the word demands it (R151). -/
def uniformOk (u : Bool) (f : LView → Nat → DWord) (x : Site) (s : State) : Prop :=
  u = false ∨ apart (nextsOf x (f (x.view s))) = []

/-- Every active lane's target is a multiple of 8. -/
def targetsAligned (f : LView → Nat → DWord) (x : Site) (s : State) : Prop :=
  ∀ l ∈ x.act, (f (x.view s) l).extractLsb' 0 3 = 0

/-- The members' next addresses differ. -/
def transferApart (f : Site → LView → Nat → DWord) (x : Site) (s : State) : Prop := apart (nextsOf x (f x (x.view s))) ≠ []

/-- UNIFORMITY (R151), and MISALIGNED of CALLX and RET (R157). -/
def uniformityTrap (f : Site → LView → Nat → DWord) (x : Site) (s : State) : Trap :=
  { cause := 6, lanes := apart (nextsOf x (f x (x.view s))) }
def misalignedTrap (a : VReg) (x : Site) (s : State) : Trap :=
  let bad := x.act.filter fun l => ((x.view s).r64 l a).extractLsb' 0 3 ≠ 0
  { cause := 0x14, lanes := bad, addr := (x.view s).r64 (bad.headD 0) a, info := BitVec.ofNat 32 (bad.headD 0 * 2 ^ 13) }

/-- The group has issued a transfer, not yet resolved, to the lanes' next addresses; a deterministic team's resolves next (R153). -/
def transferring (kind : TransferKind) (u : Bool) (link : Option VReg) (f : LView → Nat → DWord) (x : Site) (s : State) : State :=
  modTeam (if x.lr.determ then { s with agenda := s.agenda ++ [.transferResolve x.t x.k] } else s) x.t fun tm =>
    modGroup tm x.k fun g =>
      { g with
        transfer := some { kind := kind, u := u, nexts := nextsOf x (f (x.view s)), active := x.act, link := link },
        waitzDone := true, lastIssue := s.cycle }

/-- The state in which a resolved transfer moves its group: the word retired and its links written. -/
def linked (s : State) (x : Site) (tr : Transfer) : State :=
  modTeam (retired s { x with act := tr.active }) x.t fun tm => writeLinks x.k tr (BitVec.ofNat 64 (fallOf x)) tm

/-- The threads of a transfer's lanes with their next addresses. -/
def nextThreads (x : Site) (l : List (Nat × DWord)) : List (Nat × Nat) := l.map fun e => (sgetD x.g.members e.1 0, e.2.toNat)

/-- What SREAD asks (R362). -/
def sreadReq (h : Head) (d : VReg) (sel : BitVec 16) (m : Half) : Req :=
  { guard := h.guard, regs := (match m with | .pair => two [d] | .lo => one [d] | .hi => one [d]),
    ok := fun x => (match spWide sel.toNat with
      | none => false
      | some wide => wide || m = .lo) && spReadable x sel.toNat }

/-- What SWRITE asks (R362). -/
def swriteReq (g : Guard) (a : VReg) (sel : BitVec 16) (pair : Bool) : Req :=
  { guard := g, priv := true, regs := if pair then two [a] else one [a],
    ok := fun x => spWide sel.toNat = some pair && spWritable x sel.toNat }

/-- A value that SWRITE takes from a lane. -/
def swriteVal (x : Site) (s : State) (a : VReg) (pair : Bool) (l : Nat) : DWord :=
  if pair then (x.view s).r64 l a else ((x.view s).r l a).zeroExtend 64

/-! ## Copies -/

/-- The fork of a request (R233), where it is allowed: with `.rel` what a PFENCE of every path performs and drops, and a release at
`.dev`. -/
def forkOk (rel : Bool) (x : Site) (s : State) : Prop := rel = true → releaseOk x s
def forked (rel : Bool) (x : Site) (s : State) : State :=
  if rel then
    releaseFork (pathDrop (drainWhere (performFor s x.t x.parties .dev false) (pfenceStore x.parties allPaths)) x.tm.core [1, 2, 3, 4, 5])
      x.t x.tids .dev
  else s

/-- A checked side of a copy. -/
def sideOf (s : State) (x : Site) (l n : Nat) (r : VReg) (sp write : Bool) : Side :=
  match checkSide s x (x.view s) l n r sp write with
  | .ok p => p
  | .error _ => .sp 0

/-- The source of an expansion: its index stream's address, its number of indices and their width. -/
def cpydSrc (s : State) (x : Site) (fs : FSlot) (a c : VReg) : Except AFault (List Place) :=
  let ea := (x.view s).r64 x.lead a
  if ea.extractLsb' 52 12 ≠ 0 then .error ⟨0x18, 0, 0, 3, ea⟩
  else checkRange s x.tm.ctx ea.toNat (streamBytes (codeBits (slotOf (fsRead x.lr fs)).kind) ((x.view s).r x.lead c).toNat) .cp false

/-- A group-level class L word that only counts where no member is active (R231): what it asks, and its common fields. -/
def groupWord : Instr → Option (Req × Head)
  | .cpy h a b dir _ _ rel =>
    some (copyReq h ((if cpySrcSp dir then one [a] else two [a]) ++ (if cpyDstSp dir then one [b] else two [b])) rel, h)
  | .cpyl h a b c _ _ rel => some (copyReq h ([(a.toNat, 6)] ++ one [b, c]) rel, h)
  | .cpyd h fs a b c _ _ rel _ =>
    some ({ copyReq h (two [a] ++ one [b, c]) rel with ok := fun x => (slotOf (fsRead x.lr fs)).kind.isCode }, h)
  | .cbld h a _ => some (copyReq h (two [a]), h)
  | .cpyc h d a _ _ => some (cpycReq h d a, h)
  | .crpop h a _ => some (copyReq h (two [a]), h)
  | .gathn h d a b _ _ _ _ rel => some (copyReq h (two [d, a, b]) rel, h)
  | .bufs h _ _ _ => some (syncReq h [] false, h)
  | .semp h _ _ _ => some (syncReq h [] false, h)
  | .semx h _ _ => some (syncReq h [] false, h)
  | .arrive h d _ _ _ rp => some (syncReq h (if rp then one [d] else []) rp, h)
  | .ebset h a => some (sysReq h (two [a]), h)
  | .pmctl h a _ _ => some (sysReq h (one [a]), h)
  | .ctxsave h a => some (sysReq h (two [a]), h)
  | .trctl h a mode _ => some (sysReq h (if mode = .off then [] else two [a]), h)
  | .klaunch h a b cnt => some (workReq h (if cnt then two [a, b] else two [a]), h)
  | .vreg h d a b _ => some (memReq h .views (one [d] ++ two [a, b]), h)
  | .vdrop h a => some (memReq h .views (one [a]), h)
  | .vgen h d a _ => some (memReq h .views (two [d] ++ one [a]), h)
  | .vpol h a _ => some (memReq h .views (one [a]), h)
  | .vstat h d a _ => some (memReq h .views (two [d] ++ one [a]), h)
  | .qbind h a b _ sc n =>
    some ({ quarterReq h ((a.toNat, n.toNat) :: (if sc then one [b] else [])) with ok := fun _ => 2 ≤ n.toNat && n.toNat ≤ 8 }, h)
  | .qrel h _ => some (quarterReq h [], h)
  | _ => none

/-- A group-level word of class W that does nothing where no member is active (R231): what it asks. -/
def groupWait : Instr → Option Req
  | .semw h _ _ _ => some (syncReq h [] false)
  | .waitph h d _ _ _ src => some (syncReq h (if src then one [d] else []) false)
  | .bufw h _ _ _ _ => some (syncReq h [] false)
  | .crwait h d a => some (copyReq h (two [d, a]))
  | .vsync h d a cur => some (memReq h .views ((if cur then [] else two [d]) ++ one [a]))
  | .fence h _ _ _ => some (waitReq h .order)
  | .pfence h _ => some (waitReq h .order)
  | _ => none

/-- What a request of a batch leaves where `.full` is clear: one operation, open on the word's counter and live in its batch. -/
def joined (h : Head) (bid : BatchN) (flags : BitVec 4) (kind : Nat → Nat → OpKind) (x : Site) (s : State) : State :=
  joinBatch s x h bid flags none kind

/-- What CRWAIT's lanes see after its acquire, and the machine after their reads (R244). -/
def crwaited (a : VReg) (x : Site) (s : State) : List (Nat × Except AFault CrSeen) × State :=
  crwaitLanes x (fun l => (x.view s).r64 l a) x.act (acquireBy s x .dev)

/-- Every lane of CRWAIT reads a well-formed ring and a record that it may read. -/
def crwaitOk (a : VReg) (x : Site) (s : State) : Prop :=
  ∀ e ∈ (crwaited a x s).1, ∃ c, e.2 = .ok c

/-- What a CRWAIT leaves whose records have all come: each lane's record's address. -/
def crwaitDone (h : Head) (d a : VReg) (x : Site) (s : State) : State :=
  modTeam (setCons (crwaited a x s).2 x []) x.t fun tm =>
    applyOuts tm x.k h.dsm ((crwaitSeen (crwaited a x s).1).map fun e => out2 e.1 d (BitVec.ofNat 64 e.2.addr))

/-- The gathers of a step: every element of an operation gets on as far as free choices let it (R246, R248). -/
def gathersOn (s : State) (tm : Team) (b order op : Nat) (a : Awl) : State :=
  (List.range a.n).foldl (awlStep tm.ctx tm.core b order op) s

/-- Where a gather's next burst ends, as an element's number (R247). -/
def burstEnd (a : Awl) : Nat := min a.n (a.next + 64 / ewBytes a.ew)

/-- The scratchpad byte at an offset of team t after a burst: an element's byte, 0 after the last element of all up to a multiple
of 64 bytes, and what stood there elsewhere (R247). -/
def burstByte (a : Awl) (old : Nat → Byte) (off : Nat) : Byte :=
  let ew := ewBytes a.ew
  let i := (off - a.dst) / ew
  if off < a.dst + ew * a.next then old off
  else if off < a.dst + ew * burstEnd a then
    match sget a.vals i with
    | some (some bs) => bs.getD ((off - a.dst) % ew) 0
    | some none => old off
    | none => old off
  else if burstEnd a = a.n ∧ off < a.dst + (a.n * ew + 63) / 64 * 64 then 0
  else old off

/-! ## Views, work -/

/-- VREG's two records stand at places that it may read; and what it reads there. -/
def vregPlaces (a b : VReg) (lm lv : Loc) (x : Site) (s : State) : Prop :=
  checkGlobal s x.tm.ctx ((x.view s).r64 x.lead a) 64 .ly false = .ok lm ∧
    checkGlobal s x.tm.ctx ((x.view s).r64 x.lead b) 64 .ly false = .ok lv
def vregAt (a b : VReg) (lm lv : Loc) (x : Site) (s : State) : ViewReg × State :=
  vregRead s x ((x.view s).r64 x.lead a) ((x.view s).r64 x.lead b) lm lv

/-- The token a view word names, the trap of an invalid one, and what a word that acts on it and answers a pair leaves. -/
def siteTok (x : Site) (s : State) (a : VReg) : Nat := ((x.view s).r x.lead a).toNat % 65536
def tokenTrap (a : VReg) (x : Site) (s : State) : Trap := leadTrap x ⟨0x15, 5, 0, 0, BitVec.ofNat 64 (siteTok x s a)⟩
def answered (h : Head) (d : VReg) (w : DWord) (x : Site) (s : State) : State :=
  openLong s x h (groupOp x h.dc .plain) (x.act.map fun l => out2 l d w)

/-- What a release at `.dev` leaves, before its fork and after it. -/
def released (x : Site) (s : State) : State := performFor s x.t x.parties .dev false
def releasedDev (x : Site) (s : State) : State := releaseFork (released x s) x.t x.tids .dev

/-- The continuations of a SPAWNC all find room: the pool takes every count but 0, after the slots of the lower lanes. -/
def spawncFits (c : VReg) (x : Site) (s : State) : Prop :=
  let pooled := x.act.filter fun l => (x.view s).r l c ≠ 0
  ∀ l ∈ pooled, (pooled.filter (· < l)).length + (gridOf s x).pool < 65536 ∧
    (x.act.filter (· < l)).length < freeSpill (sgetD s.parts (gridOf s x).part default)

/-- The lanes of an edge operation that it has not performed. -/
def edgeTodo (x : Site) : List Nat := x.act.filter fun l => !x.g.doneLanes.contains l

/-- The machine once the lanes' earlier accesses of their edges' descriptors are made, and poison there is found (R201, R379). -/
def edgesSeen (a : VReg) (x : Site) (s : State) : State :=
  (edgeTodo x).foldl (fun s' l => edgeSeen s' (x.who l) ((x.view s).r64 l a)) s

/-- The site's edge descriptors and entries pass their checks. -/
def edgeOk (a : VReg) (enq : Bool) (x : Site) (s : State) : Prop :=
  ∀ l ∈ edgeTodo x, edgeFault (edgesSeen a x s) x (fun l => (x.view s).r64 l a) (edgeTodo x) enq l = none

/-- The lanes of an ENQ, and of a DEQ, in ascending order: what each did, and the state. -/
def enqRun (a b : VReg) (t : Bool) (x : Site) (s : State) : List (Nat × Option Nat) × State :=
  edgeLanes (fun s' l => enqOne s' x l ((x.view s).r64 l a) (leNat (storeData (x.view s) l 16 b))) t (edgeTodo x)
    (released x (edgesSeen a x s))
def deqRun (a : VReg) (t : Bool) (x : Site) (s : State) : List (Nat × Option Nat) × State :=
  edgeLanes (fun s' l => deqOne s' x l ((x.view s).r64 l a)) t (edgeTodo x) (edgesSeen a x s)

/-- What an ENQ leaves whose lanes have all proceeded or tried, and a DEQ. -/
def enqDone (h : Head) (a b : VReg) (t : Option PReg) (x : Site) (s : State) : State :=
  openLong (setDoneLanes (releaseFork (enqRun a b t.isSome x s).2 x.t x.tids .dev) x []) x h (groupOp x h.dc .plain)
    ((enqRun a b t.isSome x s).1.map fun e => match t with | some p => outP e.1 p e.2.isSome | none => { lane := e.1 })
def deqDone (h : Head) (d a : VReg) (t : Option PReg) (x : Site) (s : State) : State :=
  let r := deqRun a t.isSome x s
  let s' := if r.1.any (fun e => e.2.isSome) then acquireBy r.2 x .dev else r.2
  openLong (setDoneLanes s' x []) x h (groupOp x h.dc .plain) (r.1.map fun e =>
    { lane := e.1, vs := match e.2 with | some n => loadRegs 16 false d.toNat n | none => [],
      ps := match t with | some p => [(p, e.2.isSome)] | none => [] })

/-- Every lane's edge has room, and has a payload, when its turn comes. -/
def enqAll (a b : VReg) (x : Site) (s : State) : Prop := ∀ e ∈ (enqRun a b true x s).1, e.2.isSome = true
def deqAll (a : VReg) (x : Site) (s : State) : Prop := ∀ e ∈ (deqRun a true x s).1, e.2.isSome = true

/-- What an ENQ leaves that a lane blocks, and a DEQ: the lanes before it have an operation of their own. -/
def enqBlocked (h : Head) (a b : VReg) (x : Site) (s : State) : State :=
  let r := enqRun a b false x s
  let s' := releaseFork r.2 x.t x.tids .dev
  if r.1 = [] then s'
  else openLong (setDoneLanes s' x (x.g.doneLanes ++ r.1.map Prod.fst)) x h (groupOp x h.dc .plain)
    (r.1.map fun e => { lane := e.1 })
def deqBlocked (h : Head) (d a : VReg) (x : Site) (s : State) : State :=
  let r := deqRun a false x s
  if r.1 = [] then r.2
  else openLong (setDoneLanes (acquireBy r.2 x .dev) x (x.g.doneLanes ++ r.1.map Prod.fst)) x h (groupOp x h.dc .plain)
    (r.1.map fun e => { lane := e.1, vs := match e.2 with | some n => loadRegs 16 false d.toNat n | none => [] })

/-! ## Matrix stream -/

/-- Wherever a sequencer's word issues and `ok` holds of its site, it has an effect and does not retire. -/
def SeqHolds (i : Instr) (r : SReq) (ok : SSite → State → Prop) (eff : SSite → State → State) : Prop :=
  ∀ s x, seqSite r s = some x → ok x s → exec i s = .next (eff x s)

/-- Wherever a sequencer's word issues and `ok` holds of its site, the sequencer traps. -/
def SeqTraps (i : Instr) (r : SReq) (ok : SSite → State → Prop) (tr : SSite → State → AFault) : Prop :=
  ∀ s x, seqSite r s = some x → ok x s →
    exec i s = .next (trapSeq s x.t (tr x s).cause (hpcWord x.q.pc x.q.wix) (tr x s).addr (infoOf (tr x s) 0))

/-- A uniform word that writes gD, and one that writes qD: what it asks and what it writes (R270 to R272). -/
def uniformWord : Instr → Option (GReg × SReq × (SSite → DWord))
  | .gmov h gd ga => some (gd, { guard := some h, gs := [gd.toNat, ga.toNat] }, fun x => gRead x.tm ga.toNat)
  | .gmovi h gd imm m => some (gd, { guard := some h, gs := [gd.toNat] }, fun x =>
      match m with
      | .sx => imm.signExtend 64
      | .zx => imm.zeroExtend 64
      | .hi => imm ++ (gRead x.tm gd.toNat).extractLsb' 0 32)
  | .gadd h gd ga (.reg gb) sub => some (gd, { guard := some h, gs := [gd.toNat, ga.toNat, gb.toNat] }, fun x =>
      if sub then gRead x.tm ga.toNat - gRead x.tm gb.toNat else gRead x.tm ga.toNat + gRead x.tm gb.toNat)
  | .gadd h gd ga (.imm v) sub => some (gd, { guard := some h, gs := [gd.toNat, ga.toNat] }, fun x =>
      if sub then gRead x.tm ga.toNat - v.signExtend 64 else gRead x.tm ga.toNat + v.signExtend 64)
  | .gmul h gd ga (.reg gb) => some (gd, { guard := some h, gs := [gd.toNat, ga.toNat, gb.toNat] }, fun x =>
      gRead x.tm ga.toNat * gRead x.tm gb.toNat)
  | .gmul h gd ga (.imm v) => some (gd, { guard := some h, gs := [gd.toNat, ga.toNat] }, fun x =>
      gRead x.tm ga.toNat * v.signExtend 64)
  | .gshl h gd ga (.reg gb) op => some (gd, { guard := some h, gs := [gd.toNat, ga.toNat, gb.toNat] }, fun x =>
      let n := (gRead x.tm gb.toNat).toNat % 64
      match op with | .l => gRead x.tm ga.toNat <<< n | .r => gRead x.tm ga.toNat >>> n | .ra => (gRead x.tm ga.toNat).sshiftRight n)
  | .gshl h gd ga (.imm v) op => some (gd, { guard := some h, gs := [gd.toNat, ga.toNat] }, fun x =>
      match op with
      | .l => gRead x.tm ga.toNat <<< v.toNat
      | .r => gRead x.tm ga.toNat >>> v.toNat
      | .ra => (gRead x.tm ga.toNat).sshiftRight v.toNat)
  | _ => none
def tileWord : Instr → Option (QReg × SReq × (SSite → Bool))
  | .gcmp h qd ga (.reg gb) cmp sgn => some (qd, { guard := some h, gs := [ga.toNat, gb.toNat], ok := fun _ => qd ≠ 15 }, fun x =>
      cmpInt cmp (extS64 sgn (gRead x.tm ga.toNat)) (extS64 sgn (gRead x.tm gb.toNat)))
  | .gcmp h qd ga (.imm v) cmp sgn => some (qd, { guard := some h, gs := [ga.toNat], ok := fun _ => qd ≠ 15 }, fun x =>
      cmpInt cmp (extS64 sgn (gRead x.tm ga.toNat)) (if sgn then v.toInt else v.toNat))
  | .qset h qd (.const v) => some (qd, { guard := some h, ok := fun _ => qd ≠ 15 }, fun _ => v)
  | .qset h qd (.bit g n) => some (qd, { guard := some h, gs := [g.toNat], ok := fun _ => qd ≠ 15 }, fun x =>
      (gRead x.tm g.toNat).getLsbD n.toNat)
  | .qlop h qd qa qb na nb tt => some (qd, { guard := some h, ok := fun _ => qd ≠ 15 }, fun x =>
      tt.getLsbD (2 * (qRead x.q qa != na).toNat + (qRead x.q qb != nb).toNat))
  | _ => none

/-- A debit can be made, and what it leaves (R268). -/
def debitOk (d : Nat) (x : SSite) (s : State) : Prop :=
  ∃ c, sget s.contexts x.tm.ctx = some c ∧ (d = 0 ∨ ((c.eq = [] ∨ c.eq.head? = some x.t) ∧ min d c.cap ≤ c.budget))
def debited (d : Nat) (x : SSite) (s : State) : State :=
  if d = 0 then s
  else modCtx s x.tm.ctx fun c => { c with budget := c.budget - min d c.cap, eq := c.eq.filter (· ≠ x.t) }

/-- The occupancy of MMA and SMMA (R264), and of JMAC (R292). -/
def mmaCycles (sa sb : Slot) : Nat := (sa.planes * sb.planes + 3) / 4
def smmaCycles (sa sb : Slot) : Nat := (sa.planes * sb.planes * sa.nz + 31) / 32

/-- The cost of an energy class. -/
def classCost (s : State) (ec : BitVec 2) : Nat := (s.eccost.extractLsb' (8 * ec.toNat) 8).toNat

/-- What MMA and SMMA ask; that the arrays are free and no ACCZ or ACCSP of the bank is open (R265); and the checks of R256, R261
and R262. -/
def matrixReq (h : HeadX) (ga : GReg) (fsa fsb : FSlot) (smma : Bool) : SReq :=
  { guard := some h, dc := h.xdc.toNat, gs := [ga.toNat], ok := fun x => matrixSlots x.lr smma fsa fsb, held := bufHeldSeq }
def matrixOk (ga : GReg) (fsa fsb : FSlot) (acc : BankN) (st smma : Bool) (x : SSite) (s : State) : Prop :=
  bankShut s x.t acc.toNat = false ∧ arraysBusy s x.t x.tm = false ∧
  let sa := slotOf (fsRead x.lr fsa)
  let t := (gRead x.tm ga.toNat).toNat % 2 ^ 20
  tileFault x.tm (gRead x.tm ga.toNat) (tileSize smma sa) = none ∧ (bankOf x.tm acc.toNat).hash = false ∧
  badStage x.tm st smma (slotOf (fsRead x.lr fsb)).planes = none ∧
  (smma = true → badIndex x.tm (t + 4096 + tileZ sa) sa.nz = none)

/-- The operation that MMA and SMMA open, with its sums and the cycle at which its occupancy ends. -/
def matrixOpened (h : HeadX) (ga : GReg) (fsa fsb : FSlot) (acc : BankN) (st smma : Bool) (x : SSite) (s : State) : State :=
  let sa := slotOf (fsRead x.lr fsa)
  let sb := slotOf (fsRead x.lr fsb)
  let t := (gRead x.tm ga.toNat).toNat % 2 ^ 20
  openSeq s x.t h.xdc.toNat (.matrix acc.toNat (stageKeys st smma)
    (((wholeBuf x.tm t (tileSize smma sa)).map Prod.fst).getD 64) (matrixSums x.tm t st smma sa sb)
    (s.cycle + if smma then smmaCycles sa sb else mmaCycles sa sb))

/-- The sequencer waits in its context's order for energy (R268). -/
def energyHeld (x : SSite) (s : State) : State :=
  modSeq (modCtx s x.tm.ctx fun c => { c with eq := if c.eq.contains x.t then c.eq else c.eq ++ [x.t] }) x.t
    fun q => { q with status := .energy, waitzDone := true }

/-- A sequencer waits for energy at a word of the arrays, which a try now would issue; and how a try ends. -/
def SeqRetriesMatrix (s : State) (t : Nat) (i : Instr) (r : SReq) (x y : SSite) : Prop :=
  ssiteOf s t = some x ∧ x.q.status = .energy ∧ issuerInstr s (.seq t) = some i ∧ seqSite r (retryAt s (.seq t)) = some y
def energyEnded (s : State) (x : SSite) (r : State) : State :=
  modCtx { r with issuer := s.issuer } x.tm.ctx fun c => { c with eq := c.eq.filter (· ≠ x.t) }

/-- The entry of a bank in direct mode under key (m, n), 0 where there is none. -/
def entryAt (tm : Team) (bank m n : Nat) : BitVec 176 := ((sget (bankOf tm bank).ents (64 * m + n)).map (·.value)).getD 0

/-! ## Joins and banks -/

/-- What JMAC asks, and its checks of descriptors, cursor, streams and spill table (R288, R289, R292). -/
def jmacReq (h : HeadX) (gd ga gb : GReg) (fsa fsb : FSlot) : SReq :=
  { guard := some h, dc := h.xdc.toNat, gs := [gd.toNat, ga.toNat, gb.toNat],
    ok := fun x => gd ≠ ga && gd ≠ gb && tupleSlot x.lr fsa && tupleSlot x.lr fsb, held := bufHeldSeq }
def jmacFault (gd ga gb : GReg) (acc : BankN) (x : SSite) : Option AFault :=
  let a := gRead x.tm ga.toNat
  let b := gRead x.tm gb.toNat
  let c := cursorOf (gRead x.tm gd.toNat)
  let bad := nbits (gRead x.tm gd.toNat).toNat 51 12 ≠ 0 || descN a < c.pa || c.pb < c.pb0 || descN b < c.pb
  pickFault (descFaults x.tm ga ++ descFaults x.tm gb ++ [if bad then some (fieldFault 0x13 gd.toNat) else none]
    ++ streamFaults x.tm ga ++ streamFaults x.tm gb ++ spillFaults x.tm (bankOf x.tm acc.toNat))
def jmacCycles (gd ga gb : GReg) (x : SSite) : Nat :=
  let c := cursorOf (gRead x.tm gd.toNat)
  max 1 ((descN (gRead x.tm ga.toNat) - c.pa + (descN (gRead x.tm gb.toNat) - c.pb0) + 15) / 16)
def jmacStreams (ga gb : GReg) (fsa fsb : FSlot) (x : SSite) : JStreams :=
  { oa := descOff (gRead x.tm ga.toNat), na := descN (gRead x.tm ga.toNat), ob := descOff (gRead x.tm gb.toNat),
    nb := descN (gRead x.tm gb.toNat), sa := slotOf (fsRead x.lr fsa), sb := slotOf (fsRead x.lr fsb) }
def jmacRun (gd ga gb : GReg) (fsa fsb : FSlot) (acc : BankN) (x : SSite) : Team × Bank × JoinEnd :=
  let c := cursorOf (gRead x.tm gd.toNat)
  jmacLoop (jmacStreams ga gb fsa fsb x) (descN (gRead x.tm ga.toNat) - c.pa) c x.tm (bankOf x.tm acc.toNat)

/-- What JINS asks, its checks and its run. -/
def jinsReq (h : HeadX) (gd ga : GReg) (fsa : FSlot) : SReq :=
  { guard := some h, dc := h.xdc.toNat, gs := [gd.toNat, ga.toNat], ok := fun x => gd ≠ ga && tupleSlot x.lr fsa,
    held := bufHeldSeq }
def jinsFault (gd ga : GReg) (acc : BankN) (x : SSite) : Option AFault :=
  let g := gRead x.tm gd.toNat
  pickFault (descFaults x.tm ga
    ++ [if nbits g.toNat 17 46 ≠ 0 || descN (gRead x.tm ga.toNat) < g.toNat % 2 ^ 17 then some (fieldFault 0x13 gd.toNat) else none]
    ++ streamFaults x.tm ga ++ spillFaults x.tm (bankOf x.tm acc.toNat))
def jinsRun (gd ga : GReg) (fsa : FSlot) (acc : BankN) (x : SSite) : Team × Bank × JoinEnd :=
  let a := gRead x.tm ga.toNat
  let p := (gRead x.tm gd.toNat).toNat % 2 ^ 17
  jinsLoop (descOff a) (descN a) (slotOf (fsRead x.lr fsa)) (descN a - p) p x.tm (bankOf x.tm acc.toNat)

/-- How a join that retires ends: at its streams' ends, or, with `.stop`, where an addition found no place. -/
def joinEnds (stop : Bool) : Team × Bank × JoinEnd → Option (Team × Bank × DWord)
  | (tm, b, .done c) => some (tm, b, c)
  | (tm, b, .full c _) => if stop then some (tm, b, c ||| BitVec.ofNat 64 (2 ^ 63)) else none
  | _ => none

/-- What a join that ends with a cursor leaves: its bank and spill table, the cursor in gD, and one operation on the bank. -/
def joinedBank (h : HeadX) (gd : GReg) (acc : BankN) (tm : Team) (b : Bank) (c : DWord) (x : SSite) (s : State) : State :=
  openSeq (gWrite (modTeam s x.t fun _ => modBank tm acc.toNat fun _ => b) x.t gd.toNat c) x.t h.xdc.toNat (.bank acc.toNat true)

/-- The value in X176 that entry (m, n) has gained after some additions of (key, value) pairs. -/
def gained (adds : List ((Nat × Nat) × BitVec 176)) (m n : Nat) : BitVec 176 :=
  ((adds.filter fun e => e.1 = (m, n)).map Prod.snd).foldl (· + ·) 0

/-- The value in direct mode of entry (m, n) of a bank. -/
def directVal (b : Bank) (m n : Nat) : BitVec 176 := ((sget b.ents (64 * m + n)).map (·.value)).getD 0

/-- The tuples of a stream. -/
def streamOf (tm : Team) (off n : Nat) : List (Nat × Nat × Word) := (List.range n).map (tupleAt tm off)

/-- The product of two tuples' value words, rounded once; a NaN or an infinity gives 0 (R75, R292). -/
def productOf (sa sb : Slot) (wa wb : Word) : BitVec 176 :=
  match valueWord sa wa, valueWord sb wb with
  | some x, some y => (toX176 (x.mul y)).1
  | _, _ => 0

/-- What ACCDR asks and checks. -/
def drainReq (h : HeadX) (gd ga : GReg) (fsa : FSlot) : SReq :=
  { guard := some h, dc := h.xdc.toNat, gs := [gd.toNat, ga.toNat], ok := fun x => tupleSlot x.lr fsa, held := bufHeldSeq }
def drainFault (ga : GReg) (fsa : FSlot) (acc : BankN) (od : DrOrd) (full : Bool) (x : SSite) : Option AFault :=
  let b := bankOf x.tm acc.toNat
  let g := gRead x.tm ga.toNat
  pickFault ([if od = .dense && b.hash then some (fieldFault 0x10 acc.toNat) else none] ++ descFaults x.tm ga
    ++ [if od = .dense && descN g ≠ 0 then some (fieldFault 0x13 ga.toNat) else none]
    ++ drainDst x.tm (descOff g) (drainSize (slotOf (fsRead x.lr fsa)) od (descN g)) full ++ spillFaults x.tm b)

/-! ## Packets -/

/-- A packet of queue q has its turn, and its BAR condition holds (R318, R319). -/
def PacketTurn (q : Nat) (bar : Bool) (s : State) (u : Queue) : Prop :=
  sget s.queues q = some u ∧ s.issuer = some (.packet q) ∧ (bar = true → u.grids = [])

/-- The words that give queue q a turn, and the status of a queue that they give it to (R318, R321). -/
def turnOf (q : Nat) : Instr → Option QStatus
  | .queueParse p => if p = q then some .idle else none
  | .packetPoll p => if p = q then some .waiting else none
  | _ => none

/-- A packet is a LAUNCH with BAR. -/
def launchWithBar (bs : List Byte) : Bool := nbit (leNat (bs.take 2)) 10 && (bs.getD 0 0).toNat = 1

/-- Slots that a FENCE of n entries occupies. -/
def fenceSlots (n : Nat) : Nat := (16 + 16 * n + 63) / 64

/-! ## Frames -/

/-- A team's groups stand as before, and the registers, predicates and flags of its threads read as before. -/
def KeepsThreads (x : Site) (t : State) : Prop :=
  ∃ tm, sget t.teams x.t = some tm ∧ tm.groups = x.tm.groups ∧ ∀ i th, sget x.tm.threads i = some th →
    ∃ th', sget tm.threads i = some th' ∧ th'.regs = th.regs ∧ th'.preds = th.preds ∧ th'.fflags = th.fflags

/-- Memory reads as before at the addresses that `out` names, but for the bytes of stores that the buffers hold. -/
def KeepsMemory (s t : State) (out : Nat → Prop) : Prop :=
  ∀ a, out a → (∀ h ∈ s.coal, h.meets a 1 = false) → memByte t.mem a = memByte s.mem a

/-- The physical address that a lane of a global store stores at. -/
def storePlace (x : Site) (s : State) (n : Nat) (ea : LView → Nat → DWord) (l : Nat) : Nat :=
  (locAt s x.tm.ctx (ea (x.view s) l) n .ls true).pa

/-- A team as an LDL leaves its groups: what its waiting lanes have met is forgotten. -/
def ldlTeam (x : Site) : Team :=
  if x.g.cons = [] then x.tm else modGroup (modGroup x.tm x.k fun g => { g with cons := [] }) x.k fun g => { g with lays := [] }

/-- Every team's scratchpad reads as before at the offsets that `out` names. -/
def KeepsScratch (s t : State) (out : Nat → Nat → Prop) : Prop :=
  ∀ u tm, sget s.teams u = some tm → ∃ tm', sget t.teams u = some tm' ∧ ∀ b, out u b → spByte tm' b = spByte tm b

end Sys2Proof.Machine
end

