-- ==== Sys2Proof/Certificates/Slice0/Obligations.lean ====
section
/-! DEFINITION. The statements for the provers: what the words, packets and events of the IXD-4 do, by the manual's rules. -/

open Sys2Proof Sys2Proof.Machine

/-! ## Encodings (R35 to R49) -/

/-- R45: for every instruction word, with every operand at every value the encoding admits, decoding what the encoder writes
gives the instruction back: no bit of an encoding is dropped. -/
def Obligations.DecodeUndoesEncode : Prop :=
  ∀ i, Laws.Encodes.Statement i

/-- R104, R112: two words that the manual writes out decode to the instructions it names: `icmp.lt.sgn p2, v4, v9` and
`shfl.xor v6, v5, 16`. -/
def Obligations.WordsOfTheManual : Prop :=
  decode 0x07DC008102400312 = .ok (.icmp ⟨⟨false, 7⟩, 0, 0, 6⟩ 2 4 9 .lt true none)
  ∧ decode 0x40DFC18140040303 = .ok (.shflImm ⟨⟨false, 7⟩, 0xF, 0, 6⟩ 6 5 16 .xor false)

/-- R49: the decoder calls a word ILLEGAL_OPCODE exactly if its code is one of those that R49 lists as unassigned. R36, check
1, and R49: where a group's next word may issue and its code is unassigned, in any clause class, the group traps with
ILLEGAL_OPCODE, naming every member lane; a sequencer's next word of that kind stops it with the same cause. -/
def Obligations.UnassignedCodesTrap : Prop :=
  (∀ w : DWord, decode w = .illegalOpcode ↔ unassignedCode (w.extractLsb' 54 10).toNat = true)
  ∧ ((∀ s t k x w, siteOf s t k ⟨false, 7⟩ = some x → canIssue s x = true → wordOf x.g.clause x.g.wix = some w →
     unassignedCode (w.extractLsb' 54 10).toNat = true →
     fetchGroup s t k = .state (trapGroup s t k { cause := 1, lanes := memberLanes x.g } (memberLanes x.g) (hpcWord x.g.pc x.g.wix)))
   ∧ (∀ s t x w, ssiteOf s t = some x → canIssueSeq s x = true → wordOf x.q.clause x.q.wix = some w →
     unassignedCode (w.extractLsb' 54 10).toNat = true →
     fetchSeq s t = .state (trapSeq s t 1 (hpcWord x.q.pc x.q.wix) 0 0)))

/-! ## Steps -/

/-- R36: a step whose issuer's next word decodes to an instruction allowed in the clause is `exec` of it, with the end of the
turn (R152, R399) and the clocks (R28) around it; a packet's step is `exec` of the packet, and a step with no issuer is `exec`
of the first event that is due, or of an open one. The open one is a free event of the table, or the one of the device's own
events whose turn it is, each of which has its turn again and again (R154; how the model spaces the turns is its choice, log
4). -/
def Obligations.StepRunsWhatIsDue : Prop :=
  (∀ s t k x w i, s.stopped = false → s.issuer = some (.group t k) → siteOf s t k ⟨false, 7⟩ = some x → canIssue s x = true →
    wordOf x.g.clause x.g.wix = some w → decode w = .ok i → opcodeClass x.g w = true →
    step s = settle s true (groupStep s t k (exec i s)))
  ∧ (∀ s t x w i, s.stopped = false → s.issuer = some (.seq t) → ssiteOf s t = some x → canIssueSeq s x = true →
    wordOf x.q.clause x.q.wix = some w → decode w = .ok i → (allowedIn (w.extractLsb' 54 10).toNat).2.2.1 = true →
    step s = settle s true (exec i s))
  ∧ (∀ s q i, s.stopped = false → s.issuer = some (.packet q) → fetchPacket s q = .word i →
    step s = settle s true (exec i s))
  ∧ (∀ s e rest, s.stopped = false → s.issuer = none → s.agenda = e :: rest →
    step s = settle s false (exec e { s with agenda := rest }))
  ∧ (∀ s, s.stopped = false → s.issuer = none → s.agenda = [] →
    step s = settle s false (match openEvent s with
      | some e => countFair (exec e s)
      | none => .next (fairCount s)))
  ∧ (∀ s, (s.fairGap = 0 → openEvent s = some (fairEvent s)) ∧
    (s.fairGap ≠ 0 → openEvent s = if (Config.freeEvent s.freeCtr).wf then some (Config.freeEvent s.freeCtr) else none))
  ∧ (∀ s t, (s.fairGap = 0 → (fairCount s).fairIdx = s.fairIdx + 1 ∧ (fairCount s).fairGap = Config.fairGap s.fairIdx) ∧
    (s.fairGap ≠ 0 → (fairCount s).fairIdx = s.fairIdx ∧ (fairCount s).fairGap + 1 = s.fairGap) ∧
    countFair (.next t) = .next (fairCount t))
  ∧ ∀ k n, ∃ m, n ≤ m ∧ ∀ s, s.fairIdx = m → fairEvent s = deviceEvent s k

/-- R28, R268, R359: what a step adds to its instruction: the cycle count rises, the free-value index rises by one, the turn
of a word's issuer ends, the budgets of every context are refilled up to the moment, and nothing else changes but the counting
performance counters. What the moment then brings of itself leaves the clocks alone, and is nothing where no stop is in
progress, no save is asked of a team, no JOIN release and no formation of a deterministic team is due and no checkpoint is
kept. -/
def Obligations.ClocksRunOn : Prop :=
  (∀ before turn s, ∃ u, settle before turn (.next s) = .next (afterStep u) ∧ s.cycle < u.cycle ∧ u.freeCtr = s.freeCtr + 1 ∧
    u.issuer = (if turn then none else s.issuer) ∧
    { u with cycle := s.cycle, freeCtr := s.freeCtr, issuer := s.issuer, cores := s.cores, contexts := s.contexts } = s ∧
    (∀ n c, sget s.cores n = some c → ∃ c', sget u.cores n = some c' ∧ { c' with pmc := c.pmc } = c) ∧
    ∀ n c, sget s.contexts n = some c → sget u.contexts n = some (refillTo (timeOf u) c))
  ∧ (∀ u, (afterStep u).cycle = u.cycle ∧ (afterStep u).freeCtr = u.freeCtr ∧ (afterStep u).issuer = u.issuer)
  ∧ ∀ u, (∀ e ∈ u.contexts, e.2.fault = none) → (∀ e ∈ u.grids, e.2.halting = none) → (∀ e ∈ u.teams, e.2.preq = false) →
    (∀ e ∈ u.teams, joinsDue u e.1 e.2 = [] ∧ formsDue u e.2.core = false) → u.keeping = [] → afterStep u = u

/-- Every instruction and event runs: no state makes one refuse or stop. The chapter on bring-up: a package that
CRITICAL_TEMPERATURE has stopped takes no further step, and only such a package stops. -/
def Obligations.OnlyStoppedPackagesStop : Prop :=
  (∀ i s, ∃ t, exec i s = .next t)
  ∧ ((∀ s, s.stopped = true → step s = .fault .packageStopped) ∧ (∀ s, s.stopped = false → ∃ t, step s = .next t))

/-- Device memory and the kept checkpoints' memories stay in canonical form over every step. -/
def Obligations.StepKeepsSound : Prop :=
  ∀ s t, s.Sound → step s = .next t → t.Sound

/-- The state after reset is sound: nothing is listed in memory. -/
def Obligations.SoundAtReset : Prop :=
  State.reset.Sound ∧ State.reset.Running

/-- R383, R384, R376: after reset the firmware is still to be verified, no package id is assigned, nothing is resident, no
context, queue or channel exists, and no Saddle counter has counted. -/
def Obligations.ResetIsEmpty : Prop :=
  State.reset.bringUp = true ∧ State.reset.identity.pkgid = 0 ∧ State.reset.teams = [] ∧ State.reset.contexts = [] ∧
    State.reset.queues = [] ∧ State.reset.channels = [] ∧ State.reset.routes = [] ∧ State.reset.counters = Counters.zero ∧
    State.reset.stopped = false

/-! ## Numbers (R66, R73) -/

/-- R73: additions into one X176 value give the same bits in every order and in every split into partial sums; a true sum in
range is what the bits stand for, whatever the intermediate sums were. -/
def Obligations.AdditionIsOrderFree : Prop :=
  (∀ (acc : BitVec 176) (l l' : List (BitVec 176)), l.Perm l' → l.foldl x176Add acc = l'.foldl x176Add acc)
  ∧ (∀ (acc : BitVec 176) (l l' : List (BitVec 176)),
    (l ++ l').foldl x176Add acc = x176Add (l.foldl x176Add acc) (l'.foldl x176Add 0))
  ∧ (∀ (acc : BitVec 176) (l : List (BitVec 176)),
    -2 ^ 175 ≤ acc.toInt + (l.map BitVec.toInt).sum → acc.toInt + (l.map BitVec.toInt).sum < 2 ^ 175 →
    (l.foldl x176Add acc).toInt = acc.toInt + (l.map BitVec.toInt).sum)

/-- R66: the value that k planes of a BPI element give: the multiple of the step at or below the stored value, half a step
more with `.mid` below 8 planes; planes below plane 8 - k do not count; the value lies in -128 to 255. -/
def Obligations.PlanesGiveTheTopBits : Prop :=
  ∀ (e : Byte) k sgn mid, 2 ≤ k → k ≤ 8 →
    let v : Int := if sgn then e.toInt else e.toNat
    let step : Int := 2 ^ (8 - k)
    let t := planeValue e k sgn false
    step ∣ t ∧ t ≤ v ∧ v < t + step ∧ planeValue e k sgn mid = (if mid = true ∧ k < 8 then t + step / 2 else t) ∧
    -128 ≤ planeValue e k sgn mid ∧ planeValue e k sgn mid ≤ 255 ∧
    (∀ e' : Byte, e.toNat / 2 ^ (8 - k) = e'.toNat / 2 ^ (8 - k) → planeValue e' k sgn mid = planeValue e k sgn mid)

/-- R78: a NaN operand makes a sum, a product and a fused sum the canonical NaN of their kind, and a signalling one raises NV.
-/
def Obligations.NanResultsAreCanonical : Prop :=
  ∀ k md a b c,
    let nan := fun x => (fdec (fmtOf k) x).isNan = true
    let snan := fun x => (fdec (fmtOf k) x).isSnan = true
    (nan a ∨ nan b → (fadd (fmtOf k) md a b).v = (fmtOf k).nan ∧ (fmul (fmtOf k) md a b).v = (fmtOf k).nan) ∧
    (nan a ∨ nan b ∨ nan c → (ffma (fmtOf k) md a b c).v = (fmtOf k).nan) ∧
    (snan a ∨ snan b →
      (fadd (fmtOf k) md a b).fl.getLsbD 4 = true ∧ (fmul (fmtOf k) md a b).fl.getLsbD 4 = true) ∧
    (snan a ∨ snan b ∨ snan c → (ffma (fmtOf k) md a b c).fl.getLsbD 4 = true) ∧
    Fmt.f32.nan = 0x7FC00000 ∧ Fmt.f16.nan = 0x7E00 ∧ Fmt.bf16.nan = 0x7FC0

/-! ## Words of the lanes (R88 to R136) -/

/-- R96 to R108: every integer and logic word of class A shows its writes. Which pending results of its threads become visible
as it issues rests, in handler mode, on log 25 (handler-mode words close the windows that handler mode opened; DEDUCED). R121
to R136: every floating-point, conversion and bit-plane word of classes A and F shows its writes (windows in handler mode: log
25). R109 to R113: every predicate and exchange word of class A shows its writes (windows in handler mode: log 25). -/
def Obligations.LaneWords : Prop :=
  (∀ i w, intWord i = some w → ShowsItsWrites i w)
  ∧ (∀ i w, floatWord i = some w → ShowsItsWrites i w)
  ∧ (∀ i w, exchangeWord i = some w → ShowsItsWrites i w)

/-- R98, R114, R115, R118: every lane word of class L retires with one operation open, which owes the active lanes the values
of their sources at the issue and the flags of the results. -/
def Obligations.LongWords : Prop :=
  ∀ i w, longWord i = some w → GroupCompletes i w.req always fun x s =>
    let outs := x.act.map (w.out (x.view s))
    openLong s x w.head (groupOp x w.head.dc (.flags (outFlags x.g outs))) outs

/-- R43, R44: opening a class L operation adds one to the counter DC of every member thread, active or not, and leaves every
register, predicate (but the ones the word writes at once) and flag as it was; the operation stands under its own number. R43,
R44, R119: LONG_LATENCY_COMPLETE of an operation with nothing left but its results, of a load with nothing left to read too,
ends it: its results have arrived, its flags are set, and its counter falls by one for every thread it counts on. R43, R91,
R119: as a group issues a word, the arrived results of its threads whose windows have closed become visible: the register
holds the result and its DSM mark, and is no longer pending. Of several results of a register the last that was opened stands
(the model's choice, log 75). Which windows count in handler mode is log 25 (`pendCounts` in `dueNow`). The flags of words in
flight that the word depends on are due now. Nothing else of the thread changes. -/
def Obligations.OperationsOpenAndEnd : Prop :=
  (∀ s x h o outs, sget s.teams x.t = some x.tm → sget x.tm.groups x.k = some x.g → (memberTids x.g).Nodup →
     (∀ e ∈ outs, e.ps = []) →
     let t := openLong s x h o outs
     sget t.ops s.nextOp = some o ∧ t.nextOp = s.nextOp + 1 ∧ t.mem = s.mem ∧
       ∃ tm, sget t.teams x.t = some tm ∧ tm.groups = x.tm.groups ∧
         ∀ i th, sget x.tm.threads i = some th → ∃ th', sget tm.threads i = some th' ∧ th'.regs = th.regs ∧
           th'.preds = th.preds ∧ th'.fflags = th.fflags ∧
           ∀ k, sgetD th'.dc k 0 = sgetD th.dc k 0 + (if i ∈ memberTids x.g ∧ k = h.dc.toNat ∧ k < 6 then 1 else 0))
  ∧ (∀ s n o tm, sget s.ops n = some o → o.seq = false → (o.kind = .plain ∨ (∃ fl, o.kind = .flags fl) ∨ o.kind = .load []) →
     (∀ e ∈ unreadOf s o.team, e.1 ≠ n) → o.tids.Nodup → sget s.teams o.team = some tm →
     (∀ t ∈ o.tids, (sget tm.threads t).isSome) →
     ∃ t tm', exec (.longLatencyComplete n) s = .next t ∧ sget t.ops n = none ∧ sget t.teams o.team = some tm' ∧ t.mem = s.mem ∧
       ∀ i th, sget tm.threads i = some th → ∃ th', sget tm'.threads i = some th' ∧ th'.regs = th.regs ∧ th'.preds = th.preds ∧
         (i ∈ o.tids → th'.fflags = th.fflags ||| lateFlags o.kind i ∧
           th'.pend = th.pend.map (fun p => if p.op = n then { p with arr := true } else p) ∧
           ∀ k, k < 6 → sgetD th'.dc k 0 = sgetD th.dc k 0 - (if k = o.dc then 1 else 0)) ∧
         (i ∉ o.tids → th' = th))
  ∧ (∀ (r : Req) s x, sget s.teams x.t = some x.tm → sget x.tm.groups x.k = some x.g → OwnLanes x →
     ∀ l ∈ memberLanes x.g, ∀ th, sget x.tm.threads (sgetD x.g.members l 0) = some th →
       ∃ tm th', sget (installed r s x).teams x.t = some tm ∧ sget tm.threads (sgetD x.g.members l 0) = some th' ∧
         (∀ n, n < 256 → sgetD th'.regs n 0
           = (((dueNow x.g.handler th).filter fun p => p.reg = n).getLast?.map (·.value)).getD (sgetD th.regs n 0)) ∧
         (∀ n, n < 256 → sgetD th'.tags n 0xF
           = (((dueNow x.g.handler th).filter fun p => p.reg = n).getLast?.map (·.dsm)).getD (sgetD th.tags n 0xF)) ∧
         th'.pend = (th.pend.filter fun q => (dueNow x.g.handler th).all fun p => q.reg ≠ p.reg) ∧
         th'.late = th.late.map (fun f =>
           if f.regs.any (r.named x.g.handler).contains || f.preds.any (r.guard.p :: r.preds).contains
           then { f with due := min f.due s.cycle } else f) ∧
         { th' with regs := th.regs, tags := th.tags, pend := th.pend, late := th.late } = th)

/-- R96: a saturated result is the exact result brought into the range of its signedness, and an unsaturated one its low 32
bits. R98: division by 0 gives all ones and the dividend, the one signed overflow gives -2^31 and 0, and every other division
truncates toward zero, with a remainder of the dividend's sign. R101, R108: SHL, SHL64, SHR, SHR64 and SHF bit by bit: an
amount of the width or more leaves the fill alone, and under WRAP the amount is taken modulo the width. R100, R102, R103:
LOP3, BFX and BFI bit by bit, and the counts: bit i of LOP3 is the table's bit A + 2B + 4C; BFX takes the field and extends it
with 0 or, under SGN, with its top bit; BFI inserts it and drops what lands above bit 31; FFS and CLZ find the lowest and the
highest 1, POPC counts one more for each further 1, and BREV turns the word end for end. -/
def Obligations.IntegerResults : Prop :=
  (∀ sgn (e : Int), extS sgn (sat32 sgn e)
       = min (max e (if sgn then -2 ^ 31 else 0)) (if sgn then 2 ^ 31 - 1 else 2 ^ 32 - 1)
     ∧ ((low32 e).toNat : Int) = e % 2 ^ 32)
  ∧ (∀ sgn (a b : Word),
     (b = 0 → divide sgn a b = (0xFFFFFFFF, a)) ∧
     (sgn = true → a = 0x80000000 → b = 0xFFFFFFFF → divide sgn a b = (0x80000000, 0)) ∧
     (b ≠ 0 → ¬(sgn = true ∧ a = 0x80000000 ∧ b = 0xFFFFFFFF) →
       extS sgn a = extS sgn (divide sgn a b).1 * extS sgn b + extS sgn (divide sgn a b).2 ∧
       (extS sgn (divide sgn a b).2).natAbs < (extS sgn b).natAbs ∧
       (extS sgn (divide sgn a b).2 = 0 ∨ ((extS sgn (divide sgn a b).2 < 0) ↔ (extS sgn a < 0)))))
  ∧ ((∀ (a : Word) n i, i < 32 → (shlW false a n).getLsbD i = (decide (n ≤ i) && a.getLsbD (i - n)))
   ∧ (∀ (a : DWord) n i, i < 64 → (shlD false a n).getLsbD i = (decide (n ≤ i) && a.getLsbD (i - n)))
   ∧ (∀ (a : Word) n, shlW true a n = shlW false a (n % 32))
   ∧ (∀ (a : DWord) n, shlD true a n = shlD false a (n % 64))
   ∧ (∀ sgn (a : Word) n i, i < 32 → (shrW sgn false a n).getLsbD i = if i + n < 32 then a.getLsbD (i + n) else (sgn && a.msb))
   ∧ (∀ sgn (a : DWord) n i, i < 64 → (shrD sgn false a n).getLsbD i = if i + n < 64 then a.getLsbD (i + n) else (sgn && a.msb))
   ∧ (∀ sgn (a : Word) n, shrW sgn true a n = shrW sgn false a (n % 32))
   ∧ (∀ sgn (a : DWord) n, shrD sgn true a n = shrD sgn false a (n % 64))
   ∧ (∀ r (a b : Word) n, shfW r true a b n = shfW r false a b (n % 32))
   ∧ (∀ (a b : Word) n i, i < 32 → (shfW true false a b n).getLsbD i
       = if i + min n 32 < 32 then b.getLsbD (i + min n 32) else a.getLsbD (i + min n 32 - 32))
   ∧ (∀ (a b : Word) n i, i < 32 → (shfW false false a b n).getLsbD i
       = if min n 32 ≤ i then a.getLsbD (i - min n 32) else b.getLsbD (i + 32 - min n 32)))
  ∧ ((∀ tt a b c i, i < 32 → (lop3 tt a b c).getLsbD i
     = tt.getLsbD ((a.getLsbD i).toNat + 2 * (b.getLsbD i).toNat + 4 * (c.getLsbD i).toNat))
   ∧ (∀ (a b : Word) i, i < 32 → (bfxW false a b).getLsbD i
     = (decide (i < min (b.toNat / 256 % 256) 32) && a.getLsbD (i + min (b.toNat % 256) 32)))
   ∧ (∀ (a b : Word) i, i < 32 → (bfxW true a b).getLsbD i
     = (decide (0 < min (b.toNat / 256 % 256) 32) &&
         let j := min i (min (b.toNat / 256 % 256) 32 - 1) + min (b.toNat % 256) 32
         if j < 32 then a.getLsbD j else a.msb))
   ∧ (∀ (a b c : Word) i, i < 32 → (bfiW a b c).getLsbD i
     = if min (b.toNat % 256) 32 ≤ i ∧ i < min (b.toNat % 256) 32 + min (b.toNat / 256 % 256) 32
       then a.getLsbD (i - min (b.toNat % 256) 32) else c.getLsbD i)
   ∧ (∀ a : Word, a = 0 → ffsW a = 0xFFFFFFFF ∧ clzW a = 32 ∧ popcW a = 0)
   ∧ (∀ a : Word, a ≠ 0 → (ffsW a).toNat < 32 ∧ a.getLsbD (ffsW a).toNat = true ∧ (∀ i < (ffsW a).toNat, a.getLsbD i = false)
     ∧ clzW a < 32 ∧ a.getLsbD (31 - clzW a) = true ∧ ∀ i, 31 - clzW a < i → a.getLsbD i = false)
   ∧ (∀ (a : Word) i, i < 32 → a.getLsbD i = false → popcW (a ||| (1 <<< i)) = popcW a + 1)
   ∧ (∀ (a : Word) i, i < 32 → a.reverse.getLsbD i = a.getLsbD (31 - i)))

/-- R112, R111: what a lane receives from a shuffle: A of the source lane if it is active, 0 if it is not, and out of range
its own A under OWN, else 0. -/
def Obligations.ShufflesTakeFromActiveLanes : Prop :=
  ∀ v a own l n, l < 32 →
    (n < 32 → shflVal v a .idx own l n = if n ∈ v.act then v.r n a else 0) ∧
    (32 ≤ n → shflVal v a .idx own l n = if own then v.r l a else 0) ∧
    (n ≤ l → shflVal v a .back own l n = if l - n ∈ v.act then v.r (l - n) a else 0) ∧
    (l < n → shflVal v a .back own l n = if own then v.r l a else 0) ∧
    (l + n < 32 → shflVal v a .fwd own l n = if l + n ∈ v.act then v.r (l + n) a else 0) ∧
    (32 ≤ l + n → shflVal v a .fwd own l n = if own then v.r l a else 0) ∧
    (n < 32 → shflVal v a .xor own l n = if l ^^^ n ∈ v.act then v.r (l ^^^ n) a else 0) ∧
    (32 ≤ n → shflVal v a .xor own l n = if own then v.r l a else 0)

/-! ## Memory words (R186 to R195) -/

/-- R188, R190, R189: LD, LDK, GATH and LDX of checked places retire with one operation open that owes every lane its bytes,
extended as the width and SX say. When each element is read, in this step or in a later one, is the model's choice (log 8).
R186, R208: a load's element that is read takes what its place holds for its thread: its value goes to the pending results of
its operation and to nothing else of the thread but the mark of R300, and the element is no longer owed. Other threads'
results stay. -/
def Obligations.LoadsOpenReads : Prop :=
  ((∀ h d a imm w sx na, GroupCompletes (.ld h d a imm w sx na false)
     (memReq h .loads ((d.toNat, regsFor (widthBytes w)) :: two [a]))
     (fun x s => ∀ l ∈ x.act, GlobalOk s x.tm.ctx (gaddr (x.view s) l a imm) (widthBytes w) .ls false)
     (loaded h d .ls na sx (widthBytes w) fun v l => gaddr v l a imm))
   ∧ (∀ h d a imm w sx na, GroupCompletes (.ld h d a imm w sx na true)
     (memReq h .loads ((d.toNat, regsFor (widthBytes w)) :: one [a]))
     (fun x s => ∀ l ∈ x.act, checkSp x.tm (saddr (x.view s) l a imm).toNat (widthBytes w) .load .spTeam = none)
     fun x s => loadedSp h d sx (widthBytes w) (fun v => v.act) (fun v l => (x.t, (saddr v l a imm).toNat)) x s)
   ∧ (∀ h d a imm w sx, GroupCompletes (.ldk h d a imm w sx)
     (memReq h .loads ((d.toNat, regsFor (widthBytes w)) :: two [a]))
     (fun x s => ∀ l ∈ x.act, GlobalOk s x.tm.ctx (gaddr (x.view s) l a imm) (widthBytes w) .k false)
     (loaded h d .k false sx (widthBytes w) fun v l => gaddr v l a imm))
   ∧ (∀ h d a imm w sx, GroupCompletes (.ldx h d a imm w sx)
     (memReq h .loads ((d.toNat, regsFor (widthBytes w)) :: one [a]))
     (fun x s => ∀ l ∈ x.act, checkCluster s x (saddr (x.view s) l a imm).toNat (widthBytes w) .load = none)
     fun x s => loadedSp h d sx (widthBytes w) (fun v => v.act) (fun v l => clusterAt x (saddr v l a imm).toNat) x s)
   ∧ (∀ h d a b ix ew sx, GroupCompletes (.gath h d a b ix ew sx true)
     (memReq h .loads ((d.toNat, regsFor (ewBytes ew)) :: one [a] ++ (if ix.iw = .b64 then two [b] else one [b])))
     (fun x s => ∀ l ∈ idxLanes b ix (x.view s),
       checkSp x.tm (idxSp ((x.view s).r l a) ix (idxVal (x.view s) l b ix)) (ewBytes ew) .load .spTeam = none)
     fun x s => loadedSp h d sx (ewBytes ew) (idxLanes b ix) (fun v l => (x.t, idxSp (v.r l a) ix (idxVal v l b ix))) x s)
   ∧ (∀ h d a b ix ew sx, GroupCompletes (.gath h d a b ix ew sx false)
     (memReq h .loads ((d.toNat, regsFor (ewBytes ew)) :: two [a] ++ (if ix.iw = .b64 then two [b] else one [b])))
     (fun x s => ∀ l ∈ idxLanes b ix (x.view s),
       ∃ src, gathSrc s x (ewBytes ew) (idxAddr ((x.view s).r64 l a) ix (idxVal (x.view s) l b ix)) = .ok src)
     (gathered h d a b ix (ewBytes ew) sx)))
  ∧ (∀ s id o tm e i th, sget s.ops id = some o → sget s.teams o.team = some tm → e.tid = some i → e ∈ o.kind.unread →
     sget tm.threads i = some th → (∀ g, e.fmt ≠ .greg g) →
     let vals := (readSrcs { ctx := tm.ctx, core := tm.core, team := o.team, tid := some i } e.na e.srcs s).1
     let t := performRead s id e
     ∃ tm' m, sget t.teams o.team = some tm' ∧
       sget tm'.threads i = some { th with
         mark := m,
         pend := th.pend.map fun p => match (e.fmt.regs vals).find? fun r => p.op = id && p.reg = pendReg e.hnd r.1 with
           | some r => { p with value := r.2 }
           | none => p } ∧
       (sget t.ops id).map (·.kind.unread) = some (o.kind.unread.erase e) ∧
       (∀ j u, j ≠ i → sget tm.threads j = some u → ∃ m', sget tm'.threads j = some { u with mark := m' }) ∧
       ∀ j, j ≠ id → sget t.ops j = sget s.ops j)

/-- R186, R188, R189, R190: ST, SCAT and STX of checked places retire with every lane's bytes taken, lanes ascending, into the
core's coalescing buffer (global) or the scratchpad, and one operation open. The address is the one the check was made of.
That scratchpad bytes stand in the scratchpad in the issuing step is the model's choice (log 83). R173, R186, R212:
STORE_DRAIN of a store that is not held performs it at the home: its bytes stand at its physical address (those bits that it
stores), and every other byte of memory is as before. A store that must come before it is performed with it, first. A held
store stays. -/
def Obligations.StoresTakeTheirBytes : Prop :=
  ((∀ h d a imm w, GroupCompletes (.st h d a imm w false)
     (memReq h .stores ((d.toNat, regsFor (widthBytes w)) :: two [a]))
     (fun x s => ∀ l ∈ x.act, GlobalOk s x.tm.ctx (gaddr (x.view s) l a imm) (widthBytes w) .ls true)
     (stored h d (widthBytes w) (fun v => v.act) fun v l => gaddr v l a imm))
   ∧ (∀ h d a imm w, GroupCompletes (.st h d a imm w true)
     (memReq h .stores ((d.toNat, regsFor (widthBytes w)) :: one [a]))
     (fun x s => ∀ l ∈ x.act, checkSp x.tm (saddr (x.view s) l a imm).toNat (widthBytes w) .store .spTeam = none)
     fun x s => storedSp h d (widthBytes w) (fun v => v.act) (fun v l => (x.t, (saddr v l a imm).toNat)) x s)
   ∧ (∀ h d a imm w, GroupCompletes (.stx h d a imm w)
     (memReq h .stores ((d.toNat, regsFor (widthBytes w)) :: one [a]))
     (fun x s => ∀ l ∈ x.act, checkCluster s x (saddr (x.view s) l a imm).toNat (widthBytes w) .store = none)
     fun x s => storedSp h d (widthBytes w) (fun v => v.act) (fun v l => clusterAt x (saddr v l a imm).toNat) x s)
   ∧ (∀ h d a b ix ew, GroupCompletes (.scat h d a b ix ew false)
     (memReq h .stores ((d.toNat, regsFor (ewBytes ew)) :: two [a] ++ (if ix.iw = .b64 then two [b] else one [b])))
     (fun x s => ∀ l ∈ idxLanes b ix (x.view s),
       GlobalOk s x.tm.ctx (idxAddr ((x.view s).r64 l a) ix (idxVal (x.view s) l b ix)) (ewBytes ew) .ls true)
     (stored h d (ewBytes ew) (idxLanes b ix) fun v l => idxAddr (v.r64 l a) ix (idxVal v l b ix)))
   ∧ (∀ h d a b ix ew, GroupCompletes (.scat h d a b ix ew true)
     (memReq h .stores ((d.toNat, regsFor (ewBytes ew)) :: one [a] ++ (if ix.iw = .b64 then two [b] else one [b])))
     (fun x s => ∀ l ∈ idxLanes b ix (x.view s),
       checkSp x.tm (idxSp ((x.view s).r l a) ix (idxVal (x.view s) l b ix)) (ewBytes ew) .store .spTeam = none)
     fun x s => storedSp h d (ewBytes ew) (idxLanes b ix) (fun v l => (x.t, idxSp (v.r l a) ix (idxVal v l b ix))) x s))
  ∧ ((∀ s core h l1 l2 tm, s.coal = l1 ++ h :: l2 → h.core = core → h.held = false → h ∉ l2 →
     (∀ e ∈ l1, e ≠ h ∧ (e.held = false → e.before h = false)) → sget s.teams h.team = some tm →
     ∃ u, exec (.storeDrain core (l1.filter fun e => e.core = core).length) s = .next u ∧ u.coal = l1 ++ l2 ∧
       u.mem = memSets s.mem h.pa (h.merge (memBytes s.mem h.pa h.bytes.length)) ∧
       (∀ i (hi : i < h.bytes.length), h.keep = [] → memByte u.mem (h.pa + i) = h.bytes[i]) ∧
       ∀ a, ¬(h.pa ≤ a ∧ a < h.pa + h.bytes.length) → memByte u.mem a = memByte s.mem a)
   ∧ (∀ s core e h tm tm', s.coal = [e, h] → e ≠ h → e.core = core → h.core = core → e.held = false → h.held = false →
     e.before h = true → sget s.teams e.team = some tm → sget s.teams h.team = some tm' →
     ∃ u, exec (.storeDrain core 1) s = .next u ∧ u.coal = [] ∧
       let m := memSets s.mem e.pa (e.merge (memBytes s.mem e.pa e.bytes.length))
       u.mem = memSets m h.pa (h.merge (memBytes m h.pa h.bytes.length)))
   ∧ (∀ s core n h, (s.coal.filter fun e => e.core = core)[n]? = some h → h.held = true → exec (.storeDrain core n) s = .next s))

/-- R191, R192, R193, R194, R195, R302, R305: the layout words, CINV, PREF and TWALK. LDL reads the element that the lane's
handle and coordinates name: a view's where its block is fresh or the policy takes stale data, which sets SR; it waits for a
block under the policy `wait`, with the record its issue has read, and CLASS_W_WAIT_RELEASE ends the wait; a suspended view,
or a stale block under the policy `fault`, traps. STL writes the element where it is no view's, and traps with PATH_DENIED
where it is; LYDROP frees valid handles and ignores others; CINV drops untracked lines; PREF fills, and ignores a failing
lane; TWALK owes every lane its leaf and the leaf's value; LYLD binds the records of distinct addresses to the lowest free
entries and owes every lane its handle. LDL's elements are read in this step or in a later one; LYLD, whose checks rest on
what it reads, and TWALK, whose addresses do, read at the issue: the model's choices (log 8). STL's lane out of bounds that
PAD or CLIP skips is the model's too (log 93). -/
def Obligations.LayoutAndHintWords : Prop :=
  (∀ h d a imm, GroupCompletes (.ldl h d a imm) (ldlReq h d a)
    (fun x s => ∀ l ∈ x.act, elemReads s x a imm l) (elemsLoaded h d a imm))
  ∧ (∀ h d a imm, GroupWaits (.ldl h d a imm) (ldlReq h d a)
    (fun x s => (∀ l ∈ x.act, elemPasses s x a imm l) ∧ ∃ l ∈ x.act, elemView s x a imm l = .wait) (elemsHeld a imm))
  ∧ (∀ t k h d a imm, WaitEnds (.ldl h d a imm) (.classWWaitRelease (.group t k)) (ldlReq h d a) t k
    (fun x s => ∀ l ∈ x.act, elemReads s x a imm l) (elemsLoaded h d a imm))
  ∧ (∀ h d a imm l p f, GroupTraps (.ldl h d a imm) (ldlReq h d a)
    (fun x s => x.act = [l] ∧ elemPlace s x a imm l = some p ∧ elemCheck s x p false = none ∧ ldlView s x p l = .fault f)
    fun _ _ => { cause := f.cause, lanes := [l], addr := f.addr, info := infoOf f l })
  ∧ (∀ s x p l, recVid p.lay = 0 → ldlView s x p l = .data none)
  ∧ (∀ s x p l c k v, recVid p.lay ≠ 0 → sget x.g.cons l = none → sget s.contexts x.tm.ctx = some c → p.view = some (k, v) →
    (v.state = .suspended → ldlView s x p l = .fault ⟨0x1C, 0, 0, 5, p.addr⟩) ∧
    (v.state = .active → viewFresh c v (viewBlock v p.lay p.coord) = true → ldlView s x p l = .data none) ∧
    (v.state = .active → viewFresh c v (viewBlock v p.lay p.coord) = false →
      (v.policy = .wait → ldlView s x p l = .wait) ∧ (v.policy = .stale → ldlView s x p l = .data (some k)) ∧
      (v.policy = .fault → ldlView s x p l = .fault ⟨0x1B, 0, 0, 5, p.addr⟩)))
  ∧ (∀ h d a imm l p, GroupTraps (.stl h d a imm) (memReq h .stores (one [d] ++ [(a.toNat, 6)]))
    (fun x s => x.act = [l] ∧ elemPlace s x a imm l = some p ∧ recVid p.lay ≠ 0 ∧ elemCheck s x (stlPlace p) true = none)
    fun _ _ => { cause := 0x12, lanes := [l], addr := p.addr, info := infoOf ⟨0x12, 9, 0, 5, p.addr⟩ l })
  ∧ (∀ h d a imm, GroupCompletes (.stl h d a imm) (memReq h .stores (one [d] ++ [(a.toNat, 6)]))
    (fun x s => ∀ l ∈ x.act, elemWrites s x a imm l) (elemsStored h d a imm))
  ∧ (∀ h d a imm, GroupCompletes (.lyld h d a imm) (memReq h .layout (one [d] ++ two [a]))
    (fun x s =>
      (∀ l ∈ x.act, GlobalOk s x.tm.ctx (gaddr (x.view s) l a imm) 64 .ly false)
      ∧ (∀ e ∈ (lyldReads a imm x s).1, recBad e.2 (fsRead x.lr (BitVec.ofNat 3 (recFs e.2))) = false)
      ∧ (x.act.map fun l => (gaddr (x.view s) l a imm).toNat).eraseDups.length
          ≤ ((List.range 16).filter fun i => !(sgetD x.tm.binds i default).bound).length)
    fun x s =>
      let recs := (lyldReads a imm x s).1
      let filled := (lyldPlaces a imm x s).foldl (fun s' e => xlatFill s' x.tm.core x.tm.ctx e.1 e.2.2) (lyldReads a imm x s).2
      openRead (modTeam filled x.t fun tm => (bindAll tm recs).2) x h (x.act.map fun l => out1 l d
        (BitVec.ofNat 32 ((((bindAll x.tm recs).1.find? fun e => e.1 = (gaddr (x.view s) l a imm).toNat).map Prod.snd).getD 0))))
  ∧ (∀ h a, GroupCompletes (.lydrop h a) (memReq h .layout (one [a])) always
    fun x s => openLong (modTeam s x.t fun tm => x.act.foldl (fun tm l =>
      let hd := ((x.view s).r l a).toNat % 65536
      if (handleRec tm hd).isSome then
        { tm with binds := smod tm.binds (hd % 16) fun b => { b with bound := false, word := 0 } }
      else tm) tm) x h (groupOp x h.dc .plain) [])
  ∧ (∀ h a imm lvl, GroupCompletes (.cinv h a imm lvl) (memReq h .stores (two [a])) always
    fun x s => openLong (x.act.foldl (fun s' l =>
      if (gaddr (x.view s) l a imm).extractLsb' 52 12 ≠ 0 then s'
      else match translate s' x.tm.ctx (gaddr (x.view s) l a imm).toNat with
        | .error _ => s'
        | .ok loc => dropLine s' x.tm.core lvl loc) s) x h (groupOp x h.dc .plain) [])
  ∧ (∀ h a imm lvl, GroupCompletes (.pref h a imm lvl) (memReq h .loads (two [a])) always
    fun x s => openLong (x.act.foldl (fun s' l =>
      match checkGlobal s' x.tm.ctx (gaddr (x.view s) l a imm) 1 .ls false with
      | .error _ => s'
      | .ok loc =>
        let s' := xlatFill s' x.tm.core x.tm.ctx (gaddr (x.view s) l a imm).toNat loc
        if lvl = .l1 then fillLine s' x.tm.core .ls loc (lineOf loc.pa) false else s') s) x h (groupOp x h.dc .plain) [])
  ∧ (∀ h d a b n, GroupCompletes (.twalk h d a b n) (memReq h .stores (two [d, a, b]))
    (fun x s => ∀ e ∈ (walked a b n x s).1, ∃ r, e.2 = .ok r)
    fun x s => openRead (walked a b n x s).2 x h ((walked a b n x s).1.map (walkOut d)))

/-- Frames of LD, LDK, LDX, GATH, LDL, ST, STX, SCAT, STL, ATOM, ARED and ACAS, by the states that LoadsOpenReads,
StoresTakeTheirBytes, LayoutAndHintWords and AtomicsActAtTheHome give them: a load changes no byte of memory, and a store or
an atomic none outside the lanes' places, but for the bytes of stores that the buffers already hold, which may drain; a
scratchpad store or atomic changes no scratchpad byte outside the lanes' offsets. In each, the groups stand as before, and
every register, predicate and flag reads as before: a load's results are pending. A read that no cache and no buffered store
serves gives the bytes at the home. Scratchpad accesses and atomics act in the issuing step: logs 83 and 95. -/
def Obligations.LoadsAndStoresFrame : Prop :=
  (∀ h d p na sx n ea x s, sget s.teams x.t = some x.tm →
    KeepsMemory s (loaded h d p na sx n ea x s) (fun _ => True) ∧ KeepsThreads x (loaded h d p na sx n ea x s))
  ∧ (∀ h d sx n lanes off x s, sget s.teams x.t = some x.tm →
    KeepsMemory s (loadedSp h d sx n lanes off x s) (fun _ => True) ∧ KeepsThreads x (loadedSp h d sx n lanes off x s))
  ∧ (∀ h d a b ix n sx x s, sget s.teams x.t = some x.tm →
    KeepsMemory s (gathered h d a b ix n sx x s) (fun _ => True) ∧ KeepsThreads x (gathered h d a b ix n sx x s))
  ∧ (∀ h d n lanes ea x s, sget s.teams x.t = some x.tm →
    KeepsMemory s (stored h d n lanes ea x s)
      (fun a => ∀ l ∈ lanes (x.view s), ¬(storePlace x s n ea l ≤ a ∧ a < storePlace x s n ea l + n)) ∧
    KeepsThreads x (stored h d n lanes ea x s))
  ∧ (∀ h d n lanes off x s, sget s.teams x.t = some x.tm →
    KeepsMemory s (storedSp h d n lanes off x s) (fun _ => True) ∧ KeepsThreads x (storedSp h d n lanes off x s) ∧
      ∀ u tm, sget s.teams u = some tm → ∃ tm', sget (storedSp h d n lanes off x s).teams u = some tm' ∧
        ∀ a, (∀ l ∈ lanes (x.view s), ¬((off (x.view s) l).1 = u ∧ (off (x.view s) l).2 ≤ a ∧ a < (off (x.view s) l).2 + n)) →
          spByte tm' a = spByte tm a)
  ∧ (∀ h d a imm x s, sget s.teams x.t = some x.tm → sget x.tm.groups x.k = some x.g →
    KeepsMemory s (elemsLoaded h d a imm x s) (fun _ => True) ∧
    KeepsThreads { x with tm := ldlTeam x } (elemsLoaded h d a imm x s) ∧ KeepsScratch s (elemsLoaded h d a imm x s) fun _ _ => True)
  ∧ (∀ h d a imm x s, sget s.teams x.t = some x.tm → (∀ l ∈ x.act, elemWrites s x a imm l) →
    KeepsMemory s (elemsStored h d a imm x s) (fun b => ∀ l ∈ x.act, ∀ p, elemPlace s x a imm l = some p →
      ∀ e ∈ elemLocs s x (stlPlace p) true, ¬(e.2.2.pa ≤ b ∧ b < e.2.2.pa + e.2.1)) ∧
    KeepsThreads x (elemsStored h d a imm x s) ∧
    KeepsScratch s (elemsStored h d a imm x s) fun u b => ∀ l ∈ x.act, ∀ p, elemPlace s x a imm l = some p → recSp p.lay = true →
      ∀ w ∈ (stlPlace p).words, ¬(u = x.t ∧ w.1 ≤ b ∧ b < w.1 + w.2))
  ∧ (∀ h os n a imm f out x s, sget s.teams x.t = some x.tm →
    let r := atomRun os n a imm f x s
    ∀ t, t = atomDone h os out x r ∨ t = atomQuiet h os x r →
    KeepsMemory s t (fun b => osSp os = true ∨ ∀ l ∈ x.act,
      ¬(storePlace x s n (atomAddr os a imm) l ≤ b ∧ b < storePlace x s n (atomAddr os a imm) l + n)) ∧
    KeepsThreads x t ∧ KeepsScratch s t fun u b => osSp os = true → ∀ l ∈ x.act,
      ¬(u = x.t ∧ (atomAddr os a imm (x.view s) l).toNat ≤ b ∧ b < (atomAddr os a imm (x.view s) l).toNat + n))
  ∧ (∀ s w p l n, s.coal = [] → (getCore s w.core).paths = [] → s.l1 = [] → s.mixed = [] →
    (getDie s (coreDie w.core)).rdc = [] → readNat s w p l n = memNat s.mem l.pa n)

/-- R43, R345, R36: what a word's retiring leaves, on a core that records no clause packets. The group stands at the next
word, with its members, its handler registers and its mode, and between clauses with the priority that it counts at (log 39);
every thread keeps all but the age of its pending results; `%icount` may count; every other group, every other team, memory
and the rest of the machine stay. -/
def Obligations.RetiringMovesOn : Prop :=
  ∀ s x tm g, Untraced s x → sget s.teams x.t = some tm → sget tm.groups x.k = some g → ∃ tm' g',
    sget (retired s x).teams x.t = some tm' ∧ sget tm'.groups x.k = some g' ∧
    { tm' with threads := tm.threads, groups := tm.groups, icount := tm.icount } = tm ∧
    tm'.icount = (if g.handler || g.counted then tm.icount else tm.icount + 1) ∧
    { g' with pc := g.pc, wix := g.wix, clause := g.clause, waitzDone := g.waitzDone, lastIssue := g.lastIssue,
              counted := g.counted, left := g.left } = g ∧
    (g'.pc, g'.wix, g'.clause, g'.left)
      = ((advance s.cycle g).pc, (advance s.cycle g).wix, (advance s.cycle g).clause, (advance s.cycle g).left) ∧
    (∀ k, k ≠ x.k → sget tm'.groups k = sget tm.groups k) ∧
    (∀ i th, sget tm.threads i = some th → ∃ th', sget tm'.threads i = some th' ∧ { th' with pend := th.pend } = th) ∧
    (∀ n, n ≠ x.t → sget (retired s x).teams n = sget s.teams n) ∧ { retired s x with teams := s.teams } = s

/-! ## Atomics, fences, semaphores, buffers (R199 to R228) -/

/-- R215, R214: ATOM, ARED and ACAS of checked places retire with each active lane's read-modify-write performed at the home,
lanes ascending, the release and the acquire that OS names, and one operation open that owes ATOM's and ACAS's old values. In
a deterministic team they issue once the core's previous atomic has completed (R353). That scratchpad atomics (log 83) and
global atomics (log 95) are performed in the issuing step is the model's choice. R216, R217: FENCE by active threads waits
until their earlier reads have returned (but for those of UO pages, unless `.uo`); then it performs their accesses when it
releases, forks, and acquires when it acquires. PFENCE waits for their accesses, and their engines', on the named paths,
performs the stores of those paths, their own and those that a release has performed for them, and drops the lines of the
others. With no active thread neither does anything. -/
def Obligations.AtomicsAndFences : Prop :=
  ((∀ h d a imm os op, GroupCompletes (.atom h d a imm os op) (atomReq h (one [d] ++ atomRegs os a)) (atomOk os 4 a imm)
     fun x s => atomDone h os (fun e => out1 e.1 d (BitVec.ofNat 32 e.2)) x
       (atomRun os 4 a imm (fun v l o => some (atomNew op (BitVec.ofNat 32 o) (v.r l d)).toNat) x s))
   ∧ (∀ h d a imm os op, GroupCompletes (.ared h d a imm os op) (atomReq h (one [d] ++ atomRegs os a)) (atomOk os 4 a imm)
     fun x s => atomQuiet h os x
       (atomRun os 4 a imm (fun v l o => some (atomNew op (BitVec.ofNat 32 o) (v.r l d)).toNat) x s))
   ∧ (∀ h d a b c os, GroupCompletes (.acas h d a b c os false) (atomReq h (one [d, b, c] ++ atomRegs os a))
     (atomOk os 4 a 0)
     fun x s => atomDone h os (fun e => out1 e.1 d (BitVec.ofNat 32 e.2)) x
       (atomRun os 4 a 0 (fun v l o => if o = (v.r l b).toNat then some (v.r l c).toNat else none) x s))
   ∧ (∀ h d a b c os, GroupCompletes (.acas h d a b c os true) (atomReq h (two [d, b, c] ++ atomRegs os a))
     (atomOk os 8 a 0)
     fun x s => atomDone h os (fun e => out2 e.1 d (BitVec.ofNat 64 e.2)) x
       (atomRun os 8 a 0 (fun v l o => if o = (v.r64 l b).toNat then some (v.r64 l c).toNat else none) x s)))
  ∧ ((∀ h kind uo sc, GroupCompletes (.fence h kind uo sc) (waitReq h .order)
     (fun x s => x.act ≠ [] ∧ (kind ≠ .acq → stuckStores s x.t x.tids uo = []) ∧ readOpen s x.t x.tids uo = false)
     fun x s =>
       let s := if kind = .acq then s else releaseFork (performFor s x.t x.parties sc uo) x.t x.tids sc
       if kind = .rel then s else acquireBy s x sc)
   ∧ (∀ h kind uo sc, GroupWaits (.fence h kind uo sc) (waitReq h .order)
     (fun x s => x.act ≠ [] ∧ (kind ≠ .acq → stuckStores s x.t x.tids uo = []) ∧ readOpen s x.t x.tids uo = true) fun _ s => s)
   ∧ (∀ h mask, GroupCompletes (.pfence h mask) (waitReq h .order)
     (fun x s => x.act ≠ [] ∧ pathOpen s x.t x.tids ((List.range 6).filter fun i => mask.getLsbD i) = false)
     fun x s =>
       let paths := (List.range 6).filter fun i => mask.getLsbD i
       pathDrop (drainWhere s (pfenceStore x.parties paths)) x.tm.core (paths.filter fun i => i ≠ 0))
   ∧ (∀ h mask, GroupWaits (.pfence h mask) (waitReq h .order)
     (fun x s => x.act ≠ [] ∧ pathOpen s x.t x.tids ((List.range 6).filter fun i => mask.getLsbD i) = true) fun _ s => s)
   ∧ (∀ h kind uo sc, GroupCompletes (.fence h kind uo sc) (waitReq h .order) (fun x _ => x.act = []) fun _ s => s)
   ∧ (∀ h mask, GroupCompletes (.pfence h mask) (waitReq h .order) (fun x _ => x.act = []) fun _ s => s))

/-- R219, R221, R223: a SEMP, SEMX or ARRIVE posted by a group or by the sequencer adds to the count, or takes from it, once,
after its release; ARRIVE's `.rp` gives the phase before it. R221, R222, R223: SEMW of a group or of the sequencer completes
when it is first in order and the count reaches, taking n; WAITPH completes when the phase is not the one it names, or has not
been since its wait began (a deterministic team's group looks at its turns only, R354); else they wait. The waits end by the
SEMAPHORE_WAIT_RELEASE event once the condition holds. -/
def Obligations.SemaphoresPostAndWait : Prop :=
  ((∀ h sem n sc, GroupCompletes (.semp h sem n sc) (syncReq h [] false) postOk
     (posted h sc (fun x s => setSem s x.t sem (semPost n.toNat)) fun _ => []))
   ∧ (∀ h sem n sc, SeqCompletes (.semp h sem n sc) (syncSReq h 0) alwaysSeq
     (postedSeq h sc fun x s => setSem s x.t sem (semPost n.toNat)))
   ∧ (∀ h sem n, GroupCompletes (.semx h sem n) (syncReq h [] false) (fun x _ => x.act ≠ [])
     fun x s => openLong (setSem s x.t sem (semPost n.toNat)) x h (groupOp x h.dc .plain) [])
   ∧ (∀ h sem n, SeqCompletes (.semx h sem n) (syncSReq h 0) alwaysSeq
     fun x s => openSeq (setSem s x.t sem (semPost n.toNat)) x.t h.dc.toNat .plain)
   ∧ (∀ h d sem n sc rp, GroupCompletes (.arrive h d sem n sc rp) (syncReq h (if rp then one [d] else []) rp) postOk
     (posted h sc (fun x s => notePhase (setSem s x.t sem (semArrive n.toNat)) x.t sem) fun x =>
       if rp then x.act.map fun l => out1 l d (BitVec.ofNat 32 (semOf x.tm sem).phase.toNat) else []))
   ∧ (∀ h d sem n sc rp, SeqCompletes (.arrive h d sem n sc rp) (syncSReq h d) alwaysSeq
     (postedSeq h sc fun x s =>
       let s := notePhase (setSem s x.t sem (semArrive n.toNat)) x.t sem
       if rp then gWrite s x.t d.toNat (BitVec.ofNat 64 (semOf x.tm sem).phase.toNat) else s)))
  ∧ ((∀ h sem n sc, GroupCompletes (.semw h sem n sc) (syncReq h [] false)
     (fun x _ => x.act ≠ [] ∧ semwReady (semOf x.tm sem) (some x.k) n.toNat = true)
     fun x s => acquireBy (setSem s x.t sem (semTake (some x.k) n.toNat)) x sc)
   ∧ (∀ h sem n sc, GroupWaits (.semw h sem n sc) (syncReq h [] false)
     (fun x _ => x.act ≠ [] ∧ semwReady (semOf x.tm sem) (some x.k) n.toNat = false)
     fun x s => setSem s x.t sem (semQueue (some x.k)))
   ∧ (∀ h sem n sc, SeqCompletes (.semw h sem n sc) (syncSReq h 0)
     (fun x _ => semwReady (semOf x.tm sem) none n.toNat = true)
     fun x s => acquireSeq (setSem s x.t sem (semTake none n.toNat)) x sc)
   ∧ (∀ h sem n sc, SeqWaits (.semw h sem n sc) (syncSReq h 0)
     (fun x _ => semwReady (semOf x.tm sem) none n.toNat = false) fun x s => setSem s x.t sem (semQueue none))
   ∧ (∀ h d sem phi sc src, GroupCompletes (.waitph h d sem phi sc src) (syncReq h (if src then one [d] else []) false)
     (fun x s => x.act ≠ [] ∧ ((semOf x.tm sem).phase ≠ phiOf s x d phi src ∨ heldSeen x = true))
     fun x s => acquireBy (clearSeen s x.t x.k) x sc)
   ∧ (∀ h d sem phi sc src, GroupWaits (.waitph h d sem phi sc src) (syncReq h (if src then one [d] else []) false)
     (fun x s => x.act ≠ [] ∧ heldSeen x = false ∧ (semOf x.tm sem).phase = phiOf s x d phi src)
     fun _ s => s)
   ∧ (∀ h d sem phi sc src, SeqCompletes (.waitph h d sem phi sc src) (syncSReq h d)
     (fun x _ => (semOf x.tm sem).phase ≠ phiSeq x d phi src ∨ x.q.seen = true)
     fun x s => acquireSeq (clearSeenSeq s x.t) x sc)
   ∧ (∀ h d sem phi sc src, SeqWaits (.waitph h d sem phi sc src) (syncSReq h d)
     (fun x _ => x.q.seen = false ∧ (semOf x.tm sem).phase = phiSeq x d phi src) fun _ s => s)
   ∧ (∀ t k h sem n sc, WaitEnds (.semw h sem n sc) (.semaphoreWaitRelease (.group t k)) (syncReq h [] false) t k
     (fun x _ => x.act ≠ [] ∧ semwReady (semOf x.tm sem) (some k) n.toNat = true)
     fun x s => acquireBy (setSem s t sem (semTake (some k) n.toNat)) x sc)
   ∧ (∀ t k h d sem phi sc src, WaitEnds (.waitph h d sem phi sc src) (.semaphoreWaitRelease (.group t k))
     (syncReq h (if src then one [d] else []) false) t k
     (fun x s => x.act ≠ [] ∧ ((semOf x.tm sem).phase ≠ phiOf s x d phi src ∨ heldSeen x = true))
     fun x s => acquireBy (clearSeen s t k) x sc)
   ∧ (∀ t h sem n sc, SeqWaitEnds (.semw h sem n sc) (.semaphoreWaitRelease (.seq t)) (syncSReq h 0) t
     (fun x _ => semwReady (semOf x.tm sem) none n.toNat = true)
     fun x s => acquireSeq (setSem s t sem (semTake none n.toNat)) x sc)
   ∧ (∀ t h d sem phi sc src, SeqWaitEnds (.waitph h d sem phi sc src) (.semaphoreWaitRelease (.seq t)) (syncSReq h d) t
     (fun x _ => (semOf x.tm sem).phase ≠ phiSeq x d phi src ∨ x.q.seen = true)
     fun x s => acquireSeq (clearSeenSeq s t) x sc))

/-- R178, R179, R226, R227: a listed BUFS requests its transition and opens an operation, after its release; one that R178
does not list traps with BUFFER_STATE, in the lanes active (the model's choice, log 30); a transition that waits for nothing
takes effect at once (log 43); BUFW completes in its state and phase, or where they have held since its wait began, else it
waits. BUFFER_TRANSITION lets the requests whose waits are over take effect in order, each with its fork and its acquire, up
to one that still waits: the waits are over when the operations have ended, or at a matrix instruction's last read of A, at a
free choice before its end (R265); the phase toggles from DRAINING to EMPTY; BUFFER_WAIT_RELEASE ends a BUFW whose condition
holds or has been seen. -/
def Obligations.BuffersMove : Prop :=
  (∀ h buf st sc, GroupCompletes (.bufs h buf st sc) (syncReq h [] false)
    (fun x s => x.act ≠ [] ∧ bufsOk x.tm buf.toNat st = true ∧ releaseOk x s)
    fun x s =>
      let s := bufRequest (performFor s x.t x.parties sc false) x.t buf.toNat st sc (some x.tids)
      bufRun x.t buf.toNat (openLong s x h (groupOp x h.dc (.bufs buf.toNat)) []))
  ∧ (∀ h buf st sc, GroupTraps (.bufs h buf st sc) (syncReq h [] false)
    (fun x _ => x.act ≠ [] ∧ bufsOk x.tm buf.toNat st = false)
    fun x _ => { cause := 0x16, lanes := x.act, addr := buf.zeroExtend 64, info := 0x00600000 })
  ∧ (∀ h buf st sc, SeqCompletes (.bufs h buf st sc) (syncSReq h 0) (fun x _ => bufsOk x.tm buf.toNat st = true)
    fun x s =>
      bufRun x.t buf.toNat (openSeq (bufRequest (releaseSeq s x sc) x.t buf.toNat st sc none) x.t h.dc.toNat (.bufs buf.toNat)))
  ∧ (∀ h buf st sc s x, seqSite (syncSReq h 0) s = some x → bufsOk x.tm buf.toNat st = false →
    exec (.bufs h buf st sc) s = .next (trapSeq s x.t 0x16 (hpcWord x.q.pc x.q.wix) (buf.zeroExtend 64) 0x00600000))
  ∧ (∀ h buf st ph sc, GroupCompletes (.bufw h buf st ph sc) (syncReq h [] false)
    (fun x _ => x.act ≠ [] ∧ (bufwMet x.tm buf st ph = true ∨ heldSeen x = true))
    fun x s => acquireBy (clearSeen s x.t x.k) x sc)
  ∧ (∀ h buf st ph sc, GroupWaits (.bufw h buf st ph sc) (syncReq h [] false)
    (fun x _ => x.act ≠ [] ∧ heldSeen x = false ∧ bufwMet x.tm buf st ph = false) fun _ s => s)
  ∧ (∀ h buf st ph sc, SeqCompletes (.bufw h buf st ph sc) (syncSReq h 0)
    (fun x _ => bufwMet x.tm buf st ph = true ∨ x.q.seen = true)
    fun x s => acquireSeq (clearSeenSeq s x.t) x sc)
  ∧ (∀ h buf st ph sc, SeqWaits (.bufw h buf st ph sc) (syncSReq h 0)
    (fun x _ => x.q.seen = false ∧ bufwMet x.tm buf st ph = false) fun _ s => s)
  ∧ (∀ s team buf tm done rest, sget s.teams team = some tm → (bufOf tm buf).reqs = done ++ rest → done ≠ [] →
    (∀ r ∈ done, ∀ n ∈ r.waits, sget s.ops n = none) →
    (∀ r ∈ rest.head?, ∃ n ∈ r.waits, ((sget s.ops n).isSome ∧ Config.freeBit s.freeCtr (2 ^ 50 + n) = false) ∧ ∀ d ∈ done, d.op ≠ n) →
    ∃ t tm', exec (.bufferTransition team buf) s = .next t ∧ sget t.teams team = some tm' ∧
      some (bufOf tm' buf).state = done.getLast?.map (·.target) ∧ (bufOf tm' buf).reqs = rest ∧
      (∀ r ∈ done, sget t.ops r.op = none) ∧ ∀ n, (∀ r ∈ done, r.op ≠ n) → (sget t.ops n).isSome = (sget s.ops n).isSome)
  ∧ (∀ s team buf tm r, sget s.teams team = some tm → (bufOf tm buf).reqs = [r] → (∀ n ∈ r.waits, waitOver s n = true) →
    let s1 := completeOp (bufTo (modTeam s team fun tm => modBuf tm buf fun b => { b with reqs := [] }) team buf r.target) r.op
    let s2 := match r.tids with
      | some tids => releaseFork s1 team tids r.scope
      | none => releaseForkSeq s1 team r.scope
    exec (.bufferTransition team buf) s = .next (acquireFor s2 team tm.core ((r.tids.map tidsOf).getD [none]) r.scope))
  ∧ (∀ s team buf tm r rest, sget s.teams team = some tm → (bufOf tm buf).reqs = r :: rest → (∃ n ∈ r.waits, waitOver s n = false) →
    exec (.bufferTransition team buf) s = .next s)
  ∧ (∀ s n, (sget s.ops n = none → waitOver s n = true) ∧ (∀ o, sget s.ops n = some o →
    (∀ b keys l st e, o.kind ≠ .matrix b keys l st e) → waitOver s n = false))
  ∧ (∀ s team buf st tm, sget s.teams team = some tm → ∃ tm', sget (bufTo s team buf st).teams team = some tm' ∧
    (bufOf tm' buf).state = st ∧ (bufOf tm' buf).reqs = (bufOf tm buf).reqs ∧ (bufOf tm' buf).phase =
      (if (bufOf tm buf).state = .draining ∧ st = .empty then !(bufOf tm buf).phase else (bufOf tm buf).phase))
  ∧ (∀ t k h buf st ph sc, WaitEnds (.bufw h buf st ph sc) (.bufferWaitRelease (.group t k)) (syncReq h [] false) t k
    (fun x _ => x.act ≠ [] ∧ (bufwMet x.tm buf st ph = true ∨ heldSeen x = true))
    fun x s => acquireBy (clearSeen s t k) x sc)
  ∧ (∀ t h buf st ph sc, SeqWaitEnds (.bufw h buf st ph sc) (.bufferWaitRelease (.seq t)) (syncSReq h 0) t
    (fun x _ => bufwMet x.tm buf st ph = true ∨ x.q.seen = true) fun x s => acquireSeq (clearSeenSeq s t) x sc)

/-! ## Control transfer (R143 to R163) -/

/-- R144, R151, R155 to R160: each transfer whose checks pass issues: every member gets its next address, the target for an
active thread and the fall-through for the others, and the group waits for the resolution. R151, R157: a transfer with U set
whose members' next addresses differ traps with UNIFORMITY, naming the lanes that differ from the lowest: every branch, call
and return. CALLX and RET to an address that is no multiple of 8 trap with MISALIGNED, naming the lanes and the lowest one's
address, whether or not U is set. R161, R162: NOP retires with no effect, for a group and for the sequencer; WAITDC retires
once every named counter of every active member is at most n, and waits while one is not, until CLASS_W_WAIT_RELEASE finds
them so. -/
def Obligations.TransfersIssue : Prop :=
  ((∀ h off, GroupHolds (.bra h off) (transferReq h []) (fun x s => uniformOk h.u (fun _ _ => branchTarget x off) x s)
     fun x s => transferring .bra h.u none (fun _ _ => branchTarget x off) x s)
   ∧ (∀ h a off sh, GroupHolds (.brx h a off sh) (transferReq h (one [a]))
     (fun x s => uniformOk h.u (fun v l => branchTarget x off + ((v.r l a).signExtend 64 <<< (3 + sh.toNat))) x s)
     fun x s => transferring .brx h.u none (fun v l => branchTarget x off + ((v.r l a).signExtend 64 <<< (3 + sh.toNat))) x s)
   ∧ (∀ h a off, GroupHolds (.call h a off) (transferReq h (two [a]))
     (fun x s => uniformOk h.u (fun _ _ => branchTarget x off) x s)
     fun x s => transferring .call h.u (some a) (fun _ _ => branchTarget x off) x s)
   ∧ (∀ h a, GroupHolds (.callx h a) (transferReq h (two [a]))
     (fun x s => targetsAligned (fun v l => v.r64 l a) x s ∧ uniformOk h.u (fun v l => v.r64 l a) x s)
     (transferring .callx h.u (some a) fun v l => v.r64 l a))
   ∧ (∀ h a, GroupHolds (.ret h a) (transferReq h (two [a]))
     (fun x s => targetsAligned (fun v l => v.r64 l a) x s ∧ uniformOk h.u (fun v l => v.r64 l a) x s)
     (transferring .ret h.u none fun v l => v.r64 l a))
   ∧ GroupHolds .join { guard := ⟨false, 7⟩ } always
     (fun x s => transferring .join false none (fun _ _ => BitVec.ofNat 64 (fallOf x)) x s)
   ∧ (∀ g, GroupHolds (.exit g) { guard := g } always
     fun x s => transferring .exit false none (fun _ _ => BitVec.ofNat 64 (fallOf x)) x s))
  ∧ ((∀ h off, h.u = true → GroupTraps (.bra h off) (transferReq h []) (transferApart fun x _ _ => branchTarget x off)
     (uniformityTrap fun x _ _ => branchTarget x off))
   ∧ (∀ h a off sh, h.u = true → GroupTraps (.brx h a off sh) (transferReq h (one [a]))
     (transferApart fun x v l => branchTarget x off + ((v.r l a).signExtend 64 <<< (3 + sh.toNat)))
     (uniformityTrap fun x v l => branchTarget x off + ((v.r l a).signExtend 64 <<< (3 + sh.toNat))))
   ∧ (∀ h a off, h.u = true → GroupTraps (.call h a off) (transferReq h (two [a])) (transferApart fun x _ _ => branchTarget x off)
     (uniformityTrap fun x _ _ => branchTarget x off))
   ∧ (∀ h a, h.u = true → GroupTraps (.callx h a) (transferReq h (two [a]))
     (fun x s => targetsAligned (fun v l => v.r64 l a) x s ∧ transferApart (fun _ v l => v.r64 l a) x s)
     (uniformityTrap fun _ v l => v.r64 l a))
   ∧ (∀ h a, h.u = true → GroupTraps (.ret h a) (transferReq h (two [a]))
     (fun x s => targetsAligned (fun v l => v.r64 l a) x s ∧ transferApart (fun _ v l => v.r64 l a) x s)
     (uniformityTrap fun _ v l => v.r64 l a))
   ∧ (∀ h a, GroupTraps (.callx h a) (transferReq h (two [a])) (fun x s => ¬ targetsAligned (fun v l => v.r64 l a) x s)
     (misalignedTrap a))
   ∧ (∀ h a, GroupTraps (.ret h a) (transferReq h (two [a])) (fun x s => ¬ targetsAligned (fun v l => v.r64 l a) x s)
     (misalignedTrap a)))
  ∧ ((∀ g, GroupCompletes (.nop g) { guard := g, lane := true } always fun _ s => s)
   ∧ SeqCompletes (.nop ⟨false, 7⟩) { ok := fun _ => true } alwaysSeq (fun _ s => s)
   ∧ (∀ g mask n, GroupCompletes (.waitdc g mask n) { guard := g }
     (fun x _ => ∀ l ∈ x.act, ∀ i < 6, mask.getLsbD i = true →
       sgetD (sgetD x.tm.threads (sgetD x.g.members l 0) default).dc i 0 ≤ n.toNat) fun _ s => s)
   ∧ (∀ g mask n, GroupWaits (.waitdc g mask n) { guard := g }
     (fun x _ => ∃ l ∈ x.act, ∃ i < 6, mask.getLsbD i = true ∧
       n.toNat < sgetD (sgetD x.tm.threads (sgetD x.g.members l 0) default).dc i 0) fun _ s => s)
   ∧ (∀ t k g mask n, WaitEnds (.waitdc g mask n) (.classWWaitRelease (.group t k)) { guard := g } t k
     (fun x _ => ∀ l ∈ x.act, ∀ i < 6, mask.getLsbD i = true →
       sgetD (sgetD x.tm.threads (sgetD x.g.members l 0) default).dc i 0 ≤ n.toNat) fun _ s => s))

/-- R143, R144, R148, R158, R160: TRANSFER_RESOLVE outside handler mode retires the transfer and writes its links. A branch,
call or return whose lanes agree goes on at the common address; one whose lanes differ dissolves the group. A JOIN frees the
slot and holds the threads at its clause. An EXIT ends its active threads; the others fall through, or the slot is freed; with
no active thread the group goes on, in handler mode too. -/
def Obligations.TransfersResolve : Prop :=
  (∀ s t k x tr l a rest, siteOf s t k ⟨false, 7⟩ = some x → x.g.transfer = some tr → x.g.handler = false →
    tr.kind ≠ .join → tr.kind ≠ .exit → tr.nexts = (l, a) :: rest →
    exec (.transferResolve t k) s = .next (promptTeam
      (if apart tr.nexts = [] then modTeam (linked s x tr) t fun tm => modGroup tm k (continueAt x a)
        else dissolve (linked s x tr) x (groupRole x.tm x.g) (nextThreads x tr.nexts)) t))
  ∧ (∀ s t k x tr c, siteOf s t k ⟨false, 7⟩ = some x → x.g.transfer = some tr → x.g.handler = false →
    tr.kind = .join → x.g.clause = some c →
    exec (.transferResolve t k) s = .next (promptTeam
      (dissolveTrace (modTeam (freeSlot (linked s x tr) t k) t fun tm =>
        (sortNat (memberTids x.g)).foldl (frontEnter (groupRole x.tm x.g) c.prio x.g.pc true) tm) x) t))
  ∧ (∀ s t k x tr, siteOf s t k ⟨false, 7⟩ = some x → x.g.transfer = some tr → x.g.handler = false →
    tr.kind = .exit → tr.active ≠ [] →
    let ended := modTeam (linked s x tr) t fun tm =>
      tr.active.foldl (fun tm l => modThread tm (sgetD x.g.members l 0) endThread) tm
    let rest := (nextThreads x tr.nexts).filter fun e => !(tr.active.any fun l => sgetD x.g.members l 0 = e.1)
    exec (.transferResolve t k) s = .next (promptTeam
      (if rest = [] then noteExit (freeSlot ended t k) x else dissolve ended x (groupRole x.tm x.g) rest) t))
  ∧ (∀ s t k x tr, siteOf s t k ⟨false, 7⟩ = some x → x.g.transfer = some tr → tr.kind = .exit → tr.active = [] →
    exec (.transferResolve t k) s = .next (promptTeam
      (modTeam (linked s x tr) t fun tm => modGroup tm k (continueAt x (BitVec.ofNat 64 (fallOf x)))) t))

/-- R163, R343: a divergent transfer, a JOIN or an EXIT of active threads in handler mode is a fatal fault of the context.
R341, R343: a trap of a group in handler mode, or of a team whose `%htvec` is 0, is a fatal fault: the context stops, and a
context not stopped before keeps the fault's core, position, cause and time. Once the operations issued by its teams have
ended, the core image goes into its area and the notice of kind 2 names the fault (what the image holds: log 14). -/
def Obligations.HandlerModeFaultsAreFatal : Prop :=
  (∀ s t k x tr, siteOf s t k ⟨false, 7⟩ = some x → x.g.transfer = some tr → x.g.handler = true →
     (tr.kind = .join ∨ (tr.kind = .exit ∧ tr.active ≠ []) ∨ (tr.kind ≠ .join ∧ tr.kind ≠ .exit ∧ apart tr.nexts ≠ [])) →
     exec (.transferResolve t k) s = .next (fatalFault
       (modTeam s t fun tm => modGroup tm k fun g => { g with transfer := none }) x.tm.ctx x.tm.core x.g.hpc 0))
  ∧ (∀ s t k tm g c tr old hpc, sget s.teams t = some tm → sget tm.groups k = some g → (g.handler = true ∨ tm.htvec = 0) →
     tr.cause ≠ 0x100 → sget s.contexts tm.ctx = some c →
     trapGroup s t k tr old hpc = fatalFault s tm.ctx tm.core hpc tr.cause ∧
       (∃ c', sget (trapGroup s t k tr old hpc).contexts tm.ctx = some c' ∧ c'.stopped = true ∧
         (c.stopped = false → c'.fault = some (tm.core, hpc, tr.cause, timeOf s))) ∧
       ∀ u c1 core at_ cause time, sget u.contexts tm.ctx = some c1 → c1.fault = some (core, at_, cause, time) →
         let l := u.teams.filter fun e => e.2.ctx = tm.ctx
         (stopQuiet u l = false → endFault u tm.ctx = u) ∧
         (stopQuiet u l = true →
           let r := putCoreImage (modCtx u tm.ctx fun c => { c with fault := none }) tm.ctx l
           endFault u tm.ctx = noticeAt time r.1 tm.ctx 2 cause core at_.toNat r.2))

/-! ## Traps and system words (R338 to R368) -/

/-- R338, R339, R340: a trap of a group outside handler mode, whose team has a handler, leaves the group at word 0 of the
clause at `%htvec`, in handler mode, with the handler registers written, its members in their lanes, and every thread's
registers, predicates, counters and flags, every other group, and memory unchanged. R339: `%hpc` of a trap at word w of the
clause at P is WIX w + 1 and ADDR P + 8(w + 1), the word's byte address. -/
def Obligations.TrapEntersTheHandler : Prop :=
  (∀ s t k tm g tr old hpc, sget s.teams t = some tm → sget tm.groups k = some g → g.handler = false → tm.htvec ≠ 0 →
     tr.cause ≠ 0x100 → (getCore s tm.core).trace.on = false →
     ∃ tm' g', sget (trapGroup s t k tr old hpc).teams t = some tm' ∧ sget tm'.groups k = some g' ∧
       (g'.pc = tm.htvec.toNat ∧ g'.wix = 0 ∧ g'.clause = none ∧ g'.handler = true ∧ g'.transfer = none) ∧
       (g'.hpc = hpc ∧ g'.hcause = BitVec.ofNat 32 tr.cause ∧ g'.haddr = tr.addr ∧ g'.hinfo = tr.info ∧
         g'.hmaskOld = maskOf old ∧ g'.hmaskFault = maskOf tr.lanes ∧ g'.hregs = []) ∧
       g'.members = g.members ∧ tm'.threads = tm.threads ∧ tm'.front = tm.front ∧
       (∀ n, n ≠ k → sget tm'.groups n = sget tm.groups n) ∧
       (∀ n, n ≠ t → sget (trapGroup s t k tr old hpc).teams n = sget s.teams n) ∧
       (trapGroup s t k tr old hpc).mem = s.mem ∧ (trapGroup s t k tr old hpc).ops = s.ops)
  ∧ (∀ pc w, pc + 8 * (w + 1) < 2 ^ 52 → w < 16 →
     hpcWix (hpcWord pc w) = w + 1 ∧ hpcAddr (hpcWord pc w) = pc + 8 * (w + 1) ∧ hpcClauseAddr (hpcWord pc w) = pc)

/-- R36: where the group's next word may issue, the first failing check of R36 after decoding decides: the class (cause 4),
the registers and fields that depend on state (2), the role's engine (5); every member lane is named, and nothing else
happens. -/
def Obligations.FailedChecksTrap : Prop :=
  ∀ r body s t k x c, s.issuer = some (.group t k) → siteOf s t k r.guard = some x → canIssue s x = true →
    ((classOk r x = false ∧ c = 4)
      ∨ (classOk r x = true ∧ (regsOk x.g.handler (roleBudget x.tm (groupRole x.tm x.g)) r.regs && r.ok x) = false ∧ c = 2)
      ∨ (classOk r x = true ∧ (regsOk x.g.handler (roleBudget x.tm (groupRole x.tm x.g)) r.regs && r.ok x) = true ∧
          (engineRole r.engine (groupRole x.tm x.g) && r.roleOk x) = false ∧ c = 5)) →
    issue r body s =
      trapGroup s t k { cause := c, lanes := memberLanes x.g } (memberLanes x.g) (hpcWord x.g.pc x.g.wix)

/-- R363, R357: TRAP and BKPT retire and then trap with SOFTWARE or BREAKPOINT, `%hpc` naming the word after them; where a
debugger is attached, BKPT stops the issuing partition instead; with no active thread both only retire. -/
def Obligations.SoftwareTraps : Prop :=
  (∀ g code, GroupHolds (.trap g code) (plainReq g) (fun x _ => x.act ≠ [])
    fun x s => trapGroup (retired s x) x.t x.k { cause := 7, lanes := x.act, info := code.zeroExtend 32 } x.act
      (groupPos (advance s.cycle x.g)))
  ∧ (∀ g code, GroupHolds (.bkpt g code) (plainReq g)
    (fun x s => x.act ≠ [] ∧ ∀ c, sget s.contexts x.tm.ctx = some c → c.debugger = false)
    fun x s => trapGroup (retired s x) x.t x.k { cause := 9, lanes := x.act, info := code.zeroExtend 32 } x.act
      (groupPos (advance s.cycle x.g)))
  ∧ (∀ g code, GroupCompletes (.bkpt g code) (plainReq g)
    (fun x s => x.act ≠ [] ∧ ∃ c, sget s.contexts x.tm.ctx = some c ∧ c.debugger = true)
    fun x s => debugHalt s x.tm.core (slotPartOf x.tm x.k) true)
  ∧ (∀ g code, GroupCompletes (.trap g code) (plainReq g) (fun x _ => x.act = []) fun _ s => s)
  ∧ (∀ g code, GroupCompletes (.bkpt g code) (plainReq g) (fun x _ => x.act = []) fun _ s => s)

/-- R364, R365: TFENCE retires when no flag is owed and no active thread has a flag set and enabled, traps with ARITH, naming
the lanes that have, and waits while a flag is owed, until CLASS_W_WAIT_RELEASE finds none; YIELD falls through in handler
mode or without a request, and otherwise the group has yielded at the next word with its count of registers to save. -/
def Obligations.TfenceAndYield : Prop :=
  (∀ g, GroupCompletes (.tfence g) (plainReq g)
    (fun x s => flagsOwed s x.t x.tids = false ∧ ∀ l ∈ x.act, laneArith s x l = 0) fun _ s => s)
  ∧ (∀ g, GroupTraps (.tfence g) (plainReq g)
    (fun x s => flagsOwed s x.t x.tids = false ∧ ∃ l ∈ x.act, laneArith s x l ≠ 0)
    fun x s =>
      let bad := x.act.filter fun l => laneArith s x l ≠ 0
      { cause := 8, lanes := bad, info := (bad.foldl (fun w l => w ||| laneArith s x l) 0).zeroExtend 32 })
  ∧ (∀ g, GroupWaits (.tfence g) (plainReq g) (fun x s => flagsOwed s x.t x.tids = true) fun _ s => s)
  ∧ (∀ t k g, WaitEnds (.tfence g) (.classWWaitRelease (.group t k)) (plainReq g) t k
    (fun x s => flagsOwed s x.t x.tids = false ∧ ∀ l ∈ x.act, laneArith s x l = 0) fun _ s => s)
  ∧ (∀ n, GroupCompletes (.yield n) (plainReq ⟨false, 7⟩)
    (fun x s => yieldUnsafe s x = false ∧ (x.g.handler = true ∨ x.tm.preq = false)) fun _ s => s)
  ∧ (∀ n, GroupHolds (.yield n) (plainReq ⟨false, 7⟩)
    (fun x s => yieldUnsafe s x = false ∧ x.g.handler = false ∧ x.tm.preq = true)
    fun x s => modTeam (retired s x) x.t (yieldMark x.k n.toNat))

/-- R342: RTH leaves handler mode: the group stands at the position `%hpc` names, with its members, registers and predicates.
R40, R255: after a trap of the sequencer the sequencer stands at the position that `%hpc` names, ready and with no trap
raised, and the group at the position kept for it: 0 is word 0 before its WAITZ, n + 1 is word n. -/
def Obligations.RthResumes : Prop :=
  (∀ s x s1, issueSite { plainReq ⟨false, 7⟩ with rth := true } s = some (x, s1) → x.g.seqTrap = false →
    ∃ t tm g, exec .rth s = .next t ∧ sget t.teams x.t = some tm ∧ sget tm.groups x.k = some g ∧
      g.handler = false ∧ g.clause = none ∧ g.members = x.g.members ∧ g.status = .ready ∧
      (hpcWix x.g.hpc = 0 → g.pc = hpcAddr x.g.hpc ∧ g.wix = 0 ∧ g.waitzDone = false) ∧
      (∀ w, hpcWix x.g.hpc = w + 1 → g.pc = (hpcAddr x.g.hpc + 2 ^ 52 - 8 * (w + 1)) % 2 ^ 52 ∧ g.wix = w ∧ g.waitzDone = true) ∧
      tm.icount = x.tm.icount ∧
      ∀ i th, sget x.tm.threads i = some th → ∃ th', sget tm.threads i = some th' ∧ th'.regs = th.regs ∧ th'.preds = th.preds
        ∧ th'.fflags = th.fflags ∧ th'.dc = th.dc)
  ∧ (∀ s x s1 q, issueSite { plainReq ⟨false, 7⟩ with rth := true } s = some (x, s1) → x.g.seqTrap = true → x.tm.seq = some q →
    ∃ t tm g q', exec .rth s = .next t ∧ sget t.teams x.t = some tm ∧ sget tm.groups x.k = some g ∧ tm.seq = some q' ∧
      g.handler = false ∧ g.seqTrap = false ∧ g.clause = none ∧ g.members = x.g.members ∧ g.status = .ready ∧
      g.pc = x.g.kept.1 ∧ g.wix = x.g.kept.2 - 1 ∧ (g.waitzDone = true ↔ x.g.kept.2 ≠ 0) ∧
      q'.trap = none ∧ q'.status = .ready ∧ q'.clause = none ∧ q'.q = q.q ∧ q'.g = q.g ∧
      (hpcWix x.g.hpc = 0 → q'.pc = hpcAddr x.g.hpc ∧ q'.wix = 0 ∧ q'.waitzDone = false) ∧
      (∀ w, hpcWix x.g.hpc = w + 1 →
        q'.pc = (hpcAddr x.g.hpc + 2 ^ 52 - 8 * (w + 1)) % 2 ^ 52 ∧ q'.wix = w ∧ q'.waitzDone = true))

/-- R345, R362: SREAD of a register that the group may read gives every active lane its value, or the half that MOD names;
SWRITE of one that it may write changes it and nothing else: `%fflags` per active thread with the reserved bits 0, where flags
due in that very cycle are ORed in and later ones set later; `%hpc` with bits 63 to 57 kept 0; `%htvec` from the lowest active
lane. R345: who may read and write: the handler registers only in handler mode, `%htvec` and the counters there or in a
privileged grid, the others by anyone; only `%fflags`, `%htvec` and `%hpc` may be written, and only so privileged. -/
def Obligations.SpecialRegisters : Prop :=
  ((∀ h d sel m, GroupCompletes (.sread h d sel m) (sreadReq h d sel m) always
     fun x s => modTeam s x.t fun tm => applyOuts tm x.k h.dsm (x.act.map fun l => match m with
       | .lo => out1 l d ((spRead s x l sel.toNat).extractLsb' 0 32)
       | .hi => out1 l d ((spRead s x l sel.toNat).extractLsb' 32 32)
       | .pair => out2 l d (spRead s x l sel.toNat)))
   ∧ (∀ g a, GroupCompletes (.swrite g a 0x20 false) (swriteReq g a 0x20 false) always
     fun x s => modTeam s x.t fun tm => x.act.foldl (fun tm l => modThread tm (sgetD x.g.members l 0) fun th =>
       { th with
         fflags := (th.late.filter fun e => e.due = s.cycle).foldl (fun w e => w ||| e.flags)
           ((swriteVal x s a false l).extractLsb' 0 32 &&& 0x1F1F),
         late := th.late.filter fun e => s.cycle < e.due }) tm)
   ∧ (∀ g a, GroupCompletes (.swrite g a 0x33 true) (swriteReq g a 0x33 true) (fun x _ => x.act ≠ [])
     fun x s => modTeam s x.t fun tm => modGroup tm x.k fun g =>
       { g with hpc := swriteVal x s a true (x.act.headD 0) &&& 0x01FFFFFFFFFFFFFF })
   ∧ (∀ g a, GroupCompletes (.swrite g a 0x30 true) (swriteReq g a 0x30 true) (fun x _ => x.act ≠ [])
     fun x s => modTeam s x.t fun tm => { tm with htvec := swriteVal x s a true (x.act.headD 0) }))
  ∧ (∀ x sel, (spWide sel).isSome = true →
     (spReadable x sel = true ↔
       ((0x31 ≤ sel ∧ sel ≤ 0x36) → x.g.handler = true) ∧
       ((sel = 0x30 ∨ 0x40 ≤ sel) → x.g.handler = true ∨ x.lr.priv = true)) ∧
     (spWritable x sel = true ↔
       (sel = 0x33 ∧ x.g.handler = true) ∨ ((sel = 0x20 ∨ sel = 0x30) ∧ (x.g.handler = true ∨ x.lr.priv = true))))

/-- R366, R367, R368: EBSET, PMCTL, TRCTL and CTXSAVE by an active group retire with one operation open, after their effect:
the context's refill and cap under the partition's ceilings; the counter; tracing off, or on at a well-formed ring; the team
saving, out of its context's queue for energy. PMCTL with no event's number raises ILLEGAL_FIELD, naming the lead lane (the
model's choice of lanes: log 30). HALT stops the grid's work; once its issued operations have ended, the core image goes into
its area and a notice of kind 3 names the code (what the image holds: log 14). -/
def Obligations.SystemControls : Prop :=
  (∀ h a, GroupCompletes (.ebset h a) (sysReq h (two [a])) (fun x _ => x.act ≠ [])
    fun x s =>
      let p := sgetD s.parts (gridOf s x).part default
      openLong (modCtx s x.tm.ctx (ebsetCtx (min ((x.view s).reg x.lead a.toNat).toNat p.prefill)
        (min ((x.view s).reg x.lead (a.toNat + 1)).toNat p.pcap))) x h (groupOp x h.dc .plain) [])
  ∧ (∀ h a n op, GroupCompletes (.pmctl h a n op) (sysReq h (one [a]))
    (fun x s => x.act ≠ [] ∧ ((x.view s).r x.lead a).toNat % 256 ≤ 0x0A)
    fun x s =>
      let ev := ((x.view s).r x.lead a).toNat % 256
      openLong (modCore s x.tm.core fun c =>
        { c with pmc := sset c.pmc n.toNat (pmcSet op ev (sgetD c.pmc n.toNat default)) }) x h (groupOp x h.dc .plain) [])
  ∧ (∀ h a n op, GroupTraps (.pmctl h a n op) (sysReq h (one [a]))
    (fun x s => x.act ≠ [] ∧ 0x0A < ((x.view s).r x.lead a).toNat % 256)
    fun x _ => { cause := 2, lanes := [x.lead] })
  ∧ (∀ h a k, GroupCompletes (.trctl h a .off k) (sysReq h []) (fun x _ => x.act ≠ [])
    fun x s => openLong (modCore s x.tm.core fun c =>
      { c with trace := { c.trace with on := false, sample := false, synced := false } }) x h (groupOp x h.dc .plain) [])
  ∧ (∀ h a mode k, mode ≠ .off → GroupCompletes (.trctl h a mode k) (sysReq h (two [a]))
    (fun x s => x.act ≠ [] ∧ ∃ loc, checkGlobal s x.tm.ctx ((x.view s).r64 x.lead a) 64 .ls true = .ok loc ∧
      (traceRing (memNat s.mem loc.pa 64)).isSome = true)
    fun x s =>
      let ea := (x.view s).r64 x.lead a
      let pa := (locAt s x.tm.ctx ea 64 .ls true).pa
      let r := (traceRing (memNat s.mem pa 64)).getD (0, 0, 0)
      let s := poisonHit s x.tm.ctx pa
      let s := modCore s x.tm.core fun c => { c with trace := traceOn mode k.toNat x.tm.ctx ea.toNat r }
      openLong { s with agenda := s.agenda ++ [.traceSync x.tm.core] } x h (groupOp x h.dc .plain) [])
  ∧ (∀ h a mode k, mode ≠ .off → GroupHolds (.trctl h a mode k) (sysReq h (two [a]))
    (fun x s => x.act ≠ [] ∧ ∃ loc, checkGlobal s x.tm.ctx ((x.view s).r64 x.lead a) 64 .ls true = .ok loc ∧
      ((x.view s).r64 x.lead a).toNat % 64 = 0 ∧ traceRing (memNat s.mem loc.pa 64) = none)
    fun x s =>
      let ea := (x.view s).r64 x.lead a
      trapGroup (poisonHit s x.tm.ctx (locAt s x.tm.ctx ea 64 .ls true).pa) x.t x.k (leadTrap x (queueFault 0x0A ea)) x.act
        (hpcWord x.g.pc x.g.wix))
  ∧ (∀ h a, GroupCompletes (.ctxsave h a) (sysReq h (two [a]))
    (fun x s => x.act ≠ [] ∧ GlobalOk s x.tm.ctx ((x.view s).r64 x.lead a) 4096 .ls true)
    fun x s => stopFor .ctxsave (openLong s x h (groupOp x h.dc (.ctxsave ((x.view s).r64 x.lead a).toNat)) []) x.t)
  ∧ (∀ code, GroupHolds (.halt code) { plainReq ⟨false, 7⟩ with priv := true } always
    fun x s => modGrid (retired s x) x.tm.grid fun g =>
      { g with halted := true, halting := some (x.tm.core, code.toNat, timeOf (retired s x)) })
  ∧ (∀ s n g core code time, sget s.grids n = some g → g.halting = some (core, code, time) →
    let l := s.teams.filter fun e => e.2.grid = n
    (stopQuiet s l = false → endHalt s n = s) ∧
    (stopQuiet s l = true →
      let r := putCoreImage (modGrid s n fun g => { g with halting := none }) g.ctx l
      endHalt s n = noticeAt time r.1 g.ctx 3 0 core code r.2))

/-! ## Copies, gathers and completion rings (R229 to R250) -/

/-- R231: a group-level word with no active member performs nothing but counts on its dependency counter; one of class W,
which has none, retires. R230, R233: a request joins the batch open under its number, or opens it; the batch counts it and
holds it live. -/
def Obligations.RequestsAreCounted : Prop :=
  ((∀ i r h, groupWord i = some (r, h) → GroupCompletes i r (fun x _ => x.act = [])
     fun x s => openLong s x h (groupOp x h.dc .plain) [])
   ∧ (∀ i r, groupWait i = some r → GroupCompletes i r (fun x _ => x.act = []) fun _ s => s))
  ∧ (∀ s x h bid flags kind, sget s.teams x.t = some x.tm → (∀ b, sget x.tm.batch bid.toNat = some b → (sget s.batches b).isSome) →
     let t := joined h bid flags kind x s
     ∃ b q, (∃ tm, sget t.teams x.t = some tm ∧ sget tm.batch bid.toNat = some b) ∧ sget t.batches b = some q ∧
       (match sget x.tm.batch bid.toNat with
         | some b0 => b = b0 ∧ ∃ q0, sget s.batches b = some q0 ∧ q.nreq = q0.nreq + 1 ∧ q.live = s.nextOp :: q0.live
             ∧ q.flags = q0.flags ||| flags
         | none => b = s.nextBatch ∧ q.nreq = 1 ∧ q.live = [s.nextOp] ∧ q.flags = flags) ∧
       (∃ o, sget t.ops s.nextOp = some o ∧ o.kind = kind b (q.nreq - 1) ∧ o.tids = memberTids x.g))

/-- R239 to R242, R247: CPY, CPYL, CPYD and GATHN of checked ranges, by an active group, fork where `.rel` asks, and join the
batch with one request: the lanes' elements, the tile's, the expansion, or the gather. Whose table CPYD takes is log 32
(DEDUCED: the team of the last accepted CBLD); destinations that overlap are log 31, and the order of the checks is log 66. -/
def Obligations.CopiesJoinTheirBatch : Prop :=
  (∀ h a b dir bid sz rel, GroupCompletes (.cpy h a b dir bid sz rel)
    (copyReq h ((if cpySrcSp dir then one [a] else two [a]) ++ (if cpyDstSp dir then one [b] else two [b])) rel)
    (fun x s => x.act ≠ [] ∧ forkOk rel x s ∧ ∀ l ∈ x.act,
      (∃ p, checkSide s x (x.view s) l (cpyBytes sz) a (cpySrcSp dir) false = .ok p) ∧
      ∃ q, checkSide s x (x.view s) l (cpyBytes sz) b (cpyDstSp dir) true = .ok q)
    fun x s =>
      let src := fun l => sideOf s x l (cpyBytes sz) a (cpySrcSp dir) false
      let dst := fun l => sideOf s x l (cpyBytes sz) b (cpyDstSp dir) true
      let remote := x.act.any fun l => (sideFab (src l)).isSome || (sideFab (dst l)).isSome
      joined h bid (if remote then 8 else 0)
        (fun b o => .copy b o (x.act.zipIdx.map fun e => cpyElem (cpyBytes sz) e.2 (src e.1) (dst e.1)) []) x (forked rel x s))
  ∧ (∀ h a b c bid full rel t, GroupCompletes (.cpyl h a b c bid full rel) (copyReq h ([(a.toNat, 6)] ++ one [b, c]) rel)
    (fun x s => x.act ≠ [] ∧ forkOk rel x s ∧ tileOf s x (x.view s) a b c = .ok t ∧
      pickFault (checkDst x.tm t.dst (tileBytes t) 16 full ++ checkTile s x.tm.ctx t) = none)
    fun x s =>
      let s := forked rel x s
      joinBatch s x h bid ((if tileRemote s t then 8 else 0) ||| (if tileOob t then 1 else 0)) (fullBuf x.tm full t.dst)
        fun b o => .copy b o (tileElems s x.tm.ctx t) [])
  ∧ (∀ h fs a b c bid full rel tab ps, GroupCompletes (.cpyd h fs a b c bid full rel tab)
    { copyReq h (two [a] ++ one [b, c]) rel with ok := fun x => (slotOf (fsRead x.lr fs)).kind.isCode }
    (fun x s => x.act ≠ [] ∧ forkOk rel x s ∧ 0 < ((x.view s).r x.lead c).toNat ∧ ((x.view s).r x.lead c).toNat ≤ 32768 ∧
      cpydSrc s x fs a c = .ok ps ∧ tableTag s x.tm.core tab.toNat = x.t ∧
      pickFault (checkDst x.tm ((x.view s).r x.lead b).toNat (32 * ((x.view s).r x.lead c).toNat) 32 full) = none)
    fun x s =>
      let v := x.view s
      joinBatch (forked rel x s) x h bid 0 (fullBuf x.tm full (v.r x.lead b).toNat) fun b' o =>
        .expand b' o (v.r x.lead b).toNat (v.r x.lead c).toNat (codeBits (slotOf (fsRead x.lr fs)).kind) tab.toNat
          (v.r64 x.lead a).toNat ps)
  ∧ (∀ h d a b ix ew bid full rel ps, GroupCompletes (.gathn h d a b ix ew bid full rel) (copyReq h (two [d, a, b]) rel)
    (fun x s =>
      let v := x.view s
      let n := (v.reg x.lead (d.toNat + 1)).toNat
      x.act ≠ [] ∧ forkOk rel x s ∧ 0 < n ∧ n ≤ 65536 ∧ (v.r64 x.lead b).toNat % ewBytes ix.iw = 0 ∧
      (v.r64 x.lead a).extractLsb' 52 12 = 0 ∧ (v.r64 x.lead b).extractLsb' 52 12 = 0 ∧
      checkRange s x.tm.ctx (v.r64 x.lead b).toNat (n * ewBytes ix.iw) .nm false = .ok ps ∧
      pickFault (checkDst x.tm (v.r x.lead d).toNat ((n * ewBytes ew + 63) / 64 * 64) 64 full) = none)
    fun x s =>
      let v := x.view s
      joinBatch (forked rel x s) x h bid 0 (fullBuf x.tm full (v.r x.lead d).toNat) fun b' o =>
        .awl b' o
          { dst := (v.r x.lead d).toNat, n := (v.reg x.lead (d.toNat + 1)).toNat, base := v.r64 x.lead a,
            listAt := (v.r64 x.lead b).toNat, list := ps, ix := ix, ew := ew, idx := [], vals := [],
            next := 0 })

/-- R241, R243, R244, R245: CBLD opens its load behind the table's earlier uses; CPYC closes the batch with its ring, tag and
semaphore, and a new batch may open under the number; CRPOP opens its update behind the threads' earlier reads. CRWAIT
acquires at `.dev` and reads every active lane's ring and record in the step that tries it (the model's choice: log 8): where
a record of the count waited for stands or stood in every lane's ring, it gives each lane its record's address, and else it
waits with what it saw; a lane that has seen nothing waits for its ring's CONS of now, and its record is there where SEQ is
that count. -/
def Obligations.BatchWords : Prop :=
  (∀ h a tab, GroupCompletes (.cbld h a tab) (copyReq h (two [a]))
    (fun x s => x.act ≠ [] ∧ GlobalOk s x.tm.ctx ((x.view s).r64 x.lead a) 8192 .cp false)
    fun x s =>
      let ea := (x.view s).r64 x.lead a
      openLong s x h (groupOp x h.dc (.cbld tab.toNat (placeOf ea.toNat .cp (locAt s x.tm.ctx ea 8192 .cp false))
        ((tableUses s x.tm.core tab.toNat).map Prod.fst))) [])
  ∧ (∀ h d a bid sem r ps s', GroupCompletes (.cpyc h d a bid sem) (cpycReq h d a)
    (fun x s => x.act ≠ [] ∧ ringOf s (x.who x.lead) ((x.view s).r64 x.lead a) true = (.ok r, s') ∧
      checkRange s' x.tm.ctx r.base (32 * 2 ^ r.logn) .ls true = .ok ps)
    fun x s =>
      let o := openBatch s' x bid
      let close : BatchClose :=
        { desc := r.desc, base := r.base, logn := r.logn, ring := ps, tag := (x.view s).r x.lead d, op := o.2.nextOp }
      let s := modBatch (modTeam o.2 x.t fun tm => { tm with batch := serase tm.batch bid.toNat }) o.1 fun q =>
        { q with close := some close, sem := sem.map (·.toNat) }
      let s := postChunks s o.1 (((sget s.batches o.1).map (·.dst)).getD 0 / 4096)
      openLong s x h (groupOp x h.dc (.batch o.1)) [])
  ∧ (∀ s x, cpycHeld s x = true ↔ x.act ≠ [] ∧ 16 ≤ pendingBatches s x.tm.core)
  ∧ (∀ h a n r ps s', GroupCompletes (.crpop h a n) (copyReq h (two [a]))
    (fun x s => x.act ≠ [] ∧ ringOf s (x.who x.lead) ((x.view s).r64 x.lead a) true = (.ok r, s') ∧
      checkRange s' x.tm.ctx r.base (32 * 2 ^ r.logn) .ls false = .ok ps)
    fun x _ => openLong s' x h (groupOp x h.dc (.crpop r.desc r.base r.logn n.toNat
      ((s'.ops.filter fun e => e.2.read && e.2.team = x.t && e.2.iss.any x.tids.contains).map Prod.fst) ps)) [])
  ∧ (∀ h d a, GroupCompletes (.crwait h d a) (copyReq h (two [d, a]))
    (fun x s => x.act ≠ [] ∧ crwaitOk a x s ∧ (crwaitSeen (crwaited a x s).1).all (·.2.done) = true) (crwaitDone h d a))
  ∧ (∀ h d a, GroupWaits (.crwait h d a) (copyReq h (two [d, a]))
    (fun x s => x.act ≠ [] ∧ crwaitOk a x s ∧ (crwaitSeen (crwaited a x s).1).all (·.2.done) = false)
    fun x s => setCons (crwaited a x s).2 x ((crwaitSeen (crwaited a x s).1).map fun e => (e.1, e.2.cons, e.2.done)))
  ∧ (∀ t k h d a, WaitEnds (.crwait h d a) (.classWWaitRelease (.group t k)) (copyReq h (two [d, a])) t k
    (fun x s => x.act ≠ [] ∧ crwaitOk a x s ∧ (crwaitSeen (crwaited a x s).1).all (·.2.done) = true) (crwaitDone h d a))
  ∧ (∀ s x l ea r s1 q s2, sget x.g.cons l = none → ringOf s (x.who l) ea false = (.ok r, s1) →
    recordSeq s1 (x.who l) (recordOff r.base r.logn r.cons) = (.ok q, s2) →
    crwaitLane x ea l s = (.ok ⟨r.cons, q = r.cons, recordOff r.base r.logn r.cons⟩, s2))

/-- R239, R240, R242: COPY_REQUEST_COMPLETE of a copy reads the elements that no view holds back, and held elements wait on;
once all are read it writes what they brought and counts the bytes. An expansion writes the table's entry for each index. Each
then ends its operation; at a free choice the operation is counted as complete before that, and its writes follow (log 26). A
frozen engine does nothing (R378). R246, R247, R248: AWL_BURST lets each index and each element be read, at free choices. Once
the elements of the next 64-byte burst are read, it writes them: each element's bytes at its place, nothing where an element
gives none, 0 from the end of the last element of all up to a multiple of 64 bytes, and no other byte of scratchpad. The last
burst ends the operation (it may be counted before, at a free choice: log 26); another leaves it at the next element. Before
that, or where a violation has frozen the engine, nothing is written. An element's bytes are those at its place; a sentinel's
index gives none. Memory is read only. -/
def Obligations.CopiesComplete : Prop :=
  ((∀ s op o tm b order elems out wait more s', sget s.ops op = some o → sget s.teams o.team = some tm →
     o.kind = .copy b order elems out → opFrozen s o = false → readElems o.team tm.ctx tm.core b order elems s = (wait, more, s') →
     let r := setKind s' op (.copy b order [] (out ++ more))
     (wait ≠ [] → exec (.copyRequestComplete op) s = .next (setKind s' op (.copy b order wait (out ++ more)))) ∧
     (wait = [] → countEarly r op = none → exec (.copyRequestComplete op) s = .next (completeOp
       (countDst (writeDsts o.team tm.ctx tm.core b (joinDst (out ++ more)) r) b (out ++ more).length) op)) ∧
     (∀ u, wait = [] → countEarly r op = some u → exec (.copyRequestComplete op) s = .next u ∧ u.mem = s'.mem))
   ∧ (∀ s op o tm b order dst n w tab at_ ps, sget s.ops op = some o → sget s.teams o.team = some tm →
     o.kind = .expand b order dst n w tab at_ ps → opFrozen s o = false → (∀ e ∈ tableLoads s tm.core tab, op ≤ e.1) →
     (countEarly s op = none → exec (.copyRequestComplete op) s = .next (completeOp (countDst (modBatch
       (expandFrom o.team tm.core b dst w tab at_ ps n 0 s) b fun q => { q with bytes := q.bytes + streamBytes w n })
       b (32 * n)) op)) ∧
     (∀ u, countEarly s op = some u → exec (.copyRequestComplete op) s = .next u))
   ∧ (∀ s op o, sget s.ops op = some o → opFrozen s o = true → exec (.copyRequestComplete op) s = .next s)
   ∧ (∀ s op u, countEarly s op = some u → ∃ o, sget s.ops op = some o ∧ o.dc < 6 ∧
     sget u.ops op = some { o with dc := 6, tids := [] }))
  ∧ ((∀ s op o tm b order a0, sget s.ops op = some o → sget s.teams o.team = some tm → o.kind = .awl b order a0 → opFrozen s o = false →
     let s1 := gathersOn s tm b order op a0
     (gatherOf s1 op = none → exec (.awlBurst op) s = .next s1) ∧
     ∀ a, gatherOf s1 op = some a → a.next ≤ a.n → s1.mem = s.mem ∧
       ((∃ k, a.next ≤ k ∧ k < burstEnd a ∧ sget a.vals k = none) → exec (.awlBurst op) s = .next s1) ∧
       ((∀ k, a.next ≤ k → k < burstEnd a → (sget a.vals k).isSome = true) →
         (∀ k bs, sget a.vals k = some (some bs) → bs.length = ewBytes a.ew) →
         (burstEnd a = a.n → countEarly s1 op = none) →
         ∃ t, exec (.awlBurst op) s = .next t ∧ t.mem = s.mem ∧
           (∀ tm1, sget s1.teams o.team = some tm1 → ∃ tm2, sget t.teams o.team = some tm2 ∧
             ∀ off, spByte tm2 off = burstByte a (spByte tm1) off) ∧
           (burstEnd a = a.n → sget t.ops op = none) ∧
           (burstEnd a < a.n → (sget t.ops op).map (·.kind) = some (.awl b order { a with next := burstEnd a }))) ∧
       ∀ u, burstEnd a = a.n → (∀ k, a.next ≤ k → k < burstEnd a → (sget a.vals k).isSome = true) →
         countEarly s1 op = some u → exec (.awlBurst op) s = .next u)
   ∧ (∀ s ctx core b order op a i ix loc, gatherOf s op = some a → isSentinel a.ix ix = false → farIndex a.ix ix = false →
     checkGlobal s ctx (idxAddr a.base a.ix ix) (ewBytes a.ew) .nm false = .ok loc →
     gatherOf (awlElem s ctx core b order op a i ix) op =
       some { a with vals := sset a.vals i (some (memBytes s.mem loc.pa (ewBytes a.ew))) })
   ∧ (∀ s ctx core b order op a i ix, gatherOf s op = some a → isSentinel a.ix ix = true →
     gatherOf (awlElem s ctx core b order op a i ix) op = some { a with vals := sset a.vals i none }))

/-- R235, R236, R237: a closed batch whose requests have all completed, whose posts are all made, and before which no batch of
the team waits for the ring, writes its record at the ring's next place with status, cause, bytes, tag and count, counts it in
PROD, and ends its CPYC, at BATCH_COMPLETE or, where the ring was full before, at RING_FULL_RETRY; a full ring is noted. A
poisoned descriptor sets DATA_ERROR in the record (R379). CHUNK_POST posts 1 to the batch's semaphore. A frozen copy engine
does none of it. -/
def Obligations.BatchesComplete : Prop :=
  (∀ s b q c tm i, i = .batchComplete b ∨ (i = .ringFullRetry b ∧ q.full = true) → sget s.batches b = some q →
    q.close = some c → sget s.teams q.team = some tm → requestsDone s q = true →
    (q.sem = none ∨ q.posted = chunksDue s q) → ringBefore s q c = false → unitFrozen s .copy q.core = false →
    (ringProd s c.desc + 2 ^ 32 - ringCons s c.desc) % 2 ^ 32 < 2 ^ c.logn →
    let n := ringProd s c.desc
    let p := placeAt c.ring (recordOff c.base c.logn n)
    ∃ t, exec i s = .next t ∧ sget t.batches b = none ∧ sget t.ops c.op = none ∧
      memNat t.mem p.pa 32 = recordWord s { q with err := q.err || s.poison.contains (lineOf c.desc.pa) } c.tag n % 2 ^ 256 ∧
      (p.pa + 32 ≤ c.desc.pa + 12 ∨ c.desc.pa + 16 ≤ p.pa → ringProd t c.desc = (n + 1) % 2 ^ 32) ∧
      ∀ a, ¬(p.pa ≤ a ∧ a < p.pa + 32) → ¬(c.desc.pa + 12 ≤ a ∧ a < c.desc.pa + 16) → memByte t.mem a = memByte s.mem a)
  ∧ (∀ s b q c tm i, i = .batchComplete b ∨ (i = .ringFullRetry b ∧ q.full = true) → sget s.batches b = some q →
    q.close = some c → sget s.teams q.team = some tm → requestsDone s q = true →
    (q.sem = none ∨ q.posted = chunksDue s q) → ringBefore s q c = false → unitFrozen s .copy q.core = false →
    2 ^ c.logn ≤ (ringProd s c.desc + 2 ^ 32 - ringCons s c.desc) % 2 ^ 32 →
    exec i s = .next (modBatch (noteError s b c.desc.pa) b fun q => { q with full := true }))
  ∧ (∀ s b q k tm, sget s.batches b = some q → q.close.isSome = true → q.sem = some k → k < 32 → q.posted < chunksDue s q →
    sget s.teams q.team = some tm → unitFrozen s .copy q.core = false →
    ∃ t tm', exec (.chunkPost b) s = .next t ∧ sget t.teams q.team = some tm' ∧
      semOf tm' (BitVec.ofNat 5 k) = semPost 1 (semOf tm (BitVec.ofNat 5 k)) ∧
      (sget t.batches b).map (·.posted) = some (q.posted + 1) ∧ t.mem = s.mem)
  ∧ (∀ s b q i, i = .batchComplete b ∨ i = .ringFullRetry b ∨ i = .chunkPost b → sget s.batches b = some q →
    unitFrozen s .copy q.core = true → exec i s = .next s)

/-! ## Views (R297 to R315) -/

/-- R308 to R314: the view words, by a group with an active member. VREG of two records that pass its checks takes the lowest
free slot of the view table with its next tag, and owes every active lane the token (it reads the records in the step that
issues it, the master's first: log 8); VDROP frees a valid token's slot and ignores another; VSYNC of an active view whose
blocks have all reached G acquires at `.dev`, and waits while one has not, with the G of its issue, until CLASS_W_WAIT_RELEASE
finds them there; VGEN answers MG or the least generation, VSTAT the status word, cleared by `.clr`; VPOL opens the change of
policy. R308, R309, R311: a view word but VDROP on an invalid token raises LAYOUT_OOB with SUB 0x05; VSYNC on a suspended view
raises VIEW_SUSPENDED. `%haddr` holds the token. VREG of records that fail a check raises that check's trap, in the machine
that has read them. The lanes named are the lead's alone (the model's choice: log 30); the order of VREG's checks and the
address it names are logs 34 and 35. -/
def Obligations.ViewWords : Prop :=
  ((∀ h d a b pol lm lv c, GroupCompletes (.vreg h d a b pol) (memReq h .views (one [d] ++ two [a, b]))
     (fun x s => x.act ≠ [] ∧ vregPlaces a b lm lv x s ∧
       sget (vregAt a b lm lv x s).2.contexts x.tm.ctx = some c ∧
       vregBad (vregAt a b lm lv x s).2 x.tm.ctx c (vregAt a b lm lv x s).1 = none)
     fun x s =>
       let g := vregAt a b lm lv x s
       let r := register (timeOf g.2) c g.1 pol
       openLong (modCtx g.2 x.tm.ctx fun _ => r.2) x h (groupOp x h.dc .plain) (x.act.map fun l => out1 l d (BitVec.ofNat 32 r.1)))
   ∧ (∀ h a, GroupCompletes (.vdrop h a) (memReq h .views (one [a])) (fun x _ => x.act ≠ []) fun x s =>
       let tok := siteTok x s a
       openLong (match tokenView s x.tm.ctx tok with
         | none => s
         | some v => dropView s x.tm.ctx (tok % 64) v) x h (groupOp x h.dc .plain) [])
   ∧ (∀ h d a (cur : Bool) v, GroupCompletes (.vsync h d a cur) (memReq h .views ((if cur then [] else two [d]) ++ one [a]))
       (fun x s => x.act ≠ [] ∧ tokenView s x.tm.ctx (siteTok x s a) = some v ∧ v.state ≠ .suspended ∧
         (if cur then (masterOf s x.tm.ctx v).mg else ((x.view s).r64 x.lead d).toNat) ≤ leastGen v)
       fun x s => acquireBy s x .dev)
   ∧ (∀ t k h d a (cur : Bool) v, WaitEnds (.vsync h d a cur) (.classWWaitRelease (.group t k))
       (memReq h .views ((if cur then [] else two [d]) ++ one [a])) t k
       (fun x s => x.act ≠ [] ∧ tokenView s x.tm.ctx (siteTok x s a) = some v ∧ v.state ≠ .suspended ∧ x.g.gArg.toNat ≤ leastGen v)
       fun x s => acquireBy s x .dev)
   ∧ (∀ h d a (cur : Bool) v, GroupWaits (.vsync h d a cur) (memReq h .views ((if cur then [] else two [d]) ++ one [a]))
       (fun x s => x.act ≠ [] ∧ tokenView s x.tm.ctx (siteTok x s a) = some v ∧ v.state ≠ .suspended ∧
         leastGen v < (if cur then (masterOf s x.tm.ctx v).mg else ((x.view s).r64 x.lead d).toNat))
       fun x s => modTeam s x.t fun tm => modGroup tm x.k fun g =>
         { g with gArg := BitVec.ofNat 64 (if cur then (masterOf s x.tm.ctx v).mg else ((x.view s).r64 x.lead d).toNat) })
   ∧ (∀ h d a (view : Bool) v, GroupCompletes (.vgen h d a view) (memReq h .views (two [d] ++ one [a]))
       (fun x s => x.act ≠ [] ∧ tokenView s x.tm.ctx (siteTok x s a) = some v)
       fun x s => answered h d (BitVec.ofNat 64 (if view then leastGen v else (masterOf s x.tm.ctx v).mg)) x s)
   ∧ (∀ h a pol v, GroupCompletes (.vpol h a pol) (memReq h .views (one [a]))
       (fun x s => x.act ≠ [] ∧ tokenView s x.tm.ctx (siteTok x s a) = some v)
       fun x s => openLong s x h (groupOp x h.dc (.vpol (siteTok x s a % 64) (siteTok x s a / 64) pol)) [])
   ∧ (∀ h d a clr v, GroupCompletes (.vstat h d a clr) (memReq h .views (two [d] ++ one [a]))
       (fun x s => x.act ≠ [] ∧ tokenView s x.tm.ctx (siteTok x s a) = some v)
       fun x s =>
         let w := viewStatus ((sget s.contexts x.tm.ctx).getD default) v
         let s' := if clr then modView s x.tm.ctx (siteTok x s a % 64) fun v => { v with sr := false, flags := 0 } else s
         openLong s' x h (groupOp x h.dc .plain) (x.act.map fun l => out2 l d w)))
  ∧ ((∀ h d a (cur : Bool), GroupTraps (.vsync h d a cur) (memReq h .views ((if cur then [] else two [d]) ++ one [a]))
       (fun x s => x.act ≠ [] ∧ tokenView s x.tm.ctx (siteTok x s a) = none) (tokenTrap a))
   ∧ (∀ h a pol, GroupTraps (.vpol h a pol) (memReq h .views (one [a]))
       (fun x s => x.act ≠ [] ∧ tokenView s x.tm.ctx (siteTok x s a) = none) (tokenTrap a))
   ∧ (∀ h d a view, GroupTraps (.vgen h d a view) (memReq h .views (two [d] ++ one [a]))
       (fun x s => x.act ≠ [] ∧ tokenView s x.tm.ctx (siteTok x s a) = none) (tokenTrap a))
   ∧ (∀ h d a clr, GroupTraps (.vstat h d a clr) (memReq h .views (two [d] ++ one [a]))
       (fun x s => x.act ≠ [] ∧ tokenView s x.tm.ctx (siteTok x s a) = none) (tokenTrap a))
   ∧ (∀ h d a (cur : Bool) v, GroupTraps (.vsync h d a cur) (memReq h .views ((if cur then [] else two [d]) ++ one [a]))
       (fun x s => x.act ≠ [] ∧ tokenView s x.tm.ctx (siteTok x s a) = some v ∧ v.state = .suspended)
       fun x s => leadTrap x ⟨0x1C, 0, 0, 0, BitVec.ofNat 64 (siteTok x s a)⟩)
   ∧ (∀ h d a b pol lm lv c f s x s1, issueSite (memReq h .views (one [d] ++ two [a, b])) s = some (x, s1) → x.act ≠ [] →
       vregPlaces a b lm lv x s1 → sget (vregAt a b lm lv x s1).2.contexts x.tm.ctx = some c →
       vregBad (vregAt a b lm lv x s1).2 x.tm.ctx c (vregAt a b lm lv x s1).1 = some f →
       exec (.vreg h d a b pol) s =
         .next (trapGroup (vregAt a b lm lv x s1).2 x.t x.k (leadTrap x f) x.act (hpcWord x.g.pc x.g.wix))))

/-- R303, R304, R421: SKIVER_REFRESH of a queued block of an active view whose elements and destinations all pass their checks
takes the block off the queue, writes the codes and the scale that the values read give, and raises the block's generation,
with its stamp (R28), to the greatest of its own, the queued one and MG. Where an element's check fails, the view is suspended
with its notice, and the block's bytes are unspecified. -/
def Obligations.RefreshRaisesGeneration : Prop :=
  (∀ s ctx c slot block v g ps qs, sget s.contexts ctx = some c → sget c.views slot = some v → sget v.queued block = some g →
    v.live = true → v.state = .active → unitFrozen s .skiver ctx = false →
    skiverPlaces s ctx .ls false none ((blockElems v block).map fun e => (e.2, v.mkind.esize)) = .ok ps →
    let vals := ((blockElems v block).zip ps).map fun e => (e.1.1, masterVal v (memNat s.mem e.2.2.pa v.mkind.esize))
    let sl := slotOf v.slot
    let byte : Byte := if sl.kind.isInt && sl.scaled then
        blockScale sl (vals.filterMap fun e => match e.2 with | .fin _ _ _ => some e.2.q | .nan _ => none | .inf _ => none)
      else 0x80
    let ws := blockWrites v block byte (vals.map fun e => (e.1, (viewCode sl byte e.2).v))
    skiverPlaces s ctx .vw true none (ws.map fun w => (w.1, w.2.length)) = .ok qs →
    ∃ t, exec (.skiverRefresh ctx slot block) s = .next t ∧ t.mem = (skiverWrites ctx (ws.zip qs) s).mem ∧
      ∃ v', ((sget t.contexts ctx).bind fun c => sget c.views slot) = some v' ∧ v'.queued = serase v.queued block ∧
        v'.gens = sset v.gens block (max (sgetD v.gens block 0) (max g (masterOf s ctx v).mg)) ∧
        v'.times = sset v.times block (timeOf s) ∧ v'.state = .active)
  ∧ (∀ s ctx c slot block v g cause va, sget s.contexts ctx = some c → sget c.views slot = some v → sget v.queued block = some g →
    v.live = true → v.state = .active → unitFrozen s .skiver ctx = false →
    skiverPlaces s ctx .ls false none ((blockElems v block).map fun e => (e.2, v.mkind.esize)) = .error (cause, va) →
    exec (.skiverRefresh ctx slot block) s = .next (suspendView
      (scrambled s ctx slot block (blockWrites v block 0 ((blockElems v block).map fun e => (e.1, 0)))) ctx slot g cause va v))
  ∧ (∀ s ctx slot block c v, sget s.contexts ctx = some c → sget c.views slot = some v →
    (sget v.queued block = none ∨ v.live = false ∨ v.state = .suspended ∨ unitFrozen s .skiver ctx = true) → exec (.skiverRefresh ctx slot block) s = .next s)

/-! ## Work (R322 to R336) -/

/-- R334, R336: SPAWN, SPAWNC, DONE and KLAUNCH whose checks pass. SPAWN counts a task of its grid for each active lane and
opens their entry; SPAWNC enters each lane's continuation, ascending, and owes the lanes their handles; DONE releases at
`.dev` and takes the count off each handle's continuation; KLAUNCH releases at `.dev` and makes a grid of the record, which it
reads in the step that issues it (the model's choice: log 8). -/
def Obligations.WorkWords : Prop :=
  (∀ h a b prio, GroupCompletes (.spawn h a b prio) (workReq h (two [a, b]))
    (fun x s => ∀ l ∈ x.act, ((x.view s).r64 l a).toNat % 8 = 0)
    fun x s => openLong (modGrid s x.tm.grid fun g => { g with tasks := g.tasks + x.act.length }) x h
      (groupOp x h.dc (.spawn (x.act.map fun l => ((x.view s).r64 l a, (x.view s).r64 l b)) (taskPrio x prio))) [])
  ∧ (∀ h d a b c prio, GroupCompletes (.spawnc h d a b c prio) (workReq h (two [d, a, b] ++ one [c]))
    (fun x s => (∀ l ∈ x.act, ((x.view s).r64 l a).toNat % 8 = 0) ∧ spawncFits c x s)
    fun x s =>
      let r := spawncLanes x (x.view s) (gridOf s x).part (taskPrio x prio) a b c x.act s
      openLong r.2.2 x h (groupOp x h.dc (if r.2.1 = [] then .plain else .spawn r.2.1 (taskPrio x prio)))
        (r.1.map fun e => out2 e.1 d e.2))
  ∧ (∀ h a n, GroupCompletes (.done h a n) (workReq h (two [a]))
    (fun x s => releaseOk x s ∧ ∀ l ∈ x.act,
      handleFault s (gridOf s x).part ((x.view s).r64 l a) = none)
    fun x s => openLong (releaseFork
      (x.act.foldl (fun t l => doneOne t (gridOf s x).part n.toNat ((x.view s).r64 l a)) (released x s)) x.t x.tids .dev)
      x h (groupOp x h.dc .plain) [])
  ∧ (∀ h a b (cnt : Bool) lr s', GroupCompletes (.klaunch h a b cnt) (workReq h (if cnt then two [a, b] else two [a]))
    (fun x s => x.act ≠ [] ∧ klaunchRec s x ((x.view s).r64 x.lead a) = (.ok lr, s') ∧ releaseOk x s' ∧
      (cnt = true → GlobalOk s x.tm.ctx ((x.view s).r64 x.lead b) 8 .ls true))
    fun x s => klaunched h x (newGrid (releasedDev x s') x.tm.ctx (gridOf (releasedDev x s') x).part lr none
      (if cnt then .add ((x.view s).r64 x.lead b) 1 else .none) none))
  ∧ (∀ h a b prio, GroupTraps (.spawn h a b prio) (workReq h (two [a, b]))
    (fun x s => ∃ l ∈ x.act, ((x.view s).r64 l a).toNat % 8 ≠ 0)
    fun x s =>
      let bad := x.act.filter fun l => ((x.view s).r64 l a).toNat % 8 ≠ 0
      { cause := 0x14, lanes := bad, addr := (x.view s).r64 (bad.headD 0) a, info := BitVec.ofNat 32 (bad.headD 0 * 2 ^ 13) })

/-- R335: ENQ and DEQ of edges that pass their checks, which read the descriptors after the threads' earlier accesses of them.
Where every lane finds room, or a payload, when its turn comes, or where the word only tries, it retires: each lane's payload
enters its edge, or each lane is owed the oldest payload of its edge, and `.try` tells whether it did; an ENQ releases at
`.dev` before, and a DEQ that took a payload acquires at `.dev` after. A lane that is blocked blocks the later ones: the word
waits with the earlier ones performed, and the try that EDGE_RETRY makes performs the others. With no lane performed nothing
is done but the ENQ's release. -/
def Obligations.EdgesMovePayloads : Prop :=
  (∀ h a b p, GroupCompletes (.enq h a b (some p)) (edgeReq h (two [a] ++ [(b.toNat, 4)]) (some p))
    (fun x s => releaseOk x (edgesSeen a x s) ∧ edgeOk a true x s) (enqDone h a b (some p)))
  ∧ (∀ h a b, GroupCompletes (.enq h a b none) (edgeReq h (two [a] ++ [(b.toNat, 4)]) none)
    (fun x s => releaseOk x (edgesSeen a x s) ∧ edgeOk a true x s ∧ enqAll a b x s) (enqDone h a b none))
  ∧ (∀ h d a p, GroupCompletes (.deq h d a (some p)) (edgeReq h (two [a] ++ [(d.toNat, 4)]) (some p)) (fun x s => edgeOk a false x s)
    (deqDone h d a (some p)))
  ∧ (∀ h d a, GroupCompletes (.deq h d a none) (edgeReq h (two [a] ++ [(d.toNat, 4)]) none)
    (fun x s => edgeOk a false x s ∧ deqAll a x s) (deqDone h d a none))
  ∧ (∀ h a b, GroupWaits (.enq h a b none) (edgeReq h (two [a] ++ [(b.toNat, 4)]) none)
    (fun x s => releaseOk x (edgesSeen a x s) ∧ edgeOk a true x s ∧ ¬ enqAll a b x s) (enqBlocked h a b))
  ∧ (∀ h d a, GroupWaits (.deq h d a none) (edgeReq h (two [a] ++ [(d.toNat, 4)]) none)
    (fun x s => edgeOk a false x s ∧ ¬ deqAll a x s) (deqBlocked h d a))
  ∧ (∀ t k h a b, WaitEnds (.enq h a b none) (.edgeRetry (.group t k)) (edgeReq h (two [a] ++ [(b.toNat, 4)]) none) t k
    (fun x s => releaseOk x (edgesSeen a x s) ∧ edgeOk a true x s ∧ enqAll a b x s) (enqDone h a b none))
  ∧ (∀ t k h d a, WaitEnds (.deq h d a none) (.edgeRetry (.group t k)) (edgeReq h (two [a] ++ [(d.toNat, 4)]) none) t k
    (fun x s => edgeOk a false x s ∧ deqAll a x s) (deqDone h d a none))

/-! ## The matrix stream (R251 to R278) -/

/-- R270 to R272: each uniform word writes its g register, and each tile-predicate word its q register. R273, R274, R275: GLD
of a checked address opens an operation that owes gD its 8 bytes, read in this step or a later one (log 8); GBRA goes to its
target; GLOOP counts gD down and goes to its target unless it reaches 0; MEND stops the stream. -/
def Obligations.StreamWords : Prop :=
  ((∀ i gd r f, uniformWord i = some (gd, r, f) → SeqCompletes i r alwaysSeq fun x s => gWrite s x.t gd.toNat (f x))
   ∧ (∀ i qd r f, tileWord i = some (qd, r, f) → SeqCompletes i r alwaysSeq fun x s => qWrite s x.t qd (f x))
   ∧ (∀ s t tm q n v m, sget s.teams t = some tm → tm.seq = some q →
     ∃ tm', sget (gWrite s t n v).teams t = some tm' ∧ gRead tm' m = (if m = n then v else gRead tm m) ∧
       ∀ p, qRead (tm'.seq.getD q) p = qRead q p)
   ∧ (∀ s t tm q n b p, sget s.teams t = some tm → tm.seq = some q →
     ∃ tm', sget (qWrite s t n b).teams t = some tm' ∧
       qRead (tm'.seq.getD q) p = (if p = n ∧ n ≠ 15 then b else qRead q p) ∧ ∀ m, gRead tm' m = gRead tm m))
  ∧ ((∀ h gd ga imm, SeqCompletes (.gld h gd ga imm true)
     { guard := some h, dc := h.xdc.toNat, gs := [gd.toNat, ga.toNat], held := bufHeldSeq }
     (fun x _ => checkSp x.tm (((gRead x.tm ga.toNat).extractLsb' 0 32) + imm.signExtend 32).toNat 8 .load .spTeam = none)
     fun x s => openGld s x h gd (.sp x.t (((gRead x.tm ga.toNat).extractLsb' 0 32) + imm.signExtend 32).toNat, 8))
   ∧ (∀ h gd ga imm loc, SeqCompletes (.gld h gd ga imm false)
     { guard := some h, dc := h.xdc.toNat, gs := [gd.toNat, ga.toNat], held := bufHeldSeq }
     (fun x s => checkGlobal s x.tm.ctx (gRead x.tm ga.toNat + imm.signExtend 64) 8 .ls false = .ok loc)
     fun x s => openGld (xlatFill s x.tm.core x.tm.ctx (gRead x.tm ga.toNat + imm.signExtend 64).toNat loc) x h gd
       (.mem (placeOf (gRead x.tm ga.toNat + imm.signExtend 64).toNat .ls loc), 8))
   ∧ (∀ h off, SeqHolds (.gbra h off) { guard := some h } alwaysSeq fun x s =>
       modSeq s x.t (seqTo (BitVec.ofNat 64 x.q.pc + (off.signExtend 64 <<< 3))))
   ∧ (∀ h gd off, SeqHolds (.gloop h gd off) { guard := some h, gs := [gd.toNat] } (fun x _ => gRead x.tm gd.toNat ≠ 1)
       fun x s => modSeq (gWrite s x.t gd.toNat (gRead x.tm gd.toNat - 1)) x.t
         (seqTo (BitVec.ofNat 64 x.q.pc + (off.signExtend 64 <<< 3))))
   ∧ (∀ h gd off, SeqCompletes (.gloop h gd off) { guard := some h, gs := [gd.toNat] } (fun x _ => gRead x.tm gd.toNat = 1)
       fun x s => gWrite s x.t gd.toNat 0)
   ∧ SeqHolds .mend {} alwaysSeq fun x s => modSeq s x.t fun q => { advanceSeq q with status := .ended })

/-- R257 to R261: QBIND of 2 to 8 planes and QREL, by a whole matrix-role home group at home, are accepted on the group's
stage, behind the operations accepted before; QBIND_LATCH gives the stage what the oldest one says once no MMA or SMMA issued
before it reads the stage, which it does until its occupancy ends and the bindings that it reads are latched. R256, R262 to
R268: MMA and SMMA of a checked tile, with the bank in direct mode and every quarter bound with enough planes, where the
arrays are free and no ACCZ or ACCSP of the bank is open, debit their class's cost for each cycle of occupancy and open an
operation with the exact sums. A debit that cannot be made holds the sequencer, in the context's order. -/
def Obligations.MatrixWords : Prop :=
  ((∀ h a b st sc n, GroupCompletes (.qbind h a b st sc n)
     { quarterReq h ((a.toNat, n.toNat) :: (if sc then one [b] else [])) with ok := fun _ => 2 ≤ n.toNat && n.toNat ≤ 8 }
     (fun x _ => x.act ≠ []) fun x s =>
       openLong (modTeam s x.t fun tm => modStage tm (stageKey x.k st) fun q =>
         { q with reqs := q.reqs ++ [{ op := s.nextOp, quarter := some (latchQuarter a b sc n.toNat x (x.view s)) }] }) x h
         (groupOp x h.dc (.stage (stageKey x.k st))) [])
   ∧ (∀ h st, GroupCompletes (.qrel h st) (quarterReq h []) (fun x _ => x.act ≠ []) fun x s =>
       openLong (modTeam s x.t fun tm => modStage tm (stageKey x.k st) fun q =>
         { q with reqs := q.reqs ++ [{ op := s.nextOp, quarter := none }] }) x h (groupOp x h.dc (.stage (stageKey x.k st))) [])
   ∧ (∀ s t tm st r rest, sget s.teams t = some tm → (stageOf tm st).reqs = r :: rest → stageRead s t tm st r.op = false →
     ∃ u tm', exec (.qbindLatch t st) s = .next u ∧ sget u.teams t = some tm' ∧ sget u.ops r.op = none ∧
       stageOf tm' st = { cur := r.quarter, reqs := rest })
   ∧ (∀ s t tm st r rest, sget s.teams t = some tm → (stageOf tm st).reqs = r :: rest → stageRead s t tm st r.op = true →
     exec (.qbindLatch t st) s = .next s))
  ∧ ((∀ h ga fsa fsb ec acc st, SeqCompletes (.mma h ga fsa fsb ec acc st) (matrixReq h ga fsa fsb false)
     (fun x s => matrixOk ga fsa fsb acc st false x s ∧
       debitOk (classCost s ec * mmaCycles (slotOf (fsRead x.lr fsa)) (slotOf (fsRead x.lr fsb))) x s)
     fun x s => matrixOpened h ga fsa fsb acc st false x
       (debited (classCost s ec * mmaCycles (slotOf (fsRead x.lr fsa)) (slotOf (fsRead x.lr fsb))) x s))
   ∧ (∀ h ga fsa fsb ec acc, SeqCompletes (.smma h ga fsa fsb ec acc) (matrixReq h ga fsa fsb true)
     (fun x s => matrixOk ga fsa fsb acc false true x s ∧
       debitOk (classCost s ec * smmaCycles (slotOf (fsRead x.lr fsa)) (slotOf (fsRead x.lr fsb))) x s)
     fun x s => matrixOpened h ga fsa fsb acc false true x
       (debited (classCost s ec * smmaCycles (slotOf (fsRead x.lr fsa)) (slotOf (fsRead x.lr fsb))) x s))
   ∧ (∀ h ga fsa fsb ec acc st, SeqHolds (.mma h ga fsa fsb ec acc st) (matrixReq h ga fsa fsb false)
     (fun x s => matrixOk ga fsa fsb acc st false x s ∧ (sget s.contexts x.tm.ctx).isSome ∧
       ¬debitOk (classCost s ec * mmaCycles (slotOf (fsRead x.lr fsa)) (slotOf (fsRead x.lr fsb))) x s)
     energyHeld)
   ∧ (∀ h ga fsa fsb ec acc, SeqHolds (.smma h ga fsa fsb ec acc) (matrixReq h ga fsa fsb true)
     (fun x s => matrixOk ga fsa fsb acc false true x s ∧ (sget s.contexts x.tm.ctx).isSome ∧
       ¬debitOk (classCost s ec * smmaCycles (slotOf (fsRead x.lr fsa)) (slotOf (fsRead x.lr fsb))) x s)
     energyHeld))

/-- R264: entry m, n of the sums of an MMA is the exact sum over k of A's value times B's, in units of 2^-72 (an X176 entry's
unit); of an SMMA, over the positions of the non-zero values, each at its index. R264, R265, R268: MATRIX_COMPLETE adds sum
(m, n) to entry (m, n) of the bank, once the instruction's occupancy has ended and every binding that it reads has been
latched, and ends it. ENERGY_DEBIT_WAIT_END of a sequencer that waits at an MMA or SMMA, and can make its debit now, retires
it with its sums open and takes the team from the context's order; without such a wait it does nothing. BUDGET_REFILL brings
the budget to what one refill, up to the cap, at each multiple of 1,000 ns gives. -/
def Obligations.SumsAreExact : Prop :=
  (∀ tm t st smma sa sb m n, m < 64 → n < 64 →
     (matrixSums tm t st smma sa sb).getD (64 * m + n) 0 = BitVec.ofInt 176 (16 *
       ((termsOf tm (t + 4096 + tileZ sa) smma sa.nz m).map fun e =>
         (aRow tm t sa m).getD e.2 0 * (bCol tm st smma sb n).getD e.1 0).sum))
  ∧ ((∀ s op o tm bank keys buf sums ends, sget s.ops op = some o → sget s.teams o.team = some tm →
     o.kind = .matrix bank keys buf sums ends → sums.length = 4096 → ends ≤ s.cycle → stagesLatched tm op keys = true →
     ∃ t tm', exec (.matrixComplete op) s = .next t ∧ sget t.teams o.team = some tm' ∧ sget t.ops op = none ∧ t.mem = s.mem ∧
       ∀ m < 64, ∀ n < 64, entryAt tm' bank m n = entryAt tm bank m n + sums.getD (64 * m + n) 0)
   ∧ (∀ s t x y h ga fsa fsb ec acc st, SeqRetriesMatrix s t (.mma h ga fsa fsb ec acc st) (matrixReq h ga fsa fsb false) x y →
     let s1 := retryAt s (.seq t)
     let d := classCost s1 ec * mmaCycles (slotOf (fsRead y.lr fsa)) (slotOf (fsRead y.lr fsb))
     matrixOk ga fsa fsb acc st false y s1 → debitOk d y s1 →
     exec (.energyDebitWaitEnd t) s = .next (energyEnded s x
       (seqRetired (matrixOpened h ga fsa fsb acc st false y (debited d y s1)) y)))
   ∧ (∀ s t x y h ga fsa fsb ec acc, SeqRetriesMatrix s t (.smma h ga fsa fsb ec acc) (matrixReq h ga fsa fsb true) x y →
     let s1 := retryAt s (.seq t)
     let d := classCost s1 ec * smmaCycles (slotOf (fsRead y.lr fsa)) (slotOf (fsRead y.lr fsb))
     matrixOk ga fsa fsb acc false true y s1 → debitOk d y s1 →
     exec (.energyDebitWaitEnd t) s = .next (energyEnded s x
       (seqRetired (matrixOpened h ga fsa fsb acc false true y (debited d y s1)) y)))
   ∧ (∀ s t, (∀ x, ssiteOf s t = some x → x.q.status ≠ .energy) → exec (.energyDebitWaitEnd t) s = .next s)
   ∧ (∀ s ctx c, sget s.contexts ctx = some c → c.refills < timeOf s / 1000 →
     ∃ t, exec (.budgetRefill ctx) s = .next t ∧ t.mem = s.mem ∧
       sget t.contexts ctx = some { c with
         budget := min (c.budget + (timeOf s / 1000 - c.refills) * c.refill) c.cap, refills := timeOf s / 1000 })
   ∧ (∀ s ctx c, sget s.contexts ctx = some c → timeOf s / 1000 ≤ c.refills →
     ∃ t, exec (.budgetRefill ctx) s = .next t ∧ sget t.contexts ctx = some c))

/-- R255: SEQUENCER_TRAP_DELIVERY of an undelivered trap gives the handler to the group of the matrix-role thread with the
lowest id, where it stands in no handler and no transfer; without such a thread the context faults fatally. -/
def Obligations.SequencerTrapsAreDelivered : Prop :=
  (∀ s t tm q i rest k g, sget s.teams t = some tm → tm.seq.bind (·.trap) = some q → q.slot = none → teamRuns s tm = true →
    liveOf tm .matrix = i :: rest → slotWith tm i = some k → sget tm.groups k = some g → g.handler = false →
    g.transfer = none → tm.htvec ≠ 0 →
    ∃ u tm' g', exec (.sequencerTrapDelivery t) s = .next u ∧ sget u.teams t = some tm' ∧ sget tm'.groups k = some g' ∧
      g'.handler = true ∧ g'.seqTrap = true ∧ g'.hpc = q.hpc ∧ g'.hcause = BitVec.ofNat 32 q.cause ∧ g'.haddr = q.haddr ∧ g'.hinfo = q.hinfo ∧
      g'.pc = tm.htvec.toNat ∧ (tm'.seq.bind (·.trap)).bind (·.slot) = some k)
  ∧ (∀ s t tm q, sget s.teams t = some tm → tm.seq.bind (·.trap) = some q → q.slot = none → teamRuns s tm = true →
    liveOf tm .matrix = [] → exec (.sequencerTrapDelivery t) s = .next (fatalFault s tm.ctx tm.core q.hpc q.cause))

/-! ## Accumulator banks and joins (R279 to R296) -/

/-- R290, R291, R295: ACCZ clears a bank that no operation adds into and sets its mode; ACCSP moves the spilled entries of a
hash-mode bank into a checked buffer and binds it; ACCCNT answers the status word, once no operation that adds into the bank
and no clearing drain of it is open. R265, R286, R292, R293: where no ACCZ or ACCSP of the bank is open, JMAC and JINS of
checked streams whose additions all find a place write the final cursor and open an operation on the bank, JMAC with its debit
made; a debit that cannot be made holds the sequencer, in the context's order. Where an addition finds no place, `.stop` ends
them so with bit 63 of the cursor set. R294: ACCDR of a checked buffer answers the number of entries, raises the conversions'
flags, clears the bank where `.clr` asks, and opens an operation that writes the drained bytes, with `.full` the transition
after it; LONG_LATENCY_COMPLETE of it writes them and ends it (it may be counted before, at a free choice: log 26), and the
`.ord` order is ascending by key. -/
def Obligations.BankAndJoinWords : Prop :=
  ((∀ h acc hash, SeqCompletes (.accz h acc hash) { guard := some h, dc := h.xdc.toNat }
     (fun x s => bankBusy s x.t acc.toNat = false)
     fun x s => openSeq (modTeam s x.t fun tm => modBank tm acc.toNat fun _ =>
       { hash := hash.isSome, nbm1 := (hash.map BitVec.toNat).getD 511, ents := [], res := 0, spilln := 0, spill := none, flags := 0 })
       x.t h.xdc.toNat (.bank acc.toNat false))
   ∧ (∀ h acc (buf : BufN) m, SeqCompletes (.accsp h acc buf)
     { guard := some h, dc := h.xdc.toNat, held := bufHeldSeq }
     (fun x s =>
       let t := bufOf x.tm buf.toNat
       let b := bankOf x.tm acc.toNat
       bankBusy s x.t acc.toNat = false ∧ b.hash = true ∧ t.size ≠ 0 ∧ t.size % 256 = 0 ∧ t.size ≤ 131072 ∧
         b.spill ≠ some buf.toNat ∧ pickFault (checkDecl x.tm t.off t.size .engW ++ spillFaults x.tm b) = none ∧
         moveEntries t.off (t.size / 256) (spillEntries x.tm b) (spSets x.tm.scratch t.off (List.replicate t.size 0)) = .ok m)
     fun x s => openSeq (modTeam s x.t fun tm => modBank { tm with scratch := m } acc.toNat fun b =>
       { b with spill := some buf.toNat, spilln := (spillEntries x.tm (bankOf x.tm acc.toNat)).length }) x.t h.xdc.toNat
       (.bank acc.toNat false))
   ∧ (∀ h gd acc, SeqCompletes (.acccnt h gd acc) { guard := some h, gs := [gd.toNat] }
     (fun x s => bankBusy s x.t acc.toNat = false ∧ drainOpen s x.t acc.toNat = false)
     fun x s => gWrite s x.t gd.toNat (bankStatus (bankOf x.tm acc.toNat))))
  ∧ ((∀ h gd ga gb fsa fsb ec acc stop tm b c, SeqCompletes (.jmac h gd ga gb fsa fsb ec acc stop) (jmacReq h gd ga gb fsa fsb)
     (fun x s => sget s.teams x.t = some x.tm ∧ bankShut s x.t acc.toNat = false ∧ jmacFault gd ga gb acc x = none ∧
       debitOk (classCost s ec * jmacCycles gd ga gb x) x s ∧ joinEnds stop (jmacRun gd ga gb fsa fsb acc x) = some (tm, b, c))
     fun x s => joinedBank h gd acc tm b c x (debited (classCost s ec * jmacCycles gd ga gb x) x s))
   ∧ (∀ h gd ga fsa acc stop tm b c, SeqCompletes (.jins h gd ga fsa acc stop) (jinsReq h gd ga fsa)
     (fun x s => bankShut s x.t acc.toNat = false ∧ jinsFault gd ga acc x = none ∧
       joinEnds stop (jinsRun gd ga fsa acc x) = some (tm, b, c))
     fun x s => joinedBank h gd acc tm b c x s)
   ∧ (∀ h gd ga gb fsa fsb ec acc stop, SeqHolds (.jmac h gd ga gb fsa fsb ec acc stop) (jmacReq h gd ga gb fsa fsb)
     (fun x s => bankShut s x.t acc.toNat = false ∧ jmacFault gd ga gb acc x = none ∧ (sget s.contexts x.tm.ctx).isSome ∧
       ¬debitOk (classCost s ec * jmacCycles gd ga gb x) x s)
     energyHeld))
  ∧ ((∀ h gd ga fsa acc od clr full, SeqCompletes (.accdr h gd ga fsa acc od clr full) (drainReq h gd ga fsa)
     (fun x s => bankBusy s x.t acc.toNat = false ∧ drainFault ga fsa acc od full x = none)
     fun x s =>
       let g := gRead x.tm ga.toNat
       let r := drainOut x.tm (bankOf x.tm acc.toNat) (slotOf (fsRead x.lr fsa)) od (descOff g) (descN g)
       let s := modTeam s x.t fun tm => modBank tm acc.toNat fun b => { b with flags := b.flags ||| ((0 : BitVec 3) ++ r.1.2) }
       let s := if clr then modTeam s x.t fun tm => drainClear tm acc.toNat else s
       let buf := (bufAt x.tm (descOff g)).map Prod.fst
       openDrain (gWrite s x.t gd.toNat (BitVec.ofNat 64 r.2)) x.t h.xdc.toNat (if full then buf else none)
         (.drain acc.toNat (buf.getD 64) r.1.1 clr))
   ∧ (∀ s op o b n bytes clr, sget s.ops op = some o → o.kind = .drain b n bytes clr →
     (countEarly s op = none →
       exec (.longLatencyComplete op) s = .next (completeOp (modTeam s o.team (writeDrain bytes)) op)) ∧
     (∀ u, countEarly s op = some u → exec (.longLatencyComplete op) s = .next u))
   ∧ (∀ l : List AccEntry, ((sortEntries l).map fun e => e.key.toNat).Pairwise (· < ·)
     ∧ ∀ k, (∃ e ∈ sortEntries l, e.key = k) ↔ ∃ e ∈ l, e.key = k))

/-- R282, R292, R293, R73: in direct mode with rows and columns below 64, JINS over a stream adds every tuple's value to its
entry, and JMAC over two streams whose k do not fall adds the product of every pair of tuples with one k; nothing else is
added, and the cursor ends at the streams' ends. -/
def Obligations.JoinsAddEveryProduct : Prop :=
  (∀ tm b off n sl, b.hash = false → (∀ e ∈ streamOf tm off n, e.1 < 64 ∧ e.2.1 < 64) →
    ∃ b', jinsLoop off n sl n 0 tm b = (tm, b', .done (BitVec.ofNat 64 n)) ∧ ∀ r < 64, ∀ c < 64,
      directVal b' r c = directVal b r c
        + gained ((streamOf tm off n).map fun e => ((e.1, e.2.1), (enterVal (valueWord sl e.2.2)).1)) r c)
  ∧ (∀ tm b j, b.hash = false → (∀ e ∈ streamOf tm j.oa j.na, e.2.1 < 64) → (∀ e ∈ streamOf tm j.ob j.nb, e.2.1 < 64) →
    ((streamOf tm j.oa j.na).map Prod.fst).Pairwise (· ≤ ·) → ((streamOf tm j.ob j.nb).map Prod.fst).Pairwise (· ≤ ·) →
    ∃ b' p, jmacLoop j j.na ⟨0, 0, 0⟩ tm b = (tm, b', .done (Cursor.mk j.na p p).word) ∧ ∀ r < 64, ∀ c < 64,
      directVal b' r c = directVal b r c
        + gained ((streamOf tm j.oa j.na).flatMap fun e => ((streamOf tm j.ob j.nb).filter fun f => f.1 = e.1).map fun f =>
            ((e.2.1, f.2.1), productOf j.sa j.sb e.2.2 f.2.2)) r c)

/-! ## Command packets (R317 to R324) -/

/-- R318 to R322: each packet whose turn it is and whose accesses succeed. NOP, INVAL, SIGNAL and TIMESTAMP pass; FENCE and
EDGE pass once their conditions hold and hold the queue until then; LAUNCH makes a grid and passes with the last of its
records. The first record enters after the kernel boundary, and none while there is no room or an earlier LAUNCH of the
partition has records to write. -/
def Obligations.PacketsRun : Prop :=
  (∀ s q len bar u, PacketTurn q bar s u → exec (.packetNop q len bar) s = .next (packetDone s q (len.toNat + 1)))
  ∧ (∀ s q bar len rs u, PacketTurn q bar s u → exec (.inval q bar len rs) s = .next (packetDone
      (modQueue s q fun u => { u with inval := u.inval ++ rs, listed := true }) q (len.toNat + 1)))
  ∧ (∀ s q bar op a v u t, PacketTurn q bar s u → cpSignal s u.ctx op a v = .ok t →
    exec (.signal q bar op a v) s = .next (packetDone t q 1))
  ∧ (∀ s q bar a u t, PacketTurn q bar s u → cpWrite s u.ctx a.toNat (natLe 8 (timeOf s % 2 ^ 64)) = .ok t →
    exec (.timestamp q bar a) s = .next (packetDone (cpRelease t u.ctx) q 1))
  ∧ (∀ s q bar es u b, PacketTurn q bar s u → fenceHolds s u.ctx es = .ok b →
    exec (.packetFence q bar es) s = .next (if b then packetDone s q (fenceSlots es.length) else packetHold s q))
  ∧ (∀ s q bar (consumer : Bool) k d u e, PacketTurn q bar s u → packetEdge s u.ctx d = .ok e →
    exec (.edge q bar consumer k d) s = .next (
      if (if consumer then k ≤ edgeOcc e else k + edgeOcc e ≤ 2 ^ e.logn) then packetDone s q 1 else packetHold s q))
  ∧ (∀ s q bar rec cop u lr, PacketTurn q bar s u → (∀ n ∈ u.grids, allWritten s n = true) →
    (sgetD s.parts u.part default).clusters ≠ [] → launchCheck s u rec cop = .ok lr →
    let r := launchGrid s q u lr cop
    exec (.launch q bar rec cop) s = .next (launchWrite
      (modQueue r.2 q fun u => { u with inval := [], listed := false, grids := u.grids ++ [r.1] }) q r.1))
  ∧ (∀ s n g, sget s.grids n = some g → g.written < gridRecs g.lrec →
    (mayWrite s n g = false → writeAllTeams s n = s) ∧
    (mayWrite s n g = true → writeAllTeams s n = writeTeams n (gridRecs g.lrec - g.written)
      (if g.written = 0 then boundary s g.ctx g.part g.listed else s)) ∧
    (g.queue.isSome = true → (∃ m e, sget s.grids m = some e ∧ m < n ∧ e.part = g.part ∧ e.queue.isSome = true ∧
      e.written < gridRecs e.lrec) → mayWrite s n g = false))

/-- R317, R324: a packet that passes advances RPTR by its slots and makes its queue idle; a rejected one leaves RPTR, sets ERR
to its status and makes the queue idle. Nothing else of memory changes. R26, R318, R321, R324: QUEUE_PARSE gives an idle queue
its turn and PACKET_POLL a waiting one: a queue that has had one in this round only where no other queue is ready that has had
none, and then a new round begins. ERR_CLEAR writes 0 to ERR. A queue with an ERR is not served, nor one whose descriptor does
not translate (the model's choice: log 101). READ_AHEAD stages the first packet not staged, with a LAUNCH its record, table
and first clauses, where no FENCE, EDGE or pending BAR stands before it. -/
def Obligations.PacketsPassOrReject : Prop :=
  ((∀ s q u p n, sget s.queues q = some u → descPlace s u = some p → s.replay = [] →
     let t := packetDone s q n
     memNat t.mem (p.pa + 16) 4 = (queueRptr s u + n) % 2 ^ 32 ∧ (sget t.queues q).map (·.status) = some .idle ∧
       ∀ a, ¬(p.pa + 16 ≤ a ∧ a < p.pa + 20) → memByte t.mem a = memByte s.mem a)
   ∧ (∀ s q u p code, sget s.queues q = some u → descPlace s u = some p → code < 256 →
     let t := packetReject s q code
     memNat t.mem (p.pa + 20) 1 = code ∧ memNat t.mem (p.pa + 16) 4 = queueRptr s u ∧
       (sget t.queues q).map (·.status) = some .idle ∧ ∀ a, a ≠ p.pa + 20 → memByte t.mem a = memByte s.mem a)
   ∧ (∀ s q bar op a v u e, PacketTurn q bar s u → cpSignal s u.ctx op a v = .error e →
     exec (.signal q bar op a v) s = .next (packetReject s q 5))
   ∧ (∀ s q bar rec cop u e, PacketTurn q bar s u → (∀ n ∈ u.grids, allWritten s n = true) →
     (sgetD s.parts u.part default).clusters ≠ [] → launchCheck s u rec cop = .error e →
     exec (.launch q bar rec cop) s = .next (packetReject s q e)))
  ∧ ((∀ s q u i, sget s.queues q = some u → turnOf q i = some u.status →
     (s.served.contains q = false → exec i s = .next { s with issuer := some (.packet q) }) ∧
     (s.served.contains q = true → (∀ e ∈ s.queues, s.served.contains e.1 = false → packetReady s e.1 = false) →
       exec i s = .next { s with issuer := some (.packet q), served := [] }) ∧
     (s.served.contains q = true → (∃ e ∈ s.queues, s.served.contains e.1 = false ∧ packetReady s e.1 = true) → exec i s = .next s))
   ∧ (∀ s q u p, sget s.queues q = some u → descPlace s u = some p → ∃ t, exec (.errClear q) s = .next t ∧
     memNat t.mem (p.pa + 20) 1 = 0 ∧ t.queues = s.queues ∧ ∀ a, a ≠ p.pa + 20 → memByte t.mem a = memByte s.mem a)
   ∧ (∀ s q u, sget s.queues q = some u → descPlace s u = none ∨ queueErr s u ≠ 0 →
     packetReady s q = false ∧ fetchPacket s q = .state s)
   ∧ (∀ s q u bs i, sget s.queues q = some u → packetAt s u (stageFrom u.staged (queueRptr s u)) = .ok (some bs) →
     queueStopped s u = false → u.status ≠ .waiting → packetInstr q bs = some i →
     (∀ e ∈ u.staged, passable (launchWithBar bs) e = true) → (launchWithBar bs = true → u.grids = []) →
     ((∀ bar rec cop, i ≠ .launch q bar rec cop) → exec (.readAhead q) s = .next (modQueue s q fun u =>
       { u with staged := u.staged ++ [(stageFrom u.staged (queueRptr s u), bs, [], [])] })) ∧
     ∀ bar rec cop r tb lr, i = .launch q bar rec cop → launchBytes s { u with staged := [] } rec = .ok (r, tb) →
       parseLaunch rec.toNat (leNat r) (tableWords (tb.length / 8) tb) = some lr → ∃ t v, exec (.readAhead q) s = .next t ∧
       t.mem = s.mem ∧ sget t.queues q = some v ∧ v.status = u.status ∧
       v.staged = u.staged ++ [(stageFrom u.staged (queueRptr s u), bs, r, tb)] ∧
       v.code = u.code ++ (stagedCode s u.ctx lr).map fun e => (stageFrom u.staged (queueRptr s u), e)))

/-! ## Groups, teams and grids -/

/-- R33, R40, R145, R149, R152, R153: CLAUSE_FETCH of a runnable group or sequencer without a clause installs the clause that
stands at its address, or takes the fetch fault; FORMATION serves the team whose turn it is and makes a group of the first 32
threads of its chosen entry at its address, in a free slot; JOIN_RELEASE releases every held entry of the role that no entry
and no group of a higher priority keeps waiting (at which priority a group between clauses counts is log 39): the threads
enter the frontier behind their JOINs, stamped in ascending thread id over all of them, and a whole role's threads return to
their home slots and lanes; ISSUE_SELECT chooses a ready group of a partition, if one is, a deterministic team's turn where it
is alone, and the sequencer if it may issue. -/
def Obligations.GroupsFormAndFetch : Prop :=
  (∀ s t k x, siteOf s t k ⟨false, 7⟩ = some x → x.g.clause = none → teamRuns s x.tm = true → x.g.status ≠ .yielded →
    let f := fetchClause s x.tm.ctx x.tm.core x.tm.staged x.g.pc false (x.g.handler || x.lr.priv)
    (∀ c ls, f = .ok (c, ls) → x.g.wix < c.words.length →
      exec (.clauseFetch (.group t k)) s = .next (promptTeam (modTeam (fetched s t x.tm ls) t fun tm =>
        modGroup tm k fun g => { g with clause := some c }) t)) ∧
    (∀ c ls, f = .ok (c, ls) → c.words.length ≤ x.g.wix →
      exec (.clauseFetch (.group t k)) s = .next (promptTeam (fetchTrap s t k x.g illegalClause) t)) ∧
    (∀ e, f = .error e → exec (.clauseFetch (.group t k)) s = .next (promptTeam (trapGroup s t k
      { cause := e.cause, lanes := memberLanes x.g, addr := e.addr,
        info := if e.cause = 3 then 0 else infoOf e ((memberLanes x.g).headD 0) } (memberLanes x.g) (hpcClause (x.g.pc % 2 ^ 52))) t)))
  ∧ (∀ s t x, ssiteOf s t = some x → x.q.clause = none → x.q.trap = none → teamRuns s x.tm = true → x.q.status ≠ .ended →
    let f := fetchClause s x.tm.ctx x.tm.core x.tm.staged x.q.pc true false
    (∀ c ls, f = .ok (c, ls) → x.q.wix < c.words.length →
      exec (.clauseFetch (.seq t)) s = .next (modSeq (fetched s t x.tm ls) t fun q => { q with clause := some c })) ∧
    (∀ e, f = .error e → exec (.clauseFetch (.seq t)) s = .next
      (trapSeq s t e.cause (hpcClause (x.q.pc % 2 ^ 52)) e.addr (if e.cause = 3 then 0 else infoOf e 0))))
  ∧ (∀ s core t tm e k a l, (s.teams.filter fun e => e.2.core = core && teamRuns s e.2 && formable e.2 ≠ []) = a :: l →
    l.foldl servedFirst a = (t, tm) → sget s.teams t = some tm → chooseEntry (tm.nform + 1) (formable tm) = some e →
    (e.threads.map Prod.fst).Nodup → chooseSlot tm e.role ((e.threads.take 32).map Prod.fst) = some k →
    ∃ u tm' g, exec (.formation core) s = .next u ∧ sget u.teams t = some tm' ∧ sget tm'.groups k = some g ∧ g.pc = e.addr ∧
      g.handler = false ∧ tm'.nform = tm.nform + 1 ∧ ∀ i, i ∈ memberTids g ↔ i ∈ (e.threads.take 32).map Prod.fst)
  ∧ (∀ s t tm role, sget s.teams t = some tm → teamRuns s tm = true →
    exec (.joinRelease t role) s = .next (promptTeam (joinRelease t role (releasable s tm role) s) t))
  ∧ (∀ s tm role e, e ∈ releasable s tm role ↔ e ∈ tm.front ∧ e.held = true ∧ e.role = role ∧ e.threads ≠ [] ∧
    (∀ f ∈ tm.front, f.role = role → f.threads ≠ [] → f.prio ≤ e.prio) ∧
    ∀ g ∈ tm.groups, groupRole tm g.2 = role → g.2.members ≠ [] → groupPrio s tm g.2 ≤ e.prio)
  ∧ (∀ s t tm role es, sget s.teams t = some tm → (es.flatMap FrontEntry.tids).Nodup → (∀ e ∈ es, goesHome tm e = false) →
    ∃ tm', sget (joinRelease t role es s).teams t = some tm' ∧ ∀ e ∈ es, ∀ i ∈ e.tids, ∃ f ∈ tm'.front,
      f.role = role ∧ f.addr = e.addr + 16 ∧ f.held = false ∧
      (i, tm.nstamp + ((es.flatMap FrontEntry.tids).filter (· ≤ i)).length) ∈ f.threads)
  ∧ (∀ s t tm e, sget s.teams t = some tm → goesHome tm e = true → ∃ tm',
    sget (joinRelease t e.role [e] s).teams t = some tm' ∧ e ∉ tm'.front ∧ ∀ i ∈ e.tids,
      (sget tm'.groups (i / 32)).map (fun g => (g.pc, g.wix, sget g.members (i % 32))) = some (e.addr + 16, 0, some i))
  ∧ (∀ s core part, part < 4 → (∀ e ∈ teamsOn s core, (lrecOf s e.2).determ = false) →
    ∃ u, exec (.issueSelect core part) s = .next u ∧ u.mem = s.mem ∧ (candidates s core part = [] → u = s) ∧
      (candidates s core part ≠ [] → ∃ c ∈ candidates s core part, u.issuer = some (.group c.t c.k)))
  ∧ (∀ s core part t tm, part < 4 → sget s.teams t = some tm → dueTeams s core part = [(t, tm)] → laneHeld s core part = none →
    candidates s core part = [] →
    (rotSlot tm part = none → exec (.issueSelect core part) s = .next (modTeam s t endTurn)) ∧
    ∀ k x, rotSlot tm part = some k → (sgetD tm.groups k default).status = .ready →
      let s1 := rotAt s core part ((tm.slotPhys.getD k 0 + 15) % 16)
      siteOf s1 t k ⟨false, 7⟩ = some x → canIssue s1 x = true →
      exec (.issueSelect core part) s = .next { s1 with issuer := some (.group t k) })
  ∧ (∀ s core e x, ((teamsOn s core).find? fun e => e.2.seq.isSome) = some e → ssiteOf s e.1 = some x → canIssueSeq s x = true →
    exec (.issueSelect core 4) s = .next { s with issuer := some (.seq e.1) })

/-- R24, R160, R322, R329, R349, R378: TEAM_PLACE pops the head record of the core's partition: a new team or task is shaped
as its launch record and its record say, a saved team stands again as its image in memory gives it, and an image that fails
its checks is a fatal fault, with position and cause 0 (log 53, DEDUCED). TEAM_COMPLETE takes a finished team off its core and
counts it, or freezes a team with a held store; GRID_COMPLETE of a finished grid forks, performs the completion operation and
ends the grid. R346 to R351, R355: PREEMPT_REQUEST, with a deadline in its range, sets or withdraws REQ of a team that is
alone in its cluster and not deterministic; COOPERATIVE_SAVE at a safe point and PREEMPT_DEADLINE after the deadline begin a
save of the cluster, and SAVE_POOL_WAIT_END goes on with it: a quiesced team leaves its core for the first run of free slots
of the pool, its image stands there in memory, and its record waits for a restore. A save waits for room in the ready queue
(log 100). -/
def Obligations.TeamsComeAndGo : Prop :=
  ((∀ s core part p r g, partOfCluster s (coreCluster core) = some (part, p) → p.paused = false →
     (∀ m ∈ p.moves, m.1 ≠ coreCluster core) → (getDie s (coreDie core)).fenced = false → headRec s p = some r →
     recNow s part r = some r → sget s.grids r.grid = some g →
     let sh := shapeOf g.lrec (r.kind = .task)
     (r.kind ≠ .saved → r.kind = .task ∨ g.lrec.tcl = 1 →
       coreFits s sh (g.lrec.stream ≠ 0 && r.kind ≠ .task) g.lrec.smin core = true →
       ∃ u tm, exec (.teamPlace core) s = .next u ∧ u.nextTeam = s.nextTeam + 1 ∧ sget u.teams s.nextTeam = some tm ∧
         tm.core = core ∧ tm.grid = r.grid ∧ tm.ctx = g.ctx ∧ tm.prio = r.prio ∧ tm.tidx = r.tidx ∧ tm.karg = r.frame ∧
         tm.spsize = grantOf s core g.lrec (r.kind = .task) ∧ tm.task = (r.kind = .task) ∧ tm.nthr = sh.nthr ∧
         tm.threads.length = sh.nthr ∧ (∀ e ∈ tm.threads, e.2.live = true ∧ e.2.regs = []) ∧
         (∀ e ∈ tm.groups, e.2.pc = r.code.toNat)) ∧
     (∀ a im im', r.kind = .saved → r.task = true ∨ g.lrec.tcl = 1 → r.code = BitVec.ofNat 64 (a + 1) → a < 2 ^ 63 →
       sget s.images a = some im → coreFits s im.team im.team.seq.isSome im.team.spsize core = true →
       (imageAt s a im = some im' → (coreSlots s core im'.team im'.team.seq.isSome).isSome → im'.num = im.num → im'.held = [] →
         ∃ u tm, exec (.teamPlace core) s = .next u ∧ sget u.teams im.num = some tm ∧ sget u.images a = none ∧ tm.core = core ∧
           tm.groups = im'.team.groups ∧ tm.front = im'.team.front ∧ tm.scratch = im'.team.scratch ∧ tm.seq = im'.team.seq ∧
           tm.threads.map (fun e => (e.1, e.2.regs, e.2.preds)) = im'.team.threads.map fun e => (e.1, e.2.regs, e.2.preds)) ∧
       (imageAt s a im = none → exec (.teamPlace core) s = .next (fatalFault s g.ctx core 0 0))))
   ∧ (∀ s t tm, sget s.teams t = some tm → teamRuns s tm = true → (∀ e ∈ tm.threads, e.2.live = false) →
     (∀ e ∈ s.ops, e.2.team ≠ t) → (∀ q, tm.seq = some q → q.status = .ended) →
     ((∀ h ∈ s.coal, ¬(h.team = t ∧ h.held = true)) → ∃ u, exec (.teamComplete t) s = .next u ∧ sget u.teams t = none ∧
       ∀ g, sget s.grids tm.grid = some g → (sget u.grids tm.grid).map (fun g => (g.done, g.tasks)) =
         some (if tm.task then (g.done, g.tasks - 1) else (g.done + 1, g.tasks))) ∧
     (∀ h, (s.coal.find? fun h => h.team = t && h.held) = some h →
       exec (.teamComplete t) s = .next (freezeTeam s t (BitVec.ofNat 64 h.va) 0x19)))
   ∧ (∀ s n g, sget s.grids n = some g → gridDone s g = true →
     (g.cop = .none → ∃ u, exec (.gridComplete n) s = .next u ∧ sget u.grids n = none ∧ u.mem = s.mem ∧
       sget u.contexts g.ctx = sget (forkAll s g.ctx).contexts g.ctx)
     ∧ (∀ a v t, g.cop = .write a v → cpSignal (forkAll s g.ctx) g.ctx .write a v = .ok t →
       ∃ u, exec (.gridComplete n) s = .next u ∧ sget u.grids n = none ∧ u.mem = t.mem)
     ∧ (∀ a v t, g.cop = .add a v → cpSignal (forkAll s g.ctx) g.ctx .add a v = .ok t →
       ∃ u, exec (.gridComplete n) s = .next u ∧ sget u.grids n = none ∧ u.mem = t.mem)))
  ∧ ((∀ s t tm d, sget s.teams t = some tm → tm.mates = [t] → tm.saving = none → (lrecOf s tm).determ = false →
     (∀ n, d = some n → 1000 ≤ n ∧ n ≤ 1000000) → ∃ u tm', exec (.preemptRequest t d) s = .next u ∧ sget u.teams t = some tm' ∧ tm'.preq = d.isSome ∧ u.mem = s.mem)
   ∧ (∀ s t tm, sget s.teams t = some tm → tm.saving = none → tm.preq = true → teamRuns s tm = true → clusterSafe s tm = true →
     exec (.cooperativeSave t) s = .next (saveStep (startSave .yield s t) t))
   ∧ (∀ s t tm, sget s.teams t = some tm → tm.saving = none → tm.preq = true → tm.reqAt + tm.pdeadline ≤ s.cycle →
     teamRuns s tm = true → (lrecOf s tm).determ = false → clusterSafe s tm = false →
     exec (.preemptDeadline t) s = .next (saveStep (startSave .forced s t) t))
   ∧ (∀ s t tm a, sget s.teams t = some tm → tm.saving = some .forced → tm.mates = [t] → slotsOf s tm = 1 → tm.member = 0 →
     quiesced s t tm = true → teamLives s tm = true →
     (sgetD s.parts (sgetD s.grids tm.grid default).part default).ready.length < 4096 →
     poolRun (sgetD s.parts (sgetD s.grids tm.grid default).part default) 1 = some a →
     ∃ u im p, exec (.savePoolWaitEnd t) s = .next u ∧ sget u.teams t = none ∧ sget u.images a = some im ∧ im.num = t ∧
       (∀ i (h : i < (imageBytes im im).length), memByte u.mem (a + i) = (imageBytes im im)[i]) ∧
       sget u.parts (sgetD s.grids tm.grid default).part = some p ∧ a ∈ p.usedSlots ∧
       ∃ r ∈ p.ready, r.kind = .saved ∧ r.code = BitVec.ofNat 64 (a + 1) ∧ r.grid = tm.grid ∧ r.prio = tm.prio))

/-! ## Requests and the package -/

/-- R268, R316, R317, R330, R331: contexts, queues and partitions. CONTEXT_REGISTER of a descriptor that keeps the rules makes
the context, its budget full; QUEUE_REGISTER makes a queue; PARTITION_CONFIG makes, resizes and removes partitions and sets
their ceilings; CLUSTER_MOVE of an empty cluster moves it; THERMAL_THROTTLE lowers PREFILL; CONTEXT_END removes all that the
context had running and releases what a violation froze; what it clears and what it leaves of the context is log 48. R169,
R212, R348, R358, R370, R376, R377, R383, R384: TRANSLATION_INVALIDATE, once no access that used an old translation is left,
drops every cached one that meets the range; RDC_RESIZE empties the cache of a die without teams; SAVE_POOL_REGISTER,
CORE_IMAGE_AREA_REGISTER, HOST_CHANNEL_BIND, CINCH_ID_ASSIGN and FABRIC_ACCESS_OPEN record what they name; ATTESTATION_REPORT
answers the identity record as R384 lays it out, the measurements and the nonce, with a signature of 29,792 bytes. -/
def Obligations.ContextsAndPartitions : Prop :=
  ((∀ s part debug desc, contextOk s part desc.toNat = true →
     ∃ u c, exec (.contextRegister part debug desc) s = .next u ∧ sget u.contexts (nbits desc.toNat 192 16) = some c ∧
       c.part = part ∧ c.ptroot = nbits desc.toNat 0 64 ∧ c.htvec.toNat = nbits desc.toNat 64 64 ∧ c.tqbase = nbits desc.toNat 128 64 ∧
       c.budget = c.cap ∧ c.cap = (sgetD s.parts part default).pcap ∧ c.refill = (sgetD s.parts part default).prefill ∧
       c.debug = debug ∧ c.views = [] ∧ c.stopped = false ∧ u.mem = s.mem)
   ∧ (∀ s q ctx va ps, s.bringUp = false → sget s.queues q = none → va.toNat % 64 = 0 → cpPlaces s ctx false va.toNat 64 = .ok ps →
     queueOk s ctx (memNat s.mem (placeAt ps va.toNat).pa 64) = true →
     ∃ u k, exec (.queueRegister q ctx va) s = .next u ∧ sget u.queues q = some k ∧ k.ctx = ctx ∧
       k.desc = va.toNat ∧ k.base = nbits (memNat s.mem (placeAt ps va.toNat).pa 64) 0 64 ∧ k.status = .idle ∧ k.grids = [] ∧
       u.mem = s.mem)
   ∧ (∀ s part cs quota base n prefill pcap, s.bringUp = false → part < 8 → sget s.parts part = none → cs ≠ [] →
     clustersOk s part cs = true → 2 ^ 16 ≤ n → n ≤ 2 ^ 24 → base % 64 = 0 → physOk s part base (64 * n) = true →
     ∃ u p, exec (.partitionConfig (.create part cs quota base n prefill pcap)) s = .next u ∧ sget u.parts part = some p ∧
       p.clusters = cs ∧ p.quota = quota ∧ p.spillBase = base ∧ p.spillN = n ∧ p.ready = [] ∧
       p.prefill = (if prefill = 0 then Config.defPrefill * cs.length else prefill) ∧
       p.pcap = (if pcap = 0 then Config.defPcap * cs.length else pcap))
   ∧ (∀ s part cs p, s.bringUp = false → sget s.parts part = some p → cs ≠ [] → p.moves = [] → clustersOk s part cs = true →
     (∀ c ∈ p.clusters, c ∉ cs → clusterEmpty s c = true) →
     ∃ u, exec (.partitionConfig (.resize part cs)) s = .next u ∧ (sget u.parts part).map (·.clusters) = some cs)
   ∧ (∀ s part prefill pcap p, s.bringUp = false → sget s.parts part = some p →
     ∃ u, exec (.partitionConfig (.ceilings part prefill pcap)) s = .next u ∧
       (sget u.parts part).map (fun p => (p.prefill, p.pcap)) = some (prefill, pcap) ∧
       ∀ n c, sget u.contexts n = some c → c.part = part → c.cap ≤ pcap ∧ c.refill ≤ prefill ∧ c.budget ≤ c.cap)
   ∧ (∀ s part p, s.bringUp = false → sget s.parts part = some p → (∀ c ∈ p.clusters, clusterEmpty s c = true) → p.ready = [] →
     p.pool = [] → p.moves = [] → (∀ e ∈ s.contexts, e.2.part ≠ part) → (∀ e ∈ s.queues, e.2.part ≠ part) →
     (∀ e ∈ s.parts, ∀ m ∈ e.2.moves, m.2 ≠ part) →
     exec (.partitionConfig (.delete part)) s = .next { s with parts := serase s.parts part })
   ∧ (∀ s c src dst d p q, sget s.parts src = some p → sget s.parts dst = some q → src ≠ dst → p.moves = [] → c ∈ p.clusters →
     clusterEmpty s c = true →
     ∃ u, exec (.clusterMove c src dst d) s = .next u ∧ (sget u.parts src).map (·.clusters) = some (p.clusters.filter (· ≠ c)) ∧
       (sget u.parts dst).map (·.clusters) = some (q.clusters ++ [c]))
   ∧ (∀ s part prefill p, sget s.parts part = some p →
     exec (.thermalThrottle part prefill) s = .next (setCeilings s part (min prefill p.prefill) p.pcap))
   ∧ (∀ s ctx, ∃ u, exec (.contextEnd ctx) s = .next u ∧ (∀ e ∈ u.grids, e.2.ctx ≠ ctx) ∧ (∀ e ∈ u.teams, e.2.ctx ≠ ctx) ∧
       (∀ e ∈ u.channels, e.2.ctx = ctx → e.2.frozen = false) ∧ (∀ e ∈ u.frozen, e.2 ≠ ctx) ∧
       ∀ c, sget u.contexts ctx = some c → c.views = [] ∧ c.masters = [] ∧ c.stopped = false))
  ∧ ((∀ s ctx base len, oldAccess s ctx base.toNat len.toNat = false →
     ∃ u, exec (.translationInvalidate ctx base len) s = .next u ∧ u.mem = s.mem ∧ ∀ n x, x ∈ sgetD u.tlb n [] ↔
       x ∈ sgetD s.tlb n [] ∧
         ¬(x.ctx = ctx ∧ x.vpn * 2 ^ x.size < base.toNat + len.toNat ∧ base.toNat < (x.vpn + 1) * 2 ^ x.size))
   ∧ (∀ s ctx base len, oldAccess s ctx base.toNat len.toNat = true → exec (.translationInvalidate ctx base len) s = .next s)
   ∧ (∀ s die code, code.toNat ≤ 4 → die < 4 → dieEmpty s die = true →
     ∃ u, exec (.rdcResize die code) s = .next u ∧ (getDie u die).rdc = [] ∧ (getDie u die).rdcCfg = code ∧
       (∀ n, n ≠ die → getDie u n = getDie s n) ∧ u.mem = s.mem)
   ∧ (∀ s part slots p, sget s.parts part = some p → 4 ≤ slots.length → slots.Nodup → (∀ a ∈ slots, a % 2 ^ 22 = 0) →
     (∀ a ∈ slots, physOk s part a (2 ^ 22) = true) → (∀ a ∈ p.usedSlots, a ∈ slots) →
     exec (.savePoolRegister part slots) s = .next
       ((s.teams.map Prod.fst).foldl saveStep (modPart s part fun p => { p with savePool := slots })))
   ∧ (∀ s ctx c a, sget s.contexts ctx = some c → physOk s c.part a 1 = true →
     ∃ u, exec (.coreImageAreaRegister ctx a) s = .next u ∧ sget u.contexts ctx = some { c with coreArea := some a })
   ∧ (∀ s ch ctx c, sget s.contexts ctx = some c → ch < 64 → (∀ k, sget s.channels ch = some k → k.frozen = false) →
     exec (.hostChannelBind ch ctx) s = .next { s with channels := sset s.channels ch { ctx := ctx, frozen := false } })
   ∧ (∀ s id routes, id ≠ 0 →
     exec (.cinchIdAssign id routes) s = .next { s with identity := { s.identity with pkgid := id }, routes := routes })
   ∧ (∀ s ctx, exec (.fabricAccessOpen ctx) s = .next (modCtx s ctx fun c => { c with fabric := true }))
   ∧ (∀ s nonce, ∃ u r, exec (.attestationReport nonce) s = .next u ∧ u.report = some r ∧ r.identity = identityRecord s.identity ∧
       r.log = s.measures ∧ r.nonce = nonce ∧ r.sig.length = 29792 ∧
       (∀ i (h : i < r.sig.length), r.sig[i] = Config.slhSign r.identity r.log nonce i) ∧ { u with report := s.report } = s)
   ∧ (∀ i : Identity, let w := identityRecord i
       w.extractLsb' 256 256 = i.pkhash ∧ w.extractLsb' 192 64 = i.serial ∧ w.extractLsb' 160 32 = 0 ∧
       w.extractLsb' 124 36 = i.clmask ∧ w.extractLsb' 108 16 = i.rdccfg ∧ w.extractLsb' 96 12 = i.pkgid ∧
       w.extractLsb' 80 16 = i.fwbase ∧ w.extractLsb' 72 8 = i.step ∧ w.extractLsb' 32 40 = 0 ∧ w.extractLsb' 0 32 = i.magic))

/-- R278, R356, R357, R381: DEBUG_STOP, where every context on the core allows it, and DEBUG_RESUME set and clear the stop of
a partition; DEBUGGER_ATTACH attaches where debugging is enabled; DEBUG_REGISTER_WRITE writes a register or predicate of a
stopped thread, or a register, tile predicate, B stage, bank entry or bank status of a stopped sequencer; CHECKPOINT of
partitions where nothing runs any more, but for teams on fenced dies, keeps memory, the contexts, partitions, queues, grids
and images, and the fenced teams with their stores, starts those partitions' journal anew, and resumes their packets (what a
checkpoint takes and when it ends: logs 15 and 63). -/
def Obligations.DebugAndKeeping : Prop :=
  (∀ s core part, (∀ e ∈ teamsOn s core, ∃ c, sget s.contexts e.2.ctx = some c ∧ c.debug = true) →
    ∃ u, exec (.debugStop core part) s = .next u ∧ debugStopped u core part = true ∧ u.teams = s.teams ∧ u.mem = s.mem)
  ∧ (∀ s core part, ∃ u, exec (.debugResume core part) s = .next u ∧ debugStopped u core part = false ∧ u.teams = s.teams ∧
      u.mem = s.mem)
  ∧ (∀ s ctx b, exec (.debuggerAttach ctx b) s = .next (modCtx s ctx fun c => { c with debugger := b && c.debug }))
  ∧ (∀ s t tm tid th reg v, sget s.teams t = some tm → sget tm.threads tid = some th → threadStopped s tm tid = true → reg < 256 →
    ∃ u tm' th', exec (.debugRegisterWrite (.vreg t tid reg v)) s = .next u ∧ sget u.teams t = some tm' ∧
      sget tm'.threads tid = some th' ∧ sgetD th'.regs reg 0 = v ∧ (∀ n, n ≠ reg → sgetD th'.regs n 0 = sgetD th.regs n 0) ∧
      u.mem = s.mem)
  ∧ (∀ s t tm q g v, sget s.teams t = some tm → tm.seq = some q → debugStopped s tm.core 4 = true → g < 64 →
    ∃ u tm', exec (.debugRegisterWrite (.greg t g v)) s = .next u ∧ sget u.teams t = some tm' ∧ gRead tm' g = v ∧
      ∀ n, n ≠ g → gRead tm' n = gRead tm n)
  ∧ (∀ s t tm tid th p v, sget s.teams t = some tm → sget tm.threads tid = some th → threadStopped s tm tid = true → p < 7 →
    ∃ u tm' th', exec (.debugRegisterWrite (.pred t tid p v)) s = .next u ∧ sget u.teams t = some tm' ∧
      sget tm'.threads tid = some th' ∧ ∀ n, n < 7 → th'.preds.getLsbD n = if n = p then v else th.preds.getLsbD n)
  ∧ (∀ s t tm q n v, sget s.teams t = some tm → tm.seq = some q → debugStopped s tm.core 4 = true → n < 15 →
    ∃ u tm' q', exec (.debugRegisterWrite (.qreg t n v)) s = .next u ∧ sget u.teams t = some tm' ∧ tm'.seq = some q' ∧
      ∀ m, m < 15 → q'.q.getLsbD m = if m = n then v else q.q.getLsbD m)
  ∧ (∀ s t tm q part st w, sget s.teams t = some tm → tm.seq = some q → debugStopped s tm.core 4 = true → part < 4 → st < 2 →
    ∃ u tm', exec (.debugRegisterWrite (.stage t part st w)) s = .next u ∧ sget u.teams t = some tm' ∧
      stageOf tm' (2 * part + st) = debugStage (w.map fun x => { planes := x.1, scales := x.2 }) (stageOf tm (2 * part + st)))
  ∧ (∀ s t tm q bank slot w, sget s.teams t = some tm → tm.seq = some q → debugStopped s tm.core 4 = true → bank < 4 → slot < 4096 →
    ∃ u tm', exec (.debugRegisterWrite (.bankEntry t bank slot w)) s = .next u ∧ sget u.teams t = some tm' ∧
      sget (bankOf tm' bank).ents slot = entryFrom w ∧
      ∀ n, n ≠ slot → sget (bankOf tm' bank).ents n = sget (bankOf tm bank).ents n)
  ∧ (∀ s t tm q bank w, sget s.teams t = some tm → tm.seq = some q → debugStopped s tm.core 4 = true → bank < 4 →
    ∃ u tm', exec (.debugRegisterWrite (.bankStatus t bank w)) s = .next u ∧ sget u.teams t = some tm' ∧
      bankStatus (bankOf tm' bank) = w &&& BitVec.ofNat 64 (2 ^ 55 - 2 ^ 37 + 2 ^ 26 - 1) ∧ (bankOf tm' bank).ents = (bankOf tm bank).ents)
  ∧ (∀ s ps, (∀ e ∈ teamsOf s ps, sget s.teams e.1 = some e.2 ∧ (getDie s (coreDie e.2.core)).fenced = true ∧
      quiesced s e.1 e.2 = true) →
    (∀ e ∈ s.contexts, e.2.part ∈ ps → ∀ v ∈ e.2.views, v.2.queued = []) →
    ∃ u cp, exec (.checkpoint ps) s = .next u ∧ u.keeping = (cp :: s.keeping).take 2 ∧ cp.covers = ps ∧ cp.mem = s.mem ∧
      cp.contexts = s.contexts ∧ cp.queues = s.queues ∧ cp.grids = s.grids ∧ cp.images = s.images ∧ cp.teams = teamsOf s ps ∧
      (∀ p q, sget s.parts p = some q → sget cp.parts p = some (if p ∈ ps then { q with paused := false } else q)) ∧
      cp.held = s.coal.filter (fun h => ((teamsOf s ps).map Prod.fst).contains h.team) ∧
      u.journal = (s.journal.filter fun j => !journalOf s ps j) ∧ u.mem = s.mem ∧
      ∀ p ∈ ps, ∀ q, sget u.parts p = some q → q.paused = false)

/-- R375 to R378, R382: HOST_CHANNEL_ACCESS of a channel in service and FABRIC_INBOUND_REQUEST to a context that is open to it
answer the bytes at the home or write them there; a failing access freezes the channel (a read then answers all ones), a
failing fabric request is a violation, and a request that may not enter counts as failed. While a replay into the context's
partition goes on, writes wait behind it (the model's choice: log 50). -/
def Obligations.OutsideAccesses : Prop :=
  (∀ s ch c va n, sget s.channels ch = some c → c.frozen = false → replaying s c.ctx = false →
    (∀ bs, cpRead s c.ctx va.toNat n = .ok bs → ∃ u, exec (.hostChannelAccess ch (.read va n)) s = .next u ∧
      u.replies = s.replies ++ [bs] ∧ u.mem = s.mem) ∧
    (∀ e, cpRead s c.ctx va.toNat n = .error e → ∃ u, exec (.hostChannelAccess ch (.read va n)) s = .next u ∧
      u.replies = s.replies ++ [List.replicate n 255] ∧ (sget u.channels ch).map (·.frozen) = some true))
  ∧ (∀ s ch c va bs, sget s.channels ch = some c → c.frozen = false → replaying s c.ctx = false →
    (∀ t, extWrite s c.ctx va bs = .ok t → exec (.hostChannelAccess ch (.write va bs)) s = .next
      (journalPut t (.host ch c.ctx (.write va bs)))) ∧
    (∀ e, extWrite s c.ctx va bs = .error e → exec (.hostChannelAccess ch (.write va bs)) s = .next (freezeChannel s ch c e va)))
  ∧ (∀ s ch c va bs, sget s.channels ch = some c → c.frozen = false → replaying s c.ctx = true →
    exec (.hostChannelAccess ch (.write va bs)) s = .next { s with replay := s.replay ++ [.host ch c.ctx (.write va bs)] })
  ∧ (∀ s pkg ctx c va n, s.identity.pkgid ≠ 0 → sget s.contexts ctx = some c → c.fabric = true → replaying s ctx = false →
    (∀ bs, cpRead s ctx va.toNat n = .ok bs →
      exec (.fabricInboundRequest pkg ctx (.read va n)) s = .next { s with replies := s.replies ++ [bs] }) ∧
    (∀ e, cpRead s ctx va.toNat n = .error e →
      exec (.fabricInboundRequest pkg ctx (.read va n)) s = .next (remoteViolation s ctx e va)))
  ∧ (∀ s pkg ctx c va bs, s.identity.pkgid ≠ 0 → sget s.contexts ctx = some c → c.fabric = true → replaying s ctx = false →
    (∀ t, extWrite s ctx va bs = .ok t →
      exec (.fabricInboundRequest pkg ctx (.write va bs)) s = .next (journalPut t (.fabric pkg ctx (.write va bs)))) ∧
    (∀ e, extWrite s ctx va bs = .error e →
      exec (.fabricInboundRequest pkg ctx (.write va bs)) s = .next (remoteViolation s ctx e va)))
  ∧ (∀ s pkg ctx a, s.identity.pkgid = 0 ∨ (∀ c, sget s.contexts ctx = some c → c.fabric = false) →
    exec (.fabricInboundRequest pkg ctx a) s = .next
      { s with counters := { s.counters with remoteFail := countUp s.counters.remoteFail } })
  ∧ (∀ s ctx (va : DWord) bs ps, cpPlaces s ctx true va.toNat bs.length = .ok ps → bs ≠ [] →
    (va.toNat + bs.length - 1) / 65536 = va.toNat / 65536 →
    ∃ t, extWrite s ctx va bs = .ok t ∧ (∀ i b, bs[i]? = some b → memByte t.mem ((placeAt ps va.toNat).pa + i) = b) ∧
      ∀ a, ¬((placeAt ps va.toNat).pa ≤ a ∧ a < (placeAt ps va.toNat).pa + bs.length) → memByte t.mem a = memByte s.mem a)

/-- R375, R379, R380: CORRECTED_ERROR counts in its counter and for its unit, FLIT_CRC_RETRY in its counter; LINK_PORT_FAIL
takes the port out of service and out of every route; SPARE_ACTIVATION brings a spare in for a worn unit that is idle, which
is then counted from 0; UNCORRECTABLE_ERROR of a line poisons it, and of a die's state or of a read recovers the partitions
concerned; each counts in UE. Which events UE counts is log 55; the new count from 0 and the idle unit are log 70. R379, R382,
R384: DIE_FAULT_REPLAY fences the die, takes its clusters out of every partition and out of CLMASK; without a checkpoint
nothing rolls back (log 59); with one that covers every partition, all of which roll back to it, memory is the checkpoint's.
JOURNAL_FULL takes a checkpoint of every partition. CRITICAL_TEMPERATURE without time for a checkpoint stops the package. -/
def Obligations.ErrorsAndFaults : Prop :=
  ((∀ s r, ∃ u, exec (.correctedError r) s = .next u ∧ (∀ w, ceCount u w = ceCount s w + if w = r.unit then 1 else 0) ∧
     u = { s with ceUnits := u.ceUnits, counters := match r.kind with
       | .sram => { s.counters with ceSram := countUp s.counters.ceSram }
       | .dram => { s.counters with ceDram := countUp s.counters.ceDram }
       | .link => { s.counters with ceLink := countUp s.counters.ceLink } })
   ∧ (∀ s port, exec (.flitCrcRetry port) s = .next
       { s with counters := { s.counters with ceLink := countUp s.counters.ceLink } })
   ∧ (∀ s port, ∃ u, exec (.linkPortFail port) s = .next u ∧ port ∈ u.deadPorts ∧ (∀ r ∈ u.routes, r.2 ≠ port) ∧
       (∀ r ∈ s.routes, r.2 ≠ port → r ∈ u.routes) ∧ u.counters = { s.counters with ue := countUp s.counters.ue } ∧
       { u with deadPorts := s.deadPorts, routes := s.routes, counters := s.counters } = s)
   ∧ (∀ s v, (Config.worn v (ceCount s v) = true → unitIdle s v = true → ∃ u, exec (.spareActivation v) s = .next u ∧
       u.spares = s.spares ++ [v] ∧ (∀ w, ceCount u w = if w = v then 0 else ceCount s w) ∧
       { u with spares := s.spares, ceUnits := s.ceUnits } = s) ∧
     (Config.worn v (ceCount s v) = false ∨ unitIdle s v = false → exec (.spareActivation v) s = .next s))
   ∧ (∀ s pa, lineOf pa ∉ s.poison → exec (.uncorrectableError (.line pa)) s = .next
       { s with counters := { s.counters with ue := countUp s.counters.ue }, poison := lineOf pa :: s.poison })
   ∧ (∀ s die, exec (.uncorrectableError (.dieState die)) s = .next (recoverParts (countUe s) (partsOn s die)))
   ∧ (∀ s p, exec (.uncorrectableError (.read p)) s = .next (recoverParts (countUe s) [p]))
   ∧ (∀ n : DWord, countUp n = if n = BitVec.allOnes 64 then n else n + 1))
  ∧ ((∀ s die, s.keeping = [] → s.replay = [] → ∃ u, exec (.dieFaultReplay die) s = .next u ∧ (getDie u die).fenced = true ∧
     (∀ e ∈ u.parts, ∀ c ∈ e.2.clusters, clusterDie c ≠ die) ∧
     (∀ c < 36, u.identity.clmask.getLsbD c = (s.identity.clmask.getLsbD c && clusterDie c ≠ die)) ∧ u.mem = s.mem ∧ u.teams = s.teams)
   ∧ (∀ s die cp rest, s.keeping = cp :: rest → s.parts ≠ [] → partsOn s die = s.parts.map Prod.fst →
     (∀ e ∈ s.parts, e.1 ∈ cp.covers) → (s.journal.filter fun j => !isPacket j) = [] → s.replay = [] →
     ∃ u, exec (.dieFaultReplay die) s = .next u ∧ ∀ a, memByte u.mem a = memByte cp.mem a)
   ∧ (∀ s, exec .journalFull s = .next (checkpointStep s (s.parts.map Prod.fst)))
   ∧ (∀ s, exec (.criticalTemperature false) s = .next { s with stopped := true }))

/-- R370, R372, R373: DIRECTORY_REQUEST for a line makes its entry hold the requester: a read adds the cluster and the die as
a sharer, and ownership leaves the owner alone, where the die is not the home and has a remote-data cache. A request that the
line's entry already permits changes only the time of its use; one that a region's entry does not permit splits it down to the
line, which takes the new state, and the halves split off keep the old one. Where the snoop filter is full, the entry used
least recently goes, which SF_BACKINV counts. DIRECTORY_MERGE joins two identical halves that have been idle for 1,048,576
cycles. -/
def Obligations.DirectoryTracksCopies : Prop :=
  (∀ s pa d c, dirAt s pa = none → (dirOf s (dieOf pa)).length < 262144 →
    ∃ u n e, exec (.directoryRequest pa (.read d c)) s = .next u ∧ dirAt u pa = some (n, e) ∧ c ∈ e.l1s ∧
      (d ≠ dieOf pa → (getDie s d).rdcCfg ≠ 0 → d ∈ e.sharers) ∧ u.mem = s.mem)
  ∧ (∀ s pa d, dirAt s pa = none → (dirOf s (dieOf pa)).length < 262144 →
    ∃ u n e, exec (.directoryRequest pa (.own d)) s = .next u ∧ dirAt u pa = some (n, e) ∧
      e.owner = (if d = dieOf pa ∨ (getDie s d).rdcCfg = 0 then none else some d) ∧ e.sharers = [])
  ∧ (∀ s pa d c n e, DirSound s → dirAt s pa = some (n, e) → c ∈ e.l1s →
    d = dieOf pa ∨ (getDie s d).rdcCfg = 0 ∨ e.owner = some d ∨ d ∈ e.sharers →
    ∃ u, exec (.directoryRequest pa (.read d c)) s = .next u ∧ u = { s with dir := u.dir } ∧
      dirAt u pa = some (n, { e with used := s.cycle }) ∧ ∀ m, m ≠ n → sget u.dir m = sget s.dir m)
  ∧ (∀ s pa d n e, DirSound s → dirAt s pa = some (n, e) → d ≠ dieOf pa → (getDie s d).rdcCfg ≠ 0 → e.owner ≠ some d →
    dirEmpty e = false → (dirOf s (dieOf pa)).length + 9 ≤ 262144 →
    ∃ u m l, exec (.directoryRequest pa (.own d)) s = .next u ∧ dirAt u pa = some (m, l) ∧ l.base = pa / 128 * 128 ∧ l.size = 128 ∧
      l.owner = some d ∧ l.sharers = [] ∧ (∀ c, c ∈ l.l1s ↔ c ∈ e.l1s ∧ clusterDie c = d) ∧
      ∀ b, e.base ≤ b → b < e.base + e.size → b / 128 ≠ pa / 128 → ∃ m f, dirAt u b = some (m, f) ∧
        f.owner = e.owner ∧ f.sharers = e.sharers ∧ f.l1s = e.l1s)
  ∧ (∀ s pa d c n e, DirSound s → dirAt s pa = some (n, e) → c ∉ e.l1s → dirEmpty e = false →
    (dirOf s (dieOf pa)).length + 9 ≤ 262144 →
    ∃ u m l, exec (.directoryRequest pa (.read d c)) s = .next u ∧ dirAt u pa = some (m, l) ∧ l.base = pa / 128 * 128 ∧
      l.size = 128 ∧ l.owner = e.owner ∧ l.l1s = e.l1s ++ [c] ∧
      (∀ x, x ∈ l.sharers ↔ x ∈ e.sharers ∨ (x = d ∧ d ≠ dieOf pa ∧ (getDie s d).rdcCfg ≠ 0 ∧ e.owner ≠ some d)) ∧
      ∀ b, e.base ≤ b → b < e.base + e.size → b / 128 ≠ pa / 128 → ∃ m f, dirAt u b = some (m, f) ∧
        f.owner = e.owner ∧ f.sharers = e.sharers ∧ f.l1s = e.l1s)
  ∧ (∀ s pa d c, DirSound s → dirAt s pa = none → 262144 ≤ (dirOf s (dieOf pa)).length →
    ∃ u n v m e, exec (.directoryRequest pa (.read d c)) s = .next u ∧ (n, v) ∈ dirOf s (dieOf pa) ∧
      (∀ x ∈ dirOf s (dieOf pa), v.used ≤ x.2.used) ∧ sget u.dir n = none ∧
      u.counters = { s.counters with sfBackinv := countUp s.counters.sfBackinv } ∧ dirAt u pa = some (m, e) ∧ c ∈ e.l1s)
  ∧ (∀ s quad base size a b, sget s.dir (dirKey base quad) = some a → sget s.dir (dirKey (base + size) quad) = some b →
    a.size = size → b.size = size → 0 < size → a.owner = b.owner → (∀ d, d ∈ a.sharers ↔ d ∈ b.sharers) → (∀ c, c ∈ a.l1s ↔ c ∈ b.l1s) → base % (2 * size) = 0 →
    2 * size ≤ 65536 → max a.used b.used + 1048576 ≤ s.cycle →
    ∃ u, exec (.directoryMerge quad base size) s = .next u ∧ sget u.dir (dirKey (base + size) quad) = none ∧
      (sget u.dir (dirKey base quad)).map (fun e => (e.size, e.owner, e.sharers)) = some (2 * size, a.owner, a.sharers))

/-- R174, R360, R361, R383, R384: FIRMWARE_VERIFY of an image whose signature of 29,792 bytes verifies measures it with
SHA-256 and, with the last one, ends the bring-up with the identity record written; another image leaves all as it is.
CORE_RESET of an empty core resets it; NEAR_ARRAY_REBALANCE at an interval's end moves the boundary by at most 64 KiB; SAMPLE
that is due goes on to the next slot and writes what R360 gives for the slot; TRACE_SYNC of a core that traces writes a SYNC
at its start and after every 4,096 packets. SAMPLE's slot and interval are log 61, the end of bring-up with the last image is
log 64, and SHA-256's function is log 86. -/
def Obligations.CoresAndFirmware : Prop :=
  (∀ s image sig, sig.length = 29792 → Config.slhVerify image sig = true →
    (s.bringUp = true → max 1 Config.fwImages ≤ s.measures.length + 1 → ∃ u, exec (.firmwareVerify image sig) s = .next u ∧
      u.bringUp = false ∧ u.measures = s.measures ++ [sha256 image] ∧ u.identity.pkgid = s.identity.pkgid ∧
      0x0402 ≤ u.identity.fwbase.toNat ∧ u.identity.step = 0xB0 ∧ u.identity.magic = 0x49584449 ∧
      ∀ c < 36, (getDie s (clusterDie c)).fenced = true → u.identity.clmask.getLsbD c = false) ∧
    (s.bringUp = false ∨ s.measures.length + 1 < max 1 Config.fwImages →
      exec (.firmwareVerify image sig) s = .next { s with measures := s.measures ++ [sha256 image] }))
  ∧ (∀ s image sig, sig.length ≠ 29792 ∨ Config.slhVerify image sig = false → exec (.firmwareVerify image sig) s = .next s)
  ∧ (∀ s core, teamsOn s core = [] → ∃ u, exec (.coreReset core) s = .next u ∧ getCore u core = { coreDef with cycBase := s.cycle } ∧
    (∀ n, n ≠ core → getCore u n = getCore s n) ∧ (∀ e ∈ u.l1, e.1 % 256 ≠ core) ∧ sget u.tlb core = none ∧ u.mem = s.mem)
  ∧ (∀ s core, (getCore s core).rebal < (s.cycle - (getCore s core).cycBase) / 65536 →
    ∃ u, exec (.nearArrayRebalance core) s = .next u ∧ (getCore u core).rebal = (getCore s core).rebal + 1 ∧
      (getCore u core).l1 ≤ (getCore s core).l1 + 64 ∧ (getCore s core).l1 ≤ (getCore u core).l1 + 64)
  ∧ (∀ s core part, (getCore s core).trace.sample = true →
    (sgetD (getCore s core).sel part default).sample / 16 < (s.cycle - (getCore s core).cycBase) / 2 ^ (getCore s core).trace.k →
    let sel := sgetD (getCore s core).sel part default
    let s1 := modCore s core fun c => { c with sel := sset c.sel part { sel with
      sample := 16 * ((s.cycle - (getCore s core).cycBase) / 2 ^ (getCore s core).trace.k) + (sel.sample % 16 + 1) % 16 } }
    exec (.sample core part) s = .next (match sampleOf s1 core part (sel.sample % 16) with
      | some b => tracePut s1 core b
      | none => s1))
  ∧ (∀ s core part phys tm g, physGroup s core part phys = some (tm, g) →
    sampleOf s core part phys = some (.sample (timeOf s) (16 * part + phys) tm.tidx
      (if g.clause.isNone then g.pc else g.pc + 8 * (g.wix + 1)) (slotLeaf s core part) g.clause.isNone false))
  ∧ (∀ s core part phys pc, physGroup s core part phys = none → sget (getCore s core).lastExit (16 * part + phys) = some pc →
    ∃ t, sampleOf s core part phys = some (.sample (timeOf s) (16 * part + phys) t pc (slotLeaf s core part) false true))
  ∧ (∀ s core part phys, physGroup s core part phys = none → sget (getCore s core).lastExit (16 * part + phys) = none →
    sampleOf s core part phys = none)
  ∧ (∀ s core, let tr := (getCore s core).trace
    (tr.on = true ∨ tr.sample = true → tr.synced = false ∨ 4096 ≤ tr.since → exec (.traceSync core) s = .next (tracePut s core
      (.sync (timeOf s) (syncGroups s core) ((teamsOn s core).map fun e => (e.2.tidx, e.2.front))))) ∧
    ((tr.on = false ∧ tr.sample = false) ∨ (tr.synced = true ∧ tr.since < 4096) → exec (.traceSync core) s = .next s))
end

