-- ==== Sys2Proof/Laws/State.lean ====
section
/-! SUPPORT. What each update of a state or of a team leaves alone, field by field. -/

namespace Sys2Proof.Laws

open Sys2Proof.Machine

/-! ## modTeam -/

@[simp] theorem modTeam_mem (s : State) (t : Nat) (f : Team → Team) : (modTeam s t f).mem = s.mem := rfl
@[simp] theorem modTeam_poison (s : State) (t : Nat) (f : Team → Team) : (modTeam s t f).poison = s.poison := rfl
@[simp] theorem modTeam_cycle (s : State) (t : Nat) (f : Team → Team) : (modTeam s t f).cycle = s.cycle := rfl
@[simp] theorem modTeam_issuer (s : State) (t : Nat) (f : Team → Team) : (modTeam s t f).issuer = s.issuer := rfl
@[simp] theorem modTeam_agenda (s : State) (t : Nat) (f : Team → Team) : (modTeam s t f).agenda = s.agenda := rfl
@[simp] theorem modTeam_freeCtr (s : State) (t : Nat) (f : Team → Team) : (modTeam s t f).freeCtr = s.freeCtr := rfl
@[simp] theorem modTeam_fairIdx (s : State) (t : Nat) (f : Team → Team) : (modTeam s t f).fairIdx = s.fairIdx := rfl
@[simp] theorem modTeam_fairGap (s : State) (t : Nat) (f : Team → Team) : (modTeam s t f).fairGap = s.fairGap := rfl
@[simp] theorem modTeam_nextTeam (s : State) (t : Nat) (f : Team → Team) : (modTeam s t f).nextTeam = s.nextTeam := rfl
@[simp] theorem modTeam_ops (s : State) (t : Nat) (f : Team → Team) : (modTeam s t f).ops = s.ops := rfl
@[simp] theorem modTeam_nextOp (s : State) (t : Nat) (f : Team → Team) : (modTeam s t f).nextOp = s.nextOp := rfl
@[simp] theorem modTeam_batches (s : State) (t : Nat) (f : Team → Team) : (modTeam s t f).batches = s.batches := rfl
@[simp] theorem modTeam_nextBatch (s : State) (t : Nat) (f : Team → Team) : (modTeam s t f).nextBatch = s.nextBatch := rfl
@[simp] theorem modTeam_frozen (s : State) (t : Nat) (f : Team → Team) : (modTeam s t f).frozen = s.frozen := rfl
@[simp] theorem modTeam_grids (s : State) (t : Nat) (f : Team → Team) : (modTeam s t f).grids = s.grids := rfl
@[simp] theorem modTeam_nextGrid (s : State) (t : Nat) (f : Team → Team) : (modTeam s t f).nextGrid = s.nextGrid := rfl
@[simp] theorem modTeam_contexts (s : State) (t : Nat) (f : Team → Team) : (modTeam s t f).contexts = s.contexts := rfl
@[simp] theorem modTeam_parts (s : State) (t : Nat) (f : Team → Team) : (modTeam s t f).parts = s.parts := rfl
@[simp] theorem modTeam_queues (s : State) (t : Nat) (f : Team → Team) : (modTeam s t f).queues = s.queues := rfl
@[simp] theorem modTeam_nextRec (s : State) (t : Nat) (f : Team → Team) : (modTeam s t f).nextRec = s.nextRec := rfl
@[simp] theorem modTeam_served (s : State) (t : Nat) (f : Team → Team) : (modTeam s t f).served = s.served := rfl
@[simp] theorem modTeam_cores (s : State) (t : Nat) (f : Team → Team) : (modTeam s t f).cores = s.cores := rfl
@[simp] theorem modTeam_coal (s : State) (t : Nat) (f : Team → Team) : (modTeam s t f).coal = s.coal := rfl
@[simp] theorem modTeam_l1 (s : State) (t : Nat) (f : Team → Team) : (modTeam s t f).l1 = s.l1 := rfl
@[simp] theorem modTeam_mixed (s : State) (t : Nat) (f : Team → Team) : (modTeam s t f).mixed = s.mixed := rfl
@[simp] theorem modTeam_dies (s : State) (t : Nat) (f : Team → Team) : (modTeam s t f).dies = s.dies := rfl
@[simp] theorem modTeam_dir (s : State) (t : Nat) (f : Team → Team) : (modTeam s t f).dir = s.dir := rfl
@[simp] theorem modTeam_tlb (s : State) (t : Nat) (f : Team → Team) : (modTeam s t f).tlb = s.tlb := rfl
@[simp] theorem modTeam_counters (s : State) (t : Nat) (f : Team → Team) : (modTeam s t f).counters = s.counters := rfl
@[simp] theorem modTeam_eccost (s : State) (t : Nat) (f : Team → Team) : (modTeam s t f).eccost = s.eccost := rfl
@[simp] theorem modTeam_images (s : State) (t : Nat) (f : Team → Team) : (modTeam s t f).images = s.images := rfl
@[simp] theorem modTeam_channels (s : State) (t : Nat) (f : Team → Team) : (modTeam s t f).channels = s.channels := rfl
@[simp] theorem modTeam_irqs (s : State) (t : Nat) (f : Team → Team) : (modTeam s t f).irqs = s.irqs := rfl
@[simp] theorem modTeam_replies (s : State) (t : Nat) (f : Team → Team) : (modTeam s t f).replies = s.replies := rfl
@[simp] theorem modTeam_routes (s : State) (t : Nat) (f : Team → Team) : (modTeam s t f).routes = s.routes := rfl
@[simp] theorem modTeam_deadPorts (s : State) (t : Nat) (f : Team → Team) : (modTeam s t f).deadPorts = s.deadPorts := rfl
@[simp] theorem modTeam_identity (s : State) (t : Nat) (f : Team → Team) : (modTeam s t f).identity = s.identity := rfl
@[simp] theorem modTeam_bringUp (s : State) (t : Nat) (f : Team → Team) : (modTeam s t f).bringUp = s.bringUp := rfl
@[simp] theorem modTeam_measures (s : State) (t : Nat) (f : Team → Team) : (modTeam s t f).measures = s.measures := rfl
@[simp] theorem modTeam_report (s : State) (t : Nat) (f : Team → Team) : (modTeam s t f).report = s.report := rfl
@[simp] theorem modTeam_ceUnits (s : State) (t : Nat) (f : Team → Team) : (modTeam s t f).ceUnits = s.ceUnits := rfl
@[simp] theorem modTeam_spares (s : State) (t : Nat) (f : Team → Team) : (modTeam s t f).spares = s.spares := rfl
@[simp] theorem modTeam_keeping (s : State) (t : Nat) (f : Team → Team) : (modTeam s t f).keeping = s.keeping := rfl
@[simp] theorem modTeam_journal (s : State) (t : Nat) (f : Team → Team) : (modTeam s t f).journal = s.journal := rfl
@[simp] theorem modTeam_replay (s : State) (t : Nat) (f : Team → Team) : (modTeam s t f).replay = s.replay := rfl
@[simp] theorem modTeam_shared (s : State) (t : Nat) (f : Team → Team) : (modTeam s t f).shared = s.shared := rfl
@[simp] theorem modTeam_stopped (s : State) (t : Nat) (f : Team → Team) : (modTeam s t f).stopped = s.stopped := rfl

/-! ## modCtx -/

@[simp] theorem modCtx_mem (s : State) (c : Nat) (f : Context → Context) : (modCtx s c f).mem = s.mem := rfl
@[simp] theorem modCtx_poison (s : State) (c : Nat) (f : Context → Context) : (modCtx s c f).poison = s.poison := rfl
@[simp] theorem modCtx_cycle (s : State) (c : Nat) (f : Context → Context) : (modCtx s c f).cycle = s.cycle := rfl
@[simp] theorem modCtx_issuer (s : State) (c : Nat) (f : Context → Context) : (modCtx s c f).issuer = s.issuer := rfl
@[simp] theorem modCtx_agenda (s : State) (c : Nat) (f : Context → Context) : (modCtx s c f).agenda = s.agenda := rfl
@[simp] theorem modCtx_freeCtr (s : State) (c : Nat) (f : Context → Context) : (modCtx s c f).freeCtr = s.freeCtr := rfl
@[simp] theorem modCtx_fairIdx (s : State) (c : Nat) (f : Context → Context) : (modCtx s c f).fairIdx = s.fairIdx := rfl
@[simp] theorem modCtx_fairGap (s : State) (c : Nat) (f : Context → Context) : (modCtx s c f).fairGap = s.fairGap := rfl
@[simp] theorem modCtx_teams (s : State) (c : Nat) (f : Context → Context) : (modCtx s c f).teams = s.teams := rfl
@[simp] theorem modCtx_nextTeam (s : State) (c : Nat) (f : Context → Context) : (modCtx s c f).nextTeam = s.nextTeam := rfl
@[simp] theorem modCtx_ops (s : State) (c : Nat) (f : Context → Context) : (modCtx s c f).ops = s.ops := rfl
@[simp] theorem modCtx_nextOp (s : State) (c : Nat) (f : Context → Context) : (modCtx s c f).nextOp = s.nextOp := rfl
@[simp] theorem modCtx_batches (s : State) (c : Nat) (f : Context → Context) : (modCtx s c f).batches = s.batches := rfl
@[simp] theorem modCtx_nextBatch (s : State) (c : Nat) (f : Context → Context) : (modCtx s c f).nextBatch = s.nextBatch := rfl
@[simp] theorem modCtx_frozen (s : State) (c : Nat) (f : Context → Context) : (modCtx s c f).frozen = s.frozen := rfl
@[simp] theorem modCtx_grids (s : State) (c : Nat) (f : Context → Context) : (modCtx s c f).grids = s.grids := rfl
@[simp] theorem modCtx_nextGrid (s : State) (c : Nat) (f : Context → Context) : (modCtx s c f).nextGrid = s.nextGrid := rfl
@[simp] theorem modCtx_parts (s : State) (c : Nat) (f : Context → Context) : (modCtx s c f).parts = s.parts := rfl
@[simp] theorem modCtx_queues (s : State) (c : Nat) (f : Context → Context) : (modCtx s c f).queues = s.queues := rfl
@[simp] theorem modCtx_nextRec (s : State) (c : Nat) (f : Context → Context) : (modCtx s c f).nextRec = s.nextRec := rfl
@[simp] theorem modCtx_served (s : State) (c : Nat) (f : Context → Context) : (modCtx s c f).served = s.served := rfl
@[simp] theorem modCtx_cores (s : State) (c : Nat) (f : Context → Context) : (modCtx s c f).cores = s.cores := rfl
@[simp] theorem modCtx_coal (s : State) (c : Nat) (f : Context → Context) : (modCtx s c f).coal = s.coal := rfl
@[simp] theorem modCtx_l1 (s : State) (c : Nat) (f : Context → Context) : (modCtx s c f).l1 = s.l1 := rfl
@[simp] theorem modCtx_mixed (s : State) (c : Nat) (f : Context → Context) : (modCtx s c f).mixed = s.mixed := rfl
@[simp] theorem modCtx_dies (s : State) (c : Nat) (f : Context → Context) : (modCtx s c f).dies = s.dies := rfl
@[simp] theorem modCtx_dir (s : State) (c : Nat) (f : Context → Context) : (modCtx s c f).dir = s.dir := rfl
@[simp] theorem modCtx_tlb (s : State) (c : Nat) (f : Context → Context) : (modCtx s c f).tlb = s.tlb := rfl
@[simp] theorem modCtx_counters (s : State) (c : Nat) (f : Context → Context) : (modCtx s c f).counters = s.counters := rfl
@[simp] theorem modCtx_eccost (s : State) (c : Nat) (f : Context → Context) : (modCtx s c f).eccost = s.eccost := rfl
@[simp] theorem modCtx_images (s : State) (c : Nat) (f : Context → Context) : (modCtx s c f).images = s.images := rfl
@[simp] theorem modCtx_channels (s : State) (c : Nat) (f : Context → Context) : (modCtx s c f).channels = s.channels := rfl
@[simp] theorem modCtx_irqs (s : State) (c : Nat) (f : Context → Context) : (modCtx s c f).irqs = s.irqs := rfl
@[simp] theorem modCtx_replies (s : State) (c : Nat) (f : Context → Context) : (modCtx s c f).replies = s.replies := rfl
@[simp] theorem modCtx_routes (s : State) (c : Nat) (f : Context → Context) : (modCtx s c f).routes = s.routes := rfl
@[simp] theorem modCtx_deadPorts (s : State) (c : Nat) (f : Context → Context) : (modCtx s c f).deadPorts = s.deadPorts := rfl
@[simp] theorem modCtx_identity (s : State) (c : Nat) (f : Context → Context) : (modCtx s c f).identity = s.identity := rfl
@[simp] theorem modCtx_bringUp (s : State) (c : Nat) (f : Context → Context) : (modCtx s c f).bringUp = s.bringUp := rfl
@[simp] theorem modCtx_measures (s : State) (c : Nat) (f : Context → Context) : (modCtx s c f).measures = s.measures := rfl
@[simp] theorem modCtx_report (s : State) (c : Nat) (f : Context → Context) : (modCtx s c f).report = s.report := rfl
@[simp] theorem modCtx_ceUnits (s : State) (c : Nat) (f : Context → Context) : (modCtx s c f).ceUnits = s.ceUnits := rfl
@[simp] theorem modCtx_spares (s : State) (c : Nat) (f : Context → Context) : (modCtx s c f).spares = s.spares := rfl
@[simp] theorem modCtx_keeping (s : State) (c : Nat) (f : Context → Context) : (modCtx s c f).keeping = s.keeping := rfl
@[simp] theorem modCtx_journal (s : State) (c : Nat) (f : Context → Context) : (modCtx s c f).journal = s.journal := rfl
@[simp] theorem modCtx_replay (s : State) (c : Nat) (f : Context → Context) : (modCtx s c f).replay = s.replay := rfl
@[simp] theorem modCtx_shared (s : State) (c : Nat) (f : Context → Context) : (modCtx s c f).shared = s.shared := rfl
@[simp] theorem modCtx_stopped (s : State) (c : Nat) (f : Context → Context) : (modCtx s c f).stopped = s.stopped := rfl

/-! ## modPart -/

@[simp] theorem modPart_mem (s : State) (p : Nat) (f : Partition → Partition) : (modPart s p f).mem = s.mem := rfl
@[simp] theorem modPart_poison (s : State) (p : Nat) (f : Partition → Partition) : (modPart s p f).poison = s.poison := rfl
@[simp] theorem modPart_cycle (s : State) (p : Nat) (f : Partition → Partition) : (modPart s p f).cycle = s.cycle := rfl
@[simp] theorem modPart_issuer (s : State) (p : Nat) (f : Partition → Partition) : (modPart s p f).issuer = s.issuer := rfl
@[simp] theorem modPart_agenda (s : State) (p : Nat) (f : Partition → Partition) : (modPart s p f).agenda = s.agenda := rfl
@[simp] theorem modPart_freeCtr (s : State) (p : Nat) (f : Partition → Partition) : (modPart s p f).freeCtr = s.freeCtr := rfl
@[simp] theorem modPart_fairIdx (s : State) (p : Nat) (f : Partition → Partition) : (modPart s p f).fairIdx = s.fairIdx := rfl
@[simp] theorem modPart_fairGap (s : State) (p : Nat) (f : Partition → Partition) : (modPart s p f).fairGap = s.fairGap := rfl
@[simp] theorem modPart_teams (s : State) (p : Nat) (f : Partition → Partition) : (modPart s p f).teams = s.teams := rfl
@[simp] theorem modPart_nextTeam (s : State) (p : Nat) (f : Partition → Partition) : (modPart s p f).nextTeam = s.nextTeam := rfl
@[simp] theorem modPart_ops (s : State) (p : Nat) (f : Partition → Partition) : (modPart s p f).ops = s.ops := rfl
@[simp] theorem modPart_nextOp (s : State) (p : Nat) (f : Partition → Partition) : (modPart s p f).nextOp = s.nextOp := rfl
@[simp] theorem modPart_batches (s : State) (p : Nat) (f : Partition → Partition) : (modPart s p f).batches = s.batches := rfl
@[simp] theorem modPart_nextBatch (s : State) (p : Nat) (f : Partition → Partition) : (modPart s p f).nextBatch = s.nextBatch := rfl
@[simp] theorem modPart_frozen (s : State) (p : Nat) (f : Partition → Partition) : (modPart s p f).frozen = s.frozen := rfl
@[simp] theorem modPart_grids (s : State) (p : Nat) (f : Partition → Partition) : (modPart s p f).grids = s.grids := rfl
@[simp] theorem modPart_nextGrid (s : State) (p : Nat) (f : Partition → Partition) : (modPart s p f).nextGrid = s.nextGrid := rfl
@[simp] theorem modPart_contexts (s : State) (p : Nat) (f : Partition → Partition) : (modPart s p f).contexts = s.contexts := rfl
@[simp] theorem modPart_queues (s : State) (p : Nat) (f : Partition → Partition) : (modPart s p f).queues = s.queues := rfl
@[simp] theorem modPart_nextRec (s : State) (p : Nat) (f : Partition → Partition) : (modPart s p f).nextRec = s.nextRec := rfl
@[simp] theorem modPart_served (s : State) (p : Nat) (f : Partition → Partition) : (modPart s p f).served = s.served := rfl
@[simp] theorem modPart_cores (s : State) (p : Nat) (f : Partition → Partition) : (modPart s p f).cores = s.cores := rfl
@[simp] theorem modPart_coal (s : State) (p : Nat) (f : Partition → Partition) : (modPart s p f).coal = s.coal := rfl
@[simp] theorem modPart_l1 (s : State) (p : Nat) (f : Partition → Partition) : (modPart s p f).l1 = s.l1 := rfl
@[simp] theorem modPart_mixed (s : State) (p : Nat) (f : Partition → Partition) : (modPart s p f).mixed = s.mixed := rfl
@[simp] theorem modPart_dies (s : State) (p : Nat) (f : Partition → Partition) : (modPart s p f).dies = s.dies := rfl
@[simp] theorem modPart_dir (s : State) (p : Nat) (f : Partition → Partition) : (modPart s p f).dir = s.dir := rfl
@[simp] theorem modPart_tlb (s : State) (p : Nat) (f : Partition → Partition) : (modPart s p f).tlb = s.tlb := rfl
@[simp] theorem modPart_counters (s : State) (p : Nat) (f : Partition → Partition) : (modPart s p f).counters = s.counters := rfl
@[simp] theorem modPart_eccost (s : State) (p : Nat) (f : Partition → Partition) : (modPart s p f).eccost = s.eccost := rfl
@[simp] theorem modPart_images (s : State) (p : Nat) (f : Partition → Partition) : (modPart s p f).images = s.images := rfl
@[simp] theorem modPart_channels (s : State) (p : Nat) (f : Partition → Partition) : (modPart s p f).channels = s.channels := rfl
@[simp] theorem modPart_irqs (s : State) (p : Nat) (f : Partition → Partition) : (modPart s p f).irqs = s.irqs := rfl
@[simp] theorem modPart_replies (s : State) (p : Nat) (f : Partition → Partition) : (modPart s p f).replies = s.replies := rfl
@[simp] theorem modPart_routes (s : State) (p : Nat) (f : Partition → Partition) : (modPart s p f).routes = s.routes := rfl
@[simp] theorem modPart_deadPorts (s : State) (p : Nat) (f : Partition → Partition) : (modPart s p f).deadPorts = s.deadPorts := rfl
@[simp] theorem modPart_identity (s : State) (p : Nat) (f : Partition → Partition) : (modPart s p f).identity = s.identity := rfl
@[simp] theorem modPart_bringUp (s : State) (p : Nat) (f : Partition → Partition) : (modPart s p f).bringUp = s.bringUp := rfl
@[simp] theorem modPart_measures (s : State) (p : Nat) (f : Partition → Partition) : (modPart s p f).measures = s.measures := rfl
@[simp] theorem modPart_report (s : State) (p : Nat) (f : Partition → Partition) : (modPart s p f).report = s.report := rfl
@[simp] theorem modPart_ceUnits (s : State) (p : Nat) (f : Partition → Partition) : (modPart s p f).ceUnits = s.ceUnits := rfl
@[simp] theorem modPart_spares (s : State) (p : Nat) (f : Partition → Partition) : (modPart s p f).spares = s.spares := rfl
@[simp] theorem modPart_keeping (s : State) (p : Nat) (f : Partition → Partition) : (modPart s p f).keeping = s.keeping := rfl
@[simp] theorem modPart_journal (s : State) (p : Nat) (f : Partition → Partition) : (modPart s p f).journal = s.journal := rfl
@[simp] theorem modPart_replay (s : State) (p : Nat) (f : Partition → Partition) : (modPart s p f).replay = s.replay := rfl
@[simp] theorem modPart_shared (s : State) (p : Nat) (f : Partition → Partition) : (modPart s p f).shared = s.shared := rfl
@[simp] theorem modPart_stopped (s : State) (p : Nat) (f : Partition → Partition) : (modPart s p f).stopped = s.stopped := rfl

/-! ## modCore -/

@[simp] theorem modCore_mem (s : State) (c : Nat) (f : Core → Core) : (modCore s c f).mem = s.mem := rfl
@[simp] theorem modCore_poison (s : State) (c : Nat) (f : Core → Core) : (modCore s c f).poison = s.poison := rfl
@[simp] theorem modCore_cycle (s : State) (c : Nat) (f : Core → Core) : (modCore s c f).cycle = s.cycle := rfl
@[simp] theorem modCore_issuer (s : State) (c : Nat) (f : Core → Core) : (modCore s c f).issuer = s.issuer := rfl
@[simp] theorem modCore_agenda (s : State) (c : Nat) (f : Core → Core) : (modCore s c f).agenda = s.agenda := rfl
@[simp] theorem modCore_freeCtr (s : State) (c : Nat) (f : Core → Core) : (modCore s c f).freeCtr = s.freeCtr := rfl
@[simp] theorem modCore_fairIdx (s : State) (c : Nat) (f : Core → Core) : (modCore s c f).fairIdx = s.fairIdx := rfl
@[simp] theorem modCore_fairGap (s : State) (c : Nat) (f : Core → Core) : (modCore s c f).fairGap = s.fairGap := rfl
@[simp] theorem modCore_teams (s : State) (c : Nat) (f : Core → Core) : (modCore s c f).teams = s.teams := rfl
@[simp] theorem modCore_nextTeam (s : State) (c : Nat) (f : Core → Core) : (modCore s c f).nextTeam = s.nextTeam := rfl
@[simp] theorem modCore_ops (s : State) (c : Nat) (f : Core → Core) : (modCore s c f).ops = s.ops := rfl
@[simp] theorem modCore_nextOp (s : State) (c : Nat) (f : Core → Core) : (modCore s c f).nextOp = s.nextOp := rfl
@[simp] theorem modCore_batches (s : State) (c : Nat) (f : Core → Core) : (modCore s c f).batches = s.batches := rfl
@[simp] theorem modCore_nextBatch (s : State) (c : Nat) (f : Core → Core) : (modCore s c f).nextBatch = s.nextBatch := rfl
@[simp] theorem modCore_frozen (s : State) (c : Nat) (f : Core → Core) : (modCore s c f).frozen = s.frozen := rfl
@[simp] theorem modCore_grids (s : State) (c : Nat) (f : Core → Core) : (modCore s c f).grids = s.grids := rfl
@[simp] theorem modCore_nextGrid (s : State) (c : Nat) (f : Core → Core) : (modCore s c f).nextGrid = s.nextGrid := rfl
@[simp] theorem modCore_contexts (s : State) (c : Nat) (f : Core → Core) : (modCore s c f).contexts = s.contexts := rfl
@[simp] theorem modCore_parts (s : State) (c : Nat) (f : Core → Core) : (modCore s c f).parts = s.parts := rfl
@[simp] theorem modCore_queues (s : State) (c : Nat) (f : Core → Core) : (modCore s c f).queues = s.queues := rfl
@[simp] theorem modCore_nextRec (s : State) (c : Nat) (f : Core → Core) : (modCore s c f).nextRec = s.nextRec := rfl
@[simp] theorem modCore_served (s : State) (c : Nat) (f : Core → Core) : (modCore s c f).served = s.served := rfl
@[simp] theorem modCore_coal (s : State) (c : Nat) (f : Core → Core) : (modCore s c f).coal = s.coal := rfl
@[simp] theorem modCore_l1 (s : State) (c : Nat) (f : Core → Core) : (modCore s c f).l1 = s.l1 := rfl
@[simp] theorem modCore_mixed (s : State) (c : Nat) (f : Core → Core) : (modCore s c f).mixed = s.mixed := rfl
@[simp] theorem modCore_dies (s : State) (c : Nat) (f : Core → Core) : (modCore s c f).dies = s.dies := rfl
@[simp] theorem modCore_dir (s : State) (c : Nat) (f : Core → Core) : (modCore s c f).dir = s.dir := rfl
@[simp] theorem modCore_tlb (s : State) (c : Nat) (f : Core → Core) : (modCore s c f).tlb = s.tlb := rfl
@[simp] theorem modCore_counters (s : State) (c : Nat) (f : Core → Core) : (modCore s c f).counters = s.counters := rfl
@[simp] theorem modCore_eccost (s : State) (c : Nat) (f : Core → Core) : (modCore s c f).eccost = s.eccost := rfl
@[simp] theorem modCore_images (s : State) (c : Nat) (f : Core → Core) : (modCore s c f).images = s.images := rfl
@[simp] theorem modCore_channels (s : State) (c : Nat) (f : Core → Core) : (modCore s c f).channels = s.channels := rfl
@[simp] theorem modCore_irqs (s : State) (c : Nat) (f : Core → Core) : (modCore s c f).irqs = s.irqs := rfl
@[simp] theorem modCore_replies (s : State) (c : Nat) (f : Core → Core) : (modCore s c f).replies = s.replies := rfl
@[simp] theorem modCore_routes (s : State) (c : Nat) (f : Core → Core) : (modCore s c f).routes = s.routes := rfl
@[simp] theorem modCore_deadPorts (s : State) (c : Nat) (f : Core → Core) : (modCore s c f).deadPorts = s.deadPorts := rfl
@[simp] theorem modCore_identity (s : State) (c : Nat) (f : Core → Core) : (modCore s c f).identity = s.identity := rfl
@[simp] theorem modCore_bringUp (s : State) (c : Nat) (f : Core → Core) : (modCore s c f).bringUp = s.bringUp := rfl
@[simp] theorem modCore_measures (s : State) (c : Nat) (f : Core → Core) : (modCore s c f).measures = s.measures := rfl
@[simp] theorem modCore_report (s : State) (c : Nat) (f : Core → Core) : (modCore s c f).report = s.report := rfl
@[simp] theorem modCore_ceUnits (s : State) (c : Nat) (f : Core → Core) : (modCore s c f).ceUnits = s.ceUnits := rfl
@[simp] theorem modCore_spares (s : State) (c : Nat) (f : Core → Core) : (modCore s c f).spares = s.spares := rfl
@[simp] theorem modCore_keeping (s : State) (c : Nat) (f : Core → Core) : (modCore s c f).keeping = s.keeping := rfl
@[simp] theorem modCore_journal (s : State) (c : Nat) (f : Core → Core) : (modCore s c f).journal = s.journal := rfl
@[simp] theorem modCore_replay (s : State) (c : Nat) (f : Core → Core) : (modCore s c f).replay = s.replay := rfl
@[simp] theorem modCore_shared (s : State) (c : Nat) (f : Core → Core) : (modCore s c f).shared = s.shared := rfl
@[simp] theorem modCore_stopped (s : State) (c : Nat) (f : Core → Core) : (modCore s c f).stopped = s.stopped := rfl

/-! ## modDie -/

@[simp] theorem modDie_mem (s : State) (d : Nat) (f : Die → Die) : (modDie s d f).mem = s.mem := rfl
@[simp] theorem modDie_poison (s : State) (d : Nat) (f : Die → Die) : (modDie s d f).poison = s.poison := rfl
@[simp] theorem modDie_cycle (s : State) (d : Nat) (f : Die → Die) : (modDie s d f).cycle = s.cycle := rfl
@[simp] theorem modDie_issuer (s : State) (d : Nat) (f : Die → Die) : (modDie s d f).issuer = s.issuer := rfl
@[simp] theorem modDie_agenda (s : State) (d : Nat) (f : Die → Die) : (modDie s d f).agenda = s.agenda := rfl
@[simp] theorem modDie_freeCtr (s : State) (d : Nat) (f : Die → Die) : (modDie s d f).freeCtr = s.freeCtr := rfl
@[simp] theorem modDie_fairIdx (s : State) (d : Nat) (f : Die → Die) : (modDie s d f).fairIdx = s.fairIdx := rfl
@[simp] theorem modDie_fairGap (s : State) (d : Nat) (f : Die → Die) : (modDie s d f).fairGap = s.fairGap := rfl
@[simp] theorem modDie_teams (s : State) (d : Nat) (f : Die → Die) : (modDie s d f).teams = s.teams := rfl
@[simp] theorem modDie_nextTeam (s : State) (d : Nat) (f : Die → Die) : (modDie s d f).nextTeam = s.nextTeam := rfl
@[simp] theorem modDie_ops (s : State) (d : Nat) (f : Die → Die) : (modDie s d f).ops = s.ops := rfl
@[simp] theorem modDie_nextOp (s : State) (d : Nat) (f : Die → Die) : (modDie s d f).nextOp = s.nextOp := rfl
@[simp] theorem modDie_batches (s : State) (d : Nat) (f : Die → Die) : (modDie s d f).batches = s.batches := rfl
@[simp] theorem modDie_nextBatch (s : State) (d : Nat) (f : Die → Die) : (modDie s d f).nextBatch = s.nextBatch := rfl
@[simp] theorem modDie_frozen (s : State) (d : Nat) (f : Die → Die) : (modDie s d f).frozen = s.frozen := rfl
@[simp] theorem modDie_grids (s : State) (d : Nat) (f : Die → Die) : (modDie s d f).grids = s.grids := rfl
@[simp] theorem modDie_nextGrid (s : State) (d : Nat) (f : Die → Die) : (modDie s d f).nextGrid = s.nextGrid := rfl
@[simp] theorem modDie_contexts (s : State) (d : Nat) (f : Die → Die) : (modDie s d f).contexts = s.contexts := rfl
@[simp] theorem modDie_parts (s : State) (d : Nat) (f : Die → Die) : (modDie s d f).parts = s.parts := rfl
@[simp] theorem modDie_queues (s : State) (d : Nat) (f : Die → Die) : (modDie s d f).queues = s.queues := rfl
@[simp] theorem modDie_nextRec (s : State) (d : Nat) (f : Die → Die) : (modDie s d f).nextRec = s.nextRec := rfl
@[simp] theorem modDie_served (s : State) (d : Nat) (f : Die → Die) : (modDie s d f).served = s.served := rfl
@[simp] theorem modDie_cores (s : State) (d : Nat) (f : Die → Die) : (modDie s d f).cores = s.cores := rfl
@[simp] theorem modDie_coal (s : State) (d : Nat) (f : Die → Die) : (modDie s d f).coal = s.coal := rfl
@[simp] theorem modDie_l1 (s : State) (d : Nat) (f : Die → Die) : (modDie s d f).l1 = s.l1 := rfl
@[simp] theorem modDie_mixed (s : State) (d : Nat) (f : Die → Die) : (modDie s d f).mixed = s.mixed := rfl
@[simp] theorem modDie_dir (s : State) (d : Nat) (f : Die → Die) : (modDie s d f).dir = s.dir := rfl
@[simp] theorem modDie_tlb (s : State) (d : Nat) (f : Die → Die) : (modDie s d f).tlb = s.tlb := rfl
@[simp] theorem modDie_counters (s : State) (d : Nat) (f : Die → Die) : (modDie s d f).counters = s.counters := rfl
@[simp] theorem modDie_eccost (s : State) (d : Nat) (f : Die → Die) : (modDie s d f).eccost = s.eccost := rfl
@[simp] theorem modDie_images (s : State) (d : Nat) (f : Die → Die) : (modDie s d f).images = s.images := rfl
@[simp] theorem modDie_channels (s : State) (d : Nat) (f : Die → Die) : (modDie s d f).channels = s.channels := rfl
@[simp] theorem modDie_irqs (s : State) (d : Nat) (f : Die → Die) : (modDie s d f).irqs = s.irqs := rfl
@[simp] theorem modDie_replies (s : State) (d : Nat) (f : Die → Die) : (modDie s d f).replies = s.replies := rfl
@[simp] theorem modDie_routes (s : State) (d : Nat) (f : Die → Die) : (modDie s d f).routes = s.routes := rfl
@[simp] theorem modDie_deadPorts (s : State) (d : Nat) (f : Die → Die) : (modDie s d f).deadPorts = s.deadPorts := rfl
@[simp] theorem modDie_identity (s : State) (d : Nat) (f : Die → Die) : (modDie s d f).identity = s.identity := rfl
@[simp] theorem modDie_bringUp (s : State) (d : Nat) (f : Die → Die) : (modDie s d f).bringUp = s.bringUp := rfl
@[simp] theorem modDie_measures (s : State) (d : Nat) (f : Die → Die) : (modDie s d f).measures = s.measures := rfl
@[simp] theorem modDie_report (s : State) (d : Nat) (f : Die → Die) : (modDie s d f).report = s.report := rfl
@[simp] theorem modDie_ceUnits (s : State) (d : Nat) (f : Die → Die) : (modDie s d f).ceUnits = s.ceUnits := rfl
@[simp] theorem modDie_spares (s : State) (d : Nat) (f : Die → Die) : (modDie s d f).spares = s.spares := rfl
@[simp] theorem modDie_keeping (s : State) (d : Nat) (f : Die → Die) : (modDie s d f).keeping = s.keeping := rfl
@[simp] theorem modDie_journal (s : State) (d : Nat) (f : Die → Die) : (modDie s d f).journal = s.journal := rfl
@[simp] theorem modDie_replay (s : State) (d : Nat) (f : Die → Die) : (modDie s d f).replay = s.replay := rfl
@[simp] theorem modDie_shared (s : State) (d : Nat) (f : Die → Die) : (modDie s d f).shared = s.shared := rfl
@[simp] theorem modDie_stopped (s : State) (d : Nat) (f : Die → Die) : (modDie s d f).stopped = s.stopped := rfl

/-! ## modGrid -/

@[simp] theorem modGrid_mem (s : State) (n : Nat) (f : Grid → Grid) : (modGrid s n f).mem = s.mem := rfl
@[simp] theorem modGrid_poison (s : State) (n : Nat) (f : Grid → Grid) : (modGrid s n f).poison = s.poison := rfl
@[simp] theorem modGrid_cycle (s : State) (n : Nat) (f : Grid → Grid) : (modGrid s n f).cycle = s.cycle := rfl
@[simp] theorem modGrid_issuer (s : State) (n : Nat) (f : Grid → Grid) : (modGrid s n f).issuer = s.issuer := rfl
@[simp] theorem modGrid_agenda (s : State) (n : Nat) (f : Grid → Grid) : (modGrid s n f).agenda = s.agenda := rfl
@[simp] theorem modGrid_freeCtr (s : State) (n : Nat) (f : Grid → Grid) : (modGrid s n f).freeCtr = s.freeCtr := rfl
@[simp] theorem modGrid_fairIdx (s : State) (n : Nat) (f : Grid → Grid) : (modGrid s n f).fairIdx = s.fairIdx := rfl
@[simp] theorem modGrid_fairGap (s : State) (n : Nat) (f : Grid → Grid) : (modGrid s n f).fairGap = s.fairGap := rfl
@[simp] theorem modGrid_teams (s : State) (n : Nat) (f : Grid → Grid) : (modGrid s n f).teams = s.teams := rfl
@[simp] theorem modGrid_nextTeam (s : State) (n : Nat) (f : Grid → Grid) : (modGrid s n f).nextTeam = s.nextTeam := rfl
@[simp] theorem modGrid_ops (s : State) (n : Nat) (f : Grid → Grid) : (modGrid s n f).ops = s.ops := rfl
@[simp] theorem modGrid_nextOp (s : State) (n : Nat) (f : Grid → Grid) : (modGrid s n f).nextOp = s.nextOp := rfl
@[simp] theorem modGrid_batches (s : State) (n : Nat) (f : Grid → Grid) : (modGrid s n f).batches = s.batches := rfl
@[simp] theorem modGrid_nextBatch (s : State) (n : Nat) (f : Grid → Grid) : (modGrid s n f).nextBatch = s.nextBatch := rfl
@[simp] theorem modGrid_frozen (s : State) (n : Nat) (f : Grid → Grid) : (modGrid s n f).frozen = s.frozen := rfl
@[simp] theorem modGrid_nextGrid (s : State) (n : Nat) (f : Grid → Grid) : (modGrid s n f).nextGrid = s.nextGrid := rfl
@[simp] theorem modGrid_contexts (s : State) (n : Nat) (f : Grid → Grid) : (modGrid s n f).contexts = s.contexts := rfl
@[simp] theorem modGrid_parts (s : State) (n : Nat) (f : Grid → Grid) : (modGrid s n f).parts = s.parts := rfl
@[simp] theorem modGrid_queues (s : State) (n : Nat) (f : Grid → Grid) : (modGrid s n f).queues = s.queues := rfl
@[simp] theorem modGrid_nextRec (s : State) (n : Nat) (f : Grid → Grid) : (modGrid s n f).nextRec = s.nextRec := rfl
@[simp] theorem modGrid_served (s : State) (n : Nat) (f : Grid → Grid) : (modGrid s n f).served = s.served := rfl
@[simp] theorem modGrid_cores (s : State) (n : Nat) (f : Grid → Grid) : (modGrid s n f).cores = s.cores := rfl
@[simp] theorem modGrid_coal (s : State) (n : Nat) (f : Grid → Grid) : (modGrid s n f).coal = s.coal := rfl
@[simp] theorem modGrid_l1 (s : State) (n : Nat) (f : Grid → Grid) : (modGrid s n f).l1 = s.l1 := rfl
@[simp] theorem modGrid_mixed (s : State) (n : Nat) (f : Grid → Grid) : (modGrid s n f).mixed = s.mixed := rfl
@[simp] theorem modGrid_dies (s : State) (n : Nat) (f : Grid → Grid) : (modGrid s n f).dies = s.dies := rfl
@[simp] theorem modGrid_dir (s : State) (n : Nat) (f : Grid → Grid) : (modGrid s n f).dir = s.dir := rfl
@[simp] theorem modGrid_tlb (s : State) (n : Nat) (f : Grid → Grid) : (modGrid s n f).tlb = s.tlb := rfl
@[simp] theorem modGrid_counters (s : State) (n : Nat) (f : Grid → Grid) : (modGrid s n f).counters = s.counters := rfl
@[simp] theorem modGrid_eccost (s : State) (n : Nat) (f : Grid → Grid) : (modGrid s n f).eccost = s.eccost := rfl
@[simp] theorem modGrid_images (s : State) (n : Nat) (f : Grid → Grid) : (modGrid s n f).images = s.images := rfl
@[simp] theorem modGrid_channels (s : State) (n : Nat) (f : Grid → Grid) : (modGrid s n f).channels = s.channels := rfl
@[simp] theorem modGrid_irqs (s : State) (n : Nat) (f : Grid → Grid) : (modGrid s n f).irqs = s.irqs := rfl
@[simp] theorem modGrid_replies (s : State) (n : Nat) (f : Grid → Grid) : (modGrid s n f).replies = s.replies := rfl
@[simp] theorem modGrid_routes (s : State) (n : Nat) (f : Grid → Grid) : (modGrid s n f).routes = s.routes := rfl
@[simp] theorem modGrid_deadPorts (s : State) (n : Nat) (f : Grid → Grid) : (modGrid s n f).deadPorts = s.deadPorts := rfl
@[simp] theorem modGrid_identity (s : State) (n : Nat) (f : Grid → Grid) : (modGrid s n f).identity = s.identity := rfl
@[simp] theorem modGrid_bringUp (s : State) (n : Nat) (f : Grid → Grid) : (modGrid s n f).bringUp = s.bringUp := rfl
@[simp] theorem modGrid_measures (s : State) (n : Nat) (f : Grid → Grid) : (modGrid s n f).measures = s.measures := rfl
@[simp] theorem modGrid_report (s : State) (n : Nat) (f : Grid → Grid) : (modGrid s n f).report = s.report := rfl
@[simp] theorem modGrid_ceUnits (s : State) (n : Nat) (f : Grid → Grid) : (modGrid s n f).ceUnits = s.ceUnits := rfl
@[simp] theorem modGrid_spares (s : State) (n : Nat) (f : Grid → Grid) : (modGrid s n f).spares = s.spares := rfl
@[simp] theorem modGrid_keeping (s : State) (n : Nat) (f : Grid → Grid) : (modGrid s n f).keeping = s.keeping := rfl
@[simp] theorem modGrid_journal (s : State) (n : Nat) (f : Grid → Grid) : (modGrid s n f).journal = s.journal := rfl
@[simp] theorem modGrid_replay (s : State) (n : Nat) (f : Grid → Grid) : (modGrid s n f).replay = s.replay := rfl
@[simp] theorem modGrid_shared (s : State) (n : Nat) (f : Grid → Grid) : (modGrid s n f).shared = s.shared := rfl
@[simp] theorem modGrid_stopped (s : State) (n : Nat) (f : Grid → Grid) : (modGrid s n f).stopped = s.stopped := rfl

/-! ## modQueue -/

@[simp] theorem modQueue_mem (s : State) (q : Nat) (f : Queue → Queue) : (modQueue s q f).mem = s.mem := rfl
@[simp] theorem modQueue_poison (s : State) (q : Nat) (f : Queue → Queue) : (modQueue s q f).poison = s.poison := rfl
@[simp] theorem modQueue_cycle (s : State) (q : Nat) (f : Queue → Queue) : (modQueue s q f).cycle = s.cycle := rfl
@[simp] theorem modQueue_issuer (s : State) (q : Nat) (f : Queue → Queue) : (modQueue s q f).issuer = s.issuer := rfl
@[simp] theorem modQueue_agenda (s : State) (q : Nat) (f : Queue → Queue) : (modQueue s q f).agenda = s.agenda := rfl
@[simp] theorem modQueue_freeCtr (s : State) (q : Nat) (f : Queue → Queue) : (modQueue s q f).freeCtr = s.freeCtr := rfl
@[simp] theorem modQueue_fairIdx (s : State) (q : Nat) (f : Queue → Queue) : (modQueue s q f).fairIdx = s.fairIdx := rfl
@[simp] theorem modQueue_fairGap (s : State) (q : Nat) (f : Queue → Queue) : (modQueue s q f).fairGap = s.fairGap := rfl
@[simp] theorem modQueue_teams (s : State) (q : Nat) (f : Queue → Queue) : (modQueue s q f).teams = s.teams := rfl
@[simp] theorem modQueue_nextTeam (s : State) (q : Nat) (f : Queue → Queue) : (modQueue s q f).nextTeam = s.nextTeam := rfl
@[simp] theorem modQueue_ops (s : State) (q : Nat) (f : Queue → Queue) : (modQueue s q f).ops = s.ops := rfl
@[simp] theorem modQueue_nextOp (s : State) (q : Nat) (f : Queue → Queue) : (modQueue s q f).nextOp = s.nextOp := rfl
@[simp] theorem modQueue_batches (s : State) (q : Nat) (f : Queue → Queue) : (modQueue s q f).batches = s.batches := rfl
@[simp] theorem modQueue_nextBatch (s : State) (q : Nat) (f : Queue → Queue) : (modQueue s q f).nextBatch = s.nextBatch := rfl
@[simp] theorem modQueue_frozen (s : State) (q : Nat) (f : Queue → Queue) : (modQueue s q f).frozen = s.frozen := rfl
@[simp] theorem modQueue_grids (s : State) (q : Nat) (f : Queue → Queue) : (modQueue s q f).grids = s.grids := rfl
@[simp] theorem modQueue_nextGrid (s : State) (q : Nat) (f : Queue → Queue) : (modQueue s q f).nextGrid = s.nextGrid := rfl
@[simp] theorem modQueue_contexts (s : State) (q : Nat) (f : Queue → Queue) : (modQueue s q f).contexts = s.contexts := rfl
@[simp] theorem modQueue_parts (s : State) (q : Nat) (f : Queue → Queue) : (modQueue s q f).parts = s.parts := rfl
@[simp] theorem modQueue_nextRec (s : State) (q : Nat) (f : Queue → Queue) : (modQueue s q f).nextRec = s.nextRec := rfl
@[simp] theorem modQueue_served (s : State) (q : Nat) (f : Queue → Queue) : (modQueue s q f).served = s.served := rfl
@[simp] theorem modQueue_cores (s : State) (q : Nat) (f : Queue → Queue) : (modQueue s q f).cores = s.cores := rfl
@[simp] theorem modQueue_coal (s : State) (q : Nat) (f : Queue → Queue) : (modQueue s q f).coal = s.coal := rfl
@[simp] theorem modQueue_l1 (s : State) (q : Nat) (f : Queue → Queue) : (modQueue s q f).l1 = s.l1 := rfl
@[simp] theorem modQueue_mixed (s : State) (q : Nat) (f : Queue → Queue) : (modQueue s q f).mixed = s.mixed := rfl
@[simp] theorem modQueue_dies (s : State) (q : Nat) (f : Queue → Queue) : (modQueue s q f).dies = s.dies := rfl
@[simp] theorem modQueue_dir (s : State) (q : Nat) (f : Queue → Queue) : (modQueue s q f).dir = s.dir := rfl
@[simp] theorem modQueue_tlb (s : State) (q : Nat) (f : Queue → Queue) : (modQueue s q f).tlb = s.tlb := rfl
@[simp] theorem modQueue_counters (s : State) (q : Nat) (f : Queue → Queue) : (modQueue s q f).counters = s.counters := rfl
@[simp] theorem modQueue_eccost (s : State) (q : Nat) (f : Queue → Queue) : (modQueue s q f).eccost = s.eccost := rfl
@[simp] theorem modQueue_images (s : State) (q : Nat) (f : Queue → Queue) : (modQueue s q f).images = s.images := rfl
@[simp] theorem modQueue_channels (s : State) (q : Nat) (f : Queue → Queue) : (modQueue s q f).channels = s.channels := rfl
@[simp] theorem modQueue_irqs (s : State) (q : Nat) (f : Queue → Queue) : (modQueue s q f).irqs = s.irqs := rfl
@[simp] theorem modQueue_replies (s : State) (q : Nat) (f : Queue → Queue) : (modQueue s q f).replies = s.replies := rfl
@[simp] theorem modQueue_routes (s : State) (q : Nat) (f : Queue → Queue) : (modQueue s q f).routes = s.routes := rfl
@[simp] theorem modQueue_deadPorts (s : State) (q : Nat) (f : Queue → Queue) : (modQueue s q f).deadPorts = s.deadPorts := rfl
@[simp] theorem modQueue_identity (s : State) (q : Nat) (f : Queue → Queue) : (modQueue s q f).identity = s.identity := rfl
@[simp] theorem modQueue_bringUp (s : State) (q : Nat) (f : Queue → Queue) : (modQueue s q f).bringUp = s.bringUp := rfl
@[simp] theorem modQueue_measures (s : State) (q : Nat) (f : Queue → Queue) : (modQueue s q f).measures = s.measures := rfl
@[simp] theorem modQueue_report (s : State) (q : Nat) (f : Queue → Queue) : (modQueue s q f).report = s.report := rfl
@[simp] theorem modQueue_ceUnits (s : State) (q : Nat) (f : Queue → Queue) : (modQueue s q f).ceUnits = s.ceUnits := rfl
@[simp] theorem modQueue_spares (s : State) (q : Nat) (f : Queue → Queue) : (modQueue s q f).spares = s.spares := rfl
@[simp] theorem modQueue_keeping (s : State) (q : Nat) (f : Queue → Queue) : (modQueue s q f).keeping = s.keeping := rfl
@[simp] theorem modQueue_journal (s : State) (q : Nat) (f : Queue → Queue) : (modQueue s q f).journal = s.journal := rfl
@[simp] theorem modQueue_replay (s : State) (q : Nat) (f : Queue → Queue) : (modQueue s q f).replay = s.replay := rfl
@[simp] theorem modQueue_shared (s : State) (q : Nat) (f : Queue → Queue) : (modQueue s q f).shared = s.shared := rfl
@[simp] theorem modQueue_stopped (s : State) (q : Nat) (f : Queue → Queue) : (modQueue s q f).stopped = s.stopped := rfl

/-! ## modBatch -/

@[simp] theorem modBatch_mem (s : State) (b : Nat) (f : Batch → Batch) : (modBatch s b f).mem = s.mem := rfl
@[simp] theorem modBatch_poison (s : State) (b : Nat) (f : Batch → Batch) : (modBatch s b f).poison = s.poison := rfl
@[simp] theorem modBatch_cycle (s : State) (b : Nat) (f : Batch → Batch) : (modBatch s b f).cycle = s.cycle := rfl
@[simp] theorem modBatch_issuer (s : State) (b : Nat) (f : Batch → Batch) : (modBatch s b f).issuer = s.issuer := rfl
@[simp] theorem modBatch_agenda (s : State) (b : Nat) (f : Batch → Batch) : (modBatch s b f).agenda = s.agenda := rfl
@[simp] theorem modBatch_freeCtr (s : State) (b : Nat) (f : Batch → Batch) : (modBatch s b f).freeCtr = s.freeCtr := rfl
@[simp] theorem modBatch_fairIdx (s : State) (b : Nat) (f : Batch → Batch) : (modBatch s b f).fairIdx = s.fairIdx := rfl
@[simp] theorem modBatch_fairGap (s : State) (b : Nat) (f : Batch → Batch) : (modBatch s b f).fairGap = s.fairGap := rfl
@[simp] theorem modBatch_teams (s : State) (b : Nat) (f : Batch → Batch) : (modBatch s b f).teams = s.teams := rfl
@[simp] theorem modBatch_nextTeam (s : State) (b : Nat) (f : Batch → Batch) : (modBatch s b f).nextTeam = s.nextTeam := rfl
@[simp] theorem modBatch_ops (s : State) (b : Nat) (f : Batch → Batch) : (modBatch s b f).ops = s.ops := rfl
@[simp] theorem modBatch_nextOp (s : State) (b : Nat) (f : Batch → Batch) : (modBatch s b f).nextOp = s.nextOp := rfl
@[simp] theorem modBatch_nextBatch (s : State) (b : Nat) (f : Batch → Batch) : (modBatch s b f).nextBatch = s.nextBatch := rfl
@[simp] theorem modBatch_frozen (s : State) (b : Nat) (f : Batch → Batch) : (modBatch s b f).frozen = s.frozen := rfl
@[simp] theorem modBatch_grids (s : State) (b : Nat) (f : Batch → Batch) : (modBatch s b f).grids = s.grids := rfl
@[simp] theorem modBatch_nextGrid (s : State) (b : Nat) (f : Batch → Batch) : (modBatch s b f).nextGrid = s.nextGrid := rfl
@[simp] theorem modBatch_contexts (s : State) (b : Nat) (f : Batch → Batch) : (modBatch s b f).contexts = s.contexts := rfl
@[simp] theorem modBatch_parts (s : State) (b : Nat) (f : Batch → Batch) : (modBatch s b f).parts = s.parts := rfl
@[simp] theorem modBatch_queues (s : State) (b : Nat) (f : Batch → Batch) : (modBatch s b f).queues = s.queues := rfl
@[simp] theorem modBatch_nextRec (s : State) (b : Nat) (f : Batch → Batch) : (modBatch s b f).nextRec = s.nextRec := rfl
@[simp] theorem modBatch_served (s : State) (b : Nat) (f : Batch → Batch) : (modBatch s b f).served = s.served := rfl
@[simp] theorem modBatch_cores (s : State) (b : Nat) (f : Batch → Batch) : (modBatch s b f).cores = s.cores := rfl
@[simp] theorem modBatch_coal (s : State) (b : Nat) (f : Batch → Batch) : (modBatch s b f).coal = s.coal := rfl
@[simp] theorem modBatch_l1 (s : State) (b : Nat) (f : Batch → Batch) : (modBatch s b f).l1 = s.l1 := rfl
@[simp] theorem modBatch_mixed (s : State) (b : Nat) (f : Batch → Batch) : (modBatch s b f).mixed = s.mixed := rfl
@[simp] theorem modBatch_dies (s : State) (b : Nat) (f : Batch → Batch) : (modBatch s b f).dies = s.dies := rfl
@[simp] theorem modBatch_dir (s : State) (b : Nat) (f : Batch → Batch) : (modBatch s b f).dir = s.dir := rfl
@[simp] theorem modBatch_tlb (s : State) (b : Nat) (f : Batch → Batch) : (modBatch s b f).tlb = s.tlb := rfl
@[simp] theorem modBatch_counters (s : State) (b : Nat) (f : Batch → Batch) : (modBatch s b f).counters = s.counters := rfl
@[simp] theorem modBatch_eccost (s : State) (b : Nat) (f : Batch → Batch) : (modBatch s b f).eccost = s.eccost := rfl
@[simp] theorem modBatch_images (s : State) (b : Nat) (f : Batch → Batch) : (modBatch s b f).images = s.images := rfl
@[simp] theorem modBatch_channels (s : State) (b : Nat) (f : Batch → Batch) : (modBatch s b f).channels = s.channels := rfl
@[simp] theorem modBatch_irqs (s : State) (b : Nat) (f : Batch → Batch) : (modBatch s b f).irqs = s.irqs := rfl
@[simp] theorem modBatch_replies (s : State) (b : Nat) (f : Batch → Batch) : (modBatch s b f).replies = s.replies := rfl
@[simp] theorem modBatch_routes (s : State) (b : Nat) (f : Batch → Batch) : (modBatch s b f).routes = s.routes := rfl
@[simp] theorem modBatch_deadPorts (s : State) (b : Nat) (f : Batch → Batch) : (modBatch s b f).deadPorts = s.deadPorts := rfl
@[simp] theorem modBatch_identity (s : State) (b : Nat) (f : Batch → Batch) : (modBatch s b f).identity = s.identity := rfl
@[simp] theorem modBatch_bringUp (s : State) (b : Nat) (f : Batch → Batch) : (modBatch s b f).bringUp = s.bringUp := rfl
@[simp] theorem modBatch_measures (s : State) (b : Nat) (f : Batch → Batch) : (modBatch s b f).measures = s.measures := rfl
@[simp] theorem modBatch_report (s : State) (b : Nat) (f : Batch → Batch) : (modBatch s b f).report = s.report := rfl
@[simp] theorem modBatch_ceUnits (s : State) (b : Nat) (f : Batch → Batch) : (modBatch s b f).ceUnits = s.ceUnits := rfl
@[simp] theorem modBatch_spares (s : State) (b : Nat) (f : Batch → Batch) : (modBatch s b f).spares = s.spares := rfl
@[simp] theorem modBatch_keeping (s : State) (b : Nat) (f : Batch → Batch) : (modBatch s b f).keeping = s.keeping := rfl
@[simp] theorem modBatch_journal (s : State) (b : Nat) (f : Batch → Batch) : (modBatch s b f).journal = s.journal := rfl
@[simp] theorem modBatch_replay (s : State) (b : Nat) (f : Batch → Batch) : (modBatch s b f).replay = s.replay := rfl
@[simp] theorem modBatch_shared (s : State) (b : Nat) (f : Batch → Batch) : (modBatch s b f).shared = s.shared := rfl
@[simp] theorem modBatch_stopped (s : State) (b : Nat) (f : Batch → Batch) : (modBatch s b f).stopped = s.stopped := rfl

/-! ## modSeq -/

@[simp] theorem modSeq_mem (s : State) (t : Nat) (f : Seq → Seq) : (modSeq s t f).mem = s.mem := rfl
@[simp] theorem modSeq_poison (s : State) (t : Nat) (f : Seq → Seq) : (modSeq s t f).poison = s.poison := rfl
@[simp] theorem modSeq_cycle (s : State) (t : Nat) (f : Seq → Seq) : (modSeq s t f).cycle = s.cycle := rfl
@[simp] theorem modSeq_issuer (s : State) (t : Nat) (f : Seq → Seq) : (modSeq s t f).issuer = s.issuer := rfl
@[simp] theorem modSeq_agenda (s : State) (t : Nat) (f : Seq → Seq) : (modSeq s t f).agenda = s.agenda := rfl
@[simp] theorem modSeq_freeCtr (s : State) (t : Nat) (f : Seq → Seq) : (modSeq s t f).freeCtr = s.freeCtr := rfl
@[simp] theorem modSeq_fairIdx (s : State) (t : Nat) (f : Seq → Seq) : (modSeq s t f).fairIdx = s.fairIdx := rfl
@[simp] theorem modSeq_fairGap (s : State) (t : Nat) (f : Seq → Seq) : (modSeq s t f).fairGap = s.fairGap := rfl
@[simp] theorem modSeq_nextTeam (s : State) (t : Nat) (f : Seq → Seq) : (modSeq s t f).nextTeam = s.nextTeam := rfl
@[simp] theorem modSeq_ops (s : State) (t : Nat) (f : Seq → Seq) : (modSeq s t f).ops = s.ops := rfl
@[simp] theorem modSeq_nextOp (s : State) (t : Nat) (f : Seq → Seq) : (modSeq s t f).nextOp = s.nextOp := rfl
@[simp] theorem modSeq_batches (s : State) (t : Nat) (f : Seq → Seq) : (modSeq s t f).batches = s.batches := rfl
@[simp] theorem modSeq_nextBatch (s : State) (t : Nat) (f : Seq → Seq) : (modSeq s t f).nextBatch = s.nextBatch := rfl
@[simp] theorem modSeq_frozen (s : State) (t : Nat) (f : Seq → Seq) : (modSeq s t f).frozen = s.frozen := rfl
@[simp] theorem modSeq_grids (s : State) (t : Nat) (f : Seq → Seq) : (modSeq s t f).grids = s.grids := rfl
@[simp] theorem modSeq_nextGrid (s : State) (t : Nat) (f : Seq → Seq) : (modSeq s t f).nextGrid = s.nextGrid := rfl
@[simp] theorem modSeq_contexts (s : State) (t : Nat) (f : Seq → Seq) : (modSeq s t f).contexts = s.contexts := rfl
@[simp] theorem modSeq_parts (s : State) (t : Nat) (f : Seq → Seq) : (modSeq s t f).parts = s.parts := rfl
@[simp] theorem modSeq_queues (s : State) (t : Nat) (f : Seq → Seq) : (modSeq s t f).queues = s.queues := rfl
@[simp] theorem modSeq_nextRec (s : State) (t : Nat) (f : Seq → Seq) : (modSeq s t f).nextRec = s.nextRec := rfl
@[simp] theorem modSeq_served (s : State) (t : Nat) (f : Seq → Seq) : (modSeq s t f).served = s.served := rfl
@[simp] theorem modSeq_cores (s : State) (t : Nat) (f : Seq → Seq) : (modSeq s t f).cores = s.cores := rfl
@[simp] theorem modSeq_coal (s : State) (t : Nat) (f : Seq → Seq) : (modSeq s t f).coal = s.coal := rfl
@[simp] theorem modSeq_l1 (s : State) (t : Nat) (f : Seq → Seq) : (modSeq s t f).l1 = s.l1 := rfl
@[simp] theorem modSeq_mixed (s : State) (t : Nat) (f : Seq → Seq) : (modSeq s t f).mixed = s.mixed := rfl
@[simp] theorem modSeq_dies (s : State) (t : Nat) (f : Seq → Seq) : (modSeq s t f).dies = s.dies := rfl
@[simp] theorem modSeq_dir (s : State) (t : Nat) (f : Seq → Seq) : (modSeq s t f).dir = s.dir := rfl
@[simp] theorem modSeq_tlb (s : State) (t : Nat) (f : Seq → Seq) : (modSeq s t f).tlb = s.tlb := rfl
@[simp] theorem modSeq_counters (s : State) (t : Nat) (f : Seq → Seq) : (modSeq s t f).counters = s.counters := rfl
@[simp] theorem modSeq_eccost (s : State) (t : Nat) (f : Seq → Seq) : (modSeq s t f).eccost = s.eccost := rfl
@[simp] theorem modSeq_images (s : State) (t : Nat) (f : Seq → Seq) : (modSeq s t f).images = s.images := rfl
@[simp] theorem modSeq_channels (s : State) (t : Nat) (f : Seq → Seq) : (modSeq s t f).channels = s.channels := rfl
@[simp] theorem modSeq_irqs (s : State) (t : Nat) (f : Seq → Seq) : (modSeq s t f).irqs = s.irqs := rfl
@[simp] theorem modSeq_replies (s : State) (t : Nat) (f : Seq → Seq) : (modSeq s t f).replies = s.replies := rfl
@[simp] theorem modSeq_routes (s : State) (t : Nat) (f : Seq → Seq) : (modSeq s t f).routes = s.routes := rfl
@[simp] theorem modSeq_deadPorts (s : State) (t : Nat) (f : Seq → Seq) : (modSeq s t f).deadPorts = s.deadPorts := rfl
@[simp] theorem modSeq_identity (s : State) (t : Nat) (f : Seq → Seq) : (modSeq s t f).identity = s.identity := rfl
@[simp] theorem modSeq_bringUp (s : State) (t : Nat) (f : Seq → Seq) : (modSeq s t f).bringUp = s.bringUp := rfl
@[simp] theorem modSeq_measures (s : State) (t : Nat) (f : Seq → Seq) : (modSeq s t f).measures = s.measures := rfl
@[simp] theorem modSeq_report (s : State) (t : Nat) (f : Seq → Seq) : (modSeq s t f).report = s.report := rfl
@[simp] theorem modSeq_ceUnits (s : State) (t : Nat) (f : Seq → Seq) : (modSeq s t f).ceUnits = s.ceUnits := rfl
@[simp] theorem modSeq_spares (s : State) (t : Nat) (f : Seq → Seq) : (modSeq s t f).spares = s.spares := rfl
@[simp] theorem modSeq_keeping (s : State) (t : Nat) (f : Seq → Seq) : (modSeq s t f).keeping = s.keeping := rfl
@[simp] theorem modSeq_journal (s : State) (t : Nat) (f : Seq → Seq) : (modSeq s t f).journal = s.journal := rfl
@[simp] theorem modSeq_replay (s : State) (t : Nat) (f : Seq → Seq) : (modSeq s t f).replay = s.replay := rfl
@[simp] theorem modSeq_shared (s : State) (t : Nat) (f : Seq → Seq) : (modSeq s t f).shared = s.shared := rfl
@[simp] theorem modSeq_stopped (s : State) (t : Nat) (f : Seq → Seq) : (modSeq s t f).stopped = s.stopped := rfl

/-! ## setKind -/

@[simp] theorem setKind_mem (s : State) (n : Nat) (k : OpKind) : (setKind s n k).mem = s.mem := rfl
@[simp] theorem setKind_poison (s : State) (n : Nat) (k : OpKind) : (setKind s n k).poison = s.poison := rfl
@[simp] theorem setKind_cycle (s : State) (n : Nat) (k : OpKind) : (setKind s n k).cycle = s.cycle := rfl
@[simp] theorem setKind_issuer (s : State) (n : Nat) (k : OpKind) : (setKind s n k).issuer = s.issuer := rfl
@[simp] theorem setKind_agenda (s : State) (n : Nat) (k : OpKind) : (setKind s n k).agenda = s.agenda := rfl
@[simp] theorem setKind_freeCtr (s : State) (n : Nat) (k : OpKind) : (setKind s n k).freeCtr = s.freeCtr := rfl
@[simp] theorem setKind_fairIdx (s : State) (n : Nat) (k : OpKind) : (setKind s n k).fairIdx = s.fairIdx := rfl
@[simp] theorem setKind_fairGap (s : State) (n : Nat) (k : OpKind) : (setKind s n k).fairGap = s.fairGap := rfl
@[simp] theorem setKind_teams (s : State) (n : Nat) (k : OpKind) : (setKind s n k).teams = s.teams := rfl
@[simp] theorem setKind_nextTeam (s : State) (n : Nat) (k : OpKind) : (setKind s n k).nextTeam = s.nextTeam := rfl
@[simp] theorem setKind_nextOp (s : State) (n : Nat) (k : OpKind) : (setKind s n k).nextOp = s.nextOp := rfl
@[simp] theorem setKind_batches (s : State) (n : Nat) (k : OpKind) : (setKind s n k).batches = s.batches := rfl
@[simp] theorem setKind_nextBatch (s : State) (n : Nat) (k : OpKind) : (setKind s n k).nextBatch = s.nextBatch := rfl
@[simp] theorem setKind_frozen (s : State) (n : Nat) (k : OpKind) : (setKind s n k).frozen = s.frozen := rfl
@[simp] theorem setKind_grids (s : State) (n : Nat) (k : OpKind) : (setKind s n k).grids = s.grids := rfl
@[simp] theorem setKind_nextGrid (s : State) (n : Nat) (k : OpKind) : (setKind s n k).nextGrid = s.nextGrid := rfl
@[simp] theorem setKind_contexts (s : State) (n : Nat) (k : OpKind) : (setKind s n k).contexts = s.contexts := rfl
@[simp] theorem setKind_parts (s : State) (n : Nat) (k : OpKind) : (setKind s n k).parts = s.parts := rfl
@[simp] theorem setKind_queues (s : State) (n : Nat) (k : OpKind) : (setKind s n k).queues = s.queues := rfl
@[simp] theorem setKind_nextRec (s : State) (n : Nat) (k : OpKind) : (setKind s n k).nextRec = s.nextRec := rfl
@[simp] theorem setKind_served (s : State) (n : Nat) (k : OpKind) : (setKind s n k).served = s.served := rfl
@[simp] theorem setKind_cores (s : State) (n : Nat) (k : OpKind) : (setKind s n k).cores = s.cores := rfl
@[simp] theorem setKind_coal (s : State) (n : Nat) (k : OpKind) : (setKind s n k).coal = s.coal := rfl
@[simp] theorem setKind_l1 (s : State) (n : Nat) (k : OpKind) : (setKind s n k).l1 = s.l1 := rfl
@[simp] theorem setKind_mixed (s : State) (n : Nat) (k : OpKind) : (setKind s n k).mixed = s.mixed := rfl
@[simp] theorem setKind_dies (s : State) (n : Nat) (k : OpKind) : (setKind s n k).dies = s.dies := rfl
@[simp] theorem setKind_dir (s : State) (n : Nat) (k : OpKind) : (setKind s n k).dir = s.dir := rfl
@[simp] theorem setKind_tlb (s : State) (n : Nat) (k : OpKind) : (setKind s n k).tlb = s.tlb := rfl
@[simp] theorem setKind_counters (s : State) (n : Nat) (k : OpKind) : (setKind s n k).counters = s.counters := rfl
@[simp] theorem setKind_eccost (s : State) (n : Nat) (k : OpKind) : (setKind s n k).eccost = s.eccost := rfl
@[simp] theorem setKind_images (s : State) (n : Nat) (k : OpKind) : (setKind s n k).images = s.images := rfl
@[simp] theorem setKind_channels (s : State) (n : Nat) (k : OpKind) : (setKind s n k).channels = s.channels := rfl
@[simp] theorem setKind_irqs (s : State) (n : Nat) (k : OpKind) : (setKind s n k).irqs = s.irqs := rfl
@[simp] theorem setKind_replies (s : State) (n : Nat) (k : OpKind) : (setKind s n k).replies = s.replies := rfl
@[simp] theorem setKind_routes (s : State) (n : Nat) (k : OpKind) : (setKind s n k).routes = s.routes := rfl
@[simp] theorem setKind_deadPorts (s : State) (n : Nat) (k : OpKind) : (setKind s n k).deadPorts = s.deadPorts := rfl
@[simp] theorem setKind_identity (s : State) (n : Nat) (k : OpKind) : (setKind s n k).identity = s.identity := rfl
@[simp] theorem setKind_bringUp (s : State) (n : Nat) (k : OpKind) : (setKind s n k).bringUp = s.bringUp := rfl
@[simp] theorem setKind_measures (s : State) (n : Nat) (k : OpKind) : (setKind s n k).measures = s.measures := rfl
@[simp] theorem setKind_report (s : State) (n : Nat) (k : OpKind) : (setKind s n k).report = s.report := rfl
@[simp] theorem setKind_ceUnits (s : State) (n : Nat) (k : OpKind) : (setKind s n k).ceUnits = s.ceUnits := rfl
@[simp] theorem setKind_spares (s : State) (n : Nat) (k : OpKind) : (setKind s n k).spares = s.spares := rfl
@[simp] theorem setKind_keeping (s : State) (n : Nat) (k : OpKind) : (setKind s n k).keeping = s.keeping := rfl
@[simp] theorem setKind_journal (s : State) (n : Nat) (k : OpKind) : (setKind s n k).journal = s.journal := rfl
@[simp] theorem setKind_replay (s : State) (n : Nat) (k : OpKind) : (setKind s n k).replay = s.replay := rfl
@[simp] theorem setKind_shared (s : State) (n : Nat) (k : OpKind) : (setKind s n k).shared = s.shared := rfl
@[simp] theorem setKind_stopped (s : State) (n : Nat) (k : OpKind) : (setKind s n k).stopped = s.stopped := rfl

/-! ## openOp -/

@[simp] theorem openOp_mem (s : State) (o : Op) : (openOp s o).mem = s.mem := rfl
@[simp] theorem openOp_poison (s : State) (o : Op) : (openOp s o).poison = s.poison := rfl
@[simp] theorem openOp_cycle (s : State) (o : Op) : (openOp s o).cycle = s.cycle := rfl
@[simp] theorem openOp_issuer (s : State) (o : Op) : (openOp s o).issuer = s.issuer := rfl
@[simp] theorem openOp_agenda (s : State) (o : Op) : (openOp s o).agenda = s.agenda := rfl
@[simp] theorem openOp_freeCtr (s : State) (o : Op) : (openOp s o).freeCtr = s.freeCtr := rfl
@[simp] theorem openOp_fairIdx (s : State) (o : Op) : (openOp s o).fairIdx = s.fairIdx := rfl
@[simp] theorem openOp_fairGap (s : State) (o : Op) : (openOp s o).fairGap = s.fairGap := rfl
@[simp] theorem openOp_teams (s : State) (o : Op) : (openOp s o).teams = s.teams := rfl
@[simp] theorem openOp_nextTeam (s : State) (o : Op) : (openOp s o).nextTeam = s.nextTeam := rfl
@[simp] theorem openOp_batches (s : State) (o : Op) : (openOp s o).batches = s.batches := rfl
@[simp] theorem openOp_nextBatch (s : State) (o : Op) : (openOp s o).nextBatch = s.nextBatch := rfl
@[simp] theorem openOp_frozen (s : State) (o : Op) : (openOp s o).frozen = s.frozen := rfl
@[simp] theorem openOp_grids (s : State) (o : Op) : (openOp s o).grids = s.grids := rfl
@[simp] theorem openOp_nextGrid (s : State) (o : Op) : (openOp s o).nextGrid = s.nextGrid := rfl
@[simp] theorem openOp_contexts (s : State) (o : Op) : (openOp s o).contexts = s.contexts := rfl
@[simp] theorem openOp_parts (s : State) (o : Op) : (openOp s o).parts = s.parts := rfl
@[simp] theorem openOp_queues (s : State) (o : Op) : (openOp s o).queues = s.queues := rfl
@[simp] theorem openOp_nextRec (s : State) (o : Op) : (openOp s o).nextRec = s.nextRec := rfl
@[simp] theorem openOp_served (s : State) (o : Op) : (openOp s o).served = s.served := rfl
@[simp] theorem openOp_cores (s : State) (o : Op) : (openOp s o).cores = s.cores := rfl
@[simp] theorem openOp_coal (s : State) (o : Op) : (openOp s o).coal = s.coal := rfl
@[simp] theorem openOp_l1 (s : State) (o : Op) : (openOp s o).l1 = s.l1 := rfl
@[simp] theorem openOp_mixed (s : State) (o : Op) : (openOp s o).mixed = s.mixed := rfl
@[simp] theorem openOp_dies (s : State) (o : Op) : (openOp s o).dies = s.dies := rfl
@[simp] theorem openOp_dir (s : State) (o : Op) : (openOp s o).dir = s.dir := rfl
@[simp] theorem openOp_tlb (s : State) (o : Op) : (openOp s o).tlb = s.tlb := rfl
@[simp] theorem openOp_counters (s : State) (o : Op) : (openOp s o).counters = s.counters := rfl
@[simp] theorem openOp_eccost (s : State) (o : Op) : (openOp s o).eccost = s.eccost := rfl
@[simp] theorem openOp_images (s : State) (o : Op) : (openOp s o).images = s.images := rfl
@[simp] theorem openOp_channels (s : State) (o : Op) : (openOp s o).channels = s.channels := rfl
@[simp] theorem openOp_irqs (s : State) (o : Op) : (openOp s o).irqs = s.irqs := rfl
@[simp] theorem openOp_replies (s : State) (o : Op) : (openOp s o).replies = s.replies := rfl
@[simp] theorem openOp_routes (s : State) (o : Op) : (openOp s o).routes = s.routes := rfl
@[simp] theorem openOp_deadPorts (s : State) (o : Op) : (openOp s o).deadPorts = s.deadPorts := rfl
@[simp] theorem openOp_identity (s : State) (o : Op) : (openOp s o).identity = s.identity := rfl
@[simp] theorem openOp_bringUp (s : State) (o : Op) : (openOp s o).bringUp = s.bringUp := rfl
@[simp] theorem openOp_measures (s : State) (o : Op) : (openOp s o).measures = s.measures := rfl
@[simp] theorem openOp_report (s : State) (o : Op) : (openOp s o).report = s.report := rfl
@[simp] theorem openOp_ceUnits (s : State) (o : Op) : (openOp s o).ceUnits = s.ceUnits := rfl
@[simp] theorem openOp_spares (s : State) (o : Op) : (openOp s o).spares = s.spares := rfl
@[simp] theorem openOp_keeping (s : State) (o : Op) : (openOp s o).keeping = s.keeping := rfl
@[simp] theorem openOp_journal (s : State) (o : Op) : (openOp s o).journal = s.journal := rfl
@[simp] theorem openOp_replay (s : State) (o : Op) : (openOp s o).replay = s.replay := rfl
@[simp] theorem openOp_shared (s : State) (o : Op) : (openOp s o).shared = s.shared := rfl
@[simp] theorem openOp_stopped (s : State) (o : Op) : (openOp s o).stopped = s.stopped := rfl

/-! ## modThread -/

@[simp] theorem modThread_grid (tm : Team) (t : Nat) (f : Thread → Thread) : (modThread tm t f).grid = tm.grid := rfl
@[simp] theorem modThread_ctx (tm : Team) (t : Nat) (f : Thread → Thread) : (modThread tm t f).ctx = tm.ctx := rfl
@[simp] theorem modThread_core (tm : Team) (t : Nat) (f : Thread → Thread) : (modThread tm t f).core = tm.core := rfl
@[simp] theorem modThread_task (tm : Team) (t : Nat) (f : Thread → Thread) : (modThread tm t f).task = tm.task := rfl
@[simp] theorem modThread_prio (tm : Team) (t : Nat) (f : Thread → Thread) : (modThread tm t f).prio = tm.prio := rfl
@[simp] theorem modThread_tidx (tm : Team) (t : Nat) (f : Thread → Thread) : (modThread tm t f).tidx = tm.tidx := rfl
@[simp] theorem modThread_karg (tm : Team) (t : Nat) (f : Thread → Thread) : (modThread tm t f).karg = tm.karg := rfl
@[simp] theorem modThread_code (tm : Team) (t : Nat) (f : Thread → Thread) : (modThread tm t f).code = tm.code := rfl
@[simp] theorem modThread_staged (tm : Team) (t : Nat) (f : Thread → Thread) : (modThread tm t f).staged = tm.staged := rfl
@[simp] theorem modThread_nthr (tm : Team) (t : Nat) (f : Thread → Thread) : (modThread tm t f).nthr = tm.nthr := rfl
@[simp] theorem modThread_home (tm : Team) (t : Nat) (f : Thread → Thread) : (modThread tm t f).home = tm.home := rfl
@[simp] theorem modThread_extra (tm : Team) (t : Nat) (f : Thread → Thread) : (modThread tm t f).extra = tm.extra := rfl
@[simp] theorem modThread_mgroups (tm : Team) (t : Nat) (f : Thread → Thread) : (modThread tm t f).mgroups = tm.mgroups := rfl
@[simp] theorem modThread_cgroups (tm : Team) (t : Nat) (f : Thread → Thread) : (modThread tm t f).cgroups = tm.cgroups := rfl
@[simp] theorem modThread_budM (tm : Team) (t : Nat) (f : Thread → Thread) : (modThread tm t f).budM = tm.budM := rfl
@[simp] theorem modThread_budC (tm : Team) (t : Nat) (f : Thread → Thread) : (modThread tm t f).budC = tm.budC := rfl
@[simp] theorem modThread_budV (tm : Team) (t : Nat) (f : Thread → Thread) : (modThread tm t f).budV = tm.budV := rfl
@[simp] theorem modThread_slotPart (tm : Team) (t : Nat) (f : Thread → Thread) : (modThread tm t f).slotPart = tm.slotPart := rfl
@[simp] theorem modThread_slotPhys (tm : Team) (t : Nat) (f : Thread → Thread) : (modThread tm t f).slotPhys = tm.slotPhys := rfl
@[simp] theorem modThread_freeAt (tm : Team) (t : Nat) (f : Thread → Thread) : (modThread tm t f).freeAt = tm.freeAt := rfl
@[simp] theorem modThread_groups (tm : Team) (t : Nat) (f : Thread → Thread) : (modThread tm t f).groups = tm.groups := rfl
@[simp] theorem modThread_front (tm : Team) (t : Nat) (f : Thread → Thread) : (modThread tm t f).front = tm.front := rfl
@[simp] theorem modThread_nstamp (tm : Team) (t : Nat) (f : Thread → Thread) : (modThread tm t f).nstamp = tm.nstamp := rfl
@[simp] theorem modThread_nform (tm : Team) (t : Nat) (f : Thread → Thread) : (modThread tm t f).nform = tm.nform := rfl
@[simp] theorem modThread_placedAt (tm : Team) (t : Nat) (f : Thread → Thread) : (modThread tm t f).placedAt = tm.placedAt := rfl
@[simp] theorem modThread_spsize (tm : Team) (t : Nat) (f : Thread → Thread) : (modThread tm t f).spsize = tm.spsize := rfl
@[simp] theorem modThread_scratch (tm : Team) (t : Nat) (f : Thread → Thread) : (modThread tm t f).scratch = tm.scratch := rfl
@[simp] theorem modThread_sems (tm : Team) (t : Nat) (f : Thread → Thread) : (modThread tm t f).sems = tm.sems := rfl
@[simp] theorem modThread_bufs (tm : Team) (t : Nat) (f : Thread → Thread) : (modThread tm t f).bufs = tm.bufs := rfl
@[simp] theorem modThread_binds (tm : Team) (t : Nat) (f : Thread → Thread) : (modThread tm t f).binds = tm.binds := rfl
@[simp] theorem modThread_batch (tm : Team) (t : Nat) (f : Thread → Thread) : (modThread tm t f).batch = tm.batch := rfl
@[simp] theorem modThread_stages (tm : Team) (t : Nat) (f : Thread → Thread) : (modThread tm t f).stages = tm.stages := rfl
@[simp] theorem modThread_seq (tm : Team) (t : Nat) (f : Thread → Thread) : (modThread tm t f).seq = tm.seq := rfl
@[simp] theorem modThread_banks (tm : Team) (t : Nat) (f : Thread → Thread) : (modThread tm t f).banks = tm.banks := rfl
@[simp] theorem modThread_icount (tm : Team) (t : Nat) (f : Thread → Thread) : (modThread tm t f).icount = tm.icount := rfl
@[simp] theorem modThread_htvec (tm : Team) (t : Nat) (f : Thread → Thread) : (modThread tm t f).htvec = tm.htvec := rfl
@[simp] theorem modThread_preq (tm : Team) (t : Nat) (f : Thread → Thread) : (modThread tm t f).preq = tm.preq := rfl
@[simp] theorem modThread_pdeadline (tm : Team) (t : Nat) (f : Thread → Thread) : (modThread tm t f).pdeadline = tm.pdeadline := rfl
@[simp] theorem modThread_reqNext (tm : Team) (t : Nat) (f : Thread → Thread) : (modThread tm t f).reqNext = tm.reqNext := rfl
@[simp] theorem modThread_reqAt (tm : Team) (t : Nat) (f : Thread → Thread) : (modThread tm t f).reqAt = tm.reqAt := rfl
@[simp] theorem modThread_reqNoted (tm : Team) (t : Nat) (f : Thread → Thread) : (modThread tm t f).reqNoted = tm.reqNoted := rfl
@[simp] theorem modThread_rot (tm : Team) (t : Nat) (f : Thread → Thread) : (modThread tm t f).rot = tm.rot := rfl
@[simp] theorem modThread_turn (tm : Team) (t : Nat) (f : Thread → Thread) : (modThread tm t f).turn = tm.turn := rfl
@[simp] theorem modThread_member (tm : Team) (t : Nat) (f : Thread → Thread) : (modThread tm t f).member = tm.member := rfl
@[simp] theorem modThread_mates (tm : Team) (t : Nat) (f : Thread → Thread) : (modThread tm t f).mates = tm.mates := rfl
@[simp] theorem modThread_mateSp (tm : Team) (t : Nat) (f : Thread → Thread) : (modThread tm t f).mateSp = tm.mateSp := rfl
@[simp] theorem modThread_frozen (tm : Team) (t : Nat) (f : Thread → Thread) : (modThread tm t f).frozen = tm.frozen := rfl
@[simp] theorem modThread_saving (tm : Team) (t : Nat) (f : Thread → Thread) : (modThread tm t f).saving = tm.saving := rfl

/-! ## modGroup -/

@[simp] theorem modGroup_grid (tm : Team) (k : Nat) (f : Group → Group) : (modGroup tm k f).grid = tm.grid := rfl
@[simp] theorem modGroup_ctx (tm : Team) (k : Nat) (f : Group → Group) : (modGroup tm k f).ctx = tm.ctx := rfl
@[simp] theorem modGroup_core (tm : Team) (k : Nat) (f : Group → Group) : (modGroup tm k f).core = tm.core := rfl
@[simp] theorem modGroup_task (tm : Team) (k : Nat) (f : Group → Group) : (modGroup tm k f).task = tm.task := rfl
@[simp] theorem modGroup_prio (tm : Team) (k : Nat) (f : Group → Group) : (modGroup tm k f).prio = tm.prio := rfl
@[simp] theorem modGroup_tidx (tm : Team) (k : Nat) (f : Group → Group) : (modGroup tm k f).tidx = tm.tidx := rfl
@[simp] theorem modGroup_karg (tm : Team) (k : Nat) (f : Group → Group) : (modGroup tm k f).karg = tm.karg := rfl
@[simp] theorem modGroup_code (tm : Team) (k : Nat) (f : Group → Group) : (modGroup tm k f).code = tm.code := rfl
@[simp] theorem modGroup_staged (tm : Team) (k : Nat) (f : Group → Group) : (modGroup tm k f).staged = tm.staged := rfl
@[simp] theorem modGroup_nthr (tm : Team) (k : Nat) (f : Group → Group) : (modGroup tm k f).nthr = tm.nthr := rfl
@[simp] theorem modGroup_home (tm : Team) (k : Nat) (f : Group → Group) : (modGroup tm k f).home = tm.home := rfl
@[simp] theorem modGroup_extra (tm : Team) (k : Nat) (f : Group → Group) : (modGroup tm k f).extra = tm.extra := rfl
@[simp] theorem modGroup_mgroups (tm : Team) (k : Nat) (f : Group → Group) : (modGroup tm k f).mgroups = tm.mgroups := rfl
@[simp] theorem modGroup_cgroups (tm : Team) (k : Nat) (f : Group → Group) : (modGroup tm k f).cgroups = tm.cgroups := rfl
@[simp] theorem modGroup_budM (tm : Team) (k : Nat) (f : Group → Group) : (modGroup tm k f).budM = tm.budM := rfl
@[simp] theorem modGroup_budC (tm : Team) (k : Nat) (f : Group → Group) : (modGroup tm k f).budC = tm.budC := rfl
@[simp] theorem modGroup_budV (tm : Team) (k : Nat) (f : Group → Group) : (modGroup tm k f).budV = tm.budV := rfl
@[simp] theorem modGroup_slotPart (tm : Team) (k : Nat) (f : Group → Group) : (modGroup tm k f).slotPart = tm.slotPart := rfl
@[simp] theorem modGroup_slotPhys (tm : Team) (k : Nat) (f : Group → Group) : (modGroup tm k f).slotPhys = tm.slotPhys := rfl
@[simp] theorem modGroup_freeAt (tm : Team) (k : Nat) (f : Group → Group) : (modGroup tm k f).freeAt = tm.freeAt := rfl
@[simp] theorem modGroup_threads (tm : Team) (k : Nat) (f : Group → Group) : (modGroup tm k f).threads = tm.threads := rfl
@[simp] theorem modGroup_front (tm : Team) (k : Nat) (f : Group → Group) : (modGroup tm k f).front = tm.front := rfl
@[simp] theorem modGroup_nstamp (tm : Team) (k : Nat) (f : Group → Group) : (modGroup tm k f).nstamp = tm.nstamp := rfl
@[simp] theorem modGroup_nform (tm : Team) (k : Nat) (f : Group → Group) : (modGroup tm k f).nform = tm.nform := rfl
@[simp] theorem modGroup_placedAt (tm : Team) (k : Nat) (f : Group → Group) : (modGroup tm k f).placedAt = tm.placedAt := rfl
@[simp] theorem modGroup_spsize (tm : Team) (k : Nat) (f : Group → Group) : (modGroup tm k f).spsize = tm.spsize := rfl
@[simp] theorem modGroup_scratch (tm : Team) (k : Nat) (f : Group → Group) : (modGroup tm k f).scratch = tm.scratch := rfl
@[simp] theorem modGroup_sems (tm : Team) (k : Nat) (f : Group → Group) : (modGroup tm k f).sems = tm.sems := rfl
@[simp] theorem modGroup_bufs (tm : Team) (k : Nat) (f : Group → Group) : (modGroup tm k f).bufs = tm.bufs := rfl
@[simp] theorem modGroup_binds (tm : Team) (k : Nat) (f : Group → Group) : (modGroup tm k f).binds = tm.binds := rfl
@[simp] theorem modGroup_batch (tm : Team) (k : Nat) (f : Group → Group) : (modGroup tm k f).batch = tm.batch := rfl
@[simp] theorem modGroup_stages (tm : Team) (k : Nat) (f : Group → Group) : (modGroup tm k f).stages = tm.stages := rfl
@[simp] theorem modGroup_seq (tm : Team) (k : Nat) (f : Group → Group) : (modGroup tm k f).seq = tm.seq := rfl
@[simp] theorem modGroup_banks (tm : Team) (k : Nat) (f : Group → Group) : (modGroup tm k f).banks = tm.banks := rfl
@[simp] theorem modGroup_icount (tm : Team) (k : Nat) (f : Group → Group) : (modGroup tm k f).icount = tm.icount := rfl
@[simp] theorem modGroup_htvec (tm : Team) (k : Nat) (f : Group → Group) : (modGroup tm k f).htvec = tm.htvec := rfl
@[simp] theorem modGroup_preq (tm : Team) (k : Nat) (f : Group → Group) : (modGroup tm k f).preq = tm.preq := rfl
@[simp] theorem modGroup_pdeadline (tm : Team) (k : Nat) (f : Group → Group) : (modGroup tm k f).pdeadline = tm.pdeadline := rfl
@[simp] theorem modGroup_reqNext (tm : Team) (k : Nat) (f : Group → Group) : (modGroup tm k f).reqNext = tm.reqNext := rfl
@[simp] theorem modGroup_reqAt (tm : Team) (k : Nat) (f : Group → Group) : (modGroup tm k f).reqAt = tm.reqAt := rfl
@[simp] theorem modGroup_reqNoted (tm : Team) (k : Nat) (f : Group → Group) : (modGroup tm k f).reqNoted = tm.reqNoted := rfl
@[simp] theorem modGroup_rot (tm : Team) (k : Nat) (f : Group → Group) : (modGroup tm k f).rot = tm.rot := rfl
@[simp] theorem modGroup_turn (tm : Team) (k : Nat) (f : Group → Group) : (modGroup tm k f).turn = tm.turn := rfl
@[simp] theorem modGroup_member (tm : Team) (k : Nat) (f : Group → Group) : (modGroup tm k f).member = tm.member := rfl
@[simp] theorem modGroup_mates (tm : Team) (k : Nat) (f : Group → Group) : (modGroup tm k f).mates = tm.mates := rfl
@[simp] theorem modGroup_mateSp (tm : Team) (k : Nat) (f : Group → Group) : (modGroup tm k f).mateSp = tm.mateSp := rfl
@[simp] theorem modGroup_frozen (tm : Team) (k : Nat) (f : Group → Group) : (modGroup tm k f).frozen = tm.frozen := rfl
@[simp] theorem modGroup_saving (tm : Team) (k : Nat) (f : Group → Group) : (modGroup tm k f).saving = tm.saving := rfl

/-! ## modBank -/

@[simp] theorem modBank_grid (tm : Team) (n : Nat) (f : Bank → Bank) : (modBank tm n f).grid = tm.grid := rfl
@[simp] theorem modBank_ctx (tm : Team) (n : Nat) (f : Bank → Bank) : (modBank tm n f).ctx = tm.ctx := rfl
@[simp] theorem modBank_core (tm : Team) (n : Nat) (f : Bank → Bank) : (modBank tm n f).core = tm.core := rfl
@[simp] theorem modBank_task (tm : Team) (n : Nat) (f : Bank → Bank) : (modBank tm n f).task = tm.task := rfl
@[simp] theorem modBank_prio (tm : Team) (n : Nat) (f : Bank → Bank) : (modBank tm n f).prio = tm.prio := rfl
@[simp] theorem modBank_tidx (tm : Team) (n : Nat) (f : Bank → Bank) : (modBank tm n f).tidx = tm.tidx := rfl
@[simp] theorem modBank_karg (tm : Team) (n : Nat) (f : Bank → Bank) : (modBank tm n f).karg = tm.karg := rfl
@[simp] theorem modBank_code (tm : Team) (n : Nat) (f : Bank → Bank) : (modBank tm n f).code = tm.code := rfl
@[simp] theorem modBank_staged (tm : Team) (n : Nat) (f : Bank → Bank) : (modBank tm n f).staged = tm.staged := rfl
@[simp] theorem modBank_nthr (tm : Team) (n : Nat) (f : Bank → Bank) : (modBank tm n f).nthr = tm.nthr := rfl
@[simp] theorem modBank_home (tm : Team) (n : Nat) (f : Bank → Bank) : (modBank tm n f).home = tm.home := rfl
@[simp] theorem modBank_extra (tm : Team) (n : Nat) (f : Bank → Bank) : (modBank tm n f).extra = tm.extra := rfl
@[simp] theorem modBank_mgroups (tm : Team) (n : Nat) (f : Bank → Bank) : (modBank tm n f).mgroups = tm.mgroups := rfl
@[simp] theorem modBank_cgroups (tm : Team) (n : Nat) (f : Bank → Bank) : (modBank tm n f).cgroups = tm.cgroups := rfl
@[simp] theorem modBank_budM (tm : Team) (n : Nat) (f : Bank → Bank) : (modBank tm n f).budM = tm.budM := rfl
@[simp] theorem modBank_budC (tm : Team) (n : Nat) (f : Bank → Bank) : (modBank tm n f).budC = tm.budC := rfl
@[simp] theorem modBank_budV (tm : Team) (n : Nat) (f : Bank → Bank) : (modBank tm n f).budV = tm.budV := rfl
@[simp] theorem modBank_slotPart (tm : Team) (n : Nat) (f : Bank → Bank) : (modBank tm n f).slotPart = tm.slotPart := rfl
@[simp] theorem modBank_slotPhys (tm : Team) (n : Nat) (f : Bank → Bank) : (modBank tm n f).slotPhys = tm.slotPhys := rfl
@[simp] theorem modBank_freeAt (tm : Team) (n : Nat) (f : Bank → Bank) : (modBank tm n f).freeAt = tm.freeAt := rfl
@[simp] theorem modBank_groups (tm : Team) (n : Nat) (f : Bank → Bank) : (modBank tm n f).groups = tm.groups := rfl
@[simp] theorem modBank_threads (tm : Team) (n : Nat) (f : Bank → Bank) : (modBank tm n f).threads = tm.threads := rfl
@[simp] theorem modBank_front (tm : Team) (n : Nat) (f : Bank → Bank) : (modBank tm n f).front = tm.front := rfl
@[simp] theorem modBank_nstamp (tm : Team) (n : Nat) (f : Bank → Bank) : (modBank tm n f).nstamp = tm.nstamp := rfl
@[simp] theorem modBank_nform (tm : Team) (n : Nat) (f : Bank → Bank) : (modBank tm n f).nform = tm.nform := rfl
@[simp] theorem modBank_placedAt (tm : Team) (n : Nat) (f : Bank → Bank) : (modBank tm n f).placedAt = tm.placedAt := rfl
@[simp] theorem modBank_spsize (tm : Team) (n : Nat) (f : Bank → Bank) : (modBank tm n f).spsize = tm.spsize := rfl
@[simp] theorem modBank_scratch (tm : Team) (n : Nat) (f : Bank → Bank) : (modBank tm n f).scratch = tm.scratch := rfl
@[simp] theorem modBank_sems (tm : Team) (n : Nat) (f : Bank → Bank) : (modBank tm n f).sems = tm.sems := rfl
@[simp] theorem modBank_bufs (tm : Team) (n : Nat) (f : Bank → Bank) : (modBank tm n f).bufs = tm.bufs := rfl
@[simp] theorem modBank_binds (tm : Team) (n : Nat) (f : Bank → Bank) : (modBank tm n f).binds = tm.binds := rfl
@[simp] theorem modBank_batch (tm : Team) (n : Nat) (f : Bank → Bank) : (modBank tm n f).batch = tm.batch := rfl
@[simp] theorem modBank_stages (tm : Team) (n : Nat) (f : Bank → Bank) : (modBank tm n f).stages = tm.stages := rfl
@[simp] theorem modBank_seq (tm : Team) (n : Nat) (f : Bank → Bank) : (modBank tm n f).seq = tm.seq := rfl
@[simp] theorem modBank_icount (tm : Team) (n : Nat) (f : Bank → Bank) : (modBank tm n f).icount = tm.icount := rfl
@[simp] theorem modBank_htvec (tm : Team) (n : Nat) (f : Bank → Bank) : (modBank tm n f).htvec = tm.htvec := rfl
@[simp] theorem modBank_preq (tm : Team) (n : Nat) (f : Bank → Bank) : (modBank tm n f).preq = tm.preq := rfl
@[simp] theorem modBank_pdeadline (tm : Team) (n : Nat) (f : Bank → Bank) : (modBank tm n f).pdeadline = tm.pdeadline := rfl
@[simp] theorem modBank_reqNext (tm : Team) (n : Nat) (f : Bank → Bank) : (modBank tm n f).reqNext = tm.reqNext := rfl
@[simp] theorem modBank_reqAt (tm : Team) (n : Nat) (f : Bank → Bank) : (modBank tm n f).reqAt = tm.reqAt := rfl
@[simp] theorem modBank_reqNoted (tm : Team) (n : Nat) (f : Bank → Bank) : (modBank tm n f).reqNoted = tm.reqNoted := rfl
@[simp] theorem modBank_rot (tm : Team) (n : Nat) (f : Bank → Bank) : (modBank tm n f).rot = tm.rot := rfl
@[simp] theorem modBank_turn (tm : Team) (n : Nat) (f : Bank → Bank) : (modBank tm n f).turn = tm.turn := rfl
@[simp] theorem modBank_member (tm : Team) (n : Nat) (f : Bank → Bank) : (modBank tm n f).member = tm.member := rfl
@[simp] theorem modBank_mates (tm : Team) (n : Nat) (f : Bank → Bank) : (modBank tm n f).mates = tm.mates := rfl
@[simp] theorem modBank_mateSp (tm : Team) (n : Nat) (f : Bank → Bank) : (modBank tm n f).mateSp = tm.mateSp := rfl
@[simp] theorem modBank_frozen (tm : Team) (n : Nat) (f : Bank → Bank) : (modBank tm n f).frozen = tm.frozen := rfl
@[simp] theorem modBank_saving (tm : Team) (n : Nat) (f : Bank → Bank) : (modBank tm n f).saving = tm.saving := rfl

/-! ## modStage -/

@[simp] theorem modStage_grid (tm : Team) (k : Nat) (f : BStage → BStage) : (modStage tm k f).grid = tm.grid := rfl
@[simp] theorem modStage_ctx (tm : Team) (k : Nat) (f : BStage → BStage) : (modStage tm k f).ctx = tm.ctx := rfl
@[simp] theorem modStage_core (tm : Team) (k : Nat) (f : BStage → BStage) : (modStage tm k f).core = tm.core := rfl
@[simp] theorem modStage_task (tm : Team) (k : Nat) (f : BStage → BStage) : (modStage tm k f).task = tm.task := rfl
@[simp] theorem modStage_prio (tm : Team) (k : Nat) (f : BStage → BStage) : (modStage tm k f).prio = tm.prio := rfl
@[simp] theorem modStage_tidx (tm : Team) (k : Nat) (f : BStage → BStage) : (modStage tm k f).tidx = tm.tidx := rfl
@[simp] theorem modStage_karg (tm : Team) (k : Nat) (f : BStage → BStage) : (modStage tm k f).karg = tm.karg := rfl
@[simp] theorem modStage_code (tm : Team) (k : Nat) (f : BStage → BStage) : (modStage tm k f).code = tm.code := rfl
@[simp] theorem modStage_staged (tm : Team) (k : Nat) (f : BStage → BStage) : (modStage tm k f).staged = tm.staged := rfl
@[simp] theorem modStage_nthr (tm : Team) (k : Nat) (f : BStage → BStage) : (modStage tm k f).nthr = tm.nthr := rfl
@[simp] theorem modStage_home (tm : Team) (k : Nat) (f : BStage → BStage) : (modStage tm k f).home = tm.home := rfl
@[simp] theorem modStage_extra (tm : Team) (k : Nat) (f : BStage → BStage) : (modStage tm k f).extra = tm.extra := rfl
@[simp] theorem modStage_mgroups (tm : Team) (k : Nat) (f : BStage → BStage) : (modStage tm k f).mgroups = tm.mgroups := rfl
@[simp] theorem modStage_cgroups (tm : Team) (k : Nat) (f : BStage → BStage) : (modStage tm k f).cgroups = tm.cgroups := rfl
@[simp] theorem modStage_budM (tm : Team) (k : Nat) (f : BStage → BStage) : (modStage tm k f).budM = tm.budM := rfl
@[simp] theorem modStage_budC (tm : Team) (k : Nat) (f : BStage → BStage) : (modStage tm k f).budC = tm.budC := rfl
@[simp] theorem modStage_budV (tm : Team) (k : Nat) (f : BStage → BStage) : (modStage tm k f).budV = tm.budV := rfl
@[simp] theorem modStage_slotPart (tm : Team) (k : Nat) (f : BStage → BStage) : (modStage tm k f).slotPart = tm.slotPart := rfl
@[simp] theorem modStage_slotPhys (tm : Team) (k : Nat) (f : BStage → BStage) : (modStage tm k f).slotPhys = tm.slotPhys := rfl
@[simp] theorem modStage_freeAt (tm : Team) (k : Nat) (f : BStage → BStage) : (modStage tm k f).freeAt = tm.freeAt := rfl
@[simp] theorem modStage_groups (tm : Team) (k : Nat) (f : BStage → BStage) : (modStage tm k f).groups = tm.groups := rfl
@[simp] theorem modStage_threads (tm : Team) (k : Nat) (f : BStage → BStage) : (modStage tm k f).threads = tm.threads := rfl
@[simp] theorem modStage_front (tm : Team) (k : Nat) (f : BStage → BStage) : (modStage tm k f).front = tm.front := rfl
@[simp] theorem modStage_nstamp (tm : Team) (k : Nat) (f : BStage → BStage) : (modStage tm k f).nstamp = tm.nstamp := rfl
@[simp] theorem modStage_nform (tm : Team) (k : Nat) (f : BStage → BStage) : (modStage tm k f).nform = tm.nform := rfl
@[simp] theorem modStage_placedAt (tm : Team) (k : Nat) (f : BStage → BStage) : (modStage tm k f).placedAt = tm.placedAt := rfl
@[simp] theorem modStage_spsize (tm : Team) (k : Nat) (f : BStage → BStage) : (modStage tm k f).spsize = tm.spsize := rfl
@[simp] theorem modStage_scratch (tm : Team) (k : Nat) (f : BStage → BStage) : (modStage tm k f).scratch = tm.scratch := rfl
@[simp] theorem modStage_sems (tm : Team) (k : Nat) (f : BStage → BStage) : (modStage tm k f).sems = tm.sems := rfl
@[simp] theorem modStage_bufs (tm : Team) (k : Nat) (f : BStage → BStage) : (modStage tm k f).bufs = tm.bufs := rfl
@[simp] theorem modStage_binds (tm : Team) (k : Nat) (f : BStage → BStage) : (modStage tm k f).binds = tm.binds := rfl
@[simp] theorem modStage_batch (tm : Team) (k : Nat) (f : BStage → BStage) : (modStage tm k f).batch = tm.batch := rfl
@[simp] theorem modStage_seq (tm : Team) (k : Nat) (f : BStage → BStage) : (modStage tm k f).seq = tm.seq := rfl
@[simp] theorem modStage_banks (tm : Team) (k : Nat) (f : BStage → BStage) : (modStage tm k f).banks = tm.banks := rfl
@[simp] theorem modStage_icount (tm : Team) (k : Nat) (f : BStage → BStage) : (modStage tm k f).icount = tm.icount := rfl
@[simp] theorem modStage_htvec (tm : Team) (k : Nat) (f : BStage → BStage) : (modStage tm k f).htvec = tm.htvec := rfl
@[simp] theorem modStage_preq (tm : Team) (k : Nat) (f : BStage → BStage) : (modStage tm k f).preq = tm.preq := rfl
@[simp] theorem modStage_pdeadline (tm : Team) (k : Nat) (f : BStage → BStage) : (modStage tm k f).pdeadline = tm.pdeadline := rfl
@[simp] theorem modStage_reqNext (tm : Team) (k : Nat) (f : BStage → BStage) : (modStage tm k f).reqNext = tm.reqNext := rfl
@[simp] theorem modStage_reqAt (tm : Team) (k : Nat) (f : BStage → BStage) : (modStage tm k f).reqAt = tm.reqAt := rfl
@[simp] theorem modStage_reqNoted (tm : Team) (k : Nat) (f : BStage → BStage) : (modStage tm k f).reqNoted = tm.reqNoted := rfl
@[simp] theorem modStage_rot (tm : Team) (k : Nat) (f : BStage → BStage) : (modStage tm k f).rot = tm.rot := rfl
@[simp] theorem modStage_turn (tm : Team) (k : Nat) (f : BStage → BStage) : (modStage tm k f).turn = tm.turn := rfl
@[simp] theorem modStage_member (tm : Team) (k : Nat) (f : BStage → BStage) : (modStage tm k f).member = tm.member := rfl
@[simp] theorem modStage_mates (tm : Team) (k : Nat) (f : BStage → BStage) : (modStage tm k f).mates = tm.mates := rfl
@[simp] theorem modStage_mateSp (tm : Team) (k : Nat) (f : BStage → BStage) : (modStage tm k f).mateSp = tm.mateSp := rfl
@[simp] theorem modStage_frozen (tm : Team) (k : Nat) (f : BStage → BStage) : (modStage tm k f).frozen = tm.frozen := rfl
@[simp] theorem modStage_saving (tm : Team) (k : Nat) (f : BStage → BStage) : (modStage tm k f).saving = tm.saving := rfl

/-! ## modBuf -/

@[simp] theorem modBuf_grid (tm : Team) (n : Nat) (f : Buf → Buf) : (modBuf tm n f).grid = tm.grid := rfl
@[simp] theorem modBuf_ctx (tm : Team) (n : Nat) (f : Buf → Buf) : (modBuf tm n f).ctx = tm.ctx := rfl
@[simp] theorem modBuf_core (tm : Team) (n : Nat) (f : Buf → Buf) : (modBuf tm n f).core = tm.core := rfl
@[simp] theorem modBuf_task (tm : Team) (n : Nat) (f : Buf → Buf) : (modBuf tm n f).task = tm.task := rfl
@[simp] theorem modBuf_prio (tm : Team) (n : Nat) (f : Buf → Buf) : (modBuf tm n f).prio = tm.prio := rfl
@[simp] theorem modBuf_tidx (tm : Team) (n : Nat) (f : Buf → Buf) : (modBuf tm n f).tidx = tm.tidx := rfl
@[simp] theorem modBuf_karg (tm : Team) (n : Nat) (f : Buf → Buf) : (modBuf tm n f).karg = tm.karg := rfl
@[simp] theorem modBuf_code (tm : Team) (n : Nat) (f : Buf → Buf) : (modBuf tm n f).code = tm.code := rfl
@[simp] theorem modBuf_staged (tm : Team) (n : Nat) (f : Buf → Buf) : (modBuf tm n f).staged = tm.staged := rfl
@[simp] theorem modBuf_nthr (tm : Team) (n : Nat) (f : Buf → Buf) : (modBuf tm n f).nthr = tm.nthr := rfl
@[simp] theorem modBuf_home (tm : Team) (n : Nat) (f : Buf → Buf) : (modBuf tm n f).home = tm.home := rfl
@[simp] theorem modBuf_extra (tm : Team) (n : Nat) (f : Buf → Buf) : (modBuf tm n f).extra = tm.extra := rfl
@[simp] theorem modBuf_mgroups (tm : Team) (n : Nat) (f : Buf → Buf) : (modBuf tm n f).mgroups = tm.mgroups := rfl
@[simp] theorem modBuf_cgroups (tm : Team) (n : Nat) (f : Buf → Buf) : (modBuf tm n f).cgroups = tm.cgroups := rfl
@[simp] theorem modBuf_budM (tm : Team) (n : Nat) (f : Buf → Buf) : (modBuf tm n f).budM = tm.budM := rfl
@[simp] theorem modBuf_budC (tm : Team) (n : Nat) (f : Buf → Buf) : (modBuf tm n f).budC = tm.budC := rfl
@[simp] theorem modBuf_budV (tm : Team) (n : Nat) (f : Buf → Buf) : (modBuf tm n f).budV = tm.budV := rfl
@[simp] theorem modBuf_slotPart (tm : Team) (n : Nat) (f : Buf → Buf) : (modBuf tm n f).slotPart = tm.slotPart := rfl
@[simp] theorem modBuf_slotPhys (tm : Team) (n : Nat) (f : Buf → Buf) : (modBuf tm n f).slotPhys = tm.slotPhys := rfl
@[simp] theorem modBuf_freeAt (tm : Team) (n : Nat) (f : Buf → Buf) : (modBuf tm n f).freeAt = tm.freeAt := rfl
@[simp] theorem modBuf_groups (tm : Team) (n : Nat) (f : Buf → Buf) : (modBuf tm n f).groups = tm.groups := rfl
@[simp] theorem modBuf_threads (tm : Team) (n : Nat) (f : Buf → Buf) : (modBuf tm n f).threads = tm.threads := rfl
@[simp] theorem modBuf_front (tm : Team) (n : Nat) (f : Buf → Buf) : (modBuf tm n f).front = tm.front := rfl
@[simp] theorem modBuf_nstamp (tm : Team) (n : Nat) (f : Buf → Buf) : (modBuf tm n f).nstamp = tm.nstamp := rfl
@[simp] theorem modBuf_nform (tm : Team) (n : Nat) (f : Buf → Buf) : (modBuf tm n f).nform = tm.nform := rfl
@[simp] theorem modBuf_placedAt (tm : Team) (n : Nat) (f : Buf → Buf) : (modBuf tm n f).placedAt = tm.placedAt := rfl
@[simp] theorem modBuf_spsize (tm : Team) (n : Nat) (f : Buf → Buf) : (modBuf tm n f).spsize = tm.spsize := rfl
@[simp] theorem modBuf_scratch (tm : Team) (n : Nat) (f : Buf → Buf) : (modBuf tm n f).scratch = tm.scratch := rfl
@[simp] theorem modBuf_sems (tm : Team) (n : Nat) (f : Buf → Buf) : (modBuf tm n f).sems = tm.sems := rfl
@[simp] theorem modBuf_binds (tm : Team) (n : Nat) (f : Buf → Buf) : (modBuf tm n f).binds = tm.binds := rfl
@[simp] theorem modBuf_batch (tm : Team) (n : Nat) (f : Buf → Buf) : (modBuf tm n f).batch = tm.batch := rfl
@[simp] theorem modBuf_stages (tm : Team) (n : Nat) (f : Buf → Buf) : (modBuf tm n f).stages = tm.stages := rfl
@[simp] theorem modBuf_seq (tm : Team) (n : Nat) (f : Buf → Buf) : (modBuf tm n f).seq = tm.seq := rfl
@[simp] theorem modBuf_banks (tm : Team) (n : Nat) (f : Buf → Buf) : (modBuf tm n f).banks = tm.banks := rfl
@[simp] theorem modBuf_icount (tm : Team) (n : Nat) (f : Buf → Buf) : (modBuf tm n f).icount = tm.icount := rfl
@[simp] theorem modBuf_htvec (tm : Team) (n : Nat) (f : Buf → Buf) : (modBuf tm n f).htvec = tm.htvec := rfl
@[simp] theorem modBuf_preq (tm : Team) (n : Nat) (f : Buf → Buf) : (modBuf tm n f).preq = tm.preq := rfl
@[simp] theorem modBuf_pdeadline (tm : Team) (n : Nat) (f : Buf → Buf) : (modBuf tm n f).pdeadline = tm.pdeadline := rfl
@[simp] theorem modBuf_reqNext (tm : Team) (n : Nat) (f : Buf → Buf) : (modBuf tm n f).reqNext = tm.reqNext := rfl
@[simp] theorem modBuf_reqAt (tm : Team) (n : Nat) (f : Buf → Buf) : (modBuf tm n f).reqAt = tm.reqAt := rfl
@[simp] theorem modBuf_reqNoted (tm : Team) (n : Nat) (f : Buf → Buf) : (modBuf tm n f).reqNoted = tm.reqNoted := rfl
@[simp] theorem modBuf_rot (tm : Team) (n : Nat) (f : Buf → Buf) : (modBuf tm n f).rot = tm.rot := rfl
@[simp] theorem modBuf_turn (tm : Team) (n : Nat) (f : Buf → Buf) : (modBuf tm n f).turn = tm.turn := rfl
@[simp] theorem modBuf_member (tm : Team) (n : Nat) (f : Buf → Buf) : (modBuf tm n f).member = tm.member := rfl
@[simp] theorem modBuf_mates (tm : Team) (n : Nat) (f : Buf → Buf) : (modBuf tm n f).mates = tm.mates := rfl
@[simp] theorem modBuf_mateSp (tm : Team) (n : Nat) (f : Buf → Buf) : (modBuf tm n f).mateSp = tm.mateSp := rfl
@[simp] theorem modBuf_frozen (tm : Team) (n : Nat) (f : Buf → Buf) : (modBuf tm n f).frozen = tm.frozen := rfl
@[simp] theorem modBuf_saving (tm : Team) (n : Nat) (f : Buf → Buf) : (modBuf tm n f).saving = tm.saving := rfl

end Sys2Proof.Laws
end

