-- ==== Sys2Proof/Laws/Store.lean ====
section
/-! SUPPORT. Reads after writes in keyed collections and in memory, and the canonical form that every write keeps. -/

namespace Sys2Proof.Laws

open Sys2Proof.Machine

/-! ## Keyed collections -/

section Keyed
variable {α : Type}

theorem sget_sset (s : Store α) (n m : Nat) (v : α) : sget (sset s n v) m = if n = m then some v else sget s m := by
  induction s with
  | nil => simp [sset, sget]
  | cons e t ih =>
    obtain ⟨k, w⟩ := e
    simp only [sset]
    split
    · simp [sget]
    · split
      · subst_vars
        by_cases h : k = m <;> simp [sget, h]
      · by_cases h : k = m
        · subst h
          simp [sget, *]
        · simp [sget, h, ih]

@[simp] theorem sget_sset_eq (s : Store α) (n : Nat) (v : α) : sget (sset s n v) n = some v := by simp [sget_sset]
theorem sget_sset_ne (s : Store α) {n m : Nat} (v : α) (h : n ≠ m) : sget (sset s n v) m = sget s m := by
  simp [sget_sset, h]

theorem sget_serase (s : Store α) (n m : Nat) : sget (serase s n) m = if n = m then none else sget s m := by
  induction s with
  | nil => simp [serase, sget]
  | cons e t ih =>
    obtain ⟨k, w⟩ := e
    simp only [serase]
    split
    · subst_vars
      rw [ih]
      by_cases h : k = m <;> simp [sget, h]
    · by_cases h : k = m
      · subst h
        simp_all [sget, eq_comm]
      · simp [sget, h, ih]

@[simp] theorem sget_serase_eq (s : Store α) (n : Nat) : sget (serase s n) n = none := by simp [sget_serase]
theorem sget_serase_ne (s : Store α) {n m : Nat} (h : n ≠ m) : sget (serase s n) m = sget s m := by simp [sget_serase, h]

theorem sget_smod (s : Store α) (n m : Nat) (f : α → α) :
    sget (smod s n f) m = if n = m then (sget s m).map f else sget s m := by
  induction s with
  | nil => simp [smod, sget]
  | cons e t ih =>
    obtain ⟨k, w⟩ := e
    simp only [smod]
    split
    · subst_vars
      by_cases h : k = m <;> simp [sget, h]
    · by_cases h : k = m
      · subst h
        simp_all [sget, eq_comm]
      · simp [sget, h, ih]

@[simp] theorem sget_smod_eq (s : Store α) (n : Nat) (f : α → α) : sget (smod s n f) n = (sget s n).map f := by
  simp [sget_smod]
theorem sget_smod_ne (s : Store α) {n m : Nat} (f : α → α) (h : n ≠ m) : sget (smod s n f) m = sget s m := by
  simp [sget_smod, h]

theorem sgetD_ssetD [DecidableEq α] (s : Store α) (n m : Nat) (v d : α) :
    sgetD (ssetD s n v d) m d = if n = m then v else sgetD s m d := by
  unfold ssetD sgetD
  split
  · rw [sget_serase]
    split <;> simp_all
  · rw [sget_sset]
    split <;> simp

@[simp] theorem sgetD_ssetD_eq [DecidableEq α] (s : Store α) (n : Nat) (v d : α) : sgetD (ssetD s n v d) n d = v := by
  simp [sgetD_ssetD]
theorem sgetD_ssetD_ne [DecidableEq α] (s : Store α) {n m : Nat} (v d : α) (h : n ≠ m) :
    sgetD (ssetD s n v d) m d = sgetD s m d := by simp [sgetD_ssetD, h]

/-! ## Canonical form -/

/-- Every key of a collection lies above a bound. -/
def Above (b : Nat) (s : Store α) : Prop := ∀ e ∈ s, b < e.1

theorem srising_cons (k : Nat) (w : α) (t : Store α) : srising ((k, w) :: t) = true ↔ Above k t ∧ srising t = true := by
  induction t generalizing k w with
  | nil => simp [srising, Above]
  | cons e t ih =>
    obtain ⟨k', w'⟩ := e
    have ih' := ih k' w'
    simp only [srising, Bool.and_eq_true, decide_eq_true_eq, Above, List.mem_cons, forall_eq_or_imp] at ih' ⊢
    rw [ih']
    constructor
    · rintro ⟨h, ha, hr⟩
      exact ⟨⟨h, fun e he => Nat.lt_trans h (ha e he)⟩, ha, hr⟩
    · rintro ⟨⟨h, _⟩, ha, hr⟩
      exact ⟨h, ha, hr⟩

theorem Above_sset {b n : Nat} {s : Store α} {v : α} (h : Above b s) (hn : b < n) : Above b (sset s n v) := by
  induction s with
  | nil => simpa [sset, Above] using hn
  | cons e t ih =>
    obtain ⟨k, w⟩ := e
    have hk : b < k := h (k, w) (by simp)
    have ht : Above b t := fun e he => h e (by simp [he])
    simp only [sset]
    split
    · intro e he
      rcases List.mem_cons.1 he with rfl | he
      · exact hn
      · exact h e he
    · split
      · intro e he
        rcases List.mem_cons.1 he with rfl | he
        · exact hn
        · exact ht e he
      · intro e he
        rcases List.mem_cons.1 he with rfl | he
        · exact hk
        · exact ih ht e he

theorem Above_serase {b n : Nat} {s : Store α} (h : Above b s) : Above b (serase s n) := by
  induction s with
  | nil => simpa [serase] using h
  | cons e t ih =>
    obtain ⟨k, w⟩ := e
    have ht : Above b t := fun e he => h e (by simp [he])
    simp only [serase]
    split
    · exact ih ht
    · intro e he
      rcases List.mem_cons.1 he with rfl | he
      · exact h _ (by simp)
      · exact ih ht e he

/-- A write keeps keys rising. -/
theorem srising_sset {s : Store α} (n : Nat) (v : α) (h : srising s = true) : srising (sset s n v) = true := by
  induction s with
  | nil => simp [sset, srising]
  | cons e t ih =>
    obtain ⟨k, w⟩ := e
    obtain ⟨ha, ht⟩ := (srising_cons k w t).1 h
    simp only [sset]
    split
    · refine (srising_cons _ _ _).2 ⟨?_, h⟩
      intro e he
      rcases List.mem_cons.1 he with rfl | he
      · assumption
      · exact Nat.lt_trans ‹_› (ha e he)
    · split
      · subst_vars
        exact (srising_cons _ _ _).2 ⟨ha, ht⟩
      · exact (srising_cons _ _ _).2 ⟨Above_sset ha (by omega), ih ht⟩

/-- An erasure keeps keys rising. -/
theorem srising_serase {s : Store α} (n : Nat) (h : srising s = true) : srising (serase s n) = true := by
  induction s with
  | nil => simp [serase, srising]
  | cons e t ih =>
    obtain ⟨k, w⟩ := e
    obtain ⟨ha, ht⟩ := (srising_cons k w t).1 h
    simp only [serase]
    split
    · exact ih ht
    · exact (srising_cons _ _ _).2 ⟨Above_serase ha, ih ht⟩

theorem snodef_cons [DecidableEq α] (k : Nat) (w : α) (t : Store α) (d : α) :
    snodef ((k, w) :: t) d = true ↔ w ≠ d ∧ snodef t d = true := by
  simp [snodef]

theorem snodef_sset [DecidableEq α] {s : Store α} {d v : α} (n : Nat) (hv : v ≠ d) (h : snodef s d = true) :
    snodef (sset s n v) d = true := by
  induction s with
  | nil => simp [sset, snodef, hv]
  | cons e t ih =>
    obtain ⟨k, w⟩ := e
    simp only [sset]
    rw [snodef_cons] at h
    split
    · simpa [snodef_cons] using ⟨hv, h⟩
    · split
      · simpa [snodef_cons] using ⟨hv, h.2⟩
      · simpa [snodef_cons] using ⟨h.1, ih h.2⟩

theorem snodef_serase [DecidableEq α] {s : Store α} {d : α} (n : Nat) (h : snodef s d = true) :
    snodef (serase s n) d = true := by
  induction s with
  | nil => simp [serase, snodef]
  | cons e t ih =>
    obtain ⟨k, w⟩ := e
    simp only [serase]
    rw [snodef_cons] at h
    split
    · exact ih h.2
    · simpa [snodef_cons] using ⟨h.1, ih h.2⟩

end Keyed

/-! ## Memory -/

/-- What a byte reads after a write of one byte. -/
theorem memByte_memSet (m : List Host.Cell) (a c : Nat) (b : Byte) : memByte (memSet m a b) c = if a = c then b else memByte m c :=
  sgetD_ssetD m a c b unlisted

/-- A byte outside a write reads as before. -/
theorem memByte_memSets_out (m : List Host.Cell) (a c : Nat) (bs : List Byte) (h : c < a ∨ a + bs.length ≤ c) :
    memByte (memSets m a bs) c = memByte m c := by
  induction bs generalizing m a with
  | nil => rfl
  | cons b t ih =>
    simp only [List.length_cons] at h
    rw [memSets, ih _ _ (by omega), memByte_memSet, if_neg (by omega)]

/-- A byte inside a write reads what was written. -/
theorem memByte_memSets_in (m : List Host.Cell) (a i : Nat) (bs : List Byte) (h : i < bs.length) :
    memByte (memSets m a bs) (a + i) = bs[i] := by
  induction bs generalizing m a i with
  | nil => simp at h
  | cons b t ih =>
    cases i with
    | zero =>
      rw [memSets, memByte_memSets_out _ _ _ _ (by omega), memByte_memSet]
      simp
    | succ i =>
      rw [memSets, show a + (i + 1) = a + 1 + i by omega, ih _ _ _ (by simpa using h)]
      simp

/-- A write of one byte keeps the canonical form. -/
theorem wf_memSet {m : List Host.Cell} (a : Nat) (b : Byte) (h : Memory.wf m = true) : Memory.wf (memSet m a b) = true := by
  simp only [Memory.wf, Bool.and_eq_true] at h ⊢
  unfold memSet ssetD
  split
  · exact ⟨srising_serase a h.1, snodef_serase a h.2⟩
  · exact ⟨srising_sset a b h.1, snodef_sset a ‹_› h.2⟩

/-- Every write to memory keeps the canonical form. -/
theorem wf_memSets {m : List Host.Cell} (a : Nat) (bs : List Byte) (h : Memory.wf m = true) : Memory.wf (memSets m a bs) = true := by
  induction bs generalizing m a with
  | nil => exact h
  | cons b t ih => exact ih (a + 1) (wf_memSet a b h)

/-- What was written reads back. -/
theorem memBytes_memSets (m : List Host.Cell) (a : Nat) (bs : List Byte) : memBytes (memSets m a bs) a bs.length = bs := by
  refine List.ext_getElem (by simp [memBytes]) fun i h1 h2 => ?_
  simp [memBytes, memByte_memSets_in m a i bs h2]

theorem length_natLe (n v : Nat) : (natLe n v).length = n := by
  induction n generalizing v with
  | zero => rfl
  | succ n ih => simp [natLe, ih]

/-- A number survives being laid out in enough bytes. -/
theorem leNat_natLe (n v : Nat) : leNat (natLe n v) = v % 256 ^ n := by
  induction n generalizing v with
  | zero => simp [natLe, leNat, Nat.mod_one]
  | succ n ih =>
    rw [natLe, leNat, ih, BitVec.toNat_ofNat, show 256 ^ (n + 1) = 256 * 256 ^ n from Nat.pow_succ', Nat.mod_mul]

end Sys2Proof.Laws
end

