-- ==== Sys2Proof/Laws/Frames.lean ====
section
/-! SUPPORT. What reads, drains and performed writes leave alone: the caches, the buffers, memory, the directories, the masters and
the marks of R300 apart, the machine stands as before. -/

namespace Sys2Proof.Laws

open Sys2Proof.Machine

/-- A thread, and a team, without the marks of R300. -/
def threadBare (th : Thread) : Thread := { th with mark := false }
def teamBare (tm : Team) : Team :=
  { tm with threads := tm.threads.map fun e => (e.1, threadBare e.2), seq := tm.seq.map fun q => { q with mark := false } }

/-- A state without what reads, drains and performed writes may change. -/
def bare (s : State) : State :=
  { s with
    mem := [], coal := [], l1 := [], mixed := [], dies := [], cores := [], contexts := [], dir := [], counters := State.reset.counters,
    agenda := [], teams := s.teams.map fun e => (e.1, teamBare e.2) }

theorem bare_foldl {α : Type} {f : State → α → State} (h : ∀ s a, bare (f s a) = bare s) (l : List α) (s : State) :
    bare (l.foldl f s) = bare s := by
  induction l generalizing s with
  | nil => rfl
  | cons a t ih => rw [List.foldl_cons, ih, h]

theorem map_smod {α β : Type} (g : α → β) {f : α → α} (h : ∀ a, g (f a) = g a) (n : Nat) (m : Store α) :
    (smod m n f).map (fun e => (e.1, g e.2)) = m.map fun e => (e.1, g e.2) := by
  induction m with
  | nil => rfl
  | cons e t ih =>
    simp only [smod]
    split
    · simp only [List.map_cons, h]
    · simp only [List.map_cons, ih]

theorem bare_modTeam {f : Team → Team} (h : ∀ tm, teamBare (f tm) = teamBare tm) (s : State) (t : Nat) :
    bare (modTeam s t f) = bare s := by
  unfold bare modTeam
  simp only [map_smod teamBare h]

theorem bare_setMark (s : State) (t : Nat) (tid : Option Nat) (b : Bool) : bare (setMark s t tid b) = bare s := by
  unfold setMark
  split
  · refine bare_modTeam ?_ _ _
    intro tm
    unfold teamBare modThread
    simp only
    rw [map_smod threadBare (f := fun th => { th with mark := b }) fun _ => rfl]
  · refine bare_modTeam ?_ _ _
    intro tm
    unfold teamBare
    cases tm.seq <;> rfl

theorem bare_poisonHit (s : State) (c pa : Nat) : bare (poisonHit s c pa) = bare s := by
  unfold poisonHit
  split <;> rfl

theorem bare_copiesSet (s : State) (d pa : Nat) (b : Byte) : bare (copiesSet s d pa b) = bare s := by
  unfold copiesSet
  simp only
  split <;> rfl

theorem bare_dirRoom (s : State) (q : Nat) : bare (dirRoom s q) = bare s := by
  unfold dirRoom
  split
  · rfl
  · split <;> rfl

theorem bare_dirPut (s : State) (q : Nat) (e : DirEntry) : bare (dirPut s q e) = bare s := by
  unfold dirPut
  split
  · rfl
  · exact bare_dirRoom s q

theorem bare_dirSplit (q pa n : Nat) (e : DirEntry) (s : State) : bare (dirSplit q pa n e s) = bare s := by
  induction n generalizing e s with
  | zero => rfl
  | succ n ih =>
    unfold dirSplit
    split
    · rfl
    · simp only [ih, bare_dirPut]

theorem bare_dirRequest (pa : Nat) (r : DirAsk) (s : State) : bare (dirRequest pa r s) = bare s := by
  have h : ∀ s' : State, bare s' = bare s → bare (match dirAt s' pa with
      | none => s'
      | some (_, e) =>
        let e' := { dirGrant s' (dieOf pa) r e with used := s'.cycle }
        if dirGrant s' (dieOf pa) r e = e || dirEmpty e || e.size = 128 then dirPut s' (dieOf pa) e'
        else
          let s := dirSplit (dieOf pa) pa 9 { e with used := s'.cycle } s'
          match dirAt s pa with
          | none => s
          | some (_, l) => dirPut s (dieOf pa) { dirGrant s (dieOf pa) r l with used := s.cycle }) = bare s := by
    intro s' hs
    split
    · exact hs
    · simp only
      split
      · rw [bare_dirPut, hs]
      · split
        · rw [bare_dirSplit, hs]
        · rw [bare_dirPut, bare_dirSplit, hs]
  unfold dirRequest
  simp only
  cases hd : dirAt s pa with
  | none => exact h _ (bare_dirPut ..)
  | some e => exact h _ rfl

theorem bare_countMixed (s : State) (pa : Nat) : bare (countMixed s pa) = bare s := by
  unfold countMixed
  split
  · split
    · rfl
    · simp only
      split
      · exact bare_dirRequest ..
      · rfl
  · rfl

theorem bare_keepMixed (d : Option Nat) (line : Nat) (s : State) (c : Nat) : bare (keepMixed d line s c) = bare s := by
  unfold keepMixed
  simp only
  split
  · rfl
  · split
    · split <;> rfl
    · rfl

theorem bare_mixedWrite (s : State) (d : Option Nat) (pa n : Nat) (t : Bool) : bare (mixedWrite s d pa n t) = bare s := by
  unfold mixedWrite
  split
  · split <;> rfl
  · refine bare_foldl ?_ _ _
    intro s a
    split
    · rfl
    · exact bare_foldl (bare_keepMixed d _) _ _

/-- A write performed at the home changes memory, caches, directories, counters and masters, and nothing else. -/
theorem bare_homeWrite (s : State) (c : Nat) (d : Option Nat) (va pa : Nat) (mv tr : Bool) (bs : List Byte) :
    bare (homeWrite s c d va pa mv tr bs) = bare s := by
  unfold homeWrite
  simp only
  rw [bare_foldl]
  · have h : ∀ s', bare s' = bare s → bare (if mv then modCtx s' c fun c => (unitsOf 4096 va bs.length).foldl dirtyMark c else s') =
        bare s := by
      intro s' hs
      split
      · exact hs
      · exact hs
    apply h
    split
    · exact bare_mixedWrite ..
    · rw [bare_foldl (fun s a => bare_copiesSet ..)]
      exact bare_mixedWrite ..
  · intro s a
    split
    · exact bare_dirRequest ..
    · exact bare_countMixed ..

theorem bare_pathForget (s : State) (core p line : Nat) : bare (pathForget s core p line) = bare s := by
  unfold pathForget
  split <;> rfl

theorem bare_drainStore (s : State) (h : HeldStore) : bare (drainStore s h) = bare s := by
  unfold drainStore
  split
  · rfl
  · simp only
    split
    · rw [bare_setMark, bare_pathForget, bare_homeWrite]
    · rw [bare_pathForget, bare_homeWrite]

theorem bare_drainWhere (s : State) (hit : HeldStore → Bool) : bare (drainWhere s hit) = bare s := by
  unfold drainWhere
  split
  · simp only
    rw [bare_foldl (fun s e => bare_drainStore ..)]
    rfl
  · rfl

theorem bare_threadWrite (s : State) (w : Who) (va : Nat) (l : Loc) (bs : List Byte) : bare (threadWrite s w va l bs) = bare s := by
  unfold threadWrite writeLoc
  simp only
  split
  · rw [bare_setMark, bare_homeWrite]
  · exact bare_homeWrite ..

theorem bare_fillLine (s : State) (core : Nat) (p : Path) (l : Loc) (line : Nat) (na : Bool) :
    bare (fillLine s core p l line na) = bare s := by
  unfold fillLine
  split
  · rfl
  · simp only
    have h : ∀ s', bare s' = bare s → bare (if p = .ls then s'
        else modCore s' core fun c => { c with paths := sset c.paths (8 * line + p.code) ⟨0, pathLine s core p l line⟩ }) = bare s := by
      intro s' hs
      split
      · exact hs
      · exact hs
    apply h
    split
    · rfl
    · split
      · exact bare_dirRequest ..
      · split
        · rfl
        · split <;> rfl

/-- A read changes caches, buffers, the home and marks, and what a poisoned line puts on the agenda. -/
theorem bare_readSrc (w : Who) (na : Bool) (x : LoadSrc × Nat) (s : State) : bare (readSrc w na x s).2 = bare s := by
  unfold readSrc drainSeen
  split
  · simp only [bare_fillLine, bare_poisonHit, bare_drainWhere]
  · rfl
  · rfl

theorem bare_readSrcs (w : Who) (na : Bool) (l : List (LoadSrc × Nat)) (s : State) : bare (readSrcs w na l s).2 = bare s := by
  induction l generalizing s with
  | nil => rfl
  | cons x t ih => simp only [readSrcs, ih, bare_readSrc]

/-! ## Reading a state through `bare` -/

theorem sget_map {α β : Type} (g : α → β) (m : Store α) (n : Nat) : sget (m.map fun e => (e.1, g e.2)) n = (sget m n).map g := by
  induction m with
  | nil => rfl
  | cons e t ih =>
    simp only [List.map_cons, sget]
    split
    · rfl
    · exact ih

theorem ops_of_bare {s s' : State} (h : bare s' = bare s) : s'.ops = s.ops := congrArg (·.ops) h

theorem team_of_bare {s s' : State} (h : bare s' = bare s) {t : Nat} {tm : Team} (ht : sget s.teams t = some tm) :
    ∃ tm', sget s'.teams t = some tm' ∧ teamBare tm' = teamBare tm := by
  have h : (sget s'.teams t).map teamBare = (sget s.teams t).map teamBare := by
    rw [← sget_map, ← sget_map]
    exact congrArg (fun s => sget s.teams t) h
  rw [ht] at h
  cases hs : sget s'.teams t with
  | none => rw [hs] at h; cases h
  | some tm' => rw [hs] at h; exact ⟨tm', rfl, Option.some.inj h⟩

theorem thread_of_bare {tm tm' : Team} (h : teamBare tm' = teamBare tm) {i : Nat} {th : Thread} (ht : sget tm.threads i = some th) :
    ∃ m, sget tm'.threads i = some { th with mark := m } := by
  have h : (sget tm'.threads i).map threadBare = (sget tm.threads i).map threadBare := by
    rw [← sget_map, ← sget_map]
    exact congrArg (fun tm : Team => sget tm.threads i) h
  rw [ht] at h
  cases hs : sget tm'.threads i with
  | none => rw [hs] at h; cases h
  | some th' =>
    rw [hs] at h
    exact ⟨th'.mark, congrArg (fun u : Thread => some { u with mark := th'.mark }) (Option.some.inj h)⟩

/-! ## Reads of loads, releases and acquires -/

/-- A team without its threads, groups and sequencer. -/
def teamHull (tm : Team) : Team := { tm with threads := [], groups := [], seq := none }

/-- A state without what releases and acquires may change: threads, groups and sequencers, and what operations still owe. -/
def hull (s : State) : State :=
  { bare s with
    teams := s.teams.map fun e => (e.1, teamHull e.2), ops := s.ops.map fun e => (e.1, ({ e.2 with kind := .plain } : Op)) }

theorem hull_of_bare {s s' : State} (h : bare s' = bare s) : hull s' = hull s := by
  have ht : s'.teams.map (fun e => (e.1, teamHull e.2)) = s.teams.map fun e => (e.1, teamHull e.2) := by
    have := congrArg (fun s : State => s.teams.map fun e => (e.1, teamHull e.2)) h
    simpa [bare, teamHull, teamBare, Function.comp_def] using this
  have ho := ops_of_bare h
  unfold hull
  rw [ht, ho, h]

theorem hull_modTeam {f : Team → Team} (h : ∀ tm, teamHull (f tm) = teamHull tm) (s : State) (t : Nat) :
    hull (modTeam s t f) = hull s := by
  unfold hull bare modTeam
  simp only [map_smod teamHull h]

theorem hull_setKind (s : State) (id : Nat) (k : OpKind) : hull (setKind s id k) = hull s := by
  unfold hull bare setKind
  simp only
  rw [map_smod (fun o : Op => ({ o with kind := .plain } : Op)) (f := fun o => { o with kind := k }) fun _ => rfl]

theorem hull_foldl {α : Type} {f : State → α → State} (h : ∀ s a, hull (f s a) = hull s) (l : List α) (s : State) :
    hull (l.foldl f s) = hull s := by
  induction l generalizing s with
  | nil => rfl
  | cons a t ih => rw [List.foldl_cons, ih, h]

theorem hull_performRead (s : State) (id : Nat) (e : LoadElem) : hull (performRead s id e) = hull s := by
  unfold performRead
  split
  · rfl
  · split
    · rfl
    · have hr := fun w na l => hull_of_bare (bare_readSrcs w na l s)
      simp only
      split
      · rw [hull_setKind, hr]
      all_goals
        split
        · rw [hull_setKind, hr]
        · refine (hull_modTeam ?_ _ _).trans ((hull_setKind ..).trans (hr ..))
          intro tm; rfl

theorem hull_drainWhere (s : State) (hit : HeldStore → Bool) : hull (drainWhere s hit) = hull s := hull_of_bare (bare_drainWhere s hit)

theorem hull_drainFor (s : State) (id : Nat) (e : LoadElem) : hull (drainFor s id e) = hull s := by
  unfold drainFor
  split
  · rfl
  · refine hull_foldl ?_ _ _
    intro s x
    split
    · exact hull_drainWhere ..
    · rfl
    · rfl

theorem hull_settleOf (s : State) (t : Nat) (hit : Nat → LoadElem → Bool) : hull (settleOf s t hit) = hull s := by
  unfold settleOf
  simp only
  split
  · rw [hull_foldl (fun s e => hull_performRead ..), hull_foldl (fun s e => hull_drainFor ..)]
  · rfl

/-- A release performs accesses, and changes nothing else. -/
theorem hull_performFor (s : State) (t : Nat) (ws : List Who) (sc : Scope) (uo : Bool) : hull (performFor s t ws sc uo) = hull s := by
  unfold performFor settleReads
  simp only
  split
  · exact (hull_drainWhere ..).trans ((rfl : hull _ = hull _).trans (hull_settleOf s t _))
  · exact (rfl : hull _ = hull _).trans ((hull_drainWhere ..).trans ((rfl : hull _ = hull _).trans (hull_settleOf s t _)))

/-- An acquire reads what its parties still owe, and drops lines. -/
theorem hull_acquireFor (s : State) (t core : Nat) (tids : List (Option Nat)) (sc : Scope) : hull (acquireFor s t core tids sc) = hull s := by
  unfold acquireFor acquireAt settleReads
  split
  · exact (rfl : hull _ = hull _).trans (hull_settleOf s t _)
  · exact hull_settleOf s t _

theorem hull_forkAll (s : State) (c : Nat) : hull (forkAll s c) = hull s := rfl

theorem hull_setMark (s : State) (t : Nat) (tid : Option Nat) (b : Bool) : hull (setMark s t tid b) = hull s :=
  hull_of_bare (bare_setMark s t tid b)

theorem hull_releaseFork (s : State) (t : Nat) (tids : List Nat) (sc : Scope) : hull (releaseFork s t tids sc) = hull s := by
  unfold releaseFork
  split
  · rfl
  · split
    · rw [hull_foldl (fun s i => hull_setMark ..)]; rfl
    · rfl

theorem hull_releaseForkSeq (s : State) (t : Nat) (sc : Scope) : hull (releaseForkSeq s t sc) = hull s := by
  unfold releaseForkSeq
  split
  · rfl
  · split
    · rw [hull_setMark]; rfl
    · rfl

theorem team_of_hull {s s' : State} (h : hull s' = hull s) {t : Nat} {tm : Team} (ht : sget s.teams t = some tm) :
    ∃ tm', sget s'.teams t = some tm' ∧ teamHull tm' = teamHull tm := by
  have h : (sget s'.teams t).map teamHull = (sget s.teams t).map teamHull := by
    rw [← sget_map, ← sget_map]
    exact congrArg (fun s => sget s.teams t) h
  rw [ht] at h
  cases hs : sget s'.teams t with
  | none => rw [hs] at h; cases h
  | some tm' => rw [hs] at h; exact ⟨tm', rfl, Option.some.inj h⟩

theorem op_of_hull {s s' : State} (h : hull s' = hull s) (n : Nat) : (sget s'.ops n).isSome = (sget s.ops n).isSome := by
  have h : (sget s'.ops n).map (fun o : Op => ({ o with kind := .plain } : Op)) =
      (sget s.ops n).map (fun o : Op => ({ o with kind := .plain } : Op)) := by
    rw [← sget_map, ← sget_map]
    exact congrArg (fun s => sget s.ops n) h
  cases h1 : sget s'.ops n <;> cases h2 : sget s.ops n <;> simp_all

/-! ## Transitions of buffers (R226) -/

theorem hull_noteSeen (s : State) (t : Nat) (f : Option Nat → Instr → Bool) : hull (noteSeen s t f) = hull s := by
  unfold noteSeen
  refine hull_modTeam ?_ _ _
  intro tm; rfl

theorem hull_noteBuf (s : State) (t n : Nat) : hull (noteBuf s t n) = hull s := by
  unfold noteBuf
  split
  · rfl
  · exact hull_noteSeen ..

theorem hull_dcDec (tm : Team) (dc : Nat) (tids : List Nat) : teamHull (dcDec tm dc tids) = teamHull tm := by
  unfold dcDec
  split
  · rfl
  · induction tids generalizing tm with
    | nil => rfl
    | cons a t ih => rw [List.foldl_cons, ih]; rfl

theorem hull_completeGroup (tm : Team) (id : Nat) (o : Op) : teamHull (completeGroup tm id o) = teamHull tm := by
  unfold completeGroup
  rw [hull_dcDec]
  generalize o.tids = l
  induction l generalizing tm with
  | nil => rfl
  | cons a t ih => rw [List.foldl_cons, ih]; rfl

theorem serase_none {α : Type} {m : Store α} {n : Nat} (h : sget m n = none) : serase m n = m := by
  induction m with
  | nil => rfl
  | cons e t ih =>
    simp only [sget] at h
    simp only [serase]
    split at h
    · cases h
    · rw [if_neg ‹_›, ih h]

/-- An operation's completion takes it from the operations, and changes threads and the sequencer. -/
theorem hull_completeOp (s : State) (id : Nat) : hull (completeOp s id) = hull { s with ops := serase s.ops id } := by
  unfold completeOp
  split
  · rename_i h
    have : serase s.ops id = s.ops := serase_none h
    rw [this]
  · simp only
    split
    · refine hull_modTeam ?_ _ _
      intro tm; rfl
    · refine hull_modTeam ?_ _ _
      intro tm; exact hull_completeGroup ..

/-- A transition of a buffer takes its operation from the operations, gives the buffer its state and phase, and changes no other
buffer. -/
theorem bufEffect_spec {team buf core : Nat} {r : BufReq} {s : State} {tm : Team} (ht : sget s.teams team = some tm) :
    (∃ tm', sget (bufEffect team buf core r s).teams team = some tm' ∧ tm'.core = tm.core ∧
      tm'.bufs = sset tm.bufs buf { bufOf tm buf with
        state := r.target,
        phase := if (bufOf tm buf).state = .draining && r.target = .empty then !(bufOf tm buf).phase else (bufOf tm buf).phase }) ∧
    (∀ n, (sget (bufEffect team buf core r s).ops n).isSome = (decide (r.op ≠ n) && (sget s.ops n).isSome)) ∧
    (bufEffect team buf core r s).freeCtr = s.freeCtr := by
  have h : hull (bufEffect team buf core r s) = hull { bufTo s team buf r.target with ops := serase (bufTo s team buf r.target).ops r.op } := by
    unfold bufEffect
    rw [hull_acquireFor]
    simp only
    split
    · rw [hull_releaseFork, hull_completeOp]
    · rw [hull_releaseForkSeq, hull_completeOp]
  have hb : hull (bufTo s team buf r.target) = hull (modTeam s team fun tm => modBuf tm buf fun b =>
      { b with state := r.target, phase := if b.state = .draining && r.target = .empty then !b.phase else b.phase }) := hull_noteBuf ..
  refine ⟨?_, ?_, (congrArg (·.freeCtr) h).trans (congrArg (·.freeCtr) hb)⟩
  · have ht1 : sget (modTeam s team fun tm => modBuf tm buf fun b =>
        { b with state := r.target, phase := if b.state = .draining && r.target = .empty then !b.phase else b.phase }).teams team =
        some (modBuf tm buf fun b =>
        { b with state := r.target, phase := if b.state = .draining && r.target = .empty then !b.phase else b.phase }) := by
      show sget (smod _ _ _) _ = _
      rw [sget_smod_eq, ht]; rfl
    obtain ⟨t2, ht2, hh2⟩ := team_of_hull hb ht1
    obtain ⟨t3, ht3, hh3⟩ := team_of_hull h (t := team) (tm := t2) ht2
    have hc := congrArg (·.core) (hh3.trans hh2)
    have hbf := congrArg (·.bufs) (hh3.trans hh2)
    exact ⟨t3, ht3, hc, hbf⟩
  · intro n
    rw [op_of_hull h n]
    show (sget (serase (bufTo s team buf r.target).ops r.op) n).isSome = _
    rw [sget_serase]
    have := op_of_hull hb n
    split
    · simp_all
    · rw [this]; simp_all [modTeam]

/-- A wait for an operation that has ended is over; one for an open operation is not, but for a matrix instruction's at its free
moment (R265). -/
theorem waitOver_none {s : State} {n : Nat} (h : sget s.ops n = none) : waitOver s n = true := by
  unfold waitOver
  rw [h]
theorem waitOver_open {s : State} {n : Nat} (h : (sget s.ops n).isSome) (hf : Config.freeBit s.freeCtr (2 ^ 50 + n) = false) :
    waitOver s n = false := by
  obtain ⟨o, ho⟩ := Option.isSome_iff_exists.1 h
  unfold waitOver
  rw [ho]
  cases hk : o.kind <;> simp only [hk, hf]

/-- The requests of a buffer whose waits are over take effect in order, up to one that still waits. -/
theorem bufSteps_spec {team buf : Nat} {rest : List BufReq} (n : Nat) : ∀ {done : List BufReq} {s : State} {tm : Team},
    sget s.teams team = some tm → (bufOf tm buf).reqs = done ++ rest → done.length + rest.length ≤ n →
    (∀ r ∈ done, ∀ n ∈ r.waits, sget s.ops n = none) →
    (∀ r ∈ rest.head?, ∃ n ∈ r.waits, ((sget s.ops n).isSome ∧ Config.freeBit s.freeCtr (2 ^ 50 + n) = false) ∧ ∀ d ∈ done, d.op ≠ n) →
    ∃ tm', sget (bufSteps team buf n s).teams team = some tm' ∧
      (bufOf tm' buf).state = (done.getLast?.map (·.target)).getD (bufOf tm buf).state ∧ (bufOf tm' buf).reqs = rest ∧
      ∀ m, (sget (bufSteps team buf n s).ops m).isSome = (decide (∀ r ∈ done, r.op ≠ m) && (sget s.ops m).isSome) := by
  induction n with
  | zero =>
    intro done s tm ht hr hl _ _
    have h1 : done = [] := List.length_eq_zero_iff.1 (by omega)
    subst h1
    exact ⟨tm, ht, rfl, by simpa using hr, fun m => by simp [bufSteps]⟩
  | succ n ih =>
    intro done s tm ht hr hl hd hrest
    cases done with
    | nil =>
      have hno : bufAdvance s team buf = none := by
        unfold bufAdvance
        simp only [ht]
        cases rest with
        | nil => rw [show (bufOf tm buf).reqs = [] by simpa using hr]
        | cons q qs =>
          rw [show (bufOf tm buf).reqs = q :: qs by simpa using hr]
          obtain ⟨m, hm, hs, _⟩ := hrest q (by simp)
          simp only
          rw [if_pos (List.any_eq_true.2 ⟨m, hm, by rw [waitOver_open hs.1 hs.2]; rfl⟩)]
      refine ⟨tm, ?_, rfl, by simpa using hr, ?_⟩
      · simp only [bufSteps, hno]; exact ht
      · intro m; simp only [bufSteps, hno]; simp
    | cons d ds =>
      have hw : (d.waits.any fun n => !waitOver s n) = false := by
        rw [List.any_eq_false]
        intro m hm
        rw [waitOver_none (hd d (by simp) m hm)]; simp
      have hadv : bufAdvance s team buf = some (bufEffect team buf tm.core d
          (modTeam s team fun tm => modBuf tm buf fun b => { b with reqs := ds ++ rest })) := by
        unfold bufAdvance
        simp only [ht, hr, List.cons_append, hw, Bool.false_eq_true, if_false]
      have ht1 : sget (modTeam s team fun tm => modBuf tm buf fun b => { b with reqs := ds ++ rest }).teams team =
          some (modBuf tm buf fun b => { b with reqs := ds ++ rest }) := by
        show sget (smod _ _ _) _ = _
        rw [sget_smod_eq, ht]; rfl
      obtain ⟨⟨t2, ht2, _, hb2⟩, hops, hfc⟩ := bufEffect_spec (buf := buf) (core := tm.core) (r := d) ht1
      have hops : ∀ m, (sget (bufEffect team buf tm.core d
          (modTeam s team fun tm => modBuf tm buf fun b => { b with reqs := ds ++ rest })).ops m).isSome =
          (decide (d.op ≠ m) && (sget s.ops m).isSome) := hops
      have hbo : bufOf t2 buf = { bufOf (modBuf tm buf fun b => { b with reqs := ds ++ rest }) buf with
          state := d.target,
          phase := if (bufOf (modBuf tm buf fun b => { b with reqs := ds ++ rest }) buf).state = .draining && d.target = .empty
            then !(bufOf (modBuf tm buf fun b => { b with reqs := ds ++ rest }) buf).phase
            else (bufOf (modBuf tm buf fun b => { b with reqs := ds ++ rest }) buf).phase } := by
        unfold bufOf at hb2 ⊢
        rw [hb2]; simp only [sgetD, sget_sset_eq, Option.getD_some]
      have hreqs : (bufOf t2 buf).reqs = ds ++ rest := by
        rw [hbo]; simp [bufOf, modBuf, sgetD]
      obtain ⟨t3, ht3, hst, hrq, hop⟩ := ih (done := ds) ht2 hreqs (by simp at hl; omega)
        (by
          intro r hr m hm
          have := hops m
          rw [hd r (by simp [hr]) m hm] at this
          simpa using this)
        (by
          intro r hr
          obtain ⟨m, hm, hs, hne⟩ := hrest r hr
          refine ⟨m, hm, ⟨?_, by rw [hfc]; exact hs.2⟩, fun e he => hne e (by simp [he])⟩
          rw [hops m, hs.1]
          simpa using hne d (by simp))
      refine ⟨t3, ?_, ?_, hrq, ?_⟩
      · simp only [bufSteps, hadv]; exact ht3
      · rw [hst, hbo]
        cases ds with
        | nil => rfl
        | cons e es => rw [List.getLast?_cons_cons, List.getLast?_eq_some_getLast (l := e :: es) (by simp)]; rfl
      · intro m
        simp only [bufSteps, hadv]
        rw [hop m, hops m, ← Bool.and_assoc]
        congr 1
        simp only [List.mem_cons, forall_eq_or_imp, Bool.decide_and]
        rw [Bool.and_comm]

/-! ## What drains write (R173) -/

/-- Where `out` holds, memory reads as before but for the bytes of stores that the buffers held, and the buffers hold no others. -/
def Drains (out : Nat → Prop) (s t : State) : Prop :=
  (∀ a, out a → (∀ h ∈ s.coal, h.meets a 1 = false) → memByte t.mem a = memByte s.mem a) ∧
  ∀ h ∈ t.coal, ∀ a, out a → h.meets a 1 = true → ∃ e ∈ s.coal, e.meets a 1 = true

theorem Drains.refl (out : Nat → Prop) (s : State) : Drains out s s := ⟨fun _ _ _ => rfl, fun h hh _ _ hm => ⟨h, hh, hm⟩⟩

theorem Drains.trans {out : Nat → Prop} {s t u : State} (h1 : Drains out s t) (h2 : Drains out t u) : Drains out s u := by
  refine ⟨?_, ?_⟩
  · intro a ha hs
    rw [h2.1 a ha, h1.1 a ha hs]
    intro h hh
    by_contra hc
    obtain ⟨e, he, hm⟩ := h1.2 h hh a ha (by simpa using hc)
    rw [hs e he] at hm; cases hm
  · intro h hh a ha hm
    obtain ⟨e, he, hm⟩ := h2.2 h hh a ha hm
    exact h1.2 e he a ha hm

/-- Memory and the buffers unchanged. -/
theorem Drains.of_eq {out : Nat → Prop} {s t : State} (hm : t.mem = s.mem) (hc : t.coal = s.coal) : Drains out s t :=
  ⟨fun _ _ _ => by rw [hm], fun h hh _ _ hm => ⟨h, hc ▸ hh, hm⟩⟩

theorem Drains.foldl {α : Type} {out : Nat → Prop} {f : State → α → State} {l : List α} (h : ∀ s, ∀ a ∈ l, Drains out s (f s a)) (s : State) :
    Drains out s (l.foldl f s) := by
  induction l generalizing s with
  | nil => exact .refl ..
  | cons a t ih => exact (h s a (by simp)).trans (ih (fun s b hb => h s b (by simp [hb])) _)

theorem mc_foldl {α : Type} {f : State → α → State} (h : ∀ s a, (f s a).mem = s.mem ∧ (f s a).coal = s.coal) (l : List α) (s : State) :
    (l.foldl f s).mem = s.mem ∧ (l.foldl f s).coal = s.coal := by
  induction l generalizing s with
  | nil => exact ⟨rfl, rfl⟩
  | cons a t ih => rw [List.foldl_cons]; exact ⟨(ih _).1.trans (h s a).1, (ih _).2.trans (h s a).2⟩

theorem mc_dirRoom (s : State) (q : Nat) : (dirRoom s q).mem = s.mem ∧ (dirRoom s q).coal = s.coal := by
  unfold dirRoom
  split
  · exact ⟨rfl, rfl⟩
  · split <;> exact ⟨rfl, rfl⟩

theorem mc_dirPut (s : State) (q : Nat) (e : DirEntry) : (dirPut s q e).mem = s.mem ∧ (dirPut s q e).coal = s.coal := by
  unfold dirPut
  split
  · exact ⟨rfl, rfl⟩
  · exact mc_dirRoom s q

theorem mc_dirSplit (q pa n : Nat) (e : DirEntry) (s : State) : (dirSplit q pa n e s).mem = s.mem ∧ (dirSplit q pa n e s).coal = s.coal := by
  induction n generalizing e s with
  | zero => exact ⟨rfl, rfl⟩
  | succ n ih =>
    unfold dirSplit
    split
    · exact ⟨rfl, rfl⟩
    · simp only [ih, mc_dirPut, and_self]

theorem mc_dirRequest (pa : Nat) (r : DirAsk) (s : State) : (dirRequest pa r s).mem = s.mem ∧ (dirRequest pa r s).coal = s.coal := by
  have h : ∀ s' : State, s'.mem = s.mem ∧ s'.coal = s.coal → ∀ t, t = (match dirAt s' pa with
      | none => s'
      | some (_, e) =>
        let e' := { dirGrant s' (dieOf pa) r e with used := s'.cycle }
        if dirGrant s' (dieOf pa) r e = e || dirEmpty e || e.size = 128 then dirPut s' (dieOf pa) e'
        else
          let s := dirSplit (dieOf pa) pa 9 { e with used := s'.cycle } s'
          match dirAt s pa with
          | none => s
          | some (_, l) => dirPut s (dieOf pa) { dirGrant s (dieOf pa) r l with used := s.cycle }) → t.mem = s.mem ∧ t.coal = s.coal := by
    intro s' hs t ht
    subst ht
    split
    · exact hs
    · simp only
      split
      · simp only [mc_dirPut, hs, and_self]
      · split
        · simp only [mc_dirSplit, hs, and_self]
        · simp only [mc_dirPut, mc_dirSplit, hs, and_self]
  unfold dirRequest
  simp only
  cases hd : dirAt s pa with
  | none => exact h _ (mc_dirPut ..) _ rfl
  | some e => exact h _ ⟨rfl, rfl⟩ _ rfl

theorem mc_keepMixed (d : Option Nat) (line : Nat) (s : State) (c : Nat) :
    (keepMixed d line s c).mem = s.mem ∧ (keepMixed d line s c).coal = s.coal := by
  unfold keepMixed
  simp only
  split
  · exact ⟨rfl, rfl⟩
  · split
    · split <;> exact ⟨rfl, rfl⟩
    · exact ⟨rfl, rfl⟩

theorem mc_mixedWrite (s : State) (d : Option Nat) (pa n : Nat) (t : Bool) :
    (mixedWrite s d pa n t).mem = s.mem ∧ (mixedWrite s d pa n t).coal = s.coal := by
  unfold mixedWrite
  split
  · split <;> exact ⟨rfl, rfl⟩
  · refine mc_foldl ?_ _ _
    intro s a
    split
    · exact ⟨rfl, rfl⟩
    · exact mc_foldl (mc_keepMixed d _) _ _

theorem mc_copiesSet (s : State) (d pa : Nat) (b : Byte) : (copiesSet s d pa b).mem = s.mem ∧ (copiesSet s d pa b).coal = s.coal := by
  unfold copiesSet
  simp only
  split <;> exact ⟨rfl, rfl⟩

theorem mc_countMixed (s : State) (pa : Nat) : (countMixed s pa).mem = s.mem ∧ (countMixed s pa).coal = s.coal := by
  unfold countMixed
  split
  · split
    · exact ⟨rfl, rfl⟩
    · simp only
      split
      · exact mc_dirRequest ..
      · exact ⟨rfl, rfl⟩
  · exact ⟨rfl, rfl⟩

/-- A write performed at the home sets its bytes in memory, and leaves the buffers. -/
theorem mc_homeWrite (s : State) (c : Nat) (d : Option Nat) (va pa : Nat) (mv tr : Bool) (bs : List Byte) :
    (homeWrite s c d va pa mv tr bs).mem = memSets s.mem pa bs ∧ (homeWrite s c d va pa mv tr bs).coal = s.coal := by
  unfold homeWrite
  simp only
  have h0 := mc_mixedWrite s d pa bs.length tr
  have h1 : ∀ s', s'.mem = memSets s.mem pa bs ∧ s'.coal = s.coal →
      (match d with | none => s' | some d => (List.range bs.length).foldl (fun s i => copiesSet s d (pa + i) (bs.getD i 0)) s').mem = memSets s.mem pa bs ∧
      (match d with | none => s' | some d => (List.range bs.length).foldl (fun s i => copiesSet s d (pa + i) (bs.getD i 0)) s').coal = s.coal := by
    intro s' hs
    split
    · exact hs
    · rename_i dd
      have := mc_foldl (f := fun s i => copiesSet s dd (pa + i) (bs.getD i 0)) (fun s a => mc_copiesSet ..) (List.range bs.length) s'
      exact ⟨this.1.trans hs.1, this.2.trans hs.2⟩
  have h2 := h1 { mixedWrite s d pa bs.length tr with mem := memSets (mixedWrite s d pa bs.length tr).mem pa bs } ⟨by rw [← h0.1], h0.2⟩
  have h3 : ∀ (b : Bool) (s' : State) (f), s'.mem = memSets s.mem pa bs ∧ s'.coal = s.coal → (if b then modCtx s' c f else s').mem = memSets s.mem pa bs ∧ (if b then modCtx s' c f else s').coal = s.coal := by
    intro b s' f hs; split <;> exact hs
  have h4 := h3 mv _ (fun c => (unitsOf 4096 va bs.length).foldl dirtyMark c) h2
  have h5 := mc_foldl (f := fun (s : State) a => if tr then dirRequest a (.own d) s else countMixed s a) (fun s a => by
    split
    · exact mc_dirRequest ..
    · exact mc_countMixed ..) (unitsOf 128 pa bs.length)
  exact ⟨(h5 _).1.trans h4.1, (h5 _).2.trans h4.2⟩

theorem mc_setMark (s : State) (t : Nat) (tid : Option Nat) (b : Bool) : (setMark s t tid b).mem = s.mem ∧ (setMark s t tid b).coal = s.coal := by
  unfold setMark
  split <;> exact ⟨rfl, rfl⟩

theorem mc_pathForget (s : State) (c p l : Nat) : (pathForget s c p l).mem = s.mem ∧ (pathForget s c p l).coal = s.coal := by
  unfold pathForget
  split <;> exact ⟨rfl, rfl⟩

theorem mc_poisonHit (s : State) (c pa : Nat) : (poisonHit s c pa).mem = s.mem ∧ (poisonHit s c pa).coal = s.coal := by
  unfold poisonHit
  split <;> exact ⟨rfl, rfl⟩

theorem length_merge (h : HeldStore) (old : List Byte) : (h.merge old).length = h.bytes.length := by
  unfold HeldStore.merge
  split <;> simp

/-- A drained store's bytes in memory. -/
theorem mc_drainStore {s : State} {h : HeldStore} {tm : Team} (ht : sget s.teams h.team = some tm) :
    (drainStore s h).mem = memSets s.mem h.pa (h.merge (memBytes s.mem h.pa h.bytes.length)) ∧ (drainStore s h).coal = s.coal := by
  unfold drainStore
  simp only [ht]
  split
  · simp only [mc_setMark, mc_pathForget, mc_homeWrite, and_self]
  · simp only [mc_pathForget, mc_homeWrite, and_self]

/-- A drained store writes its own bytes alone. -/
theorem mem_drainStore (s : State) (h : HeldStore) {a : Nat} (ha : h.meets a 1 = false) :
    memByte (drainStore s h).mem a = memByte s.mem a ∧ (drainStore s h).coal = s.coal := by
  cases ht : sget s.teams h.team with
  | none =>
    have : drainStore s h = s := by unfold drainStore; simp only [ht]
    rw [this]; exact ⟨rfl, rfl⟩
  | some tm =>
    obtain ⟨h1, h2⟩ := mc_drainStore ht
    refine ⟨?_, h2⟩
    rw [h1]
    refine memByte_memSets_out _ _ _ _ ?_
    rw [length_merge]
    simp only [HeldStore.meets, overlaps, Bool.and_eq_false_iff, decide_eq_false_iff_not] at ha
    omega

theorem coal_drainStore (s : State) (h : HeldStore) : (drainStore s h).coal = s.coal := by
  cases ht : sget s.teams h.team with
  | none => unfold drainStore; simp only [ht]
  | some tm => exact (mc_drainStore ht).2

theorem pickStores_fst (hit : HeldStore → Bool) (l : List HeldStore) : (pickStores hit l).map Prod.fst = l := by
  induction l with
  | nil => rfl
  | cons h t ih => simp only [pickStores, List.map_cons, ih]

theorem foldl_drain {out : Nat → Prop} (l : List (HeldStore × Bool)) (s : State)
    (h : ∀ e ∈ l, ∀ a, out a → e.1.meets a 1 = false) :
    (∀ a, out a → memByte (l.foldl (fun s e => drainStore s e.1) s).mem a = memByte s.mem a) ∧
    (l.foldl (fun s e => drainStore s e.1) s).coal = s.coal := by
  induction l generalizing s with
  | nil => exact ⟨fun _ _ => rfl, rfl⟩
  | cons e t ih =>
    rw [List.foldl_cons]
    have ih := ih (drainStore s e.1) fun e he => h e (by simp [he])
    refine ⟨fun a ha => ?_, ih.2.trans (coal_drainStore ..)⟩
    rw [ih.1 a ha]
    exact (mem_drainStore s e.1 (h e (by simp) a ha)).1

/-- Drains write the bytes of stores that the buffers held. -/
theorem drains_drainWhere (out : Nat → Prop) (s : State) (hit : HeldStore → Bool) : Drains out s (drainWhere s hit) := by
  unfold drainWhere
  split
  · simp only
    have hsub : ∀ e ∈ pickStores hit s.coal, e.1 ∈ s.coal := fun e he => by
      have := List.mem_map_of_mem (f := Prod.fst) he
      rwa [pickStores_fst] at this
    have h := foldl_drain (out := fun a => ∀ h ∈ s.coal, h.meets a 1 = false) ((pickStores hit s.coal).filter Prod.snd)
      { s with coal := ((pickStores hit s.coal).filter fun e => !e.2).map Prod.fst } (fun e he a ha => ha _ (hsub e (List.mem_of_mem_filter he)))
    refine ⟨fun a _ hs => h.1 a hs, ?_⟩
    intro e he a _ hm
    rw [h.2] at he
    simp only [List.mem_map] at he
    obtain ⟨x, hx, rfl⟩ := he
    exact ⟨x.1, hsub x (List.mem_of_mem_filter hx), hm⟩
  · exact .refl ..

theorem mc_fillLine (s : State) (core : Nat) (p : Path) (l : Loc) (line : Nat) (na : Bool) :
    (fillLine s core p l line na).mem = s.mem ∧ (fillLine s core p l line na).coal = s.coal := by
  unfold fillLine
  split
  · exact ⟨rfl, rfl⟩
  · simp only
    have h : ∀ s', s'.mem = s.mem ∧ s'.coal = s.coal → ∀ f, (if p = .ls then s' else modCore s' core f).mem = s.mem ∧
        (if p = .ls then s' else modCore s' core f).coal = s.coal := by
      intro s' hs f
      split <;> exact hs
    apply h
    split
    · exact ⟨rfl, rfl⟩
    · split
      · exact mc_dirRequest ..
      · split
        · exact ⟨rfl, rfl⟩
        · split <;> exact ⟨rfl, rfl⟩

theorem drains_readSrc (out : Nat → Prop) (w : Who) (na : Bool) (x : LoadSrc × Nat) (s : State) : Drains out s (readSrc w na x s).2 := by
  unfold readSrc drainSeen
  split
  · simp only
    rename_i p _
    refine Drains.trans (drains_drainWhere out s fun h => h.seen w p.path && h.meets p.pa x.2) (Drains.of_eq ?_ ?_)
    · rw [(mc_fillLine ..).1, (mc_poisonHit ..).1]
    · rw [(mc_fillLine ..).2, (mc_poisonHit ..).2]
  · exact .refl ..
  · exact .refl ..

theorem drains_readSrcs (out : Nat → Prop) (w : Who) (na : Bool) (l : List (LoadSrc × Nat)) (s : State) :
    Drains out s (readSrcs w na l s).2 := by
  induction l generalizing s with
  | nil => exact .refl ..
  | cons x t ih => exact (drains_readSrc out w na x s).trans (ih _)

theorem drains_performRead (out : Nat → Prop) (s : State) (id : Nat) (e : LoadElem) : Drains out s (performRead s id e) := by
  unfold performRead
  split
  · exact .refl ..
  · split
    · exact .refl ..
    · simp only
      split
      · exact (drains_readSrcs ..).trans (.of_eq rfl rfl)
      all_goals
        split
        · exact (drains_readSrcs ..).trans (.of_eq rfl rfl)
        · exact (drains_readSrcs ..).trans (.of_eq rfl rfl)

theorem drains_drainFor (out : Nat → Prop) (s : State) (id : Nat) (e : LoadElem) : Drains out s (drainFor s id e) := by
  unfold drainFor
  split
  · exact .refl ..
  · refine .foldl ?_ _
    intro s x _
    split
    · exact drains_drainWhere ..
    · exact .refl ..
    · exact .refl ..

theorem drains_settleOf (out : Nat → Prop) (s : State) (t : Nat) (hit : Nat → LoadElem → Bool) : Drains out s (settleOf s t hit) := by
  unfold settleOf
  simp only
  split
  · exact (Drains.foldl (fun s e _ => drains_drainFor ..) _).trans (.foldl (fun s e _ => drains_performRead ..) _)
  · exact .refl ..

/-- Making room in the buffers drains stores. -/
theorem drains_coalRoom (out : Nat → Prop) (s : State) (core line : Nat) : Drains out s (coalRoom s core line).2 := by
  unfold coalRoom
  simp only
  split
  · exact .refl ..
  · split
    · exact .refl ..
    · exact drains_drainWhere ..

/-- A lane's store passes its bytes on, or writes them. -/
theorem drains_laneStore {out : Nat → Prop} (s : State) (w : Who) (p : Path) (lane va : Nat) (l : Loc) (bs keep : List Byte)
    (h : ∀ a, out a → ¬(l.pa ≤ a ∧ a < l.pa + bs.length)) : Drains out s (laneStore s w p lane va l bs keep) := by
  unfold laneStore
  simp only
  refine Drains.trans (drains_settleOf out s w.team fun _ e => e.tid = w.tid && e.meets (memSrc p.code l bs.length)) ?_
  show Drains out (settleAt s w (memSrc p.code l bs.length)) _
  generalize settleAt s w (memSrc p.code l bs.length) = s1
  generalize hst : ({ core := w.core, inst := s1.nextOp, team := w.team, tid := w.tid.getD 0, lane := lane, va := va, pa := l.pa, bytes := bs, keep := keep, path := p.code, ord := l.ord, mv := l.mv, track := l.tracked, vis := 0, held := false } : HeldStore) = st
  have hno : ∀ a, out a → st.meets a 1 = false := by
    intro a ha
    have := h a ha
    subst hst
    simp only [HeldStore.meets, overlaps, Bool.and_eq_false_iff, decide_eq_false_iff_not]
    omega
  have hnow : ∀ s2, Drains out s2 (drainStore (drainWhere s2 fun e => e.before st) st) := fun s2 =>
    (drains_drainWhere out s2 _).trans ⟨fun a ha _ => (mem_drainStore _ st (hno a ha)).1,
      fun h hh _ _ hm => ⟨h, coal_drainStore _ st ▸ hh, hm⟩⟩
  split
  · exact hnow s1
  · have hr := drains_coalRoom out s1 w.core (lineOf l.pa)
    generalize coalRoom s1 w.core (lineOf l.pa) = r at *
    split
    · refine hr.trans ⟨fun _ _ _ => rfl, ?_⟩
      intro h hh a ha hm
      simp only [List.mem_append, List.mem_singleton] at hh
      rcases hh with hh | rfl
      · exact ⟨h, hh, hm⟩
      · rw [hno a ha] at hm; cases hm
    · exact hr.trans (hnow _)

theorem drains_laneStores {out : Nat → Prop} (s : State) (w : Who) (p : Path) (lane va : Nat) (l : Loc) (bs : List Byte)
    (h : ∀ a, out a → ¬(l.pa ≤ a ∧ a < l.pa + bs.length)) : Drains out s (laneStores s w p lane va l bs) := by
  unfold laneStores
  split
  · exact drains_laneStore s w p lane va l bs [] h
  · refine (drains_laneStore s w p lane va l _ [] ?_).trans (drains_laneStore _ w p lane _ _ _ [] ?_)
    · intro a ha; have := h a ha; simp only [List.length_take]; omega
    · intro a ha
      have := h a ha
      show ¬(l.pa + 8 ≤ a ∧ a < l.pa + 8 + _)
      simp only [List.length_drop]; omega

end Sys2Proof.Laws
end

