-- ==== Sys2Proof/Laws/Images.lean ====
section
/-! SUPPORT. Saved-team images read back as they were written (R349 to R351). -/

namespace Sys2Proof.Laws

open Sys2Proof.Machine

theorem length_imageHeader (b : Image) (n : Nat) : (imageHeader b n).length = 64 := length_natLe 64 _

/-- Section k of an image begins after the header and the sections before it. -/
theorem drop_section (b : Image) (k : Nat) :
    (imageBytes b b).drop (sectionAt b k) = ((imageSections b b).drop (k - 1)).flatMap padded := by
  have hb : imageBody b b = ((imageSections b b).take (k - 1)).flatMap padded ++ ((imageSections b b).drop (k - 1)).flatMap padded := by
    rw [← List.flatMap_append, List.take_append_drop]; rfl
  unfold imageBytes sectionAt
  simp only []
  rw [List.drop_append, length_imageHeader, hb]
  simp [length_imageHeader, List.drop_eq_nil_of_le]

/-- The header gives the kind and the time back. -/
theorem header_fields (b : Image) (n : Nat) (hn : n < 2 ^ 31) (ht : b.time < 2 ^ 64) :
    kindFrom (nbits (leNat (imageHeader b n)) 36 2) = b.kind ∧ nbits (leNat (imageHeader b n)) 192 64 = b.time := by
  have hk : kindCode b.kind < 4 ∧ kindFrom (kindCode b.kind) = b.kind := by cases b.kind <;> decide
  unfold imageHeader nbits
  rw [leNat_natLe]
  obtain ⟨h1, h2⟩ := hk
  generalize b.team.ctx = c
  generalize b.team.tidx = t
  generalize b.lrec = r
  generalize kindCode b.kind = k at h1 h2
  have hw : ∀ w : Nat, w < 2 ^ 256 → w % 256 ^ 64 = w := fun w h => Nat.mod_eq_of_lt (Nat.lt_of_lt_of_le h (by decide))
  rw [hw _ (by omega)]
  refine ⟨?_, by omega⟩
  have : (0x49584434 + 2 ^ 32 + k * 2 ^ 36 + (n + 4095) / 4096 * 2 ^ 44 + c % 2 ^ 16 * 2 ^ 64 + t % 2 ^ 48 * 2 ^ 80
    + r % 2 ^ 64 * 2 ^ 128 + b.time % 2 ^ 64 * 2 ^ 192) / 2 ^ 36 % 2 ^ 2 = k := by omega
  rw [this, h2]

/-- Padding to 64 bytes adds fewer than 64. -/
theorem length_padded (bs : List Byte) : (padded bs).length < bs.length + 64 := by
  have := Nat.mod_lt ((64 - bs.length % 64)) (show 0 < 64 by decide)
  simp only [padded, List.length_append, List.length_replicate]; omega

/-- An image of no threads, stream or scratchpad is short. -/
theorem length_imageBody (b : Image) (h1 : b.team.threads = []) (h2 : b.team.seq = none) (h4 : b.team.spsize = 0)
    (h : 192 * (b.team.home + b.team.extra) + 8 * (b.team.front.flatMap (·.threads)).length + 16 * b.held.length < 2 ^ 20) :
    (imageBody b b).length < 2 ^ 30 := by
  have hu : ∀ k n, (unlaid b k n).length = n := fun k n => by simp [unlaid]
  have hr : (regBytes b.team).length = 0 := by simp [regBytes, h1]
  have hp : (pendBytes b).length = 0 := by simp [pendBytes, allPend, h1]
  have hs : (semBytes b.team).length = 256 := by
    simp [semBytes, List.length_flatMap, length_natLe]
  have h8 : Config.sectionLen b 8 % 2 ^ 20 < 2 ^ 20 := Nat.mod_lt _ (by decide)
  have hsp : (spBytes b.team 0 b.team.spsize).length = 0 := by simp [spBytes, h4]
  have hn : (if b.team.seq.isNone then [] else unlaid b 9 (Config.sectionLen b 9 % 2 ^ 20)
      ++ (List.range 4).flatMap fun n => bankBytes (bankOf b.team n)).length = 0 := by rw [h2]; rfl
  unfold imageBody imageSections
  simp only [List.flatMap_cons, List.flatMap_nil, List.append_nil, List.length_append]
  have p1 := length_padded (unlaid b 1 256)
  have p2 := length_padded (unlaid b 2 (192 * (b.team.home + b.team.extra)))
  have p3 := length_padded (unlaid b 3 (8 * (b.team.front.flatMap (·.threads)).length))
  have p4 := length_padded (unlaid b 4 (32 * b.team.threads.length))
  have p5 := length_padded (regBytes b.team)
  have p6 := length_padded (pendBytes b)
  have p7 := length_padded (semBytes b.team ++ unlaid b 7 (8 * 64 + 16 * b.held.length))
  have p8 := length_padded (unlaid b 8 (Config.sectionLen b 8 % 2 ^ 20))
  have p9 := length_padded (if b.team.seq.isNone then [] else unlaid b 9 (Config.sectionLen b 9 % 2 ^ 20)
    ++ (List.range 4).flatMap fun n => bankBytes (bankOf b.team n))
  have p10 := length_padded (spBytes b.team 0 b.team.spsize)
  simp only [List.length_append, hu, hr, hp, hs, hsp, hn, h1, List.length_nil] at p1 p2 p3 p4 p5 p6 p7 p8 p9 p10 ⊢
  omega

/-- An image stands in no memory that reads 0 where its header begins. -/
theorem imageAt_zero (s : State) (a : Nat) (b : Image) (h : memByte s.mem a = 0) : imageAt s a b = none := by
  have hh : ∀ im n, (imageHeader im n).head? = some 0x34 := fun im n => by
    unfold imageHeader
    rw [show (64 : Nat) = 63 + 1 from rfl, natLe, List.head?_cons]
    congr 1
    apply BitVec.eq_of_toNat_eq
    rw [BitVec.toNat_ofNat, show BitVec.toNat (52 : Byte) = 52 from rfl]
    omega
  have hi : ∀ im, (imageBytes b im).head? = some 0x34 := fun im => by
    unfold imageBytes
    have := hh im (64 + (imageBody b im).length)
    revert this
    cases hx : imageHeader im (64 + (imageBody b im).length) <;> simp_all
  unfold imageAt
  refine if_neg fun he => ?_
  have hm := hi (imageFrom b (memBytes s.mem a (imageBytes b b).length))
  rw [he] at hm
  have hl : 0 < (imageBytes b b).length := by
    have := hi b
    cases hx : imageBytes b b <;> simp_all
  unfold memBytes at hm
  rw [show (imageBytes b b).length = ((imageBytes b b).length - 1) + 1 by omega, List.range_succ_eq_map] at hm
  simp [h] at hm

/-- An image of no threads, stream, semaphore counts or scratchpad reads back as itself. -/
theorem image_reads_back (b : Image) (h1 : b.team.threads = []) (h2 : b.team.seq = none) (h3 : b.team.sems = [])
    (h4 : b.team.spsize = 0) (h5 : b.team.scratch = []) (h6 : b.time < 2 ^ 64) (h7 : (imageBody b b).length < 2 ^ 30) :
    imageFrom b (imageBytes b b) = b := by
  obtain ⟨hk, ht⟩ := header_fields b (64 + (imageBody b b).length) (by omega) h6
  have hs : sliceOf (imageBytes b b) 0 64 = imageHeader b (64 + (imageBody b b).length) := by
    simp [sliceOf, imageBytes, length_imageHeader]
  have hsem : ∀ n < 32, leNat (sliceOf ((imageBytes b b).drop (sectionAt b 7)) (8 * n) 8) = 0 := by
    intro n hn
    have h0 : semBytes b.team = List.replicate 256 0 := by unfold semBytes; rw [h3]; decide +kernel
    rw [drop_section, show (imageSections b b).drop (7 - 1) = (semBytes b.team ++ unlaid b 7 (8 * 64 + 16 * b.held.length))
      :: (imageSections b b).drop 7 from rfl, List.flatMap_cons, h0]
    unfold padded sliceOf
    have hl : ∀ k, (List.replicate k (0 : Byte)).length = k := fun k => List.length_replicate ..
    rw [List.append_assoc, List.append_assoc, List.drop_append_of_le_length (by rw [hl]; omega), List.drop_replicate,
      List.take_append_of_le_length (by rw [hl]; omega), List.take_replicate, show min 8 (256 - 8 * n) = 8 by omega]
    rfl
  have hm : ((List.range 32).filterMap fun n =>
      let m := semFrom (sgetD b.team.sems n default) (leNat (sliceOf ((imageBytes b b).drop (sectionAt b 7)) (8 * n) 8))
      if m = default then none else some (n, m)) = [] := by
    refine List.filterMap_eq_nil_iff.2 fun n hn => ?_
    simp only [hsem n (List.mem_range.1 hn), h3]
    rfl
  unfold imageFrom
  simp only [hm, hs, hk, ht, h1, h2, h4, threadsFrom, List.map_nil]
  cases b with | _ kind time num lrec tm batches ops held => cases tm; simp_all [sliceOf, spSets]

end Sys2Proof.Laws
end

