-- ==== Sys2Proof/Laws/Issue.lean ====
section
/-! SUPPORT. Issuing a word: at its site the word's body decides, and what retiring leaves. -/

namespace Sys2Proof.Laws

open Sys2Proof.Machine

/-- At the site of a word, issuing it runs its body there. -/
theorem issue_of_site {r : Req} {s s1 : State} {x : Site} (h : issueSite r s = some (x, s1)) (body : Site → State → Res) :
    issue r body s = finish s1 x (body x s1) := by
  unfold issueSite at h
  unfold issue
  split at h
  · split at h
    · cases h
    · rename_i t k hi _ y hy
      try rw [hi]
      try simp only [hy]
      split at h
      · rename_i hc
        simp only [Bool.and_eq_true, Bool.not_eq_true', Option.isNone_iff_eq_none] at hc
        obtain ⟨⟨h1, h2⟩, h3⟩ := hc
        simp only [h1, h2, h3, Bool.not_true, Bool.false_eq_true, if_false]
        cases hs : siteOf (installed r s y) t k r.guard with
        | none => simp [hs] at h
        | some z =>
          simp only [hs, Option.map_some, Option.some.injEq, Prod.mk.injEq] at h
          obtain ⟨rfl, rfl⟩ := h
          rfl
      · cases h
  · cases h

/-- A body that retires. -/
theorem issue_retire {r : Req} {s s1 v : State} {x : Site} (h : issueSite r s = some (x, s1)) {body : Site → State → Res}
    (hb : body x s1 = .retire v) : issue r body s = retired v x := by
  rw [issue_of_site h, hb]
  rfl

/-- A body that traps without effect. -/
theorem issue_trap {r : Req} {s s1 : State} {x : Site} {tr : Trap} (h : issueSite r s = some (x, s1)) {body : Site → State → Res}
    (hb : body x s1 = .trap tr) : issue r body s = trapGroup s1 x.t x.k tr x.act (hpcWord x.g.pc x.g.wix) := by
  rw [issue_of_site h, hb]
  rfl

/-- A word that waits. -/
theorem issue_wait {r : Req} {s s1 v : State} {x : Site} (h : issueSite r s = some (x, s1)) {body : Site → State → Res}
    (hb : body x s1 = .wait v) : issue r body s = modTeam v x.t (waitTeam x.lr s1.cycle x.k) := by
  rw [issue_of_site h, hb]
  rfl

/-- At the site of a sequencer's word, issuing it runs its body there. -/
theorem issueSeq_of_site {r : SReq} {s : State} {x : SSite} (h : seqSite r s = some x) (body : SSite → State → SRes) :
    issueSeq r body s = finishSeq s x (body x s) := by
  unfold seqSite at h
  unfold issueSeq
  generalize s.issuer = i at h ⊢
  rcases i with _ | ⟨_, _⟩ | t | _
  · cases h
  · cases h
  · cases hy : ssiteOf s t with
    | none => simp only [hy] at h; cases h
    | some y =>
      simp only [hy] at h ⊢
      rw [ite_eq_iff] at h
      obtain ⟨hc, hx⟩ | ⟨_, hx⟩ := h
      · cases hx
        simp only [Bool.and_eq_true, Bool.not_eq_true'] at hc
        obtain ⟨⟨⟨h1, h2⟩, h3⟩, h4⟩ := hc
        have ht : t = x.t := by
          unfold ssiteOf at hy
          split at hy
          · cases hy
          · split at hy
            · cases hy
            · cases hy; rfl
        subst ht
        simp only [h1, h2, h3, Bool.not_true, Bool.false_eq_true, if_false]
        rcases hg : r.guard with _ | g
        · simp only [Bool.false_eq_true, if_false]
        · simp only [hg] at h4
          simp only [h4, Bool.false_eq_true, if_false]
      · cases hx
  · cases h

/-- A sequencer body that retires. -/
theorem issueSeq_retire {r : SReq} {s v : State} {x : SSite} (h : seqSite r s = some x) {body : SSite → State → SRes}
    (hb : body x s = .retire v) : issueSeq r body s = seqRetired v x := by
  rw [issueSeq_of_site h, hb]
  rfl

/-- A sequencer body that waits. -/
theorem issueSeq_wait {r : SReq} {s v : State} {x : SSite} (h : seqSite r s = some x) {body : SSite → State → SRes}
    (hb : body x s = .wait v) : issueSeq r body s = modSeq v x.t fun q => { q with status := .waiting, waitzDone := true } := by
  rw [issueSeq_of_site h, hb]
  rfl

/-- A word of the sequencer that does not retire. -/
theorem issueSeq_hold {r : SReq} {s v : State} {x : SSite} (h : seqSite r s = some x) {body : SSite → State → SRes}
    (hb : body x s = .hold v) : issueSeq r body s = v := by
  rw [issueSeq_of_site h, hb]
  rfl

/-- The issuer of a group's word is its group. -/
theorem issuer_of_site {r : Req} {s s1 : State} {x : Site} (h : issueSite r s = some (x, s1)) :
    s.issuer = some (.group x.t x.k) := by
  unfold issueSite at h
  split at h
  · split at h
    · cases h
    · rename_i t k hi _ y hy
      split at h
      · cases hs : siteOf (installed r s y) t k r.guard with
        | none => simp [hs] at h
        | some z =>
          simp only [hs, Option.map_some, Option.some.injEq, Prod.mk.injEq] at h
          obtain ⟨rfl, rfl⟩ := h
          have : z.t = t ∧ z.k = k := by
            unfold siteOf at hs
            split at hs
            · cases hs
            · split at hs
              · cases hs
              · cases hs; exact ⟨rfl, rfl⟩
          rw [hi, this.1, this.2]
      · cases h
  · cases h

/-- A word that groups and the sequencer share, at a group's site. -/
theorem issueBoth_of_site {r : Req} {s s1 : State} {x : Site} (h : issueSite r s = some (x, s1)) (g : Site → State → Res)
    (q : SReq) (f : SSite → State → SRes) : issueBoth r g q f s = finish s1 x (g x s1) := by
  unfold issueBoth
  rw [issuer_of_site h]
  exact issue_of_site h g

/-- The same at the sequencer's site. -/
theorem issueBoth_of_seq {q : SReq} {s : State} {x : SSite} (h : seqSite q s = some x) (r : Req) (g : Site → State → Res)
    (f : SSite → State → SRes) : issueBoth r g q f s = finishSeq s x (f x s) := by
  unfold issueBoth
  have hi : ∃ t, s.issuer = some (.seq t) := by
    unfold seqSite at h
    split at h
    · exact ⟨_, ‹_›⟩
    · cases h
  obtain ⟨t, ht⟩ := hi
  rw [ht]
  exact issueSeq_of_site h f

/-- Where a site lies. -/
theorem siteOf_parts {s : State} {t k : Nat} {gd : Guard} {x : Site} (h : siteOf s t k gd = some x) :
    x.t = t ∧ x.k = k ∧ sget s.teams t = some x.tm ∧ sget x.tm.groups k = some x.g ∧ x.lr = lrecOf s x.tm
      ∧ x.act = activeLanes x.tm x.g gd := by
  unfold siteOf at h
  split at h
  · cases h
  · split at h
    · cases h
    · cases h
      exact ⟨rfl, rfl, ‹_›, ‹_›, rfl, rfl⟩

/-- The site of a word is the site of its group in the state its body runs in. -/
theorem site_of_issueSite {r : Req} {s s1 : State} {x : Site} (h : issueSite r s = some (x, s1)) :
    siteOf s1 x.t x.k r.guard = some x := by
  unfold issueSite at h
  split at h
  · split at h
    · cases h
    · rename_i t k hi _ y hy
      split at h
      · cases hs : siteOf (installed r s y) t k r.guard with
        | none => simp [hs] at h
        | some z =>
          simp only [hs, Option.map_some, Option.some.injEq, Prod.mk.injEq] at h
          obtain ⟨rfl, rfl⟩ := h
          obtain ⟨rfl, rfl, _⟩ := siteOf_parts hs
          exact hs
      · cases h
  · cases h

/-- Without tracing no clause packet is written. -/
theorem clauseTrace_untraced {s : State} {x : Site} (h : Untraced s x) : clauseTrace s x = s := by
  unfold clauseTrace
  split
  · split
    · unfold tracePut
      simp [show (getCore s x.tm.core).trace.on = false from h, TraceBody.type]
    · rfl
  · rfl

/-- A word that issues finds its group able to. -/
theorem canIssue_of_site {r : Req} {s s1 : State} {x : Site} (h : issueSite r s = some (x, s1)) {t k : Nat}
    (hi : s.issuer = some (.group t k)) : ∃ y, siteOf s t k r.guard = some y ∧ canIssue s y = true := by
  unfold issueSite at h
  rw [hi] at h
  simp only at h
  cases hy : siteOf s t k r.guard with
  | none => rw [hy] at h; cases h
  | some y =>
    rw [hy] at h
    simp only at h
    rw [ite_eq_iff] at h
    obtain ⟨hc, _⟩ | ⟨_, h⟩ := h
    · simp only [Bool.and_eq_true] at hc
      exact ⟨y, rfl, hc.1.1⟩
    · cases h

theorem canIssue_of_seq {r : SReq} {s : State} {x : SSite} (h : seqSite r s = some x) {t : Nat}
    (hi : s.issuer = some (.seq t)) : ssiteOf s t = some x ∧ canIssueSeq s x = true := by
  unfold seqSite at h
  rw [hi] at h
  simp only at h
  cases hy : ssiteOf s t with
  | none => rw [hy] at h; cases h
  | some y =>
    rw [hy] at h
    simp only at h
    rw [ite_eq_iff] at h
    obtain ⟨hc, h⟩ | ⟨_, h⟩ := h
    · cases h
      simp only [Bool.and_eq_true] at hc
      exact ⟨rfl, hc.1.1.1⟩
    · cases h

/-- A later try of a waiting group's word, where it issues. -/
theorem reissue_group {s s1 v : State} {t k : Nat} {r : Req} {x : Site} {f : State → State} {i : Instr} (hw : WaitsAt s t k i)
    (hs : issueSite r (retryAt s (.group t k)) = some (x, s1)) (hf : f (retryAt s (.group t k)) = v) :
    reissue (.group t k) f s = retriedTo s t k v := by
  obtain ⟨_, _, tm, g, ht, hg, hst⟩ := hw
  obtain ⟨y, hy, hc⟩ := canIssue_of_site hs rfl
  have hok : ∃ z, siteOf (modTeam s t fun tm => modGroup tm k fun g => { g with status := .ready }) t k ⟨false, 7⟩ = some z ∧
      canIssue (modTeam s t fun tm => modGroup tm k fun g => { g with status := .ready }) z = true := by
    change siteOf (modTeam s t fun tm => modGroup tm k fun g => { g with status := .ready }) t k r.guard = some y at hy
    unfold siteOf at hy ⊢
    cases h1 : sget (modTeam s t fun tm => modGroup tm k fun g => { g with status := .ready }).teams t with
    | none => rw [h1] at hy; cases hy
    | some tm' =>
      rw [h1] at hy
      simp only at hy ⊢
      cases h2 : sget tm'.groups k with
      | none => rw [h2] at hy; cases hy
      | some g' =>
        rw [h2] at hy
        cases hy
        exact ⟨_, rfl, hc⟩
  obtain ⟨z, hz, hcz⟩ := hok
  unfold reissue
  simp only [ht, hg, hst, hz, hcz, decide_true, Bool.and_self, if_true, retriedTo, lastIssueOf, Option.bind_some, Option.map_some,
    Option.getD_some, ← hf]
  rfl

/-- A later try of the waiting sequencer's word, where it issues. -/
theorem reissue_seq {s v : State} {t : Nat} {r : SReq} {x : SSite} {f : State → State} {i : Instr} (hw : SeqWaitsAt s t i)
    (hs : seqSite r (retryAt s (.seq t)) = some x) (hf : f (retryAt s (.seq t)) = v) :
    reissue (.seq t) f s = { v with issuer := s.issuer } := by
  obtain ⟨_, z, hz, hst⟩ := hw
  obtain ⟨hy, hc⟩ := canIssue_of_seq hs rfl
  have hy : ssiteOf (modSeq s t fun q => { q with status := .ready }) t = some x := hy
  have hc : canIssueSeq (modSeq s t fun q => { q with status := .ready }) x = true := hc
  unfold reissue
  simp only [hz, hst, hy, hc, decide_true, Bool.and_self, if_true, ← hf]
  rfl

/-! ## The fields of `%hpc` (R339) -/

theorem hpcWord_toNat (pc w : Nat) : (hpcWord pc w).toNat = (pc + 8 * (w + 1) + (w + 1) * 2 ^ 52) % 2 ^ 64 :=
  BitVec.toNat_ofNat _ _

theorem hpcAddr_eq (h : DWord) : hpcAddr h = h.toNat / 2 ^ 0 % 2 ^ 52 := by
  unfold hpcAddr
  rw [BitVec.extractLsb'_toNat, Nat.shiftRight_eq_div_pow]

theorem hpcWix_eq (h : DWord) : hpcWix h = h.toNat / 2 ^ 52 % 2 ^ 5 := by
  unfold hpcWix
  rw [BitVec.extractLsb'_toNat, Nat.shiftRight_eq_div_pow]

end Sys2Proof.Laws
end

