-- ==== Sys2Proof/Laws/Lanes.lean ====
section
/-! SUPPORT. The writes of a word's lanes: what they leave in the threads and in the group, and that a word of class A or F
shows them. -/

namespace Sys2Proof.Laws

open Sys2Proof.Machine

/-! ## Two updates of one key -/

theorem smod_smod {α : Type} (s : Store α) (k : Nat) (f g : α → α) : smod (smod s k f) k g = smod s k fun v => g (f v) := by
  induction s with
  | nil => rfl
  | cons e t ih =>
    obtain ⟨n, w⟩ := e
    by_cases h : n = k <;> simp [smod, h, ih]

theorem smod_id {α : Type} (s : Store α) (k : Nat) : smod s k (fun v => v) = s := by
  induction s with
  | nil => rfl
  | cons e t ih =>
    obtain ⟨n, w⟩ := e
    by_cases h : n = k <;> simp [smod, h, ih]

theorem sgetD_smod_eq {α : Type} {s : Store α} {k : Nat} {f : α → α} {d : α} (h : (sget s k).isSome) :
    sgetD (smod s k f) k d = f (sgetD s k d) := by
  obtain ⟨v, hv⟩ := Option.isSome_iff_exists.1 h
  simp [sgetD, hv]

/-! ## One lane's writes -/

/-- What writes of registers leave of the lane's thread. -/
def wThread (hm : Bool) (dsm : BitVec 4) (vs : List (Nat × Word)) : Thread → Thread :=
  fun th => vs.foldl (fun th e =>
    if hm && 248 ≤ e.1 then { th with pend := th.pend.filter fun p => p.reg ≠ 8 + e.1 } else regWrite th e.1 e.2 dsm) th

/-- What they leave of the group: its handler scratch. -/
def wGroup (hm : Bool) (l : Nat) (vs : List (Nat × Word)) : Group → Group :=
  fun g => vs.foldl (fun g e => if hm && 248 ≤ e.1 then { g with hregs := sset g.hregs (hKey l e.1) e.2 } else g) g

/-- What writes of predicates and flags leave of the thread. -/
def pThread (hm : Bool) (o : LaneOut) (th : Thread) : Thread := flagSet (o.ps.foldl (fun th p => predWrite th p.1 p.2) th) (o.late hm)

theorem wThread_nil (hm : Bool) (dsm : BitVec 4) : wThread hm dsm [] = fun th => th := rfl
theorem wThread_cons (hm : Bool) (dsm : BitVec 4) (e : Nat × Word) (t : List (Nat × Word)) :
    wThread hm dsm (e :: t) = fun th => wThread hm dsm t (wThread hm dsm [e] th) := rfl
theorem wThread_one (hm : Bool) (dsm : BitVec 4) (n : Nat) (v : Word) : wThread hm dsm [(n, v)] = fun th =>
    if hm && 248 ≤ n then { th with pend := th.pend.filter fun p => p.reg ≠ 8 + n } else regWrite th n v dsm := rfl
theorem wGroup_nil (hm : Bool) (l : Nat) : wGroup hm l [] = fun g => g := rfl
theorem wGroup_cons (hm : Bool) (l : Nat) (e : Nat × Word) (t : List (Nat × Word)) :
    wGroup hm l (e :: t) = fun g => wGroup hm l t (wGroup hm l [e] g) := rfl
theorem wGroup_one (hm : Bool) (l n : Nat) (v : Word) :
    wGroup hm l [(n, v)] = fun g => if hm && 248 ≤ n then { g with hregs := sset g.hregs (hKey l n) v } else g := rfl

theorem wGroup_members (hm : Bool) (l : Nat) (vs : List (Nat × Word)) (g : Group) :
    (wGroup hm l vs g) = { g with hregs := (wGroup hm l vs g).hregs } := by
  induction vs generalizing g with
  | nil => rfl
  | cons e t ih =>
    simp only [wGroup, List.foldl_cons] at ih ⊢
    rw [ih]
    split <;> rfl

/-- A team with one lane's thread and its slot's group updated. -/
def upd (tm : Team) (k tid : Nat) (F : Thread → Thread) (G : Group → Group) : Team := modThread (modGroup tm k G) tid F

theorem upd_id (tm : Team) (k tid : Nat) : upd tm k tid (fun th => th) (fun g => g) = tm := by
  simp only [upd, modThread, modGroup, smod_id]

theorem upd_upd (tm : Team) (k tid : Nat) (F F' : Thread → Thread) (G G' : Group → Group) :
    upd (upd tm k tid F G) k tid F' G' = upd tm k tid (fun th => F' (F th)) (fun g => G' (G g)) := by
  simp only [upd, modThread, modGroup, smod_smod]

theorem upd_group {tm : Team} {k : Nat} {g : Group} (hg : sget tm.groups k = some g) (tid : Nat) (F : Thread → Thread)
    (G : Group → Group) : sget (upd tm k tid F G).groups k = some (G g) := by
  simp only [upd, modThread, modGroup, sget_smod_eq, hg, Option.map_some]

theorem laneWrite_eq {tm : Team} {k l : Nat} {g : Group} (hg : sget tm.groups k = some g) (dsm : BitVec 4) (n : Nat) (v : Word) :
    laneWrite tm k l n v dsm = upd tm k (sgetD g.members l 0) (wThread g.handler dsm [(n, v)]) (wGroup g.handler l [(n, v)]) := by
  unfold laneWrite
  simp only [hg, wThread_one, wGroup_one]
  by_cases hc : (g.handler && decide (248 ≤ n)) = true
  · simp only [hc, if_true, upd]
  · simp only [hc, upd, modThread, modGroup, smod_id, Bool.false_eq_true, if_false]

theorem laneWrites_eq {tm : Team} {k l : Nat} {g : Group} (hg : sget tm.groups k = some g) (dsm : BitVec 4)
    (vs : List (Nat × Word)) :
    laneWrites tm k l dsm vs = upd tm k (sgetD g.members l 0) (wThread g.handler dsm vs) (wGroup g.handler l vs) := by
  induction vs generalizing tm g with
  | nil => exact (upd_id tm k _).symm
  | cons e t ih =>
    obtain ⟨n, v⟩ := e
    have hm : (wGroup g.handler l [(n, v)] g).members = g.members := by rw [wGroup_members]
    have hh : (wGroup g.handler l [(n, v)] g).handler = g.handler := by rw [wGroup_members]
    rw [laneWrites, laneWrite_eq hg, ih (upd_group hg _ _ _), hm, hh, upd_upd, ← wThread_cons, ← wGroup_cons]

theorem applyOut_eq {tm : Team} {k : Nat} {g : Group} (hg : sget tm.groups k = some g) (dsm : BitVec 4) (o : LaneOut) :
    applyOut tm k dsm o = upd tm k (sgetD g.members o.lane 0) (fun th => pThread g.handler o (wThread g.handler dsm o.vs th))
      (wGroup g.handler o.lane o.vs) := by
  have hm : (wGroup g.handler o.lane o.vs g).members = g.members := by rw [wGroup_members]
  unfold applyOut lanePreds
  rw [laneWrites_eq hg]
  have hh : (wGroup g.handler o.lane o.vs g).handler = g.handler := by rw [wGroup_members]
  simp only [upd_group hg, hm, hh]
  simp only [upd, modThread, modGroup, smod_smod, pThread]

/-! ## All lanes -/

/-- What the outputs leave of the group. -/
def wGroups (hm : Bool) (outs : List LaneOut) : Group → Group := fun g => outs.foldl (fun g o => wGroup hm o.lane o.vs g) g

theorem wGroups_nil (hm : Bool) : wGroups hm [] = fun g => g := rfl
theorem wGroups_cons (hm : Bool) (o : LaneOut) (t : List LaneOut) :
    wGroups hm (o :: t) = fun g => wGroups hm t (wGroup hm o.lane o.vs g) := rfl

theorem wGroups_members (hm : Bool) (outs : List LaneOut) (g : Group) :
    wGroups hm outs g = { g with hregs := (wGroups hm outs g).hregs } := by
  induction outs generalizing g with
  | nil => rfl
  | cons o t ih =>
    simp only [wGroups, List.foldl_cons] at ih ⊢
    rw [ih, wGroup_members]

/-- What the outputs leave of a thread. -/
def wThreads (mem : Store Nat) (hm : Bool) (dsm : BitVec 4) (tid : Nat) (outs : List LaneOut) : Thread → Thread :=
  fun th => outs.foldl (fun th o => if sgetD mem o.lane 0 = tid then pThread hm o (wThread hm dsm o.vs th) else th) th

theorem wThreads_nil (mem : Store Nat) (hm : Bool) (dsm : BitVec 4) (tid : Nat) : wThreads mem hm dsm tid [] = fun th => th := rfl
theorem wThreads_cons (mem : Store Nat) (hm : Bool) (dsm : BitVec 4) (tid : Nat) (o : LaneOut) (t : List LaneOut) :
    wThreads mem hm dsm tid (o :: t) = fun th => wThreads mem hm dsm tid t
      (if sgetD mem o.lane 0 = tid then pThread hm o (wThread hm dsm o.vs th) else th) := rfl

theorem applyOuts_spec {tm : Team} {k : Nat} {g : Group} (hg : sget tm.groups k = some g) (dsm : BitVec 4) (outs : List LaneOut) :
    (applyOuts tm k dsm outs)
        = { tm with threads := (applyOuts tm k dsm outs).threads, groups := smod tm.groups k (wGroups g.handler outs) }
      ∧ ∀ tid, sget (applyOuts tm k dsm outs).threads tid
        = (sget tm.threads tid).map (wThreads g.members g.handler dsm tid outs) := by
  induction outs generalizing tm g with
  | nil =>
    refine ⟨?_, fun tid => ?_⟩
    · simp only [applyOuts, wGroups_nil, smod_id]
    · simp only [applyOuts, wThreads_nil, Option.map_id']
  | cons o t ih =>
    have hg' : sget (applyOut tm k dsm o).groups k = some (wGroup g.handler o.lane o.vs g) := by
      rw [applyOut_eq hg, upd_group hg]
    have hm : (wGroup g.handler o.lane o.vs g).members = g.members := by rw [wGroup_members]
    have hh : (wGroup g.handler o.lane o.vs g).handler = g.handler := by rw [wGroup_members]
    obtain ⟨h1, h2⟩ := ih hg'
    refine ⟨?_, fun tid => ?_⟩
    · rw [applyOuts, h1, hh, applyOut_eq hg]
      simp only [upd, modThread, modGroup, smod_smod, wGroups_cons]
    · rw [applyOuts, h2, hm, hh, applyOut_eq hg]
      simp only [upd, modThread, modGroup, wThreads_cons]
      rw [sget_smod]
      cases sget tm.threads tid with
      | none => simp only [Option.map_none, ite_self]
      | some th =>
        by_cases hc : sgetD g.members o.lane 0 = tid
        · simp only [hc, if_true, Option.map_some]
        · simp only [hc, if_false, Option.map_some]

/-! ## One thread's view after its lane's writes -/

/-- Register writes change registers, tags and pending writes of a thread only. -/
theorem wThread_frame (hm : Bool) (dsm : BitVec 4) (vs : List (Nat × Word)) (th : Thread) :
    wThread hm dsm vs th = { th with
      regs := (wThread hm dsm vs th).regs, tags := (wThread hm dsm vs th).tags, pend := (wThread hm dsm vs th).pend } := by
  induction vs generalizing th with
  | nil => rfl
  | cons e t ih =>
    simp only [wThread, List.foldl_cons] at ih ⊢
    rw [ih]
    split <;> rfl

/-- Predicate writes change predicates only. -/
theorem predWrites_frame (ps : List (PReg × Bool)) (th : Thread) :
    ps.foldl (fun th p => predWrite th p.1 p.2) th = { th with preds := (ps.foldl (fun th p => predWrite th p.1 p.2) th).preds } := by
  induction ps generalizing th with
  | nil => rfl
  | cons e t ih =>
    simp only [List.foldl_cons]
    rw [ih]
    unfold predWrite
    split <;> rfl

/-- No flags are owed where the output has none. -/
theorem late_flags (hm : Bool) (o : LaneOut) : (o.late hm).flags = 0 ↔ o.fl = 0 := by
  have key : ∀ f : BitVec 5, f.zeroExtend 32 = (0 : BitVec 32) ↔ f = 0 := by decide
  exact key o.fl

theorem pThread_frame (hm : Bool) (o : LaneOut) (th : Thread) :
    pThread hm o th = { th with
      preds := (pThread hm o th).preds, late := th.late ++ (if o.fl = 0 then [] else [o.late hm]) } := by
  unfold pThread flagSet
  simp only [late_flags]
  rw [predWrites_frame]
  split <;> simp_all

/-- A predicate after a write. -/
theorem predRead_predWrite (th : Thread) (p q : PReg) (b : Bool) :
    predRead (predWrite th p b) q = if p = q ∧ q ≠ 7 then b else predRead th q := by
  unfold predRead predWrite
  by_cases hp : p = 7
  · subst hp
    by_cases hq : q = 7
    · simp [hq]
    · simp only [if_true, hq, if_false]
      rw [if_neg (by rintro ⟨rfl, h⟩; exact h rfl)]
  · simp only [hp, if_false]
    by_cases hq : q = 7
    · simp [hq]
    · have key : ∀ (v : BitVec 7) (p q : BitVec 3) (b : Bool), p ≠ 7 → q ≠ 7 →
          (v &&& ~~~(1#7 <<< p.toNat) ||| (BitVec.ofBool b).zeroExtend 7 <<< p.toNat).getLsbD q.toNat
            = if p = q then b else v.getLsbD q.toNat := by decide
      simp only [hq, if_false, key _ _ _ _ hp hq, ne_eq, not_false_eq_true, and_true]

theorem predRead_frame {th th' : Thread} (h : th'.preds = th.preds) (q : PReg) : predRead th' q = predRead th q := by
  simp only [predRead, h]

theorem predRead_pThread (hm : Bool) (o : LaneOut) (th : Thread) (q : PReg) : predRead (pThread hm o th) q = predsAfter th o.ps q := by
  have h : ∀ (ps : List (PReg × Bool)) (th : Thread),
      predRead (ps.foldl (fun th p => predWrite th p.1 p.2) th) q = predsAfter th ps q := by
    intro ps
    induction ps with
    | nil => intro th; rfl
    | cons e t ih =>
      intro th
      simp only [List.foldl_cons, predsAfter] at ih ⊢
      rw [ih, predRead_predWrite]
      simp only [Bool.and_eq_true, decide_eq_true_eq]
  rw [show predRead (pThread hm o th) q = predRead (o.ps.foldl (fun th p => predWrite th p.1 p.2) th) q from by
    unfold pThread flagSet; split <;> rfl, h]

/-- Registers of a thread after its lane's writes: outside handler scratch. -/
theorem sgetD_wThread (hm : Bool) (dsm : BitVec 4) (vs : List (Nat × Word)) (th : Thread) (n : Nat)
    (hn : (hm && 248 ≤ n) = false) (hk : (vs.map Prod.fst).Nodup) :
    sgetD (wThread hm dsm vs th).regs n 0 = match vs.find? fun e => e.1 = n with | some e => e.2 | none => sgetD th.regs n 0 := by
  induction vs generalizing th with
  | nil => rfl
  | cons e t ih =>
    obtain ⟨m, v⟩ := e
    simp only [List.map_cons, List.nodup_cons] at hk
    simp only [wThread, List.foldl_cons] at ih ⊢
    rw [ih _ hk.2]
    by_cases hm' : m = n
    · subst hm'
      have hnone : (t.find? fun e => decide (e.1 = m)) = none := by
        rw [List.find?_eq_none]
        intro e he h
        simp only [decide_eq_true_eq] at h
        exact hk.1 (h ▸ List.mem_map_of_mem he)
      simp only [hnone, hn, Bool.false_eq_true, if_false, List.find?_cons, decide_true, regWrite, sgetD_ssetD_eq]
    · simp only [List.find?_cons, hm', decide_false]
      cases t.find? fun e => decide (e.1 = n) with
      | some e => rfl
      | none =>
        by_cases hc : (hm && decide (248 ≤ m)) = true
        · simp only [hc, if_true]
        · simp only [hc, Bool.false_eq_true, if_false, regWrite, sgetD_ssetD_ne _ _ _ hm']

/-- Handler scratch after the lanes' writes. -/
theorem sget_wGroup (l l' n : Nat) (vs : List (Nat × Word)) (g : Group) (hn : 248 ≤ n ∧ n < 256)
    (hv : ∀ e ∈ vs, e.1 < 256) (hk : (vs.map Prod.fst).Nodup) :
    sget (wGroup true l vs g).hregs (hKey l' n) =
      match (if l = l' then vs.find? fun e => e.1 = n else none) with | some e => some e.2 | none => sget g.hregs (hKey l' n) := by
  induction vs generalizing g with
  | nil => simp [wGroup]
  | cons e t ih =>
    obtain ⟨m, v⟩ := e
    simp only [List.map_cons, List.nodup_cons] at hk
    have hm256 : m < 256 := hv (m, v) (by simp)
    simp only [wGroup, List.foldl_cons] at ih ⊢
    rw [ih _ (fun e he => hv e (by simp [he])) hk.2]
    by_cases hl : l = l'
    · subst hl
      simp only [if_true]
      by_cases hm' : m = n
      · subst hm'
        have hnone : (t.find? fun e => decide (e.1 = m)) = none := by
          rw [List.find?_eq_none]
          intro e he h
          simp only [decide_eq_true_eq] at h
          exact hk.1 (h ▸ List.mem_map_of_mem he)
        simp [hnone, hn.1]
      · simp only [List.find?_cons, hm', decide_false]
        cases t.find? fun e => decide (e.1 = n) with
        | some e => rfl
        | none =>
          simp only [Bool.true_and]
          split
          · rename_i h248
            simp only [decide_eq_true_eq] at h248
            exact sget_sset_ne _ _ (by unfold hKey; omega)
          · rfl
    · simp only [hl, if_false]
      split
      · rename_i h248
        simp only [Bool.true_and, decide_eq_true_eq] at h248
        exact sget_sset_ne _ _ (by unfold hKey; omega)
      · rfl

end Sys2Proof.Laws
end

