-- ==== Sys2Proof/Laws/Retire.lean ====
section
/-! SUPPORT. Retiring a word, and that a word of class A or F shows what its lanes write. -/

namespace Sys2Proof.Laws

open Sys2Proof.Machine

/-! ## Lanes with threads of their own -/

/-- Distinct lanes have distinct threads. -/
theorem lanes_inj : ∀ {m : Store Nat}, (m.map Prod.fst).Nodup → (m.map Prod.snd).Nodup → ∀ {l l' : Nat},
    l ∈ m.map Prod.fst → l' ∈ m.map Prod.fst → sgetD m l 0 = sgetD m l' 0 → l = l' := by
  intro m
  induction m with
  | nil => intro _ _ l l' h; simp at h
  | cons e t ih =>
    obtain ⟨k, v⟩ := e
    intro h1 h2 l l' hl hl' he
    simp only [List.map_cons, List.nodup_cons] at h1 h2
    have hin : ∀ {n}, n ∈ t.map Prod.fst → sgetD t n 0 ∈ t.map Prod.snd := by
      intro n hn
      clear ih h1 h2 hl hl' he
      induction t with
      | nil => simp at hn
      | cons e t ih =>
        obtain ⟨a, b⟩ := e
        by_cases hc : a = n
        · simp [sgetD, sget, hc]
        · have : n ∈ t.map Prod.fst := by simpa [Ne.symm hc] using hn
          have h := ih this
          simp only [sgetD, sget, hc, if_false, List.map_cons, List.mem_cons]
          exact Or.inr h
    simp only [List.map_cons, List.mem_cons] at hl hl'
    by_cases hk : k = l
    · by_cases hk' : k = l'
      · omega
      · have hl' := hl'.resolve_left (Ne.symm hk')
        simp only [sgetD, sget, hk, if_true, Option.getD_some, if_neg (fun h : l = l' => hk' (hk.trans h))] at he
        exact absurd (by simpa [sgetD, he] using hin hl') h2.1
    · by_cases hk' : k = l'
      · have hl := hl.resolve_left (Ne.symm hk)
        have he' : sgetD t l 0 = v := by
          simpa only [sgetD, sget, hk, if_false, ← hk', if_true, Option.getD_some] using he
        exact absurd (he' ▸ hin hl) h2.1
      · have he' : sgetD t l 0 = sgetD t l' 0 := by simpa [sgetD, sget, hk, hk'] using he
        exact ih h1.2 h2.2 (hl.resolve_left (Ne.symm hk)) (hl'.resolve_left (Ne.symm hk')) he'

/-- What the lanes' outputs leave of one lane's thread. -/
theorem wThreads_lane {m : Store Nat} (h1 : (m.map Prod.fst).Nodup) (h2 : (m.map Prod.snd).Nodup) (hm : Bool) (dsm : BitVec 4)
    (o : Nat → LaneOut) (ho : ∀ l, (o l).lane = l) {l : Nat} (hl : l ∈ m.map Prod.fst) :
    ∀ {L : List Nat}, (∀ k ∈ L, k ∈ m.map Prod.fst) → L.Nodup → ∀ th : Thread,
      wThreads m hm dsm (sgetD m l 0) (L.map o) th = if l ∈ L then pThread hm (o l) (wThread hm dsm (o l).vs th) else th := by
  intro L
  induction L with
  | nil => intro _ _ th; simp [wThreads_nil]
  | cons k t ih =>
    intro hL hn th
    simp only [List.nodup_cons] at hn
    simp only [List.map_cons, wThreads_cons, ho]
    rw [ih (fun j hj => hL j (by simp [hj])) hn.2]
    by_cases hk : k = l
    · subst hk
      simp [hn.1]
    · have hne : sgetD m k 0 ≠ sgetD m l 0 := fun h => hk (lanes_inj h1 h2 (hL k (by simp)) hl h)
      simp [hne, Ne.symm hk]

/-- What they leave of handler scratch. -/
theorem wGroups_hregs (o : Nat → LaneOut) (ho : ∀ l, (o l).lane = l) (hv : ∀ l, ∀ e ∈ (o l).vs, e.1 < 256)
    (hk : ∀ l, ((o l).vs.map Prod.fst).Nodup) {l n : Nat} (hn : 248 ≤ n ∧ n < 256) :
    ∀ {L : List Nat}, L.Nodup → ∀ g : Group, sget (wGroups true (L.map o) g).hregs (hKey l n) =
      match (if l ∈ L then (o l).vs.find? fun e => e.1 = n else none) with
      | some e => some e.2
      | none => sget g.hregs (hKey l n) := by
  intro L
  induction L with
  | nil => intro _ g; simp [wGroups_nil]
  | cons k t ih =>
    intro hL g
    simp only [List.nodup_cons] at hL
    simp only [List.map_cons, wGroups_cons, ho]
    rw [ih hL.2, sget_wGroup k l n _ _ hn (hv k) (hk k)]
    by_cases hkl : k = l
    · subst hkl
      simp only [hL.1, if_false, if_true, List.mem_cons, true_or]
      try rfl
    · simp only [hkl, if_false, List.mem_cons, Ne.symm hkl, false_or]

/-! ## Retiring -/

/-- Closing windows changes pending writes of the threads named, once each, and nothing else. -/
theorem pendTicks_frame (hm : Bool) {tids : List Nat} (hn : tids.Nodup) (tm : Team) :
    pendTicks tm hm tids = { tm with threads := (pendTicks tm hm tids).threads }
      ∧ ∀ t, sget (pendTicks tm hm tids).threads t
        = (sget tm.threads t).map fun th => if t ∈ tids then pendTick hm th else th := by
  induction tids generalizing tm with
  | nil => exact ⟨rfl, fun t => by simp [pendTicks]⟩
  | cons a r ih =>
    simp only [List.nodup_cons] at hn
    obtain ⟨h1, h2⟩ := ih hn.2 (modThread tm a (pendTick hm))
    refine ⟨by rw [pendTicks, h1]; rfl, fun t => ?_⟩
    rw [pendTicks, h2, modThread, sget_smod]
    by_cases hc : a = t
    · subst hc
      rw [if_pos rfl, Option.map_map]
      simp [hn.1, Function.comp_def]
    · simp [hc, Ne.symm hc]

/-- A group past its word is the same group elsewhere. -/
theorem advance_frame (c : Nat) (g : Group) :
    advance c g = { g with
      pc := (advance c g).pc, wix := (advance c g).wix, clause := (advance c g).clause, waitzDone := (advance c g).waitzDone,
      left := (advance c g).left, lastIssue := c } := by
  unfold advance
  split
  · rfl
  · split <;> rfl

/-- What retiring leaves of a team: the group at its next word, pending writes one instruction older, `%icount`. -/
theorem retireTeam_frame {c k : Nat} {tm : Team} {g : Group} (hg : sget tm.groups k = some g) (hn : (memberTids g).Nodup) :
    retireTeam c k tm = { tm with
      threads := (retireTeam c k tm).threads, groups := smod tm.groups k (fun g => { advance c g with counted := false }),
      icount := tm.icount + (if g.handler || g.counted then 0 else 1) }
    ∧ ∀ t, sget (retireTeam c k tm).threads t
        = (sget tm.threads t).map fun th => if t ∈ memberTids g then pendTick g.handler th else th := by
  obtain ⟨h1, h2⟩ := pendTicks_frame g.handler hn tm
  unfold retireTeam
  simp only [hg]
  split
  · rename_i hc
    refine ⟨?_, h2⟩
    rw [h1]
    simp only [Nat.add_zero]
    rfl
  · rename_i hc
    refine ⟨?_, h2⟩
    rw [h1]
    rfl

/-! ## Words of class A and F -/

/-- A thread after its lane's writes and an instruction's age. -/
def doneThread (hm : Bool) (dsm : BitVec 4) (o : LaneOut) (b : Bool) (th : Thread) : Thread :=
  pendTick hm (if b then pThread hm o (wThread hm dsm o.vs th) else th)

/-- The tags after a lane's writes. -/
theorem tags_wThread (hm : Bool) (dsm : BitVec 4) (vs : List (Nat × Word)) (th : Thread) {n : Nat} (hn : n < 256) :
    sgetD (wThread hm dsm vs th).tags n 0xF
      = if n ∈ vs.map (fun e => pendReg hm e.1) then dsm else sgetD th.tags n 0xF := by
  induction vs generalizing th with
  | nil => simp [wThread_nil]
  | cons e t ih =>
    obtain ⟨m, v⟩ := e
    rw [wThread_cons, ih, wThread_one]
    by_cases hc : (hm && decide (248 ≤ m)) = true
    · have h248 : 248 ≤ m := by simpa using (Bool.and_eq_true_iff.1 hc).2
      have : n ≠ 8 + m := by omega
      simp only [hc, if_true, List.map_cons, List.mem_cons, pendReg, this, false_or]
    · have hp : pendReg hm m = m := by simp only [pendReg, hc, Bool.false_eq_true, if_false]
      simp only [hc, Bool.false_eq_true, if_false, regWrite, List.map_cons, List.mem_cons, hp, sgetD_ssetD]
      by_cases hmn : m = n
      · simp only [hmn, if_true, true_or, ite_self]
      · simp only [hmn, Ne.symm hmn, if_false, false_or]

/-- The pending results that a lane's writes leave. -/
theorem pend_wThread (hm : Bool) (dsm : BitVec 4) (vs : List (Nat × Word)) (th : Thread) :
    (wThread hm dsm vs th).pend = th.pend.filter fun p => decide (p.reg ∉ vs.map fun e => pendReg hm e.1) := by
  induction vs generalizing th with
  | nil => simp [wThread_nil]
  | cons e t ih =>
    obtain ⟨m, v⟩ := e
    have h1 : (wThread hm dsm [(m, v)] th).pend = th.pend.filter fun p => decide (p.reg ≠ pendReg hm m) := by
      rw [wThread_one, pendReg]
      by_cases hc : (hm && decide (248 ≤ m)) = true
      · simp only [hc, if_true]
      · simp only [hc, Bool.false_eq_true, if_false, regWrite]
    rw [wThread_cons, ih, h1, List.filter_filter]
    refine List.filter_congr fun p _ => ?_
    simp only [List.map_cons, List.mem_cons, not_or, Bool.decide_and, ne_eq]
    exact Bool.and_comm _ _

/-- A thread outside the lanes that write keeps its state. -/
theorem wThreads_out (m : Store Nat) (hm : Bool) (dsm : BitVec 4) {i : Nat} (outs : List LaneOut)
    (h : ∀ o ∈ outs, sgetD m o.lane 0 ≠ i) (th : Thread) : wThreads m hm dsm i outs th = th := by
  induction outs generalizing th with
  | nil => rfl
  | cons o t ih =>
    simp only [wThreads_cons, h o (by simp), if_false]
    exact ih (fun o ho => h o (by simp [ho])) th

/-- Outside handler mode the lanes' writes leave handler scratch. -/
theorem wGroups_plain (outs : List LaneOut) (g : Group) : wGroups false outs g = g := by
  induction outs generalizing g with
  | nil => rfl
  | cons o t ih =>
    have : wGroup false o.lane o.vs g = g := by
      unfold wGroup
      generalize o.vs = vs
      induction vs with
      | nil => rfl
      | cons e t ih => simp
    simp only [wGroups_cons, this, ih]

/-- The thread id of a member lane. -/
theorem tid_of_lane {g : Group} {l : Nat} (h : l ∈ memberLanes g) : sgetD g.members l 0 ∈ memberTids g := by
  unfold memberLanes at h
  unfold memberTids
  generalize g.members = m at h ⊢
  induction m with
  | nil => simp at h
  | cons e t ih =>
    obtain ⟨a, b⟩ := e
    by_cases hc : a = l
    · simp [sgetD, sget, hc]
    · have : l ∈ t.map Prod.fst := by simpa [Ne.symm hc] using h
      have h := ih this
      simp only [sgetD, sget, hc, if_false, List.map_cons, List.mem_cons]
      exact Or.inr h

/-- A write of a list with distinct registers is found by its register. -/
theorem find_of_mem {vs : List (Nat × Word)} (h : (vs.map Prod.fst).Nodup) {n : Nat} {v : Word} (hm : (n, v) ∈ vs) :
    vs.find? (fun e => decide (e.1 = n)) = some (n, v) := by
  induction vs with
  | nil => simp at hm
  | cons e t ih =>
    obtain ⟨a, b⟩ := e
    simp only [List.map_cons, List.nodup_cons] at h
    by_cases hc : a = n
    · subst hc
      rcases List.mem_cons.1 hm with he | ht
      · simp [he]
      · exact absurd (List.mem_map_of_mem (f := Prod.fst) ht) h.1
    · have ht : (n, v) ∈ t := by
        rcases List.mem_cons.1 hm with he | ht
        · exact absurd (congrArg Prod.fst he).symm hc
        · exact ht
      simp [hc, ih h.2 ht]

theorem find_none_of_not_mem {vs : List (Nat × Word)} {n : Nat} (h : n ∉ vs.map Prod.fst) :
    vs.find? (fun e => decide (e.1 = n)) = none := by
  rw [List.find?_eq_none]
  intro e he hc
  simp only [decide_eq_true_eq] at hc
  exact h (hc ▸ List.mem_map_of_mem he)

theorem predsAfter_frame {th th' : Thread} (h : th'.preds = th.preds) (ps : List (PReg × Bool)) (p : PReg) :
    predsAfter th' ps p = predsAfter th ps p := by
  unfold predsAfter
  rw [predRead_frame h]

/-- A group past its word, but for its handler scratch, which it keeps. -/
theorem advance_hregs (c : Nat) (g : Group) (h : Store Word) :
    advance c { g with hregs := h } = { advance c g with hregs := h } := by
  unfold advance
  cases g.clause with
  | none => rfl
  | some cl =>
    simp only
    split <;> rfl

/-- A word of class A or F, at its site, shows what its lanes write. -/
theorem laneA_shows {r : Req} {dsm : BitVec 4} {f : LView → Nat → LaneOut} {s s1 : State} {x : Site}
    (h : issueSite r s = some (x, s1)) (hown : OwnLanes x) (hq : Untraced s1 x) (hl : ∀ v l, (f v l).lane = l)
    (hk : ∀ v l, ((f v l).vs.map Prod.fst).Nodup) (hv : ∀ v l, ∀ e ∈ (f v l).vs, e.1 < 256) :
    ∃ y, LanesShow s1 x dsm (f (x.view s1)) (laneA r dsm f s) y := by
  have hsite := siteOf_parts (site_of_issueSite h)
  obtain ⟨-, -, htm, hg, hlr, hact⟩ := hsite
  obtain ⟨hn1, hn2, hth⟩ := hown
  let o : Nat → LaneOut := fun l => { f (x.view s1) l with due := flagTime s1 }
  have hol : ∀ l, (o l).lane = l := hl _
  have hok : ∀ l, ((o l).vs.map Prod.fst).Nodup := hk _
  have hov : ∀ l, ∀ e ∈ (o l).vs, e.1 < 256 := hv _
  have hL : ∀ k ∈ x.act, k ∈ x.g.members.map Prod.fst := by
    intro k hk'
    rw [hact] at hk'
    exact List.mem_of_mem_filter hk'
  have hnd : x.act.Nodup := by
    rw [hact]
    exact hn1.filter _
  have hr : laneA r dsm f s = retireGroup (modTeam s1 x.t fun tm => applyOuts tm x.k dsm (x.act.map o)) x.t x.k := by
    unfold laneA
    rw [issue_retire h rfl, retired, clauseTrace_untraced]
    exact hq
  obtain ⟨ha1, ha2⟩ := applyOuts_spec hg dsm (x.act.map o)
  set tm1 := applyOuts x.tm x.k dsm (x.act.map o) with htm1
  set g1 := wGroups x.g.handler (x.act.map o) x.g with hg1'
  have hg1 : sget tm1.groups x.k = some g1 := by
    rw [ha1]
    simp only [sget_smod_eq, hg, Option.map_some, hg1']
  have hm1 : g1.members = x.g.members := by rw [hg1', wGroups_members]
  have hh1 : g1.handler = x.g.handler := by rw [hg1', wGroups_members]
  have hc1 : g1.counted = x.g.counted := by rw [hg1', wGroups_members]
  have ht1 : memberTids g1 = memberTids x.g := by unfold memberTids; rw [hm1]
  obtain ⟨hr1, hr2⟩ := retireTeam_frame (c := s1.cycle) hg1 (ht1 ▸ hn2)
  rw [ht1, hh1] at hr2
  rw [hh1, hc1] at hr1
  set tm2 := retireTeam s1.cycle x.k tm1 with htm2
  have hteam : sget (laneA r dsm f s).teams x.t = some tm2 := by
    rw [hr]
    simp only [retireGroup, modTeam, sget_smod_eq, htm, Option.map_some]
    rfl
  have hg2 : sget tm2.groups x.k = some { advance s1.cycle g1 with counted := false } := by
    rw [hr1]
    simp only [sget_smod_eq, hg1, Option.map_some]
  set g2 : Group := { advance s1.cycle g1 with counted := false } with hg2'
  have hm2 : g2.members = x.g.members := by rw [hg2', advance_frame, hm1]
  have hh2 : g2.handler = x.g.handler := by rw [hg2', advance_frame, hh1]
  have hr2' : g2.hregs = g1.hregs := by rw [hg2', advance_frame]
  let y : Site := ⟨x.t, x.k, tm2, g2, lrecOf (laneA r dsm f s) tm2, activeLanes tm2 g2 ⟨false, 7⟩⟩
  have hthr : ∀ l ∈ memberLanes x.g, (y.view (laneA r dsm f s)).thr l
      = doneThread x.g.handler dsm (o l) (decide (l ∈ x.act)) ((x.view s1).thr l) := by
    intro l hlm
    have htid := tid_of_lane hlm
    obtain ⟨th, hth'⟩ := Option.isSome_iff_exists.1 (hth _ htid)
    have hx : (x.view s1).thr l = th := by
      simp only [LView.thr, Site.view, sgetD, hth', Option.getD_some] at hth' ⊢
    have hy : sget tm2.threads (sgetD x.g.members l 0)
        = some (pendTick x.g.handler
            (wThreads x.g.members x.g.handler dsm (sgetD x.g.members l 0) (x.act.map o) th)) := by
      rw [hr2, ha2, hth']
      simp only [htid, if_true, Option.map_some]
    have hy' : (y.view (laneA r dsm f s)).thr l = (sget tm2.threads (sgetD x.g.members l 0)).getD default := by
      show (sget tm2.threads (sgetD g2.members l 0)).getD default = _
      rw [hm2]
    rw [hy', hy, hx, wThreads_lane hn1 hn2 _ _ o hol hlm hL hnd, Option.getD_some, doneThread]
    by_cases hc : l ∈ x.act <;> simp only [hc, decide_true, decide_false, if_true, if_false, Bool.false_eq_true]
  have hreg : ∀ l ∈ memberLanes x.g, ∀ n < 256, (y.view (laneA r dsm f s)).reg l n
      = match (if l ∈ x.act then (o l).vs.find? fun e => e.1 = n else none) with
        | some e => e.2
        | none => (x.view s1).reg l n := by
    intro l hlm n hn
    by_cases hc : (x.g.handler && decide (248 ≤ n)) = true
    · have hh : x.g.handler = true := by simpa using (Bool.and_eq_true_iff.1 hc).1
      have h248 : 248 ≤ n := by simpa using (Bool.and_eq_true_iff.1 hc).2
      have e1 : (y.view (laneA r dsm f s)).reg l n
          = (sget g2.hregs (hKey l n)).getD (Config.freeWord s1.freeCtr (256 * l + n)) := by
        unfold LView.reg
        rw [if_pos (by show (g2.handler && decide (248 ≤ n)) = true; rw [hh2]; exact hc)]
        show Option.getD _ (Config.freeWord (laneA r dsm f s).freeCtr _) = _
        rw [hr]
        rfl
      have e2 : (x.view s1).reg l n = (sget x.g.hregs (hKey l n)).getD (Config.freeWord s1.freeCtr (256 * l + n)) := by
        unfold LView.reg
        rw [if_pos (by show (x.g.handler && decide (248 ≤ n)) = true; exact hc)]
        rfl
      rw [e1, e2, hr2', hg1', hh, wGroups_hregs o hol hov hok ⟨h248, hn⟩ hnd]
      split <;> rfl
    · have hc' : (x.g.handler && decide (248 ≤ n)) = false := by simpa using hc
      have e1 : (y.view (laneA r dsm f s)).reg l n = sgetD ((y.view (laneA r dsm f s)).thr l).regs n 0 := by
        unfold LView.reg
        rw [if_neg (by show ¬(g2.handler && decide (248 ≤ n)) = true; rw [hh2]; exact hc)]
      have e2 : (x.view s1).reg l n = sgetD ((x.view s1).thr l).regs n 0 := by
        unfold LView.reg
        rw [if_neg (by show ¬(x.g.handler && decide (248 ≤ n)) = true; exact hc)]
      rw [e1, e2, hthr l hlm, doneThread]
      by_cases ha : l ∈ x.act
      · simp only [ha, decide_true, if_true, pendTick]
        rw [pThread_frame]
        exact sgetD_wThread _ _ _ _ _ hc' (hok _)
      · simp only [ha, decide_false, if_false, Bool.false_eq_true, pendTick]
  refine ⟨y, ?_⟩
  constructor
  case same =>
    unfold siteOf
    simp only [hteam, hg2]
    rfl
  case written =>
    intro l hla n v hmem
    have hlm : l ∈ memberLanes x.g := hL l hla
    rw [hreg l hlm n (hv _ _ _ hmem), if_pos hla, find_of_mem (hok l) hmem]
  case kept =>
    intro l hlm n hn hno
    rw [hreg l hlm n hn]
    by_cases ha : l ∈ x.act
    · rw [if_pos ha, find_none_of_not_mem (fun hm => hno ⟨ha, hm⟩)]
    · rw [if_neg ha]
  case tags =>
    intro l hlm n hn
    rw [hthr l hlm, doneThread]
    by_cases ha : l ∈ x.act
    · simp only [ha, decide_true, if_true, pendTick, true_and]
      rw [pThread_frame]
      exact tags_wThread _ _ _ _ hn
    · simp only [ha, decide_false, if_false, Bool.false_eq_true, pendTick, false_and]
  case preds =>
    intro l hlm p
    rw [hthr l hlm, doneThread]
    by_cases ha : l ∈ x.act
    · simp only [ha, decide_true, if_true]
      refine (predRead_frame (th := pThread x.g.handler (o l) (wThread x.g.handler dsm (o l).vs ((x.view s1).thr l))) rfl p).trans ?_
      rw [predRead_pThread]
      exact predsAfter_frame (by rw [wThread_frame]) _ _
    · simp only [ha, decide_false, if_false, Bool.false_eq_true]
      exact predRead_frame rfl p
  case flags =>
    intro l hlm
    rw [hthr l hlm, doneThread]
    by_cases ha : l ∈ x.act
    · simp only [ha, decide_true, if_true, pendTick, true_and]
      rw [pThread_frame, wThread_frame]
      refine ⟨rfl, ?_⟩
      by_cases hf : (f (x.view s1) l).fl = 0
      · simp [o, hf]
      · simp [o]
    · simp only [ha, decide_false, if_false, Bool.false_eq_true, pendTick, false_and, List.append_nil, and_self]
  case pend =>
    intro l hlm
    rw [hthr l hlm, doneThread]
    by_cases ha : l ∈ x.act
    · simp only [ha, decide_true, if_true, pendTick, true_and]
      rw [pThread_frame]
      show List.map _ (wThread x.g.handler dsm (o l).vs ((x.view s1).thr l)).pend = _
      rw [pend_wThread]
      rfl
    · simp [ha, pendTick]
  case threads =>
    intro l hlm
    rw [hthr l hlm, doneThread]
    by_cases ha : l ∈ x.act
    · simp only [ha, decide_true, if_true, pendTick]
      rw [pThread_frame, wThread_frame]
      exact ⟨rfl, rfl, rfl, rfl, rfl, rfl⟩
    · simp only [ha, decide_false, if_false, Bool.false_eq_true, pendTick, and_self]
  case moved =>
    show g2 = { advance s1.cycle x.g with counted := false, hregs := g2.hregs }
    rw [hr2', hg2', hg1', wGroups_members, advance_hregs]
  case hregs =>
    intro hh
    show g2.hregs = x.g.hregs
    rw [hr2', hg1', hh, wGroups_plain]
  case groups =>
    intro k hk'
    show sget tm2.groups k = sget x.tm.groups k
    rw [hr1, ha1]
    simp only [sget_smod_ne _ _ (Ne.symm hk')]
  case outside =>
    intro i hi
    show sget tm2.threads i = sget x.tm.threads i
    rw [hr2, ha2]
    have hout : ∀ q ∈ x.act.map o, sgetD x.g.members q.lane 0 ≠ i := by
      intro q hq' he
      obtain ⟨l, hla, rfl⟩ := List.mem_map.1 hq'
      rw [hol] at he
      exact hi (he ▸ tid_of_lane (hL l hla))
    cases sget x.tm.threads i with
    | none => rfl
    | some th => simp only [Option.map_some, hi, if_false, wThreads_out _ _ _ _ hout]
  case icount =>
    show tm2.icount = _
    rw [hr1, ha1]
  case team =>
    show { tm2 with threads := x.tm.threads, groups := x.tm.groups, icount := x.tm.icount } = x.tm
    rw [hr1, ha1]
  case rest =>
    rw [hr]
    rfl
  case others =>
    intro n hn
    rw [hr]
    simp only [retireGroup, modTeam]
    rw [sget_smod_ne _ _ (Ne.symm hn), sget_smod_ne _ _ (Ne.symm hn)]

end Sys2Proof.Laws
end

