-- ==== Sys2Proof/Laws/Windows.lean ====
section
/-! SUPPORT. Lookahead windows (R43): what the arrived writes of a group's threads leave as the group issues; and scratchpad
after a write. -/

namespace Sys2Proof.Laws

open Sys2Proof.Machine

/-- What one arrived write leaves of its thread. -/
def pendOne (th : Thread) (p : PendingWrite) : Thread :=
  let th := { th with pend := th.pend.filter fun q => !(q.reg = p.reg && (256 ≤ p.reg || q.op = p.op)) }
  if p.reg < 256 then regWrite th p.reg p.value p.dsm else th

/-- What it leaves of the team. -/
def installOne (g : Group) (k l : Nat) (tm : Team) (p : PendingWrite) : Team :=
  let tm := modThread tm (sgetD g.members l 0) fun th =>
    { th with pend := th.pend.filter fun q => !(q.reg = p.reg && (256 ≤ p.reg || q.op = p.op)) }
  if p.reg < 256 then modThread tm (sgetD g.members l 0) fun th => regWrite th p.reg p.value p.dsm
  else if g.handler then modGroup tm k fun g => { g with hregs := sset g.hregs (8 * l + (p.reg - 256)) p.value }
  else tm

theorem installOne_spec {tm : Team} {k l : Nat} {g g1 : Group} (p : PendingWrite) (h1 : sget tm.groups k = some g1)
    (h2 : g1.members = g.members) (h3 : g1.handler = g.handler) :
    (∃ g', sget (installOne g k l tm p).groups k = some g' ∧ g'.members = g.members ∧ g'.handler = g.handler) ∧
    ∀ i th, sget tm.threads i = some th →
      sget (installOne g k l tm p).threads i = some (if i = sgetD g.members l 0 then pendOne th p else th) := by
  unfold installOne
  by_cases hp : p.reg < 256
  · simp only [hp, if_true]
    refine ⟨⟨g1, h1, h2, h3⟩, ?_⟩
    intro i th hi
    show sget (smod (smod _ _ _) _ _) _ = _
    by_cases he : i = sgetD g.members l 0
    · subst he; rw [sget_smod_eq, sget_smod_eq, hi]; simp [pendOne, hp]
    · rw [sget_smod_ne _ _ (Ne.symm he), sget_smod_ne _ _ (Ne.symm he), hi]; simp [he]
  · have hth : ∀ i th, sget tm.threads i = some th → sget (smod tm.threads (sgetD g.members l 0) fun th : Thread =>
          { th with pend := th.pend.filter fun q => !(q.reg = p.reg && (256 ≤ p.reg || q.op = p.op)) }) i
        = some (if i = sgetD g.members l 0 then pendOne th p else th) := by
      intro i th hi
      by_cases he : i = sgetD g.members l 0
      · subst he; rw [sget_smod_eq, hi]; simp [pendOne, hp]
      · rw [sget_smod_ne _ _ (Ne.symm he), hi]; simp [he]
    by_cases hh : g.handler = true
    · simp only [hp, hh, if_false, if_true]
      refine ⟨⟨{ g1 with hregs := sset g1.hregs (8 * l + (p.reg - 256)) p.value }, ?_, h2, by rw [← hh]; exact h3⟩, hth⟩
      show sget (smod _ _ _) _ = _
      rw [sget_smod_eq]
      exact congrArg (Option.map _) h1
    · simp only [hp, hh, if_false, Bool.false_eq_true]
      exact ⟨⟨g1, h1, h2, by simpa [hh] using h3⟩, hth⟩

theorem installOnes_spec {k l : Nat} {g : Group} (ps : List PendingWrite) : ∀ {tm : Team} {g1 : Group}, sget tm.groups k = some g1 →
    g1.members = g.members → g1.handler = g.handler →
    (∃ g', sget (ps.foldl (installOne g k l) tm).groups k = some g' ∧ g'.members = g.members ∧ g'.handler = g.handler) ∧
    ∀ i th, sget tm.threads i = some th →
      sget (ps.foldl (installOne g k l) tm).threads i = some (if i = sgetD g.members l 0 then ps.foldl pendOne th else th) := by
  induction ps with
  | nil => intro tm g1 h1 h2 h3; exact ⟨⟨g1, h1, h2, h3⟩, fun i th h => by simpa using h⟩
  | cons p t ih =>
    intro tm g1 h1 h2 h3
    obtain ⟨⟨g', ha, hb, hc⟩, hth⟩ := installOne_spec (l := l) p h1 h2 h3
    obtain ⟨hx, hy⟩ := ih ha hb hc
    refine ⟨hx, ?_⟩
    intro i th hi
    rw [List.foldl_cons, hy i _ (hth i th hi)]
    by_cases he : i = sgetD g.members l 0
    · simp only [he, if_true, List.foldl_cons]
    · simp only [he, if_false]

theorem pendInstall_spec {tm : Team} {k l : Nat} {g : Group} (hg : sget tm.groups k = some g) :
    (∃ g', sget (pendInstall tm k l).groups k = some g' ∧ g'.members = g.members ∧ g'.handler = g.handler) ∧
    ∀ i th, sget tm.threads i = some th → sget (pendInstall tm k l).threads i
      = some (if i = sgetD g.members l 0 then
          ((th.pend.filter fun p => pendCounts g.handler p && p.win = 0 && p.arr).foldl pendOne th) else th) := by
  have h : pendInstall tm k l = ((sgetD tm.threads (sgetD g.members l 0) default).pend.filter fun p =>
      pendCounts g.handler p && p.win = 0 && p.arr).foldl (installOne g k l) tm := by
    unfold pendInstall
    simp only [hg]
    rfl
  have := installOnes_spec (l := l) ((sgetD tm.threads (sgetD g.members l 0) default).pend.filter fun p =>
      pendCounts g.handler p && p.win = 0 && p.arr) hg rfl rfl
  rw [h]
  refine ⟨this.1, ?_⟩
  intro i th hi
  rw [this.2 i th hi]
  by_cases he : i = sgetD g.members l 0
  · subst he
    rw [show sgetD tm.threads (sgetD g.members l 0) default = th from by rw [sgetD, hi]; rfl]
  · simp only [he, if_false]

theorem pendInstalls_spec {k : Nat} (ls : List Nat) : ∀ {tm : Team} {g : Group}, sget tm.groups k = some g →
    (ls.map fun l => sgetD g.members l 0).Nodup → ∀ i th, sget tm.threads i = some th → sget (pendInstalls tm k ls).threads i
      = some (if i ∈ ls.map fun l => sgetD g.members l 0 then
          ((th.pend.filter fun p => pendCounts g.handler p && p.win = 0 && p.arr).foldl pendOne th) else th) := by
  induction ls with
  | nil => intro tm g _ _ i th hi; simpa [pendInstalls] using hi
  | cons l t ih =>
    intro tm g hg hn i th hi
    obtain ⟨⟨g', h1, h2, h3⟩, hthr⟩ := pendInstall_spec (l := l) hg
    simp only [List.map_cons, List.nodup_cons] at hn
    have := ih h1 (by rw [h2]; exact hn.2) i _ (hthr i th hi)
    simp only [pendInstalls]
    rw [this, h2, h3]
    by_cases he : i = sgetD g.members l 0
    · subst he
      simp only [hn.1, if_false, if_true, List.map_cons, List.mem_cons, true_or]
    · simp only [he, if_false, List.map_cons, List.mem_cons, false_or]

theorem pendOne_fold (ps : List PendingWrite) : ∀ th : Thread,
    (∀ n, n < 256 → sgetD (ps.foldl pendOne th).regs n 0 = ((ps.filter fun p => p.reg = n).getLast?.map (·.value)).getD (sgetD th.regs n 0)) ∧
    (∀ n, n < 256 → sgetD (ps.foldl pendOne th).tags n 0xF = ((ps.filter fun p => p.reg = n).getLast?.map (·.dsm)).getD (sgetD th.tags n 0xF)) ∧
    (ps.foldl pendOne th).pend = (th.pend.filter fun q => ps.all fun p => q.reg ≠ p.reg) ∧
    { ps.foldl pendOne th with regs := th.regs, tags := th.tags, pend := th.pend } = th := by
  induction ps with
  | nil => intro th; simp
  | cons p t ih =>
    intro th
    obtain ⟨h1, h2, h3, h4⟩ := ih (pendOne th p)
    have hpend : (pendOne th p).pend = th.pend.filter fun q => q.reg ≠ p.reg := by
      unfold pendOne
      by_cases hp : p.reg < 256
      · simp only [hp, if_true, regWrite, List.filter_filter]
        congr 1; funext q
        by_cases hq : q.reg = p.reg <;> simp [hq]
      · simp only [hp, if_false]
        congr 1; funext q
        have : 256 ≤ p.reg := by omega
        by_cases hq : q.reg = p.reg <;> simp [hq, this]
    simp only [List.foldl_cons]
    have last : ∀ (n : Nat) {β : Type} (f : PendingWrite → β) (a b : β), (p.reg = n → a = f p) → (p.reg ≠ n → a = b) →
        ((t.filter fun p => p.reg = n).getLast?.map f).getD a = (((p :: t).filter fun p => p.reg = n).getLast?.map f).getD b := by
      intro n β f a b ha hb
      by_cases hp : p.reg = n
      · simp only [List.filter_cons, hp, decide_true, if_true]
        cases hL : t.filter (fun p => p.reg = n) with
        | nil => simp [ha hp]
        | cons q qs => rw [List.getLast?_cons_cons, List.getLast?_eq_some_getLast (l := q :: qs) (by simp)]; rfl
      · simp only [List.filter_cons, hp, decide_false, if_false, Bool.false_eq_true]
        rw [hb hp]
    refine ⟨?_, ?_, ?_, ?_⟩
    · intro n hn
      rw [h1 n hn]
      apply last
      · intro e; subst e; simp only [pendOne, hn, if_true, regWrite, sgetD_ssetD_eq]
      · intro e
        unfold pendOne
        by_cases hp : p.reg < 256
        · simp only [hp, if_true, regWrite]; rw [sgetD_ssetD_ne _ _ _ e]
        · simp only [hp, if_false]
    · intro n hn
      rw [h2 n hn]
      apply last
      · intro e; subst e; simp only [pendOne, hn, if_true, regWrite, sgetD_ssetD_eq]
      · intro e
        unfold pendOne
        by_cases hp : p.reg < 256
        · simp only [hp, if_true, regWrite]; rw [sgetD_ssetD_ne _ _ _ e]
        · simp only [hp, if_false]
    · rw [h3, hpend, List.filter_filter]
      congr 1; funext q
      simp only [List.all_cons, Bool.and_comm]
    · have h5 : ({ pendOne th p with regs := th.regs, tags := th.tags, pend := th.pend } : Thread) = th := by
        unfold pendOne; by_cases hp : p.reg < 256 <;> simp only [hp, if_true, if_false, regWrite]
      have := congrArg (fun u : Thread => ({ u with regs := th.regs, tags := th.tags, pend := th.pend } : Thread)) h4
      exact this.trans h5

/-! ## Scratchpad -/

/-- A scratchpad byte after a write. -/
theorem spByte_spWrite (bs : List Byte) : ∀ (tm : Team) (off a : Nat),
    spByte (spWrite tm off bs) a = if off ≤ a ∧ a < off + bs.length then bs.getD (a - off) 0 else spByte tm a := by
  induction bs with
  | nil => intro tm off a; rw [if_neg (by simp)]; rfl
  | cons b t ih =>
    intro tm off a
    have h := ih (spWrite tm off [b]) (off + 1) a
    have e : spWrite (spWrite tm off [b]) (off + 1) t = spWrite tm off (b :: t) := rfl
    have e1 : spByte (spWrite tm off [b]) a = if off = a then b else spByte tm a := sgetD_ssetD tm.scratch off a b 0
    rw [e, e1] at h
    rw [h, List.length_cons]
    by_cases h1 : off + 1 ≤ a ∧ a < off + 1 + t.length
    · rw [if_pos h1, if_pos (by omega)]
      obtain ⟨k, rfl⟩ := Nat.exists_eq_add_of_le h1.1
      rw [show off + 1 + k - (off + 1) = k by omega, show off + 1 + k - off = k + 1 by omega]; rfl
    · rw [if_neg h1]
      by_cases h2 : off = a
      · rw [if_pos h2, if_pos (by omega)]; subst h2; simp
      · rw [if_neg h2, if_neg (by omega)]

end Sys2Proof.Laws
end

