-- ==== Sys2Proof/Laws/Words.lean ====
section
/-! SUPPORT. What the ends of some words answer, for any state that their reads leave. -/

namespace Sys2Proof.Laws

open Sys2Proof.Machine

/-! ## VREG (R309) -/

theorem vregEnd_trap {h : Head} {d : VReg} {pol : ViewPol} {x : Site} {g : ViewReg × State} {c : Context} {f : AFault}
    (h2 : sget g.2.contexts x.tm.ctx = some c) (h3 : vregBad g.2 x.tm.ctx c g.1 = some f) :
    vregEnd h d pol x g = .trapIn g.2 (leadTrap x f) := by
  unfold vregEnd; rw [h2]; dsimp only; rw [h3]

theorem vregEnd_ok {h : Head} {d : VReg} {pol : ViewPol} {x : Site} {g : ViewReg × State} {c : Context}
    (h2 : sget g.2.contexts x.tm.ctx = some c) (h3 : vregBad g.2 x.tm.ctx c g.1 = none) :
    vregEnd h d pol x g = .retire (openLong (modCtx g.2 x.tm.ctx fun _ => (register (timeOf g.2) c g.1 pol).2) x h (groupOp x h.dc .plain)
        (x.act.map fun l => out1 l d (BitVec.ofNat 32 (register (timeOf g.2) c g.1 pol).1))) := by
  unfold vregEnd; rw [h2]; dsimp only; rw [h3]

end Sys2Proof.Laws
end

