-- ==== Sys2Proof/Tests/Slice0.lean ====
section
/-! SUPPORT. Tests: decoded words, refused terms, small steps, and witnesses of the statements' hypotheses. -/

namespace Sys2Proof.Tests

set_option Elab.async false

open Sys2Proof Sys2Proof.Machine

/-! ## Words written out from R45 and the opcode map -/

/-- The formats of R45, field by field, most significant first: R; I, M and S; K; B; G; X; XK. -/
def wR (opc pred dsm d a b c la dc mod : Nat) : DWord :=
  BitVec.ofNat 64 (opc <<< 54 + pred <<< 50 + dsm <<< 46 + d <<< 38 + a <<< 30 + b <<< 22 + c <<< 14 + la <<< 10 + dc <<< 7 + mod)
def wI (opc pred dsm d a imm la dc mod : Nat) : DWord :=
  BitVec.ofNat 64 (opc <<< 54 + pred <<< 50 + dsm <<< 46 + d <<< 38 + a <<< 30 + imm <<< 14 + la <<< 10 + dc <<< 7 + mod)
def wK (opc pred dsm d imm mod : Nat) : DWord :=
  BitVec.ofNat 64 (opc <<< 54 + pred <<< 50 + dsm <<< 46 + d <<< 38 + imm <<< 6 + mod)
def wB (opc pred u ra off mod : Nat) : DWord :=
  BitVec.ofNat 64 (opc <<< 54 + pred <<< 50 + u <<< 49 + ra <<< 38 + off <<< 6 + mod)
def wG (opc pred dsm d a b iw is sc ew la dc mod : Nat) : DWord :=
  BitVec.ofNat 64 (opc <<< 54 + pred <<< 50 + dsm <<< 46 + d <<< 38 + a <<< 30 + b <<< 22 + iw <<< 20 + is <<< 19 + sc <<< 16
    + ew <<< 14 + la <<< 10 + dc <<< 7 + mod)
def wX (opc tn tq gd ga gb fsa fsb fsc ec acc xdc xmod : Nat) : DWord :=
  BitVec.ofNat 64 (opc <<< 54 + 7 <<< 50 + tn <<< 49 + tq <<< 45 + gd <<< 39 + ga <<< 33 + gb <<< 27 + fsa <<< 24 + fsb <<< 21
    + fsc <<< 18 + ec <<< 16 + acc <<< 14 + xdc <<< 11 + xmod)
def wXK (opc tn tq gd imm xdc xmod : Nat) : DWord :=
  BitVec.ofNat 64 (opc <<< 54 + 7 <<< 50 + tn <<< 49 + tq <<< 45 + gd <<< 39 + imm <<< 7 + xdc <<< 4 + xmod)

/-- Common fields: unguarded with every slice, and with none; guarded by !p2 with LA 3 and DC 1; and the sequencer's. -/
abbrev hA : Head := ⟨⟨false, 7⟩, 15, 0, 6⟩
abbrev hN : Head := ⟨⟨false, 7⟩, 0, 0, 6⟩
abbrev hL : Head := ⟨⟨true, 2⟩, 15, 3, 1⟩
abbrev hS : Head := ⟨⟨true, 2⟩, 0, 0, 1⟩
abbrev gU : Guard := ⟨false, 7⟩
abbrev xA : HeadX := ⟨false, 15, 6⟩
abbrev xT : HeadX := ⟨true, 3, 2⟩

/-- Every word of a list decodes to the instruction it stands for, which is well formed. -/
def decodesAll (l : List (DWord × Instr)) : Bool := l.all fun e => decide (decode e.1 = .ok e.2) && e.2.wf

/-! Words that the manual prints with their sources. -/

theorem test_printed_lane_words : decodesAll [
    (0x07DC008102400312, .icmp hN 2 4 9 .lt true none),
    (0x40DFC18140040303, .shflImm hA 6 5 16 .xor false),
    (0x20DFC1C04080C321, .ffma hA 7 1 2 3 false true false .rz),
    (0x409FC3C203000303, .shfl hA 15 8 12 .xor false),
    (0x021FC48442800300, .imulh hA 18 17 10 false),
    (0x17DC008200190315, .icmpImm hN 2 8 100 .ge true),
    (0x40DFC58740004301, .shflImm hA 22 29 1 .back false),
    (0x07DC0185C0C14335, .icmp hN 6 23 3 .ge true (some (.and, ⟨false, 5⟩)))] = true := by decide +kernel

theorem test_printed_memory_words : decodesAll [
    (0x501FC20080000882, .ld ⟨gU, 15, 2, 1⟩ 8 2 0 .b32 false false false),
    (0x501FC20080000892, .ld ⟨gU, 15, 2, 1⟩ 8 2 0 .b32 false false true),
    (0x5013C58604000312, .ld ⟨⟨false, 4⟩, 15, 0, 6⟩ 22 24 0x1000 .b32 false false true),
    (0x505C030181400302, .st hN 12 6 0x500 .b32 false),
    (0x701FC18080020338, .atom hA 6 2 8 7 .add),
    (0x7057C1C10180C300, .acas ⟨⟨false, 5⟩, 15, 0, 6⟩ 7 4 6 3 0 false),
    (0x7094018100000307, .ared ⟨⟨false, 5⟩, 0, 0, 6⟩ 6 4 0 0 .exch),
    (0x7094074600000300, .ared ⟨⟨false, 5⟩, 0, 0, 6⟩ 29 24 0 0 .add),
    (0x70DC00000000034C, .fence hN .sc false .dev),
    (0x70DC000000000348, .fence hN .rel false .dev),
    (0x711C00000000C300, .pfence hN 3),
    (0x721FC3C000004318, .arrive hA 15 0 1 .team true),
    (0x72DC000000004314, .bufw hN 0 .empty (some true) .team),
    (0x805C000406C64320, .cpyl hN 16 27 25 0 true false),
    (0x805C000206860360, .cpyl hN 8 26 24 0 true true),
    (0x901FC28081000300, .vreg hA 10 2 4 .wait),
    (0x901FC28081000301, .vreg hA 10 2 4 .stale),
    (0x909C000280000301, .vsync hN 0 10 true),
    (0x94DC000102000300, .enq hN 4 8 none),
    (0x949C000180004300, .done hN 6 1)] = true := by decide +kernel

theorem test_printed_control_words : decodesAll [
    (0xA01E000000000100, .bra ⟨gU, true⟩ 4),
    (0xA004000000000280, .bra ⟨⟨false, 1⟩, false⟩ 10),
    (0xA00A003FFFFFF780, .bra ⟨⟨false, 2⟩, true⟩ 0xFFFFFFDE),
    (0xA02A000000000000, .bra ⟨⟨true, 2⟩, true⟩ 0),
    (0xA05C00C000000342, .brx ⟨gU, false⟩ 3 13 2),
    (0xA15C000000000000, .join),
    (0xA19C000000000000, .exit gU),
    (0xA1DC000000000300, .nop gU),
    (0xA21C000000008300, .waitdc gU 2 0),
    (0xB01C000000108300, .trap gU 0x42),
    (0xB05C000000000300, .tfence gU),
    (0xB09C000000060300, .yield 24),
    (0xB0DC000000000300, .rth),
    (0xB11FC08000048302, .sread hA 2 0x12 .pair)] = true := by decide +kernel

theorem test_printed_stream_words : decodesAll [
    (0xC01C000203000324, .qbind hN 8 12 false true 4),
    (0xC01C000200000308, .qbind hN 8 0 false false 8),
    (0xC41DE00801417000, .mma xA 4 1 2 1 1 false),
    (0xC41DE00801627000, .mma xA 4 1 3 2 1 false),
    (0xCADDE00000003000, .mend),
    (0xD05DE3082941B000, .jmac xA 6 4 5 1 2 1 2 false),
    (0xD01DE00000000401, .accz ⟨false, 15, 0⟩ 0 (some 1)),
    (0xD11DE18C01000808, .accdr ⟨false, 15, 1⟩ 3 6 1 0 .ord false true),
    (0xD11DE10C0000300A, .accdr xA 2 6 0 0 .dense false true)] = true := by decide +kernel

/-! Words assembled field by field. -/

theorem test_integer_words_R : decodesAll [
    (wR 0x000 7 15 1 2 3 0 0 6 0x53, .iadd hA 1 2 3 ⟨some 3, false, true⟩),
    (wR 0x001 7 15 1 2 3 0 0 6 0x10, .isub hA 1 2 3 ⟨none, false, true⟩),
    (wR 0x002 7 15 1 2 3 12 0 6 0x45, .iaddx hA 1 2 3 ⟨true, 4⟩ (some 5)),
    (wR 0x003 7 15 1 2 0 0 0 6 0x30, .ineg hA 1 2 true),
    (wR 0x004 7 15 1 2 0 0 0 6 0x10, .iabs hA 1 2 false),
    (wR 0x005 7 15 1 2 3 0 0 6 0x10, .imin hA 1 2 3 true),
    (wR 0x006 7 15 1 2 3 0 0 6 0, .imax hA 1 2 3 false),
    (wR 0x007 7 15 1 2 3 0 0 6 0, .imul hA 1 2 3),
    (wR 0x009 7 15 4 2 3 0 0 6 0x10, .imulw hA 4 2 3 true),
    (wR 0x00A 7 15 1 2 3 4 0 6 0, .imad hA 1 2 3 4),
    (wR 0x00B 7 15 6 2 3 8 0 6 0, .imadw hA 6 2 3 8 false),
    (wR 0x00C 10 15 1 2 3 0 3 1 0x10, .idiv hL 1 2 3 true),
    (wR 0x00D 10 15 1 2 3 0 3 1 0, .imod hL 1 2 3 false),
    (wR 0x00E 7 15 1 2 3 0 0 6 0, .and hA 1 2 3),
    (wR 0x00F 7 15 1 2 3 0 0 6 0, .or hA 1 2 3),
    (wR 0x010 7 15 1 2 3 0 0 6 0, .xor hA 1 2 3),
    (wR 0x011 7 15 1 2 3 0 0 6 0, .andn hA 1 2 3),
    (wR 0x012 7 15 1 2 0 0 0 6 0, .not hA 1 2),
    (wR 0x013 7 15 1 2 3 4 0 6 0x16, .lop3 hA 1 2 3 4 0x16),
    (wR 0x014 7 15 1 2 3 4 0 6 0x78, .lop3Hi hA 1 2 3 4 0x78),
    (wR 0x015 7 15 1 2 3 0 0 6 0x20, .shl hA 1 2 3 true),
    (wR 0x016 7 15 1 2 3 0 0 6 0x10, .shr hA 1 2 3 true false),
    (wR 0x017 7 15 1 2 3 4 0 6 0x21, .shf hA 1 2 3 4 true true),
    (wR 0x018 7 15 1 2 3 0 0 6 1, .rot hA 1 2 3 true),
    (wR 0x019 7 15 1 2 3 0 0 6 0x10, .bfx hA 1 2 3 true),
    (wR 0x01A 7 15 1 2 3 4 0 6 0, .bfi hA 1 2 3 4),
    (wR 0x01B 7 15 1 2 0 0 0 6 0, .popc hA 1 2),
    (wR 0x01C 7 15 1 2 0 0 0 6 0, .clz hA 1 2),
    (wR 0x01D 7 15 1 2 0 0 0 6 0, .ffs hA 1 2),
    (wR 0x01E 7 15 1 2 0 0 0 6 0, .brev hA 1 2),
    (wR 0x020 7 15 1 2 3 9 0 6 0, .isel hA 1 2 3 ⟨true, 1⟩),
    (wR 0x021 7 3 1 2 0 0 0 6 0, .mov ⟨gU, 3, 0, 6⟩ 1 2),
    (wK 0x022 7 15 2 0x80000001 1, .movi ⟨gU, 15⟩ 2 0x80000001 .sx),
    (wR 0x023 7 15 1 63 0 0 0 6 1, .movg hA 1 63 .hi),
    (wR 0x024 7 15 2 4 5 0 0 6 0x13, .lea hA 2 4 5 true 3),
    (wR 0x025 7 15 2 4 6 0 0 6 0, .add64 hA 2 4 6),
    (wR 0x026 7 15 2 4 6 0 0 6 0, .sub64 hA 2 4 6),
    (wR 0x027 7 15 2 4 5 0 0 6 0x20, .shl64 hA 2 4 5 true),
    (wR 0x028 7 15 2 4 5 0 0 6 0x30, .shr64 hA 2 4 5 true true),
    (wR 0x029 7 0 3 4 6 10 0 6 0x74, .icmp64 hN 3 4 6 .gt true (some (.xor, ⟨true, 2⟩)))] = true := by decide +kernel

theorem test_integer_words_I : decodesAll [
    (wI 0x040 7 15 1 2 0xFFFF 0 6 0x10, .iaddImm hA 1 2 0xFFFF ⟨none, false, true⟩),
    (wI 0x041 7 15 1 2 5 0 6 0x42, .isubImm hA 1 2 5 ⟨some 2, false, false⟩),
    (wI 0x045 7 15 1 2 5 0 6 0x10, .iminImm hA 1 2 5 true),
    (wI 0x046 7 15 1 2 5 0 6 0, .imaxImm hA 1 2 5 false),
    (wI 0x047 7 15 1 2 5 0 6 0, .imulImm hA 1 2 5),
    (wI 0x048 7 15 1 2 5 0 6 0x10, .imulhImm hA 1 2 5 true),
    (wI 0x04E 7 15 1 2 5 0 6 0, .andImm hA 1 2 5),
    (wI 0x04F 7 15 1 2 5 0 6 0, .orImm hA 1 2 5),
    (wI 0x050 7 15 1 2 5 0 6 0, .xorImm hA 1 2 5),
    (wI 0x051 7 15 1 2 5 0 6 0, .andnImm hA 1 2 5),
    (wI 0x055 7 15 1 2 5 0 6 0, .shlImm hA 1 2 5 false),
    (wI 0x056 7 15 1 2 5 0 6 0x30, .shrImm hA 1 2 5 true true),
    (wI 0x058 7 15 1 2 5 0 6 1, .rotImm hA 1 2 5 true),
    (wI 0x064 7 15 2 4 5 0 6 0x14, .leaImm hA 2 4 5 true 4),
    (wI 0x065 7 15 2 4 5 0 6 0, .add64Imm hA 2 4 5),
    (wI 0x067 7 15 2 4 5 0 6 0x20, .shl64Imm hA 2 4 5 true),
    (wI 0x068 7 15 2 4 5 0 6 0x10, .shr64Imm hA 2 4 5 true false)] = true := by decide +kernel

theorem test_float_words : decodesAll [
    (wR 0x080 7 15 1 2 3 0 0 6 0x22, .fadd hA 1 2 3 false true .rm),
    (wR 0x081 7 15 1 2 3 0 0 6 0x11, .fsub hA 1 2 3 true false .rz),
    (wR 0x082 7 15 1 2 3 0 0 6 3, .fmul hA 1 2 3 false false .rp),
    (wR 0x084 7 15 1 2 3 0 0 6 0x10, .fmin hA 1 2 3 true false),
    (wR 0x085 7 15 1 2 3 0 0 6 0x20, .fmax hA 1 2 3 false true),
    (wR 0x086 7 0 4 2 3 6 0 6 0x47, .fcmp hN 4 2 3 .uno (some (.or, ⟨false, 6⟩))),
    (wR 0x087 7 15 1 2 0 0 0 6 0x12, .frnd hA 1 2 true .rm),
    (wR 0x088 7 15 1 2 0 0 0 6 0, .fclass hA 1 2),
    (wR 0x089 10 15 1 2 0 0 3 1 0x11, .frcp hL 1 2 true .rz),
    (wR 0x08A 10 15 1 2 0 0 3 1 0x10, .frsq hL 1 2 true),
    (wR 0x08B 10 15 1 2 0 0 3 1 3, .fsqrt hL 1 2 false .rp),
    (wR 0x08C 10 15 1 2 0 0 3 1 0, .fex2 hL 1 2 false),
    (wR 0x08D 10 15 1 2 0 0 3 1 0, .flg2 hL 1 2 false),
    (wR 0x08E 10 15 1 2 0 0 3 1 0x10, .fsin hL 1 2 true),
    (wR 0x08F 10 15 1 2 0 0 3 1 0, .fcos hL 1 2 false),
    (wR 0x090 7 15 1 2 3 0 0 6 0x28, .hadd2 hA 1 2 3 false true true .rn),
    (wR 0x091 7 15 1 2 3 0 0 6 0x11, .hmul2 hA 1 2 3 true false false .rz),
    (wR 0x092 7 15 1 2 3 4 0 6 0x4A, .hfma2 hA 1 2 3 4 false false true true .rm),
    (wR 0x093 7 15 1 2 3 0 0 6 8, .hmin2 hA 1 2 3 false false true),
    (wR 0x094 7 15 1 2 3 0 0 6 0x30, .hmax2 hA 1 2 3 true true false),
    (wR 0x095 7 0 2 2 3 0 0 6 0x0C, .hcmp2 hN 2 2 3 .gt true none),
    (wR 0x096 7 15 2 3 0 0 0 6 0x4D, .cvtfi hA 2 3 .s64 .f16 true .rz),
    (wR 0x097 7 15 1 4 0 0 0 6 0x72, .cvtif hA 1 4 .u64 .bf16 .rm),
    (wR 0x098 7 15 1 2 0 0 0 6 0x2C, .cvtff hA 1 2 .f16 .f16 true .rn),
    (wR 0x099 7 15 1 2 3 5 0 6 1, .bpq hA 1 2 3 5 true),
    (wR 0x09A 7 15 1 2 0 5 0 6 0, .bpdq hA 1 2 5),
    (wR 0x09B 7 15 1 2 0 0 0 6 0, .bppk hA 1 2),
    (wR 0x09C 7 15 1 2 0 7 0 6 0, .bpupk hA 1 2 7)] = true := by decide +kernel

theorem test_exchange_words : decodesAll [
    (wR 0x100 7 0 3 9 2 0 0 6 6, .plop hN 3 ⟨true, 1⟩ ⟨false, 2⟩ 6),
    (wR 0x101 7 15 9 0 0 0 0 6 0, .pmov hA (.toV 9)),
    (wR 0x101 7 0 0 8 0 0x55 0 6 1, .pmov hN (.fromV 0x55 8)),
    (wR 0x104 7 15 9 10 0 0 0 6 3, .vote hA 9 .mask ⟨true, 2⟩),
    (wR 0x104 7 0 5 2 0 0 0 6 0, .vote hN 5 .all ⟨false, 2⟩),
    (wR 0x105 10 15 9 8 0 0 3 1 6, .matchV hL 9 8 .uniq true),
    (wR 0x106 10 15 9 8 0 0 3 1 0x31, .redux hL 9 8 .min true true)] = true := by decide +kernel

theorem test_memory_words : decodesAll [
    (wI 0x140 10 15 8 2 0xFFF8 3 1 0x48, .ld hL 8 2 0xFFF8 .b8 true true false),
    (wI 0x141 10 0 9 3 4 0 1 0x11, .st hS 9 3 4 .b16 true),
    (wI 0x142 10 15 8 2 4 3 1 4, .ldk hL 8 2 4 .b128 false),
    (wI 0x143 10 15 8 2 4 3 1 0, .ldl hL 8 2 4),
    (wI 0x144 10 0 8 2 4 0 1 0, .stl hS 8 2 4),
    (wG 0x145 10 15 8 2 3 1 1 2 0 3 1 1, .gath hL 8 2 3 ⟨.b16, true, 2⟩ .b8 true false),
    (wG 0x146 10 0 8 3 4 2 0 4 2 0 1 2, .scat hS 8 3 4 ⟨.b32, false, 4⟩ .b32 true),
    (wI 0x147 10 15 8 3 4 3 1 9, .ldx hL 8 3 4 .b16 true),
    (wI 0x148 10 0 8 3 4 0 1 3, .stx hS 8 3 4 .b64),
    (wI 0x149 10 15 8 2 64 3 1 0, .lyld hL 8 2 64),
    (wR 0x14A 10 0 0 7 0 0 0 1 0, .lydrop hS 7),
    (wI 0x14B 10 0 0 6 128 0 1 2, .cinv hS 6 128 .rdc),
    (wI 0x14C 10 0 0 6 128 0 1 2, .pref hS 6 128 .msc),
    (wR 0x14D 10 15 2 4 6 0 3 1 12, .twalk hL 2 4 6 12)] = true := by decide +kernel

theorem test_synchronisation_words : decodesAll [
    (wR 0x1C1 10 15 2 4 6 8 3 1 0x58, .acas hL 2 4 6 8 6 true),
    (wI 0x1C5 10 0 0 9 0xFFFF 0 1 0x20, .semp hS 9 0xFFFF .clus),
    (wI 0x1C6 10 0 0 9 2 0 6 0x50, .semw ⟨⟨true, 2⟩, 0, 0, 6⟩ 9 2 .sys),
    (wI 0x1C7 10 0 0 31 2 0 1 0, .semx hS 31 2),
    (wI 0x1C8 10 0 0 31 2 0 1 0x30, .arrive hS 0 31 2 .die false),
    (wI 0x1C9 10 0 0 3 1 0 6 0x10, .waitph ⟨⟨true, 2⟩, 0, 0, 6⟩ 0 3 true .team false),
    (wI 0x1C9 10 0 7 3 0 0 6 0x41, .waitph ⟨⟨true, 2⟩, 0, 0, 6⟩ 7 3 false .dev true),
    (wI 0x1CA 10 0 0 63 0 0 1 0x12, .bufs hS 63 .full .team)] = true := by decide +kernel

theorem test_copy_words : decodesAll [
    (wR 0x200 10 0 0 6 9 0 0 1 0x46, .cpy hS 6 9 .g2s 1 .b16 true),
    (wR 0x202 10 0 5 6 9 8 0 1 0x2B, .cpyd hS 5 6 9 8 2 true false 3),
    (wR 0x203 10 0 0 6 0 0 0 1 2, .cbld hS 6 2),
    (wI 0x204 10 0 7 6 0x25 0 1 0xC, .cpyc hS 7 6 3 (some 5)),
    (wI 0x205 10 15 2 6 0 0 6 0, .crwait ⟨⟨true, 2⟩, 15, 0, 6⟩ 2 6),
    (wI 0x206 10 0 0 6 9 0 1 0, .crpop hS 6 9),
    (wG 0x207 10 0 10 2 4 3 1 1 3 0 1 0x24, .gathn hS 10 2 4 ⟨.b64, true, 1⟩ .b64 1 true false)] = true := by decide +kernel

theorem test_view_and_work_words : decodesAll [
    (wI 0x241 10 0 0 9 0 0 1 0, .vdrop hS 9),
    (wI 0x242 10 0 4 9 0 0 6 0, .vsync ⟨⟨true, 2⟩, 0, 0, 6⟩ 4 9 false),
    (wI 0x243 10 15 2 9 0 3 1 1, .vgen hL 2 9 true),
    (wI 0x244 10 0 0 9 0 0 1 2, .vpol hS 9 .fault),
    (wI 0x245 10 15 2 9 0 3 1 1, .vstat hL 2 9 true),
    (wR 0x250 10 0 0 4 6 0 0 1 0x10, .spawn hS 4 6 none),
    (wR 0x251 10 15 2 4 6 9 3 1 5, .spawnc hL 2 4 6 9 (some 5)),
    (wR 0x253 10 0 3 4 8 0 0 1 1, .enq hS 4 8 (some 3)),
    (wR 0x254 10 15 8 4 0 2 3 1 1, .deq hL 8 4 (some 2)),
    (wR 0x255 10 0 0 4 6 0 0 1 1, .klaunch hS 4 6 true)] = true := by decide +kernel

theorem test_control_and_system_words : decodesAll [
    (wB 0x282 10 1 6 0x80000000 0, .call ⟨⟨true, 2⟩, true⟩ 6 0x80000000),
    (wB 0x283 10 0 6 0 0, .callx ⟨⟨true, 2⟩, false⟩ 6),
    (wB 0x284 10 1 6 0 0, .ret ⟨⟨true, 2⟩, true⟩ 6),
    (wI 0x288 7 0 0 0 (63 + 63 * 64) 0 6 0, .waitdc gU 63 63),
    (wI 0x2C4 7 15 3 0 0x20 0 6 0, .sread hA 3 0x20 .lo),
    (wI 0x2C5 10 0 0 0 0xFFFF 0 6 0, .bkpt ⟨true, 2⟩ 0xFFFF),
    (wI 0x2E0 10 0 0 4 0x30 0 6 2, .swrite ⟨true, 2⟩ 4 0x30 true),
    (wI 0x2E1 10 0 0 4 0 0 1 0, .ebset hS 4),
    (wI 0x2E2 10 0 0 4 7 0 1 3, .pmctl hS 4 7 .clron),
    (wI 0x2E3 10 0 0 4 24 0 1 2, .trctl hS 4 .sample 24),
    (wI 0x2E4 10 0 0 4 0 0 1 0, .ctxsave hS 4),
    (wI 0x2E5 7 0 0 0 9 0 6 0, .halt 9)] = true := by decide +kernel

theorem test_stream_words : decodesAll [
    (wR 0x301 7 0 0 0 0 0 0 1 0x40, .qrel ⟨gU, 0, 0, 1⟩ true),
    (wX 0x311 1 3 0 4 0 1 2 0 3 1 2 0, .smma xT 4 1 2 3 1),
    (wX 0x320 1 3 5 4 0 0 0 0 0 0 6 0, .gmov ⟨true, 3, 6⟩ 5 4),
    (wXK 0x321 1 3 5 0xFFFFFFFF 6 2, .gmovi ⟨true, 3, 6⟩ 5 0xFFFFFFFF .hi),
    (wX 0x322 0 15 5 4 7 0 0 0 0 0 6 0x200, .gadd xA 5 4 (.reg 7) true),
    (wX 0x322 0 15 5 4 0 0 0 0 0 0 6 0x5FF, .gadd xA 5 4 (.imm 0x1FF) false),
    (wX 0x323 0 15 5 4 0 0 0 0 0 0 6 0x405, .gmul xA 5 4 (.imm 5)),
    (wX 0x324 0 15 5 4 0 0 0 0 0 0 6 0x63F, .gshl xA 5 4 (.imm 63) .ra),
    (wX 0x325 0 15 3 4 0 0 0 0 0 0 6 0x77F, .gcmp xA 3 4 (.imm 63) .ge true),
    (wX 0x326 1 3 5 4 0 0 0 0 0 0 2 0x7F8, .gld xT 5 4 0x3F8 true),
    (wXK 0x327 1 3 0 0xFFFFFFF0 6 0, .gbra ⟨true, 3, 6⟩ 0xFFFFFFF0),
    (wXK 0x328 1 3 5 8 6 0, .gloop ⟨true, 3, 6⟩ 5 8),
    (wX 0x329 0 15 3 0 0 0 0 0 0 0 6 1, .qset xA 3 (.const true)),
    (wX 0x329 0 15 3 9 0 0 0 0 0 0 6 0x43F, .qset xA 3 (.bit 9 63)),
    (wX 0x32A 0 15 3 4 5 0 0 0 0 0 6 0x26, .qlop xA 3 4 5 true false 6),
    (wX 0x342 1 3 5 4 0 1 0 0 0 2 2 1, .jins xT 5 4 1 2 true),
    (wX 0x343 1 3 0 0 0 0 0 0 0 2 2 63, .accsp xT 2 63),
    (wX 0x345 1 3 5 0 0 0 0 0 0 2 6 0, .acccnt ⟨true, 3, 6⟩ 5 2)] = true := by decide +kernel

/-! ## Ill-formed terms: each check of `Instr.wf` refuses one -/

/-- Every term of a list is refused. -/
def refusesAll (l : List Instr) : Bool := l.all fun i => !i.wf

/-- DSM, LA and DC by latency class (R41, R43, R44). -/
theorem test_wf_heads : refusesAll [
    .mov hN 1 2, .mov ⟨gU, 15, 1, 6⟩ 1 2, .mov ⟨gU, 15, 0, 0⟩ 1 2, .fcmp hA 1 2 3 .eq none, .plop ⟨gU, 0, 1, 6⟩ 1 ⟨false, 1⟩ ⟨false, 2⟩ 0,
    .icmp ⟨gU, 0, 0, 3⟩ 1 2 3 .eq true none, .idiv hN 1 2 3 true, .idiv ⟨gU, 15, 0, 7⟩ 1 2 3 true, .stl hA 1 2 0,
    .stl ⟨gU, 0, 2, 6⟩ 1 2 0, .stl ⟨gU, 0, 0, 7⟩ 1 2 0, .movi ⟨gU, 0⟩ 1 2 .w32, .pmov hN (.toV 1), .pmov hA (.fromV 1 2),
    .vote hN 1 .mask ⟨false, 1⟩, .vote hA 1 .all ⟨false, 1⟩, .vote hN 8 .all ⟨false, 1⟩, .crwait hN 2 4,
    .gmov ⟨false, 15, 0⟩ 1 2, .mma ⟨false, 15, 7⟩ 1 1 2 0 0 false] = true := by decide +kernel

/-- Pairs and quads (R38, R185). -/
theorem test_wf_registers : refusesAll [
    .imulw hA 1 2 3 true, .imadw hA 2 2 3 5 true, .imadw hA 1 2 3 4 true, .movi ⟨gU, 15⟩ 1 2 .sx, .movg hA 1 2 .pair,
    .lea hA 1 2 3 true 0, .leaImm hA 2 3 3 true 0, .add64 hA 2 4 5, .add64Imm hA 1 2 3, .sub64 hA 2 3 4, .shl64 hA 1 2 3 false,
    .shl64Imm hA 2 3 3 false, .shr64 hA 1 2 3 false false, .shr64Imm hA 2 3 3 false false, .icmp64 hN 1 3 4 .eq true none,
    .hcmp2 hN 1 2 3 .eq false none, .cvtfi hA 1 2 .s64 .f32 false .rn, .cvtif hA 1 3 .u64 .f32 .rn, .matchV hL 1 3 .mask true,
    .ld hL 1 3 0 .b32 false false false, .ld hL 1 2 0 .b64 false false false, .ld hL 2 2 0 .b128 false false false,
    .st hS 1 3 0 .b32 false, .ldk hL 1 3 0 .b32 false, .ldx hL 1 3 0 .b64 false, .stx hS 1 3 0 .b64,
    .gath hL 1 3 2 ⟨.b8, false, 0⟩ .b32 false false, .gath hL 1 2 2 ⟨.b8, false, 0⟩ .b64 false false,
    .scat hS 1 2 3 ⟨.b64, false, 0⟩ .b32 false, .lyld hL 1 3 0, .cinv hS 3 0 .l1, .pref hS 3 0 .l1, .twalk hL 2 4 5 1,
    .atom hL 1 3 0 0 .add, .acas hL 1 2 4 6 0 true, .ared hS 1 3 0 0 .add, .cpy hS 1 2 .g2s 0 .b4 false,
    .cpy hS 1 3 .s2g 0 .b4 false, .cpyd hS 0 1 2 3 0 false false 0, .cbld hS 1 0, .cpyc hS 1 3 0 none, .crwait hA 2 3,
    .crpop hS 1 1, .gathn hS 1 2 4 ⟨.b8, false, 0⟩ .b8 0 false false, .vreg hL 1 3 4 .wait,
    .vsync ⟨gU, 0, 0, 6⟩ 1 2 false, .vgen hL 1 2 false, .vstat hL 1 2 false, .spawn hS 1 2 none, .spawnc hL 1 2 4 6 none,
    .done hS 1 1, .enq hS 2 6 none, .deq hL 6 2 none, .klaunch hS 2 3 true, .call ⟨gU, false⟩ 3 0, .callx ⟨gU, false⟩ 3,
    .ret ⟨gU, false⟩ 3, .sread hA 1 0x12 .pair, .swrite gU 1 0x30 true, .ebset hS 1, .ctxsave hS 1] = true := by decide +kernel

/-- Modifiers, ranges, and fields that must be 0 (R36, check 3). -/
theorem test_wf_fields : refusesAll [
    .iadd hA 1 2 3 ⟨some 1, true, true⟩, .isubImm hA 1 2 3 ⟨some 1, true, true⟩, .lea hA 2 4 3 true 5, .brx ⟨gU, false⟩ 1 0 5,
    .cvtfi hA 1 2 .s32 .f32 true .rn, .cvtff hA 1 2 .f16 .f32 true .rn, .bpq hA 1 2 3 0 false, .redux hL 1 2 .fadd false true,
    .redux hL 1 2 .add true false, .ld hL 1 2 0 .b32 true false false, .ldk hL 1 2 0 .b32 true, .ldx hL 1 2 0 .b32 true,
    .gath hL 1 2 3 ⟨.b8, false, 0⟩ .b32 true false, .gath hL 1 2 3 ⟨.b8, false, 5⟩ .b32 false false,
    .scat hS 1 2 3 ⟨.b8, false, 7⟩ .b32 false, .twalk hL 2 4 6 0, .twalk hL 2 4 6 13, .atom hL 1 2 0 15 .add,
    .acas hL 1 2 4 6 15 false, .ared hS 1 2 0 15 .add, .pfence hN 0, .semp hS 1 1 .grp, .semw hN 1 1 .grp,
    .arrive hS 0 1 0 .team false, .arrive hS 0 1 1 .grp false, .arrive hA 0 1 1 .team false, .arrive hS 1 1 1 .team false,
    .waitph hN 1 1 true .team false, .waitph hN 1 1 true .team true, .waitph hN 0 1 true .grp false, .bufs hS 1 .full .grp,
    .bufw hN 1 .full none .grp, .crpop hS 2 0, .gathn hS 2 2 4 ⟨.b8, false, 5⟩ .b8 0 false false, .vsync hN 2 4 true, .done hS 2 0,
    .klaunch hS 2 4 false, .waitdc gU 0 1, .yield 257, .trctl hS 2 .off 0, .trctl hS 2 .sample 9, .trctl hS 2 .sample 25,
    .trctl hS 2 .trace 10, .qbind hN 1 2 false true 1, .qbind hN 1 2 false true 9, .qbind hN 1 2 false false 4,
    .gcmp xA 15 1 (.reg 2) .eq true, .qset xA 15 (.const true), .qlop xA 15 1 2 false false 0,
    .jmac xA 1 1 2 0 0 0 0 false, .jmac xA 2 1 2 0 0 0 0 false, .jins xA 1 1 0 0 false] = true := by decide +kernel

/-- Packets and events whose arguments cannot be (R319, R320, R330, R331). -/
theorem test_wf_events : refusesAll [
    .launch 0 false 32 .none, .launch 0 false 64 (.write 4 0), .launch 0 false 64 (.add 4 0), .packetFence 0 false [],
    .packetFence 0 false [⟨4, .eq, 0⟩], .signal 0 false .write 4 0, .edge 0 false true 0 64, .edge 0 false true 65537 64,
    .edge 0 false true 1 32, .inval 0 false 0 [], .inval 0 false 0 [(64, 128)], .inval 0 false 0 (List.replicate 4 (0, 128)),
    .timestamp 0 false 4, .contextRegister 8 false 0, .clusterMove 36 0 1 0, .clusterMove 0 0 1 999, .rdcResize 4 0,
    .rdcResize 0 5, .savePoolRegister 8 [], .hostChannelBind 64 0, .cinchIdAssign 0 [], .debugStop 144 0, .debugResume 0 5,
    .teamPlace 144, .formation 144, .storeDrain 144 0, .bufferTransition 1 64, .skiverRefresh 0 64 0, .qbindLatch 1 8,
    .nearArrayRebalance 144, .directoryMerge 4 0 0, .flitCrcRetry 12, .linkPortFail 12,
    .hostChannelAccess 64 (.read 0 1), .dieFaultReplay 4, .thermalThrottle 8 0, .sample 0 4, .traceSync 144, .issueSelect 0 5,
    .coreReset 144, .preemptRequest 1 (some 999)] = true := by decide +kernel

/-- Words that R36 rejects: an unassigned code, a set bit of an unused field, the reserved DC 7, and p7 as a pair of halves. -/
theorem test_refused_words :
    decode (wR 0x02A 7 15 1 2 3 0 0 6 0) = .illegalOpcode ∧ decode (wR 0x000 7 15 1 2 3 1 0 6 0x10) = .illegalField
    ∧ decode (wR 0x00C 7 15 1 2 3 0 0 7 0x10) = .illegalField ∧ decode (wR 0x003 7 15 1 2 0 0 0 6 0x20) = .illegalField
    ∧ decode (wX 0x32B 0 14 0 0 0 0 0 0 0 0 6 0) = .illegalField ∧ decode (wR 0x250 7 0 0 4 6 0 0 6 0x11) = .illegalField := by
  decide +kernel

/-! ## Witnesses: states that meet the statements' hypotheses -/

/-- A word placed as the next to issue (log 3): on core 0, in a team of 32 vector threads, with addresses 0 to 0xFFFF mapped. -/
def wat (i : Instr) : State := State.reset.withFetchWord 64 ((encode i).getD 0).toNat
/-- The placed team's number. -/
abbrev T : Nat := State.reset.nextTeam
/-- The same with registers of every thread set, g registers set, and format slots set. -/
def setRegs (rs : List (Nat × Word)) (s : State) : State :=
  modTeam s T fun tm => { tm with threads := tm.threads.map fun e => (e.1, { e.2 with regs := rs }) }
/-- Only lane 0's thread has p0 set, and the common fields of a word guarded by p0. -/
def lone (s : State) : State :=
  modTeam s T fun tm => { tm with threads := tm.threads.map fun e => (e.1, { e.2 with preds := if e.1 = 0 then 1 else 0 }) }
abbrev hP : Head := ⟨⟨false, 0⟩, 15, 0, 6⟩
abbrev hQ : Head := ⟨⟨false, 0⟩, 0, 0, 6⟩
def setG (gs : List (Nat × DWord)) (s : State) : State := modSeq s T fun q => { q with g := gs }
def setSlots (fs : List DWord) (s : State) : State :=
  { s with grids := smod s.grids 1 fun g => { g with lrec := { g.lrec with fs := fs } } }
/-- A group's word issues at a state, and a condition holds of its site; the same of the sequencer. -/
def meets (r : Req) (s : State) (ok : Site → State → Bool) : Bool :=
  match issueSite r s with
  | some (x, s1) => ok x s1
  | none => false
def meetsSeq (r : SReq) (s : State) (ok : SSite → State → Bool) : Bool :=
  match seqSite r s with
  | some x => ok x s
  | none => false

/-- The hypotheses of a statement on a lane word's table, met where the word is placed. -/
def laneMeets (f : Instr → Option LaneWord) (fs : List DWord) (i : Instr) : Bool :=
  match f i with
  | some w => i.wf && meets w.req (setSlots fs (wat i)) fun x s =>
      decide ((memberLanes x.g).Nodup ∧ (memberTids x.g).Nodup ∧ ∀ t ∈ memberTids x.g, (sget x.tm.threads t).isSome)
        && !(getCore s x.tm.core).trace.on
  | none => false

theorem witness_integer_words : [Instr.iadd hA 1 2 3 ⟨some 3, false, true⟩, .isubImm hA 1 2 5 ⟨none, true, false⟩,
    .imadw hA 6 2 3 8 false, .lop3Hi hA 1 2 3 4 0x78, .shf hA 1 2 3 255 true true, .icmp hN 7 4 9 .lt true (some (.and, ⟨false, 5⟩)),
    .movi ⟨gU, 15⟩ 254 0x80000001 .sx, .movg hA 1 63 .hi].all (laneMeets intWord []) = true := by decide +kernel

theorem witness_float_words : [Instr.fadd hA 1 2 3 false true .rm, .hfma2 hA 1 2 3 4 false false true true .rm,
    .hcmp2 hN 2 2 3 .gt true none, .cvtfi hA 2 3 .s64 .f16 true .rz, .bpq hA 1 2 3 5 true, .bpdq hA 1 2 5, .bppk hA 1 2,
    .bpupk hA 1 2 7].all (laneMeets floatWord (List.replicate 8 0xC581)) = true := by decide +kernel

theorem witness_exchange_words : [Instr.plop hN 3 ⟨true, 1⟩ ⟨false, 2⟩ 6, .pmov hA (.toV 9), .pmov hN (.fromV 0x55 8),
    .shfl hA 15 8 12 .xor true, .shflImm hA 6 5 31 .back false, .vote hA 9 .mask ⟨true, 2⟩,
    .vote hN 5 .all ⟨false, 2⟩].all (laneMeets exchangeWord []) = true := by decide +kernel

theorem witness_long_words : [Instr.idiv hA 1 2 3 true, .imod hA 1 2 3 false, .frcp hA 1 2 true .rz, .frsq hA 1 2 true,
    .fsqrt hA 1 2 false .rp, .fex2 hA 1 2 false, .flg2 hA 1 2 false, .fsin hA 1 2 true, .fcos hA 1 2 false,
    .matchV hA 9 8 .uniq true, .redux hA 9 8 .min true true].all (laneMeets longWord []) = true := by decide +kernel

/-- A word that the encoder writes and the decoder reads back. -/
theorem witness_encodes : (Instr.iadd hA 1 2 3 ⟨some 3, false, true⟩).wf = true
    ∧ encode (.iadd hA 1 2 3 ⟨some 3, false, true⟩) = some (wR 0x000 7 15 1 2 3 0 0 6 0x53) := by decide +kernel

/-- A group, and a sequencer, whose next word may issue and has an unassigned code. -/
theorem witness_unassigned : (match siteOf (State.reset.withFetchWord 64 (0x02A * 2 ^ 54)) T 0 ⟨false, 7⟩ with
    | some x => canIssue (State.reset.withFetchWord 64 (0x02A * 2 ^ 54)) x && (match wordOf x.g.clause x.g.wix with
      | some w => unassignedCode (w.extractLsb' 54 10).toNat && decide (decode w = .illegalOpcode)
      | none => false)
    | none => false) = true
  ∧ (let s := modSeq (wat .mend) T fun q => { q with clause := q.clause.map fun c => { c with words := [0x3FF#64 <<< 54] } }
    match ssiteOf s T with
    | some x => canIssueSeq s x && (match wordOf x.q.clause x.q.wix with
      | some w => unassignedCode (w.extractLsb' 54 10).toNat
      | none => false)
    | none => false) = true := by decide +kernel

/-- Steps: a group's word, a sequencer's word, an event of the agenda, and a free event after reset. -/
theorem witness_steps :
    (match siteOf (wat (.nop gU)) T 0 ⟨false, 7⟩ with
      | some x => canIssue (wat (.nop gU)) x && opcodeClass x.g 0xA1DC000000000300
          && decide ((wordOf x.g.clause x.g.wix).map decode = some (.ok (.nop gU)))
      | none => false) = true
    ∧ (match ssiteOf (wat .mend) T with
      | some x => canIssueSeq (wat .mend) x && decide ((wordOf x.q.clause x.q.wix).map decode = some (.ok .mend))
          && (allowedIn 0x32B).2.2.1
      | none => false) = true
    ∧ (wat (.nop gU)).issuer = some (.group T 0) ∧ (wat .mend).issuer = some (.seq T) ∧ (wat .mend).stopped = false
    ∧ { State.reset with agenda := [.journalFull] }.agenda = [.journalFull]
    ∧ State.reset.issuer = none ∧ State.reset.agenda = [] ∧ State.reset.stopped = false
    ∧ openEvent { State.reset with fairGap := 0 } = some (fairEvent State.reset)
    ∧ fairEvent { State.reset with fairIdx := 6 } = deviceEvent State.reset 0 := by decide +kernel

/-- A sound state that steps. -/
theorem witness_sound_step : (match step (wat (.nop gU)) with | .next _ => true | .fault _ => false | .refused _ => false) = true
    ∧ Memory.wf (wat (.nop gU)).mem = true ∧ (wat (.nop gU)).keeping = [] := by decide +kernel

/-- Operands at the corners of R66, R73, R78, R98, R101, R102, R103, R112. -/
theorem witness_operands :
    (fdec (fmtOf .f32) 0x7F800001).isSnan = true ∧ (fdec (fmtOf .f16) 0x7E00).isNan = true
    ∧ (2 ≤ 2 ∧ 2 ≤ 8 ∧ 2 ≤ 8 ∧ 8 ≤ 8) ∧ List.Perm [(1 : BitVec 176), 2] [2, 1]
    ∧ (-2 ^ 175 ≤ (0 : Int) + ([-1, 2] : List Int).sum ∧ (0 : Int) + ([-1, 2] : List Int).sum < 2 ^ 175)
    ∧ divide true 0x80000000 0xFFFFFFFF = (0x80000000, 0) ∧ divide true 7 0 = (0xFFFFFFFF, 7)
    ∧ divide true 0xFFFFFFF9 2 = (0xFFFFFFFD, 0xFFFFFFFF) ∧ shrW true false 0x80000000 32 = 0xFFFFFFFF
    ∧ bfxW true 0xF0 0x0404 = 0xFFFFFFFF ∧ ffsW 0x80000000 = 31 ∧ clzW 1 = 31 := by decide +kernel

/-! Memory words. -/

/-- An address check passes. -/
def passes {α ε : Type} : Except ε α → Bool
  | .ok _ => true
  | .error _ => false

/-- A layout record of 16 FP32 elements at an address, and a team with it bound under handle 17. -/
def rec16 (base : Nat) : BitVec 512 := BitVec.ofNat 512 base ||| (16#512 <<< 128) ||| (1#512 <<< 448)
def bound (s : State) : State :=
  setSlots [0xC002] (modTeam s T fun tm => { tm with binds := [(1, ⟨true, 1, rec16 0x40⟩)] })

theorem witness_loads :
    meets (memReq hP .loads (((8 : VReg).toNat, regsFor 4) :: two [2])) (wat (.ld hP 8 2 0xFFFC .b32 false false false) |> setRegs [(2, 0x10000)] |> lone)
      (fun x s => x.act.all fun l => passes (checkGlobal s x.tm.ctx (gaddr (x.view s) l 2 0xFFFC) 4 .ls false)) = true
    ∧ meets (memReq hP .loads (((8 : VReg).toNat, regsFor 16) :: one [2])) (lone (wat (.ld hP 8 2 0x10 .b128 false false true)))
      (fun x s => x.act.all fun l => (checkSp x.tm (saddr (x.view s) l 2 0x10).toNat 16 .load .spTeam).isNone) = true
    ∧ meets (memReq hP .loads (((8 : VReg).toNat, regsFor 8) :: two [2])) (lone (wat (.ldk hP 8 2 8 .b64 false)))
      (fun x s => x.act.all fun l => passes (checkGlobal s x.tm.ctx (gaddr (x.view s) l 2 8) 8 .k false)) = true
    ∧ meets (memReq hP .loads (((8 : VReg).toNat, regsFor 4) :: one [2])) (lone (wat (.ldx hP 8 2 4 .b32 false)))
      (fun x s => x.act.all fun l => (checkCluster s x (saddr (x.view s) l 2 4).toNat 4 .load).isNone) = true
    ∧ meets (memReq hP .loads (((8 : VReg).toNat, regsFor 1) :: one [2] ++ one [3]))
      (lone (wat (.gath hP 8 2 3 ⟨.b16, true, 2⟩ .b8 true true)))
      (fun x s => (idxLanes 3 ⟨.b16, true, 2⟩ (x.view s)).all fun l =>
        (checkSp x.tm (idxSp ((x.view s).r l 2) ⟨.b16, true, 2⟩ (idxVal (x.view s) l 3 ⟨.b16, true, 2⟩)) 1 .load .spTeam).isNone) = true
    ∧ meets (memReq hP .loads (((8 : VReg).toNat, regsFor 4) :: two [2] ++ two [4]))
      (wat (.gath hP 8 2 4 ⟨.b64, false, 2⟩ .b32 false false) |> setRegs [(4, 3)] |> lone)
      (fun x s => (idxLanes 4 ⟨.b64, false, 2⟩ (x.view s)).length = 1 && (idxLanes 4 ⟨.b64, false, 2⟩ (x.view s)).all fun l =>
        passes (gathSrc s x 4 (idxAddr ((x.view s).r64 l 2) ⟨.b64, false, 2⟩ (idxVal (x.view s) l 4 ⟨.b64, false, 2⟩)))) = true := by
  decide +kernel

theorem witness_stores :
    meets (memReq hQ .stores (((8 : VReg).toNat, regsFor 4) :: two [2])) (wat (.st hQ 8 2 0 .b32 false) |> setRegs [(2, 0xFFFC)] |> lone)
      (fun x s => x.act.all fun l => passes (checkGlobal s x.tm.ctx (gaddr (x.view s) l 2 0) 4 .ls true)) = true
    ∧ meets (memReq hQ .stores (((8 : VReg).toNat, regsFor 4) :: one [2])) (lone (wat (.st hQ 8 2 0 .b32 true)))
      (fun x s => x.act.all fun l => (checkSp x.tm (saddr (x.view s) l 2 0).toNat 4 .store .spTeam).isNone) = true
    ∧ meets (memReq hQ .stores (((8 : VReg).toNat, regsFor 4) :: one [2])) (lone (wat (.stx hQ 8 2 0 .b32)))
      (fun x s => x.act.all fun l => (checkCluster s x (saddr (x.view s) l 2 0).toNat 4 .store).isNone) = true
    ∧ meets (memReq hQ .stores (((8 : VReg).toNat, regsFor 4) :: two [2] ++ one [4])) (lone (wat (.scat hQ 8 2 4 ⟨.b32, false, 2⟩ .b32 false)))
      (fun x s => (idxLanes 4 ⟨.b32, false, 2⟩ (x.view s)).all fun l => passes (checkGlobal s x.tm.ctx
        (idxAddr ((x.view s).r64 l 2) ⟨.b32, false, 2⟩ (idxVal (x.view s) l 4 ⟨.b32, false, 2⟩)) 4 .ls true)) = true
    ∧ meets (memReq hQ .stores (((8 : VReg).toNat, regsFor 4) :: one [2] ++ one [4])) (lone (wat (.scat hQ 8 2 4 ⟨.b32, false, 2⟩ .b32 true)))
      (fun x s => (idxLanes 4 ⟨.b32, false, 2⟩ (x.view s)).all fun l => (checkSp x.tm
        (idxSp ((x.view s).r l 2) ⟨.b32, false, 2⟩ (idxVal (x.view s) l 4 ⟨.b32, false, 2⟩)) 4 .store .spTeam).isNone) = true := by
  decide +kernel

/-- A load's element of thread 0 that an open operation has not read. -/
def toRead : LoadElem :=
  { tid := some 0, hnd := false, na := false, srcs := [(.mem (default : Place), 4)], fmt := .bytes 8 4 false }
def loadOp : Op := { (default : Op) with team := T, tids := [0], iss := [0], dc := 0, read := true, kind := .load [toRead] }

theorem witness_unread :
    let s := { wat (.nop gU) with ops := [(7, loadOp)] }
    sget s.ops 7 = some loadOp ∧ toRead ∈ loadOp.kind.unread ∧ toRead.tid = some 0
    ∧ ((sget s.teams T).bind fun tm => sget tm.threads 0).isSome = true ∧ (∀ g, toRead.fmt ≠ .greg g) :=
  ⟨by decide, by decide, rfl, by decide, fun _ h => nomatch h⟩

/-- Stores of the placed team's core that meet: the second finds the first performed; a held one. -/
def hst (pa : Nat) (bs : List Byte) (held : Bool) : HeldStore :=
  { (default : HeldStore) with team := T, va := 0x8004, pa := pa, bytes := bs, held := held }

theorem witness_drain :
    let h := hst 0x18004 [1, 2] false
    let e := hst 0x18005 [7] false
    let s := { wat (.nop gU) with coal := [hst 0x18100 [5] false, h, e] }
    s.coal = [hst 0x18100 [5] false] ++ h :: [e] ∧ h ∉ [e] ∧ hst 0x18100 [5] false ≠ h
    ∧ (hst 0x18100 [5] false).before h = false ∧ (sget s.teams h.team).isSome = true
    ∧ h ≠ e ∧ h.before e = true ∧ ((([hst 0x18004 [1, 2] true]).filter fun e => e.core = 0)[0]?.map (·.held)) = some true := by
  decide +kernel

/-- A core without cached lines or buffered stores, for the frames; a core that records no clauses. -/
theorem witness_frames :
    meets (memReq hQ .stores (((8 : VReg).toNat, regsFor 4) :: two [2])) (lone (wat (.st hQ 8 2 0 .b32 false)))
      (fun x s => decide (s.coal = [] ∧ (getCore s x.tm.core).paths = [] ∧ s.l1 = [] ∧ s.mixed = [] ∧
          (getDie s (coreDie x.tm.core)).rdc = [] ∧ (getCore s x.tm.core).trace.on = false)
        && decide (sget s.teams x.t = some x.tm ∧ sget x.tm.groups x.k = some x.g)) = true := by
  decide +kernel

theorem witness_layout :
    meets (ldlReq hP 8 2) (bound (wat (.ldl hP 8 2 1) |> setRegs [(2, 17), (3, 14)] |> lone))
      (fun x s => x.act.all fun l => match elemSel s x (x.view s) l 2 1 with
        | .place p => recVid p.lay = 0 && (elemCheck s x p false).isNone
        | .fault _ => false | .pad _ => false | .skip => false) = true
    ∧ meets (memReq hQ .stores (one [8] ++ [((2 : VReg).toNat, 6)])) (bound (wat (.stl hQ 8 2 0) |> setRegs [(2, 17), (3, 15)] |> lone))
      (fun x s => x.act.all fun l => match elemSel s x (x.view s) l 2 0 with
        | .place p => recVid p.lay = 0 && (elemCheck s x (stlPlace p) true).isNone
        | .fault _ => false | .pad _ => false | .skip => false) = true
    ∧ (let s := setSlots [0xC002] (wat (.lyld hP 8 2 0x40) |> setRegs [(2, 0xC0)] |> lone)
      meets (memReq hP .layout (one [8] ++ two [2])) { s with mem := memSets s.mem 0x10100 (natLe 64 (rec16 0x40).toNat) }
        (fun x s => (x.act.all fun l => passes (checkGlobal s x.tm.ctx (gaddr (x.view s) l 2 0x40) 64 .ly false))
          && ((lyldReads 2 0x40 x s).1.all fun e => !recBad e.2 (fsRead x.lr (BitVec.ofNat 3 (recFs e.2))))
          && decide ((x.act.map fun l => (gaddr (x.view s) l 2 0x40).toNat).eraseDups.length
            ≤ ((List.range 16).filter fun i => !(sgetD x.tm.binds i default).bound).length))) = true
    ∧ meets (memReq hQ .layout (one [2])) (bound (wat (.lydrop hQ 2) |> setRegs [(2, 17)] |> lone)) (fun x _ => x.act = [0]) = true
    ∧ meets (memReq hQ .stores (two [2])) (lone (wat (.cinv hQ 2 0 .all))) (fun x _ => x.act = [0]) = true
    ∧ meets (memReq hQ .loads (two [2])) (lone (wat (.pref hQ 2 0 .l1))) (fun x _ => x.act = [0]) = true
    ∧ meets (memReq hP .stores (two [2, 4, 6])) (lone (wat (.twalk hP 2 4 6 1)))
      (fun x s => (walked 4 6 1 x s).1.all fun e => passes e.2) = true := by
  decide +kernel

/-! Atomics, ordering, semaphores, buffers. -/

theorem witness_atomics :
    meets (atomReq hP (one [6] ++ atomRegs 7 2)) (lone (wat (.atom hP 6 2 8 7 .add)))
      (fun x s => (x.act.all fun l => passes (checkGlobal s x.tm.ctx (atomAddr 7 2 8 (x.view s) l) 4 .ls true))
        && decide (stuckStores s x.t x.tids false = []) && !x.lr.determ) = true
    ∧ meets (atomReq hQ (one [6] ++ atomRegs 13 2)) (lone (wat (.ared hQ 6 2 8 13 .exch)))
      (fun x s => osSp 13 && x.act.all fun l => (checkSp x.tm (atomAddr 13 2 8 (x.view s) l).toNat 4 .store .spTeam).isNone) = true
    ∧ meets (atomReq hP (two [2, 6, 8] ++ atomRegs 0 4)) (lone (wat (.acas hP 2 4 6 8 0 true)))
      (fun x s => x.act.all fun l => passes (checkGlobal s x.tm.ctx (atomAddr 0 4 0 (x.view s) l) 8 .ls true)) = true := by
  decide +kernel

/-- Active threads without and with earlier reads open, and no active thread, at FENCE and PFENCE. -/
def reading (s : State) : State := { s with ops := [(7, { loadOp with iss := List.range 32 })] }
abbrev gNo : Guard := ⟨false, 1⟩
abbrev hNo : Head := ⟨gNo, 0, 0, 6⟩

theorem witness_fences :
    meets (waitReq hN .order) (wat (.fence hN .sc false .dev)) (fun x s => x.act.length = 32
      && decide (stuckStores s x.t x.tids false = []) && !readOpen s x.t x.tids false) = true
    ∧ meets (waitReq hN .order) (reading (wat (.fence hN .acq false .dev)))
      (fun x s => x.act.length = 32 && readOpen s x.t x.tids false) = true
    ∧ meets (waitReq hN .order) (wat (.pfence hN 3)) (fun x s => x.act.length = 32
      && !pathOpen s x.t x.tids ((List.range 6).filter fun i => (3#6).getLsbD i)) = true
    ∧ meets (waitReq hN .order) (reading (wat (.pfence hN 1))) (fun x s => x.act.length = 32
      && pathOpen s x.t x.tids ((List.range 6).filter fun i => (1#6).getLsbD i)) = true
    ∧ meets (waitReq hNo .order) (wat (.fence hNo .sc false .dev)) (fun x _ => x.act = []) = true
    ∧ meets (waitReq hNo .order) (wat (.pfence hNo 3)) (fun x _ => x.act = []) = true := by decide +kernel

/-- The placed word's team with a sequencer whose turn it is at the same word. -/
def seqAt (s : State) : State :=
  let q : Group → Option Seq := fun g =>
    g.clause.map fun c => { (default : Seq) with pc := 0x8000, clause := some { c with cls := .mtx } }
  { modTeam s T (fun tm => { tm with seq := (sget tm.groups 0).bind q }) with issuer := some (.seq T) }

theorem witness_semaphores :
    meets (syncReq hN [] false) (wat (.semp hN 9 2 .team)) (fun x s => x.act.length = 32
      && decide (stuckStores s x.t x.tids false = [])) = true
    ∧ meets (syncReq hN [] false) (wat (.semx hN 9 2)) (fun x _ => x.act.length = 32) = true
    ∧ meets (syncReq hA (one [15]) true) (wat (.arrive hA 15 0 1 .team true)) (fun x s => x.act.length = 32
      && decide (stuckStores s x.t x.tids false = [])) = true
    ∧ meets (syncReq hN [] false) (wat (.semw hN 9 0 .team)) (fun x _ => semwReady (semOf x.tm 9) (some x.k) 0) = true
    ∧ meets (syncReq hN [] false) (wat (.semw hN 9 1 .team)) (fun x _ => !semwReady (semOf x.tm 9) (some x.k) 1) = true
    ∧ meets (syncReq hN [] false) (wat (.waitph hN 0 9 true .team false)) (fun x s => (semOf x.tm 9).phase ≠ phiOf s x 0 true false) = true
    ∧ meets (syncReq hN [] false) (wat (.waitph hN 0 9 false .team false))
      (fun x s => !heldSeen x && (semOf x.tm 9).phase = phiOf s x 0 false false) = true
    ∧ meetsSeq (syncSReq hN 0) (seqAt (wat (.semp hN 9 2 .team))) (fun _ _ => true) = true
    ∧ meetsSeq (syncSReq hN 0) (seqAt (wat (.semx hN 9 2))) (fun _ _ => true) = true
    ∧ meetsSeq (syncSReq hN 63) (seqAt (wat (.arrive hN 63 9 2 .team true))) (fun _ _ => true) = true
    ∧ meetsSeq (syncSReq hN 0) (seqAt (wat (.semw hN 9 0 .team))) (fun x _ => semwReady (semOf x.tm 9) none 0) = true
    ∧ meetsSeq (syncSReq hN 0) (seqAt (wat (.waitph hN 0 9 true .team false)))
      (fun x _ => (semOf x.tm 9).phase ≠ phiSeq x 0 true false) = true
    ∧ meetsSeq (syncSReq hN 0) (seqAt (wat (.semw hN 9 1 .team))) (fun x _ => !semwReady (semOf x.tm 9) none 1) = true
    ∧ meetsSeq (syncSReq hN 0) (seqAt (wat (.waitph hN 0 9 false .team false)))
      (fun x _ => !x.q.seen && (semOf x.tm 9).phase = phiSeq x 0 false false) = true := by decide +kernel

/-- A placed word that its group waits at, tried again. -/
def waits (s : State) : State :=
  { modTeam s T (fun tm => modGroup tm 0 fun g => { g with status := .waiting }) with issuer := none }
def retryMeets (r : Req) (i : Instr) (s : State) (ok : Site → State → Bool) : Bool :=
  decide (issuerInstr s (.group T 0) = some i) && !turnsOnly s (.group T 0) && meets r (retryAt s (.group T 0)) ok

def seqWaits (s : State) : State := { modSeq (seqAt s) T (fun q => { q with status := .waiting }) with issuer := none }
def seqRetryMeets (r : SReq) (i : Instr) (s : State) (ok : SSite → State → Bool) : Bool :=
  decide (issuerInstr s (.seq T) = some i) && meetsSeq r (retryAt s (.seq T)) ok

theorem witness_retries :
    retryMeets (syncReq hN [] false) (.semw hN 9 0 .team) (waits (wat (.semw hN 9 0 .team)))
      (fun x _ => x.act.length = 32 && semwReady (semOf x.tm 9) (some 0) 0) = true
    ∧ retryMeets (syncReq hN [] false) (.waitph hN 0 9 true .team false) (waits (wat (.waitph hN 0 9 true .team false)))
      (fun x s => x.act.length = 32 && (semOf x.tm 9).phase ≠ phiOf s x 0 true false) = true
    ∧ seqRetryMeets (syncSReq hN 0) (.semw hN 9 0 .team) (seqWaits (wat (.semw hN 9 0 .team)))
      (fun x _ => semwReady (semOf x.tm 9) none 0) = true
    ∧ seqRetryMeets (syncSReq hN 0) (.waitph hN 0 9 true .team false) (seqWaits (wat (.waitph hN 0 9 true .team false)))
      (fun x _ => (semOf x.tm 9).phase ≠ phiSeq x 0 true false) = true
    ∧ retryMeets (syncReq hN [] false) (.bufw hN 9 .empty none .team) (waits (wat (.bufw hN 9 .empty none .team)))
      (fun x _ => x.act.length = 32 && bufwMet x.tm 9 .empty none) = true
    ∧ seqRetryMeets (syncSReq hN 0) (.bufw hN 9 .empty none .team) (seqWaits (wat (.bufw hN 9 .empty none .team)))
      (fun x _ => bufwMet x.tm 9 .empty none) = true
    ∧ retryMeets { guard := gU } (.waitdc gU 63 0) (waits (wat (.waitdc gU 63 0))) (fun x _ => x.tm.threads.all fun e => e.2.dc = []) = true := by
  decide +kernel

/-- A declared buffer of the placed team. -/
def withBuf (b : Buf) (s : State) : State := modTeam s T fun tm => { tm with bufs := [(9, b)] }

theorem witness_buffers :
    meets (syncReq hN [] false) (withBuf ⟨0, 64, .empty, false, []⟩ (wat (.bufs hN 9 .filling .team)))
      (fun x s => x.act.length = 32 && bufsOk x.tm 9 .filling && decide (stuckStores s x.t x.tids false = [])) = true
    ∧ meets (syncReq hN [] false) (withBuf ⟨0, 64, .empty, false, []⟩ (wat (.bufs hN 9 .draining .team)))
      (fun x _ => x.act.length = 32 && !bufsOk x.tm 9 .draining) = true
    ∧ meetsSeq (syncSReq hN 0) (seqAt (withBuf ⟨0, 64, .empty, false, []⟩ (wat (.bufs hN 9 .filling .team))))
      (fun x _ => bufsOk x.tm 9 .filling) = true
    ∧ meets (syncReq hN [] false) (withBuf ⟨0, 64, .full, true, []⟩ (wat (.bufw hN 9 .full (some true) .team)))
      (fun x _ => x.act.length = 32 && bufwMet x.tm 9 .full (some true)) = true
    ∧ meets (syncReq hN [] false) (withBuf ⟨0, 64, .full, true, []⟩ (wat (.bufw hN 9 .full (some false) .team)))
      (fun x _ => x.act.length = 32 && !heldSeen x && !bufwMet x.tm 9 .full (some false)) = true
    ∧ meetsSeq (syncSReq hN 0) (seqAt (withBuf ⟨0, 64, .full, true, []⟩ (wat (.bufw hN 9 .full none .team))))
      (fun x _ => bufwMet x.tm 9 .full none) = true
    ∧ meetsSeq (syncSReq hN 0) (seqAt (withBuf ⟨0, 64, .empty, false, []⟩ (wat (.bufs hN 9 .draining .team))))
      (fun x _ => !bufsOk x.tm 9 .draining) = true
    ∧ meetsSeq (syncSReq hN 0) (seqAt (withBuf ⟨0, 64, .full, true, []⟩ (wat (.bufw hN 9 .empty none .team))))
      (fun x _ => !x.q.seen && !bufwMet x.tm 9 .empty none) = true
    ∧ (let r : BufReq := { (default : BufReq) with target := .filling, waits := [7], op := 1 }
      let d : BufReq := { (default : BufReq) with target := .full, waits := [], op := 2 }
      let s := { withBuf ⟨0, 64, .empty, false, [d, r]⟩ (wat (.nop gU)) with ops := [(7, loadOp)] }
      ((sget s.teams T).map fun tm => (bufOf tm 9).reqs) = some ([d] ++ [r]) ∧ (sget s.ops 7).isSome = true ∧ d.op ≠ 7
        ∧ waitOver s 7 = false ∧ waitOver s 8 = true ∧ sget s.ops 8 = none
        ∧ (sget (withBuf ⟨0, 64, .full, false, [d]⟩ s).teams T).any (fun tm => decide ((bufOf tm 9).reqs = [d])) = true) := by
  decide +kernel

/-! Control transfers and system words. -/

/-- Thread 0's registers alone, and a role for every thread. -/
def setReg0 (rs : List (Nat × Word)) (s : State) : State :=
  modTeam s T fun tm => { tm with threads := smod tm.threads 0 fun th => { th with regs := rs } }
def withRole (r : Role) (s : State) : State :=
  modTeam s T fun tm => { tm with threads := tm.threads.map fun e => (e.1, { e.2 with role := r }) }
/-- In handler mode, and in a grid without privilege. -/
def inHandler (s : State) : State := modTeam s T fun tm => modGroup tm 0 fun g => { g with handler := true }
def plainGrid (s : State) : State := { s with grids := smod s.grids 1 fun g => { g with lrec := { g.lrec with priv := false } } }

abbrev uB : HeadB := ⟨gU, true⟩

theorem witness_transfers_issue :
    meets (transferReq uB []) (wat (.bra uB 2)) (fun x s => (apart (nextsOf x fun _ => branchTarget x 2)).isEmpty && x.t = T && s.stopped = false)
    ∧ meets (transferReq uB (one [6])) (wat (.brx uB 6 (-1) 7) |> setRegs [(6, 3)])
      (fun x s => (apart (nextsOf x fun l => branchTarget x (-1) + (((x.view s).r l 6).signExtend 64 <<< (3 + 7)))).isEmpty)
    ∧ meets (transferReq uB (two [254])) (wat (.call uB 254 2)) (fun x _ => (apart (nextsOf x fun _ => branchTarget x 2)).isEmpty)
    ∧ meets (transferReq uB (two [6])) (wat (.callx uB 6) |> setRegs [(6, 0x9000)])
      (fun x s => (x.act.all fun l => ((x.view s).r64 l 6).extractLsb' 0 3 = 0) && (apart (nextsOf x fun l => (x.view s).r64 l 6)).isEmpty)
    ∧ meets (transferReq ⟨gU, false⟩ (two [6])) (wat (.ret ⟨gU, false⟩ 6) |> setReg0 [(6, 0x9000)])
      (fun x s => x.act.all fun l => ((x.view s).r64 l 6).extractLsb' 0 3 = 0)
    ∧ meets { guard := gU } (wat .join) (fun _ _ => true)
    ∧ meets { guard := gU } (wat (.exit gU)) (fun _ _ => true) := by decide +kernel

theorem witness_transfers_trap :
    meets (transferReq ⟨⟨false, 0⟩, true⟩ []) (lone (wat (.bra ⟨⟨false, 0⟩, true⟩ 9)))
      (fun x _ => !(apart (nextsOf x fun _ => branchTarget x 9)).isEmpty)
    ∧ meets (transferReq ⟨⟨false, 0⟩, true⟩ (two [254])) (lone (wat (.call ⟨⟨false, 0⟩, true⟩ 254 9)))
      (fun x _ => !(apart (nextsOf x fun _ => branchTarget x 9)).isEmpty)
    ∧ meets (transferReq uB (two [6])) (wat (.callx uB 6) |> setReg0 [(6, 0x9000)])
      (fun x s => x.act.all (fun l => ((x.view s).r64 l 6).extractLsb' 0 3 = 0) && !(apart (nextsOf x fun l => (x.view s).r64 l 6)).isEmpty)
    ∧ meets (transferReq uB (two [6])) (wat (.ret uB 6) |> setReg0 [(6, 0x9000)])
      (fun x s => x.act.all (fun l => ((x.view s).r64 l 6).extractLsb' 0 3 = 0) && !(apart (nextsOf x fun l => (x.view s).r64 l 6)).isEmpty)
    ∧ meets (transferReq uB (two [6])) (wat (.callx uB 6) |> setReg0 [(6, 0x9004)])
      (fun x s => x.act.any fun l => ((x.view s).r64 l 6).extractLsb' 0 3 ≠ 0)
    ∧ meets (transferReq uB (one [6])) (wat (.brx uB 6 0 0) |> setReg0 [(6, 1)])
      (fun x s => !(apart (nextsOf x fun l => branchTarget x 0 + (((x.view s).r l 6).signExtend 64 <<< (3 + 0)))).isEmpty)
    ∧ meets (transferReq uB (two [6])) (wat (.ret uB 6) |> setReg0 [(6, 0x9004)])
      (fun x s => x.act.any fun l => ((x.view s).r64 l 6).extractLsb' 0 3 ≠ 0) := by decide +kernel

/-- A group whose transfer has issued. -/
def transferOn (tr : Transfer) (s : State) : State := modTeam s T fun tm => modGroup tm 0 fun g => { g with transfer := some tr }
def resolves (s : State) (ok : Site → Transfer → Bool) : Bool :=
  match siteOf s T 0 gU with
  | some x => (match x.g.transfer with | some tr => ok x tr | none => false)
  | none => false

theorem witness_transfers_resolve :
    let far : List (Nat × DWord) := [(0, 0x9000), (1, 0x8010)]
    let at_ := fun k a => resolves (transferOn ⟨k, false, far, a, none⟩ (wat (.nop gU)))
    at_ .bra [0] (fun x tr => x.g.handler = false && tr.kind ≠ .join && tr.kind ≠ .exit && tr.nexts = (0, 0x9000) :: [(1, 0x8010)])
    ∧ at_ .join [] (fun x tr => x.g.handler = false && tr.kind = .join && x.g.clause.isSome)
    ∧ at_ .exit [0] (fun x tr => x.g.handler = false && tr.kind = .exit && tr.active ≠ [])
    ∧ at_ .exit [] (fun _ tr => tr.kind = .exit && tr.active = []) := by decide +kernel

theorem witness_handler_transfers :
    let at_ := fun k => resolves (inHandler (transferOn ⟨k, false, [(0, 0x9000), (1, 0x8010)], [0], none⟩ (wat (.nop gU))))
    at_ .join (fun x _ => x.g.handler) ∧ at_ .exit (fun x tr => x.g.handler && tr.active ≠ [])
    ∧ at_ .bra (fun x tr => x.g.handler && apart tr.nexts ≠ []) := by decide +kernel

theorem witness_nop_waitdc :
    let busy := fun s => modTeam s T fun tm => modThread tm 0 fun th => { th with dc := [(5, 63)] }
    meets { guard := gU, lane := true } (wat (.nop gU)) (fun _ _ => true)
    ∧ meetsSeq { ok := fun _ => true } (seqAt (wat (.nop gU))) (fun _ _ => true)
    ∧ meets { guard := gU } (busy (wat (.waitdc gU 63 63))) (fun x _ => waitdcMet x 63 63)
    ∧ meets { guard := gU } (busy (wat (.waitdc gU 32 62))) (fun x _ =>
      x.act.any fun l => (List.range 6).any fun i => (32 : BitVec 6).getLsbD i
        && (62 : BitVec 6).toNat < sgetD (sgetD x.tm.threads (sgetD x.g.members l 0) default).dc i 0)
    ∧ retryMeets { guard := gU } (.waitdc gU 63 63) (waits (busy (wat (.waitdc gU 63 63)))) (fun x _ => waitdcMet x 63 63) := by decide +kernel

def groupAt (s : State) (ok : Team → Group → Bool) : Bool :=
  match sget s.teams T with
  | some tm => (match sget tm.groups 0 with
    | some g => ok tm g && (sget s.contexts tm.ctx).isSome && !(getCore s tm.core).trace.on
    | none => false)
  | none => false

/-- A team's group that a trap may enter, in and outside handler mode, and without a handler. -/
theorem witness_trap_entry :
    let bad := fun s : State => modCtx s 0 fun c => { c with fault := some (0, 0x8000, 7, 5) }
    (let u := bad (wat (.nop gU)); (sget u.contexts 0).any (fun c => c.fault = some (0, 0x8000, 7, 5))
      && stopQuiet u (u.teams.filter fun e => e.2.ctx = 0)) = true
    ∧ (let u := bad { wat (.nop gU) with ops := [(7, loadOp)] }
      !stopQuiet u (u.teams.filter fun e => e.2.ctx = 0)) = true
    ∧
    groupAt (wat (.nop gU)) (fun tm g => !g.handler && tm.htvec ≠ 0)
    ∧ groupAt (inHandler (wat (.nop gU))) (fun tm g => g.handler && tm.htvec ≠ 0)
    ∧ groupAt (modTeam (wat (.nop gU)) T fun tm => { tm with htvec := 0 }) (fun tm g => !g.handler && tm.htvec = 0)
    ∧ 0x8000 + 8 * (15 + 1) < 2 ^ 52 := by decide +kernel

def siteAt (r : Req) (s : State) (ok : Site → Bool) : Bool :=
  match siteOf s T 0 r.guard with
  | some x => canIssue s x && decide (s.issuer = some (.group T 0)) && ok x
  | none => false

/-- Sites where each of the checks 2 to 4 of R36 is the first to fail. -/
theorem witness_failed_checks :
    let role := fun (x : Site) => groupRole x.tm x.g
    siteAt (plainReq gU) (wat .rth |> fun s => modTeam s T fun tm => modGroup tm 0 fun g =>
        { g with clause := g.clause.map fun c => { c with cls := .lane } })
      (fun x => !classOk (plainReq gU) x)
    ∧ siteAt (aluReq hA (one [255])) (wat (.nop gU) |> fun s => modTeam s T fun tm => { tm with budV := 255 })
      (fun x => classOk (aluReq hA (one [255])) x && !(regsOk x.g.handler (roleBudget x.tm (role x)) [(255, 1)]))
    ∧ siteAt (memReq hQ .stores []) (withRole .copy (wat (.nop gU)))
      (fun x => classOk (memReq hQ .stores []) x && regsOk x.g.handler (roleBudget x.tm (role x)) [] && !engineRole .stores (role x)) := by decide +kernel

theorem witness_software_traps :
    let debugged := fun b s => modCtx s 0 fun c => { c with debugger := b }
    meets (plainReq gU) (wat (.trap gU 0xFFFF)) (fun x _ => x.act ≠ [])
    ∧ meets (plainReq gU) (wat (.bkpt gU 1)) (fun x s => x.act ≠ [] && (sget s.contexts x.tm.ctx).any fun c => c.debugger = false)
    ∧ meets (plainReq gU) (debugged true (wat (.bkpt gU 1))) (fun x s => x.act ≠ [] && (sget s.contexts x.tm.ctx).any fun c => c.debugger)
    ∧ meets (plainReq ⟨true, 7⟩) (wat (.trap ⟨true, 7⟩ 1)) (fun x _ => x.act = [])
    ∧ meets (plainReq ⟨true, 7⟩) (wat (.bkpt ⟨true, 7⟩ 1)) (fun x _ => x.act = []) := by decide +kernel

/-- A group in the handler of a trap of its team's sequencer. -/
def afterSeqTrap (hpc : DWord) (kept : Nat) (s : State) : State :=
  modTeam (inHandler s) T fun tm => modGroup { tm with seq := some { (default : Seq) with pc := 0x8000 } } 0 fun g =>
    { g with seqTrap := true, hpc := hpc, kept := (0x8000, kept) }

theorem witness_tfence_yield :
    let raised := fun s => modTeam s T fun tm => modThread tm 0 fun th => { th with fflags := 0x1010 }
    let owed := fun s : State => { s with ops := [(7, { loadOp with kind := .flags [(0, 1)] })] }
    let asked := fun s => modTeam s T fun tm => { tm with preq := true }
    let first := fun s => modTeam s T fun tm => modGroup tm 0 fun g =>
      { g with clause := g.clause.map fun c => { c with words := c.words ++ c.words } }
    meets (plainReq gU) (wat (.tfence gU)) (fun x s => !flagsOwed s x.t x.tids && x.act.all fun l => laneArith s x l = 0)
    ∧ meets (plainReq gU) (raised (wat (.tfence gU))) (fun x s => !flagsOwed s x.t x.tids && x.act.any fun l => laneArith s x l ≠ 0)
    ∧ meets (plainReq gU) (owed (wat (.tfence gU))) (fun x s => flagsOwed s x.t x.tids)
    ∧ retryMeets (plainReq gU) (.tfence gU) (waits (wat (.tfence gU)))
      (fun x s => !flagsOwed s x.t x.tids && x.act.all fun l => laneArith s x l = 0)
    ∧ meets (plainReq gU) (first (wat (.yield 256))) (fun x s => !yieldUnsafe s x && !x.tm.preq)
    ∧ meets (plainReq gU) (asked (first (wat (.yield 256)))) (fun x s => !yieldUnsafe s x && !x.g.handler && x.tm.preq)
    ∧ meets (plainReq gU) (inHandler (asked (first (wat (.yield 0))))) (fun x s => !yieldUnsafe s x && x.g.handler)
    ∧ meets { plainReq gU with rth := true } (wat .rth) (fun x _ => !x.g.seqTrap && hpcWix x.g.hpc = 0)
    ∧ meets { plainReq gU with rth := true } (modTeam (wat .rth) T fun tm => modGroup tm 0 fun g => { g with hpc := hpcWord 0x8000 14 })
      (fun x _ => !x.g.seqTrap && hpcWix x.g.hpc = 14 + 1)
    ∧ meets { plainReq gU with rth := true } (afterSeqTrap 0x8000 0 (wat .rth))
      (fun x _ => x.g.seqTrap && x.tm.seq.isSome && hpcWix x.g.hpc = 0)
    ∧ meets { plainReq gU with rth := true } (afterSeqTrap (hpcWord 0x8000 14) 3 (wat .rth))
      (fun x _ => x.g.seqTrap && x.tm.seq.isSome && hpcWix x.g.hpc = 14 + 1) := by decide +kernel

theorem witness_special_registers :
    let lates := fun s => modTeam s T fun tm =>
      { tm with threads := tm.threads.map fun e => (e.1, { e.2 with late := [⟨0, 1, [], []⟩, ⟨5, 2, [], []⟩] }) }
    meets (sreadReq hA 6 0x36 .lo) (inHandler (wat (.sread hA 6 0x36 .lo))) (fun _ _ => true)
    ∧ meets (sreadReq hA 6 0x33 .pair) (inHandler (wat (.sread hA 6 0x33 .pair))) (fun _ _ => true)
    ∧ meets (sreadReq hA 6 0x40 .hi) (wat (.sread hA 6 0x40 .hi)) (fun _ _ => true)
    ∧ meets (swriteReq gU 6 0x20 false) (wat (.swrite gU 6 0x20 false)) (fun x _ => x.act.length = 32)
    ∧ meets (swriteReq gU 6 0x20 false) (lates (wat (.swrite gU 6 0x20 false))) (fun x s => s.cycle = 0 && x.tm.threads.all fun e => e.2.late.length = 2)
    ∧ meets (swriteReq gU 6 0x33 true) (inHandler (wat (.swrite gU 6 0x33 true))) (fun x _ => x.act ≠ [])
    ∧ meets (swriteReq gU 6 0x30 true) (wat (.swrite gU 6 0x30 true)) (fun x _ => x.act ≠ [])
    ∧ (spWide 0x20).isSome ∧ (spWide 0x33).isSome := by decide +kernel

theorem witness_system_controls :
    meets (sysReq hN (two [6])) (wat (.ebset hN 6)) (fun x _ => x.act ≠ [])
    ∧ meets (sysReq hN (one [6])) (wat (.pmctl hN 6 7 .clron) |> setRegs [(6, 0x0A)])
      (fun x s => x.act ≠ [] && ((x.view s).r x.lead 6).toNat % 256 ≤ 0x0A)
    ∧ meets (sysReq hN (one [6])) (wat (.pmctl hN 6 7 .on) |> setRegs [(6, 0x0B)])
      (fun x s => x.act ≠ [] && 0x0A < ((x.view s).r x.lead 6).toNat % 256)
    ∧ meets (sysReq hN []) (wat (.trctl hN 6 .off 0)) (fun x _ => x.act ≠ [])
    ∧ (let s := setRegs [(6, 0xC0)] (wat (.trctl hN 6 .both 10))
      meets (sysReq hN (two [6])) { s with mem := memSets s.mem 0x100C0 (natLe 64 (0x4000 + 12 * 2 ^ 64)) }
        fun x s => x.act ≠ [] && match checkGlobal s x.tm.ctx ((x.view s).r64 x.lead 6) 64 .ls true with
          | .ok loc => (traceRing (memNat s.mem loc.pa 64)).isSome
          | .error _ => false)
    ∧ meets (sysReq hN (two [6])) (setRegs [(6, 0xC0)] (wat (.trctl hN 6 .both 10)))
      (fun x s => x.act ≠ [] && ((x.view s).r64 x.lead 6).toNat % 64 = 0 && match checkGlobal s x.tm.ctx ((x.view s).r64 x.lead 6) 64 .ls true with
          | .ok loc => (traceRing (memNat s.mem loc.pa 64)).isNone
          | .error _ => false)
    ∧ meets (sysReq hN (two [6])) (wat (.ctxsave hN 6) |> setRegs [(6, 0xF000)])
      (fun x s => x.act ≠ [] && passes (checkGlobal s x.tm.ctx ((x.view s).r64 x.lead 6) 4096 .ls true))
    ∧ meets { plainReq gU with priv := true } (wat (.halt 7)) (fun _ _ => true)
    ∧ (let ending := fun s : State => modGrid s 1 fun g => { g with halting := some (0, 7, 5) }
      let quiet := fun s : State => stopQuiet (ending s) ((ending s).teams.filter fun e => e.2.grid = 1)
      (sget (ending (wat (.nop gU))).grids 1).isSome = true ∧ quiet (wat (.nop gU)) = true
        ∧ quiet { wat (.nop gU) with ops := [(7, loadOp)] } = false) := by decide +kernel

/-! Copies, views, work. -/

/-- Bytes placed at a virtual address of the placed program's page. -/
def putMem (va n : Nat) (v : Nat) (s : State) : State := { s with mem := memSets s.mem (0x10000 + va) (natLe n v) }

/-- A guard that no lane passes. -/
abbrev hO : Head := ⟨⟨true, 7⟩, 0, 0, 6⟩
abbrev hW : Head := ⟨⟨true, 7⟩, 15, 0, 6⟩

theorem witness_idle_group_words :
    ([Instr.cpy hO 2 4 .g2s 15 .b16 true, .cpyl hO 2 8 9 0 true true, .cpyd hO 0 2 4 5 0 true false 3, .cbld hO 2 3, .cpyc hO 6 2 0 (some 31),
      .crpop hO 2 0xFFFF, .gathn hO 6 2 4 ⟨.b16, true, 2⟩ .b8 0 true true, .bufs hO 9 .full .team, .semp hO 9 2 .team, .semx hO 9 2,
      .arrive hW 15 0 1 .team true, .ebset hO 2, .pmctl hO 2 7 .on, .ctxsave hO 2, .trctl hO 2 .trace 0, .trctl hO 0 .off 0,
      .klaunch hO 2 4 true, .vreg hW 8 2 4 .wait, .vdrop hO 2, .vgen hW 8 2 true, .vpol hO 2 .stale, .vstat hW 8 2 true,
      .qbind hO 2 0 false false 8, .qrel hO false].all fun i => match groupWord i with
        | some (r, h) => i.wf && h.guard = hO.guard && meets r (setSlots [0xC006] (wat i)) fun x _ => x.act = []
        | none => false) = true
    ∧ ([Instr.semw hO 9 1 .team, .waitph hO 0 9 true .team false, .bufw hO 9 .full none .team, .crwait hW 6 2, .vsync hO 8 2 false,
      .fence hO .sc false .dev, .pfence hO 3].all fun i => match groupWait i with
        | some r => i.wf && meets r (wat i) fun x _ => x.act = []
        | none => false) = true := by decide +kernel

theorem witness_copies :
    meets (copyReq hQ (two [2] ++ one [4])) (wat (.cpy hQ 2 4 .g2s 0 .b16 true) |> setRegs [(2, 0xFFF0), (4, 0xFFF0)] |> lone)
      (fun x s => x.act ≠ [] && decide (stuckStores s x.t x.tids false = []) && x.act.all fun l =>
        passes (checkSide s x (x.view s) l 16 2 false false) && passes (checkSide s x (x.view s) l 16 4 true true)) = true
    ∧ meets (copyReq hQ (two [2] ++ two [4])) ({ wat (.cpy hQ 2 4 .g2g 0 .b4 false) with routes := [(5, 1)] }
        |> setRegs [(2, 0x100), (5, 0x00500000)] |> lone)
      (fun x s => x.act ≠ [] && x.act.all fun l => passes (checkSide s x (x.view s) l 4 2 false false)
        && match checkSide s x (x.view s) l 4 4 false true with | .ok p => (sideFab p).isSome | .error _ => false) = true
    ∧ meets (copyReq hQ ([(2, 6)] ++ one [8, 9])) (bound (wat (.cpyl hQ 2 8 9 0 false false) |> setRegs [(2, 17), (3, 14), (9, 3)] |> lone))
      (fun x s => x.act ≠ [] && match tileOf s x (x.view s) 2 8 9 with
        | .ok t => (pickFault (checkDst x.tm t.dst (tileBytes t) 16 false ++ checkTile s x.tm.ctx t)).isNone && tileOob t
        | .error _ => false) = true
    ∧ (let s := setSlots [0xC007] (wat (.cpyd hQ 0 2 4 5 0 false false 3) |> setRegs [(2, 0x100), (4, 32), (5, 5)] |> lone)
      meets { copyReq hQ (two [2] ++ one [4, 5]) with ok := fun x => (slotOf (fsRead x.lr 0)).kind.isCode }
        (modCore s 0 fun c => { c with codebooks := [(3, (T, []))] })
        (fun x s => x.act ≠ [] && 0 < ((x.view s).r x.lead 5).toNat && ((x.view s).r x.lead 5).toNat ≤ 32768
          && passes (cpydSrc s x 0 2 5) && tableTag s x.tm.core 3 = x.t
          && (pickFault (checkDst x.tm ((x.view s).r x.lead 4).toNat (32 * 5) 32 false)).isNone)) = true
    ∧ meets (copyReq hQ (two [6, 2, 4])) (wat (.gathn hQ 6 2 4 ⟨.b32, false, 2⟩ .b8 0 false false)
        |> setRegs [(2, 0x100), (4, 0x200), (6, 64), (7, 65)] |> lone)
      (fun x s => x.act ≠ [] && 0 < ((x.view s).reg x.lead 7).toNat && ((x.view s).r64 x.lead 4).toNat % 4 = 0
        && (((x.view s).r64 x.lead 2).extractLsb' 52 12 = 0) && (((x.view s).r64 x.lead 4).extractLsb' 52 12 = 0)
        && passes (checkRange s x.tm.ctx 0x200 (65 * 4) .nm false)
        && (pickFault (checkDst x.tm 64 ((65 * 1 + 63) / 64 * 64) 64 false)).isNone) = true := by decide +kernel

/-- A completion ring of 16 records at 0x4000, with one record present, described at 0x100. -/
def withRing (s : State) : State :=
  putMem 0x4020 32 (1 * 2 ^ 32) (putMem 0x100 64 (0x4000 + 4 * 2 ^ 64 + 2 * 2 ^ 96 + 1 * 2 ^ 128) s)

/-- The ring that r2 names passes a check, and the pages of its records too. -/
def ringPasses (write : Bool) (x : Site) (s : State) : Bool :=
  match ringOf s (x.who x.lead) ((x.view s).r64 x.lead 2) true with
  | (.ok r, s1) => passes (checkRange s1 x.tm.ctx r.base (32 * 2 ^ r.logn) .ls write)
  | (.error _, _) => false
/-- Sixteen closed batches of core 0. -/
def heldCpyc (s : State) : State :=
  let c : BatchClose := { desc := default, base := 0x4000, logn := 4, ring := [], tag := 7, op := 9 }
  let b : Batch := { (default : Batch) with team := T, core := 0, close := some c }
  { s with batches := (List.range 16).map fun n => (n, b) }

theorem witness_batch_words :
    meets (copyReq hQ (two [2])) (wat (.cbld hQ 2 0) |> setRegs [(2, 0x2000)] |> lone)
      (fun x s => x.act ≠ [] && passes (checkGlobal s x.tm.ctx ((x.view s).r64 x.lead 2) 8192 .cp false)) = true
    ∧ meets (cpycReq hQ 6 2) (withRing (wat (.cpyc hQ 6 2 0 (some 9))) |> setRegs [(2, 0x100)] |> lone)
      (fun x s => x.act ≠ [] && ringPasses true x s) = true
    ∧ (siteOf (heldCpyc (wat (.cpyc hQ 6 2 0 none))) T 0 gU).any (cpycHeld (heldCpyc (wat (.cpyc hQ 6 2 0 none)))) = true
    ∧ meets (copyReq hP (two [6, 2])) (withRing (wat (.crwait hP 6 2)) |> setRegs [(2, 0x100)] |> lone)
      (fun x s => x.act ≠ [] && x.g.cons.isEmpty && x.act.all fun l => match ringOf s (x.who l) ((x.view s).r64 l 2) false with
        | (.ok r, s1) => r.cons = 1 && (match recordSeq s1 (x.who l) (recordOff r.base r.logn r.cons) with
          | (.ok n, _) => decide (n = r.cons)
          | (.error _, _) => false)
        | (.error _, _) => false) = true
    ∧ meets (copyReq hP (two [6, 2])) (withRing (wat (.crwait hP 6 2)) |> setRegs [(2, 0x100)] |> lone)
      (fun x s => x.act ≠ [] && ((crwaited 2 x s).1.all fun e => passes e.2) && (crwaitSeen (crwaited 2 x s).1).all (·.2.done)) = true
    ∧ meets (copyReq hP (two [6, 2])) (putMem 0x4020 32 0 (withRing (wat (.crwait hP 6 2))) |> setRegs [(2, 0x100)] |> lone)
      (fun x s => x.act ≠ [] && ((crwaited 2 x s).1.all fun e => passes e.2) && !(crwaitSeen (crwaited 2 x s).1).all (·.2.done)) = true
    ∧ retryMeets (copyReq hP (two [6, 2])) (.crwait hP 6 2) (withRing (waits (wat (.crwait hP 6 2))) |> setRegs [(2, 0x100)] |> lone)
      (fun x s => x.act ≠ [] && ((crwaited 2 x s).1.all fun e => passes e.2) && (crwaitSeen (crwaited 2 x s).1).all (·.2.done)) = true
    ∧ meets (copyReq hQ (two [2])) (withRing (wat (.crpop hQ 2 1)) |> setRegs [(2, 0x100)] |> lone)
      (fun x s => x.act ≠ [] && ringPasses false x s) = true := by decide +kernel

/-- Engine operations open for the placed team, and a closed batch. -/
def withOp (k : OpKind) (s : State) : State :=
  { s with ops := sset s.ops s.nextOp { (default : Op) with team := T, dc := 6, kind := k }, nextOp := s.nextOp + 1 }
/-- A gather of n elements of 8 bytes, all of them read. -/
def gatherAt (n : Nat) : Awl :=
  { dst := 0, n := n, base := 0x100, listAt := 0x200, list := [], ix := ⟨.b32, false, 2⟩, ew := .b64,
    idx := (List.range n).map fun k => (k, 0), vals := (List.range n).map fun k => (k, some (List.replicate 8 7)), next := 0 }
def ringDesc : Place := ⟨0x100, 0x10100, 0, true, 0, false⟩
def closedBatch (sem : Option Nat) (posted dst : Nat) (s : State) : State :=
  let c : BatchClose :=
    { desc := ringDesc, base := 0x4000, logn := 4, ring := [⟨0x0, 0x10000, 0, true, 0, false⟩], tag := 7, op := 9 }
  let b : Batch := { (default : Batch) with team := T, core := 0, dst := dst, posted := posted, sem := sem, close := some c }
  { withRing s with batches := [(3, b)] }

/-- An engine unit that a violation has frozen. -/
def iceOn (u : EngineUnit) (n : Nat) (s : State) : State := { s with frozen := sset s.frozen (engineKey n u) 7 }

theorem witness_engine_steps :
    (let s := withOp (.copy 3 0 [] []) (wat (.nop gU));
      ((sget s.ops 1).map (·.kind)) = some (.copy 3 0 [] []) ∧ (sget s.teams T).isSome ∧ (sget s.ops 1).map (opFrozen s) = some false
        ∧ (sget s.ops 1).map (opFrozen (iceOn .copy 0 s)) = some true)
    ∧ (let s := withOp (.expand 3 0 0 1 8 2 0x100 []) (wat (.nop gU));
      ((sget s.ops 1).map (·.kind)) = some (.expand 3 0 0 1 8 2 0x100 []) ∧ tableLoads s 0 2 = [])
    ∧ (let s := withOp (.awl 3 0 (gatherAt 1)) (wat (.nop gU));
      ((sget s.ops 1).map (·.kind)) = some (.awl 3 0 (gatherAt 1)) ∧ (sget s.ops 1).map (opFrozen s) = some false ∧ (sget s.ops 1).map (opFrozen (iceOn .gather 0 s)) = some true
        ∧ (gathersOn s default 3 0 1 (gatherAt 1)).mem = s.mem ∧ gatherOf (gathersOn s default 3 0 1 (gatherAt 1)) 1 = some (gatherAt 1)
        ∧ burstEnd (gatherAt 1) = 1 ∧ countEarly (gathersOn s default 3 0 1 (gatherAt 1)) 1 = none)
    ∧ (let s := withOp (.awl 3 0 (gatherAt 9)) (wat (.nop gU));
      gatherOf (gathersOn s default 3 0 1 (gatherAt 9)) 1 = some (gatherAt 9) ∧ burstEnd (gatherAt 9) = 8
        ∧ ((List.range 8).all fun k => (sget (gatherAt 9).vals k).isSome) = true) := by
  decide +kernel

/-- An index of a gather that gives a place that may be read, and a sentinel's. -/
theorem witness_gather_elements :
    let s := withOp (.awl 3 0 (gatherAt 1)) (wat (.nop gU))
    let ix : Index := (gatherAt 1).ix
    gatherOf s 1 = some (gatherAt 1) ∧ isSentinel ix 2 = false ∧ farIndex ix 2 = false
    ∧ passes (checkGlobal s 0 (idxAddr (gatherAt 1).base ix 2) 8 .nm false) = true ∧ isSentinel ⟨.b32, true, 2⟩ 0xFFFFFFFF = true := by
  decide +kernel

def batchMeets (s : State) (ok : Batch → BatchClose → Bool) : Bool :=
  match sget s.batches 3 with
  | some q => (match q.close with | some c => (sget s.teams q.team).isSome && ok q c | none => false)
  | none => false

theorem witness_batches_complete :
    let s := closedBatch (some 31) 1 32 (wat (.nop gU))
    unitFrozen s .copy 0 = false ∧ unitFrozen (iceOn .copy 0 s) .copy 0 = true
    ∧ batchMeets s (fun q c => requestsDone s q && q.posted = chunksDue s q && !ringBefore s q c
      && (ringProd s c.desc + 2 ^ 32 - ringCons s c.desc) % 2 ^ 32 < 2 ^ c.logn) = true
    ∧ (let t := putMem 0x10C 4 17 s
      batchMeets t (fun q c => requestsDone t q && !ringBefore t q c
        && 2 ^ c.logn ≤ (ringProd t c.desc + 2 ^ 32 - ringCons t c.desc) % 2 ^ 32)) = true
    ∧ (let t := closedBatch (some 31) 0 4095 (wat (.nop gU))
      batchMeets t (fun q c => c.logn = 4 && q.sem = some 31 && q.posted < chunksDue t q)) = true
    ∧ ((sget (modBatch s 3 fun q => { q with full := true }).batches 3).map (·.full)) = some true := by decide +kernel

/-- A request into an open batch. -/
theorem witness_requests :
    meets (copyReq hQ (two [2] ++ one [4])) (closedBatch none 0 0 (modTeam (wat (.cpy hQ 2 4 .g2s 0 .b16 false)) T fun tm =>
        { tm with batch := [(0, 3)] }))
      (fun x s => decide ((sget s.teams x.t).map (·.batch) = some x.tm.batch) && (match sget x.tm.batch 0 with
        | some b => (sget s.batches b).isSome
        | none => false)) = true := by decide +kernel

/-! Views. -/

/-- A registered view of 16 FP32 elements at 0x40, stored at 0x11000 in INT8, in slot 2 with tag 1, in some state. -/
def recView : BitVec 512 := BitVec.ofNat 512 0x11000 ||| (16#512 <<< 128) ||| (1#512 <<< 448) ||| (1#512 <<< 451) ||| (3#512 <<< 459)
def withView (st : ViewState) (gen : Nat) (s : State) : State :=
  let v : View :=
    { (default : View) with
        tag := 1, live := true, master := rec16 0x40, view := recView, slot := 0xC005, mslot := 0xC002, state := st,
        gens := [(0, gen)], queued := [(0, 1)] }
  modCtx s 0 fun c => { c with views := [(2, v)], masters := [(0x40, { mg := 1, dirty := [], wg := [], base := 1, time := 0 })] }

/-- Page 0 is a master's, and a page beside it at 0x10000 is not. -/
def mvPages (s : State) : State :=
  { s with mem := memSets s.mem 0x32000 (natLe 8 ((leafPte 0x10000).toNat + 2 ^ 54) ++ natLe 8 (leafPte 0x50000).toNat) }

/-- The view's policy. -/
def withPol (pol : ViewPol) (s : State) : State := modCtx s 0 fun c => { c with views := smod c.views 2 fun v => { v with policy := pol } }

/-- What VREG reads at the records that r2 and r4 name, where it may read them. -/
def vregSeen (x : Site) (s : State) (ok : Context → ViewReg × State → Bool) : Bool :=
  match checkGlobal s x.tm.ctx ((x.view s).r64 x.lead 2) 64 .ly false, checkGlobal s x.tm.ctx ((x.view s).r64 x.lead 4) 64 .ly false with
  | .ok lm, .ok lv => (sget (vregAt 2 4 lm lv x s).2.contexts x.tm.ctx).any fun c => ok c (vregAt 2 4 lm lv x s)
  | .ok _, .error _ => false
  | .error _, .ok _ => false
  | .error _, .error _ => false

def recsRead (v : BitVec 512) : ViewReg :=
  { maddr := 0x100, vaddr := 0x180, mrec := rec16 0x40, vrec := v, mslot := 0xC002, vslot := 0xC005 }
def sameRecs (a b : ViewReg) : Bool :=
  a.maddr = b.maddr && a.vaddr = b.vaddr && a.mrec = b.mrec && a.vrec = b.vrec && a.mslot = b.mslot && a.vslot = b.vslot

theorem witness_vreg :
    meets (memReq hP .views (one [8] ++ two [2, 4])) (setSlots [0xC002, 0xC005] (wat (.vreg hP 8 2 4 .wait)
        |> putMem 0x100 64 (rec16 0x40).toNat |> putMem 0x180 64 recView.toNat |> setRegs [(2, 0x100), (4, 0x180)] |> lone)
        |> mvPages)
      (fun x s => x.act ≠ [] && vregSeen x s fun c r => sameRecs r.1 (recsRead recView) && (vregBad r.2 x.tm.ctx c (recsRead recView)).isNone) = true
    ∧ meets (memReq hP .views (one [8] ++ two [2, 4])) (setSlots [0xC002, 0xC005] (wat (.vreg hP 8 2 4 .wait)
        |> putMem 0x100 64 (rec16 0x40).toNat |> setRegs [(2, 0x100), (4, 0x180)] |> lone) |> mvPages)
      (fun x s => x.act ≠ [] && vregSeen x s fun c r => sameRecs r.1 { recsRead 0 with vslot := 0xC002 } && (vregBad r.2 x.tm.ctx c { recsRead 0 with vslot := 0xC002 }).isSome) = true := by decide +kernel

theorem witness_view_words :
    let bad := fun (x : Site) (s : State) => decide (x.act ≠ []) && (tokenView s x.tm.ctx (siteTok x s 2)).isNone
    let tok := fun s => lone (setRegs [(2, 66), (8, 1)] s)
    let ok := fun (c : View → Bool) (x : Site) (s : State) => x.act ≠ [] && (tokenView s x.tm.ctx (siteTok x s 2)).any c
    meets (memReq hQ .views (one [2])) (tok (wat (.vdrop hQ 2))) (fun x _ => x.act ≠ []) = true
    ∧ meets (memReq hQ .views (one [2])) (withView .active 1 (tok (wat (.vdrop hQ 2)))) (ok fun _ => true) = true
    ∧ meets (memReq hQ .views (two [8] ++ one [2])) (withView .active 1 (tok (wat (.vsync hQ 8 2 false))))
      (ok fun v => v.state = .active && 1 ≤ leastGen v) = true
    ∧ meets (memReq hQ .views (one [2])) (withView .active 0 (tok (wat (.vsync hQ 0 2 true))))
      (fun x s => ok (fun v => v.state = .active && leastGen v < (masterOf s x.tm.ctx v).mg) x s) = true
    ∧ retryMeets (memReq hQ .views (one [2])) (.vsync hQ 0 2 true) (withView .active 1 (tok (waits (wat (.vsync hQ 0 2 true)))))
      (fun x s => ok (fun v => v.state = .active && x.g.gArg.toNat ≤ leastGen v) x s) = true
    ∧ meets (memReq hP .views (two [8] ++ one [2])) (withView .active 1 (tok (wat (.vgen hP 8 2 true)))) (ok fun _ => true) = true
    ∧ [meets (memReq hQ .views (one [2])) (tok (wat (.vpol hQ 2 .stale))) bad, meets (memReq hP .views (two [8] ++ one [2]))
      (tok (wat (.vgen hP 8 2 true))) bad, meets (memReq hP .views (two [8] ++ one [2])) (tok (wat (.vstat hP 8 2 true))) bad].all id = true
    ∧ meets (memReq hQ .views (one [2])) (withView .active 1 (tok (wat (.vpol hQ 2 .stale)))) (ok fun _ => true) = true
    ∧ meets (memReq hP .views (two [8] ++ one [2])) (withView .active 1 (tok (wat (.vstat hP 8 2 true)))) (ok fun _ => true) = true
    ∧ meets (memReq hQ .views (one [2])) (tok (wat (.vsync hQ 0 2 true)))
      (fun x s => x.act ≠ [] && (tokenView s x.tm.ctx (siteTok x s 2)).isNone) = true
    ∧ meets (memReq hQ .views (one [2])) (withView .suspended 1 (tok (wat (.vsync hQ 0 2 true))))
      (ok fun v => v.state = .suspended) = true := by decide +kernel

/-- LDL and STL of an element of a view: fresh, stale under each policy, and suspended. -/
theorem witness_view_elements :
    let hold := fun (st : ViewState) gen pol (s : State) => withPol pol (withView st gen (mvPages (modTeam (setSlots [0xC002, 0xC005] s) T
      fun tm => { tm with binds := [(1, ⟨true, 1, recView⟩)] })) |> setRegs [(2, 17), (3, 14)] |> lone)
    let w := wat (.ldl hP 8 2 1)
    let on := fun (ok : State → Site → ElemPlace → Nat → Bool) (x : Site) (s : State) => x.act = [0] && match elemPlace s x 2 1 0 with
      | some p => recVid p.lay ≠ 0 && (sget x.g.cons 0).isNone && ok s x p 0
      | none => false
    let fresh := fun (s : State) (p : ElemPlace) => (sget s.contexts 0).any fun c => p.view.any fun e =>
      viewFresh c e.2 (viewBlock e.2 p.lay p.coord)
    let passing := fun (s : State) (x : Site) (p : ElemPlace) => (elemCheck s x p false).isNone
    let data := fun (v : ViewRead) => match v with | .data _ => true | .wait => false | .fault _ => false
    let stops := fun (v : ViewRead) => match v with | .fault _ => true | .data _ => false | .wait => false
    meets (ldlReq hP 8 2) (hold .active 1 .wait w) (on fun s x p l => fresh s p && passing s x p && data (ldlView s x p l)) = true
    ∧ meets (ldlReq hP 8 2) (hold .active 0 .wait w) (on fun s x p _ => !fresh s p && passing s x p) = true
    ∧ meets (ldlReq hP 8 2) (hold .active 0 .stale w) (on fun s x p l => !fresh s p && passing s x p && data (ldlView s x p l)) = true
    ∧ meets (ldlReq hP 8 2) (hold .active 0 .fault w) (on fun s x p l => !fresh s p && passing s x p && stops (ldlView s x p l)) = true
    ∧ meets (ldlReq hP 8 2) (hold .suspended 1 .wait w) (on fun s x p l => passing s x p && stops (ldlView s x p l)) = true
    ∧ retryMeets (ldlReq hP 8 2) (.ldl hP 8 2 1) (hold .active 1 .wait (waits w)) (on fun s x p l => passing s x p && data (ldlView s x p l)) = true
    ∧ meets (memReq hQ .stores (one [8] ++ [((2 : VReg).toNat, 6)])) (hold .active 1 .wait (wat (.stl hQ 8 2 1)))
      (on fun s x p _ => (elemCheck s x (stlPlace p) true).isNone) = true := by decide +kernel

theorem witness_refresh :
    let s := mvPages (withView .active 0 (wat (.nop gU)))
    (match (sget s.contexts 0).bind fun c => sget c.views 2 with
      | some v => v.live && v.state = .active && decide (sget v.queued 0 = some 1) &&
        (match skiverPlaces s 0 .ls false none ((blockElems v 0).map fun e => (e.2, v.mkind.esize)) with
          | .ok ps =>
            let vals := ((blockElems v 0).zip ps).map fun e => (e.1.1, masterVal v (memNat s.mem e.2.2.pa v.mkind.esize))
            let ws := blockWrites v 0 0x80 (vals.map fun e => (e.1, (viewCode (slotOf v.slot) 0x80 e.2).v))
            !(slotOf v.slot).scaled && !unitFrozen s .skiver 0 && unitFrozen (iceOn .skiver 0 s) .skiver 0 && passes (skiverPlaces s 0 .vw true none (ws.map fun w => (w.1, w.2.length)))
          | .error _ => false)
      | none => false) = true := by decide +kernel

/-! Work. -/

/-- The pool of the placed team's partition. -/
def withPool (r : Store ContRec) (s : State) : State :=
  modPart s 0 fun p => { p with spillBase := 0x14000, spillN := 2, pool := r }

theorem witness_work_words :
    meets (workReq hQ (two [2, 4])) (lone (wat (.spawn hQ 2 4 none))) (fun x s => x.act.all fun l => ((x.view s).r64 l 2).toNat % 8 = 0) = true
    ∧ meets (workReq hQ (two [2, 4])) (lone (wat (.spawn hQ 2 4 none) |> setRegs [(2, 4)]))
      (fun x s => x.act.any fun l => ((x.view s).r64 l 2).toNat % 8 ≠ 0) = true
    ∧ meets (workReq hP (two [6, 2, 4] ++ one [8])) (wat (.spawnc hP 6 2 4 8 (some 15)) |> setRegs [(8, 1)] |> lone |> withPool [])
      (fun x s => (x.act.all fun l => ((x.view s).r64 l 2).toNat % 8 = 0) && x.act ≠ []
        && (x.act.filter fun l => (x.view s).r l 8 ≠ 0).all fun l =>
          ((x.act.filter fun l => (x.view s).r l 8 ≠ 0).filter (· < l)).length + (gridOf s x).pool < 65536
          && (x.act.filter (· < l)).length < freeSpill (sgetD s.parts (gridOf s x).part default)) = true
    ∧ meets (workReq hQ (two [2])) (wat (.done hQ 2 0xFFFF) |> setRegs [(2, 0x14000)] |> lone |> withPool [])
      (fun x s => decide (stuckStores s x.t x.tids false = []) && x.act.all fun l =>
        (handleFault s (gridOf s x).part ((x.view s).r64 l 2)).isNone) = true := by decide +kernel

/-- A launch record of one team of 32 threads, as R325 lays it out. -/
def launchRecord : Nat :=
  0x8000 + 0x9000 * 2 ^ 192 + 32 * 2 ^ 320 + 1 * 2 ^ 336 + 1 * 2 ^ 352 + 1 * 2 ^ 368 + (8 * 2 ^ 417)
def launchPut (s : State) : State := putMem 0x200 56 launchRecord s

theorem witness_klaunch :
    meets (workReq hQ (two [2, 4])) (launchPut (wat (.klaunch hQ 2 4 true)) |> setRegs [(2, 0x200), (4, 0x400)] |> lone)
      (fun x s => x.act ≠ [] && decide (stuckStores s x.t x.tids false = []) && passes (klaunchRec s x ((x.view s).r64 x.lead 2)).1
        && passes (checkGlobal s x.tm.ctx ((x.view s).r64 x.lead 4) 8 .ls true)) = true := by decide +kernel

/-- An edge of 2 entries at 0x4000, described at 0x100. -/
def withEdge (prod cons : Nat) (s : State) : State :=
  putMem 0x100 64 (0x4000 + 1 * 2 ^ 64 + prod * 2 ^ 128 + cons * 2 ^ 160) (setRegs [(2, 0x100)] s)

theorem witness_edges :
    let ok := fun enq (x : Site) (s : State) => (edgeTodo x).all fun l => (edgeFault (edgesSeen 2 x s) x (fun l => (x.view s).r64 l 2) (edgeTodo x) enq l).isNone
    meets (edgeReq hQ (two [2] ++ [(8, 4)]) none) (lone (withEdge 1 0 (wat (.enq hQ 2 8 none))))
      (fun x s => decide (stuckStores (edgesSeen 2 x s) x.t x.tids false = []) && ok true x s && (enqRun 2 8 false x s).1.length = (edgeTodo x).length) = true
    ∧ meets (edgeReq hQ (two [2] ++ [(8, 4)]) (some 1)) (lone (withEdge 2 0 (wat (.enq hQ 2 8 (some 1)))))
      (fun x s => decide (stuckStores (edgesSeen 2 x s) x.t x.tids false = []) && ok true x s && (enqRun 2 8 true x s).1.length = (edgeTodo x).length) = true
    ∧ meets (edgeReq hP (two [2] ++ [(8, 4)]) none) (lone (withEdge 1 0 (wat (.deq hP 8 2 none))))
      (fun x s => ok false x s && (deqRun 2 false x s).1.length = (edgeTodo x).length) = true
    ∧ meets (edgeReq hP (two [2] ++ [(8, 4)]) none) (lone (withEdge 1 1 (wat (.deq hP 8 2 none))))
      (fun x s => ok false x s && !(edgeTodo x).isEmpty && (deqRun 2 false x s).1.isEmpty) = true
    ∧ meets (edgeReq hQ (two [2] ++ [(8, 4)]) none) (lone (withEdge 2 0 (wat (.enq hQ 2 8 none))))
      (fun x s => decide (stuckStores (edgesSeen 2 x s) x.t x.tids false = []) && ok true x s && (enqRun 2 8 true x s).1.any (·.2.isNone)) = true
    ∧ meets (edgeReq hP (two [2] ++ [(8, 4)]) (some 1)) (lone (withEdge 1 1 (wat (.deq hP 8 2 (some 1))))) (fun x s => ok false x s) = true
    ∧ retryMeets (edgeReq hQ (two [2] ++ [(8, 4)]) none) (.enq hQ 2 8 none) (waits (lone (withEdge 1 0 (wat (.enq hQ 2 8 none)))))
      (fun x s => decide (stuckStores (edgesSeen 2 x s) x.t x.tids false = []) && ok true x s && (enqRun 2 8 true x s).1.all (·.2.isSome)) = true
    ∧ retryMeets (edgeReq hP (two [2] ++ [(8, 4)]) none) (.deq hP 8 2 none) (waits (lone (withEdge 1 0 (wat (.deq hP 8 2 none)))))
      (fun x s => ok false x s && (deqRun 2 true x s).1.all (·.2.isSome)) = true := by decide +kernel

/-! Banks, joins and the matrix stream. -/

/-- A buffer of the placed team that is full: bytes 0x100 to 0x3FFF. -/
def fullBuf9 (s : State) : State := withBuf ⟨0x100, 0x3F00, .full, false, []⟩ s
def withBank (n : Nat) (b : Bank) (s : State) : State := modTeam s T fun tm => { tm with banks := [(n, b)] }
def hashBank : Bank := { hash := true, nbm1 := 7, ents := [(3, ⟨5, 9⟩)], res := 1, spilln := 0, spill := none, flags := 0 }
/-- A descriptor of n tuples at an offset (R287). -/
def desc (off n : Nat) : DWord := BitVec.ofNat 64 (off + n * 2 ^ 20)

theorem witness_bank_words :
    meetsSeq { guard := some xA, dc := 6 } (wat (.accz xA 7 (some 511))) (fun x s => !bankBusy s x.t 7) = true
    ∧ meetsSeq { guard := some xA, dc := 6 } (wat (.accsp xA 3 9) |> withBank 3 hashBank |> withBuf ⟨0x100, 256, .filling, false, []⟩)
      (fun x s => !bankBusy s x.t 3 && (bankOf x.tm 3).hash && (bufOf x.tm 9).size ≠ 0 && (bufOf x.tm 9).size % 256 = 0
        && (bufOf x.tm 9).size ≤ 131072 && (bankOf x.tm 3).spill ≠ some 9
        && (pickFault (checkDecl x.tm 0x100 256 .engW ++ spillFaults x.tm (bankOf x.tm 3))).isNone
        && passes (moveEntries 0x100 1 (spillEntries x.tm (bankOf x.tm 3)) (spSets x.tm.scratch 0x100 (List.replicate 256 0)))) = true
    ∧ meetsSeq { guard := some xA, gs := [63] } (wat (.acccnt xA 63 7))
      (fun x s => !bankBusy s x.t 7 && !drainOpen s x.t 7) = true := by decide +kernel

def ends (stop : Bool) (r : Team × Bank × JoinEnd) : Bool := (joinEnds stop r).isSome
/-- A debit can be made. -/
def covered (d : Nat) (x : SSite) (s : State) : Bool :=
  (sget s.contexts x.tm.ctx).any fun c => d = 0 || ((c.eq.isEmpty || c.eq.head? = some x.t) && min d c.cap ≤ c.budget)
/-- A context whose energy class 1 costs 1 a cycle, and whose budget is b. -/
def poor (b : Nat) (s : State) : State := modCtx { s with eccost := 0x0100 } 0 fun c => { c with cap := 100, budget := b }

theorem witness_join_words :
    let s := fun i => setSlots [0xC002] (fullBuf9 (setG [(2, desc 0x100 2), (3, desc 0x200 1)] (wat i)))
    let j : Instr := .jmac xA 1 2 3 0 0 1 0 false
    meetsSeq (jmacReq xA 1 2 3 0 0) (poor 1 (s j)) (fun x s => decide (sget s.teams x.t = some x.tm) && !bankShut s x.t 0
      && (jmacFault 1 2 3 0 x).isNone && covered (classCost s 1 * jmacCycles 1 2 3 x) x s && ends false (jmacRun 1 2 3 0 0 0 x)) = true
    ∧ meetsSeq (jmacReq xA 1 2 3 0 0) (poor 0 (s j)) (fun x s => !bankShut s x.t 0 && (jmacFault 1 2 3 0 x).isNone
      && !covered (classCost s 1 * jmacCycles 1 2 3 x) x s) = true
    ∧ meetsSeq (jinsReq xA 1 2 0) (s (.jins xA 1 2 0 0 false)) (fun x s => !bankShut s x.t 0 && (jinsFault 1 2 0 x).isNone
      && ends false (jinsRun 1 2 0 0 x)) = true
    ∧ (bankOf (default : Team) 0).hash = false
    ∧ (∀ e ∈ streamOf (default : Team) 0x100 2, e.1 < 64 ∧ e.2.1 < 64)
    ∧ ((streamOf (default : Team) 0x100 2).map Prod.fst).Pairwise (· ≤ ·) := by decide +kernel

/-- A join into a full bank in hash mode without a spill table: with `.stop` it ends where an addition finds no place. -/
theorem witness_join_full :
    let full : Bank :=
      { hash := true, nbm1 := 0, ents := (List.range 8).map fun i => (i, ⟨BitVec.ofNat 48 (i + 1), 9⟩), res := 8, spilln := 0,
        spill := none, flags := 0 }
    meetsSeq (jinsReq xA 1 2 0) (setSlots [0xC002] (fullBuf9 (setG [(2, desc 0x100 2)] (wat (.jins xA 1 2 0 0 true)))) |> withBank 0 full)
      (fun x _ => (jinsFault 1 2 0 x).isNone && ends true (jinsRun 1 2 0 0 x) && !ends false (jinsRun 1 2 0 0 x)) = true := by
  decide +kernel

theorem witness_drain_words :
    meetsSeq (drainReq xA 1 2 0) (setSlots [0xC002] (setG [(2, desc 0x100 0)] (withBuf ⟨0x100, 0x4000, .filling, false, []⟩
        (wat (.accdr xA 1 2 0 0 .dense true true)))))
      (fun x s => !bankBusy s x.t 0 && (drainFault 2 0 0 .dense true x).isNone) = true
    ∧ (sget (withOp (.drain 0 9 [(0x100, 1)] true) (wat (.nop gU))).ops 1).map (·.kind) = some (.drain 0 9 [(0x100, 1)] true)
    ∧ countEarly (withOp (.drain 0 9 [(0x100, 1)] true) (wat (.nop gU))) 1 = none := by decide +kernel

theorem witness_uniform_words :
    [Instr.gmov xA 63 1, .gmovi xA 0 0x80000000 .hi, .gadd xA 1 2 (.imm (-1)) true, .gmul xA 1 2 (.reg 3),
      .gshl xA 1 2 (.imm 63) .ra].all (fun i => match uniformWord i with
        | some (_, r, _) => meetsSeq r (wat i) fun _ _ => true
        | none => false) = true
    ∧ [Instr.gcmp xA 14 2 (.imm 5) .lt true, .gcmp xA 0 2 (.reg 3) .ge false, .qset xA 0 (.bit 63 63), .qset xA 14 (.const true),
      .qlop xA 3 15 14 true false 6].all (fun i => match tileWord i with
        | some (_, r, _) => meetsSeq r (wat i) fun _ _ => true
        | none => false) = true
    ∧ ((sget (wat .mend).teams T).bind (·.seq)).isSome := by decide +kernel

theorem witness_stream_control :
    meetsSeq { guard := some xA, dc := 6, gs := [1, 2] } (setG [(2, 0x100)] (wat (.gld xA 1 2 (-8) true)))
      (fun x _ => (checkSp x.tm 0xF8 8 .load .spTeam).isNone && (gRead x.tm 2).toNat = 0x100) = true
    ∧ meetsSeq { guard := some xA, dc := 6, gs := [1, 2] } (setG [(2, 0x100)] (wat (.gld xA 1 2 (-8) false)))
      (fun x s => passes (checkGlobal s x.tm.ctx (gRead x.tm 2 + (-8)) 8 .ls false)) = true
    ∧ meetsSeq { guard := some xA } (wat (.gbra xA (-1))) (fun _ _ => true) = true
    ∧ meetsSeq { guard := some xA, gs := [1] } (wat (.gloop xA 1 (-1))) (fun x _ => gRead x.tm 1 ≠ 1) = true
    ∧ meetsSeq { guard := some xA, gs := [1] } (setG [(1, 1)] (wat (.gloop xA 1 (-1)))) (fun x _ => gRead x.tm 1 = 1) = true
    ∧ meetsSeq {} (wat .mend) (fun _ _ => true) = true := by decide +kernel

/-- The placed team with its group a whole home group of the matrix role. -/
def matrixHome (s : State) : State := modTeam (withRole .matrix s) T fun tm => { tm with mgroups := 1 }
/-- Every stage of the four partitions holds eight planes. -/
def quarters (s : State) : State :=
  let q : Quarter := { planes := List.replicate 8 (List.replicate 32 0), scales := List.replicate 32 0x80 }
  modTeam s T fun tm => { tm with stages := (List.range 8).map fun k => (k, { cur := some q, reqs := [] }) }

theorem witness_quarters :
    meets { quarterReq hN [(1, 8), (9, 1)] with ok := fun _ => true } (matrixHome (wat (.qbind hN 1 9 true true 8))) (fun x _ => x.act ≠ [])
      = true
    ∧ meets { quarterReq hN [(1, 2)] with ok := fun _ => true } (matrixHome (wat (.qbind hN 1 9 false false 2))) (fun x _ => x.act ≠ [])
      = true
    ∧ meets (quarterReq hN []) (matrixHome (wat (.qrel hN true))) (fun x _ => x.act ≠ []) = true
    ∧ (let s := modTeam (wat (.nop gU)) T fun tm => { tm with stages := [(3, { cur := none, reqs := [{ op := 4, quarter := none }] })] };
      (((sget s.teams T).map fun tm => (stageOf tm 3).reqs) = some [{ op := 4, quarter := none }]
        ∧ (sget s.teams T).map (fun tm => stageRead s T tm 3 4) = some false)
      ∧ (let u := { s with ops := [(2, { (default : Op) with team := T, seq := true, kind := .matrix 7 [3] 9 [] 100 })] }
        (sget u.teams T).map (fun tm => stageRead u T tm 3 4) = some true)) := by
  decide +kernel

def seqWaitsEnergy (s : State) : State := { modSeq s T (fun q => { q with status := .energy }) with issuer := none }
def matrixState (i : Instr) : State :=
  setSlots [0xC581, 0x2581] (quarters (setG [(2, 0x100)] (fullBuf9 (wat i))))

/-- The checks of an MMA of slots 0 and 0, and of an SMMA of slots 1 and 0. -/
def matrixFits (smma : Bool) (fsa : FSlot) (x : SSite) (s : State) : Bool :=
  !bankShut s x.t 7 && !arraysBusy s x.t x.tm
    && (tileFault x.tm (gRead x.tm 2) (tileSize smma (slotOf (fsRead x.lr fsa)))).isNone && !(bankOf x.tm 7).hash
    && (badStage x.tm (!smma) smma (slotOf (fsRead x.lr 0)).planes).isNone
    && (!smma || (badIndex x.tm (0x100 + 4096 + tileZ (slotOf (fsRead x.lr 1))) (slotOf (fsRead x.lr 1)).nz).isNone)

theorem witness_matrix_words :
    let m : Instr := .mma xA 2 0 0 1 7 true
    let d := fun (x : SSite) (s : State) => classCost s 1 * mmaCycles (slotOf (fsRead x.lr 0)) (slotOf (fsRead x.lr 0))
    let n := fun (x : SSite) (s : State) => classCost s 1 * smmaCycles (slotOf (fsRead x.lr 1)) (slotOf (fsRead x.lr 0))
    let w := fun b => seqWaitsEnergy (poor b (matrixState m))
    meetsSeq (matrixReq xA 2 0 0 false) (poor 16 (matrixState m)) (fun x s => matrixFits false 0 x s && d x s = 16 && covered (d x s) x s) = true
    ∧ meetsSeq (matrixReq xA 2 0 0 false) (poor 15 (matrixState m)) (fun x s => matrixFits false 0 x s && !covered (d x s) x s) = true
    ∧ meetsSeq (matrixReq xA 2 1 0 true) (poor 16 (matrixState (.smma xA 2 1 0 1 7)))
      (fun x s => matrixFits true 1 x s && n x s ≠ 0 && covered (n x s) x s) = true
    ∧ meetsSeq (matrixReq xA 2 1 0 true) (poor 0 (matrixState (.smma xA 2 1 0 1 7)))
      (fun x s => matrixFits true 1 x s && !covered (n x s) x s) = true
    ∧ (((ssiteOf (w 16) T).map (·.q.status)) = some .energy ∧ issuerInstr (w 16) (.seq T) = some m
      ∧ meetsSeq (matrixReq xA 2 0 0 false) (retryAt (w 16) (.seq T)) (fun x s => matrixFits false 0 x s && covered (d x s) x s) = true)
    ∧ (let v := seqWaitsEnergy (poor 16 (matrixState (.smma xA 2 1 0 1 7)))
      issuerInstr v (.seq T) = some (.smma xA 2 1 0 1 7)
      ∧ meetsSeq (matrixReq xA 2 1 0 true) (retryAt v (.seq T)) (fun x s => matrixFits true 1 x s && covered (n x s) x s) = true) := by
  decide +kernel

theorem witness_debits :
    (let s := withOp (.matrix 7 [] 9 (List.replicate 4096 0) 0) (wat (.nop gU));
      (sget s.ops 1).any (fun o => match o.kind with
        | .matrix _ ks _ l e => l.length = 4096 && e ≤ s.cycle && (sget s.teams T).any fun tm => stagesLatched tm 1 ks
        | _ => false) = true)
    ∧ (∃ c, sget { modCtx (wat (.nop gU)) 0 (fun c => { c with refill := 5, cap := 100 }) with cycle := 1250 }.contexts 0 = some c
      ∧ c.refills < timeOf { wat (.nop gU) with cycle := 1250 } / 1000) := by
  refine ⟨by decide +kernel, ⟨_, rfl, by decide +kernel⟩⟩

/-- A team with a stream, a matrix-role home group, and a trap of the sequencer that has not been delivered. -/
def trapped (s : State) : State :=
  modTeam (seqAt (matrixHome s)) T fun tm =>
    { tm with seq := tm.seq.map fun q => { q with trap := some ⟨2, hpcWord 0x8000 0, 0, 0, none⟩ } }

theorem witness_sequencer_traps :
    let ok := fun (s : State) (f : Team → Bool) => (sget s.teams T).any fun tm =>
      teamRuns s tm && ((tm.seq.bind (·.trap)).any fun q => q.slot.isNone) && f tm
    ok (trapped (wat (.nop gU))) (fun tm => decide ((liveOf tm .matrix).head? = some 0) && decide (slotWith tm 0 = some 0) && tm.htvec ≠ 0
      && (sget tm.groups 0).any fun g => !g.handler && g.transfer.isNone) = true
    ∧ ok (withRole .vector (trapped (wat (.nop gU)))) (fun tm => (liveOf tm .matrix).isEmpty) = true := by decide +kernel

/-! Packets. -/

/-- A queue of context 0 in partition 0: its descriptor at 0x800 and its ring of 16 slots at 0x4000, one packet written. -/
def queueDesc : Nat := 0x4000 + 4 * 2 ^ 72 + 1 * 2 ^ 96
def queue0 : Queue :=
  { ctx := 0, part := 0, priv := true, desc := 0x800, base := 0x4000, logn := 4, status := .idle, inval := [], listed := false,
    staged := [], code := [], grids := [] }
def withQueue (s : State) : State := { putMem 0x800 64 queueDesc s with queues := [(5, queue0)], issuer := some (.packet 5) }
def turn : State := withQueue (wat (.nop gU))

theorem witness_packets_run :
    sget turn.queues 5 = some queue0 ∧ turn.issuer = some (.packet 5) ∧ queue0.grids = []
    ∧ passes (cpSignal turn 0 .umax 0xFFF8 7) = true ∧ passes (cpWrite turn 0 0xFFF8 (natLe 8 0)) = true
    ∧ passes (fenceHolds turn 0 [⟨0x100, .eq, 0⟩, ⟨0x108, .ltS, 0⟩]) = true
    ∧ passes (packetEdge (putMem 0x100 64 (0x4000 + 1 * 2 ^ 64) turn) 0 0x100) = true
    ∧ (sgetD turn.parts 0 default).clusters ≠ []
    ∧ passes (launchCheck (launchPut turn) queue0 0x200 (.add 0x400 1)) = true
    ∧ passes (launchCheck turn queue0 0x200 .none) = false
    ∧ passes (cpSignal turn 0 .add 0x10000000 7) = false ∧ turn.replay = []
    ∧ (descPlace turn queue0).isSome ∧ descPlace turn { queue0 with desc := 0x10000000 } = none := by decide +kernel

/-- Grids whose LAUNCH has records to write: alone, and behind an earlier one of the partition. -/
def launching (l : List Nat) : State :=
  let s := wat (.nop gU)
  { modPart s 0 fun p => { p with ready := [] } with
    grids := l.map fun n => (n, { sgetD s.grids 1 default with queue := some 5, written := 0 }) }

theorem witness_launch_writes :
    let g := sgetD (launching [2]).grids 2 default
    sget (launching [2]).grids 2 = some g ∧ g.written < gridRecs g.lrec ∧ mayWrite (launching [2]) 2 g = true
    ∧ sget (launching [1, 2]).grids 2 = some g ∧ mayWrite (launching [1, 2]) 2 g = false
    ∧ (sget (launching [1, 2]).grids 1).any (fun e => decide (e.part = g.part) && e.queue.isSome && decide (e.written < gridRecs e.lrec)) = true := by
  decide +kernel

/-- The same with a LAUNCH of the record at 0x200 at RPTR. -/
def launchTurn : State := putMem 0x4000 64 (1 + 0x200 * 2 ^ 64) (launchPut turn)

theorem witness_queues_take_turns :
    let u := queue0
    sget turn.queues 5 = some u ∧ u.status = .idle ∧ turn.served = []
    ∧ queueErr (putMem 0x815 1 5 turn) u = 0 ∧ queueErr (putMem 0x814 1 5 turn) u ≠ 0
    ∧ ((sget (modQueue turn 5 fun u => { u with status := .waiting }).queues 5).map (·.status)) = some .waiting
    ∧ packetReady { turn with queues := [(5, u), (6, u)], served := [5] } 6 = true
    ∧ (match packetAt turn u (stageFrom u.staged (queueRptr turn u)) with
      | .ok (some bs) => decide (packetInstr 5 bs = some (.packetNop 5 0 false)) && !queueStopped turn u && !launchWithBar bs
      | .ok none => false
      | .error _ => false) = true
    ∧ (match packetAt launchTurn u (stageFrom u.staged (queueRptr launchTurn u)) with
      | .ok (some bs) => decide (packetInstr 5 bs = some (.launch 5 false 0x200 .none)) && !queueStopped launchTurn u
          && (match launchBytes launchTurn { u with staged := [] } 0x200 with
            | .ok (r, tb) => (parseLaunch 0x200 (leNat r) (tableWords (tb.length / 8) tb)).isSome
            | .error _ => false)
      | .ok none => false
      | .error _ => false) = true := by decide +kernel

/-- A packet's step: the NOP at RPTR. -/
theorem witness_packet_step : (match fetchPacket turn 5 with | .word i => decide (i = .packetNop 5 0 false) | .state _ => false) = true := by
  decide +kernel

/-! Groups, teams, saves. -/

/-- The placed word's group has no clause yet; the same of a sequencer. -/
def unfetched (s : State) : State := modTeam s T fun tm => modGroup tm 0 fun g => { g with clause := none }

theorem witness_fetches :
    let f := fun s (x : Site) => fetchClause s x.tm.ctx x.tm.core x.tm.staged x.g.pc false (x.g.handler || x.lr.priv)
    (let s := unfetched (wat (.nop gU));
      (siteOf s T 0 gU).any (fun x => x.g.clause.isNone && teamRuns s x.tm && x.g.status ≠ .yielded
        && match f s x with | .ok (c, _) => x.g.wix < c.words.length | .error _ => false) = true)
    ∧ (let s := modTeam (unfetched (wat (.nop gU))) T fun tm => modGroup tm 0 fun g => { g with wix := 15 };
      (siteOf s T 0 gU).any (fun x => x.g.clause.isNone && teamRuns s x.tm && x.g.status ≠ .yielded
        && match f s x with | .ok (c, _) => c.words.length ≤ x.g.wix | .error _ => false) = true)
    ∧ (let s := modSeq (modTeam (wat .mend) T fun tm => { tm with staged := [] }) T fun q => { q with clause := none, pc := 0x20000 };
      (ssiteOf s T).any (fun x => x.q.clause.isNone && x.q.trap.isNone && teamRuns s x.tm && x.q.status ≠ .ended
        && !passes (fetchClause s x.tm.ctx x.tm.core x.tm.staged x.q.pc true false)) = true)
    ∧ (let s := modTeam (unfetched (wat (.nop gU))) T fun tm => modGroup tm 0 fun g => { g with pc := 0x20000 };
      (siteOf s T 0 gU).any (fun x => x.g.clause.isNone && teamRuns s x.tm && !passes (f s x)) = true)
    ∧ (let s := modSeq (wat .mend) T fun q => { q with clause := none };
      (ssiteOf s T).any (fun x => x.q.clause.isNone && x.q.trap.isNone && teamRuns s x.tm && x.q.status ≠ .ended
        && match fetchClause s x.tm.ctx x.tm.core x.tm.staged x.q.pc true false with
          | .ok (c, _) => x.q.wix < c.words.length
          | .error _ => false) = true) := by decide +kernel

/-- The placed team without groups, its threads waiting in one entry of the frontier. -/
def waitingTeam (held : Bool) : State :=
  modTeam (wat (.nop gU)) T fun tm => { tm with
    groups := [], front := [{ role := .vector, prio := 0, addr := 0x8000, held := held, threads := (List.range 32).map fun i => (i, 0) }] }

theorem witness_formation :
    (match (let s := waitingTeam false; s.teams.filter fun e => e.2.core = 0 && teamRuns s e.2 && formable e.2 ≠ []) with
      | a :: l =>
        let (t, tm) := l.foldl servedFirst a
        t = T && decide (sget (waitingTeam false).teams t = some tm)
          && (chooseEntry (tm.nform + 1) (formable tm)).any fun e => decide ((e.threads.map Prod.fst).Nodup)
            && (chooseSlot tm e.role ((e.threads.take 32).map Prod.fst)).isSome
      | [] => false) = true
    ∧ (let t := waitingTeam true
      (sget t.teams T).any fun tm => teamRuns t tm && (releasable t tm .vector).any fun e =>
        e.threads.length = (liveOf tm e.role).length && goesHome tm e) = true
    ∧ (let t := modTeam (waitingTeam true) T fun tm => { tm with front := tm.front.map fun e => { e with threads := e.threads.take 2 } }
      (sget t.teams T).any fun tm => (releasable t tm .vector).all (fun e => !goesHome tm e) && !(releasable t tm .vector).isEmpty
        && decide ((releasable t tm .vector).flatMap FrontEntry.tids).Nodup) = true := by decide +kernel

/-- The placed team on a core that a deterministic team has alone. -/
def lockstep : State :=
  let s := wat (.nop gU)
  { s with grids := smod s.grids 1 fun g => { g with lrec := { g.lrec with determ := true } } }

theorem witness_selection :
    (∀ e ∈ teamsOn (wat (.nop gU)) 0, (lrecOf (wat (.nop gU)) e.2).determ = false) ∧ teamsOn (wat (.nop gU)) 0 ≠ []
    ∧ (let u := wat .mend
      ((teamsOn u 0).find? fun e => e.2.seq.isSome).any fun e => (ssiteOf u e.1).any (canIssueSeq u)) = true
    ∧ ((sget lockstep.teams T).any fun tm => dueTeams lockstep 0 0 = [(T, tm)] && (laneHeld lockstep 0 0).isNone
      && (candidates lockstep 0 0).isEmpty && rotSlot tm 0 = some 0 && (sgetD tm.groups 0 default).status = .ready
      && (let s1 := rotAt lockstep 0 0 ((tm.slotPhys.getD 0 0 + 15) % 16); (siteOf s1 T 0 gU).any (canIssue s1))) = true
    ∧ (let u := modTeam lockstep T fun tm => { tm with turn := 1 }
      (sget u.teams T).any fun tm => dueTeams u 0 1 = [(T, tm)] && (laneHeld u 0 1).isNone
        && (candidates u 0 1).isEmpty && (rotSlot tm 1).isNone) = true := by decide +kernel

/-- A record of the placed grid at the head of partition 0. -/
def readyTeam : State :=
  let r : ContRec := { (default : ContRec) with grid := 1, kind := .team, code := 0x8000, tidx := 0 }
  let s := modPart (wat (.nop gU)) 0 fun p => { p with ready := [r] }
  { s with teams := [], grids := smod s.grids 1 fun g => { g with lrec := { g.lrec with smin := 0, smax := 0, budV := 8, budC := 8, budM := 8 } } }

theorem witness_placement :
    (match partOfCluster readyTeam (coreCluster 0) with
      | some (part, p) => part = 0 && !p.paused && p.moves.isEmpty && !(getDie readyTeam (coreDie 0)).fenced
        && match headRec readyTeam p with
          | some r => decide (recNow readyTeam part r = some r) && (sget readyTeam.grids r.grid).any fun g => r.kind = .team && g.lrec.tcl = 1
            && coreFits readyTeam (shapeOf g.lrec false) (g.lrec.stream ≠ 0) g.lrec.smin 0
          | none => false
      | none => false) = true := by decide +kernel

/-- The placed team with every thread ended. -/
def endedTeam : State :=
  modTeam (wat (.nop gU)) T fun tm => { tm with groups := [], threads := tm.threads.map fun e => (e.1, { e.2 with live := false }) }

theorem witness_completion :
    (sget endedTeam.teams T).any (fun tm => teamRuns endedTeam tm && (tm.threads.all fun e => !e.2.live) && tm.seq.isNone
      && decide (endedTeam.ops = []) && decide (endedTeam.coal = [])) = true
    ∧ (({ endedTeam with coal := [hst 0x18004 [1, 2] true] }).coal.find? fun h => h.team = T && h.held) = some (hst 0x18004 [1, 2] true)
    ∧ (let s := { endedTeam with grids := smod endedTeam.grids 1 fun g => { g with done := 1, cop := .add 0x400 1 } };
      (sget s.grids 1).any (fun g => gridDone s g && passes (cpSignal (forkAll s g.ctx) g.ctx .add 0x400 1)) = true)
    ∧ (let s := { endedTeam with grids := smod endedTeam.grids 1 fun g => { g with done := 1 } };
      (sget s.grids 1).any (fun g => gridDone s g && g.cop = .none) = true)
    ∧ (let s := { endedTeam with grids := smod endedTeam.grids 1 fun g => { g with done := 1, cop := .write 0x400 1 } };
      (sget s.grids 1).any (fun g => gridDone s g && passes (cpSignal (forkAll s g.ctx) g.ctx .write 0x400 1)) = true) := by decide +kernel

/-- The placed team alone in its cluster, asked to leave, and one of its cluster's save slots. -/
def asked (saving : Option ImageKind) (s : State) : State :=
  modPart (modTeam s T fun tm => { tm with preq := true, mates := [T], saving := saving }) 0 fun p => { p with savePool := [0x400000] }

theorem witness_saves : (1000 ≤ 1000 ∧ 1000 ≤ 1000000) ∧ (1000 ≤ 1000000 ∧ 1000000 ≤ 1000000) ∧
    (sget (asked none (wat (.nop gU))).teams T).any (fun tm => decide (tm.mates = [T]) && tm.saving.isNone
      && !(lrecOf (asked none (wat (.nop gU))) tm).determ) = true
    ∧ (let s := asked none (modTeam (wat (.nop gU)) T fun tm => modGroup tm 0 fun g => { g with status := .yielded });
      (sget s.teams T).any (fun tm => tm.saving.isNone && tm.preq && teamRuns s tm && clusterSafe s tm) = true)
    ∧ (let s := asked none (wat (.nop gU));
      (sget s.teams T).any (fun tm => tm.saving.isNone && tm.preq && tm.reqAt + tm.pdeadline ≤ s.cycle && teamRuns s tm
        && !clusterSafe s tm && !(lrecOf s tm).determ) = true)
    ∧ (let s := asked (some .forced) (wat (.nop gU));
      (sget s.teams T).any (fun tm => slotsOf s tm = 1 && tm.member = 0 && quiesced s T tm && teamLives s tm && tm.mates = [T]
        && (sget s.parts (sgetD s.grids tm.grid default).part).any fun p => p.ready.length < 4096 && decide (poolRun p 1 = some 0x400000)) = true) := by decide +kernel

/-! Images in memory. -/

/-- A forced save of the placed team without its threads, beside a record of it at the head of partition 0. -/
def emptied : Image :=
  { (default : Image) with
      kind := .forced, num := 9,
      team := { (sgetD (wat (.nop gU)).teams T default) with groups := [], threads := [], front := [], seq := none, sems := [], scratch := [], spsize := 0 } }
def savedState : State :=
  let r : ContRec := { (default : ContRec) with grid := 1, kind := .saved, code := 0x400001 }
  { modPart readyTeam 0 (fun p => { p with ready := [r] }) with images := [(0x400000, emptied)] }

/-- An image that stands in memory as it was written, and one whose header is 0. -/
theorem witness_images :
    (let s := { savedState with mem := memSets savedState.mem 0x400000 (imageBytes emptied emptied) };
      (imageAt s 0x400000 emptied = some emptied ∧ (coreSlots s 0 emptied.team emptied.team.seq.isSome).isSome = true
        ∧ coreFits s emptied.team emptied.team.seq.isSome emptied.team.spsize 0 = true ∧ sget s.images 0x400000 = some emptied
        ∧ emptied.held = []))
    ∧ imageAt { savedState with mem := [] } 0x400000 emptied = none
    ∧ (match partOfCluster savedState (coreCluster 0) with
      | some (part, p) => part = 0 && !p.paused && p.moves.isEmpty && !(getDie savedState (coreDie 0)).fenced
        && match headRec savedState p with
          | some r => decide (recNow savedState part r = some r) && (sget savedState.grids r.grid).any fun g => r.kind = .saved && g.lrec.tcl = 1
            && r.code = BitVec.ofNat 64 (0x400000 + 1)
          | none => false
      | none => false) = true := by
  refine ⟨⟨?_, ?_, ?_, rfl, rfl⟩, ?_, by decide +kernel⟩
  · unfold imageAt
    simp only [Laws.memBytes_memSets]
    rw [Laws.image_reads_back emptied rfl rfl rfl rfl rfl (by decide)]
    · simp
    · exact Laws.length_imageBody emptied rfl rfl rfl (by decide)
  · decide +kernel
  · decide +kernel
  · exact Laws.imageAt_zero _ _ _ rfl

/-! Requests to the management controller, and the package. -/

/-- The placed machine after its bring-up, with clusters 0 and 1 in service. -/
def ready : State :=
  let s := wat (.nop gU)
  { s with bringUp := false, identity := { s.identity with clmask := 3, pkgid := 1 } }
def readyEmpty : State := { ready with teams := [], contexts := [] }

theorem witness_contexts_partitions :
    contextOk ready 0 (0x20000 + 1 * 2 ^ 192 + 4 * 2 ^ 208 : Nat) = true
    ∧ (let s := { putMem 0x800 64 queueDesc ready with queues := [] }
      s.bringUp = false ∧ sget s.queues 5 = none ∧ (match cpPlaces s 0 false 0x800 64 with
        | .ok ps => queueOk s 0 (memNat s.mem (placeAt ps 0x800).pa 64)
        | .error _ => false) = true)
    ∧ ready.bringUp = false ∧ sget ready.parts 7 = none ∧ clustersOk ready 7 [1] = true
    ∧ physOk ready 7 0x200000 (64 * 2 ^ 16) = true
    ∧ (∃ p, sget ready.parts 0 = some p ∧ p.moves = [] ∧ clustersOk ready 0 [0, 1] = true ∧ ∀ c ∈ p.clusters, c ∉ [0, 1] → clusterEmpty ready c = true)
    ∧ (∃ p, sget readyEmpty.parts 0 = some p ∧ (∀ c ∈ p.clusters, clusterEmpty readyEmpty c = true) ∧ p.ready = [] ∧ p.pool = [] ∧ p.moves = []
      ∧ (∀ e ∈ readyEmpty.contexts, e.2.part ≠ 0) ∧ ∀ e ∈ readyEmpty.queues, e.2.part ≠ 0)
    ∧ (let s := { readyEmpty with parts := sset readyEmpty.parts 1 default };
      ∃ p q, sget s.parts 0 = some p ∧ sget s.parts 1 = some q ∧ p.moves = [] ∧ 0 ∈ p.clusters ∧ clusterEmpty s 0 = true) := by
  refine ⟨by decide +kernel, by decide +kernel, by decide, by decide, by decide, by decide, ⟨_, rfl, by decide⟩, ⟨_, rfl, by decide⟩,
    ⟨_, _, rfl, rfl, by decide⟩⟩

/-- A copy that has translated its source and has not read it. -/
def olding : State :=
  let e : CopyElem :=
    { (default : CopyElem) with moves := [⟨.sp 0, .home ⟨0x100, 0x10100, 3, true, 0, false⟩⟩] }
  withOp (.copy 3 0 [e] []) ready

theorem witness_resources :
    oldAccess ready 0 0 (2 ^ 52) = false ∧ dieEmpty readyEmpty 0 = true
    ∧ (∃ p, sget ready.parts 0 = some p ∧ ∀ a ∈ p.usedSlots, a ∈ [0, 2 ^ 22, 2 ^ 23, 3 * 2 ^ 22])
    ∧ (∀ a ∈ [0, 2 ^ 22, 2 ^ 23, 3 * 2 ^ 22], physOk ready 0 a (2 ^ 22) = true) ∧ physOk ready 0 0x40000 1 = true
    ∧ (let s := { ready with tlb := [(0, [⟨0, 0, 16, 0⟩])] }; sgetD s.tlb 0 [] = [⟨0, 0, 16, 0⟩])
    ∧ oldAccess olding 0 0 (2 ^ 52) = true
    ∧ [0, 2 ^ 22, 2 ^ 23, 3 * 2 ^ 22].Nodup ∧ (∀ a ∈ [0, 2 ^ 22, 2 ^ 23, 3 * 2 ^ 22], a % 2 ^ 22 = 0)
    ∧ (∃ c, sget ready.contexts 0 = some c) ∧ sget ready.channels 63 = none := by
  refine ⟨by decide, by decide, ⟨_, rfl, by decide⟩, by decide +kernel, by decide, by decide, by decide, by decide, by decide, ⟨_, rfl⟩, by decide⟩

theorem witness_debug :
    let stop := fun p s => modCore s 0 fun c => { c with sel := [(p, { (default : Sel) with stopped := true })] }
    (teamsOn (modCtx ready 0 fun c => { c with debug := true }) 0).all (fun e =>
      (sget (modCtx ready 0 fun c => { c with debug := true }).contexts e.2.ctx).any fun c => c.debug) = true
    ∧ (sget (stop 0 ready).teams T).any (fun tm => (sget tm.threads 31).isSome && threadStopped (stop 0 ready) tm 31) = true
    ∧ (sget (stop 4 (wat .mend)).teams T).any (fun tm => tm.seq.isSome && debugStopped (stop 4 (wat .mend)) tm.core 4) = true
    ∧ teamsOf readyEmpty [0] = [] ∧ readyEmpty.contexts = []
    ∧ (let s := { ready with dies := [(0, { (default : Die) with fenced := true })], coal := [hst 0x18004 [1, 2] false] }
      (teamsOf s [0]).map Prod.fst = [T] ∧ ((teamsOf s [0]).all fun e =>
        decide (sget s.teams e.1 = some e.2) && (getDie s (coreDie e.2.core)).fenced && quiesced s e.1 e.2) = true
      ∧ ∀ e ∈ s.contexts, ∀ v ∈ e.2.views, v.2.queued = []) := by decide +kernel

theorem witness_outside :
    let s := modCtx { ready with channels := [(63, { ctx := 0, frozen := false })] } 0 fun c => { c with fabric := true }
    (sget s.channels 63).any (fun c => !c.frozen) = true ∧ s.replay = [] ∧ s.identity.pkgid ≠ 0
    ∧ (sget s.contexts 0).any (fun c => c.fabric) = true
    ∧ passes (cpRead s 0 0xFFF8 8) = true ∧ passes (cpRead s 0 0x20000 8) = false ∧ passes (extWrite s 0 0xFFF8 [1, 2]) = true ∧ passes (extWrite s 0 0x20000 [1, 2]) = false
    ∧ replaying s 0 = false ∧ replaying { s with replay := [.host 63 0 (.write 0 [1])] } 0 = true
    ∧ passes (cpPlaces s 0 true 0xFFFE 2) = true ∧ (0xFFFE + 2 - 1) / 65536 = 0xFFFE / 65536 ∧ State.reset.identity.pkgid = 0 := by
  decide +kernel

theorem witness_errors_faults :
    unitIdle ready (.cluster 1) = true ∧ unitIdle ready (.cluster 0) = false ∧ lineOf 0x12345 ∉ ready.poison ∧ ready.keeping = []
    ∧ (let cp : Checkpoint := { (default : Checkpoint) with covers := [0], mem := [(5, 1)] };
      let s := { readyEmpty with keeping := [cp] };
      s.keeping = [cp] ∧ s.parts ≠ [] ∧ (∀ e ∈ s.parts, e.1 ∈ cp.covers) ∧ partsOn s 0 = s.parts.map Prod.fst ∧ (s.journal.filter fun j => !isPacket j) = [] ∧ s.replay = []) := by decide +kernel

theorem witness_directory :
    let e : DirEntry := { base := 0, size := 32768, owner := none, sharers := [2], l1s := [], used := 0 }
    let s := { ready with cycle := 1048576, dir := [(dirKey 0 0, e), (dirKey 32768 0, { e with base := 32768 })] }
    dirAt ready 0x12345 = none ∧ (dirOf ready (dieOf 0x12345)).length < 262144
    ∧ sget s.dir (dirKey 0 0) = some e ∧ sget s.dir (dirKey (0 + 32768) 0) = some { e with base := 32768 }
    ∧ 2 * 32768 ≤ 65536 ∧ max e.used e.used + 1048576 ≤ s.cycle := by decide +kernel

/-- A region of 64 KiB that a die and two clusters share, and an entry of one line. -/
def sharedDir : State :=
  let e : DirEntry := { base := 65536, size := 65536, owner := none, sharers := [1], l1s := [3, 12], used := 0 }
  let s := modDie ready 1 fun d => { d with rdcCfg := 1 }
  { s with dir := [(dirKey 65536 0, e)] }

theorem witness_directory_hits :
    (∃ n e, DirSound sharedDir ∧ dirAt sharedDir 0x12345 = some (n, e) ∧ 12 ∈ e.l1s ∧ 1 ∈ e.sharers ∧ 5 ∉ e.l1s ∧ dirEmpty e = false
      ∧ e.owner ≠ some 1 ∧ (dirOf sharedDir (dieOf 0x12345)).length + 9 ≤ 262144)
    ∧ 1 ≠ dieOf 0x12345 ∧ (getDie sharedDir 1).rdcCfg ≠ 0 := by
  refine ⟨⟨_, _, ⟨by decide, ?_, by decide⟩, rfl, by decide, by decide, by decide, by decide, by decide, by decide⟩, by decide, by decide⟩
  intro e h
  have h : e = _ := List.mem_singleton.mp h
  subst h
  exact ⟨by decide, ⟨16, by decide⟩, by decide⟩

/-- A snoop filter of n entries of one line each. -/
def fullDir (n : Nat) : List (Nat × DirEntry) :=
  (List.range n).map fun k => (dirKey (128 * (k + 1)) 0, { base := 128 * (k + 1), size := 128, owner := none, sharers := [], l1s := [3], used := k })

theorem fullDir_sound (n : Nat) (hn : n < 2 ^ 29) : DirSound { ready with dir := fullDir n } ∧ dirAt { ready with dir := fullDir n } 0 = none
    ∧ (dirOf { ready with dir := fullDir n } (dieOf 0)).length = n := by
  have mem : ∀ e ∈ fullDir n, ∃ k < n, e = (dirKey (128 * (k + 1)) 0,
      { base := 128 * (k + 1), size := 128, owner := none, sharers := [], l1s := [3], used := k }) := by
    intro e h
    obtain ⟨k, hk, rfl⟩ := List.mem_map.mp h
    exact ⟨k, List.mem_range.mp hk, rfl⟩
  have die : ∀ k < n, dieOf (128 * (k + 1)) = 0 := by
    intro k hk
    have h1 : 128 * (k + 1) < 2 ^ 37 := by omega
    simp only [dieOf, nbits, Nat.div_eq_of_lt h1, Nat.zero_mod]
  refine ⟨⟨?_, ?_, ?_⟩, ?_, ?_⟩
  · simp only [fullDir, List.map_map, List.pairwise_map]
    exact List.Pairwise.imp (fun h => by simp only [Function.comp, dirKey]; omega) List.pairwise_lt_range
  · intro e h
    obtain ⟨k, hk, rfl⟩ := mem e h
    exact ⟨by simp only [die k hk], ⟨7, by decide, by decide, rfl⟩, by simp only; omega⟩
  · intro e he f hf hne
    obtain ⟨j, _, rfl⟩ := mem e he
    obtain ⟨k, _, rfl⟩ := mem f hf
    simp only [dirKey, ne_eq] at hne ⊢
    omega
  · refine List.find?_eq_none.mpr fun e h => ?_
    obtain ⟨k, _, rfl⟩ := mem e h
    simp
  · have : (fullDir n).filter (fun e => e.1 % 4 = dieOf 0) = fullDir n := by
      refine List.filter_eq_self.mpr fun e h => ?_
      obtain ⟨k, _, rfl⟩ := mem e h
      exact decide_eq_true (show (4 * (128 * (k + 1)) + 0) % 4 = 0 by omega)
    exact (congrArg List.length this).trans (by simp only [fullDir, List.length_map, List.length_range])

/-- A full snoop filter. -/
theorem witness_directory_full : DirSound { ready with dir := fullDir 262144 } ∧ dirAt { ready with dir := fullDir 262144 } 0 = none
    ∧ 262144 ≤ (dirOf { ready with dir := fullDir 262144 } (dieOf 0)).length := by
  have h := fullDir_sound 262144 (by omega)
  exact ⟨h.1, h.2.1, h.2.2.ge⟩

theorem witness_cores :
    State.reset.bringUp = true ∧ ready.bringUp = false ∧ teamsOn readyEmpty 0 = []
    ∧ (physGroup ready 0 0 0).isSome = true
    ∧ (let s := modCore readyEmpty 0 fun c => { c with lastExit := [(0, 0x8000)] };
      physGroup s 0 0 0 = none ∧ sget (getCore s 0).lastExit (16 * 0 + 0) = some 0x8000)
    ∧ (let s := modCore ready 0 fun c => { c with trace := { c.trace with on := true, synced := true } };
      (getCore s 0).trace.on = true ∧ (getCore s 0).trace.synced = true ∧ (getCore s 0).trace.since < 4096)
    ∧ (getCore { ready with cycle := 65536 } 0).rebal < (65536 - (getCore ready 0).cycBase) / 65536
    ∧ (let s := modCore { readyEmpty with cycle := 1024 } 0 fun c => { c with trace := { c.trace with sample := true, k := 10 } };
      (getCore s 0).trace.sample = true
      ∧ (sgetD (getCore s 0).sel 0 default).sample / 16 < (s.cycle - (getCore s 0).cycBase) / 2 ^ (getCore s 0).trace.k
      ∧ sget (getCore s 0).lastExit 0 = none ∧ physGroup s 0 0 0 = none)
    ∧ (let s := modCore ready 0 fun c => { c with trace := { c.trace with on := true } };
      (getCore s 0).trace.on = true ∧ (getCore s 0).trace.synced = false) := by decide +kernel

/-! Operations of class L, and retiring. -/

theorem witness_operations :
    meets (aluReq hA (one [1, 2])) (wat (.fsin hA 1 2 true)) (fun x s => decide ((sget s.teams x.t).any (fun tm => tm.groups = x.tm.groups) = true)
      && decide ((sget x.tm.groups x.k) = some x.g) && decide (memberTids x.g).Nodup && !(getCore s x.tm.core).trace.on) = true
    ∧ (let s := { wat (.nop gU) with ops := [(1, { (default : Op) with team := T, tids := [0, 31], dc := 5, kind := .flags [(0, 1)] })] };
      (sget s.ops 1).any (fun o => !o.seq && o.kind = .flags [(0, 1)] && decide o.tids.Nodup && (sget s.teams o.team).any fun tm =>
        o.tids.all fun t => (sget tm.threads t).isSome) = true) := by decide +kernel


/-- A site whose threads have arrived results, of both modes, and flags in flight that the word depends on. -/
theorem witness_arrivals :
    let late := fun (h : Bool) => modTeam (wat (.iadd hA 1 2 3 ⟨none, false, true⟩)) T fun tm =>
      { modGroup tm 0 (fun g => { g with handler := h }) with threads := tm.threads.map fun e => (e.1, { e.2 with
          pend := [{ (default : PendingWrite) with reg := 1, win := 0, arr := true, value := 7, hnd := false },
            { (default : PendingWrite) with reg := 2, win := 0, arr := true, value := 9, hnd := true }],
          late := [⟨9, 1, [2], []⟩, ⟨9, 2, [], [3]⟩] }) }
    [false, true].all (fun h => (siteOf (late h) T 0 gU).any fun x => decide ((sget (late h).teams x.t).map (·.threads) = some x.tm.threads)
      && decide ((memberLanes x.g).Nodup ∧ (memberTids x.g).Nodup) && (memberLanes x.g).all fun l =>
        (sget x.tm.threads (sgetD x.g.members l 0)).any fun th => (dueNow x.g.handler th).length = (if x.g.handler then 1 else 2) && th.late.length = 2) = true := by
  decide +kernel

/-! ## Single instructions on small states; results by hand from the rules named. -/

/-- A value of the placed team after an instruction, with registers given to every thread. -/
def after {α : Type} (d : α) (i : Instr) (rs : List (Nat × Word)) (f : Team → α) : α :=
  match exec i (setRegs rs (wat i)) with
  | .next t => ((sget t.teams T).map f).getD d
  | .fault _ => d
  | .refused _ => d
/-- A register of thread 0; the value pending for it where the word is of class L (R43). -/
def reg0 (n : Nat) (tm : Team) : Word := sgetD (sgetD tm.threads 0 default).regs n 0
def due0 (n : Nat) (tm : Team) : Word := (((sgetD tm.threads 0 default).pend.find? fun p => p.reg = n).map (·.value)).getD 0
def pred0 (p : PReg) (tm : Team) : Bool := predRead (sgetD tm.threads 0 default) p

/-- R96: the sum wraps, and its carry leaves in a predicate. -/
theorem test_iadd_wraps : after (1, false) (.iadd hA 1 2 3 ⟨some 4, false, false⟩) [(2, 0xFFFFFFFF), (3, 1)]
    (fun tm => (reg0 1 tm, pred0 4 tm)) = (0, true) := by decide +kernel
/-- R96: a signed sum saturates. -/
theorem test_iadd_saturates : after 0 (.iadd hA 1 2 3 ⟨none, true, true⟩) [(2, 0x7FFFFFFF), (3, 1)] (reg0 1) = 0x7FFFFFFF := by decide +kernel
/-- R97: the high half of a signed product. -/
theorem test_imulh_signed : after 0 (.imulh hA 1 2 3 true) [(2, 0xFFFFFFFF), (3, 1)] (reg0 1) = 0xFFFFFFFF := by decide +kernel
/-- R98: division by 0 gives all ones. -/
theorem test_idiv_by_zero : after 0 (.idiv hA 1 2 3 true) [(2, 7)] (due0 1) = 0xFFFFFFFF := by decide +kernel
/-- R98: the remainder takes the dividend's sign. -/
theorem test_imod_sign : after 0 (.imod hA 1 2 3 true) [(2, 0xFFFFFFF9), (3, 2)] (due0 1) = 0xFFFFFFFF := by decide +kernel
/-- R101: a shift by the width. -/
theorem test_shl_by_32 : after 1 (.shl hA 1 2 3 false) [(2, 1), (3, 32)] (reg0 1) = 0 := by decide +kernel
theorem test_shr_signed_by_40 : after 0 (.shr hA 1 2 3 true false) [(2, 0x80000000), (3, 40)] (reg0 1) = 0xFFFFFFFF := by decide +kernel
/-- R100: `lut(a & b | c)` is 0xF8. -/
theorem test_lop3_lut : after 0 (.lop3Hi hA 1 2 3 4 0x78) [(2, 0xFF), (3, 0x0F), (4, 0xF00)] (reg0 1) = 0xF0F := by decide +kernel
/-- R104: a signed comparison. -/
theorem test_icmp_signed : after false (.icmpImm hN 2 3 0xFFFF .gt true) [(3, 0)] (pred0 2) = true := by decide +kernel
/-- R108: a 64-bit sum carries into the high half. -/
theorem test_add64_carries : after 0 (.add64 hA 2 4 6) [(4, 0xFFFFFFFF), (6, 1)] (reg0 3) = 1 := by decide +kernel
/-- R121: 1.5 + 2.25 in FP32. -/
theorem test_fadd : after 0 (.fadd hA 1 2 3 false false .rn) [(2, 0x3FC00000), (3, 0x40100000)] (reg0 1) = 0x40700000 := by decide +kernel
/-- R128: both halves. -/
theorem test_hmul2 : after 0 (.hmul2 hA 1 2 3 false false false .rn) [(2, 0x40003C00), (3, 0x40003C00)] (reg0 1) = 0x44003C00 := by
  decide +kernel
/-- R112: the butterfly takes the neighbour's register. -/
theorem test_shfl_xor : after 0 (.shflImm hA 6 5 1 .xor false) [(5, 7)] (reg0 6) = 7 := by decide +kernel
/-- R113: 32 active lanes with a true predicate. -/
theorem test_vote_count : after 0 (.vote hA 9 .count ⟨false, 7⟩) [] (reg0 9) = 32 := by decide +kernel
/-- R156: a branch's target, in words from the clause. -/
theorem test_bra_target : after 0 (.bra uB 3) [] (fun tm => (((sgetD tm.groups 0 default).transfer.map (·.nexts)).getD []).head?.map
    (fun e => e.2.toNat) |>.getD 0) = 0x8018 := by decide +kernel
/-- R363: a trap's cause and information word. -/
theorem test_trap_cause : after (0, 0) (.trap gU 0x1234) [] (fun tm => ((sgetD tm.groups 0 default).hcause, (sgetD tm.groups 0 default).hinfo))
    = (7, 0x1234) := by decide +kernel
/-- R274, R275: a loop's counter, and the stream's end. -/
theorem test_gloop_counts : after 0 (.gloop xA 1 0) [] (fun tm => gRead tm 1) = 0xFFFFFFFFFFFFFFFF := by decide +kernel

end Sys2Proof.Tests
end

section
/-! SUPPORT. The lane words of classes A and F: each runs its table's function, names registers of its own, and so shows its
writes. -/

namespace Sys2Proof.Laws

open Sys2Proof.Machine

/-! ## Results that the model and its tables write differently (R95 to R108) -/

theorem low32_extS (sgn : Bool) (x : Word) : low32 (extS sgn x) = x := by
  cases sgn
  · exact (BitVec.ofInt_natCast 32 x.toNat).trans (BitVec.ofNat_toNat 32 x)
  · exact BitVec.ofInt_toInt

/-- R96: the smaller value is one of the two. -/
theorem minS_eq_ite (sgn : Bool) (x y : Word) : minS sgn x y = if extS sgn x ≤ extS sgn y then x else y := by
  rw [minS, min_def]
  split <;> exact low32_extS _ _

theorem maxS_eq_ite (sgn : Bool) (x y : Word) : maxS sgn x y = if extS sgn x ≤ extS sgn y then y else x := by
  rw [maxS, max_def]
  split <;> exact low32_extS _ _

/-- R96: a value in the signed range is its own saturation. -/
theorem sat32_signed_of_mem {e : Int} (hl : -2 ^ 31 ≤ e) (hu : e ≤ 2 ^ 31 - 1) : sat32 true e = low32 e := by
  simp only [sat32, if_true, max_eq_left hl, min_eq_left hu]

theorem low32_neg_toInt (x : Word) : low32 (-x.toInt) = -x := by
  rw [low32, BitVec.ofInt_neg, BitVec.ofInt_toInt]

/-- R96: the one negation that saturates is that of -2^31. -/
theorem sat32_neg_toInt (x : Word) : sat32 true (-x.toInt) = if x = 0x80000000 then 0x7FFFFFFF else -x := by
  split
  · subst x
    decide
  · have hne : x.toInt ≠ -2 ^ 31 := fun h => ‹x ≠ _› (BitVec.eq_of_toInt_eq (h.trans (by decide)))
    have hlo := x.le_toInt
    have hhi := x.toInt_lt
    rw [sat32_signed_of_mem (by omega) (by omega), low32_neg_toInt]

/-- R96: INEG's result, saturated or not. -/
theorem ineg_eq (sat : Bool) (x : Word) : (if sat then sat32 true (-x.toInt) else low32 (-x.toInt))
    = if sat ∧ x = 0x80000000 then 0x7FFFFFFF else -x := by
  cases sat
  · simp [low32_neg_toInt]
  · simp [sat32_neg_toInt]

/-- R96: IABS's result: a negative value is negated, every other stays. -/
theorem iabs_eq (sat : Bool) (x : Word) : (if sat then sat32 true |x.toInt| else low32 |x.toInt|)
    = if x.msb then (if sat ∧ x = 0x80000000 then 0x7FFFFFFF else -x) else x := by
  rw [BitVec.msb_eq_toInt]
  by_cases hx : x.toInt < 0
  · rw [abs_of_neg hx, ineg_eq]
    simp [hx]
  · have hhi := x.toInt_lt
    rw [abs_of_nonneg (by omega), sat32_signed_of_mem (by omega) (by omega)]
    simp [hx, low32]

/-- R97: the high word of the exact 64-bit product. -/
theorem mulHigh_eq_div (sgn : Bool) (x y : Word) :
    mulHigh sgn x y = BitVec.ofInt 32 ((extS sgn x * extS sgn y) / 2 ^ 32) := by
  apply BitVec.eq_of_toNat_eq
  simp only [mulHigh, low64, BitVec.extractLsb'_toNat, BitVec.toNat_ofInt, Nat.shiftRight_eq_div_pow]
  omega

theorem shlW_eq_shiftLeft (wrap : Bool) (x : Word) (n : Nat) : shlW wrap x n = x <<< (if wrap then n % 32 else n) := by
  generalize hk : (if wrap then n % 32 else n) = k
  simp only [shlW, hk, ite_eq_right_iff]
  exact fun h => (BitVec.shiftLeft_eq_zero h).symm

theorem shlD_eq_shiftLeft (wrap : Bool) (x : DWord) (n : Nat) : shlD wrap x n = x <<< (if wrap then n % 64 else n) := by
  generalize hk : (if wrap then n % 64 else n) = k
  simp only [shlD, hk, ite_eq_right_iff]
  exact fun h => (BitVec.shiftLeft_eq_zero h).symm

theorem signExtend_signExtend_imm (i : BitVec 16) : (i.signExtend 32).signExtend 64 = i.signExtend 64 := by
  apply BitVec.eq_of_toInt_eq
  simp only [BitVec.toInt_signExtend_of_le, Nat.reduceLeDiff]

theorem zeroExtend_zeroExtend_imm (i : BitVec 16) : (i.zeroExtend 32).zeroExtend 64 = i.zeroExtend 64 := by
  apply BitVec.eq_of_toNat_eq
  simp only [BitVec.truncate_eq_setWidth, BitVec.toNat_setWidth]
  omega

/-- R95, R108: an immediate extended to 32 bits and then to 64 is extended to 64 at once. -/
theorem leaW_imm32 (sgn : Bool) (sh : BitVec 3) (x : DWord) (i : BitVec 16) :
    leaW sgn sh x (imm32 sgn i) = x + (if sgn then i.signExtend 64 else i.zeroExtend 64) <<< sh.toNat := by
  cases sgn
  · simp only [leaW, imm32, Bool.false_eq_true, if_false, zeroExtend_zeroExtend_imm]
  · simp only [leaW, imm32, if_true, signExtend_signExtend_imm]

/-! ## What a table's word writes -/

/-- The writes of one lane stand under its own number and name distinct registers (R38). -/
structure Named (l : Nat) (o : LaneOut) : Prop where
  lane : o.lane = l
  distinct : (o.vs.map Prod.fst).Nodup
  bound : ∀ e ∈ o.vs, e.1 < 256

/-- No register is written. -/
theorem Named.noReg {l : Nat} {o : LaneOut} (hl : o.lane = l) (hv : o.vs = []) : Named l o :=
  ⟨hl, by simp [hv], by simp [hv]⟩

/-- One register is written. -/
theorem Named.oneReg {l : Nat} {o : LaneOut} {d : VReg} {v : Word} (hl : o.lane = l) (hv : o.vs = [(d.toNat, v)]) : Named l o :=
  ⟨hl, by simp [hv], by simpa [hv] using d.isLt⟩

theorem succ_lt_of_even {d : VReg} (h : even d = true) : d.toNat + 1 < 256 := by
  revert d; decide

/-- The pair of an even register is written (R37). -/
theorem Named.pair {l : Nat} {o : LaneOut} {d : VReg} {v w : Word} (h : even d = true) (hl : o.lane = l)
    (hv : o.vs = [(d.toNat, v), (d.toNat + 1, w)]) : Named l o :=
  ⟨hl, by simp [hv], by simpa [hv] using ⟨d.isLt, succ_lt_of_even h⟩⟩

/-- The word's meaning is that of a class A or F word with its table's request, DSM and writes. -/
def RunsAs (i : Instr) (w : LaneWord) : Prop := ∀ s, exec i s = .next (laneA w.req w.head.dsm w.out s)

/-- A word that runs its table's writes, each under names of its own, shows them. -/
theorem RunsAs.shows {i : Instr} {w : LaneWord} (hr : RunsAs i w) (hn : i.wf = true → ∀ v l, Named l (w.out v l)) :
    ShowsItsWrites i w := by
  intro s x s1 hwf hs hown hq
  obtain ⟨y, hy⟩ := laneA_shows (dsm := w.head.dsm) hs hown hq (fun v l => (hn hwf v l).lane)
    (fun v l => (hn hwf v l).distinct) (fun v l => (hn hwf v l).bound)
  exact ⟨_, y, hr s, hy⟩

/-! ## Shapes whose function the table writes differently -/

theorem runsAs_word1 {i : Instr} {h : Head} {d a : VReg} {f g : Word → Word} (hf : ∀ x, f x = g x)
    (he : ∀ s, exec i s = alu1 h d a f s) : RunsAs i (word1 h d a g) := by
  obtain rfl := funext hf
  exact he

theorem runsAs_word2 {i : Instr} {h : Head} {d a b : VReg} {f g : Word → Word → Word} (hf : ∀ x y, f x y = g x y)
    (he : ∀ s, exec i s = alu2 h d a b f s) : RunsAs i (word2 h d a b g) := by
  obtain rfl := funext₂ hf
  exact he

theorem runsAs_wordPair {i : Instr} {h : Head} {d a : VReg} {f g : DWord → DWord} (hf : ∀ x, f x = g x)
    (he : ∀ s, exec i s = aluPair h d a f s) : RunsAs i (wordPair h d a g) := by
  obtain rfl := funext hf
  exact he

theorem runsAs_wordPair1 {i : Instr} {h : Head} {d a b : VReg} {f g : DWord → Word → DWord}
    (hf : ∀ x y, f x y = g x y) (he : ∀ s, exec i s = aluPair1 h d a b f s) : RunsAs i (wordPair1 h d a b g) := by
  obtain rfl := funext₂ hf
  exact he

/-! ## The integer and logic words (R96 to R108) -/

/-- Every integer word runs its table's function: most as it stands, the rest by the equations above. -/
theorem intWord_runs {i : Instr} {w : LaneWord} (hw : intWord i = some w) : RunsAs i w := by
  cases i <;> cases hw
  case ineg h d a sat => exact runsAs_word1 (ineg_eq sat) fun _ => rfl
  case iabs h d a sat => exact runsAs_word1 (iabs_eq sat) fun _ => rfl
  case imin h d a b sgn => exact runsAs_word2 (minS_eq_ite sgn) fun _ => rfl
  case iminImm h d a i sgn => exact runsAs_word1 (minS_eq_ite sgn · _) fun _ => rfl
  case imax h d a b sgn => exact runsAs_word2 (maxS_eq_ite sgn) fun _ => rfl
  case imaxImm h d a i sgn => exact runsAs_word1 (maxS_eq_ite sgn · _) fun _ => rfl
  case imulh h d a b sgn => exact runsAs_word2 (mulHigh_eq_div sgn) fun _ => rfl
  case imulhImm h d a i sgn => exact runsAs_word1 (mulHigh_eq_div sgn · _) fun _ => rfl
  case shl h d a b wrap => exact runsAs_word2 (fun x y => shlW_eq_shiftLeft wrap x y.toNat) fun _ => rfl
  case shlImm h d a i wrap => exact runsAs_word1 (shlW_eq_shiftLeft wrap · _) fun _ => rfl
  case leaImm h d a i sgn sh => exact runsAs_wordPair (leaW_imm32 sgn sh · i) fun _ => rfl
  case shl64 h d a b wrap => exact runsAs_wordPair1 (fun x y => shlD_eq_shiftLeft wrap x y.toNat) fun _ => rfl
  case shl64Imm h d a i wrap => exact runsAs_wordPair (shlD_eq_shiftLeft wrap · _) fun _ => rfl
  all_goals exact fun _ => rfl

theorem intWord_named {i : Instr} {w : LaneWord} (hw : intWord i = some w) (hwf : i.wf = true) (v : LView) (l : Nat) :
    Named l (w.out v l) := by
  cases i <;> cases hw
  case icmp | icmpImm | icmp64 => exact .noReg rfl rfl
  case movi h d n m =>
    cases m with
    | w32 => exact .oneReg rfl rfl
    | sx | zx => exact .pair (by simpa [Instr.wf] using (Bool.and_eq_true_iff.1 hwf).2) rfl rfl
  case movg h d n m =>
    cases m with
    | lo | hi => exact .oneReg rfl rfl
    | pair => exact .pair (by simpa [Instr.wf] using (Bool.and_eq_true_iff.1 hwf).2) rfl rfl
  case imulw | imadw | lea | leaImm | add64 | add64Imm | sub64 | shl64 | shl64Imm | shr64 | shr64Imm =>
    simp only [Instr.wf, Bool.and_eq_true] at hwf
    exact .pair (by tauto) rfl rfl
  all_goals exact .oneReg rfl rfl

/-! ## The floating-point, conversion and bit-plane words (R121 to R136) -/

/-- The table of the floating-point words gives each word its function as the model writes it. -/
theorem floatWord_runs {i : Instr} {w : LaneWord} (hw : floatWord i = some w) : RunsAs i w := by
  cases i <;> cases hw
  all_goals exact fun _ => rfl

theorem floatWord_named {i : Instr} {w : LaneWord} (hw : floatWord i = some w) (hwf : i.wf = true) (v : LView) (l : Nat) :
    Named l (w.out v l) := by
  cases i <;> cases hw
  case fcmp | hcmp2 => exact .noReg rfl rfl
  case cvtfi h d a ik fk hi r =>
    simp only [Instr.wf, Bool.and_eq_true] at hwf
    obtain ⟨⟨-, hd⟩, -⟩ := hwf
    cases ik with
    | s32 | u32 => exact .oneReg rfl rfl
    | s64 | u64 => exact .pair (by simpa [IKind.wide] using hd) rfl rfl
  all_goals exact .oneReg rfl rfl

/-! ## The predicate and exchange words (R109 to R113) -/

theorem exchangeWord_runs {i : Instr} {w : LaneWord} (hw : exchangeWord i = some w) : RunsAs i w := by
  cases i
  case pmov h f =>
    cases f with
    | toV | fromV => cases hw; exact fun _ => rfl
  case vote h d mode a =>
    cases hw
    cases mode with
    | all | any | same | most | mask | count => exact fun _ => rfl
  case plop | shfl | shflImm => cases hw; exact fun _ => rfl
  all_goals cases hw

theorem exchangeWord_named {i : Instr} {w : LaneWord} (hw : exchangeWord i = some w) (v : LView) (l : Nat) :
    Named l (w.out v l) := by
  cases i
  case pmov h f =>
    cases f with
    | toV => cases hw; exact .oneReg rfl rfl
    | fromV => cases hw; exact .noReg rfl rfl
  case vote h d mode a =>
    cases hw
    cases mode with
    | all | any | same | most => exact .noReg rfl rfl
    | mask | count => exact .oneReg rfl rfl
  case plop => cases hw; exact .noReg rfl rfl
  case shfl | shflImm => cases hw; exact .oneReg rfl rfl
  all_goals cases hw

/-! ## All three families -/

/-- Settles O13. Every word of the three tables runs its table's function and names registers of its own, so `laneA_shows` gives
its writes and its frame. -/
theorem laneWords : Obligations.LaneWords := by
  refine ⟨fun i w h => ?_, fun i w h => ?_, fun i w h => ?_⟩
  · exact (intWord_runs h).shows (intWord_named h)
  · exact (floatWord_runs h).shows (floatWord_named h)
  · exact (exchangeWord_runs h).shows fun _ => exchangeWord_named h

end Sys2Proof.Laws
end

section
/-! SUPPORT. `State.Sound` over one step: what each function of the model that answers with a state says of it, in the order of
the model's files. A function that writes neither memory nor the checkpoints has an `↔`. -/

namespace Sys2Proof.Laws

open Sys2Proof.Machine

/-- What `State.Sound` says, of memory and the kept checkpoints alone. -/
def Kept (mem : List Host.Cell) (keeping : List Checkpoint) : Prop :=
  Memory.wf mem = true ∧ ∀ c ∈ keeping, Memory.wf c.mem = true

@[simp] theorem kept_iff_sound (s : State) : Kept s.mem s.keeping ↔ s.Sound := Iff.rfl

@[simp] theorem sound_mk (mem poison cycle issuer agenda freeCtr fairIdx fairGap teams nextTeam ops nextOp batches frozen nextBatch grids nextGrid
    contexts parts queues nextRec served cores coal l1 mixed dies dir tlb counters eccost images channels irqs replies routes deadPorts
    identity bringUp measures report ceUnits spares keeping journal replay shared stopped) :
    State.Sound ⟨mem, poison, cycle, issuer, agenda, freeCtr, fairIdx, fairGap, teams, nextTeam, ops, nextOp, batches, frozen, nextBatch,
      grids, nextGrid, contexts, parts, queues, nextRec, served, cores, coal, l1, mixed, dies, dir, tlb, counters, eccost, images,
      channels, irqs, replies, routes, deadPorts, identity, bringUp, measures, report, ceUnits, spares, keeping, journal, replay,
      shared, stopped⟩ ↔ Kept mem keeping := Iff.rfl

@[simp] theorem kept_memSets {mem keeping a bs} (h : Kept mem keeping) : Kept (memSets mem a bs) keeping := ⟨wf_memSets a bs h.1, h.2⟩

@[simp] theorem sound_ite {p : Prop} [Decidable p] {s t : State} : (if p then s else t).Sound ↔ if p then s.Sound else t.Sound := by
  split <;> rfl

/-- A fold keeps what each of its steps keeps. -/
theorem sound_foldl {α : Type} {f : State → α → State} (hf : ∀ s a, s.Sound → (f s a).Sound) (l : List α) {s : State} (h : s.Sound) :
    (l.foldl f s).Sound := by
  induction l generalizing s with
  | nil => exact h
  | cons a t ih => exact ih (hf s a h)

/-- `sound_foldl` with each step's element known to be of the list. -/
theorem sound_foldl_mem {α : Type} {f : State → α → State} {l : List α} (hf : ∀ s a, a ∈ l → s.Sound → (f s a).Sound) {s : State}
    (h : s.Sound) : (l.foldl f s).Sound := by
  induction l generalizing s with
  | nil => exact h
  | cons a t ih => exact ih (fun s b hb => hf s b (List.mem_cons_of_mem a hb)) (hf s a (List.mem_cons_self ..) h)

theorem sound_ite_of {p : Prop} [Decidable p] {s t : State} (hs : s.Sound) (ht : t.Sound) : (if p then s else t).Sound := by
  split
  · exact hs
  · exact ht

theorem Above_filter {α : Type} {b : Nat} {s : Store α} (p : Nat × α → Bool) (h : Above b s) : Above b (s.filter p) :=
  fun e he => h e (List.mem_of_mem_filter he)

theorem srising_filter {α : Type} {s : Store α} (p : Nat × α → Bool) (h : srising s = true) : srising (s.filter p) = true := by
  induction s with
  | nil => rfl
  | cons e t ih =>
    obtain ⟨k, w⟩ := e
    obtain ⟨hk, ht⟩ := (srising_cons k w t).1 h
    rw [List.filter_cons]
    split
    · exact (srising_cons k w _).2 ⟨Above_filter p hk, ih ht⟩
    · exact ih ht

theorem wf_filter {m : List Host.Cell} (p : Host.Cell → Bool) (h : Memory.wf m = true) : Memory.wf (m.filter p) = true := by
  simp only [Memory.wf, Bool.and_eq_true, snodef, List.all_eq_true] at h ⊢
  exact ⟨srising_filter p h.1, fun e he => h.2 e (List.mem_of_mem_filter he)⟩

/-- A fold neither makes nor breaks what none of its steps does. -/
theorem sound_foldl_iff {α : Type} {f : State → α → State} (hf : ∀ s a, (f s a).Sound ↔ s.Sound) {l : List α} {s : State} :
    (l.foldl f s).Sound ↔ s.Sound := by
  induction l generalizing s with
  | nil => rfl
  | cons a t ih => exact ih.trans (hf s a)

/-- The state of an answer that comes with one. -/
theorem sound_of_snd {α : Type} {r : α × State} {a : α} {s : State} (hr : r = (a, s)) (h : r.2.Sound) : s.Sound := by
  rw [hr] at h
  exact h

/-- An outcome's next state is sound. -/
def OutSound : Out → Prop
  | .next s => s.Sound
  | _ => True
@[simp] theorem outSound_next (s : State) : OutSound (.next s) ↔ s.Sound := Iff.rfl

/-- The state in a group word's result is sound. -/
def ResSound : Res → Prop
  | .retire s | .retireTrap s _ | .trapIn s _ | .wait s | .hold s => s.Sound
  | .trap _ | .stall => True
@[simp] theorem resSound_retire (s : State) : ResSound (.retire s) ↔ s.Sound := Iff.rfl
@[simp] theorem resSound_retireTrap (s : State) (tr : Trap) : ResSound (.retireTrap s tr) ↔ s.Sound := Iff.rfl
@[simp] theorem resSound_trapIn (s : State) (tr : Trap) : ResSound (.trapIn s tr) ↔ s.Sound := Iff.rfl
@[simp] theorem resSound_wait (s : State) : ResSound (.wait s) ↔ s.Sound := Iff.rfl
@[simp] theorem resSound_hold (s : State) : ResSound (.hold s) ↔ s.Sound := Iff.rfl
@[simp] theorem resSound_trap (tr : Trap) : ResSound (.trap tr) := trivial
@[simp] theorem resSound_stall : ResSound .stall := trivial

/-- The state in a sequencer word's result is sound. -/
def SResSound : SRes → Prop
  | .retire s | .wait s | .hold s => s.Sound
  | .trap _ _ _ | .stall => True
@[simp] theorem sresSound_retire (s : State) : SResSound (.retire s) ↔ s.Sound := Iff.rfl
@[simp] theorem sresSound_wait (s : State) : SResSound (.wait s) ↔ s.Sound := Iff.rfl
@[simp] theorem sresSound_hold (s : State) : SResSound (.hold s) ↔ s.Sound := Iff.rfl
@[simp] theorem sresSound_trap (c : Nat) (a : DWord) (i : Word) : SResSound (.trap c a i) := trivial
@[simp] theorem sresSound_stall : SResSound .stall := trivial

/-- The state that a fetch without a word leaves is sound. -/
def FetchedSound : Fetched → Prop
  | .word _ => True
  | .state s => s.Sound
@[simp] theorem fetchedSound_word (i : Instr) : FetchedSound (.word i) := trivial
@[simp] theorem fetchedSound_state (s : State) : FetchedSound (.state s) ↔ s.Sound := Iff.rfl

/-! ## Access -/

@[simp] theorem sound_modCore {s c f} : (modCore s c f).Sound ↔ s.Sound := Iff.rfl

@[simp] theorem sound_modDie {s d f} : (modDie s d f).Sound ↔ s.Sound := Iff.rfl

@[simp] theorem sound_modTeam {s t f} : (modTeam s t f).Sound ↔ s.Sound := Iff.rfl

@[simp] theorem sound_modCtx {s c f} : (modCtx s c f).Sound ↔ s.Sound := Iff.rfl

@[simp] theorem sound_modPart {s p f} : (modPart s p f).Sound ↔ s.Sound := Iff.rfl

@[simp] theorem sound_xlatFill {s core ctx va l} : (xlatFill s core ctx va l).Sound ↔ s.Sound := Iff.rfl

/-! ## Caches -/

@[simp] theorem sound_dirRoom {s quad} : (dirRoom s quad).Sound ↔ s.Sound := by
  fun_cases dirRoom <;> simp

@[simp] theorem sound_dirPut {s quad e} : (dirPut s quad e).Sound ↔ s.Sound := by
  simp [dirPut]

@[simp] theorem sound_dirSplit {quad pa n e s} (hs : State.Sound s) : (dirSplit quad pa n e s).Sound := by
  induction n generalizing e s with
  | zero => exact hs
  | succ n ih =>
    unfold dirSplit
    split
    · exact hs
    · exact ih (by simp [hs])

@[simp] theorem sound_dirRequest {pa r s} (hs : State.Sound s) : (dirRequest pa r s).Sound := by
  have hgrant : ∀ s : State, s.Sound → (match dirAt s pa with
      | none => s
      | some (_, e) =>
        let e' := { dirGrant s (dieOf pa) r e with used := s.cycle }
        if dirGrant s (dieOf pa) r e = e || dirEmpty e || e.size = 128 then dirPut s (dieOf pa) e'
        else
          let s := dirSplit (dieOf pa) pa 9 { e with used := s.cycle } s
          match dirAt s pa with
          | none => s
          | some (_, l) => dirPut s (dieOf pa) { dirGrant s (dieOf pa) r l with used := s.cycle }).Sound := by
    intro s hs
    split
    · exact hs
    · dsimp only
      split
      · simp [hs]
      · split <;> simp [hs]
  unfold dirRequest
  dsimp only
  cases dirAt s pa with
  | some e => exact hgrant s hs
  | none => exact hgrant _ (by simp [hs])

@[simp] theorem sound_fillLine {s core p l line na} (hs : State.Sound s) : (fillLine s core p l line na).Sound := by
  simp [fillLine, hs]

@[simp] theorem sound_countUe {s} : (countUe s).Sound ↔ s.Sound := Iff.rfl

@[simp] theorem sound_poisonHit {s ctx pa} : (poisonHit s ctx pa).Sound ↔ s.Sound := by
  simp [poisonHit]

@[simp] theorem sound_copiesSet {s die pa b} : (copiesSet s die pa b).Sound ↔ s.Sound := by
  unfold copiesSet
  dsimp only
  repeat' split
  all_goals simp

@[simp] theorem sound_countMixed {s pa} (hs : State.Sound s) : (countMixed s pa).Sound := by
  unfold countMixed
  split <;> simp [hs]

@[simp] theorem sound_keepMixed {die line s cluster} (hs : State.Sound s) : (keepMixed die line s cluster).Sound := by
  unfold keepMixed
  dsimp only
  split
  · simp [hs]
  · split <;> simp [hs]

@[simp] theorem sound_mixedWrite {s die pa n track} (hs : State.Sound s) : (mixedWrite s die pa n track).Sound := by
  unfold mixedWrite
  split
  · simp [hs]
  · refine sound_foldl (fun s a hs => ?_) _ hs
    split
    · exact hs
    · exact sound_foldl (fun s c hs => sound_keepMixed hs) _ hs

/-- Every write of a program, an engine, the host or the device reaches memory through this one (R201). -/
@[simp] theorem sound_homeWrite {s ctx die va pa mv track bs} (hs : State.Sound s) : (homeWrite s ctx die va pa mv track bs).Sound := by
  have hw : State.Sound { mixedWrite s die pa bs.length track with mem := memSets (mixedWrite s die pa bs.length track).mem pa bs } := by
    simp [hs]
  unfold homeWrite
  refine sound_foldl (fun s a hs => ?_) _ ?_
  · split <;> simp [hs]
  · cases die with
    | none => simpa using hw
    | some d => simpa using sound_foldl (fun s i hs => sound_copiesSet.2 hs) (List.range bs.length) hw

@[simp] theorem sound_writeLoc {s w va l bs} (hs : State.Sound s) : (writeLoc s w va l bs).Sound := by
  simp [writeLoc, hs]

@[simp] theorem sound_genBump {s die} : (genBump s die).Sound ↔ s.Sound := Iff.rfl

@[simp] theorem sound_pathDrop {s core codes} : (pathDrop s core codes).Sound ↔ s.Sound := by
  simp [pathDrop]

@[simp] theorem sound_noticeAt {time s ctx kind cause unit arg addr} (hs : State.Sound s) :
    (noticeAt time s ctx kind cause unit arg addr).Sound := by
  unfold noticeAt
  dsimp only
  split
  · simp [hs]
  · split <;> simp [hs]

@[simp] theorem sound_notice {s ctx kind cause unit arg addr} (hs : State.Sound s) :
    (notice s ctx kind cause unit arg addr).Sound := by
  simp [notice, hs]

/-! ## Ops -/

@[simp] theorem sound_ringPut {s ctx base size n ws} (hs : State.Sound s) : (ringPut s ctx base size n ws).Sound := by
  induction ws generalizing s n with
  | nil => exact hs
  | cons w ws ih =>
    unfold ringPut
    refine ih ?_
    split <;> simp [hs]

@[simp] theorem sound_traceAppend {s core b} (hs : State.Sound s) : (traceAppend s core b).Sound := by
  unfold traceAppend
  dsimp only
  rw [sound_modCore]
  split <;> simp [hs]

@[simp] theorem sound_traceOrDrop {s core b} (hs : State.Sound s) : (traceOrDrop s core b).Sound := by
  unfold traceOrDrop
  split
  · simp [hs]
  · exact sound_traceAppend (by simp [hs])

@[simp] theorem sound_tracePut {s core b} (hs : State.Sound s) : (tracePut s core b).Sound := by
  simp [tracePut, hs]

@[simp] theorem sound_fatalFault {s ctx core hpc cause} : (fatalFault s ctx core hpc cause).Sound ↔ s.Sound := Iff.rfl

@[simp] theorem sound_freezeTeam {s t addr cause} (hs : State.Sound s) : (freezeTeam s t addr cause).Sound := by
  unfold freezeTeam
  split <;> simp [hs]

@[simp] theorem sound_freezeEngine {s u n ctx core addr cause} (hs : State.Sound s) :
    (freezeEngine s u n ctx core addr cause).Sound := by
  simp [freezeEngine, hs]

@[simp] theorem sound_trapGroup {s t k tr old hpc} (hs : State.Sound s) : (trapGroup s t k tr old hpc).Sound := by
  fun_cases trapGroup <;> simp [hs]

@[simp] theorem sound_retireGroup {s t k} : (retireGroup s t k).Sound ↔ s.Sound := Iff.rfl

@[simp] theorem sound_clauseTrace {s x} (hs : State.Sound s) : (clauseTrace s x).Sound := by
  unfold clauseTrace
  split <;> simp [hs]

@[simp] theorem sound_finish {s x r} (hs : State.Sound s) (hr : ResSound r) : (finish s x r).Sound := by
  cases r <;> simp_all [finish]

@[simp] theorem sound_installed {r s x} : (installed r s x).Sound ↔ s.Sound := sound_modTeam

@[simp] theorem sound_issue {r body s} (hb : ∀ x s, State.Sound s → ResSound (body x s)) (hs : State.Sound s) :
    (issue r body s).Sound := by
  unfold issue
  split
  · split
    · exact hs
    · split
      · exact hs
      · split
        · simp [hs]
        · split
          · exact hs
          · dsimp only
            split
            · simp [hs]
            · exact sound_finish (sound_installed.2 hs) (hb _ _ (sound_installed.2 hs))
  · exact hs

@[simp] theorem sound_laneA {r dsm f s} (hs : State.Sound s) : (laneA r dsm f s).Sound := by
  refine sound_issue (fun x s hs => ?_) hs
  simp [hs]

@[simp] theorem sound_openOp {s o} : (openOp s o).Sound ↔ s.Sound := Iff.rfl

@[simp] theorem sound_openLong {s x h o outs} : (openLong s x h o outs).Sound ↔ s.Sound := Iff.rfl

@[simp] theorem sound_laneL {r h f s} (hs : State.Sound s) : (laneL r h f s).Sound := by
  refine sound_issue (fun x s hs => ?_) hs
  simp [hs]

@[simp] theorem sound_modSeq {s t f} : (modSeq s t f).Sound ↔ s.Sound := Iff.rfl

@[simp] theorem sound_trapSeq {s t cause hpc addr info} (hs : State.Sound s) : (trapSeq s t cause hpc addr info).Sound := by
  simp [trapSeq, hs]

@[simp] theorem sound_finishSeq {s x r} (hs : State.Sound s) (hr : SResSound r) : (finishSeq s x r).Sound := by
  cases r <;> simp_all [finishSeq]

@[simp] theorem sound_issueSeq {r body s} (hb : ∀ x s, State.Sound s → SResSound (body x s)) (hs : State.Sound s) :
    (issueSeq r body s).Sound := by
  unfold issueSeq
  split
  · split
    · exact hs
    · rename_i t x hx
      have hf : (finishSeq s x (body x s)).Sound := sound_finishSeq hs (hb _ _ hs)
      split
      · exact hs
      · split
        · simp [hs]
        · split
          · exact hs
          · split <;> simp [hs, hf]
  · exact hs

@[simp] theorem sound_openSeq {s t dc kind} : (openSeq s t dc kind).Sound ↔ s.Sound := Iff.rfl

@[simp] theorem sound_gWrite {s t n v} : (gWrite s t n v).Sound ↔ s.Sound := Iff.rfl

@[simp] theorem sound_seqG {x gs gd f s} (hs : State.Sound s) : (seqG x gs gd f s).Sound := by
  refine sound_issueSeq (fun x s hs => ?_) hs
  simp [hs]

/-! ## Order -/

@[simp] theorem sound_forkAll {s ctx} : (forkAll s ctx).Sound ↔ s.Sound := Iff.rfl

@[simp] theorem sound_setMark {s t tid b} : (setMark s t tid b).Sound ↔ s.Sound := by
  unfold setMark
  split <;> simp

@[simp] theorem sound_releaseFork {s t tids sc} (hs : State.Sound s) : (releaseFork s t tids sc).Sound := by
  unfold releaseFork
  split
  · exact hs
  · split
    · exact sound_foldl (fun s i hs => by simp [hs]) _ (by simp [hs])
    · exact hs

@[simp] theorem sound_releaseForkSeq {s t sc} : (releaseForkSeq s t sc).Sound ↔ s.Sound := by
  unfold releaseForkSeq
  split <;> simp

@[simp] theorem sound_threadWrite {s w va l bs} (hs : State.Sound s) : (threadWrite s w va l bs).Sound := by
  simp [threadWrite, hs]

@[simp] theorem sound_pathForget {s core path line} : (pathForget s core path line).Sound ↔ s.Sound := by
  simp [pathForget]

@[simp] theorem sound_drainStore {s h} (hs : State.Sound s) : (drainStore s h).Sound := by
  unfold drainStore
  split <;> simp [hs]

@[simp] theorem sound_drainWhere {s hit} (hs : State.Sound s) : (drainWhere s hit).Sound := by
  unfold drainWhere
  split
  · exact sound_foldl (fun s e hs => sound_drainStore hs) _ (by simp [hs])
  · exact hs

@[simp] theorem sound_drainSeen {s w p pa n} (hs : State.Sound s) : (drainSeen s w p pa n).Sound := by
  simp [drainSeen, hs]

@[simp] theorem sound_readSrc {w na x s} (hs : State.Sound s) : (readSrc w na x s).2.Sound := by
  unfold readSrc
  split <;> simp [hs]

@[simp] theorem sound_readSrcs {w na l s} (hs : State.Sound s) : (readSrcs w na l s).2.Sound := by
  induction l generalizing s with
  | nil => exact hs
  | cons x t ih => exact ih (sound_readSrc hs)

@[simp] theorem sound_setKind {s id k} : (setKind s id k).Sound ↔ s.Sound := Iff.rfl

@[simp] theorem sound_performRead {s id e} (hs : State.Sound s) : (performRead s id e).Sound := by
  unfold performRead
  split
  · exact hs
  · split
    · exact hs
    · cases e.fmt <;> cases e.tid <;> simp [hs]

@[simp] theorem sound_drainFor {s id e} (hs : State.Sound s) : (drainFor s id e).Sound := by
  unfold drainFor
  split
  · exact hs
  · refine sound_foldl (fun s x hs => ?_) _ hs
    split <;> simp [hs]

@[simp] theorem sound_settleOf {s t hit} (hs : State.Sound s) : (settleOf s t hit).Sound := by
  unfold settleOf
  dsimp only
  split
  · exact sound_foldl (fun s e hs => sound_performRead hs) _ (sound_foldl (fun s e hs => sound_drainFor hs) _ hs)
  · exact hs

@[simp] theorem sound_settleReads {s t hit} (hs : State.Sound s) : (settleReads s t hit).Sound := by
  simp [settleReads, hs]

@[simp] theorem sound_settleAt {s w x} (hs : State.Sound s) : (settleAt s w x).Sound := by
  simp [settleAt, hs]

@[simp] theorem sound_readSome {s t id} (hs : State.Sound s) : (readSome s t id).Sound := by
  simp [readSome, hs]

@[simp] theorem sound_openLoad {s x h known elems} (hs : State.Sound s) : (openLoad s x h known elems).Sound := by
  simp [openLoad, hs]

@[simp] theorem sound_readNow {s w p l n} (hs : State.Sound s) : (readNow s w p l n).2.Sound := by
  simp [readNow, hs]

@[simp] theorem sound_performFor {s t ws sc uo} (hs : State.Sound s) : (performFor s t ws sc uo).Sound := by
  simp [performFor, hs]

theorem sound_releaseBy {s x sc uo t} (hs : State.Sound s) (ht : releaseBy s x sc uo = .ok t) : t.Sound := by
  unfold releaseBy at ht
  split at ht <;> cases ht
  simp [hs]

@[simp] theorem sound_releaseSeq {s x sc} (hs : State.Sound s) : (releaseSeq s x sc).Sound := by
  simp [releaseSeq, hs]

@[simp] theorem sound_acquireAt {s core sc} : (acquireAt s core sc).Sound ↔ s.Sound := by
  simp [acquireAt]

@[simp] theorem sound_acquireFor {s t core tids sc} (hs : State.Sound s) : (acquireFor s t core tids sc).Sound := by
  simp [acquireFor, hs]

@[simp] theorem sound_acquireBy {s x sc} (hs : State.Sound s) : (acquireBy s x sc).Sound := by
  simp [acquireBy, hs]

@[simp] theorem sound_acquireSeq {s x sc} (hs : State.Sound s) : (acquireSeq s x sc).Sound := by
  simp [acquireSeq, hs]

@[simp] theorem sound_coalRoom {s core line} (hs : State.Sound s) : (coalRoom s core line).2.Sound := by
  unfold coalRoom
  dsimp only
  split
  · exact hs
  · split <;> simp [hs]

@[simp] theorem sound_laneStore {s w p lane va l bs keep} (hs : State.Sound s) : (laneStore s w p lane va l bs keep).Sound := by
  have hset : (settleAt s w (memSrc p.code l bs.length)).Sound := sound_settleAt hs
  unfold laneStore
  dsimp only
  split
  · simp [hset]
  · split
    · simp [hset]
    · exact sound_drainStore (sound_drainWhere (sound_coalRoom hset))

@[simp] theorem sound_laneStores {s w p lane va l bs} (hs : State.Sound s) : (laneStores s w p lane va l bs).Sound := by
  simp [laneStores, hs]

@[simp] theorem sound_seenAt {s core pa n} (hs : State.Sound s) : (seenAt s core pa n).Sound := by
  have hc := sound_foldl (fun s i hs => (sound_copiesSet (die := coreDie core) (pa := pa + i) (b := memByte s.mem (pa + i))).2 hs)
    (List.range n) hs
  simpa [seenAt] using hc

@[simp] theorem sound_atomicAt {s w va l n f} (hs : State.Sound s) : (atomicAt s w va l n f).2.Sound := by
  have hset : (settleAt s w (memSrc 0 l n)).Sound := sound_settleAt hs
  unfold atomicAt
  dsimp only
  split <;> simp [hset]

@[simp] theorem sound_completeOp {s id} : (completeOp s id).Sound ↔ s.Sound := by
  unfold completeOp
  split <;> simp

/-! ## Memory -/

@[simp] theorem sound_openRead {s x h outs} : (openRead s x h outs).Sound ↔ s.Sound := Iff.rfl

@[simp] theorem resSound_loadGlobal {s x h p na sx n d lanes ea} (hs : State.Sound s) : ResSound (loadGlobal s x h p na sx n d lanes ea) := by
  unfold loadGlobal
  dsimp only
  split
  · exact resSound_trap _
  · refine sound_openLoad (sound_foldl (fun s l hs => ?_) _ hs)
    split <;> simp [hs]

@[simp] theorem resSound_loadSp {s x h sx n d lanes off} (hs : State.Sound s) : ResSound (loadSp s x h sx n d lanes off) := by
  unfold loadSp
  split <;> simp [hs]

@[simp] theorem resSound_storeGlobal {s x h n lanes ea data} (hs : State.Sound s) : ResSound (storeGlobal s x h n lanes ea data) := by
  unfold storeGlobal
  dsimp only
  split
  · exact resSound_trap _
  · refine sound_openLong.2 (sound_foldl (fun s l hs => ?_) _ hs)
    split <;> simp [hs]

@[simp] theorem sound_spStore {w t off bs s} (hs : State.Sound s) : (spStore w t off bs s).Sound := by
  simp [spStore, hs]

@[simp] theorem resSound_storeSp {s x h n lanes off data} (hs : State.Sound s) : ResSound (storeSp s x h n lanes off data) := by
  unfold storeSp
  split
  · exact resSound_trap _
  · exact sound_openLong.2 (sound_foldl (fun s l hs => sound_spStore hs) _ hs)

theorem outSound_execLd {h d a imm w sx na sp s} (hs : State.Sound s) : OutSound (execLd h d a imm w sx na sp s) := by
  refine sound_issue (fun x s hs => ?_) hs
  repeat' split
  all_goals simp [hs]

theorem outSound_execSt {h d a imm w sp s} (hs : State.Sound s) : OutSound (execSt h d a imm w sp s) := by
  refine sound_issue (fun x s hs => ?_) hs
  repeat' split
  all_goals simp [hs]

theorem outSound_execLdk {h d a imm w sx s} (hs : State.Sound s) : OutSound (execLdk h d a imm w sx s) := by
  refine sound_issue (fun x s hs => ?_) hs
  simp [hs]

theorem outSound_execLdx {h d a imm w sx s} (hs : State.Sound s) : OutSound (execLdx h d a imm w sx s) := by
  refine sound_issue (fun x s hs => ?_) hs
  dsimp only
  repeat' split
  all_goals simp [hs]

theorem outSound_execStx {h d a imm w s} (hs : State.Sound s) : OutSound (execStx h d a imm w s) := by
  refine sound_issue (fun x s hs => ?_) hs
  dsimp only
  split
  · exact resSound_trap _
  · exact sound_openLong.2 (sound_foldl (fun s l hs => sound_spStore hs) _ hs)

theorem outSound_execGath {h d a b ix ew sx sp s} (hs : State.Sound s) : OutSound (execGath h d a b ix ew sx sp s) := by
  refine sound_issue (fun x s hs => ?_) hs
  dsimp only
  split
  · simp [hs]
  · split
    · exact resSound_trap _
    · refine sound_openLoad (sound_foldl (fun s l hs => ?_) _ hs)
      split <;> simp [hs]

theorem outSound_execScat {h d a b ix ew sp s} (hs : State.Sound s) : OutSound (execScat h d a b ix ew sp s) := by
  refine sound_issue (fun x s hs => ?_) hs
  repeat' split
  all_goals simp [hs]

@[simp] theorem sound_elemFill {s x ls} : (elemFill s x ls).Sound ↔ s.Sound :=
  sound_foldl_iff fun _ _ => sound_xlatFill

@[simp] theorem sound_setSr {s ctx ks} : (setSr s ctx ks).Sound ↔ s.Sound := by
  simp [setSr]

@[simp] theorem sound_setCons {s x c} : (setCons s x c).Sound ↔ s.Sound := Iff.rfl

@[simp] theorem sound_setLays {s x r} : (setLays s x r).Sound ↔ s.Sound := Iff.rfl

@[simp] theorem resSound_ldlBody {h d a imm x s} (hs : State.Sound s) : ResSound (ldlBody h d a imm x s) := by
  unfold ldlBody
  dsimp only
  split
  · exact resSound_trap _
  · split
    · simp [hs]
    · refine sound_openLoad ?_
      generalize hu : List.foldl _ _ _ = u
      have hu : u.Sound := by
        subst hu
        refine sound_foldl (fun s' l hs' => ?_) _ (sound_setSr.2 hs)
        split <;> simp [hs']
      split <;> simp [hu]

theorem outSound_execLdl {h d a imm s} (hs : State.Sound s) : OutSound (execLdl h d a imm s) := by
  refine sound_issue (fun x s hs => ?_) hs
  simp [hs]

@[simp] theorem sound_storeBit {s x l p loc a pos bit} (hs : State.Sound s) : (storeBit s x l p loc a pos bit).Sound := by
  fun_cases storeBit <;> simp [hs]

@[simp] theorem sound_stlLane {s x l p ls w} (hs : State.Sound s) : (stlLane s x l p ls w).Sound := by
  unfold stlLane
  dsimp only
  split
  · exact sound_foldl (fun s e hs => sound_storeBit hs) _ hs
  all_goals split <;> simp [hs]

theorem outSound_execStl {h d a imm s} (hs : State.Sound s) : OutSound (execStl h d a imm s) := by
  refine sound_issue (fun x s hs => ?_) hs
  dsimp only
  split
  · exact resSound_trap _
  · refine sound_openLong.2 (sound_foldl (fun s' l hs' => ?_) _ hs)
    split <;> simp [hs']

@[simp] theorem sound_recordAt {s w p l} (hs : State.Sound s) : (recordAt s w p l).2.Sound := by
  have hr : (readNow s w p l 64).2.Sound := sound_readNow hs
  unfold recordAt
  generalize readNow s w p l 64 = r at hr
  exact hr

@[simp] theorem sound_recordsAt {w p l s} (hs : State.Sound s) : (recordsAt w p l s).2.Sound := by
  induction l generalizing s with
  | nil => exact hs
  | cons x t ih =>
    have hr : (recordAt s (w x.2.1) p x.2.2).2.Sound := sound_recordAt hs
    unfold recordsAt
    generalize recordAt s (w x.2.1) p x.2.2 = r at hr
    exact ih hr

theorem outSound_execLyld {h d a imm s} (hs : State.Sound s) : OutSound (execLyld h d a imm s) := by
  refine sound_issue (fun x s hs => ?_) hs
  dsimp only
  split
  · simp [hs]
  · split
    · simp [hs]
    · refine sound_openRead.2 (sound_modTeam.2 (sound_foldl (fun s e hs => sound_xlatFill.2 hs) _ (sound_recordsAt hs)))

theorem outSound_execLydrop {h a s} (hs : State.Sound s) : OutSound (execLydrop h a s) := by
  simp [execLydrop, hs]

@[simp] theorem sound_dropLine {s core lvl l} : (dropLine s core lvl l).Sound ↔ s.Sound := by
  simp [dropLine]

theorem outSound_execCinv {h a imm lvl s} (hs : State.Sound s) : OutSound (execCinv h a imm lvl s) := by
  refine sound_issue (fun x s hs => sound_openLong.2 (sound_foldl (fun s l hs => ?_) _ hs)) hs
  dsimp only
  split
  · exact hs
  · split <;> simp [hs]

theorem outSound_execPref {h a imm lvl s} (hs : State.Sound s) : OutSound (execPref h a imm lvl s) := by
  refine sound_issue (fun x s hs => sound_openLong.2 (sound_foldl (fun s l hs => ?_) _ hs)) hs
  split
  · exact hs
  · cases lvl <;> simp [hs]

@[simp] theorem sound_lsRead {s x l ea n} (hs : State.Sound s) : (lsRead s x l ea n).2.Sound := by
  unfold lsRead
  split <;> simp [hs]

@[simp] theorem sound_walkTree {x l tb sb leaves n node s} (hs : State.Sound s) : (walkTree x l tb sb leaves n node s).2.Sound := by
  induction n generalizing node s with
  | zero => exact hs
  | succ n ih =>
    unfold walkTree
    split
    case h_1 h1 => exact sound_of_snd h1 (sound_lsRead hs)
    case h_2 h1 =>
      have hs := sound_of_snd h1 (sound_lsRead hs)
      split
      case h_1 h2 => exact sound_of_snd h2 (sound_lsRead hs)
      case h_2 h2 =>
        have hs := sound_of_snd h2 (sound_lsRead hs)
        split
        case h_1 h3 => exact sound_of_snd h3 (sound_lsRead hs)
        case h_2 h3 => exact ih (sound_of_snd h3 (sound_lsRead hs))

@[simp] theorem sound_twalkLane {s x l tb sb n} (hs : State.Sound s) : (twalkLane s x l tb sb n).2.Sound := by
  unfold twalkLane
  dsimp only
  split
  · exact hs
  · split
    case h_1 h1 => exact sound_of_snd h1 (sound_walkTree hs)
    case h_2 h1 =>
      have hw := sound_of_snd h1 (sound_walkTree hs)
      split
      case h_1 h2 => exact sound_of_snd h2 (sound_lsRead hw)
      case h_2 h2 => exact sound_of_snd h2 (sound_lsRead hw)

theorem sound_twalkLanes {go l s} (hg : ∀ s l, State.Sound s → (go s l).2.Sound) (hs : State.Sound s) : (twalkLanes go l s).2.Sound := by
  induction l generalizing s with
  | nil => exact hs
  | cons x t ih => exact ih (hg _ _ hs)

theorem outSound_execTwalk {h d a b n s} (hs : State.Sound s) : OutSound (execTwalk h d a b n s) := by
  refine sound_issue (fun x s hs => ?_) hs
  dsimp only
  split
  all_goals simp [sound_twalkLanes (fun _ _ => sound_twalkLane) hs]

/-! ## Atomics -/

theorem sound_atomLanes {one l s} (ho : ∀ s l, State.Sound s → (one s l).2.Sound) (hs : State.Sound s) : (atomLanes one l s).2.Sound := by
  induction l generalizing s with
  | nil => exact hs
  | cons x t ih => exact ih (ho _ _ hs)

@[simp] theorem sound_atomSp {s w t off n f} (hs : State.Sound s) : (atomSp s w t off n f).2.Sound := by
  unfold atomSp
  dsimp only
  repeat' split
  all_goals simp [hs]

@[simp] theorem sound_markAtom {s id} : (markAtom s id).Sound ↔ s.Sound := Iff.rfl

theorem resSound_atomBody {os n ea f done x s} (hd : ∀ s olds, State.Sound s → (done x s olds).Sound) (hs : State.Sound s) :
    ResSound (atomBody os n ea f done x s) := by
  unfold atomBody
  dsimp only
  split
  · exact resSound_trap _
  · split
    · exact resSound_trap _
    · rename_i s1 h1
      have h1 : s1.Sound := by
        split at h1
        · exact sound_releaseBy hs h1
        · cases h1; exact hs
      rw [resSound_retire, sound_markAtom]
      apply hd
      generalize hr : atomLanes _ _ _ = r
      have hr : r.2.Sound := by
        subst hr
        refine sound_atomLanes (fun s2 l hs2 => ?_) h1
        split
        · simp [hs2]
        · split <;> simp [hs2]
      have hf : (if osRel os then releaseFork r.2 x.t x.tids (osScope os) else r.2).Sound := by simp [hr]
      split <;> simp [hf]

theorem outSound_execAtom {h d a imm os op s} (hs : State.Sound s) : OutSound (execAtom h d a imm os op s) :=
  sound_issue (fun _ _ => resSound_atomBody fun _ _ hs => by simp [hs]) hs

theorem outSound_execAred {h d a imm os op s} (hs : State.Sound s) : OutSound (execAred h d a imm os op s) :=
  sound_issue (fun _ _ => resSound_atomBody fun _ _ hs => by simp [hs]) hs

theorem outSound_execAcas {h d a b c os w64 s} (hs : State.Sound s) : OutSound (execAcas h d a b c os w64 s) :=
  sound_issue (fun _ _ => resSound_atomBody fun _ _ hs => by simp [hs]) hs

@[simp] theorem resSound_fenceBody {kind uo scope x s} (hs : State.Sound s) : ResSound (fenceBody kind uo scope x s) := by
  have hf : (if fenceRel kind then releaseFork (performFor s x.t x.parties scope uo) x.t x.tids scope else s).Sound := by simp [hs]
  unfold fenceBody
  split
  · exact hs
  · split
    · exact resSound_trap _
    · split
      · exact hs
      · dsimp only
        rw [resSound_retire]
        split <;> simp [hf]

@[simp] theorem sound_fenceIssue {h kind uo scope s} (hs : State.Sound s) : (fenceIssue h kind uo scope s).Sound := by
  refine sound_issue (fun x s hs => ?_) hs
  simp [hs]

@[simp] theorem sound_pfenceIssue {h mask s} (hs : State.Sound s) : (pfenceIssue h mask s).Sound := by
  refine sound_issue (fun x s hs => ?_) hs
  dsimp only
  repeat' split
  all_goals simp [hs]

/-! ## Fetch -/

@[simp] theorem fetchedSound_fetchGroup {s t k} (hs : State.Sound s) : FetchedSound (fetchGroup s t k) := by
  unfold fetchGroup
  repeat' split
  all_goals simp [hs]

@[simp] theorem fetchedSound_fetchSeq {s t} (hs : State.Sound s) : FetchedSound (fetchSeq s t) := by
  unfold fetchSeq
  dsimp only
  repeat' split
  all_goals simp [hs]

/-! ## Sync -/

@[simp] theorem sound_noteSeen {s t serves} : (noteSeen s t serves).Sound ↔ s.Sound := Iff.rfl

@[simp] theorem sound_clearSeen {s t k} : (clearSeen s t k).Sound ↔ s.Sound := Iff.rfl

@[simp] theorem sound_clearSeenSeq {s t} : (clearSeenSeq s t).Sound ↔ s.Sound := Iff.rfl

@[simp] theorem sound_keepIssue {t k cyc s} : (keepIssue t k cyc s).Sound ↔ s.Sound := Iff.rfl

theorem sound_reissue {i f s} (hf : ∀ s, State.Sound s → (f s).Sound) (hs : State.Sound s) : (reissue i f s).Sound := by
  unfold reissue
  split
  · split
    · exact hs
    · split
      · exact hs
      · exact sound_ite_of (sound_keepIssue.2 (hf _ hs)) hs
  · split
    · exact hs
    · exact sound_ite_of (hf _ hs) hs
  · exact hs

@[simp] theorem sound_setSem {s t n f} : (setSem s t n f).Sound ↔ s.Sound := Iff.rfl

@[simp] theorem sound_notePhase {s t n} : (notePhase s t n).Sound ↔ s.Sound := by
  unfold notePhase
  split <;> simp

theorem resSound_postGroup {h rel event outs x s} (he : ∀ x s, State.Sound s → (event x s).Sound) (hs : State.Sound s) :
    ResSound (postGroup h rel event outs x s) := by
  unfold postGroup
  split
  · simp [hs]
  · cases rel with
    | none => simp [he x s hs]
    | some sc =>
      dsimp only
      split
      · exact resSound_trap _
      · next u hu => simp [he x u (sound_releaseBy hs hu)]

theorem sresSound_postSeq {h rel event x s} (he : ∀ x s, State.Sound s → (event x s).Sound) (hs : State.Sound s) :
    SResSound (postSeq h rel event x s) := by
  cases rel with
  | none => simp [postSeq, he x s hs]
  | some sc => simp [postSeq, he x _ (sound_releaseSeq hs)]

theorem sound_issueBoth {r g q f s} (hg : ∀ x s, State.Sound s → ResSound (g x s)) (hf : ∀ x s, State.Sound s → SResSound (f x s))
    (hs : State.Sound s) : (issueBoth r g q f s).Sound := by
  unfold issueBoth
  split
  · exact sound_issueSeq hf hs
  · exact sound_issue hg hs

theorem outSound_execSemp {h sem n scope s} (hs : State.Sound s) : OutSound (execSemp h sem n scope s) :=
  sound_issueBoth (fun _ _ => resSound_postGroup fun _ _ => sound_setSem.2) (fun _ _ => sresSound_postSeq fun _ _ => sound_setSem.2) hs

theorem outSound_execSemx {h sem n s} (hs : State.Sound s) : OutSound (execSemx h sem n s) :=
  sound_issueBoth (fun _ _ => resSound_postGroup fun _ _ => sound_setSem.2) (fun _ _ => sresSound_postSeq fun _ _ => sound_setSem.2) hs

theorem outSound_execArrive {h d sem n scope rp s} (hs : State.Sound s) : OutSound (execArrive h d sem n scope rp s) :=
  sound_issueBoth (fun _ _ => resSound_postGroup fun _ _ hs => by simp [hs])
    (fun _ _ => sresSound_postSeq fun _ _ hs => by simp [hs]) hs

@[simp] theorem sound_semwIssue {h sem n scope s} (hs : State.Sound s) : (semwIssue h sem n scope s).Sound := by
  refine sound_issueBoth (fun x s hs => ?_) (fun x s hs => ?_) hs
  · split
    · exact hs
    · split <;> simp [hs]
  · split <;> simp [hs]

@[simp] theorem sound_waitphIssue {h d sem phi scope src s} (hs : State.Sound s) : (waitphIssue h d sem phi scope src s).Sound := by
  refine sound_issueBoth (fun x s hs => ?_) (fun x s hs => ?_) hs
  · split
    · exact hs
    · split <;> simp [hs]
  · split <;> simp [hs]

@[simp] theorem sound_noteBuf {s t n} : (noteBuf s t n).Sound ↔ s.Sound := by
  unfold noteBuf
  split <;> simp

@[simp] theorem sound_bufTo {s t n st} : (bufTo s t n st).Sound ↔ s.Sound := by
  simp [bufTo]

@[simp] theorem sound_bufRequest {s t n target scope tids} : (bufRequest s t n target scope tids).Sound ↔ s.Sound := Iff.rfl

@[simp] theorem sound_bufEffect {team buf core r s} (hs : State.Sound s) : (bufEffect team buf core r s).Sound := by
  unfold bufEffect
  split <;> simp [hs]

theorem sound_bufAdvance {s team buf t} (hs : State.Sound s) (ht : bufAdvance s team buf = some t) : t.Sound := by
  unfold bufAdvance at ht
  split at ht
  · cases ht
  · split at ht
    · cases ht
    · split at ht <;> cases ht
      simp [hs]

@[simp] theorem sound_bufSteps {team buf n s} (hs : State.Sound s) : (bufSteps team buf n s).Sound := by
  induction n generalizing s with
  | zero => exact hs
  | succ n ih =>
    unfold bufSteps
    split
    · exact hs
    · next ht => exact ih (sound_bufAdvance hs ht)

@[simp] theorem sound_bufRun {team buf s} (hs : State.Sound s) : (bufRun team buf s).Sound := by
  simp [bufRun, hs]

theorem outSound_execBufs {h buf st scope s} (hs : State.Sound s) : OutSound (execBufs h buf st scope s) := by
  refine sound_issueBoth (fun x s hs => ?_) (fun x s hs => ?_) hs
  · split
    · simp [hs]
    · split
      · exact resSound_trap _
      · split
        · exact resSound_trap _
        · next ht => simp [sound_releaseBy hs ht]
  · split <;> simp [hs]

@[simp] theorem sound_bufwIssue {h buf st ph scope s} (hs : State.Sound s) : (bufwIssue h buf st ph scope s).Sound := by
  refine sound_issueBoth (fun x s hs => ?_) (fun x s hs => ?_) hs
  · split
    · exact hs
    · split <;> simp [hs]
  · split <;> simp [hs]

@[simp] theorem sound_semRetry {i s} (hs : State.Sound s) : (semRetry i s).Sound := by
  unfold semRetry
  split
  · exact sound_reissue (fun _ => sound_semwIssue) hs
  · exact sound_reissue (fun _ => sound_waitphIssue) hs
  · exact hs

@[simp] theorem sound_bufwRetry {i s} (hs : State.Sound s) : (bufwRetry i s).Sound := by
  unfold bufwRetry
  split
  · exact sound_reissue (fun _ => sound_bufwIssue) hs
  · exact hs

/-! ## Copy -/

@[simp] theorem sound_modBatch {s b f} : (modBatch s b f).Sound ↔ s.Sound := Iff.rfl

@[simp] theorem sound_openBatch {s x bid} : (openBatch s x bid).2.Sound ↔ s.Sound := by
  unfold openBatch
  split <;> simp

@[simp] theorem sound_joinBatch {s x h bid flags full kind} : (joinBatch s x h bid flags full kind).Sound ↔ s.Sound := by
  unfold joinBatch
  dsimp only
  repeat' split
  all_goals simp

theorem sound_engineFork {rel x s t} (hs : State.Sound s) (ht : engineFork rel x s = .ok t) : t.Sound := by
  unfold engineFork at ht
  split at ht
  · split at ht <;> cases ht
    next hr => simp [sound_releaseBy hs hr]
  · cases ht
    exact hs

@[simp] theorem sound_batchFault {s b order idx cause addr} : (batchFault s b order idx cause addr).Sound ↔ s.Sound := Iff.rfl

@[simp] theorem resSound_idleIssue {s x h} (hs : State.Sound s) : ResSound (idleIssue s x h) := hs

theorem outSound_execCpy {h a b dir bid sz rel s} (hs : State.Sound s) : OutSound (execCpy h a b dir bid sz rel s) := by
  refine sound_issue (fun x s hs => ?_) hs
  dsimp only
  split
  · exact resSound_trap _
  · split
    · simp [hs]
    · split
      · exact resSound_trap _
      · next ht => simp [sound_engineFork hs ht]

theorem outSound_execCpyl {h a b c bid full rel s} (hs : State.Sound s) : OutSound (execCpyl h a b c bid full rel s) := by
  refine sound_issue (fun x s hs => ?_) hs
  split
  · simp [hs]
  · split
    · exact resSound_trap _
    · split
      · exact resSound_trap _
      · split
        · exact resSound_trap _
        · next ht => simp [sound_engineFork hs ht]

theorem outSound_execCbld {h a tab s} (hs : State.Sound s) : OutSound (execCbld h a tab s) := by
  refine sound_issue (fun x s hs => ?_) hs
  dsimp only
  repeat' split
  all_goals simp [hs]

theorem outSound_execCpyd {h fs a b c bid full rel tab s} (hs : State.Sound s) : OutSound (execCpyd h fs a b c bid full rel tab s) := by
  refine sound_issue (fun x s hs => ?_) hs
  dsimp only
  split
  · simp [hs]
  · split
    · exact resSound_trap _
    · split
      · exact resSound_trap _
      · exact resSound_trap _
      · split
        · exact resSound_trap _
        · next ht => simp [sound_engineFork hs ht]

@[simp] theorem sound_ringOf {s w ea write} (hs : State.Sound s) : (ringOf s w ea write).2.Sound := by
  unfold ringOf
  dsimp only
  repeat' split
  all_goals simp [hs]

@[simp] theorem sound_postChunks {s b n} : (postChunks s b n).Sound ↔ s.Sound := by
  fun_cases postChunks <;> simp

theorem outSound_execCpyc {h d a bid sem s} (hs : State.Sound s) : OutSound (execCpyc h d a bid sem s) := by
  refine sound_issue (fun x s hs => ?_) hs
  dsimp only
  split
  · simp [hs]
  · split
    · next hr => exact sound_of_snd hr (sound_ringOf hs)
    · next hr =>
      have hs := sound_of_snd hr (sound_ringOf hs)
      split
      · exact hs
      · simp [hs]

@[simp] theorem sound_recordSeq {s w ea} (hs : State.Sound s) : (recordSeq s w ea).2.Sound := by
  unfold recordSeq
  split <;> simp [hs]

@[simp] theorem sound_crwaitLane {x ea l s} (hs : State.Sound s) : (crwaitLane x ea l s).2.Sound := by
  unfold crwaitLane
  split
  · next hr => exact sound_of_snd hr (sound_ringOf hs)
  · next hr =>
    have hs := sound_of_snd hr (sound_ringOf hs)
    dsimp only
    split
    · next hq => exact sound_of_snd hq (sound_recordSeq hs)
    · next hq => exact sound_of_snd hq (sound_recordSeq hs)

@[simp] theorem sound_crwaitLanes {x ea l s} (hs : State.Sound s) : (crwaitLanes x ea l s).2.Sound := by
  induction l generalizing s with
  | nil => exact hs
  | cons a t ih => exact ih (sound_crwaitLane hs)

@[simp] theorem sound_crwaitIssue {h d a s} (hs : State.Sound s) : (crwaitIssue h d a s).Sound := by
  refine sound_issue (fun x s hs => ?_) hs
  dsimp only
  repeat' split
  all_goals simp [hs]

theorem outSound_execCrpop {h a n s} (hs : State.Sound s) : OutSound (execCrpop h a n s) := by
  refine sound_issue (fun x s hs => ?_) hs
  split
  · simp [hs]
  · split
    · next hr => exact sound_of_snd hr (sound_ringOf hs)
    · next hr =>
      have hs := sound_of_snd hr (sound_ringOf hs)
      split <;> simp [hs]

@[simp] theorem sound_popRecords {s o desc base logn n ring} (hs : State.Sound s) : (popRecords s o desc base logn n ring).Sound := by
  unfold popRecords
  dsimp only
  split
  · exact hs
  · generalize hu : List.foldl _ _ (List.range _) = u
    have hu : u.Sound := by
      subst hu
      exact sound_foldl (fun s i hs => sound_poisonHit.2 hs) _ (sound_poisonHit.2 hs)
    split
    · refine sound_foldl (fun s t hs => sound_setMark.2 hs) _ ?_
      split <;> simp [hu]
    · split <;> simp [hu]

theorem outSound_execGathn {h d a b ix ew bid full rel s} (hs : State.Sound s) : OutSound (execGathn h d a b ix ew bid full rel s) := by
  refine sound_issue (fun x s hs => ?_) hs
  dsimp only
  split
  · simp [hs]
  · split
    · exact resSound_trap _
    · split
      · exact resSound_trap _
      · exact resSound_trap _
      · split
        · exact resSound_trap _
        · next ht => simp [sound_engineFork hs ht]

@[simp] theorem sound_noteError {s b pa} : (noteError s b pa).Sound ↔ s.Sound := by
  simp [noteError]

@[simp] theorem sound_engLine {s core b p} (hs : State.Sound s) : (engLine s core b p).2.Sound := by
  unfold engLine
  dsimp only
  repeat' split
  all_goals simp [hs]

@[simp] theorem sound_engByte {s core b p} (hs : State.Sound s) : (engByte s core b p).2.Sound := by
  simp [engByte, hs]

@[simp] theorem sound_fabByte {s b a} : (fabByte s b a).2.Sound ↔ s.Sound := by
  unfold fabByte
  split <;> simp

@[simp] theorem sound_moveSrc {s t core b n} (hs : State.Sound s) : (moveSrc s t core b n).2.Sound := by
  unfold moveSrc
  split <;> simp [hs]

@[simp] theorem sound_readMoves {t core b l s} (hs : State.Sound s) : (readMoves t core b l s).2.Sound := by
  induction l generalizing s with
  | nil => exact hs
  | cons m ms ih =>
    have hr : (readMoves t core b ms (moveSrc s t core b m.src).2).2.Sound := ih (sound_moveSrc hs)
    unfold readMoves
    dsimp only
    split <;> exact hr

@[simp] theorem sound_readElem {s t core b order e} (hs : State.Sound s) : (readElem s t core b order e).2.Sound := by
  unfold readElem
  split
  · next hr => exact sound_modBatch.2 (sound_of_snd hr (sound_readMoves hs))
  · next hr => exact sound_batchFault.2 (sound_of_snd hr (sound_readMoves hs))

@[simp] theorem sound_freshLines {s b e} : (freshLines s b e).Sound ↔ s.Sound := by
  simp [freshLines]

@[simp] theorem sound_readElems {t ctx core b order l s} (hs : State.Sound s) : (readElems t ctx core b order l s).2.2.Sound := by
  induction l generalizing s with
  | nil => exact hs
  | cons e es ih =>
    unfold readElems
    refine ih ?_
    split
    · exact sound_readElem hs
    · dsimp only
      split
      · exact hs
      · exact sound_batchFault.2 hs
      · exact sound_readElem (sound_freshLines.2 hs)
      · exact sound_readElem (sound_modBatch.2 (sound_setSr.2 (sound_freshLines.2 hs)))

@[simp] theorem sound_writeDst {s t ctx core b d bs} (hs : State.Sound s) : (writeDst s t ctx core b d bs).Sound := by
  unfold writeDst
  split <;> simp [hs]

@[simp] theorem sound_writeDsts {t ctx core b l s} (hs : State.Sound s) : (writeDsts t ctx core b l s).Sound := by
  induction l generalizing s with
  | nil => exact hs
  | cons e r ih => exact ih (sound_writeDst hs)

@[simp] theorem sound_countDst {s b n} : (countDst s b n).Sound ↔ s.Sound := Iff.rfl

@[simp] theorem sound_streamIndex {s core b w at_ ps i} (hs : State.Sound s) : (streamIndex s core b w at_ ps i).2.Sound := by
  simp [streamIndex, hs]

@[simp] theorem sound_expandFrom {t core b dst w tab place ps n i s} (hs : State.Sound s) :
    (expandFrom t core b dst w tab place ps n i s).Sound := by
  induction n generalizing i s with
  | zero => exact hs
  | succ n ih => exact ih (sound_modTeam.2 (sound_streamIndex hs))

theorem sound_countEarly {s op t} (hs : State.Sound s) (ht : countEarly s op = some t) : t.Sound := by
  unfold countEarly at ht
  split at ht
  · cases ht
  · split at ht <;> cases ht
    split <;> simp [hs]

theorem sound_endEngine {s op f} (hf : (f s).Sound) (hs : State.Sound s) : (endEngine s op f).Sound := by
  unfold endEngine
  split
  · next ht => exact sound_countEarly hs ht
  · exact sound_completeOp.2 hf

theorem outSound_execCopyRequestComplete {op s} (hs : State.Sound s) : OutSound (execCopyRequestComplete op s) := by
  unfold execCopyRequestComplete
  rw [outSound_next]
  split
  · exact hs
  · split
    · exact hs
    · split
      · exact hs
      · split
        · dsimp only
          generalize hr : readElems _ _ _ _ _ _ s = r
          have hr : r.2.2.Sound := hr ▸ sound_readElems hs
          split
          · exact sound_setKind.2 hr
          · exact sound_endEngine (sound_countDst.2 (sound_writeDsts (sound_setKind.2 hr))) (sound_setKind.2 hr)
        · split
          · exact hs
          · exact sound_endEngine (by simp [hs]) hs
        all_goals exact hs

theorem sound_awlRead {s ctx core b n far ea r} (hs : State.Sound s) (hr : awlRead s ctx core b n far ea = .ok r) : r.2.Sound := by
  unfold awlRead at hr
  dsimp only at hr
  generalize (if far then localize s ea else ea) = a at hr
  split at hr
  · split at hr <;> cases hr
    simp [hs]
  · split at hr
    · cases hr
    · split at hr <;> cases hr
      simp [hs]

@[simp] theorem sound_modAwl {s op f} : (modAwl s op f).Sound ↔ s.Sound := Iff.rfl

@[simp] theorem sound_awlIndex {s core b op a i} (hs : State.Sound s) : (awlIndex s core b op a i).Sound := by
  simp [awlIndex, hs]

@[simp] theorem sound_awlElem {s ctx core b order op a i ix} (hs : State.Sound s) : (awlElem s ctx core b order op a i ix).Sound := by
  unfold awlElem
  dsimp only
  split
  · simp [hs]
  · split
    · split <;> simp [hs]
    · next hr => simp [sound_awlRead hs hr]

@[simp] theorem sound_awlStep {ctx core b order op s i} (hs : State.Sound s) : (awlStep ctx core b order op s i).Sound := by
  unfold awlStep
  dsimp only
  repeat' split
  all_goals simp [hs]

@[simp] theorem sound_awlWrite {s t b a last} : (awlWrite s t b a last).Sound ↔ s.Sound := by
  simp [awlWrite]

@[simp] theorem sound_awlBurst {s op o b order a} (hs : State.Sound s) : (awlBurst s op o b order a).Sound := by
  unfold awlBurst
  dsimp only
  split
  · exact hs
  · split
    · exact sound_endEngine (by simp [hs]) hs
    · simp [hs]

theorem outSound_execAwlBurst {op s} (hs : State.Sound s) : OutSound (execAwlBurst op s) := by
  unfold execAwlBurst
  rw [outSound_next]
  split
  · exact hs
  · split
    · have hf : ∀ {ctx core b order a}, ((List.range a).foldl (awlStep ctx core b order op) s).Sound :=
        sound_foldl (fun s i hs => sound_awlStep hs) _ hs
      dsimp only
      split <;> simp [hf]
    · exact hs

theorem outSound_execChunkPost {batch s} (hs : State.Sound s) : OutSound (execChunkPost batch s) := by
  unfold execChunkPost
  split <;> simp [hs]

@[simp] theorem sound_writeRecord {s b} (hs : State.Sound s) : (writeRecord s b).Sound := by
  unfold writeRecord
  repeat' split
  all_goals simp [hs]

theorem outSound_execRingFullRetry {batch s} (hs : State.Sound s) : OutSound (execRingFullRetry batch s) := by
  unfold execRingFullRetry
  split <;> simp [hs]

@[simp] theorem sound_loadTable {s op tab img} (hs : State.Sound s) : (loadTable s op tab img).Sound := by
  unfold loadTable
  split
  · exact hs
  · refine sound_modCore.2 (sound_foldl (fun s k hs => sound_fillLine ?_) _ hs)
    split <;> simp [hs]

/-! ## Views -/

@[simp] theorem sound_modView {s ctx k f} : (modView s ctx k f).Sound ↔ s.Sound := Iff.rfl

theorem outSound_viewWord {h d a f s} (hf : ∀ s c n v, State.Sound s → (f s c n v).2.Sound) (hs : State.Sound s) :
    OutSound (viewWord h d a f s) := by
  refine sound_issue (fun x s hs => ?_) hs
  dsimp only
  split
  · simp [hs]
  · split
    · exact resSound_trap _
    · simp [hf _ _ _ _ hs]

@[simp] theorem sound_vregRead {s x ma va lm lv} (hs : State.Sound s) : (vregRead s x ma va lm lv).2.Sound := by
  simp [vregRead, hs]

theorem resSound_vregEnd {h d pol x g} (hs : g.2.Sound) : ResSound (vregEnd h d pol x g) := by
  unfold vregEnd
  split
  · exact resSound_stall
  · split <;> simp [hs]

theorem outSound_execVreg {h d a b pol s} (hs : State.Sound s) : OutSound (execVreg h d a b pol s) := by
  refine sound_issue (fun x s hs => ?_) hs
  dsimp only
  split
  · simp [hs]
  · split
    · exact resSound_vregEnd (sound_vregRead hs)
    · split <;> simp

@[simp] theorem sound_dropView {s ctx k v} : (dropView s ctx k v).Sound ↔ s.Sound := Iff.rfl

theorem outSound_execVdrop {h a s} (hs : State.Sound s) : OutSound (execVdrop h a s) := by
  refine sound_issue (fun x s hs => ?_) hs
  dsimp only
  repeat' split
  all_goals simp [hs]

@[simp] theorem sound_vsyncIssue {h d a cur waited s} (hs : State.Sound s) : (vsyncIssue h d a cur waited s).Sound := by
  refine sound_issue (fun x s hs => ?_) hs
  dsimp only
  repeat' split
  all_goals simp [hs]

theorem outSound_execVgen {h d a view s} (hs : State.Sound s) : OutSound (execVgen h d a view s) := by
  refine sound_issue (fun x s hs => ?_) hs
  dsimp only
  repeat' split
  all_goals simp [hs]

theorem outSound_execVpol {h a pol s} (hs : State.Sound s) : OutSound (execVpol h a pol s) := by
  refine sound_issue (fun x s hs => ?_) hs
  dsimp only
  repeat' split
  all_goals simp [hs]

theorem outSound_execVstat {h d a clr s} (hs : State.Sound s) : OutSound (execVstat h d a clr s) := by
  refine sound_issue (fun x s hs => ?_) hs
  dsimp only
  repeat' split
  all_goals simp [hs]

@[simp] theorem sound_vwDrop {s line} : (vwDrop s line).Sound ↔ s.Sound := Iff.rfl

@[simp] theorem sound_skiverWrites {ctx l s} (hs : State.Sound s) : (skiverWrites ctx l s).Sound := by
  induction l generalizing s with
  | nil => exact hs
  | cons e t ih => exact ih (sound_homeWrite (sound_vwDrop.2 hs))

@[simp] theorem sound_suspendView {s ctx k g cause va v} (hs : State.Sound s) : (suspendView s ctx k g cause va v).Sound := by
  simp [suspendView, hs]

@[simp] theorem sound_scrambled {s ctx k j ws} (hs : State.Sound s) : (scrambled s ctx k j ws).Sound := by
  refine sound_foldl (fun st w hst => ?_) _ hs
  split <;> simp [hst]

theorem outSound_execSkiverRefresh {ctx slot block s} (hs : State.Sound s) : OutSound (execSkiverRefresh ctx slot block s) := by
  unfold execSkiverRefresh
  dsimp only
  repeat' split
  all_goals simp [hs]

/-! ## Launch -/

theorem sound_extPut {s ctx va bs r} (hs : State.Sound s) (hr : extPut s ctx va bs = .ok r) : r.2.Sound := by
  unfold extPut at hr
  split at hr <;> cases hr
  exact sound_foldl (fun s e hs => sound_homeWrite hs) _ hs

@[simp] theorem sound_cpMarked {s ctx b} : (cpMarked s ctx b).Sound ↔ s.Sound := by
  simp [cpMarked]

theorem sound_cpWrite {s ctx va bs t} (hs : State.Sound s) (ht : cpWrite s ctx va bs = .ok t) : t.Sound := by
  unfold cpWrite at ht
  cases hr : extPut s ctx va bs with
  | error c => rw [hr] at ht; cases ht
  | ok r =>
    rw [hr] at ht
    cases ht
    exact sound_cpMarked.2 (sound_extPut hs hr)

@[simp] theorem sound_cpRelease {s ctx} : (cpRelease s ctx).Sound ↔ s.Sound := by
  simp [cpRelease]

theorem sound_cpSignal {s ctx op addr val t} (hs : State.Sound s) (ht : cpSignal s ctx op addr val = .ok t) : t.Sound := by
  unfold cpSignal at ht
  split at ht
  · cases ht
  · dsimp only at ht
    split at ht <;> cases ht
    next hw => exact sound_cpRelease.2 (sound_cpWrite hs hw)

@[simp] theorem sound_spillOne {part s r} (hs : State.Sound s) : (spillOne part s r).Sound := by
  simp [spillOne, hs]

@[simp] theorem sound_respill {s part} (hs : State.Sound s) : (respill s part).Sound :=
  sound_foldl (fun _ _ => sound_spillOne) _ (sound_modPart.2 hs)

@[simp] theorem sound_pushReady {s part r} (hs : State.Sound s) : (pushReady s part r).Sound := by
  simp [pushReady, hs]

@[simp] theorem sound_modGrid {s n f} : (modGrid s n f).Sound ↔ s.Sound := Iff.rfl

@[simp] theorem sound_moveReady {s part r} (hs : State.Sound s) : (moveReady s part r).Sound := by
  unfold moveReady
  split <;> simp [hs]

@[simp] theorem sound_refill {s part} (hs : State.Sound s) : (refill s part).Sound :=
  sound_foldl (fun _ _ => sound_moveReady) _ (sound_respill hs)

@[simp] theorem sound_writeTeams {n k s} (hs : State.Sound s) : (writeTeams n k s).Sound := by
  induction k generalizing s with
  | zero => exact hs
  | succ k ih =>
    unfold writeTeams
    split
    · exact hs
    · split
      · exact hs
      · exact ih (by simp [hs])

@[simp] theorem sound_dropLines {s die lines} : (dropLines s die lines).Sound ↔ s.Sound := by
  unfold dropLines
  dsimp only
  repeat' split
  all_goals simp

@[simp] theorem sound_partPathDrop {s p} : (partPathDrop s p).Sound ↔ s.Sound := Iff.rfl

@[simp] theorem sound_boundary {s ctx part listed} : (boundary s ctx part listed).Sound ↔ s.Sound := by
  unfold boundary
  split
  · rfl
  · cases listed with
    | none => simp [sound_foldl_iff fun _ _ => sound_genBump]
    | some rs => simp [sound_foldl_iff fun _ _ => sound_dropLines]

@[simp] theorem sound_writeAllTeams {s n} (hs : State.Sound s) : (writeAllTeams s n).Sound := by
  unfold writeAllTeams
  split <;> simp [hs]

@[simp] theorem sound_newGrid {s ctx part lr queue cop listed} :
    (newGrid s ctx part lr queue cop listed).2.Sound ↔ s.Sound := Iff.rfl

/-! ## Work -/

theorem outSound_execSpawn {h a b prio s} (hs : State.Sound s) : OutSound (execSpawn h a b prio s) := by
  refine sound_issue (fun x s hs => ?_) hs
  dsimp only
  repeat' split
  all_goals simp [hs]

@[simp] theorem sound_enterTasks {grid tidx part prio l s} (hs : State.Sound s) : (enterTasks grid tidx part prio l s).2.Sound := by
  induction l generalizing s with
  | nil => exact hs
  | cons e t ih =>
    unfold enterTasks
    dsimp only
    split
    · exact ih (sound_pushReady hs)
    · exact hs

@[simp] theorem sound_poolTask {s part r} (hs : State.Sound s) : (poolTask s part r).2.Sound := by
  simp [poolTask, hs]

@[simp] theorem sound_readyTask {s part lane r} (hs : State.Sound s) : (readyTask s part lane r).2.1.Sound := by
  unfold readyTask
  dsimp only
  repeat' split
  all_goals simp [hs]

@[simp] theorem sound_spawncLanes {x v part prio a b c l s} (hs : State.Sound s) : (spawncLanes x v part prio a b c l s).2.2.Sound := by
  induction l generalizing s with
  | nil => exact hs
  | cons l t ih =>
    unfold spawncLanes
    refine ih ?_
    split
    · exact sound_readyTask hs
    · exact sound_poolTask hs

theorem outSound_execSpawnc {h d a b c prio s} (hs : State.Sound s) : OutSound (execSpawnc h d a b c prio s) := by
  refine sound_issue (fun x s hs => ?_) hs
  dsimp only
  repeat' split
  all_goals simp [hs]

@[simp] theorem sound_doneOne {s part n hd} (hs : State.Sound s) : (doneOne s part n hd).Sound := by
  unfold doneOne
  dsimp only
  repeat' split
  all_goals simp [hs]

theorem outSound_execDone {h a n s} (hs : State.Sound s) : OutSound (execDone h a n s) := by
  refine sound_issue (fun x s hs => ?_) hs
  dsimp only
  split
  · exact resSound_trap _
  · split
    · exact resSound_trap _
    · next ht =>
      exact sound_openLong.2 (sound_releaseFork (sound_foldl (fun s l hs => sound_doneOne hs) _ (sound_releaseBy hs ht)))

@[simp] theorem sound_edgeReach {s w l n} (hs : State.Sound s) : (edgeReach s w l n).Sound := by
  simp [edgeReach, hs]

@[simp] theorem sound_edgeSeen {s w ea} (hs : State.Sound s) : (edgeSeen s w ea).Sound := by
  unfold edgeSeen
  split <;> simp [hs]

theorem sound_enqOne {s x l ea payload r} (hs : State.Sound s) (hr : enqOne s x l ea payload = some r) : r.2.Sound := by
  unfold enqOne at hr
  dsimp only at hr
  split at hr
  · cases hr
  · split at hr
    · cases hr
    · split at hr <;> cases hr
      exact sound_threadWrite (sound_threadWrite (sound_edgeReach (sound_edgeSeen hs)))

theorem sound_deqOne {s x l ea r} (hs : State.Sound s) (hr : deqOne s x l ea = some r) : r.2.Sound := by
  unfold deqOne at hr
  generalize hu : edgeSeen s (x.who l) ea = u at hr
  have hu : u.Sound := hu ▸ sound_edgeSeen hs
  dsimp only at hr
  split at hr
  · cases hr
  · split at hr
    · cases hr
    · split at hr
      · cases hr
      · rw [Option.some.injEq] at hr
        subst hr
        exact sound_threadWrite (sound_edgeReach hu)

theorem sound_edgeLanes {one try_ l s} (ho : ∀ s l r, State.Sound s → one s l = some r → r.2.Sound) (hs : State.Sound s) :
    (edgeLanes one try_ l s).2.Sound := by
  induction l generalizing s with
  | nil => exact hs
  | cons l t ih =>
    unfold edgeLanes
    split
    · next hr => exact ih (ho _ _ _ hs hr)
    · split
      · exact ih hs
      · exact hs

@[simp] theorem sound_setDoneLanes {s x ls} : (setDoneLanes s x ls).Sound ↔ s.Sound := Iff.rfl

theorem resSound_edgeBody {h a enq try_ one out x s} (ho : ∀ x v s l r, State.Sound s → one x v s l = some r → r.2.Sound)
    (hs : State.Sound s) : ResSound (edgeBody h a enq try_ one out x s) := by
  unfold edgeBody
  dsimp only
  generalize hu : List.foldl _ s _ = u
  have hu : u.Sound := by
    subst hu
    exact sound_foldl (fun s l hs => sound_edgeSeen hs) _ hs
  split
  · exact hu
  · split
    · exact hu
    · next u1 h1 =>
      have h1 : u1.Sound := by
        split at h1
        · exact sound_releaseBy hu h1
        · cases h1; exact hu
      generalize hr : edgeLanes _ _ _ _ = r
      have hr : r.2.Sound := hr ▸ sound_edgeLanes (fun s l r => ho _ _ s l r) h1
      generalize hv : (if enq = true then _ else _) = v
      have hv : v.Sound := by
        subst hv
        split
        · exact sound_releaseFork hr
        · split <;> simp [hr]
      split
      · simp [hv]
      · split <;> simp [hv]

@[simp] theorem sound_enqIssue {h a b try_ s} (hs : State.Sound s) : (enqIssue h a b try_ s).Sound :=
  sound_issue (fun _ _ => resSound_edgeBody fun _ _ _ _ _ => sound_enqOne) hs

@[simp] theorem sound_deqIssue {h d a try_ s} (hs : State.Sound s) : (deqIssue h d a try_ s).Sound :=
  sound_issue (fun _ _ => resSound_edgeBody fun _ _ _ _ _ => sound_deqOne) hs

@[simp] theorem sound_edgeRetry {i s} (hs : State.Sound s) : (edgeRetry i s).Sound := by
  unfold edgeRetry
  split
  · exact sound_reissue (fun _ => sound_enqIssue) hs
  · exact sound_reissue (fun _ => sound_deqIssue) hs
  · exact hs

@[simp] theorem sound_lsBytes {w ps va n s} (hs : State.Sound s) : (lsBytes w ps va n s).2.Sound := by
  induction n generalizing va s with
  | zero => exact hs
  | succ n ih =>
    have hr : (readNow s w .ls (placeLoc (placeAt ps va)) 8).2.Sound := sound_readNow hs
    unfold lsBytes
    generalize readNow s w .ls (placeLoc (placeAt ps va)) 8 = r at hr
    exact ih hr

@[simp] theorem sound_klaunchRec {s x ea} (hs : State.Sound s) : (klaunchRec s x ea).2.Sound := by
  have hb : ∀ {w ps va n u bs v}, State.Sound u → lsBytes w ps va n u = (bs, v) → v.Sound :=
    fun hu h => sound_of_snd h (sound_lsBytes hu)
  have hentries : ∀ {u : State} {w p n es v} {c : Bool} {y : Except AFault (List Place)}, u.Sound →
      (if c then .ok ([], u) else match y with
        | .error f => .error f
        | .ok qs => .ok (lsBytes w qs p n u)) = Except.ok (ε := AFault) (es, v) → v.Sound := by
    intro u w p n es v c y hu he
    split at he
    · cases he; exact hu
    · cases y with
      | error => cases he
      | ok qs => exact hb hu (Except.ok.inj he)
  fun_cases klaunchRec s x ea
  case case1 => exact hs
  case case2 h _ _ _ _ _ _ => exact hb hs h
  case case3 h _ _ _ _ _ _ he _ =>  exact hentries (hb hs h) he
  case case4 h _ _ _ _ _ _ he _ _ =>  exact hentries (hb hs h) he

@[simp] theorem sound_klaunched {h x r} : (klaunched h x r).Sound ↔ r.2.Sound := sound_openLong

theorem outSound_execKlaunch {h a b cnt s} (hs : State.Sound s) : OutSound (execKlaunch h a b cnt s) := by
  refine sound_issue (fun x s hs => ?_) hs
  dsimp only
  split
  · simp [hs]
  · have hk : (klaunchRec s x ((x.view s).r64 x.lead a)).2.Sound := sound_klaunchRec hs
    generalize klaunchRec s x ((x.view s).r64 x.lead a) = r at hk
    split
    · exact hk
    · exact hk
    · split
      · exact hk
      · next ht => simp [sound_releaseBy hk ht]

/-! ## Frontier -/

@[simp] theorem sound_enterAll {s t role nexts} : (enterAll s t role nexts).Sound ↔ s.Sound := by
  unfold enterAll
  split <;> simp

@[simp] theorem sound_forgetExit {s tm k} : (forgetExit s tm k).Sound ↔ s.Sound := Iff.rfl

@[simp] theorem sound_freeSlot {s t k} : (freeSlot s t k).Sound ↔ s.Sound := by
  unfold freeSlot
  split <;> simp

@[simp] theorem sound_joinRelease {t role es s} : (joinRelease t role es s).Sound ↔ s.Sound := by
  unfold joinRelease
  split <;> simp

@[simp] theorem sound_formAt {s t tm e} (hs : State.Sound s) : (formAt s t tm e).Sound := by
  simp [formAt, hs]

@[simp] theorem sound_formTeam {s t} (hs : State.Sound s) : (formTeam s t).Sound := by
  fun_cases formTeam <;> simp [hs]

@[simp] theorem sound_promptTeam {s t} : (promptTeam s t).Sound ↔ s.Sound := by
  unfold promptTeam
  split <;> simp

theorem outSound_execFormation {core s} (hs : State.Sound s) : OutSound (execFormation core s) := by
  unfold execFormation
  split <;> simp [hs]

theorem outSound_execJoinRelease {team role s} (hs : State.Sound s) : OutSound (execJoinRelease team role s) := by
  unfold execJoinRelease
  split <;> simp [hs]

@[simp] theorem sound_dissolveTrace {s x} (hs : State.Sound s) : (dissolveTrace s x).Sound := by
  unfold dissolveTrace
  split <;> simp [hs]

@[simp] theorem sound_dissolve {s x role nexts} (hs : State.Sound s) : (dissolve s x role nexts).Sound := by
  simp [dissolve, hs]

@[simp] theorem sound_fetchFill {ctx core staged ls s} (hs : State.Sound s) : (fetchFill ctx core staged ls s).Sound := by
  refine sound_foldl (fun s l hs => ?_) _ hs
  split <;> simp [hs]

@[simp] theorem sound_fetched {s t tm ls} (hs : State.Sound s) : (fetched s t tm ls).Sound := by
  simp [fetched, hs]

@[simp] theorem sound_fetchTrap {s t k g f} (hs : State.Sound s) : (fetchTrap s t k g f).Sound := by
  simp [fetchTrap, hs]

theorem outSound_execClauseFetch {i s} (hs : State.Sound s) : OutSound (execClauseFetch i s) := by
  unfold execClauseFetch
  repeat' split
  all_goals simp [hs]

/-! ## Control -/

@[simp] theorem resSound_transferBody {kind u checked link f x s} (hs : State.Sound s) :
    ResSound (transferBody kind u checked link f x s) := by
  unfold transferBody
  dsimp only
  repeat' split
  all_goals simp [hs]

theorem outSound_execBra {h off s} (hs : State.Sound s) : OutSound (execBra h off s) := by
  refine sound_issue (fun x s hs => ?_) hs
  simp [hs]

theorem outSound_execBrx {h a off sh s} (hs : State.Sound s) : OutSound (execBrx h a off sh s) := by
  refine sound_issue (fun x s hs => ?_) hs
  simp [hs]

theorem outSound_execCall {h a off s} (hs : State.Sound s) : OutSound (execCall h a off s) := by
  refine sound_issue (fun x s hs => ?_) hs
  simp [hs]

theorem outSound_execCallx {h a s} (hs : State.Sound s) : OutSound (execCallx h a s) := by
  refine sound_issue (fun x s hs => ?_) hs
  simp [hs]

theorem outSound_execRet {h a s} (hs : State.Sound s) : OutSound (execRet h a s) := by
  refine sound_issue (fun x s hs => ?_) hs
  simp [hs]

theorem outSound_execJoin {s} (hs : State.Sound s) : OutSound (execJoin s) := by
  refine sound_issue (fun x s hs => ?_) hs
  simp [hs]

theorem outSound_execExit {g s} (hs : State.Sound s) : OutSound (execExit g s) := by
  refine sound_issue (fun x s hs => ?_) hs
  simp [hs]

@[simp] theorem sound_noteExit {s x} : (noteExit s x).Sound ↔ s.Sound := Iff.rfl

@[simp] theorem sound_resolveMoves {s x tr} (hs : State.Sound s) : (resolveMoves s x tr).Sound := by
  unfold resolveMoves
  repeat' split
  all_goals simp [hs]

theorem outSound_execTransferResolve {team slot s} (hs : State.Sound s) : OutSound (execTransferResolve team slot s) := by
  unfold execTransferResolve
  repeat' split
  all_goals simp [hs]

theorem outSound_execNop {g s} (hs : State.Sound s) : OutSound (execNop g s) :=
  sound_issueBoth (fun _ _ hs => hs) (fun _ _ hs => hs) hs

@[simp] theorem sound_waitdcIssue {g mask n s} (hs : State.Sound s) : (waitdcIssue g mask n s).Sound := by
  refine sound_issue (fun x s hs => ?_) hs
  repeat' split
  all_goals simp [hs]

/-! ## System -/

theorem outSound_execTrap {g code s} (hs : State.Sound s) : OutSound (execTrap g code s) := by
  refine sound_issue (fun x s hs => ?_) hs
  repeat' split
  all_goals simp [hs]

@[simp] theorem sound_debugHalt {s core part b} : (debugHalt s core part b).Sound ↔ s.Sound := Iff.rfl

theorem outSound_execBkpt {g code s} (hs : State.Sound s) : OutSound (execBkpt g code s) := by
  refine sound_issue (fun x s hs => ?_) hs
  repeat' split
  all_goals simp [hs]

@[simp] theorem sound_tfenceIssue {g s} (hs : State.Sound s) : (tfenceIssue g s).Sound := by
  refine sound_issue (fun x s hs => ?_) hs
  dsimp only
  repeat' split
  all_goals simp [hs]

theorem outSound_execYield {n s} (hs : State.Sound s) : OutSound (execYield n s) := by
  refine sound_issue (fun x s hs => ?_) hs
  repeat' split
  all_goals simp [hs]

theorem outSound_execRth {s} (hs : State.Sound s) : OutSound (execRth s) := by
  refine sound_issue (fun x s hs => ?_) hs
  simp [hs]

theorem outSound_execSread {h d sel m s} (hs : State.Sound s) : OutSound (execSread h d sel m s) := by
  simp [execSread, hs]

theorem outSound_execSwrite {g a sel pair s} (hs : State.Sound s) : OutSound (execSwrite g a sel pair s) := by
  simp [execSwrite, hs]

theorem outSound_execEbset {h a s} (hs : State.Sound s) : OutSound (execEbset h a s) := by
  refine sound_issue (fun x s hs => ?_) hs
  repeat' split
  all_goals simp [hs]

theorem outSound_execPmctl {h a n op s} (hs : State.Sound s) : OutSound (execPmctl h a n op s) := by
  refine sound_issue (fun x s hs => ?_) hs
  dsimp only
  repeat' split
  all_goals simp [hs]

theorem outSound_execTrctl {h a mode k s} (hs : State.Sound s) : OutSound (execTrctl h a mode k s) := by
  refine sound_issue (fun x s hs => ?_) hs
  dsimp only
  repeat' split
  all_goals simp [hs]

@[simp] theorem sound_stopFor {kind s t} : (stopFor kind s t).Sound ↔ s.Sound := by
  unfold stopFor
  dsimp only
  repeat' split
  all_goals simp

theorem outSound_execCtxsave {h a s} (hs : State.Sound s) : OutSound (execCtxsave h a s) := by
  refine sound_issue (fun x s hs => ?_) hs
  dsimp only
  repeat' split
  all_goals simp [hs]

theorem outSound_execHalt {code s} (hs : State.Sound s) : OutSound (execHalt code s) := by
  refine sound_issue (fun x s hs => ?_) hs
  simp [hs]

@[simp] theorem sound_classWRetry {i s} (hs : State.Sound s) : (classWRetry i s).Sound := by
  unfold classWRetry
  split
  · exact sound_reissue (fun _ => sound_waitdcIssue) hs
  · exact sound_reissue (fun _ => sound_tfenceIssue) hs
  · exact sound_reissue (fun _ => sound_crwaitIssue) hs
  · exact sound_reissue (fun _ => sound_vsyncIssue) hs
  · exact sound_reissue (fun _ => sound_issue fun _ _ => resSound_ldlBody) hs
  · exact sound_reissue (fun _ => sound_fenceIssue) hs
  · exact sound_reissue (fun _ => sound_pfenceIssue) hs
  · exact hs

@[simp] theorem sound_retryWait {i s} (hs : State.Sound s) : (retryWait i s).Sound :=
  sound_edgeRetry (sound_bufwRetry (sound_semRetry (sound_classWRetry hs)))

/-! ## Matrix -/

@[simp] theorem resSound_quarterIssue {h st f x s} (hs : State.Sound s) : ResSound (quarterIssue h st f x s) := by
  unfold quarterIssue
  split <;> simp [hs]

theorem outSound_execQbind {h a b st sc n s} (hs : State.Sound s) : OutSound (execQbind h a b st sc n s) := by
  refine sound_issue (fun x s hs => ?_) hs
  simp [hs]

theorem outSound_execQrel {h st s} (hs : State.Sound s) : OutSound (execQrel h st s) := by
  refine sound_issue (fun x s hs => ?_) hs
  simp [hs]

theorem outSound_execQbindLatch {team stage s} (hs : State.Sound s) : OutSound (execQbindLatch team stage s) := by
  unfold execQbindLatch
  repeat' split
  all_goals simp [hs]

theorem sresSound_debit {s x d go} (hg : ∀ s, State.Sound s → SResSound (go s)) (hs : State.Sound s) : SResSound (debit s x d go) := by
  unfold debit
  split
  · exact sresSound_stall
  · split
    · exact hg s hs
    · split
      · exact hg _ (sound_modCtx.2 hs)
      · simp [hs]

@[simp] theorem sound_matrixIssue {h ga fsa fsb ec acc st smma s} (hs : State.Sound s) :
    (matrixIssue h ga fsa fsb ec acc st smma s).Sound := by
  refine sound_issueSeq (fun x s hs => ?_) hs
  dsimp only
  split
  · exact sresSound_stall
  · split
    · exact sresSound_trap _ _ _
    · split
      · exact sresSound_trap _ _ _
      · split
        · exact sresSound_trap _ _ _
        · split
          · exact sresSound_trap _ _ _
          · exact sresSound_debit (fun s => sound_openSeq.2) hs

theorem outSound_execMatrixComplete {op s} (hs : State.Sound s) : OutSound (execMatrixComplete op s) := by
  unfold execMatrixComplete
  repeat' split
  all_goals simp [hs]

@[simp] theorem sound_energyRetry {s t} (hs : State.Sound s) : (energyRetry s t).Sound := by
  unfold energyRetry
  split <;> simp [hs]

@[simp] theorem sound_qWrite {s t n b} : (qWrite s t n b).Sound ↔ s.Sound := Iff.rfl

@[simp] theorem sound_seqQ {x gs qd f s} (hs : State.Sound s) : (seqQ x gs qd f s).Sound := by
  simp [seqQ, hs]

@[simp] theorem sound_openGld {s x h gd src} (hs : State.Sound s) : (openGld s x h gd src).Sound := by
  simp [openGld, hs]

theorem outSound_execGld {x gd ga imm sp s} (hs : State.Sound s) : OutSound (execGld x gd ga imm sp s) := by
  refine sound_issueSeq (fun x s hs => ?_) hs
  dsimp only
  repeat' split
  all_goals simp [hs]

theorem outSound_execGbra {x off s} (hs : State.Sound s) : OutSound (execGbra x off s) := by
  simp [execGbra, hs]

theorem outSound_execGloop {x gd off s} (hs : State.Sound s) : OutSound (execGloop x gd off s) := by
  refine sound_issueSeq (fun x s hs => ?_) hs
  dsimp only
  repeat' split
  all_goals simp [hs]

theorem outSound_execMend {s} (hs : State.Sound s) : OutSound (execMend s) := by
  simp [execMend, hs]

@[simp] theorem sound_deliverTo {s t k q} (hs : State.Sound s) : (deliverTo s t k q).Sound := by
  unfold deliverTo
  repeat' split
  all_goals simp [hs]

theorem outSound_execSequencerTrapDelivery {team s} (hs : State.Sound s) : OutSound (execSequencerTrapDelivery team s) := by
  unfold execSequencerTrapDelivery
  dsimp only
  repeat' split
  all_goals simp [hs]

/-! ## Join -/

@[simp] theorem sresSound_joinDone {x gd acc stop y s r} (hs : State.Sound s) : SResSound (joinDone x gd acc stop y s r) := by
  unfold joinDone
  dsimp only
  split
  · simp [hs]
  · simp [hs]
  · split <;> simp [hs]

@[simp] theorem sound_jmacIssue {x gd ga gb fsa fsb ec acc stop s} (hs : State.Sound s) :
    (jmacIssue x gd ga gb fsa fsb ec acc stop s).Sound := by
  refine sound_issueSeq (fun y s hs => ?_) hs
  dsimp only
  split
  · exact sresSound_stall
  · split
    · exact sresSound_trap _ _ _
    · refine sresSound_debit (fun s hs => ?_) hs
      split
      · exact sresSound_stall
      · exact sresSound_joinDone hs

theorem outSound_execEnergyDebitWaitEnd {team s} (hs : State.Sound s) : OutSound (execEnergyDebitWaitEnd team s) := by
  unfold execEnergyDebitWaitEnd
  repeat' split
  all_goals simp [hs]

theorem outSound_execJins {x gd ga fsa acc stop s} (hs : State.Sound s) : OutSound (execJins x gd ga fsa acc stop s) := by
  refine sound_issueSeq (fun x s hs => ?_) hs
  dsimp only
  repeat' split
  all_goals simp [hs]

theorem outSound_execAccz {x acc hash s} (hs : State.Sound s) : OutSound (execAccz x acc hash s) := by
  refine sound_issueSeq (fun x s hs => ?_) hs
  repeat' split
  all_goals simp [hs]

theorem outSound_execAccsp {x acc buf s} (hs : State.Sound s) : OutSound (execAccsp x acc buf s) := by
  refine sound_issueSeq (fun x s hs => ?_) hs
  dsimp only
  repeat' split
  all_goals simp [hs]

theorem outSound_execAcccnt {x gd acc s} (hs : State.Sound s) : OutSound (execAcccnt x gd acc s) := by
  refine sound_issueSeq (fun x s hs => ?_) hs
  repeat' split
  all_goals simp [hs]

@[simp] theorem sound_openDrain {s t dc full kind} : (openDrain s t dc full kind).Sound ↔ s.Sound := by
  unfold openDrain
  split <;> simp

theorem outSound_execAccdr {x gd ga fsa acc od clr full s} (hs : State.Sound s) :
    OutSound (execAccdr x gd ga fsa acc od clr full s) := by
  refine sound_issueSeq (fun x s hs => ?_) hs
  dsimp only
  repeat' split
  all_goals simp [hs]

/-! ## Packets -/

@[simp] theorem sound_modQueue {s q f} : (modQueue s q f).Sound ↔ s.Sound := Iff.rfl

@[simp] theorem sound_descPut {s u off bs} (hs : State.Sound s) : (descPut s u off bs).Sound := by
  unfold descPut
  split <;> simp [hs]

@[simp] theorem sound_descWrite {s u off bs} (hs : State.Sound s) : (descWrite s u off bs).Sound := by
  simp [descWrite, hs]

@[simp] theorem sound_packetReject {s q code} (hs : State.Sound s) : (packetReject s q code).Sound := by
  unfold packetReject
  split <;> simp [hs]

@[simp] theorem sound_journalPut {s j} : (journalPut s j).Sound ↔ s.Sound := by
  simp [journalPut]

@[simp] theorem sound_freezeChannel {s ch c cause va} (hs : State.Sound s) : (freezeChannel s ch c cause va).Sound := by
  simp [freezeChannel, hs]

@[simp] theorem sound_remoteFail {s} : (remoteFail s).Sound ↔ s.Sound := Iff.rfl

@[simp] theorem sound_remoteViolation {s ctx cause va} (hs : State.Sound s) : (remoteViolation s ctx cause va).Sound := by
  simp [remoteViolation, hs]

theorem sound_extWrite {s ctx va bs t} (hs : State.Sound s) (ht : extWrite s ctx va bs = .ok t) : t.Sound := by
  unfold extWrite at ht
  cases hr : extPut s ctx va.toNat bs with
  | error c => rw [hr] at ht; cases ht
  | ok r =>
    rw [hr] at ht
    cases ht
    exact sound_extPut hs hr

@[simp] theorem sound_hostWrite {s ch c va bs} (hs : State.Sound s) : (hostWrite s ch c va bs).Sound := by
  unfold hostWrite
  split
  · simp [hs]
  · next ht => exact sound_journalPut.2 (sound_extWrite hs ht)

@[simp] theorem sound_fabricWrite {s pkg ctx va bs} (hs : State.Sound s) : (fabricWrite s pkg ctx va bs).Sound := by
  unfold fabricWrite
  split
  · simp [hs]
  · next ht => exact sound_journalPut.2 (sound_extWrite hs ht)

@[simp] theorem sound_replayOne {s j} (hs : State.Sound s) : (replayOne s j).Sound := by
  unfold replayOne
  split
  · exact hs
  · split
    · simp [hs]
    · next ht => exact sound_journalPut.2 (sound_extWrite hs ht)
  · exact sound_fabricWrite hs
  · exact hs
  · exact hs

@[simp] theorem sound_replayWrites {s} (hs : State.Sound s) : (replayWrites s).Sound :=
  sound_foldl (fun _ _ => sound_replayOne) _ hs

@[simp] theorem sound_replayPacket {s q} (hs : State.Sound s) : (replayPacket s q).Sound := by
  simp [replayPacket, hs]

@[simp] theorem sound_packetDone {s q slots} (hs : State.Sound s) : (packetDone s q slots).Sound := by
  unfold packetDone
  split <;> simp [hs]

theorem sound_packetRun {q bar s f} (hf : ∀ u, State.Sound (f u)) (hs : State.Sound s) : (packetRun q bar s f).Sound := by
  unfold packetRun
  split
  · exact hs
  · split
    · exact hs
    · exact hf _

@[simp] theorem sound_packetHold {s q} : (packetHold s q).Sound ↔ s.Sound := Iff.rfl

theorem outSound_execPacketNop {q len bar s} (hs : State.Sound s) : OutSound (execPacketNop q len bar s) :=
  sound_packetRun (fun _ => sound_packetDone hs) hs

@[simp] theorem sound_launchWrite {s q n} (hs : State.Sound s) : (launchWrite s q n).Sound := by
  simp [launchWrite, hs]

@[simp] theorem sound_launchGrid {s q u lr cop} : (launchGrid s q u lr cop).2.Sound ↔ s.Sound := Iff.rfl

theorem outSound_execLaunch {q bar rec cop s} (hs : State.Sound s) : OutSound (execLaunch q bar rec cop s) := by
  unfold execLaunch
  rw [outSound_next]
  split
  · exact sound_packetRun (fun _ => sound_launchWrite hs) hs
  · refine sound_packetRun (fun u => ?_) hs
    split
    · exact hs
    · split
      · simp [hs]
      · exact sound_launchWrite (sound_modQueue.2 (sound_launchGrid.2 hs))

theorem outSound_execPacketFence {q bar es s} (hs : State.Sound s) : OutSound (execPacketFence q bar es s) := by
  refine sound_packetRun (fun u => ?_) hs
  split <;> simp [hs]

theorem outSound_execSignal {q bar op addr val s} (hs : State.Sound s) : OutSound (execSignal q bar op addr val s) := by
  refine sound_packetRun (fun u => ?_) hs
  split
  · simp [hs]
  · next ht => exact sound_packetDone (sound_cpSignal hs ht)

theorem outSound_execEdge {q bar consumer k desc s} (hs : State.Sound s) : OutSound (execEdge q bar consumer k desc s) := by
  refine sound_packetRun (fun u => ?_) hs
  split
  · simp [hs]
  · split <;> simp [hs]

theorem outSound_execInval {q bar len ranges s} (hs : State.Sound s) : OutSound (execInval q bar len ranges s) :=
  sound_packetRun (fun _ => sound_packetDone (sound_modQueue.2 hs)) hs

theorem outSound_execTimestamp {q bar addr s} (hs : State.Sound s) : OutSound (execTimestamp q bar addr s) := by
  refine sound_packetRun (fun u => ?_) hs
  split
  · simp [hs]
  · next ht => exact sound_packetDone (sound_cpRelease.2 (sound_cpWrite hs ht))

@[simp] theorem fetchedSound_fetchPacket {s q} (hs : State.Sound s) : FetchedSound (fetchPacket s q) := by
  fun_cases fetchPacket <;> simp [hs]

@[simp] theorem sound_packetTurn {s q st} : (packetTurn s q st).Sound ↔ s.Sound := by
  unfold packetTurn
  split <;> simp

theorem outSound_execErrClear {q s} (hs : State.Sound s) : OutSound (execErrClear q s) := by
  unfold execErrClear
  split <;> simp [hs]

theorem outSound_execReadAhead {q s} (hs : State.Sound s) : OutSound (execReadAhead q s) := by
  unfold execReadAhead
  dsimp only
  repeat' split
  all_goals simp [hs]

/-! ## Saves -/

@[simp] theorem sound_startSave {kind s t} : (startSave kind s t).Sound ↔ s.Sound := by
  unfold startSave
  split
  · rfl
  · exact sound_foldl_iff fun _ _ => sound_stopFor

@[simp] theorem sound_drainTeam {s t} (hs : State.Sound s) : (drainTeam s t).Sound := by
  simp [drainTeam, hs]

@[simp] theorem sound_dropTeam {s t tm} : (dropTeam s t tm).Sound ↔ s.Sound := by
  have hf : ∀ (l : Store Group) (s : State), (l.foldl (fun s e => forgetExit s tm e.1) s).Sound ↔ s.Sound :=
    fun _ _ => sound_foldl_iff fun _ _ => sound_forgetExit
  simp [dropTeam, hf]

/-- A save writes the team's image into its slots of the pool (R348). -/
@[simp] theorem sound_saveOne {kind slot s e} (hs : State.Sound s) : (saveOne kind slot s e).Sound := by
  unfold saveOne
  dsimp only
  split
  · exact sound_drainTeam hs
  · simp [hs]

@[simp] theorem sound_saveStep {s t} (hs : State.Sound s) : (saveStep s t).Sound := by
  unfold saveStep
  split
  · exact hs
  · dsimp only
    split
    case h_3 | h_4 => exact hs
    all_goals
      split
      · exact hs
      · split
        · exact hs
        · split
          · exact hs
          · exact sound_pushReady (sound_foldl (fun _ _ => sound_saveOne) _ (sound_modPart.2 hs))

@[simp] theorem sound_putCoreImage {s ctx l} (hs : State.Sound s) : (putCoreImage s ctx l).1.Sound := by
  fun_cases putCoreImage <;> simp [hs]

@[simp] theorem sound_endFault {s ctx} (hs : State.Sound s) : (endFault s ctx).Sound := by
  unfold endFault
  split <;> simp [hs]

@[simp] theorem sound_endHalt {s n} (hs : State.Sound s) : (endHalt s n).Sound := by
  unfold endHalt
  repeat' split
  all_goals simp [hs]

@[simp] theorem sound_endStops {s} (hs : State.Sound s) : (endStops s).Sound :=
  sound_foldl (fun _ _ => sound_endHalt) _ (sound_foldl (fun _ _ => sound_endFault) _ hs)

@[simp] theorem sound_dropSlice {s core} : (dropSlice s core).Sound ↔ s.Sound := Iff.rfl

@[simp] theorem sound_putRestored {s im tm} : (putRestored s im tm).Sound ↔ s.Sound := Iff.rfl

/-! ## Teams -/

@[simp] theorem sound_popRec {s part r} (hs : State.Sound s) : (popRec s part r).Sound := by
  simp [popRec, hs]

@[simp] theorem sound_placeOne {r g sh seq mates sps s e} : (placeOne r g sh seq mates sps s e).Sound ↔ s.Sound := by
  unfold placeOne
  split <;> simp

@[simp] theorem sound_placeNew {s part core r g} (hs : State.Sound s) : (placeNew s part core r g).Sound := by
  unfold placeNew
  dsimp only
  split
  · exact hs
  · have hf : ∀ {f : State → Nat × Nat → State} {l}, (∀ s e, (f s e).Sound ↔ s.Sound) → (List.foldl f (popRec s part r) l).Sound :=
      fun hf => (sound_foldl_iff hf).2 (sound_popRec hs)
    split <;> simp [hf fun _ _ => sound_placeOne]

@[simp] theorem sound_restoreOne {s e} : (restoreOne s e).Sound ↔ s.Sound := by
  unfold restoreOne
  split <;> simp

@[simp] theorem sound_placeSaved {s part core r g} (hs : State.Sound s) : (placeSaved s part core r g).Sound := by
  unfold placeSaved
  generalize (if r.task = true then 1 else max 1 g.lrec.tcl) = n
  dsimp only
  split
  · simp [hs]
  · split
    · exact hs
    · split
      · simp [hs]
      · exact sound_modPart.2 ((sound_foldl_iff fun _ _ => sound_restoreOne).2 (sound_popRec hs))

@[simp] theorem sound_placeRec {s part core r} (hs : State.Sound s) : (placeRec s part core r).Sound := by
  fun_cases placeRec <;> simp [hs]

theorem outSound_execTeamPlace {core s} (hs : State.Sound s) : OutSound (execTeamPlace core s) := by
  unfold execTeamPlace
  repeat' split
  all_goals simp [hs]

@[simp] theorem sound_askReq {dl s t} : (askReq dl s t).Sound ↔ s.Sound := by
  unfold askReq
  split <;> simp

theorem outSound_execPreemptRequest {team deadline s} (hs : State.Sound s) : OutSound (execPreemptRequest team deadline s) := by
  unfold execPreemptRequest
  rw [outSound_next]
  split
  · exact hs
  · exact (sound_foldl_iff fun _ _ => sound_askReq).2 hs

theorem outSound_execCooperativeSave {team s} (hs : State.Sound s) : OutSound (execCooperativeSave team s) := by
  unfold execCooperativeSave
  split <;> simp [hs]

theorem outSound_execPreemptDeadline {team s} (hs : State.Sound s) : OutSound (execPreemptDeadline team s) := by
  unfold execPreemptDeadline
  split <;> simp [hs]

@[simp] theorem sound_rotAt {s core part n} : (rotAt s core part n).Sound ↔ s.Sound := Iff.rfl

@[simp] theorem sound_passTurn {s t k tm} : (passTurn s t k tm).Sound ↔ s.Sound := Iff.rfl

@[simp] theorem sound_takeTurn {s t k tm} (hs : State.Sound s) : (takeTurn s t k tm).Sound := by
  unfold takeTurn
  repeat' split
  all_goals simp [hs]

@[simp] theorem sound_turnEnd {s s' t k} : (turnEnd s s' t k).Sound ↔ s'.Sound := by
  unfold turnEnd
  split
  · rfl
  · split
    · rfl
    · split
      · split <;> simp
      · simp

@[simp] theorem outSound_groupStep {s t k o} : OutSound (groupStep s t k o) ↔ OutSound o := by
  cases o with
  | next s' => exact sound_turnEnd
  | fault => rfl
  | refused => rfl

@[simp] theorem sound_selectOrdinary {s core part rotate c cs} : (selectOrdinary s core part rotate c cs).Sound ↔ s.Sound := by
  simp [selectOrdinary]

@[simp] theorem sound_holdTurn {s core part d} (hs : State.Sound s) : (holdTurn s core part d).Sound := by
  unfold holdTurn
  split <;> simp [hs]

@[simp] theorem sound_selectRotation {s core part} (hs : State.Sound s) : (selectRotation s core part).Sound := by
  fun_cases selectRotation <;> simp [hs]

theorem outSound_execIssueSelect {core slot s} (hs : State.Sound s) : OutSound (execIssueSelect core slot s) := by
  unfold execIssueSelect
  repeat' split
  all_goals simp [hs]

@[simp] theorem sound_retireTeamEnd {s t tm} (hs : State.Sound s) : (retireTeamEnd s t tm).Sound := by
  simp [retireTeamEnd, hs]

theorem outSound_execTeamComplete {team s} (hs : State.Sound s) : OutSound (execTeamComplete team s) := by
  unfold execTeamComplete
  repeat' split
  all_goals simp [hs]

@[simp] theorem sound_gridCop {s g op addr val} (hs : State.Sound s) : (gridCop s g op addr val).Sound := by
  unfold gridCop
  split
  · next ht => exact sound_cpSignal hs ht
  · simp [hs]

theorem outSound_execGridComplete {grid s} (hs : State.Sound s) : OutSound (execGridComplete grid s) := by
  unfold execGridComplete
  repeat' split
  all_goals simp [hs]

/-! ## Manage -/

theorem outSound_execQueueRegister {q ctx va s} (hs : State.Sound s) : OutSound (execQueueRegister q ctx va s) := by
  unfold execQueueRegister
  repeat' split
  all_goals simp [hs]

@[simp] theorem sound_setCeilings {s part prefill pcap} : (setCeilings s part prefill pcap).Sound ↔ s.Sound := Iff.rfl

@[simp] theorem sound_rescale {s part} : (rescale s part).Sound ↔ s.Sound := by
  unfold rescale
  split <;> simp

theorem outSound_execPartitionConfig {r s} (hs : State.Sound s) : OutSound (execPartitionConfig r s) := by
  unfold execPartitionConfig
  repeat' split
  all_goals simp [hs]

@[simp] theorem sound_finishMove {s c src} : (finishMove s c src).Sound ↔ s.Sound := by
  unfold finishMove
  repeat' split
  all_goals simp

theorem outSound_execClusterMove {c src dst deadline s} (hs : State.Sound s) : OutSound (execClusterMove c src dst deadline s) := by
  unfold execClusterMove
  rw [outSound_next]
  split
  · exact hs
  · split
    · simp [hs]
    · split
      · exact hs
      · refine sound_finishMove.2 ?_
        split
        · exact sound_modPart.2 hs
        · exact (sound_foldl_iff fun _ _ => sound_askReq).2 (sound_modPart.2 hs)

theorem outSound_execThermalThrottle {part prefill s} (hs : State.Sound s) : OutSound (execThermalThrottle part prefill s) := by
  unfold execThermalThrottle
  split <;> simp [hs]

theorem outSound_execSavePoolRegister {part slots s} (hs : State.Sound s) : OutSound (execSavePoolRegister part slots s) := by
  unfold execSavePoolRegister
  rw [outSound_next]
  split
  · exact hs
  · split
    · exact hs
    · exact sound_foldl (fun _ _ => sound_saveStep) _ (sound_modPart.2 hs)

theorem outSound_execContextEnd {ctx s} (hs : State.Sound s) : OutSound (execContextEnd ctx s) := by
  refine sound_foldl (fun _ _ => sound_refill) _ ?_
  simpa using sound_foldl (fun s e hs => sound_dropTeam.2 (sound_drainTeam hs)) _ hs

@[simp] theorem sound_cancelGload {s t g} : (cancelGload s t g).Sound ↔ s.Sound := Iff.rfl

theorem outSound_execDebugRegisterWrite {d s} (hs : State.Sound s) : OutSound (execDebugRegisterWrite d s) := by
  unfold execDebugRegisterWrite
  dsimp only
  repeat' split
  all_goals simp [hs]

@[simp] theorem sound_checkpointSave {s e} (hs : State.Sound s) : (checkpointSave s e).Sound := by
  simp [checkpointSave, hs]

theorem kept_checkpoint {s n ps} (hs : State.Sound s) : Kept s.mem ((checkpointOf s ps :: s.keeping).take n) :=
  ⟨hs.1, fun _ hc => (List.mem_cons.1 (List.mem_of_mem_take hc)).elim (fun h => h ▸ hs.1) (hs.2 _)⟩

/-- A new checkpoint keeps memory as it stands, which is canonical (R381). -/
@[simp] theorem sound_checkpointStep {s ps} (hs : State.Sound s) : (checkpointStep s ps).Sound := by
  have hold : ∀ b (s : State), (ps.foldl (fun s p => modPart s p fun q => { q with paused := b }) s).Sound ↔ s.Sound :=
    fun _ _ => sound_foldl_iff fun _ _ => sound_modPart
  unfold checkpointStep
  dsimp only
  generalize hu : List.foldl _ (ps.foldl _ s) _ = u
  have hu : u.Sound := by
    subst hu
    refine sound_foldl (fun s e hs => ?_) _ ((hold true s).2 hs)
    split <;> simp [hs]
  split
  · exact hu
  · exact kept_checkpoint ((hold false u).2 hu)

/-! ## Engines -/

@[simp] theorem sound_applyPol {s t slot tag pol} : (applyPol s t slot tag pol).Sound ↔ s.Sound := by
  unfold applyPol
  split <;> simp

@[simp] theorem sound_writeImage {s t tm iss va bs} (hs : State.Sound s) : (writeImage s t tm iss va bs).Sound := by
  refine sound_foldl (fun s i hs => ?_) _ hs
  dsimp only
  split
  · exact hs
  · split
    · exact sound_foldl (fun s i hs => sound_setMark.2 hs) _ (sound_homeWrite hs)
    · exact sound_homeWrite hs

theorem sound_finishCtxsave {s t iss va u} (hs : State.Sound s) (hu : finishCtxsave s t iss va = some u) : u.Sound := by
  unfold finishCtxsave at hu
  split at hu
  · cases hu
  · split at hu
    · cases hu
    · rw [Option.some.injEq] at hu
      subst hu
      rw [sound_modTeam]
      split <;> simp [hs]

theorem outSound_execLongLatencyComplete {op s} (hs : State.Sound s) : OutSound (execLongLatencyComplete op s) := by
  unfold execLongLatencyComplete
  rw [outSound_next]
  split
  · exact hs
  · split
    · simp [hs]
    · simp [hs]
    · simp [hs]
    · simp [hs]
    · simp [hs]
    · split <;> simp [hs]
    · split <;> simp [hs]
    · exact sound_endEngine (sound_modTeam.2 hs) hs
    · simp [hs]
    · split
      · exact hs
      · dsimp only
        split <;> simp [hs]
    · simp [hs]
    · split
      · exact hs
      · next ht => exact sound_completeOp.2 (sound_finishCtxsave hs ht)
    all_goals exact hs

theorem outSound_execStoreDrain {core n s} (hs : State.Sound s) : OutSound (execStoreDrain core n s) := by
  unfold execStoreDrain
  split <;> simp [hs]

theorem outSound_execSample {core part s} (hs : State.Sound s) : OutSound (execSample core part s) := by
  unfold execSample
  dsimp only
  repeat' split
  all_goals simp [hs]

theorem outSound_execDirectoryMerge {quad base size s} (hs : State.Sound s) : OutSound (execDirectoryMerge quad base size s) := by
  unfold execDirectoryMerge
  split <;> simp [hs]

/-! ## Package -/

@[simp] theorem sound_noteShares {s} : (noteShares s).Sound ↔ s.Sound := by
  simp [noteShares]

/-- A rollback mixes the checkpoint's memory with the present one, byte by byte (R382). -/
theorem wf_rolledMem {s cp ps} (hcp : Memory.wf cp.mem = true) : Memory.wf (rolledMem s cp ps) = true :=
  List.foldlRecOn (motive := fun m => Memory.wf m = true) _ _ (wf_filter _ hcp) fun _ hm _ _ => wf_memSet _ _ hm
theorem sound_recoverTo {ps cp s} (hcp : Memory.wf cp.mem = true) (hs : State.Sound s) : (recoverTo ps cp s).Sound := by
  have hdrop : ((teamsOf s ps).foldl (fun s e => dropTeam s e.1 e.2) s).Sound := sound_foldl (fun _ _ => sound_dropTeam.2) _ hs
  have hbump : ∀ (l : Store Partition) (s : State), s.Sound →
      (l.foldl (fun s e => partPathDrop ((partDies e.2).foldl genBump s) e.2) s).Sound := fun l s hs =>
    sound_foldl (fun _ _ hs => sound_partPathDrop.2 ((sound_foldl_iff fun _ _ => sound_genBump).2 hs)) l hs
  exact ⟨wf_rolledMem hcp, (hbump _ _ hdrop).2⟩

@[simp] theorem sound_recover {s ps} (hs : State.Sound s) : (recover s ps).Sound := by
  refine sound_replayWrites ?_
  refine sound_foldl_mem (fun s' e he hs' => ?_) hs
  dsimp only
  split
  · exact hs'
  · exact sound_recoverTo (hs.2 _ (List.fst_mem_of_mem_zipIdx he)) hs'

@[simp] theorem sound_recoverParts {s ps} (hs : State.Sound s) : (recoverParts s ps).Sound := by
  simp [recoverParts, hs]

theorem outSound_execUncorrectableError {w s} (hs : State.Sound s) : OutSound (execUncorrectableError w s) := by
  unfold execUncorrectableError
  split <;> simp [hs]

@[simp] theorem sound_extPoison {s ctx va n} : (extPoison s ctx va n).Sound ↔ s.Sound := by
  fun_cases extPoison <;> simp

theorem outSound_execHostChannelAccess {ch a s} (hs : State.Sound s) : OutSound (execHostChannelAccess ch a s) := by
  unfold execHostChannelAccess
  repeat' split
  all_goals simp [hs]

theorem outSound_execFabricInboundRequest {pkg ctx a s} (hs : State.Sound s) :
    OutSound (execFabricInboundRequest pkg ctx a s) := by
  unfold execFabricInboundRequest
  repeat' split
  all_goals simp [hs]

/-! ## Clock -/

@[simp] theorem sound_tick {s s'} : (tick s s').Sound ↔ s'.Sound := Iff.rfl

@[simp] theorem sound_promptSaves {s} : (promptSaves s).Sound ↔ s.Sound := Iff.rfl

@[simp] theorem sound_promptMoves {s} : (promptMoves s).Sound ↔ s.Sound := Iff.rfl

@[simp] theorem sound_afterStep {s} (hs : State.Sound s) : (afterStep s).Sound := by
  simp [afterStep, hs]

@[simp] theorem sound_nextFair {s} : (nextFair s).Sound ↔ s.Sound := Iff.rfl

@[simp] theorem sound_fairCount {s} : (fairCount s).Sound ↔ s.Sound := by
  simp [fairCount]

@[simp] theorem outSound_countFair {o} : OutSound (countFair o) ↔ OutSound o := by
  cases o with
  | next s => exact sound_fairCount
  | fault => rfl
  | refused => rfl

theorem outSound_settle {before turn o} (ho : OutSound o) : OutSound (settle before turn o) := by
  cases o with
  | next s => cases turn <;> exact sound_afterStep (sound_tick.2 ho)
  | fault => trivial
  | refused => trivial

/-! ## Exchange -/

theorem outSound_execPmov {h f s} (hs : State.Sound s) : OutSound (execPmov h f s) := by
  unfold execPmov
  split <;> simp [hs]

/-! ## Decoder: every arm of `exec` -/

/-- Every instruction, packet and event keeps `State.Sound`. -/
theorem outSound_exec {i s} (hs : State.Sound s) : OutSound (exec i s) := by
  cases i
  case iadd | iaddImm | isub | isubImm | iaddx | imulw | imadw | icmp | icmpImm | isel | movi | movg | icmp64 | ffma | fcmp |
      hfma2 | hcmp2 | cvtfi | cvtif | cvtff | bpq | bpdq | bppk | bpupk | plop | shfl | shflImm | vote | ineg | iabs | iminImm
      | imaxImm | imulImm | imulhImm | andImm | orImm | xorImm | andnImm | not | shlImm | shrImm | rotImm | popc | clz | ffs |
      brev | mov | fclass | imin | imax | imul | imulh | and | or | xor | andn | shl | shr | rot | bfx | imad | lop3 | lop3Hi
      | shf | bfi | lea | shl64 | shr64 | leaImm | add64Imm | shl64Imm | shr64Imm | add64 | sub64 | fadd | fsub | fmul | fmin
      | fmax | frnd | hadd2 | hmul2 | hmin2 | hmax2 =>
    exact sound_laneA hs
  case idiv | imod | matchV | redux | frcp | frsq | fsqrt | fex2 | flg2 | fsin | fcos =>
    exact sound_laneL hs
  case coreImageAreaRegister | attestationReport | debugResume | budgetRefill | flitCrcRetry | linkPortFail | correctedError |
      debuggerAttach | fabricAccessOpen =>
    exact hs
  case gmov | gmovi | gadd | gmul | gshl =>
    exact sound_seqG hs
  case gcmp | qset | qlop =>
    exact sound_seqQ hs
  case fence | pfence | semw | waitph | bufw | crwait | vsync | enq | deq | waitdc | tfence | mma | smma | jmac | queueParse |
      contextRegister | translationInvalidate | rdcResize | hostChannelBind | cinchIdAssign | checkpoint | debugStop |
      bufferTransition | semaphoreWaitRelease | bufferWaitRelease | classWWaitRelease | edgeRetry | batchComplete |
      savePoolWaitEnd | nearArrayRebalance | packetPoll | traceSync | directoryRequest | spareActivation | dieFaultReplay |
      journalFull | firmwareVerify | coreReset | criticalTemperature =>
    simp [exec, execFence, execPfence, execSemw, execWaitph, execBufw, execCrwait, execVsync, execEnq, execDeq, execWaitdc,
      execTfence, execMma, execSmma, execJmac, execQueueParse, execContextRegister, execTranslationInvalidate, execRdcResize,
      execHostChannelBind, execCinchIdAssign, execCheckpoint, execDebugStop, execBufferTransition, execSemaphoreWaitRelease,
      execBufferWaitRelease, execClassWWaitRelease, execEdgeRetry, execBatchComplete, execSavePoolWaitEnd,
      execNearArrayRebalance, execPacketPoll, execTraceSync, execDirectoryRequest, execSpareActivation, execDieFaultReplay,
      execJournalFull, execFirmwareVerify, execCoreReset, execCriticalTemperature, hs]
  case pmov => exact outSound_execPmov hs
  case ld => exact outSound_execLd hs
  case st => exact outSound_execSt hs
  case ldk => exact outSound_execLdk hs
  case ldx => exact outSound_execLdx hs
  case stx => exact outSound_execStx hs
  case gath => exact outSound_execGath hs
  case scat => exact outSound_execScat hs
  case ldl => exact outSound_execLdl hs
  case stl => exact outSound_execStl hs
  case lyld => exact outSound_execLyld hs
  case lydrop => exact outSound_execLydrop hs
  case cinv => exact outSound_execCinv hs
  case pref => exact outSound_execPref hs
  case twalk => exact outSound_execTwalk hs
  case atom => exact outSound_execAtom hs
  case acas => exact outSound_execAcas hs
  case ared => exact outSound_execAred hs
  case semp => exact outSound_execSemp hs
  case semx => exact outSound_execSemx hs
  case arrive => exact outSound_execArrive hs
  case bufs => exact outSound_execBufs hs
  case cpy => exact outSound_execCpy hs
  case cpyl => exact outSound_execCpyl hs
  case cpyd => exact outSound_execCpyd hs
  case cbld => exact outSound_execCbld hs
  case cpyc => exact outSound_execCpyc hs
  case crpop => exact outSound_execCrpop hs
  case gathn => exact outSound_execGathn hs
  case vreg => exact outSound_execVreg hs
  case vdrop => exact outSound_execVdrop hs
  case vgen => exact outSound_execVgen hs
  case vpol => exact outSound_execVpol hs
  case vstat => exact outSound_execVstat hs
  case spawn => exact outSound_execSpawn hs
  case spawnc => exact outSound_execSpawnc hs
  case done => exact outSound_execDone hs
  case klaunch => exact outSound_execKlaunch hs
  case bra => exact outSound_execBra hs
  case brx => exact outSound_execBrx hs
  case call => exact outSound_execCall hs
  case callx => exact outSound_execCallx hs
  case ret => exact outSound_execRet hs
  case join => exact outSound_execJoin hs
  case exit => exact outSound_execExit hs
  case nop => exact outSound_execNop hs
  case trap => exact outSound_execTrap hs
  case yield => exact outSound_execYield hs
  case rth => exact outSound_execRth hs
  case sread => exact outSound_execSread hs
  case bkpt => exact outSound_execBkpt hs
  case swrite => exact outSound_execSwrite hs
  case ebset => exact outSound_execEbset hs
  case pmctl => exact outSound_execPmctl hs
  case trctl => exact outSound_execTrctl hs
  case ctxsave => exact outSound_execCtxsave hs
  case halt => exact outSound_execHalt hs
  case qbind => exact outSound_execQbind hs
  case qrel => exact outSound_execQrel hs
  case gld => exact outSound_execGld hs
  case gbra => exact outSound_execGbra hs
  case gloop => exact outSound_execGloop hs
  case mend => exact outSound_execMend hs
  case accz => exact outSound_execAccz hs
  case jins => exact outSound_execJins hs
  case accsp => exact outSound_execAccsp hs
  case accdr => exact outSound_execAccdr hs
  case acccnt => exact outSound_execAcccnt hs
  case packetNop => exact outSound_execPacketNop hs
  case launch => exact outSound_execLaunch hs
  case packetFence => exact outSound_execPacketFence hs
  case signal => exact outSound_execSignal hs
  case edge => exact outSound_execEdge hs
  case inval => exact outSound_execInval hs
  case timestamp => exact outSound_execTimestamp hs
  case errClear => exact outSound_execErrClear hs
  case readAhead => exact outSound_execReadAhead hs
  case queueRegister => exact outSound_execQueueRegister hs
  case partitionConfig => exact outSound_execPartitionConfig hs
  case clusterMove => exact outSound_execClusterMove hs
  case savePoolRegister => exact outSound_execSavePoolRegister hs
  case contextEnd => exact outSound_execContextEnd hs
  case debugRegisterWrite => exact outSound_execDebugRegisterWrite hs
  case teamPlace => exact outSound_execTeamPlace hs
  case issueSelect => exact outSound_execIssueSelect hs
  case clauseFetch => exact outSound_execClauseFetch hs
  case transferResolve => exact outSound_execTransferResolve hs
  case formation => exact outSound_execFormation hs
  case joinRelease => exact outSound_execJoinRelease hs
  case teamComplete => exact outSound_execTeamComplete hs
  case gridComplete => exact outSound_execGridComplete hs
  case longLatencyComplete => exact outSound_execLongLatencyComplete hs
  case storeDrain => exact outSound_execStoreDrain hs
  case ringFullRetry => exact outSound_execRingFullRetry hs
  case chunkPost => exact outSound_execChunkPost hs
  case copyRequestComplete => exact outSound_execCopyRequestComplete hs
  case awlBurst => exact outSound_execAwlBurst hs
  case uncorrectableError => exact outSound_execUncorrectableError hs
  case skiverRefresh => exact outSound_execSkiverRefresh hs
  case matrixComplete => exact outSound_execMatrixComplete hs
  case energyDebitWaitEnd => exact outSound_execEnergyDebitWaitEnd hs
  case qbindLatch => exact outSound_execQbindLatch hs
  case sequencerTrapDelivery => exact outSound_execSequencerTrapDelivery hs
  case cooperativeSave => exact outSound_execCooperativeSave hs
  case preemptDeadline => exact outSound_execPreemptDeadline hs
  case directoryMerge => exact outSound_execDirectoryMerge hs
  case fabricInboundRequest => exact outSound_execFabricInboundRequest hs
  case hostChannelAccess => exact outSound_execHostChannelAccess hs
  case thermalThrottle => exact outSound_execThermalThrottle hs
  case sample => exact outSound_execSample hs
  case preemptRequest => exact outSound_execPreemptRequest hs

theorem outSound_runFetched {f s} (hf : FetchedSound f) (hs : State.Sound s) : OutSound (runFetched f s) := by
  cases f with
  | word i => exact outSound_exec hs
  | state s' => exact hf

/-- One step, of an issuer's word or packet, of an event of the agenda or of an open one. -/
theorem outSound_step {s} (hs : State.Sound s) : OutSound (step s) := by
  unfold step
  split
  · trivial
  · split
    case h_1 t k _ => exact outSound_settle (outSound_groupStep.2 (outSound_runFetched (fetchedSound_fetchGroup hs) hs))
    case h_2 t _ => exact outSound_settle (outSound_runFetched (fetchedSound_fetchSeq hs) hs)
    case h_3 q _ => exact outSound_settle (outSound_runFetched (fetchedSound_fetchPacket hs) hs)
    case h_4 =>
      split
      · exact outSound_settle (outSound_exec hs)
      · refine outSound_settle (outSound_countFair.2 ?_)
        split
        · exact outSound_exec hs
        · exact hs

/-- Settles O7: each function of the model that writes memory or the checkpoints keeps their form, and `exec` and `step` are
made of these. -/
theorem stepKeepsSound : Obligations.StepKeepsSound := by
  intro s s' hs hstep
  have h := outSound_step hs
  rwa [hstep] at h

/-- Settles O8: nothing is listed in memory, and no checkpoint is kept. -/
theorem soundAtReset : Obligations.SoundAtReset :=
  ⟨⟨rfl, by simp [State.reset]⟩, rfl⟩

end Sys2Proof.Laws
end

section
/-! SUPPORT. The clocks (R28, R359): what the end of a turn and of a moment leaves of them. -/

namespace Sys2Proof.Laws

open Sys2Proof.Machine

/-- What `ClocksRunOn` follows over a step: the cycle count, the free-value index and whose turn it is. -/
def clocks (s : State) : Nat × Nat × Option Issuer := (s.cycle, s.freeCtr, s.issuer)

theorem clocks_of_bare {s s' : State} (h : bare s' = bare s) : clocks s' = clocks s :=
  (congrArg clocks h :)

theorem clocks_foldl {α : Type} {f : State → α → State} (h : ∀ s a, clocks (f s a) = clocks s) (l : List α) (s : State) :
    clocks (l.foldl f s) = clocks s := by
  induction l generalizing s with
  | nil => rfl
  | cons a t ih => rw [List.foldl_cons, ih, h]

theorem clocks_noticeAt (time : Nat) (s : State) (ctx kind cause unit arg : Nat) (addr : DWord) :
    clocks (noticeAt time s ctx kind cause unit arg addr) = clocks s := by
  unfold noticeAt
  dsimp only
  split
  · rfl
  · split
    · rfl
    · split
      · rfl
      · exact (clocks_of_bare (bare_homeWrite ..) :)

theorem clocks_putCoreImage (s : State) (ctx : Nat) (l : List (Nat × Team)) : clocks (putCoreImage s ctx l).1 = clocks s := by
  unfold putCoreImage
  split
  · rfl
  · dsimp only
    split <;> rfl

theorem clocks_endFault (s : State) (ctx : Nat) : clocks (endFault s ctx) = clocks s := by
  unfold endFault
  split
  · rfl
  · dsimp only
    split
    · rfl
    · exact (clocks_noticeAt ..).trans (clocks_putCoreImage ..)

theorem clocks_endHalt (s : State) (n : Nat) : clocks (endHalt s n) = clocks s := by
  unfold endHalt
  split
  · rfl
  · split
    · rfl
    · dsimp only
      split
      · rfl
      · exact (clocks_noticeAt ..).trans (clocks_putCoreImage ..)

theorem clocks_endStops (s : State) : clocks (endStops s) = clocks s :=
  (clocks_foldl clocks_endHalt _ _).trans (clocks_foldl clocks_endFault _ _)

theorem clocks_noteShares (s : State) : clocks (noteShares s) = clocks s := by
  unfold noteShares
  split <;> rfl

theorem clocks_afterStep (s : State) : clocks (afterStep s) = clocks s :=
  (clocks_noteShares _).trans (clocks_endStops s)

/-! ## A moment that brings nothing of itself -/

/-- The value that a store holds at a name is one of its entries. -/
theorem mem_of_sget {α : Type} {m : Store α} {n : Nat} {v : α} (h : sget m n = some v) : (n, v) ∈ m := by
  induction m with
  | nil => cases h
  | cons e t ih =>
    obtain ⟨k, w⟩ := e
    unfold sget at h
    split at h
    next hk =>
      cases h
      exact hk ▸ List.mem_cons_self ..
    next => exact List.mem_cons_of_mem _ (ih h)

theorem sget_mapKey {α β : Type} (f : Nat → α → β) (m : Store α) (n : Nat) :
    sget (m.map fun e => (e.1, f e.1 e.2)) n = (sget m n).map (f n) := by
  induction m with
  | nil => rfl
  | cons e t ih =>
    obtain ⟨k, w⟩ := e
    simp only [List.map_cons, sget, ih]
    split
    next hk => rw [hk]; rfl
    next => rfl

theorem foldl_fixed {α β : Type} {f : α → β → α} {a : α} (h : ∀ b, f a b = a) (l : List β) : l.foldl f a = a := by
  induction l with
  | nil => rfl
  | cons b t ih => rw [List.foldl_cons, h, ih]

theorem endFault_none {s : State} (h : ∀ e ∈ s.contexts, e.2.fault = none) (ctx : Nat) : endFault s ctx = s := by
  have hn : (sget s.contexts ctx).bind (·.fault) = none := by
    cases hc : sget s.contexts ctx with
    | none => rfl
    | some c => exact h _ (mem_of_sget hc)
  simp [endFault, hn]

theorem endHalt_none {s : State} (h : ∀ e ∈ s.grids, e.2.halting = none) (n : Nat) : endHalt s n = s := by
  unfold endHalt
  cases hg : sget s.grids n with
  | none => rfl
  | some g => simp [show g.halting = none from h _ (mem_of_sget hg)]

theorem endStops_none {s : State} (hf : ∀ e ∈ s.contexts, e.2.fault = none) (hh : ∀ e ∈ s.grids, e.2.halting = none) :
    endStops s = s := by
  unfold endStops
  rw [foldl_fixed (endFault_none hf), foldl_fixed (endHalt_none hh)]

theorem promptSaves_none {s : State} (h : ∀ e ∈ s.teams, e.2.preq = false) : promptSaves s = s := by
  have hn : ∀ e ∈ s.teams,
      (if saveDue s e.2 && !s.agenda.contains (.cooperativeSave e.1) then some (Instr.cooperativeSave e.1) else none) = none :=
    fun e he => by simp [saveDue, h e he]
  unfold promptSaves
  rw [List.filterMap_eq_nil_iff.2 hn, List.append_nil]

theorem promptMoves_none {s : State} (h : ∀ e ∈ s.teams, joinsDue s e.1 e.2 = [] ∧ formsDue s e.2.core = false) :
    promptMoves s = s := by
  have hn : (s.teams.flatMap fun e => joinsDue s e.1 e.2 ++ (if formsDue s e.2.core then [Instr.formation e.2.core] else [])) = [] :=
    List.flatMap_eq_nil_iff.2 fun e he => by simp [h e he]
  unfold promptMoves
  simp [hn]

theorem afterStep_quiet {s : State} (hf : ∀ e ∈ s.contexts, e.2.fault = none) (hh : ∀ e ∈ s.grids, e.2.halting = none)
    (hp : ∀ e ∈ s.teams, e.2.preq = false) (hj : ∀ e ∈ s.teams, joinsDue s e.1 e.2 = [] ∧ formsDue s e.2.core = false)
    (hk : s.keeping = []) : afterStep s = s := by
  unfold afterStep
  rw [endStops_none hf hh, promptSaves_none hp, promptMoves_none hj]
  exact if_pos hk

/-- What `tick` changes beside the clocks are the counting performance counters and the contexts' budgets. -/
theorem tick_frame (before s : State) :
    { tick before s with cycle := s.cycle, freeCtr := s.freeCtr, cores := s.cores, contexts := s.contexts } = s :=
  rfl

/-- What `tick` adds to the state that an instruction leaves. -/
theorem tick_adds (before s : State) :
    s.cycle < (tick before s).cycle ∧
    (∀ n c, sget s.cores n = some c → ∃ c', sget (tick before s).cores n = some c' ∧ { c' with pmc := c.pmc } = c) ∧
    ∀ n c, sget s.contexts n = some c → sget (tick before s).contexts n = some (refillTo (timeOf (tick before s)) c) := by
  refine ⟨?_, fun n c h => ⟨pmcTick before s _ _ n c, (sget_mapKey _ _ n).trans (congrArg (Option.map _) h), rfl⟩, fun n c h => ?_⟩
  · show s.cycle < s.cycle + (1 + _)
    omega
  · exact (sget_map _ _ n).trans (congrArg (Option.map _) h)

/-- Settles O5: `tick` is what the end of a turn adds, and `afterStep` only ends stops, prompts saves, JOIN releases and
formations, and notes shared pages. -/
theorem clocksRunOn : Obligations.ClocksRunOn := by
  refine ⟨fun before turn s => ⟨_, rfl, ?_⟩, fun u => ?_, fun u => afterStep_quiet⟩
  · cases turn with
    | false =>
      obtain ⟨hcycle, hcores, hcontexts⟩ := tick_adds before s
      simp only [Bool.false_eq_true, if_false]
      exact ⟨hcycle, rfl, rfl, tick_frame before s, hcores, hcontexts⟩
    | true =>
      obtain ⟨hcycle, hcores, hcontexts⟩ := tick_adds before { s with issuer := none }
      simp only [if_true]
      exact ⟨hcycle, rfl, rfl, congrArg (fun u : State => { u with issuer := s.issuer }) (tick_frame before { s with issuer := none }),
        hcores, hcontexts⟩
  · have h := clocks_afterStep u
    simp only [clocks, Prod.mk.injEq] at h
    exact h

end Sys2Proof.Laws
end

section
/-! SUPPORT. Queues: where a descriptor's fields go, how a packet ends, and whose turn is next (R26, R317, R318, R321, R324). -/

namespace Sys2Proof.Laws

open Sys2Proof.Machine

/-! ## The descriptor of a queue -/

section
variable {s : State} {u : Queue} {p : Place} (hp : descPlace s u = some p)
include hp

theorem mem_descPut (off : Nat) (bs : List Byte) : (descPut s u off bs).mem = memSets s.mem (p.pa + off) bs := by
  simp only [descPut, hp]
  exact (mc_homeWrite ..).1

theorem bare_descPut (off : Nat) (bs : List Byte) : bare (descPut s u off bs) = bare s := by
  simp only [descPut, hp]
  exact bare_homeWrite ..

theorem mem_descWrite (off : Nat) (bs : List Byte) : (descWrite s u off bs).mem = memSets s.mem (p.pa + off) bs := by
  unfold descWrite cpMarked
  split <;> exact mem_descPut hp off bs

theorem queues_descPut (off : Nat) (bs : List Byte) : (descPut s u off bs).queues = s.queues :=
  (congrArg State.queues (bare_descPut hp off bs) :)

theorem queues_descWrite (off : Nat) (bs : List Byte) : (descWrite s u off bs).queues = s.queues := by
  unfold descWrite cpMarked
  split <;> exact queues_descPut hp off bs

theorem replay_descWrite (off : Nat) (bs : List Byte) : (descWrite s u off bs).replay = s.replay := by
  unfold descWrite cpMarked
  split <;> exact (congrArg State.replay (bare_descPut hp off bs) :)

theorem queueRptr_eq : queueRptr s u = memNat s.mem (p.pa + 16) 4 := by
  simp [queueRptr, descNat, hp]

end

theorem checkStarts_served (s : State) (l : List Nat) (ctx : Nat) (pa : Path) (w : Bool) (vs : List Nat) :
    checkStarts { s with served := l } ctx pa w vs = checkStarts s ctx pa w vs := by
  have hpage : ∀ a, checkPage { s with served := l } ctx a pa w false = checkPage s ctx a pa w false := fun _ => rfl
  induction vs with
  | nil => rfl
  | cons a t ih => simp only [checkStarts, hpage, ih]

theorem descPlace_served (s : State) (l : List Nat) (u : Queue) : descPlace { s with served := l } u = descPlace s u := by
  simp only [descPlace, cpPlaces, checkStarts_served]

theorem memNat_memSets_same (m : List Host.Cell) (a n v : Nat) : memNat (memSets m a (natLe n v)) a n = v % 256 ^ n := by
  have h := memBytes_memSets m a (natLe n v)
  rw [length_natLe] at h
  rw [memNat, h, leNat_natLe]

/-- A number of memory that a write does not touch. -/
theorem memNat_memSets_out (m : List Host.Cell) (a b n : Nat) (bs : List Byte) (h : b + n ≤ a ∨ a + bs.length ≤ b) :
    memNat (memSets m a bs) b n = memNat m b n := by
  unfold memNat memBytes
  congr 1
  refine List.map_congr_left fun i hi => memByte_memSets_out m a (b + i) bs ?_
  have := List.mem_range.1 hi
  omega

/-! ## The end of a packet -/

theorem journalPut_keeps (s : State) (j : Journal) :
    (journalPut s j).mem = s.mem ∧ (journalPut s j).queues = s.queues ∧ (journalPut s j).replay = s.replay := by
  unfold journalPut
  dsimp only
  repeat' split
  all_goals exact ⟨rfl, rfl, rfl⟩

theorem replayPacket_none {s : State} (h : s.replay = []) (q : Nat) : replayPacket s q = s := by
  have hs : { s with replay := [] } = s := by rw [← h]
  simp [replayPacket, replayWrites, h, hs]

theorem packetDone_spec {s : State} {q : Nat} {u : Queue} {p : Place} (n : Nat) (hq : sget s.queues q = some u)
    (hp : descPlace s u = some p) (hr : s.replay = []) :
    (packetDone s q n).mem = memSets s.mem (p.pa + 16) (natLe 4 (queueRptr s u + n)) ∧
      (sget (packetDone s q n).queues q).map (·.status) = some .idle := by
  have hp' : descPlace { s with served := if s.served.contains q then s.served else q :: s.served } u = some p :=
    (descPlace_served ..).trans hp
  simp only [packetDone, hq]
  obtain ⟨hmem, hqueues, hreplay⟩ := journalPut_keeps (modQueue _ q _) (.packet q n)
  rw [replayPacket_none (hreplay.trans ((replay_descWrite hp' ..).trans hr)), hmem, hqueues]
  refine ⟨mem_descWrite hp' .., ?_⟩
  simp only [modQueue, queues_descWrite hp', sget_smod_eq, hq, Option.map_some]

theorem packetReject_spec {s : State} {q : Nat} {u : Queue} {p : Place} (code : Nat) (hq : sget s.queues q = some u)
    (hp : descPlace s u = some p) :
    (packetReject s q code).mem = memSets s.mem (p.pa + 20) [BitVec.ofNat 8 code] ∧
      (sget (packetReject s q code).queues q).map (·.status) = some .idle := by
  simp only [packetReject, hq]
  refine ⟨mem_descWrite hp .., ?_⟩
  simp only [modQueue, queues_descWrite hp, sget_smod_eq, hq, Option.map_some]

/-- A queue whose packet has its turn runs it. -/
theorem packetRun_turn {q : Nat} {bar : Bool} {s : State} {u : Queue} (h : PacketTurn q bar s u) (f : Queue → State) :
    packetRun q bar s f = f u := by
  obtain ⟨hq, hi, hb⟩ := h
  simp only [packetRun, hq]
  refine if_neg ?_
  simp only [hi, ne_eq, not_true_eq_false, decide_false, Bool.false_or, Bool.and_eq_true, decide_eq_true_eq]
  exact fun hn => hn.2 (hb hn.1)

theorem no_unwritten {s : State} {u : Queue} (h : ∀ n ∈ u.grids, allWritten s n = true) :
    (u.grids.find? fun n => !allWritten s n) = none :=
  List.find?_eq_none.2 fun n hn => by simp [h n hn]

/-! ## Turns -/

/-- What gives a queue its turn is QUEUE_PARSE or PACKET_POLL. -/
theorem exec_turnOf {q : Nat} {i : Instr} {st : QStatus} (h : turnOf q i = some st) (s : State) :
    exec i s = .next (packetTurn s q st) := by
  unfold turnOf at h
  split at h
  · split at h
    next hpq => cases h; cases hpq; rfl
    next => cases h
  · split at h
    next hpq => cases h; cases hpq; rfl
    next => cases h
  · cases h

section
variable {s : State} {q : Nat} {u : Queue} (hq : sget s.queues q = some u)
include hq

theorem packetTurn_fresh (h : s.served.contains q = false) : packetTurn s q u.status = { s with issuer := some (.packet q) } := by
  simp only [packetTurn, hq, h]
  simp

theorem packetTurn_round (h : s.served.contains q = true)
    (ho : ∀ e ∈ s.queues, s.served.contains e.1 = false → packetReady s e.1 = false) :
    packetTurn s q u.status = { s with issuer := some (.packet q), served := [] } := by
  have hn : (s.queues.any fun e => !s.served.contains e.1 && packetReady s e.1) = false := by
    refine List.any_eq_false.2 fun e he => ?_
    cases hc : s.served.contains e.1 with
    | true => simp
    | false => simp [ho e he hc]
  simp only [packetTurn, hq, h, hn]
  simp

theorem packetTurn_defers (h : s.served.contains q = true)
    (ho : ∃ e ∈ s.queues, s.served.contains e.1 = false ∧ packetReady s e.1 = true) : packetTurn s q u.status = s := by
  obtain ⟨e, he, hc, hr⟩ := ho
  have hn : (s.queues.any fun e => !s.served.contains e.1 && packetReady s e.1) = true :=
    List.any_eq_true.2 ⟨e, he, by simp only [hc, hr]; rfl⟩
  simp only [packetTurn, hq, h, hn]
  simp

theorem errClear_spec {p : Place} (hp : descPlace s u = some p) : ∃ t, exec (.errClear q) s = .next t ∧
    t.mem = memSets s.mem (p.pa + 20) [0] ∧ t.queues = s.queues :=
  ⟨descPut s u 20 [0], by simp only [exec, execErrClear, hq], mem_descPut hp .., queues_descPut hp ..⟩

theorem stopped_not_served (h : queueStopped s u = true) : packetReady s q = false ∧ fetchPacket s q = .state s :=
  ⟨by simp [packetReady, hq, h], by simp [fetchPacket, hq, h]⟩

end

theorem queueStopped_of {s : State} {u : Queue} (h : descPlace s u = none ∨ queueErr s u ≠ 0) : queueStopped s u = true := by
  unfold queueStopped
  rcases h with h | h <;> simp [h]

/-! ## Read-ahead -/

/-- A packet names the queue that it stands in. -/
theorem packetInstr_queue {q : Nat} {bs : List Byte} {p : Nat} {bar : Bool} {rec : DWord} {cop : Cop}
    (h : packetInstr q bs = some (.launch p bar rec cop)) : p = q := by
  unfold packetInstr at h
  dsimp only at h
  repeat' split at h
  all_goals simp_all

theorem smod_congr {α : Type} {m : Store α} {n : Nat} {v : α} {f g : α → α} (hm : sget m n = some v) (h : f v = g v) :
    smod m n f = smod m n g := by
  induction m with
  | nil => rfl
  | cons e t ih =>
    obtain ⟨k, w⟩ := e
    simp only [smod]
    split
    next hk =>
      simp only [sget, hk, if_true, Option.some.injEq] at hm
      rw [hm, h]
    next hk =>
      simp only [sget, hk, if_false] at hm
      rw [ih hm]

theorem sget_modQueue_twice {s : State} {q : Nat} {u : Queue} (hq : sget s.queues q = some u) (f g : Queue → Queue) :
    sget (modQueue (modQueue s q f) q g).queues q = some (g (f u)) := by
  simp only [modQueue, sget_smod_eq, hq, Option.map_some]

theorem modQueue_congr {s : State} {q : Nat} {u : Queue} {f g : Queue → Queue} (hq : sget s.queues q = some u) (h : f u = g u) :
    modQueue s q f = modQueue s q g := by
  rw [modQueue, smod_congr hq h, modQueue]

/-- What READ_AHEAD stages, where it may. -/
theorem readAhead_spec {s : State} {q : Nat} {u : Queue} {bs : List Byte} {i : Instr} (hq : sget s.queues q = some u)
    (hat : packetAt s u (stageFrom u.staged (queueRptr s u)) = .ok (some bs)) (hrun : queueStopped s u = false)
    (hw : u.status ≠ .waiting) (hi : packetInstr q bs = some i) (hpass : ∀ e ∈ u.staged, passable (launchWithBar bs) e = true)
    (hbar : launchWithBar bs = true → u.grids = []) :
    ((∀ bar rec cop, i ≠ .launch q bar rec cop) → exec (.readAhead q) s = .next (modQueue s q fun u =>
      { u with staged := u.staged ++ [(stageFrom u.staged (queueRptr s u), bs, [], [])] })) ∧
    ∀ bar rec cop r tb lr, i = .launch q bar rec cop → launchBytes s { u with staged := [] } rec = .ok (r, tb) →
      parseLaunch rec.toNat (leNat r) (tableWords (tb.length / 8) tb) = some lr → ∃ t v, exec (.readAhead q) s = .next t ∧
      t.mem = s.mem ∧ sget t.queues q = some v ∧ v.status = u.status ∧
      v.staged = u.staged ++ [(stageFrom u.staged (queueRptr s u), bs, r, tb)] ∧
      v.code = u.code ++ (stagedCode s u.ctx lr).map fun e => (stageFrom u.staged (queueRptr s u), e) := by
  have hgo : (queueStopped s u || decide (u.status = .waiting) || !u.staged.all (passable (launchWithBar bs)) ||
      (launchWithBar bs && decide (u.grids ≠ []))) = false := by
    simpa [hrun, hw, List.all_eq_true.2 hpass] using hbar
  unfold launchWithBar at hgo
  refine ⟨fun hn => ?_, fun bar rec cop r tb lr hl hb hp => ?_⟩
  · simp only [exec, execReadAhead, hq, hat, hgo, hi, Bool.false_eq_true, if_false]
    split
    next p bar rec cop hl =>
      cases hl
      exact absurd (packetInstr_queue hi ▸ rfl) (hn bar rec cop)
    next => exact congrArg Host.Outcome.next (modQueue_congr hq rfl)
  · subst hl
    have ht : exec (.readAhead q) s = .next (modQueue
        (modQueue s q fun v => { v with staged := v.staged ++ [(stageFrom u.staged (queueRptr s u), bs, r, tb)] }) q
        fun v => { v with code := v.code ++ (stagedCode s u.ctx lr).map fun e => (stageFrom u.staged (queueRptr s u), e) }) := by
      simp only [exec, execReadAhead, hq, hat, hgo, hi, hb, hp, Bool.false_eq_true, if_false]
    exact ⟨_, _, ht, rfl, sget_modQueue_twice hq _ _, rfl, rfl, rfl⟩

/-- Settles O52: a write of the descriptor is one of memory at its field, and each turn is `packetTurn`'s. -/
theorem packetsPassOrReject : Obligations.PacketsPassOrReject := by
  refine ⟨⟨fun s q u p n hq hp hr => ?_, fun s q u p code hq hp hc => ?_, fun s q bar op a v u e ht he => ?_,
    fun s q bar rec cop u e ht hw hc he => ?_⟩, fun s q u i hq ht => ?_, fun s q u p hq hp => ?_,
    fun s q u hq h => stopped_not_served hq (queueStopped_of h), fun s q u bs i hq hat hrun hw hi hpass hbar =>
      readAhead_spec hq hat hrun hw hi hpass hbar⟩
  · obtain ⟨hmem, hidle⟩ := packetDone_spec n hq hp hr
    simp only [hmem]
    refine ⟨memNat_memSets_same .., hidle, fun a ha => memByte_memSets_out _ _ _ _ ?_⟩
    rw [length_natLe]
    omega
  · obtain ⟨hmem, hidle⟩ := packetReject_spec code hq hp
    simp only [hmem]
    refine ⟨(memNat_memSets_same _ _ 1 code).trans (Nat.mod_eq_of_lt hc), ?_, hidle, fun a ha => memByte_memSets_out _ _ _ _ ?_⟩
    · rw [queueRptr_eq hp]
      exact memNat_memSets_out _ _ _ _ _ (.inl (Nat.le_refl _))
    · show a < p.pa + 20 ∨ p.pa + 20 + 1 ≤ a
      omega
  · simp only [exec, execSignal, packetRun_turn ht, he]
  · simp only [exec, execLaunch, ht.1, Option.bind_some, no_unwritten hw, packetRun_turn ht, if_neg hc, he]
  · simp only [exec_turnOf ht]
    refine ⟨fun h => ?_, fun h ho => ?_, fun h ho => ?_⟩
    · rw [packetTurn_fresh hq h]
    · rw [packetTurn_round hq h ho]
    · rw [packetTurn_defers hq h ho]
  · obtain ⟨t, ht, hmem, hqueues⟩ := errClear_spec hq hp
    refine ⟨t, ht, ?_, hqueues, fun a ha => ?_⟩
    · rw [hmem]
      exact memNat_memSets_same _ _ 1 0
    · rw [hmem]
      refine memByte_memSets_out _ _ _ _ ?_
      show a < p.pa + 20 ∨ p.pa + 20 + 1 ≤ a
      omega

end Sys2Proof.Laws
end

section
/-! SUPPORT. Teams on and off their cores: ready queues, placement and restore, completion, and saves (R24, R322, R328, R348,
R349). -/

namespace Sys2Proof.Laws

open Sys2Proof.Machine

/-! ## Ready queues -/

/-- A state without what the moves of records in ready queues may change. -/
def offQueue (s : State) : State := { s with mem := [], parts := [], grids := [], nextRec := 0 }

theorem offQueue_foldl {α : Type} {f : State → α → State} (h : ∀ s a, offQueue (f s a) = offQueue s) (l : List α) (s : State) :
    offQueue (l.foldl f s) = offQueue s := by
  induction l generalizing s with
  | nil => rfl
  | cons a t ih => rw [List.foldl_cons, ih, h]

/-- A record of a ready queue after the moves up: in the SRAM, where its place is among the head records. -/
def movedUp (s : State) (part : Nat) (e : ContRec × Nat) : ContRec :=
  if e.2 < 4096 && e.1.spill.isSome then ((recNow s part e.1).map fun r => { r with spill := none }).getD e.1 else e.1

/-- The records that stand in the SRAM move up. -/
def moveUp (s : State) (part : Nat) : State :=
  modPart s part fun p => { p with ready := p.ready.zipIdx.map (movedUp s part) }

theorem respill_eq (s : State) (part : Nat) : respill s part =
    (((sgetD (moveUp s part).parts part default).ready.drop 4096).filter fun r => r.place.isNone).foldl (spillOne part)
      (moveUp s part) :=
  rfl

theorem offQueue_with (s : State) (mem : List Host.Cell) (parts : Store Partition) :
    offQueue { s with mem := mem, parts := parts } = offQueue s :=
  rfl

theorem offQueue_spillOne (part : Nat) (s : State) (r : ContRec) : offQueue (spillOne part s r) = offQueue s :=
  offQueue_with ..

theorem offQueue_moveUp (s : State) (part : Nat) : offQueue (moveUp s part) = offQueue s :=
  offQueue_with s s.mem _

theorem offQueue_respill (s : State) (part : Nat) : offQueue (respill s part) = offQueue s := by
  rw [respill_eq, offQueue_foldl (offQueue_spillOne part), offQueue_moveUp]

theorem offQueue_pushReady (s : State) (part : Nat) (r : ContRec) : offQueue (pushReady s part r) = offQueue s :=
  (offQueue_respill _ part :)

theorem offQueue_moveReady (s : State) (part : Nat) (r : ContRec) : offQueue (moveReady s part r) = offQueue s := by
  unfold moveReady
  split
  · rfl
  · dsimp only
    split
    · rfl
    · exact offQueue_pushReady ..

theorem offQueue_popRec (s : State) (part : Nat) (r : ContRec) : offQueue (popRec s part r) = offQueue s :=
  (offQueue_foldl (fun s r => offQueue_moveReady s part r) _ _).trans (offQueue_respill _ part)

theorem teams_popRec (s : State) (part : Nat) (r : ContRec) : (popRec s part r).teams = s.teams :=
  (congrArg State.teams (offQueue_popRec s part r) :)

theorem nextTeam_popRec (s : State) (part : Nat) (r : ContRec) : (popRec s part r).nextTeam = s.nextTeam :=
  (congrArg State.nextTeam (offQueue_popRec s part r) :)

theorem mem_recInsert (r : ContRec) (l : List ContRec) : r ∈ recInsert r l := by
  induction l with
  | nil => exact List.mem_singleton_self r
  | cons q t ih =>
    unfold recInsert
    split
    · exact List.mem_cons_self ..
    · exact List.mem_cons_of_mem q ih

theorem length_recInsert (r : ContRec) (l : List ContRec) : (recInsert r l).length = l.length + 1 := by
  induction l with
  | nil => rfl
  | cons q t ih =>
    unfold recInsert
    split
    · rfl
    · simp [ih]

theorem sget_moveUp {s : State} {part : Nat} {p : Partition} (hp : sget s.parts part = some p) :
    sget (moveUp s part).parts part = some { p with ready := p.ready.zipIdx.map (movedUp s part) } :=
  (sget_smod_eq s.parts part _).trans (congrArg (Option.map _) hp)

theorem mem_moveUp {s : State} {part : Nat} {l : List ContRec} {r : ContRec} (h : r ∈ l) (hr : r.spill = none) :
    r ∈ l.zipIdx.map (movedUp s part) := by
  obtain ⟨i, hi, rfl⟩ := List.mem_iff_getElem.1 h
  exact List.mem_map.2 ⟨(l[i], i), List.mk_mem_zipIdx_iff_getElem?.2 (List.getElem?_eq_getElem hi), by simp [movedUp, hr]⟩

/-- A ready queue that the SRAM holds writes no slot of the spill area. -/
theorem respill_short {s : State} {part : Nat} {p : Partition} (hp : sget s.parts part = some p) (hl : p.ready.length ≤ 4096) :
    respill s part = moveUp s part := by
  rw [respill_eq, sgetD, sget_moveUp hp, Option.getD_some, List.drop_eq_nil_of_le (by simpa using hl)]
  rfl

/-- A record at its place in a ready queue. -/
def enqueue (s : State) (part : Nat) (r : ContRec) : State :=
  { modPart s part fun p => { p with ready := recInsert { r with seqno := s.nextRec } p.ready } with nextRec := s.nextRec + 1 }

theorem pushReady_eq (s : State) (part : Nat) (r : ContRec) : pushReady s part r = respill (enqueue s part r) part :=
  rfl

theorem sget_enqueue {s : State} {part : Nat} {p : Partition} (r : ContRec) (hp : sget s.parts part = some p) :
    sget (enqueue s part r).parts part = some { p with ready := recInsert { r with seqno := s.nextRec } p.ready } :=
  (sget_smod_eq s.parts part _).trans (congrArg (Option.map _) hp)

/-- A record enters a ready queue that has room in the SRAM. -/
theorem pushReady_room {s : State} {part : Nat} {p : Partition} {r : ContRec} (hp : sget s.parts part = some p)
    (hl : p.ready.length < 4096) (hr : r.spill = none) :
    (pushReady s part r).mem = s.mem ∧ ∃ p', sget (pushReady s part r).parts part = some p' ∧ p'.usedSlots = p.usedSlots ∧
      { r with seqno := s.nextRec } ∈ p'.ready := by
  rw [pushReady_eq, respill_short (sget_enqueue r hp) ((length_recInsert _ _).trans_le hl)]
  exact ⟨rfl, _, sget_moveUp (sget_enqueue r hp), rfl, mem_moveUp (mem_recInsert _ _) hr⟩

theorem readyFits_room {p : Partition} (r : ContRec) (hl : p.ready.length < 4096) : readyFits p r = true := by
  simp only [readyFits, length_recInsert, Bool.or_eq_true, decide_eq_true_eq]
  exact .inl hl

/-! ## Placement -/

theorem coreSlots_congr {s s' : State} (h : s'.teams = s.teams) : coreSlots s' = coreSlots s := by
  have hon : teamsOn s' = teamsOn s := by
    funext core
    rw [teamsOn, h, teamsOn]
  funext core sh seq
  unfold coreSlots slotsUsed regsUsed
  rw [hon]

/-- A core that has the head record of its partition places it. -/
theorem teamPlace_head {s : State} {core part : Nat} {p : Partition} {r : ContRec} {g : Grid}
    (hpart : partOfCluster s (coreCluster core) = some (part, p)) (hpause : p.paused = false)
    (hmoves : ∀ m ∈ p.moves, m.1 ≠ coreCluster core) (hfence : (getDie s (coreDie core)).fenced = false)
    (hhead : headRec s p = some r) (hnow : recNow s part r = some r) (hg : sget s.grids r.grid = some g) :
    exec (.teamPlace core) s = .next (if r.kind = .saved then placeSaved s part core r g else placeNew s part core r g) := by
  have hm : (p.moves.any fun m => decide (m.1 = coreCluster core)) = false :=
    List.any_eq_false.2 fun m hm => by simpa using hmoves m hm
  simp only [exec, execTeamPlace, hpart, hpause, hm, hfence, hhead, placeRec, hg, hnow, Bool.or_self, Bool.false_eq_true, if_false]

/-- A record of one team goes to the core that pops it. -/
theorem placeCores_one {s : State} {core : Nat} {fits : Nat → Nat → Bool} (h : fits 0 core = true) :
    placeCores s core 1 fits = some [core] := by
  simp [placeCores, h]

theorem placeOne_spec {r : ContRec} {g : Grid} {sh : Team} {seq : Bool} {s : State} {core : Nat} {sl : List (Nat × Nat)}
    (h : coreSlots s core sh seq = some sl) (t sp : Nat) :
    placeOne r g sh seq [t] [sp] s (core, 0) = dropSlice { s with teams := sset s.teams t (newTeam s r g t core 0 [t] [sp] sl) } core := by
  simp only [placeOne, h]
  rfl

/-- New teams of a record on cores, with their scratchpad. -/
def placedOn (s : State) (part : Nat) (r : ContRec) (g : Grid) (cs mates sps : List Nat) : State :=
  let s' := cs.zipIdx.foldl (placeOne r g (shapeOf g.lrec (r.kind = .task)) (g.lrec.stream ≠ 0 && !decide (r.kind = .task)) mates sps)
    (popRec s part r)
  { s' with nextTeam := s'.nextTeam + cs.length }

/-- What the placement of new teams adds: a task's acquire, or the end of the grid's staged code. -/
def startedOn (s : State) (core : Nat) (r : ContRec) : State :=
  if r.kind = .task then acquireAt s core .dev else modGrid s r.grid fun g => { g with code := [] }

theorem placeNew_eq {s : State} {part core n : Nat} {r : ContRec} {g : Grid} {cs : List Nat}
    (hn : (if r.kind = .task then 1 else max 1 g.lrec.tcl) = n)
    (hc : placeCores s core n (fun _ => coreFits s (shapeOf g.lrec (r.kind = .task)) (g.lrec.stream ≠ 0 && !decide (r.kind = .task))
      g.lrec.smin) = some cs) :
    placeNew s part core r g = startedOn (placedOn s part r g cs ((List.range cs.length).map fun i => s.nextTeam + i)
      (cs.map fun c => grantOf s c g.lrec (r.kind = .task))) core r := by
  subst hn
  unfold placeNew
  extract_lets lr task sh seq
  split
  next h => exact absurd (h.symm.trans hc) nofun
  next cs' h =>
    cases h.symm.trans hc
    extract_lets mates sps s1 s2
    rfl

theorem startedOn_keeps (s : State) (core : Nat) (r : ContRec) :
    (startedOn s core r).teams = s.teams ∧ (startedOn s core r).nextTeam = s.nextTeam := by
  unfold startedOn
  split <;> exact ⟨rfl, rfl⟩

theorem placedOn_one {s : State} {part core : Nat} {r : ContRec} {g : Grid} {sl : List (Nat × Nat)} (t sp : Nat)
    (h : coreSlots (popRec s part r) core (shapeOf g.lrec (r.kind = .task)) (g.lrec.stream ≠ 0 && !decide (r.kind = .task)) = some sl) :
    (placedOn s part r g [core] [t] [sp]).teams = sset s.teams t (newTeam (popRec s part r) r g t core 0 [t] [sp] sl) ∧
      (placedOn s part r g [core] [t] [sp]).nextTeam = s.nextTeam + 1 := by
  have hput := placeOne_spec (r := r) (g := g) h t sp
  simp only [placedOn, List.zipIdx_cons, List.zipIdx_nil, List.foldl_cons, List.foldl_nil, hput, List.length_singleton]
  exact ⟨congrArg (sset · t _) (teams_popRec s part r), congrArg (· + 1) (nextTeam_popRec s part r)⟩

theorem placeNew_spec {s : State} {part core : Nat} {r : ContRec} {g : Grid} (hone : r.kind = .task ∨ g.lrec.tcl = 1)
    (hfit : coreFits s (shapeOf g.lrec (r.kind = .task)) (g.lrec.stream ≠ 0 && !decide (r.kind = .task)) g.lrec.smin core = true) :
    (placeNew s part core r g).nextTeam = s.nextTeam + 1 ∧ ∃ sl, sget (placeNew s part core r g).teams s.nextTeam =
      some (newTeam (popRec s part r) r g s.nextTeam core 0 [s.nextTeam] [grantOf s core g.lrec (r.kind = .task)] sl) := by
  have hn : (if r.kind = .task then 1 else max 1 g.lrec.tcl) = 1 := by
    rcases hone with h | h <;> simp [h]
  obtain ⟨sl, hsl⟩ := Option.isSome_iff_exists.1 (Bool.and_eq_true_iff.1 hfit).1
  rw [← coreSlots_congr (teams_popRec s part r)] at hsl
  obtain ⟨hteams, hnext⟩ := placedOn_one s.nextTeam (grantOf s core g.lrec (r.kind = .task)) hsl
  rw [placeNew_eq hn (placeCores_one hfit), (startedOn_keeps _ core r).1, (startedOn_keeps _ core r).2]
  exact ⟨hnext, sl, (congrArg (sget · s.nextTeam) hteams).trans (sget_sset_eq ..)⟩

/-- A new team is what its record and its launch record say: its threads are live, their registers hold nothing, and its groups
stand at the record's code. -/
theorem newTeam_spec (s : State) (r : ContRec) (g : Grid) (t core sp : Nat) (slots : List (Nat × Nat)) :
    let tm := newTeam s r g t core 0 [t] [sp] slots
    let sh := shapeOf g.lrec (r.kind = .task)
    tm.core = core ∧ tm.grid = r.grid ∧ tm.ctx = g.ctx ∧ tm.prio = r.prio ∧ tm.tidx = r.tidx ∧ tm.karg = r.frame ∧
      tm.spsize = sp ∧ tm.task = (r.kind = .task) ∧ tm.nthr = sh.nthr ∧ tm.threads.length = sh.nthr ∧
      (∀ e ∈ tm.threads, e.2.live = true ∧ e.2.regs = []) ∧ ∀ e ∈ tm.groups, e.2.pc = r.code.toNat := by
  refine ⟨rfl, rfl, rfl, rfl, rfl, rfl, rfl, decide_eq_true_eq, rfl, ?_, fun e he => ?_, fun e he => ?_⟩
  · simp [newTeam]
  · obtain ⟨i, -, rfl⟩ := List.mem_map.1 he
    exact ⟨rfl, rfl⟩
  · obtain ⟨i, -, rfl⟩ := List.mem_map.1 he
    rfl

/-! ## Restore -/

/-- The slot of a saved record of one team. -/
theorem savedSlots_one {r : ContRec} {a : Nat} (hcode : r.code = BitVec.ofNat 64 (a + 1)) (ha : a < 2 ^ 63) :
    ((List.range 1).map fun i => r.code.toNat - 1 + i * 2 ^ 22) = [a] := by
  have hc : r.code.toNat - 1 = a := by
    rw [hcode, BitVec.toNat_ofNat]
    omega
  simp [List.range_succ, hc]

theorem recImages_one {s : State} {r : ContRec} {a : Nat} {im : Image} (hcode : r.code = BitVec.ofNat 64 (a + 1)) (ha : a < 2 ^ 63)
    (him : sget s.images a = some im) : recImages s 1 r = [(a, im)] := by
  rw [recImages, savedSlots_one hcode ha]
  simp [him]

theorem placeSaved_eq {s : State} {part core a : Nat} {r : ContRec} {g : Grid} {im : Image} (hone : r.task = true ∨ g.lrec.tcl = 1)
    (hcode : r.code = BitVec.ofNat 64 (a + 1)) (ha : a < 2 ^ 63) (him : sget s.images a = some im)
    (hfit : coreFits s im.team im.team.seq.isSome im.team.spsize core = true) :
    placeSaved s part core r g = match imageAt s a im with
      | none => fatalFault s g.ctx core 0 0
      | some im' => modPart (restoreOne (popRec s part r) ((a, im'), core)) part fun p =>
          { p with usedSlots := p.usedSlots.filter fun b => !([a] : List Nat).contains b } := by
  unfold placeSaved
  extract_lets n saved shape gone
  have hn : n = 1 := by
    rcases hone with h | h <;> simp [n, h]
  have hsaved : saved = [(a, im)] := by
    rw [← recImages_one hcode ha him, ← hn]
  have hgone : gone = [a] := by
    rw [← savedSlots_one hcode ha]
    exact congrArg (fun n => (List.range n).map fun i => r.code.toNat - 1 + i * 2 ^ 22) hn
  have hcores : placeCores s core saved.length (fun i => coreFits s (shape i) (shape i).seq.isSome (shape i).spsize) = some [core] := by
    rw [show saved.length = 1 by rw [hsaved]; rfl]
    refine placeCores_one ?_
    simp only [shape, hsaved]
    exact hfit
  have hims : (saved.mapM fun e => (imageAt s e.1 e.2).map fun im => (e.1, im)) = (imageAt s a im).map fun im => [(a, im)] := by
    rw [hsaved, List.mapM_cons]
    cases imageAt s a im <;> rfl
  rw [if_neg (by simp [hsaved]), hcores, hgone]
  dsimp only
  rw [hims]
  cases imageAt s a im with
  | none => rfl
  | some im' => simp only [Option.map_some, List.zip_cons_cons, List.zip_nil_left, List.foldl_cons, List.foldl_nil]

theorem pathDrop_keeps (s : State) (core : Nat) (codes : List Nat) :
    (pathDrop s core codes).teams = s.teams ∧ (pathDrop s core codes).images = s.images := by
  unfold pathDrop
  dsimp only
  split <;> exact ⟨rfl, rfl⟩

theorem dropPaths_keeps (s : State) (core : Nat) (codes : List Nat) :
    (dropSlice (pathDrop (genBump s (coreDie core)) core codes) core).teams = s.teams ∧
      (dropSlice (pathDrop (genBump s (coreDie core)) core codes) core).images = s.images :=
  pathDrop_keeps (genBump s (coreDie core)) core codes

theorem putRestored_keeps (s : State) (im : Image) (tm : Team) :
    (putRestored s im tm).teams = sset s.teams im.num tm ∧ (putRestored s im tm).images = s.images :=
  dropPaths_keeps _ tm.core [1, 2, 3, 4, 5]

/-- A restored team stands as its image gives it, on its new core. -/
theorem restoreOne_spec {s : State} {a core : Nat} {im : Image} (h : (coreSlots s core im.team im.team.seq.isSome).isSome) :
    ∃ sl, sget (restoreOne s ((a, im), core)).teams im.num = some (restoredTeam s im core sl) ∧
      (restoreOne s ((a, im), core)).images = serase s.images a := by
  obtain ⟨sl, hsl⟩ := Option.isSome_iff_exists.1 h
  obtain ⟨hteams, himages⟩ := putRestored_keeps { s with images := serase s.images a } im (restoredTeam s im core sl)
  refine ⟨sl, ?_⟩
  simp only [restoreOne, hsl]
  exact ⟨(congrArg (sget · im.num) hteams).trans (sget_sset_eq ..), himages⟩

theorem placeSaved_spec {s : State} {part core a : Nat} {r : ContRec} {g : Grid} {im im' : Image}
    (hone : r.task = true ∨ g.lrec.tcl = 1) (hcode : r.code = BitVec.ofNat 64 (a + 1)) (ha : a < 2 ^ 63)
    (him : sget s.images a = some im) (hfit : coreFits s im.team im.team.seq.isSome im.team.spsize core = true)
    (hat : imageAt s a im = some im') (hsl : (coreSlots s core im'.team im'.team.seq.isSome).isSome) :
    ∃ sl, sget (placeSaved s part core r g).teams im'.num = some (restoredTeam (popRec s part r) im' core sl) ∧
      sget (placeSaved s part core r g).images a = none := by
  rw [← coreSlots_congr (teams_popRec s part r)] at hsl
  obtain ⟨sl, hteam, himages⟩ := restoreOne_spec (a := a) hsl
  refine ⟨sl, ?_⟩
  rw [placeSaved_eq hone hcode ha him hfit, hat, modPart_teams, modPart_images, himages]
  exact ⟨hteam, sget_serase_eq ..⟩

/-! ## Completion -/

/-- A team that leaves forgets the last exits of its slots, which its core keeps. -/
theorem forgetExits_keeps (tm : Team) (l : List (Nat × Group)) (s : State) :
    l.foldl (fun s e => forgetExit s tm e.1) s = { s with cores := (l.foldl (fun s e => forgetExit s tm e.1) s).cores } := by
  induction l generalizing s with
  | nil => rfl
  | cons e t ih => exact ih (forgetExit s tm e.1)

/-- A team that has left its core is no more, and memory, images, partitions and grids stand. -/
theorem dropTeam_keeps (s : State) (t : Nat) (tm : Team) :
    sget (dropTeam s t tm).teams t = none ∧ (dropTeam s t tm).mem = s.mem ∧ (dropTeam s t tm).images = s.images ∧
      (dropTeam s t tm).parts = s.parts ∧ (dropTeam s t tm).grids = s.grids := by
  have h := forgetExits_keeps tm tm.groups (modCtx s tm.ctx fun c => { c with eq := c.eq.filter (· ≠ t) })
  exact ⟨sget_serase_eq .., (congrArg State.mem h :), (congrArg State.images h :), (congrArg State.parts h :),
    (congrArg State.grids h :)⟩

theorem grids_drainTeam (s : State) (t : Nat) : (drainTeam s t).grids = s.grids :=
  (congrArg State.grids (bare_drainWhere s fun h => h.team = t) :)

theorem parts_drainTeam (s : State) (t : Nat) : (drainTeam s t).parts = s.parts :=
  (congrArg State.parts (bare_drainWhere s fun h => h.team = t) :)

/-- A grid counts a team or task that has left its core. -/
def countEnd (tm : Team) (g : Grid) : Grid := if tm.task then { g with tasks := g.tasks - 1 } else { g with done := g.done + 1 }

theorem retireTeamEnd_spec (s : State) (t : Nat) (tm : Team) :
    sget (retireTeamEnd s t tm).teams t = none ∧
      sget (retireTeamEnd s t tm).grids tm.grid = (sget s.grids tm.grid).map (countEnd tm) := by
  obtain ⟨hteams, -, -, -, hgrids⟩ := dropTeam_keeps (drainTeam s t) t tm
  refine ⟨hteams, ?_⟩
  rw [← grids_drainTeam s t, ← hgrids]
  exact sget_smod_eq ..

theorem countEnd_done (tm : Team) (g : Grid) :
    ((countEnd tm g).done, (countEnd tm g).tasks) = if tm.task then (g.done, g.tasks - 1) else (g.done + 1, g.tasks) := by
  unfold countEnd
  split <;> rfl

/-- TEAM_COMPLETE of a team whose end has come. -/
theorem teamComplete_ended {s : State} {t : Nat} {tm : Team} (ht : sget s.teams t = some tm) (hrun : teamRuns s tm = true)
    (hlive : ∀ e ∈ tm.threads, e.2.live = false) (hops : ∀ e ∈ s.ops, e.2.team ≠ t)
    (hseq : ∀ q, tm.seq = some q → q.status = .ended) :
    exec (.teamComplete t) s = .next (match s.coal.find? fun h => h.team = t && h.held with
      | some h => freezeTeam s t (BitVec.ofNat 64 h.va) 0x19
      | none => retireTeamEnd s t tm) := by
  have h1 : (tm.threads.any fun e => e.2.live) = false := List.any_eq_false.2 fun e he => by simp [hlive e he]
  have h2 : (s.ops.any fun e => decide (e.2.team = t)) = false := List.any_eq_false.2 fun e he => by simpa using hops e he
  have h3 : (tm.seq.any fun q => decide (q.status ≠ .ended)) = false := by
    cases hq : tm.seq with
    | none => rfl
    | some q => simp [hseq q hq]
  simp only [exec, execTeamComplete, ht, hrun, h1, h2, h3]
  rfl

/-- The state in which GRID_COMPLETE ends a grid: forked, its completion operation done. -/
theorem gridComplete_ends {s : State} {n : Nat} {g : Grid} (hg : sget s.grids n = some g) (hd : gridDone s g = true) {t : State}
    (ht : (match g.cop with
      | .none => forkAll s g.ctx
      | .write a v => gridCop (forkAll s g.ctx) g .write a v
      | .add a v => gridCop (forkAll s g.ctx) g .add a v) = t) :
    ∃ u, exec (.gridComplete n) s = .next u ∧ sget u.grids n = none ∧ u.mem = t.mem ∧ u.contexts = t.contexts := by
  subst ht
  refine ⟨_, rfl, ?_⟩
  simp only [hg, hd, Bool.not_true, Bool.false_eq_true, if_false]
  split <;> exact ⟨sget_serase_eq .., rfl, rfl⟩

/-! ## Requests and saves -/

/-- A request or its withdrawal as a team takes it at once. -/
def asked (d : Option Nat) (cycle : Nat) (tm : Team) : Team :=
  setReq d.isSome (match d with
    | some d => { tm with pdeadline := d, reqAt := cycle, reqNoted := false }
    | none => tm)

theorem preq_setReq (b : Bool) (tm : Team) : (setReq b tm).preq = b := by
  cases b <;> rfl

theorem askReq_eq {s : State} {t : Nat} {tm : Team} {d : Option Nat} (ht : sget s.teams t = some tm) (hsave : tm.saving = none)
    (hdet : (lrecOf s tm).determ = false) (hd : ∀ n, d = some n → 1000 ≤ n ∧ n ≤ 1000000) :
    askReq d s t = modTeam s t (asked d s.cycle) := by
  have hrange : (d.any fun d => decide (d < 1000) || decide (1000000 < d)) = false := by
    cases d with
    | none => rfl
    | some n =>
      obtain ⟨hlo, hhi⟩ := hd n rfl
      simp [Nat.not_lt.2 hlo, Nat.not_lt.2 hhi]
  simp only [askReq, ht, hsave, hrange, hdet]
  rfl

/-- PREEMPT_REQUEST of a team that is alone in its cluster and not deterministic. -/
theorem preemptRequest_alone {s : State} {t : Nat} {tm : Team} {d : Option Nat} (ht : sget s.teams t = some tm) (hm : tm.mates = [t])
    (hsave : tm.saving = none) (hdet : (lrecOf s tm).determ = false) (hd : ∀ n, d = some n → 1000 ≤ n ∧ n ≤ 1000000) :
    exec (.preemptRequest t d) s = .next (modTeam s t (asked d s.cycle)) := by
  simp only [exec, execPreemptRequest, ht, hm, List.foldl_cons, List.foldl_nil, askReq_eq ht hsave hdet hd]

theorem cooperativeSave_begins {s : State} {t : Nat} {tm : Team} (ht : sget s.teams t = some tm) (hsave : tm.saving = none)
    (hreq : tm.preq = true) (hrun : teamRuns s tm = true) (hsafe : clusterSafe s tm = true) :
    exec (.cooperativeSave t) s = .next (saveStep (startSave .yield s t) t) := by
  simp only [exec, execCooperativeSave, ht, hsave, hreq, hrun, hsafe]
  rfl

theorem preemptDeadline_begins {s : State} {t : Nat} {tm : Team} (ht : sget s.teams t = some tm) (hsave : tm.saving = none)
    (hreq : tm.preq = true) (htime : tm.reqAt + tm.pdeadline ≤ s.cycle) (hrun : teamRuns s tm = true)
    (hdet : (lrecOf s tm).determ = false) (hsafe : clusterSafe s tm = false) :
    exec (.preemptDeadline t) s = .next (saveStep (startSave .forced s t) t) := by
  simp only [exec, execPreemptDeadline, ht, hsave, hreq, hrun, hdet, hsafe, decide_eq_false (Nat.not_lt.2 htime)]
  rfl

/-- The image that a save writes: of the team as its drained stores leave it. -/
def savedImage (s : State) (kind : ImageKind) (t : Nat) (tm : Team) : Image :=
  imageOf (drainTeam s t) kind (kind = .forced && (lrecOf (drainTeam s t) tm).determ) t tm

/-- A save takes the team off its core and leaves its image in its slot. -/
theorem saveOne_spec {s : State} {t : Nat} {tm : Team} (kind : ImageKind) (a : Nat) (ht : sget s.teams t = some tm)
    (hm : tm.member = 0) : ∃ tm', sget (drainTeam s t).teams t = some tm' ∧ sget (saveOne kind a s (t, tm)).teams t = none ∧
      sget (saveOne kind a s (t, tm)).images a = some (savedImage s kind t tm') ∧
      (saveOne kind a s (t, tm)).mem = memSets (drainTeam s t).mem a (imageBytes (savedImage s kind t tm') (savedImage s kind t tm')) ∧
      (saveOne kind a s (t, tm)).parts = s.parts := by
  obtain ⟨tm', ht', -⟩ := team_of_bare (bare_drainWhere s fun h => h.team = t) ht
  have ha : a + tm.member * 2 ^ 22 = a := by simp [hm]
  have hsave : saveOne kind a s (t, tm) = dropTeam { drainTeam s t with
      mem := memSets (drainTeam s t).mem a (imageBytes (savedImage s kind t tm') (savedImage s kind t tm')),
      images := sset (drainTeam s t).images a (savedImage s kind t tm') } t tm' := by
    have hd : sget (drainTeam s t).teams t = some tm' := ht'
    simp only [saveOne, ha, hd]
    rfl
  obtain ⟨hteams, hmem, himages, hparts, -⟩ := dropTeam_keeps { drainTeam s t with
    mem := memSets (drainTeam s t).mem a (imageBytes (savedImage s kind t tm') (savedImage s kind t tm')),
    images := sset (drainTeam s t).images a (savedImage s kind t tm') } t tm'
  dsimp only at himages hmem
  refine ⟨tm', ht', ?_⟩
  rw [hsave]
  refine ⟨hteams, ?_, hmem, hparts.trans (parts_drainTeam s t)⟩
  rw [himages, sget_sset_eq]

/-- The record of a lone team whose save takes a slot. -/
def savedRec (s : State) (tm : Team) (a : Nat) : ContRec :=
  { grid := tm.grid, kind := .saved, task := tm.task, prio := tm.prio, code := BitVec.ofNat 64 (a + 1), frame := tm.karg,
    tidx := tm.tidx - tm.member, join := 0, time := timeOf s, seqno := s.nextRec, slot := none, spill := none }

/-- A slot of the save pool that a team's image takes. -/
def takeSlot (s : State) (part a : Nat) : State := modPart s part fun p => { p with usedSlots := p.usedSlots ++ [a] }

/-- A forced save of a lone team that has quiesced goes through while the pool and the ready queue have room. -/
theorem saveStep_alone {s : State} {t a : Nat} {tm : Team} (ht : sget s.teams t = some tm) (hsave : tm.saving = some .forced)
    (hmates : tm.mates = [t]) (hslots : slotsOf s tm = 1) (hq : quiesced s t tm = true) (hl : teamLives s tm = true)
    (hready : (sgetD s.parts (sgetD s.grids tm.grid default).part default).ready.length < 4096)
    (hpool : poolRun (sgetD s.parts (sgetD s.grids tm.grid default).part default) 1 = some a) :
    saveStep s t = pushReady (saveOne .forced a (takeSlot s (sgetD s.grids tm.grid default).part a) (t, tm))
      (sgetD s.grids tm.grid default).part (savedRec s tm a) := by
  have hres : residents s tm.mates = [(t, tm)] := by simp [residents, hmates, ht]
  have hall : ([(t, tm)].all fun e => quiesced s e.1 e.2 && saveable s e.2) = true := by simp [hq, saveable, hl]
  have hfit := readyFits_room (savedRec s tm a) hready
  have hslot : ((List.range 1).map fun i => a + i * 2 ^ 22) = [a] := by simp [List.range_succ]
  unfold savedRec at hfit
  unfold saveStep
  simp only [ht, hsave]
  rw [hres, hall, hslots, hpool]
  dsimp only
  rw [hslot, hfit]
  rfl

/-- A partition whose pool has a free slot exists. -/
theorem poolRun_part {s : State} {part n a : Nat} (h : poolRun (sgetD s.parts part default) n = some a) :
    ∃ p, sget s.parts part = some p := by
  cases hp : sget s.parts part with
  | some p => exact ⟨p, rfl⟩
  | none =>
    rw [sgetD, hp] at h
    cases h

theorem savePoolWaitEnd_spec {s : State} {t a : Nat} {tm : Team} (ht : sget s.teams t = some tm) (hsave : tm.saving = some .forced)
    (hmates : tm.mates = [t]) (hslots : slotsOf s tm = 1) (hm : tm.member = 0) (hq : quiesced s t tm = true)
    (hl : teamLives s tm = true)
    (hready : (sgetD s.parts (sgetD s.grids tm.grid default).part default).ready.length < 4096)
    (hpool : poolRun (sgetD s.parts (sgetD s.grids tm.grid default).part default) 1 = some a) :
    ∃ u im p, exec (.savePoolWaitEnd t) s = .next u ∧ sget u.teams t = none ∧ sget u.images a = some im ∧ im.num = t ∧
      (∀ i (h : i < (imageBytes im im).length), memByte u.mem (a + i) = (imageBytes im im)[i]) ∧
      sget u.parts (sgetD s.grids tm.grid default).part = some p ∧ a ∈ p.usedSlots ∧
      ∃ r ∈ p.ready, r.kind = .saved ∧ r.code = BitVec.ofNat 64 (a + 1) ∧ r.grid = tm.grid ∧ r.prio = tm.prio := by
  have hstep := saveStep_alone ht hsave hmates hslots hq hl hready hpool
  generalize (sgetD s.grids tm.grid default).part = part at *
  obtain ⟨p, hp⟩ := poolRun_part hpool
  rw [sgetD, hp] at hready
  obtain ⟨tm', -, hteams, himage, hmem, hparts⟩ := saveOne_spec (s := takeSlot s part a) .forced a ht hm
  have hp' : sget (saveOne .forced a (takeSlot s part a) (t, tm)).parts part = some { p with usedSlots := p.usedSlots ++ [a] } := by
    rw [hparts]
    exact (sget_smod_eq ..).trans (congrArg (Option.map _) hp)
  obtain ⟨hmem', q, hq', hused, hrec⟩ := pushReady_room (r := savedRec s tm a) hp' hready rfl
  have hoff := offQueue_pushReady (saveOne .forced a (takeSlot s part a) (t, tm)) part (savedRec s tm a)
  refine ⟨_, savedImage (takeSlot s part a) .forced t tm', q, congrArg Host.Outcome.next hstep, ?_, ?_, rfl, fun i h => ?_, hq', ?_,
    _, hrec, rfl, rfl, rfl, rfl⟩
  · exact (congrArg (fun s : State => sget s.teams t) hoff :).trans hteams
  · exact (congrArg (fun s : State => sget s.images a) hoff :).trans himage
  · rw [hmem', hmem]
    exact memByte_memSets_in _ _ i _ h
  · rw [hused]
    exact List.mem_append_right _ (List.mem_singleton_self a)

/-- Settles O54: a new team is `newTeam`, a restored one `restoredTeam` of its image, and a save writes `savedImage` into the slot that
`poolRun` gives. -/
theorem teamsComeAndGo : Obligations.TeamsComeAndGo := by
  refine ⟨⟨fun s core part p r g hpart hpause hmoves hfence hhead hnow hg => ⟨fun hk hone hfit => ?_,
      fun a im im' hk hone hcode ha him hfit => ⟨fun hat hsl hnum _ => ?_, fun hat => ?_⟩⟩,
    fun s t tm ht hrun hlive hops hseq => ⟨fun hfree => ?_, fun h hheld => ?_⟩,
    fun s n g hg hd => ⟨fun hcop => ?_, fun a v t hcop ht => ?_, fun a v t hcop ht => ?_⟩⟩,
    fun s t tm d ht hm hsave hdet hd => ?_, fun s t tm => cooperativeSave_begins, fun s t tm => preemptDeadline_begins,
    fun s t tm a ht hsave hmates hslots hm hq hl hready hpool =>
      savePoolWaitEnd_spec ht hsave hmates hslots hm hq hl hready hpool⟩
  · have hexec := teamPlace_head hpart hpause hmoves hfence hhead hnow hg
    rw [if_neg hk] at hexec
    obtain ⟨hnext, sl, hteam⟩ := placeNew_spec (part := part) hone (by simpa using hfit)
    exact ⟨_, _, hexec, hnext, hteam, newTeam_spec ..⟩
  · have hexec := teamPlace_head hpart hpause hmoves hfence hhead hnow hg
    rw [if_pos hk] at hexec
    obtain ⟨sl, hteam, himage⟩ := placeSaved_spec (part := part) hone hcode ha him hfit hat hsl
    rw [hnum] at hteam
    refine ⟨_, _, hexec, hteam, himage, rfl, rfl, rfl, rfl, rfl, ?_⟩
    simp [restoredTeam]
  · have hexec := teamPlace_head hpart hpause hmoves hfence hhead hnow hg
    rwa [if_pos hk, placeSaved_eq hone hcode ha him hfit, hat] at hexec
  · have hnone : (s.coal.find? fun h => decide (h.team = t) && h.held) = none :=
      List.find?_eq_none.2 fun h hh => by simpa using hfree h hh
    obtain ⟨hgone, hgrid⟩ := retireTeamEnd_spec s t tm
    refine ⟨retireTeamEnd s t tm, ?_, hgone, fun g hg => ?_⟩
    · rw [teamComplete_ended ht hrun hlive hops hseq, hnone]
    · rw [hgrid, hg]
      exact congrArg some (countEnd_done tm g)
  · rw [teamComplete_ended ht hrun hlive hops hseq, hheld]
  · obtain ⟨u, hexec, hgrid, hmem, hctx⟩ := gridComplete_ends hg hd (by rw [hcop])
    exact ⟨u, hexec, hgrid, hmem, congrArg (sget · g.ctx) hctx⟩
  · obtain ⟨u, hexec, hgrid, hmem, -⟩ := gridComplete_ends hg hd (t := t) (by simp only [hcop, gridCop, ht])
    exact ⟨u, hexec, hgrid, hmem⟩
  · obtain ⟨u, hexec, hgrid, hmem, -⟩ := gridComplete_ends hg hd (t := t) (by simp only [hcop, gridCop, ht])
    exact ⟨u, hexec, hgrid, hmem⟩
  · exact ⟨_, _, preemptRequest_alone ht hm hsave hdet hd, (sget_smod_eq ..).trans (congrArg (Option.map _) ht), preq_setReq .., rfl⟩

end Sys2Proof.Laws
end

section
/-! SUPPORT. Decoding undoes encoding for every instruction at once, from the laws of the single instructions. -/

namespace Sys2Proof.Laws

/-- Settles O1. Each instruction word has a law of its own; packets and events have no word, so that nothing is asked of them. -/
theorem decodeUndoesEncode : Obligations.DecodeUndoesEncode := by
  intro i
  cases i
  -- integer and logic words (R92 to R108)
  case iadd => apply Encodes.iadd
  case iaddImm => apply Encodes.iaddImm
  case isub => apply Encodes.isub
  case isubImm => apply Encodes.isubImm
  case iaddx => apply Encodes.iaddx
  case ineg => apply Encodes.ineg
  case iabs => apply Encodes.iabs
  case imin => apply Encodes.imin
  case iminImm => apply Encodes.iminImm
  case imax => apply Encodes.imax
  case imaxImm => apply Encodes.imaxImm
  case imul => apply Encodes.imul
  case imulImm => apply Encodes.imulImm
  case imulh => apply Encodes.imulh
  case imulhImm => apply Encodes.imulhImm
  case imulw => apply Encodes.imulw
  case imad => apply Encodes.imad
  case imadw => apply Encodes.imadw
  case idiv => apply Encodes.idiv
  case imod => apply Encodes.imod
  case and => apply Encodes.and
  case andImm => apply Encodes.andImm
  case or => apply Encodes.or
  case orImm => apply Encodes.orImm
  case xor => apply Encodes.xor
  case xorImm => apply Encodes.xorImm
  case andn => apply Encodes.andn
  case andnImm => apply Encodes.andnImm
  case not => apply Encodes.not
  case lop3 => apply Encodes.lop3
  case lop3Hi => apply Encodes.lop3Hi
  case shl => apply Encodes.shl
  case shlImm => apply Encodes.shlImm
  case shr => apply Encodes.shr
  case shrImm => apply Encodes.shrImm
  case shf => apply Encodes.shf
  case rot => apply Encodes.rot
  case rotImm => apply Encodes.rotImm
  case bfx => apply Encodes.bfx
  case bfi => apply Encodes.bfi
  case popc => apply Encodes.popc
  case clz => apply Encodes.clz
  case ffs => apply Encodes.ffs
  case brev => apply Encodes.brev
  case icmp => apply Encodes.icmp
  case icmpImm => apply Encodes.icmpImm
  case isel => apply Encodes.isel
  case mov => apply Encodes.mov
  case movi => apply Encodes.movi
  case movg => apply Encodes.movg
  case lea => apply Encodes.lea
  case leaImm => apply Encodes.leaImm
  case add64 => apply Encodes.add64
  case add64Imm => apply Encodes.add64Imm
  case sub64 => apply Encodes.sub64
  case shl64 => apply Encodes.shl64
  case shl64Imm => apply Encodes.shl64Imm
  case shr64 => apply Encodes.shr64
  case shr64Imm => apply Encodes.shr64Imm
  case icmp64 => apply Encodes.icmp64
  -- floating-point and conversion words (R118 to R136)
  case fadd => apply Encodes.fadd
  case fsub => apply Encodes.fsub
  case fmul => apply Encodes.fmul
  case ffma => apply Encodes.ffma
  case fmin => apply Encodes.fmin
  case fmax => apply Encodes.fmax
  case fcmp => apply Encodes.fcmp
  case frnd => apply Encodes.frnd
  case fclass => apply Encodes.fclass
  case frcp => apply Encodes.frcp
  case frsq => apply Encodes.frsq
  case fsqrt => apply Encodes.fsqrt
  case fex2 => apply Encodes.fex2
  case flg2 => apply Encodes.flg2
  case fsin => apply Encodes.fsin
  case fcos => apply Encodes.fcos
  case hadd2 => apply Encodes.hadd2
  case hmul2 => apply Encodes.hmul2
  case hfma2 => apply Encodes.hfma2
  case hmin2 => apply Encodes.hmin2
  case hmax2 => apply Encodes.hmax2
  case hcmp2 => apply Encodes.hcmp2
  case cvtfi => apply Encodes.cvtfi
  case cvtif => apply Encodes.cvtif
  case cvtff => apply Encodes.cvtff
  case bpq => apply Encodes.bpq
  case bpdq => apply Encodes.bpdq
  case bppk => apply Encodes.bppk
  case bpupk => apply Encodes.bpupk
  -- predicate and exchange words (R109 to R115)
  case plop => apply Encodes.plop
  case pmov => apply Encodes.pmov
  case shfl => apply Encodes.shfl
  case shflImm => apply Encodes.shflImm
  case vote => apply Encodes.vote
  case matchV => apply Encodes.matchV
  case redux => apply Encodes.redux
  -- memory words (R188 to R195)
  case ld => apply Encodes.ld
  case st => apply Encodes.st
  case ldk => apply Encodes.ldk
  case ldx => apply Encodes.ldx
  case stx => apply Encodes.stx
  case gath => apply Encodes.gath
  case scat => apply Encodes.scat
  case ldl => apply Encodes.ldl
  case stl => apply Encodes.stl
  case lyld => apply Encodes.lyld
  case lydrop => apply Encodes.lydrop
  case cinv => apply Encodes.cinv
  case pref => apply Encodes.pref
  case twalk => apply Encodes.twalk
  -- atomics and synchronisation (R213 to R227)
  case atom => apply Encodes.atom
  case acas => apply Encodes.acas
  case ared => apply Encodes.ared
  case fence => apply Encodes.fence
  case pfence => apply Encodes.pfence
  case semp => apply Encodes.semp
  case semw => apply Encodes.semw
  case semx => apply Encodes.semx
  case arrive => apply Encodes.arrive
  case waitph => apply Encodes.waitph
  case bufs => apply Encodes.bufs
  case bufw => apply Encodes.bufw
  -- copy, view and work words (R229 to R336)
  case cpy => apply Encodes.cpy
  case cpyl => apply Encodes.cpyl
  case cpyd => apply Encodes.cpyd
  case cbld => apply Encodes.cbld
  case cpyc => apply Encodes.cpyc
  case crwait => apply Encodes.crwait
  case crpop => apply Encodes.crpop
  case gathn => apply Encodes.gathn
  case vreg => apply Encodes.vreg
  case vdrop => apply Encodes.vdrop
  case vsync => apply Encodes.vsync
  case vgen => apply Encodes.vgen
  case vpol => apply Encodes.vpol
  case vstat => apply Encodes.vstat
  case spawn => apply Encodes.spawn
  case spawnc => apply Encodes.spawnc
  case done => apply Encodes.done
  case enq => apply Encodes.enq
  case deq => apply Encodes.deq
  case klaunch => apply Encodes.klaunch
  -- control and system words (R155 to R162, R362 to R368)
  case bra => apply Encodes.bra
  case brx => apply Encodes.brx
  case call => apply Encodes.call
  case callx => apply Encodes.callx
  case ret => apply Encodes.ret
  case join => apply Encodes.join
  case exit => apply Encodes.exit
  case nop => apply Encodes.nop
  case waitdc => apply Encodes.waitdc
  case trap => apply Encodes.trap
  case tfence => apply Encodes.tfence
  case yield => apply Encodes.yield
  case rth => apply Encodes.rth
  case sread => apply Encodes.sread
  case bkpt => apply Encodes.bkpt
  case swrite => apply Encodes.swrite
  case ebset => apply Encodes.ebset
  case pmctl => apply Encodes.pmctl
  case trctl => apply Encodes.trctl
  case ctxsave => apply Encodes.ctxsave
  case halt => apply Encodes.halt
  -- matrix stream (R257 to R295)
  case qbind => apply Encodes.qbind
  case qrel => apply Encodes.qrel
  case mma => apply Encodes.mma
  case smma => apply Encodes.smma
  case gmov => apply Encodes.gmov
  case gmovi => apply Encodes.gmovi
  case gadd => apply Encodes.gadd
  case gmul => apply Encodes.gmul
  case gshl => apply Encodes.gshl
  case gcmp => apply Encodes.gcmp
  case gld => apply Encodes.gld
  case gbra => apply Encodes.gbra
  case gloop => apply Encodes.gloop
  case qset => apply Encodes.qset
  case qlop => apply Encodes.qlop
  case mend => apply Encodes.mend
  case accz => apply Encodes.accz
  case jmac => apply Encodes.jmac
  case jins => apply Encodes.jins
  case accsp => apply Encodes.accsp
  case accdr => apply Encodes.accdr
  case acccnt => apply Encodes.acccnt
  all_goals exact Encodes.none rfl

end Sys2Proof.Laws
end

section
/-! SUPPORT. What decides the trap of a word (R36): the first failing check. -/

namespace Sys2Proof.Laws
open Sys2Proof.Machine

/-- A word whose check fails traps with the check's cause, for every member lane. -/
theorem issue_failed {r : Req} {s : State} {t k c : Nat} {x : Site} (hi : s.issuer = some (.group t k))
    (hx : siteOf s t k r.guard = some x) (hc : canIssue s x = true) (hw : checkWord r x = some c) (body : Site → State → Res) :
    issue r body s =
      trapGroup s t k { cause := c, lanes := memberLanes x.g } (memberLanes x.g) (hpcWord x.g.pc x.g.wix) := by
  simp only [issue, hi, hx, hc, hw, Bool.not_true, Bool.false_eq_true, if_false]

/-- The class is checked first. -/
theorem checkWord_class {r : Req} {x : Site} (h : classOk r x = false) : checkWord r x = some 4 := by
  simp [checkWord, h]

/-- Then the registers and the fields that depend on state. -/
theorem checkWord_fields {r : Req} {x : Site} (hclass : classOk r x = true)
    (h : (regsOk x.g.handler (roleBudget x.tm (groupRole x.tm x.g)) r.regs && r.ok x) = false) :
    checkWord r x = some 2 := by
  simp only [checkWord, hclass, h, Bool.not_true, Bool.not_false, Bool.false_eq_true, if_false, if_true]

/-- Then the engine of the role. -/
theorem checkWord_role {r : Req} {x : Site} (hclass : classOk r x = true)
    (hfields : (regsOk x.g.handler (roleBudget x.tm (groupRole x.tm x.g)) r.regs && r.ok x) = true)
    (h : (engineRole r.engine (groupRole x.tm x.g) && r.roleOk x) = false) : checkWord r x = some 5 := by
  simp only [checkWord, hclass, hfields, h, Bool.not_true, Bool.not_false, Bool.false_eq_true, if_false, if_true]

/-- Settles O30. Each of the three failures is the first one that `checkWord` meets. -/
theorem failedChecksTrap : Obligations.FailedChecksTrap := by
  intro r body s t k x c hi hx hc hfail
  refine issue_failed hi hx hc ?_ body
  obtain ⟨hclass, rfl⟩ | ⟨hclass, hfields, rfl⟩ | ⟨hclass, hfields, hrole, rfl⟩ := hfail
  · exact checkWord_class hclass
  · exact checkWord_fields hclass hfields
  · exact checkWord_role hclass hfields hrole

end Sys2Proof.Laws
end

section
/-! SUPPORT. What a step runs (R36, R152), and that each of the device's own events has its turn again and again (R154). -/

namespace Sys2Proof.Laws
open Sys2Proof.Machine

/-! ## Fetching -/

/-- A group's next word that decodes and that the clause's class allows is fetched. -/
theorem fetchGroup_word {s : State} {t k : Nat} {x : Site} {w : DWord} {i : Instr} (hx : siteOf s t k ⟨false, 7⟩ = some x)
    (hc : canIssue s x = true) (hw : wordOf x.g.clause x.g.wix = some w) (hd : decode w = .ok i)
    (hclass : opcodeClass x.g w = true) : fetchGroup s t k = .word i := by
  simp only [fetchGroup, hx, hc, hw, hd, hclass, Bool.not_true, Bool.false_eq_true, if_false, if_true]

/-- So is a sequencer's. -/
theorem fetchSeq_word {s : State} {t : Nat} {x : SSite} {w : DWord} {i : Instr} (hx : ssiteOf s t = some x)
    (hc : canIssueSeq s x = true) (hw : wordOf x.q.clause x.q.wix = some w) (hd : decode w = .ok i)
    (hclass : (allowedIn (w.extractLsb' 54 10).toNat).2.2.1 = true) : fetchSeq s t = .word i := by
  simp only [fetchSeq, hx, hc, hw, hd, hclass, Bool.not_true, Bool.false_eq_true, if_false, if_true]

/-! ## One step, by its issuer -/

/-- A group's turn runs what its fetch gave. -/
theorem step_group {s : State} {t k : Nat} (hrun : s.stopped = false) (hi : s.issuer = some (.group t k)) :
    step s = settle s true (groupStep s t k (runFetched (fetchGroup s t k) s)) := by
  simp only [step, hrun, hi, Bool.false_eq_true, if_false]

/-- So does a sequencer's. -/
theorem step_seq {s : State} {t : Nat} (hrun : s.stopped = false) (hi : s.issuer = some (.seq t)) :
    step s = settle s true (runFetched (fetchSeq s t) s) := by
  simp only [step, hrun, hi, Bool.false_eq_true, if_false]

/-- So does a packet queue's. -/
theorem step_packet {s : State} {q : Nat} (hrun : s.stopped = false) (hi : s.issuer = some (.packet q)) :
    step s = settle s true (runFetched (fetchPacket s q) s) := by
  simp only [step, hrun, hi, Bool.false_eq_true, if_false]

/-- Without an issuer the first event that is due runs. -/
theorem step_due {s : State} {e : Instr} {rest : List Instr} (hrun : s.stopped = false) (hi : s.issuer = none)
    (ha : s.agenda = e :: rest) : step s = settle s false (exec e { s with agenda := rest }) := by
  simp only [step, hrun, hi, ha, Bool.false_eq_true, if_false]

/-- Without one that is due either, the open event runs, and the turn is counted. -/
theorem step_open {s : State} (hrun : s.stopped = false) (hi : s.issuer = none) (ha : s.agenda = []) :
    step s = settle s false (match openEvent s with
      | some e => countFair (exec e s)
      | none => .next (fairCount s)) := by
  simp only [step, hrun, hi, ha, Bool.false_eq_true, if_false]
  cases openEvent s <;> rfl

/-! ## The turns of the device's own events -/

/-- Of an index the ruler reads how often 2 divides it. -/
theorem ruler_two_pow_mul_odd (n : Nat) : ∀ k fuel, k < fuel → ruler fuel (2 ^ k * (2 * n + 1)) = k := by
  intro k
  induction k with
  | zero =>
    intro fuel hk
    obtain ⟨fuel, rfl⟩ := Nat.exists_eq_succ_of_ne_zero (Nat.ne_of_gt hk)
    have hodd : 2 ^ 0 * (2 * n + 1) % 2 = 1 := by omega
    simp only [ruler, hodd, if_true]
  | succ k ih =>
    intro fuel hk
    obtain ⟨fuel, rfl⟩ := Nat.exists_eq_succ_of_ne_zero (show fuel ≠ 0 by omega)
    have hdouble : 2 ^ (k + 1) * (2 * n + 1) = 2 * (2 ^ k * (2 * n + 1)) := by ring
    have heven : ¬ 2 ^ (k + 1) * (2 * n + 1) % 2 = 1 := by omega
    have hhalf : 2 ^ (k + 1) * (2 * n + 1) / 2 = 2 ^ k * (2 * n + 1) := by omega
    rw [ruler, if_neg heven, hhalf, ih fuel (by omega), Nat.add_comm]

/-- The turn number at which the device's event `k` runs for the `n`th time. -/
def turnOf (k n : Nat) : Nat := 2 ^ k * (2 * n + 1) - 1

theorem turnOf_succ (k n : Nat) : turnOf k n + 1 = 2 ^ k * (2 * n + 1) :=
  Nat.sub_add_cancel (Nat.mul_pos (Nat.two_pow_pos k) (Nat.succ_pos _))

/-- The turns of one event have no end. -/
theorem le_turnOf (k n : Nat) : n ≤ turnOf k n := by
  have hle : 1 * (2 * n + 1) ≤ 2 ^ k * (2 * n + 1) := Nat.mul_le_mul_right _ (Nat.two_pow_pos k)
  unfold turnOf
  omega

/-- An event's number is below the number of each of its turns. -/
theorem lt_turnOf_succ (k n : Nat) : k < turnOf k n + 1 := by
  rw [turnOf_succ]
  exact (Nat.lt_two_pow_self).trans_le (Nat.le_mul_of_pos_right _ (Nat.succ_pos _))

theorem fairEvent_turnOf {s : State} {k n : Nat} (h : s.fairIdx = turnOf k n) : fairEvent s = deviceEvent s k := by
  have hruler : ruler (turnOf k n + 1) (turnOf k n + 1) = k := by
    conv_lhs => rw [turnOf_succ k n]
    exact ruler_two_pow_mul_odd n k _ (turnOf_succ k n ▸ lt_turnOf_succ k n)
  rw [fairEvent, h, hruler]

/-- Settles O4: the fetch gives the word, the step runs what was fetched, and event `k` has the turns `turnOf k n`. -/
theorem stepRunsWhatIsDue : Obligations.StepRunsWhatIsDue := by
  refine ⟨?_, ?_, ?_, fun s e rest => step_due, fun s => step_open, ?_, ?_, fun k n => ⟨turnOf k n, le_turnOf k n, ?_⟩⟩
  · intro s t k x w i hrun hi hx hc hw hd hclass
    rw [step_group hrun hi, fetchGroup_word hx hc hw hd hclass]
    rfl
  · intro s t x w i hrun hi hx hc hw hd hclass
    rw [step_seq hrun hi, fetchSeq_word hx hc hw hd hclass]
    rfl
  · intro s q i hrun hi hw
    rw [step_packet hrun hi, hw]
    rfl
  · exact fun s => ⟨fun h => if_pos h, fun h => if_neg h⟩
  · refine fun s t => ⟨fun h => ?_, fun h => ?_, rfl⟩
    · rw [fairCount, if_pos h]
      exact ⟨rfl, rfl⟩
    · rw [fairCount, if_neg h]
      exact ⟨rfl, Nat.sub_add_cancel (Nat.pos_of_ne_zero h)⟩
  · exact fun s h => fairEvent_turnOf h

end Sys2Proof.Laws
end

section
/-! SUPPORT. The lane words of class L (R98, R114, R115, R126, R127): each issues its table's function with the results owed. -/

namespace Sys2Proof.Laws
open Sys2Proof.Machine

/-- A class L word whose meaning opens an operation with a table's function. -/
def RunsAsLong (i : Instr) (w : LaneWord) : Prop := ∀ s, exec i s = .next (laneL w.req w.head w.out s)

/-- Every word of the table runs its table's function. -/
theorem longWord_runs {i : Instr} {w : LaneWord} (hw : longWord i = some w) : RunsAsLong i w := by
  cases i
  case matchV h d a mode b64 =>
    cases hw
    cases mode with
    | mask | lead | uniq => exact fun _ => rfl
  case redux h d a op sgn scan =>
    cases hw
    cases op with
    | fadd | add | min | max | and | or | xor => exact fun _ => rfl
  case idiv | imod | frcp | frsq | fsqrt | fex2 | flg2 | fsin | fcos => cases hw; exact fun _ => rfl
  all_goals cases hw

/-- Settles O14: where the word issues, its body opens the operation that owes the table's values, and retires. -/
theorem longWords : Obligations.LongWords := by
  intro i w hw s x s1 hs _
  rw [longWord_runs hw s, laneL, issue_retire hs rfl]

end Sys2Proof.Laws
end

section
/-! SUPPORT. What retiring leaves unchanged, in a group of any members (R43, R345). -/

namespace Sys2Proof.Laws
open Sys2Proof.Machine

/-! ## Teams that differ in pending results alone -/

/-- The second team is the first with other pending results of its threads. -/
def OnlyPends (tm tm' : Team) : Prop :=
  ∃ ths, tm' = { tm with threads := ths } ∧
    ∀ i th, sget tm.threads i = some th → ∃ th', sget ths i = some th' ∧ { th' with pend := th.pend } = th

theorem OnlyPends.refl (tm : Team) : OnlyPends tm tm := ⟨tm.threads, rfl, fun _ th h => ⟨th, h, rfl⟩⟩

theorem OnlyPends.trans {tm tm1 tm2 : Team} (h1 : OnlyPends tm tm1) (h2 : OnlyPends tm1 tm2) : OnlyPends tm tm2 := by
  obtain ⟨ths1, rfl, hkeep1⟩ := h1
  obtain ⟨ths2, rfl, hkeep2⟩ := h2
  refine ⟨ths2, rfl, fun i th h => ?_⟩
  obtain ⟨th1, hth1, hpend1⟩ := hkeep1 i th h
  obtain ⟨th2, hth2, hpend2⟩ := hkeep2 i th1 hth1
  exact ⟨th2, hth2, by rw [← hpend1, ← hpend2]⟩

theorem onlyPends_modThread {f : Thread → Thread} (hf : ∀ th, { f th with pend := th.pend } = th) (tm : Team) (a : Nat) :
    OnlyPends tm (modThread tm a f) := by
  refine ⟨smod tm.threads a f, rfl, fun i th h => ?_⟩
  rw [sget_smod, h]
  by_cases hc : a = i
  · exact ⟨f th, by simp [hc], hf th⟩
  · exact ⟨th, by simp [hc], rfl⟩

/-- The ageing of pending results changes nothing but pending results. -/
theorem onlyPends_pendTicks (hm : Bool) (tids : List Nat) (tm : Team) : OnlyPends tm (pendTicks tm hm tids) := by
  induction tids generalizing tm with
  | nil => exact .refl tm
  | cons a r ih => exact (onlyPends_modThread (f := pendTick hm) (fun _ => rfl) tm a).trans (ih _)

/-! ## Retiring -/

/-- A group's team after its word has retired. -/
theorem retireTeam_keeps {c k : Nat} {tm : Team} {g : Group} (hg : sget tm.groups k = some g) : ∃ ths,
    retireTeam c k tm = { tm with
      threads := ths, groups := smod tm.groups k fun g => { advance c g with counted := false },
      icount := if g.handler || g.counted then tm.icount else tm.icount + 1 } ∧
    ∀ i th, sget tm.threads i = some th → ∃ th', sget ths i = some th' ∧ { th' with pend := th.pend } = th := by
  obtain ⟨ths, heq, hkeep⟩ := onlyPends_pendTicks g.handler (memberTids g) tm
  refine ⟨ths, ?_, hkeep⟩
  simp only [retireTeam, hg, heq, modGroup]
  cases g.handler || g.counted <;> rfl

/-- Settles O22: on an untraced core retiring is `retireTeam` of the issuing team, and `advance` changes the group's position
alone. -/
theorem retiringMovesOn : Obligations.RetiringMovesOn := by
  intro s x tm g htrace ht hg
  have hret : retired s x = modTeam s x.t (retireTeam s.cycle x.k) := clauseTrace_untraced htrace
  obtain ⟨ths, hteam, hthreads⟩ := retireTeam_keeps (c := s.cycle) hg
  have ht' : sget (retired s x).teams x.t = some (retireTeam s.cycle x.k tm) := by
    rw [hret, modTeam, sget_smod_eq, ht, Option.map_some]
  have hg' : sget (retireTeam s.cycle x.k tm).groups x.k = some { advance s.cycle g with counted := false } := by
    rw [hteam]
    simp only [sget_smod_eq, hg, Option.map_some]
  refine ⟨_, _, ht', hg', ?_, ?_, ?_, rfl, ?_, ?_, ?_, ?_⟩
  · rw [hteam]
  · rw [hteam]
  · conv_lhs => rw [advance_frame]
  · intro k hk
    rw [hteam]
    exact sget_smod_ne _ _ (Ne.symm hk)
  · rw [hteam]
    exact hthreads
  · intro n hn
    rw [hret]
    exact sget_smod_ne _ _ (Ne.symm hn)
  · rw [hret]
    rfl

end Sys2Proof.Laws
end

section
/-! SUPPORT. The unassigned codes (R49): each family of the decoder answers `none` for these and for no other code. -/

namespace Sys2Proof.Laws
open Sys2Proof.Machine

/-! ## By family: the code alone decides whether it is assigned -/

theorem decodeInt_isNone {f : RWord} (k : KWord) (hhi : f.opc.toNat < 0x080) :
    (decodeInt f k).isNone = unassignedCode f.opc.toNat := by
  unfold decodeInt
  generalize f.opc.toNat = o at hhi ⊢
  interval_cases o <;> rfl

theorem decodeFloat_isNone {f : RWord} (hlo : 0x080 ≤ f.opc.toNat) (hhi : f.opc.toNat < 0x100) :
    (decodeFloat f).isNone = unassignedCode f.opc.toNat := by
  unfold decodeFloat
  generalize f.opc.toNat = o at hlo hhi ⊢
  interval_cases o <;> rfl

theorem decodeExch_isNone {f : RWord} (hlo : 0x100 ≤ f.opc.toNat) (hhi : f.opc.toNat < 0x140) :
    (decodeExch f).isNone = unassignedCode f.opc.toNat := by
  unfold decodeExch
  generalize f.opc.toNat = o at hlo hhi ⊢
  interval_cases o <;> rfl

theorem decodeMem_isNone {f : RWord} (hlo : 0x140 ≤ f.opc.toNat) (hhi : f.opc.toNat < 0x1C0) :
    (decodeMem f).isNone = unassignedCode f.opc.toNat := by
  unfold decodeMem
  generalize f.opc.toNat = o at hlo hhi ⊢
  interval_cases o <;> rfl

theorem decodeSync_isNone {f : RWord} (hlo : 0x1C0 ≤ f.opc.toNat) (hhi : f.opc.toNat < 0x200) :
    (decodeSync f).isNone = unassignedCode f.opc.toNat := by
  unfold decodeSync
  generalize f.opc.toNat = o at hlo hhi ⊢
  interval_cases o <;> rfl

theorem decodeCopy_isNone {f : RWord} (hlo : 0x200 ≤ f.opc.toNat) (hhi : f.opc.toNat < 0x280) :
    (decodeCopy f).isNone = unassignedCode f.opc.toNat := by
  unfold decodeCopy
  generalize f.opc.toNat = o at hlo hhi ⊢
  interval_cases o <;> rfl

theorem decodeCtl_isNone {f : RWord} (k : KWord) (hlo : 0x280 ≤ f.opc.toNat) (hhi : f.opc.toNat < 0x300) :
    (decodeCtl f k).isNone = unassignedCode f.opc.toNat := by
  unfold decodeCtl
  generalize f.opc.toNat = o at hlo hhi ⊢
  interval_cases o <;> rfl

theorem decodeMtx_isNone {f : RWord} (x : XWord) (k : XKWord) (hlo : 0x300 ≤ f.opc.toNat) (hhi : f.opc.toNat < 0x400) :
    (decodeMtx f x k).isNone = unassignedCode f.opc.toNat := by
  unfold decodeMtx
  generalize f.opc.toNat = o at hlo hhi ⊢
  interval_cases o <;> rfl

/-! ## The decoder -/

theorem decodedOf_eq_illegalOpcode (x : Option (Option Instr)) : Decoded.of x = .illegalOpcode ↔ x.isNone = true := by
  cases x with
  | none => exact iff_of_true rfl rfl
  | some y => cases y <;> exact iff_of_false nofun nofun

/-- The decoder's answer for a code that no family assigns. -/
theorem decode_eq_illegalOpcode (w : DWord) :
    decode w = .illegalOpcode ↔ unassignedCode (w.extractLsb' 54 10).toNat = true := by
  have hcode : (unpackR w).opc.toNat < 0x400 := (unpackR w).opc.isLt
  change _ ↔ unassignedCode (unpackR w).opc.toNat = true
  unfold decode
  dsimp only
  split_ifs with h1 h2 h3 h4 h5 h6 h7
  · rw [decodedOf_eq_illegalOpcode, decodeInt_isNone _ h1]
  · rw [decodedOf_eq_illegalOpcode, decodeFloat_isNone (Nat.le_of_not_lt h1) h2]
  · rw [decodedOf_eq_illegalOpcode, decodeExch_isNone (Nat.le_of_not_lt h2) h3]
  · rw [decodedOf_eq_illegalOpcode, decodeMem_isNone (Nat.le_of_not_lt h3) h4]
  · rw [decodedOf_eq_illegalOpcode, decodeSync_isNone (Nat.le_of_not_lt h4) h5]
  · rw [decodedOf_eq_illegalOpcode, decodeCopy_isNone (Nat.le_of_not_lt h5) h6]
  · rw [decodedOf_eq_illegalOpcode, decodeCtl_isNone _ (Nat.le_of_not_lt h6) h7]
  · rw [decodedOf_eq_illegalOpcode, decodeMtx_isNone _ _ (Nat.le_of_not_lt h7) hcode]

/-! ## The trap at the fetch -/

theorem fetchGroup_illegalOpcode {s : State} {t k : Nat} {x : Site} {w : DWord} (hx : siteOf s t k ⟨false, 7⟩ = some x)
    (hc : canIssue s x = true) (hw : wordOf x.g.clause x.g.wix = some w) (hd : decode w = .illegalOpcode) :
    fetchGroup s t k = .state (trapGroup s t k { cause := 1, lanes := memberLanes x.g } (memberLanes x.g)
      (hpcWord x.g.pc x.g.wix)) := by
  simp only [fetchGroup, hx, hc, hw, hd, Bool.not_true, Bool.false_eq_true, if_false]

theorem fetchSeq_illegalOpcode {s : State} {t : Nat} {x : SSite} {w : DWord} (hx : ssiteOf s t = some x)
    (hc : canIssueSeq s x = true) (hw : wordOf x.q.clause x.q.wix = some w) (hd : decode w = .illegalOpcode) :
    fetchSeq s t = .state (trapSeq s t 1 (hpcWord x.q.pc x.q.wix) 0 0) := by
  simp only [fetchSeq, hx, hc, hw, hd, Bool.not_true, Bool.false_eq_true, if_false]

/-- Settles O3: the decoder's families cover the codes, and the fetch asks the decoder before the clause's class. -/
theorem unassignedCodesTrap : Obligations.UnassignedCodesTrap :=
  ⟨decode_eq_illegalOpcode,
    fun _ _ _ _ w hx hc hw hcode => fetchGroup_illegalOpcode hx hc hw ((decode_eq_illegalOpcode w).2 hcode),
    fun _ _ _ w hx hc hw hcode => fetchSeq_illegalOpcode hx hc hw ((decode_eq_illegalOpcode w).2 hcode)⟩

end Sys2Proof.Laws
end

section
/-! SUPPORT. Operations of class L as they open and end, and results as they become visible (R43, R44, R91, R119). -/

namespace Sys2Proof.Laws
open Sys2Proof.Machine

/-! ## One change in each thread of a list -/

/-- A change of each of some distinct threads, one after another. -/
theorem foldl_modThread {tids : List Nat} (hn : tids.Nodup) (f : Nat → Thread → Thread) (tm : Team) :
    (∃ ths, tids.foldl (fun tm t => modThread tm t (f t)) tm = { tm with threads := ths }) ∧
    ∀ i, sget (tids.foldl (fun tm t => modThread tm t (f t)) tm).threads i
      = (sget tm.threads i).map fun th => if i ∈ tids then f i th else th := by
  induction tids generalizing tm with
  | nil => exact ⟨⟨tm.threads, rfl⟩, fun i => by simp⟩
  | cons a r ih =>
    obtain ⟨ha, hr⟩ := List.nodup_cons.1 hn
    obtain ⟨⟨ths, hteam⟩, hths⟩ := ih hr (modThread tm a (f a))
    refine ⟨⟨ths, hteam⟩, fun i => ?_⟩
    rw [List.foldl_cons, hths, modThread, sget_smod]
    by_cases hc : a = i
    · subst hc
      simp [ha, Function.comp_def]
    · simp [hc, Ne.symm hc]

/-- A counter's rise in each thread of a list, and in no other. -/
theorem dcInc_spec {tids : List Nat} (hn : tids.Nodup) (tm : Team) (k : Nat) :
    (∃ ths, dcInc tm k tids = { tm with threads := ths }) ∧
    ∀ i th, sget tm.threads i = some th → ∃ th', sget (dcInc tm k tids).threads i = some th' ∧ { th' with dc := th.dc } = th ∧
      ∀ j, sgetD th'.dc j 0 = sgetD th.dc j 0 + if i ∈ tids ∧ j = k ∧ j < 6 then 1 else 0 := by
  unfold dcInc
  by_cases hk : 6 ≤ k
  · simp only [hk, if_true]
    refine ⟨⟨tm.threads, rfl⟩, fun i th h => ⟨th, h, rfl, fun j => ?_⟩⟩
    rw [if_neg (by omega), Nat.add_zero]
  · simp only [hk, if_false]
    obtain ⟨hteam, hths⟩ := foldl_modThread hn (fun _ th => { th with dc := ssetD th.dc k (sgetD th.dc k 0 + 1) 0 }) tm
    refine ⟨hteam, fun i th h => ?_⟩
    rw [hths, h]
    by_cases hi : i ∈ tids
    · refine ⟨{ th with dc := ssetD th.dc k (sgetD th.dc k 0 + 1) 0 }, by rw [Option.map_some, if_pos hi], rfl, fun j => ?_⟩
      by_cases hj : j = k
      · subst hj
        simp [hi, Nat.lt_of_not_le hk]
      · simp [sgetD_ssetD_ne _ _ _ (Ne.symm hj), hj]
    · exact ⟨th, by rw [Option.map_some, if_neg hi], rfl, fun j => by simp [hi]⟩

/-! ## Opening -/

/-- Without predicates a lane's outputs only add pending results. -/
theorem onlyPends_pendOut {o : LaneOut} (hps : o.ps = []) (tm : Team) (k : Nat) (h : Head) (op : Nat) :
    OnlyPends tm (pendOut tm k h op o) := by
  unfold pendOut
  split
  · exact .refl tm
  · exact onlyPends_modThread (fun th => by rw [hps]; rfl) tm _

theorem onlyPends_pendOuts {outs : List LaneOut} (hps : ∀ e ∈ outs, e.ps = []) (tm : Team) (k : Nat) (h : Head) (op : Nat) :
    OnlyPends tm (pendOuts tm k h op outs) := by
  induction outs generalizing tm with
  | nil => exact .refl tm
  | cons o t ih =>
    exact (onlyPends_pendOut (hps o (by simp)) tm k h op).trans (ih (fun e he => hps e (by simp [he])) _)

/-- What opening a class L operation leaves of the group's team. -/
theorem openLong_spec {s : State} {x : Site} {o : Op} {outs : List LaneOut} (h : Head) (ht : sget s.teams x.t = some x.tm)
    (hn : (memberTids x.g).Nodup) (hps : ∀ e ∈ outs, e.ps = []) :
    ∃ tm, sget (openLong s x h o outs).teams x.t = some tm ∧ tm.groups = x.tm.groups ∧
      ∀ i th, sget x.tm.threads i = some th → ∃ th', sget tm.threads i = some th' ∧
        { th' with dc := th.dc, pend := th.pend } = th ∧
        ∀ k, sgetD th'.dc k 0 = sgetD th.dc k 0 + if i ∈ memberTids x.g ∧ k = h.dc.toNat ∧ k < 6 then 1 else 0 := by
  obtain ⟨⟨ths, hteam⟩, hcount⟩ := dcInc_spec hn x.tm h.dc.toNat
  obtain ⟨ths', hteam', hpend⟩ := onlyPends_pendOuts hps (dcInc x.tm h.dc.toNat (memberTids x.g)) x.k h s.nextOp
  refine ⟨pendOuts (dcInc x.tm h.dc.toNat (memberTids x.g)) x.k h s.nextOp outs, ?_, ?_, fun i th hi => ?_⟩
  · simp only [openLong, modTeam, openOp, sget_smod_eq, ht, Option.map_some]
  · rw [hteam', hteam]
  · obtain ⟨th1, h1, hsame1, hdc⟩ := hcount i th hi
    obtain ⟨th2, h2, hsame2⟩ := hpend i th1 h1
    refine ⟨th2, by rw [hteam']; exact h2, ?_, fun k => ?_⟩
    · rw [← hsame1, ← hsame2]
    · rw [← hdc k, ← hsame2]

/-! ## Ending -/

/-- A thread of an ended operation: its results have arrived, its flags are set, and the operation's counter has fallen. -/
def endedThread (n : Nat) (o : Op) (i : Nat) (th : Thread) : Thread :=
  let th := { pendArrive n th with fflags := th.fflags ||| lateFlags o.kind i }
  if 6 ≤ o.dc then th else { th with dc := ssetD th.dc o.dc (sgetD th.dc o.dc 0 - 1) 0 }

theorem endedThread_dc (n : Nat) (o : Op) (i : Nat) (th : Thread) {k : Nat} (hk : k < 6) :
    sgetD (endedThread n o i th).dc k 0 = sgetD th.dc k 0 - if k = o.dc then 1 else 0 := by
  unfold endedThread
  by_cases ho : 6 ≤ o.dc
  · have hne : k ≠ o.dc := by omega
    simp [ho, hne, pendArrive]
  · by_cases hc : k = o.dc
    · subst hc
      simp [ho, pendArrive]
    · simp [ho, hc, pendArrive, sgetD_ssetD_ne _ _ _ (Ne.symm hc)]

theorem endedThread_frame (n : Nat) (o : Op) (i : Nat) (th : Thread) :
    (endedThread n o i th).regs = th.regs ∧ (endedThread n o i th).preds = th.preds ∧
      (endedThread n o i th).fflags = th.fflags ||| lateFlags o.kind i ∧
      (endedThread n o i th).pend = th.pend.map (fun p => if p.op = n then { p with arr := true } else p) := by
  unfold endedThread
  split <;> exact ⟨rfl, rfl, rfl, rfl⟩

/-- Completing a group's operation ends it for each of its threads. -/
theorem completeGroup_threads {o : Op} (hn : o.tids.Nodup) (tm : Team) (n i : Nat) :
    sget (completeGroup tm n o).threads i
      = (sget tm.threads i).map fun th => if i ∈ o.tids then endedThread n o i th else th := by
  have harrive := (foldl_modThread hn (fun i th => { pendArrive n th with fflags := th.fflags ||| lateFlags o.kind i }) tm).2
  unfold completeGroup dcDec
  by_cases ho : 6 ≤ o.dc
  · simp only [ho, if_true, endedThread]
    exact harrive i
  · simp only [ho, if_false, endedThread]
    rw [(foldl_modThread hn (fun _ th => { th with dc := ssetD th.dc o.dc (sgetD th.dc o.dc 0 - 1) 0 }) _).2]
    refine (congrArg _ (harrive i)).trans ?_
    cases sget tm.threads i with
    | none => rfl
    | some th => by_cases hi : i ∈ o.tids <;> simp [hi]

/-- Completing an operation of a group. -/
theorem completeOp_group {s : State} {n : Nat} {o : Op} (ho : sget s.ops n = some o) (hseq : o.seq = false) :
    completeOp s n = modTeam { s with ops := serase s.ops n } o.team fun tm => completeGroup tm n o := by
  simp only [completeOp, ho, hseq, Bool.false_eq_true, if_false]

/-- Nothing is read of an operation that has nothing unread. -/
theorem readSome_of_unread {s : State} {t n : Nat} (h : ∀ e ∈ unreadOf s t, e.1 ≠ n) : readSome s t n = s := by
  have hnone : ((unreadOf s t).any fun e => decide (e.1 = n) && !e.2.later s) = false :=
    List.any_eq_false.2 fun e he => by simp [h e he]
  simp only [readSome, settleOf, hnone, Bool.false_eq_true, if_false]

/-- LONG_LATENCY_COMPLETE of an operation with nothing left but its results. -/
theorem longLatencyComplete_ends {s : State} {n : Nat} {o : Op} (ho : sget s.ops n = some o)
    (hkind : o.kind = .plain ∨ (∃ fl, o.kind = .flags fl) ∨ o.kind = .load []) (hread : ∀ e ∈ unreadOf s o.team, e.1 ≠ n) :
    exec (.longLatencyComplete n) s = .next (completeOp s n) := by
  change execLongLatencyComplete n s = _
  obtain hk | ⟨fl, hk⟩ | hk := hkind
  · simp only [execLongLatencyComplete, ho, hk]
  · simp only [execLongLatencyComplete, ho, hk]
  · simp only [execLongLatencyComplete, ho, hk, readSome_of_unread hread, Option.map_some, OpKind.unread, if_true]

/-! ## Arrived results become visible -/

/-- Of every thread of the list the flags that it depends on are due. -/
theorem lateDues_threads (cyc : Nat) (regs : List Nat) (preds : List PReg) {tids : List Nat} (hn : tids.Nodup) (tm : Team) (i : Nat) :
    sget (lateDues cyc regs preds tm tids).threads i
      = (sget tm.threads i).map fun th => if i ∈ tids then lateDue cyc regs preds th else th := by
  have hfold : ∀ (tids : List Nat) (tm : Team),
      lateDues cyc regs preds tm tids = tids.foldl (fun tm t => modThread tm t (lateDue cyc regs preds)) tm := by
    intro tids
    induction tids with
    | nil => exact fun _ => rfl
    | cons a r ih => exact fun tm => ih _
  rw [hfold]
  exact (foldl_modThread hn (fun _ => lateDue cyc regs preds) tm).2 i

/-- Distinct lanes with distinct threads list distinct threads. -/
theorem nodup_laneTids {g : Group} (hl : (memberLanes g).Nodup) (ht : (memberTids g).Nodup) :
    ((memberLanes g).map fun l => sgetD g.members l 0).Nodup :=
  hl.map_on fun _ ha _ hb he => lanes_inj hl ht ha hb he

/-- A member lane's thread as the group issues. -/
theorem installed_thread {s : State} {x : Site} {l : Nat} {th : Thread} (r : Req) (ht : sget s.teams x.t = some x.tm)
    (hg : sget x.tm.groups x.k = some x.g) (hown : OwnLanes x) (hlane : l ∈ memberLanes x.g)
    (hth : sget x.tm.threads (sgetD x.g.members l 0) = some th) : ∃ tm,
    sget (installed r s x).teams x.t = some tm ∧ sget tm.threads (sgetD x.g.members l 0)
      = some (lateDue s.cycle (r.named x.g.handler) (r.guard.p :: r.preds) ((dueNow x.g.handler th).foldl pendOne th)) := by
  obtain ⟨hlanes, htids, -⟩ := hown
  refine ⟨_, by rw [installed, modTeam, sget_smod_eq, ht, Option.map_some], ?_⟩
  rw [lateDues_threads _ _ _ htids, pendInstalls_spec _ hg (nodup_laneTids hlanes htids) _ th hth,
    if_pos (List.mem_map_of_mem hlane), Option.map_some, if_pos (tid_of_lane hlane)]
  rfl

/-- Settles O15, from what opening, ending and installing leave of one thread. -/
theorem operationsOpenAndEnd : Obligations.OperationsOpenAndEnd := by
  refine ⟨?_, ?_, ?_⟩
  · intro s x h o outs ht _ hn hps
    obtain ⟨tm, hteam, hgroups, hthreads⟩ := openLong_spec (o := o) h ht hn hps
    refine ⟨sget_sset_eq .., rfl, rfl, tm, hteam, hgroups, fun i th hi => ?_⟩
    obtain ⟨th', hi', hsame, hdc⟩ := hthreads i th hi
    exact ⟨th', hi', by rw [← hsame], by rw [← hsame], by rw [← hsame], hdc⟩
  · intro s n o tm ho hseq hkind hread hn ht _
    refine ⟨completeOp s n, completeGroup tm n o, longLatencyComplete_ends ho hkind hread, ?_⟩
    rw [completeOp_group ho hseq]
    refine ⟨sget_serase_eq .., ?_, rfl, fun i th hi => ?_⟩
    · rw [modTeam, sget_smod_eq, ht, Option.map_some]
    · rw [completeGroup_threads hn, hi, Option.map_some]
      by_cases hmem : i ∈ o.tids
      · obtain ⟨hregs, hpreds, hflags, hpend⟩ := endedThread_frame n o i th
        rw [if_pos hmem]
        exact ⟨_, rfl, hregs, hpreds, fun _ => ⟨hflags, hpend, fun k => endedThread_dc n o i th⟩, fun hno => absurd hmem hno⟩
      · rw [if_neg hmem]
        exact ⟨th, rfl, rfl, rfl, fun hyes => absurd hyes hmem, fun _ => rfl⟩
  · intro r s x ht hg hown l hl th hth
    obtain ⟨tm, hteam, hthread⟩ := installed_thread r ht hg hown hl hth
    obtain ⟨hregs, htags, hpend, hsame⟩ := pendOne_fold (dueNow x.g.handler th) th
    have hlate : ((dueNow x.g.handler th).foldl pendOne th).late = th.late := by
      conv_rhs => rw [← hsame]
    refine ⟨tm, _, hteam, hthread, hregs, htags, hpend, ?_, ?_⟩
    · rw [lateDue, hlate]
    · exact congrArg (fun u : Thread => { u with late := th.late }) hsame

end Sys2Proof.Laws
end

section
/-! SUPPORT. A releasing atomic performs its threads' held stores where their pages lie now (R212, R215): such a store may stand
anywhere, since the buffer lists it at the place where its page lay before. -/

namespace Sys2Proof.Laws
open Sys2Proof.Machine

/-- A store of thread 0 of team 1 that its page has refused: the page lay at 0x5000 then. -/
def refusedStore : HeldStore :=
  { core := 0, inst := 0, team := 1, tid := 0, lane := 0, va := 0x1000, pa := 0x5000, bytes := [1], keep := [], path := 0,
    ord := 0, mv := false, track := false, vis := 0, held := true }

/-- A team of the one thread, in lane 0 of group 0. -/
def loneTeam : Team :=
  { (default : Team) with
    ctx := 0, core := 0, nthr := 1, home := 1, budM := 256, budC := 256, budV := 256, slotPart := [0], slotPhys := [0],
    freeAt := [0], groups := [(0, { (default : Group) with members := [(0, 0)] })], threads := [(0, placedThread)] }

/-- The team's state: the page of the refused store takes it again, and lies at 0x11000. -/
def movedPage : State :=
  { State.reset with
    mem := placedTables [], contexts := [(0, placedCtx)], teams := [(1, loneTeam)], nextTeam := 2, coal := [refusedStore] }

/-- The site of the thread's atomic. -/
def loneSite : Site :=
  { t := 1, k := 0, tm := loneTeam, g := { (default : Group) with members := [(0, 0)] }, lr := placedLrec, act := [0] }

/-- An atomic of four bytes at address 0 that releases at `.dev` and writes nothing. -/
def releasedAtomic : List (Nat × Nat) × State := atomRun 7 4 0 0 (fun _ _ _ => none) loneSite movedPage

theorem loneSite_place : storePlace loneSite movedPage 4 (atomAddr 7 0 0) 0 = 0x10000 := by decide +kernel

theorem movedPage_before : memByte movedPage.mem 0x11000 = 0 := by decide +kernel

/-- The refused store is performed at 0x11000. -/
theorem releasedAtomic_after : memByte (atomQuiet ⟨⟨false, 7⟩, 0, 0, 6⟩ 7 loneSite releasedAtomic).mem 0x11000 = 1 := by
  decide +kernel

/-- Refutes O21: a releasing atomic of address 0, whose place is 0x10000, writes the byte at 0x11000 too, where no store of the
buffers stood: it performs the store that the thread's page refused at 0x5000, and the page has moved. -/
theorem not_loadsAndStoresFrame : ¬ Obligations.LoadsAndStoresFrame := by
  rintro ⟨-, -, -, -, -, -, -, hatomic, -⟩
  obtain ⟨hmem, -, -⟩ := hatomic ⟨⟨false, 7⟩, 0, 0, 6⟩ 7 4 0 0 (fun _ _ _ => none) (fun e => out1 e.1 0 (BitVec.ofNat 32 e.2))
    loneSite movedPage rfl _ (.inr rfl)
  have houtside : ∀ l ∈ loneSite.act, ¬(storePlace loneSite movedPage 4 (atomAddr 7 0 0) l ≤ 0x11000 ∧
      0x11000 < storePlace loneSite movedPage 4 (atomAddr 7 0 0) l + 4) := by
    intro l hl
    obtain rfl : l = 0 := by simpa [loneSite] using hl
    rw [loneSite_place]
    decide
  have hunlisted : ∀ h ∈ movedPage.coal, h.meets 0x11000 1 = false := by decide +kernel
  have hsame := hmem 0x11000 (.inr houtside) hunlisted
  rw [movedPage_before] at hsame
  exact absurd (releasedAtomic_after.symm.trans hsame) (by decide)

end Sys2Proof.Laws
end

section
/-! SUPPORT. Collections with rising keys as lists: membership, several writes one after another, and sorted numbers. -/

namespace Sys2Proof.Laws
open Sys2Proof.Machine

/-! ## Membership -/

section Keyed
variable {α : Type}

/-- With rising keys every entry is the one that its key reads. -/
theorem sget_of_mem {m : Store α} (h : srising m = true) {n : Nat} {v : α} (hm : (n, v) ∈ m) : sget m n = some v := by
  induction m with
  | nil => cases hm
  | cons e t ih =>
    obtain ⟨k, w⟩ := e
    obtain ⟨habove, ht⟩ := (srising_cons k w t).1 h
    obtain heq | hm := List.mem_cons.1 hm
    · cases heq
      simp [sget]
    · have hlt : k < n := habove _ hm
      rw [sget, if_neg (Nat.ne_of_lt hlt)]
      exact ih ht hm

/-- The values of a collection with rising keys. -/
theorem mem_values_iff {m : Store α} (h : srising m = true) (v : α) : v ∈ m.map Prod.snd ↔ ∃ n, sget m n = some v := by
  constructor
  · intro hv
    obtain ⟨⟨n, w⟩, hm, rfl⟩ := List.mem_map.1 hv
    exact ⟨n, sget_of_mem h hm⟩
  · rintro ⟨n, hn⟩
    exact List.mem_map.2 ⟨(n, v), mem_of_sget hn, rfl⟩

/-! ## Several writes -/

/-- What a key reads after writes that agree on it. -/
theorem sget_foldl_sset {β : Type} {key : β → Nat} {val : β → α} {n : Nat} {v : α} {l : List β}
    (h : ∀ b ∈ l, key b = n → val b = v) (m : Store α) :
    sget (l.foldl (fun m b => sset m (key b) (val b)) m) n = if n ∈ l.map key then some v else sget m n := by
  induction l generalizing m with
  | nil => simp
  | cons b t ih =>
    rw [List.foldl_cons, ih (fun c hc => h c (by simp [hc])), sget_sset]
    by_cases hb : key b = n
    · simp [hb, h b (by simp) hb]
    · simp [hb, Ne.symm hb]

theorem srising_foldl_sset {β : Type} {key : β → Nat} {val : β → α} (l : List β) {m : Store α} (h : srising m = true) :
    srising (l.foldl (fun m b => sset m (key b) (val b)) m) = true := by
  induction l generalizing m with
  | nil => exact h
  | cons b t ih => exact ih (srising_sset _ _ h)

theorem pairwise_keys {m : Store α} (h : srising m = true) : (m.map Prod.fst).Pairwise (· < ·) := by
  induction m with
  | nil => exact .nil
  | cons e t ih =>
    obtain ⟨habove, ht⟩ := (srising_cons e.1 e.2 t).1 h
    refine List.pairwise_cons.2 ⟨fun k hk => ?_, ih ht⟩
    obtain ⟨d, hd, rfl⟩ := List.mem_map.1 hk
    exact habove d hd

end Keyed

/-! ## Sorted numbers -/

theorem pairwise_sortNat (l : List Nat) : (sortNat l).Pairwise (· < ·) :=
  pairwise_keys (srising_foldl_sset (key := id) (val := fun _ => ()) l rfl)

theorem mem_sortNat {l : List Nat} {n : Nat} : n ∈ sortNat l ↔ n ∈ l := by
  have hsorted : srising (l.foldl (fun (m : Store Unit) n => sset m n ()) []) = true :=
    srising_foldl_sset (key := id) (val := fun _ => ()) l rfl
  have hget : sget (l.foldl (fun (m : Store Unit) n => sset m n ()) []) n = if n ∈ l.map id then some () else none :=
    sget_foldl_sset (key := id) (val := fun _ => ()) (fun _ _ _ => rfl) []
  rw [List.map_id] at hget
  unfold sortNat
  constructor
  · intro h
    obtain ⟨⟨k, u⟩, hm, rfl⟩ := List.mem_map.1 h
    by_contra hn
    rw [sget_of_mem hsorted hm, if_neg hn] at hget
    cases hget
  · intro h
    rw [if_pos h] at hget
    exact List.mem_map.2 ⟨(n, ()), mem_of_sget hget, rfl⟩

/-- Distinct numbers sorted are the same numbers. -/
theorem sortNat_perm {l : List Nat} (h : l.Nodup) : (sortNat l).Perm l :=
  (List.perm_ext_iff_of_nodup ((pairwise_sortNat l).imp Nat.ne_of_lt) h).2 fun _ => mem_sortNat

/-! ## A choice among several -/

/-- What a choice between two of a list comes to is in the list. -/
theorem foldl_choice_mem {α : Type} {f : α → α → α} (hf : ∀ a b, f a b = a ∨ f a b = b) (l : List α) (a : α) :
    l.foldl f a ∈ a :: l := by
  induction l generalizing a with
  | nil => simp
  | cons b t ih =>
    rw [List.foldl_cons]
    obtain heq | hmem := List.mem_cons.1 (ih (f a b))
    · rw [heq]
      obtain h | h := hf a b <;> simp [h]
    · simp [hmem]

end Sys2Proof.Laws
end

section
/-! SUPPORT. Lanes of a new group (R145): up to 32 distinct threads all get a lane, each its home lane where that is free. -/

namespace Sys2Proof.Laws
open Sys2Proof.Machine

/-- Lanes hold some of the threads, each of them once. -/
structure HoldsOnce (tids : List Nat) (m : Store Nat) : Prop where
  rising : srising m = true
  mem : ∀ l i, sget m l = some i → i ∈ tids
  once : ∀ l l' i, sget m l = some i → sget m l' = some i → l = l'

theorem holdsOnce_nil (tids : List Nat) : HoldsOnce tids [] :=
  ⟨rfl, fun _ _ h => (nomatch h), fun _ _ _ h => (nomatch h)⟩

/-- A thread without a lane takes any. -/
theorem HoldsOnce.sset {tids : List Nat} {m : Store Nat} (h : HoldsOnce tids m) {i : Nat} (hi : i ∈ tids)
    (hout : ∀ l, sget m l ≠ some i) (l : Nat) : HoldsOnce tids (sset m l i) := by
  refine ⟨srising_sset _ _ h.rising, fun k j hk => ?_, fun k k' j hk hk' => ?_⟩
  · rw [sget_sset] at hk
    split at hk
    · exact Option.some.inj hk ▸ hi
    · exact h.mem k j hk
  · rw [sget_sset] at hk hk'
    split at hk <;> split at hk'
    · omega
    · exact absurd (Option.some.inj hk ▸ hk') (hout k')
    · exact absurd (Option.some.inj hk' ▸ hk) (hout k)
    · exact h.once k k' j hk hk'

/-- While a thread of up to 32 has no lane, one of the 32 lanes is free. -/
theorem HoldsOnce.freeLane {tids : List Nat} {m : Store Nat} (h : HoldsOnce tids m) (hlen : tids.length ≤ 32) {i : Nat}
    (hi : i ∈ tids) (hout : ∀ l, sget m l ≠ some i) :
    ∃ l, ((List.range 32).find? fun l => (sget m l).isNone) = some l ∧ sget m l = none := by
  cases hfind : (List.range 32).find? fun l => (sget m l).isNone with
  | some l => exact ⟨l, rfl, by simpa using List.find?_some hfind⟩
  | none =>
    exfalso
    have hfull : ∀ l ∈ List.range 32, sget m l = some (sgetD m l 0) := fun l hl => by
      have hsome : (sget m l).isSome := by
        simpa [Option.isNone_iff_eq_none, Option.isSome_iff_ne_none] using List.find?_eq_none.1 hfind l hl
      obtain ⟨j, hj⟩ := Option.isSome_iff_exists.1 hsome
      rw [sgetD, hj, Option.getD_some]
    have hnodup : ((List.range 32).map fun l => sgetD m l 0).Nodup :=
      List.nodup_range.map_on fun l hl l' hl' he => h.once l l' _ (hfull l hl) ((hfull l' hl').trans (congrArg some he.symm))
    have hsub : ((List.range 32).map fun l => sgetD m l 0) ⊆ tids.erase i := fun j hj => by
      obtain ⟨l, hl, rfl⟩ := List.mem_map.1 hj
      have hheld := hfull l hl
      exact (List.mem_erase_of_ne fun he => hout l (hheld.trans (congrArg some he))).2 (h.mem l _ hheld)
    have hle := (List.subperm_of_subset hnodup hsub).length_le
    rw [List.length_map, List.length_range, List.length_erase_of_mem hi] at hle
    have := List.length_pos_of_mem hi
    omega

/-- The lanes after the threads have taken their home lanes, where these were free. -/
def homeLanes (tids : List Nat) : Store Nat :=
  tids.foldl (fun (m : Store Nat) i => if (sget m (homeLane i)).isSome then m else sset m (homeLane i) i) []

/-- The lanes after further threads have taken the lowest free ones. -/
def restLanes (rest : List Nat) (m : Store Nat) : Store Nat :=
  rest.foldl (fun m i => match (List.range 32).find? fun l => (sget m l).isNone with
    | some l => sset m l i
    | none => m) m

theorem assignLanes_eq (tids : List Nat) :
    assignLanes tids = restLanes (tids.filter fun i => sget (homeLanes tids) (homeLane i) ≠ some i) (homeLanes tids) := rfl

/-- At first a thread stands in its home lane or in none. -/
theorem homeLanes_spec (tids : List Nat) :
    HoldsOnce tids (homeLanes tids) ∧ ∀ l i, sget (homeLanes tids) l = some i → l = homeLane i := by
  suffices h : ∀ (r : List Nat) (m : Store Nat), r ⊆ tids → HoldsOnce tids m → (∀ l i, sget m l = some i → l = homeLane i) →
      let m' := r.foldl (fun (m : Store Nat) i => if (sget m (homeLane i)).isSome then m else sset m (homeLane i) i) m
      HoldsOnce tids m' ∧ ∀ l i, sget m' l = some i → l = homeLane i from
    h tids [] (fun _ h => h) (holdsOnce_nil tids) fun _ _ h => (nomatch h)
  intro r
  induction r with
  | nil => exact fun m _ hm hhome => ⟨hm, hhome⟩
  | cons a r ih =>
    intro m hsub hm hhome
    have hr : r ⊆ tids := fun _ h => hsub (List.mem_cons_of_mem _ h)
    rw [List.foldl_cons]
    by_cases hc : (sget m (homeLane a)).isSome
    · rw [if_pos hc]
      exact ih m hr hm hhome
    · rw [if_neg hc]
      have hout : ∀ l, sget m l ≠ some a := fun l hl => hc (by rw [← hhome l a hl, hl]; rfl)
      refine ih _ hr (hm.sset (hsub (List.mem_cons_self ..)) hout _) fun l i hl => ?_
      rw [sget_sset] at hl
      split at hl
      · cases hl
        omega
      · exact hhome l i hl

/-- Distinct further threads all get a lane, and no lane is given up. -/
theorem restLanes_spec {tids : List Nat} (hlen : tids.length ≤ 32) {rest : List Nat} (hn : rest.Nodup) (hsub : rest ⊆ tids)
    {m : Store Nat} (hm : HoldsOnce tids m) (hout : ∀ i ∈ rest, ∀ l, sget m l ≠ some i) :
    HoldsOnce tids (restLanes rest m) ∧ (∀ l i, sget m l = some i → sget (restLanes rest m) l = some i) ∧
      ∀ i ∈ rest, ∃ l, sget (restLanes rest m) l = some i := by
  induction rest generalizing m with
  | nil => exact ⟨hm, fun _ _ h => h, fun _ h => (nomatch h)⟩
  | cons a r ih =>
    obtain ⟨ha, hr⟩ := List.nodup_cons.1 hn
    have hmem : a ∈ tids := hsub (List.mem_cons_self ..)
    have houta := hout a (List.mem_cons_self ..)
    obtain ⟨l0, hfind, hfree⟩ := hm.freeLane hlen hmem houta
    have hstep : restLanes (a :: r) m = restLanes r (sset m l0 a) := by
      simp only [restLanes, List.foldl_cons, hfind]
    have hout' : ∀ i ∈ r, ∀ l, sget (sset m l0 a) l ≠ some i := fun i hi l hl => by
      rw [sget_sset] at hl
      split at hl
      · exact ha (Option.some.inj hl ▸ hi)
      · exact hout i (List.mem_cons_of_mem _ hi) l hl
    obtain ⟨hholds, hkeep, hall⟩ := ih hr (fun _ h => hsub (List.mem_cons_of_mem _ h)) (hm.sset hmem houta l0) hout'
    rw [hstep]
    refine ⟨hholds, fun l i hl => hkeep l i ?_, fun i hi => ?_⟩
    · rw [sget_sset_ne _ _ fun he : l0 = l => by rw [← he, hfree] at hl; cases hl]
      exact hl
    · obtain rfl | hi := List.mem_cons.1 hi
      · exact ⟨l0, hkeep l0 i (sget_sset_eq ..)⟩
      · exact hall i hi

/-- Up to 32 distinct threads are the members of their group. -/
theorem mem_assignLanes {tids : List Nat} (hn : tids.Nodup) (hlen : tids.length ≤ 32) (i : Nat) :
    i ∈ (assignLanes tids).map Prod.snd ↔ i ∈ tids := by
  obtain ⟨hholds, hhome⟩ := homeLanes_spec tids
  have hout : ∀ j ∈ tids.filter fun j => sget (homeLanes tids) (homeLane j) ≠ some j, ∀ l, sget (homeLanes tids) l ≠ some j := by
    intro j hj l hl
    have hne : sget (homeLanes tids) (homeLane j) ≠ some j := by simpa using (List.mem_filter.1 hj).2
    exact hne (hhome l j hl ▸ hl)
  obtain ⟨hall, hkeep, hrest⟩ :=
    restLanes_spec hlen (hn.filter _) (fun _ hj => (List.mem_filter.1 hj).1) hholds hout
  rw [assignLanes_eq, mem_values_iff hall.rising]
  constructor
  · rintro ⟨l, hl⟩
    exact hall.mem l i hl
  · intro hi
    by_cases hc : sget (homeLanes tids) (homeLane i) = some i
    · exact ⟨_, hkeep _ i hc⟩
    · exact hrest i (List.mem_filter.2 ⟨hi, by simpa using hc⟩)

end Sys2Proof.Laws
end

section
/-! SUPPORT. FORMATION (R145, R152): the team served, its new group, and that a trace of it leaves teams as they stand. -/

namespace Sys2Proof.Laws
open Sys2Proof.Machine

/-! ## Packets of the trace (R361) -/

theorem bare_ringPut (ctx base size : Nat) (ws : List DWord) (s : State) (n : Nat) : bare (ringPut s ctx base size n ws) = bare s := by
  induction ws generalizing s n with
  | nil => rfl
  | cons w t ih =>
    simp only [ringPut]
    rw [ih]
    split
    · rfl
    · exact bare_homeWrite ..

theorem bare_traceAppend (s : State) (core : Nat) (b : TraceBody) : bare (traceAppend s core b) = bare s := by
  have hring := bare_ringPut (getCore s core).trace.ctx (getCore s core).trace.base (2 ^ (getCore s core).trace.logsz)
    (packetWords b 0 (traceLength b)) s (getCore s core).trace.count
  simp only [traceAppend]
  split
  · exact hring
  · exact (bare_homeWrite ..).trans hring

theorem bare_traceOrDrop (s : State) (core : Nat) (b : TraceBody) : bare (traceOrDrop s core b) = bare s := by
  simp only [traceOrDrop]
  split
  · rfl
  · rw [bare_traceAppend]
    split
    · rfl
    · exact bare_traceAppend ..

theorem bare_ite {c : Prop} [Decidable c] {a b s : State} (ha : bare a = bare s) (hb : bare b = bare s) :
    bare (if c then a else b) = bare s := by
  split
  · exact ha
  · exact hb

/-- A packet changes memory, the core and the agenda alone. -/
theorem bare_tracePut (s : State) (core : Nat) (b : TraceBody) : bare (tracePut s core b) = bare s :=
  bare_ite rfl (bare_ite (bare_traceOrDrop ..) (bare_traceOrDrop ..))

theorem groups_of_teamBare {tm tm' : Team} (h : teamBare tm' = teamBare tm) : tm'.groups = tm.groups :=
  (congrArg Team.groups h :)
theorem nform_of_teamBare {tm tm' : Team} (h : teamBare tm' = teamBare tm) : tm'.nform = tm.nform :=
  (congrArg Team.nform h :)

/-- What is prompted stands in the agenda alone. -/
@[simp] theorem promptTeam_teams (s : State) (t : Nat) : (promptTeam s t).teams = s.teams := by
  unfold promptTeam
  split <;> rfl

/-! ## The team and the entry -/

theorem servedFirst_choice (a b : Nat × Team) : servedFirst a b = a ∨ servedFirst a b = b := by
  simp only [servedFirst]
  split
  · exact .inr rfl
  · exact .inl rfl

/-- FORMATION serves the team that comes out first of those that can form a group and run. -/
theorem formation_serves {s : State} {core t : Nat} {tm : Team} {a : Nat × Team} {l : List (Nat × Team)}
    (hl : (s.teams.filter fun e => e.2.core = core && teamRuns s e.2 && formable e.2 ≠ []) = a :: l)
    (hfirst : l.foldl servedFirst a = (t, tm)) :
    exec (.formation core) s = .next (promptTeam (formTeam s t) t) ∧ teamRuns s tm = true := by
  constructor
  · change execFormation core s = _
    simp only [execFormation, hl, hfirst]
  · have hmem : (t, tm) ∈ a :: l := hfirst ▸ foldl_choice_mem servedFirst_choice l a
    rw [← hl] at hmem
    have hcond := (List.mem_filter.1 hmem).2
    simp only [Bool.and_eq_true] at hcond
    exact hcond.1.2

/-- A running team's group is formed of its chosen entry. -/
theorem formTeam_chosen {s : State} {t : Nat} {tm : Team} {e : FrontEntry} (ht : sget s.teams t = some tm)
    (hrun : teamRuns s tm = true) (he : chooseEntry (tm.nform + 1) (formable tm) = some e) : formTeam s t = formAt s t tm e := by
  simp only [formTeam, ht, hrun, he, Bool.not_true, Bool.false_eq_true, if_false]

/-- The new group, in the slot chosen for it. -/
theorem formEntry_chosen {tm : Team} {e : FrontEntry} {k : Nat} (cyc : Nat)
    (hk : chooseSlot tm e.role ((e.threads.take 32).map Prod.fst) = some k) :
    sget (formEntry cyc tm e).groups k = some (newGroup (assignLanes ((e.threads.take 32).map Prod.fst)) e.addr cyc) ∧
      (formEntry cyc tm e).nform = tm.nform + 1 := by
  simp only [formEntry, hk]
  exact ⟨sget_sset_eq .., trivial⟩

/-- A formed group stands in its team. -/
theorem formAt_spec {s : State} {t k : Nat} {tm : Team} {e : FrontEntry} (ht : sget s.teams t = some tm)
    (hk : chooseSlot tm e.role ((e.threads.take 32).map Prod.fst) = some k) :
    ∃ tm', sget (formAt s t tm e).teams t = some tm' ∧
      sget tm'.groups k = some (newGroup (assignLanes ((e.threads.take 32).map Prod.fst)) e.addr s.cycle) ∧
      tm'.nform = tm.nform + 1 := by
  obtain ⟨hgroup, hnform⟩ := formEntry_chosen s.cycle hk
  have hformed : sget (modTeam s t fun tm => formEntry s.cycle tm e).teams t = some (formEntry s.cycle tm e) := by
    rw [modTeam, sget_smod_eq, ht, Option.map_some]
  obtain ⟨tm', ht', hbare⟩ := team_of_bare (bare_tracePut _ _ _) hformed
  exact ⟨tm', ht', by rw [groups_of_teamBare hbare, hgroup], by rw [nform_of_teamBare hbare, hnform]⟩

/-- FORMATION makes a group of the first 32 threads of the chosen entry. -/
theorem formation_spec {s : State} {core t k : Nat} {tm : Team} {e : FrontEntry} {a : Nat × Team} {l : List (Nat × Team)}
    (hl : (s.teams.filter fun e => e.2.core = core && teamRuns s e.2 && formable e.2 ≠ []) = a :: l)
    (hfirst : l.foldl servedFirst a = (t, tm)) (ht : sget s.teams t = some tm)
    (he : chooseEntry (tm.nform + 1) (formable tm) = some e) (hn : (e.threads.map Prod.fst).Nodup)
    (hk : chooseSlot tm e.role ((e.threads.take 32).map Prod.fst) = some k) :
    ∃ u tm' g, exec (.formation core) s = .next u ∧ sget u.teams t = some tm' ∧ sget tm'.groups k = some g ∧ g.pc = e.addr ∧
      g.handler = false ∧ tm'.nform = tm.nform + 1 ∧ ∀ i, i ∈ memberTids g ↔ i ∈ (e.threads.take 32).map Prod.fst := by
  obtain ⟨hexec, hrun⟩ := formation_serves hl hfirst
  obtain ⟨tm', ht', hgroup, hnform⟩ := formAt_spec ht hk
  rw [formTeam_chosen ht hrun he] at hexec
  have hnodup : ((e.threads.take 32).map Prod.fst).Nodup := by
    rw [List.map_take]
    exact hn.sublist (List.take_sublist ..)
  have hlen : ((e.threads.take 32).map Prod.fst).length ≤ 32 := by simp
  exact ⟨_, tm', _, hexec, by rw [promptTeam_teams]; exact ht', hgroup, rfl, rfl, hnform, mem_assignLanes hnodup hlen⟩

end Sys2Proof.Laws
end

section
/-! SUPPORT. JOIN_RELEASE (R148, R149, R142): which held entries are released, and where their threads stand after it. -/

namespace Sys2Proof.Laws
open Sys2Proof.Machine

/-! ## Which entries are released -/

/-- An entry's priority holds a JOIN while no entry and no group of its role has a higher one. -/
theorem joinBlocked_eq_false {s : State} {tm : Team} {role : Role} {prio : Nat} : joinBlocked s tm role prio = false ↔
    (∀ f ∈ tm.front, f.role = role → f.threads ≠ [] → f.prio ≤ prio) ∧
      ∀ g ∈ tm.groups, groupRole tm g.2 = role → g.2.members ≠ [] → groupPrio s tm g.2 ≤ prio := by
  simp only [joinBlocked, Bool.or_eq_false_iff, List.any_eq_false, Bool.and_eq_true, decide_eq_true_eq, not_and, not_lt,
    and_imp]

theorem mem_releasable {s : State} {tm : Team} {role : Role} {e : FrontEntry} : e ∈ releasable s tm role ↔
    e ∈ tm.front ∧ e.held = true ∧ e.role = role ∧ e.threads ≠ [] ∧
      (∀ f ∈ tm.front, f.role = role → f.threads ≠ [] → f.prio ≤ e.prio) ∧
      ∀ g ∈ tm.groups, groupRole tm g.2 = role → g.2.members ≠ [] → groupPrio s tm g.2 ≤ e.prio := by
  simp only [releasable, List.mem_filter, Bool.and_eq_true, decide_eq_true_eq, Bool.not_eq_true', joinBlocked_eq_false, and_assoc]

/-- JOIN_RELEASE of a running team. -/
theorem joinRelease_runs {s : State} {t : Nat} {tm : Team} (role : Role) (ht : sget s.teams t = some tm)
    (hrun : teamRuns s tm = true) :
    exec (.joinRelease t role) s = .next (promptTeam (joinRelease t role (releasable s tm role) s) t) := by
  change execJoinRelease t role s = _
  simp only [execJoinRelease, ht, hrun, if_true]

/-! ## Threads that enter the frontier (R142) -/

theorem mem_insertTid {x e : Nat × Nat} {l : List (Nat × Nat)} : x ∈ insertTid e l ↔ x = e ∨ x ∈ l := by
  induction l with
  | nil => simp [insertTid]
  | cons d t ih =>
    simp only [insertTid]
    split
    · simp
    · simp only [List.mem_cons, ih]
      tauto

/-- The entry that a thread joins if it stands in the frontier. -/
def sameEntry (role : Role) (prio addr : Nat) (held : Bool) (e : FrontEntry) : Bool :=
  e.role = role && e.prio = prio && e.addr = addr && e.held = held

theorem frontEnter_front (role : Role) (prio addr : Nat) (held : Bool) (tm : Team) (i : Nat) :
    (frontEnter role prio addr held tm i).front =
      if tm.front.any (sameEntry role prio addr held) then
        tm.front.map fun e =>
          if sameEntry role prio addr held e then { e with threads := insertTid (i, tm.nstamp + 1) e.threads } else e
      else tm.front ++ [{ role := role, prio := prio, addr := addr, held := held, threads := [(i, tm.nstamp + 1)] }] :=
  apply_ite Team.front ..

/-- A thread stands in the frontier at an address, not held, with a stamp. -/
def StandsAt (tm : Team) (role : Role) (addr : Nat) (x : Nat × Nat) : Prop :=
  ∃ f ∈ tm.front, f.role = role ∧ f.addr = addr ∧ f.held = false ∧ x ∈ f.threads

/-- The thread that enters stands at its address with the next stamp. -/
theorem frontEnter_standsAt (role : Role) (prio addr : Nat) (tm : Team) (i : Nat) :
    StandsAt (frontEnter role prio addr false tm i) role addr (i, tm.nstamp + 1) := by
  unfold StandsAt
  rw [frontEnter_front]
  split
  next hany =>
    obtain ⟨f, hf, hsame⟩ := List.any_eq_true.1 hany
    refine ⟨_, List.mem_map_of_mem hf, ?_⟩
    rw [if_pos hsame]
    simp only [sameEntry, Bool.and_eq_true, decide_eq_true_eq] at hsame
    obtain ⟨⟨⟨hrole, -⟩, haddr⟩, hheld⟩ := hsame
    exact ⟨hrole, haddr, hheld, mem_insertTid.2 (.inl rfl)⟩
  next =>
    exact ⟨_, List.mem_append_right _ (List.mem_singleton_self _), rfl, rfl, rfl, List.mem_singleton_self _⟩

/-- Who stands in the frontier stays there as another thread enters. -/
theorem StandsAt.frontEnter {tm : Team} {role : Role} {addr : Nat} {x : Nat × Nat} (h : StandsAt tm role addr x)
    (role' : Role) (prio' addr' : Nat) (held' : Bool) (i : Nat) :
    StandsAt (frontEnter role' prio' addr' held' tm i) role addr x := by
  obtain ⟨f, hf, hrole, haddr, hheld, hx⟩ := h
  unfold StandsAt
  rw [frontEnter_front]
  split
  · refine ⟨_, List.mem_map_of_mem hf, ?_⟩
    split
    · exact ⟨hrole, haddr, hheld, mem_insertTid.2 (.inr hx)⟩
    · exact ⟨hrole, haddr, hheld, hx⟩
  · exact ⟨f, List.mem_append_left _ hf, hrole, haddr, hheld, hx⟩

@[simp] theorem frontEnter_nstamp (role : Role) (prio addr : Nat) (held : Bool) (tm : Team) (i : Nat) :
    (frontEnter role prio addr held tm i).nstamp = tm.nstamp + 1 := by
  simp only [frontEnter]
  split <;> rfl

/-- Threads enter one after another, each at its own address. -/
def enterEach (role : Role) (prio : Team → Nat → Nat) (addr : Nat → Nat) (ids : List Nat) (tm : Team) : Team :=
  ids.foldl (fun tm i => frontEnter role (prio tm i) (addr i) false tm i) tm

theorem StandsAt.enterEach {tm : Team} {role : Role} {a : Nat} {x : Nat × Nat} (h : StandsAt tm role a x)
    (prio : Team → Nat → Nat) (addr : Nat → Nat) (ids : List Nat) : StandsAt (enterEach role prio addr ids tm) role a x := by
  induction ids generalizing tm with
  | nil => exact h
  | cons j r ih => exact ih (h.frontEnter ..)

/-- In ascending order each thread's stamp is its rank. -/
theorem enterEach_standsAt (role : Role) (prio : Team → Nat → Nat) (addr : Nat → Nat) {ids : List Nat}
    (hs : ids.Pairwise (· < ·)) (tm : Team) {i : Nat} (hi : i ∈ ids) :
    StandsAt (enterEach role prio addr ids tm) role (addr i) (i, tm.nstamp + (ids.filter (· ≤ i)).length) := by
  induction ids generalizing tm with
  | nil => cases hi
  | cons j r ih =>
    obtain ⟨hj, hr⟩ := List.pairwise_cons.1 hs
    obtain rfl | hi := List.mem_cons.1 hi
    · have hrank : ((i :: r).filter (· ≤ i)).length = 1 := by
        have hnone : r.filter (· ≤ i) = [] := List.filter_eq_nil_iff.2 fun k hk => by simpa using hj k hk
        simp [hnone]
      rw [hrank]
      exact (frontEnter_standsAt role (prio tm i) (addr i) tm i).enterEach prio addr r
    · have hrank : ((j :: r).filter (· ≤ i)).length = 1 + (r.filter (· ≤ i)).length := by
        simp [Nat.le_of_lt (hj i hi), Nat.add_comm]
      rw [hrank, ← Nat.add_assoc, ← frontEnter_nstamp role (prio tm j) (addr j) false tm j]
      exact ih hr _ hi

theorem enterAll_eq {s : State} {t : Nat} {tm : Team} (ht : sget s.teams t = some tm) (role : Role) (nexts : List (Nat × Nat)) :
    sget (enterAll s t role nexts).teams t = some (enterEach role (fun tm i => headPrio s tm (sgetD nexts i 0))
      (fun i => sgetD nexts i 0) (sortNat (nexts.map Prod.fst)) tm) := by
  simp only [enterAll, ht, modTeam, sget_smod_eq, Option.map_some]
  rfl

/-! ## A release of entries that go on (R149) -/

theorem nexts_tids (es : List FrontEntry) : (es.flatMap FrontEntry.nexts).map Prod.fst = es.flatMap FrontEntry.tids := by
  simp [FrontEntry.nexts, List.map_flatMap, Function.comp_def]

/-- With distinct keys an entry is what its key reads. -/
theorem sgetD_of_nodup {m : List (Nat × Nat)} (hn : (m.map Prod.fst).Nodup) {i a : Nat} (hm : (i, a) ∈ m) : sgetD m i 0 = a := by
  induction m with
  | nil => cases hm
  | cons e t ih =>
    obtain ⟨k, w⟩ := e
    obtain ⟨hk, ht⟩ := List.nodup_cons.1 hn
    obtain heq | hm := List.mem_cons.1 hm
    · cases heq
      simp [sgetD, sget]
    · have hne : k ≠ i := fun he => hk (he ▸ List.mem_map.2 ⟨_, hm, rfl⟩)
      rw [sgetD, sget, if_neg hne]
      exact ih ht hm

/-- The team without the released entries. -/
def withoutEntries (tm : Team) (es : List FrontEntry) : Team := { tm with front := tm.front.filter (!es.contains ·) }

/-- Threads of entries that do not go home stand behind their JOINs. -/
theorem joinRelease_enters {s : State} {t : Nat} {tm : Team} (role : Role) {es : List FrontEntry} (ht : sget s.teams t = some tm)
    (hn : (es.flatMap FrontEntry.tids).Nodup) (hout : ∀ e ∈ es, goesHome tm e = false) :
    ∃ tm', sget (joinRelease t role es s).teams t = some tm' ∧ ∀ e ∈ es, ∀ i ∈ e.tids,
      StandsAt tm' role (e.addr + 16) (i, tm.nstamp + ((es.flatMap FrontEntry.tids).filter (· ≤ i)).length) := by
  have hhome : es.filter (goesHome tm) = [] := List.filter_eq_nil_iff.2 fun e he => by simp [hout e he]
  have hstay : (es.filter fun e => !goesHome tm e) = es := List.filter_eq_self.2 fun e he => by simp [hout e he]
  have hteam : sget (modTeam s t fun tm => (es.filter (goesHome tm)).foldl
      (fun tm e => homeReturn s.cycle (e.addr + 16) e.tids tm) (withoutEntries tm es)).teams t = some (withoutEntries tm es) := by
    rw [modTeam, sget_smod_eq, ht, Option.map_some, hhome, List.foldl_nil]
  have hjoin : joinRelease t role es s = enterAll (modTeam s t fun tm => (es.filter (goesHome tm)).foldl
      (fun tm e => homeReturn s.cycle (e.addr + 16) e.tids tm) (withoutEntries tm es)) t role (es.flatMap FrontEntry.nexts) := by
    simp only [joinRelease, ht, hstay, withoutEntries]
  refine ⟨_, hjoin ▸ enterAll_eq hteam role _, fun e he i hi => ?_⟩
  have hkeys : ((es.flatMap FrontEntry.nexts).map Prod.fst).Nodup := (nexts_tids es).symm ▸ hn
  have hids : i ∈ es.flatMap FrontEntry.tids := List.mem_flatMap.2 ⟨e, he, hi⟩
  have haddr : sgetD (es.flatMap FrontEntry.nexts) i 0 = e.addr + 16 :=
    sgetD_of_nodup hkeys (List.mem_flatMap.2 ⟨e, he, List.mem_map_of_mem hi⟩)
  have hrank : ((sortNat (es.flatMap FrontEntry.tids)).filter (· ≤ i)).length
      = ((es.flatMap FrontEntry.tids).filter (· ≤ i)).length := ((sortNat_perm hn).filter _).length_eq
  rw [nexts_tids, ← haddr, ← hrank]
  exact enterEach_standsAt role _ _ (pairwise_sortNat _) (withoutEntries tm es) (mem_sortNat.2 hids)

/-! ## A role that goes home (R150) -/

/-- The members of a home group: its threads in their home lanes. -/
def homeMembers (tids : List Nat) (h : Nat) : Store Nat :=
  (tids.filter fun i => homeGroup i = h).foldl (fun m i => sset m (homeLane i) i) []

/-- A thread of its home group stands in its home lane. -/
theorem sget_homeMembers {tids : List Nat} {i : Nat} (hi : i ∈ tids) : sget (homeMembers tids (i / 32)) (i % 32) = some i := by
  have hsame : ∀ j ∈ tids.filter fun j => homeGroup j = i / 32, homeLane j = i % 32 → j = i := fun j hj hlane => by
    have hgroup : j / 32 = i / 32 := of_decide_eq_true (List.mem_filter.1 hj).2
    have hlane : j % 32 = i % 32 := hlane
    omega
  have hmem : i % 32 ∈ (tids.filter fun j => homeGroup j = i / 32).map homeLane :=
    List.mem_map.2 ⟨i, List.mem_filter.2 ⟨hi, by simp [homeGroup]⟩, rfl⟩
  exact (sget_foldl_sset (key := homeLane) (val := id) hsame []).trans (if_pos hmem)

/-- The groups of a role's threads as they return. -/
theorem homeReturn_spec (cyc pc : Nat) {tids : List Nat} (tm : Team) {i : Nat} (hi : i ∈ tids) :
    sget (homeReturn cyc pc tids tm).groups (i / 32) = some (newGroup (homeMembers tids (i / 32)) pc cyc) := by
  have hfold : ∀ (hs : List Nat) (tm : Team),
      (hs.foldl (fun tm h => { tm with groups := sset tm.groups h (newGroup (homeMembers tids h) pc cyc) }) tm).groups
        = hs.foldl (fun m h => sset m (id h) (newGroup (homeMembers tids h) pc cyc)) tm.groups := by
    intro hs
    induction hs with
    | nil => exact fun _ => rfl
    | cons h t ih => exact fun tm => ih _
  have hmem : i / 32 ∈ (sortNat (tids.map homeGroup)).map id := by
    rw [List.map_id]
    exact mem_sortNat.2 (List.mem_map.2 ⟨i, hi, rfl⟩)
  change sget ((sortNat (tids.map homeGroup)).foldl _ tm).groups _ = _
  refine (congrArg (sget · (i / 32)) (hfold _ tm)).trans ?_
  rw [sget_foldl_sset (v := newGroup (homeMembers tids (i / 32)) pc cyc) (fun h _ he => by rw [← he, id]), if_pos hmem]

@[simp] theorem homeReturn_front (cyc pc : Nat) (tids : List Nat) (tm : Team) : (homeReturn cyc pc tids tm).front = tm.front := by
  unfold homeReturn
  induction sortNat (tids.map homeGroup) generalizing tm with
  | nil => rfl
  | cons h t ih => exact ih _

/-- A released entry that holds a whole role leaves the frontier, and its threads' home groups stand behind the JOIN. -/
theorem joinRelease_home {s : State} {t : Nat} {tm : Team} {e : FrontEntry} (ht : sget s.teams t = some tm)
    (hhome : goesHome tm e = true) :
    sget (joinRelease t e.role [e] s).teams t
      = some (homeReturn s.cycle (e.addr + 16) e.tids (withoutEntries tm [e])) := by
  have hgo : [e].filter (goesHome tm) = [e] := List.filter_eq_self.2 fun f hf => by rw [List.mem_singleton.1 hf, hhome]
  have hnone : ([e].filter fun e => !goesHome tm e) = [] :=
    List.filter_eq_nil_iff.2 fun f hf => by rw [List.mem_singleton.1 hf, hhome]; decide
  have hteam : sget (modTeam s t fun tm => ([e].filter (goesHome tm)).foldl
      (fun tm e => homeReturn s.cycle (e.addr + 16) e.tids tm) (withoutEntries tm [e])).teams t
        = some (homeReturn s.cycle (e.addr + 16) e.tids (withoutEntries tm [e])) := by
    rw [modTeam, sget_smod_eq, ht, Option.map_some, hgo, List.foldl_cons, List.foldl_nil]
  have hjoin : joinRelease t e.role [e] s = enterAll (modTeam s t fun tm => ([e].filter (goesHome tm)).foldl
      (fun tm e => homeReturn s.cycle (e.addr + 16) e.tids tm) (withoutEntries tm [e])) t e.role [] := by
    simp only [joinRelease, ht, hnone, withoutEntries, List.flatMap_nil]
  rw [hjoin]
  exact enterAll_eq hteam e.role []

end Sys2Proof.Laws
end

section
/-! SUPPORT. CLAUSE_FETCH (R33, R40), ISSUE_SELECT (R152, R153), and the statement on groups as a whole. -/

namespace Sys2Proof.Laws
open Sys2Proof.Machine

/-! ## Fetching a clause -/

section Group
variable {s : State} {t k : Nat} {x : Site} (hx : siteOf s t k ⟨false, 7⟩ = some x) (hnone : x.g.clause = none)
  (hrun : teamRuns s x.tm = true) (hstatus : x.g.status ≠ .yielded)
include hx hnone hrun hstatus

omit hx in
theorem group_fetches : (x.g.clause.isSome || !teamRuns s x.tm || decide (x.g.status = .yielded)) = false := by
  simp [hnone, hrun, hstatus]

/-- CLAUSE_FETCH of a group that has no clause installs the one it reads. -/
theorem clauseFetch_installs {c : Clause} {ls : List Loc}
    (hf : fetchClause s x.tm.ctx x.tm.core x.tm.staged x.g.pc false (x.g.handler || x.lr.priv) = .ok (c, ls))
    (hlen : x.g.wix < c.words.length) : exec (.clauseFetch (.group t k)) s = .next (promptTeam (modTeam (fetched s t x.tm ls) t
      fun tm => modGroup tm k fun g => { g with clause := some c }) t) := by
  change execClauseFetch (.group t k) s = _
  simp only [execClauseFetch, hx, group_fetches hnone hrun hstatus, hf, Nat.not_le.2 hlen, Bool.false_eq_true, if_false]

/-- A clause without the word at which the group stands is illegal. -/
theorem clauseFetch_short {c : Clause} {ls : List Loc}
    (hf : fetchClause s x.tm.ctx x.tm.core x.tm.staged x.g.pc false (x.g.handler || x.lr.priv) = .ok (c, ls))
    (hlen : c.words.length ≤ x.g.wix) :
    exec (.clauseFetch (.group t k)) s = .next (promptTeam (fetchTrap s t k x.g illegalClause) t) := by
  change execClauseFetch (.group t k) s = _
  simp only [execClauseFetch, hx, group_fetches hnone hrun hstatus, hf, hlen, Bool.false_eq_true, if_false, if_true]

/-- A fetch that fails traps. -/
theorem clauseFetch_fails {e : AFault}
    (hf : fetchClause s x.tm.ctx x.tm.core x.tm.staged x.g.pc false (x.g.handler || x.lr.priv) = .error e) :
    exec (.clauseFetch (.group t k)) s = .next (promptTeam (fetchTrap s t k x.g e) t) := by
  change execClauseFetch (.group t k) s = _
  simp only [execClauseFetch, hx, group_fetches hnone hrun hstatus, hf, Bool.false_eq_true, if_false]

end Group

section Sequencer
variable {s : State} {t : Nat} {x : SSite} (hx : ssiteOf s t = some x) (hnone : x.q.clause = none) (htrap : x.q.trap = none)
  (hrun : teamRuns s x.tm = true) (hstatus : x.q.status ≠ .ended)
include hx hnone htrap hrun hstatus

omit hx in
theorem seq_fetches :
    (x.q.clause.isSome || x.q.trap.isSome || !teamRuns s x.tm || decide (x.q.status = .ended)) = false := by
  simp [hnone, htrap, hrun, hstatus]

/-- CLAUSE_FETCH of a sequencer that has no clause installs the one it reads. -/
theorem clauseFetchSeq_installs {c : Clause} {ls : List Loc}
    (hf : fetchClause s x.tm.ctx x.tm.core x.tm.staged x.q.pc true false = .ok (c, ls)) (hlen : x.q.wix < c.words.length) :
    exec (.clauseFetch (.seq t)) s = .next (modSeq (fetched s t x.tm ls) t fun q => { q with clause := some c }) := by
  change execClauseFetch (.seq t) s = _
  simp only [execClauseFetch, hx, seq_fetches hnone htrap hrun hstatus, hf, Nat.not_le.2 hlen, Bool.false_eq_true, if_false]

/-- A fetch that fails stops it. -/
theorem clauseFetchSeq_fails {e : AFault} (hf : fetchClause s x.tm.ctx x.tm.core x.tm.staged x.q.pc true false = .error e) :
    exec (.clauseFetch (.seq t)) s = .next
      (trapSeq s t e.cause (hpcClause (x.q.pc % 2 ^ 52)) e.addr (if e.cause = 3 then 0 else infoOf e 0)) := by
  change execClauseFetch (.seq t) s = _
  simp only [execClauseFetch, hx, seq_fetches hnone htrap hrun hstatus, hf, Bool.false_eq_true, if_false]

end Sequencer

/-! ## Selecting a group -/

theorem candPick_choice (oldest rotate : Bool) (last : Nat) (a b : Cand) :
    candPick oldest rotate last a b = a ∨ candPick oldest rotate last a b = b := by
  have hite : ∀ c : Bool, (if c then b else a) = a ∨ (if c then b else a) = b := fun c => by cases c <;> simp
  unfold candPick
  split
  · exact hite _
  · split
    · exact (ite_eq_or_eq _ b a).symm
    · exact hite _

/-- The choice is one of the ready groups. -/
theorem candChoice_mem (sel : Sel) (rotate : Bool) (c : Cand) (cs : List Cand) : candChoice sel rotate c cs ∈ c :: cs := by
  unfold candChoice
  split
  next m hm => exact List.mem_of_find?_eq_some hm
  next => exact foldl_choice_mem (candPick_choice _ _ _) cs c

/-- Where no team of the core is deterministic, a partition without a ready group selects none. -/
theorem issueSelect_none {s : State} {core part : Nat} (hpart : part < 4)
    (hfree : ∀ e ∈ teamsOn s core, (lrecOf s e.2).determ = false) (hcand : candidates s core part = []) :
    exec (.issueSelect core part) s = .next s := by
  have hnone : ¬ ((teamsOn s core).any fun e => (lrecOf s e.2).determ) = true := by simpa using hfree
  change execIssueSelect core part s = _
  simp only [execIssueSelect, Nat.ne_of_lt hpart, hnone, hcand, if_false]
  rfl

/-- A partition with ready groups selects among them. -/
theorem issueSelect_some {s : State} {core part : Nat} {c : Cand} {cs : List Cand} (hpart : part < 4)
    (hfree : ∀ e ∈ teamsOn s core, (lrecOf s e.2).determ = false) (hcand : candidates s core part = c :: cs) :
    exec (.issueSelect core part) s = .next (selectOrdinary s core part false c cs) := by
  have hnone : ¬ ((teamsOn s core).any fun e => (lrecOf s e.2).determ) = true := by simpa using hfree
  change execIssueSelect core part s = _
  simp only [execIssueSelect, Nat.ne_of_lt hpart, hnone, hcand, if_false]
  rfl

/-- A selection among ready groups changes no memory. -/
theorem selectOrdinary_mem (s : State) (core part : Nat) (rotate : Bool) (c : Cand) (cs : List Cand) :
    (selectOrdinary s core part rotate c cs).mem = s.mem := by
  simp only [selectOrdinary]
  split <;> rfl

section Due
variable {s : State} {core part t : Nat} {tm : Team} (hpart : part < 4) (hdue : dueTeams s core part = [(t, tm)])
include hpart hdue

/-- A due team is deterministic, so that its partition's selection is the rotation's. -/
theorem issueSelect_rotates : exec (.issueSelect core part) s = .next (selectRotation s core part) := by
  have hmem : (t, tm) ∈ dueTeams s core part := hdue ▸ List.mem_singleton_self _
  obtain ⟨hon, hcond⟩ := List.mem_filter.1 hmem
  have hdet : ((teamsOn s core).any fun e => (lrecOf s e.2).determ) = true := by
    simp only [Bool.and_eq_true] at hcond
    exact List.any_eq_true.2 ⟨_, hon, hcond.1.1.1.1.1⟩
  change execIssueSelect core part s = _
  simp only [execIssueSelect, Nat.ne_of_lt hpart, hdet, if_false, if_true]

variable (hlane : laneHeld s core part = none)
include hlane

/-- The one due team passes its turn where it has no group. -/
theorem issueSelect_passes (hslot : rotSlot tm part = none) :
    exec (.issueSelect core part) s = .next (modTeam s t endTurn) := by
  rw [issueSelect_rotates hpart hdue]
  simp [selectRotation, hdue, hlane, hslot]

/-- With no other group ready, the turn is its group's. -/
theorem issueSelect_holds {k : Nat} (hslot : rotSlot tm part = some k) (hcand : candidates s core part = []) :
    exec (.issueSelect core part) s = .next (holdTurn s core part (t, k, tm.slotPhys.getD k 0)) := by
  rw [issueSelect_rotates hpart hdue]
  simp [selectRotation, dueNext, hdue, hlane, hslot, hcand]

end Due

/-- The turn of a ready group that may issue is its issue. -/
theorem holdTurn_ready {s : State} {core part t k phys : Nat} {tm : Team} {x : Site} (ht : sget s.teams t = some tm)
    (hready : (sgetD tm.groups k default).status = .ready)
    (hx : siteOf (rotAt s core part ((phys + 15) % 16)) t k ⟨false, 7⟩ = some x)
    (hc : canIssue (rotAt s core part ((phys + 15) % 16)) x = true) :
    holdTurn s core part (t, k, phys) = { rotAt s core part ((phys + 15) % 16) with issuer := some (.group t k) } := by
  simp only [holdTurn, ht, takeTurn, hready, hx, hc, if_true]

/-- Slot 4 selects the sequencer of the core if it may issue. -/
theorem issueSelect_seq {s : State} {core : Nat} {e : Nat × Team} {x : SSite}
    (he : ((teamsOn s core).find? fun e => e.2.seq.isSome) = some e) (hx : ssiteOf s e.1 = some x) (hc : canIssueSeq s x = true) :
    exec (.issueSelect core 4) s = .next { s with issuer := some (.seq e.1) } := by
  change execIssueSelect core 4 s = _
  simp only [execIssueSelect, he, hx, hc, if_true]

/-- Settles O53, clause by clause, from what each event leaves. -/
theorem groupsFormAndFetch : Obligations.GroupsFormAndFetch := by
  refine ⟨?_, ?_, ?_, ?_, fun s tm role e => mem_releasable, ?_, ?_, ?_, ?_, ?_⟩
  · exact fun s t k x hx hnone hrun hstatus =>
      ⟨fun c ls hf hlen => clauseFetch_installs hx hnone hrun hstatus hf hlen,
        fun c ls hf hlen => clauseFetch_short hx hnone hrun hstatus hf hlen, fun e hf => clauseFetch_fails hx hnone hrun hstatus hf⟩
  · exact fun s t x hx hnone htrap hrun hstatus =>
      ⟨fun c ls hf hlen => clauseFetchSeq_installs hx hnone htrap hrun hstatus hf hlen,
        fun e hf => clauseFetchSeq_fails hx hnone htrap hrun hstatus hf⟩
  · exact fun s core t tm e k a l hl hfirst ht he hn hk => formation_spec hl hfirst ht he hn hk
  · exact fun s t tm role => joinRelease_runs role
  · exact fun s t tm role es => joinRelease_enters role
  · intro s t tm e ht hhome
    refine ⟨_, joinRelease_home ht hhome, fun hmem => ?_, fun i hi => ?_⟩
    · rw [homeReturn_front] at hmem
      simpa using (List.mem_filter.1 hmem).2
    · rw [homeReturn_spec _ _ _ hi, Option.map_some, newGroup, sget_homeMembers hi]
      rfl
  · intro s core part hpart hfree
    cases hcand : candidates s core part with
    | nil => exact ⟨s, issueSelect_none hpart hfree hcand, rfl, fun _ => rfl, fun h => absurd rfl h⟩
    | cons c cs =>
      exact ⟨_, issueSelect_some hpart hfree hcand, selectOrdinary_mem .., fun h => (nomatch h),
        fun _ => ⟨_, candChoice_mem _ false c cs, rfl⟩⟩
  · intro s core part t tm hpart ht hdue hlane hcand
    refine ⟨issueSelect_passes hpart hdue hlane, fun k x hslot hready => ?_⟩
    intro s1 hx hc
    rw [issueSelect_holds hpart hdue hlane hslot hcand]
    exact congrArg _ (holdTurn_ready ht hready hx hc)
  · exact fun s core e x => issueSelect_seq

end Sys2Proof.Laws
end

section
/-! SUPPORT. Additions into X176 (R73): a run of them is one modular sum. -/

namespace Sys2Proof.Laws
open Sys2Proof.Machine

/-- R73: additions one after another add the sum of the values. -/
theorem foldl_x176Add (acc : BitVec 176) (l : List (BitVec 176)) : l.foldl x176Add acc = acc + l.sum := by
  induction l generalizing acc with
  | nil => simp
  | cons v l ih => rw [List.foldl_cons, ih, x176Add, List.sum_cons, BitVec.add_assoc]

/-- The bits after additions are those of the true sum modulo 2^176, whatever was in between. -/
theorem add_sum_eq_ofInt {n : Nat} (acc : BitVec n) (l : List (BitVec n)) :
    acc + l.sum = BitVec.ofInt n (acc.toInt + (l.map BitVec.toInt).sum) := by
  induction l generalizing acc with
  | nil => simp
  | cons v l ih =>
    rw [List.sum_cons, ih, List.map_cons, List.sum_cons]
    simp only [BitVec.ofInt_add, BitVec.ofInt_toInt]

/-- Settles O10: the bits after any additions are `acc` plus the sum of the list, which no order and no split changes. -/
theorem additionIsOrderFree : Obligations.AdditionIsOrderFree := by
  refine ⟨fun acc l l' hperm => ?_, fun acc l l' => ?_, fun acc l hlo hhi => ?_⟩
  · rw [foldl_x176Add, foldl_x176Add, hperm.sum_eq]
  · rw [foldl_x176Add, foldl_x176Add, foldl_x176Add, x176Add, List.sum_append, zero_add, BitVec.add_assoc]
  · rw [foldl_x176Add, add_sum_eq_ofInt, BitVec.toInt_ofInt]
    exact Int.bmod_eq_of_le (by simpa using hlo) (by simpa using hhi)

end Sys2Proof.Laws
end

section
/-! SUPPORT. The value of a bit-plane element (R66): its top planes as a multiple of the step. -/

namespace Sys2Proof.Laws
open Sys2Proof.Machine

/-- The stored element as the integer of R66. -/
def storedValue (e : Byte) (sgn : Bool) : Int := if sgn then e.toInt else e.toNat

/-- The sign of a stored byte is its top bit. -/
theorem byte_toInt (e : Byte) : e.toInt = e.toNat - 256 * ((e.toNat : Int) / 128) := by
  rw [BitVec.toInt_eq_toNat_cond]
  omega

theorem storedValue_range (e : Byte) (sgn : Bool) : -128 ≤ storedValue e sgn ∧ storedValue e sgn < 256 := by
  have hlt := e.isLt
  cases sgn with
  | false => simp only [storedValue, Bool.false_eq_true, if_false]; omega
  | true => simp only [storedValue, if_true, byte_toInt]; omega

section Step
variable {step c : Int} (hstep : 0 < step) (hc : step * c = 128) (e : Byte) (sgn : Bool)
include hstep hc

/-- A step divides the weight of the sign bit, so that the sign does not reach below the step. -/
theorem storedValue_ediv :
    storedValue e sgn / step = e.toNat / step - if sgn then 2 * c * (e.toNat / step / c) else 0 := by
  cases sgn with
  | false => simp [storedValue]
  | true =>
    have hsign : (256 : Int) * (e.toNat / 128) = step * (2 * c * (e.toNat / step / c)) := by
      rw [Int.ediv_ediv_of_nonneg (Int.le_of_lt hstep), hc]
      linear_combination (-2 * ((e.toNat : Int) / 128)) * hc
    simp only [storedValue, if_true]
    rw [byte_toInt, hsign, Int.sub_mul_ediv_left _ _ (Int.ne_of_gt hstep)]

/-- The multiple of the step at or below the stored value leaves room for a whole step below 256. -/
theorem storedValue_floor_range :
    -128 ≤ storedValue e sgn / step * step ∧ storedValue e sgn / step * step ≤ 256 - step := by
  obtain ⟨hlo, hhi⟩ := storedValue_range e sgn
  have hq : -c ≤ storedValue e sgn / step := (Int.le_ediv_iff_mul_le hstep).2 (by linarith)
  have hq' : storedValue e sgn / step < 2 * c := (Int.ediv_lt_iff_lt_mul hstep).2 (by linarith)
  constructor <;> nlinarith

end Step

/-! ## Reading k planes -/

theorem step_pos (k : Nat) : (0 : Int) < 2 ^ (8 - k) := by positivity

/-- The steps of k planes up to the sign bit. -/
theorem step_mul {k : Nat} (hk : 0 < k) (hk8 : k ≤ 8) : (2 : Int) ^ (8 - k) * 2 ^ (k - 1) = 128 := by
  rw [← pow_add, show 8 - k + (k - 1) = 7 by omega]
  rfl

theorem planeValue_false (e : Byte) (k : Nat) (sgn : Bool) :
    planeValue e k sgn false = storedValue e sgn / 2 ^ (8 - k) * 2 ^ (8 - k) := by
  simp [planeValue, storedValue, Int.fdiv_eq_ediv_of_nonneg]

/-- `.mid` adds half a step below 8 planes. -/
theorem planeValue_mid (e : Byte) (k : Nat) (sgn mid : Bool) : planeValue e k sgn mid =
    if mid = true ∧ k < 8 then planeValue e k sgn false + 2 ^ (8 - k) / 2 else planeValue e k sgn false := by
  simp [planeValue]

theorem planeValue_le (e : Byte) (k : Nat) (sgn : Bool) : planeValue e k sgn false ≤ storedValue e sgn := by
  rw [planeValue_false]
  exact Int.ediv_mul_le _ (Int.ne_of_gt (step_pos k))

theorem lt_planeValue_add (e : Byte) (k : Nat) (sgn : Bool) :
    storedValue e sgn < planeValue e k sgn false + 2 ^ (8 - k) := by
  rw [planeValue_false]
  linarith [Int.lt_ediv_add_one_mul_self (storedValue e sgn) (step_pos k)]

section Planes
variable {k : Nat} (hk : 0 < k) (hk8 : k ≤ 8)
include hk hk8

/-- Half a step more than the last multiple of the step stays below 256. -/
theorem planeValue_range (e : Byte) (sgn mid : Bool) : -128 ≤ planeValue e k sgn mid ∧ planeValue e k sgn mid ≤ 255 := by
  have hpos := step_pos k
  obtain ⟨hlo, hhi⟩ := storedValue_floor_range hpos (step_mul hk hk8) e sgn
  rw [planeValue_mid, planeValue_false]
  split <;> omega

/-- Planes below plane 8 - k do not count. -/
theorem planeValue_congr {e e' : Byte} (htop : e.toNat / 2 ^ (8 - k) = e'.toNat / 2 ^ (8 - k)) (sgn mid : Bool) :
    planeValue e' k sgn mid = planeValue e k sgn mid := by
  have hcast : (e.toNat : Int) / 2 ^ (8 - k) = e'.toNat / 2 ^ (8 - k) := by exact_mod_cast htop
  have hfloor : planeValue e' k sgn false = planeValue e k sgn false := by
    simp only [planeValue_false, storedValue_ediv (step_pos k) (step_mul hk hk8), hcast]
  rw [planeValue_mid e', planeValue_mid e, hfloor]

end Planes

/-- Settles O11: the value is the stored one's floor to a multiple of the step, which the byte's top k bits give. -/
theorem planesGiveTheTopBits : Obligations.PlanesGiveTheTopBits := by
  intro e k sgn mid hk2 hk8
  have hk : 0 < k := by omega
  obtain ⟨hlo, hhi⟩ := planeValue_range hk hk8 e sgn mid
  exact ⟨planeValue_false e k sgn ▸ Int.dvd_mul_left _ _, planeValue_le e k sgn, lt_planeValue_add e k sgn,
    planeValue_mid e k sgn mid, hlo, hhi, fun e' htop => planeValue_congr hk hk8 htop sgn mid⟩

end Sys2Proof.Laws
end

section
/-! SUPPORT. NaN operands of sums, products and fused sums (R78, R121). -/

namespace Sys2Proof.Laws
open Sys2Proof.Machine

theorem isNan_of_isSnan {x : FVal} (h : x.isSnan = true) : x.isNan = true := by
  cases x with
  | nan s => rfl
  | inf n => exact h
  | fin n m e => exact h

/-- NV is bit 4 of the flags (R80). -/
theorem nv_bit : Flags.nv.getLsbD 4 = true := by decide

theorem snv_nv {l : List FVal} (h : ∃ x ∈ l, x.isSnan = true) : (snv l).getLsbD 4 = true := by
  rw [snv, if_pos (List.any_eq_true.2 h), nv_bit]

section NanOperands
variable {f : Fmt} {md : Rm} {a b c : Nat}

theorem fadd_of_nan (h : (fdec f a).isNan = true ∨ (fdec f b).isNan = true) :
    fadd f md a b = ⟨f.nan, snv [fdec f a, fdec f b]⟩ :=
  if_pos (Bool.or_eq_true _ _ ▸ h)

theorem fmul_of_nan (h : (fdec f a).isNan = true ∨ (fdec f b).isNan = true) :
    fmul f md a b = ⟨f.nan, snv [fdec f a, fdec f b]⟩ :=
  if_pos (Bool.or_eq_true _ _ ▸ h)

/-- A fused sum with a NaN operand is a NaN; the product of an infinity and zero raises NV beside a quiet NaN too. -/
theorem ffma_of_nan (h : (fdec f a).isNan = true ∨ (fdec f b).isNan = true ∨ (fdec f c).isNan = true) :
    ∃ fl, ffma f md a b c = ⟨f.nan, fl⟩ ∧ (fl = Flags.nv ∨ fl = snv [fdec f a, fdec f b, fdec f c]) := by
  simp only [ffma]
  split
  · exact ⟨_, rfl, .inl rfl⟩
  · exact ⟨_, if_pos (by simpa [or_assoc] using h), .inr rfl⟩

end NanOperands

/-- Settles O12: each operation's result with a NaN operand is written out, and a signalling NaN is a NaN. -/
theorem nanResultsAreCanonical : Obligations.NanResultsAreCanonical := by
  intro k md a b c
  refine ⟨fun h => ?_, fun h => ?_, fun h => ?_, fun h => ?_, rfl, rfl, rfl⟩
  · rw [fadd_of_nan h, fmul_of_nan h]
    exact ⟨rfl, rfl⟩
  · obtain ⟨fl, heq, -⟩ := ffma_of_nan (md := md) h
    rw [heq]
  · have hnan := h.imp isNan_of_isSnan isNan_of_isSnan
    have hnv : (snv [fdec (fmtOf k) a, fdec (fmtOf k) b]).getLsbD 4 = true := snv_nv (by simpa using h)
    rw [fadd_of_nan hnan, fmul_of_nan hnan]
    exact ⟨hnv, hnv⟩
  · obtain ⟨fl, heq, hfl⟩ := ffma_of_nan (md := md) (h.imp isNan_of_isSnan (.imp isNan_of_isSnan isNan_of_isSnan))
    rw [heq]
    obtain rfl | rfl := hfl
    · exact nv_bit
    · exact snv_nv (by simpa using h)

end Sys2Proof.Laws
end

section
/-! SUPPORT. Results of saturation and division (R96, R98): which integers a word can hold, and that results are among them. -/

namespace Sys2Proof.Laws
open Sys2Proof.Machine

/-- The integers that a word read under SGN takes. -/
def FitsWord (sgn : Bool) (e : Int) : Prop :=
  (if sgn then -2 ^ 31 else 0) ≤ e ∧ e ≤ if sgn then 2 ^ 31 - 1 else 2 ^ 32 - 1

theorem fitsWord_extS (sgn : Bool) (a : Word) : FitsWord sgn (extS sgn a) := by
  cases sgn with
  | false =>
    have hlt := a.isLt
    simp only [FitsWord, extS, Bool.false_eq_true, if_false]
    omega
  | true =>
    have hlo := a.le_toInt
    have hhi := a.toInt_lt
    simp only [FitsWord, extS, if_true]
    omega

/-- An integer that a word can hold is what its low 32 bits read as. -/
theorem extS_low32 {sgn : Bool} {e : Int} (h : FitsWord sgn e) : extS sgn (low32 e) = e := by
  obtain ⟨hlo, hhi⟩ := h
  cases sgn with
  | false =>
    simp only [Bool.false_eq_true, if_false] at hlo hhi
    simp only [extS, low32, Bool.false_eq_true, if_false, BitVec.toNat_ofInt]
    omega
  | true =>
    simp only [if_true] at hlo hhi
    simp only [extS, low32, if_true, BitVec.toInt_ofInt]
    exact Int.bmod_eq_of_le hlo (by omega)

theorem low32_toNat (e : Int) : ((low32 e).toNat : Int) = e % 2 ^ 32 := by
  simp only [low32, BitVec.toNat_ofInt]
  omega

/-- R96: a saturated result reads as the exact result brought into the range. -/
theorem extS_sat32 (sgn : Bool) (e : Int) : extS sgn (sat32 sgn e)
    = min (max e (if sgn then -2 ^ 31 else 0)) (if sgn then 2 ^ 31 - 1 else 2 ^ 32 - 1) :=
  extS_low32 ⟨le_min (le_max_right _ _) (by cases sgn <;> decide), min_le_right _ _⟩

/-! ## Division -/

/-- R98: a remainder is 0 or has its dividend's sign. -/
theorem tmod_eq_zero_or_neg_iff (x y : Int) : x.tmod y = 0 ∨ (x.tmod y < 0 ↔ x < 0) := by
  by_cases hdvd : y ∣ x
  · exact .inl (Int.tmod_eq_zero_of_dvd hdvd)
  · have hsign := Int.sign_tmod x y
    rw [if_neg hdvd] at hsign
    exact .inr (by rw [← Int.sign_eq_neg_one_iff_neg, hsign, Int.sign_eq_neg_one_iff_neg])

theorem natAbs_tmod_lt (x : Int) {y : Int} (hy : y ≠ 0) : (x.tmod y).natAbs < y.natAbs := by
  rw [Int.natAbs_tmod]
  exact Nat.mod_lt _ (Int.natAbs_pos.2 hy)

/-- A remainder lies between 0 and its dividend, so that it fits where the dividend does. -/
theorem fitsWord_tmod {sgn : Bool} {x : Int} (h : FitsWord sgn x) (y : Int) : FitsWord sgn (x.tmod y) := by
  obtain ⟨hlo, hhi⟩ := h
  have habs : (x.tmod y).natAbs ≤ x.natAbs := Int.natAbs_tmod x y ▸ Nat.mod_le _ _
  have hsign := tmod_eq_zero_or_neg_iff x y
  constructor <;> split_ifs at hlo hhi ⊢ <;> omega

/-- A quotient is no larger than its dividend, so that only the positive one of -2^31 could be too large: that by -1. -/
theorem fitsWord_tdiv {sgn : Bool} {x y : Int} (hx : FitsWord sgn x) (hy : FitsWord sgn y) (hy0 : y ≠ 0)
    (hov : ¬(sgn = true ∧ x = -2 ^ 31 ∧ y = -1)) : FitsWord sgn (x.tdiv y) := by
  obtain ⟨hxlo, hxhi⟩ := hx
  have habs := Int.natAbs_tdiv_le_natAbs x y
  cases sgn with
  | false =>
    have hnonneg : 0 ≤ x.tdiv y := Int.tdiv_nonneg hxlo hy.1
    simp only [FitsWord, Bool.false_eq_true, if_false] at hxlo hxhi ⊢
    omega
  | true =>
    simp only [FitsWord, if_true, true_and] at hxlo hxhi hov ⊢
    have hne : x.tdiv y ≠ 2 ^ 31 := by
      intro hq
      have hsum := Int.mul_tdiv_add_tmod x y
      have hrem := natAbs_tmod_lt x hy0
      rw [hq] at hsum
      omega
    omega

/-- A word is the low 32 bits of what it reads as. -/
theorem eq_low32_of_extS {sgn : Bool} {a : Word} {e : Int} (h : extS sgn a = e) : a = low32 e := h ▸ (low32_extS sgn a).symm

theorem divide_zero (sgn : Bool) (a : Word) : divide sgn a 0 = (0xFFFFFFFF, a) := if_pos rfl

/-- R98: every division but that by 0 and the overflow gives the truncated quotient and its remainder. -/
theorem extS_divide {sgn : Bool} {a b : Word} (hb : b ≠ 0) (hov : ¬(sgn = true ∧ a = 0x80000000 ∧ b = 0xFFFFFFFF)) :
    extS sgn (divide sgn a b).1 = (extS sgn a).tdiv (extS sgn b) ∧
    extS sgn (divide sgn a b).2 = (extS sgn a).tmod (extS sgn b) := by
  have hdiv : divide sgn a b = (low32 ((extS sgn a).tdiv (extS sgn b)), low32 ((extS sgn a).tmod (extS sgn b))) := by
    rw [divide, if_neg hb, if_neg (by simpa [and_assoc] using hov), Int.tmod_def, mul_comm (extS sgn b)]
  have hov' : ¬(sgn = true ∧ extS sgn a = -2 ^ 31 ∧ extS sgn b = -1) := by
    rintro ⟨rfl, ha, hb'⟩
    exact hov ⟨rfl, eq_low32_of_extS ha, eq_low32_of_extS hb'⟩
  rw [hdiv]
  exact ⟨extS_low32 (fitsWord_tdiv (fitsWord_extS sgn a) (fitsWord_extS sgn b) (mt eq_low32_of_extS hb) hov'),
    extS_low32 (fitsWord_tmod (fitsWord_extS sgn a) _)⟩

end Sys2Proof.Laws
end

section
/-! SUPPORT. Shifts bit by bit (R101, R108): which bit of its source a bit of the result is. -/

namespace Sys2Proof.Laws
open Sys2Proof.Machine

theorem getLsbD_shlW (a : Word) (n : Nat) {i : Nat} (hi : i < 32) :
    (shlW false a n).getLsbD i = (decide (n ≤ i) && a.getLsbD (i - n)) := by
  rw [shlW_eq_shiftLeft, if_neg Bool.false_ne_true, BitVec.getLsbD_shiftLeft]
  simp only [hi, decide_true, Bool.true_and, ← decide_not, Nat.not_lt]

theorem getLsbD_shlD (a : DWord) (n : Nat) {i : Nat} (hi : i < 64) :
    (shlD false a n).getLsbD i = (decide (n ≤ i) && a.getLsbD (i - n)) := by
  rw [shlD_eq_shiftLeft, if_neg Bool.false_ne_true, BitVec.getLsbD_shiftLeft]
  simp only [hi, decide_true, Bool.true_and, ← decide_not, Nat.not_lt]

/-- A right shift of any width takes higher bits, and above them 0 or, under SGN, the sign. -/
theorem getLsbD_shiftRight {w : Nat} (sgn : Bool) (a : BitVec w) (n : Nat) {i : Nat} (hi : i < w) :
    (if sgn then a.sshiftRight n else a >>> n).getLsbD i = if i + n < w then a.getLsbD (i + n) else (sgn && a.msb) := by
  cases sgn with
  | false =>
    rw [if_neg Bool.false_ne_true, BitVec.getLsbD_ushiftRight, Nat.add_comm n i, Bool.false_and]
    split
    · rfl
    · exact BitVec.getLsbD_of_ge a _ (Nat.le_of_not_lt ‹_›)
  | true =>
    rw [if_pos rfl, BitVec.getLsbD_sshiftRight, decide_eq_false (Nat.not_le.2 hi), Nat.add_comm n i]
    rfl

/-- Under WRAP a funnel shift's amount is taken modulo 32, which the limit of 32 leaves as it is. -/
theorem shfW_wrap (right : Bool) (a b : Word) (n : Nat) : shfW right true a b n = shfW right false a b (n % 32) := by
  have hmin : min (n % 32) 32 = n % 32 := by omega
  simp only [shfW, if_true, Bool.false_eq_true, if_false, hmin]

theorem getLsbD_shfW_right (a b : Word) (n : Nat) {i : Nat} (hi : i < 32) : (shfW true false a b n).getLsbD i
    = if i + min n 32 < 32 then b.getLsbD (i + min n 32) else a.getLsbD (i + min n 32 - 32) := by
  simp only [shfW, if_true, Bool.false_eq_true, if_false]
  rw [BitVec.getLsbD_extractLsb', BitVec.getLsbD_ushiftRight, BitVec.getLsbD_append, decide_eq_true hi, Nat.zero_add,
    Nat.add_comm _ i, Bool.true_and]

theorem getLsbD_shfW_left (a b : Word) (n : Nat) {i : Nat} (hi : i < 32) : (shfW false false a b n).getLsbD i
    = if min n 32 ≤ i then a.getLsbD (i - min n 32) else b.getLsbD (i + 32 - min n 32) := by
  simp only [shfW, Bool.false_eq_true, if_false]
  have hle : min n 32 ≤ 32 := Nat.min_le_right n 32
  generalize min n 32 = k at hle ⊢
  rw [BitVec.getLsbD_extractLsb', BitVec.getLsbD_shiftLeft, BitVec.getLsbD_append, decide_eq_true hi,
    decide_eq_true (by omega : 32 + i < 32 + 32), decide_eq_false (by omega : ¬32 + i < k)]
  by_cases hk : k ≤ i
  · rw [if_pos hk, if_neg (by omega), show 32 + i - k - 32 = i - k by omega]
    rfl
  · rw [if_neg hk, if_pos (by omega), Nat.add_comm 32 i]
    rfl

end Sys2Proof.Laws
end

section
/-! SUPPORT. Bit fields and bit counts (R100, R102, R103), bit by bit. -/

namespace Sys2Proof.Laws
open Sys2Proof.Machine

theorem getLsbD_lop3 (tt : BitVec 8) (a b c : Word) {i : Nat} (hi : i < 32) : (lop3 tt a b c).getLsbD i
    = tt.getLsbD ((a.getLsbD i).toNat + 2 * (b.getLsbD i).toNat + 4 * (c.getLsbD i).toNat) := by
  rw [lop3, BitVec.getLsbD_ofFnLE, dif_pos hi]

/-! ## Fields (R102) -/

theorem nbit_eq_testBit (v n : Nat) : nbit v n = v.testBit n := Nat.testBit_eq_decide_div_mod_eq.symm

/-- The low w bits of a word moved down by p. -/
theorem testBit_field (src : DWord) (p w i : Nat) :
    ((src >>> p).toNat % 2 ^ w).testBit i = (decide (i < w) && src.getLsbD (i + p)) := by
  rw [Nat.testBit_mod_two_pow, BitVec.testBit_toNat, BitVec.getLsbD_ushiftRight, Nat.add_comm p i]

/-- Taking 2^w from a number of w bits sets every bit from bit w on. -/
theorem getLsbD_low32_sub_two_pow {f w i : Nat} (hf : f < 2 ^ w) (hw : w ≤ 32) (hi : i < 32) :
    (low32 ((f : Int) - 2 ^ w)).getLsbD i = if i < w then f.testBit i else true := by
  have hpow : 2 ^ w * (2 ^ (32 - w) - 1) = 2 ^ 32 - 2 ^ w := by
    rw [Nat.mul_sub, ← pow_add, Nat.add_sub_cancel' hw, Nat.mul_one]
  have hle : 2 ^ w ≤ 2 ^ 32 := Nat.pow_le_pow_right (by decide) hw
  have hwrap : low32 ((f : Int) - 2 ^ w) = BitVec.ofNat 32 (2 ^ w * (2 ^ (32 - w) - 1) + f) := by
    have hcast : (2 : Int) ^ w = ((2 ^ w : Nat) : Int) := by push_cast; rfl
    apply BitVec.eq_of_toNat_eq
    rw [hpow, hcast, low32, BitVec.toNat_ofInt, BitVec.toNat_ofNat]
    omega
  rw [hwrap, BitVec.getLsbD_ofNat, Nat.testBit_two_pow_mul_add _ hf, decide_eq_true hi, Bool.true_and]
  split
  · rfl
  · rw [Nat.testBit_two_pow_sub_one, decide_eq_true (by omega : i - w < 32 - w)]

theorem getLsbD_bfxW_unsigned (a b : Word) {i : Nat} (hi : i < 32) : (bfxW false a b).getLsbD i
    = (decide (i < min (b.toNat / 256 % 256) 32) && a.getLsbD (i + min (b.toNat % 256) 32)) := by
  simp only [bfxW, Bool.false_and, Bool.false_eq_true, if_false]
  rw [BitVec.getLsbD_ofNat, testBit_field, decide_eq_true hi, Bool.true_and, BitVec.getLsbD_setWidth,
    decide_eq_true (by omega : i + min (b.toNat % 256) 32 < 64), Bool.true_and]

theorem getLsbD_signExtend_dword (a : Word) {j : Nat} (hj : j < 64) :
    (a.signExtend 64).getLsbD j = if j < 32 then a.getLsbD j else a.msb := by
  rw [BitVec.getLsbD_signExtend, decide_eq_true hj, Bool.true_and]

/-- A field of w bits extended with its top bit. -/
theorem getLsbD_signedField {f w i : Nat} (hf : f < 2 ^ w) (hw0 : 0 < w) (hw : w ≤ 32) (hi : i < 32) :
    (if f.testBit (w - 1) then low32 ((f : Int) - 2 ^ w) else BitVec.ofNat 32 f).getLsbD i = f.testBit (min i (w - 1)) := by
  have hsmall : (BitVec.ofNat 32 f).getLsbD i = f.testBit i := by
    rw [BitVec.getLsbD_ofNat, decide_eq_true hi, Bool.true_and]
  by_cases hiw : i < w
  · rw [Nat.min_eq_left (Nat.le_sub_one_of_lt hiw)]
    split
    · rw [getLsbD_low32_sub_two_pow hf hw hi, if_pos hiw]
    · exact hsmall
  · rw [Nat.min_eq_right (by omega)]
    split
    next htop => rw [getLsbD_low32_sub_two_pow hf hw hi, if_neg hiw, htop]
    next htop =>
      have habove : f < 2 ^ i := hf.trans_le (Nat.pow_le_pow_right (by decide) (Nat.le_of_not_lt hiw))
      rw [hsmall, Nat.testBit_lt_two_pow habove, Bool.eq_false_of_not_eq_true htop]

/-- Under SGN bit i of the result is the field's bit i, and above the field its top bit; an empty field gives 0. -/
theorem getLsbD_bfxW_signed (a b : Word) {i : Nat} (hi : i < 32) : (bfxW true a b).getLsbD i
    = (decide (0 < min (b.toNat / 256 % 256) 32) &&
        (a.signExtend 64).getLsbD (min i (min (b.toNat / 256 % 256) 32 - 1) + min (b.toNat % 256) 32)) := by
  simp only [bfxW, if_true, Bool.true_and, nbit_eq_testBit]
  have hw : min (b.toNat / 256 % 256) 32 ≤ 32 := Nat.min_le_right _ 32
  generalize min (b.toNat / 256 % 256) 32 = w at hw ⊢
  generalize min (b.toNat % 256) 32 = p
  obtain rfl | hpos := Nat.eq_zero_or_pos w
  · simp [Nat.mod_one]
  · rw [decide_eq_true hpos.ne', Bool.true_and, getLsbD_signedField (Nat.mod_lt _ (by positivity)) hpos hw hi, testBit_field,
      decide_eq_true hpos, decide_eq_true (by omega : min i (w - 1) < w)]

/-- The mask of w bits from bit p on. -/
theorem getLsbD_fieldMask (p w : Nat) {i : Nat} (hi : i < 32) :
    (BitVec.ofNat 32 ((2 ^ w - 1) * 2 ^ p)).getLsbD i = decide (p ≤ i ∧ i < p + w) := by
  rw [BitVec.getLsbD_ofNat, Nat.testBit_mul_two_pow, Nat.testBit_two_pow_sub_one, decide_eq_true hi, Bool.true_and,
    ← Bool.decide_and, decide_eq_decide]
  omega

theorem getLsbD_bfiW (a b c : Word) {i : Nat} (hi : i < 32) : (bfiW a b c).getLsbD i
    = if min (b.toNat % 256) 32 ≤ i ∧ i < min (b.toNat % 256) 32 + min (b.toNat / 256 % 256) 32
      then a.getLsbD (i - min (b.toNat % 256) 32) else c.getLsbD i := by
  simp only [bfiW]
  generalize min (b.toNat / 256 % 256) 32 = w
  generalize min (b.toNat % 256) 32 = p
  rw [BitVec.getLsbD_or, BitVec.getLsbD_and, BitVec.getLsbD_and, BitVec.getLsbD_not, getLsbD_fieldMask _ _ hi,
    BitVec.getLsbD_shiftLeft, decide_eq_true hi]
  by_cases hin : p ≤ i ∧ i < p + w
  · simp only [if_pos hin, decide_eq_true hin, decide_eq_false (Nat.not_lt.2 hin.1), Bool.not_true, Bool.not_false,
      Bool.and_false, Bool.false_or, Bool.true_and, Bool.and_true]
  · simp only [if_neg hin, decide_eq_false hin, Bool.not_false, Bool.and_true, Bool.and_false, Bool.or_false, Bool.true_and]

/-! ## Counts (R103) -/

theorem exists_bit_of_ne_zero {a : Word} (ha : a ≠ 0) : ∃ i < 32, a.getLsbD i = true := by
  by_contra! hnone
  exact ha (BitVec.eq_of_getLsbD_eq fun i hi => by simpa using hnone i hi)

/-- Of the numbers below n, as many stand before the first one that fails as that one says. -/
theorem length_takeWhile_range {p : Nat → Bool} {n j : Nat} (hj : j < n) (hpj : p j = false) :
    let k := ((List.range n).takeWhile p).length
    k < n ∧ p k = false ∧ ∀ i < k, p i = true := by
  have hlt : (List.range n).findIdx (fun i => !p i) < (List.range n).length :=
    List.findIdx_lt_length.2 ⟨j, List.mem_range.2 hj, by rw [hpj]; rfl⟩
  have hlen : ((List.range n).takeWhile p).length = (List.range n).findIdx (fun i => !p i) := by
    rw [List.takeWhile_eq_take_findIdx_not, List.length_take, Nat.min_eq_left (Nat.le_of_lt hlt)]
  have hfirst := List.findIdx_getElem (w := hlt)
  rw [List.getElem_range] at hfirst
  simp only [hlen]
  refine ⟨by simpa using hlt, by simpa using hfirst, fun i hi => ?_⟩
  simpa using List.not_of_lt_findIdx hi

theorem ffsW_toNat {a : Word} (ha : a ≠ 0) :
    (ffsW a).toNat < 32 ∧ a.getLsbD (ffsW a).toNat = true ∧ ∀ i < (ffsW a).toNat, a.getLsbD i = false := by
  obtain ⟨j, hj, hbit⟩ := exists_bit_of_ne_zero ha
  obtain ⟨hlt, hset, hbelow⟩ := length_takeWhile_range (p := fun i => !a.getLsbD i) hj (by rw [hbit]; rfl)
  have hnat : (ffsW a).toNat = ((List.range 32).takeWhile fun i => !a.getLsbD i).length := by
    rw [ffsW, if_neg ha, BitVec.toNat_ofNat]
    omega
  rw [hnat]
  exact ⟨hlt, by simpa using hset, by simpa using hbelow⟩

theorem clzW_of_ne_zero {a : Word} (ha : a ≠ 0) :
    clzW a < 32 ∧ a.getLsbD (31 - clzW a) = true ∧ ∀ i, 31 - clzW a < i → a.getLsbD i = false := by
  obtain ⟨j, hj, hbit⟩ := exists_bit_of_ne_zero ha
  have hflip : ∀ i < 32, 31 - (31 - i) = i := fun i hi => Nat.sub_sub_self (Nat.le_of_lt_succ hi)
  obtain ⟨hlt, hset, habove⟩ : clzW a < 32 ∧ (!a.getLsbD (31 - clzW a)) = false ∧
      ∀ i < clzW a, (!a.getLsbD (31 - i)) = true :=
    length_takeWhile_range (j := 31 - j) (by omega) (by rw [hflip j hj, hbit]; rfl)
  refine ⟨hlt, by simpa using hset, fun i hi => ?_⟩
  by_cases h32 : i < 32
  · have hclear := habove (31 - i) (by omega)
    rw [hflip i h32] at hclear
    simpa using hclear
  · exact BitVec.getLsbD_of_ge a i (Nat.le_of_not_lt h32)

theorem getLsbD_natCast_one_shiftLeft (i : Nat) {j : Nat} (hj : j < 32) :
    ((1 <<< i : Nat) : Word).getLsbD j = decide (i = j) := by
  rw [BitVec.natCast_eq_ofNat, BitVec.getLsbD_ofNat, Nat.one_shiftLeft, Nat.testBit_two_pow, decide_eq_true hj, Bool.true_and]

/-- R103: setting a bit that is 0 makes the count one more. -/
theorem popcW_or_bit {a : Word} {i : Nat} (hi : i < 32) (hbit : a.getLsbD i = false) :
    popcW (a ||| (1 <<< i)) = popcW a + 1 := by
  have hperm := List.perm_cons_erase (List.mem_range.2 hi)
  have hrest : ∀ j ∈ (List.range 32).erase i, (a ||| (1 <<< i)).getLsbD j = true ↔ a.getLsbD j = true := by
    intro j hj
    obtain ⟨hne, hj32⟩ := List.nodup_range.mem_erase_iff.1 hj
    have hj32 := List.mem_range.1 hj32
    rw [BitVec.getLsbD_or, getLsbD_natCast_one_shiftLeft i hj32, decide_eq_false (Ne.symm hne), Bool.or_false]
  have hset : (a ||| (1 <<< i)).getLsbD i = true := by
    rw [BitVec.getLsbD_or, getLsbD_natCast_one_shiftLeft i hi, decide_eq_true rfl, Bool.or_true]
  rw [popcW, popcW, ← List.countP_eq_length_filter, ← List.countP_eq_length_filter, hperm.countP_eq, hperm.countP_eq,
    List.countP_cons_of_pos hset, List.countP_cons_of_neg (by simp [hbit]), List.countP_congr hrest]

theorem getLsbD_reverse_word (a : Word) {i : Nat} (hi : i < 32) : a.reverse.getLsbD i = a.getLsbD (31 - i) := by
  rw [BitVec.getLsbD_reverse, BitVec.getMsbD_eq_getLsbD, decide_eq_true hi, Bool.true_and]

/-- Settles O16: each result has its law above; a count of 0 is evaluated. -/
theorem integerResults : Obligations.IntegerResults := by
  refine ⟨fun sgn e => ⟨extS_sat32 sgn e, low32_toNat e⟩, fun sgn a b => ⟨?_, ?_, fun hb hov => ?_⟩,
    ⟨fun a n _ => getLsbD_shlW a n, fun a n _ => getLsbD_shlD a n, fun _ _ => rfl, fun _ _ => rfl,
      fun sgn a n _ => getLsbD_shiftRight sgn a n, fun sgn a n _ => getLsbD_shiftRight sgn a n, fun _ _ _ => rfl,
      fun _ _ _ => rfl, shfW_wrap, fun a b n _ => getLsbD_shfW_right a b n, fun a b n _ => getLsbD_shfW_left a b n⟩,
    fun tt a b c _ => getLsbD_lop3 tt a b c, fun a b _ => getLsbD_bfxW_unsigned a b, fun a b i hi => ?_,
    fun a b c _ => getLsbD_bfiW a b c, ?_, fun a ha => ?_, fun _ _ => popcW_or_bit, fun a _ => getLsbD_reverse_word a⟩
  · rintro rfl
    exact divide_zero sgn a
  · rintro rfl rfl rfl
    decide
  · obtain ⟨hquot, hrem⟩ := extS_divide hb hov
    rw [hquot, hrem]
    exact ⟨(Int.tdiv_mul_add_tmod _ _).symm, natAbs_tmod_lt _ (mt eq_low32_of_extS hb), tmod_eq_zero_or_neg_iff _ _⟩
  · rw [getLsbD_bfxW_signed a b hi, getLsbD_signExtend_dword]
    omega
  · rintro a rfl
    decide
  · obtain ⟨hlt, hset, hbelow⟩ := ffsW_toNat ha
    obtain ⟨hclt, hcset, habove⟩ := clzW_of_ne_zero ha
    exact ⟨hlt, hset, hbelow, hclt, hcset, habove⟩

end Sys2Proof.Laws
end

section
/-! SUPPORT. Shuffles (R111, R112): the source lane of each mode, and what its activity leaves of the value. -/

namespace Sys2Proof.Laws
open Sys2Proof.Machine

/-! ## The source lane -/

/-- The check of a source lane's range, by a condition that says when the lane number lies in 0 to 31. -/
theorem inRange_eq_ite {k : Int} {c : Prop} [Decidable c] {j : Nat} (hin : c → k = j ∧ j < 32)
    (hout : ¬c → k < 0 ∨ 31 < k) : (if k < 0 || 31 < k then none else some k.toNat) = if c then some j else none := by
  by_cases hc : c
  · obtain ⟨rfl, hj⟩ := hin hc
    have hok : ¬((decide ((j : Int) < 0) || decide (31 < (j : Int))) = true) := by
      rw [Bool.or_eq_true, decide_eq_true_iff, decide_eq_true_iff]
      omega
    rw [if_pos hc, if_neg hok, Int.toNat_natCast]
  · rw [if_neg hc, if_pos (by simpa using hout hc)]

/-- Of a lane's five bits an exchange leaves a lane exactly if it exchanges none from bit 5 on. -/
theorem xor_lt_iff {l : Nat} (hl : l < 32) (n : Nat) : l ^^^ n < 32 ↔ n < 32 := by
  constructor
  · intro h
    have hback : l ^^^ (l ^^^ n) < 2 ^ 5 := Nat.xor_lt_two_pow hl h
    rwa [← Nat.xor_assoc, Nat.xor_self, Nat.zero_xor] at hback
  · exact Nat.xor_lt_two_pow (n := 5) hl

theorem shflSrc_idx (l n : Nat) : shflSrc .idx l n = if n < 32 then some n else none :=
  inRange_eq_ite (k := n) (by omega) (by omega)

theorem shflSrc_back {l : Nat} (hl : l < 32) (n : Nat) : shflSrc .back l n = if n ≤ l then some (l - n) else none :=
  inRange_eq_ite (k := (l : Int) - n) (by omega) (by omega)

theorem shflSrc_fwd (l n : Nat) : shflSrc .fwd l n = if l + n < 32 then some (l + n) else none :=
  inRange_eq_ite (k := (l : Int) + n) (by omega) (by omega)

theorem shflSrc_xor {l : Nat} (hl : l < 32) (n : Nat) : shflSrc .xor l n = if n < 32 then some (l ^^^ n) else none :=
  inRange_eq_ite (k := (l ^^^ n : Nat)) (fun hn => ⟨rfl, (xor_lt_iff hl n).2 hn⟩) fun hn => by
    have hout := mt (xor_lt_iff hl n).1 hn
    omega

/-! ## The value -/

section Value
variable {m : ShflMode} {l n j : Nat} {c : Prop} [Decidable c] (hsrc : shflSrc m l n = if c then some j else none)
include hsrc

theorem shflVal_of_inRange (hc : c) (v : LView) (a : VReg) (own : Bool) :
    shflVal v a m own l n = if j ∈ v.act then v.r j a else 0 := by
  rw [if_pos hc] at hsrc
  simp only [shflVal, hsrc, List.contains_iff_mem]

theorem shflVal_of_outOfRange (hc : ¬c) (v : LView) (a : VReg) (own : Bool) :
    shflVal v a m own l n = if own then v.r l a else 0 := by
  rw [if_neg hc] at hsrc
  simp only [shflVal, hsrc]

end Value

/-- Settles O17: each mode's source lane, in range and out of range. -/
theorem shufflesTakeFromActiveLanes : Obligations.ShufflesTakeFromActiveLanes := fun v a own l n hl =>
  ⟨fun hn => shflVal_of_inRange (shflSrc_idx l n) hn v a own,
   fun hn => shflVal_of_outOfRange (shflSrc_idx l n) (Nat.not_lt.2 hn) v a own,
   fun hn => shflVal_of_inRange (shflSrc_back hl n) hn v a own,
   fun hn => shflVal_of_outOfRange (shflSrc_back hl n) (Nat.not_le.2 hn) v a own,
   fun hn => shflVal_of_inRange (shflSrc_fwd l n) hn v a own,
   fun hn => shflVal_of_outOfRange (shflSrc_fwd l n) (Nat.not_lt.2 hn) v a own,
   fun hn => shflVal_of_inRange (shflSrc_xor hl n) hn v a own,
   fun hn => shflVal_of_outOfRange (shflSrc_xor hl n) (Nat.not_lt.2 hn) v a own⟩

end Sys2Proof.Laws
end

section
/-! SUPPORT. Words that the manual writes out (R104, R112): what the encoder writes for the instructions it names. -/

namespace Sys2Proof.Laws
open Sys2Proof.Machine

/-- Settles O2: each word is what the encoder writes for its instruction (R35), whose law brings the instruction back. -/
theorem wordsOfTheManual : Obligations.WordsOfTheManual :=
  ⟨Encodes.icmp ⟨⟨false, 7⟩, 0, 0, 6⟩ 2 4 9 .lt true none rfl _ rfl,
   Encodes.shflImm ⟨⟨false, 7⟩, 0xF, 0, 6⟩ 6 5 16 .xor false rfl _ rfl⟩

end Sys2Proof.Laws
end

section
/-! SUPPORT. Transfers as they issue (R151, R155 to R160), NOP and WAITDC (R161, R162). -/

namespace Sys2Proof.Laws
open Sys2Proof.Machine

/-- A word that issues and neither retires nor waits. -/
theorem issue_hold {r : Req} {s s1 v : State} {x : Site} (h : issueSite r s = some (x, s1)) {body : Site → State → Res}
    (hb : body x s1 = .hold v) : issue r body s = v := by
  rw [issue_of_site h, hb]
  rfl

/-! ## The body of a transfer -/

section Body
variable {kind : TransferKind} {u checked : Bool} {link : Option VReg} {f : LView → Nat → DWord} {x : Site} {s : State}

/-- Where no target is misaligned, the lanes' next addresses alone decide. -/
theorem transferBody_of_aligned (haligned : checked = true → targetsAligned f x s) :
    transferBody kind u checked link f x s =
      if u && apart (nextsOf x (f (x.view s))) ≠ [] then .trap { cause := 6, lanes := apart (nextsOf x (f (x.view s))) }
      else .hold (transferring kind u link f x s) := by
  have hbad : (if checked then x.act.filter fun l => (f (x.view s) l).extractLsb' 0 3 ≠ 0 else []) = [] := by
    cases checked with
    | false => rfl
    | true => simpa [targetsAligned] using haligned rfl
  simp only [transferBody, hbad, transferring]
  cases x.lr.determ <;> rfl

/-- A transfer whose checks pass waits for its resolution. -/
theorem transferBody_hold (haligned : checked = true → targetsAligned f x s) (huniform : uniformOk u f x s) :
    transferBody kind u checked link f x s = .hold (transferring kind u link f x s) := by
  rw [transferBody_of_aligned haligned, if_neg]
  obtain rfl | hsame := huniform
  · simp
  · simp [hsame]

/-- UNIFORMITY (R151). -/
theorem transferBody_apart (haligned : checked = true → targetsAligned f x s)
    (hapart : apart (nextsOf x (f (x.view s))) ≠ []) :
    transferBody kind true checked link f x s = .trap { cause := 6, lanes := apart (nextsOf x (f (x.view s))) } := by
  rw [transferBody_of_aligned haligned, if_pos]
  simpa using hapart

/-- MISALIGNED of a target taken from a register pair (R157): it comes before UNIFORMITY. -/
theorem transferBody_misaligned {a : VReg} (h : ¬ targetsAligned (fun v l => v.r64 l a) x s) :
    transferBody kind u true link (fun v l => v.r64 l a) x s = .trap (misalignedTrap a x s) := by
  simp only [transferBody, if_true, misalignedTrap]
  cases hbad : x.act.filter fun l => ((x.view s).r64 l a).extractLsb' 0 3 ≠ 0 with
  | nil => exact absurd (by simpa [targetsAligned] using hbad) h
  | cons l rest => rfl

end Body

/-! ## The words that transfer -/

/-- A word whose meaning issues a transfer; `f` gives the lanes' targets. -/
def IssuesTransfer (i : Instr) (r : Req) (kind : TransferKind) (u checked : Bool) (link : Option VReg)
    (f : Site → LView → Nat → DWord) : Prop :=
  ∀ s, exec i s = .next (issue r (fun x => transferBody kind u checked link (f x) x) s)

section Words
variable {i : Instr} {r : Req} {kind : TransferKind} {u : Bool} {link : Option VReg} {f : Site → LView → Nat → DWord}

/-- A transfer to addresses that need no check of their alignment. -/
theorem IssuesTransfer.holds (h : IssuesTransfer i r kind u false link f) :
    GroupHolds i r (fun x s => uniformOk u (f x) x s) fun x s => transferring kind u link (f x) x s := by
  intro s x s1 hs huniform
  exact (h s).trans (congrArg _ (issue_hold hs (transferBody_hold Bool.noConfusion huniform)))

/-- A transfer to checked addresses. -/
theorem IssuesTransfer.holds_aligned (h : IssuesTransfer i r kind u true link f) :
    GroupHolds i r (fun x s => targetsAligned (f x) x s ∧ uniformOk u (f x) x s)
      fun x s => transferring kind u link (f x) x s := by
  intro s x s1 hs ⟨haligned, huniform⟩
  exact (h s).trans (congrArg _ (issue_hold hs (transferBody_hold (fun _ => haligned) huniform)))

theorem IssuesTransfer.traps_uniformity (h : IssuesTransfer i r kind u false link f) (hu : u = true) :
    GroupTraps i r (transferApart f) (uniformityTrap f) := by
  subst hu
  intro s x s1 hs hapart
  exact (h s).trans (congrArg _ (issue_trap hs (transferBody_apart Bool.noConfusion hapart)))

theorem IssuesTransfer.traps_uniformity_aligned (h : IssuesTransfer i r kind u true link f) (hu : u = true) :
    GroupTraps i r (fun x s => targetsAligned (f x) x s ∧ transferApart f x s) (uniformityTrap f) := by
  subst hu
  intro s x s1 hs ⟨haligned, hapart⟩
  exact (h s).trans (congrArg _ (issue_trap hs (transferBody_apart (fun _ => haligned) hapart)))

theorem IssuesTransfer.traps_misaligned {a : VReg} (h : IssuesTransfer i r kind u true link fun _ v l => v.r64 l a) :
    GroupTraps i r (fun x s => ¬ targetsAligned (fun v l => v.r64 l a) x s) (misalignedTrap a) := by
  intro s x s1 hs hbad
  exact (h s).trans (congrArg _ (issue_trap hs (transferBody_misaligned hbad)))

end Words

theorem bra_issues (h : HeadB) (off : BitVec 32) :
    IssuesTransfer (.bra h off) (transferReq h []) .bra h.u false none fun x _ _ => branchTarget x off :=
  fun _ => rfl

theorem brx_issues (h : HeadB) (a : VReg) (off : BitVec 32) (sh : BitVec 3) :
    IssuesTransfer (.brx h a off sh) (transferReq h (one [a])) .brx h.u false none
      fun x v l => branchTarget x off + ((v.r l a).signExtend 64 <<< (3 + sh.toNat)) :=
  fun _ => rfl

theorem call_issues (h : HeadB) (a : VReg) (off : BitVec 32) :
    IssuesTransfer (.call h a off) (transferReq h (two [a])) .call h.u false (some a) fun x _ _ => branchTarget x off :=
  fun _ => rfl

theorem callx_issues (h : HeadB) (a : VReg) :
    IssuesTransfer (.callx h a) (transferReq h (two [a])) .callx h.u true (some a) fun _ v l => v.r64 l a :=
  fun _ => rfl

theorem ret_issues (h : HeadB) (a : VReg) :
    IssuesTransfer (.ret h a) (transferReq h (two [a])) .ret h.u true none fun _ v l => v.r64 l a :=
  fun _ => rfl

theorem join_issues :
    IssuesTransfer .join { guard := ⟨false, 7⟩ } .join false false none fun x _ _ => BitVec.ofNat 64 (fallOf x) :=
  fun _ => rfl

theorem exit_issues (g : Guard) :
    IssuesTransfer (.exit g) { guard := g } .exit false false none fun x _ _ => BitVec.ofNat 64 (fallOf x) :=
  fun _ => rfl

/-- A transfer that may diverge always issues. -/
theorem IssuesTransfer.holds_always {i : Instr} {r : Req} {kind : TransferKind} {f : Site → LView → Nat → DWord}
    (h : IssuesTransfer i r kind false false none f) :
    GroupHolds i r always fun x s => transferring kind false none (f x) x s :=
  fun s x s1 hs _ => h.holds s x s1 hs (.inl rfl)

/-! ## NOP and WAITDC -/

theorem nop_completes (g : Guard) : GroupCompletes (.nop g) { guard := g, lane := true } always fun _ s => s := by
  intro s x s1 hs _
  exact congrArg Host.Outcome.next (issueBoth_of_site hs _ _ _)

theorem nop_seqCompletes : SeqCompletes (.nop ⟨false, 7⟩) { ok := fun _ => true } alwaysSeq fun _ s => s := by
  intro s x hs _
  exact congrArg Host.Outcome.next (issueBoth_of_seq hs _ _ _)

theorem waitdcMet_iff {x : Site} {mask n : BitVec 6} :
    waitdcMet x mask n = true ↔ ∀ l ∈ x.act, ∀ i < 6, mask.getLsbD i = true →
      sgetD (sgetD x.tm.threads (sgetD x.g.members l 0) default).dc i 0 ≤ n.toNat := by
  simp only [waitdcMet, List.all_eq_true, List.mem_range, Bool.or_eq_true, Bool.not_eq_true', decide_eq_true_eq,
    ← Bool.not_eq_true, ← imp_iff_not_or]

theorem waitdcMet_eq_false_iff {x : Site} {mask n : BitVec 6} :
    waitdcMet x mask n = false ↔ ∃ l ∈ x.act, ∃ i < 6, mask.getLsbD i = true ∧
      n.toNat < sgetD (sgetD x.tm.threads (sgetD x.g.members l 0) default).dc i 0 := by
  simp only [← Bool.not_eq_true, waitdcMet_iff, not_forall, Nat.not_le, exists_prop]

/-- Issuing WAITDC where the counters have fallen far enough. -/
theorem waitdcIssue_met {g : Guard} {mask n : BitVec 6} {s s1 : State} {x : Site}
    (hs : issueSite { guard := g } s = some (x, s1)) (hmet : waitdcMet x mask n = true) :
    waitdcIssue g mask n s = retired s1 x :=
  issue_retire hs (if_pos hmet)

theorem waitdc_completes (g : Guard) (mask n : BitVec 6) :
    GroupCompletes (.waitdc g mask n) { guard := g } (fun x _ => waitdcMet x mask n = true) fun _ s => s :=
  fun _ _ _ hs hmet => congrArg Host.Outcome.next (waitdcIssue_met hs hmet)

theorem waitdc_waits (g : Guard) (mask n : BitVec 6) :
    GroupWaits (.waitdc g mask n) { guard := g } (fun x _ => waitdcMet x mask n = false) fun _ s => s :=
  fun _ _ _ hs hunmet => congrArg Host.Outcome.next (issue_wait hs (if_neg (Bool.eq_false_iff.1 hunmet)))

/-- CLASS_W_WAIT_RELEASE tries again the word of a group that does not wait for a turn. -/
theorem classWWaitRelease_retries {s : State} {t k : Nat} {i : Instr} (hw : WaitsAt s t k i) :
    exec (.classWWaitRelease (.group t k)) s = .next (classWRetry (.group t k) s) := by
  obtain ⟨_, hturn, _⟩ := hw
  exact congrArg Host.Outcome.next (if_neg (by rw [hturn]; exact Bool.false_ne_true))

theorem waitdc_ends (t k : Nat) (g : Guard) (mask n : BitVec 6) :
    WaitEnds (.waitdc g mask n) (.classWWaitRelease (.group t k)) { guard := g } t k
      (fun x _ => waitdcMet x mask n = true) fun _ s => s := by
  intro s x s1 hw hs hmet
  have hretry : classWRetry (.group t k) s = reissue (.group t k) (waitdcIssue g mask n) s := by
    rw [classWRetry, hw.1]
  rw [classWWaitRelease_retries hw, hretry, reissue_group hw hs (waitdcIssue_met hs hmet)]

/-- Settles O26: each transfer's word issues `transferBody` with its own targets, whose checks decide between the transfer and its
traps. -/
theorem transfersIssue : Obligations.TransfersIssue :=
  ⟨⟨fun h off => (bra_issues h off).holds,
    fun h a off sh => (brx_issues h a off sh).holds,
    fun h a off => (call_issues h a off).holds,
    fun h a => (callx_issues h a).holds_aligned,
    fun h a => (ret_issues h a).holds_aligned,
    join_issues.holds_always,
    fun g => (exit_issues g).holds_always⟩,
   ⟨fun h off => (bra_issues h off).traps_uniformity,
    fun h a off sh => (brx_issues h a off sh).traps_uniformity,
    fun h a off => (call_issues h a off).traps_uniformity,
    fun h a => (callx_issues h a).traps_uniformity_aligned,
    fun h a => (ret_issues h a).traps_uniformity_aligned,
    fun h a => (callx_issues h a).traps_misaligned,
    fun h a => (ret_issues h a).traps_misaligned⟩,
   nop_completes, nop_seqCompletes,
   fun g mask n s x s1 hs hle => waitdc_completes g mask n s x s1 hs (waitdcMet_iff.2 hle),
   fun g mask n s x s1 hs hlt => waitdc_waits g mask n s x s1 hs (waitdcMet_eq_false_iff.2 hlt),
   fun t k g mask n s x s1 hw hs hle => waitdc_ends t k g mask n s x s1 hw hs (waitdcMet_iff.2 hle)⟩

end Sys2Proof.Laws
end

section
/-! SUPPORT. TRANSFER_RESOLVE (R143, R144, R148, R158, R160, R163), and a fatal fault up to its notice (R341, R343). -/

namespace Sys2Proof.Laws
open Sys2Proof.Machine

/-! ## What a resolved transfer does to its group -/

section Moves
variable {s : State} {x : Site} {tr : Transfer}

/-- A branch, call or return moves the group to its lanes' common address, or dissolves it. -/
theorem resolveMoves_of_jump {l : Nat} {a : DWord} {rest : List (Nat × DWord)} (hjoin : tr.kind ≠ .join)
    (hexit : tr.kind ≠ .exit) (hnexts : tr.nexts = (l, a) :: rest) :
    resolveMoves s x tr =
      if apart tr.nexts = [] then modTeam s x.t fun tm => modGroup tm x.k (continueAt x a)
      else dissolve s x (groupRole x.tm x.g) (nextThreads x tr.nexts) := by
  unfold resolveMoves
  cases hkind : tr.kind with
  | join => exact absurd hkind hjoin
  | exit => exact absurd hkind hexit
  | bra | brx | call | callx | ret => simp only [hnexts, nextThreads]

theorem resolveMoves_of_join {c : Clause} (hkind : tr.kind = .join) (hclause : x.g.clause = some c) :
    resolveMoves s x tr = dissolveTrace (modTeam (freeSlot s x.t x.k) x.t fun tm =>
      (sortNat (memberTids x.g)).foldl (frontEnter (groupRole x.tm x.g) c.prio x.g.pc true) tm) x := by
  simp only [resolveMoves, hkind, hclause]

theorem resolveMoves_of_exit (hkind : tr.kind = .exit) (hactive : tr.active ≠ []) :
    let ended := modTeam s x.t fun tm =>
      tr.active.foldl (fun tm l => modThread tm (sgetD x.g.members l 0) endThread) tm
    let rest := (nextThreads x tr.nexts).filter fun e => !(tr.active.any fun l => sgetD x.g.members l 0 = e.1)
    resolveMoves s x tr =
      if rest = [] then noteExit (freeSlot ended x.t x.k) x else dissolve ended x (groupRole x.tm x.g) rest := by
  unfold resolveMoves
  rw [hkind]
  exact if_neg hactive

theorem resolveMoves_of_idleExit (hkind : tr.kind = .exit) (hactive : tr.active = []) :
    resolveMoves s x tr = modTeam s x.t fun tm => modGroup tm x.k (continueAt x (BitVec.ofNat 64 (fallOf x))) := by
  simp only [resolveMoves, hkind, hactive, if_true]

end Moves

/-- The transfers that handler mode forbids (R163). -/
theorem fatalTransfer_iff {tr : Transfer} : fatalTransfer tr = true ↔
    tr.kind = .join ∨ (tr.kind = .exit ∧ tr.active ≠ []) ∨ (tr.kind ≠ .join ∧ tr.kind ≠ .exit ∧ apart tr.nexts ≠ []) := by
  unfold fatalTransfer
  cases tr.kind with
  | join => simp
  | exit => simp
  | bra | brx | call | callx | ret => simp

/-! ## The event -/

section Resolve
variable {s : State} {t k : Nat} {x : Site} {tr : Transfer}

/-- A transfer that is no fatal fault retires, writes its links, and moves its group. -/
theorem transferResolve_moves (hx : siteOf s t k ⟨false, 7⟩ = some x) (htr : x.g.transfer = some tr)
    (hok : (x.g.handler && fatalTransfer tr) = false) :
    exec (.transferResolve t k) s = .next (promptTeam (resolveMoves (linked s x tr) x tr) t) := by
  obtain ⟨rfl, rfl, _⟩ := siteOf_parts hx
  change execTransferResolve x.t x.k s = _
  simp only [execTransferResolve, hx, htr, hok, Bool.false_eq_true, if_false, linked, retired]

theorem transferResolve_fatal (hx : siteOf s t k ⟨false, 7⟩ = some x) (htr : x.g.transfer = some tr)
    (hhandler : x.g.handler = true) (hfatal : fatalTransfer tr = true) :
    exec (.transferResolve t k) s = .next (fatalFault
      (modTeam s t fun tm => modGroup tm k fun g => { g with transfer := none }) x.tm.ctx x.tm.core x.g.hpc 0) := by
  change execTransferResolve t k s = _
  simp only [execTransferResolve, hx, htr, hhandler, hfatal, Bool.and_self, if_true]

end Resolve

/-- Settles O27: a transfer that is no fatal fault moves its group as its kind says. -/
theorem transfersResolve : Obligations.TransfersResolve := by
  refine ⟨?_, ?_, ?_, ?_⟩
  · intro s t k x tr l a rest hx htr hhandler hjoin hexit hnexts
    rw [transferResolve_moves hx htr (by rw [hhandler, Bool.false_and]), resolveMoves_of_jump hjoin hexit hnexts]
    obtain ⟨rfl, rfl, _⟩ := siteOf_parts hx
    rfl
  · intro s t k x tr c hx htr hhandler hkind hclause
    rw [transferResolve_moves hx htr (by rw [hhandler, Bool.false_and]), resolveMoves_of_join hkind hclause]
    obtain ⟨rfl, rfl, _⟩ := siteOf_parts hx
    rfl
  · intro s t k x tr hx htr hhandler hkind hactive
    rw [transferResolve_moves hx htr (by rw [hhandler, Bool.false_and]), resolveMoves_of_exit hkind hactive]
    obtain ⟨rfl, rfl, _⟩ := siteOf_parts hx
    rfl
  · intro s t k x tr hx htr hkind hactive
    have hok : fatalTransfer tr = false := by simp [fatalTransfer, hkind, hactive]
    rw [transferResolve_moves hx htr (by rw [hok, Bool.and_false]), resolveMoves_of_idleExit hkind hactive]
    obtain ⟨rfl, rfl, _⟩ := siteOf_parts hx
    rfl

/-! ## Fatal faults -/

/-- A trap that no handler can take is a fatal fault of its team's context. -/
theorem trapGroup_fatal {s : State} {t k : Nat} {tm : Team} {g : Group} {tr : Trap} (ht : sget s.teams t = some tm)
    (hg : sget tm.groups k = some g) (hno : g.handler = true ∨ tm.htvec = 0) (hcause : tr.cause ≠ 0x100) (old : List Nat)
    (hpc : DWord) : trapGroup s t k tr old hpc = fatalFault s tm.ctx tm.core hpc tr.cause := by
  simp only [trapGroup, ht, hg, if_neg hcause]
  exact if_pos (by simpa using hno)

/-- A fatal fault stops its context, which keeps its first one. -/
theorem fatalFault_context {s : State} {ctx : Nat} {c : Context} (hc : sget s.contexts ctx = some c) (core : Nat) (hpc : DWord)
    (cause : Nat) : sget (fatalFault s ctx core hpc cause).contexts ctx =
      some { c with stopped := true, fault := if c.stopped then c.fault else some (core, hpc, cause, timeOf s) } := by
  rw [fatalFault, modCtx, sget_smod_eq, hc, Option.map_some]

section Ends
variable {u : State} {ctx core cause time : Nat} {c : Context} {hpc : DWord}

/-- A fault waits for the operations of its context's teams. -/
theorem endFault_of_busy (hc : sget u.contexts ctx = some c) (hfault : c.fault = some (core, hpc, cause, time))
    (hbusy : stopQuiet u (u.teams.filter fun e => e.2.ctx = ctx) = false) : endFault u ctx = u := by
  simp only [endFault, hc, Option.bind_some, hfault, hbusy, Bool.not_false, if_true]

/-- Once they have ended, the core image is written and the notice sent. -/
theorem endFault_of_quiet (hc : sget u.contexts ctx = some c) (hfault : c.fault = some (core, hpc, cause, time))
    (hquiet : stopQuiet u (u.teams.filter fun e => e.2.ctx = ctx) = true) :
    let r := putCoreImage (modCtx u ctx fun c => { c with fault := none }) ctx (u.teams.filter fun e => e.2.ctx = ctx)
    endFault u ctx = noticeAt time r.1 ctx 2 cause core hpc.toNat r.2 := by
  simp only [endFault, hc, Option.bind_some, hfault, hquiet, Bool.not_true, Bool.false_eq_true, if_false]

end Ends

/-- Settles O28: what handler mode forbids is `fatalTransfer`, and `fatalFault` and `endFault` say what follows. -/
theorem handlerModeFaultsAreFatal : Obligations.HandlerModeFaultsAreFatal := by
  refine ⟨fun s t k x tr hx htr hhandler hfatal => transferResolve_fatal hx htr hhandler (fatalTransfer_iff.2 hfatal), ?_⟩
  intro s t k tm g c tr old hpc ht hg hno hcause hc
  have hfatal := trapGroup_fatal ht hg hno hcause old hpc
  refine ⟨hfatal, ⟨_, by rw [hfatal, fatalFault_context hc], rfl, fun hrunning => ?_⟩, ?_⟩
  · simp only [hrunning, Bool.false_eq_true, if_false]
  · exact fun u c1 core at_ cause time hc1 hfault => ⟨endFault_of_busy hc1 hfault, endFault_of_quiet hc1 hfault⟩

end Sys2Proof.Laws
end

section
/-! SUPPORT. Words by what their bodies do at a site, and the checks of lanes that all pass (R171). -/

namespace Sys2Proof.Laws
open Sys2Proof.Machine

/-! ## Words by their bodies -/

section Bodies
variable {i : Instr} {r : Req} {body : Site → State → Res} {ok : Site → State → Prop}

/-- A group's word that runs a body completes where the body retires. -/
theorem groupCompletes_of_body {eff : Site → State → State} (hexec : ∀ s, exec i s = .next (issue r body s))
    (hbody : ∀ x s, ok x s → body x s = .retire (eff x s)) : GroupCompletes i r ok eff := by
  intro s x s1 hs hok
  rw [hexec, issue_retire hs (hbody x s1 hok)]

theorem groupTraps_of_body {tr : Site → State → Trap} (hexec : ∀ s, exec i s = .next (issue r body s))
    (hbody : ∀ x s, ok x s → body x s = .trap (tr x s)) : GroupTraps i r ok tr := by
  intro s x s1 hs hok
  rw [hexec, issue_trap hs (hbody x s1 hok)]

theorem groupWaits_of_body {eff : Site → State → State} (hexec : ∀ s, exec i s = .next (issue r body s))
    (hbody : ∀ x s, ok x s → body x s = .wait (eff x s)) : GroupWaits i r ok eff := by
  intro s x s1 hs hok
  rw [hexec, issue_wait hs (hbody x s1 hok)]

end Bodies

/-! ## Lanes whose checks pass -/

theorem laneFaults_congr {act : List Nat} {f g : Nat → Option AFault} (h : ∀ l, f l = g l) :
    laneFaults act f = laneFaults act g := by
  rw [funext h]

theorem laneFaults_eq_nil {act : List Nat} {f : Nat → Option AFault} (h : ∀ l ∈ act, f l = none) : laneFaults act f = [] :=
  List.filterMap_eq_nil_iff.2 fun l hl => by rw [h l hl]; rfl

/-- Where no lane fails, no trap is raised. -/
theorem laneTrap_of_pass {act : List Nat} {f : Nat → Option AFault} (h : ∀ l ∈ act, f l = none) :
    laneTrap (laneFaults act f) = none := by
  rw [laneFaults_eq_nil h]
  rfl

/-- A lone failing lane's trap. -/
theorem laneTrap_of_lone {l : Nat} {f : Nat → Option AFault} {e : AFault} (h : f l = some e) :
    laneTrap (laneFaults [l] f) = some { cause := e.cause, lanes := [l], addr := e.addr, info := infoOf e l } := by
  simp only [laneFaults, List.filterMap_cons, h, Option.map_some, List.filterMap_nil, laneTrap, decide_true, List.filter_cons_of_pos,
    List.filter_nil, List.map_cons, List.map_nil]

/-- A place that passes its checks is `locAt`. -/
theorem checkGlobal_of_ok {s : State} {ctx n : Nat} {ea : DWord} {p : Path} {write : Bool} (h : GlobalOk s ctx ea n p write) :
    checkGlobal s ctx ea n p write = .ok (locAt s ctx ea n p write) := by
  obtain ⟨loc, hloc⟩ := h
  rw [locAt, hloc]

theorem failOf_of_ok {s : State} {ctx n : Nat} {ea : DWord} {p : Path} {write : Bool} (h : GlobalOk s ctx ea n p write) :
    failOf (checkGlobal s ctx ea n p write) = none := by
  rw [checkGlobal_of_ok h]
  rfl

section Accesses
variable {s : State} {x : Site} {n : Nat} {lanes : List Nat}

/-- A load of checked global places opens the reads of their bytes, with the translations used held. -/
theorem loadGlobal_of_ok {p : Path} {ea : Nat → DWord} (hok : ∀ l ∈ lanes, GlobalOk s x.tm.ctx (ea l) n p false) (h : Head)
    (na sx : Bool) (d : Nat) :
    loadGlobal s x h p na sx n d lanes ea =
      .retire (openLoad
        (lanes.foldl (fun s' l => xlatFill s' x.tm.core x.tm.ctx (ea l).toNat (locAt s x.tm.ctx (ea l) n p false)) s) x h []
        (lanes.flatMap fun l =>
          lanePieces x l n d sx na (memAt p (ea l).toNat (locAt s x.tm.ctx (ea l) n p false)))) := by
  simp only [loadGlobal, laneTrap_of_pass fun l hl => failOf_of_ok (hok l hl)]
  congr 2
  · exact List.foldl_ext _ _ _ fun s' l hl => by rw [checkGlobal_of_ok (hok l hl)]
  · exact List.flatMap_congr fun l hl => by rw [checkGlobal_of_ok (hok l hl)]

theorem loadSp_of_ok {off : Nat → Nat} (hok : ∀ l ∈ lanes, checkSp x.tm (off l) n .load .spTeam = none) (h : Head) (sx : Bool)
    (d : Nat) :
    loadSp s x h sx n d lanes off =
      .retire (openLoad s x h [] (lanes.flatMap fun l => lanePieces x l n d sx false fun i => .sp x.t (off l + i))) := by
  simp only [loadSp, laneTrap_of_pass hok]

/-- A store to checked global places passes each lane's bytes on, lanes ascending. -/
theorem storeGlobal_of_ok {ea : Nat → DWord} (hok : ∀ l ∈ lanes, GlobalOk s x.tm.ctx (ea l) n .ls true) (h : Head)
    (data : Nat → List Byte) :
    storeGlobal s x h n lanes ea data =
      .retire (openLong (lanes.foldl (fun s' l =>
        laneStores (xlatFill s' x.tm.core x.tm.ctx (ea l).toNat (locAt s x.tm.ctx (ea l) n .ls true)) (x.who l) .ls l (ea l).toNat
          (locAt s x.tm.ctx (ea l) n .ls true) (data l)) s) x h (groupOp x h.dc .plain) []) := by
  simp only [storeGlobal, laneTrap_of_pass fun l hl => failOf_of_ok (hok l hl)]
  congr 2
  exact List.foldl_ext _ _ _ fun s' l hl => by rw [checkGlobal_of_ok (hok l hl)]

theorem storeSp_of_ok {off : Nat → Nat} (hok : ∀ l ∈ lanes, checkSp x.tm (off l) n .store .spTeam = none) (h : Head)
    (data : Nat → List Byte) :
    storeSp s x h n lanes off data =
      .retire (openLong (lanes.foldl (fun s' l => spStore (x.who l) x.t (off l) (data l) s') s) x h (groupOp x h.dc .plain) []) := by
  simp only [storeSp, laneTrap_of_pass hok]

end Accesses

end Sys2Proof.Laws
end

section
/-! SUPPORT. Loads (R186, R188 to R190, R208): what the words open, and what reading one element leaves. -/

namespace Sys2Proof.Laws
open Sys2Proof.Machine

theorem ld_completes (h : Head) (d a : VReg) (imm : BitVec 16) (w : Width) (sx na : Bool) :
    GroupCompletes (.ld h d a imm w sx na false) (memReq h .loads ((d.toNat, regsFor (widthBytes w)) :: two [a]))
      (fun x s => ∀ l ∈ x.act, GlobalOk s x.tm.ctx (gaddr (x.view s) l a imm) (widthBytes w) .ls false)
      (loaded h d .ls na sx (widthBytes w) fun v l => gaddr v l a imm) :=
  groupCompletes_of_body (fun _ => rfl) fun _ _ hok => loadGlobal_of_ok hok h na sx d.toNat

theorem ldSp_completes (h : Head) (d a : VReg) (imm : BitVec 16) (w : Width) (sx na : Bool) :
    GroupCompletes (.ld h d a imm w sx na true) (memReq h .loads ((d.toNat, regsFor (widthBytes w)) :: one [a]))
      (fun x s => ∀ l ∈ x.act, checkSp x.tm (saddr (x.view s) l a imm).toNat (widthBytes w) .load .spTeam = none)
      fun x s => loadedSp h d sx (widthBytes w) (fun v => v.act) (fun v l => (x.t, (saddr v l a imm).toNat)) x s :=
  groupCompletes_of_body (fun _ => rfl) fun _ _ hok => loadSp_of_ok hok h sx d.toNat

theorem ldk_completes (h : Head) (d a : VReg) (imm : BitVec 16) (w : Width) (sx : Bool) :
    GroupCompletes (.ldk h d a imm w sx) (memReq h .loads ((d.toNat, regsFor (widthBytes w)) :: two [a]))
      (fun x s => ∀ l ∈ x.act, GlobalOk s x.tm.ctx (gaddr (x.view s) l a imm) (widthBytes w) .k false)
      (loaded h d .k false sx (widthBytes w) fun v l => gaddr v l a imm) :=
  groupCompletes_of_body (fun _ => rfl) fun _ _ hok => loadGlobal_of_ok hok h false sx d.toNat

theorem ldx_completes (h : Head) (d a : VReg) (imm : BitVec 16) (w : Width) (sx : Bool) :
    GroupCompletes (.ldx h d a imm w sx) (memReq h .loads ((d.toNat, regsFor (widthBytes w)) :: one [a]))
      (fun x s => ∀ l ∈ x.act, checkCluster s x (saddr (x.view s) l a imm).toNat (widthBytes w) .load = none)
      fun x s => loadedSp h d sx (widthBytes w) (fun v => v.act) (fun v l => clusterAt x (saddr v l a imm).toNat) x s := by
  refine groupCompletes_of_body (fun _ => rfl) fun x s hok => ?_
  simp only [laneTrap_of_pass hok]
  rfl

theorem gathSp_completes (h : Head) (d a b : VReg) (ix : Index) (ew : EWidth) (sx : Bool) :
    GroupCompletes (.gath h d a b ix ew sx true)
      (memReq h .loads ((d.toNat, regsFor (ewBytes ew)) :: one [a] ++ (if ix.iw = .b64 then two [b] else one [b])))
      (fun x s => ∀ l ∈ idxLanes b ix (x.view s),
        checkSp x.tm (idxSp ((x.view s).r l a) ix (idxVal (x.view s) l b ix)) (ewBytes ew) .load .spTeam = none)
      fun x s => loadedSp h d sx (ewBytes ew) (idxLanes b ix) (fun v l => (x.t, idxSp (v.r l a) ix (idxVal v l b ix))) x s :=
  groupCompletes_of_body (fun _ => rfl) fun _ _ hok => loadSp_of_ok hok h sx d.toNat

theorem gath_completes (h : Head) (d a b : VReg) (ix : Index) (ew : EWidth) (sx : Bool) :
    GroupCompletes (.gath h d a b ix ew sx false)
      (memReq h .loads ((d.toNat, regsFor (ewBytes ew)) :: two [a] ++ (if ix.iw = .b64 then two [b] else one [b])))
      (fun x s => ∀ l ∈ idxLanes b ix (x.view s),
        ∃ src, gathSrc s x (ewBytes ew) (idxAddr ((x.view s).r64 l a) ix (idxVal (x.view s) l b ix)) = .ok src)
      (gathered h d a b ix (ewBytes ew) sx) := by
  refine groupCompletes_of_body (fun _ => rfl) fun x s hok => ?_
  have htrap : laneTrap (laneFaults (x.act.filter fun l => !isSentinel ix (idxVal (x.view s) l b ix)) fun l =>
      failOf (gathSrc s x (ewBytes ew) (idxAddr ((x.view s).r64 l a) ix (idxVal (x.view s) l b ix)))) = none :=
    laneTrap_of_pass fun l hl => (hok l hl).elim fun _ hsrc => by rw [hsrc]; rfl
  simp only [Bool.false_eq_true, if_false, htrap]
  rfl

/-! ## Reading an element -/

section Read
variable {s : State} {id : Nat} {o : Op} {tm : Team} {e : LoadElem} {i : Nat}

/-- The reader of a thread's element of an operation. -/
def readerOf (tm : Team) (o : Op) (i : Nat) : Who := { ctx := tm.ctx, core := tm.core, team := o.team, tid := some i }

/-- Reading a thread's element: its sources are read, the operation owes it no more, and its values are pending. -/
theorem performRead_of_thread (ho : sget s.ops id = some o) (ht : sget s.teams o.team = some tm) (htid : e.tid = some i)
    (hfmt : ∀ g, e.fmt ≠ .greg g) :
    performRead s id e =
      modTeam (setKind (readSrcs (readerOf tm o i) e.na e.srcs s).2 id (.load (o.kind.unread.erase e))) o.team fun u =>
        modThread u i (pendValue id e.hnd (e.fmt.regs (readSrcs (readerOf tm o i) e.na e.srcs s).1)) := by
  have hops : sgetD (readSrcs (readerOf tm o i) e.na e.srcs s).2.ops id o = o := by
    rw [ops_of_bare (bare_readSrcs ..), sgetD, ho, Option.getD_some]
  unfold readerOf at hops ⊢
  cases hf : e.fmt with
  | greg g => exact absurd hf (hfmt g)
  | bytes | elem => simp only [performRead, ho, ht, hf, htid, hops]

/-- What reading an element leaves: its values pending in its thread, the element no longer owed, and marks. -/
theorem performRead_spec {th : Thread} (ho : sget s.ops id = some o) (ht : sget s.teams o.team = some tm) (htid : e.tid = some i)
    (hth : sget tm.threads i = some th) (hfmt : ∀ g, e.fmt ≠ .greg g) :
    ∃ tm' m, sget (performRead s id e).teams o.team = some tm' ∧
      sget tm'.threads i = some
        { pendValue id e.hnd (e.fmt.regs (readSrcs (readerOf tm o i) e.na e.srcs s).1) th with mark := m } ∧
      (sget (performRead s id e).ops id).map (·.kind.unread) = some (o.kind.unread.erase e) ∧
      (∀ j u, j ≠ i → sget tm.threads j = some u → ∃ m', sget tm'.threads j = some { u with mark := m' }) ∧
      ∀ j, j ≠ id → sget (performRead s id e).ops j = sget s.ops j := by
  have hbare := bare_readSrcs (readerOf tm o i) e.na e.srcs s
  obtain ⟨tm1, ht1, hteam⟩ := team_of_bare hbare ht
  obtain ⟨m, hm⟩ := thread_of_bare hteam hth
  rw [performRead_of_thread ho ht htid hfmt]
  refine ⟨modThread tm1 i (pendValue id e.hnd (e.fmt.regs (readSrcs (readerOf tm o i) e.na e.srcs s).1)), m, ?_, ?_, ?_,
    fun j u hj hu => ?_, fun j hj => ?_⟩
  · simp only [modTeam, setKind, sget_smod_eq, ht1, Option.map_some]
  · simp only [modThread, sget_smod_eq, hm, Option.map_some]
    rfl
  · simp only [modTeam, setKind, sget_smod_eq, ops_of_bare hbare, ho, Option.map_some, OpKind.unread]
  · obtain ⟨m', hm'⟩ := thread_of_bare hteam hu
    exact ⟨m', by simp only [modThread, sget_smod_ne _ _ (Ne.symm hj), hm']⟩
  · simp only [modTeam, setKind, sget_smod_ne _ _ (Ne.symm hj), ops_of_bare hbare]

end Read

/-- Settles O18: each load's body opens the reads of its lanes' places, and `performRead` is one element's read. -/
theorem loadsOpenReads : Obligations.LoadsOpenReads :=
  ⟨⟨ld_completes, ldSp_completes, ldk_completes, ldx_completes, gathSp_completes, gath_completes⟩,
   fun _ _ _ _ _ _ _ ho ht htid _ hth hfmt => performRead_spec ho ht htid hth hfmt⟩

end Sys2Proof.Laws
end

section
/-! SUPPORT. Stores (R186, R188 to R190), and STORE_DRAIN (R173, R212). -/

namespace Sys2Proof.Laws
open Sys2Proof.Machine

theorem st_completes (h : Head) (d a : VReg) (imm : BitVec 16) (w : Width) :
    GroupCompletes (.st h d a imm w false) (memReq h .stores ((d.toNat, regsFor (widthBytes w)) :: two [a]))
      (fun x s => ∀ l ∈ x.act, GlobalOk s x.tm.ctx (gaddr (x.view s) l a imm) (widthBytes w) .ls true)
      (stored h d (widthBytes w) (fun v => v.act) fun v l => gaddr v l a imm) :=
  groupCompletes_of_body (fun _ => rfl) fun _ _ hok => storeGlobal_of_ok hok h _

theorem stSp_completes (h : Head) (d a : VReg) (imm : BitVec 16) (w : Width) :
    GroupCompletes (.st h d a imm w true) (memReq h .stores ((d.toNat, regsFor (widthBytes w)) :: one [a]))
      (fun x s => ∀ l ∈ x.act, checkSp x.tm (saddr (x.view s) l a imm).toNat (widthBytes w) .store .spTeam = none)
      fun x s => storedSp h d (widthBytes w) (fun v => v.act) (fun v l => (x.t, (saddr v l a imm).toNat)) x s :=
  groupCompletes_of_body (fun _ => rfl) fun _ _ hok => storeSp_of_ok hok h _

theorem stx_completes (h : Head) (d a : VReg) (imm : BitVec 16) (w : Width) :
    GroupCompletes (.stx h d a imm w) (memReq h .stores ((d.toNat, regsFor (widthBytes w)) :: one [a]))
      (fun x s => ∀ l ∈ x.act, checkCluster s x (saddr (x.view s) l a imm).toNat (widthBytes w) .store = none)
      fun x s => storedSp h d (widthBytes w) (fun v => v.act) (fun v l => clusterAt x (saddr v l a imm).toNat) x s := by
  refine groupCompletes_of_body (fun _ => rfl) fun x s hok => ?_
  simp only [laneTrap_of_pass hok]
  rfl

theorem scat_completes (h : Head) (d a b : VReg) (ix : Index) (ew : EWidth) :
    GroupCompletes (.scat h d a b ix ew false)
      (memReq h .stores ((d.toNat, regsFor (ewBytes ew)) :: two [a] ++ (if ix.iw = .b64 then two [b] else one [b])))
      (fun x s => ∀ l ∈ idxLanes b ix (x.view s),
        GlobalOk s x.tm.ctx (idxAddr ((x.view s).r64 l a) ix (idxVal (x.view s) l b ix)) (ewBytes ew) .ls true)
      (stored h d (ewBytes ew) (idxLanes b ix) fun v l => idxAddr (v.r64 l a) ix (idxVal v l b ix)) :=
  groupCompletes_of_body (fun _ => rfl) fun _ _ hok => storeGlobal_of_ok hok h _

theorem scatSp_completes (h : Head) (d a b : VReg) (ix : Index) (ew : EWidth) :
    GroupCompletes (.scat h d a b ix ew true)
      (memReq h .stores ((d.toNat, regsFor (ewBytes ew)) :: one [a] ++ (if ix.iw = .b64 then two [b] else one [b])))
      (fun x s => ∀ l ∈ idxLanes b ix (x.view s),
        checkSp x.tm (idxSp ((x.view s).r l a) ix (idxVal (x.view s) l b ix)) (ewBytes ew) .store .spTeam = none)
      fun x s => storedSp h d (ewBytes ew) (idxLanes b ix) (fun v l => (x.t, idxSp (v.r l a) ix (idxVal v l b ix))) x s :=
  groupCompletes_of_body (fun _ => rfl) fun _ _ hok => storeSp_of_ok hok h _

/-! ## Draining one store -/

/-- Where no store is named, none is taken. -/
theorem pickStores_of_none {hit : HeldStore → Bool} {l : List HeldStore} (h : ∀ e ∈ l, hit e = false) :
    pickStores hit l = l.map fun e => (e, false) := by
  induction l with
  | nil => rfl
  | cons e t ih =>
    rw [pickStores, ih fun u hu => h u (List.mem_cons_of_mem e hu)]
    simp [h e List.mem_cons_self]

/-- A store that nothing must precede is taken alone. -/
theorem pickStores_of_lone {h : HeldStore} {l1 l2 : List HeldStore} (hfree : h.held = false) (hafter : h ∉ l2)
    (hbefore : ∀ e ∈ l1, e ≠ h ∧ (e.held = false → e.before h = false)) :
    pickStores (fun e => e = h) (l1 ++ h :: l2) = (l1.map fun e => (e, false)) ++ (h, true) :: l2.map fun e => (e, false) := by
  induction l1 with
  | nil =>
    have hrest : ∀ e ∈ l2, decide (e = h) = false := fun e he => decide_eq_false fun heq => hafter (heq ▸ he)
    rw [List.nil_append, pickStores, pickStores_of_none hrest]
    simp [hfree]
  | cons e t ih =>
    obtain ⟨hne, hfirst⟩ := hbefore e List.mem_cons_self
    rw [List.cons_append, pickStores, ih fun u hu => hbefore u (List.mem_cons_of_mem e hu)]
    cases hheld : e.held with
    | true => simp
    | false => simp [hne, hfirst hheld]

/-- STORE_DRAIN names a store of the core's buffers. -/
theorem storeDrain_names {s : State} {core n : Nat} {h : HeldStore} (hn : (s.coal.filter fun e => e.core = core)[n]? = some h) :
    exec (.storeDrain core n) s = .next (drainWhere s fun e => e = h) := by
  change execStoreDrain core n s = _
  rw [execStoreDrain, hn]

/-- A drain of stores takes those that `pickStores` gives, oldest first. -/
theorem drainWhere_of_hit {s : State} {h : HeldStore} (hmem : h ∈ s.coal) (hfree : h.held = false) :
    drainWhere s (fun e => e = h) =
      (((pickStores (fun e => e = h) s.coal).filter Prod.snd).foldl (fun s e => drainStore s e.1)
        { s with coal := ((pickStores (fun e => e = h) s.coal).filter fun e => !e.2).map Prod.fst }) :=
  if_pos (List.any_eq_true.2 ⟨h, hmem, by simp [hfree]⟩)

/-- STORE_DRAIN of a store that nothing must precede drains it alone. -/
theorem storeDrain_lone {s : State} {core : Nat} {h : HeldStore} {l1 l2 : List HeldStore} (hcoal : s.coal = l1 ++ h :: l2)
    (hcore : h.core = core) (hfree : h.held = false) (hafter : h ∉ l2)
    (hbefore : ∀ e ∈ l1, e ≠ h ∧ (e.held = false → e.before h = false)) :
    exec (.storeDrain core (l1.filter fun e => e.core = core).length) s = .next (drainStore { s with coal := l1 ++ l2 } h) := by
  have hn : (s.coal.filter fun e => e.core = core)[(l1.filter fun e => e.core = core).length]? = some h := by
    rw [hcoal, List.filter_append, List.getElem?_append_right (Nat.le_refl _), Nat.sub_self, List.filter_cons_of_pos (by simpa using hcore)]
    rfl
  rw [storeDrain_names hn, drainWhere_of_hit (by simp [hcoal]) hfree, hcoal, pickStores_of_lone hfree hafter hbefore]
  simp [List.filter_map, Function.comp_def]

/-- STORE_DRAIN of a store that one other must precede drains that one first. -/
theorem storeDrain_second {s : State} {core : Nat} {e h : HeldStore} (hcoal : s.coal = [e, h]) (hecore : e.core = core)
    (hcore : h.core = core) (hefree : e.held = false) (hfree : h.held = false) (hbefore : e.before h = true) :
    exec (.storeDrain core 1) s = .next (drainStore (drainStore { s with coal := [] } e) h) := by
  have hn : (s.coal.filter fun e => e.core = core)[1]? = some h := by simp [hcoal, hecore, hcore]
  have hpick : pickStores (fun e => e = h) s.coal = [(e, true), (h, true)] := by
    simp [hcoal, pickStores, hefree, hfree, hbefore]
  rw [storeDrain_names hn, drainWhere_of_hit (by simp [hcoal]) hfree, hpick]
  rfl

/-- A held store stays (R212). -/
theorem storeDrain_held {s : State} {core n : Nat} {h : HeldStore} (hn : (s.coal.filter fun e => e.core = core)[n]? = some h)
    (hheld : h.held = true) : exec (.storeDrain core n) s = .next s := by
  rw [storeDrain_names hn]
  refine congrArg Host.Outcome.next (if_neg ?_)
  simp only [List.any_eq_true, Bool.and_eq_true, decide_eq_true_eq, not_exists, not_and]
  rintro _ _ hfree rfl
  simp [hheld] at hfree

/-- A store without kept bits stores its bytes. -/
theorem merge_of_noKeep {h : HeldStore} (hkeep : h.keep = []) (old : List Byte) : h.merge old = h.bytes := if_pos hkeep

/-- Settles O19: each store's body passes the lanes' bytes on, and a drain is `drainStore` of the stores that `pickStores` gives. -/
theorem storesTakeTheirBytes : Obligations.StoresTakeTheirBytes := by
  refine ⟨⟨st_completes, stSp_completes, stx_completes, scat_completes, scatSp_completes⟩, ?_, ?_, ?_⟩
  · intro s core h l1 l2 tm hcoal hcore hfree hafter hbefore ht
    obtain ⟨hmem, hrest⟩ := mc_drainStore (s := { s with coal := l1 ++ l2 }) ht
    refine ⟨_, storeDrain_lone hcoal hcore hfree hafter hbefore, hrest, hmem, fun i hi hkeep => ?_, fun a ha => ?_⟩
    · rw [hmem, merge_of_noKeep hkeep, memByte_memSets_in _ _ _ _ hi]
    · rw [hmem, memByte_memSets_out]
      rw [length_merge]
      omega
  · intro s core e h tm tm' hcoal _ hecore hcore hefree hfree hbefore hte hth
    obtain ⟨hmem, hrest⟩ := mc_drainStore (s := { s with coal := [] }) hte
    obtain ⟨tm1, ht1, _⟩ := team_of_bare (bare_drainStore { s with coal := [] } e) hth
    obtain ⟨hmem', hrest'⟩ := mc_drainStore ht1
    refine ⟨_, storeDrain_second hcoal hecore hcore hefree hfree hbefore, hrest'.trans hrest, ?_⟩
    rw [hmem', hmem]
  · exact fun s core n h hn hheld => storeDrain_held hn hheld

end Sys2Proof.Laws
end

section
/-! SUPPORT. LDL and STL (R191, R193), and what a view's element meets (R302, R305). -/

namespace Sys2Proof.Laws
open Sys2Proof.Machine

/-! ## LDL -/

/-- What stops a lane's LDL: its element's selection, its checks, or its view. -/
def elemFault (s : State) (x : Site) (a : VReg) (imm : BitVec 16) (l : Nat) : Option AFault :=
  match elemSel s x (x.view s) l a imm with
  | .fault f => some f
  | .pad _ | .skip => none
  | .place p => match elemCheck s x p false with
    | some f => some f
    | none => match ldlView s x p l with
      | .fault f => some f
      | .data _ | .wait => none

/-- A lane's element waits for its view's block. -/
def elemWaits (s : State) (x : Site) (a : VReg) (imm : BitVec 16) (l : Nat) : Bool :=
  match elemView s x a imm l with
  | .wait => true
  | .data _ | .fault _ => false

theorem elemWaits_iff {s : State} {x : Site} {a : VReg} {imm : BitVec 16} {l : Nat} :
    elemWaits s x a imm l = true ↔ elemView s x a imm l = .wait := by
  unfold elemWaits
  cases elemView s x a imm l <;> simp

/-- Only an element at a place meets a view. -/
theorem elemView_eq (s : State) (x : Site) (a : VReg) (imm : BitVec 16) :
    elemView s x a imm = fun l => match elemSel s x (x.view s) l a imm with
      | .place p => ldlView s x p l
      | .fault _ | .pad _ | .skip => .data none := by
  funext l
  unfold elemView elemPlace
  cases elemSel s x (x.view s) l a imm <;> rfl

/-- LDL: the lanes' faults, else a wait for a view's block, else the reads of the lanes' elements. -/
theorem ldlBody_eq (h : Head) (d a : VReg) (imm : BitVec 16) (x : Site) (s : State) :
    ldlBody h d a imm x s = match laneTrap (laneFaults x.act (elemFault s x a imm)) with
      | some t => .trap t
      | none => if x.act.any (elemWaits s x a imm) then .wait (elemsHeld a imm x s) else .retire (elemsLoaded h d a imm x s) := by
  unfold ldlBody
  simp only
  rw [laneFaults_congr (g := elemFault s x a imm) fun l => by
    unfold elemFault
    cases elemSel s x (x.view s) l a imm <;> rfl]
  cases laneTrap (laneFaults x.act (elemFault s x a imm)) with
  | some t => rfl
  | none =>
    refine ite_congr ?_ (fun _ => congrArg Res.wait ?_) fun _ => congrArg Res.retire ?_
    · congr 2
      funext l
      rw [elemWaits, elemView_eq] <;> rfl
    · rw [elemsHeld, elemView_eq] <;> rfl
    · rw [elemsLoaded, elemView_eq]
      congr 1
      · refine congrArg (fun u => if x.g.cons = [] then u else setLays (setCons u x []) x []) (List.foldl_ext _ _ _ fun s' l _ => ?_)
        unfold elemPlace
        cases elemSel s x (x.view s) l a imm <;> rfl
      · refine List.filterMap_congr fun l _ => ?_
        unfold elemKnown
        cases elemSel s x (x.view s) l a imm <;> rfl
      · refine List.filterMap_congr fun l _ => ?_
        unfold elemPlace
        cases elemSel s x (x.view s) l a imm <;> rfl

section Lane
variable {s : State} {x : Site} {a : VReg} {imm : BitVec 16} {l : Nat} {p : ElemPlace}

theorem elemSel_of_elemPlace (h : elemPlace s x a imm l = some p) : elemSel s x (x.view s) l a imm = .place p := by
  unfold elemPlace at h
  cases hsel : elemSel s x (x.view s) l a imm with
  | place q =>
    simp only [hsel, Option.some.injEq] at h
    rw [h]
  | fault | pad | skip => simp [hsel] at h

/-- A lane that passes has no fault. -/
theorem elemFault_of_passes (h : elemPasses s x a imm l) : elemFault s x a imm l = none := by
  unfold elemPasses at h
  unfold elemFault
  cases hsel : elemSel s x (x.view s) l a imm with
  | fault f => simp [hsel] at h
  | pad | skip => rfl
  | place p =>
    simp only [hsel] at h ⊢
    obtain ⟨hcheck, hview⟩ := h
    rw [hcheck]
    cases hv : ldlView s x p l with
    | fault f => exact absurd hv (hview f)
    | data | wait => rfl

theorem elemFault_of_view {f : AFault} (hplace : elemPlace s x a imm l = some p) (hcheck : elemCheck s x p false = none)
    (hview : ldlView s x p l = .fault f) : elemFault s x a imm l = some f := by
  simp only [elemFault, elemSel_of_elemPlace hplace, hcheck, hview]

end Lane

/-- LDL where every lane gives data. -/
theorem ldlBody_of_reads {x : Site} {s : State} {a : VReg} {imm : BitVec 16} (hok : ∀ l ∈ x.act, elemReads s x a imm l) (h : Head)
    (d : VReg) : ldlBody h d a imm x s = .retire (elemsLoaded h d a imm x s) := by
  rw [ldlBody_eq, laneTrap_of_pass fun l hl => elemFault_of_passes (hok l hl).1]
  refine if_neg ?_
  simp only [List.any_eq_true, elemWaits_iff, not_exists, not_and]
  exact fun l hl => (hok l hl).2

theorem ldl_completes (h : Head) (d a : VReg) (imm : BitVec 16) :
    GroupCompletes (.ldl h d a imm) (ldlReq h d a) (fun x s => ∀ l ∈ x.act, elemReads s x a imm l) (elemsLoaded h d a imm) :=
  groupCompletes_of_body (fun _ => rfl) fun _ _ hok => ldlBody_of_reads hok h d

theorem ldl_waits (h : Head) (d a : VReg) (imm : BitVec 16) :
    GroupWaits (.ldl h d a imm) (ldlReq h d a)
      (fun x s => (∀ l ∈ x.act, elemPasses s x a imm l) ∧ ∃ l ∈ x.act, elemView s x a imm l = .wait) (elemsHeld a imm) := by
  refine groupWaits_of_body (fun _ => rfl) fun x s ⟨hpass, l, hl, hwait⟩ => ?_
  rw [ldlBody_eq, laneTrap_of_pass fun l hl => elemFault_of_passes (hpass l hl)]
  exact if_pos (List.any_eq_true.2 ⟨l, hl, elemWaits_iff.2 hwait⟩)

/-- A later try of LDL reads once its views' blocks are fresh. -/
theorem ldl_ends (t k : Nat) (h : Head) (d a : VReg) (imm : BitVec 16) :
    WaitEnds (.ldl h d a imm) (.classWWaitRelease (.group t k)) (ldlReq h d a) t k
      (fun x s => ∀ l ∈ x.act, elemReads s x a imm l) (elemsLoaded h d a imm) := by
  intro s x s1 hw hs hok
  have hretry : classWRetry (.group t k) s = reissue (.group t k) (issue (ldlReq h d a) (ldlBody h d a imm)) s := by
    rw [classWRetry, hw.1]
  rw [classWWaitRelease_retries hw, hretry, reissue_group hw hs (issue_retire hs (ldlBody_of_reads hok h d))]

theorem ldl_traps (h : Head) (d a : VReg) (imm : BitVec 16) (l : Nat) (p : ElemPlace) (f : AFault) :
    GroupTraps (.ldl h d a imm) (ldlReq h d a)
      (fun x s => x.act = [l] ∧ elemPlace s x a imm l = some p ∧ elemCheck s x p false = none ∧ ldlView s x p l = .fault f)
      fun _ _ => { cause := f.cause, lanes := [l], addr := f.addr, info := infoOf f l } := by
  refine groupTraps_of_body (fun _ => rfl) fun x s ⟨hact, hplace, hcheck, hview⟩ => ?_
  rw [ldlBody_eq, hact, laneTrap_of_lone (elemFault_of_view hplace hcheck hview)]

/-! ## What a view gives -/

section View
variable {s : State} {x : Site} {p : ElemPlace} {l k : Nat} {c : Context} {v : View}

theorem ldlView_of_noView (h : recVid p.lay = 0) : ldlView s x p l = .data none := if_pos h

/-- A first read of a view's element. -/
theorem ldlView_of_first (hvid : recVid p.lay ≠ 0) (hfirst : sget x.g.cons l = none) (hc : sget s.contexts x.tm.ctx = some c)
    (hview : p.view = some (k, v)) :
    ldlView s x p l = match v.state with
      | .suspended => .fault ⟨0x1C, 0, 0, 5, p.addr⟩
      | .active => if viewFresh c v (viewBlock v p.lay p.coord) then .data none
        else match v.policy with
          | .wait => .wait
          | .stale => .data (some k)
          | .fault => .fault ⟨0x1B, 0, 0, 5, p.addr⟩ := by
  simp only [ldlView, if_neg hvid, hfirst, viewRead, hc, hview, Option.isSome_none, Bool.false_eq_true, if_false]
    <;> rfl

end View

/-! ## STL -/

/-- STL is no view's (R181): where the checks of its bytes pass, that one fails. -/
theorem stlCheck_of_view {s : State} {x : Site} {p : ElemPlace} (hvid : recVid p.lay ≠ 0) (hcheck : elemCheck s x (stlPlace p) true = none) :
    stlCheck s x p = some ⟨0x12, 9, 0, 5, p.addr⟩ := by
  simp only [stlCheck, if_neg hvid, hcheck]

theorem stlCheck_of_noView {s : State} {x : Site} {p : ElemPlace} (hvid : recVid p.lay = 0) :
    stlCheck s x p = elemCheck s x (stlPlace p) true := if_pos hvid

theorem stl_traps (h : Head) (d a : VReg) (imm : BitVec 16) (l : Nat) (p : ElemPlace) :
    GroupTraps (.stl h d a imm) (memReq h .stores (one [d] ++ [(a.toNat, 6)]))
      (fun x s => x.act = [l] ∧ elemPlace s x a imm l = some p ∧ recVid p.lay ≠ 0 ∧ elemCheck s x (stlPlace p) true = none)
      fun _ _ => { cause := 0x12, lanes := [l], addr := p.addr, info := infoOf ⟨0x12, 9, 0, 5, p.addr⟩ l } := by
  refine groupTraps_of_body (fun _ => rfl) fun x s ⟨hact, hplace, hvid, hcheck⟩ => ?_
  simp only [hact]
  rw [laneTrap_of_lone (e := ⟨0x12, 9, 0, 5, p.addr⟩)]
  simp only [elemSel_of_elemPlace hplace, stlCheck_of_view hvid hcheck]

theorem stl_completes (h : Head) (d a : VReg) (imm : BitVec 16) :
    GroupCompletes (.stl h d a imm) (memReq h .stores (one [d] ++ [(a.toNat, 6)]))
      (fun x s => ∀ l ∈ x.act, elemWrites s x a imm l) (elemsStored h d a imm) := by
  refine groupCompletes_of_body (fun _ => rfl) fun x s hok => ?_
  simp only
  rw [laneTrap_of_pass]
  · refine congrArg (fun u => Res.retire (openLong u x h (groupOp x h.dc .plain) [])) (List.foldl_ext _ _ _ fun s' l _ => ?_)
    unfold elemPlace
    cases elemSel s x (x.view s) l a imm <;> rfl
  · intro l hl
    have hlane := hok l hl
    unfold elemWrites at hlane
    cases hsel : elemSel s x (x.view s) l a imm with
    | fault f => simp [hsel] at hlane
    | pad | skip => rfl
    | place p =>
      simp only [hsel] at hlane
      obtain ⟨hvid, hcheck⟩ := hlane
      exact (stlCheck_of_noView hvid).trans hcheck

end Sys2Proof.Laws
end

section
/-! SUPPORT. Layout bindings (R182, R192), CINV and PREF (R194), and TWALK (R195). -/

namespace Sys2Proof.Laws
open Sys2Proof.Machine

/-! ## LYLD -/

theorem filterMap_of_some {α β : Type} {f : α → Option β} {g : α → β} {l : List α} (h : ∀ e ∈ l, f e = some (g e)) :
    l.filterMap f = l.map g := by
  rw [List.filterMap_congr h]
  exact congrFun List.filterMap_eq_map' l

/-- An address that lanes name is the one of the lane found for it. -/
theorem find_of_mem_addrs {act : List Nat} {ea : Nat → Nat} {ad : Nat} (h : ad ∈ (act.map ea).eraseDups) :
    ∃ l ∈ act, ea l = ad ∧ act.find? (fun l => ea l = ad) = some l := by
  rw [List.mem_eraseDups, List.mem_map] at h
  obtain ⟨l, hl, heq⟩ := h
  obtain ⟨m, hm⟩ := Option.isSome_iff_exists.1 (List.find?_isSome.2 ⟨l, hl, decide_eq_true heq⟩ : (act.find? fun l => ea l = ad).isSome)
  exact ⟨m, List.mem_of_find?_eq_some hm, by simpa using List.find?_some hm, hm⟩

/-- The place of the record at an address, with the lane that reads it. -/
def lyldPlace (a : VReg) (imm : BitVec 16) (x : Site) (s : State) (ad : Nat) : Nat × Nat × Loc :=
  let l := (x.act.find? fun l => (gaddr (x.view s) l a imm).toNat = ad).getD 0
  (ad, l, locAt s x.tm.ctx (gaddr (x.view s) l a imm) 64 .ly false)

theorem lyldPlaces_eq (a : VReg) (imm : BitVec 16) (x : Site) (s : State) :
    lyldPlaces a imm x s = (x.act.map fun l => (gaddr (x.view s) l a imm).toNat).eraseDups.map (lyldPlace a imm x s) := rfl

theorem lyld_completes (h : Head) (d a : VReg) (imm : BitVec 16) :
    GroupCompletes (.lyld h d a imm) (memReq h .layout (one [d] ++ two [a]))
      (fun x s =>
        (∀ l ∈ x.act, GlobalOk s x.tm.ctx (gaddr (x.view s) l a imm) 64 .ly false)
        ∧ (∀ e ∈ (lyldReads a imm x s).1, recBad e.2 (fsRead x.lr (BitVec.ofNat 3 (recFs e.2))) = false)
        ∧ (x.act.map fun l => (gaddr (x.view s) l a imm).toNat).eraseDups.length
            ≤ ((List.range 16).filter fun i => !(sgetD x.tm.binds i default).bound).length)
      fun x s =>
        let recs := (lyldReads a imm x s).1
        let filled := (lyldPlaces a imm x s).foldl (fun s' e => xlatFill s' x.tm.core x.tm.ctx e.1 e.2.2) (lyldReads a imm x s).2
        openRead (modTeam filled x.t fun tm => (bindAll tm recs).2) x h (x.act.map fun l => out1 l d
          (BitVec.ofNat 32 ((((bindAll x.tm recs).1.find? fun e => e.1 = (gaddr (x.view s) l a imm).toNat).map Prod.snd).getD 0))) := by
  refine groupCompletes_of_body (fun _ => rfl) fun x s ⟨hok, hrecs, hfree⟩ => ?_
  simp only
  rw [filterMap_of_some (g := lyldPlace a imm x s), ← lyldPlaces_eq]
  · rw [laneTrap_of_pass]
    · exact if_neg (Nat.not_lt.2 hfree)
    · intro l hl
      rw [checkGlobal_of_ok (hok l hl)]
      simp only
      split
      · rename_i hfind
        exact if_neg (by rw [hrecs _ (List.mem_of_find?_eq_some hfind)]; exact Bool.false_ne_true)
      · rfl
  · intro ad had
    obtain ⟨l, hl, -, hfind⟩ := find_of_mem_addrs had
    rw [hfind]
    simp only [checkGlobal_of_ok (hok l hl), lyldPlace, hfind, Option.getD_some]

/-! ## LYDROP, CINV, PREF -/

theorem lydrop_completes (h : Head) (a : VReg) :
    GroupCompletes (.lydrop h a) (memReq h .layout (one [a])) always
      fun x s => openLong (modTeam s x.t fun tm => x.act.foldl (fun tm l =>
        let hd := ((x.view s).r l a).toNat % 65536
        if (handleRec tm hd).isSome then
          { tm with binds := smod tm.binds (hd % 16) fun b => { b with bound := false, word := 0 } }
        else tm) tm) x h (groupOp x h.dc .plain) [] := by
  refine groupCompletes_of_body (fun _ => rfl) fun x s _ => ?_
  refine congrArg (fun f => Res.retire (openLong (modTeam s x.t f) x h (groupOp x h.dc .plain) [])) (funext fun tm => ?_)
  refine List.foldl_ext _ _ _ fun u l _ => ?_
  simp only
  cases handleRec u (((x.view s).r l a).toNat % 65536) <;> rfl

theorem cinv_completes (h : Head) (a : VReg) (imm : BitVec 16) (lvl : CinvLvl) :
    GroupCompletes (.cinv h a imm lvl) (memReq h .stores (two [a])) always
      fun x s => openLong (x.act.foldl (fun s' l =>
        if (gaddr (x.view s) l a imm).extractLsb' 52 12 ≠ 0 then s'
        else match translate s' x.tm.ctx (gaddr (x.view s) l a imm).toNat with
          | .error _ => s'
          | .ok loc => dropLine s' x.tm.core lvl loc) s) x h (groupOp x h.dc .plain) [] :=
  groupCompletes_of_body (fun _ => rfl) fun _ _ _ => rfl

theorem pref_completes (h : Head) (a : VReg) (imm : BitVec 16) (lvl : PrefLvl) :
    GroupCompletes (.pref h a imm lvl) (memReq h .loads (two [a])) always
      fun x s => openLong (x.act.foldl (fun s' l =>
        match checkGlobal s' x.tm.ctx (gaddr (x.view s) l a imm) 1 .ls false with
        | .error _ => s'
        | .ok loc =>
          let s' := xlatFill s' x.tm.core x.tm.ctx (gaddr (x.view s) l a imm).toNat loc
          if lvl = .l1 then fillLine s' x.tm.core .ls loc (lineOf loc.pa) false else s') s) x h (groupOp x h.dc .plain) [] := by
  refine groupCompletes_of_body (fun _ => rfl) fun x s _ => ?_
  refine congrArg (fun u => Res.retire (openLong u x h (groupOp x h.dc .plain) [])) (List.foldl_ext _ _ _ fun s' l _ => ?_)
  cases lvl <;> rfl

/-! ## TWALK -/

/-- Walks that all reach a leaf raise no trap. -/
theorem laneTrap_of_walked {rs : List (Nat × Except AFault (Nat × Nat))} (h : ∀ e ∈ rs, ∃ r, e.2 = .ok r) :
    laneTrap (walkFaults rs) = none := by
  rw [walkFaults, List.filterMap_eq_nil_iff.2 fun e he => (h e he).elim fun _ hr => by rw [hr]; rfl]
  rfl

theorem twalk_completes (h : Head) (d a b : VReg) (n : BitVec 4) :
    GroupCompletes (.twalk h d a b n) (memReq h .stores (two [d, a, b]))
      (fun x s => ∀ e ∈ (walked a b n x s).1, ∃ r, e.2 = .ok r)
      fun x s => openRead (walked a b n x s).2 x h ((walked a b n x s).1.map (walkOut d)) := by
  refine groupCompletes_of_body (fun _ => rfl) fun x s hok => ?_
  simp only
  rw [laneTrap_of_walked]
  · rfl
  · exact hok

/-- Settles O20: LDL is `ldlBody_eq`, STL is `stlCheck`, and every other word's body is its effect where its checks pass. -/
theorem layoutAndHintWords : Obligations.LayoutAndHintWords := by
  refine ⟨ldl_completes, ldl_waits, ldl_ends, ldl_traps, fun s x p l => ldlView_of_noView, ?_, stl_traps, stl_completes,
    lyld_completes, lydrop_completes, cinv_completes, pref_completes, twalk_completes⟩
  intro s x p l c k v hvid hfirst hc hview
  rw [ldlView_of_first hvid hfirst hc hview]
  refine ⟨fun hstate => by rw [hstate], fun hstate hfresh => by rw [hstate, hfresh]; rfl, fun hstate hstale => ?_⟩
  rw [hstate, hstale]
  exact ⟨fun hpol => by rw [hpol]; rfl, fun hpol => by rw [hpol]; rfl, fun hpol => by rw [hpol]; rfl⟩

end Sys2Proof.Laws
end

section
/-! SUPPORT. BUFS and BUFW (R178, R179, R226, R227), and the events that end their waits. -/

namespace Sys2Proof.Laws
open Sys2Proof.Machine

/-! ## Words that groups and the sequencer share -/

section Both
variable {i : Instr} {r : Req} {q : SReq} {body : Site → State → Res} {seqBody : SSite → State → SRes}
  (hexec : ∀ s, exec i s = .next (issueBoth r body q seqBody s))
include hexec

theorem groupCompletes_of_both {ok : Site → State → Prop} {eff : Site → State → State}
    (hbody : ∀ x s, ok x s → body x s = .retire (eff x s)) : GroupCompletes i r ok eff := by
  intro s x s1 hs hok
  rw [hexec, issueBoth_of_site hs, hbody x s1 hok]
  rfl

theorem groupTraps_of_both {ok : Site → State → Prop} {tr : Site → State → Trap}
    (hbody : ∀ x s, ok x s → body x s = .trap (tr x s)) : GroupTraps i r ok tr := by
  intro s x s1 hs hok
  rw [hexec, issueBoth_of_site hs, hbody x s1 hok]
  rfl

theorem seqCompletes_of_both {ok : SSite → State → Prop} {eff : SSite → State → State}
    (hbody : ∀ x s, ok x s → seqBody x s = .retire (eff x s)) : SeqCompletes i q ok eff := by
  intro s x hs hok
  rw [hexec, issueBoth_of_seq hs, hbody x s hok]
  rfl

end Both

/-- A release that no page refuses performs its parties' accesses. -/
theorem releaseBy_of_ok {s : State} {x : Site} (h : releaseOk x s) (sc : Scope) :
    releaseBy s x sc = .ok (performFor s x.t x.parties sc false) := by
  have htrap : revokedTrap x.g [] = none := by simp [revokedTrap]
  rw [releaseBy, show stuckStores s x.t x.tids false = [] from h, htrap]

/-- A sequencer's site is its team's. -/
theorem ssiteOf_team {s : State} {t : Nat} {x : SSite} (h : ssiteOf s t = some x) : x.t = t := by
  unfold ssiteOf at h
  split at h
  · cases h
  · split at h
    · cases h
    · cases h
      rfl

/-! ## BUFS -/

theorem bufs_completes (h : Head) (buf : BufN) (st : BufState) (sc : Scope) :
    GroupCompletes (.bufs h buf st sc) (syncReq h [] false)
      (fun x s => x.act ≠ [] ∧ bufsOk x.tm buf.toNat st = true ∧ releaseOk x s)
      fun x s =>
        let s := bufRequest (performFor s x.t x.parties sc false) x.t buf.toNat st sc (some x.tids)
        bufRun x.t buf.toNat (openLong s x h (groupOp x h.dc (.bufs buf.toNat)) []) := by
  refine groupCompletes_of_both (fun _ => rfl) fun x s ⟨hact, hlisted, hrel⟩ => ?_
  simp only [if_neg hact, hlisted, releaseBy_of_ok hrel, Bool.not_true, Bool.false_eq_true, if_false]

theorem bufs_traps (h : Head) (buf : BufN) (st : BufState) (sc : Scope) :
    GroupTraps (.bufs h buf st sc) (syncReq h [] false) (fun x _ => x.act ≠ [] ∧ bufsOk x.tm buf.toNat st = false)
      fun x _ => { cause := 0x16, lanes := x.act, addr := buf.zeroExtend 64, info := 0x00600000 } := by
  refine groupTraps_of_both (fun _ => rfl) fun x s ⟨hact, hlisted⟩ => ?_
  simp only [if_neg hact, hlisted, Bool.not_false, if_true]
  rfl

theorem bufs_seqCompletes (h : Head) (buf : BufN) (st : BufState) (sc : Scope) :
    SeqCompletes (.bufs h buf st sc) (syncSReq h 0) (fun x _ => bufsOk x.tm buf.toNat st = true)
      fun x s =>
        bufRun x.t buf.toNat (openSeq (bufRequest (releaseSeq s x sc) x.t buf.toNat st sc none) x.t h.dc.toNat (.bufs buf.toNat)) := by
  refine seqCompletes_of_both (fun _ => rfl) fun x s hlisted => ?_
  simp only [hlisted, Bool.not_true, Bool.false_eq_true, if_false]

theorem bufs_seqTraps {h : Head} {buf : BufN} {st : BufState} {sc : Scope} {s : State} {x : SSite}
    (hs : seqSite (syncSReq h 0) s = some x) (hlisted : bufsOk x.tm buf.toNat st = false) :
    exec (.bufs h buf st sc) s = .next (trapSeq s x.t 0x16 (hpcWord x.q.pc x.q.wix) (buf.zeroExtend 64) 0x00600000) := by
  change Host.Outcome.next (issueBoth _ _ _ _ s) = _
  rw [issueBoth_of_seq hs]
  simp only [hlisted, Bool.not_false, if_true]
  rfl

/-! ## BUFW -/

section Bufw
variable {h : Head} {buf : BufN} {st : BufState} {ph : Option Bool} {sc : Scope} {s : State}

/-- Issuing BUFW where its condition holds, or has been seen. -/
theorem bufwIssue_met {s1 : State} {x : Site} (hs : issueSite (syncReq h [] false) s = some (x, s1)) (hact : x.act ≠ [])
    (hmet : bufwMet x.tm buf st ph = true ∨ heldSeen x = true) :
    bufwIssue h buf st ph sc s = retired (acquireBy (clearSeen s1 x.t x.k) x sc) x := by
  have hcond : (heldSeen x || bufwMet x.tm buf st ph) = true := by
    rw [Bool.or_eq_true]
    exact hmet.symm
  rw [bufwIssue, issueBoth_of_site hs]
  simp only [if_neg hact, hcond, if_true]
  rfl

theorem bufwIssue_unmet {s1 : State} {x : Site} (hs : issueSite (syncReq h [] false) s = some (x, s1)) (hact : x.act ≠ [])
    (hseen : heldSeen x = false) (hunmet : bufwMet x.tm buf st ph = false) :
    bufwIssue h buf st ph sc s = modTeam s1 x.t (waitTeam x.lr s1.cycle x.k) := by
  rw [bufwIssue, issueBoth_of_site hs]
  simp only [if_neg hact, hseen, hunmet, Bool.or_self, Bool.false_eq_true, if_false]
  rfl

theorem bufwIssue_seqMet {x : SSite} (hs : seqSite (syncSReq h 0) s = some x)
    (hmet : bufwMet x.tm buf st ph = true ∨ x.q.seen = true) :
    bufwIssue h buf st ph sc s = seqRetired (acquireSeq (clearSeenSeq s x.t) x sc) x := by
  have hcond : (x.q.seen || bufwMet x.tm buf st ph) = true := by
    rw [Bool.or_eq_true]
    exact hmet.symm
  rw [bufwIssue, issueBoth_of_seq hs]
  simp only [hcond, if_true]
  rfl

theorem bufwIssue_seqUnmet {x : SSite} (hs : seqSite (syncSReq h 0) s = some x) (hseen : x.q.seen = false)
    (hunmet : bufwMet x.tm buf st ph = false) :
    bufwIssue h buf st ph sc s = modSeq s x.t fun q => { q with status := .waiting, waitzDone := true } := by
  rw [bufwIssue, issueBoth_of_seq hs]
  simp only [hseen, hunmet, Bool.or_self, Bool.false_eq_true, if_false]
  rfl

/-- BUFFER_WAIT_RELEASE tries again the BUFW of a group that does not wait for a turn. -/
theorem bufw_ends {t k : Nat} : WaitEnds (.bufw h buf st ph sc) (.bufferWaitRelease (.group t k)) (syncReq h [] false) t k
    (fun x _ => x.act ≠ [] ∧ (bufwMet x.tm buf st ph = true ∨ heldSeen x = true))
    fun x s => acquireBy (clearSeen s t k) x sc := by
  rintro s x s1 ⟨hinstr, hturn, hstands⟩ hs ⟨hact, hmet⟩
  have hissuer : some (Issuer.group t k) = some (.group x.t x.k) := issuer_of_site hs
  obtain ⟨rfl, rfl⟩ : t = x.t ∧ k = x.k := by simpa using hissuer
  have hretry : bufwRetry (.group x.t x.k) s = reissue (.group x.t x.k) (bufwIssue h buf st ph sc) s := by
    rw [bufwRetry, hinstr]
  change Host.Outcome.next (if turnsOnly s (.group x.t x.k) then s else bufwRetry (.group x.t x.k) s) = _
  rw [hturn, if_neg Bool.false_ne_true, hretry, reissue_group ⟨hinstr, hturn, hstands⟩ hs (bufwIssue_met hs hact hmet)]

theorem bufw_seqEnds {t : Nat} : SeqWaitEnds (.bufw h buf st ph sc) (.bufferWaitRelease (.seq t)) (syncSReq h 0) t
    (fun x _ => bufwMet x.tm buf st ph = true ∨ x.q.seen = true) fun x s => acquireSeq (clearSeenSeq s t) x sc := by
  rintro s x ⟨hinstr, hstands⟩ hs hmet
  obtain ⟨hsite, -⟩ := canIssue_of_seq hs rfl
  obtain rfl := ssiteOf_team hsite
  have hretry : bufwRetry (.seq x.t) s = reissue (.seq x.t) (bufwIssue h buf st ph sc) s := by
    rw [bufwRetry, hinstr]
  change Host.Outcome.next (bufwRetry (.seq x.t) s) = _
  rw [hretry, reissue_seq ⟨hinstr, hstands⟩ hs (bufwIssue_seqMet hs hmet)]

end Bufw

/-! ## BUFFER_TRANSITION -/

theorem bufferTransition_runs {s : State} {team : Nat} {tm : Team} (ht : sget s.teams team = some tm) (buf : Nat) :
    exec (.bufferTransition team buf) s = .next (bufSteps team buf (bufOf tm buf).reqs.length s) := by
  change Host.Outcome.next (bufRun team buf s) = _
  rw [bufRun, ht, Option.map_some, Option.getD_some]

/-- The requests whose waits are over take effect, in order, up to one that still waits. -/
theorem bufferTransition_upTo {s : State} {team buf : Nat} {tm : Team} {done rest : List BufReq} (ht : sget s.teams team = some tm)
    (hreqs : (bufOf tm buf).reqs = done ++ rest) (hdone : done ≠ []) (hover : ∀ r ∈ done, ∀ n ∈ r.waits, sget s.ops n = none)
    (hrest : ∀ r ∈ rest.head?, ∃ n ∈ r.waits,
      ((sget s.ops n).isSome ∧ Config.freeBit s.freeCtr (2 ^ 50 + n) = false) ∧ ∀ d ∈ done, d.op ≠ n) :
    ∃ t tm', exec (.bufferTransition team buf) s = .next t ∧ sget t.teams team = some tm' ∧
      some (bufOf tm' buf).state = done.getLast?.map (·.target) ∧ (bufOf tm' buf).reqs = rest ∧
      (∀ r ∈ done, sget t.ops r.op = none) ∧ ∀ n, (∀ r ∈ done, r.op ≠ n) → (sget t.ops n).isSome = (sget s.ops n).isSome := by
  obtain ⟨tm', ht', hstate, hleft, hops⟩ :=
    bufSteps_spec (bufOf tm buf).reqs.length ht hreqs (by rw [hreqs, List.length_append]) hover hrest
  refine ⟨_, tm', bufferTransition_runs ht buf, ht', ?_, hleft, fun r hr => ?_, fun n hn => ?_⟩
  · rw [hstate, List.getLast?_eq_some_getLast hdone]
    rfl
  · have hgone : decide (∀ d ∈ done, d.op ≠ r.op) = false := decide_eq_false fun hne => hne r hr rfl
    have hnone := hops r.op
    rw [hgone, Bool.false_and] at hnone
    exact Option.not_isSome_iff_eq_none.1 (Bool.eq_false_iff.1 hnone)
  · rw [hops n, decide_eq_true hn, Bool.true_and]

/-- A lone request whose waits are over. -/
theorem bufferTransition_lone {s : State} {team buf : Nat} {tm : Team} {r : BufReq} (ht : sget s.teams team = some tm)
    (hreqs : (bufOf tm buf).reqs = [r]) (hover : ∀ n ∈ r.waits, waitOver s n = true) :
    exec (.bufferTransition team buf) s =
      .next (bufEffect team buf tm.core r (modTeam s team fun tm => modBuf tm buf fun b => { b with reqs := [] })) := by
  have hwaits : (r.waits.any fun n => !waitOver s n) = false := List.any_eq_false.2 fun n hn => by simp [hover n hn]
  rw [bufferTransition_runs ht buf, hreqs]
  simp only [List.length_singleton, bufSteps, bufAdvance, ht, hreqs, hwaits, Bool.false_eq_true, if_false]

/-- The oldest request holds the later ones back. -/
theorem bufferTransition_held {s : State} {team buf : Nat} {tm : Team} {r : BufReq} {rest : List BufReq}
    (ht : sget s.teams team = some tm) (hreqs : (bufOf tm buf).reqs = r :: rest) (hwaits : ∃ n ∈ r.waits, waitOver s n = false) :
    exec (.bufferTransition team buf) s = .next s := by
  have hany : (r.waits.any fun n => !waitOver s n) = true := by
    obtain ⟨n, hn, hwait⟩ := hwaits
    exact List.any_eq_true.2 ⟨n, hn, by rw [hwait]; rfl⟩
  rw [bufferTransition_runs ht buf, hreqs]
  simp only [List.length_cons, bufSteps, bufAdvance, ht, hreqs, hany, if_true]

/-- An open operation that is no matrix instruction is waited for to its end. -/
theorem waitOver_of_open {s : State} {n : Nat} {o : Op} (ho : sget s.ops n = some o)
    (hkind : ∀ b keys l st e, o.kind ≠ .matrix b keys l st e) : waitOver s n = false := by
  rw [waitOver, ho]
  cases hk : o.kind with
  | matrix b keys l st e => exact absurd hk (hkind b keys l st e)
  | _ => simp only [hk]

/-- A buffer that takes a state: the phase toggles from DRAINING to EMPTY (R178). -/
def bufMoved (st : BufState) (b : Buf) : Buf :=
  { b with state := st, phase := if b.state = .draining && st = .empty then !b.phase else b.phase }

theorem bufTo_eq (s : State) (team buf : Nat) (st : BufState) :
    bufTo s team buf st = noteBuf (modTeam s team fun tm => modBuf tm buf (bufMoved st)) team buf := rfl

/-- A transition moves its buffer. -/
theorem bufTo_moves {s : State} {team : Nat} {tm : Team} (ht : sget s.teams team = some tm) (buf : Nat) (st : BufState) :
    ∃ tm', sget (bufTo s team buf st).teams team = some tm' ∧ bufOf tm' buf = bufMoved st (bufOf tm buf) := by
  have hmod : sget (modTeam s team fun tm => modBuf tm buf (bufMoved st)).teams team = some (modBuf tm buf (bufMoved st)) := by
    simp only [modTeam, sget_smod_eq, ht, Option.map_some]
  obtain ⟨tm', ht', hhull⟩ := team_of_hull (hull_noteBuf _ team buf) hmod
  have hbufs : tm'.bufs = (modBuf tm buf (bufMoved st)).bufs :=
    (congrArg Team.bufs hhull :)
  exact ⟨tm', bufTo_eq s team buf st ▸ ht', by rw [bufOf, hbufs, modBuf, sgetD, sget_sset_eq, Option.getD_some]⟩

theorem bufTo_spec {s : State} {team : Nat} {tm : Team} (ht : sget s.teams team = some tm) (buf : Nat) (st : BufState) :
    ∃ tm', sget (bufTo s team buf st).teams team = some tm' ∧ (bufOf tm' buf).state = st ∧
      (bufOf tm' buf).reqs = (bufOf tm buf).reqs ∧ (bufOf tm' buf).phase =
        (if (bufOf tm buf).state = .draining ∧ st = .empty then !(bufOf tm buf).phase else (bufOf tm buf).phase) := by
  obtain ⟨tm', ht', hmoved⟩ := bufTo_moves ht buf st
  refine ⟨tm', ht', ?_⟩
  rw [hmoved]
  simp [bufMoved]

/-- Settles O25: BUFS and BUFW by their bodies, and BUFFER_TRANSITION by `bufSteps`. -/
theorem buffersMove : Obligations.BuffersMove :=
  ⟨bufs_completes, bufs_traps, bufs_seqCompletes, fun _ _ _ _ _ _ => bufs_seqTraps,
   fun _ _ _ _ _ _ _ _ hs ⟨hact, hmet⟩ => congrArg Host.Outcome.next (bufwIssue_met hs hact hmet),
   fun _ _ _ _ _ _ _ _ hs ⟨hact, hseen, hunmet⟩ => congrArg Host.Outcome.next (bufwIssue_unmet hs hact hseen hunmet),
   fun _ _ _ _ _ _ _ hs hmet => congrArg Host.Outcome.next (bufwIssue_seqMet hs hmet),
   fun _ _ _ _ _ _ _ hs ⟨hseen, hunmet⟩ => congrArg Host.Outcome.next (bufwIssue_seqUnmet hs hseen hunmet),
   fun _ _ _ _ _ _ => bufferTransition_upTo, fun _ _ _ _ _ => bufferTransition_lone, fun _ _ _ _ _ _ => bufferTransition_held,
   fun _ _ => ⟨waitOver_none, fun _ => waitOver_of_open⟩, fun _ _ buf st _ ht => bufTo_spec ht buf st,
   fun _ _ _ _ _ _ _ => bufw_ends, fun _ _ _ _ _ _ => bufw_seqEnds⟩

end Sys2Proof.Laws
end

section
/-! SUPPORT. Firmware (R383, R384), core resets and the near array (R174), and tracing (R360, R361). -/

namespace Sys2Proof.Laws
open Sys2Proof.Machine

/-! ## Firmware -/

/-- A mask from which bits have been taken. -/
theorem getLsbD_foldl_clear (l : List Nat) (m : BitVec 36) {c : Nat} (hc : c < 36) :
    (l.foldl (fun m c => m &&& ~~~(1#36 <<< c)) m).getLsbD c = (m.getLsbD c && decide (c ∉ l)) := by
  induction l generalizing m with
  | nil => simp
  | cons a t ih =>
    have hbit : (1#36 <<< a).getLsbD c = decide (c = a) := by
      rw [← BitVec.twoPow_eq, BitVec.getLsbD_twoPow]
      by_cases h : c = a
      · subst h
        simp [hc]
      · simp [h, Ne.symm h]
    rw [List.foldl_cons, ih, BitVec.getLsbD_and, BitVec.getLsbD_not, hbit]
    simp [hc, Bool.and_assoc]

/-- No logical cluster of a fenced die is present. -/
theorem presentMask_of_fenced {s : State} {c : Nat} (hc : c < 36) (h : (getDie s (clusterDie c)).fenced = true) :
    (presentMask s).getLsbD c = false := by
  have hmem : c ∈ (List.range 36).filter fun c => (getDie s (clusterDie c)).fenced :=
    List.mem_filter.2 ⟨List.mem_range.2 hc, h⟩
  rw [presentMask, getLsbD_foldl_clear _ _ hc, decide_eq_false (not_not.2 hmem), Bool.and_false]

/-- The baseline of the identity record is 4.2 or later (R1). -/
theorem bringUpIdentity_fwbase (s : State) : 0x0402 ≤ (bringUpIdentity s).fwbase.toNat := by
  unfold bringUpIdentity
  simp only
  split
  · decide
  · omega

/-- An image that verifies is measured; the last one ends the bring-up. -/
theorem firmwareVerify_of_verified {image sig : List Byte} (hlen : sig.length = 29792) (hsig : Config.slhVerify image sig = true)
    (s : State) :
    exec (.firmwareVerify image sig) s =
      let u := { s with measures := s.measures ++ [sha256 image] }
      .next (if s.bringUp ∧ max 1 Config.fwImages ≤ s.measures.length + 1
        then { u with bringUp := false, identity := bringUpIdentity u, eccost := Config.eccost } else u) := by
  change execFirmwareVerify image sig s = _
  simp [execFirmwareVerify, sigBytes, hlen, hsig]

theorem firmwareVerify_of_unverified {image sig : List Byte} (h : sig.length ≠ 29792 ∨ Config.slhVerify image sig = false)
    (s : State) : exec (.firmwareVerify image sig) s = .next s :=
  congrArg Host.Outcome.next (if_pos (Bool.or_eq_true _ _ ▸ h.imp decide_eq_true fun hsig => by rw [hsig]; rfl))

/-! ## Cores -/

theorem getCore_modCore (s : State) (core : Nat) (f : Core → Core) : getCore (modCore s core f) core = f (getCore s core) := by
  simp only [getCore, modCore, sgetD, sget_sset_eq, Option.getD_some]

/-- CORE_RESET of an empty core. -/
theorem coreReset_spec {s : State} {core : Nat} (h : teamsOn s core = []) :
    ∃ u, exec (.coreReset core) s = .next u ∧ getCore u core = { coreDef with cycBase := s.cycle } ∧
      (∀ n, n ≠ core → getCore u n = getCore s n) ∧ (∀ e ∈ u.l1, e.1 % 256 ≠ core) ∧ sget u.tlb core = none ∧ u.mem = s.mem := by
  refine ⟨_, congrArg Host.Outcome.next (if_pos (by rw [h]; rfl)), ?_, fun n hn => ?_, fun e he => ?_, ?_, rfl⟩
  · simp only [getCore, sgetD, sget_sset_eq, Option.getD_some]
  · simp only [getCore, sgetD, sget_sset_ne _ _ (Ne.symm hn)]
  · simpa using (List.mem_filter.1 he).2
  · exact sget_serase_eq ..

/-- The boundary moves by at most 64 KiB at an interval's end. -/
theorem nearArrayRebalance_spec {s : State} {core : Nat}
    (h : (getCore s core).rebal < (s.cycle - (getCore s core).cycBase) / 65536) :
    ∃ u, exec (.nearArrayRebalance core) s = .next u ∧ (getCore u core).rebal = (getCore s core).rebal + 1 ∧
      (getCore u core).l1 ≤ (getCore s core).l1 + 64 ∧ (getCore s core).l1 ≤ (getCore u core).l1 + 64 := by
  refine ⟨_, congrArg Host.Outcome.next (if_neg (Nat.not_le.2 h)), ?_⟩
  simp only [getCore_modCore]
  refine ⟨?_, ?_⟩
  · split <;> rfl
  · split
    · omega
    · split <;> omega

/-! ## Tracing -/

/-- SAMPLE of a partition that is due. -/
theorem sample_of_due {s : State} {core part : Nat} (hsample : (getCore s core).trace.sample = true)
    (hdue : (sgetD (getCore s core).sel part default).sample / 16
      < (s.cycle - (getCore s core).cycBase) / 2 ^ (getCore s core).trace.k) :
    let sel := sgetD (getCore s core).sel part default
    let s1 := modCore s core fun c => { c with sel := sset c.sel part { sel with
      sample := 16 * ((s.cycle - (getCore s core).cycBase) / 2 ^ (getCore s core).trace.k) + (sel.sample % 16 + 1) % 16 } }
    exec (.sample core part) s = .next (match sampleOf s1 core part (sel.sample % 16) with
      | some b => tracePut s1 core b
      | none => s1) := by
  intro sel s1
  refine congrArg Host.Outcome.next ((if_neg ?_).trans ?_)
  · simp only [hsample, Bool.not_true, Bool.false_or, decide_eq_true_eq]
    exact Nat.not_le.2 hdue
  · change (match sampleOf s1 core part (sel.sample % 16) with
      | none => s1
      | some b => tracePut s1 core b) = _
    cases sampleOf s1 core part (sel.sample % 16) <;> rfl

section Samples
variable {s : State} {core part phys : Nat}

theorem sampleOf_group {tm : Team} {g : Group} (h : physGroup s core part phys = some (tm, g)) :
    sampleOf s core part phys = some (.sample (timeOf s) (16 * part + phys) tm.tidx
      (if g.clause.isNone then g.pc else g.pc + 8 * (g.wix + 1)) (slotLeaf s core part) g.clause.isNone false) := by
  simp only [sampleOf, h]
  cases g.clause <;> rfl

theorem sampleOf_exited {pc : Nat} (h : physGroup s core part phys = none)
    (hexit : sget (getCore s core).lastExit (16 * part + phys) = some pc) :
    sampleOf s core part phys = some (.sample (timeOf s) (16 * part + phys) (((physTeam s core part phys).map (·.tidx)).getD 0) pc
      (slotLeaf s core part) false true) := by
  simp only [sampleOf, h, hexit]

theorem sampleOf_empty (h : physGroup s core part phys = none)
    (hexit : sget (getCore s core).lastExit (16 * part + phys) = none) : sampleOf s core part phys = none := by
  simp only [sampleOf, h, hexit]

end Samples

/-- A SYNC is due. -/
theorem traceSync_of_due {s : State} {core : Nat}
    (htraces : (getCore s core).trace.on = true ∨ (getCore s core).trace.sample = true)
    (hdue : (getCore s core).trace.synced = false ∨ 4096 ≤ (getCore s core).trace.since) :
    exec (.traceSync core) s = .next (tracePut s core
      (.sync (timeOf s) (syncGroups s core) ((teamsOn s core).map fun e => (e.2.tidx, e.2.front)))) := by
  have hon : ((getCore s core).trace.on || (getCore s core).trace.sample) = true := Bool.or_eq_true _ _ ▸ htraces
  have hlate : ((getCore s core).trace.synced && decide ((getCore s core).trace.since < 4096)) = false :=
    Bool.and_eq_false_iff.2 (hdue.imp_right fun h => decide_eq_false (Nat.not_lt.2 h))
  refine congrArg Host.Outcome.next (if_neg ?_)
  rw [hon, hlate]
  exact Bool.false_ne_true

theorem traceSync_of_idle {s : State} {core : Nat}
    (h : ((getCore s core).trace.on = false ∧ (getCore s core).trace.sample = false)
      ∨ ((getCore s core).trace.synced = true ∧ (getCore s core).trace.since < 4096)) :
    exec (.traceSync core) s = .next s := by
  refine congrArg Host.Outcome.next (if_pos ?_)
  simpa using h

/-- Settles O60: each event is its function, whose cases the lemmas above give. -/
theorem coresAndFirmware : Obligations.CoresAndFirmware := by
  refine ⟨fun s image sig hlen hsig => ⟨fun hup hlast => ?_, fun hmore => ?_⟩, fun s _ _ h => firmwareVerify_of_unverified h s,
    fun _ _ => coreReset_spec, fun _ _ => nearArrayRebalance_spec, fun _ _ _ => sample_of_due,
    fun _ _ _ _ _ _ => sampleOf_group, fun _ _ _ _ _ h hexit => ⟨_, sampleOf_exited h hexit⟩, fun _ _ _ _ => sampleOf_empty,
    fun _ _ => ⟨traceSync_of_due, traceSync_of_idle⟩⟩
  · refine ⟨_, (firmwareVerify_of_verified hlen hsig s).trans (congrArg _ (if_pos ⟨hup, hlast⟩)), rfl, rfl, rfl,
      bringUpIdentity_fwbase _, rfl, rfl, fun c hc hfenced => presentMask_of_fenced hc hfenced⟩
  · refine (firmwareVerify_of_verified hlen hsig s).trans (congrArg _ (if_neg ?_))
    rintro ⟨hup, hlast⟩
    obtain hdown | hfew := hmore
    · simp [hup] at hdown
    · omega

end Sys2Proof.Laws
end

section
/-! SUPPORT. Atomics (R214, R215) and fences (R216, R217). -/

namespace Sys2Proof.Laws
open Sys2Proof.Machine

/-! ## Atomics -/

theorem atomLanes_congr {f g : State → Nat → Nat × State} :
    ∀ {lanes : List Nat}, (∀ s, ∀ l ∈ lanes, f s l = g s l) → ∀ s, atomLanes f lanes s = atomLanes g lanes s
  | [], _, _ => rfl
  | l :: lanes, h, s => by
    have hrest := atomLanes_congr (lanes := lanes) fun s' m hm => h s' m (List.mem_cons_of_mem l hm)
    simp only [atomLanes, h s l List.mem_cons_self, hrest]

/-- One lane's read-modify-write at the place that its checks in `s` gave, in a later state `s'`. -/
def atomLane (os : AtomOS) (n : Nat) (a : VReg) (imm : BitVec 16) (f : LView → Nat → Nat → Option Nat) (x : Site) (s s' : State)
    (l : Nat) : Nat × State :=
  let ea := atomAddr os a imm (x.view s) l
  let loc := locAt s x.tm.ctx ea n .ls true
  if osSp os then atomSp s' (x.who l) x.t ea.toNat n (f (x.view s) l)
  else atomicAt (xlatFill s' x.tm.core x.tm.ctx ea.toNat loc) (x.who l) ea.toNat loc n (f (x.view s) l)

section Checked
variable {os : AtomOS} {n : Nat} {a : VReg} {imm : BitVec 16} {x : Site} {s : State} (hok : atomOk os n a imm x s)
include hok

/-- No lane of a checked atomic faults. -/
theorem atomOk_pass {l : Nat} (hl : l ∈ x.act) :
    (if osSp os then checkSp x.tm (atomAddr os a imm (x.view s) l).toNat n .store .spTeam
      else failOf (checkGlobal s x.tm.ctx (atomAddr os a imm (x.view s) l) n .ls true)) = none := by
  obtain ⟨hlanes, -⟩ := hok
  have hlane := hlanes l hl
  by_cases hsp : osSp os = true
  · rw [if_pos hsp] at hlane ⊢
    exact hlane
  · rw [if_neg hsp] at hlane ⊢
    exact failOf_of_ok hlane

/-- The release of a checked atomic raises no trap. -/
theorem atomOk_release : (if osRel os then releaseBy s x (osScope os) else .ok s) =
    .ok (if osRel os then performFor s x.t x.parties (osScope os) false else s) := by
  obtain ⟨-, hrel⟩ := hok
  split
  · exact releaseBy_of_ok (hrel ‹_›) _
  · rfl

/-- The body of a checked atomic runs the lanes between its release and its acquire, and marks the operation that it opens. -/
theorem atomBody_of_ok (f : LView → Nat → Nat → Option Nat) (done : Site → State → List (Nat × Nat) → State) :
    atomBody os n (atomAddr os a imm) f done x s =
      .retire (markAtom (done x (atomOrder os x (atomRun os n a imm f x s).2) (atomRun os n a imm f x s).1)
        (atomOrder os x (atomRun os n a imm f x s).2).nextOp) := by
  simp only [atomBody, laneTrap_of_pass fun l hl => atomOk_pass hok hl, atomOk_release hok]
  rw [atomLanes_congr (g := atomLane os n a imm f x s)]
  · simp only [atomOrder, Bool.and_eq_true, decide_eq_true_eq]
    rfl
  · intro s' l hl
    obtain ⟨hlanes, -⟩ := hok
    have hlane := hlanes l hl
    by_cases hsp : osSp os = true
    · simp only [atomLane, if_pos hsp]
    · rw [if_neg hsp] at hlane
      simp only [atomLane, if_neg hsp, checkGlobal_of_ok hlane]

end Checked

theorem atom_completes (h : Head) (d a : VReg) (imm : BitVec 16) (os : AtomOS) (op : AtomOp) :
    GroupCompletes (.atom h d a imm os op) (atomReq h (one [d] ++ atomRegs os a)) (atomOk os 4 a imm)
      fun x s => atomDone h os (fun e => out1 e.1 d (BitVec.ofNat 32 e.2)) x
        (atomRun os 4 a imm (fun v l o => some (atomNew op (BitVec.ofNat 32 o) (v.r l d)).toNat) x s) :=
  groupCompletes_of_body (fun _ => rfl) fun _ _ hok => atomBody_of_ok hok _ _

theorem ared_completes (h : Head) (d a : VReg) (imm : BitVec 16) (os : AtomOS) (op : AtomOp) :
    GroupCompletes (.ared h d a imm os op) (atomReq h (one [d] ++ atomRegs os a)) (atomOk os 4 a imm)
      fun x s => atomQuiet h os x
        (atomRun os 4 a imm (fun v l o => some (atomNew op (BitVec.ofNat 32 o) (v.r l d)).toNat) x s) :=
  groupCompletes_of_body (fun _ => rfl) fun _ _ hok => atomBody_of_ok hok _ _

theorem acas_completes (h : Head) (d a b c : VReg) (os : AtomOS) :
    GroupCompletes (.acas h d a b c os false) (atomReq h (one [d, b, c] ++ atomRegs os a)) (atomOk os 4 a 0)
      fun x s => atomDone h os (fun e => out1 e.1 d (BitVec.ofNat 32 e.2)) x
        (atomRun os 4 a 0 (fun v l o => if o = (v.r l b).toNat then some (v.r l c).toNat else none) x s) :=
  groupCompletes_of_body (fun _ => rfl) fun _ _ hok => atomBody_of_ok hok _ _

theorem acas64_completes (h : Head) (d a b c : VReg) (os : AtomOS) :
    GroupCompletes (.acas h d a b c os true) (atomReq h (two [d, b, c] ++ atomRegs os a)) (atomOk os 8 a 0)
      fun x s => atomDone h os (fun e => out2 e.1 d (BitVec.ofNat 64 e.2)) x
        (atomRun os 8 a 0 (fun v l o => if o = (v.r64 l b).toNat then some (v.r64 l c).toNat else none) x s) :=
  groupCompletes_of_body (fun _ => rfl) fun _ _ hok => atomBody_of_ok hok _ _

/-! ## Fences -/

theorem fenceRel_iff {kind : FenceKind} : fenceRel kind = true ↔ kind ≠ .acq := by cases kind <;> decide

theorem fenceAcq_iff {kind : FenceKind} : fenceAcq kind = true ↔ kind ≠ .rel := by cases kind <;> decide

section Fence
variable {h : Head} {kind : FenceKind} {uo : Bool} {sc : Scope} {x : Site} {s : State}

/-- A fence that finds no refused store to release waits for its threads' reads, then performs, forks and acquires. -/
theorem fenceBody_of_active (hact : x.act ≠ []) (hrel : kind ≠ .acq → stuckStores s x.t x.tids uo = []) :
    fenceBody kind uo sc x s =
      if readOpen s x.t x.tids uo then .wait s
      else
        let s := if kind = .acq then s else releaseFork (performFor s x.t x.parties sc uo) x.t x.tids sc
        .retire (if kind = .rel then s else acquireBy s x sc) := by
  have htrap : (if fenceRel kind then revokedTrap x.g (stuckStores s x.t x.tids uo) else none) = none := by
    split
    · simp [hrel (fenceRel_iff.1 ‹_›), revokedTrap]
    · rfl
  rw [fenceBody, if_neg hact, htrap]
  simp only [fenceRel_iff, fenceAcq_iff, ne_eq, ite_not]

theorem fence_completes : GroupCompletes (.fence h kind uo sc) (waitReq h .order)
    (fun x s => x.act ≠ [] ∧ (kind ≠ .acq → stuckStores s x.t x.tids uo = []) ∧ readOpen s x.t x.tids uo = false)
    fun x s =>
      let s := if kind = .acq then s else releaseFork (performFor s x.t x.parties sc uo) x.t x.tids sc
      if kind = .rel then s else acquireBy s x sc := by
  refine groupCompletes_of_body (fun _ => rfl) fun x s ⟨hact, hrel, hreads⟩ => ?_
  rw [fenceBody_of_active hact hrel, hreads]
  rfl

theorem fence_waits : GroupWaits (.fence h kind uo sc) (waitReq h .order)
    (fun x s => x.act ≠ [] ∧ (kind ≠ .acq → stuckStores s x.t x.tids uo = []) ∧ readOpen s x.t x.tids uo = true) fun _ s => s := by
  refine groupWaits_of_body (fun _ => rfl) fun x s ⟨hact, hrel, hreads⟩ => ?_
  rw [fenceBody_of_active hact hrel, hreads]
  rfl

theorem fence_idle : GroupCompletes (.fence h kind uo sc) (waitReq h .order) (fun x _ => x.act = []) fun _ s => s :=
  groupCompletes_of_body (fun _ => rfl) fun _ _ hact => if_pos hact

end Fence

section Pfence
variable {h : Head} {mask : BitVec 6}

theorem pfence_completes : GroupCompletes (.pfence h mask) (waitReq h .order)
    (fun x s => x.act ≠ [] ∧ pathOpen s x.t x.tids ((List.range 6).filter fun i => mask.getLsbD i) = false)
    fun x s =>
      let paths := (List.range 6).filter fun i => mask.getLsbD i
      pathDrop (drainWhere s (pfenceStore x.parties paths)) x.tm.core (paths.filter fun i => i ≠ 0) :=
  groupCompletes_of_body (fun _ => rfl) fun _ _ ⟨hact, hopen⟩ =>
    (if_neg hact).trans (if_neg (Bool.eq_false_iff.1 hopen))

theorem pfence_waits : GroupWaits (.pfence h mask) (waitReq h .order)
    (fun x s => x.act ≠ [] ∧ pathOpen s x.t x.tids ((List.range 6).filter fun i => mask.getLsbD i) = true) fun _ s => s :=
  groupWaits_of_body (fun _ => rfl) fun _ _ ⟨hact, hopen⟩ => (if_neg hact).trans (if_pos hopen)

theorem pfence_idle : GroupCompletes (.pfence h mask) (waitReq h .order) (fun x _ => x.act = []) fun _ s => s :=
  groupCompletes_of_body (fun _ => rfl) fun _ _ hact => if_pos hact

end Pfence

/-- Settles O23: an atomic's body is `atomBody_of_ok`, and a fence's is decided by its threads' open reads. -/
theorem atomicsAndFences : Obligations.AtomicsAndFences :=
  ⟨⟨atom_completes, ared_completes, acas_completes, acas64_completes⟩,
   fun _ _ _ _ => fence_completes, fun _ _ _ _ => fence_waits, fun _ _ => pfence_completes, fun _ _ => pfence_waits,
   fun _ _ _ _ => fence_idle, fun _ _ => pfence_idle⟩

end Sys2Proof.Laws
end

section
/-! SUPPORT. Semaphores (R218 to R223): the words that post, the words that wait, and the event that ends their waits. -/

namespace Sys2Proof.Laws
open Sys2Proof.Machine

/-! ## Posts -/

section Posts
variable {h : Head} {x : Site} {s : State} {event : Site → State → State} {outs : Site → List LaneOut}

theorem postGroup_release (hok : postOk x s) (sc : Scope) :
    postGroup h (some sc) event outs x s = .retire (posted h sc event outs x s) := by
  obtain ⟨hact, hrel⟩ := hok
  simp only [postGroup, if_neg hact, releaseBy_of_ok hrel, posted]

theorem postGroup_noRelease (hact : x.act ≠ []) :
    postGroup h none event outs x s = .retire (openLong (event x s) x h (groupOp x h.dc .plain) (outs x)) := by
  simp only [postGroup, if_neg hact]

end Posts

theorem semp_completes (h : Head) (sem : SemN) (n : BitVec 16) (sc : Scope) :
    GroupCompletes (.semp h sem n sc) (syncReq h [] false) postOk
      (posted h sc (fun x s => setSem s x.t sem (semPost n.toNat)) fun _ => []) :=
  groupCompletes_of_both (fun _ => rfl) fun _ _ hok => postGroup_release hok sc

theorem semp_seqCompletes (h : Head) (sem : SemN) (n : BitVec 16) (sc : Scope) :
    SeqCompletes (.semp h sem n sc) (syncSReq h 0) alwaysSeq
      (postedSeq h sc fun x s => setSem s x.t sem (semPost n.toNat)) :=
  seqCompletes_of_both (fun _ => rfl) fun _ _ _ => rfl

theorem semx_completes (h : Head) (sem : SemN) (n : BitVec 16) :
    GroupCompletes (.semx h sem n) (syncReq h [] false) (fun x _ => x.act ≠ [])
      fun x s => openLong (setSem s x.t sem (semPost n.toNat)) x h (groupOp x h.dc .plain) [] :=
  groupCompletes_of_both (fun _ => rfl) fun _ _ hact => postGroup_noRelease hact

theorem semx_seqCompletes (h : Head) (sem : SemN) (n : BitVec 16) :
    SeqCompletes (.semx h sem n) (syncSReq h 0) alwaysSeq
      fun x s => openSeq (setSem s x.t sem (semPost n.toNat)) x.t h.dc.toNat .plain :=
  seqCompletes_of_both (fun _ => rfl) fun _ _ _ => rfl

theorem arrive_completes (h : Head) (d : VReg) (sem : SemN) (n : BitVec 16) (sc : Scope) (rp : Bool) :
    GroupCompletes (.arrive h d sem n sc rp) (syncReq h (if rp then one [d] else []) rp) postOk
      (posted h sc (fun x s => notePhase (setSem s x.t sem (semArrive n.toNat)) x.t sem) fun x =>
        if rp then x.act.map fun l => out1 l d (BitVec.ofNat 32 (semOf x.tm sem).phase.toNat) else []) :=
  groupCompletes_of_both (fun _ => rfl) fun _ _ hok => postGroup_release hok sc

theorem arrive_seqCompletes (h : Head) (d : VReg) (sem : SemN) (n : BitVec 16) (sc : Scope) (rp : Bool) :
    SeqCompletes (.arrive h d sem n sc rp) (syncSReq h d) alwaysSeq
      (postedSeq h sc fun x s =>
        let s := notePhase (setSem s x.t sem (semArrive n.toNat)) x.t sem
        if rp then gWrite s x.t d.toNat (BitVec.ofNat 64 (semOf x.tm sem).phase.toNat) else s) :=
  seqCompletes_of_both (fun _ => rfl) fun _ _ _ => rfl

/-! ## SEMW -/

section Semw
variable {h : Head} {sem : SemN} {n : BitVec 16} {sc : Scope} {s : State}

/-- Issuing SEMW at its turn in the semaphore's order, with the count reached. -/
theorem semwIssue_ready {s1 : State} {x : Site} (hs : issueSite (syncReq h [] false) s = some (x, s1)) (hact : x.act ≠ [])
    (hready : semwReady (semOf x.tm sem) (some x.k) n.toNat = true) :
    semwIssue h sem n sc s = retired (acquireBy (setSem s1 x.t sem (semTake (some x.k) n.toNat)) x sc) x := by
  rw [semwIssue, issueBoth_of_site hs]
  simp only [if_neg hact, hready, if_true]
  rfl

theorem semwIssue_unready {s1 : State} {x : Site} (hs : issueSite (syncReq h [] false) s = some (x, s1)) (hact : x.act ≠ [])
    (hunready : semwReady (semOf x.tm sem) (some x.k) n.toNat = false) :
    semwIssue h sem n sc s = modTeam (setSem s1 x.t sem (semQueue (some x.k))) x.t (waitTeam x.lr s1.cycle x.k) := by
  rw [semwIssue, issueBoth_of_site hs]
  simp only [if_neg hact, hunready, Bool.false_eq_true, if_false]
  rfl

theorem semwIssue_seqReady {x : SSite} (hs : seqSite (syncSReq h 0) s = some x)
    (hready : semwReady (semOf x.tm sem) none n.toNat = true) :
    semwIssue h sem n sc s = seqRetired (acquireSeq (setSem s x.t sem (semTake none n.toNat)) x sc) x := by
  rw [semwIssue, issueBoth_of_seq hs]
  simp only [hready, if_true]
  rfl

theorem semwIssue_seqUnready {x : SSite} (hs : seqSite (syncSReq h 0) s = some x)
    (hunready : semwReady (semOf x.tm sem) none n.toNat = false) :
    semwIssue h sem n sc s =
      modSeq (setSem s x.t sem (semQueue none)) x.t fun q => { q with status := .waiting, waitzDone := true } := by
  rw [semwIssue, issueBoth_of_seq hs]
  simp only [hunready, Bool.false_eq_true, if_false]
  rfl

end Semw

/-! ## WAITPH -/

section Waitph
variable {h : Head} {d : VReg} {sem : SemN} {phi src : Bool} {sc : Scope} {s : State}

/-- Issuing WAITPH in another phase than the one it names, or where that has been seen. -/
theorem waitphIssue_met {s1 : State} {x : Site}
    (hs : issueSite (syncReq h (if src then one [d] else []) false) s = some (x, s1)) (hact : x.act ≠ [])
    (hmet : (semOf x.tm sem).phase ≠ phiOf s1 x d phi src ∨ heldSeen x = true) :
    waitphIssue h d sem phi sc src s = retired (acquireBy (clearSeen s1 x.t x.k) x sc) x := by
  have hcond : (heldSeen x || decide ((semOf x.tm sem).phase ≠ phiOf s1 x d phi src)) = true := by
    rw [Bool.or_eq_true, decide_eq_true_eq]
    exact hmet.symm
  rw [waitphIssue, issueBoth_of_site hs]
  simp only [if_neg hact, hcond, if_true]
  rfl

theorem waitphIssue_unmet {s1 : State} {x : Site}
    (hs : issueSite (syncReq h (if src then one [d] else []) false) s = some (x, s1)) (hact : x.act ≠ [])
    (hseen : heldSeen x = false) (hunmet : (semOf x.tm sem).phase = phiOf s1 x d phi src) :
    waitphIssue h d sem phi sc src s = modTeam s1 x.t (waitTeam x.lr s1.cycle x.k) := by
  rw [waitphIssue, issueBoth_of_site hs]
  simp only [if_neg hact, hseen, hunmet, ne_eq, not_true_eq_false, decide_false, Bool.or_self, Bool.false_eq_true, if_false]
  rfl

theorem waitphIssue_seqMet {x : SSite} (hs : seqSite (syncSReq h d) s = some x)
    (hmet : (semOf x.tm sem).phase ≠ phiSeq x d phi src ∨ x.q.seen = true) :
    waitphIssue h d sem phi sc src s = seqRetired (acquireSeq (clearSeenSeq s x.t) x sc) x := by
  have hcond : (x.q.seen || decide ((semOf x.tm sem).phase ≠ phiSeq x d phi src)) = true := by
    rw [Bool.or_eq_true, decide_eq_true_eq]
    exact hmet.symm
  rw [waitphIssue, issueBoth_of_seq hs]
  simp only [hcond, if_true]
  rfl

theorem waitphIssue_seqUnmet {x : SSite} (hs : seqSite (syncSReq h d) s = some x) (hseen : x.q.seen = false)
    (hunmet : (semOf x.tm sem).phase = phiSeq x d phi src) :
    waitphIssue h d sem phi sc src s = modSeq s x.t fun q => { q with status := .waiting, waitzDone := true } := by
  rw [waitphIssue, issueBoth_of_seq hs]
  simp only [hseen, hunmet, ne_eq, not_true_eq_false, decide_false, Bool.or_self, Bool.false_eq_true, if_false]
  rfl

end Waitph

/-! ## SEMAPHORE_WAIT_RELEASE -/

section Release
variable {i : Instr} {f : State → State} (hretry : ∀ s j, issuerInstr s j = some i → semRetry j s = reissue j f s)
include hretry

/-- The event tries again the word of a group that does not wait for a turn; where that try retires, the wait ends. -/
theorem semaphoreWait_ends {r : Req} {t k : Nat} {ok : Site → State → Prop} {eff : Site → State → State}
    (hf : ∀ s x s1, issueSite r s = some (x, s1) → x.t = t → x.k = k → ok x s1 → f s = retired (eff x s1) x) :
    WaitEnds i (.semaphoreWaitRelease (.group t k)) r t k ok eff := by
  rintro s x s1 ⟨hinstr, hturn, hstands⟩ hs hok
  have hissuer : some (Issuer.group t k) = some (.group x.t x.k) := issuer_of_site hs
  obtain ⟨ht, hk⟩ : t = x.t ∧ k = x.k := by simpa using hissuer
  change Host.Outcome.next (if turnsOnly s (.group t k) then s else semRetry (.group t k) s) = _
  rw [hturn, if_neg Bool.false_ne_true, hretry s _ hinstr,
    reissue_group ⟨hinstr, hturn, hstands⟩ hs (hf _ x s1 hs ht.symm hk.symm hok)]

theorem semaphoreWait_seqEnds {r : SReq} {t : Nat} {ok : SSite → State → Prop} {eff : SSite → State → State}
    (hf : ∀ s x, seqSite r s = some x → x.t = t → ok x s → f s = seqRetired (eff x s) x) :
    SeqWaitEnds i (.semaphoreWaitRelease (.seq t)) r t ok eff := by
  rintro s x ⟨hinstr, hstands⟩ hs hok
  obtain ⟨hsite, -⟩ := canIssue_of_seq hs rfl
  change Host.Outcome.next (semRetry (.seq t) s) = _
  rw [hretry s _ hinstr, reissue_seq ⟨hinstr, hstands⟩ hs (hf _ x hs (ssiteOf_team hsite) hok)]

end Release

theorem semRetry_semw {s : State} {j : Issuer} {h : Head} {sem : SemN} {n : BitVec 16} {sc : Scope}
    (hinstr : issuerInstr s j = some (.semw h sem n sc)) : semRetry j s = reissue j (semwIssue h sem n sc) s := by
  rw [semRetry, hinstr]

theorem semRetry_waitph {s : State} {j : Issuer} {h : Head} {d : VReg} {sem : SemN} {phi : Bool} {sc : Scope} {src : Bool}
    (hinstr : issuerInstr s j = some (.waitph h d sem phi sc src)) :
    semRetry j s = reissue j (waitphIssue h d sem phi sc src) s := by
  rw [semRetry, hinstr]

/-- Settles O24: the posts by `postGroup` and `postSeq`, the waits by what their words' issue does where the condition holds and
where it does not, and the ends of the waits by the later try of the same word. -/
theorem semaphoresPostAndWait : Obligations.SemaphoresPostAndWait := by
  refine ⟨⟨semp_completes, semp_seqCompletes, semx_completes, semx_seqCompletes, arrive_completes, arrive_seqCompletes⟩,
    ?semw, ?semwWaits, ?semwSeq, ?semwSeqWaits, ?waitph, ?waitphWaits, ?waitphSeq, ?waitphSeqWaits,
    ?semwEnds, ?waitphEnds, ?semwSeqEnds, ?waitphSeqEnds⟩
  case semw => exact fun _ _ _ _ _ _ _ hs ⟨hact, hready⟩ => congrArg Host.Outcome.next (semwIssue_ready hs hact hready)
  case semwWaits => exact fun _ _ _ _ _ _ _ hs ⟨hact, hunready⟩ => congrArg Host.Outcome.next (semwIssue_unready hs hact hunready)
  case semwSeq => exact fun _ _ _ _ _ _ hs hready => congrArg Host.Outcome.next (semwIssue_seqReady hs hready)
  case semwSeqWaits => exact fun _ _ _ _ _ _ hs hunready => congrArg Host.Outcome.next (semwIssue_seqUnready hs hunready)
  case waitph => exact fun _ _ _ _ _ _ _ _ _ hs ⟨hact, hmet⟩ => congrArg Host.Outcome.next (waitphIssue_met hs hact hmet)
  case waitphWaits =>
    exact fun _ _ _ _ _ _ _ _ _ hs ⟨hact, hseen, hunmet⟩ => congrArg Host.Outcome.next (waitphIssue_unmet hs hact hseen hunmet)
  case waitphSeq => exact fun _ _ _ _ _ _ _ _ hs hmet => congrArg Host.Outcome.next (waitphIssue_seqMet hs hmet)
  case waitphSeqWaits =>
    exact fun _ _ _ _ _ _ _ _ hs ⟨hseen, hunmet⟩ => congrArg Host.Outcome.next (waitphIssue_seqUnmet hs hseen hunmet)
  case semwEnds =>
    intro t k h sem n sc
    refine semaphoreWait_ends (fun _ _ => semRetry_semw) ?_
    rintro s x s1 hs rfl rfl ⟨hact, hready⟩
    exact semwIssue_ready hs hact hready
  case waitphEnds =>
    intro t k h d sem phi sc src
    refine semaphoreWait_ends (fun _ _ => semRetry_waitph) ?_
    rintro s x s1 hs rfl rfl ⟨hact, hmet⟩
    exact waitphIssue_met hs hact hmet
  case semwSeqEnds =>
    intro t h sem n sc
    refine semaphoreWait_seqEnds (fun _ _ => semRetry_semw) ?_
    rintro s x hs rfl hready
    exact semwIssue_seqReady hs hready
  case waitphSeqEnds =>
    intro t h d sem phi sc src
    refine semaphoreWait_seqEnds (fun _ _ => semRetry_waitph) ?_
    rintro s x hs rfl hmet
    exact waitphIssue_seqMet hs hmet

end Sys2Proof.Laws
end

section
/-! SUPPORT. Group-level words with no active member (R231), and requests as they join their batch (R230, R233). -/

namespace Sys2Proof.Laws
open Sys2Proof.Machine

/-! ## With no active member -/

/-- A word does nothing but count where no member is active. -/
def CountsWhenIdle (i : Instr) (r : Req) (h : Head) : Prop :=
  GroupCompletes i r (fun x _ => x.act = []) fun x s => openLong s x h (groupOp x h.dc .plain) []

theorem countsWhenIdle_of_body {i : Instr} {r : Req} {h : Head} {body : Site → State → Res}
    (hexec : ∀ s, exec i s = .next (issue r (fun x s => if x.act = [] then idleIssue s x h else body x s) s)) :
    CountsWhenIdle i r h :=
  groupCompletes_of_body hexec fun _ _ hact => if_pos hact

theorem countsWhenIdle_of_post {i : Instr} {r : Req} {h : Head} {rel : Option Scope} {event : Site → State → State}
    {outs : Site → List LaneOut} {q : SReq} {seqBody : SSite → State → SRes}
    (hexec : ∀ s, exec i s = .next (issueBoth r (postGroup h rel event outs) q seqBody s)) : CountsWhenIdle i r h :=
  groupCompletes_of_both hexec fun _ _ hact => if_pos hact

theorem countsWhenIdle_of_quarter {i : Instr} {r : Req} {h : Head} {st : Bool} {f : Site → LView → Option Quarter}
    (hexec : ∀ s, exec i s = .next (issue r (quarterIssue h st f) s)) : CountsWhenIdle i r h :=
  groupCompletes_of_body hexec fun _ _ hact => if_pos hact

/-- CPY checks its lanes first, of which there is none. -/
theorem cpy_countsWhenIdle (h : Head) (a b : VReg) (dir : CpyDir) (bid : BatchN) (sz : CpySz) (rel : Bool) :
    CountsWhenIdle (.cpy h a b dir bid sz rel)
      (copyReq h ((if cpySrcSp dir then one [a] else two [a]) ++ (if cpyDstSp dir then one [b] else two [b])) rel) h := by
  refine groupCompletes_of_body (fun _ => rfl) fun x s hact => ?_
  simp only [laneTrap_of_pass (act := x.act) fun l hl => absurd (hact ▸ hl) List.not_mem_nil]
  exact if_pos hact

theorem groupWord_countsWhenIdle {i : Instr} {r : Req} {h : Head} (hi : groupWord i = some (r, h)) : CountsWhenIdle i r h := by
  cases i with
  | cpy => cases hi; exact cpy_countsWhenIdle _ _ _ _ _ _ _
  | cpyl | cpyd | cbld | cpyc | crpop | gathn | ebset | pmctl | ctxsave | trctl | klaunch | vreg | vdrop | vgen | vpol | vstat =>
    cases hi
    exact countsWhenIdle_of_body fun _ => rfl
  | bufs =>
    cases hi
    exact groupCompletes_of_both (fun _ => rfl) fun _ _ hact => if_pos hact
  | semp | semx | arrive =>
    cases hi
    exact countsWhenIdle_of_post fun _ => rfl
  | qbind | qrel =>
    cases hi
    exact countsWhenIdle_of_quarter fun _ => rfl
  | _ => cases hi

/-- A class W word of `groupWait` retires at once where no member is active. -/
theorem groupWait_retiresWhenIdle {i : Instr} {r : Req} (hi : groupWait i = some r) :
    GroupCompletes i r (fun x _ => x.act = []) fun _ s => s := by
  cases i with
  | semw | waitph | bufw =>
    cases hi
    exact groupCompletes_of_both (fun _ => rfl) fun _ _ hact => if_pos hact
  | crwait | vsync =>
    cases hi
    exact groupCompletes_of_body (fun _ => rfl) fun _ _ hact => if_pos hact
  | fence => cases hi; exact fence_idle
  | pfence => cases hi; exact pfence_idle
  | _ => cases hi

/-! ## Requests join their batch -/

theorem teamHull_dcInc (tm : Team) (k : Nat) (tids : List Nat) : teamHull (dcInc tm k tids) = teamHull tm := by
  unfold dcInc
  split
  · rfl
  · induction tids generalizing tm with
    | nil => rfl
    | cons i tids ih => rw [List.foldl_cons, ih]; rfl

section Join
variable {s : State} {x : Site} {h : Head} {bid : BatchN}

/-- A word that opens an operation without results leaves its team but for the threads' counters. -/
theorem openLong_team {tm : Team} (ht : sget s.teams x.t = some tm) (o : Op) :
    ∃ tm', sget (openLong s x h o []).teams x.t = some tm' ∧ teamHull tm' = teamHull tm :=
  ⟨_, by simp only [openLong, modTeam, openOp, sget_smod_eq, ht, Option.map_some]; rfl, teamHull_dcInc ..⟩

theorem openBatch_of_open {b : Nat} (hb : sget x.tm.batch bid.toNat = some b) : openBatch s x bid = (b, s) := by
  rw [openBatch, hb]

theorem openBatch_of_none (hb : sget x.tm.batch bid.toNat = none) :
    openBatch s x bid = (s.nextBatch,
      modTeam { s with
          batches := sset s.batches s.nextBatch (newBatch x.t x.tm.core bid.toNat)
          nextBatch := s.nextBatch + 1 } x.t
        fun tm => { tm with batch := sset tm.batch bid.toNat s.nextBatch }) := by
  rw [openBatch, hb]

theorem nextOp_openBatch : (openBatch s x bid).2.nextOp = s.nextOp := by
  unfold openBatch
  split <;> rfl

/-- A batch's number stands for it in its team, from its opening on. -/
theorem openBatch_named (ht : sget s.teams x.t = some x.tm) :
    ∃ tm, sget (openBatch s x bid).2.teams x.t = some tm ∧ sget tm.batch bid.toNat = some (openBatch s x bid).1 := by
  cases hb : sget x.tm.batch bid.toNat with
  | some b => rw [openBatch_of_open hb]; exact ⟨x.tm, ht, hb⟩
  | none =>
    rw [openBatch_of_none hb]
    exact ⟨_, by simp only [modTeam, sget_smod_eq, ht, Option.map_some]; rfl, sget_sset_eq ..⟩

/-- A batch with one more request, the operation `op`. -/
def withRequest (op : Nat) (flags : BitVec 4) (q : Batch) : Batch :=
  { q with nreq := q.nreq + 1, live := op :: q.live, flags := q.flags ||| flags }

/-- A request without `.full` is live in its batch from its issue on. -/
theorem joined_eq (flags : BitVec 4) (kind : Nat → Nat → OpKind) :
    joined h bid flags kind x s =
      let b := (openBatch s x bid).1
      let u := (openBatch s x bid).2
      openLong (modBatch u b (withRequest u.nextOp flags)) x h
        (groupOp x h.dc (kind b (((sget u.batches b).map (·.nreq)).getD 0))) [] := rfl

/-- What a request leaves of its batch, which held `q0` before it, and its operation. -/
theorem joined_counts (ht : sget s.teams x.t = some x.tm) {q0 : Batch} (flags : BitVec 4) (kind : Nat → Nat → OpKind)
    (hq0 : sget (openBatch s x bid).2.batches (openBatch s x bid).1 = some q0) :
    let t := joined h bid flags kind x s
    let b := (openBatch s x bid).1
    (∃ tm, sget t.teams x.t = some tm ∧ sget tm.batch bid.toNat = some b) ∧
      sget t.batches b = some (withRequest s.nextOp flags q0) ∧
      sget t.ops s.nextOp = some (groupOp x h.dc (kind b q0.nreq)) := by
  obtain ⟨tm, htm, hbatch⟩ := openBatch_named (bid := bid) ht
  simp only [joined_eq, hq0, nextOp_openBatch]
  refine ⟨?_, ?_, ?_⟩
  · obtain ⟨tm', htm', hhull⟩ := openLong_team (s := modBatch (openBatch s x bid).2 _ _) (h := h) htm _
    exact ⟨tm', htm', (congrArg (fun u : Team => sget u.batch bid.toNat) hhull).trans hbatch⟩
  · exact (sget_smod_eq ..).trans (by rw [hq0]; rfl)
  · rw [← nextOp_openBatch (s := s) (x := x) (bid := bid)]
    exact sget_sset_eq ..

end Join

/-- Settles O36: each idle word by the first line of its body, and a request by `joined_counts`, for a batch that is open and for
one that it opens. -/
theorem requestsAreCounted : Obligations.RequestsAreCounted := by
  refine ⟨⟨fun _ _ _ => groupWord_countsWhenIdle, fun _ _ => groupWait_retiresWhenIdle⟩, ?_⟩
  intro s x h bid flags kind ht hlive
  cases hb : sget x.tm.batch bid.toNat with
  | some b =>
    obtain ⟨q0, hq0⟩ := Option.isSome_iff_exists.1 (hlive b hb)
    have hopen : openBatch s x bid = (b, s) := openBatch_of_open hb
    obtain ⟨hteam, hbatch, hop⟩ := joined_counts (bid := bid) (h := h) ht flags kind (q0 := q0) (by rw [hopen]; exact hq0)
    rw [hopen] at hteam hbatch hop
    exact ⟨b, _, hteam, hbatch, ⟨rfl, q0, hq0, rfl, rfl, rfl⟩, _, hop, rfl, rfl⟩
  | none =>
    have hopen := openBatch_of_none (s := s) hb
    obtain ⟨hteam, hbatch, hop⟩ := joined_counts (bid := bid) (h := h) ht flags kind (q0 := newBatch x.t x.tm.core bid.toNat)
      (by rw [hopen]; exact sget_sset_eq ..)
    rw [hopen] at hteam hbatch hop
    exact ⟨s.nextBatch, _, hteam, hbatch, ⟨rfl, rfl, rfl, BitVec.zero_or⟩, _, hop, rfl, rfl⟩

end Sys2Proof.Laws
end

section
/-! SUPPORT. CPY, CPYL, CPYD and GATHN (R239 to R242, R247): the requests that they add to their batch where every check passes. -/

namespace Sys2Proof.Laws
open Sys2Proof.Machine

theorem failOf_eq_none {α : Type} {r : Except AFault α} {p : α} (h : r = .ok p) : failOf r = none := by
  rw [h]
  rfl

theorem engineFork_of_ok {rel : Bool} {x : Site} {s : State} (h : forkOk rel x s) : engineFork rel x s = .ok (forked rel x s) := by
  unfold engineFork forked
  split
  · rw [releaseBy_of_ok (h ‹_›)]
  · rfl

/-! ## CPY -/

theorem any_congr_of_mem {α : Type} {l : List α} {p q : α → Bool} (h : ∀ a ∈ l, p a = q a) : l.any p = l.any q := by
  rw [Bool.eq_iff_iff, List.any_eq_true, List.any_eq_true]
  exact exists_congr fun a => and_congr_right fun ha => by rw [h a ha]

section Side
variable {s : State} {x : Site} {l n : Nat} {r : VReg} {sp write : Bool}

theorem checkSide_of_ok (h : ∃ p, checkSide s x (x.view s) l n r sp write = .ok p) :
    checkSide s x (x.view s) l n r sp write = .ok (sideOf s x l n r sp write) := by
  obtain ⟨p, hp⟩ := h
  rw [sideOf, hp]

end Side

theorem cpy_completes (h : Head) (a b : VReg) (dir : CpyDir) (bid : BatchN) (sz : CpySz) (rel : Bool) :
    GroupCompletes (.cpy h a b dir bid sz rel)
      (copyReq h ((if cpySrcSp dir then one [a] else two [a]) ++ (if cpyDstSp dir then one [b] else two [b])) rel)
      (fun x s => x.act ≠ [] ∧ forkOk rel x s ∧ ∀ l ∈ x.act,
        (∃ p, checkSide s x (x.view s) l (cpyBytes sz) a (cpySrcSp dir) false = .ok p) ∧
        ∃ q, checkSide s x (x.view s) l (cpyBytes sz) b (cpyDstSp dir) true = .ok q)
      fun x s =>
        let src := fun l => sideOf s x l (cpyBytes sz) a (cpySrcSp dir) false
        let dst := fun l => sideOf s x l (cpyBytes sz) b (cpyDstSp dir) true
        let remote := x.act.any fun l => (sideFab (src l)).isSome || (sideFab (dst l)).isSome
        joined h bid (if remote then 8 else 0)
          (fun b o => .copy b o (x.act.zipIdx.map fun e => cpyElem (cpyBytes sz) e.2 (src e.1) (dst e.1)) []) x (forked rel x s) := by
  refine groupCompletes_of_body (fun _ => rfl) fun x s ⟨hact, hfork, hsides⟩ => ?_
  have hsrc := fun l hl => checkSide_of_ok (hsides l hl).1
  have hdst := fun l hl => checkSide_of_ok (hsides l hl).2
  simp only [joined]
  rw [laneTrap_of_pass fun l hl => by rw [hsrc l hl, hdst l hl]; rfl]
  simp only [if_neg hact, engineFork_of_ok hfork]
  rw [any_congr_of_mem fun l hl => by rw [hsrc l hl, hdst l hl],
    filterMap_of_some (l := x.act.zipIdx) fun e he => by
      rw [hsrc _ (List.fst_mem_of_mem_zipIdx he), hdst _ (List.fst_mem_of_mem_zipIdx he)]]

/-! ## CPYL, CPYD and GATHN -/

theorem cpyl_completes (h : Head) (a b c : VReg) (bid : BatchN) (full rel : Bool) (t : Tile) :
    GroupCompletes (.cpyl h a b c bid full rel) (copyReq h ([(a.toNat, 6)] ++ one [b, c]) rel)
      (fun x s => x.act ≠ [] ∧ forkOk rel x s ∧ tileOf s x (x.view s) a b c = .ok t ∧
        pickFault (checkDst x.tm t.dst (tileBytes t) 16 full ++ checkTile s x.tm.ctx t) = none)
      fun x s =>
        let s := forked rel x s
        joinBatch s x h bid ((if tileRemote s t then 8 else 0) ||| (if tileOob t then 1 else 0)) (fullBuf x.tm full t.dst)
          fun b o => .copy b o (tileElems s x.tm.ctx t) [] := by
  refine groupCompletes_of_body (fun _ => rfl) fun x s ⟨hact, hfork, htile, hpass⟩ => ?_
  simp only [if_neg hact, htile, hpass, engineFork_of_ok hfork]

theorem pickFault_cons_none (l : List (Option AFault)) : pickFault (none :: l) = pickFault l := rfl

/-- Checks that pass, and one more that does. -/
theorem pickFault_append_none {l : List (Option AFault)} (h : pickFault l = none) : pickFault (l ++ [none]) = none := by
  induction l with
  | nil => rfl
  | cons f l ih =>
    cases f with
    | none => exact ih h
    | some f =>
      rw [pickFault] at h
      split at h
      · cases h
      · split at h <;> cases h

theorem cpyd_completes (h : Head) (fs : FSlot) (a b c : VReg) (bid : BatchN) (full rel : Bool) (tab : BitVec 2) (ps : List Place) :
    GroupCompletes (.cpyd h fs a b c bid full rel tab)
      { copyReq h (two [a] ++ one [b, c]) rel with ok := fun x => (slotOf (fsRead x.lr fs)).kind.isCode }
      (fun x s => x.act ≠ [] ∧ forkOk rel x s ∧ 0 < ((x.view s).r x.lead c).toNat ∧ ((x.view s).r x.lead c).toNat ≤ 32768 ∧
        cpydSrc s x fs a c = .ok ps ∧ tableTag s x.tm.core tab.toNat = x.t ∧
        pickFault (checkDst x.tm ((x.view s).r x.lead b).toNat (32 * ((x.view s).r x.lead c).toNat) 32 full) = none)
      fun x s =>
        let v := x.view s
        joinBatch (forked rel x s) x h bid 0 (fullBuf x.tm full (v.r x.lead b).toNat) fun b' o =>
          .expand b' o (v.r x.lead b).toNat (v.r x.lead c).toNat (codeBits (slotOf (fsRead x.lr fs)).kind) tab.toNat
            (v.r64 x.lead a).toNat ps := by
  refine groupCompletes_of_body (fun _ => rfl) fun x s ⟨hact, hfork, hpos, hmax, hsrc, htag, hdst⟩ => ?_
  have hcount : ¬(((x.view s).r x.lead c).toNat = 0 ∨ 32768 < ((x.view s).r x.lead c).toNat) := by omega
  simp only [cpydSrc] at hsrc
  simp only [if_neg hact, Bool.or_eq_true, decide_eq_true_eq, if_neg hcount, hsrc, htag, if_true, engineFork_of_ok hfork,
    failOf, List.cons_append, List.nil_append, pickFault_cons_none, pickFault_append_none hdst]

theorem gathn_completes (h : Head) (d a b : VReg) (ix : Index) (ew : EWidth) (bid : BatchN) (full rel : Bool) (ps : List Place) :
    GroupCompletes (.gathn h d a b ix ew bid full rel) (copyReq h (two [d, a, b]) rel)
      (fun x s =>
        let v := x.view s
        let n := (v.reg x.lead (d.toNat + 1)).toNat
        x.act ≠ [] ∧ forkOk rel x s ∧ 0 < n ∧ n ≤ 65536 ∧ (v.r64 x.lead b).toNat % ewBytes ix.iw = 0 ∧
        (v.r64 x.lead a).extractLsb' 52 12 = 0 ∧ (v.r64 x.lead b).extractLsb' 52 12 = 0 ∧
        checkRange s x.tm.ctx (v.r64 x.lead b).toNat (n * ewBytes ix.iw) .nm false = .ok ps ∧
        pickFault (checkDst x.tm (v.r x.lead d).toNat ((n * ewBytes ew + 63) / 64 * 64) 64 full) = none)
      fun x s =>
        let v := x.view s
        joinBatch (forked rel x s) x h bid 0 (fullBuf x.tm full (v.r x.lead d).toNat) fun b' o =>
          .awl b' o
            { dst := (v.r x.lead d).toNat, n := (v.reg x.lead (d.toNat + 1)).toNat, base := v.r64 x.lead a,
              listAt := (v.r64 x.lead b).toNat, list := ps, ix := ix, ew := ew, idx := [], vals := [],
              next := 0 } := by
  refine groupCompletes_of_body (fun _ => rfl) fun x s ⟨hact, hfork, hpos, hmax, halign, hbase, hlist, hrange, hdst⟩ => ?_
  have hcount : ¬(((x.view s).reg x.lead (d.toNat + 1)).toNat = 0 ∨ 65536 < ((x.view s).reg x.lead (d.toNat + 1)).toNat) := by omega
  simp only [if_neg hact, Bool.or_eq_true, decide_eq_true_eq, if_neg hcount, halign, hbase, hlist, hrange, hdst, ne_eq,
    not_true_eq_false, if_false, engineFork_of_ok hfork, failOf, List.cons_append, List.nil_append, pickFault_cons_none]

/-- Settles O37: each word's body where all its checks pass. -/
theorem copiesJoinTheirBatch : Obligations.CopiesJoinTheirBatch :=
  ⟨cpy_completes, cpyl_completes, cpyd_completes, gathn_completes⟩

end Sys2Proof.Laws
end

section
/-! SUPPORT. CBLD, CPYC, CRPOP and CRWAIT (R241, R243 to R245): what the words open, and the wait for completion records. -/

namespace Sys2Proof.Laws
open Sys2Proof.Machine

/-! ## CBLD, CPYC and CRPOP -/

theorem cbld_completes (h : Head) (a : VReg) (tab : BitVec 2) :
    GroupCompletes (.cbld h a tab) (copyReq h (two [a]))
      (fun x s => x.act ≠ [] ∧ GlobalOk s x.tm.ctx ((x.view s).r64 x.lead a) 8192 .cp false)
      fun x s =>
        let ea := (x.view s).r64 x.lead a
        openLong s x h (groupOp x h.dc (.cbld tab.toNat (placeOf ea.toNat .cp (locAt s x.tm.ctx ea 8192 .cp false))
          ((tableUses s x.tm.core tab.toNat).map Prod.fst))) [] := by
  refine groupCompletes_of_body (fun _ => rfl) fun x s ⟨hact, hok⟩ => ?_
  simp only [if_neg hact, checkGlobal_of_ok hok]

theorem cpyc_completes (h : Head) (d a : VReg) (bid : BatchN) (sem : Option SemN) (r : Ring) (ps : List Place) (s' : State) :
    GroupCompletes (.cpyc h d a bid sem) (cpycReq h d a)
      (fun x s => x.act ≠ [] ∧ ringOf s (x.who x.lead) ((x.view s).r64 x.lead a) true = (.ok r, s') ∧
        checkRange s' x.tm.ctx r.base (32 * 2 ^ r.logn) .ls true = .ok ps)
      fun x s =>
        let o := openBatch s' x bid
        let close : BatchClose :=
          { desc := r.desc, base := r.base, logn := r.logn, ring := ps, tag := (x.view s).r x.lead d, op := o.2.nextOp }
        let s := modBatch (modTeam o.2 x.t fun tm => { tm with batch := serase tm.batch bid.toNat }) o.1 fun q =>
          { q with close := some close, sem := sem.map (·.toNat) }
        let s := postChunks s o.1 (((sget s.batches o.1).map (·.dst)).getD 0 / 4096)
        openLong s x h (groupOp x h.dc (.batch o.1)) [] := by
  refine groupCompletes_of_body (fun _ => rfl) fun x s ⟨hact, hring, hrange⟩ => ?_
  simp only [if_neg hact, hring, hrange]

theorem cpycHeld_iff (s : State) (x : Site) : cpycHeld s x = true ↔ x.act ≠ [] ∧ 16 ≤ pendingBatches s x.tm.core := by
  rw [cpycHeld, Bool.and_eq_true, decide_eq_true_eq, decide_eq_true_eq]

theorem crpop_completes (h : Head) (a : VReg) (n : BitVec 16) (r : Ring) (ps : List Place) (s' : State) :
    GroupCompletes (.crpop h a n) (copyReq h (two [a]))
      (fun x s => x.act ≠ [] ∧ ringOf s (x.who x.lead) ((x.view s).r64 x.lead a) true = (.ok r, s') ∧
        checkRange s' x.tm.ctx r.base (32 * 2 ^ r.logn) .ls false = .ok ps)
      fun x _ => openLong s' x h (groupOp x h.dc (.crpop r.desc r.base r.logn n.toNat
        ((s'.ops.filter fun e => e.2.read && e.2.team = x.t && e.2.iss.any x.tids.contains).map Prod.fst) ps)) [] := by
  refine groupCompletes_of_body (fun _ => rfl) fun x s ⟨hact, hring, hrange⟩ => ?_
  simp only [if_neg hact, hring, hrange]

/-! ## CRWAIT -/

/-- Lanes that all read their records raise no trap. -/
theorem laneTrap_of_seen {rs : List (Nat × Except AFault CrSeen)} (h : ∀ e ∈ rs, ∃ c, e.2 = .ok c) :
    laneTrap (crwaitFaults rs) = none := by
  have hnone : crwaitFaults rs = [] := List.filterMap_eq_nil_iff.2 fun e he => by
    obtain ⟨c, hc⟩ := h e he
    rw [hc]
    rfl
  rw [hnone]
  rfl

section Crwait
variable {h : Head} {d a : VReg} {s s1 : State} {x : Site} (hs : issueSite (copyReq h (two [d, a])) s = some (x, s1))
  (hact : x.act ≠ []) (hok : crwaitOk a x s1)
include hs hact hok

/-- Issuing CRWAIT where every lane's record has come. -/
theorem crwaitIssue_done (hdone : (crwaitSeen (crwaited a x s1).1).all (·.2.done) = true) :
    crwaitIssue h d a s = retired (crwaitDone h d a x s1) x := by
  refine issue_retire hs ?_
  simp only [crwaitOk, crwaited] at hok hdone
  simp only [if_neg hact, laneTrap_of_seen hok, hdone, if_true]
  rfl

theorem crwaitIssue_waits (hwaits : (crwaitSeen (crwaited a x s1).1).all (·.2.done) = false) :
    crwaitIssue h d a s =
      modTeam (setCons (crwaited a x s1).2 x ((crwaitSeen (crwaited a x s1).1).map fun e => (e.1, e.2.cons, e.2.done))) x.t
        (waitTeam x.lr s1.cycle x.k) := by
  refine issue_wait hs ?_
  simp only [crwaitOk, crwaited] at hok hwaits
  simp only [if_neg hact, laneTrap_of_seen hok, hwaits, Bool.false_eq_true, if_false]
  rfl

end Crwait

theorem crwait_ends (t k : Nat) (h : Head) (d a : VReg) :
    WaitEnds (.crwait h d a) (.classWWaitRelease (.group t k)) (copyReq h (two [d, a])) t k
      (fun x s => x.act ≠ [] ∧ crwaitOk a x s ∧ (crwaitSeen (crwaited a x s).1).all (·.2.done) = true) (crwaitDone h d a) := by
  intro s x s1 hw hs ⟨hact, hok, hdone⟩
  have hretry : classWRetry (.group t k) s = reissue (.group t k) (crwaitIssue h d a) s := by
    rw [classWRetry, hw.1]
  rw [classWWaitRelease_retries hw, hretry, reissue_group hw hs (crwaitIssue_done hs hact hok hdone)]

/-- A lane that has seen nothing waits for its ring's CONS of now (log 27). -/
theorem crwaitLane_first {s s1 s2 : State} {x : Site} {l q : Nat} {ea : DWord} {r : Ring} (hnew : sget x.g.cons l = none)
    (hring : ringOf s (x.who l) ea false = (.ok r, s1))
    (hseq : recordSeq s1 (x.who l) (recordOff r.base r.logn r.cons) = (.ok q, s2)) :
    crwaitLane x ea l s = (.ok ⟨r.cons, q = r.cons, recordOff r.base r.logn r.cons⟩, s2) := by
  have hcount : sgetD x.g.cons l (r.cons, false) = (r.cons, false) := by rw [sgetD, hnew, Option.getD_none]
  simp only [crwaitLane, hring, hcount, hseq, Bool.false_or]

/-- Settles O38: each word's body where its checks pass, CRWAIT by its issue and by the later try of the same word. -/
theorem batchWords : Obligations.BatchWords :=
  ⟨cbld_completes, cpyc_completes, cpycHeld_iff, crpop_completes,
   fun _ _ _ _ _ _ hs ⟨hact, hok, hdone⟩ => congrArg Host.Outcome.next (crwaitIssue_done hs hact hok hdone),
   fun _ _ _ _ _ _ hs ⟨hact, hok, hwaits⟩ => congrArg Host.Outcome.next (crwaitIssue_waits hs hact hok hwaits),
   crwait_ends, fun _ _ _ _ _ _ _ _ => crwaitLane_first⟩

end Sys2Proof.Laws
end

section
/-! SUPPORT. What the end of an operation leaves, and what a batch notes of poisoned data (R44, R379). -/

namespace Sys2Proof.Laws
open Sys2Proof.Machine

@[simp] theorem completeOp_mem (s : State) (n : Nat) : (completeOp s n).mem = s.mem := by
  unfold completeOp
  split
  · rfl
  · simp only
    split <;> rfl

@[simp] theorem completeOp_batches (s : State) (n : Nat) : (completeOp s n).batches = s.batches :=
  (congrArg State.batches (hull_completeOp s n) :)

theorem sget_ops_completeOp (s : State) (n : Nat) : sget (completeOp s n).ops n = none := by
  have hgone := op_of_hull (hull_completeOp s n) n
  rw [sget_serase_eq] at hgone
  exact Option.not_isSome_iff_eq_none.1 (Bool.eq_false_iff.1 hgone)

@[simp] theorem noteError_mem (s : State) (b pa : Nat) : (noteError s b pa).mem = s.mem := by
  unfold noteError
  split <;> rfl

@[simp] theorem noteError_cycle (s : State) (b pa : Nat) : (noteError s b pa).cycle = s.cycle := by
  unfold noteError
  split <;> rfl

/-- A batch after its engine has read a line that may be poisoned (R379). -/
def afterRead (s : State) (pa : Nat) (q : Batch) : Batch := { q with err := q.err || s.poison.contains (lineOf pa) }

theorem sget_batches_noteError {s : State} {b : Nat} {q : Batch} (hq : sget s.batches b = some q) (pa : Nat) :
    sget (noteError s b pa).batches b = some (afterRead s pa q) := by
  unfold noteError afterRead
  split
  · rename_i hpoison
    rw [hpoison, Bool.or_true]
    exact (sget_smod_eq ..).trans (by rw [show (countUe s).batches = s.batches from rfl, hq]; rfl)
  · rename_i hclean
    rw [Bool.eq_false_iff.2 hclean, Bool.or_false]
    exact hq

end Sys2Proof.Laws
end

section
/-! SUPPORT. COPY_REQUEST_COMPLETE (R239, R240, R242): what a copy and an expansion leave, and engines that count an operation early
(log 26) or are frozen (R378). -/

namespace Sys2Proof.Laws
open Sys2Proof.Machine

/-! ## The end of an engine's operation -/

theorem endEngine_of_none {s : State} {op : Nat} (h : countEarly s op = none) (f : State → State) :
    endEngine s op f = completeOp (f s) op := by
  rw [endEngine, h]

theorem endEngine_of_some {s u : State} {op : Nat} (h : countEarly s op = some u) (f : State → State) : endEngine s op f = u := by
  rw [endEngine, h]

/-- An operation counted early counts on nothing any more, and nothing is written yet. -/
theorem countEarly_spec {s u : State} {op : Nat} (h : countEarly s op = some u) :
    ∃ o, sget s.ops op = some o ∧ o.dc < 6 ∧ sget u.ops op = some { o with dc := 6, tids := [] } ∧ u.mem = s.mem := by
  unfold countEarly at h
  cases ho : sget s.ops op with
  | none => rw [ho] at h; cases h
  | some o =>
    simp only [ho] at h
    split at h
    · rename_i hearly
      rw [Bool.and_eq_true, decide_eq_true_eq] at hearly
      obtain ⟨hdc, -⟩ := hearly
      cases h
      refine ⟨o, rfl, hdc, ?_⟩
      split <;> exact ⟨sget_sset_eq .., rfl⟩
    · cases h

/-! ## COPY_REQUEST_COMPLETE -/

section Request
variable {s : State} {op : Nat} {o : Op} (ho : sget s.ops op = some o)
include ho

theorem copyRequestComplete_frozen (hf : opFrozen s o = true) : exec (.copyRequestComplete op) s = .next s := by
  change execCopyRequestComplete op s = _
  simp only [execCopyRequestComplete, ho, hf, if_true]
  split <;> rfl

variable {tm : Team} (ht : sget s.teams o.team = some tm) (hf : opFrozen s o = false)
include ht hf

theorem copyRequestComplete_copy {b order : Nat} {elems wait : List CopyElem} {out more : List (ByteDst × Byte)} {s' : State}
    (hk : o.kind = .copy b order elems out) (hr : readElems o.team tm.ctx tm.core b order elems s = (wait, more, s')) :
    exec (.copyRequestComplete op) s = .next
      (if wait ≠ [] then setKind s' op (.copy b order wait (out ++ more))
       else endEngine (setKind s' op (.copy b order [] (out ++ more))) op fun s =>
        countDst (writeDsts o.team tm.ctx tm.core b (joinDst (out ++ more)) s) b (out ++ more).length) := by
  change execCopyRequestComplete op s = _
  simp only [execCopyRequestComplete, ho, ht, hf, hk, hr, Bool.false_eq_true, if_false]

theorem copyRequestComplete_expand {b order dst n w tab at_ : Nat} {ps : List Place} (hk : o.kind = .expand b order dst n w tab at_ ps)
    (hloads : ∀ e ∈ tableLoads s tm.core tab, op ≤ e.1) :
    exec (.copyRequestComplete op) s = .next (endEngine s op fun s =>
      countDst (modBatch (expandFrom o.team tm.core b dst w tab at_ ps n 0 s) b fun q =>
        { q with bytes := q.bytes + streamBytes w n }) b (32 * n)) := by
  have hloaded : ((tableLoads s tm.core tab).any fun e => decide (e.1 < op)) = false :=
    List.any_eq_false.2 fun e he => by simpa using hloads e he
  change execCopyRequestComplete op s = _
  simp only [execCopyRequestComplete, ho, ht, hf, hk, hloaded, Bool.false_eq_true, if_false]

end Request

end Sys2Proof.Laws
end

section
/-! SUPPORT. Gathers in progress (R246, R248): what reading an index or an element leaves of the machine, and a violation that
freezes the engine (R378). -/

namespace Sys2Proof.Laws
open Sys2Proof.Machine

/-! ## Reads of a gather -/

/-- What decides whether an engine carries an operation on: the operations, the frozen engines, and the teams' cores. -/
def carried (s : State) : Store Op × Store Nat × Store Nat := (s.ops, s.frozen, s.teams.map fun e => (e.1, e.2.core))

theorem carried_of_bare {s t : State} (h : bare t = bare s) : carried t = carried s := by
  have hteams : t.teams.map (fun e => (e.1, teamBare e.2)) = s.teams.map fun e => (e.1, teamBare e.2) :=
    (congrArg State.teams h :)
  have hcores : t.teams.map (fun e => (e.1, e.2.core)) = s.teams.map fun e => (e.1, e.2.core) := by
    have hmapped := congrArg (List.map fun e : Nat × Team => (e.1, e.2.core)) hteams
    rw [List.map_map, List.map_map] at hmapped
    exact hmapped
  have hfrozen : t.frozen = s.frozen := (congrArg State.frozen h :)
  rw [carried, carried, ops_of_bare h, hfrozen, hcores]

/-- Nothing is read into memory, and what engines carry on stays. -/
structure ReadsOnly (s t : State) : Prop where
  mem     : t.mem = s.mem
  carried : carried t = carried s

theorem ReadsOnly.trans {s t u : State} (h : ReadsOnly s t) (h' : ReadsOnly t u) : ReadsOnly s u :=
  ⟨h'.mem.trans h.mem, h'.carried.trans h.carried⟩

theorem readsOnly_modBatch (s : State) (b : Nat) (f : Batch → Batch) : ReadsOnly s (modBatch s b f) := ⟨rfl, rfl⟩

theorem readsOnly_xlatFill (s : State) (core ctx va : Nat) (l : Loc) : ReadsOnly s (xlatFill s core ctx va l) := ⟨rfl, rfl⟩

theorem readsOnly_noteError (s : State) (b pa : Nat) : ReadsOnly s (noteError s b pa) := by
  unfold noteError
  split <;> exact ⟨rfl, rfl⟩

theorem readsOnly_fillLine (s : State) (core : Nat) (p : Path) (l : Loc) (line : Nat) (na : Bool) :
    ReadsOnly s (fillLine s core p l line na) :=
  ⟨(mc_fillLine ..).1, carried_of_bare (bare_fillLine ..)⟩

theorem readsOnly_awlRead {s u : State} {ctx core b n : Nat} {far : Bool} {ea : DWord} {bs : List Byte}
    (h : awlRead s ctx core b n far ea = .ok (bs, u)) : ReadsOnly s u := by
  unfold awlRead at h
  generalize (if far then localize s ea else ea) = a at h
  dsimp only at h
  split at h
  · cases hloc : checkGlobal s ctx a n .nm false with
    | error f => rw [hloc] at h; cases h
    | ok loc =>
      rw [hloc] at h
      cases h
      exact (readsOnly_xlatFill s core ctx a.toNat loc).trans (readsOnly_noteError ..)
  · split at h
    · cases h
    · cases hbytes : (if fabricRoute s a then fabricBytes s a n else none) with
      | none => rw [hbytes] at h; cases h
      | some bs => rw [hbytes] at h; cases h; exact ⟨rfl, rfl⟩

/-! ## A gather that is read on -/

/-- What the reads of a gather keep: memory, the team's core, and the operation but for what has been read. -/
structure GatherKept (s : State) (op b order core : Nat) (o : Op) (t : State) : Prop where
  mem  : t.mem = s.mem
  core : sget (carried t).2.2 o.team = some core
  op   : ∃ a, sget t.ops op = some { o with kind := .awl b order a }

section Gather
variable {s t u : State} {op b order core : Nat} {o : Op}

theorem GatherKept.reads (h : GatherKept s op b order core o t) (hr : ReadsOnly t u) : GatherKept s op b order core o u :=
  have hops : u.ops = t.ops := (congrArg Prod.fst hr.carried :)
  ⟨hr.mem.trans h.mem, by rw [hr.carried]; exact h.core, by rw [hops]; exact h.op⟩

theorem GatherKept.modAwl (h : GatherKept s op b order core o t) (f : Awl → Awl) :
    GatherKept s op b order core o (modAwl t op f) := by
  obtain ⟨hmem, hcore, a, ha⟩ := h
  refine ⟨hmem, hcore, f a, ?_⟩
  exact (sget_smod_eq ..).trans (by rw [ha]; rfl)

theorem GatherKept.awlIndex (h : GatherKept s op b order core o t) (a : Awl) (i : Nat) :
    GatherKept s op b order core o (awlIndex t core b op a i) :=
  (h.reads ((readsOnly_fillLine ..).trans (readsOnly_noteError ..))).modAwl _

/-- An operation that a unit carries on is frozen with the unit of its team's core. -/
theorem opFrozen_of_core {k : EngineUnit} (hcore : sget (carried t).2.2 o.team = some core) (hunit : o.kind.unit = some k) :
    opFrozen t o = unitFrozen t k core := by
  obtain ⟨tm, htm, rfl⟩ := Option.map_eq_some_iff.1 ((sget_map Team.core t.teams o.team).symm.trans hcore)
  simp only [opFrozen, htm, hunit, Option.any_some]

theorem carried_noticeAt (time : Nat) (s : State) (ctx kind cause unit arg : Nat) (addr : DWord) :
    carried (noticeAt time s ctx kind cause unit arg addr) = carried s := by
  unfold noticeAt
  dsimp only
  split
  · rfl
  · split
    · rfl
    · split
      · rfl
      · exact (carried_of_bare (bare_homeWrite ..) :)

/-- A protection violation of a gather freezes its engine, and with it the gather. -/
theorem gatherOf_freezeEngine (h : GatherKept s op b order core o t) (ctx : Nat) (addr : DWord) (cause : Nat) :
    gatherOf (freezeEngine t .gather core ctx core addr cause) op = none := by
  obtain ⟨-, hcore, a, ha⟩ := h
  have hcarried : carried (freezeEngine t .gather core ctx core addr cause) =
      carried { t with frozen := sset t.frozen (engineKey core .gather) ctx } := carried_noticeAt ..
  have hops : (freezeEngine t .gather core ctx core addr cause).ops = t.ops := congrArg Prod.fst hcarried
  have hfrozen : (freezeEngine t .gather core ctx core addr cause).frozen = sset t.frozen (engineKey core .gather) ctx :=
    congrArg (fun c => c.2.1) hcarried
  have hice : opFrozen (freezeEngine t .gather core ctx core addr cause) { o with kind := .awl b order a } = true := by
    rw [opFrozen_of_core (core := core) (k := .gather) (by rw [hcarried]; exact hcore) rfl, unitFrozen, hfrozen, sget_sset_eq]
    rfl
  rw [gatherOf, hops, ha, Option.bind_some, hice, if_pos rfl]

theorem awlElem_kept_or_frozen (h : GatherKept s op b order core o t) (ctx : Nat) (a : Awl) (i ix : Nat) :
    GatherKept s op b order core o (awlElem t ctx core b order op a i ix) ∨
      gatherOf (awlElem t ctx core b order op a i ix) op = none := by
  unfold awlElem
  simp only
  split
  · exact .inl ((h.reads (readsOnly_modBatch ..)).modAwl _)
  · split
    · split
      · exact .inr (gatherOf_freezeEngine h ..)
      · exact .inl ((h.reads (readsOnly_modBatch ..)).modAwl _)
    · rename_i hread
      exact .inl ((h.reads ((readsOnly_awlRead hread).trans (readsOnly_modBatch ..))).modAwl _)

/-- The index of element `i` is read, where `go` lets it be. -/
def indexRead (core b op i : Nat) (go : Bool) (s : State) : State :=
  match gatherOf s op with
  | some a => if (sget a.idx i).isNone && go then awlIndex s core b op a i else s
  | none => s

/-- The element that index `i` names is read, where `go` lets it be. -/
def elemRead (ctx core b order op i : Nat) (go : Bool) (s : State) : State :=
  match gatherOf s op with
  | some a => match sget a.idx i with
    | some ix => if (sget a.vals i).isNone && go then awlElem s ctx core b order op a i ix else s
    | none => s
  | none => s

theorem awlStep_eq (ctx core b order op : Nat) (s : State) (i : Nat) :
    awlStep ctx core b order op s i =
      elemRead ctx core b order op i (!delays s (2 ^ 47 + 2 * i + 1))
        (indexRead core b op i (!delays s (2 ^ 47 + 2 * i + 0)) s) := rfl

theorem GatherKept.indexRead (h : GatherKept s op b order core o t) (i : Nat) (go : Bool) :
    GatherKept s op b order core o (indexRead core b op i go t) := by
  unfold Laws.indexRead
  split
  · split
    · exact h.awlIndex ..
    · exact h
  · exact h

theorem elemRead_kept_or_frozen (h : GatherKept s op b order core o t) (ctx i : Nat) (go : Bool) :
    GatherKept s op b order core o (elemRead ctx core b order op i go t) ∨
      gatherOf (elemRead ctx core b order op i go t) op = none := by
  unfold elemRead
  split
  · split
    · split
      · exact awlElem_kept_or_frozen h ..
      · exact .inl h
    · exact .inl h
  · exact .inl h

theorem awlStep_of_none (h : gatherOf t op = none) (ctx i : Nat) : awlStep ctx core b order op t i = t := by
  simp only [awlStep, h]

/-- The reads of one step keep the gather, or end with its engine frozen. -/
theorem awlSteps_kept_or_frozen (ctx : Nat) (l : List Nat) (h : GatherKept s op b order core o t ∨ gatherOf t op = none) :
    GatherKept s op b order core o (l.foldl (awlStep ctx core b order op) t) ∨
      gatherOf (l.foldl (awlStep ctx core b order op) t) op = none := by
  induction l generalizing t with
  | nil => exact h
  | cons i l ih =>
    refine ih ?_
    rcases h with hkept | hnone
    · rw [awlStep_eq]
      exact elemRead_kept_or_frozen (hkept.indexRead ..) ..
    · exact .inr (by rw [awlStep_of_none hnone]; exact hnone)

theorem gathersOn_kept {tm : Team} {a0 a : Awl} (ho : sget s.ops op = some o) (ht : sget s.teams o.team = some tm)
    (hk : o.kind = .awl b order a0) (ha : gatherOf (gathersOn s tm b order op a0) op = some a) :
    GatherKept s op b order tm.core o (gathersOn s tm b order op a0) := by
  have hstart : GatherKept s op b order tm.core o s :=
    ⟨rfl, (sget_map ..).trans (by rw [ht]; rfl), a0, by rw [ho, ← hk]⟩
  refine (awlSteps_kept_or_frozen tm.ctx (List.range a0.n) (.inl hstart)).resolve_right fun hnone => ?_
  rw [gathersOn, hnone] at ha
  cases ha

end Gather

/-! ## One element -/

section Element
variable {s t : State} {op : Nat}

theorem unit_modGather (f : Awl → Awl) (k : OpKind) : (k.modGather f).unit = k.unit := by cases k <;> rfl

theorem gather_modGather (f : Awl → Awl) (k : OpKind) : (k.modGather f).gather = k.gather.map f := by cases k <;> rfl

theorem gatherOf_modAwl (f : Awl → Awl) : gatherOf (modAwl s op f) op = (gatherOf s op).map f := by
  have hop : sget (modAwl s op f).ops op = (sget s.ops op).map fun o => { o with kind := o.kind.modGather f } := sget_smod_eq ..
  rw [gatherOf, hop, gatherOf]
  cases sget s.ops op with
  | none => rfl
  | some o =>
    have hfrozen : opFrozen (modAwl s op f) { o with kind := o.kind.modGather f } = opFrozen s o := by
      simp only [opFrozen, unit_modGather]
      rfl
    simp only [Option.map_some, Option.bind_some, hfrozen, gather_modGather]
    split <;> rfl

theorem gatherOf_modBatch (b : Nat) (f : Batch → Batch) : gatherOf (modBatch s b f) op = gatherOf s op := rfl

theorem gatherOf_noteError (b pa : Nat) : gatherOf (noteError s b pa) op = gatherOf s op := by
  unfold noteError
  split <;> rfl

theorem awlElem_place {ctx core b order i ix : Nat} {a : Awl} {loc : Loc} (ha : gatherOf s op = some a)
    (hplain : isSentinel a.ix ix = false) (hnear : farIndex a.ix ix = false)
    (hloc : checkGlobal s ctx (idxAddr a.base a.ix ix) (ewBytes a.ew) .nm false = .ok loc) :
    gatherOf (awlElem s ctx core b order op a i ix) op =
      some { a with vals := sset a.vals i (some (memBytes s.mem loc.pa (ewBytes a.ew))) } := by
  have hread : awlRead s ctx core b (ewBytes a.ew) false (idxAddr a.base a.ix ix) =
      .ok (memBytes s.mem loc.pa (ewBytes a.ew), noteError (xlatFill s core ctx (idxAddr a.base a.ix ix).toNat loc) b loc.pa) := by
    simp only [awlRead, Bool.false_eq_true, if_false, Bool.not_false, Bool.or_true, if_true, hloc]
  simp only [awlElem, hplain, hnear, Bool.false_eq_true, if_false, hread]
  rw [gatherOf_modAwl, gatherOf_modBatch, gatherOf_noteError]
  exact congrArg (Option.map _) ha

theorem awlElem_sentinel {ctx core b order i ix : Nat} {a : Awl} (ha : gatherOf s op = some a) (hs : isSentinel a.ix ix = true) :
    gatherOf (awlElem s ctx core b order op a i ix) op = some { a with vals := sset a.vals i none } := by
  simp only [awlElem, hs, if_true]
  rw [gatherOf_modAwl, gatherOf_modBatch, ha, Option.map_some]

end Element

end Sys2Proof.Laws
end

section
/-! SUPPORT. AWL_BURST (R247): the scratchpad bytes of a burst, and the event. -/

namespace Sys2Proof.Laws
open Sys2Proof.Machine

/-! ## The bytes of a burst -/

theorem ewBytes_pos (ew : EWidth) : 0 < ewBytes ew := by cases ew <;> decide

/-- Element `k` of a gather written to scratchpad; one without bytes writes nothing. -/
def putElem (a : Awl) (k : Nat) (tm : Team) : Team :=
  match sget a.vals k with
  | some (some bs) => spWrite tm (a.dst + ewBytes a.ew * k) bs
  | some none => tm
  | none => tm

/-- The next `m` elements of a gather written. -/
def burstElems (a : Awl) (m : Nat) (tm : Team) : Team := (List.range m).foldl (fun tm k => putElem a (a.next + k) tm) tm

/-- 0 from the end of element `last` up to a multiple of 64 bytes of the destination. -/
def burstFill (a : Awl) (last : Nat) (tm : Team) : Team :=
  spWrite tm (a.dst + last * ewBytes a.ew) (List.replicate ((64 - last * ewBytes a.ew % 64) % 64) 0)

theorem awlWrite_eq (s : State) (t b : Nat) (a : Awl) (last : Nat) :
    awlWrite s t b a last =
      countDst (if last = a.n then modTeam (modTeam s t (burstElems a (last - a.next))) t (burstFill a last)
        else modTeam s t (burstElems a (last - a.next))) b 64 := rfl

/-- The byte that an element's place holds at an offset, over what stood there. -/
def elemByte (a : Awl) (old : Nat → Byte) (off : Nat) : Byte :=
  match sget a.vals ((off - a.dst) / ewBytes a.ew) with
  | some (some bs) => bs.getD ((off - a.dst) % ewBytes a.ew) 0
  | some none => old off
  | none => old off

/-- The element whose bytes an offset lies among. -/
theorem elem_of_off {a : Awl} {k off : Nat} (hlo : a.dst + ewBytes a.ew * k ≤ off)
    (hhi : off < a.dst + ewBytes a.ew * k + ewBytes a.ew) :
    (off - a.dst) / ewBytes a.ew = k ∧ (off - a.dst) % ewBytes a.ew = off - (a.dst + ewBytes a.ew * k) := by
  obtain ⟨r, rfl⟩ := Nat.exists_eq_add_of_le hlo
  have hr : r < ewBytes a.ew := by omega
  rw [show a.dst + ewBytes a.ew * k + r - a.dst = ewBytes a.ew * k + r by omega,
    Nat.mul_add_div (ewBytes_pos a.ew), Nat.div_eq_of_lt hr, Nat.mul_add_mod, Nat.mod_eq_of_lt hr]
  omega

theorem elemByte_congr {a : Awl} {old old' : Nat → Byte} {off : Nat} (h : old off = old' off) :
    elemByte a old off = elemByte a old' off := by
  simp only [elemByte, h]

section Elems
variable {a : Awl} (hlen : ∀ k bs, sget a.vals k = some (some bs) → bs.length = ewBytes a.ew)
include hlen

theorem spByte_putElem (k : Nat) (tm : Team) (off : Nat) :
    spByte (putElem a k tm) off =
      if a.dst + ewBytes a.ew * k ≤ off ∧ off < a.dst + ewBytes a.ew * k + ewBytes a.ew then elemByte a (spByte tm) off
      else spByte tm off := by
  unfold putElem
  by_cases hin : a.dst + ewBytes a.ew * k ≤ off ∧ off < a.dst + ewBytes a.ew * k + ewBytes a.ew
  · obtain ⟨hdiv, hmod⟩ := elem_of_off hin.1 hin.2
    rw [if_pos hin, elemByte, hdiv, hmod]
    cases hval : sget a.vals k with
    | none => rfl
    | some v => cases v with
      | none => rfl
      | some bs => exact (spByte_spWrite ..).trans (if_pos (by rw [hlen _ _ hval]; exact hin))
  · rw [if_neg hin]
    cases hval : sget a.vals k with
    | none => rfl
    | some v => cases v with
      | none => rfl
      | some bs => exact (spByte_spWrite ..).trans (if_neg (by rw [hlen _ _ hval]; exact hin))

theorem spByte_burstElems (m : Nat) (tm : Team) (off : Nat) :
    spByte (burstElems a m tm) off =
      if a.dst + ewBytes a.ew * a.next ≤ off ∧ off < a.dst + ewBytes a.ew * (a.next + m) then elemByte a (spByte tm) off
      else spByte tm off := by
  induction m with
  | zero => exact (if_neg (by rw [Nat.add_zero]; omega)).symm
  | succ m ih =>
    have hsucc : burstElems a (m + 1) tm = putElem a (a.next + m) (burstElems a m tm) := by
      rw [burstElems, List.range_succ, List.foldl_append]
      rfl
    have hend : ewBytes a.ew * (a.next + (m + 1)) = ewBytes a.ew * (a.next + m) + ewBytes a.ew := Nat.mul_succ ..
    have hstart : ewBytes a.ew * a.next ≤ ewBytes a.ew * (a.next + m) := Nat.mul_le_mul_left _ (Nat.le_add_right ..)
    rw [hsucc, spByte_putElem hlen, hend]
    by_cases hlast : a.dst + ewBytes a.ew * (a.next + m) ≤ off ∧ off < a.dst + ewBytes a.ew * (a.next + m) + ewBytes a.ew
    · rw [if_neg (by omega)] at ih
      rw [if_pos hlast, if_pos (by omega), elemByte_congr ih]
    · rw [if_neg hlast, ih]
      exact if_congr (by omega) rfl rfl

end Elems

theorem spByte_burstFill (a : Awl) (last : Nat) (tm : Team) (off : Nat) :
    spByte (burstFill a last tm) off =
      if a.dst + last * ewBytes a.ew ≤ off ∧ off < a.dst + (last * ewBytes a.ew + 63) / 64 * 64 then 0 else spByte tm off := by
  have hround : last * ewBytes a.ew + (64 - last * ewBytes a.ew % 64) % 64 = (last * ewBytes a.ew + 63) / 64 * 64 := by omega
  rw [burstFill, spByte_spWrite, List.length_replicate, Nat.add_assoc, hround]
  split
  · rw [List.getD_eq_getElem?_getD]
    exact List.getElem?_getD_replicate_default_eq ..
  · rfl

/-- A team after a burst. -/
def burstTeam (a : Awl) (tm : Team) : Team :=
  if burstEnd a = a.n then burstFill a (burstEnd a) (burstElems a (burstEnd a - a.next) tm)
  else burstElems a (burstEnd a - a.next) tm

theorem burstByte_eq (a : Awl) (old : Nat → Byte) (off : Nat) :
    burstByte a old off =
      if off < a.dst + ewBytes a.ew * a.next then old off
      else if off < a.dst + ewBytes a.ew * burstEnd a then elemByte a old off
      else if burstEnd a = a.n ∧ off < a.dst + (a.n * ewBytes a.ew + 63) / 64 * 64 then 0 else old off := rfl

theorem spByte_burstTeam {a : Awl} (hnext : a.next ≤ a.n)
    (hlen : ∀ k bs, sget a.vals k = some (some bs) → bs.length = ewBytes a.ew) (tm : Team) (off : Nat) :
    spByte (burstTeam a tm) off = burstByte a (spByte tm) off := by
  have hend : a.next ≤ burstEnd a := le_min hnext (Nat.le_add_right ..)
  have hbytes : ewBytes a.ew * a.next ≤ ewBytes a.ew * burstEnd a := Nat.mul_le_mul_left _ hend
  have hround : burstEnd a = a.n → ewBytes a.ew * burstEnd a = a.n * ewBytes a.ew := fun h => by rw [h, Nat.mul_comm]
  have helems := spByte_burstElems hlen (burstEnd a - a.next) tm off
  rw [Nat.add_sub_cancel' hend] at helems
  have hteam : spByte (burstTeam a tm) off =
      if burstEnd a = a.n ∧ a.dst + a.n * ewBytes a.ew ≤ off ∧ off < a.dst + (a.n * ewBytes a.ew + 63) / 64 * 64 then 0
      else spByte (burstElems a (burstEnd a - a.next) tm) off := by
    unfold burstTeam
    by_cases hlast : burstEnd a = a.n
    · simp only [hlast, if_true, spByte_burstFill, true_and]
    · simp only [hlast, if_false, false_and]
  rw [hteam, helems, burstByte_eq]
  by_cases hbefore : off < a.dst + ewBytes a.ew * a.next
  · rw [if_neg (by omega), if_neg (by omega), if_pos hbefore]
  · by_cases hin : off < a.dst + ewBytes a.ew * burstEnd a
    · rw [if_neg (by omega), if_pos ⟨Nat.le_of_not_lt hbefore, hin⟩, if_neg hbefore, if_pos hin]
    · rw [if_neg (c := _ ∧ off < _) (by omega), if_neg hbefore, if_neg hin]
      exact if_congr (by omega) rfl rfl

section Write
variable (s : State) (t b : Nat) (a : Awl)

theorem awlWrite_mem (last : Nat) : (awlWrite s t b a last).mem = s.mem := by
  rw [awlWrite_eq]
  split <;> rfl

theorem awlWrite_ops (last : Nat) : (awlWrite s t b a last).ops = s.ops := by
  rw [awlWrite_eq]
  split <;> rfl

theorem awlWrite_team {tm : Team} (ht : sget s.teams t = some tm) :
    sget (awlWrite s t b a (burstEnd a)).teams t = some (burstTeam a tm) := by
  rw [awlWrite_eq, burstTeam]
  split
  · exact (sget_smod_eq ..).trans (by rw [show (modTeam s t _).teams = smod s.teams t _ from rfl, sget_smod_eq, ht]; rfl)
  · exact (sget_smod_eq ..).trans (by rw [ht]; rfl)

end Write

/-! ## The event -/

section Burst
variable {s : State} {op b order : Nat} {o : Op} {a : Awl}

theorem awlBurst_unread (h : ∃ k, a.next ≤ k ∧ k < burstEnd a ∧ sget a.vals k = none) : awlBurst s op o b order a = s := by
  obtain ⟨k, hlo, hhi, hnone⟩ := h
  have hany : ((List.range (burstEnd a - a.next)).any fun k => (sget a.vals (a.next + k)).isNone) = true :=
    List.any_eq_true.2 ⟨k - a.next, List.mem_range.2 (by omega), by rw [Nat.add_sub_cancel' hlo, hnone]; rfl⟩
  exact if_pos hany

/-- A burst whose elements have been read ends the gather, or leaves it at the next element. -/
theorem awlBurst_read (h : ∀ k, a.next ≤ k → k < burstEnd a → (sget a.vals k).isSome = true) :
    awlBurst s op o b order a =
      if burstEnd a = a.n then endEngine s op fun s => awlWrite s o.team b a (burstEnd a)
      else setKind (awlWrite s o.team b a (burstEnd a)) op (.awl b order { a with next := burstEnd a }) := by
  have hany : ((List.range (burstEnd a - a.next)).any fun k => (sget a.vals (a.next + k)).isNone) = false :=
    List.any_eq_false.2 fun k hk => by
      rw [Option.isNone_iff_eq_none, ← Option.not_isSome_iff_eq_none, not_not]
      exact h _ (Nat.le_add_right ..) (by have := List.mem_range.1 hk; omega)
  exact if_neg (Bool.eq_false_iff.1 hany)

/-- What a burst leaves whose elements have all been read and which nothing counts early. -/
theorem awlBurst_written (hnext : a.next ≤ a.n) (hop : ∃ a', sget s.ops op = some { o with kind := .awl b order a' })
    (hread : ∀ k, a.next ≤ k → k < burstEnd a → (sget a.vals k).isSome = true)
    (hlen : ∀ k bs, sget a.vals k = some (some bs) → bs.length = ewBytes a.ew)
    (hearly : burstEnd a = a.n → countEarly s op = none) :
    let t := awlBurst s op o b order a
    t.mem = s.mem ∧
      (∀ tm1, sget s.teams o.team = some tm1 → ∃ tm2, sget t.teams o.team = some tm2 ∧
        ∀ off, spByte tm2 off = burstByte a (spByte tm1) off) ∧
      (burstEnd a = a.n → sget t.ops op = none) ∧
      (burstEnd a < a.n → (sget t.ops op).map (·.kind) = some (.awl b order { a with next := burstEnd a })) := by
  simp only [awlBurst_read hread]
  by_cases hlast : burstEnd a = a.n
  · rw [if_pos hlast, endEngine_of_none (hearly hlast)]
    refine ⟨(completeOp_mem ..).trans (awlWrite_mem ..), fun tm1 htm1 => ?_, fun _ => sget_ops_completeOp .., fun hlt => by omega⟩
    obtain ⟨tm2, htm2, hhull⟩ := team_of_hull (hull_completeOp (awlWrite s o.team b a (burstEnd a)) op)
      (awlWrite_team s o.team b a htm1)
    have hscratch : tm2.scratch = (burstTeam a tm1).scratch := (congrArg Team.scratch hhull :)
    exact ⟨tm2, htm2, fun off => by rw [spByte, hscratch]; exact spByte_burstTeam hnext hlen tm1 off⟩
  · rw [if_neg hlast]
    obtain ⟨a', ha'⟩ := hop
    refine ⟨awlWrite_mem s o.team b a _, fun tm1 htm1 => ⟨_, awlWrite_team s o.team b a htm1, spByte_burstTeam hnext hlen tm1⟩,
      fun h => absurd h hlast, fun _ => ?_⟩
    exact (congrArg _ (sget_smod_eq ..)).trans (by rw [awlWrite_ops, ha']; rfl)

end Burst

section Event
variable {s : State} {op b order : Nat} {o : Op} {tm : Team} {a0 : Awl} (ho : sget s.ops op = some o)
  (ht : sget s.teams o.team = some tm) (hk : o.kind = .awl b order a0)
include ho ht hk

theorem exec_awlBurst_none (h : gatherOf (gathersOn s tm b order op a0) op = none) :
    exec (.awlBurst op) s = .next (gathersOn s tm b order op a0) := by
  rw [gathersOn] at h
  change execAwlBurst op s = _
  simp only [execAwlBurst, ho, ht, hk, h]
  rfl

theorem exec_awlBurst_some {a : Awl} (h : gatherOf (gathersOn s tm b order op a0) op = some a) :
    exec (.awlBurst op) s = .next (awlBurst (gathersOn s tm b order op a0) op o b order a) := by
  rw [gathersOn] at h
  change execAwlBurst op s = _
  simp only [execAwlBurst, ho, ht, hk, h]
  rfl

end Event

/-- Settles O39: copies and expansions by `copyRequestComplete_copy` and `copyRequestComplete_expand`, a burst by
`awlBurst_written` after the reads of `gathersOn_kept`. -/
theorem copiesComplete : Obligations.CopiesComplete := by
  refine ⟨⟨?copy, ?expand, fun _ _ _ => copyRequestComplete_frozen, ?early⟩, ?burst, ?place, ?sentinel⟩
  case copy =>
    intro s op o tm b order elems out wait more s' ho ht hk hf hr
    have hexec := copyRequestComplete_copy ho ht hf hk hr
    refine ⟨fun hwait => by rw [hexec, if_pos hwait], fun hwait hnone => ?_, fun u hwait hsome => ⟨?_, ?_⟩⟩
    · rw [hexec, if_neg (not_not.2 hwait), endEngine_of_none hnone]
    · rw [hexec, if_neg (not_not.2 hwait), endEngine_of_some hsome]
    · obtain ⟨-, -, -, -, hmem⟩ := countEarly_spec hsome
      exact hmem
  case expand =>
    intro s op o tm b order dst n w tab at_ ps ho ht hk hf hloads
    have hexec := copyRequestComplete_expand ho ht hf hk hloads
    exact ⟨fun hnone => by rw [hexec, endEngine_of_none hnone], fun u hsome => by rw [hexec, endEngine_of_some hsome]⟩
  case early =>
    intro s op u hsome
    obtain ⟨o, ho, hdc, hop, -⟩ := countEarly_spec hsome
    exact ⟨o, ho, hdc, hop⟩
  case burst =>
    intro s op o tm b order a0 ho ht hk _
    refine ⟨exec_awlBurst_none ho ht hk, fun a ha hnext => ?_⟩
    have hexec := exec_awlBurst_some ho ht hk ha
    obtain ⟨hmem, -, hop⟩ := gathersOn_kept ho ht hk ha
    refine ⟨hmem, fun hunread => by rw [hexec, awlBurst_unread hunread], fun hread hlen hearly => ?_, fun u hlast hread hsome => ?_⟩
    · obtain ⟨hkept, hburst, hends, hgoes⟩ := awlBurst_written hnext hop hread hlen hearly
      exact ⟨_, hexec, hkept.trans hmem, hburst, hends, hgoes⟩
    · rw [hexec, awlBurst_read hread, if_pos hlast, endEngine_of_some hsome]
  case place => exact fun _ _ _ _ _ _ _ _ _ _ => awlElem_place
  case sentinel => exact fun _ _ _ _ _ _ _ _ _ => awlElem_sentinel

end Sys2Proof.Laws
end

section
/-! SUPPORT. Completed batches (R235 to R237): the record, the ring's count, and the posts of the batch's semaphore. -/

namespace Sys2Proof.Laws
open Sys2Proof.Machine

/-! ## The turn of a batch at its ring (R236) -/

/-- A batch may take its ring's next count: it is closed, its requests have completed, its posts are made, no earlier batch of its
team waits for the ring, and its engine is not frozen. -/
structure RingTurn (s : State) (b : Nat) (q : Batch) (c : BatchClose) (tm : Team) : Prop where
  batch    : sget s.batches b = some q
  close    : q.close = some c
  team     : sget s.teams q.team = some tm
  requests : requestsDone s q = true
  posts    : q.sem = none ∨ q.posted = chunksDue s q
  first    : ringBefore s q c = false
  runs     : unitFrozen s .copy q.core = false

/-- The batch `q` counts in PROD and writes its record at the ring's next place. -/
def recordPut (s : State) (q : Batch) (c : BatchClose) (tm : Team) : State :=
  let n := ringProd s c.desc
  let die := some (coreDie q.core)
  let u := homeWrite s tm.ctx die (c.desc.va + 12) (c.desc.pa + 12) c.desc.mv c.desc.tracked (natLe 4 (n + 1))
  let p := placeAt c.ring (recordOff c.base c.logn n)
  homeWrite u tm.ctx die p.va p.pa p.mv p.tracked (natLe 32 (recordWord u q c.tag n))

/-- The batch leaves with its record written: a marked engine forks, and the CPYC's operation ends. -/
def recordDone (s : State) (b : Nat) (q : Batch) (c : BatchClose) (tm : Team) : State :=
  let u := recordPut s q c tm
  let p := placeAt c.ring (recordOff c.base c.logn (ringProd s c.desc))
  let u := if q.mark || p.mv || c.desc.mv then forkAll u tm.ctx else u
  completeOp { u with batches := serase u.batches b } c.op

section Turn
variable {s : State} {b : Nat} {q : Batch} {c : BatchClose} {tm : Team} (h : RingTurn s b q c tm)
include h

/-- At its turn a batch finds room in the ring, or notes that it is full. -/
theorem writeRecord_of_turn : writeRecord s b =
    if 2 ^ c.logn ≤ (ringProd s c.desc + 2 ^ 32 - ringCons s c.desc) % 2 ^ 32 then
      modBatch (noteError s b c.desc.pa) b fun q => { q with full := true }
    else recordDone (noteError s b c.desc.pa) b (afterRead s c.desc.pa q) c tm := by
  obtain ⟨hbatch, hclose, hteam, hrequests, hposts, hfirst, hruns⟩ := h
  have hposted : (q.sem.isSome && decide (q.posted ≠ chunksDue s q)) = false := by
    rcases hposts with hnone | hall
    · rw [hnone]; rfl
    · rw [hall]; simp
  simp only [writeRecord, hbatch, hclose, hteam, hrequests, hposted, hfirst, hruns, Bool.not_true, Bool.or_self, Bool.false_eq_true,
    if_false, sgetD, sget_batches_noteError hbatch, Option.getD_some, ringProd, ringCons, noteError_mem,
    recordDone, recordPut]

end Turn

section Events
variable {s : State} {b : Nat} {q : Batch} {i : Instr}

/-- BATCH_COMPLETE, and RING_FULL_RETRY of a batch that has found its ring full, try to write the record. -/
theorem exec_of_ringEvent (hi : i = .batchComplete b ∨ (i = .ringFullRetry b ∧ q.full = true)) (hq : sget s.batches b = some q) :
    exec i s = .next (writeRecord s b) := by
  obtain rfl | ⟨rfl, hfull⟩ := hi
  · rfl
  · change execRingFullRetry b s = _
    simp only [execRingFullRetry, hq, hfull, if_true]

theorem writeRecord_of_frozen (hq : sget s.batches b = some q) (hfrozen : unitFrozen s .copy q.core = true) :
    writeRecord s b = s := by
  unfold writeRecord
  simp only [hq]
  split
  · rw [hfrozen]
    rfl
  · rfl

end Events

/-! ## The record -/

/-- The record of a batch takes from the machine its time alone. -/
theorem recordWord_of_cycle {s t : State} (h : t.cycle = s.cycle) (q : Batch) (tag : Word) (n : Nat) :
    recordWord t q tag n = recordWord s q tag n := by
  simp only [recordWord, timeOf, h]

theorem cycle_homeWrite (s : State) (ctx : Nat) (die : Option Nat) (va pa : Nat) (mv track : Bool) (bs : List Byte) :
    (homeWrite s ctx die va pa mv track bs).cycle = s.cycle :=
  (congrArg State.cycle (bare_homeWrite s ctx die va pa mv track bs) :)

theorem mem_recordDone (s : State) (b : Nat) (q : Batch) (c : BatchClose) (tm : Team) :
    (recordDone s b q c tm).mem =
      memSets (memSets s.mem (c.desc.pa + 12) (natLe 4 (ringProd s c.desc + 1)))
        (placeAt c.ring (recordOff c.base c.logn (ringProd s c.desc))).pa
        (natLe 32 (recordWord s q c.tag (ringProd s c.desc))) := by
  have hput : (recordPut s q c tm).mem = _ := (mc_homeWrite ..).1
  rw [(mc_homeWrite ..).1, recordWord_of_cycle (cycle_homeWrite ..)] at hput
  unfold recordDone
  simp only [completeOp_mem]
  split <;> exact hput

theorem recordDone_ends (s : State) (b : Nat) (q : Batch) (c : BatchClose) (tm : Team) :
    sget (recordDone s b q c tm).batches b = none ∧ sget (recordDone s b q c tm).ops c.op = none := by
  refine ⟨?_, sget_ops_completeOp ..⟩
  simp only [recordDone, completeOp_batches, sget_serase_eq]

/-- PROD counts the record where the record does not lie over it. -/
theorem ringProd_of_mem {m : List Host.Cell} {t : State} {desc : Place} {p n : Nat} {bs : List Byte}
    (h : t.mem = memSets (memSets m (desc.pa + 12) (natLe 4 n)) p bs)
    (hout : p + bs.length ≤ desc.pa + 12 ∨ desc.pa + 16 ≤ p) : ringProd t desc = n % 2 ^ 32 := by
  rw [ringProd, h, memNat_memSets_out _ _ _ _ _ (by omega), memNat_memSets_same]
  norm_num

/-! ## Posts (R237) -/

theorem chunkPost_posts {s : State} {b k : Nat} {q : Batch} {tm : Team} (hq : sget s.batches b = some q)
    (hclosed : q.close.isSome = true) (hsem : q.sem = some k) (hdue : q.posted < chunksDue s q) (ht : sget s.teams q.team = some tm)
    (hruns : unitFrozen s .copy q.core = false) :
    ∃ t tm', exec (.chunkPost b) s = .next t ∧ sget t.teams q.team = some tm' ∧
      semOf tm' (BitVec.ofNat 5 k) = semPost 1 (semOf tm (BitVec.ofNat 5 k)) ∧
      (sget t.batches b).map (·.posted) = some (q.posted + 1) ∧ t.mem = s.mem := by
  have hposts : exec (.chunkPost b) s = .next (postChunks s b 1) := by
    change execChunkPost b s = _
    simp only [execChunkPost, hq, hruns, hclosed, hsem, hdue, Option.isSome_some, Bool.not_false, decide_true, Bool.and_self, if_true]
  have hpost : postChunks s b 1 =
      modBatch (setSem s q.team (BitVec.ofNat 5 k) (semPost 1)) b fun q => { q with posted := q.posted + 1 } := by
    simp only [postChunks, hq, hsem]
  rw [hpost] at hposts
  refine ⟨_, _, hposts, (sget_smod_eq ..).trans (by rw [ht]; rfl), ?_, ?_, rfl⟩
  · rw [semOf, sgetD, sget_sset_eq, Option.getD_some]
  · exact (congrArg _ (sget_smod_eq ..)).trans (by rw [show (setSem s _ _ _).batches = s.batches from rfl, hq]; rfl)

/-- Settles O40: `writeRecord_of_turn` with the two writes of `mem_recordDone`, and the posts by `chunkPost_posts`. -/
theorem batchesComplete : Obligations.BatchesComplete := by
  refine ⟨?record, ?full, fun _ _ _ _ _ hq hclosed hsem _ hdue ht => chunkPost_posts hq hclosed hsem hdue ht, ?frozen⟩
  case record =>
    intro s b q c tm i hi hbatch hclose hteam hrequests hposts hfirst hruns hroom
    have hturn : RingTurn s b q c tm := ⟨hbatch, hclose, hteam, hrequests, hposts, hfirst, hruns⟩
    have hprod : ringProd (noteError s b c.desc.pa) c.desc = ringProd s c.desc := by rw [ringProd, noteError_mem, ringProd]
    have hmem := mem_recordDone (noteError s b c.desc.pa) b (afterRead s c.desc.pa q) c tm
    rw [hprod, noteError_mem, recordWord_of_cycle (noteError_cycle s b c.desc.pa)] at hmem
    obtain ⟨hleft, hended⟩ := recordDone_ends (noteError s b c.desc.pa) b (afterRead s c.desc.pa q) c tm
    refine ⟨_, (exec_of_ringEvent hi hbatch).trans (congrArg _ ((writeRecord_of_turn hturn).trans (if_neg (Nat.not_le.2 hroom)))),
      hleft, hended, ?_, fun hout => ?_, fun a hrec hcount => ?_⟩
    · rw [hmem, memNat_memSets_same]
      rfl
    · exact ringProd_of_mem hmem (by rwa [length_natLe])
    · rw [hmem, memByte_memSets_out _ _ _ _ (by rw [length_natLe]; omega), memByte_memSets_out _ _ _ _ (by rw [length_natLe]; omega)]
  case full =>
    intro s b q c tm i hi hbatch hclose hteam hrequests hposts hfirst hruns hfull
    rw [exec_of_ringEvent hi hbatch, writeRecord_of_turn ⟨hbatch, hclose, hteam, hrequests, hposts, hfirst, hruns⟩, if_pos hfull]
  case frozen =>
    intro s b q i hi hq hfrozen
    have hkept := writeRecord_of_frozen hq hfrozen
    obtain rfl | rfl | rfl := hi
    · exact congrArg Host.Outcome.next hkept
    · change execRingFullRetry b s = _
      simp only [execRingFullRetry, hq, hkept, ite_self]
    · change execChunkPost b s = _
      simp only [execChunkPost, hq, hfrozen, Bool.not_true, Bool.false_and, Bool.false_eq_true, if_false]

end Sys2Proof.Laws
end

section
/-! SUPPORT. Words of the sequencer by what their bodies do at a site, and the uniform and tile-predicate registers (R39, R270 to
R275). -/

namespace Sys2Proof.Laws
open Sys2Proof.Machine

/-! ## Words by their bodies -/

section Bodies
variable {i : Instr} {r : SReq} {body : SSite → State → SRes} {ok : SSite → State → Prop} {eff : SSite → State → State}

/-- A sequencer's word that runs a body completes where the body retires. -/
theorem seqCompletes_of_body (hexec : ∀ s, exec i s = .next (issueSeq r body s))
    (hbody : ∀ x s, ok x s → body x s = .retire (eff x s)) : SeqCompletes i r ok eff := by
  intro s x hs hok
  rw [hexec, issueSeq_retire hs (hbody x s hok)]

theorem seqHolds_of_body (hexec : ∀ s, exec i s = .next (issueSeq r body s))
    (hbody : ∀ x s, ok x s → body x s = .hold (eff x s)) : SeqHolds i r ok eff := by
  intro s x hs hok
  rw [hexec, issueSeq_hold hs (hbody x s hok)]

end Bodies

/-! ## Registers of the sequencer -/

/-- A bit of a field after a write of one of its bits. -/
theorem getLsbD_writeBit {w : Nat} (v : BitVec w) (b : Bool) {n m : Nat} (hm : m < w) :
    (v &&& ~~~(1#w <<< n) ||| (BitVec.ofBool b).zeroExtend w <<< n).getLsbD m = if m = n then b else v.getLsbD m := by
  have hbit : (BitVec.ofBool b).getLsbD (m - n) = (decide (m - n = 0) && b) := by
    cases b <;> simp
  simp only [BitVec.getLsbD_or, BitVec.getLsbD_and, BitVec.getLsbD_not, BitVec.getLsbD_shiftLeft, BitVec.getLsbD_setWidth,
    BitVec.getLsbD_one, hm, hbit, BitVec.truncate_eq_setWidth]
  by_cases hmn : m = n
  · have hw : 0 < w := by omega
    simp [hmn, hw]
  · have hside : m < n ∨ ¬m - n = 0 := by omega
    obtain h | h := hside <;> simp [hmn, h]

section Registers
variable {s : State} {t : Nat} {tm : Team} {q : Seq} (ht : sget s.teams t = some tm)
include ht

theorem sget_modTeam (f : Team → Team) : sget (modTeam s t f).teams t = some (f tm) :=
  (sget_smod_eq ..).trans (by rw [ht]; rfl)

variable (hq : tm.seq = some q)
include hq

theorem sget_modSeq (f : Seq → Seq) : sget (modSeq s t f).teams t = some { tm with seq := some (f q) } := by
  rw [modSeq, sget_modTeam ht, hq]
  rfl

theorem gWrite_reads (n : Nat) (v : DWord) (m : Nat) :
    ∃ tm', sget (gWrite s t n v).teams t = some tm' ∧ gRead tm' m = (if m = n then v else gRead tm m) ∧
      ∀ p, qRead (tm'.seq.getD q) p = qRead q p := by
  refine ⟨_, sget_modSeq ht hq _, ?_, fun p => rfl⟩
  rw [gRead, gRead, hq]
  exact (sgetD_ssetD ..).trans (if_congr eq_comm rfl rfl)

theorem qWrite_reads (n : QReg) (b : Bool) (p : QReg) :
    ∃ tm', sget (qWrite s t n b).teams t = some tm' ∧
      qRead (tm'.seq.getD q) p = (if p = n ∧ n ≠ 15 then b else qRead q p) ∧ ∀ m, gRead tm' m = gRead tm m := by
  refine ⟨_, sget_modSeq ht hq _, ?_, fun m => ?_⟩
  · rw [Option.getD_some, qRead, qRead]
    by_cases hn : n = 15
    · rw [if_pos hn, if_neg (c := p = n ∧ n ≠ 15) fun h => h.2 hn]
    · rw [if_neg hn]
      by_cases hp : p = 15
      · rw [if_pos hp, if_pos hp, if_neg (by rintro ⟨rfl, h⟩; exact h hp)]
      · have hlt : p.toNat < 15 := by have := p.isLt; have : p.toNat ≠ 15 := fun h => hp (BitVec.eq_of_toNat_eq h); omega
        simp only [if_neg hp, getLsbD_writeBit _ _ hlt, hn, ne_eq, not_false_eq_true, and_true, BitVec.toNat_inj]
  · rw [gRead, gRead, hq]
    simp only
    split <;> rfl

end Registers

/-! ## Uniform and tile-predicate words (R270 to R272) -/

theorem extS64_src6_imm (tm : Team) (sgn : Bool) (v : BitVec 6) :
    extS64 sgn (src6 tm sgn (.imm v)) = if sgn then v.toInt else v.toNat := by
  cases sgn with
  | true => exact BitVec.toInt_signExtend_of_le (by decide)
  | false =>
    simp only [extS64, src6, Bool.false_eq_true, if_false, BitVec.truncate_eq_setWidth, BitVec.toNat_setWidth]
    omega

/-- An immediate amount of a shift is below 64. -/
theorem toNat_src6_imm_mod (tm : Team) (v : BitVec 6) : (src6 tm false (.imm v)).toNat % 64 = v.toNat := by
  have hv : v.toNat < 64 := v.isLt
  simp only [src6, Bool.false_eq_true, if_false, BitVec.truncate_eq_setWidth, BitVec.toNat_setWidth]
  omega

theorem gshl_imm_completes (h : HeadX) (gd ga : GReg) (v : BitVec 6) (op : GshOp) :
    SeqCompletes (.gshl h gd ga (.imm v) op) { guard := some h, gs := [gd.toNat, ga.toNat] } alwaysSeq fun x s =>
      gWrite s x.t gd.toNat (match op with
        | .l => gRead x.tm ga.toNat <<< v.toNat
        | .r => gRead x.tm ga.toNat >>> v.toNat
        | .ra => (gRead x.tm ga.toNat).sshiftRight v.toNat) :=
  seqCompletes_of_body (fun _ => rfl) fun x s _ => by
    cases op <;> simp only [toNat_src6_imm_mod]

theorem gcmp_imm_completes (h : HeadX) (qd : QReg) (ga : GReg) (v : BitVec 6) (cmp : Cmp) (sgn : Bool) :
    SeqCompletes (.gcmp h qd ga (.imm v) cmp sgn) { guard := some h, gs := [ga.toNat], ok := fun _ => qd ≠ 15 } alwaysSeq
      fun x s => qWrite s x.t qd (cmpInt cmp (extS64 sgn (gRead x.tm ga.toNat)) (if sgn then v.toInt else v.toNat)) :=
  seqCompletes_of_body (fun _ => rfl) fun x s _ => by
    simp only [extS64_src6_imm]

/-- Each word's body writes what its table's row gives; the immediates of shifts and comparisons apart, it is the row's own term. -/
theorem uniformWord_completes {i : Instr} {gd : GReg} {r : SReq} {f : SSite → DWord} (h : uniformWord i = some (gd, r, f)) :
    SeqCompletes i r alwaysSeq fun x s => gWrite s x.t gd.toNat (f x) := by
  unfold uniformWord at h
  split at h <;> cases h
  case h_8 => exact gshl_imm_completes _ _ _ _ _
  all_goals exact seqCompletes_of_body (fun _ => rfl) fun _ _ _ => rfl

theorem tileWord_completes {i : Instr} {qd : QReg} {r : SReq} {f : SSite → Bool} (h : tileWord i = some (qd, r, f)) :
    SeqCompletes i r alwaysSeq fun x s => qWrite s x.t qd (f x) := by
  unfold tileWord at h
  split at h <;> cases h
  case h_2 => exact gcmp_imm_completes _ _ _ _ _ _
  all_goals exact seqCompletes_of_body (fun _ => rfl) fun _ _ _ => rfl

/-! ## GLD and the control of the stream (R273 to R275) -/

theorem gld_sp_completes (h : HeadX) (gd ga : GReg) (imm : BitVec 10) :
    SeqCompletes (.gld h gd ga imm true) { guard := some h, dc := h.xdc.toNat, gs := [gd.toNat, ga.toNat], held := bufHeldSeq }
      (fun x _ => checkSp x.tm (((gRead x.tm ga.toNat).extractLsb' 0 32) + imm.signExtend 32).toNat 8 .load .spTeam = none)
      fun x s => openGld s x h gd (.sp x.t (((gRead x.tm ga.toNat).extractLsb' 0 32) + imm.signExtend 32).toNat, 8) :=
  seqCompletes_of_body (fun _ => rfl) fun x s hpass => by
    simp only [if_true, hpass]

theorem gld_global_completes (h : HeadX) (gd ga : GReg) (imm : BitVec 10) (loc : Loc) :
    SeqCompletes (.gld h gd ga imm false) { guard := some h, dc := h.xdc.toNat, gs := [gd.toNat, ga.toNat], held := bufHeldSeq }
      (fun x s => checkGlobal s x.tm.ctx (gRead x.tm ga.toNat + imm.signExtend 64) 8 .ls false = .ok loc)
      fun x s => openGld (xlatFill s x.tm.core x.tm.ctx (gRead x.tm ga.toNat + imm.signExtend 64).toNat loc) x h gd
        (.mem (placeOf (gRead x.tm ga.toNat + imm.signExtend 64).toNat .ls loc), 8) :=
  seqCompletes_of_body (fun _ => rfl) fun x s hpass => by
    simp only [Bool.false_eq_true, if_false, hpass]

/-- GLOOP ends where its count comes to 0. -/
theorem gloop_count_eq_zero {v : DWord} : v - 1 = 0 ↔ v = 1 := sub_eq_zero

theorem gloop_holds (h : HeadX) (gd : GReg) (off : BitVec 32) :
    SeqHolds (.gloop h gd off) { guard := some h, gs := [gd.toNat] } (fun x _ => gRead x.tm gd.toNat ≠ 1) fun x s =>
      modSeq (gWrite s x.t gd.toNat (gRead x.tm gd.toNat - 1)) x.t (seqTo (seqTarget x.q off)) :=
  seqHolds_of_body (fun _ => rfl) fun _ _ hcount => if_neg (gloop_count_eq_zero.not.2 hcount)

theorem gloop_completes (h : HeadX) (gd : GReg) (off : BitVec 32) :
    SeqCompletes (.gloop h gd off) { guard := some h, gs := [gd.toNat] } (fun x _ => gRead x.tm gd.toNat = 1) fun x s =>
      gWrite s x.t gd.toNat 0 :=
  seqCompletes_of_body (fun _ => rfl) fun _ _ hcount => by
    simp only [gloop_count_eq_zero.2 hcount, if_true]

/-- Settles O45: every word by its body, and what the writes of registers leave by `gWrite_reads` and `qWrite_reads`. -/
theorem streamWords : Obligations.StreamWords :=
  ⟨⟨fun _ _ _ _ => uniformWord_completes, fun _ _ _ _ => tileWord_completes,
    fun _ _ _ _ n v m ht hq => gWrite_reads ht hq n v m, fun _ _ _ _ n b p ht hq => qWrite_reads ht hq n b p⟩,
   gld_sp_completes, gld_global_completes, fun _ _ => seqHolds_of_body (fun _ => rfl) fun _ _ _ => rfl, gloop_holds,
   gloop_completes, seqHolds_of_body (fun _ => rfl) fun _ _ _ => rfl⟩

end Sys2Proof.Laws
end

section
/-! SUPPORT. SEQUENCER_TRAP_DELIVERY (R255): what the delivery leaves of the group that takes the trap. -/

namespace Sys2Proof.Laws
open Sys2Proof.Machine

theorem abandonWait_spec {tm : Team} {k : Nat} {g : Group} (hg : sget tm.groups k = some g) :
    sget (abandonWait k tm).groups k = some { g with status := .ready, seen := false, counted := false, cons := [], lays := [] } ∧
      (abandonWait k tm).seq = tm.seq := by
  have hmod : sget (smod tm.groups k fun g => { g with status := .ready, seen := false, counted := false, cons := [], lays := [] }) k
      = some { g with status := .ready, seen := false, counted := false, cons := [], lays := [] } := by
    rw [sget_smod_eq, hg, Option.map_some]
  simp only [abandonWait, hg]
  split <;> exact ⟨hmod, rfl⟩

theorem trap_of_teamBare {tm tm' : Team} (h : teamBare tm' = teamBare tm) : tm'.seq.bind (·.trap) = tm.seq.bind (·.trap) := by
  have hseq : (teamBare tm').seq.bind (·.trap) = (teamBare tm).seq.bind (·.trap) := congrArg (fun tm : Team => tm.seq.bind (·.trap)) h
  simpa only [teamBare, Option.bind_map, Function.comp_def] using hseq

/-- Delivering a trap puts its group into the handler and names the slot in the trap. -/
theorem deliverTo_spec {s : State} {t k : Nat} {tm : Team} {g : Group} {q : SeqTrap} (ht : sget s.teams t = some tm)
    (hg : sget tm.groups k = some g) (hhandler : g.handler = false) (htransfer : g.transfer = none) (hvec : tm.htvec ≠ 0)
    (hseq : tm.seq.isSome = true) :
    ∃ tm' g0, sget (deliverTo s t k q).teams t = some tm' ∧ sget tm'.groups k = some (deliverGroup g0 tm.htvec q) ∧
      tm'.seq.bind (·.trap) = some { q with slot := some k } := by
  obtain ⟨hgroup, hkept⟩ := abandonWait_spec hg
  obtain ⟨sq, hsq⟩ := Option.isSome_iff_exists.1 hseq
  have hdelivered : deliverTo s t k q = tracePut (modSeq (modTeam s t fun tm => modGroup (abandonWait k tm) k fun g =>
      deliverGroup g tm.htvec q) t fun sq => { sq with trap := some { q with slot := some k } }) tm.core
      (.trap (slotId tm k) q.cause q.hpc) := by
    simp only [deliverTo, ht, hg, hhandler, htransfer, hvec, Option.isSome_none, Bool.or_self, Bool.false_eq_true, if_false]
  have hteam := sget_modSeq (sget_modTeam ht fun tm => modGroup (abandonWait k tm) k fun g => deliverGroup g tm.htvec q)
    (hkept.trans hsq) fun sq => { sq with trap := some { q with slot := some k } }
  obtain ⟨tm', ht', hbare⟩ := team_of_bare (bare_tracePut _ tm.core (.trap (slotId tm k) q.cause q.hpc)) hteam
  have hdelivers := (sget_smod_eq (abandonWait k tm).groups k fun g => deliverGroup g tm.htvec q).trans
    (by rw [hgroup, Option.map_some])
  exact ⟨tm', _, by rw [hdelivered]; exact ht', (congrArg (sget · k) (groups_of_teamBare hbare)).trans hdelivers,
    by rw [trap_of_teamBare hbare]; rfl⟩

section Delivery
variable {s : State} {t : Nat} {tm : Team} {q : SeqTrap} (ht : sget s.teams t = some tm) (hq : tm.seq.bind (·.trap) = some q)
  (hslot : q.slot = none) (hrun : teamRuns s tm = true)
include ht hq hslot hrun

/-- The trap of a team that may run goes to the group of its lowest live matrix-role thread. -/
theorem exec_sequencerTrapDelivery_group {i k : Nat} {rest : List Nat} (hlive : liveOf tm .matrix = i :: rest)
    (hk : slotWith tm i = some k) : exec (.sequencerTrapDelivery t) s = .next (deliverTo s t k q) := by
  change execSequencerTrapDelivery t s = _
  simp only [execSequencerTrapDelivery, ht, hq, hslot, hrun, hlive, hk, Option.isSome_none, Bool.not_true, Bool.or_self,
    Bool.false_eq_true, if_false]

theorem exec_sequencerTrapDelivery_none (hlive : liveOf tm .matrix = []) :
    exec (.sequencerTrapDelivery t) s = .next (fatalFault s tm.ctx tm.core q.hpc q.cause) := by
  change execSequencerTrapDelivery t s = _
  simp only [execSequencerTrapDelivery, ht, hq, hslot, hrun, hlive, Option.isSome_none, Bool.not_true, Bool.or_self,
    Bool.false_eq_true, if_false]

end Delivery

/-- Settles O48: the group that takes the trap stands as `deliverGroup` makes it. -/
theorem sequencerTrapsAreDelivered : Obligations.SequencerTrapsAreDelivered := by
  refine ⟨?_, fun s t tm q ht hq hslot hrun hlive => exec_sequencerTrapDelivery_none ht hq hslot hrun hlive⟩
  intro s t tm q i rest k g ht hq hslot hrun hlive hk hg hhandler htransfer hvec
  have hseq : tm.seq.isSome = true := by
    cases hs : tm.seq with
    | none => rw [hs] at hq; cases hq
    | some sq => rfl
  obtain ⟨tm', g0, ht', hg', htrap⟩ := deliverTo_spec (q := q) ht hg hhandler htransfer hvec hseq
  exact ⟨_, tm', _, exec_sequencerTrapDelivery_group ht hq hslot hrun hlive hk, ht', hg', rfl, rfl, rfl, rfl, rfl, rfl, rfl,
    by rw [htrap]; rfl⟩

end Sys2Proof.Laws
end

section
/-! SUPPORT. B quarters (R257 to R261), debits (R268), and MMA and SMMA as they issue (R256, R262 to R267). -/

namespace Sys2Proof.Laws
open Sys2Proof.Machine

/-! ## B quarters -/

theorem qbind_completes (h : Head) (a b : VReg) (st sc : Bool) (n : BitVec 4) :
    GroupCompletes (.qbind h a b st sc n)
      { quarterReq h ((a.toNat, n.toNat) :: (if sc then one [b] else [])) with ok := fun _ => 2 ≤ n.toNat && n.toNat ≤ 8 }
      (fun x _ => x.act ≠ []) fun x s =>
        openLong (modTeam s x.t fun tm => modStage tm (stageKey x.k st) fun q =>
          { q with reqs := q.reqs ++ [{ op := s.nextOp, quarter := some (latchQuarter a b sc n.toNat x (x.view s)) }] }) x h
          (groupOp x h.dc (.stage (stageKey x.k st))) [] :=
  groupCompletes_of_body (fun _ => rfl) fun _ _ hact => if_neg hact

theorem qrel_completes (h : Head) (st : Bool) :
    GroupCompletes (.qrel h st) (quarterReq h []) (fun x _ => x.act ≠ []) fun x s =>
      openLong (modTeam s x.t fun tm => modStage tm (stageKey x.k st) fun q =>
        { q with reqs := q.reqs ++ [{ op := s.nextOp, quarter := none }] }) x h (groupOp x h.dc (.stage (stageKey x.k st))) [] :=
  groupCompletes_of_body (fun _ => rfl) fun _ _ hact => if_neg hact

@[simp] theorem stageOf_modStage (tm : Team) (k : Nat) (f : BStage → BStage) : stageOf (modStage tm k f) k = f (stageOf tm k) := by
  simp only [stageOf, modStage, sgetD, sget_sset_eq, Option.getD_some]

/-- The end of an operation leaves each team but for its threads, groups and sequencer. -/
theorem team_of_completeOp {s : State} {t : Nat} {tm : Team} (ht : sget s.teams t = some tm) (op : Nat) :
    ∃ tm', sget (completeOp s op).teams t = some tm' ∧ teamHull tm' = teamHull tm :=
  team_of_hull (hull_completeOp s op) ht

theorem stageOf_of_hull {tm tm' : Team} (h : teamHull tm' = teamHull tm) (k : Nat) : stageOf tm' k = stageOf tm k := by
  have hstages : tm'.stages = tm.stages := (congrArg Team.stages h :)
  rw [stageOf, hstages, stageOf]

section Latch
variable {s : State} {t st : Nat} {tm : Team} {r : StageReq} {rest : List StageReq} (ht : sget s.teams t = some tm)
  (hreqs : (stageOf tm st).reqs = r :: rest)
include ht hreqs

theorem qbindLatch_latches (hread : stageRead s t tm st r.op = false) :
    ∃ u tm', exec (.qbindLatch t st) s = .next u ∧ sget u.teams t = some tm' ∧ sget u.ops r.op = none ∧
      stageOf tm' st = { cur := r.quarter, reqs := rest } := by
  have hexec : exec (.qbindLatch t st) s =
      .next (completeOp (modTeam s t fun tm => modStage tm st fun _ => { cur := r.quarter, reqs := rest }) r.op) := by
    change execQbindLatch t st s = _
    simp only [execQbindLatch, ht, hreqs, hread, Bool.false_eq_true, if_false]
  obtain ⟨tm', ht', hhull⟩ := team_of_completeOp
    (sget_modTeam ht fun tm => modStage tm st fun _ => { cur := r.quarter, reqs := rest }) r.op
  exact ⟨_, tm', hexec, ht', sget_ops_completeOp .., by rw [stageOf_of_hull hhull, stageOf_modStage]⟩

theorem qbindLatch_waits (hread : stageRead s t tm st r.op = true) : exec (.qbindLatch t st) s = .next s := by
  change execQbindLatch t st s = _
  simp only [execQbindLatch, ht, hreqs, hread, if_true]

end Latch

/-! ## Debits -/

section Debit
variable {s : State} {x : SSite} {d : Nat}

theorem debit_of_ok (h : debitOk d x s) (go : State → SRes) : debit s x d go = go (debited d x s) := by
  obtain ⟨c, hc, hpaid⟩ := h
  simp only [debit, debited, hc]
  by_cases hd : d = 0
  · rw [if_pos hd, if_pos hd]
  · have hcond : ((c.eq = [] || c.eq.head? = some x.t) && decide (min d c.cap ≤ c.budget)) = true := by
      simpa only [Bool.and_eq_true, Bool.or_eq_true, decide_eq_true_eq] using hpaid.resolve_left hd
    rw [if_neg hd, if_neg hd, if_pos hcond]

theorem debit_of_not_ok (hctx : (sget s.contexts x.tm.ctx).isSome = true) (h : ¬debitOk d x s) (go : State → SRes) :
    debit s x d go = .hold (energyHeld x s) := by
  obtain ⟨c, hc⟩ := Option.isSome_iff_exists.1 hctx
  have hd : d ≠ 0 := fun hd => h ⟨c, hc, .inl hd⟩
  have hcond : ¬((c.eq = [] || c.eq.head? = some x.t) && decide (min d c.cap ≤ c.budget)) = true := fun hcond =>
    h ⟨c, hc, .inr (by simpa only [Bool.and_eq_true, Bool.or_eq_true, decide_eq_true_eq] using hcond)⟩
  simp only [debit, hc]
  rw [if_neg hd, if_neg hcond]
  rfl

end Debit

/-! ## MMA and SMMA -/

/-- What MMA or SMMA costs (R268). -/
def matrixCost (fsa fsb : FSlot) (ec : BitVec 2) (smma : Bool) (x : SSite) (s : State) : Nat :=
  let sa := slotOf (fsRead x.lr fsa)
  let sb := slotOf (fsRead x.lr fsb)
  classCost s ec * if smma then smmaCycles sa sb else mmaCycles sa sb

section Issue
variable {h : HeadX} {ga : GReg} {fsa fsb : FSlot} {acc : BankN} {st smma : Bool} {s : State} {x : SSite}
  (hs : seqSite (matrixReq h ga fsa fsb smma) s = some x) (hok : matrixOk ga fsa fsb acc st smma x s)
include hs hok

/-- A matrix word whose checks pass makes its debit, and then opens its sums. -/
theorem matrixIssue_of_site (ec : BitVec 2) : matrixIssue h ga fsa fsb ec acc st smma s =
    finishSeq s x (debit s x (matrixCost fsa fsb ec smma x s) fun s => .retire (matrixOpened h ga fsa fsb acc st smma x s)) := by
  obtain ⟨hshut, hbusy, htile, hdirect, hstage, hindex⟩ := hok
  have hfits : (if smma then badIndex x.tm ((gRead x.tm ga.toNat).toNat % 2 ^ 20 + 4096 + tileZ (slotOf (fsRead x.lr fsa)))
      (slotOf (fsRead x.lr fsa)).nz else none) = none := by
    split
    · exact hindex ‹_›
    · rfl
  refine (issueSeq_of_site hs _).trans (congrArg (finishSeq s x) ?_)
  simp only [hshut, hbusy, htile, hdirect, hstage, hfits, Bool.or_self, Bool.false_eq_true, if_false]
  rfl

theorem matrixIssue_retires {ec : BitVec 2} (hpaid : debitOk (matrixCost fsa fsb ec smma x s) x s) :
    matrixIssue h ga fsa fsb ec acc st smma s =
      seqRetired (matrixOpened h ga fsa fsb acc st smma x (debited (matrixCost fsa fsb ec smma x s) x s)) x := by
  rw [matrixIssue_of_site hs hok, debit_of_ok hpaid]
  rfl

theorem matrixIssue_holds {ec : BitVec 2} (hctx : (sget s.contexts x.tm.ctx).isSome = true)
    (hunpaid : ¬debitOk (matrixCost fsa fsb ec smma x s) x s) : matrixIssue h ga fsa fsb ec acc st smma s = energyHeld x s := by
  rw [matrixIssue_of_site hs hok, debit_of_not_ok hctx hunpaid]
  rfl

end Issue

/-- Settles O46: the words by their bodies, MMA and SMMA by `matrixIssue_of_site`. -/
theorem matrixWords : Obligations.MatrixWords :=
  ⟨⟨qbind_completes, qrel_completes, fun _ _ _ _ _ _ => qbindLatch_latches, fun _ _ _ _ _ _ => qbindLatch_waits⟩,
   fun _ _ _ _ _ _ _ _ _ hs ⟨hok, hpaid⟩ => congrArg Host.Outcome.next (matrixIssue_retires hs hok hpaid),
   fun _ _ _ _ _ _ _ _ hs ⟨hok, hpaid⟩ => congrArg Host.Outcome.next (matrixIssue_retires hs hok hpaid),
   fun _ _ _ _ _ _ _ _ _ hs ⟨hok, hctx, hunpaid⟩ => congrArg Host.Outcome.next (matrixIssue_holds hs hok hctx hunpaid),
   fun _ _ _ _ _ _ _ _ hs ⟨hok, hctx, hunpaid⟩ => congrArg Host.Outcome.next (matrixIssue_holds hs hok hctx hunpaid)⟩

end Sys2Proof.Laws
end

section
/-! SUPPORT. The sums of MMA and SMMA (R264), their addition into a bank (R265), and the ends of energy waits (R268). -/

namespace Sys2Proof.Laws
open Sys2Proof.Machine

/-! ## The sums -/

/-- A list of runs of one length, read at a place of a run. -/
theorem getElem?_flatMap_of_length {α β : Type} {f : α → List β} {w : Nat} (hlen : ∀ a, (f a).length = w) {n : Nat} (hn : n < w)
    (l : List α) (m : Nat) : (l.flatMap f)[w * m + n]? = l[m]?.bind fun a => (f a)[n]? := by
  induction l generalizing m with
  | nil => rfl
  | cons a l ih =>
    rw [List.flatMap_cons]
    cases m with
    | zero => rw [List.getElem?_append_left (by rw [hlen]; omega), Nat.mul_zero, Nat.zero_add]; rfl
    | succ m =>
      rw [List.getElem?_append_right (by rw [hlen, Nat.mul_succ]; omega), hlen,
        show w * (m + 1) + n - w = w * m + n by rw [Nat.mul_succ]; omega, ih, List.getElem?_cons_succ]

theorem foldl_add_eq_sum {α : Type} (f : α → Int) (l : List α) : l.foldl (fun acc e => acc + f e) 0 = (l.map f).sum := by
  rw [List.sum_eq_foldl, List.foldl_map]

theorem matrixSums_getD (tm : Team) (t : Nat) (st smma : Bool) (sa sb : Slot) {m n : Nat} (hm : m < 64) (hn : n < 64) :
    (matrixSums tm t st smma sa sb).getD (64 * m + n) 0 = BitVec.ofInt 176 (16 *
      ((termsOf tm (t + 4096 + tileZ sa) smma sa.nz m).map fun e =>
        (aRow tm t sa m).getD e.2 0 * (bCol tm st smma sb n).getD e.1 0).sum) := by
  rw [List.getD_eq_getElem?_getD, matrixSums]
  simp only
  rw [getElem?_flatMap_of_length (w := 64) (fun m => by simp) hn]
  simp only [List.getElem?_map, List.getElem?_range hm, List.getElem?_range hn, Option.bind_some, Option.map_some,
    Option.getD_some, foldl_add_eq_sum]

/-! ## Their addition into a bank -/

@[simp] theorem bankOf_modBank (tm : Team) (n : Nat) (f : Bank → Bank) : bankOf (modBank tm n f) n = f (bankOf tm n) := by
  rw [bankOf, modBank, sget_sset_eq, Option.getD_some]

theorem bankOf_of_hull {tm tm' : Team} (h : teamHull tm' = teamHull tm) (n : Nat) : bankOf tm' n = bankOf tm n := by
  have hbanks : tm'.banks = tm.banks := (congrArg Team.banks h :)
  rw [bankOf, hbanks, bankOf]

theorem denseVal_directAdd (b : Bank) (i j : Nat) (v : BitVec 176) (k : Nat) :
    denseVal (directAdd b i j v) k = denseVal b k + if k = 64 * i + j then v else 0 := by
  unfold directAdd denseVal
  simp only
  split
  next e he =>
    rw [sget_sset]
    by_cases hk : k = 64 * i + j
    · subst hk
      rw [if_pos rfl, if_pos rfl, he]
      rfl
    · rw [if_neg (Ne.symm hk), if_neg hk, add_zero]
  next hnone =>
    rw [sget_sset]
    by_cases hk : k = 64 * i + j
    · subst hk
      rw [if_pos rfl, if_pos rfl, hnone]
      exact (zero_add v).symm
    · rw [if_neg (Ne.symm hk), if_neg hk, add_zero]

/-- Each slot from `n` on gains its sum. -/
theorem denseVal_addSums (sums : List (BitVec 176)) (n : Nat) (b : Bank) (k : Nat) :
    denseVal (addSums n sums b) k = denseVal b k + if n ≤ k then sums.getD (k - n) 0 else 0 := by
  induction sums generalizing n b with
  | nil => simp [addSums]
  | cons v sums ih =>
    rw [addSums, ih, denseVal_directAdd, Nat.div_add_mod, BitVec.add_assoc]
    congr 1
    obtain hlt | rfl | hgt := Nat.lt_trichotomy k n
    · rw [if_neg (by omega), if_neg (by omega), if_neg (by omega), add_zero]
    · rw [if_pos rfl, if_neg (by omega), if_pos (Nat.le_refl _), Nat.sub_self, add_zero]
      rfl
    · rw [if_neg (by omega), if_pos (by omega), if_pos (by omega), show k - n = k - (n + 1) + 1 by omega, List.getD_cons_succ]
      exact zero_add _

theorem matrixComplete_adds {s : State} {op : Nat} {o : Op} {tm : Team} {bank buf ends : Nat} {keys : List Nat}
    {sums : List (BitVec 176)} (ho : sget s.ops op = some o) (ht : sget s.teams o.team = some tm)
    (hk : o.kind = .matrix bank keys buf sums ends) (hends : ends ≤ s.cycle) (hlatched : stagesLatched tm op keys = true) :
    ∃ t tm', exec (.matrixComplete op) s = .next t ∧ sget t.teams o.team = some tm' ∧ sget t.ops op = none ∧ t.mem = s.mem ∧
      ∀ m < 64, ∀ n < 64, entryAt tm' bank m n = entryAt tm bank m n + sums.getD (64 * m + n) 0 := by
  have hreads : readsB s tm op (.matrix bank keys buf sums ends) = false := by
    simp only [readsB, hlatched, Bool.not_true, Bool.or_false, decide_eq_false (Nat.not_lt.2 hends)]
  have hexec : exec (.matrixComplete op) s =
      .next (completeOp (modTeam s o.team fun tm => modBank tm bank (addSums 0 sums)) op) := by
    change execMatrixComplete op s = _
    simp only [execMatrixComplete, ho, ht, hk, hreads, Bool.not_false, if_true]
  obtain ⟨tm', ht', hhull⟩ := team_of_completeOp (sget_modTeam ht fun tm => modBank tm bank (addSums 0 sums)) op
  refine ⟨_, tm', hexec, ht', sget_ops_completeOp .., completeOp_mem .., fun m _ n _ => ?_⟩
  have hgain := denseVal_addSums sums 0 (bankOf tm bank) (64 * m + n)
  rw [if_pos (Nat.zero_le _), Nat.sub_zero] at hgain
  change denseVal (bankOf tm' bank) (64 * m + n) = _
  rw [bankOf_of_hull hhull, bankOf_modBank, hgain]
  rfl

/-! ## The ends of energy waits -/

theorem ssiteOf_parts {s : State} {t : Nat} {x : SSite} (h : ssiteOf s t = some x) :
    sget s.teams t = some x.tm ∧ x.tm.seq = some x.q := by
  unfold ssiteOf at h
  split at h
  · cases h
  · split at h
    · cases h
    · cases h
      exact ⟨‹_›, ‹_›⟩

theorem ssiteOf_of_team {s : State} {t : Nat} {tm : Team} {q : Seq} (ht : sget s.teams t = some tm) (hq : tm.seq = some q) :
    ssiteOf s t = some { t := t, tm := tm, q := q, lr := lrecOf s tm } := by
  simp only [ssiteOf, ht, hq]

@[simp] theorem advanceSeq_status (q : Seq) : (advanceSeq q).status = q.status := by
  unfold advanceSeq
  split
  · rfl
  · split <;> rfl

@[simp] theorem sdcInc_status (q : Seq) (k : Nat) : (sdcInc q k).status = q.status := by
  unfold sdcInc
  split <;> rfl

/-- A sequencer that retires the word by which it opened an operation keeps its status. -/
theorem status_seqRetired_openSeq {s : State} {x : SSite} (ht : sget s.teams x.t = some x.tm) (hq : x.tm.seq = some x.q) (dc : Nat)
    (kind : OpKind) : ∃ y, ssiteOf (seqRetired (openSeq s x.t dc kind) x) x.t = some y ∧ y.q.status = x.q.status := by
  have hopened : sget (openSeq s x.t dc kind).teams x.t = _ := sget_modSeq (s := openOp s _) ht hq fun q => sdcInc q dc
  exact ⟨_, ssiteOf_of_team (sget_modSeq hopened rfl advanceSeq) rfl, by simp⟩

theorem debited_teams (d : Nat) (x : SSite) (s : State) : (debited d x s).teams = s.teams := by
  unfold debited
  split <;> rfl

theorem issuerInstr_retryAt_seq (s : State) (t : Nat) : issuerInstr (retryAt s (.seq t)) (.seq t) = issuerInstr s (.seq t) := by
  change (((sget (modSeq s t _).teams t).bind (·.seq)).bind _) = _
  rw [modSeq, modTeam, sget_smod_eq]
  simp only [issuerInstr, Option.bind_map, Function.comp_def, Option.bind_assoc]

/-- A ready sequencer. -/
theorem status_of_seqSite {r : SReq} {s : State} {x : SSite} (h : seqSite r s = some x) : x.q.status = .ready := by
  have hi : ∃ t, s.issuer = some (.seq t) := by
    unfold seqSite at h
    split at h
    · exact ⟨_, ‹_›⟩
    · cases h
  obtain ⟨t, ht⟩ := hi
  obtain ⟨-, hcan⟩ := canIssue_of_seq h ht
  simp only [canIssueSeq, Bool.and_eq_true, decide_eq_true_eq] at hcan
  obtain ⟨⟨⟨⟨-, hready⟩, -⟩, -⟩, -⟩ := hcan
  exact hready

section Retry
variable {s v : State} {t : Nat} {i : Instr} {r : SReq} {x y z : SSite} {h : HeadX} {ga : GReg} {fsa fsb : FSlot} {ec : BitVec 2}
  {acc : BankN} {st : Bool}

/-- A waiting sequencer tries its matrix word again, and its wait ends where the try leaves it ready. -/
theorem energyDebitWaitEnd_retries (hw : SeqRetriesMatrix s t i r x y)
    (hi : i = .mma h ga fsa fsb ec acc st ∨ i = .smma h ga fsa fsb ec acc) (htry : energyRetry (retryAt s (.seq t)) t = v)
    (hz : ssiteOf v t = some z) (hstatus : z.q.status = .ready) :
    exec (.energyDebitWaitEnd t) s = .next (energyEnded s x v) := by
  obtain ⟨hx, henergy, hinstr, hs⟩ := hw
  obtain rfl := ssiteOf_team hx
  obtain ⟨hy, hissue⟩ := canIssue_of_seq hs rfl
  have hy : ssiteOf (modSeq s x.t fun q => { q with status := .ready }) x.t = some y := hy
  have hissue : canIssueSeq (modSeq s x.t fun q => { q with status := .ready }) y = true := hissue
  have htry : energyRetry { modSeq s x.t (fun q => { q with status := .ready }) with issuer := some (.seq x.t) } x.t = v := htry
  change execEnergyDebitWaitEnd x.t s = _
  obtain rfl | rfl := hi <;>
    simp only [execEnergyDebitWaitEnd, hx, henergy, hy, hissue, hinstr, htry, hz, hstatus, ne_eq, not_true_eq_false, decide_false,
      Bool.not_true, Bool.or_self, Bool.false_eq_true, if_false, reduceCtorEq, not_false_eq_true, decide_true, if_true] <;> rfl

theorem energyRetry_mma (hw : SeqRetriesMatrix s t (.mma h ga fsa fsb ec acc st) r x y) :
    energyRetry (retryAt s (.seq t)) t = matrixIssue h ga fsa fsb ec acc st false (retryAt s (.seq t)) := by
  obtain ⟨-, -, hinstr, -⟩ := hw
  simp only [energyRetry, issuerInstr_retryAt_seq, hinstr]

theorem energyRetry_smma (hw : SeqRetriesMatrix s t (.smma h ga fsa fsb ec acc) r x y) :
    energyRetry (retryAt s (.seq t)) t = matrixIssue h ga fsa fsb ec acc false true (retryAt s (.seq t)) := by
  obtain ⟨-, -, hinstr, -⟩ := hw
  simp only [energyRetry, issuerInstr_retryAt_seq, hinstr]

/-- A waiting matrix word whose debit can be made now retires. -/
theorem energyDebitWaitEnd_issues {smma : Bool} (hw : SeqRetriesMatrix s t i (matrixReq h ga fsa fsb smma) x y)
    (hi : i = .mma h ga fsa fsb ec acc st ∨ i = .smma h ga fsa fsb ec acc)
    (htry : energyRetry (retryAt s (.seq t)) t = matrixIssue h ga fsa fsb ec acc st smma (retryAt s (.seq t)))
    (hok : matrixOk ga fsa fsb acc st smma y (retryAt s (.seq t)))
    (hpaid : debitOk (matrixCost fsa fsb ec smma y (retryAt s (.seq t))) y (retryAt s (.seq t))) :
    exec (.energyDebitWaitEnd t) s = .next (energyEnded s x (seqRetired (matrixOpened h ga fsa fsb acc st smma y
      (debited (matrixCost fsa fsb ec smma y (retryAt s (.seq t))) y (retryAt s (.seq t)))) y)) := by
  have ⟨_, _, _, hs⟩ := hw
  rw [matrixIssue_retires hs hok hpaid] at htry
  obtain ⟨hy, -⟩ := canIssue_of_seq hs rfl
  obtain rfl := ssiteOf_team hy
  obtain ⟨hteam, hseq⟩ := ssiteOf_parts hy
  obtain ⟨z, hz, hstatus⟩ := status_seqRetired_openSeq (x := y) (dc := h.xdc.toNat) (kind := _)
    ((debited_teams (matrixCost fsa fsb ec smma y (retryAt s (.seq y.t))) y (retryAt s (.seq y.t))).symm ▸ hteam) hseq
  exact energyDebitWaitEnd_retries hw hi htry hz (hstatus.trans (status_of_seqSite hs))

end Retry

theorem energyDebitWaitEnd_idle {s : State} {t : Nat} (h : ∀ x, ssiteOf s t = some x → x.q.status ≠ .energy) :
    exec (.energyDebitWaitEnd t) s = .next s := by
  change execEnergyDebitWaitEnd t s = _
  unfold execEnergyDebitWaitEnd
  split
  · rfl
  next x hx => rw [if_pos (by simp [h x hx])]

/-! ## BUDGET_REFILL -/

section Refill
variable {s : State} {ctx : Nat} {c : Context} (hc : sget s.contexts ctx = some c)
include hc

theorem sget_modCtx (f : Context → Context) : sget (modCtx s ctx f).contexts ctx = some (f c) :=
  (sget_smod_eq ..).trans (by rw [hc]; rfl)

theorem budgetRefill_refills (hdue : c.refills < timeOf s / 1000) :
    ∃ t, exec (.budgetRefill ctx) s = .next t ∧ t.mem = s.mem ∧ sget t.contexts ctx = some { c with
      budget := min (c.budget + (timeOf s / 1000 - c.refills) * c.refill) c.cap, refills := timeOf s / 1000 } :=
  ⟨_, rfl, rfl, (sget_modCtx hc _).trans (by rw [refillTo, if_neg (Nat.not_le.2 hdue)])⟩

theorem budgetRefill_early (hearly : timeOf s / 1000 ≤ c.refills) :
    ∃ t, exec (.budgetRefill ctx) s = .next t ∧ sget t.contexts ctx = some c :=
  ⟨_, rfl, (sget_modCtx hc _).trans (by rw [refillTo, if_pos hearly])⟩

end Refill

/-- Settles O47: the sums by `matrixSums_getD`, their addition slot by slot by `denseVal_addSums`, and the later try of a held word
by the word's issue. -/
theorem sumsAreExact : Obligations.SumsAreExact :=
  ⟨fun tm t st smma sa sb _ _ => matrixSums_getD tm t st smma sa sb,
   fun _ _ _ _ _ _ _ _ _ ho ht hk _ hends hlatched => matrixComplete_adds ho ht hk hends hlatched,
   fun _ _ _ _ _ _ _ _ _ _ _ hw hok hpaid => energyDebitWaitEnd_issues hw (.inl rfl) (energyRetry_mma hw) hok hpaid,
   fun _ _ _ _ _ _ _ _ _ _ hw hok hpaid =>
     energyDebitWaitEnd_issues (st := false) hw (.inr rfl) (energyRetry_smma hw) hok hpaid,
   fun _ _ => energyDebitWaitEnd_idle, fun _ _ _ => budgetRefill_refills, fun _ _ _ => budgetRefill_early⟩

end Sys2Proof.Laws
end

section
/-! SUPPORT. ACCZ, ACCSP and ACCCNT (R290, R291, R295), joins as they end (R292, R293), and ACCDR (R294). -/

namespace Sys2Proof.Laws
open Sys2Proof.Machine

/-! ## ACCZ, ACCSP and ACCCNT -/

theorem accz_completes (h : HeadX) (acc : BankN) (hash : Option (BitVec 9)) :
    SeqCompletes (.accz h acc hash) { guard := some h, dc := h.xdc.toNat } (fun x s => bankBusy s x.t acc.toNat = false)
      fun x s => openSeq (modTeam s x.t fun tm => modBank tm acc.toNat fun _ =>
        { hash := hash.isSome, nbm1 := (hash.map BitVec.toNat).getD 511, ents := [], res := 0, spilln := 0, spill := none, flags := 0 })
        x.t h.xdc.toNat (.bank acc.toNat false) :=
  seqCompletes_of_body (fun _ => rfl) fun _ _ hidle => if_neg (Bool.eq_false_iff.1 hidle)

theorem accsp_completes (h : HeadX) (acc : BankN) (buf : BufN) (m : Store Byte) :
    SeqCompletes (.accsp h acc buf) { guard := some h, dc := h.xdc.toNat, held := bufHeldSeq }
      (fun x s =>
        let t := bufOf x.tm buf.toNat
        let b := bankOf x.tm acc.toNat
        bankBusy s x.t acc.toNat = false ∧ b.hash = true ∧ t.size ≠ 0 ∧ t.size % 256 = 0 ∧ t.size ≤ 131072 ∧
          b.spill ≠ some buf.toNat ∧ pickFault (checkDecl x.tm t.off t.size .engW ++ spillFaults x.tm b) = none ∧
          moveEntries t.off (t.size / 256) (spillEntries x.tm b) (spSets x.tm.scratch t.off (List.replicate t.size 0)) = .ok m)
      fun x s => openSeq (modTeam s x.t fun tm => modBank { tm with scratch := m } acc.toNat fun b =>
        { b with spill := some buf.toNat, spilln := (spillEntries x.tm (bankOf x.tm acc.toNat)).length }) x.t h.xdc.toNat
        (.bank acc.toNat false) := by
  refine seqCompletes_of_body (fun _ => rfl) fun x s ⟨hidle, hhash, hsize, haligned, hmax, hother, hpass, hmoved⟩ => ?_
  simp only [hidle, hhash, hsize, haligned, Nat.not_lt.2 hmax, hother, hmoved, ne_eq, not_true_eq_false, decide_false, Bool.or_self,
    Bool.not_true, Bool.false_eq_true, if_false, List.cons_append, List.nil_append, pickFault_cons_none, hpass]

theorem acccnt_completes (h : HeadX) (gd : GReg) (acc : BankN) :
    SeqCompletes (.acccnt h gd acc) { guard := some h, gs := [gd.toNat] }
      (fun x s => bankBusy s x.t acc.toNat = false ∧ drainOpen s x.t acc.toNat = false)
      fun x s => gWrite s x.t gd.toNat (bankStatus (bankOf x.tm acc.toNat)) :=
  seqCompletes_of_body (fun _ => rfl) fun x s ⟨hidle, hopen⟩ => by
    simp only [hidle, hopen, Bool.or_self, Bool.false_eq_true, if_false]

/-! ## JMAC and JINS -/

/-- A join that ends with a cursor retires and leaves its bank. -/
theorem joinDone_retires {h : HeadX} {gd : GReg} {acc : BankN} {stop : Bool} {r : Team × Bank × JoinEnd} {tm : Team} {b : Bank}
    {c : DWord} (hends : joinEnds stop r = some (tm, b, c)) (x : SSite) (s : State) :
    joinDone h gd acc stop x s r = .retire (joinedBank h gd acc tm b c x s) := by
  obtain ⟨tm', b', e⟩ := r
  cases e with
  | done c' => cases hends; rfl
  | fault c' f => cases hends
  | full c' key =>
    cases stop with
    | true => cases hends; rfl
    | false => cases hends

section Jmac
variable {h : HeadX} {gd ga gb : GReg} {fsa fsb : FSlot} {ec : BitVec 2} {acc : BankN} {stop : Bool} {s : State} {x : SSite}
  (hs : seqSite (jmacReq h gd ga gb fsa fsb) s = some x) (hshut : bankShut s x.t acc.toNat = false)
  (hpass : jmacFault gd ga gb acc x = none)
include hs hshut hpass

theorem jmacIssue_retires {tm : Team} {b : Bank} {c : DWord} (ht : sget s.teams x.t = some x.tm)
    (hpaid : debitOk (classCost s ec * jmacCycles gd ga gb x) x s)
    (hends : joinEnds stop (jmacRun gd ga gb fsa fsb acc x) = some (tm, b, c)) :
    jmacIssue h gd ga gb fsa fsb ec acc stop s =
      seqRetired (joinedBank h gd acc tm b c x (debited (classCost s ec * jmacCycles gd ga gb x) x s)) x := by
  have hteam : sget (debited (classCost s ec * jmacCycles gd ga gb x) x s).teams x.t = some x.tm := by rw [debited_teams, ht]
  refine issueSeq_retire hs ?_
  rw [jmacFault] at hpass
  simp only [hshut, Bool.false_eq_true, if_false]
  rw [hpass]
  refine (debit_of_ok hpaid _).trans ?_
  simp only [hteam]
  exact joinDone_retires hends x _

theorem jmacIssue_holds (hctx : (sget s.contexts x.tm.ctx).isSome = true)
    (hunpaid : ¬debitOk (classCost s ec * jmacCycles gd ga gb x) x s) :
    jmacIssue h gd ga gb fsa fsb ec acc stop s = energyHeld x s := by
  refine issueSeq_hold hs ?_
  rw [jmacFault] at hpass
  simp only [hshut, Bool.false_eq_true, if_false]
  rw [hpass]
  exact debit_of_not_ok hctx hunpaid _

end Jmac

theorem jins_completes (h : HeadX) (gd ga : GReg) (fsa : FSlot) (acc : BankN) (stop : Bool) (tm : Team) (b : Bank) (c : DWord) :
    SeqCompletes (.jins h gd ga fsa acc stop) (jinsReq h gd ga fsa)
      (fun x s => bankShut s x.t acc.toNat = false ∧ jinsFault gd ga acc x = none ∧
        joinEnds stop (jinsRun gd ga fsa acc x) = some (tm, b, c))
      fun x s => joinedBank h gd acc tm b c x s := by
  refine seqCompletes_of_body (fun _ => rfl) fun x s ⟨hshut, hpass, hends⟩ => ?_
  rw [jinsFault] at hpass
  simp only [hshut, Bool.false_eq_true, if_false]
  rw [hpass]
  exact joinDone_retires hends x s

/-! ## ACCDR -/

theorem accdr_completes (h : HeadX) (gd ga : GReg) (fsa : FSlot) (acc : BankN) (od : DrOrd) (clr full : Bool) :
    SeqCompletes (.accdr h gd ga fsa acc od clr full) (drainReq h gd ga fsa)
      (fun x s => bankBusy s x.t acc.toNat = false ∧ drainFault ga fsa acc od full x = none)
      fun x s =>
        let g := gRead x.tm ga.toNat
        let r := drainOut x.tm (bankOf x.tm acc.toNat) (slotOf (fsRead x.lr fsa)) od (descOff g) (descN g)
        let s := modTeam s x.t fun tm => modBank tm acc.toNat fun b => { b with flags := b.flags ||| ((0 : BitVec 3) ++ r.1.2) }
        let s := if clr then modTeam s x.t fun tm => drainClear tm acc.toNat else s
        let buf := (bufAt x.tm (descOff g)).map Prod.fst
        openDrain (gWrite s x.t gd.toNat (BitVec.ofNat 64 r.2)) x.t h.xdc.toNat (if full then buf else none)
          (.drain acc.toNat (buf.getD 64) r.1.1 clr) := by
  refine seqCompletes_of_body (fun _ => rfl) fun x s ⟨hidle, hpass⟩ => ?_
  rw [drainFault] at hpass
  simp only [hidle, Bool.false_eq_true, if_false]
  rw [hpass]

section Drain
variable {s : State} {op b n : Nat} {o : Op} {bytes : List (Nat × Byte)} {clr : Bool} (ho : sget s.ops op = some o)
  (hk : o.kind = .drain b n bytes clr)
include ho hk

theorem exec_longLatencyComplete_drain : exec (.longLatencyComplete op) s =
    .next (endEngine s op fun s => modTeam s o.team (writeDrain bytes)) := by
  change execLongLatencyComplete op s = _
  simp only [execLongLatencyComplete, ho, hk]

theorem drain_ends (hearly : countEarly s op = none) :
    exec (.longLatencyComplete op) s = .next (completeOp (modTeam s o.team (writeDrain bytes)) op) := by
  rw [exec_longLatencyComplete_drain ho hk, endEngine_of_none hearly]

theorem drain_countedEarly {u : State} (hearly : countEarly s op = some u) : exec (.longLatencyComplete op) s = .next u := by
  rw [exec_longLatencyComplete_drain ho hk, endEngine_of_some hearly]

end Drain

/-! ## The order of a drain -/

section Order
variable {α β : Type} {key : β → Nat} {val : β → α}

theorem mem_sset {m : Store α} {n : Nat} {v : α} {e : Nat × α} (he : e ∈ sset m n v) : e = (n, v) ∨ e ∈ m := by
  induction m with
  | nil => exact .inl (List.mem_singleton.1 he)
  | cons d t ih =>
    obtain ⟨k, w⟩ := d
    rw [sset] at he
    split at he
    · exact List.mem_cons.1 he
    · split at he
      · exact (List.mem_cons.1 he).imp_right fun h => List.mem_cons_of_mem _ h
      · obtain rfl | he := List.mem_cons.1 he
        · exact .inr (List.mem_cons_self ..)
        · exact (ih he).imp_right fun h => List.mem_cons_of_mem _ h

/-- What several writes list comes from one of them. -/
theorem mem_foldl_sset {l : List β} {m : Store α} {e : Nat × α} (he : e ∈ l.foldl (fun m b => sset m (key b) (val b)) m) :
    (∃ b ∈ l, e = (key b, val b)) ∨ e ∈ m := by
  induction l generalizing m with
  | nil => exact .inr he
  | cons b t ih =>
    obtain ⟨c, hc, rfl⟩ | he := ih he
    · exact .inl ⟨c, List.mem_cons_of_mem _ hc, rfl⟩
    · exact (mem_sset he).imp_left fun h => ⟨b, List.mem_cons_self .., h⟩

theorem isSome_sget_foldl_sset {l : List β} {m : Store α} {n : Nat} (h : n ∈ l.map key ∨ (sget m n).isSome = true) :
    (sget (l.foldl (fun m b => sset m (key b) (val b)) m) n).isSome = true := by
  induction l generalizing m with
  | nil => exact h.resolve_left (List.not_mem_nil)
  | cons b t ih =>
    refine ih ?_
    rw [sget_sset, List.map_cons, List.mem_cons] at *
    by_cases hb : key b = n
    · exact .inr (by rw [if_pos hb]; rfl)
    · rw [if_neg hb]
      exact h.imp_left fun h => h.resolve_left (Ne.symm hb)

end Order

/-- The collection of entries by their keys that a sorted drain lists. -/
def entriesByKey (l : List AccEntry) : Store AccEntry := l.foldl (fun m e => sset m e.key.toNat e) []

theorem sortEntries_eq (l : List AccEntry) : sortEntries l = (entriesByKey l).map Prod.snd := rfl

theorem mem_entriesByKey {l : List AccEntry} {p : Nat × AccEntry} (hp : p ∈ entriesByKey l) : p.2 ∈ l ∧ p.2.key.toNat = p.1 := by
  obtain ⟨e, he, rfl⟩ | hnil := mem_foldl_sset (key := fun e : AccEntry => e.key.toNat) (val := id) hp
  · exact ⟨he, rfl⟩
  · cases hnil

theorem sortEntries_keys (l : List AccEntry) : (sortEntries l).map (fun e => e.key.toNat) = (entriesByKey l).map Prod.fst := by
  rw [sortEntries_eq, List.map_map]
  exact List.map_congr_left fun p hp => (mem_entriesByKey hp).2

theorem pairwise_sortEntries (l : List AccEntry) : ((sortEntries l).map fun e => e.key.toNat).Pairwise (· < ·) := by
  rw [sortEntries_keys]
  exact pairwise_keys (srising_foldl_sset (key := fun e : AccEntry => e.key.toNat) (val := id) l rfl)

theorem exists_mem_sortEntries_iff (l : List AccEntry) (k : BitVec 48) :
    (∃ e ∈ sortEntries l, e.key = k) ↔ ∃ e ∈ l, e.key = k := by
  constructor
  · rintro ⟨e, he, rfl⟩
    obtain ⟨p, hp, rfl⟩ := List.mem_map.1 he
    exact ⟨p.2, (mem_entriesByKey hp).1, rfl⟩
  · rintro ⟨e, he, rfl⟩
    have hsome : (sget (entriesByKey l) e.key.toNat).isSome = true :=
      isSome_sget_foldl_sset (key := fun e : AccEntry => e.key.toNat) (val := id)
        (.inl (List.mem_map_of_mem (f := fun e : AccEntry => e.key.toNat) he))
    obtain ⟨d, hd⟩ := Option.isSome_iff_exists.1 hsome
    exact ⟨d, List.mem_map.2 ⟨_, mem_of_sget hd, rfl⟩, BitVec.eq_of_toNat_eq (mem_entriesByKey (mem_of_sget hd)).2⟩

/-- Settles O49: every word by its body, joins by how they end, and the order of a drain by the collection of its entries. -/
theorem bankAndJoinWords : Obligations.BankAndJoinWords :=
  ⟨⟨accz_completes, accsp_completes, acccnt_completes⟩,
   ⟨fun _ _ _ _ _ _ _ _ _ _ _ _ _ _ hs ⟨ht, hshut, hpass, hpaid, hends⟩ =>
      congrArg Host.Outcome.next (jmacIssue_retires hs hshut hpass ht hpaid hends),
    jins_completes,
    fun _ _ _ _ _ _ _ _ _ _ _ hs ⟨hshut, hpass, hctx, hunpaid⟩ =>
      congrArg Host.Outcome.next (jmacIssue_holds hs hshut hpass hctx hunpaid)⟩,
   accdr_completes, fun _ _ _ _ _ _ _ ho hk => ⟨drain_ends ho hk, fun _ => drain_countedEarly ho hk⟩,
   fun l => ⟨pairwise_sortEntries l, exists_mem_sortEntries_iff l⟩⟩

end Sys2Proof.Laws
end

section
/-! SUPPORT. Debug stops and a debugger's writes (R278, R356, R357), and checkpoints (R381). -/

namespace Sys2Proof.Laws
open Sys2Proof.Machine

/-! ## Stops -/

theorem debugStopped_debugHalt (s : State) (core part : Nat) (b : Bool) : debugStopped (debugHalt s core part b) core part = b := by
  have hsel : sget (getCore (debugHalt s core part b) core).sel part
      = some { sgetD (getCore s core).sel part default with stopped := b } := by
    rw [debugHalt, getCore_modCore, sget_sset_eq]
  rw [debugStopped, hsel]

theorem debugStop_stops {s : State} {core : Nat}
    (h : ∀ e ∈ teamsOn s core, ∃ c, sget s.contexts e.2.ctx = some c ∧ c.debug = true) (part : Nat) :
    ∃ u, exec (.debugStop core part) s = .next u ∧ debugStopped u core part = true ∧ u.teams = s.teams ∧ u.mem = s.mem := by
  have hall : ((teamsOn s core).all fun e => (sget s.contexts e.2.ctx).any (·.debug)) = true := List.all_eq_true.2 fun e he => by
    obtain ⟨c, hc, hdebug⟩ := h e he
    rw [hc, Option.any_some, hdebug]
  exact ⟨_, congrArg Host.Outcome.next (if_pos hall), debugStopped_debugHalt .., rfl, rfl⟩

/-! ## Writes of threads -/

/-- A bit of a field after a debugger has set or cleared one of its bits. -/
theorem getLsbD_ite_bit {w : Nat} (b : BitVec w) (v : Bool) {p n : Nat} (hn : n < w) :
    (if v then b ||| (1#w <<< p) else b &&& ~~~(1#w <<< p)).getLsbD n = if n = p then v else b.getLsbD n := by
  have hw : 0 < w := by omega
  have hone : (1#w <<< p).getLsbD n = decide (n = p) := by
    rw [BitVec.getLsbD_shiftLeft, BitVec.getLsbD_one]
    by_cases h : n < p
    · simp [h, Nat.ne_of_lt h]
    · simp only [hn, hw, h, decide_true, decide_false, Bool.not_false, Bool.and_true, Bool.true_and, decide_eq_decide]
      omega
  by_cases h : n = p
  · rw [decide_eq_true h] at hone
    rw [if_pos h]
    cases v <;> simp [hone]
  · rw [decide_eq_false h] at hone
    rw [if_neg h]
    cases v <;> simp only [Bool.false_eq_true, if_false, if_true, BitVec.getLsbD_and, BitVec.getLsbD_or, BitVec.getLsbD_not, hone,
      hn, decide_true, Bool.or_false, Bool.not_false, Bool.and_true]

section Thread
variable {s : State} {t tid : Nat} {tm : Team} {th : Thread} (ht : sget s.teams t = some tm)
  (hth : sget tm.threads tid = some th) (hstopped : threadStopped s tm tid = true)
include ht hth hstopped

theorem debugWrite_vreg {reg : Nat} (v : Word) (hreg : reg < 256) :
    ∃ u tm' th', exec (.debugRegisterWrite (.vreg t tid reg v)) s = .next u ∧ sget u.teams t = some tm' ∧
      sget tm'.threads tid = some th' ∧ sgetD th'.regs reg 0 = v ∧ (∀ n, n ≠ reg → sgetD th'.regs n 0 = sgetD th.regs n 0) ∧
      u.mem = s.mem := by
  have hexec : exec (.debugRegisterWrite (.vreg t tid reg v)) s =
      .next (modTeam s t fun tm => modThread tm tid (debugReg reg v)) := by
    change execDebugRegisterWrite (.vreg t tid reg v) s = _
    simp only [execDebugRegisterWrite, if_neg (Nat.not_le.2 hreg), ht, hstopped, if_true]
  exact ⟨_, _, _, hexec, sget_modTeam ht _, (sget_smod_eq ..).trans (by rw [hth]; rfl), sgetD_ssetD_eq ..,
    fun n hn => sgetD_ssetD_ne _ _ _ (Ne.symm hn), rfl⟩

theorem debugWrite_pred {p : Nat} (v : Bool) (hp : p < 7) :
    ∃ u tm' th', exec (.debugRegisterWrite (.pred t tid p v)) s = .next u ∧ sget u.teams t = some tm' ∧
      sget tm'.threads tid = some th' ∧ ∀ n, n < 7 → th'.preds.getLsbD n = if n = p then v else th.preds.getLsbD n := by
  have hexec : exec (.debugRegisterWrite (.pred t tid p v)) s = .next (modTeam s t fun tm => modThread tm tid fun th =>
      { th with preds := if v then th.preds ||| (1#7 <<< p) else th.preds &&& ~~~(1#7 <<< p) }) := by
    change execDebugRegisterWrite (.pred t tid p v) s = _
    simp only [execDebugRegisterWrite, if_neg (Nat.not_le.2 hp), ht, hstopped, if_true]
  exact ⟨_, _, _, hexec, sget_modTeam ht _, (sget_smod_eq ..).trans (by rw [hth]; rfl), fun n hn => getLsbD_ite_bit _ v hn⟩

end Thread

/-! ## Writes of sequencers -/

/-- A bank's status, but for reserved bits, reads as it was written. -/
theorem status_fields (n : Nat) : n &&& (2 ^ 55 - 2 ^ 37 + 2 ^ 26 - 1) = n % 2 ^ 26 + 2 ^ 37 * (n / 2 ^ 37 % 2 ^ 18) := by
  have hmask : 2 ^ 55 - 2 ^ 37 + 2 ^ 26 - 1 = 2 ^ 37 * (2 ^ 18 - 1) + (2 ^ 26 - 1) := by norm_num
  rw [hmask, Nat.add_comm (n % _)]
  refine Nat.eq_of_testBit_eq fun i => ?_
  rw [Nat.testBit_and, Nat.testBit_two_pow_mul_add _ (by norm_num), Nat.testBit_two_pow_mul_add _ (by omega)]
  by_cases hi : i < 37
  · rw [if_pos hi, if_pos hi, Nat.testBit_two_pow_sub_one, Nat.testBit_mod_two_pow, Bool.and_comm]
  · rw [if_neg hi, if_neg hi, Nat.testBit_two_pow_sub_one, Nat.testBit_mod_two_pow, Nat.testBit_div_two_pow, Bool.and_comm,
      Nat.sub_add_cancel (Nat.not_lt.1 hi)]

/-- The fields of a status word (R281). -/
theorem status_parts (n : Nat) : n % 2 ^ 26 = n / 2 ^ 0 % 2 ^ 13 + 2 ^ 13 * (n / 2 ^ 13 % 2 ^ 13) ∧
    n / 2 ^ 37 % 2 ^ 18 = n / 2 ^ 37 % 2 ^ 9 + 2 ^ 9 * (n / 2 ^ 46 % 2) + 2 ^ 10 * (n / 2 ^ 47 % 2) + 2 ^ 11 * (n / 2 ^ 48 % 2 ^ 7) := by
  have hdiv : ∀ k, n / 2 ^ (37 + k) = n / 2 ^ 37 / 2 ^ k := fun k => by rw [Nat.pow_add, Nat.div_div_eq_div_mul]
  rw [hdiv 9, hdiv 10, hdiv 11]
  omega

theorem toNat_nbit (v n : Nat) : (nbit v n).toNat = v / 2 ^ n % 2 := by
  unfold nbit
  obtain h | h := Nat.mod_two_eq_zero_or_one (v / 2 ^ n) <;> rw [h] <;> rfl

theorem bankStatus_debugStatus (buf : Nat) (w : DWord) (b : Bank) :
    bankStatus (debugStatus buf w b) = w &&& BitVec.ofNat 64 (2 ^ 55 - 2 ^ 37 + 2 ^ 26 - 1) := by
  have hspill : (debugStatus buf w b).spill.isSome = nbit w.toNat 47 := by
    simp only [debugStatus, bankFrom]
    split <;> simp [*]
  apply BitVec.eq_of_toNat_eq
  rw [bankStatus, hspill, BitVec.toNat_and, BitVec.toNat_ofNat, BitVec.toNat_ofNat, Nat.mod_eq_of_lt (a := 2 ^ 55 - 2 ^ 37 + 2 ^ 26 - 1) (by norm_num),
    status_fields]
  simp only [debugStatus, bankFrom, toNat_nbit, nbits, BitVec.toNat_ofNat]
  obtain ⟨hlow, hhigh⟩ := status_parts w.toNat
  have hlt : w.toNat < 2 ^ 64 := w.isLt
  omega

section Sequencer
variable {s : State} {t : Nat} {tm : Team} {q : Seq} (ht : sget s.teams t = some tm) (hq : tm.seq = some q)
  (hstopped : debugStopped s tm.core 4 = true)
include ht hq hstopped

theorem debugWrite_greg {g : Nat} (v : DWord) (hg : g < 64) :
    ∃ u tm', exec (.debugRegisterWrite (.greg t g v)) s = .next u ∧ sget u.teams t = some tm' ∧ gRead tm' g = v ∧
      ∀ n, n ≠ g → gRead tm' n = gRead tm n := by
  have hexec : exec (.debugRegisterWrite (.greg t g v)) s = .next (gWrite (cancelGload s t g) t g v) := by
    change execDebugRegisterWrite (.greg t g v) s = _
    simp only [execDebugRegisterWrite, if_neg (Nat.not_le.2 hg), ht, hq, hstopped, Option.isSome_some, Bool.and_self, if_true]
  have hread : ∀ n, gRead { tm with seq := some { q with g := ssetD q.g g v 0 } } n = if n = g then v else gRead tm n := fun n => by
    rw [gRead, gRead, hq]
    exact (sgetD_ssetD ..).trans (if_congr eq_comm rfl rfl)
  exact ⟨_, _, hexec, sget_modSeq (s := cancelGload s t g) ht hq _, (hread g).trans (if_pos rfl),
    fun n hn => (hread n).trans (if_neg hn)⟩

theorem debugWrite_qreg {n : Nat} (v : Bool) (hn : n < 15) :
    ∃ u tm' q', exec (.debugRegisterWrite (.qreg t n v)) s = .next u ∧ sget u.teams t = some tm' ∧ tm'.seq = some q' ∧
      ∀ m, m < 15 → q'.q.getLsbD m = if m = n then v else q.q.getLsbD m := by
  have hexec : exec (.debugRegisterWrite (.qreg t n v)) s = .next (modSeq s t fun sq =>
      { sq with q := if v then sq.q ||| (1#15 <<< n) else sq.q &&& ~~~(1#15 <<< n) }) := by
    change execDebugRegisterWrite (.qreg t n v) s = _
    simp only [execDebugRegisterWrite, if_neg (Nat.not_le.2 hn), ht, hq, hstopped, Option.isSome_some, Bool.and_self, if_true]
  exact ⟨_, _, _, hexec, sget_modSeq ht hq _, rfl, fun m hm => getLsbD_ite_bit _ v hm⟩

theorem debugWrite_stage {part st : Nat} (w : Option (List (List Word) × List Byte)) (hpart : part < 4) (hst : st < 2) :
    ∃ u tm', exec (.debugRegisterWrite (.stage t part st w)) s = .next u ∧ sget u.teams t = some tm' ∧
      stageOf tm' (2 * part + st) = debugStage (w.map fun x => { planes := x.1, scales := x.2 }) (stageOf tm (2 * part + st)) := by
  have hexec : exec (.debugRegisterWrite (.stage t part st w)) s = .next (modTeam s t fun tm =>
      modStage tm (2 * part + st) (debugStage (w.map fun x => { planes := x.1, scales := x.2 }))) := by
    have hvalid : ¬(decide (4 ≤ part) || decide (2 ≤ st)) = true := by simp; omega
    change execDebugRegisterWrite (.stage t part st w) s = _
    simp only [execDebugRegisterWrite, if_neg hvalid, ht, hq, hstopped, Option.isSome_some, Bool.and_self, if_true]
  exact ⟨_, _, hexec, sget_modTeam ht _, stageOf_modStage ..⟩

theorem debugWrite_bankEntry {bank slot : Nat} (w : BitVec 256) (hbank : bank < 4) (hslot : slot < 4096) :
    ∃ u tm', exec (.debugRegisterWrite (.bankEntry t bank slot w)) s = .next u ∧ sget u.teams t = some tm' ∧
      sget (bankOf tm' bank).ents slot = entryFrom w ∧
      ∀ n, n ≠ slot → sget (bankOf tm' bank).ents n = sget (bankOf tm bank).ents n := by
  have hexec : exec (.debugRegisterWrite (.bankEntry t bank slot w)) s =
      .next (modTeam s t fun tm => modBank tm bank (debugEntry slot w)) := by
    have hvalid : ¬(decide (4 ≤ bank) || decide (4096 ≤ slot)) = true := by simp; omega
    change execDebugRegisterWrite (.bankEntry t bank slot w) s = _
    simp only [execDebugRegisterWrite, if_neg hvalid, ht, hq, hstopped, Option.isSome_some, Bool.and_self, if_true]
  refine ⟨_, _, hexec, sget_modTeam ht _, ?_, fun n hn => ?_⟩
  · rw [bankOf_modBank, debugEntry]
    cases entryFrom w with
    | none => exact sget_serase_eq ..
    | some e => exact sget_sset_eq ..
  · rw [bankOf_modBank, debugEntry]
    cases entryFrom w with
    | none => exact sget_serase_ne _ (Ne.symm hn)
    | some e => exact sget_sset_ne _ _ (Ne.symm hn)

theorem debugWrite_bankStatus {bank : Nat} (w : DWord) (hbank : bank < 4) :
    ∃ u tm', exec (.debugRegisterWrite (.bankStatus t bank w)) s = .next u ∧ sget u.teams t = some tm' ∧
      bankStatus (bankOf tm' bank) = w &&& BitVec.ofNat 64 (2 ^ 55 - 2 ^ 37 + 2 ^ 26 - 1) ∧
      (bankOf tm' bank).ents = (bankOf tm bank).ents := by
  have hexec : exec (.debugRegisterWrite (.bankStatus t bank w)) s =
      .next (modTeam s t fun tm => modBank tm bank (debugStatus (Config.freeNat s.freeCtr (2 ^ 36)) w)) := by
    change execDebugRegisterWrite (.bankStatus t bank w) s = _
    simp only [execDebugRegisterWrite, if_neg (Nat.not_le.2 hbank), ht, hq, hstopped, Option.isSome_some, Bool.and_self, if_true]
  refine ⟨_, _, hexec, sget_modTeam ht _, ?_, ?_⟩ <;> rw [bankOf_modBank]
  · exact bankStatus_debugStatus ..
  · rfl

end Sequencer

/-! ## Checkpoints -/

theorem foldl_of_fixed {α β : Type} {f : β → α → β} {l : List α} {b : β} (h : ∀ a ∈ l, f b a = b) : l.foldl f b = b := by
  induction l with
  | nil => rfl
  | cons a l ih => rw [List.foldl_cons, h a (by simp), ih fun c hc => h c (by simp [hc])]

/-- Partitions with those of a list paused, or parsing again. -/
def pausedParts (b : Bool) (ps : List Nat) (m : Store Partition) : Store Partition :=
  ps.foldl (fun m p => smod m p fun q => { q with paused := b }) m

theorem foldl_modPart_paused (b : Bool) (ps : List Nat) (s : State) :
    ps.foldl (fun s p => modPart s p fun q => { q with paused := b }) s = { s with parts := pausedParts b ps s.parts } := by
  induction ps generalizing s with
  | nil => rfl
  | cons p ps ih => exact ih _

theorem sget_pausedParts (b : Bool) (ps : List Nat) (m : Store Partition) (p : Nat) :
    sget (pausedParts b ps m) p = (sget m p).map fun q => if p ∈ ps then { q with paused := b } else q := by
  induction ps generalizing m with
  | nil => simp [pausedParts]
  | cons a ps ih =>
    rw [pausedParts, List.foldl_cons]
    refine (ih _).trans ?_
    rw [sget_smod]
    by_cases ha : a = p
    · subst ha
      cases sget m a <;> simp
    · simp [ha, Ne.symm ha]

/-- The state from which the checkpoint of some partitions is taken, and in which their packets go on: nothing is paused. -/
def resumed (s : State) (ps : List Nat) : State := { s with parts := pausedParts false ps (pausedParts true ps s.parts) }

theorem sget_resumed_parts (s : State) (ps : List Nat) (p : Nat) :
    sget (resumed s ps).parts p = (sget s.parts p).map fun q => if p ∈ ps then { q with paused := false } else q := by
  rw [resumed, sget_pausedParts, sget_pausedParts, Option.map_map]
  congr 1
  funext q
  by_cases hp : p ∈ ps <;> simp [hp]

/-- A team that a fenced die keeps is not saved (R381). -/
theorem checkpointSave_fenced {s : State} {e : Nat × Team} (h : (getDie s (coreDie e.2.core)).fenced = true) : checkpointSave s e = s := by
  have hsaveable : saveable s e.2 = false := by simp [saveable, teamLives, h]
  rw [checkpointSave, hsaveable]
  rfl

section Checkpoint
variable {s : State} {ps : List Nat}
  (hteams : ∀ e ∈ teamsOf s ps, sget s.teams e.1 = some e.2 ∧ (getDie s (coreDie e.2.core)).fenced = true ∧ quiesced s e.1 e.2 = true)
include hteams

variable (hviews : ∀ e ∈ s.contexts, e.2.part ∈ ps → ∀ v ∈ e.2.views, v.2.queued = [])
include hviews

theorem checkpointReady_paused : checkpointReady { s with parts := pausedParts true ps s.parts } ps = true := by
  simp only [checkpointReady, Bool.and_eq_true, List.all_eq_true, Bool.or_eq_true, Bool.not_eq_true', decide_eq_true_eq]
  refine ⟨fun e he => ?_, fun e he => ?_⟩
  · obtain ⟨-, hfenced, hquiet⟩ := hteams e he
    exact ⟨hfenced, hquiet⟩
  · by_cases hp : e.2.part ∈ ps
    · exact .inr (hviews e he hp)
    · exact .inl (by simpa using hp)

/-- The state that a checkpoint leaves, in which nothing of its partitions but fenced teams runs any more. -/
theorem checkpointStep_keeps : checkpointStep s ps =
    { resumed s ps with
      keeping := (checkpointOf (resumed s ps) ps :: s.keeping).take 2, journal := s.journal.filter fun j => !journalOf s ps j,
      shared := s.shared.filter fun e => !ps.contains e.1 } := by
  simp only [checkpointStep, foldl_modPart_paused]
  rw [foldl_of_fixed]
  · simp only [checkpointReady_paused hteams hviews, Bool.not_true, Bool.false_eq_true, if_false]
    congr 1
  · intro e he
    obtain ⟨ht, hfenced, -⟩ := hteams e he
    simp only [ht]
    exact checkpointSave_fenced hfenced

end Checkpoint

/-- Settles O56: stops by `debugStopped_debugHalt`, a debugger's writes one by one, and a checkpoint by `checkpointStep_keeps`. -/
theorem debugAndKeeping : Obligations.DebugAndKeeping := by
  refine ⟨fun _ _ part h => debugStop_stops h part, fun _ _ _ => ⟨_, rfl, debugStopped_debugHalt .., rfl, rfl⟩, fun _ _ _ => rfl,
    fun _ _ _ _ _ _ v ht hth hstopped => debugWrite_vreg ht hth hstopped v,
    fun _ _ _ _ _ v ht hq hstopped => debugWrite_greg ht hq hstopped v,
    fun _ _ _ _ _ _ v ht hth hstopped => debugWrite_pred ht hth hstopped v,
    fun _ _ _ _ _ v ht hq hstopped => debugWrite_qreg ht hq hstopped v,
    fun _ _ _ _ _ _ w ht hq hstopped => debugWrite_stage ht hq hstopped w,
    fun _ _ _ _ _ _ w ht hq hstopped => debugWrite_bankEntry ht hq hstopped w,
    fun _ _ _ _ _ w ht hq hstopped => debugWrite_bankStatus ht hq hstopped w, ?_⟩
  intro s ps hteams hviews
  refine ⟨_, checkpointOf (resumed s ps) ps, congrArg Host.Outcome.next (checkpointStep_keeps hteams hviews), rfl, rfl, rfl, rfl, rfl,
    rfl, rfl, rfl, fun p q hq => ?_, rfl, rfl, rfl, fun p hp q hq => ?_⟩
  · exact (sget_resumed_parts s ps p).trans (by rw [hq]; rfl)
  · have hparts := (sget_resumed_parts s ps p).symm.trans hq
    simp only [if_pos hp, Option.map_eq_some_iff] at hparts
    obtain ⟨r, -, rfl⟩ := hparts
    rfl

end Sys2Proof.Laws
end

section
/-! SUPPORT. Contexts, queues and partitions (R268, R316, R317, R330, R331), and the end of a context (R343, R378). -/

namespace Sys2Proof.Laws
open Sys2Proof.Machine

/-! ## Contexts and queues -/

theorem nbits_lt (v lo w : Nat) : nbits v lo w < 2 ^ w := Nat.mod_lt _ (Nat.two_pow_pos w)

theorem contextRegister_makes {s : State} {part : Nat} {desc : BitVec 512} (hok : contextOk s part desc.toNat = true) (debug : Bool) :
    ∃ u c, exec (.contextRegister part debug desc) s = .next u ∧ sget u.contexts (nbits desc.toNat 192 16) = some c ∧
      c.part = part ∧ c.ptroot = nbits desc.toNat 0 64 ∧ c.htvec.toNat = nbits desc.toNat 64 64 ∧ c.tqbase = nbits desc.toNat 128 64 ∧
      c.budget = c.cap ∧ c.cap = (sgetD s.parts part default).pcap ∧ c.refill = (sgetD s.parts part default).prefill ∧
      c.debug = debug ∧ c.views = [] ∧ c.stopped = false ∧ u.mem = s.mem := by
  have hkeeps : ¬(!contextOk s part desc.toNat) = true := by rw [hok]; exact Bool.false_ne_true
  exact ⟨_, _, congrArg Host.Outcome.next (if_neg hkeeps), sget_sset_eq .., rfl, rfl, Nat.mod_eq_of_lt (nbits_lt ..), rfl, rfl, rfl,
    rfl, rfl, rfl, rfl, rfl⟩

/-- The queue that a descriptor registers (R317). -/
def queueOf (ctx : Nat) (va : DWord) (d : Nat) : Queue :=
  { (default : Queue) with
    ctx := ctx, part := nbits d 64 3, priv := nbit d 71, desc := va.toNat, base := nbits d 0 64, logn := nbits d 72 5 }

theorem queueRegister_makes {s : State} {q ctx : Nat} {va : DWord} {ps : List Place} (hup : s.bringUp = false)
    (hnew : sget s.queues q = none) (haligned : va.toNat % 64 = 0) (hplaces : cpPlaces s ctx false va.toNat 64 = .ok ps)
    (hok : queueOk s ctx (memNat s.mem (placeAt ps va.toNat).pa 64) = true) :
    ∃ u k, exec (.queueRegister q ctx va) s = .next u ∧ sget u.queues q = some k ∧ k.ctx = ctx ∧ k.desc = va.toNat ∧
      k.base = nbits (memNat s.mem (placeAt ps va.toNat).pa 64) 0 64 ∧ k.status = .idle ∧ k.grids = [] ∧ u.mem = s.mem := by
  refine ⟨{ s with queues := sset s.queues q (queueOf ctx va (memNat s.mem (placeAt ps va.toNat).pa 64)) }, _, ?_, sget_sset_eq ..,
    rfl, rfl, rfl, rfl, rfl, rfl⟩
  change execQueueRegister q ctx va s = _
  simp only [execQueueRegister, hup, hnew, haligned, hplaces, hok, Option.isSome_none, ne_eq, not_true_eq_false, decide_false,
    Bool.or_self, Bool.not_true, Bool.false_eq_true, if_false]
  rfl

/-! ## Partitions -/

section Parts
variable {s : State} {n m : Nat} {p : Partition}

theorem sget_modPart (hp : sget s.parts n = some p) (f : Partition → Partition) : sget (modPart s n f).parts n = some (f p) :=
  (sget_smod_eq ..).trans (by rw [hp]; rfl)

theorem sget_modPart_ne (h : n ≠ m) (f : Partition → Partition) : sget (modPart s n f).parts m = sget s.parts m :=
  sget_smod_ne _ _ h

/-- A resize's rescaled ceilings. -/
theorem sget_rescale (hp : sget s.parts n = some p) : sget (rescale s n).parts n = some { p with
    prefill := if p.dPrefill then Config.defPrefill * p.clusters.length else p.prefill,
    pcap := if p.dPcap then Config.defPcap * p.clusters.length else p.pcap } := by
  simp only [rescale, hp]
  exact sget_modPart hp _

/-- A rescaling keeps the clusters of every partition. -/
theorem clusters_rescale (s : State) (n m : Nat) : (sget (rescale s n).parts m).map (·.clusters) = (sget s.parts m).map (·.clusters) := by
  cases hp : sget s.parts n with
  | none => simp only [rescale, hp]
  | some p =>
    by_cases h : n = m
    · subst h
      rw [sget_rescale hp, hp]
      rfl
    · simp only [rescale, hp]
      exact congrArg _ (sget_modPart_ne h _)

end Parts

/-- Contexts after their partition's ceilings have changed. -/
theorem sget_setCeilings_contexts (s : State) (part prefill pcap n : Nat) : sget (setCeilings s part prefill pcap).contexts n =
    (sget s.contexts n).map fun c => if c.part = part then ctxCeil prefill pcap c else c := by
  rw [← sget_map]
  refine congrArg (fun m => sget m n) (List.map_congr_left fun e _ => ?_)
  split <;> rfl

theorem ctxCeil_le (prefill pcap : Nat) (c : Context) :
    (ctxCeil prefill pcap c).cap ≤ pcap ∧ (ctxCeil prefill pcap c).refill ≤ prefill ∧
      (ctxCeil prefill pcap c).budget ≤ (ctxCeil prefill pcap c).cap := by
  refine ⟨?_, ?_, Nat.min_le_right ..⟩
  · change (if c.ebset then min c.cap pcap else pcap) ≤ pcap
    split <;> omega
  · change (if c.ebset then min c.refill prefill else prefill) ≤ prefill
    split <;> omega

/-- The partition that PARTITION_CONFIG creates, before its ceilings are scaled. -/
def newPart (cs : List Nat) (quota base n prefill pcap : Nat) : Partition :=
  { (default : Partition) with
    clusters := cs, quota := quota, spillBase := base, spillN := n, prefill := prefill, pcap := pcap, dPrefill := prefill = 0,
    dPcap := pcap = 0 }

section Config
variable {s : State} {part : Nat} (hup : s.bringUp = false)
include hup

theorem partitionConfig_creates {cs : List Nat} {quota base n prefill pcap : Nat} (hpart : part < 8)
    (hnew : sget s.parts part = none) (hcs : cs ≠ []) (hfree : clustersOk s part cs = true) (hmin : 2 ^ 16 ≤ n) (hmax : n ≤ 2 ^ 24)
    (haligned : base % 64 = 0) (hphys : physOk s part base (64 * n) = true) :
    ∃ u p, exec (.partitionConfig (.create part cs quota base n prefill pcap)) s = .next u ∧ sget u.parts part = some p ∧
      p.clusters = cs ∧ p.quota = quota ∧ p.spillBase = base ∧ p.spillN = n ∧ p.ready = [] ∧
      p.prefill = (if prefill = 0 then Config.defPrefill * cs.length else prefill) ∧
      p.pcap = (if pcap = 0 then Config.defPcap * cs.length else pcap) := by
  have hvalid : (8 ≤ part || (sget s.parts part).isSome || cs = [] || !clustersOk s part cs || n < 2 ^ 16 || 2 ^ 24 < n || base % 64 ≠ 0
      || !physOk s part base (64 * n)) = false := by
    simp only [decide_eq_false (Nat.not_le.2 hpart), hnew, hcs, hfree, decide_eq_false (Nat.not_lt.2 hmin),
      decide_eq_false (Nat.not_lt.2 hmax), haligned, hphys, Option.isSome_none, decide_false, Bool.not_true, Bool.or_self, ne_eq,
      not_true_eq_false]
  refine ⟨_, _, ?_, sget_rescale (s := { s with parts := sset s.parts part (newPart cs quota base n prefill pcap) }) (sget_sset_eq ..),
    rfl, rfl, rfl, rfl, rfl, ?_, ?_⟩
  · change execPartitionConfig (.create part cs quota base n prefill pcap) s = _
    simp only [execPartitionConfig, hup, hvalid, Bool.false_eq_true, if_false]
    rfl
  · exact if_congr decide_eq_true_iff rfl rfl
  · exact if_congr decide_eq_true_iff rfl rfl

theorem partitionConfig_resizes {cs : List Nat} {p : Partition} (hp : sget s.parts part = some p) (hcs : cs ≠ []) (hmoves : p.moves = [])
    (hfree : clustersOk s part cs = true) (hempty : ∀ c ∈ p.clusters, c ∉ cs → clusterEmpty s c = true) :
    ∃ u, exec (.partitionConfig (.resize part cs)) s = .next u ∧ (sget u.parts part).map (·.clusters) = some cs := by
  have hleft : (p.clusters.any fun c => !cs.contains c && !clusterEmpty s c) = false := List.any_eq_false.2 fun c hc => by
    by_cases hin : c ∈ cs
    · simp [hin]
    · simp [hempty c hc hin]
  refine ⟨rescale (modPart s part fun p => { p with clusters := cs }) part, ?_, ?_⟩
  · change execPartitionConfig (.resize part cs) s = _
    simp only [execPartitionConfig, hup, hp, hcs, hmoves, hfree, hleft, decide_false, ne_eq, not_true_eq_false, Bool.not_true, Bool.or_self,
      Bool.false_eq_true, if_false]
  · rw [clusters_rescale, sget_modPart hp]
    rfl

theorem partitionConfig_setsCeilings {p : Partition} (hp : sget s.parts part = some p) (prefill pcap : Nat) :
    ∃ u, exec (.partitionConfig (.ceilings part prefill pcap)) s = .next u ∧
      (sget u.parts part).map (fun p => (p.prefill, p.pcap)) = some (prefill, pcap) ∧
      ∀ n c, sget u.contexts n = some c → c.part = part → c.cap ≤ pcap ∧ c.refill ≤ prefill ∧ c.budget ≤ c.cap := by
  refine ⟨setCeilings (modPart s part fun p => { p with dPrefill := false, dPcap := false }) part prefill pcap, ?_, ?_,
    fun n c hc hpart => ?_⟩
  · change execPartitionConfig (.ceilings part prefill pcap) s = _
    simp only [execPartitionConfig, hup, Bool.false_eq_true, if_false]
  · exact (congrArg _ (sget_modPart (sget_modPart hp _) _)).trans rfl
  · rw [sget_setCeilings_contexts] at hc
    obtain ⟨c0, -, rfl⟩ := Option.map_eq_some_iff.1 hc
    by_cases h0 : c0.part = part
    · rw [if_pos h0]
      exact ctxCeil_le ..
    · rw [if_neg h0] at hpart
      exact absurd hpart h0

theorem partitionConfig_deletes {p : Partition} (hp : sget s.parts part = some p)
    (hempty : ∀ c ∈ p.clusters, clusterEmpty s c = true) (hready : p.ready = []) (hpool : p.pool = []) (hmoves : p.moves = [])
    (hctx : ∀ e ∈ s.contexts, e.2.part ≠ part) (hqueues : ∀ e ∈ s.queues, e.2.part ≠ part)
    (htargets : ∀ e ∈ s.parts, ∀ m ∈ e.2.moves, m.2 ≠ part) :
    exec (.partitionConfig (.delete part)) s = .next { s with parts := serase s.parts part } := by
  have hclusters : (p.clusters.any fun c => !clusterEmpty s c) = false := List.any_eq_false.2 fun c hc => by simp [hempty c hc]
  have hcontexts : (s.contexts.any fun e => e.2.part = part) = false := List.any_eq_false.2 fun e he => by simp [hctx e he]
  have hq : (s.queues.any fun e => e.2.part = part) = false := List.any_eq_false.2 fun e he => by simp [hqueues e he]
  have htarget : (s.parts.any fun e => e.2.moves.any fun m => m.2 = part) = false := List.any_eq_false.2 fun e he =>
    Bool.eq_false_iff.1 (List.any_eq_false.2 fun m hm => by simp [htargets e he m hm])
  change execPartitionConfig (.delete part) s = _
  simp only [execPartitionConfig, hup, hp, hclusters, hready, hpool, hmoves, hcontexts, hq, htarget, ne_eq, not_true_eq_false,
    decide_false, Bool.or_self, Bool.false_eq_true, if_false]

end Config

/-- The end of a move of an empty cluster gives the cluster to its target. -/
theorem finishMove_moves {s : State} {c src dst : Nat} {p q : Partition} (hp : sget s.parts src = some p)
    (hq : sget s.parts dst = some q) (hne : src ≠ dst) (hmoves : p.moves = [(c, dst)]) (hc : c ∈ p.clusters)
    (hempty : clusterEmpty s c = true) :
    (sget (finishMove s c src).parts src).map (·.clusters) = some (p.clusters.filter (· ≠ c)) ∧
      (sget (finishMove s c src).parts dst).map (·.clusters) = some (q.clusters ++ [c]) := by
  have hfind : p.moves.find? (fun m => m.1 = c) = some (c, dst) := by rw [hmoves]; simp
  simp only [finishMove, hp, hfind, hq, hempty, List.contains_iff_mem.2 hc, Option.isNone_some, Bool.not_true, Bool.or_self,
    Bool.false_eq_true, if_false, clusters_rescale]
  constructor
  · rw [sget_modPart_ne (Ne.symm hne), sget_modPart (sget_modPart hp _)]
    rfl
  · rw [sget_modPart (p := q) (by rw [sget_modPart_ne hne, sget_modPart_ne hne, hq])]
    rfl

theorem clusterMove_moves {s : State} {c src dst : Nat} {p q : Partition} (hp : sget s.parts src = some p)
    (hq : sget s.parts dst = some q) (hne : src ≠ dst) (hmoves : p.moves = []) (hc : c ∈ p.clusters) (hempty : clusterEmpty s c = true)
    (d : Nat) :
    ∃ u, exec (.clusterMove c src dst d) s = .next u ∧ (sget u.parts src).map (·.clusters) = some (p.clusters.filter (· ≠ c)) ∧
      (sget u.parts dst).map (·.clusters) = some (q.clusters ++ [c]) := by
  have hon : (s.teams.filter fun e => coreCluster e.2.core = c) = [] := List.filter_eq_nil_iff.2 fun e he => by
    simpa using List.all_eq_true.1 hempty e he
  have hexec : exec (.clusterMove c src dst d) s =
      .next (finishMove (modPart s src fun p => { p with moves := p.moves ++ [(c, dst)] }) c src) := by
    change execClusterMove c src dst d s = _
    simp only [execClusterMove, hp, hmoves, hq, hne, hon, List.contains_iff_mem.2 hc, List.any_nil, Bool.false_eq_true, if_false,
      decide_false, Bool.not_true, Option.isNone_some, Bool.or_self, List.map_nil, List.foldl_nil, ite_self, modPart_teams]
  obtain ⟨hsrc, hdst⟩ := finishMove_moves (sget_modPart hp fun p => { p with moves := p.moves ++ [(c, dst)] })
    ((sget_modPart_ne hne _).trans hq) hne (by rw [hmoves]; rfl) hc hempty
  exact ⟨_, hexec, hsrc, hdst⟩

theorem thermalThrottle_lowers {s : State} {part : Nat} {p : Partition} (hp : sget s.parts part = some p) (prefill : Nat) :
    exec (.thermalThrottle part prefill) s = .next (setCeilings s part (min prefill p.prefill) p.pcap) := by
  change execThermalThrottle part prefill s = _
  simp only [execThermalThrottle, hp]

end Sys2Proof.Laws
end

section
/-! SUPPORT. CONTEXT_END (R343, R378): the teams that leave, and what the moves of records afterwards let stand. -/

namespace Sys2Proof.Laws
open Sys2Proof.Machine

/-- The teams of a machine with their contexts, and its grids with theirs. -/
def teamCtxs (s : State) : Store Nat := s.teams.map fun e => (e.1, e.2.ctx)
def gridCtxs (s : State) : Store Nat := s.grids.map fun e => (e.1, e.2.ctx)

theorem mem_serase {α : Type} {m : Store α} {n : Nat} {e : Nat × α} : e ∈ serase m n ↔ e ∈ m ∧ e.1 ≠ n := by
  induction m with
  | nil => simp [serase]
  | cons d t ih =>
    obtain ⟨k, w⟩ := d
    rw [serase, List.mem_cons]
    split
    next hk =>
      subst hk
      rw [ih]
      exact ⟨fun ⟨he, hne⟩ => ⟨.inr he, hne⟩, fun ⟨he, hne⟩ => ⟨he.resolve_left (by rintro rfl; exact hne rfl), hne⟩⟩
    next hk =>
      rw [List.mem_cons, ih]
      constructor
      · rintro (rfl | ⟨he, hne⟩)
        · exact ⟨.inl rfl, hk⟩
        · exact ⟨.inr he, hne⟩
      · rintro ⟨rfl | he, hne⟩
        · exact .inl rfl
        · exact .inr ⟨he, hne⟩

/-! ## The teams leave -/

theorem teamCtxs_drainTeam (s : State) (t : Nat) : teamCtxs (drainTeam s t) = teamCtxs s := by
  have h : (bare (drainTeam s t)).teams.map (fun e => (e.1, e.2.ctx)) = (bare s).teams.map fun e => (e.1, e.2.ctx) :=
    congrArg (fun s : State => s.teams.map fun e => (e.1, e.2.ctx)) (bare_drainWhere s fun h => h.team = t)
  simpa [teamCtxs, bare, teamBare, Function.comp_def] using h

theorem teams_dropTeam (s : State) (t : Nat) (tm : Team) : (dropTeam s t tm).teams = serase s.teams t := by
  have h := forgetExits_keeps tm tm.groups (modCtx s tm.ctx fun c => { c with eq := c.eq.filter (· ≠ t) })
  exact (congrArg (fun s : State => serase s.teams t) h :)

theorem mem_teamCtxs_leave {s : State} {t : Nat} {tm : Team} {e : Nat × Nat} :
    e ∈ teamCtxs (dropTeam (drainTeam s t) t tm) ↔ e ∈ teamCtxs s ∧ e.1 ≠ t := by
  rw [← teamCtxs_drainTeam s t]
  simp only [teamCtxs, teams_dropTeam, List.mem_map, mem_serase]
  constructor
  · rintro ⟨d, ⟨hd, hne⟩, rfl⟩
    exact ⟨⟨d, hd, rfl⟩, hne⟩
  · rintro ⟨⟨d, hd, rfl⟩, hne⟩
    exact ⟨d, ⟨hd, hne⟩, rfl⟩

theorem mem_teamCtxs_leaveAll (l : List (Nat × Team)) {s : State} {e : Nat × Nat}
    (he : e ∈ teamCtxs (l.foldl (fun s e => dropTeam (drainTeam s e.1) e.1 e.2) s)) :
    e ∈ teamCtxs s ∧ ∀ d ∈ l, e.1 ≠ d.1 := by
  induction l generalizing s with
  | nil => exact ⟨he, fun d hd => absurd hd List.not_mem_nil⟩
  | cons a l ih =>
    obtain ⟨hmem, hrest⟩ := ih he
    obtain ⟨hs, ha⟩ := mem_teamCtxs_leave.1 hmem
    exact ⟨hs, List.forall_mem_cons.2 ⟨ha, hrest⟩⟩

/-- The state in which every team of a context has left its core. -/
def teamsGone (s : State) (ctx : Nat) : State :=
  (s.teams.filter fun e => e.2.ctx = ctx).foldl (fun s e => dropTeam (drainTeam s e.1) e.1 e.2) s

theorem teamsGone_ctx (s : State) (ctx : Nat) : ∀ e ∈ teamCtxs (teamsGone s ctx), e.2 ≠ ctx := by
  intro e he hctx
  obtain ⟨hmem, hgone⟩ := mem_teamCtxs_leaveAll _ he
  obtain ⟨d, hd, rfl⟩ := List.mem_map.1 hmem
  exact hgone d (List.mem_filter.2 ⟨hd, decide_eq_true hctx⟩) rfl

/-! ## Records move -/

theorem gridCtxs_foldl {α : Type} {f : State → α → State} (h : ∀ s a, gridCtxs (f s a) = gridCtxs s) (l : List α) (s : State) :
    gridCtxs (l.foldl f s) = gridCtxs s := by
  induction l generalizing s with
  | nil => rfl
  | cons a t ih => rw [List.foldl_cons, ih, h]

theorem gridCtxs_with (s : State) (mem : List Host.Cell) (parts : Store Partition) :
    gridCtxs { s with mem := mem, parts := parts } = gridCtxs s :=
  rfl

theorem gridCtxs_respill (s : State) (part : Nat) : gridCtxs (respill s part) = gridCtxs s := by
  rw [respill_eq, gridCtxs_foldl (f := spillOne part) fun _ _ => gridCtxs_with ..]
  exact gridCtxs_with s s.mem _

theorem gridCtxs_moveReady (s : State) (part : Nat) (r : ContRec) : gridCtxs (moveReady s part r) = gridCtxs s := by
  unfold moveReady
  split
  · rfl
  · dsimp only
    split
    · rfl
    · rw [pushReady_eq, gridCtxs_respill]
      exact map_smod Grid.ctx (f := fun g => { g with pool := g.pool - 1, tasks := g.tasks + 1 }) (fun _ => rfl) _ _

theorem gridCtxs_refill (s : State) (part : Nat) : gridCtxs (refill s part) = gridCtxs s :=
  (gridCtxs_foldl (fun s r => gridCtxs_moveReady s part r) _ _).trans (gridCtxs_respill _ part)

theorem offQueue_refill (s : State) (part : Nat) : offQueue (refill s part) = offQueue s :=
  (offQueue_foldl (fun s r => offQueue_moveReady s part r) _ _).trans (offQueue_respill _ part)

/-- The state of an ended context before slots that have become free are used again. -/
def ctxGone (s : State) (ctx : Nat) : State :=
  let gs := (s.grids.filter fun e => e.2.ctx = ctx).map Prod.fst
  let s := teamsGone s ctx
  { modCtx s ctx (fun c => { c with stopped := false, fault := none, views := [], masters := [], cpMark := false }) with
    grids := s.grids.filter fun e => e.2.ctx ≠ ctx,
    parts := s.parts.map fun e => (e.1, dropRecs gs e.2),
    images := s.images.filter fun e => e.2.team.ctx ≠ ctx || e.2.kind = .ctxsave,
    queues := s.queues.map fun e => (e.1, { e.2 with grids := e.2.grids.filter fun n => !gs.contains n }),
    frozen := s.frozen.filter fun e => e.2 ≠ ctx,
    channels := s.channels.map fun e => if e.2.ctx = ctx then (e.1, { e.2 with frozen := false }) else e }

theorem exec_contextEnd (s : State) (ctx : Nat) :
    exec (.contextEnd ctx) s = .next (((ctxGone s ctx).parts.map Prod.fst).foldl refill (ctxGone s ctx)) := rfl

theorem contextEnd_ends (s : State) (ctx : Nat) : ∃ u, exec (.contextEnd ctx) s = .next u ∧ (∀ e ∈ u.grids, e.2.ctx ≠ ctx) ∧
    (∀ e ∈ u.teams, e.2.ctx ≠ ctx) ∧ (∀ e ∈ u.channels, e.2.ctx = ctx → e.2.frozen = false) ∧ (∀ e ∈ u.frozen, e.2 ≠ ctx) ∧
    ∀ c, sget u.contexts ctx = some c → c.views = [] ∧ c.masters = [] ∧ c.stopped = false := by
  refine ⟨_, exec_contextEnd s ctx, ?_⟩
  have hqueue := offQueue_foldl offQueue_refill ((ctxGone s ctx).parts.map Prod.fst) (ctxGone s ctx)
  have hgrids := gridCtxs_foldl gridCtxs_refill ((ctxGone s ctx).parts.map Prod.fst) (ctxGone s ctx)
  generalize ((ctxGone s ctx).parts.map Prod.fst).foldl refill (ctxGone s ctx) = u at hqueue hgrids
  have hteams : u.teams = (teamsGone s ctx).teams := (congrArg State.teams hqueue :)
  have hchannels : u.channels = (ctxGone s ctx).channels := (congrArg State.channels hqueue :)
  have hfrozen : u.frozen = (ctxGone s ctx).frozen := (congrArg State.frozen hqueue :)
  have hcontexts : u.contexts = (ctxGone s ctx).contexts := (congrArg State.contexts hqueue :)
  refine ⟨fun e he => ?_, fun e he => ?_, fun e he hctx => ?_, fun e he => ?_, fun c hc => ?_⟩
  · have hmem : (e.1, e.2.ctx) ∈ gridCtxs (ctxGone s ctx) := hgrids ▸ List.mem_map_of_mem (f := fun e => (e.1, e.2.ctx)) he
    obtain ⟨d, hd, heq⟩ := List.mem_map.1 hmem
    have hd : decide (d.2.ctx ≠ ctx) = true := (List.mem_filter.1 hd).2
    obtain ⟨-, hsame⟩ := Prod.ext_iff.1 heq
    exact fun hctx => of_decide_eq_true hd (hsame.trans hctx)
  · exact teamsGone_ctx s ctx (e.1, e.2.ctx) (List.mem_map_of_mem (f := fun e => (e.1, e.2.ctx)) (hteams ▸ he))
  · rw [hchannels] at he
    obtain ⟨d, -, rfl⟩ := List.mem_map.1 he
    by_cases hd : d.2.ctx = ctx
    · rw [if_pos hd]
    · rw [if_neg hd] at hctx
      exact absurd hctx hd
  · rw [hfrozen] at he
    exact of_decide_eq_true (List.mem_filter.1 he).2
  · rw [hcontexts] at hc
    obtain ⟨c0, -, rfl⟩ := Option.map_eq_some_iff.1 ((sget_smod_eq ..).symm.trans hc)
    exact ⟨rfl, rfl, rfl⟩

end Sys2Proof.Laws
end

section
/-! SUPPORT. Translations, caches, pools, channels and ids (R169, R212, R348, R358, R370, R376, R377), and attestation (R383,
R384). -/

namespace Sys2Proof.Laws
open Sys2Proof.Machine

theorem translationInvalidate_drops {s : State} {ctx : Nat} {base len : DWord} (h : oldAccess s ctx base.toNat len.toNat = false) :
    ∃ u, exec (.translationInvalidate ctx base len) s = .next u ∧ u.mem = s.mem ∧ ∀ n x, x ∈ sgetD u.tlb n [] ↔
      x ∈ sgetD s.tlb n [] ∧
        ¬(x.ctx = ctx ∧ x.vpn * 2 ^ x.size < base.toNat + len.toNat ∧ base.toNat < (x.vpn + 1) * 2 ^ x.size) := by
  refine ⟨_, congrArg Host.Outcome.next (if_neg (Bool.eq_false_iff.1 h)), rfl, fun n x => ?_⟩
  change x ∈ (sget (s.tlb.map _) n).getD [] ↔ _
  rw [sget_map, sgetD]
  cases sget s.tlb n with
  | none => simp
  | some l =>
    have hin : xlatIn ctx base.toNat len.toNat x = true ↔
        x.ctx = ctx ∧ x.vpn * 2 ^ x.size < base.toNat + len.toNat ∧ base.toNat < (x.vpn + 1) * 2 ^ x.size := by
      simp only [xlatIn, Bool.and_eq_true, decide_eq_true_eq, and_assoc]
    rw [← hin, Bool.not_eq_true, ← Bool.not_eq_true']
    exact List.mem_filter

theorem getDie_modDie (s : State) (d : Nat) (f : Die → Die) (n : Nat) :
    getDie (modDie s d f) n = if d = n then f (getDie s d) else getDie s n := by
  rw [getDie, modDie, sgetD, sget_sset]
  split <;> rfl

theorem rdcResize_resizes {s : State} {die : Nat} {code : BitVec 4} (hcode : code.toNat ≤ 4) (hdie : die < 4)
    (hempty : dieEmpty s die = true) :
    ∃ u, exec (.rdcResize die code) s = .next u ∧ (getDie u die).rdc = [] ∧ (getDie u die).rdcCfg = code ∧
      (∀ n, n ≠ die → getDie u n = getDie s n) ∧ u.mem = s.mem := by
  have hvalid : (decide (4 < code.toNat) || decide (4 ≤ die) || !dieEmpty s die) = false := by
    rw [decide_eq_false (Nat.not_lt.2 hcode), decide_eq_false (Nat.not_le.2 hdie), hempty]
    rfl
  have hdies := getDie_modDie s die fun d => { d with rdc := [], rdcCfg := code }
  refine ⟨_, congrArg Host.Outcome.next (if_neg (Bool.eq_false_iff.1 hvalid)), ?_, ?_, fun n hn => ?_, rfl⟩
  · exact congrArg Die.rdc ((hdies die).trans (if_pos rfl))
  · exact congrArg Die.rdcCfg ((hdies die).trans (if_pos rfl))
  · exact (hdies n).trans (if_neg (Ne.symm hn))

theorem savePoolRegister_registers {s : State} {part : Nat} {slots : List Nat} {p : Partition} (hp : sget s.parts part = some p)
    (hlen : 4 ≤ slots.length) (hnodup : slots.Nodup) (haligned : ∀ a ∈ slots, a % 2 ^ 22 = 0)
    (hphys : ∀ a ∈ slots, physOk s part a (2 ^ 22) = true) (hused : ∀ a ∈ p.usedSlots, a ∈ slots) :
    exec (.savePoolRegister part slots) s = .next
      ((s.teams.map Prod.fst).foldl saveStep (modPart s part fun p => { p with savePool := slots })) := by
  have hslots : (slots.any fun a => a % 2 ^ 22 ≠ 0 || !physOk s part a (2 ^ 22)) = false := List.any_eq_false.2 fun a ha => by
    rw [haligned a ha, hphys a ha]
    simp
  have hkept : (p.usedSlots.any fun a => !slots.contains a) = false := List.any_eq_false.2 fun a ha => by simp [hused a ha]
  change execSavePoolRegister part slots s = _
  simp only [execSavePoolRegister, hp, Nat.not_lt.2 hlen, hnodup, hslots, hkept, decide_false, decide_true, Bool.not_true,
    Bool.or_self, Bool.false_eq_true, if_false, modPart_teams]

theorem coreImageAreaRegister_registers {s : State} {ctx a : Nat} {c : Context} (hc : sget s.contexts ctx = some c)
    (hphys : physOk s c.part a 1 = true) :
    ∃ u, exec (.coreImageAreaRegister ctx a) s = .next u ∧ sget u.contexts ctx = some { c with coreArea := some a } :=
  ⟨_, rfl, (sget_modCtx hc _).trans (by rw [if_pos hphys])⟩

theorem hostChannelBind_binds {s : State} {ch ctx : Nat} {c : Context} (hc : sget s.contexts ctx = some c) (hch : ch < 64)
    (hserves : ∀ k, sget s.channels ch = some k → k.frozen = false) :
    exec (.hostChannelBind ch ctx) s = .next { s with channels := sset s.channels ch { ctx := ctx, frozen := false } } := by
  have hthaws : (sget s.channels ch).any (·.frozen) = false := by
    cases hk : sget s.channels ch with
    | none => rfl
    | some k => exact hserves k hk
  change execHostChannelBind ch ctx s = _
  simp only [execHostChannelBind, hc, Nat.not_le.2 hch, hthaws, Option.isNone_some, decide_false, Bool.or_self, Bool.false_eq_true,
    if_false]

/-! ## Attestation -/

theorem attestationReport_answers (s : State) (nonce : BitVec 256) :
    ∃ u r, exec (.attestationReport nonce) s = .next u ∧ u.report = some r ∧ r.identity = identityRecord s.identity ∧
      r.log = s.measures ∧ r.nonce = nonce ∧ r.sig.length = 29792 ∧
      (∀ i (h : i < r.sig.length), r.sig[i] = Config.slhSign r.identity r.log nonce i) ∧ { u with report := s.report } = s := by
  refine ⟨_, _, rfl, rfl, rfl, rfl, rfl, ?_, fun i h => ?_, rfl⟩
  · rw [reportSig, List.length_map, List.length_range, sigBytes]
  · simp only [reportSig, List.getElem_map, List.getElem_range]

/-! ## The identity record -/

theorem identityRecord_fields (i : Identity) : let w := identityRecord i
    w.extractLsb' 256 256 = i.pkhash ∧ w.extractLsb' 192 64 = i.serial ∧ w.extractLsb' 160 32 = 0 ∧
    w.extractLsb' 124 36 = i.clmask ∧ w.extractLsb' 108 16 = i.rdccfg ∧ w.extractLsb' 96 12 = i.pkgid ∧
    w.extractLsb' 80 16 = i.fwbase ∧ w.extractLsb' 72 8 = i.step ∧ w.extractLsb' 32 40 = 0 ∧ w.extractLsb' 0 32 = i.magic := by
  unfold identityRecord
  simp (disch := omega) only [BitVec.extractLsb'_append_eq_of_le, Nat.reduceSub, BitVec.extractLsb'_append_eq_right,
    BitVec.extractLsb'_eq_self, and_self]

/-- Settles O55: each request where its rules hold, a context's end by `contextEnd_ends`, and the record field by field. -/
theorem contextsAndPartitions : Obligations.ContextsAndPartitions :=
  ⟨⟨fun _ _ debug _ hok => contextRegister_makes hok debug, fun _ _ _ _ _ => queueRegister_makes,
    fun _ _ _ _ _ _ _ _ hup => partitionConfig_creates hup, fun _ _ _ _ hup hp hcs hmoves hfree hempty =>
      partitionConfig_resizes hup hp hcs hmoves hfree hempty,
    fun _ _ prefill pcap _ hup hp => partitionConfig_setsCeilings hup hp prefill pcap, fun _ _ _ hup => partitionConfig_deletes hup,
    fun _ _ _ _ d _ _ hp hq hne hmoves hc hempty => clusterMove_moves hp hq hne hmoves hc hempty d,
    fun _ _ prefill _ hp => thermalThrottle_lowers hp prefill, contextEnd_ends⟩,
   fun _ _ _ _ => translationInvalidate_drops, fun _ _ _ _ hold => congrArg Host.Outcome.next (if_pos hold),
   fun _ _ _ => rdcResize_resizes, fun _ _ _ _ => savePoolRegister_registers, fun _ _ _ _ => coreImageAreaRegister_registers,
   fun _ _ _ _ => hostChannelBind_binds, fun _ _ _ hid => congrArg Host.Outcome.next (if_neg hid), fun _ _ => rfl,
   attestationReport_answers, identityRecord_fields⟩

end Sys2Proof.Laws
end

section
/-! SUPPORT. Joins in direct mode (R282, R292, R293): the additions of JINS and JMAC as one list, in the order of the loops. -/

namespace Sys2Proof.Laws
open Sys2Proof.Machine

/-! ## Additions into a bank in direct mode -/

/-- One addition of a join: entry (row, column), the value in X176 and the flags that its entry raises. -/
abbrev Addition := (Nat × Nat) × BitVec 176 × XFlags

/-- The bank after some additions in direct mode. -/
def addAll : Bank → List Addition → Bank
  | b, [] => b
  | b, e :: l => addAll (bankFlags (directAdd b e.1.1 e.1.2 e.2.1) e.2.2) l

theorem addAll_append (b : Bank) (l l' : List Addition) : addAll b (l ++ l') = addAll (addAll b l) l' := by
  induction l generalizing b with
  | nil => rfl
  | cons e l ih => exact ih _

@[simp] theorem hash_directAdd (b : Bank) (i j : Nat) (v : BitVec 176) : (directAdd b i j v).hash = b.hash := by
  unfold directAdd
  simp only
  split <;> rfl

@[simp] theorem hash_bankFlags (b : Bank) (x : XFlags) : (bankFlags b x).hash = b.hash := rfl

@[simp] theorem hash_addAll (b : Bank) (l : List Addition) : (addAll b l).hash = b.hash := by
  induction l generalizing b with
  | nil => rfl
  | cons e l ih => rw [addAll, ih, hash_bankFlags, hash_directAdd]

theorem accAdd_direct {b : Bank} (hdirect : b.hash = false) (tm : Team) {i j : Nat} (hi : i < 64) (hj : j < 64)
    (v : BitVec 176) : accAdd tm b i j v = .ok tm (directAdd b i j v) := by
  simp [accAdd, hdirect, Nat.not_le.2 hi, Nat.not_le.2 hj]

theorem directVal_bankFlags (b : Bank) (x : XFlags) (m n : Nat) : directVal (bankFlags b x) m n = directVal b m n := rfl

theorem directVal_directAdd (b : Bank) {i j m n : Nat} (v : BitVec 176) (hj : j < 64) (hn : n < 64) :
    directVal (directAdd b i j v) m n = directVal b m n + if (i, j) = (m, n) then v else 0 := by
  have hslot : (64 * m + n = 64 * i + j) ↔ ((i, j) = (m, n)) := by
    rw [Prod.mk.injEq]
    omega
  exact (denseVal_directAdd b i j v (64 * m + n)).trans (by simp only [hslot]; rfl)

theorem gained_cons (e : (Nat × Nat) × BitVec 176) (l : List ((Nat × Nat) × BitVec 176)) (m n : Nat) :
    gained (e :: l) m n = (if e.1 = (m, n) then e.2 else 0) + gained l m n := by
  simp only [gained, ← List.sum_eq_foldl]
  by_cases he : e.1 = (m, n) <;> simp [he]

/-- An entry gains the values added under its key, and no others. -/
theorem directVal_addAll (b : Bank) {l : List Addition} (hcols : ∀ e ∈ l, e.1.2 < 64) (m : Nat) {n : Nat} (hn : n < 64) :
    directVal (addAll b l) m n = directVal b m n + gained (l.map fun e => (e.1, e.2.1)) m n := by
  induction l generalizing b with
  | nil => exact (add_zero _).symm
  | cons e l ih =>
    rw [addAll, ih _ fun e' he' => hcols e' (List.mem_cons_of_mem _ he'), directVal_bankFlags,
      directVal_directAdd b _ (hcols e List.mem_cons_self) hn, List.map_cons, gained_cons, BitVec.add_assoc]

/-! ## Streams from a position on -/

/-- `n` tuples of a stream from position `p` on. -/
def tuplesFrom (tm : Team) (off p n : Nat) : List (Nat × Nat × Word) := (List.range' p n).map (tupleAt tm off)

theorem streamOf_eq_tuplesFrom (tm : Team) (off n : Nat) : streamOf tm off n = tuplesFrom tm off 0 n := by
  rw [streamOf, List.range_eq_range', tuplesFrom]

theorem tuplesFrom_succ (tm : Team) (off p n : Nat) :
    tuplesFrom tm off p (n + 1) = tupleAt tm off p :: tuplesFrom tm off (p + 1) n := by
  rw [tuplesFrom, List.range'_succ, List.map_cons, tuplesFrom]

theorem tuplesFrom_drop (tm : Team) (off p n i : Nat) :
    tuplesFrom tm off (p + i) (n - (p + i)) = (tuplesFrom tm off p (n - p)).drop i := by
  rw [tuplesFrom, tuplesFrom, ← List.map_drop, List.drop_range', Nat.sub_sub, Nat.mul_one]

theorem mem_tuplesFrom {tm : Team} {off p n : Nat} {e : Nat × Nat × Word} :
    e ∈ tuplesFrom tm off p n ↔ ∃ q, p ≤ q ∧ q < p + n ∧ tupleAt tm off q = e := by
  simp only [tuplesFrom, List.mem_map, List.mem_range'_1, and_assoc]

theorem forall_mem_streamOf {tm : Team} {off n : Nat} {P : Nat × Nat × Word → Prop} :
    (∀ e ∈ streamOf tm off n, P e) ↔ ∀ q < n, P (tupleAt tm off q) := by
  simp only [streamOf, List.forall_mem_map, List.mem_range]

/-- The k of a stream's first `n` tuples do not fall. -/
def KRising (tm : Team) (off n : Nat) : Prop := ∀ p q, p < q → q < n → (tupleAt tm off p).1 ≤ (tupleAt tm off q).1

theorem kRising_of_pairwise {tm : Team} {off n : Nat} (h : ((streamOf tm off n).map Prod.fst).Pairwise (· ≤ ·)) :
    KRising tm off n := by
  intro p q hpq hq
  simpa [streamOf] using List.pairwise_iff_getElem.1 h p q (by simp [streamOf]; omega) (by simpa [streamOf] using hq) hpq

theorem KRising.pairwise {tm : Team} {off n : Nat} (h : KRising tm off n) (p : Nat) :
    (tuplesFrom tm off p (n - p)).Pairwise fun e f => e.1 ≤ f.1 := by
  rw [tuplesFrom, List.pairwise_map]
  refine List.Pairwise.imp_of_mem (fun _ hy hlt => h _ _ hlt ?_) List.pairwise_lt_range'
  rw [List.mem_range'_1] at hy
  omega

/-! ## The run of one k in a rising list -/

section Runs
variable {α : Type}

theorem drop_length_takeWhile (p : α → Bool) (l : List α) : l.drop (l.takeWhile p).length = l.dropWhile p := by
  have h := List.drop_left' (l₁ := l.takeWhile p) (l₂ := l.dropWhile p) rfl
  rwa [List.takeWhile_append_dropWhile] at h

/-- What is dropped takes nothing from a filter that none of it passes. -/
theorem filter_dropWhile {p q : α → Bool} (h : ∀ x, p x = true → q x = false) (l : List α) :
    (l.dropWhile p).filter q = l.filter q := by
  induction l with
  | nil => rfl
  | cons x l ih =>
    by_cases hx : p x = true
    · rw [List.dropWhile_cons_of_pos hx, ih, List.filter_cons_of_neg (by simp [h x hx])]
    · rw [List.dropWhile_cons_of_neg hx]

variable {key : α → Nat} {l : List α} (hrise : l.Pairwise fun e f => key e ≤ key f) (k : Nat)
include hrise

theorem le_of_mem_dropWhile_lt : ∀ x ∈ l.dropWhile (key · < k), k ≤ key x := by
  induction l with
  | nil => simp
  | cons y l ih =>
    obtain ⟨hy, hl⟩ := List.pairwise_cons.1 hrise
    by_cases hlt : key y < k
    · rw [List.dropWhile_cons_of_pos (by simpa using hlt)]
      exact ih hl
    · rw [List.dropWhile_cons_of_neg (by simpa using hlt)]
      intro x hx
      obtain rfl | hx := List.mem_cons.1 hx
      · exact Nat.not_lt.1 hlt
      · exact (Nat.not_lt.1 hlt).trans (hy x hx)

theorem takeWhile_eq_filter_of_le (hle : ∀ x ∈ l, k ≤ key x) : l.takeWhile (key · = k) = l.filter (key · = k) := by
  induction l with
  | nil => rfl
  | cons y l ih =>
    obtain ⟨hy, hl⟩ := List.pairwise_cons.1 hrise
    have hley := hle y List.mem_cons_self
    by_cases heq : key y = k
    · rw [List.takeWhile_cons_of_pos (by simpa using heq), List.filter_cons_of_pos (by simpa using heq),
        ih hl fun x hx => hle x (List.mem_cons_of_mem _ hx)]
    · rw [List.takeWhile_cons_of_neg (by simpa using heq), eq_comm, List.filter_eq_nil_iff]
      intro x hx
      obtain rfl | hx := List.mem_cons.1 hx
      · simpa using heq
      · have := hy x hx
        simp only [decide_eq_true_eq]
        omega

/-- In a rising list the run of `k` behind the smaller keys holds every element of key `k`. -/
theorem run_eq_filter : (l.dropWhile (key · < k)).takeWhile (key · = k) = l.filter (key · = k) := by
  rw [takeWhile_eq_filter_of_le (hrise.sublist (List.dropWhile_sublist _)) k (le_of_mem_dropWhile_lt hrise k)]
  exact filter_dropWhile (fun x hx => by simp only [decide_eq_true_eq, decide_eq_false_iff_not] at hx ⊢; omega) l

end Runs

/-! ## JINS (R293) -/

/-- The addition of a tuple of JINS. -/
def insertion (sl : Slot) (e : Nat × Nat × Word) : Addition := ((e.1, e.2.1), enterVal (valueWord sl e.2.2))

theorem jinsLoop_eq {tm : Team} {off n : Nat} {sl : Slot}
    (hsmall : ∀ q < n, (tupleAt tm off q).1 < 64 ∧ (tupleAt tm off q).2.1 < 64) {m p : Nat} (hmp : p + m = n) {b : Bank}
    (hdirect : b.hash = false) :
    jinsLoop off n sl m p tm b
      = (tm, addAll b ((tuplesFrom tm off p m).map (insertion sl)), .done (BitVec.ofNat 64 n)) := by
  induction m generalizing p b with
  | zero => rw [jinsLoop, show p = n from hmp]; rfl
  | succ m ih =>
    obtain ⟨hrow, hcol⟩ := hsmall p (by omega)
    rw [jinsLoop, if_neg (by omega), tuplesFrom_succ, List.map_cons, addAll, ← ih (by omega) (by simpa using hdirect)]
    simp only [accAdd_direct hdirect tm hrow hcol, insertion]

theorem jinsLoop_adds {tm : Team} {b : Bank} {off n : Nat} {sl : Slot} (hdirect : b.hash = false)
    (hsmall : ∀ e ∈ streamOf tm off n, e.1 < 64 ∧ e.2.1 < 64) :
    ∃ b', jinsLoop off n sl n 0 tm b = (tm, b', .done (BitVec.ofNat 64 n)) ∧ ∀ r < 64, ∀ c < 64,
      directVal b' r c = directVal b r c
        + gained ((streamOf tm off n).map fun e => ((e.1, e.2.1), (enterVal (valueWord sl e.2.2)).1)) r c := by
  refine ⟨_, jinsLoop_eq (forall_mem_streamOf.1 hsmall) (Nat.zero_add n) hdirect, fun r _ c hc => ?_⟩
  rw [← streamOf_eq_tuplesFrom, directVal_addAll b (List.forall_mem_map.2 fun e he => (hsmall e he).2) r hc, List.map_map]
  rfl

/-! ## JMAC (R292) -/

/-- The product of two tuples' value words before it enters X176; none for a NaN or an infinity. -/
def productQ (sa sb : Slot) (wa wb : Word) : Option Q :=
  match valueWord sa wa, valueWord sb wb with
  | some x, some y => some (x.mul y)
  | _, _ => none

theorem enterVal_productQ (sa sb : Slot) (wa wb : Word) : (enterVal (productQ sa sb wa wb)).1 = productOf sa sb wa wb := by
  unfold productQ productOf
  cases valueWord sa wa with
  | none => rfl
  | some x =>
    cases valueWord sb wb with
    | none => rfl
    | some y => rfl

/-- The addition of the product of an A tuple and a B tuple. -/
def pairing (j : JStreams) (e f : Nat × Nat × Word) : Addition := ((e.2.1, f.2.1), enterVal (productQ j.sa j.sb e.2.2 f.2.2))

/-- The additions of an A tuple over some B tuples. -/
def pairings (j : JStreams) (B : List (Nat × Nat × Word)) (e : Nat × Nat × Word) : List Addition :=
  (B.filter (·.1 = e.1)).map (pairing j e)

section Jmac
variable {tm : Team} {j : JStreams}

/-- The tuples of B from a position on. -/
def restB (tm : Team) (j : JStreams) (p : Nat) : List (Nat × Nat × Word) := tuplesFrom tm j.ob p (j.nb - p)

theorem restB_zero : restB tm j 0 = streamOf tm j.ob j.nb := by rw [restB, Nat.sub_zero, streamOf_eq_tuplesFrom]

/-- Where the run of `k` in B begins, seen from a position before it. -/
def runStart (tm : Team) (j : JStreams) (k p : Nat) : Nat := p + ((restB tm j p).takeWhile (·.1 < k)).length

/-- Where the run of `k` that begins at a position of B ends. -/
def runEnd (tm : Team) (j : JStreams) (k p : Nat) : Nat := p + ((restB tm j p).takeWhile (·.1 = k)).length

theorem restB_runStart (k p : Nat) : restB tm j (runStart tm j k p) = (restB tm j p).dropWhile (·.1 < k) := by
  rw [restB, runStart, tuplesFrom_drop, ← restB, drop_length_takeWhile]

theorem restB_runEnd (k p : Nat) : restB tm j (runEnd tm j k p) = (restB tm j p).dropWhile (·.1 = k) := by
  rw [restB, runEnd, tuplesFrom_drop, ← restB, drop_length_takeWhile]

/-- The search passes no tuple that an A tuple of this k or a greater one matches. -/
theorem pairings_runStart {k p : Nat} {e : Nat × Nat × Word} (hle : k ≤ e.1) :
    pairings j (restB tm j (runStart tm j k p)) e = pairings j (restB tm j p) e := by
  rw [restB_runStart, pairings, filter_dropWhile fun f hf => ?_, pairings]
  simp only [decide_eq_true_eq, decide_eq_false_iff_not] at hf ⊢
  omega

/-- A run holds no tuple that an A tuple of another k matches. -/
theorem pairings_runEnd {k p : Nat} {e : Nat × Nat × Word} (hne : k ≠ e.1) :
    pairings j (restB tm j (runEnd tm j k p)) e = pairings j (restB tm j p) e := by
  rw [restB_runEnd, pairings, filter_dropWhile fun f hf => ?_, pairings]
  simp only [decide_eq_true_eq, decide_eq_false_iff_not] at hf ⊢
  omega

/-- The search in a rising stream finds the run's start and meets no tuple that falls. -/
theorem findRun_eq (hrise : KRising tm j.ob j.nb) (k p : Nat) : findRun tm j k (j.nb - p) p = .ok (runStart tm j k p) := by
  rw [runStart, restB]
  generalize hn : j.nb - p = n
  induction n generalizing p with
  | zero => rfl
  | succ n ih =>
    rw [tuplesFrom_succ, findRun]
    by_cases hlt : (tupleAt tm j.ob p).1 < k
    · have hfalls : ¬(p + 1 < j.nb ∧ (tupleAt tm j.ob (p + 1)).1 < (tupleAt tm j.ob p).1) := fun h =>
        Nat.not_lt.2 (hrise p (p + 1) (Nat.lt_succ_self p) h.1) h.2
      rw [if_pos (by simpa [hlt] using (by omega : p < j.nb)), if_neg (by simpa using hfalls), ih (p + 1) (by omega),
        List.takeWhile_cons_of_pos (by simpa using hlt), List.length_cons, Nat.add_assoc, Nat.add_comm 1]
    · rw [if_neg (by simp [hlt]), List.takeWhile_cons_of_neg (by simpa using hlt)]
      rfl

variable (hcols : ∀ q < j.nb, (tupleAt tm j.ob q).2.1 < 64)
include hcols

/-- The products of an A tuple are those with the run of its k that begins at the cursor. -/
theorem products_eq {e : Nat × Nat × Word} (hrow : e.2.1 < 64) (pa pb0 pb : Nat) {b : Bank} (hdirect : b.hash = false) :
    products j e.2.1 e.1 e.2.2 pa pb0 (j.nb - pb) pb tm b
      = (tm, addAll b (((restB tm j pb).takeWhile (·.1 = e.1)).map (pairing j e)), .ok (runEnd tm j e.1 pb)) := by
  rw [runEnd, restB]
  generalize hn : j.nb - pb = n
  induction n generalizing pb b with
  | zero => rfl
  | succ n ih =>
    have hpb : pb < j.nb := by omega
    rw [tuplesFrom_succ, products]
    by_cases heq : (tupleAt tm j.ob pb).1 = e.1
    · rw [List.takeWhile_cons_of_pos (by simpa using heq), List.map_cons, addAll, List.length_cons,
        ← Nat.add_assoc, Nat.add_right_comm, ← ih (pb + 1) (by simpa using hdirect) (by omega)]
      simp only [hpb, heq, decide_true, Bool.and_self, if_true, accAdd_direct hdirect tm hrow (hcols pb hpb)]
      rfl
    · rw [List.takeWhile_cons_of_neg (by simpa using heq)]
      simp only [heq, decide_false, Bool.and_false, Bool.false_eq_true, if_false]
      rfl

variable (hriseB : KRising tm j.ob j.nb)
include hriseB

/-- From the run's start on, an A tuple's products are those with every B tuple of its k. -/
theorem products_run {e : Nat × Nat × Word} (hrow : e.2.1 < 64) (pa p : Nat) {b : Bank} (hdirect : b.hash = false) :
    let p0 := runStart tm j e.1 p
    products j e.2.1 e.1 e.2.2 pa p0 (j.nb - p0) p0 tm b
      = (tm, addAll b (pairings j (restB tm j p) e), .ok (runEnd tm j e.1 p0)) := by
  intro p0
  have hrise : (restB tm j p).Pairwise fun e f => e.1 ≤ f.1 := hriseB.pairwise p
  rw [products_eq hcols hrow pa p0 p0 hdirect, restB_runStart, run_eq_filter hrise, pairings]

variable (hriseA : KRising tm j.oa j.na)
include hriseA

/-- One A tuple: its products with every B tuple of its k are added, and the search goes on at the run's start where the next A
tuple has the same k, and at its end where it has a greater one. -/
theorem jmacLoop_succ {n pa : Nat} (p : Nat) (hpa : pa + (n + 1) = j.na) (hrow : (tupleAt tm j.oa pa).2.1 < 64) {b : Bank}
    (hdirect : b.hash = false) :
    let e := tupleAt tm j.oa pa
    let p0 := runStart tm j e.1 p
    let p' := if pa + 1 < j.na ∧ (tupleAt tm j.oa (pa + 1)).1 = e.1 then p0 else runEnd tm j e.1 p0
    jmacLoop j (n + 1) ⟨pa, p, p⟩ tm b = jmacLoop j n ⟨pa + 1, p', p'⟩ tm
      (addAll b (pairings j (restB tm j p) e)) := by
  intro e p0 p'
  have hfalls : ¬(0 < pa ∧ e.1 < (tupleAt tm j.oa (pa - 1)).1) := fun h =>
    Nat.not_lt.2 (hriseA (pa - 1) pa (by omega) (by omega)) h.2
  rw [jmacLoop, if_neg (by omega : ¬j.na ≤ pa)]
  simp only [findRun_eq hriseB, if_true]
  rw [if_neg (by simpa using hfalls), products_run hcols hriseB hrow pa p hdirect]
  simp only [← Bool.decide_and, decide_eq_true_eq]
  rfl

/-- One A tuple: its products are added, and no B tuple that a later A tuple matches is passed. -/
theorem jmacLoop_step {n pa p : Nat} (hpa : pa + (n + 1) = j.na) (hrow : (tupleAt tm j.oa pa).2.1 < 64) {b : Bank}
    (hdirect : b.hash = false) :
    ∃ p', jmacLoop j (n + 1) ⟨pa, p, p⟩ tm b = jmacLoop j n ⟨pa + 1, p', p'⟩ tm
        (addAll b (pairings j (restB tm j p) (tupleAt tm j.oa pa))) ∧
      ∀ e ∈ tuplesFrom tm j.oa (pa + 1) n, pairings j (restB tm j p') e = pairings j (restB tm j p) e := by
  refine ⟨_, jmacLoop_succ hcols hriseB hriseA p hpa hrow hdirect, fun e he => ?_⟩
  obtain ⟨q, hq, hqn, rfl⟩ := mem_tuplesFrom.1 he
  have hle : (tupleAt tm j.oa pa).1 ≤ (tupleAt tm j.oa q).1 := hriseA pa q (by omega) (by omega)
  by_cases hmore : pa + 1 < j.na ∧ (tupleAt tm j.oa (pa + 1)).1 = (tupleAt tm j.oa pa).1
  · rw [if_pos hmore, pairings_runStart hle]
  · rw [if_neg hmore, pairings_runEnd (fun heq => hmore ⟨by omega, ?_⟩), pairings_runStart hle]
    have hnext : (tupleAt tm j.oa pa).1 ≤ (tupleAt tm j.oa (pa + 1)).1 := hriseA _ _ (by omega) (by omega)
    have hlater : (tupleAt tm j.oa (pa + 1)).1 ≤ (tupleAt tm j.oa q).1 := by
      obtain rfl | hlt := Nat.eq_or_lt_of_le hq
      · exact Nat.le_refl _
      · exact hriseA _ _ hlt (by omega)
    omega

theorem jmacLoop_eq (hrows : ∀ q < j.na, (tupleAt tm j.oa q).2.1 < 64) {n pa : Nat} (hpa : pa + n = j.na) (p : Nat) {b : Bank}
    (hdirect : b.hash = false) :
    ∃ p', jmacLoop j n ⟨pa, p, p⟩ tm b
      = (tm, addAll b ((tuplesFrom tm j.oa pa n).flatMap (pairings j (restB tm j p))), .done (Cursor.mk j.na p' p').word) := by
  induction n generalizing pa p b with
  | zero => exact ⟨p, by rw [jmacLoop, show pa = j.na from hpa]; rfl⟩
  | succ n ih =>
    obtain ⟨p', hstep, hlater⟩ := jmacLoop_step hcols hriseB hriseA (p := p) hpa (hrows pa (by omega)) hdirect
    obtain ⟨p'', hrest⟩ := ih (pa := pa + 1) (by omega) p' (b := addAll b (pairings j (restB tm j p) (tupleAt tm j.oa pa)))
      (by simpa using hdirect)
    refine ⟨p'', ?_⟩
    rw [hstep, hrest, tuplesFrom_succ, List.flatMap_cons, addAll_append, List.flatMap_congr hlater]

end Jmac

theorem jmacLoop_adds {tm : Team} {b : Bank} {j : JStreams} (hdirect : b.hash = false)
    (hrows : ∀ e ∈ streamOf tm j.oa j.na, e.2.1 < 64) (hcols : ∀ e ∈ streamOf tm j.ob j.nb, e.2.1 < 64)
    (hriseA : ((streamOf tm j.oa j.na).map Prod.fst).Pairwise (· ≤ ·))
    (hriseB : ((streamOf tm j.ob j.nb).map Prod.fst).Pairwise (· ≤ ·)) :
    ∃ b' p, jmacLoop j j.na ⟨0, 0, 0⟩ tm b = (tm, b', .done (Cursor.mk j.na p p).word) ∧ ∀ r < 64, ∀ c < 64,
      directVal b' r c = directVal b r c
        + gained ((streamOf tm j.oa j.na).flatMap fun e => ((streamOf tm j.ob j.nb).filter fun f => f.1 = e.1).map fun f =>
            ((e.2.1, f.2.1), productOf j.sa j.sb e.2.2 f.2.2)) r c := by
  obtain ⟨p, hrun⟩ := jmacLoop_eq (forall_mem_streamOf.1 hcols) (kRising_of_pairwise hriseB) (kRising_of_pairwise hriseA)
    (forall_mem_streamOf.1 hrows) (Nat.zero_add j.na) 0 hdirect
  refine ⟨_, p, hrun, fun r _ c hc => ?_⟩
  have hsmall : ∀ e ∈ (streamOf tm j.oa j.na).flatMap (pairings j (streamOf tm j.ob j.nb)), e.1.2 < 64 := by
    intro e he
    obtain ⟨a, -, hea⟩ := List.mem_flatMap.1 he
    obtain ⟨f, hf, rfl⟩ := List.mem_map.1 hea
    exact hcols f (List.mem_of_mem_filter hf)
  rw [restB_zero, ← streamOf_eq_tuplesFrom, directVal_addAll b hsmall r hc, List.map_flatMap]
  simp only [pairings, List.map_map, Function.comp_def, pairing, enterVal_productQ]

/-- Settles O50: each loop adds one list of additions (`jinsLoop_eq`, `jmacLoop_eq`), and an entry gains what that list holds under
its key. -/
theorem joinsAddEveryProduct : Obligations.JoinsAddEveryProduct :=
  ⟨fun _ _ _ _ _ => jinsLoop_adds, fun _ _ _ => jmacLoop_adds⟩

end Sys2Proof.Laws
end

section
/-! SUPPORT. What reset leaves (R376, R383, R384), and the words that trap, fence and yield (R357, R363 to R365). -/

namespace Sys2Proof.Laws
open Sys2Proof.Machine

/-- Settles O9: reset names each of these values. -/
theorem resetIsEmpty : Obligations.ResetIsEmpty :=
  ⟨rfl, rfl, rfl, rfl, rfl, rfl, rfl, rfl, rfl⟩

end Sys2Proof.Laws
end

section
/-! SUPPORT. TRAP and BKPT (R357, R363), TFENCE (R364) and YIELD (R347, R365). -/

namespace Sys2Proof.Laws
open Sys2Proof.Machine

/-! ## Words that do not retire of themselves -/

section Holds
variable {i : Instr} {r : Req} {body : Site → State → Res} {ok : Site → State → Prop} {eff : Site → State → State}

/-- A group's word that runs a body issues with what the body's end leaves. -/
theorem groupHolds_of_finish (hexec : ∀ s, exec i s = .next (issue r body s))
    (hbody : ∀ x s, ok x s → finish s x (body x s) = eff x s) : GroupHolds i r ok eff := by
  intro s x s1 hs hok
  rw [hexec, issue_of_site hs, hbody x s1 hok]

end Holds

/-! ## TRAP and BKPT -/

theorem trap_traps (g : Guard) (code : BitVec 16) :
    GroupHolds (.trap g code) (plainReq g) (fun x _ => x.act ≠ [])
      fun x s => trapGroup (retired s x) x.t x.k { cause := 7, lanes := x.act, info := code.zeroExtend 32 } x.act
        (groupPos (advance s.cycle x.g)) :=
  groupHolds_of_finish (fun _ => rfl) fun x s hact => by
    simp only [if_neg hact]
    rfl

theorem trap_idle (g : Guard) (code : BitVec 16) :
    GroupCompletes (.trap g code) (plainReq g) (fun x _ => x.act = []) fun _ s => s :=
  groupCompletes_of_body (fun _ => rfl) fun _ _ hact => if_pos hact

theorem bkpt_traps (g : Guard) (code : BitVec 16) :
    GroupHolds (.bkpt g code) (plainReq g)
      (fun x s => x.act ≠ [] ∧ ∀ c, sget s.contexts x.tm.ctx = some c → c.debugger = false)
      fun x s => trapGroup (retired s x) x.t x.k { cause := 9, lanes := x.act, info := code.zeroExtend 32 } x.act
        (groupPos (advance s.cycle x.g)) := by
  refine groupHolds_of_finish (fun _ => rfl) fun x s ⟨hact, hfree⟩ => ?_
  have hnone : ((sget s.contexts x.tm.ctx).map (·.debugger)).getD false = false := by
    cases hc : sget s.contexts x.tm.ctx with
    | none => rfl
    | some c => exact hfree c hc
  simp only [if_neg hact, hnone, Bool.false_eq_true, if_false]
  rfl

/-- Under a debugger BKPT stops its partition. -/
theorem bkpt_stops (g : Guard) (code : BitVec 16) :
    GroupCompletes (.bkpt g code) (plainReq g)
      (fun x s => x.act ≠ [] ∧ ∃ c, sget s.contexts x.tm.ctx = some c ∧ c.debugger = true)
      fun x s => debugHalt s x.tm.core (slotPartOf x.tm x.k) true := by
  refine groupCompletes_of_body (fun _ => rfl) fun x s ⟨hact, c, hc, hdebug⟩ => ?_
  simp only [if_neg hact, hc, hdebug, Option.map_some, Option.getD_some, if_true]

theorem bkpt_idle (g : Guard) (code : BitVec 16) :
    GroupCompletes (.bkpt g code) (plainReq g) (fun x _ => x.act = []) fun _ s => s :=
  groupCompletes_of_body (fun _ => rfl) fun _ _ hact => if_pos hact

/-- Settles O31: each word's body, with an active thread and without. -/
theorem softwareTraps : Obligations.SoftwareTraps :=
  ⟨trap_traps, bkpt_traps, bkpt_stops, trap_idle, bkpt_idle⟩

/-! ## TFENCE -/

/-- TFENCE passes where no flag is owed and no lane's flags are set and enabled. -/
theorem tfenceIssue_passes {g : Guard} {s s1 : State} {x : Site} (hs : issueSite (plainReq g) s = some (x, s1))
    (howed : flagsOwed s1 x.t x.tids = false) (hclear : ∀ l ∈ x.act, laneArith s1 x l = 0) :
    tfenceIssue g s = retired s1 x := by
  refine issue_retire hs ?_
  have hnone : x.act.filter (fun l => laneArith s1 x l ≠ 0) = [] :=
    List.filter_eq_nil_iff.2 fun l hl => by simp [hclear l hl]
  simp only [howed, hnone, Bool.false_eq_true, if_false, if_true]

theorem tfence_completes (g : Guard) :
    GroupCompletes (.tfence g) (plainReq g)
      (fun x s => flagsOwed s x.t x.tids = false ∧ ∀ l ∈ x.act, laneArith s x l = 0) fun _ s => s :=
  fun _ _ _ hs ⟨howed, hclear⟩ => congrArg Host.Outcome.next (tfenceIssue_passes hs howed hclear)

theorem tfence_traps (g : Guard) :
    GroupTraps (.tfence g) (plainReq g)
      (fun x s => flagsOwed s x.t x.tids = false ∧ ∃ l ∈ x.act, laneArith s x l ≠ 0)
      fun x s =>
        let bad := x.act.filter fun l => laneArith s x l ≠ 0
        { cause := 8, lanes := bad, info := (bad.foldl (fun w l => w ||| laneArith s x l) 0).zeroExtend 32 } := by
  refine groupTraps_of_body (fun _ => rfl) fun x s ⟨howed, l, hl, hset⟩ => ?_
  have hbad : x.act.filter (fun l => laneArith s x l ≠ 0) ≠ [] :=
    List.ne_nil_of_mem (List.mem_filter.2 ⟨hl, decide_eq_true hset⟩)
  simp only [howed, if_neg hbad, Bool.false_eq_true, if_false]

theorem tfence_waits (g : Guard) :
    GroupWaits (.tfence g) (plainReq g) (fun x s => flagsOwed s x.t x.tids = true) fun _ s => s :=
  groupWaits_of_body (fun _ => rfl) fun _ _ howed => if_pos howed

theorem tfence_ends (t k : Nat) (g : Guard) :
    WaitEnds (.tfence g) (.classWWaitRelease (.group t k)) (plainReq g) t k
      (fun x s => flagsOwed s x.t x.tids = false ∧ ∀ l ∈ x.act, laneArith s x l = 0) fun _ s => s := by
  intro s x s1 hw hs ⟨howed, hclear⟩
  have hretry : classWRetry (.group t k) s = reissue (.group t k) (tfenceIssue g) s := by
    rw [classWRetry, hw.1]
  rw [classWWaitRelease_retries hw, hretry, reissue_group hw hs (tfenceIssue_passes hs howed hclear)]

/-! ## YIELD -/

theorem yield_falls (n : BitVec 9) :
    GroupCompletes (.yield n) (plainReq ⟨false, 7⟩)
      (fun x s => yieldUnsafe s x = false ∧ (x.g.handler = true ∨ x.tm.preq = false)) fun _ s => s := by
  refine groupCompletes_of_body (fun _ => rfl) fun x s ⟨hsafe, hstay⟩ => ?_
  have hfalls : (x.g.handler || !x.tm.preq) = true := by simpa using hstay
  simp only [hsafe, hfalls, Bool.false_eq_true, if_false, if_true]

theorem yield_yields (n : BitVec 9) :
    GroupHolds (.yield n) (plainReq ⟨false, 7⟩)
      (fun x s => yieldUnsafe s x = false ∧ x.g.handler = false ∧ x.tm.preq = true)
      fun x s => modTeam (retired s x) x.t (yieldMark x.k n.toNat) := by
  refine groupHolds_of_finish (fun _ => rfl) fun x s ⟨hsafe, hhandler, hpreq⟩ => ?_
  simp only [hsafe, hhandler, hpreq, Bool.not_true, Bool.or_self, Bool.false_eq_true, if_false]
  rfl

/-- Settles O32: TFENCE by its issue and by the later try of the same word, YIELD by its body. -/
theorem tfenceAndYield : Obligations.TfenceAndYield :=
  ⟨tfence_completes, tfence_traps, tfence_waits, tfence_ends, yield_falls, yield_yields⟩

end Sys2Proof.Laws
end

section
/-! SUPPORT. Handler entry (R338 to R340), and RTH (R40, R255, R342). -/

namespace Sys2Proof.Laws
open Sys2Proof.Machine

/-! ## Handler entry -/

/-- Only samples reach a core's trace while tracing is off (R361). -/
theorem tracePut_off {s : State} {core : Nat} {b : TraceBody} (hoff : (getCore s core).trace.on = false) (hsync : b.type ≠ 1)
    (hsample : b.type ≠ 5) : tracePut s core b = s := by
  simp [tracePut, hoff, hsync, hsample]

/-- Giving up a wait touches neither threads, frontier nor other groups. -/
theorem abandonWait_frame (tm : Team) (k : Nat) :
    (abandonWait k tm).threads = tm.threads ∧ (abandonWait k tm).front = tm.front ∧
      ∀ n, n ≠ k → sget (abandonWait k tm).groups n = sget tm.groups n := by
  cases hg : sget tm.groups k with
  | none => simp only [abandonWait, hg]; exact ⟨trivial, trivial, fun _ _ => trivial⟩
  | some g =>
    simp only [abandonWait, hg]
    split <;> exact ⟨rfl, rfl, fun n hn => sget_smod_ne _ _ hn.symm⟩

section Entry
variable {s : State} {t k : Nat} {tm : Team} {g : Group} {tr : Trap} (ht : sget s.teams t = some tm)
  (hg : sget tm.groups k = some g) (hhandler : g.handler = false) (hvec : tm.htvec ≠ 0) (hcause : tr.cause ≠ 0x100)
  (hoff : (getCore s tm.core).trace.on = false)
include ht hg hhandler hvec hcause hoff

theorem trapGroup_enters (old : List Nat) (hpc : DWord) : trapGroup s t k tr old hpc =
    modTeam s t fun tm => modGroup (abandonWait k tm) k fun g => handlerGroup g tm.htvec hpc old tr := by
  have hstays : (g.handler || decide (tm.htvec = 0)) = false := by rw [hhandler, Bool.false_or, decide_eq_false hvec]
  simp only [trapGroup, ht, hg, if_neg hcause, hstays, Bool.false_eq_true, if_false]
  exact tracePut_off hoff (show 4 ≠ 1 by decide) (show 4 ≠ 5 by decide)

end Entry

/-! ## The position that `%hpc` names (R339) -/

section Position
variable {pc w : Nat} (haddr : pc + 8 * (w + 1) < 2 ^ 52) (hw : w < 16)
include haddr hw

theorem hpcWix_hpcWord : hpcWix (hpcWord pc w) = w + 1 := by
  rw [hpcWix_eq, hpcWord_toNat]
  omega

theorem hpcAddr_hpcWord : hpcAddr (hpcWord pc w) = pc + 8 * (w + 1) := by
  rw [hpcAddr_eq, hpcWord_toNat]
  omega

theorem hpcClauseAddr_hpcWord : hpcClauseAddr (hpcWord pc w) = pc := by
  rw [hpcClauseAddr, hpcWix_hpcWord haddr hw, hpcAddr_hpcWord haddr hw, if_neg (Nat.succ_ne_zero w)]
  omega

end Position

/-- Settles O29: the team that enters its handler is `trapGroup_enters`' one. -/
theorem trapEntersTheHandler : Obligations.TrapEntersTheHandler := by
  refine ⟨?_, fun pc w haddr hw => ⟨hpcWix_hpcWord haddr hw, hpcAddr_hpcWord haddr hw, hpcClauseAddr_hpcWord haddr hw⟩⟩
  intro s t k tm g tr old hpc ht hg hhandler hvec hcause hoff
  rw [trapGroup_enters ht hg hhandler hvec hcause hoff]
  obtain ⟨hgroup, -⟩ := abandonWait_spec hg
  obtain ⟨hthreads, hfront, hgroups⟩ := abandonWait_frame tm k
  have hentered := sget_smod_eq (abandonWait k tm).groups k fun g => handlerGroup g tm.htvec hpc old tr
  rw [hgroup, Option.map_some] at hentered
  refine ⟨_, _, sget_modTeam ht _, hentered, ⟨rfl, rfl, rfl, rfl, rfl⟩,
    ⟨rfl, rfl, rfl, rfl, rfl, rfl, rfl⟩, rfl, hthreads, hfront, fun n hn => ?_, fun n hn => sget_smod_ne _ _ hn.symm, rfl, rfl⟩
  exact (sget_smod_ne _ _ hn.symm).trans (hgroups n hn)

/-! ## RTH -/

/-- RTH changes pending results, its group, and, after a trap of the sequencer, the sequencer. -/
theorem rthTeam_keeps {c k : Nat} {tm : Team} {g : Group} (hg : sget tm.groups k = some g) : ∃ ths,
    rthTeam c k tm = { tm with
      threads := ths, groups := smod tm.groups k fun g => { (if g.seqTrap then keptGroup g else rthGroup g) with lastIssue := c },
      seq := if g.seqTrap then tm.seq.map (seqResume g.hpc) else tm.seq } ∧
    ∀ i th, sget tm.threads i = some th → ∃ th', sget ths i = some th' ∧ { th' with pend := th.pend } = th := by
  have hdrop (l : List Nat) (tm' : Team) : OnlyPends tm' (l.foldl (fun tm i => modThread tm i dropH) tm') := by
    induction l generalizing tm' with
    | nil => exact .refl tm'
    | cons a l ih => exact (onlyPends_modThread (f := dropH) (fun _ => rfl) tm' a).trans (ih _)
  obtain ⟨ths, heq, hkeep⟩ := (onlyPends_pendTicks true (memberTids g) tm).trans (hdrop (memberTids g) _)
  refine ⟨ths, ?_, hkeep⟩
  simp only [rthTeam, hg, heq]
  cases g.seqTrap <;> rfl

theorem bare_clauseTrace (s : State) (x : Site) : bare (clauseTrace s x) = bare s := by
  unfold clauseTrace
  split
  · split
    · exact bare_tracePut ..
    · rfl
  · rfl

/-- Marks of R300 apart, a team has the same sequencer. -/
theorem seq_of_teamBare {tm tm' : Team} {q : Seq} (h : teamBare tm' = teamBare tm) (hq : tm.seq = some q) :
    ∃ m, tm'.seq = some { q with mark := m } := by
  have hseq : tm'.seq.map (fun q => { q with mark := false }) = some { q with mark := false } :=
    (congrArg Team.seq h).trans (by rw [teamBare, hq]; rfl)
  cases hq' : tm'.seq with
  | none => rw [hq'] at hseq; cases hseq
  | some q' =>
    rw [hq', Option.map_some, Option.some.injEq] at hseq
    exact ⟨q'.mark, by rw [Option.some.injEq]; exact congrArg (fun u : Seq => { u with mark := q'.mark }) hseq⟩

/-- The machine after an RTH that issues: the team as `rthTeam` leaves it, but for marks that the clause's trace sets. -/
theorem rth_leaves {s s1 : State} {x : Site} (hs : issueSite { plainReq ⟨false, 7⟩ with rth := true } s = some (x, s1)) :
    ∃ t tm, exec .rth s = .next t ∧ sget t.teams x.t = some (rthTeam s1.cycle x.k tm) ∧ sget tm.groups x.k = some x.g ∧
      teamBare tm = teamBare x.tm := by
  obtain ⟨-, -, ht, hg, -, -⟩ := siteOf_parts (site_of_issueSite hs)
  obtain ⟨tm, htm, hbare⟩ := team_of_bare (bare_clauseTrace s1 x) ht
  refine ⟨_, tm, congrArg Host.Outcome.next (issue_hold hs rfl), ?_, ?_, hbare⟩
  · rw [promptTeam_teams]
    exact sget_modTeam htm _
  · rw [groups_of_teamBare hbare, hg]

/-- Settles O33: RTH leaves `rthTeam`, whose group and sequencer stand where `%hpc` and the kept position say. -/
theorem rthResumes : Obligations.RthResumes := by
  constructor
  · intro s x s1 hs hseq
    obtain ⟨t, tm, hexec, hteam, hg, hbare⟩ := rth_leaves hs
    obtain ⟨ths, heq, hkeep⟩ := rthTeam_keeps (c := s1.cycle) hg
    rw [heq] at hteam
    refine ⟨t, _, { rthGroup x.g with lastIssue := s1.cycle }, hexec, hteam, ?_, rfl, rfl, rfl, rfl, fun h0 => ?_, fun w hw => ?_,
      (congrArg Team.icount hbare :), fun i th hth => ?_⟩
    · exact (sget_smod_eq ..).trans (by rw [hg, Option.map_some, hseq]; rfl)
    · simp [rthGroup, h0]
    · simp [rthGroup, hw]
    · obtain ⟨m, hm⟩ := thread_of_bare hbare hth
      obtain ⟨th', hth', hpend⟩ := hkeep i _ hm
      exact ⟨th', hth', (congrArg Thread.regs hpend :), (congrArg Thread.preds hpend :), (congrArg Thread.fflags hpend :),
        (congrArg Thread.dc hpend :)⟩
  · intro s x s1 q hs hseq hq
    obtain ⟨t, tm, hexec, hteam, hg, hbare⟩ := rth_leaves hs
    obtain ⟨ths, heq, -⟩ := rthTeam_keeps (c := s1.cycle) hg
    obtain ⟨m, hm⟩ := seq_of_teamBare hbare hq
    rw [heq] at hteam
    refine ⟨t, _, { keptGroup x.g with lastIssue := s1.cycle }, seqResume x.g.hpc { q with mark := m }, hexec, hteam, ?_, ?_, rfl, rfl,
      rfl, rfl, rfl, rfl, rfl, by simp [keptGroup], rfl, rfl, rfl, rfl, rfl, fun h0 => ?_, fun w hw => ?_⟩
    · exact (sget_smod_eq ..).trans (by rw [hg, Option.map_some, hseq]; rfl)
    · simp only [hseq, if_true, hm, Option.map_some]
    · simp [seqResume, hpcClauseAddr, h0]
    · simp [seqResume, hpcClauseAddr, hw]

end Sys2Proof.Laws
end

section
/-! SUPPORT. Special registers (R345, R362), the controls of R366, CTXSAVE (R367) and HALT (R368). -/

namespace Sys2Proof.Laws
open Sys2Proof.Machine

/-! ## SREAD and SWRITE -/

theorem sread_completes (h : Head) (d : VReg) (sel : BitVec 16) (m : Half) :
    GroupCompletes (.sread h d sel m) (sreadReq h d sel m) always
      fun x s => modTeam s x.t fun tm => applyOuts tm x.k h.dsm (x.act.map fun l => match m with
        | .lo => out1 l d ((spRead s x l sel.toNat).extractLsb' 0 32)
        | .hi => out1 l d ((spRead s x l sel.toNat).extractLsb' 32 32)
        | .pair => out2 l d (spRead s x l sel.toNat)) :=
  groupCompletes_of_body (fun _ => rfl) fun _ _ _ => by cases m <;> rfl

theorem swrite_fflags (g : Guard) (a : VReg) :
    GroupCompletes (.swrite g a 0x20 false) (swriteReq g a 0x20 false) always
      fun x s => modTeam s x.t fun tm => x.act.foldl (fun tm l => modThread tm (sgetD x.g.members l 0) fun th =>
        { th with
          fflags := (th.late.filter fun e => e.due = s.cycle).foldl (fun w e => w ||| e.flags)
            ((swriteVal x s a false l).extractLsb' 0 32 &&& 0x1F1F),
          late := th.late.filter fun e => s.cycle < e.due }) tm :=
  groupCompletes_of_body (fun _ => rfl) fun _ _ _ => rfl

/-- What SWRITE of a register that only the lowest active lane writes does to the team. -/
theorem spWrite1_of_lead {x : Site} {sel : Nat} (hact : x.act ≠ []) (hsel : sel ≠ 0x20) (cyc : Nat) (v : Nat → DWord) (tm : Team) :
    spWrite1 cyc x sel v tm =
      if sel = 0x33 then modGroup tm x.k fun g => { g with hpc := v (x.act.headD 0) &&& BitVec.ofNat 64 (2 ^ 57 - 1) }
      else { tm with htvec := v (x.act.headD 0) } := by
  obtain ⟨l, ls, hl⟩ := List.exists_cons_of_ne_nil hact
  rw [spWrite1, if_neg hsel, hl]
  rfl

theorem swrite_hpc (g : Guard) (a : VReg) :
    GroupCompletes (.swrite g a 0x33 true) (swriteReq g a 0x33 true) (fun x _ => x.act ≠ [])
      fun x s => modTeam s x.t fun tm => modGroup tm x.k fun g =>
        { g with hpc := swriteVal x s a true (x.act.headD 0) &&& 0x01FFFFFFFFFFFFFF } :=
  groupCompletes_of_body (fun _ => rfl) fun x s hact =>
    congrArg (fun f => Res.retire (modTeam s x.t f)) (funext fun tm => spWrite1_of_lead hact (by decide) ..)

theorem swrite_htvec (g : Guard) (a : VReg) :
    GroupCompletes (.swrite g a 0x30 true) (swriteReq g a 0x30 true) (fun x _ => x.act ≠ [])
      fun x s => modTeam s x.t fun tm => { tm with htvec := swriteVal x s a true (x.act.headD 0) } :=
  groupCompletes_of_body (fun _ => rfl) fun x s hact =>
    congrArg (fun f => Res.retire (modTeam s x.t f)) (funext fun tm => spWrite1_of_lead hact (by decide) ..)

/-! ## Who may read and write (R345) -/

theorem spReadable_iff (x : Site) (sel : Nat) : spReadable x sel = true ↔
    ((0x31 ≤ sel ∧ sel ≤ 0x36) → x.g.handler = true) ∧
      ((sel = 0x30 ∨ 0x40 ≤ sel) → x.g.handler = true ∨ x.lr.priv = true) := by
  by_cases hown : 0x31 ≤ sel ∧ sel ≤ 0x36
  · have hother : ¬(sel = 0x30 ∨ 0x40 ≤ sel) := by omega
    simp [spReadable, hown, hother]
  · by_cases hpriv : sel = 0x30 ∨ 0x40 ≤ sel
    · simp [spReadable, hown, hpriv]
    · simp [spReadable, hown, hpriv]

theorem spWritable_iff (x : Site) (sel : Nat) : spWritable x sel = true ↔
    (sel = 0x33 ∧ x.g.handler = true) ∨ ((sel = 0x20 ∨ sel = 0x30) ∧ (x.g.handler = true ∨ x.lr.priv = true)) := by
  by_cases hhpc : sel = 0x33
  · simp [spWritable, hhpc]
  · by_cases hother : sel = 0x20 ∨ sel = 0x30 <;> simp [spWritable, hhpc, hother]

/-- Settles O34: SREAD and SWRITE by their bodies, and the table of R345 by the ranges of SEL. -/
theorem specialRegisters : Obligations.SpecialRegisters :=
  ⟨⟨sread_completes, swrite_fflags, swrite_hpc, swrite_htvec⟩, fun x sel _ => ⟨spReadable_iff x sel, spWritable_iff x sel⟩⟩

/-! ## EBSET and PMCTL -/

theorem ebset_completes (h : Head) (a : VReg) :
    GroupCompletes (.ebset h a) (sysReq h (two [a])) (fun x _ => x.act ≠ [])
      fun x s =>
        let p := sgetD s.parts (gridOf s x).part default
        openLong (modCtx s x.tm.ctx (ebsetCtx (min ((x.view s).reg x.lead a.toNat).toNat p.prefill)
          (min ((x.view s).reg x.lead (a.toNat + 1)).toNat p.pcap))) x h (groupOp x h.dc .plain) [] :=
  groupCompletes_of_body (fun _ => rfl) fun _ _ hact => if_neg hact

theorem pmctl_completes (h : Head) (a : VReg) (n : BitVec 3) (op : PmOp) :
    GroupCompletes (.pmctl h a n op) (sysReq h (one [a]))
      (fun x s => x.act ≠ [] ∧ ((x.view s).r x.lead a).toNat % 256 ≤ 0x0A)
      fun x s =>
        let ev := ((x.view s).r x.lead a).toNat % 256
        openLong (modCore s x.tm.core fun c =>
          { c with pmc := sset c.pmc n.toNat (pmcSet op ev (sgetD c.pmc n.toNat default)) }) x h (groupOp x h.dc .plain) [] :=
  groupCompletes_of_body (fun _ => rfl) fun _ _ ⟨hact, hevent⟩ => by
    simp only [if_neg hact, if_neg (Nat.not_lt.2 hevent)]

theorem pmctl_traps (h : Head) (a : VReg) (n : BitVec 3) (op : PmOp) :
    GroupTraps (.pmctl h a n op) (sysReq h (one [a]))
      (fun x s => x.act ≠ [] ∧ 0x0A < ((x.view s).r x.lead a).toNat % 256)
      fun x _ => { cause := 2, lanes := [x.lead] } :=
  groupTraps_of_body (fun _ => rfl) fun _ _ ⟨hact, hevent⟩ => by simp only [if_neg hact, if_pos hevent]

/-! ## TRCTL -/

theorem trctl_off (h : Head) (a : VReg) (k : BitVec 5) :
    GroupCompletes (.trctl h a .off k) (sysReq h []) (fun x _ => x.act ≠ [])
      fun x s => openLong (modCore s x.tm.core fun c =>
        { c with trace := { c.trace with on := false, sample := false, synced := false } }) x h (groupOp x h.dc .plain) [] :=
  groupCompletes_of_body (fun _ => rfl) fun _ _ hact => if_neg hact

/-- An access that passes its checks is aligned to its size (R171, check 3). -/
theorem aligned_of_checkGlobal {s : State} {ctx n : Nat} {ea : DWord} {p : Path} {write : Bool} {loc : Loc}
    (h : checkGlobal s ctx ea n p write = .ok loc) : ea.toNat % n = 0 := by
  by_contra hmis
  rw [checkGlobal, if_pos hmis] at h
  cases h

theorem locAt_of_ok {s : State} {ctx n : Nat} {ea : DWord} {p : Path} {write : Bool} {loc : Loc}
    (h : checkGlobal s ctx ea n p write = .ok loc) : locAt s ctx ea n p write = loc := by rw [locAt, h]

section Trctl
variable {mode : TrMode} (hmode : mode ≠ .off) (h : Head) (a : VReg) (k : BitVec 5)
include hmode

theorem trctlReq_of_on : sysReq h (if mode = .off then [] else two [a]) = sysReq h (two [a]) := by rw [if_neg hmode]

theorem trctl_on :
    GroupCompletes (.trctl h a mode k) (sysReq h (two [a]))
      (fun x s => x.act ≠ [] ∧ ∃ loc, checkGlobal s x.tm.ctx ((x.view s).r64 x.lead a) 64 .ls true = .ok loc ∧
        (traceRing (memNat s.mem loc.pa 64)).isSome = true)
      fun x s =>
        let ea := (x.view s).r64 x.lead a
        let pa := (locAt s x.tm.ctx ea 64 .ls true).pa
        let r := (traceRing (memNat s.mem pa 64)).getD (0, 0, 0)
        let s := poisonHit s x.tm.ctx pa
        let s := modCore s x.tm.core fun c => { c with trace := traceOn mode k.toNat x.tm.ctx ea.toNat r }
        openLong { s with agenda := s.agenda ++ [.traceSync x.tm.core] } x h (groupOp x h.dc .plain) [] := by
  rw [← trctlReq_of_on hmode]
  refine groupCompletes_of_body (fun _ => rfl) fun x s ⟨hact, loc, hloc, hring⟩ => ?_
  obtain ⟨r, hr⟩ := Option.isSome_iff_exists.1 hring
  simp only [if_neg hact, if_neg hmode, aligned_of_checkGlobal hloc, hloc, (mc_poisonHit ..).1, hr, locAt_of_ok hloc, ne_eq,
    not_true_eq_false, if_false, Option.getD_some]

/-- A malformed ring descriptor raises QUEUE, in the machine that has read it. -/
theorem trctl_badRing :
    GroupHolds (.trctl h a mode k) (sysReq h (two [a]))
      (fun x s => x.act ≠ [] ∧ ∃ loc, checkGlobal s x.tm.ctx ((x.view s).r64 x.lead a) 64 .ls true = .ok loc ∧
        ((x.view s).r64 x.lead a).toNat % 64 = 0 ∧ traceRing (memNat s.mem loc.pa 64) = none)
      fun x s =>
        let ea := (x.view s).r64 x.lead a
        trapGroup (poisonHit s x.tm.ctx (locAt s x.tm.ctx ea 64 .ls true).pa) x.t x.k (leadTrap x (queueFault 0x0A ea)) x.act
          (hpcWord x.g.pc x.g.wix) := by
  rw [← trctlReq_of_on hmode]
  refine groupHolds_of_finish (fun _ => rfl) fun x s ⟨hact, loc, hloc, hal, hring⟩ => ?_
  simp only [if_neg hact, if_neg hmode, hal, hloc, (mc_poisonHit ..).1, hring, locAt_of_ok hloc, ne_eq, not_true_eq_false, if_false]
  rfl

end Trctl

/-! ## CTXSAVE and HALT -/

theorem ctxsave_completes (h : Head) (a : VReg) :
    GroupCompletes (.ctxsave h a) (sysReq h (two [a]))
      (fun x s => x.act ≠ [] ∧ GlobalOk s x.tm.ctx ((x.view s).r64 x.lead a) 4096 .ls true)
      fun x s => stopFor .ctxsave (openLong s x h (groupOp x h.dc (.ctxsave ((x.view s).r64 x.lead a).toNat)) []) x.t :=
  groupCompletes_of_body (fun _ => rfl) fun _ _ ⟨hact, hok⟩ => by simp only [if_neg hact, checkGlobal_of_ok hok]

theorem halt_holds (code : BitVec 16) :
    GroupHolds (.halt code) { plainReq ⟨false, 7⟩ with priv := true } always
      fun x s => modGrid (retired s x) x.tm.grid fun g =>
        { g with halted := true, halting := some (x.tm.core, code.toNat, timeOf (retired s x)) } :=
  groupHolds_of_finish (fun _ => rfl) fun _ _ _ => rfl

section EndHalt
variable {s : State} {n core code time : Nat} {g : Grid} (hg : sget s.grids n = some g) (hhalt : g.halting = some (core, code, time))
include hg hhalt

theorem endHalt_of_busy (hbusy : stopQuiet s (s.teams.filter fun e => e.2.grid = n) = false) : endHalt s n = s := by
  simp only [endHalt, hg, hhalt, hbusy, Bool.not_false, if_true]

/-- Once the grid's operations have ended, the core image is written and the notice sent. -/
theorem endHalt_of_quiet (hquiet : stopQuiet s (s.teams.filter fun e => e.2.grid = n) = true) :
    let r := putCoreImage (modGrid s n fun g => { g with halting := none }) g.ctx (s.teams.filter fun e => e.2.grid = n)
    endHalt s n = noticeAt time r.1 g.ctx 3 0 core code r.2 := by
  simp only [endHalt, hg, hhalt, hquiet, Bool.not_true, Bool.false_eq_true, if_false]

end EndHalt

/-- Settles O35: each control by its body, and the end of a HALT by whether its operations have ended. -/
theorem systemControls : Obligations.SystemControls :=
  ⟨ebset_completes, pmctl_completes, pmctl_traps, trctl_off, fun h a _ k hmode => trctl_on hmode h a k,
   fun h a _ k hmode => trctl_badRing hmode h a k, ctxsave_completes, halt_holds,
   fun _ _ _ _ _ _ hg hhalt => ⟨endHalt_of_busy hg hhalt, endHalt_of_quiet hg hhalt⟩⟩

end Sys2Proof.Laws
end

section
/-! SUPPORT. Every instruction and event has an outcome, and so has every step of a package that runs. -/

namespace Sys2Proof.Laws
open Sys2Proof.Machine

/-- No instruction and no event refuses or faults: each case of `exec` is a state. -/
theorem exec_runs (i : Instr) (s : State) : ∃ t, exec i s = .next t := by
  cases i
  case pmov h f => cases f <;> exact ⟨_, rfl⟩
  all_goals exact ⟨_, rfl⟩

theorem runFetched_runs (f : Fetched) (s : State) : ∃ t, runFetched f s = .next t := by
  cases f with
  | word i => exact exec_runs i s
  | state u => exact ⟨u, rfl⟩

theorem settle_runs {s : State} {turn : Bool} {o : Out} (ho : ∃ u, o = .next u) : ∃ t, settle s turn o = .next t := by
  obtain ⟨u, rfl⟩ := ho
  exact ⟨_, rfl⟩

theorem groupStep_runs {s : State} {t k : Nat} {o : Out} (ho : ∃ u, o = .next u) : ∃ u, groupStep s t k o = .next u := by
  obtain ⟨u, rfl⟩ := ho
  exact ⟨_, rfl⟩

theorem countFair_runs {o : Out} (ho : ∃ u, o = .next u) : ∃ u, countFair o = .next u := by
  obtain ⟨u, rfl⟩ := ho
  exact ⟨_, rfl⟩

/-- A package that runs takes a step, whoever has the turn. -/
theorem step_runs {s : State} (hrun : s.stopped = false) : ∃ t, step s = .next t := by
  cases hi : s.issuer with
  | some w =>
    cases w with
    | group t k => exact step_group hrun hi ▸ settle_runs (groupStep_runs (runFetched_runs _ _))
    | seq t => exact step_seq hrun hi ▸ settle_runs (runFetched_runs _ _)
    | packet q => exact step_packet hrun hi ▸ settle_runs (runFetched_runs _ _)
  | none =>
    cases ha : s.agenda with
    | cons e rest => exact step_due hrun hi ha ▸ settle_runs (exec_runs _ _)
    | nil =>
      rw [step_open hrun hi ha]
      refine settle_runs ?_
      cases openEvent s with
      | some e => exact countFair_runs (exec_runs e s)
      | none => exact ⟨_, rfl⟩

/-- A stopped package takes none. -/
theorem step_stopped {s : State} (h : s.stopped = true) : step s = .fault .packageStopped := by
  rw [step, if_pos h]

/-- Settles O6. -/
theorem onlyStoppedPackagesStop : Obligations.OnlyStoppedPackagesStop :=
  ⟨exec_runs, fun _ => step_stopped, fun _ => step_runs⟩

end Sys2Proof.Laws
end

section
/-! SUPPORT. The view words (R308 to R314). -/

namespace Sys2Proof.Laws
open Sys2Proof.Machine

/-! ## VREG -/

/-- VREG of records that may be read goes on as the checks of R309 say of what it reads. -/
theorem exec_vreg {h : Head} {d a b : VReg} {pol : ViewPol} {lm lv : Loc} {s s1 : State} {x : Site}
    (hs : issueSite (memReq h .views (one [d] ++ two [a, b])) s = some (x, s1)) (hact : x.act ≠ []) (hplaces : vregPlaces a b lm lv x s1) :
    exec (.vreg h d a b pol) s = .next (finish s1 x (vregEnd h d pol x (vregAt a b lm lv x s1))) := by
  obtain ⟨hm, hv⟩ := hplaces
  change execVreg h d a b pol s = _
  rw [execVreg, issue_of_site hs]
  simp only [if_neg hact, hm, hv]
  rfl

theorem vreg_completes (h : Head) (d a b : VReg) (pol : ViewPol) (lm lv : Loc) (c : Context) :
    GroupCompletes (.vreg h d a b pol) (memReq h .views (one [d] ++ two [a, b]))
      (fun x s => x.act ≠ [] ∧ vregPlaces a b lm lv x s ∧ sget (vregAt a b lm lv x s).2.contexts x.tm.ctx = some c ∧
        vregBad (vregAt a b lm lv x s).2 x.tm.ctx c (vregAt a b lm lv x s).1 = none)
      fun x s =>
        let g := vregAt a b lm lv x s
        let r := register (timeOf g.2) c g.1 pol
        openLong (modCtx g.2 x.tm.ctx fun _ => r.2) x h (groupOp x h.dc .plain) (x.act.map fun l => out1 l d (BitVec.ofNat 32 r.1)) := by
  intro s x s1 hs ⟨hact, hplaces, hc, hgood⟩
  rw [exec_vreg hs hact hplaces, vregEnd_ok hc hgood]
  rfl

theorem vreg_traps (h : Head) (d a b : VReg) (pol : ViewPol) (lm lv : Loc) (c : Context) (f : AFault) (s : State) (x : Site) (s1 : State)
    (hs : issueSite (memReq h .views (one [d] ++ two [a, b])) s = some (x, s1)) (hact : x.act ≠ []) (hplaces : vregPlaces a b lm lv x s1)
    (hc : sget (vregAt a b lm lv x s1).2.contexts x.tm.ctx = some c)
    (hbad : vregBad (vregAt a b lm lv x s1).2 x.tm.ctx c (vregAt a b lm lv x s1).1 = some f) :
    exec (.vreg h d a b pol) s =
      .next (trapGroup (vregAt a b lm lv x s1).2 x.t x.k (leadTrap x f) x.act (hpcWord x.g.pc x.g.wix)) := by
  rw [exec_vreg hs hact hplaces, vregEnd_trap hc hbad]
  rfl

/-! ## VSYNC -/

/-- The generation that a try of VSYNC waits for. -/
def vsyncGoal (d : VReg) (cur waited : Bool) (v : View) (x : Site) (s : State) : Nat :=
  if waited then x.g.gArg.toNat else if cur then (masterOf s x.tm.ctx v).mg else ((x.view s).r64 x.lead d).toNat

section Vsync
variable {h : Head} {d a : VReg} {cur waited : Bool} {s s1 : State} {x : Site}
  (hs : issueSite (memReq h .views ((if cur then [] else two [d]) ++ one [a])) s = some (x, s1)) (hact : x.act ≠ [])
include hs hact

theorem vsyncIssue_badToken (hv : tokenView s1 x.tm.ctx (siteTok x s1 a) = none) :
    vsyncIssue h d a cur waited s = trapGroup s1 x.t x.k (tokenTrap a x s1) x.act (hpcWord x.g.pc x.g.wix) := by
  refine issue_trap hs ?_
  rw [siteTok] at hv
  simp only [if_neg hact, tokenOf, hv]
  rfl

variable {v : View} (hv : tokenView s1 x.tm.ctx (siteTok x s1 a) = some v)
include hv

theorem vsyncIssue_suspended (hstate : v.state = .suspended) :
    vsyncIssue h d a cur waited s =
      trapGroup s1 x.t x.k (leadTrap x ⟨0x1C, 0, 0, 0, BitVec.ofNat 64 (siteTok x s1 a)⟩) x.act (hpcWord x.g.pc x.g.wix) := by
  refine issue_trap hs ?_
  rw [siteTok] at hv
  simp only [if_neg hact, tokenOf, hv, hstate, if_true]
  rfl

variable (hstate : v.state ≠ .suspended)
include hstate

theorem vsyncIssue_reached (hgoal : vsyncGoal d cur waited v x s1 ≤ leastGen v) :
    vsyncIssue h d a cur waited s = retired (acquireBy s1 x .dev) x := by
  refine issue_retire hs ?_
  rw [siteTok] at hv
  rw [vsyncGoal] at hgoal
  simp only [if_neg hact, tokenOf, hv, if_neg hstate, if_pos hgoal]

theorem vsyncIssue_waits (hgoal : leastGen v < vsyncGoal d cur waited v x s1) :
    vsyncIssue h d a cur waited s =
      modTeam (modTeam s1 x.t fun tm => modGroup tm x.k fun g => { g with gArg := BitVec.ofNat 64 (vsyncGoal d cur waited v x s1) }) x.t
        (waitTeam x.lr s1.cycle x.k) := by
  refine issue_wait hs ?_
  rw [siteTok] at hv
  have hgoal := Nat.not_le.2 hgoal
  rw [vsyncGoal] at hgoal ⊢
  simp only [if_neg hact, tokenOf, hv, if_neg hstate, if_neg hgoal]

end Vsync

theorem vsync_ends (t k : Nat) (h : Head) (d a : VReg) (cur : Bool) (v : View) :
    WaitEnds (.vsync h d a cur) (.classWWaitRelease (.group t k)) (memReq h .views ((if cur then [] else two [d]) ++ one [a])) t k
      (fun x s => x.act ≠ [] ∧ tokenView s x.tm.ctx (siteTok x s a) = some v ∧ v.state ≠ .suspended ∧ x.g.gArg.toNat ≤ leastGen v)
      fun x s => acquireBy s x .dev := by
  intro s x s1 hw hs ⟨hact, hv, hstate, hgoal⟩
  have hretry : classWRetry (.group t k) s = reissue (.group t k) (vsyncIssue h d a cur true) s := by
    rw [classWRetry, hw.1]
  rw [classWWaitRelease_retries hw, hretry, reissue_group hw hs (vsyncIssue_reached (waited := true) hs hact hv hstate hgoal)]

/-! ## Words on a valid token -/

/-- VGEN and VSTAT on a valid token answer every active lane. -/
theorem viewWord_answers {i : Instr} {h : Head} {d a : VReg} {f : State → Nat → Nat → View → DWord × State} (v : View)
    (hexec : ∀ s, exec i s = viewWord h d a f s) :
    GroupCompletes i (memReq h .views (two [d] ++ one [a]))
      (fun x s => x.act ≠ [] ∧ tokenView s x.tm.ctx (siteTok x s a) = some v)
      fun x s =>
        let r := f s x.tm.ctx (siteTok x s a % 64) v
        openLong r.2 x h (groupOp x h.dc .plain) (x.act.map fun l => out2 l d r.1) := by
  refine groupCompletes_of_body hexec fun x s ⟨hact, hv⟩ => ?_
  rw [siteTok] at hv
  simp only [if_neg hact, tokenOf, hv, siteTok]

theorem viewWord_traps {i : Instr} {h : Head} {d a : VReg} {f : State → Nat → Nat → View → DWord × State}
    (hexec : ∀ s, exec i s = viewWord h d a f s) :
    GroupTraps i (memReq h .views (two [d] ++ one [a])) (fun x s => x.act ≠ [] ∧ tokenView s x.tm.ctx (siteTok x s a) = none)
      (tokenTrap a) := by
  refine groupTraps_of_body hexec fun x s ⟨hact, hv⟩ => ?_
  rw [siteTok] at hv
  simp only [if_neg hact, tokenOf, hv]
  rfl

theorem vdrop_completes (h : Head) (a : VReg) :
    GroupCompletes (.vdrop h a) (memReq h .views (one [a])) (fun x _ => x.act ≠ []) fun x s =>
      let tok := siteTok x s a
      openLong (match tokenView s x.tm.ctx tok with
        | none => s
        | some v => dropView s x.tm.ctx (tok % 64) v) x h (groupOp x h.dc .plain) [] :=
  groupCompletes_of_body (fun _ => rfl) fun _ _ hact => if_neg hact

theorem vpol_completes (h : Head) (a : VReg) (pol : ViewPol) (v : View) :
    GroupCompletes (.vpol h a pol) (memReq h .views (one [a]))
      (fun x s => x.act ≠ [] ∧ tokenView s x.tm.ctx (siteTok x s a) = some v)
      fun x s => openLong s x h (groupOp x h.dc (.vpol (siteTok x s a % 64) (siteTok x s a / 64) pol)) [] := by
  refine groupCompletes_of_body (fun _ => rfl) fun x s ⟨hact, hv⟩ => ?_
  rw [siteTok] at hv
  simp only [if_neg hact, tokenOf, hv, siteTok]

theorem vpol_traps (h : Head) (a : VReg) (pol : ViewPol) :
    GroupTraps (.vpol h a pol) (memReq h .views (one [a])) (fun x s => x.act ≠ [] ∧ tokenView s x.tm.ctx (siteTok x s a) = none)
      (tokenTrap a) := by
  refine groupTraps_of_body (fun _ => rfl) fun x s ⟨hact, hv⟩ => ?_
  rw [siteTok] at hv
  simp only [if_neg hact, tokenOf, hv]
  rfl

theorem vsync_completes (h : Head) (d a : VReg) (cur : Bool) (v : View) :
    GroupCompletes (.vsync h d a cur) (memReq h .views ((if cur then [] else two [d]) ++ one [a]))
      (fun x s => x.act ≠ [] ∧ tokenView s x.tm.ctx (siteTok x s a) = some v ∧ v.state ≠ .suspended ∧
        (if cur then (masterOf s x.tm.ctx v).mg else ((x.view s).r64 x.lead d).toNat) ≤ leastGen v)
      fun x s => acquireBy s x .dev :=
  fun _ _ _ hs ⟨hact, hv, hstate, hgoal⟩ =>
    congrArg Host.Outcome.next (vsyncIssue_reached (waited := false) hs hact hv hstate hgoal)

theorem vsync_waits (h : Head) (d a : VReg) (cur : Bool) (v : View) :
    GroupWaits (.vsync h d a cur) (memReq h .views ((if cur then [] else two [d]) ++ one [a]))
      (fun x s => x.act ≠ [] ∧ tokenView s x.tm.ctx (siteTok x s a) = some v ∧ v.state ≠ .suspended ∧
        leastGen v < (if cur then (masterOf s x.tm.ctx v).mg else ((x.view s).r64 x.lead d).toNat))
      fun x s => modTeam s x.t fun tm => modGroup tm x.k fun g =>
        { g with gArg := BitVec.ofNat 64 (if cur then (masterOf s x.tm.ctx v).mg else ((x.view s).r64 x.lead d).toNat) } :=
  fun _ _ _ hs ⟨hact, hv, hstate, hgoal⟩ =>
    congrArg Host.Outcome.next (vsyncIssue_waits (waited := false) hs hact hv hstate hgoal)

theorem vsync_badToken (h : Head) (d a : VReg) (cur : Bool) :
    GroupTraps (.vsync h d a cur) (memReq h .views ((if cur then [] else two [d]) ++ one [a]))
      (fun x s => x.act ≠ [] ∧ tokenView s x.tm.ctx (siteTok x s a) = none) (tokenTrap a) :=
  fun _ _ _ hs ⟨hact, hv⟩ => congrArg Host.Outcome.next (vsyncIssue_badToken (waited := false) hs hact hv)

theorem vsync_suspended (h : Head) (d a : VReg) (cur : Bool) (v : View) :
    GroupTraps (.vsync h d a cur) (memReq h .views ((if cur then [] else two [d]) ++ one [a]))
      (fun x s => x.act ≠ [] ∧ tokenView s x.tm.ctx (siteTok x s a) = some v ∧ v.state = .suspended)
      fun x s => leadTrap x ⟨0x1C, 0, 0, 0, BitVec.ofNat 64 (siteTok x s a)⟩ :=
  fun _ _ _ hs ⟨hact, hv, hstate⟩ => congrArg Host.Outcome.next (vsyncIssue_suspended (waited := false) hs hact hv hstate)

/-- What VGEN answers, and what it leaves of the state. -/
def vgenAnswer (view : Bool) (s : State) (ctx _slot : Nat) (v : View) : DWord × State :=
  (BitVec.ofNat 64 (if view then leastGen v else (masterOf s ctx v).mg), s)

/-- What VSTAT answers, and what its `.clr` leaves of the state. -/
def vstatAnswer (clr : Bool) (s : State) (ctx slot : Nat) (v : View) : DWord × State :=
  (viewStatus ((sget s.contexts ctx).getD default) v,
    if clr then modView s ctx slot fun v => { v with sr := false, flags := 0 } else s)

theorem exec_vgen (h : Head) (d a : VReg) (view : Bool) (s : State) : exec (.vgen h d a view) s = viewWord h d a (vgenAnswer view) s := rfl

theorem exec_vstat (h : Head) (d a : VReg) (clr : Bool) (s : State) : exec (.vstat h d a clr) s = viewWord h d a (vstatAnswer clr) s := rfl

theorem vgen_completes (h : Head) (d a : VReg) (view : Bool) (v : View) :
    GroupCompletes (.vgen h d a view) (memReq h .views (two [d] ++ one [a]))
      (fun x s => x.act ≠ [] ∧ tokenView s x.tm.ctx (siteTok x s a) = some v)
      fun x s => answered h d (BitVec.ofNat 64 (if view then leastGen v else (masterOf s x.tm.ctx v).mg)) x s := by
  intro s x s1 hs hok
  exact viewWord_answers v (exec_vgen h d a view) s x s1 hs hok

theorem vstat_completes (h : Head) (d a : VReg) (clr : Bool) (v : View) :
    GroupCompletes (.vstat h d a clr) (memReq h .views (two [d] ++ one [a]))
      (fun x s => x.act ≠ [] ∧ tokenView s x.tm.ctx (siteTok x s a) = some v)
      fun x s =>
        let w := viewStatus ((sget s.contexts x.tm.ctx).getD default) v
        let s' := if clr then modView s x.tm.ctx (siteTok x s a % 64) fun v => { v with sr := false, flags := 0 } else s
        openLong s' x h (groupOp x h.dc .plain) (x.act.map fun l => out2 l d w) := by
  intro s x s1 hs hok
  exact viewWord_answers v (exec_vstat h d a clr) s x s1 hs hok

theorem vgen_traps (h : Head) (d a : VReg) (view : Bool) :
    GroupTraps (.vgen h d a view) (memReq h .views (two [d] ++ one [a]))
      (fun x s => x.act ≠ [] ∧ tokenView s x.tm.ctx (siteTok x s a) = none) (tokenTrap a) :=
  viewWord_traps (exec_vgen h d a view)

theorem vstat_traps (h : Head) (d a : VReg) (clr : Bool) :
    GroupTraps (.vstat h d a clr) (memReq h .views (two [d] ++ one [a]))
      (fun x s => x.act ≠ [] ∧ tokenView s x.tm.ctx (siteTok x s a) = none) (tokenTrap a) :=
  viewWord_traps (exec_vstat h d a clr)

/-- Settles O41: VREG by its checks, VSYNC by its tries, the others by their bodies on a valid token and on an invalid one. -/
theorem viewWords : Obligations.ViewWords :=
  ⟨⟨vreg_completes, vdrop_completes, vsync_completes, vsync_ends, vsync_waits, vgen_completes, vpol_completes, vstat_completes⟩,
   vsync_badToken, vpol_traps, vgen_traps, vstat_traps, vsync_suspended, vreg_traps⟩

end Sys2Proof.Laws
end

section
/-! SUPPORT. The home directories as disjoint regions (R372): the entry of an address, its replacement, and its halves. -/

namespace Sys2Proof.Laws
open Sys2Proof.Machine

/-! ## Keyed collections -/

section Keyed
variable {α : Type}

/-- Of two writes at one key the later stands. -/
theorem sset_sset (m : Store α) (n : Nat) (v w : α) : sset (sset m n v) n w = sset m n w := by
  induction m with
  | nil => simp [sset]
  | cons e t ih =>
    simp only [sset]
    split
    · simp [sset]
    · split
      · simp [sset]
      · rename_i hlt hne
        simp only [sset, if_neg hlt, if_neg hne, ih]

theorem srising_of_pairwise {m : Store α} (h : (m.map Prod.fst).Pairwise (· < ·)) : srising m = true := by
  induction m with
  | nil => rfl
  | cons e t ih =>
    obtain ⟨hhead, htail⟩ := List.pairwise_cons.1 h
    exact (srising_cons e.1 e.2 t).2 ⟨fun d hd => hhead _ (List.mem_map_of_mem hd), ih htail⟩

/-- A write at a key that reads something leaves the keys as they are. -/
theorem keys_sset {m : Store α} (h : srising m = true) {n : Nat} {w : α} (hget : sget m n = some w) (v : α) :
    (sset m n v).map Prod.fst = m.map Prod.fst := by
  induction m with
  | nil => cases hget
  | cons e t ih =>
    obtain ⟨habove, htail⟩ := (srising_cons e.1 e.2 t).1 h
    simp only [sget] at hget
    simp only [sset]
    by_cases heq : e.1 = n
    · simp [heq]
    · rw [if_neg heq] at hget
      have hlt : e.1 < n := habove _ (mem_of_sget hget)
      simp [Nat.lt_asymm hlt, Ne.symm heq, ih htail hget]

theorem length_filter_sset (p : Nat → Bool) (m : Store α) (n : Nat) (v : α) :
    ((sset m n v).filter fun e => p e.1).length ≤ (m.filter fun e => p e.1).length + 1 := by
  induction m with
  | nil => simp only [sset, List.filter_cons]; split <;> simp
  | cons e t ih =>
    simp only [sset]
    split
    · simp only [List.filter_cons]; split <;> split <;> simp
    · split
      · rename_i heq
        subst heq
        simp only [List.filter_cons]
        split <;> simp
      · simp only [List.filter_cons]
        split
        · simpa using ih
        · exact ih

theorem length_filter_of_keys {p : Nat → Bool} {m m' : Store α} (h : m'.map Prod.fst = m.map Prod.fst) :
    (m'.filter fun e => p e.1).length = (m.filter fun e => p e.1).length := by
  have hcount (l : Store α) : (l.filter fun e => p e.1).length = ((l.map Prod.fst).filter p).length := by
    rw [List.filter_map, List.length_map]
    rfl
  rw [hcount, hcount, h]

/-- The one element of a list that passes a test is the one found. -/
theorem find?_eq_some_of_unique {β : Type} {l : List β} {p : β → Bool} {a : β} (ha : a ∈ l) (hp : p a = true)
    (hone : ∀ b ∈ l, p b = true → b = a) : l.find? p = some a := by
  obtain ⟨b, hb⟩ := Option.isSome_iff_exists.1 (List.find?_isSome.2 ⟨a, ha, hp⟩)
  rw [hb, hone b (List.mem_of_find?_eq_some hb) (List.find?_some hb)]

end Keyed

/-! ## Regions -/

/-- A region covers an address; is an aligned one of 128 bytes to 64 KiB; and lies apart from another. -/
def Covers (e : DirEntry) (a : Nat) : Prop := e.base ≤ a ∧ a < e.base + e.size
def Aligned (e : DirEntry) : Prop := (∃ k, 7 ≤ k ∧ k ≤ 16 ∧ e.size = 2 ^ k) ∧ e.base % e.size = 0
def Apart (e f : DirEntry) : Prop := e.base + e.size ≤ f.base ∨ f.base + f.size ≤ e.base

/-- The second entry names the copies that the first does. -/
def SameHolders (e f : DirEntry) : Prop := f.owner = e.owner ∧ f.sharers = e.sharers ∧ f.l1s = e.l1s

theorem Apart.symm {e f : DirEntry} (h : Apart e f) : Apart f e := Or.symm h

theorem not_covers_of_apart {e f : DirEntry} {a : Nat} (h : Apart e f) (he : Covers e a) : ¬Covers f a := by
  rintro ⟨hlo, hhi⟩
  obtain ⟨hlo', hhi'⟩ := he
  unfold Apart at h
  omega

theorem dirAt_eq (s : State) (pa : Nat) :
    dirAt s pa = s.dir.find? fun e => decide (e.2.base ≤ pa) && decide (pa < e.2.base + e.2.size) := rfl

theorem decide_covers (e : DirEntry) (a : Nat) : (decide (e.base ≤ a) && decide (a < e.base + e.size)) = true ↔ Covers e a := by
  simp [Covers]

section Aligned
variable {e : DirEntry} {a : Nat} (hal : Aligned e) (hcov : Covers e a)
include hal

theorem size_pos_of_aligned : 0 < e.size := by
  obtain ⟨⟨k, -, -, hk⟩, -⟩ := hal
  rw [hk]
  exact Nat.two_pow_pos k

theorem line_dvd_of_aligned : 128 ∣ e.size ∧ 128 ∣ e.base := by
  obtain ⟨⟨k, hlo, -, hk⟩, hbase⟩ := hal
  have hsize : 128 ∣ e.size := hk ▸ pow_dvd_pow 2 hlo
  exact ⟨hsize, hsize.trans (Nat.dvd_of_mod_eq_zero hbase)⟩

include hcov

/-- An aligned region lies in one quadrant. -/
theorem dieOf_of_covers : dieOf a = dieOf e.base := by
  obtain ⟨⟨k, -, hhi, hk⟩, hbase⟩ := hal
  obtain ⟨hle, hlt⟩ := hcov
  obtain ⟨q, hq⟩ := Nat.dvd_of_mod_eq_zero hbase
  rw [hk] at hq hlt
  have hpow : (2 : Nat) ^ 37 = 2 ^ k * 2 ^ (37 - k) := by rw [← Nat.pow_add]; congr 1; omega
  have hdiv (b : Nat) (h1 : 2 ^ k * q ≤ b) (h2 : b < 2 ^ k * q + 2 ^ k) : b / 2 ^ 37 = q / 2 ^ (37 - k) := by
    rw [hpow, ← Nat.div_div_eq_div_mul, Nat.div_eq_of_lt_le (n := 2 ^ k) (by rwa [Nat.mul_comm])
      (by rwa [Nat.mul_comm, Nat.mul_succ])]
  rw [dieOf, dieOf, nbits, nbits, hdiv a (hq ▸ hle) (hq ▸ hlt), hdiv e.base (hq ▸ Nat.le_refl _)
    (by rw [hq]; exact Nat.lt_add_of_pos_right (Nat.two_pow_pos k))]

/-- A region of one line is the line of each address that it covers. -/
theorem base_of_line (hsize : e.size = 128) : e.base = a / 128 * 128 := by
  obtain ⟨-, q, hq⟩ := line_dvd_of_aligned hal
  obtain ⟨hle, hlt⟩ := hcov
  omega

end Aligned

/-! ## Directories as tilings -/

/-- The entries of the home directories, read by key: each stands under its own key, is aligned, and lies apart from the others. -/
structure Tiles (m : Store DirEntry) : Prop where
  rising : srising m = true
  key : ∀ k e, sget m k = some e → k = dirKey e.base (dieOf e.base)
  aligned : ∀ k e, sget m k = some e → Aligned e
  apart : ∀ k e j f, sget m k = some e → sget m j = some f → k ≠ j → Apart e f

theorem tiles_of_dirSound {s : State} (h : DirSound s) : Tiles s.dir := by
  obtain ⟨hkeys, hentry, hapart⟩ := h
  refine ⟨srising_of_pairwise hkeys, fun k e he => (hentry _ (mem_of_sget he)).1, fun k e he => ?_, fun k e j f he hf hne => ?_⟩
  · obtain ⟨-, hsize, hbase⟩ := hentry _ (mem_of_sget he)
    exact ⟨hsize, hbase⟩
  · exact hapart _ (mem_of_sget he) _ (mem_of_sget hf) hne

section Tiles
variable {m : Store DirEntry} (hm : Tiles m)
include hm

/-- An entry that lies apart from all others may be written under its key. -/
theorem Tiles.sset {e : DirEntry} (hal : Aligned e)
    (hapart : ∀ k f, sget m k = some f → k ≠ dirKey e.base (dieOf e.base) → Apart e f) :
    Tiles (sset m (dirKey e.base (dieOf e.base)) e) := by
  refine ⟨srising_sset _ _ hm.rising, fun k f hf => ?_, fun k f hf => ?_, fun k f j g hf hg hne => ?_⟩
  · rw [sget_sset] at hf
    split at hf
    · rename_i heq
      cases hf
      exact heq.symm
    · exact hm.key k f hf
  · rw [sget_sset] at hf
    split at hf
    · cases hf
      exact hal
    · exact hm.aligned k f hf
  · rw [sget_sset] at hf hg
    split at hf
    · rename_i hk
      cases hf
      rw [if_neg (hk ▸ hne)] at hg
      exact hapart j g hg (hk ▸ hne.symm)
    · rename_i hk
      split at hg
      · cases hg
        exact (hapart k f hf (Ne.symm hk)).symm
      · exact hm.apart k f j g hf hg hne

/-- An entry takes the place of one of the same region. -/
theorem Tiles.sset_same {k : Nat} {e f : DirEntry} (he : sget m k = some e) (hbase : f.base = e.base) (hsize : f.size = e.size) :
    Tiles (Machine.sset m k f) := by
  have hal : Aligned f := by
    have := hm.aligned k e he
    rwa [Aligned, ← hbase, ← hsize] at this
  rw [hm.key k e he, ← hbase]
  refine hm.sset hal fun j g hg hne => ?_
  have := hm.apart k e j g he hg (by rw [hm.key k e he, ← hbase]; exact hne.symm)
  rwa [Apart, ← hbase, ← hsize] at this

end Tiles

section Entry
variable {s : State} (hs : Tiles s.dir)
include hs

theorem dirAt_eq_some_iff {pa k : Nat} {e : DirEntry} : dirAt s pa = some (k, e) ↔ sget s.dir k = some e ∧ Covers e pa := by
  constructor
  · intro h
    rw [dirAt_eq] at h
    have hcov := List.find?_some h
    exact ⟨sget_of_mem hs.rising (List.mem_of_find?_eq_some h), (decide_covers e pa).1 hcov⟩
  · rintro ⟨he, hcov⟩
    rw [dirAt_eq]
    refine find?_eq_some_of_unique (mem_of_sget he) ((decide_covers e pa).2 hcov) fun f hf hfcov => ?_
    have hget : sget s.dir f.1 = some f.2 := sget_of_mem hs.rising hf
    by_cases hkey : f.1 = k
    · rw [hkey, he] at hget
      exact Prod.ext hkey (Option.some.inj hget).symm
    · exact absurd ((decide_covers f.2 pa).1 hfcov) (not_covers_of_apart (hs.apart _ _ _ _ he hget (Ne.symm hkey)) hcov)

end Entry

theorem dirAt_eq_none_iff {s : State} {pa : Nat} : dirAt s pa = none ↔ ∀ e ∈ s.dir, ¬Covers e.2 pa := by
  rw [dirAt_eq, List.find?_eq_none]
  exact forall₂_congr fun e _ => not_congr (decide_covers e.2 pa)

/-! ## Writes of entries -/

theorem dirPut_of_room {s : State} {quad : Nat} {e : DirEntry}
    (h : (sget s.dir (dirKey e.base quad)).isSome = true ∨ (dirOf s quad).length < 262144) :
    dirPut s quad e = { s with dir := sset s.dir (dirKey e.base quad) e } := by
  unfold dirPut
  by_cases hhere : (sget s.dir (dirKey e.base quad)).isSome = true
  · rw [if_pos hhere]
  · rw [if_neg hhere, dirRoom, if_pos (h.resolve_left hhere)]

theorem dirGrant_region (s : State) (home : Nat) (r : DirAsk) (e : DirEntry) :
    (dirGrant s home r e).base = e.base ∧ (dirGrant s home r e).size = e.size := by
  cases r <;> exact ⟨rfl, rfl⟩

theorem dirGrant_of_dies {s u : State} (h : u.dies = s.dies) : dirGrant u = dirGrant s := by
  funext home r e
  have hdie : getDie u = getDie s := by funext d; rw [getDie, getDie, h]
  unfold dirGrant
  rw [hdie]

/-- What a request does at the entry that covers its address (R372). -/
def dirServe (pa : Nat) (r : DirAsk) (s : State) : State :=
  match dirAt s pa with
  | none => s
  | some (_, e) =>
    if dirGrant s (dieOf pa) r e = e || dirEmpty e || e.size = 128 then
      dirPut s (dieOf pa) { dirGrant s (dieOf pa) r e with used := s.cycle }
    else
      let s := dirSplit (dieOf pa) pa 9 { e with used := s.cycle } s
      match dirAt s pa with
      | none => s
      | some (_, l) => dirPut s (dieOf pa) { dirGrant s (dieOf pa) r l with used := s.cycle }

theorem dirRequest_of_covered {s : State} {pa : Nat} {p : Nat × DirEntry} (h : dirAt s pa = some p) (r : DirAsk) :
    dirRequest pa r s = dirServe pa r s := by
  unfold dirRequest
  rw [h]
  rfl

/-- The entry that a region without one is given at a request (R372). -/
def freshEntry (s : State) (pa : Nat) : DirEntry :=
  { base := pa / freshSize s pa * freshSize s pa, size := freshSize s pa, owner := none, sharers := [], l1s := [], used := s.cycle }

theorem dirRequest_of_uncovered {s : State} {pa : Nat} (h : dirAt s pa = none) (r : DirAsk) :
    dirRequest pa r s = dirServe pa r (dirPut s (dieOf pa) (freshEntry s pa)) := by
  unfold dirRequest
  rw [h]
  rfl

/-! ## A region that nobody holds -/

theorem freshSize_cases (s : State) (pa : Nat) :
    (∃ k, 7 ≤ k ∧ k ≤ 16 ∧ freshSize s pa = 2 ^ k) ∧
      (freshSize s pa = 128 ∨ ∀ e ∈ s.dir, Apart e.2 (freshEntry s pa)) := by
  unfold freshEntry freshSize
  simp only
  generalize hfree : ((List.range 9).map fun i => 2 ^ (16 - i)).find? _ = o
  cases o with
  | none => exact ⟨⟨7, by omega, by omega, rfl⟩, .inl rfl⟩
  | some n =>
    obtain ⟨i, hi, rfl⟩ := List.mem_map.1 (List.mem_of_find?_eq_some hfree)
    have hi : i < 9 := List.mem_range.1 hi
    refine ⟨⟨16 - i, by omega, by omega, rfl⟩, .inr fun e he => ?_⟩
    have hall := List.find?_some hfree
    have := List.all_eq_true.1 hall e he
    simpa [Apart] using this

theorem aligned_freshEntry (s : State) (pa : Nat) : Aligned (freshEntry s pa) := ⟨(freshSize_cases s pa).1, Nat.mul_mod_left ..⟩

theorem covers_freshEntry (s : State) (pa : Nat) : Covers (freshEntry s pa) pa := by
  have hpos : 0 < freshSize s pa := size_pos_of_aligned (aligned_freshEntry s pa)
  exact ⟨Nat.div_mul_le_self .., Nat.lt_div_mul_add hpos⟩

/-- In a sound directory the region that is given lies apart from every entry. -/
theorem apart_freshEntry {s : State} {pa : Nat} (hs : Tiles s.dir) (hnone : dirAt s pa = none) {e : Nat × DirEntry} (he : e ∈ s.dir) :
    Apart e.2 (freshEntry s pa) := by
  obtain h128 | hfree := (freshSize_cases s pa).2
  · obtain ⟨⟨n, hn⟩, q, hq⟩ := line_dvd_of_aligned (hs.aligned _ _ (sget_of_mem hs.rising he))
    have hout : ¬Covers e.2 pa := dirAt_eq_none_iff.1 hnone e he
    simp only [Covers] at hout
    simp only [Apart, freshEntry, h128]
    omega
  · exact hfree e he

/-- A request for a region that nobody holds grants it whole, in the directory that has room for its entry. -/
theorem dirRequest_fresh {s u : State} {pa : Nat} (hnone : dirAt s pa = none) (hout : ∀ e ∈ u.dir, ¬Covers e.2 pa)
    (hdies : u.dies = s.dies) (hcycle : u.cycle = s.cycle)
    (hput : dirPut s (dieOf pa) (freshEntry s pa) =
      { u with dir := sset u.dir (dirKey (freshEntry s pa).base (dieOf pa)) (freshEntry s pa) }) (r : DirAsk) :
    let key := dirKey (freshEntry s pa).base (dieOf pa)
    let e := { dirGrant s (dieOf pa) r (freshEntry s pa) with used := s.cycle }
    dirRequest pa r s = { u with dir := sset u.dir key e } ∧ dirAt { u with dir := sset u.dir key e } pa = some (key, e) := by
  intro key e
  have hkey : ∀ f, Covers f pa → dirAt { u with dir := sset u.dir key f } pa = some (key, f) := by
    intro f hf
    rw [dirAt_eq]
    refine find?_eq_some_of_unique (mem_of_sget (sget_sset_eq ..)) ((decide_covers ..).2 hf) fun d hd hdcov => ?_
    exact (mem_sset hd).resolve_right fun hmem => hout d hmem ((decide_covers ..).1 hdcov)
  obtain ⟨hbase, hsize⟩ := dirGrant_region s (dieOf pa) r (freshEntry s pa)
  have hcov : Covers e pa := by
    have := covers_freshEntry s pa
    rwa [Covers, ← hbase, ← hsize] at this
  refine ⟨?_, hkey e hcov⟩
  have hempty : dirEmpty (freshEntry s pa) = true := rfl
  have hgrant : dirGrant { u with dir := sset u.dir key (freshEntry s pa) } = dirGrant s := dirGrant_of_dies hdies
  have hgranted : { dirGrant { u with dir := sset u.dir key (freshEntry s pa) } (dieOf pa) r (freshEntry s pa) with used := u.cycle } = e := by
    rw [hgrant, hcycle]
  have hserved : dirRequest pa r s = dirPut { u with dir := sset u.dir key (freshEntry s pa) } (dieOf pa) e := by
    rw [dirRequest_of_uncovered hnone, hput, dirServe, hkey _ (covers_freshEntry s pa)]
    simp only [hempty, Bool.or_true, Bool.true_or, if_true]
    exact congrArg (dirPut _ (dieOf pa)) hgranted
  have hekey : dirKey e.base (dieOf pa) = key := congrArg (dirKey · (dieOf pa)) hbase
  rw [hserved, dirPut_of_room (.inl ?_), hekey, sset_sset]
  rw [hekey]
  exact Option.isSome_iff_exists.2 ⟨_, sget_sset_eq ..⟩

section Fresh
variable {s : State} {pa : Nat} (hnone : dirAt s pa = none) (hroom : (dirOf s (dieOf pa)).length < 262144)
include hnone hroom

/-- The same where the snoop filter has room. -/
theorem dirRequest_fresh_of_room (r : DirAsk) :
    let key := dirKey (freshEntry s pa).base (dieOf pa)
    let e := { dirGrant s (dieOf pa) r (freshEntry s pa) with used := s.cycle }
    dirRequest pa r s = { s with dir := sset s.dir key e } ∧ dirAt { s with dir := sset s.dir key e } pa = some (key, e) :=
  dirRequest_fresh hnone (dirAt_eq_none_iff.1 hnone) rfl rfl (dirPut_of_room (.inr hroom)) r

end Fresh

/-! ## A full snoop filter (R373) -/

theorem older_choice (a b : Nat × DirEntry) :
    (if b.2.used < a.2.used then b else a) = a ∨ (if b.2.used < a.2.used then b else a) = b := by
  split
  · exact .inr rfl
  · exact .inl rfl

/-- The entry used least recently. -/
theorem dirOldest_spec {l : List (Nat × DirEntry)} (hl : l ≠ []) :
    ∃ e ∈ l, dirOldest l = some e ∧ ∀ f ∈ l, e.2.used ≤ f.2.used := by
  obtain ⟨a, t, rfl⟩ := List.exists_cons_of_ne_nil hl
  refine ⟨_, foldl_choice_mem older_choice t a, rfl, ?_⟩
  induction t generalizing a with
  | nil => simp
  | cons b t ih =>
    have hle : (if b.2.used < a.2.used then b else a).2.used ≤ a.2.used ∧ (if b.2.used < a.2.used then b else a).2.used ≤ b.2.used := by
      split <;> omega
    obtain ⟨hhead, htail⟩ := List.forall_mem_cons.1 (ih (if b.2.used < a.2.used then b else a) (List.cons_ne_nil _ _))
    rw [List.foldl_cons]
    intro f hf
    obtain rfl | hf := List.mem_cons.1 hf
    · exact hhead.trans hle.1
    · obtain rfl | hf := List.mem_cons.1 hf
      · exact hhead.trans hle.2
      · exact htail f hf

/-- A request for a region without an entry, where the snoop filter is full: the entry used least recently goes. -/
theorem dirRequest_fresh_of_full {s : State} {pa : Nat} (hs : Tiles s.dir) (hnone : dirAt s pa = none)
    (hfull : 262144 ≤ (dirOf s (dieOf pa)).length) (r : DirAsk) :
    ∃ v ∈ dirOf s (dieOf pa), (∀ x ∈ dirOf s (dieOf pa), v.2.used ≤ x.2.used) ∧ ∃ u key,
      let e := { dirGrant s (dieOf pa) r (freshEntry s pa) with used := s.cycle }
      dirRequest pa r s = u ∧ sget u.dir v.1 = none ∧
        u.counters = { s.counters with sfBackinv := countUp s.counters.sfBackinv } ∧ dirAt u pa = some (key, e) := by
  obtain ⟨v, hv, hold, hleast⟩ := dirOldest_spec (l := dirOf s (dieOf pa)) (List.ne_nil_of_length_pos (by omega))
  have hmem : v ∈ s.dir := List.mem_of_mem_filter hv
  have hfree : ∀ e, sget s.dir (dirKey (freshEntry s pa).base (dieOf pa)) ≠ some e := by
    intro e he
    have hkey := hs.key _ e he
    have hpos := size_pos_of_aligned (hs.aligned _ e he)
    have hpos' := size_pos_of_aligned (aligned_freshEntry s pa)
    have hapart := apart_freshEntry hs hnone (mem_of_sget he)
    have hdie (a : Nat) : dieOf a < 4 := Nat.mod_lt _ (by decide)
    have := hdie pa
    have := hdie e.base
    simp only [dirKey, Apart] at hkey hapart
    omega
  have hfree : sget s.dir (dirKey (freshEntry s pa).base (dieOf pa)) = none := Option.eq_none_iff_forall_ne_some.2 hfree
  have hput : dirPut s (dieOf pa) (freshEntry s pa) = { dirRoom s (dieOf pa) with
      dir := sset (dirRoom s (dieOf pa)).dir (dirKey (freshEntry s pa).base (dieOf pa)) (freshEntry s pa) } := by
    simp only [dirPut, hfree, Option.isSome_none, Bool.false_eq_true, if_false]
  have hroom : dirRoom s (dieOf pa) = { s with
      dir := serase s.dir v.1
      mixed := (dirRoom s (dieOf pa)).mixed
      counters := { s.counters with sfBackinv := countUp s.counters.sfBackinv } } := by
    rw [dirRoom, if_neg (Nat.not_lt.2 hfull), hold]
  have hdir : (dirRoom s (dieOf pa)).dir = serase s.dir v.1 := (congrArg State.dir hroom :)
  have hkept : ∀ e ∈ (dirRoom s (dieOf pa)).dir, ¬Covers e.2 pa := by
    rw [hdir]
    exact fun e he => dirAt_eq_none_iff.1 hnone e (mem_serase.1 he).1
  obtain ⟨hrequest, hat⟩ := dirRequest_fresh hnone hkept (congrArg State.dies hroom :) (congrArg State.cycle hroom :) hput r
  refine ⟨v, hv, hleast, _, _, hrequest, ?_, (congrArg State.counters hroom :), hat⟩
  have hne : dirKey (freshEntry s pa).base (dieOf pa) ≠ v.1 := by
    rintro heq
    rw [heq, sget_of_mem hs.rising hmem] at hfree
    cases hfree
  exact (sget_sset_ne _ _ hne).trans (hdir ▸ sget_serase_eq ..)

end Sys2Proof.Laws
end

section
/-! SUPPORT. A region split down to a line (R372), and the requests and merges of the home directory. -/

namespace Sys2Proof.Laws
open Sys2Proof.Machine

/-! ## Halves -/

def loHalf (e : DirEntry) : DirEntry := { e with size := e.size / 2 }
def hiHalf (e : DirEntry) : DirEntry := { e with base := e.base + e.size / 2, size := e.size / 2 }

/-- The key of an entry in its quadrant. -/
def keyOf (e : DirEntry) : Nat := dirKey e.base (dieOf e.base)

theorem aligned_halves {e : DirEntry} (hal : Aligned e) (hbig : 128 < e.size) :
    Aligned (loHalf e) ∧ Aligned (hiHalf e) ∧ e.size = e.size / 2 + e.size / 2 := by
  obtain ⟨⟨k, hlo, hhi, hk⟩, hbase⟩ := hal
  obtain ⟨j, rfl⟩ : ∃ j, k = j + 1 := ⟨k - 1, by omega⟩
  have hj : 7 ≤ j := by
    by_contra hlt
    have hle : (2 : Nat) ^ (j + 1) ≤ 2 ^ 7 := Nat.pow_le_pow_right (by decide) (by omega)
    omega
  have hhalf : e.size / 2 = 2 ^ j := by rw [hk, Nat.pow_succ]; omega
  have hdvd : 2 ^ j ∣ e.base := (Dvd.intro _ (Nat.pow_succ ..).symm : 2 ^ j ∣ 2 ^ (j + 1)).trans (hk ▸ Nat.dvd_of_mod_eq_zero hbase)
  have hsize : ∃ i, 7 ≤ i ∧ i ≤ 16 ∧ e.size / 2 = 2 ^ i := ⟨j, hj, by omega, hhalf⟩
  refine ⟨⟨hsize, ?_⟩, ⟨hsize, ?_⟩, by rw [hhalf, hk, Nat.pow_succ]; omega⟩
  · change e.base % (e.size / 2) = 0
    exact Nat.mod_eq_zero_of_dvd (hhalf ▸ hdvd)
  · change (e.base + e.size / 2) % (e.size / 2) = 0
    rw [Nat.add_mod_right]
    exact Nat.mod_eq_zero_of_dvd (hhalf ▸ hdvd)

section Halves
variable {m : Store DirEntry} (hm : Tiles m) {e e0 : DirEntry} (he : sget m (keyOf e) = some e0) (hbase : e0.base = e.base)
  (hsize : e0.size = e.size) (hbig : 128 < e.size)
include hm he hbase hsize

theorem aligned_of_stored : Aligned e := by
  have := hm.aligned _ _ he
  rwa [Aligned, hbase, hsize] at this

/-- An entry of another key lies apart from the region. -/
theorem apart_of_stored {k : Nat} {f : DirEntry} (hf : sget m k = some f) (hne : k ≠ keyOf e) : Apart e f := by
  have := hm.apart _ _ k f he hf hne.symm
  rwa [Apart, hbase, hsize] at this

include hbig

theorem hiKey_eq : dirKey (e.base + e.size / 2) (dieOf e.base) = keyOf (hiHalf e) := by
  have hdie : dieOf (e.base + e.size / 2) = dieOf e.base :=
    dieOf_of_covers (aligned_of_stored hm he hbase hsize) ⟨Nat.le_add_right .., by omega⟩
  exact congrArg (dirKey _) hdie.symm

/-- The two halves stand in place of the whole, and the other entries stay. -/
theorem Tiles.halves :
    let m' := Machine.sset (Machine.sset m (keyOf e) (loHalf e)) (keyOf (hiHalf e)) (hiHalf e)
    Tiles m' ∧ sget m' (keyOf e) = some (loHalf e) ∧ sget m' (keyOf (hiHalf e)) = some (hiHalf e) ∧
      ∀ k f, sget m k = some f → k ≠ keyOf e → sget m' k = some f := by
  intro m'
  obtain ⟨hlo, hhi, htwice⟩ := aligned_halves (aligned_of_stored hm he hbase hsize) hbig
  have hpos := size_pos_of_aligned hlo
  simp only [loHalf] at hpos
  have hkeys : keyOf (hiHalf e) ≠ keyOf e := by
    rw [← hiKey_eq hm he hbase hsize hbig]
    simp only [keyOf, dirKey]
    omega
  have hfree : ∀ k f, sget m k = some f → k ≠ keyOf e → k ≠ keyOf (hiHalf e) := by
    intro k f hf hne heq
    have hapart := apart_of_stored hm he hbase hsize hf hne
    have hkey := hm.key k f hf
    have hfpos := size_pos_of_aligned (hm.aligned k f hf)
    have hdie : dieOf f.base < 4 := Nat.mod_lt _ (by decide)
    have hdie' : dieOf e.base < 4 := Nat.mod_lt _ (by decide)
    rw [heq, ← hiKey_eq hm he hbase hsize hbig] at hkey
    simp only [dirKey, Apart] at hkey hapart
    omega
  have hleft : Tiles (Machine.sset m (keyOf e) (loHalf e)) := hm.sset (e := loHalf e) hlo fun k f hf hne => by
    have := apart_of_stored hm he hbase hsize hf hne
    simp only [Apart, loHalf] at this ⊢
    omega
  refine ⟨hleft.sset hhi fun k f hf hne => ?_, ?_, sget_sset_eq .., fun k f hf hne => ?_⟩
  · rw [sget_sset] at hf
    split at hf
    · cases hf
      simp only [Apart, loHalf, hiHalf]
      omega
    · rename_i hk
      have := apart_of_stored hm he hbase hsize hf (Ne.symm hk)
      simp only [Apart, hiHalf] at this ⊢
      omega
  · rw [sget_sset_ne _ _ hkeys, sget_sset_eq]
  · rw [sget_sset_ne _ _ (hfree k f hf hne).symm, sget_sset_ne _ _ (Ne.symm hne), hf]

end Halves

/-! ## Down to a line -/

/-- An entry split down to the line of an address: the line's entry and those of the halves split off name the copies that the
whole did, and the other entries stay. -/
structure SplitsTo (s u : State) (e : DirEntry) (pa : Nat) : Prop where
  only : u = { s with dir := u.dir }
  tiles : Tiles u.dir
  line : ∃ k l, sget u.dir k = some l ∧ l.base = pa / 128 * 128 ∧ l.size = 128 ∧ SameHolders e l
  rest : ∀ b, Covers e b → b / 128 ≠ pa / 128 → ∃ k f, sget u.dir k = some f ∧ Covers f b ∧ SameHolders e f
  others : ∀ k f, sget s.dir k = some f → k ≠ keyOf e → sget u.dir k = some f

/-- One half goes on to be split and the other stands. -/
theorem SplitsTo.of_half {s s' u : State} {e c d : DirEntry} {pa : Nat} (h : SplitsTo s' u c pa) (honly : s' = { s with dir := s'.dir })
    (hc : SameHolders e c) (hd : SameHolders e d) (hstored : sget s'.dir (keyOf d) = some d) (hne : keyOf d ≠ keyOf c)
    (hcover : ∀ b, Covers e b → Covers c b ∨ Covers d b)
    (hothers : ∀ k f, sget s.dir k = some f → k ≠ keyOf e → sget s'.dir k = some f ∧ k ≠ keyOf c) : SplitsTo s u e pa := by
  have htrans {f : DirEntry} (hf : SameHolders c f) : SameHolders e f :=
    ⟨hf.1.trans hc.1, hf.2.1.trans hc.2.1, hf.2.2.trans hc.2.2⟩
  refine ⟨h.only.trans (by rw [honly]), h.tiles, ?_, fun b hb hline => ?_, fun k f hf hk => ?_⟩
  · obtain ⟨k, l, hl, hbase, hsize, hsame⟩ := h.line
    exact ⟨k, l, hl, hbase, hsize, htrans hsame⟩
  · obtain hcb | hdb := hcover b hb
    · obtain ⟨k, f, hf, hcov, hsame⟩ := h.rest b hcb hline
      exact ⟨k, f, hf, hcov, htrans hsame⟩
    · exact ⟨_, d, h.others _ _ hstored hne, hdb, hd⟩
  · obtain ⟨hkept, hkc⟩ := hothers k f hf hk
    exact h.others k f hkept hkc

/-- An entry of a line is its line's. -/
theorem SplitsTo.whole {s : State} {e e0 : DirEntry} {pa : Nat} (hs : Tiles s.dir) (he : sget s.dir (keyOf e) = some e0)
    (hbase : e0.base = e.base) (hsize : e0.size = e.size) (hsame : SameHolders e e0) (hcov : Covers e pa) (hsmall : e.size ≤ 128) :
    SplitsTo s s e pa := by
  have hal := aligned_of_stored hs he hbase hsize
  have h128 : e.size = 128 := by
    have := Nat.le_of_dvd (size_pos_of_aligned hal) (line_dvd_of_aligned hal).1
    omega
  refine ⟨rfl, hs, ⟨_, e0, he, hbase.trans (base_of_line hal hcov h128), hsize.trans h128, hsame⟩, fun b hb hline => ?_,
    fun k f hf _ => hf⟩
  have h1 := base_of_line hal hb h128
  have h2 := base_of_line hal hcov h128
  omega

/-- The state whose directory holds the two halves of an entry in place of the whole. -/
def halved (s : State) (e : DirEntry) : State :=
  { s with dir := sset (sset s.dir (keyOf e) (loHalf e)) (keyOf (hiHalf e)) (hiHalf e) }

/-- One round of a split, where the snoop filter has room. -/
theorem dirSplit_halves {s : State} {e e0 : DirEntry} {pa n : Nat} (hs : Tiles s.dir) (he : sget s.dir (keyOf e) = some e0)
    (hbase : e0.base = e.base) (hsize : e0.size = e.size) (hcov : Covers e pa) (hbig : 128 < e.size)
    (hroom : (dirOf s (dieOf pa)).length + (n + 1) ≤ 262144) :
    dirSplit (dieOf pa) pa (n + 1) e s =
        dirSplit (dieOf pa) pa n (if pa < e.base + e.size / 2 then loHalf e else hiHalf e) (halved s e) ∧
      (dirOf (halved s e) (dieOf pa)).length + n ≤ 262144 := by
  have hdie : dieOf pa = dieOf e.base := dieOf_of_covers (aligned_of_stored hs he hbase hsize) hcov
  have hkey := hiKey_eq hs he hbase hsize hbig
  have hfirst : dirPut s (dieOf pa) (loHalf e) = { s with dir := sset s.dir (keyOf e) (loHalf e) } := by
    rw [dirPut_of_room (.inr (by omega)), hdie]
    rfl
  have hcount : (dirOf { s with dir := sset s.dir (keyOf e) (loHalf e) } (dieOf pa)).length = (dirOf s (dieOf pa)).length :=
    length_filter_of_keys (p := fun k => k % 4 = dieOf pa) (keys_sset hs.rising he _)
  have hsecond : dirPut (dirPut s (dieOf pa) (loHalf e)) (dieOf pa) (hiHalf e) = halved s e := by
    rw [hfirst, dirPut_of_room (.inr (by omega)), hdie, halved, ← hkey]
    rfl
  refine ⟨?_, ?_⟩
  · rw [dirSplit, if_neg (Nat.not_le.2 hbig), ← hsecond]
    rfl
  · have hcount' := length_filter_sset (fun k => k % 4 = dieOf pa) (sset s.dir (keyOf e) (loHalf e)) (keyOf (hiHalf e)) (hiHalf e)
    simp only [dirOf, halved] at hcount hcount' hroom ⊢
    omega

theorem dirSplit_splits (n : Nat) {pa : Nat} : ∀ {s : State} {e e0 : DirEntry}, Tiles s.dir → sget s.dir (keyOf e) = some e0 →
    e0.base = e.base → e0.size = e.size → SameHolders e e0 → Covers e pa → e.size ≤ 128 * 2 ^ n →
    (dirOf s (dieOf pa)).length + n ≤ 262144 → SplitsTo s (dirSplit (dieOf pa) pa n e s) e pa := by
  induction n with
  | zero =>
    intro s e e0 hs he hbase hsize hsame hcov hsmall _
    exact .whole hs he hbase hsize hsame hcov (by simpa using hsmall)
  | succ n ih =>
    intro s e e0 hs he hbase hsize hsame hcov hsmall hroom
    by_cases hbig : e.size ≤ 128
    · rw [dirSplit, if_pos hbig]
      exact .whole hs he hbase hsize hsame hcov hbig
    have hbig : 128 < e.size := Nat.lt_of_not_le hbig
    obtain ⟨htiles, hloStored, hhiStored, hkept⟩ := hs.halves he hbase hsize hbig
    obtain ⟨-, -, htwice⟩ := aligned_halves (aligned_of_stored hs he hbase hsize) hbig
    obtain ⟨hround, hroom'⟩ := dirSplit_halves hs he hbase hsize hcov hbig hroom
    have hhalf : e.size / 2 ≤ 128 * 2 ^ n := by rw [Nat.pow_succ] at hsmall; omega
    have hkeys : keyOf (hiHalf e) ≠ keyOf e := by
      rw [← hiKey_eq hs he hbase hsize hbig]
      simp only [keyOf, dirKey]
      omega
    have hothers : ∀ k f, sget s.dir k = some f → k ≠ keyOf e → k ≠ keyOf (hiHalf e) := by
      intro k f hf hne heq
      have hat := hkept k f hf hne
      rw [heq, hhiStored] at hat
      cases hat
      have hapart := apart_of_stored hs he hbase hsize hf hne
      simp only [Apart, hiHalf] at hapart
      omega
    obtain ⟨hle, hlt⟩ := hcov
    rw [hround]
    split
    · rename_i hside
      have hsplit := ih (s := halved s e) (e := loHalf e) htiles hloStored rfl rfl ⟨rfl, rfl, rfl⟩ ⟨hle, hside⟩ hhalf hroom'
      refine hsplit.of_half rfl ⟨rfl, rfl, rfl⟩ (d := hiHalf e) ⟨rfl, rfl, rfl⟩ hhiStored hkeys (fun b hb => ?_)
        fun k f hf hne => ⟨hkept k f hf hne, hne⟩
      simp only [Covers, loHalf, hiHalf] at hb ⊢
      omega
    · rename_i hside
      have hcov : Covers (hiHalf e) pa := ⟨Nat.not_lt.1 hside, by simp only [hiHalf]; omega⟩
      have hsplit := ih (s := halved s e) (e := hiHalf e) htiles hhiStored rfl rfl ⟨rfl, rfl, rfl⟩ hcov hhalf hroom'
      refine hsplit.of_half rfl ⟨rfl, rfl, rfl⟩ (d := loHalf e) ⟨rfl, rfl, rfl⟩ hloStored hkeys.symm (fun b hb => ?_)
        fun k f hf hne => ⟨hkept k f hf hne, hothers k f hf hne⟩
      simp only [Covers, loHalf, hiHalf] at hb ⊢
      omega

/-! ## Requests at an entry -/

section Covered
variable {s : State} {pa n : Nat} {e : DirEntry} (hs : Tiles s.dir) (hat : dirAt s pa = some (n, e)) (r : DirAsk)
include hs hat

/-- A request that the entry permits changes only the time of its use. -/
theorem dirRequest_permitted (hgrant : dirGrant s (dieOf pa) r e = e) :
    ∃ u, dirRequest pa r s = u ∧ u = { s with dir := u.dir } ∧ dirAt u pa = some (n, { e with used := s.cycle }) ∧
      ∀ m, m ≠ n → sget u.dir m = sget s.dir m := by
  obtain ⟨hstored, hcov⟩ := (dirAt_eq_some_iff hs).1 hat
  have hkey : dirKey e.base (dieOf pa) = n := by
    rw [dieOf_of_covers (hs.aligned _ _ hstored) hcov, ← hs.key _ _ hstored]
  have hput : dirRequest pa r s = { s with dir := sset s.dir n { e with used := s.cycle } } := by
    rw [dirRequest_of_covered hat, dirServe, hat]
    simp only [hgrant, decide_true, Bool.true_or, if_true]
    rw [dirPut_of_room (.inl (by simp only [hkey, hstored, Option.isSome_some]))]
    simp only [hkey]
  refine ⟨_, hput, rfl, ?_, fun m hm => sget_sset_ne _ _ hm.symm⟩
  exact (dirAt_eq_some_iff (hs.sset_same (f := { e with used := s.cycle }) hstored rfl rfl)).2 ⟨sget_sset_eq .., hcov⟩

/-- A request that the entry does not permit splits it down to the line, which takes the new state. -/
theorem dirRequest_splits (hgrant : dirGrant s (dieOf pa) r e ≠ e) (hheld : dirEmpty e = false)
    (hroom : (dirOf s (dieOf pa)).length + 9 ≤ 262144) :
    ∃ m l, l.base = pa / 128 * 128 ∧ l.size = 128 ∧ SameHolders e l ∧
      dirAt (dirRequest pa r s) pa = some (m, { dirGrant s (dieOf pa) r l with used := s.cycle }) ∧
      ∀ b, Covers e b → b / 128 ≠ pa / 128 → ∃ m f, dirAt (dirRequest pa r s) b = some (m, f) ∧ SameHolders e f := by
  obtain ⟨hstored, hcov⟩ := (dirAt_eq_some_iff hs).1 hat
  have hkey : keyOf e = n := (hs.key _ _ hstored).symm
  have hsplit : SplitsTo s (if e.size = 128 then s else dirSplit (dieOf pa) pa 9 { e with used := s.cycle } s) e pa := by
    have hsize : e.size ≤ 128 * 2 ^ 9 := by
      obtain ⟨⟨k, -, hhi, hk⟩, -⟩ := hs.aligned _ _ hstored
      rw [hk]
      exact (Nat.pow_le_pow_right (by decide) hhi).trans (by decide)
    split
    · rename_i h128
      exact dirSplit_splits 0 hs (hkey ▸ hstored) rfl rfl ⟨rfl, rfl, rfl⟩ hcov (by omega) (by omega)
    · have h := dirSplit_splits (e := { e with used := s.cycle }) 9 hs (e0 := e) (hkey ▸ hstored) rfl rfl ⟨rfl, rfl, rfl⟩ hcov hsize hroom
      exact ⟨h.only, h.tiles, h.line, h.rest, h.others⟩
  revert hsplit
  generalize hu : (if e.size = 128 then s else dirSplit (dieOf pa) pa 9 { e with used := s.cycle } s) = u
  intro hsplit
  obtain ⟨k, l, hl, hbase, hsize, hsame⟩ := hsplit.line
  have hlcov : Covers l pa := by
    simp only [Covers, hbase, hsize]
    omega
  have hlat : dirAt u pa = some (k, l) := (dirAt_eq_some_iff hsplit.tiles).2 ⟨hl, hlcov⟩
  have hlkey : dirKey l.base (dieOf pa) = k := by
    rw [dieOf_of_covers (hsplit.tiles.aligned _ _ hl) hlcov, ← hsplit.tiles.key _ _ hl]
  have hdies : dirGrant u = dirGrant s := dirGrant_of_dies (congrArg State.dies hsplit.only :)
  have hcycle : u.cycle = s.cycle := (congrArg State.cycle hsplit.only :)
  obtain ⟨hgbase, hgsize⟩ := dirGrant_region s (dieOf pa) r l
  have hput : dirRequest pa r s = { u with dir := sset u.dir k { dirGrant s (dieOf pa) r l with used := s.cycle } } := by
    have hserve : dirRequest pa r s = dirPut u (dieOf pa) { dirGrant s (dieOf pa) r l with used := s.cycle } := by
      rw [← hdies, ← hcycle, dirRequest_of_covered hat, dirServe, hat]
      by_cases h128 : e.size = 128
      · rw [if_pos h128] at hu
        subst hu
        obtain ⟨rfl, rfl⟩ : n = k ∧ e = l := by simpa [hat] using hlat
        simp only [h128, decide_true, Bool.or_true, if_true]
      · rw [if_neg h128] at hu
        simp only [hgrant, hheld, h128, hu, hlat, decide_false, Bool.or_self, Bool.false_eq_true, if_false]
    rw [hserve, dirPut_of_room (.inl (by simp only [hgbase, hlkey, hl, Option.isSome_some]))]
    simp only [hgbase, hlkey]
  have htiles := hsplit.tiles.sset_same (f := { dirGrant s (dieOf pa) r l with used := s.cycle }) hl hgbase hgsize
  refine ⟨k, l, hbase, hsize, hsame, ?_, fun b hb hline => ?_⟩
  · rw [hput]
    refine (dirAt_eq_some_iff htiles).2 ⟨sget_sset_eq .., ?_⟩
    rwa [Covers, ← hgbase, ← hgsize] at hlcov
  · obtain ⟨j, f, hf, hfcov, hfsame⟩ := hsplit.rest b hb hline
    have hne : k ≠ j := by
      rintro rfl
      rw [hl, Option.some.injEq] at hf
      subst hf
      simp only [Covers, hbase, hsize] at hfcov
      omega
    exact ⟨j, f, by rw [hput]; exact (dirAt_eq_some_iff htiles).2 ⟨(sget_sset_ne _ _ hne).trans hf, hfcov⟩, hfsame⟩

end Covered

/-! ## What reads and ownership grant -/

/-- Whether a die may hold lines of a home: it is not the home, and it has a remote-data cache (R370). -/
theorem grant_caches {s : State} {d home : Nat} :
    (decide (d ≠ home) && decide ((getDie s d).rdcCfg ≠ 0)) = true ↔ d ≠ home ∧ (getDie s d).rdcCfg ≠ 0 := by
  rw [Bool.and_eq_true, decide_eq_true_iff, decide_eq_true_iff]

theorem own_owner (s : State) (home d : Nat) (e : DirEntry) :
    (dirGrant s home (.own (some d)) e).owner = if d = home ∨ (getDie s d).rdcCfg = 0 then none else some d := by
  change (some d).filter (fun d => decide (d ≠ home) && decide ((getDie s d).rdcCfg ≠ 0)) = _
  rw [Option.filter_some]
  by_cases h : d ≠ home ∧ (getDie s d).rdcCfg ≠ 0
  · rw [if_pos (grant_caches.2 h), if_neg (not_or.2 h)]
  · rw [if_neg (mt grant_caches.1 h), if_pos (Decidable.not_not.1 (mt not_or.1 h))]

theorem own_l1s (s : State) (home d : Nat) (e : DirEntry) (c : Nat) :
    c ∈ (dirGrant s home (.own (some d)) e).l1s ↔ c ∈ e.l1s ∧ clusterDie c = d := by
  simp [dirGrant]

theorem read_l1s_new {e : DirEntry} {c : Nat} (hc : c ∉ e.l1s) (s : State) (home d : Nat) :
    (dirGrant s home (.read d (some c)) e).l1s = e.l1s ++ [c] := by
  simp [dirGrant, hc]

/-- A cluster that reads a region that nobody holds is its only one. -/
theorem mem_l1s_freshEntry (s : State) (pa home d c : Nat) : c ∈ (dirGrant s home (.read d (some c)) (freshEntry s pa)).l1s := by
  rw [read_l1s_new (show c ∉ (freshEntry s pa).l1s from List.not_mem_nil)]
  exact List.mem_singleton_self c

theorem read_sharers (s : State) (home d : Nat) (c : Option Nat) (e : DirEntry) (x : Nat) :
    x ∈ (dirGrant s home (.read d c) e).sharers ↔
      x ∈ e.sharers ∨ (x = d ∧ d ≠ home ∧ (getDie s d).rdcCfg ≠ 0 ∧ e.owner ≠ some d) := by
  have hasks : (decide (d ≠ home) && decide ((getDie s d).rdcCfg ≠ 0) && decide (e.owner ≠ some d) && !e.sharers.contains d) = true ↔
      (d ≠ home ∧ (getDie s d).rdcCfg ≠ 0 ∧ e.owner ≠ some d) ∧ d ∉ e.sharers := by
    rw [Bool.and_eq_true, Bool.and_eq_true, grant_caches, decide_eq_true_iff, Bool.not_eq_true', List.contains_eq_mem,
      decide_eq_false_iff_not, and_assoc (a := d ≠ home)]
  change x ∈ (if _ then e.sharers ++ [d] else e.sharers) ↔ _
  split
  · rename_i h
    rw [List.mem_append, List.mem_singleton, and_iff_left (hasks.1 h).1]
  · rename_i h
    refine ⟨.inl, fun hx => hx.elim id ?_⟩
    rintro ⟨rfl, hall⟩
    by_contra hmem
    exact h (hasks.2 ⟨hall, hmem⟩)

theorem read_of_permitted {s : State} {home d c : Nat} {e : DirEntry} (hc : c ∈ e.l1s)
    (h : d = home ∨ (getDie s d).rdcCfg = 0 ∨ e.owner = some d ∨ d ∈ e.sharers) : dirGrant s home (.read d (some c)) e = e := by
  have hshared : (d ≠ home && (getDie s d).rdcCfg ≠ 0 && e.owner ≠ some d && !e.sharers.contains d) = false := by
    obtain h | h | h | h := h <;> simp [h]
  simp only [dirGrant, List.contains_eq_mem, hc, decide_true, if_true]
  rw [if_neg (by simpa using hshared)]

/-! ## Merges -/

theorem sameSet_iff (a b : List Nat) : sameSet a b = true ↔ ∀ x, x ∈ a ↔ x ∈ b := by
  simp only [sameSet, Bool.and_eq_true, List.all_eq_true, List.contains_eq_mem, decide_eq_true_eq]
  exact ⟨fun ⟨h1, h2⟩ x => ⟨h1 x, h2 x⟩, fun h => ⟨fun x => (h x).1, fun x => (h x).2⟩⟩

/-- Settles O59: a request meets no entry, one that permits it, or one that it splits; a merge writes the first half's entry. -/
theorem directoryTracksCopies : Obligations.DirectoryTracksCopies := by
  refine ⟨?_, ?_, ?_, ?_, ?_, ?_, ?_⟩
  · intro s pa d c hnone hroom
    obtain ⟨hput, hat⟩ := dirRequest_fresh_of_room hnone hroom (.read d (some c))
    refine ⟨_, _, _, congrArg Host.Outcome.next hput, hat, mem_l1s_freshEntry .., fun hhome hcfg => ?_, rfl⟩
    exact (read_sharers s (dieOf pa) d (some c) (freshEntry s pa) d).2 (.inr ⟨rfl, hhome, hcfg, Option.some_ne_none d ∘ Eq.symm⟩)
  · intro s pa d hnone hroom
    obtain ⟨hput, hat⟩ := dirRequest_fresh_of_room hnone hroom (.own (some d))
    exact ⟨_, _, _, congrArg Host.Outcome.next hput, hat, own_owner .., rfl⟩
  · intro s pa d c n e hs hat hc hpermitted
    obtain ⟨u, hput, honly, hat', hkept⟩ := dirRequest_permitted (tiles_of_dirSound hs) hat (.read d (some c)) (read_of_permitted hc hpermitted)
    exact ⟨u, congrArg Host.Outcome.next hput, honly, hat', hkept⟩
  · intro s pa d n e hs hat hhome hcfg howner hheld hroom
    have hown (l : DirEntry) : (dirGrant s (dieOf pa) (.own (some d)) l).owner = some d := by
      rw [own_owner, if_neg (not_or.2 ⟨hhome, hcfg⟩)]
    obtain ⟨m, l, hbase, hsize, ⟨-, -, hl1s⟩, hat', hrest⟩ := dirRequest_splits (tiles_of_dirSound hs) hat (.own (some d))
      (fun h => howner (by rw [← h, hown])) hheld hroom
    refine ⟨_, m, _, rfl, hat', hbase, hsize, hown l, rfl,
      fun c => (own_l1s s (dieOf pa) d l c).trans (by rw [hl1s]), fun b hlo hhi hline => hrest b ⟨hlo, hhi⟩ hline⟩
  · intro s pa d c n e hs hat hc hheld hroom
    have hnew (l : DirEntry) (hl : l.l1s = e.l1s) : (dirGrant s (dieOf pa) (.read d (some c)) l).l1s = e.l1s ++ [c] := by
      rw [read_l1s_new (hl ▸ hc), hl]
    obtain ⟨m, l, hbase, hsize, ⟨howner, hsharers, hl1s⟩, hat', hrest⟩ := dirRequest_splits (tiles_of_dirSound hs) hat (.read d (some c))
      (fun h => hc (by rw [← h, hnew e rfl]; simp)) hheld hroom
    exact ⟨_, m, _, rfl, hat', hbase, hsize, howner, hnew l hl1s, 
      fun x => (read_sharers s (dieOf pa) d (some c) l x).trans (by rw [howner, hsharers]),
      fun b hlo hhi hline => hrest b ⟨hlo, hhi⟩ hline⟩
  · intro s pa d c hs hnone hfull
    obtain ⟨v, hv, hleast, u, key, hput, hgone, hcount, hat⟩ :=
      dirRequest_fresh_of_full (tiles_of_dirSound hs) hnone hfull (.read d (some c))
    exact ⟨u, v.1, v.2, _, _, congrArg Host.Outcome.next hput, hv, hleast, hgone, hcount, hat, mem_l1s_freshEntry ..⟩
  · intro s quad base size a b ha hb hasize hbsize hpos howner hsharers hl1s hbase hbig hidle
    have hsame : (decide (a.size = size) && decide (b.size = size) && decide (a.owner = b.owner) && sameSet a.sharers b.sharers &&
        sameSet a.l1s b.l1s) = true := by
      simp [hasize, hbsize, howner, (sameSet_iff ..).2 hsharers, (sameSet_iff ..).2 hl1s]
    have hmerge : exec (.directoryMerge quad base size) s = .next { s with
        dir := sset (serase s.dir (dirKey (base + size) quad)) (dirKey base quad)
          { a with size := 2 * size, used := max a.used b.used } } := by
      change execDirectoryMerge quad base size s = _
      simp only [execDirectoryMerge, ha, hb, hsame, hbase, Nat.not_lt.2 hbig, Nat.not_lt.2 hidle, Bool.not_true, ne_eq,
        not_true_eq_false, decide_false, Bool.or_self, Bool.false_eq_true, if_false]
    have hne : dirKey base quad ≠ dirKey (base + size) quad := by
      simp only [dirKey]
      omega
    exact ⟨_, hmerge, (sget_sset_ne _ _ hne).trans (sget_serase_eq ..), by rw [sget_sset_eq]; rfl⟩

end Sys2Proof.Laws
end

section
/-! SUPPORT. The Skiver's refresh (R303, R304, R421): its writes leave the views, and the refreshed block takes its generation. -/

namespace Sys2Proof.Laws
open Sys2Proof.Machine

/-! ## What a write at the home leaves of the contexts -/

theorem contexts_foldl {α : Type} {f : State → α → State} (h : ∀ s a, (f s a).contexts = s.contexts) (l : List α) (s : State) :
    (l.foldl f s).contexts = s.contexts := by
  induction l generalizing s with
  | nil => rfl
  | cons a l ih => rw [List.foldl_cons, ih, h]

theorem contexts_dirPut (s : State) (quad : Nat) (e : DirEntry) : (dirPut s quad e).contexts = s.contexts := by
  have hroom : (dirRoom s quad).contexts = s.contexts := by
    unfold dirRoom
    split
    · rfl
    · split <;> rfl
  unfold dirPut
  split
  · rfl
  · exact hroom

theorem contexts_dirSplit (quad pa n : Nat) (e : DirEntry) (s : State) : (dirSplit quad pa n e s).contexts = s.contexts := by
  induction n generalizing e s with
  | zero => rfl
  | succ n ih =>
    rw [dirSplit]
    split
    · rfl
    · rw [ih, contexts_dirPut, contexts_dirPut]

theorem contexts_dirServe (pa : Nat) (r : DirAsk) (s : State) : (dirServe pa r s).contexts = s.contexts := by
  unfold dirServe
  split
  · rfl
  · split
    · exact contexts_dirPut ..
    · dsimp only
      split
      · exact contexts_dirSplit ..
      · rw [contexts_dirPut, contexts_dirSplit]

theorem contexts_dirRequest (pa : Nat) (r : DirAsk) (s : State) : (dirRequest pa r s).contexts = s.contexts := by
  cases hat : dirAt s pa with
  | some p => rw [dirRequest_of_covered hat, contexts_dirServe]
  | none => rw [dirRequest_of_uncovered hat, contexts_dirServe, contexts_dirPut]

theorem contexts_countMixed (s : State) (pa : Nat) : (countMixed s pa).contexts = s.contexts := by
  unfold countMixed
  split
  · split
    · rfl
    · dsimp only
      split
      · exact contexts_dirRequest ..
      · rfl
  · rfl

theorem contexts_keepMixed (die : Option Nat) (line : Nat) (s : State) (c : Nat) : (keepMixed die line s c).contexts = s.contexts := by
  unfold keepMixed
  dsimp only
  split
  · rfl
  · split
    · split <;> rfl
    · rfl

theorem contexts_mixedWrite (s : State) (die : Option Nat) (pa n : Nat) (track : Bool) :
    (mixedWrite s die pa n track).contexts = s.contexts := by
  unfold mixedWrite
  split
  · split <;> rfl
  · refine contexts_foldl (fun s a => ?_) _ _
    split
    · rfl
    · exact contexts_foldl (contexts_keepMixed die _) _ _

/-! ## The views -/

/-- The views of every context. -/
def viewTable (s : State) : Store (Store View) := s.contexts.map fun e => (e.1, e.2.views)

/-- The view of a slot. -/
def viewAt (s : State) (ctx slot : Nat) : Option View := (sget s.contexts ctx).bind fun c => sget c.views slot

theorem viewAt_of_viewTable {s t : State} (h : viewTable t = viewTable s) (ctx slot : Nat) : viewAt t ctx slot = viewAt s ctx slot := by
  have hviews (s : State) : viewAt s ctx slot = (sget (viewTable s) ctx).bind fun vs => sget vs slot := by
    rw [viewTable, sget_map, Option.bind_map]
    rfl
  rw [hviews, hviews, h]

theorem views_dirtyMark (c : Context) (va : Nat) : (dirtyMark c va).views = c.views := by
  rw [dirtyMark]
  generalize masterHit c va = bases
  induction bases generalizing c with
  | nil => rfl
  | cons b bases ih => exact ih _

/-- A write of a party outside the dies leaves every view. -/
theorem viewTable_homeWrite (s : State) (ctx va pa : Nat) (mv track : Bool) (bs : List Byte) :
    viewTable (homeWrite s ctx none va pa mv track bs) = viewTable s := by
  have hmark : ∀ c : Context, ((unitsOf 4096 va bs.length).foldl dirtyMark c).views = c.views := by
    intro c
    generalize unitsOf 4096 va bs.length = us
    induction us generalizing c with
    | nil => rfl
    | cons u us ih => rw [List.foldl_cons, ih, views_dirtyMark]
  have hmod (u : State) : viewTable (if mv then modCtx u ctx fun c => (unitsOf 4096 va bs.length).foldl dirtyMark c else u) = viewTable u := by
    split
    · exact map_smod Context.views hmark ctx u.contexts
    · rfl
  have hlines : ∀ (u : State), ((unitsOf 128 pa bs.length).foldl
      (fun s a => if track then dirRequest a (.own none) s else countMixed s a) u).contexts = u.contexts :=
    contexts_foldl (fun u a => by
      split
      · exact contexts_dirRequest ..
      · exact contexts_countMixed ..) _
  unfold homeWrite
  dsimp only
  rw [viewTable, hlines]
  exact (hmod _).trans (congrArg (List.map fun e : Nat × Context => (e.1, e.2.views)) (contexts_mixedWrite s none pa bs.length track))

theorem viewTable_skiverWrites (ctx : Nat) (ws : List ((Nat × List Byte) × (Nat × Loc))) (s : State) :
    viewTable (skiverWrites ctx ws s) = viewTable s := by
  induction ws generalizing s with
  | nil => rfl
  | cons w ws ih => exact (ih _).trans ((viewTable_homeWrite ..).trans rfl)

/-- The view that is changed in its slot. -/
theorem viewAt_modView {s : State} {ctx slot : Nat} {v : View} (h : viewAt s ctx slot = some v) (f : View → View) :
    viewAt (modView s ctx slot f) ctx slot = some (f v) := by
  obtain ⟨c, hc, hv⟩ := Option.bind_eq_some_iff.1 h
  have hctx : sget (modView s ctx slot f).contexts ctx = some { c with views := smod c.views slot f } :=
    (sget_smod_eq ..).trans (by rw [hc]; rfl)
  rw [viewAt, hctx, Option.bind_some]
  exact (sget_smod_eq ..).trans (by rw [hv]; rfl)

/-! ## A refresh -/

/-- The values of a block's elements, at the places of its master's elements. -/
def refreshVals (s : State) (v : View) (block : Nat) (ps : List (Nat × Loc)) : List (Nat × FVal) :=
  ((blockElems v block).zip ps).map fun e => (e.1.1, masterVal v (memNat s.mem e.2.2.pa v.mkind.esize))

/-- The scale of the block that has some values. -/
def refreshScale (v : View) (vals : List (Nat × FVal)) : Byte :=
  if (slotOf v.slot).kind.isInt && (slotOf v.slot).scaled then
    blockScale (slotOf v.slot) (vals.filterMap fun e => match e.2 with | .fin _ _ _ => some e.2.q | .nan _ => none | .inf _ => none)
  else 0x80

/-- What the values become in the view. -/
def refreshCodes (v : View) (vals : List (Nat × FVal)) : List (Nat × FRes) :=
  vals.map fun e => (e.1, viewCode (slotOf v.slot) (refreshScale v vals) e.2)

theorem refreshCodes_values (v : View) (vals : List (Nat × FVal)) : ((refreshCodes v vals).map fun e => (e.1, e.2.v)) =
    vals.map fun e => (e.1, (viewCode (slotOf v.slot) (refreshScale v vals) e.2).v) := List.map_map

/-- The block's bytes, with their addresses. -/
def refreshWrites (v : View) (block : Nat) (vals : List (Nat × FVal)) : List (Nat × List Byte) :=
  blockWrites v block (refreshScale v vals) ((refreshCodes v vals).map fun e => (e.1, e.2.v))

/-- The view whose block has been refreshed. -/
def refreshedView (block g : Nat) (mg now : Nat) (fl : Flags) (v : View) : View :=
  { v.stamp block (max (sgetD v.gens block 0) (max g mg)) now with
    queued := serase v.queued block, flags := v.flags ||| viewFlags fl }

section Refresh
variable {s : State} {ctx slot block g : Nat} {v : View} (hview : viewAt s ctx slot = some v) (hqueued : sget v.queued block = some g)
  (hlive : v.live = true) (hactive : v.state = .active) (hruns : unitFrozen s .skiver ctx = false)
include hview hqueued hlive hactive hruns

theorem skiverRefresh_writes {ps qs : List (Nat × Loc)}
    (hps : skiverPlaces s ctx .ls false none ((blockElems v block).map fun e => (e.2, v.mkind.esize)) = .ok ps)
    (hqs : skiverPlaces s ctx .vw true none ((refreshWrites v block (refreshVals s v block ps)).map fun w => (w.1, w.2.length)) = .ok qs) :
    exec (.skiverRefresh ctx slot block) s = .next (modView
      (skiverWrites ctx ((refreshWrites v block (refreshVals s v block ps)).zip qs) s) ctx slot
      (refreshedView block g (masterOf s ctx v).mg (timeOf s)
        ((refreshCodes v (refreshVals s v block ps)).foldl (fun f e => f ||| e.2.fl) 0))) := by
  have hgo : (!v.live || decide (v.state = .suspended) || unitFrozen s .skiver ctx) = false := by
    rw [hlive, hactive, hruns]
    rfl
  rw [viewAt] at hview
  change execSkiverRefresh ctx slot block s = _
  simp only [execSkiverRefresh, hview, hqueued, hgo, hps, Bool.false_eq_true, if_false]
  split
  · rename_i c va herr
    cases hqs.symm.trans herr
  · rename_i qs' hqs'
    obtain rfl : qs = qs' := Except.ok.inj (hqs.symm.trans hqs')
    rfl

theorem skiverRefresh_fails {cause va : Nat}
    (hps : skiverPlaces s ctx .ls false none ((blockElems v block).map fun e => (e.2, v.mkind.esize)) = .error (cause, va)) :
    exec (.skiverRefresh ctx slot block) s = .next (suspendView
      (scrambled s ctx slot block (blockWrites v block 0 ((blockElems v block).map fun e => (e.1, 0)))) ctx slot g cause va v) := by
  have hgo : (!v.live || decide (v.state = .suspended) || unitFrozen s .skiver ctx) = false := by
    rw [hlive, hactive, hruns]
    rfl
  rw [viewAt] at hview
  change execSkiverRefresh ctx slot block s = _
  simp only [execSkiverRefresh, hview, hqueued, hgo, hps, Bool.false_eq_true, if_false]

end Refresh

/-- A block that is not queued, and one of a view that is not refreshed, stay as they are. -/
theorem skiverRefresh_stays {s : State} {ctx slot block : Nat} {v : View} (hview : viewAt s ctx slot = some v)
    (h : sget v.queued block = none ∨ v.live = false ∨ v.state = .suspended ∨ unitFrozen s .skiver ctx = true) :
    exec (.skiverRefresh ctx slot block) s = .next s := by
  rw [viewAt] at hview
  change execSkiverRefresh ctx slot block s = _
  cases hqueued : sget v.queued block with
  | none => simp only [execSkiverRefresh, hview, hqueued]
  | some g =>
    have hstop : (!v.live || decide (v.state = .suspended) || unitFrozen s .skiver ctx) = true := by
      rw [hqueued] at h
      obtain h | h | h | h := h
      · cases h
      all_goals simp [h]
    simp only [execSkiverRefresh, hview, hqueued, hstop, if_true]

/-- Settles O42: the refresh by its writes, which leave the view it then changes. -/
theorem refreshRaisesGeneration : Obligations.RefreshRaisesGeneration := by
  refine ⟨fun s ctx c slot block v g ps qs hc hv hqueued hlive hactive hruns hps => ?_,
    fun s ctx c slot block v g cause va hc hv hqueued hlive hactive hruns hps => ?_, fun s ctx slot block c v hc hv h => ?_⟩
  all_goals
    have hview : viewAt s ctx slot = some v := by rw [viewAt, hc, Option.bind_some, hv]
  · intro vals sl byte ws hqs
    have hcodes : (vals.map fun e => (e.1, (viewCode sl byte e.2).v)) =
        (refreshCodes v (refreshVals s v block ps)).map fun e => (e.1, e.2.v) := (refreshCodes_values v vals).symm
    have hws : ws = refreshWrites v block (refreshVals s v block ps) := congrArg (blockWrites v block byte) hcodes
    rw [hws] at hqs ⊢
    have hkept := (viewAt_of_viewTable (viewTable_skiverWrites ctx
      ((refreshWrites v block (refreshVals s v block ps)).zip qs) s) ctx slot).trans hview
    exact ⟨_, skiverRefresh_writes hview hqueued hlive hactive hruns hps hqs, rfl, _, viewAt_modView hkept _, rfl, rfl, rfl, hactive⟩
  · exact skiverRefresh_fails hview hqueued hlive hactive hruns hps
  · exact skiverRefresh_stays hview h

end Sys2Proof.Laws
end

section
/-! SUPPORT. The work words (R334, R336). -/

namespace Sys2Proof.Laws
open Sys2Proof.Machine

/-! ## Code addresses -/

theorem codeFault_of_aligned {a : DWord} (h : a.toNat % 8 = 0) : codeFault a = none := if_neg (not_not.2 h)

theorem codeFault_of_misaligned {a : DWord} (h : a.toNat % 8 ≠ 0) : codeFault a = some ⟨0x14, 0, 0, 0, a⟩ := if_pos h

/-- The lanes whose code addresses are misaligned are those that fail. -/
theorem laneFaults_codeFault (act : List Nat) (f : Nat → DWord) :
    laneFaults act (fun l => codeFault (f l)) =
      (act.filter fun l => (f l).toNat % 8 ≠ 0).map fun l => (l, ⟨0x14, 0, 0, 0, f l⟩) := by
  rw [laneFaults]
  induction act with
  | nil => rfl
  | cons l act ih =>
    by_cases hl : (f l).toNat % 8 = 0
    · rw [List.filterMap_cons_none (by rw [codeFault_of_aligned hl]; rfl), List.filter_cons_of_neg (by simp [hl]), ih]
    · rw [List.filterMap_cons_some (b := (l, ⟨0x14, 0, 0, 0, f l⟩)) (by rw [codeFault_of_misaligned hl]; rfl),
        List.filter_cons_of_pos (by simp [hl]), List.map_cons, ih]

/-- Lanes that all fail with one cause are all named, with the lowest one's address. -/
theorem laneTrap_codeFault {act : List Nat} {f : Nat → DWord} (h : ∃ l ∈ act, (f l).toNat % 8 ≠ 0) :
    let bad := act.filter fun l => (f l).toNat % 8 ≠ 0
    laneTrap (laneFaults act fun l => codeFault (f l)) =
      some { cause := 0x14, lanes := bad, addr := f (bad.headD 0), info := BitVec.ofNat 32 (bad.headD 0 * 2 ^ 13) } := by
  intro bad
  obtain ⟨l, hl, hmis⟩ := h
  have hmem : l ∈ bad := List.mem_filter.2 ⟨hl, decide_eq_true hmis⟩
  obtain ⟨m, rest, hbad⟩ := List.exists_cons_of_ne_nil (List.ne_nil_of_mem hmem)
  have hlanes : ((bad.map fun l => (l, (⟨0x14, 0, 0, 0, f l⟩ : AFault))).filter fun e => e.2.cause = 0x14).map Prod.fst = bad := by
    rw [List.filter_eq_self.2 (List.forall_mem_map.2 fun _ _ => rfl), List.map_map]
    exact List.map_id bad
  rw [laneFaults_codeFault]
  change laneTrap (bad.map _) = _
  rw [hbad] at hlanes ⊢
  rw [List.map_cons, laneTrap]
  refine congrArg some ?_
  rw [List.map_cons] at hlanes
  simp only [hlanes, infoOf, List.headD_cons, Nat.zero_mul, Nat.zero_add]

/-! ## SPAWN, SPAWNC, DONE -/

theorem spawn_completes (h : Head) (a b : VReg) (prio : Option (BitVec 4)) :
    GroupCompletes (.spawn h a b prio) (workReq h (two [a, b]))
      (fun x s => ∀ l ∈ x.act, ((x.view s).r64 l a).toNat % 8 = 0)
      fun x s => openLong (modGrid s x.tm.grid fun g => { g with tasks := g.tasks + x.act.length }) x h
        (groupOp x h.dc (.spawn (x.act.map fun l => ((x.view s).r64 l a, (x.view s).r64 l b)) (taskPrio x prio))) [] := by
  refine groupCompletes_of_body (fun _ => rfl) fun x s haligned => ?_
  simp only [laneTrap_of_pass fun l hl => codeFault_of_aligned (haligned l hl)]

theorem spawn_traps (h : Head) (a b : VReg) (prio : Option (BitVec 4)) :
    GroupTraps (.spawn h a b prio) (workReq h (two [a, b]))
      (fun x s => ∃ l ∈ x.act, ((x.view s).r64 l a).toNat % 8 ≠ 0)
      fun x s =>
        let bad := x.act.filter fun l => ((x.view s).r64 l a).toNat % 8 ≠ 0
        { cause := 0x14, lanes := bad, addr := (x.view s).r64 (bad.headD 0) a, info := BitVec.ofNat 32 (bad.headD 0 * 2 ^ 13) } := by
  refine groupTraps_of_body (fun _ => rfl) fun x s hmis => ?_
  simp only [laneTrap_codeFault hmis]

theorem spawnc_completes (h : Head) (d a b c : VReg) (prio : Option (BitVec 4)) :
    GroupCompletes (.spawnc h d a b c prio) (workReq h (two [d, a, b] ++ one [c]))
      (fun x s => (∀ l ∈ x.act, ((x.view s).r64 l a).toNat % 8 = 0) ∧ spawncFits c x s)
      fun x s =>
        let r := spawncLanes x (x.view s) (gridOf s x).part (taskPrio x prio) a b c x.act s
        openLong r.2.2 x h (groupOp x h.dc (if r.2.1 = [] then .plain else .spawn r.2.1 (taskPrio x prio)))
          (r.1.map fun e => out2 e.1 d e.2) := by
  refine groupCompletes_of_body (fun _ => rfl) fun x s ⟨haligned, hfits⟩ => ?_
  have hroom : ∀ l, ((x.act.filter fun l => (x.view s).r l c ≠ 0).contains l &&
      (decide (((x.act.filter fun l => (x.view s).r l c ≠ 0).filter (· < l)).length + (gridOf s x).pool ≥ 65536) ||
        decide ((x.act.filter (· < l)).length ≥ freeSpill (sgetD s.parts (gridOf s x).part default)))) = false := by
    intro l
    rw [Bool.and_eq_false_imp, List.contains_iff_mem]
    intro hl
    obtain ⟨hpool, hspill⟩ := hfits l hl
    rw [Bool.or_eq_false_iff]
    exact ⟨decide_eq_false (Nat.not_le.2 hpool), decide_eq_false (Nat.not_le.2 hspill)⟩
  dsimp only
  rw [laneTrap_of_pass]
  intro l hl
  simp only [codeFault_of_aligned (haligned l hl), hroom l, Bool.false_eq_true, if_false]

theorem done_completes (h : Head) (a : VReg) (n : BitVec 16) :
    GroupCompletes (.done h a n) (workReq h (two [a]))
      (fun x s => releaseOk x s ∧ ∀ l ∈ x.act, handleFault s (gridOf s x).part ((x.view s).r64 l a) = none)
      fun x s => openLong (releaseFork
        (x.act.foldl (fun t l => doneOne t (gridOf s x).part n.toNat ((x.view s).r64 l a)) (released x s)) x.t x.tids .dev)
        x h (groupOp x h.dc .plain) [] := by
  refine groupCompletes_of_body (fun _ => rfl) fun x s ⟨hrelease, hhandles⟩ => ?_
  simp only [laneTrap_of_pass hhandles, releaseBy_of_ok hrelease]
  rfl

/-! ## KLAUNCH -/

theorem klaunch_completes (h : Head) (a b : VReg) (cnt : Bool) (lr : LaunchRec) (s' : State) :
    GroupCompletes (.klaunch h a b cnt) (workReq h (if cnt then two [a, b] else two [a]))
      (fun x s => x.act ≠ [] ∧ klaunchRec s x ((x.view s).r64 x.lead a) = (.ok lr, s') ∧ releaseOk x s' ∧
        (cnt = true → GlobalOk s x.tm.ctx ((x.view s).r64 x.lead b) 8 .ls true))
      fun x s => klaunched h x (newGrid (releasedDev x s') x.tm.ctx (gridOf (releasedDev x s') x).part lr none
        (if cnt then .add ((x.view s).r64 x.lead b) 1 else .none) none) := by
  refine groupCompletes_of_body (fun _ => rfl) fun x s ⟨hact, hrec, hrelease, hcounter⟩ => ?_
  have hpass : (if cnt = true then failOf (checkGlobal s x.tm.ctx ((x.view s).r64 x.lead b) 8 .ls true) else none) = none := by
    split
    · rename_i hcnt
      exact failOf_of_ok (hcounter hcnt)
    · rfl
  simp only [if_neg hact, hrec, hpass, releaseBy_of_ok hrelease]
  rfl

/-- Settles O43: each word's body where its checks pass, and SPAWN's trap. -/
theorem workWords : Obligations.WorkWords :=
  ⟨spawn_completes, spawnc_completes, done_completes, klaunch_completes, spawn_traps⟩

end Sys2Proof.Laws
end

section
/-! SUPPORT. ENQ and DEQ (R335). -/

namespace Sys2Proof.Laws
open Sys2Proof.Machine

/-! ## The lanes of an edge operation -/

section Lanes
variable {one : State → Nat → Option (Nat × State)}

/-- A word that only tries goes through every lane. -/
theorem edgeLanes_try_length (ls : List Nat) (s : State) : (edgeLanes one true ls s).1.length = ls.length := by
  induction ls generalizing s with
  | nil => rfl
  | cons l ls ih =>
    rw [edgeLanes]
    cases one s l with
    | none => simp only [if_true, List.length_cons, ih]
    | some p => simp only [List.length_cons, ih]

/-- Where each lane proceeds at its turn, a word that may block does what one that only tries does. -/
theorem edgeLanes_of_all {ls : List Nat} {s : State} (h : ∀ e ∈ (edgeLanes one true ls s).1, e.2.isSome = true) :
    edgeLanes one false ls s = edgeLanes one true ls s := by
  induction ls generalizing s with
  | nil => rfl
  | cons l ls ih =>
    rw [edgeLanes] at h
    rw [edgeLanes, edgeLanes]
    cases hone : one s l with
    | none =>
      simp only [hone, if_true, List.forall_mem_cons, Option.isSome_none, Bool.false_eq_true, false_and] at h
    | some p =>
      simp only [hone, List.forall_mem_cons] at h
      simp only [ih h.2]

/-- Where a lane is blocked, the word ends before it. -/
theorem edgeLanes_of_blocked {ls : List Nat} {s : State} (h : ¬ ∀ e ∈ (edgeLanes one true ls s).1, e.2.isSome = true) :
    (edgeLanes one false ls s).1.length < ls.length := by
  induction ls generalizing s with
  | nil => exact absurd (fun e he => nomatch he) h
  | cons l ls ih =>
    rw [edgeLanes] at h
    rw [edgeLanes]
    cases hone : one s l with
    | none => simp only [Bool.false_eq_true, if_false, List.length_nil, List.length_cons, Nat.zero_lt_succ]
    | some p =>
      simp only [hone, List.forall_mem_cons, Option.isSome_some, true_and] at h
      simp only [List.length_cons, Nat.succ_lt_succ_iff]
      exact ih h

/-- Each lane that a word which may block goes through has proceeded. -/
theorem edgeLanes_performed {ls : List Nat} {s : State} : ∀ e ∈ (edgeLanes one false ls s).1, e.2.isSome = true := by
  induction ls generalizing s with
  | nil => exact fun e he => nomatch he
  | cons l ls ih =>
    rw [edgeLanes]
    cases one s l with
    | none => exact fun e he => nomatch he
    | some p => exact List.forall_mem_cons.2 ⟨rfl, ih⟩

end Lanes

/-! ## Its body -/

/-- What an edge operation leaves once its lanes are through: the release's fork, or the acquire. -/
def edgeAfter (enq : Bool) (x : Site) (r : List (Nat × Option Nat) × State) : State :=
  if enq then releaseFork r.2 x.t x.tids .dev else if r.1.any (fun e => e.2.isSome) then acquireBy r.2 x .dev else r.2

section Body
variable {h : Head} {a : VReg} {enq try_ : Bool} {one : Site → LView → State → Nat → Option (Nat × State)}
  {out : Nat → Option Nat → LaneOut} {x : Site} {s u : State} {r : List (Nat × Option Nat) × State} (hok : edgeOk a enq x s)
  (hrelease : (if enq then releaseBy (edgesSeen a x s) x .dev else .ok (edgesSeen a x s)) = .ok u)
  (hrun : edgeLanes (one x (x.view s)) try_ (edgeTodo x) u = r)
include hok hrelease hrun

/-- Every lane has proceeded, or tried. -/
theorem edgeBody_retires (hlen : r.1.length = (edgeTodo x).length) :
    edgeBody h a enq try_ one out x s =
      .retire (openLong (setDoneLanes (edgeAfter enq x r) x []) x h (groupOp x h.dc .plain) (r.1.map fun e => out e.1 e.2)) := by
  have hpass := laneTrap_of_pass hok
  rw [edgesSeen] at hpass hrelease
  rw [edgeTodo] at hpass hrelease hrun hlen
  simp only [edgeBody, hpass, hrelease, hrun, if_pos hlen]
  rfl

/-- A lane is blocked: the lanes before it have an operation of their own, if there are any. -/
theorem edgeBody_waits (hlen : r.1.length < (edgeTodo x).length) :
    edgeBody h a enq try_ one out x s = .wait (if r.1 = [] then edgeAfter enq x r else
      openLong (setDoneLanes (edgeAfter enq x r) x (x.g.doneLanes ++ r.1.map Prod.fst)) x h (groupOp x h.dc .plain)
        (r.1.map fun e => out e.1 e.2)) := by
  have hpass := laneTrap_of_pass hok
  rw [edgesSeen] at hpass hrelease
  rw [edgeTodo] at hpass hrelease hrun hlen
  by_cases hnone : r.1 = []
  · simp only [edgeBody, hpass, hrelease, hrun, if_neg (Nat.ne_of_lt hlen), if_pos hnone]
    rfl
  · simp only [edgeBody, hpass, hrelease, hrun, if_neg (Nat.ne_of_lt hlen), if_neg hnone]
    rfl

end Body

/-! ## ENQ -/

section Enq
variable {h : Head} {a b : VReg} {s s1 : State} {x : Site}

theorem enqIssue_done {t : Option PReg} (hs : issueSite (edgeReq h (two [a] ++ [(b.toNat, 4)]) t) s = some (x, s1))
    (hrelease : releaseOk x (edgesSeen a x s1)) (hok : edgeOk a true x s1)
    (hlen : (enqRun a b t.isSome x s1).1.length = (edgeTodo x).length) : enqIssue h a b t s = retired (enqDone h a b t x s1) x :=
  issue_retire hs (edgeBody_retires hok (releaseBy_of_ok hrelease _) rfl hlen)

theorem enqIssue_all (hs : issueSite (edgeReq h (two [a] ++ [(b.toNat, 4)]) none) s = some (x, s1))
    (hrelease : releaseOk x (edgesSeen a x s1)) (hok : edgeOk a true x s1) (hall : enqAll a b x s1) :
    enqIssue h a b none s = retired (enqDone h a b none x s1) x :=
  enqIssue_done hs hrelease hok ((congrArg (·.1.length) (edgeLanes_of_all hall)).trans (edgeLanes_try_length ..))

theorem enqIssue_blocked (hs : issueSite (edgeReq h (two [a] ++ [(b.toNat, 4)]) none) s = some (x, s1))
    (hrelease : releaseOk x (edgesSeen a x s1)) (hok : edgeOk a true x s1) (hblocked : ¬ enqAll a b x s1) :
    enqIssue h a b none s = modTeam (enqBlocked h a b x s1) x.t (waitTeam x.lr s1.cycle x.k) :=
  issue_wait hs (edgeBody_waits hok (releaseBy_of_ok hrelease _) rfl (edgeLanes_of_blocked hblocked))

end Enq

theorem enq_completes (h : Head) (a b : VReg) :
    GroupCompletes (.enq h a b none) (edgeReq h (two [a] ++ [(b.toNat, 4)]) none)
      (fun x s => releaseOk x (edgesSeen a x s) ∧ edgeOk a true x s ∧ enqAll a b x s) (enqDone h a b none) :=
  fun _ _ _ hs ⟨hrelease, hok, hall⟩ => congrArg Host.Outcome.next (enqIssue_all hs hrelease hok hall)

theorem enq_tries (h : Head) (a b : VReg) (p : PReg) :
    GroupCompletes (.enq h a b (some p)) (edgeReq h (two [a] ++ [(b.toNat, 4)]) (some p))
      (fun x s => releaseOk x (edgesSeen a x s) ∧ edgeOk a true x s) (enqDone h a b (some p)) :=
  fun _ _ _ hs ⟨hrelease, hok⟩ => congrArg Host.Outcome.next (enqIssue_done hs hrelease hok (edgeLanes_try_length ..))

theorem enq_waits (h : Head) (a b : VReg) :
    GroupWaits (.enq h a b none) (edgeReq h (two [a] ++ [(b.toNat, 4)]) none)
      (fun x s => releaseOk x (edgesSeen a x s) ∧ edgeOk a true x s ∧ ¬ enqAll a b x s) (enqBlocked h a b) :=
  fun _ _ _ hs ⟨hrelease, hok, hblocked⟩ => congrArg Host.Outcome.next (enqIssue_blocked hs hrelease hok hblocked)

/-! ## DEQ -/

/-- What a DEQ writes to a lane. -/
def deqOut (d : VReg) (t : Option PReg) (l : Nat) (r : Option Nat) : LaneOut :=
  { lane := l, vs := match r with | some n => loadRegs 16 false d.toNat n | none => [],
    ps := match t with | some p => [(p, r.isSome)] | none => [] }

theorem deqIssue_eq (h : Head) (d a : VReg) (t : Option PReg) (s : State) :
    deqIssue h d a t s = issue (edgeReq h (two [a] ++ [(d.toNat, 4)]) t)
      (edgeBody h a false t.isSome (fun x v s l => deqOne s x l (v.r64 l a)) (deqOut d t)) s := by
  have hout : (fun l r =>
      let ps := match t with | some p => [(p, r.isSome)] | none => []
      match r with
      | some n => { lane := l, vs := loadRegs 16 false d.toNat n, ps := ps }
      | none => { lane := l, ps := ps }) = deqOut d t := by
    funext l r
    cases r <;> rfl
  exact congrArg (fun out => issue _ (edgeBody h a false t.isSome _ out) s) hout

section Deq
variable {h : Head} {d a : VReg} {s s1 : State} {x : Site}

theorem deqIssue_done {t : Option PReg} (hs : issueSite (edgeReq h (two [a] ++ [(d.toNat, 4)]) t) s = some (x, s1))
    (hok : edgeOk a false x s1) (hlen : (deqRun a t.isSome x s1).1.length = (edgeTodo x).length) :
    deqIssue h d a t s = retired (deqDone h d a t x s1) x := by
  rw [deqIssue_eq]
  exact issue_retire hs (edgeBody_retires hok rfl rfl hlen)

theorem deqIssue_all (hs : issueSite (edgeReq h (two [a] ++ [(d.toNat, 4)]) none) s = some (x, s1))
    (hok : edgeOk a false x s1) (hall : deqAll a x s1) : deqIssue h d a none s = retired (deqDone h d a none x s1) x :=
  deqIssue_done hs hok ((congrArg (·.1.length) (edgeLanes_of_all hall)).trans (edgeLanes_try_length ..))

theorem deqIssue_blocked (hs : issueSite (edgeReq h (two [a] ++ [(d.toNat, 4)]) none) s = some (x, s1))
    (hok : edgeOk a false x s1) (hblocked : ¬ deqAll a x s1) :
    deqIssue h d a none s = modTeam (deqBlocked h d a x s1) x.t (waitTeam x.lr s1.cycle x.k) := by
  rw [deqIssue_eq]
  have hshort : (deqRun a false x s1).1.length < (edgeTodo x).length := edgeLanes_of_blocked hblocked
  have hbody := edgeBody_waits (h := h) (try_ := false) (one := fun x v s l => deqOne s x l (v.r64 l a)) (out := deqOut d none) hok rfl rfl
    hshort
  refine issue_wait hs (hbody.trans (congrArg Res.wait ?_))
  change (if (deqRun a false x s1).1 = [] then edgeAfter false x (deqRun a false x s1) else _) = deqBlocked h d a x s1
  rw [deqBlocked]
  split
  · rename_i hnone
    have hany : (deqRun a false x s1).1.any (fun e => e.2.isSome) = false := by rw [hnone]; rfl
    simp only [edgeAfter, hany, Bool.false_eq_true, if_false]
  · rename_i hsome
    obtain ⟨e, rest, hcons⟩ := List.exists_cons_of_ne_nil hsome
    have hany : (deqRun a false x s1).1.any (fun e => e.2.isSome) = true :=
      List.any_eq_true.2 ⟨e, hcons ▸ List.mem_cons_self, edgeLanes_performed e (hcons ▸ List.mem_cons_self)⟩
    have hafter : edgeAfter false x (deqRun a false x s1) = acquireBy (deqRun a false x s1).2 x .dev := if_pos hany
    rw [← hafter]
    rfl

end Deq

theorem deq_completes (h : Head) (d a : VReg) :
    GroupCompletes (.deq h d a none) (edgeReq h (two [a] ++ [(d.toNat, 4)]) none)
      (fun x s => edgeOk a false x s ∧ deqAll a x s) (deqDone h d a none) :=
  fun _ _ _ hs ⟨hok, hall⟩ => congrArg Host.Outcome.next (deqIssue_all hs hok hall)

theorem deq_tries (h : Head) (d a : VReg) (p : PReg) :
    GroupCompletes (.deq h d a (some p)) (edgeReq h (two [a] ++ [(d.toNat, 4)]) (some p)) (fun x s => edgeOk a false x s)
      (deqDone h d a (some p)) :=
  fun _ _ _ hs hok => congrArg Host.Outcome.next (deqIssue_done hs hok (edgeLanes_try_length ..))

theorem deq_waits (h : Head) (d a : VReg) :
    GroupWaits (.deq h d a none) (edgeReq h (two [a] ++ [(d.toNat, 4)]) none)
      (fun x s => edgeOk a false x s ∧ ¬ deqAll a x s) (deqBlocked h d a) :=
  fun _ _ _ hs ⟨hok, hblocked⟩ => congrArg Host.Outcome.next (deqIssue_blocked hs hok hblocked)

/-! ## Later tries -/

/-- EDGE_RETRY tries again the word of a group that does not wait for a turn. -/
theorem edgeRetry_retries {s : State} {t k : Nat} {i : Instr} (hw : WaitsAt s t k i) :
    exec (.edgeRetry (.group t k)) s = .next (edgeRetry (.group t k) s) := by
  obtain ⟨_, hturn, _⟩ := hw
  exact congrArg Host.Outcome.next (if_neg (by rw [hturn]; exact Bool.false_ne_true))

theorem enq_ends (t k : Nat) (h : Head) (a b : VReg) :
    WaitEnds (.enq h a b none) (.edgeRetry (.group t k)) (edgeReq h (two [a] ++ [(b.toNat, 4)]) none) t k
      (fun x s => releaseOk x (edgesSeen a x s) ∧ edgeOk a true x s ∧ enqAll a b x s) (enqDone h a b none) := by
  intro s x s1 hw hs ⟨hrelease, hok, hall⟩
  have hretry : edgeRetry (.group t k) s = reissue (.group t k) (enqIssue h a b none) s := by
    rw [edgeRetry, hw.1]
  rw [edgeRetry_retries hw, hretry, reissue_group hw hs (enqIssue_all hs hrelease hok hall)]

theorem deq_ends (t k : Nat) (h : Head) (d a : VReg) :
    WaitEnds (.deq h d a none) (.edgeRetry (.group t k)) (edgeReq h (two [a] ++ [(d.toNat, 4)]) none) t k
      (fun x s => edgeOk a false x s ∧ deqAll a x s) (deqDone h d a none) := by
  intro s x s1 hw hs ⟨hok, hall⟩
  have hretry : edgeRetry (.group t k) s = reissue (.group t k) (deqIssue h d a none) s := by
    rw [edgeRetry, hw.1]
  rw [edgeRetry_retries hw, hretry, reissue_group hw hs (deqIssue_all hs hok hall)]

/-- Settles O44: an edge operation's body by what its lanes do at their turns, at the issue and at a later try. -/
theorem edgesMovePayloads : Obligations.EdgesMovePayloads :=
  ⟨enq_tries, enq_completes, deq_tries, deq_completes, enq_waits, deq_waits, enq_ends, deq_ends⟩

end Sys2Proof.Laws
end

section
/-! SUPPORT. The command packets at their turns (R318 to R323). -/

namespace Sys2Proof.Laws
open Sys2Proof.Machine

section Turn
variable {q : Nat} {bar : Bool} {s : State} {u : Queue} (hturn : PacketTurn q bar s u)
include hturn

/-- A packet whose turn it is runs for its queue. -/
theorem packetRun_of_turn (f : Queue → State) : packetRun q bar s f = f u := by
  obtain ⟨hu, hi, hbar⟩ := hturn
  have hheld : (s.issuer ≠ some (.packet q) || (bar && u.grids ≠ [])) = false := by
    rw [hi]
    cases bar with
    | false => simp
    | true => simp [hbar rfl]
  simp only [packetRun, hu, hheld, Bool.false_eq_true, if_false]

theorem exec_signal_ok {op : SigOp} {a v : DWord} {t : State} (h : cpSignal s u.ctx op a v = .ok t) :
    exec (.signal q bar op a v) s = .next (packetDone t q 1) := by
  refine congrArg Host.Outcome.next ((packetRun_of_turn hturn _).trans ?_)
  simp only [h]

theorem exec_timestamp_ok {a : DWord} {t : State} (h : cpWrite s u.ctx a.toNat (natLe 8 (timeOf s % 2 ^ 64)) = .ok t) :
    exec (.timestamp q bar a) s = .next (packetDone (cpRelease t u.ctx) q 1) := by
  refine congrArg Host.Outcome.next ((packetRun_of_turn hturn _).trans ?_)
  simp only [h]

/-- A FENCE passes where its counters hold, and waits where they do not. -/
theorem exec_packetFence_ok {es : List PEntry} {b : Bool} (h : fenceHolds s u.ctx es = .ok b) :
    exec (.packetFence q bar es) s = .next (if b then packetDone s q (fenceSlots es.length) else packetHold s q) := by
  refine congrArg Host.Outcome.next ((packetRun_of_turn hturn _).trans ?_)
  cases b <;> simp only [h] <;> rfl

/-- An EDGE passes where its entries are there, or its room is, and waits where they are not. -/
theorem exec_edge_ok {consumer : Bool} {k : Nat} {d : DWord} {e : EdgeDesc} (h : packetEdge s u.ctx d = .ok e) :
    exec (.edge q bar consumer k d) s = .next (
      if (if consumer then k ≤ edgeOcc e else k + edgeOcc e ≤ 2 ^ e.logn) then packetDone s q 1 else packetHold s q) := by
  refine congrArg Host.Outcome.next ((packetRun_of_turn hturn _).trans ?_)
  cases consumer <;> simp only [h, if_true, Bool.false_eq_true, if_false, decide_eq_true_eq]

/-- A LAUNCH whose queue's grids are all written makes its grid and writes its records. -/
theorem exec_launch_ok {rec : DWord} {cop : Cop} {lr : LaunchRec} (hwritten : ∀ n ∈ u.grids, allWritten s n = true)
    (hclusters : (sgetD s.parts u.part default).clusters ≠ []) (hcheck : launchCheck s u rec cop = .ok lr) :
    let r := launchGrid s q u lr cop
    exec (.launch q bar rec cop) s = .next (launchWrite
      (modQueue r.2 q fun u => { u with inval := [], listed := false, grids := u.grids ++ [r.1] }) q r.1) := by
  have hnone : ((sget s.queues q).bind fun u => u.grids.find? fun n => !allWritten s n) = none := by
    rw [hturn.1, Option.bind_some, List.find?_eq_none]
    exact fun n hn => by rw [hwritten n hn]; exact Bool.false_ne_true
  change execLaunch q bar rec cop s = _
  simp only [execLaunch, hnone, packetRun_of_turn hturn, if_neg hclusters, hcheck]

end Turn

/-! ## The records of a grid -/

section Records
variable {s : State} {n : Nat} {g : Grid} (hg : sget s.grids n = some g)
include hg

theorem writeAllTeams_blocked (h : mayWrite s n g = false) : writeAllTeams s n = s := by
  simp only [writeAllTeams, hg, h, Bool.not_false, Bool.or_true, if_true]

theorem writeAllTeams_writes (hmore : g.written < gridRecs g.lrec) (h : mayWrite s n g = true) :
    writeAllTeams s n = writeTeams n (gridRecs g.lrec - g.written) (if g.written = 0 then boundary s g.ctx g.part g.listed else s) := by
  simp only [writeAllTeams, hg, h, Nat.not_le.2 hmore, Bool.not_true, decide_false, Bool.or_self, Bool.false_eq_true, if_false]

end Records

/-- An earlier LAUNCH of the partition that has records to write comes first. -/
theorem mayWrite_of_earlier {s : State} {n m : Nat} {g e : Grid} (hq : g.queue.isSome = true) (he : sget s.grids m = some e) (hlt : m < n)
    (hpart : e.part = g.part) (hqueue : e.queue.isSome = true) (hmore : e.written < gridRecs e.lrec) : mayWrite s n g = false := by
  have hbefore : launchBefore s n g = true := by
    rw [launchBefore, hq, Bool.true_and, List.any_eq_true]
    exact ⟨(m, e), mem_of_sget he, by simp [hlt, hpart, hqueue, hmore]⟩
  simp only [mayWrite, hbefore, Bool.not_true, Bool.false_and]

/-- Settles O51: each packet's effect once its turn is known, and when a grid's records are written. -/
theorem packetsRun : Obligations.PacketsRun :=
  ⟨fun _ _ _ _ _ hturn => congrArg Host.Outcome.next (packetRun_of_turn hturn _),
   fun _ _ _ _ _ _ hturn => congrArg Host.Outcome.next (packetRun_of_turn hturn _),
   fun _ _ _ _ _ _ _ _ hturn => exec_signal_ok hturn, fun _ _ _ _ _ _ hturn => exec_timestamp_ok hturn,
   fun _ _ _ _ _ _ hturn => exec_packetFence_ok hturn, fun _ _ _ _ _ _ _ _ hturn => exec_edge_ok hturn,
   fun _ _ _ _ _ _ _ hturn => exec_launch_ok hturn,
   fun _ _ _ hg hmore => ⟨writeAllTeams_blocked hg, writeAllTeams_writes hg hmore,
     fun hq ⟨_, _, he, hlt, hpart, hqueue, hrecs⟩ => mayWrite_of_earlier hq he hlt hpart hqueue hrecs⟩⟩

end Sys2Proof.Laws
end

section
/-! SUPPORT. Accesses by the host and by other packages (R375 to R378, R382). -/

namespace Sys2Proof.Laws
open Sys2Proof.Machine

/-! ## What a notice and a poisoned read leave -/

/-- The channels, and what the host and other packages have been answered. -/
def answeredOutside (s : State) : Store Channel × List (List Byte) := (s.channels, s.replies)

theorem answeredOutside_of_bare {s t : State} (h : bare t = bare s) : answeredOutside t = answeredOutside s :=
  (congrArg answeredOutside h :)

theorem answeredOutside_noticeAt (time : Nat) (s : State) (ctx kind cause unit arg : Nat) (addr : DWord) :
    answeredOutside (noticeAt time s ctx kind cause unit arg addr) = answeredOutside s := by
  unfold noticeAt
  dsimp only
  split
  · rfl
  · split
    · rfl
    · split
      · rfl
      · exact (answeredOutside_of_bare (bare_homeWrite ..) :)

theorem freezeChannel_frozen (s : State) (ch : Nat) (c : Channel) (cause : Nat) (va : DWord) :
    (freezeChannel s ch c cause va).replies = s.replies ∧
      (sget (freezeChannel s ch c cause va).channels ch).map (·.frozen) = some true := by
  have h := answeredOutside_noticeAt (timeOf { s with channels := sset s.channels ch { c with frozen := true } })
    { s with channels := sset s.channels ch { c with frozen := true } } c.ctx 5 (if cause = 0x100 then violationCause s else cause) ch
    (3 * 2 ^ 56) va
  have hchannels : (freezeChannel s ch c cause va).channels = sset s.channels ch { c with frozen := true } := congrArg Prod.fst h
  exact ⟨(congrArg Prod.snd h :), by rw [hchannels, sget_sset_eq]; rfl⟩

theorem extPoison_keeps (s : State) (ctx : Nat) (va : DWord) (n : Nat) :
    (extPoison s ctx va n).replies = s.replies ∧ (extPoison s ctx va n).mem = s.mem := by
  unfold extPoison
  split
  · exact ⟨rfl, rfl⟩
  · split
    · exact ⟨rfl, rfl⟩
    · rename_i i _
      exact ⟨(congrArg Prod.snd (answeredOutside_of_bare (bare_poisonHit s ctx _)) :), (mc_poisonHit ..).1⟩

/-! ## Host channels -/

section Channel
variable {s : State} {ch n : Nat} {c : Channel} {va : DWord} {bs : List Byte} (hc : sget s.channels ch = some c) (hserves : c.frozen = false)
include hc hserves

section Quiet
variable (hquiet : replaying s c.ctx = false)
include hquiet

theorem hostRead_ok (h : cpRead s c.ctx va.toNat n = .ok bs) :
    exec (.hostChannelAccess ch (.read va n)) s = .next (extPoison { s with replies := s.replies ++ [bs] } c.ctx va n) := by
  change execHostChannelAccess ch (.read va n) s = _
  simp only [execHostChannelAccess, hc, hserves, hquiet, h, Bool.false_eq_true, if_false]

theorem hostRead_fails {e : Nat} (h : cpRead s c.ctx va.toNat n = .error e) :
    exec (.hostChannelAccess ch (.read va n)) s =
      .next (freezeChannel { s with replies := s.replies ++ [List.replicate n 255] } ch c e va) := by
  change execHostChannelAccess ch (.read va n) s = _
  simp only [execHostChannelAccess, hc, hserves, hquiet, h, Bool.false_eq_true, if_false]

theorem hostWrite_ok {t : State} (h : extWrite s c.ctx va bs = .ok t) :
    exec (.hostChannelAccess ch (.write va bs)) s = .next (journalPut t (.host ch c.ctx (.write va bs))) := by
  change execHostChannelAccess ch (.write va bs) s = _
  simp only [execHostChannelAccess, hc, hserves, hquiet, hostWrite, h, Bool.false_eq_true, if_false]

theorem hostWrite_fails {e : Nat} (h : extWrite s c.ctx va bs = .error e) :
    exec (.hostChannelAccess ch (.write va bs)) s = .next (freezeChannel s ch c e va) := by
  change execHostChannelAccess ch (.write va bs) s = _
  simp only [execHostChannelAccess, hc, hserves, hquiet, hostWrite, h, Bool.false_eq_true, if_false]

end Quiet

/-- A write waits behind a replay into the partition of its context. -/
theorem hostWrite_waits (hreplay : replaying s c.ctx = true) :
    exec (.hostChannelAccess ch (.write va bs)) s = .next { s with replay := s.replay ++ [.host ch c.ctx (.write va bs)] } := by
  change execHostChannelAccess ch (.write va bs) s = _
  simp only [execHostChannelAccess, hc, hserves, hreplay, Bool.false_eq_true, if_false, if_true]

end Channel

/-! ## Other packages -/

section Fabric
variable {s : State} {pkg ctx n : Nat} {c : Context} {va : DWord} {bs : List Byte} (hpkg : s.identity.pkgid ≠ 0)
  (hc : sget s.contexts ctx = some c) (hopen : c.fabric = true)
include hpkg hc hopen

/-- A request of another package enters a context that is open to it. -/
theorem fabric_enters : (s.identity.pkgid = 0 || !((sget s.contexts ctx).any (·.fabric))) = false := by
  rw [decide_eq_false hpkg, hc, Option.any_some, hopen]
  rfl

variable (hquiet : replaying s ctx = false)
include hquiet

theorem fabricRead_ok (h : cpRead s ctx va.toNat n = .ok bs) :
    exec (.fabricInboundRequest pkg ctx (.read va n)) s = .next { s with replies := s.replies ++ [bs] } := by
  change execFabricInboundRequest pkg ctx (.read va n) s = _
  simp only [execFabricInboundRequest, fabric_enters hpkg hc hopen, hquiet, h, Bool.false_eq_true, if_false]

theorem fabricRead_fails {e : Nat} (h : cpRead s ctx va.toNat n = .error e) :
    exec (.fabricInboundRequest pkg ctx (.read va n)) s = .next (remoteViolation s ctx e va) := by
  change execFabricInboundRequest pkg ctx (.read va n) s = _
  simp only [execFabricInboundRequest, fabric_enters hpkg hc hopen, hquiet, h, Bool.false_eq_true, if_false]

theorem fabricWrite_ok {t : State} (h : extWrite s ctx va bs = .ok t) :
    exec (.fabricInboundRequest pkg ctx (.write va bs)) s = .next (journalPut t (.fabric pkg ctx (.write va bs))) := by
  change execFabricInboundRequest pkg ctx (.write va bs) s = _
  simp only [execFabricInboundRequest, fabric_enters hpkg hc hopen, hquiet, fabricWrite, h, Bool.false_eq_true, if_false]

theorem fabricWrite_fails {e : Nat} (h : extWrite s ctx va bs = .error e) :
    exec (.fabricInboundRequest pkg ctx (.write va bs)) s = .next (remoteViolation s ctx e va) := by
  change execFabricInboundRequest pkg ctx (.write va bs) s = _
  simp only [execFabricInboundRequest, fabric_enters hpkg hc hopen, hquiet, fabricWrite, h, Bool.false_eq_true, if_false]

end Fabric

/-- A request that may not enter has failed. -/
theorem fabricRequest_refused {s : State} (pkg : Nat) {ctx : Nat} (a : ExtAccess)
    (h : s.identity.pkgid = 0 ∨ ∀ c, sget s.contexts ctx = some c → c.fabric = false) :
    exec (.fabricInboundRequest pkg ctx a) s = .next (remoteFail s) := by
  have hrefused : (s.identity.pkgid = 0 || !((sget s.contexts ctx).any (·.fabric))) = true := by
    obtain h | h := h
    · simp [h]
    · cases hc : sget s.contexts ctx with
      | none => simp
      | some c => simp [h c hc]
  change execFabricInboundRequest pkg ctx a s = _
  simp only [execFabricInboundRequest, hrefused, if_true]

/-! ## The bytes of a write -/

/-- A write within one 64 KiB range is one piece. -/
theorem cpPieces_of_onePage {va : Nat} {bs : List Byte} (hne : bs ≠ []) (hpage : (va + bs.length - 1) / 65536 = va / 65536) :
    cpPieces va bs = [(va, bs)] := by
  have hpos := List.length_pos_of_ne_nil hne
  have hstarts : rangeStarts va bs.length = [va] := by
    rw [rangeStarts, if_neg (Nat.ne_of_gt hpos), hpage, Nat.sub_self, Nat.zero_add, List.range_one, List.map_singleton, Nat.add_zero,
      Nat.max_eq_left (Nat.div_mul_le_self ..)]
  have hfits : bs.length ≤ 65536 - va % 65536 := by omega
  rw [cpPieces, hstarts, List.map_singleton, Nat.sub_self, List.drop_zero, List.take_of_length_le hfits]

/-- It leaves its bytes at their home. -/
theorem extWrite_of_onePage {s : State} {ctx : Nat} {va : DWord} {bs : List Byte} {ps : List Place}
    (hplaces : cpPlaces s ctx true va.toNat bs.length = .ok ps) (hne : bs ≠ [])
    (hpage : (va.toNat + bs.length - 1) / 65536 = va.toNat / 65536) :
    ∃ t, extWrite s ctx va bs = .ok t ∧ t.mem = memSets s.mem (placeAt ps va.toNat).pa bs := by
  refine ⟨_, ?_, (mc_homeWrite s ctx none va.toNat (placeAt ps va.toNat).pa (placeAt ps va.toNat).mv (placeAt ps va.toNat).tracked bs).1⟩
  simp only [extWrite, extPut, hplaces, cpPieces_of_onePage hne hpage]
  rfl

/-- Settles O57: each access by what its check answers, and the bytes of a write by those of memory. -/
theorem outsideAccesses : Obligations.OutsideAccesses := by
  refine ⟨fun s ch c va n hc hserves hquiet => ⟨fun bs h => ?_, fun e h => ?_⟩,
    fun s ch c va bs hc hserves hquiet => ⟨fun t => hostWrite_ok hc hserves hquiet, fun e => hostWrite_fails hc hserves hquiet⟩,
    fun s ch c va bs hc hserves hreplay => hostWrite_waits hc hserves hreplay,
    fun s pkg ctx c va n hpkg hc hopen hquiet =>
      ⟨fun bs => fabricRead_ok hpkg hc hopen hquiet, fun e => fabricRead_fails hpkg hc hopen hquiet⟩,
    fun s pkg ctx c va bs hpkg hc hopen hquiet =>
      ⟨fun t => fabricWrite_ok hpkg hc hopen hquiet, fun e => fabricWrite_fails hpkg hc hopen hquiet⟩,
    fun s pkg ctx a => fabricRequest_refused pkg a, fun s ctx va bs ps hplaces hne hpage => ?_⟩
  · obtain ⟨hreplies, hmem⟩ := extPoison_keeps { s with replies := s.replies ++ [bs] } c.ctx va n
    exact ⟨_, hostRead_ok hc hserves hquiet h, hreplies, hmem⟩
  · obtain ⟨hreplies, hfrozen⟩ := freezeChannel_frozen { s with replies := s.replies ++ [List.replicate n 255] } ch c e va
    exact ⟨_, hostRead_fails hc hserves hquiet h, hreplies, hfrozen⟩
  · obtain ⟨t, ht, hmem⟩ := extWrite_of_onePage hplaces hne hpage
    refine ⟨t, ht, fun i b hb => ?_, fun a ha => ?_⟩
    · obtain ⟨hi, rfl⟩ := List.getElem?_eq_some_iff.1 hb
      rw [hmem, memByte_memSets_in _ _ _ _ hi]
    · rw [hmem, memByte_memSets_out]
      omega

end Sys2Proof.Laws
end

section
/-! SUPPORT. Errors, faults and rollbacks (R375, R379, R380, R382). -/

namespace Sys2Proof.Laws
open Sys2Proof.Machine

/-! ## Counts of units -/

/-- Leaving a unit's count out leaves the others' counts. -/
theorem find?_units_ne (l : List (SpareUnit × Nat)) {v w : SpareUnit} (h : v ≠ w) :
    (l.filter fun e => e.1 ≠ v).find? (fun e => e.1 = w) = l.find? fun e => e.1 = w := by
  rw [List.find?_filter]
  refine congrArg (l.find? ·) (funext fun e => ?_)
  by_cases he : e.1 = w
  · simp [he, h.symm]
  · simp [he]

/-- A corrected error counts one more for its unit. -/
theorem ceCount_correctedError (r : CeReport) (s : State) :
    ∃ u, exec (.correctedError r) s = .next u ∧ (∀ w, ceCount u w = ceCount s w + if w = r.unit then 1 else 0) ∧
      u = { s with ceUnits := u.ceUnits, counters := match r.kind with
        | .sram => { s.counters with ceSram := countUp s.counters.ceSram }
        | .dram => { s.counters with ceDram := countUp s.counters.ceDram }
        | .link => { s.counters with ceLink := countUp s.counters.ceLink } } := by
  refine ⟨_, rfl, fun w => ?_, rfl⟩
  change ((((r.unit, ceCount s r.unit + 1) :: s.ceUnits.filter fun e => e.1 ≠ r.unit).find? fun e => e.1 = w).map Prod.snd).getD 0 = _
  by_cases hw : w = r.unit
  · subst hw
    rw [if_pos rfl, List.find?_cons_of_pos (by exact decide_eq_true rfl)]
    rfl
  · rw [if_neg hw, List.find?_cons_of_neg (by simpa using Ne.symm hw), find?_units_ne _ (Ne.symm hw), ceCount, Nat.add_zero]

/-- The spare that comes in for a unit is counted from 0. -/
theorem spareActivation_counts {s : State} {v : SpareUnit} (hworn : Config.worn v (ceCount s v) = true) (hidle : unitIdle s v = true) :
    ∃ u, exec (.spareActivation v) s = .next u ∧ u.spares = s.spares ++ [v] ∧
      (∀ w, ceCount u w = if w = v then 0 else ceCount s w) ∧ { u with spares := s.spares, ceUnits := s.ceUnits } = s := by
  refine ⟨_, congrArg Host.Outcome.next (if_pos (by rw [hworn, hidle]; rfl)), rfl, fun w => ?_, rfl⟩
  by_cases hw : w = v
  · subst hw
    rw [if_pos rfl, ceCount, List.find?_eq_none.2 fun e he => by simpa using (List.mem_filter.1 he).2]
    rfl
  · rw [if_neg hw, ceCount, find?_units_ne _ (Ne.symm hw), ceCount]

theorem spareActivation_stays {s : State} {v : SpareUnit} (h : Config.worn v (ceCount s v) = false ∨ unitIdle s v = false) :
    exec (.spareActivation v) s = .next s := by
  refine congrArg Host.Outcome.next (if_neg ?_)
  obtain h | h := h <;> simp [h]

/-! ## Ports and lines -/

/-- Where a route goes whose port has failed. -/
def rerouted (s : State) (port : Nat) (dead : List Nat) (r : Nat × Nat) : Option (Nat × Nat) :=
  let p := Config.freeNat s.freeCtr (2 ^ 41 + r.1) % 13
  if r.2 ≠ port then some r else if p = 12 || dead.contains p then none else some (r.1, p)

/-- No route goes to a dead port that it led to. -/
theorem rerouted_ne {s : State} {port : Nat} {dead : List Nat} (hdead : port ∈ dead) {r r' : Nat × Nat}
    (h : rerouted s port dead r = some r') : r'.2 ≠ port := by
  rw [rerouted] at h
  split at h
  · rename_i hne
    cases h
    exact hne
  · split at h
    · cases h
    · rename_i hlive
      cases h
      rintro rfl
      exact hlive (Bool.or_eq_true_iff.2 (.inr (List.contains_iff_mem.2 hdead)))

/-- A port that fails is dead, and no route leads there. -/
theorem linkPortFail_leaves (s : State) (port : Nat) :
    ∃ u, exec (.linkPortFail port) s = .next u ∧ port ∈ u.deadPorts ∧ (∀ r ∈ u.routes, r.2 ≠ port) ∧
      (∀ r ∈ s.routes, r.2 ≠ port → r ∈ u.routes) ∧ u.counters = { s.counters with ue := countUp s.counters.ue } ∧
      { u with deadPorts := s.deadPorts, routes := s.routes, counters := s.counters } = s := by
  have hdead : port ∈ if s.deadPorts.contains port then s.deadPorts else port :: s.deadPorts := by
    split
    · rename_i h
      exact List.contains_iff_mem.1 h
    · exact List.mem_cons_self
  refine ⟨_, rfl, hdead, fun r hr => ?_, fun r hr hne => ?_, rfl, rfl⟩
  · obtain ⟨r', -, hroute⟩ := List.mem_filterMap.1 hr
    exact rerouted_ne hdead hroute
  · exact List.mem_filterMap.2 ⟨r, hr, if_pos hne⟩

theorem uncorrectableError_line {s : State} {pa : Nat} (h : lineOf pa ∉ s.poison) :
    exec (.uncorrectableError (.line pa)) s = .next
      { s with counters := { s.counters with ue := countUp s.counters.ue }, poison := lineOf pa :: s.poison } :=
  congrArg Host.Outcome.next (if_neg (mt List.contains_iff_mem.1 h))

/-! ## A die that leaves -/

/-- Clearing the bits of some positions. -/
theorem getLsbD_clearBits (l : List Nat) (m : BitVec 36) {c : Nat} (hc : c < 36) :
    (l.foldl (fun (m : BitVec 36) c => m &&& ~~~(1#36 <<< c)) m).getLsbD c = (m.getLsbD c && decide (c ∉ l)) := by
  induction l generalizing m with
  | nil => simp
  | cons d l ih =>
    rw [List.foldl_cons, ih]
    by_cases hd : c = d
    · subst hd
      simp [hc]
    · obtain hlt | hsub : c < d ∨ c - d ≠ 0 := by omega
      · simp [hc, hd, hlt]
      · simp [hc, hd, hsub]

/-- The state of a package whose die is fenced, its clusters gone from the partitions and from CLMASK. -/
def fenceDie (s : State) (die : Nat) : State :=
  let s := modDie s die fun d => { d with fenced := true }
  { s with
    parts := s.parts.map fun e => (e.1, { e.2 with clusters := e.2.clusters.filter fun c => clusterDie c ≠ die }),
    identity := { s.identity with clmask :=
      ((List.range 36).filter fun c => clusterDie c = die).foldl (fun (m : BitVec 36) c => m &&& ~~~(1#36 <<< c)) s.identity.clmask } }

theorem exec_dieFaultReplay (s : State) (die : Nat) :
    exec (.dieFaultReplay die) s = .next (recoverParts (fenceDie s die) (partsOn s die)) := rfl

theorem fenceDie_fenced (s : State) (die : Nat) : (getDie (fenceDie s die) die).fenced = true := by
  have h := getDie_modDie s die (fun d => { d with fenced := true }) die
  rw [if_pos rfl] at h
  exact (congrArg Die.fenced h :)

theorem fenceDie_clusters {s : State} {die : Nat} : ∀ e ∈ (fenceDie s die).parts, ∀ c ∈ e.2.clusters, clusterDie c ≠ die := by
  intro e he c hc
  obtain ⟨e', -, rfl⟩ := List.mem_map.1 he
  exact of_decide_eq_true (List.mem_filter.1 hc).2

theorem fenceDie_clmask (s : State) (die : Nat) {c : Nat} (hc : c < 36) :
    (fenceDie s die).identity.clmask.getLsbD c = (s.identity.clmask.getLsbD c && clusterDie c ≠ die) := by
  refine (getLsbD_clearBits _ _ hc).trans (congrArg (s.identity.clmask.getLsbD c && ·) (decide_eq_decide.2 ?_))
  simp [hc]

theorem fenceDie_partNames (s : State) (die : Nat) : (fenceDie s die).parts.map Prod.fst = s.parts.map Prod.fst :=
  List.map_map.trans rfl

/-! ## Rollbacks -/

/-- A replay that begins with a packet has no write to make. -/
theorem replayWrites_of_packets {s : State} (h : ∀ j ∈ s.replay, isPacket j = true) : replayWrites s = s := by
  have hnow : s.replay.takeWhile (fun j => !isPacket j) = [] ∧ s.replay.dropWhile (fun j => !isPacket j) = s.replay := by
    cases hr : s.replay with
    | nil => exact ⟨rfl, rfl⟩
    | cons j rest =>
      have hj : ¬(!isPacket j) = true := by rw [h j (hr ▸ List.mem_cons_self)]; exact Bool.false_ne_true
      exact ⟨List.takeWhile_cons_of_neg hj, List.dropWhile_cons_of_neg hj⟩
  obtain ⟨htake, hdrop⟩ := hnow
  rw [replayWrites, htake, hdrop]
  rfl

/-- Without a checkpoint nothing rolls back. -/
theorem recover_of_none {s : State} (hkeeping : s.keeping = []) (hreplay : s.replay = []) (ps : List Nat) : recover s ps = s := by
  rw [recover, hkeeping]
  exact replayWrites_of_packets (s := s) (by rw [hreplay]; exact fun j hj => nomatch hj)

/-- All partitions roll back with all of them. -/
theorem rolledFrom_all (s : State) (n : Nat) : rolledFrom s n (s.parts.map Prod.fst) = s.parts.map Prod.fst := by
  induction n with
  | zero => rfl
  | succ n ih =>
    rw [rolledFrom, List.filter_eq_self.2 fun q hq => Bool.or_eq_true_iff.2 (.inl (List.contains_iff_mem.2 hq)), ih]

/-- The checkpoints kept, and the replay that goes on. -/
def rollState (s : State) : List Checkpoint × List Journal := (s.keeping, s.replay)

theorem rollState_foldl {α : Type} {f : State → α → State} (h : ∀ s a, rollState (f s a) = rollState s) (l : List α) (s : State) :
    rollState (l.foldl f s) = rollState s := by
  induction l generalizing s with
  | nil => rfl
  | cons a l ih => rw [List.foldl_cons, ih, h]

theorem rollState_dropTeam (s : State) (t : Nat) (tm : Team) : rollState (dropTeam s t tm) = rollState s :=
  (congrArg rollState (forgetExits_keeps tm tm.groups (modCtx s tm.ctx fun c => { c with eq := c.eq.filter (· ≠ t) })) :)

/-- What a rollback leaves of the checkpoints and the replay. -/
theorem recoverTo_rolls (ps : List Nat) (cp : Checkpoint) (s : State) :
    (recoverTo ps cp s).keeping = s.keeping ∧ (recoverTo ps cp s).replay = s.replay ++ s.journal.filter (journalOf s ps) := by
  have hdrop := rollState_foldl (f := fun s (e : Nat × Team) => dropTeam s e.1 e.2) (fun s e => rollState_dropTeam s e.1 e.2) (teamsOf s ps) s
  have hbump (s : State) (e : Nat × Partition) : rollState (partPathDrop ((partDies e.2).foldl genBump s) e.2) = rollState s :=
    rollState_foldl (f := genBump) (fun _ _ => rfl) (partDies e.2) s
  have hall := (rollState_foldl hbump (((teamsOf s ps).foldl (fun s e => dropTeam s e.1 e.2) s).parts.filter fun e => ps.contains e.1)
    ((teamsOf s ps).foldl (fun s e => dropTeam s e.1 e.2) s)).trans hdrop
  exact ⟨(congrArg Prod.fst hall :), (congrArg (fun r => r.2 ++ s.journal.filter (journalOf s ps)) hall :)⟩

/-- Memory is the checkpoint's where every partition rolls back. -/
theorem rolledMem_all {s : State} (cp : Checkpoint) {ps : List Nat} (h : ∀ e ∈ s.parts, e.1 ∈ ps) : rolledMem s cp ps = cp.mem := by
  have hrest : s.parts.filter (fun e => !ps.contains e.1) = [] :=
    List.filter_eq_nil_iff.2 fun e he => by simp [h e he]
  have hmem : ∀ m : List Host.Cell, (s.mem.filter fun _ => false).foldl (fun m c => memSet m c.1 c.2) m = m := by
    intro m
    rw [List.filter_false]
    rfl
  simp only [rolledMem, hrest, List.flatMap_nil, List.any_nil, Bool.not_false, hmem, List.filter_true]

/-- With a newest checkpoint that covers them, all partitions roll back to it. -/
theorem recover_all {s : State} {cp : Checkpoint} {rest : List Checkpoint} {ps : List Nat} (hkeeping : s.keeping = cp :: rest)
    (hsome : ps ≠ []) (hcovers : ∀ p ∈ ps, p ∈ cp.covers) (hpackets : ∀ j ∈ s.journal, isPacket j = true) (hreplay : s.replay = []) :
    recover s ps = recoverTo ps cp s := by
  obtain ⟨hkept, hreplayed⟩ := recoverTo_rolls ps cp s
  have hfirst : coveredBy s ps 0 = ps := by
    refine List.filter_eq_self.2 fun p hp => ?_
    simp [hkeeping, hcovers p hp]
  have hlater : ∀ n, coveredBy (recoverTo ps cp s) ps (n + 1) = [] := by
    intro n
    refine List.filter_eq_nil_iff.2 fun p hp => ?_
    simp [hkept, hkeeping, hcovers p hp]
  have hrest : ∀ (l : List Checkpoint) (n : Nat), (l.zipIdx (n + 1)).foldl (fun s e =>
      let now := coveredBy s ps e.2
      if now = [] then s else recoverTo now e.1 s) (recoverTo ps cp s) = recoverTo ps cp s := by
    intro l
    induction l with
    | nil => exact fun _ => rfl
    | cons c l ih =>
      intro n
      rw [List.zipIdx_cons, List.foldl_cons]
      dsimp only
      rw [if_pos (hlater n)]
      exact ih (n + 1)
  have hfold : recover s ps = replayWrites (recoverTo ps cp s) := by
    rw [recover, hkeeping, List.zipIdx_cons, List.foldl_cons]
    dsimp only
    rw [hfirst, if_neg hsome]
    exact congrArg replayWrites (hrest rest 0)
  rw [hfold]
  refine replayWrites_of_packets fun j hj => hpackets j ?_
  rw [hreplayed, hreplay] at hj
  exact (List.mem_filter.1 hj).1

theorem dieFaultReplay_fences {s : State} (die : Nat) (hkeeping : s.keeping = []) (hreplay : s.replay = []) :
    exec (.dieFaultReplay die) s = .next (fenceDie s die) := by
  rw [exec_dieFaultReplay, recoverParts, recover_of_none (s := fenceDie s die) hkeeping hreplay]

theorem dieFaultReplay_rollsBack {s : State} {die : Nat} {cp : Checkpoint} {rest : List Checkpoint} (hkeeping : s.keeping = cp :: rest)
    (hparts : s.parts ≠ []) (hon : partsOn s die = s.parts.map Prod.fst) (hcovers : ∀ e ∈ s.parts, e.1 ∈ cp.covers)
    (hjournal : (s.journal.filter fun j => !isPacket j) = []) (hreplay : s.replay = []) :
    ∃ u, exec (.dieFaultReplay die) s = .next u ∧ u.mem = cp.mem := by
  have hrolled : recoverParts (fenceDie s die) (partsOn s die) = recoverTo (s.parts.map Prod.fst) cp (fenceDie s die) := by
    rw [recoverParts, hon, ← fenceDie_partNames s die, rolledFrom_all]
    refine recover_all (rest := rest) hkeeping ?_ ?_ (fun j hj => ?_) hreplay
    · simpa [fenceDie_partNames] using hparts
    · rw [fenceDie_partNames]
      exact List.forall_mem_map.2 hcovers
    · simpa using List.filter_eq_nil_iff.1 hjournal j hj
  refine ⟨_, exec_dieFaultReplay s die, ?_⟩
  rw [hrolled]
  exact rolledMem_all cp fun e he => fenceDie_partNames s die ▸ List.mem_map_of_mem he

/-- Settles O58: each event by what it leaves, and a rollback of all partitions by the newest checkpoint. -/
theorem errorsAndFaults : Obligations.ErrorsAndFaults := by
  refine ⟨⟨fun s r => ceCount_correctedError r s, fun _ _ => rfl, linkPortFail_leaves,
    fun _ _ => ⟨spareActivation_counts, spareActivation_stays⟩, fun _ _ => uncorrectableError_line, fun _ _ => rfl, fun _ _ => rfl,
    fun _ => rfl⟩, fun s die hkeeping hreplay => ?_, fun s die cp rest hkeeping hparts hon hcovers hjournal hreplay => ?_,
    fun _ => rfl, fun _ => rfl⟩
  · exact ⟨_, dieFaultReplay_fences die hkeeping hreplay, fenceDie_fenced s die, fenceDie_clusters, fun _ => fenceDie_clmask s die, rfl, rfl⟩
  · obtain ⟨u, hu, hmem⟩ := dieFaultReplay_rollsBack hkeeping hparts hon hcovers hjournal hreplay
    exact ⟨u, hu, fun a => by rw [hmem]⟩

end Sys2Proof.Laws
end
